-- ==== Sys2Proof/Word.lean ====
section
/-! DEFINITION. The plainest data of the model: bytes, the sparse tables in which indexed families of
state are held, and the sparse byte memories in canonical form. -/

namespace Sys2Proof

abbrev Byte := BitVec 8
abbrev Bytes := List Byte

/-- A finite family of state indexed by number. An index that is not listed holds the family's default. -/
abbrev Tab (α : Type) := List (Nat × α)

namespace Tab

variable {α : Type}

/-- The entry at `k`, if one is listed. -/
def find (t : Tab α) (k : Nat) : Option α :=
  match t with
  | [] => none
  | (j, v) :: rest => if j = k then some v else find rest k

/-- The entry at `k`, or the default. -/
def get (d : α) (t : Tab α) (k : Nat) : α := (find t k).getD d

/-- `t` with `v` at `k`; listed in rising order when `t` is. -/
def set (t : Tab α) (k : Nat) (v : α) : Tab α :=
  match t with
  | [] => [(k, v)]
  | (j, w) :: rest =>
    if k < j then (k, v) :: (j, w) :: rest
    else if k = j then (k, v) :: rest
    else (j, w) :: set rest k v

/-- `t` without any entry at `k`. -/
def erase (t : Tab α) (k : Nat) : Tab α :=
  match t with
  | [] => []
  | (j, w) :: rest => if j = k then erase rest k else (j, w) :: erase rest k

/-- Every listed value through `f`. -/
def mapVals (f : Nat → α → α) (t : Tab α) : Tab α := t.map fun p => (p.1, f p.1 p.2)

/-- The entries that satisfy `p`. -/
def keep (p : Nat → α → Bool) (t : Tab α) : Tab α := t.filter fun e => p e.1 e.2

end Tab

/-- A byte memory: listed cells only, in the canonical form of `Mem.wf`. `Host.Cell` is the same pair. -/
abbrev Mem := List (Nat × Byte)

namespace Mem

/-- The byte at `a`; an unlisted address reads as `d`. -/
def read (d : Byte) : Mem → Nat → Byte
  | [], _ => d
  | (j, b) :: rest, a => if j = a then b else if a < j then d else read d rest a

/-- Writes `b` at `a`, keeping the canonical form: writing `d` removes the entry. -/
def write (d : Byte) : Mem → Nat → Byte → Mem
  | [], a, b => if b = d then [] else [(a, b)]
  | (j, c) :: rest, a, b =>
    if a < j then (if b = d then (j, c) :: rest else (a, b) :: (j, c) :: rest)
    else if a = j then (if b = d then rest else (a, b) :: rest)
    else (j, c) :: write d rest a b

/-- Every listed address lies above `lo`, addresses rise strictly, and no listed byte equals `d`. -/
def wfAbove (d : Byte) (lo : Nat) : Mem → Bool
  | [] => true
  | (j, b) :: rest => decide (lo ≤ j) && decide (b ≠ d) && wfAbove d (j + 1) rest

/-- The canonical form: addresses strictly rising, no entry equal to what an unlisted address reads as. -/
def wf (d : Byte) (m : Mem) : Bool := wfAbove d 0 m

/-- `n` bytes from `a` upwards. -/
def readN (d : Byte) (m : Mem) (a n : Nat) : Bytes := (List.range n).map fun i => read d m (a + i)

/-- Writes the bytes from `a` upwards. -/
def writeN (d : Byte) (m : Mem) (a : Nat) : Bytes → Mem
  | [] => m
  | b :: rest => writeN d (write d m a b) (a + 1) rest

/-- Writes `d` over `n` bytes from `a`: drops every listed cell of the range. -/
def clear (m : Mem) (a n : Nat) : Mem := m.filter fun c => decide (c.1 < a) || decide (a + n ≤ c.1)

end Mem

/-- Little-endian number of a byte list. -/
def leNat : Bytes → Nat
  | [] => 0
  | b :: rest => b.toNat + 256 * leNat rest

/-- The `n` low bytes of `v`, least significant first. -/
def leBytes : Nat → Nat → Bytes
  | 0, _ => []
  | n + 1, v => BitVec.ofNat 8 v :: leBytes n (v / 256)

/-- Big-endian number of a byte list. -/
def beNat (bs : Bytes) : Nat := bs.foldl (fun acc b => acc * 256 + b.toNat) 0

/-- The `n` low bytes of `v`, most significant first. -/
def beBytes (n v : Nat) : Bytes := (leBytes n v).reverse

/-- `n` bytes of `bs` from offset `o`; bytes beyond the end read as zero. -/
def slice (bs : Bytes) (o n : Nat) : Bytes :=
  let t := (bs.drop o).take n
  t ++ List.replicate (n - t.length) 0

/-- The little-endian number in `n` bytes at offset `o` of a structure. -/
def leAt (bs : Bytes) (o n : Nat) : Nat := leNat (slice bs o n)

/-- The big-endian number in `n` bytes at offset `o` of a frame. -/
def beAt (bs : Bytes) (o n : Nat) : Nat := beNat (slice bs o n)

/-- Bits `hi..lo` of `v`. -/
def bits (v hi lo : Nat) : Nat := (v >>> lo) % 2 ^ (hi + 1 - lo)

/-- Bit `i` of `v`. -/
def bit (v i : Nat) : Bool := v.testBit i

/-- 1 for true. -/
def b2n (b : Bool) : Nat := if b then 1 else 0

/-- `v` clamped to `lo..hi`. -/
def clampNat (lo hi v : Nat) : Nat := if v < lo then lo else if hi < v then hi else v

/-- `v` clamped to `lo..hi`. -/
def clampInt (lo hi v : Int) : Int := if v < lo then lo else if hi < v then hi else v

/-- `a / b` rounded up; 0 when `b` is 0. -/
def ceilDiv (a b : Nat) : Nat := if b = 0 then 0 else (a + b - 1) / b

/-- The signed value of the low `w` bits of `v`. -/
def toSigned (w v : Nat) : Int :=
  let u := v % 2 ^ w
  if w = 0 then 0 else if u < 2 ^ (w - 1) then (u : Int) else (u : Int) - (2 ^ w : Nat)

/-- The low `w` bits of a signed value, in two's complement. -/
def ofSigned (w : Nat) (v : Int) : Nat := (v % ((2 ^ w : Nat) : Int)).toNat

end Sys2Proof
end

