-- ==== Sys2Proof/Syntax.lean ====
section
/-! DEFINITION. The commands the block takes: one constructor per row of the opcode table. Units are named by their
numbers; what an outside partner sends (frame bytes, measured values, decoded pictures) is an operand. -/

namespace Sys2Proof

/-- The two hub dies (R22). -/
inductive Hub where
  | a | b
deriving DecidableEq, Repr

/-- A PCI function of a host port (R45): physical function 0, physical function 1, or virtual function 1 to 31. -/
inductive Fn where
  | pf0 | pf1 | vf (k : Nat)
deriving DecidableEq, Repr

/-- Who makes a register access (R10, R28): a host function through its port, or the MP of a hub. -/
inductive Requester where
  | host (port : Hub) (fn : Fn)
  | mp (hub : Hub)
deriving DecidableEq, Repr

/-- A store the host makes to its own memory before it rings a doorbell (R58, R72); the model has no other way to see it. -/
structure HostStore where
  addr : Nat
  data : Bytes
deriving DecidableEq, Repr

/-- A slot that belongs to one function: a till's or a queue's 4 KiB window (R53). -/
inductive SlotRef where
  | till (t : Fin 128)
  | queue (q : Fin 16384)
deriving DecidableEq, Repr

/-- A read of `n` bytes, or a write of bytes, on a window. -/
inductive AccessOp where
  | read (n : Nat)
  | write (data : Bytes)
deriving DecidableEq, Repr

/-- What a failed host read was for (R48): a request in flight, or a till's command. -/
inductive HostReadVictim where
  | request (token : Nat)
  | till (t : Fin 128)
deriving DecidableEq, Repr

/-- A Barrow channel: 128 per hub engine, 64 per row engine (R276). -/
inductive Chan where
  | hub (h : Hub) (c : Fin 128)
  | row (r : Fin 8) (c : Fin 64)
deriving DecidableEq, Repr

/-- A Barrow engine (R276). -/
inductive Engine where
  | hub (h : Hub)
  | row (r : Fin 8)
deriving DecidableEq, Repr

/-- A single-event change of one accumulator of an Ox tile: the bits given are inverted (R119). The check columns follow
the data columns, and the check row follows the last row (R114). -/
structure Upset where
  row : Nat
  col : Nat
  flip : Nat
deriving DecidableEq, Repr

/-- An upstream burst as the optical receiver hands it over (R353, R356): the grain it began in, its offset from that
grain's start in nanoseconds, the bid slot it answers where it is a bid (the manual does not say how the receiver tells
an unranged bid's slot, log entry 17), the code words received and corrected, the content bytes, and the ranges of them
(first byte, length) that lie in uncorrectable code words. -/
structure Burst where
  grain : Nat
  offsetNs : Int
  slot : Nat
  cwTotal : Nat
  cwCorr : Nat
  lost : List (Nat × Nat)
  content : Bytes
deriving DecidableEq, Repr

/-- A picture that leaves the decoder (R413): the number of the access unit it was coded in, its cropped size and bit
depth, its samples in raster order, whether it is monochrome, and the luma rows that are corrupt or tainted (first row,
count; R418). The cited standards define the decoder, so what it yields enters as an operand. -/
structure Picture where
  unit : Nat
  width : Nat
  height : Nat
  bitDepth : Nat
  mono : Bool
  yPlane : List Nat
  cbPlane : List Nat
  crPlane : List Nat
  corruptRows : List (Nat × Nat)
deriving DecidableEq, Repr

/-- What the decoder yields for one access unit (R412, R413, R418): the refused profile and level where the active
parameter set falls outside Table 17.1, whether the picture is an IRAP or IDR picture, luma samples decoded, corrupt
slices, and the pictures output. -/
structure Decoded where
  refused : Option (Nat × Nat)
  irap : Bool
  samples : Nat
  corruptSlices : Nat
  pictures : List Picture
deriving DecidableEq, Repr

/-- Code words of a neighbour link that a frame overlaps (R394): corrected, and whether one was uncorrectable. -/
structure LineCw where
  corrected : Nat
  uncorrectable : Bool
deriving DecidableEq, Repr

/-- Outcome of the start-up tests of each hub (R32, R481): an outside fact. -/
structure StartTests where
  failA : Bool
  failB : Bool
deriving DecidableEq, Repr

/-- The commands of the block: one constructor per row of the opcode table; the docstring names the row and the rule it comes from. -/
inductive Instr where
  /-- TILL_GO (R58). -/
  | tillGo (port : Hub) (fn : Fn) (till : Fin 128) (content : Bytes) (stores : List HostStore)
  /-- TILL_OVERRUN_CLEAR (R58). -/
  | tillOverrunClear (port : Hub) (fn : Fn) (till : Fin 128)
  /-- REGISTER_WRITE (R10). -/
  | registerWrite (req : Requester) (addr : Nat) (data : Bytes)
  /-- FOREIGN_SLOT_ACCESS (R53). -/
  | foreignSlotAccess (port : Hub) (fn : Fn) (slot : SlotRef) (op : AccessOp)
  /-- PCI_DENIED_COUNT_READ (R53). -/
  | pciDeniedCountRead (port : Hub)
  /-- APERTURE_ACCESS (R54). -/
  | apertureAccess (port : Hub) (offset : Nat) (op : AccessOp)
  /-- PCI_FLR (R51). -/
  | pciFlr (port : Hub) (fn : Fn)
  /-- VF_ENABLE_CLEAR (R51). -/
  | vfEnableClear (port : Hub)
  /-- HOST_READ_FAILED (R48). -/
  | hostReadFailed (victim : HostReadVictim)
  /-- IDE_CHECK_FAIL (R438). -/
  | ideCheckFail (port : Hub)
  /-- GET_VERSION (R437). -/
  | getVersion (port : Hub) (request : Bytes)
  /-- GET_CAPABILITIES (R437). -/
  | getCapabilities (port : Hub) (request : Bytes)
  /-- NEGOTIATE_ALGORITHMS (R437). -/
  | negotiateAlgorithms (port : Hub) (request : Bytes)
  /-- GET_DIGESTS (R437). -/
  | getDigests (port : Hub) (request : Bytes)
  /-- GET_CERTIFICATE (R437). -/
  | getCertificate (port : Hub) (request : Bytes)
  /-- CHALLENGE_SPDM (R437). -/
  | challengeSpdm (port : Hub) (request : Bytes)
  /-- KEY_EXCHANGE (R437). -/
  | keyExchange (port : Hub) (request : Bytes)
  /-- FINISH (R437). -/
  | finish (port : Hub) (request : Bytes)
  /-- KEY_UPDATE (R437). -/
  | keyUpdate (port : Hub) (request : Bytes)
  /-- END_SESSION (R437). -/
  | endSession (port : Hub) (request : Bytes)
  /-- IDE_KM_QUERY (R437). -/
  | ideKmQuery (port : Hub) (request : Bytes)
  /-- KEY_PROG (R437). -/
  | keyProg (port : Hub) (request : Bytes)
  /-- K_SET_GO (R437). -/
  | kSetGo (port : Hub) (request : Bytes)
  /-- K_SET_STOP (R437). -/
  | kSetStop (port : Hub) (request : Bytes)
  /-- QUE_PROD (R72). -/
  | queProd (port : Hub) (fn : Fn) (queue : Fin 16384) (value : Nat) (stores : List HostStore)
  /-- QUE_CONS (R73). -/
  | queCons (port : Hub) (fn : Fn) (queue : Fin 16384) (value : Nat)
  /-- DB_REJECT_CLEAR (R72). -/
  | dbRejectClear (port : Hub) (fn : Fn) (queue : Fin 16384)
  /-- QUE_DROP_READ (R75). -/
  | queDropRead (port : Hub) (fn : Fn) (queue : Fin 16384)
  /-- REQUEST_INTAKE (R197). -/
  | requestIntake (queue : Fin 16384)
  /-- STALL_DISPATCH (R189). -/
  | stallDispatch (row : Fin 8) (stall : Fin 16)
  /-- EXP_BLOCK_FETCH (R172). -/
  | expBlockFetch (row : Fin 8) (stall : Fin 16) (lane : Fin 16)
  /-- EXP_BLOCK_DECODED (R176). -/
  | expBlockDecoded (row : Fin 8) (stall : Fin 16) (lane : Fin 16)
  /-- OX_TILE_END (R119). -/
  | oxTileEnd (row : Fin 8) (stall : Fin 16) (upsets : List Upset)
  /-- OX_STEP_END (R110). -/
  | oxStepEnd (row : Fin 8) (stall : Fin 16)
  /-- VU_ROW_END (R126). -/
  | vuRowEnd (row : Fin 8) (stall : Fin 16)
  /-- VU_STEP_END (R123). -/
  | vuStepEnd (row : Fin 8) (stall : Fin 16)
  /-- GATHER (R141). -/
  | gather (row : Fin 8) (stall : Fin 16)
  /-- SCATTER_ADD (R141). -/
  | scatterAdd (row : Fin 8) (stall : Fin 16)
  /-- SEG_SUM (R142). -/
  | segSum (row : Fin 8) (stall : Fin 16)
  /-- SEG_MAX (R142). -/
  | segMax (row : Fin 8) (stall : Fin 16)
  /-- SEG_MIN (R142). -/
  | segMin (row : Fin 8) (stall : Fin 16)
  /-- SEG_ARGMAX (R142). -/
  | segArgmax (row : Fin 8) (stall : Fin 16)
  /-- SORT (R143). -/
  | sort (row : Fin 8) (stall : Fin 16)
  /-- INTERSECT (R144). -/
  | intersect (row : Fin 8) (stall : Fin 16)
  /-- UNION (R144). -/
  | union (row : Fin 8) (stall : Fin 16)
  /-- DIFF (R144). -/
  | diff (row : Fin 8) (stall : Fin 16)
  /-- TOPK (R145). -/
  | topk (row : Fin 8) (stall : Fin 16)
  /-- HASH_INSERT (R146). -/
  | hashInsert (row : Fin 8) (stall : Fin 16)
  /-- HASH_PROBE (R146). -/
  | hashProbe (row : Fin 8) (stall : Fin 16)
  /-- MSG (R147). -/
  | msg (row : Fin 8) (stall : Fin 16)
  /-- ASSIGN (R148). -/
  | assign (row : Fin 8) (stall : Fin 16)
  /-- LEDGER_COMMIT (R212). -/
  | ledgerCommit (row : Fin 8) (limg : Fin 8)
  /-- LEDGER_ABORT (R214). -/
  | ledgerAbort (row : Fin 8) (limg : Fin 8) (pass group cause : Nat)
  /-- FJ_HELD_RELEASE (R30). -/
  | fjHeldRelease (hub : Hub)
  /-- SHADOW_RUN_END (R230). -/
  | shadowRunEnd (row : Fin 8) (id : Nat) (fault : BitVec 64)
  /-- VOTE_START (R231). -/
  | voteStart (row : Fin 8) (id : Nat)
  /-- VOTE_COPY_DONE (R234). -/
  | voteCopyDone (row : Fin 8) (id : Nat)
  /-- REFEREE_END (R232). -/
  | refereeEnd (row : Fin 8) (id : Nat) (fault : BitVec 64) (checkFailed : Bool)
  /-- REPEAT_END (R236). -/
  | repeatEnd (row : Fin 8) (id : Nat) (fault : BitVec 64)
  /-- STALL_RETIRE (R237). -/
  | stallRetire (row : Fin 8) (stall : Fin 16)
  /-- OBSERVATION_CLEAR (R238). -/
  | observationClear (row : Fin 8) (stall : Fin 16)
  /-- ROW_WATCH_EXPIRE (R240). -/
  | rowWatchExpire (row : Fin 8)
  /-- TICK_TOTALS_ADD (R239). -/
  | tickTotalsAdd (ticks : Nat)
  /-- TICK_TOTALS_SAVE (R239). -/
  | tickTotalsSave
  /-- TALLY_SELFTEST_GO (R241). -/
  | tallySelftestGo (req : Requester) (row : Fin 8)
  /-- SELFTEST_END (R241). -/
  | selftestEnd (row : Fin 8) (failed : Bool)
  /-- PACK_RUN_DUE (R244). -/
  | packRunDue (row : Fin 8) (stall : Fin 16)
  /-- PATTERN_TEST_START (R244). -/
  | patternTestStart (row : Fin 8) (stall : Fin 16)
  /-- PATTERN_TEST_END (R245). -/
  | patternTestEnd (row : Fin 8) (stall : Fin 16) (fault : BitVec 64)
  /-- LOT_READ_RETURN (R268). -/
  | lotReadReturn (id : Nat)
  /-- LOT_READ_LATE (R268). -/
  | lotReadLate (id : Nat)
  /-- ARRAY_PAGE_READ (R302). -/
  | arrayPageRead (id : Nat) (row : Fin 8) (internalFail : Bool)
  /-- POOL_FILL_DONE (R265). -/
  | poolFillDone (hub : Hub) (frame : Nat) (failed : Bool)
  /-- POOL_DRAIN_DONE (R265). -/
  | poolDrainDone (hub : Hub) (frame : Nat)
  /-- POOL_INVALID_DRAINED (R265). -/
  | poolInvalidDrained (hub : Hub) (frame : Nat)
  /-- T1_SCRUB_STEP (R272). -/
  | t1ScrubStep (hub : Hub) (line : Nat) (errors : Nat)
  /-- BRW_CH_ENABLE (R288). -/
  | brwChEnable (req : Requester) (chan : Chan)
  /-- BRW_CH_DISABLE (R291). -/
  | brwChDisable (req : Requester) (chan : Chan)
  /-- BRW_BURST_ISSUE (R286). -/
  | brwBurstIssue (engine : Engine)
  /-- BRW_BURST_COMPLETE (R283). -/
  | brwBurstComplete (chan : Chan)
  /-- BRW_SLOT_READY (R284). -/
  | brwSlotReady (chan : Chan)
  /-- BRW_DESCRIPTOR_END (R284). -/
  | brwDescriptorEnd (chan : Chan)
  /-- RECOVER_RESUME (R290). -/
  | recoverResume (req : Requester) (chan : Chan)
  /-- RECOVER_SKIP (R290). -/
  | recoverSkip (req : Requester) (chan : Chan)
  /-- BRW_ERR_CLEAR (R294). -/
  | brwErrClear (req : Requester) (chan : Chan)
  /-- NVMC_WINDOW_WRITE (R306). -/
  | nvmcWindowWrite (req : Requester) (row : Fin 8) (offset : Nat) (data : Bytes)
  /-- NVMC_UNLOCK_LAPSE (R306). -/
  | nvmcUnlockLapse (row : Fin 8)
  /-- PROGRAM_PAGE (R310). -/
  | programPage (row : Fin 8)
  /-- ERASE_BLOCK (R308). -/
  | eraseBlock (row : Fin 8)
  /-- BLANK_CHECK (R310). -/
  | blankCheck (row : Fin 8)
  /-- SUSPEND (R312). -/
  | suspend (row : Fin 8)
  /-- NVM_RESUME (R312). -/
  | nvmResume (row : Fin 8)
  /-- READ_STATUS (R307). -/
  | readStatus (row : Fin 8)
  /-- WP_SET (R311). -/
  | wpSet (row : Fin 8)
  /-- WP_CLEAR (R311). -/
  | wpClear (row : Fin 8)
  /-- WP_FREEZE (R311). -/
  | wpFreeze (row : Fin 8)
  /-- READ_PAGE_PHYS (R309). -/
  | readPagePhys (row : Fin 8)
  /-- ERASE_DEFERRED_START (R299). -/
  | eraseDeferredStart (row : Fin 8) (bank : Fin 16)
  /-- SUSPEND_EFFECT (R312). -/
  | suspendEffect (row : Fin 8) (bank : Fin 16)
  /-- PROGRAM_END (R310). -/
  | programEnd (row : Fin 8) (bank : Fin 16) (verified : Bool)
  /-- ERASE_END (R310). -/
  | eraseEnd (row : Fin 8) (bank : Fin 16) (verified : Bool)
  /-- READ_PAGE_PHYS_END (R319). -/
  | readPagePhysEnd (row : Fin 8) (bank : Fin 16) (internalFail : Bool)
  /-- NVMC_BMAP_GO (R298). -/
  | nvmcBmapGo (req : Requester) (row : Fin 8) (count : Nat)
  /-- NVMC_JOURNAL_WRITE (R298). -/
  | nvmcJournalWrite (row : Fin 8)
  /-- NVM_SCRUB_PAGE (R314). -/
  | nvmScrubPage (row : Fin 8) (weak : Bool) (uncorrectable : Bool)
  /-- MIRROR_SETTLE (R316). -/
  | mirrorSettle (row : Fin 8) (lblock : Nat)
  /-- RELOCATION (R315). -/
  | relocation (row : Fin 8) (lblock : Nat)
  /-- BROWNOUT_ASSERT (R313). -/
  | brownoutAssert
  /-- BROWNOUT_CLEAR (R313). -/
  | brownoutClear (tests : StartTests)
  /-- SHARD_VERIFY (R327). -/
  | shardVerify (job shard : Nat) (data : Bytes)
  /-- SHARD_TIMEOUT (R327). -/
  | shardTimeout (job shard : Nat)
  /-- INSTALL_DEADLINE (R328). -/
  | installDeadline (job : Nat)
  /-- SWAP_LAYER_PROGRAMMED (R336). -/
  | swapLayerProgrammed (job : Nat)
  /-- SWAP_LAYER_TABLED (R336). -/
  | swapLayerTabled (job : Nat)
  /-- SWAP_LAYER_FLIP (R337). -/
  | swapLayerFlip (job : Nat)
  /-- SWAP_BARRIER_TIMEOUT (R336). -/
  | swapBarrierTimeout (job : Nat)
  /-- SWAP_BARRIER_RETRY (R336). -/
  | swapBarrierRetry (job : Nat)
  /-- SWAP_DEADLINE (R328). -/
  | swapDeadline (job : Nat)
  /-- CONSISTENT_SWAP_FLIP (R338). -/
  | consistentSwapFlip (job : Nat)
  /-- CONSISTENT_SWAP_DEADLINE (R338). -/
  | consistentSwapDeadline (job : Nat)
  /-- TREE_FRAME (R349). -/
  | treeFrame (port : Fin 8)
  /-- TREE_BURST (R353). -/
  | treeBurst (port : Fin 8) (burst : Burst)
  /-- UPSTREAM_FRAME_END (R364). -/
  | upstreamFrameEnd (port : Fin 8) (stray : List Nat)
  /-- SWEEP_ROUND (R365). -/
  | sweepRound (port : Fin 8) (stray : List Nat)
  /-- CERT (R378). -/
  | cert (port : Fin 8) (frame : Bytes)
  /-- RESPONSE (R378). -/
  | response (port : Fin 8) (frame : Bytes)
  /-- RESUME (R380). -/
  | resume (port : Fin 8) (frame : Bytes)
  /-- KEY_ACK (R387). -/
  | keyAck (port : Fin 8) (frame : Bytes)
  /-- BIND_ACK (R382). -/
  | bindAck (port : Fin 8) (frame : Bytes)
  /-- DATA (R382). -/
  | data (port : Fin 8) (frame : Bytes)
  /-- LEAVE (R381). -/
  | leave (port : Fin 8) (frame : Bytes)
  /-- LEAVE_ACK (R375). -/
  | leaveAck (port : Fin 8) (frame : Bytes)
  /-- SESS_RESP_TIMEOUT (R381). -/
  | sessRespTimeout (port : Fin 8) (lid : Fin 128)
  /-- SESS_PARK_EXPIRE (R381). -/
  | sessParkExpire (port : Fin 8) (lid : Fin 128)
  /-- SESS_REKEY_TRIGGER (R386). -/
  | sessRekeyTrigger (port : Fin 8) (lid : Fin 128)
  /-- SESS_HOLE_SKIP (R385). -/
  | sessHoleSkip (port : Fin 8) (lid : Fin 128)
  /-- SESS_OLD_EPOCH_EXPIRE (R387). -/
  | sessOldEpochExpire (port : Fin 8) (lid : Fin 128)
  /-- PCS_ALIGNED (R396). -/
  | pcsAligned (port : Fin 4)
  /-- PCS_ALIGN_LOST (R396). -/
  | pcsAlignLost (port : Fin 4)
  /-- HELLO (R396). -/
  | hello (port : Fin 4) (line : LineCw) (frame : Bytes)
  /-- NBR_CERT (R397). -/
  | nbrCert (port : Fin 4) (line : LineCw) (frame : Bytes)
  /-- PROOF (R397). -/
  | proof (port : Fin 4) (line : LineCw) (frame : Bytes)
  /-- KEYS (R397). -/
  | keys (port : Fin 4) (line : LineCw) (frame : Bytes)
  /-- KEYS_ACK (R398). -/
  | keysAck (port : Fin 4) (line : LineCw) (frame : Bytes)
  /-- REFUSE (R396). -/
  | refuse (port : Fin 4) (line : LineCw) (frame : Bytes)
  /-- ACK (R399). -/
  | ack (port : Fin 4) (line : LineCw) (frame : Bytes)
  /-- KEEPALIVE (R396). -/
  | keepalive (port : Fin 4) (line : LineCw) (frame : Bytes)
  /-- LOT_REQ (R401). -/
  | lotReq (port : Fin 4) (line : LineCw) (frame : Bytes)
  /-- LOT_OFFER (R401). -/
  | lotOffer (port : Fin 4) (line : LineCw) (frame : Bytes)
  /-- LOT_REFUSE (R401). -/
  | lotRefuse (port : Fin 4) (line : LineCw) (frame : Bytes)
  /-- SHARD_WANT (R401). -/
  | shardWant (port : Fin 4) (line : LineCw) (frame : Bytes)
  /-- SHARD_DATA (R401). -/
  | shardData (port : Fin 4) (line : LineCw) (frame : Bytes)
  /-- SHARD_ACK (R401). -/
  | shardAck (port : Fin 4) (line : LineCw) (frame : Bytes)
  /-- LOT_DONE (R401). -/
  | lotDone (port : Fin 4) (line : LineCw) (frame : Bytes)
  /-- PAGE_READ (R402). -/
  | pageRead (port : Fin 4) (line : LineCw) (frame : Bytes)
  /-- PAGE_DATA (R402). -/
  | pageData (port : Fin 4) (line : LineCw) (frame : Bytes)
  /-- PAGE_FAIL (R402). -/
  | pageFail (port : Fin 4) (line : LineCw) (frame : Bytes)
  /-- WITHDRAW (R402). -/
  | withdraw (port : Fin 4) (line : LineCw) (frame : Bytes)
  /-- ITEM (R221). -/
  | item (port : Fin 4) (line : LineCw) (frame : Bytes)
  /-- NOTICE (R221). -/
  | notice (port : Fin 4) (line : LineCw) (frame : Bytes)
  /-- NBR_RESP_TIMEOUT (R396). -/
  | nbrRespTimeout (port : Fin 4)
  /-- NBR_HOLDOFF_EXPIRE (R396). -/
  | nbrHoldoffExpire (port : Fin 4)
  /-- NBR_DEAD (R396). -/
  | nbrDead (port : Fin 4)
  /-- NBR_KEEPALIVE_SEND (R396). -/
  | nbrKeepaliveSend (port : Fin 4)
  /-- NBR_RTO (R399). -/
  | nbrRto (port : Fin 4) (conv : Nat) (seq : Nat)
  /-- NBR_REKEY_TRIGGER (R398). -/
  | nbrRekeyTrigger (port : Fin 4)
  /-- NBR_OLD_EPOCH_EXPIRE (R398). -/
  | nbrOldEpochExpire (port : Fin 4)
  /-- NOTICE_LIMIT (R222). -/
  | noticeLimit (port : Fin 4) (tag : Nat)
  /-- VDEC_DECODE_START (R410). -/
  | vdecDecodeStart (engine : Fin 16)
  /-- VDEC_PICTURE_DONE (R417). -/
  | vdecPictureDone (engine : Fin 16) (decoded : Decoded)
  /-- GOOSE_COMMIT (R460). -/
  | gooseCommit (half : Hub) (eval verdict : BitVec 32)
  /-- GOOSE_STALE_TIMEOUT (R460). -/
  | gooseStaleTimeout
  /-- PEN_WEDGE_DETECT (R444). -/
  | penWedgeDetect (pen : Fin 32)
  /-- PEN_RESET_DONE (R445). -/
  | penResetDone (pen : Fin 32)
  /-- PAIR_SYNC (R449). -/
  | pairSync (pen : Fin 32)
  /-- UNIT_STUCK (R451). -/
  | unitStuck (row : Fin 8) (stall : Fin 16)
  /-- MP_HEARTBEAT (R451). -/
  | mpHeartbeat (hub : Hub)
  /-- HUB_LOST (R452). -/
  | hubLost (hub : Hub)
  /-- MP_LOST (R452). -/
  | mpLost
  /-- ROW_LOST (R452). -/
  | rowLost (row : Fin 8)
  /-- ROW_LINK_LOST (R23). -/
  | rowLinkLost (row : Fin 8) (hub : Hub)
  /-- LOSS_OF_SIGNAL (R451). -/
  | lossOfSignal (port : Nat)
  /-- HANDOVER_STANDBY_READY (R464). -/
  | handoverStandbyReady
  /-- HANDOVER_ROLE_MOVE (R464). -/
  | handoverRoleMove
  /-- HANDOVER_FORMER_READY (R464). -/
  | handoverFormerReady
  /-- POWER_APPLIED (R481). -/
  | powerApplied (feed : Hub)
  /-- MODULE_RESET (R481). -/
  | moduleReset (tests : StartTests)
  /-- FEED_LOST (R493). -/
  | feedLost (feed : Hub)
  /-- FEED_RESTORED (R485). -/
  | feedRestored (feed : Hub)
  /-- POWER_SAMPLE (R479). -/
  | powerSample (va wa vb wb : Nat)
  /-- RAIL_SLEW_STEP (R478). -/
  | railSlewStep (rail : Fin 10)
  /-- THERMAL_LIMIT (R480). -/
  | thermalLimit (rail : Fin 10) (tj : Nat)
  /-- THERMAL_RECOVER (R480). -/
  | thermalRecover (rail : Fin 10) (tj : Nat)
  /-- THERMAL_SHUTDOWN (R491). -/
  | thermalShutdown (rail : Fin 10) (tj : Nat)
  /-- THERMAL_RESTART (R491). -/
  | thermalRestart (tests : StartTests)
  /-- DOMAIN_ENTER_RET (R474). -/
  | domainEnterRet (domain : Fin 176)
  /-- DOMAIN_ENTER_OFF (R474). -/
  | domainEnterOff (domain : Fin 176)
  /-- DOMAIN_FORCE_APPLY (R477). -/
  | domainForceApply (domain : Fin 176)
  /-- DOMAIN_WAKE (R475). -/
  | domainWake (domain : Fin 176)
  /-- DOMAIN_WAKE_DONE (R476). -/
  | domainWakeDone (domain : Fin 176)
  /-- WAKE_PULSE (R475). -/
  | wakePulse (req : Requester) (domain : Fin 176)
  /-- RTC_ALARM_FIRE (R486). -/
  | rtcAlarmFire (hub : Hub) (alarm : Fin 8)
  /-- RTC_ALARM_CLEAR (R486). -/
  | rtcAlarmClear (req : Requester) (hub : Hub) (alarm : Fin 8)
  /-- MGMT_HEARTBEAT (R499). -/
  | mgmtHeartbeat (hub : Hub)
  /-- RESEND (R501). -/
  | resend (hub : Hub) (frame : Bytes)
  /-- ATTEST (R501). -/
  | attest (hub : Hub) (frame : Bytes)
  /-- MGMT_LINK_UP (R500). -/
  | mgmtLinkUp (hub : Hub)
  /-- MGMT_LINK_DOWN (R500). -/
  | mgmtLinkDown (hub : Hub)
  /-- OX_CLEAR_LAST (R132). -/
  | oxClearLast (req : Requester) (row : Fin 8) (stall : Fin 16)
  /-- OX_CLEAR_STATS (R132). -/
  | oxClearStats (req : Requester) (row : Fin 8) (stall : Fin 16)
  /-- VU_CLEAR_STATS (R132). -/
  | vuClearStats (req : Requester) (row : Fin 8) (stall : Fin 16)
  /-- HEN_CLEAR_STATS (R154). -/
  | henClearStats (req : Requester) (row : Fin 8) (stall : Fin 16)
  /-- EXP_CLEAR_LAST (R179). -/
  | expClearLast (req : Requester) (row : Fin 8) (stall : Fin 16)
  /-- EXP_CLEAR_STATS (R179). -/
  | expClearStats (req : Requester) (row : Fin 8) (stall : Fin 16)
  /-- STALL_CLEAR_STATS (R203). -/
  | stallClearStats (req : Requester) (row : Fin 8) (stall : Fin 16)
  /-- LEDGER_CLEAR_LAST (R223). -/
  | ledgerClearLast (req : Requester) (row : Fin 8)
  /-- LEDGER_CLEAR_STATS (R223). -/
  | ledgerClearStats (req : Requester) (row : Fin 8)
  /-- TALLY_CLEAR_LAST (R253). -/
  | tallyClearLast (req : Requester) (row : Fin 8)
  /-- TALLY_CLEAR_STATS (R253). -/
  | tallyClearStats (req : Requester) (row : Fin 8)
  /-- MMU_CLEAR_CE (R275). -/
  | mmuClearCe (req : Requester) (hub : Hub)
  /-- MMU_CLEAR_LAST (R257). -/
  | mmuClearLast (req : Requester) (hub : Hub)
  /-- MMU_CLEAR_STATS (R275). -/
  | mmuClearStats (req : Requester) (hub : Hub)
  /-- BRW_CLEAR_STATS (R294). -/
  | brwClearStats (req : Requester) (engine : Engine)
  /-- NVMC_CLEAR_LAST (R319). -/
  | nvmcClearLast (req : Requester) (row : Fin 8)
  /-- NVMC_CLEAR_STATS (R319). -/
  | nvmcClearStats (req : Requester) (row : Fin 8)
  /-- TREE_CLEAR_LAST (R371). -/
  | treeClearLast (req : Requester) (port : Fin 8)
  /-- TREE_CLEAR_STATS (R371). -/
  | treeClearStats (req : Requester) (port : Fin 8)
  /-- SESS_CLEAR_STATS (R393). -/
  | sessClearStats (req : Requester) (port : Fin 8)
  /-- NBR_CLEAR_STATS (R409). -/
  | nbrClearStats (req : Requester) (port : Fin 4)
  /-- VDEC_CLEAR_STATS (R132). -/
  | vdecClearStats (req : Requester) (engine : Fin 16)
  /-- WAT_CLEAR_LAST (R441). -/
  | watClearLast (req : Requester) (hub : Hub)
  /-- WAT_CLEAR_STATS (R441). -/
  | watClearStats (req : Requester) (hub : Hub)
  /-- GOOSE_CLEAR_STATS (R470). -/
  | gooseClearStats (req : Requester) (hub : Hub)
  /-- MGMT_CLEAR_STATS (R504). -/
  | mgmtClearStats (req : Requester) (hub : Hub)
  /-- PEN_CREATE (R443). -/
  | penCreate (till : Fin 128)
  /-- PEN_DESTROY (R443). -/
  | penDestroy (till : Fin 128)
  /-- PEN_STALLS (R466). -/
  | penStalls (till : Fin 128)
  /-- PEN_GRANT (R466). -/
  | penGrant (till : Fin 128)
  /-- PEN_QUEUE (R74). -/
  | penQueue (till : Fin 128)
  /-- PEN_PAIR (R447). -/
  | penPair (till : Fin 128)
  /-- PEN_RESET (R445). -/
  | penReset (till : Fin 128)
  /-- PEN_SHED (R456). -/
  | penShed (till : Fin 128)
  /-- PEN_RESTORE (R456). -/
  | penRestore (till : Fin 128)
  /-- PEN_SPARES (R453). -/
  | penSpares (till : Fin 128)
  /-- PEN_GOOSE (R457). -/
  | penGoose (till : Fin 128)
  /-- PEN_QUERY (R466). -/
  | penQuery (till : Fin 128)
  /-- SCHED_LOAD (R201). -/
  | schedLoad (till : Fin 128)
  /-- SCHED_LOAD_DONE (R199). -/
  | schedLoadDone (handle : Nat)
  /-- SCHED_START (R201). -/
  | schedStart (till : Fin 128)
  /-- SCHED_PAUSE (R201). -/
  | schedPause (till : Fin 128)
  /-- SCHED_RESUME (R201). -/
  | schedResume (till : Fin 128)
  /-- SCHED_RETIRE (R201). -/
  | schedRetire (till : Fin 128)
  /-- SCHED_QUERY (R200). -/
  | schedQuery (till : Fin 128)
  /-- WEIGHT_INSTALL (R322). -/
  | weightInstall (till : Fin 128)
  /-- WEIGHT_GRANT (R330). -/
  | weightGrant (till : Fin 128)
  /-- WEIGHT_REVOKE (R342). -/
  | weightRevoke (till : Fin 128)
  /-- WEIGHT_SWAP (R335). -/
  | weightSwap (till : Fin 128)
  /-- WEIGHT_REMOVE (R342). -/
  | weightRemove (till : Fin 128)
  /-- WEIGHT_QUERY (R342). -/
  | weightQuery (till : Fin 128)
  /-- WEIGHT_ADAPTER (R331). -/
  | weightAdapter (till : Fin 128)
  /-- MEM_MAP (R274). -/
  | memMap (till : Fin 128)
  /-- MEM_MAP_ZEROED (R263). -/
  | memMapZeroed (handle : Nat)
  /-- MEM_UNMAP (R274). -/
  | memUnmap (till : Fin 128)
  /-- MEM_QUERY (R274). -/
  | memQuery (till : Fin 128)
  /-- MEM_PROMOTE (R274). -/
  | memPromote (till : Fin 128)
  /-- MEM_QUOTA (R263). -/
  | memQuota (till : Fin 128)
  /-- MEM_POOL_SET (R264). -/
  | memPoolSet (till : Fin 128)
  /-- MEM_TILE_MAP (R273). -/
  | memTileMap (till : Fin 128)
  /-- MEM_TILE_UNMAP (R274). -/
  | memTileUnmap (till : Fin 128)
  /-- CHECK_SET (R224). -/
  | checkSet (till : Fin 128)
  /-- CHECK_GET (R251). -/
  | checkGet (till : Fin 128)
  /-- CHECK_PROBE (R246). -/
  | checkProbe (till : Fin 128)
  /-- CHECK_PROBE_DEADLINE (R246). -/
  | checkProbeDeadline (handle : Nat)
  /-- CHECK_PACK_INSTALL (R243). -/
  | checkPackInstall (till : Fin 128)
  /-- LOG_EXPORT (R251). -/
  | logExport (till : Fin 128)
  /-- LOG_MGMT_SET (R503). -/
  | logMgmtSet (till : Fin 128)
  /-- TREE_PORT_SET (R369). -/
  | treePortSet (till : Fin 128)
  /-- TREE_LEASE (R354). -/
  | treeLease (till : Fin 128)
  /-- TREE_REGISTER (R369). -/
  | treeRegister (till : Fin 128)
  /-- TREE_UNREGISTER (R369). -/
  | treeUnregister (till : Fin 128)
  /-- TREE_RELEASE (R369). -/
  | treeRelease (till : Fin 128)
  /-- TREE_SWEEP (R365). -/
  | treeSweep (till : Fin 128)
  /-- TREE_QUERY (R369). -/
  | treeQuery (till : Fin 128)
  /-- SESS_BIND (R391). -/
  | sessBind (till : Fin 128)
  /-- SESS_UNBIND (R391). -/
  | sessUnbind (till : Fin 128)
  /-- SESS_CLOSE (R381). -/
  | sessClose (till : Fin 128)
  /-- SESS_REKEY (R386). -/
  | sessRekey (till : Fin 128)
  /-- SESS_CHALLENGE (R381). -/
  | sessChallenge (till : Fin 128)
  /-- SESS_QUERY (R391). -/
  | sessQuery (till : Fin 128)
  /-- NBR_PORT_SET (R407). -/
  | nbrPortSet (till : Fin 128)
  /-- NBR_ASSIGN (R403). -/
  | nbrAssign (till : Fin 128)
  /-- NBR_REKEY (R398). -/
  | nbrRekey (till : Fin 128)
  /-- NBR_QUERY (R407). -/
  | nbrQuery (till : Fin 128)
  /-- VDEC_STREAM_SET (R411). -/
  | vdecStreamSet (till : Fin 128)
  /-- VDEC_STREAM_CLEAR (R419). -/
  | vdecStreamClear (till : Fin 128)
  /-- VDEC_QUERY (R420). -/
  | vdecQuery (till : Fin 128)
  /-- PWR_DOMAIN_SET (R477). -/
  | pwrDomainSet (till : Fin 128)
  /-- PWR_RAIL_SET (R478). -/
  | pwrRailSet (till : Fin 128)
  /-- PWR_CAP_SET (R479). -/
  | pwrCapSet (till : Fin 128)
  /-- PWR_START_SET (R482). -/
  | pwrStartSet (till : Fin 128)
  /-- PWR_QUERY (R484). -/
  | pwrQuery (till : Fin 128)
  /-- TRUST_ATTEST (R435). -/
  | trustAttest (till : Fin 128)
  /-- TRUST_CERT_GET (R439). -/
  | trustCertGet (till : Fin 128)
  /-- TRUST_CERT_SET (R434). -/
  | trustCertSet (till : Fin 128)
  /-- TRUST_CSR (R439). -/
  | trustCsr (till : Fin 128)
  /-- TRUST_KEY_ADD (R429). -/
  | trustKeyAdd (till : Fin 128)
  /-- TRUST_KEY_REMOVE (R430). -/
  | trustKeyRemove (till : Fin 128)
  /-- TRUST_KEY_LIST (R439). -/
  | trustKeyList (till : Fin 128)
  /-- TRUST_WAT_SET (R426). -/
  | trustWatSet (till : Fin 128)
  /-- TRUST_WAT_ZEROED (R426). -/
  | trustWatZeroed (handle : Nat)
  /-- TRUST_ROLLBACK_SET (R432). -/
  | trustRollbackSet (till : Fin 128)
  /-- TRUST_IDE_POLICY (R438). -/
  | trustIdePolicy (till : Fin 128)
  /-- FW_INSTALL (R467). -/
  | fwInstall (till : Fin 128) (tests : StartTests)
  /-- FW_HANDOVER (R464). -/
  | fwHandover (till : Fin 128)
  /-- FW_QUERY (R467). -/
  | fwQuery (till : Fin 128)
  /-- HOST_LINK_UP (R77). -/
  | hostLinkUp (port : Hub) (rate width : Nat)
  /-- HOST_LINK_DOWN (R77). -/
  | hostLinkDown (port : Hub)
  /-- VF_ENABLE_SET (R50). -/
  | vfEnableSet (port : Hub)
  /-- TILL_BAD_OPCODE (R60). -/
  | tillBadOpcode (till : Fin 128)
  /-- HANDOVER_STANDBY_FAILED (R465). -/
  | handoverStandbyFailed
  /-- STANDBY_MP_LOST (R33). -/
  | standbyMpLost
  /-- PACK_INSTALL_DONE (R243). -/
  | packInstallDone (handle : Nat)
  /-- MGMT_FRAME_SENT (R500). -/
  | mgmtFrameSent (hub : Hub)
  /-- MGMT_MALFORMED_REQUEST (R499). -/
  | mgmtMalformedRequest (hub : Hub) (frame : Bytes)
  /-- NBR_MALFORMED_FRAME (R405). -/
  | nbrMalformedFrame (port : Fin 4) (line : LineCw) (frame : Bytes)
deriving DecidableEq, Repr

end Sys2Proof
end

