-- ==== Sys2Proof/Config.lean ====
section
/-! DEFINITION. Values and functions the manual leaves open or takes from cited standards: opaque constants. Nothing
in Lean can see what they are, so what is proved holds for every choice of them (guide: free values). -/

namespace Sys2Proof.Config

/-- Free natural number for the use numbered by the step's counter `Hall.freeCtr` (log entry 1). -/
opaque freeNat : Nat → Nat

/-- Random source values (R226, R357, R379, R380, R397): `n` bytes for the use numbered by the counter. -/
opaque random : Nat → Nat → Bytes

/-! ### Functions of cited standards (log entry 9) -/

/-- What the parser of RFC 5280 yields for one certificate of a chain: SubjectPublicKeyInfo, signed part, signature,
whether the key is RSA-4096 with exponent 65,537, whether the signature is RSASSA-PSS with SHA-512, basicConstraints. -/
structure Cert where
  spki : Bytes
  tbs : Bytes
  sig : Bytes
  strong : Bool
  pss : Bool
  ca : Bool
  pathLen : Option Nat
deriving DecidableEq, Repr

/-- What a firmware package holds (R431): SVN, FW_BUILD, whether its chain leads to the root key of the boot ROM and
whether its signature verifies. The manual gives the package no layout. -/
structure Firmware where
  svn : Nat
  build : Nat
  chainOk : Bool
  sigOk : Bool
deriving DecidableEq, Repr

/-- SHA-512. -/
opaque sha512 : Bytes → Bytes
/-- The certificates of a DER chain, leaf first. -/
opaque x509 : Bytes → Option (List Cert)
/-- SubjectPublicKeyInfo of a DER SubjectPublicKeyInfo or certificate, and whether it is RSA-4096 with exponent 65,537. -/
opaque publicKey : Bytes → Option (Bytes × Bool)
/-- RSASSA-PSS verification (RFC 8017): key, message, signature. -/
opaque pssVerify : Bytes → Bytes → Bytes → Bool
/-- RSASSA-PSS signature with the module identity key; the number is that of the salt's draw. -/
opaque identitySign : Nat → Bytes → Bytes
/-- SubjectPublicKeyInfo of the module identity key (R433), per module. -/
opaque identityKey : Bytes
/-- Chain 0 (R434), per module. -/
opaque chain0 : Bytes
/-- SHA-512 of a hub's boot ROM (R435). -/
opaque romDigest : Nat → Bytes
/-- RSAES-OAEP wrapping (RFC 8017): key, label, plain text, number of the seed's draw. -/
opaque oaepWrap : Bytes → Bytes → Bytes → Nat → Bytes
/-- RSAES-OAEP unwrapping with the identity key: label, cipher text. -/
opaque oaepUnwrap : Bytes → Bytes → Option Bytes
/-- AES-256-GCM: key, nonce, additional data, plain text; the tag follows the cipher text. -/
opaque gcmSeal : Bytes → Bytes → Bytes → Bytes → Bytes
/-- AES-256-GCM opening: key, nonce, additional data, cipher text with tag. -/
opaque gcmOpen : Bytes → Bytes → Bytes → Bytes → Option Bytes
/-- PKCS #10 request (RFC 2986) for a subject name, unsigned part; its signature follows by `identitySign`. -/
opaque csr : Bytes → Bytes
/-- DSP0274 (R437): a request, by its code, is well formed and in order after a transcript. -/
opaque spdmAccepts : Nat → Bytes → Bytes → Bool
/-- DSP0274: the answer to a request, from its code, the transcript, the request, the certificate chains of slots 0 and 1, and the
number of the draw that random values come from. -/
opaque spdmAnswer : Nat → Bytes → Bytes → Bytes × Option Bytes → Nat → Bytes
/-- DSP0274: the ERROR answer to a request that is out of order or malformed. -/
opaque spdmError : Bytes → Bytes
/-- QUERY_RESP of IDE key management for a port (PCI Express). -/
opaque ideQueryResp : Nat → Bytes → Bytes
/-- What a firmware package holds. -/
opaque firmware : Bytes → Option Firmware

/-! ### Values the manual does not give -/

/-- Offset of a tensor's base from the start of its part, by SIDX_OFF and NSEG (Table 13.2 gives none). -/
opaque tensorBase : Nat → Nat → Nat
/-- Digest of a fault-free run of a pattern test's body (R244): the manual does not say where its operands lie. -/
opaque testDigest : Bytes → Nat
/-- Code of a lot's state in WEIGHT_QUERY (R342), by its row in the table of R332. -/
opaque lotState : Nat → Nat
/-- Code of a decode stream's state in VDEC_QUERY (R420): started, refused. -/
opaque vdecState : Bool → Bool → Nat

end Sys2Proof.Config
end

