-- ==== Sys2Proof/Machine/Regs.lean ====
section
/-! DEFINITION. The register file of the module as the register tables of the manual give it: blocks, access codes
(R10), statistics counters (R13) and every register field with its place, access and reset value. Fields whose reset
the manual calls "per silicon", "per firmware", "per module", "per start-up" or "per domain" start at 0 here
(DESIGN CHOICE, log entry 2), but for those that `Fld.resetAt` names. -/

namespace Sys2Proof.Machine

/-- Register blocks (R55, Tables 2.4 and 2.5); `brwch` is a Barrow channel's part of BRW_. -/
inductive Blk where
  | hub | pci | till | que | ox | vu | hen | exp | stall | ledger | tally | mmu | brw | brwch | nvmc | tree | sess | nbr | vdec | wat | goose | pwr | rtc | mgmt
deriving DecidableEq, Repr

/-- Access codes of Table 0.6 (R10). -/
inductive Access where
  | ro | rw | wo | w1c | w1s | rc | rws
deriving DecidableEq, Repr

/-- Statistics counters (R13): each has a COUNT field and a SAT flag. -/
inductive Ctr where
  | pciDeniedCount | queDrop | oxBeats | oxWaitBeats | oxSatCount | oxChkTiles | oxChkMismatch | oxChkSkip
  | oxPoisonOut | vuBeats | vuWaitBeats | vuNanQuant | vuScaleSat | vuOverflow | vuQclamp | vuTrackEmpty
  | vuPoisonOut | henBeats | henWaitBeats | henBounds | henClip | henOrder | henHashFull | henPriceOvf
  | henAssignOpen | henPoisonOut | expBlocks | expEscapes | expStallBeats | expTrimmed | expPoisonBlocks
  | expCheckFail | expBadBlock | expDirectLines | stallSteps | stallAltStarts | stallDispatchMiss | stallPoisonSlots
  | ledgerCommits | ledgerAborts | ledgerReplays | ledgerCascades | ledgerClosings | ledgerProvSent | ledgerWindowWaits
  | ledgerDepWaits | tallyChecks | tallyShadowed | tallyShadowSkip | tallyMismatch | tallyVotesRun | tallyNoReferee
  | tallyTestsRun | tallyTestsFailed | tallyTestsLate | mmuTranslations | mmuWalks | mmuWalkFaults | mmuPoolHits
  | mmuPromotions | mmuRenewals | mmuEvictions | mmuEvictYields | mmuPoolSkip | mmuLateReads | mmuFailedReads
  | mmuT1Uncorrected | mmuScrubPasses | brwBursts | brwBusErrors | brwSkips | brwRestarts | brwDrops | brwChBytes
  | nvmcPageReads | nvmcMirrorReads | nvmcInternalFail | nvmcPrograms | nvmcErases | nvmcSuspends | nvmcInterrupted
  | nvmcUnlockErr | nvmcRefused | nvmcScrubPages | nvmcRelocations | nvmcMirrorDiff | nvmcSuspendedReads
  | treeBursts | treeCw | treeCwCorr | treeCwUncorr | treeBids | treeCollisions | treeStrayGrains | treeDupDropped
  | treeJoinRefused | epCw | epMiss | sessFramesIn | sessTagFail | sessMalformed | sessOow | sessDup | sessReplay
  | sessStale | sessSkipped | sessResumeFail | sessAuthFail | sessUnbound | sessSFrames | sessSHoles | nbrFramesIn
  | nbrFramesOut | nbrRetrans | nbrFecCorr | nbrFecUncorr | nbrTagFail | nbrMalformed | nbrStale | nbrReplay
  | nbrDup | nbrCredit | nbrLateItems | nbrContra | nbrSendDiscard | nbrPageReads | nbrPageFail | nbrDowns
  | vdecPictures | vdecSamples | vdecCorruptSlices | vdecPoisonRows | vdecDropped | vdecOverrun | vdecUnconf
  | gooseEvals | gooseAlarms | gooseDisagree | gooseStale | mgmtFramesOut | mgmtFramesIn | mgmtTxDropped
  | mgmtReqDropped | mgmtBadIn | watDenials
deriving DecidableEq, Repr

/-- Every register field; a statistics counter's two fields are `count` and `sat` of its `Ctr`. -/
inductive Fld where
  | count (c : Ctr) | sat (c : Ctr)
  | hubIdentPart | hubIdentStep | hubIdentFwBuild | hubIdentGoverning | hubIdentHub | hubIdentVariant | hubSerial0SnLo
  | hubSerial1SnHi
  | pciLinkStatusDownCount | pciLinkStatusDownSat | pciLinkStatusDegraded | pciLinkStatusWidth | pciLinkStatusRate
  | pciLinkStatusUp | pciApertureBase
  | tillDoorbellGo | tillStateOverrun | tillState | tillRespSeq | tillRespStatus | tillRespLength | tillLastSeq
  | tillCfgSeqValid | tillCfgVector
  | queProd | queCons | queStatusDbReject | queStatusFull | queStatusEmpty | queStatusWaiting | queStatusEnabled
  | oxStatusStep | oxStatusSatSeen | oxStatusPair | oxStatusCtx | oxStatusChk | oxStatusBusy | oxClearLast
  | oxClearStats | oxChkLastValid | oxChkLastCtx | oxChkLastStep | oxChkLastTile | oxChkLastRow | oxChkLastCol
  | oxChkLastKind | oxChkLastMulti
  | vuStatusStep | vuStatusCtx | vuStatusEpilogue | vuStatusBusy | vuClearStats
  | henStatusStep | henStatusOp | henStatusCtx | henStatusBusy | henClearStats
  | expStatusLanes | expStatusCtx | expStatusDirect | expStatusBusy | expClearLast | expClearStats | expFailLastValid
  | expFailLastCause | expFailLastCtx | expFailLastStep | expFailLastBlock | expRefValid | expRefRefB | expRefRefA
  | expRefTableOff
  | stallStatusP | stallStatusCtxUsed | stallStatusIntake | stallStatusBound | stallClearStats | stallCtxValid
  | stallCtxHead | stallCtxGroup | stallCtxToken | stallTroughValid | stallTroughFull | stallTroughTwrap
  | stallTroughTail | stallTroughHwrap | stallTroughHead | stallTroughNslot
  | ledgerStatusLimgUsed | ledgerStatusOpen | ledgerClearLast | ledgerClearStats | ledgerCfgMaxReplay | ledgerLastAbortValid
  | ledgerLastAbortCause | ledgerLastAbortLimg | ledgerLastAbortEpoch | ledgerLastAbortPass | ledgerLastAbortGroup
  | ledgerImgValid | ledgerImgOpen | ledgerImgPass | ledgerImgGroup
  | tallyStatusPending | tallyStatusVotes | tallyStatusSelftest | tallyStatusFailed | tallyClearLast | tallyClearStats
  | tallySelftestGo | tallyLastVerdictValid | tallyLastVerdictKind | tallyLastVerdictStall | tallyLastVerdictShRow
  | tallyLastVerdictShStall | tallyLastVerdictRefRow | tallyLastVerdictRefStall | tallyLastVerdictCtx | tallyLastVerdictStep
  | tallyLastVerdictGroup | tallyPenchkChkOn | tallyPenchkFCode | tallyStallState | tallyStallRole | tallyStallStrikes
  | tallyStallTestDue | tallyStallFOvr | tallyStallPen | tallyStallSat | tallyStallSinceTest
  | mmuStatusPoolOn | mmuStatusScrub | mmuClearCe | mmuClearLast | mmuClearStats | mmuCfgCeThresh | mmuCfgLateDefault
  | mmuPoolPages | mmuPoolValid | mmuFaultLastValid | mmuFaultLastCause | mmuFaultLastPen | mmuFaultLastPage
  | mmuT1CeHit | mmuT1CeCount | mmuPenQuota | mmuPenUsed
  | brwClearStats
  | brwChCtrlRecover | brwChCtrlWorld | brwChCtrlPenValid | brwChCtrlPen | brwChCtrlPrioMax | brwChCtrlEnable
  | brwChStartHubsec | brwChStartChain | brwChStateDesc | brwChState | brwChPosI2 | brwChPosI1 | brwChPosI0
  | brwChErrValid | brwChErrDir | brwChErrCause | brwChErrSpace | brwChErrAddr
  | nvmcStatusBusyBanks | nvmcStatusJournal | nvmcStatusFrozen | nvmcStatusBrownout | nvmcStatusScrub | nvmcStatusUnlock
  | nvmcClearLast | nvmcClearStats | nvmcCfgScrubDays | nvmcTargetValid | nvmcTargetPblock | nvmcLastCmdValid
  | nvmcLastCmdResult | nvmcLastCmd | nvmcLastCmdBank | nvmcSparesRetired | nvmcSparesFree | nvmcWp | nvmcWpSysWp
  | nvmcBankState | nvmcBankOp | nvmcBankPhys | nvmcBankBo | nvmcBankResult | nvmcBankPblock | nvmcBankPage
  | nvmcBankSusp | nvmcBmapGoCount | nvmcBmapEntPblock | nvmcBmapEntLblock
  | treeStatusActive | treeStatusStray | treeStatusSweep | treeStatusLock | treeStatusUp | treeClearLast
  | treeClearStats | treeCfgErrThresh | treeCfgMissLimit | treeCfgStrayThresh | treeCfgBidStart | treeCfgBidSlots
  | treeCfgSpreadG | treeCfgAutoSweep | treeCfgEnable | treeStrayLastValid | treeStrayLastSuspect | treeStrayLastHasSuspect
  | treeStrayLastGrains | treeStrayLastStart | treeStrayLastTflo | epState | epStateReg | epStateDual | epStatePen
  | epStateEqd | epStateOffset | epErrHit | epErrCount
  | sessStatusRun | sessStatusParked | sessStatusHandshake | sessClearStats | sessCfgErrThresh | sessCfgParkMaxS
  | sessCfgWin | sessCfgHoldTf | sessCfgRespTf | sessCfgRetries | sessSState | sessSStateKepoch | sessSStatePepoch
  | sessSStateBound | sessSStateLastClose | sessSStateWin | sessSStateNoResume | sessSUseqBase | sessSUseqHigh
  | sessSErrHit | sessSErrCount | sessSBlocks
  | nbrStatusKepoch | nbrStatusLead | nbrStatusState | nbrClearStats | nbrCfgNoticeLimitUs | nbrCfgDeadUs
  | nbrCfgRtoUs | nbrCfgErrThresh | nbrCfgPenValid | nbrCfgPen | nbrCfgEnable | nbrPeerId | nbrErrHit | nbrErrCount
  | vdecStatusStreams | vdecStatusBusy | vdecClearStats
  | watStatusZeroing | watStatusSame | watClearLast | watClearStats | watDenyLastValid | watDenyLastKind
  | watDenyLastSource | watDenyLastDir | watDenyLastSourceId | watDenyLastIndex
  | gooseStatusMode | gooseStatusStale | gooseStatusLiveB | gooseStatusLiveA | gooseStatusAlarm | gooseStatusHealth
  | gooseClearStats | gooseCfgZones | gooseCfgStaleMs | gooseLastEval | gooseLastVerdict
  | pwrStatusStage | pwrStatusCapped | pwrStatusBrownout | pwrStatusFeedB | pwrStatusFeedA | pwrCapWatts
  | pwrInputVoltsB | pwrInputWattsB | pwrInputVoltsA | pwrInputWattsA | pwrRailTj | pwrRailActual | pwrRailSet
  | pwrDomState | pwrDomForce | pwrDomWakeLvl | pwrDomWakePulse | pwrDomAutoOk | pwrDomOffTicks | pwrDomRetTicks
  | rtcCountTicks | rtcAlarmArmed | rtcAlarmFired | rtcAlarmDomain | rtcAlarmTime
  | mgmtStatusBacklog | mgmtStatusEnabled | mgmtStatusLink | mgmtClearStats | mgmtCfgHbS | mgmtCfgEvents
  | mgmtCfgReq | mgmtCfgEnable | mgmtDestMac | mgmtMac
deriving DecidableEq, Repr

/-- Place and behaviour of a field: block, register offset, stride and number of the register in its block, bits,
access code, reset value. -/
structure RegInfo where
  blk : Blk
  off : Nat
  stride : Nat
  n : Nat
  hi : Nat
  lo : Nat
  acc : Access
  reset : Nat
deriving DecidableEq, Repr

/-- A counter's COUNT field. -/
def Ctr.countInfo : Ctr → RegInfo
  | .pciDeniedCount => ⟨.pci, 0x18, 0, 1, 15, 0, .rc, 0⟩
  | .queDrop => ⟨.que, 0x18, 0, 1, 30, 0, .rc, 0⟩
  | .oxBeats => ⟨.ox, 0x10, 0, 1, 47, 0, .ro, 0⟩
  | .oxWaitBeats => ⟨.ox, 0x18, 0, 1, 47, 0, .ro, 0⟩
  | .oxSatCount => ⟨.ox, 0x20, 0, 1, 47, 0, .ro, 0⟩
  | .oxChkTiles => ⟨.ox, 0x28, 0, 1, 47, 0, .ro, 0⟩
  | .oxChkMismatch => ⟨.ox, 0x30, 0, 1, 47, 0, .ro, 0⟩
  | .oxChkSkip => ⟨.ox, 0x38, 0, 1, 47, 0, .ro, 0⟩
  | .oxPoisonOut => ⟨.ox, 0x40, 0, 1, 47, 0, .ro, 0⟩
  | .vuBeats => ⟨.vu, 0x10, 0, 1, 47, 0, .ro, 0⟩
  | .vuWaitBeats => ⟨.vu, 0x18, 0, 1, 47, 0, .ro, 0⟩
  | .vuNanQuant => ⟨.vu, 0x20, 0, 1, 47, 0, .ro, 0⟩
  | .vuScaleSat => ⟨.vu, 0x28, 0, 1, 47, 0, .ro, 0⟩
  | .vuOverflow => ⟨.vu, 0x30, 0, 1, 47, 0, .ro, 0⟩
  | .vuQclamp => ⟨.vu, 0x38, 0, 1, 47, 0, .ro, 0⟩
  | .vuTrackEmpty => ⟨.vu, 0x40, 0, 1, 47, 0, .ro, 0⟩
  | .vuPoisonOut => ⟨.vu, 0x48, 0, 1, 47, 0, .ro, 0⟩
  | .henBeats => ⟨.hen, 0x10, 0, 1, 47, 0, .ro, 0⟩
  | .henWaitBeats => ⟨.hen, 0x18, 0, 1, 47, 0, .ro, 0⟩
  | .henBounds => ⟨.hen, 0x20, 0, 1, 47, 0, .ro, 0⟩
  | .henClip => ⟨.hen, 0x28, 0, 1, 47, 0, .ro, 0⟩
  | .henOrder => ⟨.hen, 0x30, 0, 1, 47, 0, .ro, 0⟩
  | .henHashFull => ⟨.hen, 0x38, 0, 1, 47, 0, .ro, 0⟩
  | .henPriceOvf => ⟨.hen, 0x40, 0, 1, 47, 0, .ro, 0⟩
  | .henAssignOpen => ⟨.hen, 0x48, 0, 1, 47, 0, .ro, 0⟩
  | .henPoisonOut => ⟨.hen, 0x50, 0, 1, 47, 0, .ro, 0⟩
  | .expBlocks => ⟨.exp, 0x10, 0, 1, 47, 0, .ro, 0⟩
  | .expEscapes => ⟨.exp, 0x18, 0, 1, 47, 0, .ro, 0⟩
  | .expStallBeats => ⟨.exp, 0x20, 0, 1, 47, 0, .ro, 0⟩
  | .expTrimmed => ⟨.exp, 0x28, 0, 1, 47, 0, .ro, 0⟩
  | .expPoisonBlocks => ⟨.exp, 0x30, 0, 1, 47, 0, .ro, 0⟩
  | .expCheckFail => ⟨.exp, 0x38, 0, 1, 47, 0, .ro, 0⟩
  | .expBadBlock => ⟨.exp, 0x40, 0, 1, 47, 0, .ro, 0⟩
  | .expDirectLines => ⟨.exp, 0x48, 0, 1, 47, 0, .ro, 0⟩
  | .stallSteps => ⟨.stall, 0x10, 0, 1, 47, 0, .ro, 0⟩
  | .stallAltStarts => ⟨.stall, 0x18, 0, 1, 47, 0, .ro, 0⟩
  | .stallDispatchMiss => ⟨.stall, 0x20, 0, 1, 47, 0, .ro, 0⟩
  | .stallPoisonSlots => ⟨.stall, 0x28, 0, 1, 47, 0, .ro, 0⟩
  | .ledgerCommits => ⟨.ledger, 0x10, 0, 1, 47, 0, .ro, 0⟩
  | .ledgerAborts => ⟨.ledger, 0x18, 0, 1, 47, 0, .ro, 0⟩
  | .ledgerReplays => ⟨.ledger, 0x20, 0, 1, 47, 0, .ro, 0⟩
  | .ledgerCascades => ⟨.ledger, 0x28, 0, 1, 47, 0, .ro, 0⟩
  | .ledgerClosings => ⟨.ledger, 0x30, 0, 1, 47, 0, .ro, 0⟩
  | .ledgerProvSent => ⟨.ledger, 0x38, 0, 1, 47, 0, .ro, 0⟩
  | .ledgerWindowWaits => ⟨.ledger, 0x40, 0, 1, 47, 0, .ro, 0⟩
  | .ledgerDepWaits => ⟨.ledger, 0x48, 0, 1, 47, 0, .ro, 0⟩
  | .tallyChecks => ⟨.tally, 0x10, 0, 1, 47, 0, .ro, 0⟩
  | .tallyShadowed => ⟨.tally, 0x18, 0, 1, 47, 0, .ro, 0⟩
  | .tallyShadowSkip => ⟨.tally, 0x20, 0, 1, 47, 0, .ro, 0⟩
  | .tallyMismatch => ⟨.tally, 0x28, 0, 1, 47, 0, .ro, 0⟩
  | .tallyVotesRun => ⟨.tally, 0x30, 0, 1, 47, 0, .ro, 0⟩
  | .tallyNoReferee => ⟨.tally, 0x38, 0, 1, 47, 0, .ro, 0⟩
  | .tallyTestsRun => ⟨.tally, 0x40, 0, 1, 47, 0, .ro, 0⟩
  | .tallyTestsFailed => ⟨.tally, 0x48, 0, 1, 47, 0, .ro, 0⟩
  | .tallyTestsLate => ⟨.tally, 0x50, 0, 1, 47, 0, .ro, 0⟩
  | .mmuTranslations => ⟨.mmu, 0x20, 0, 1, 47, 0, .ro, 0⟩
  | .mmuWalks => ⟨.mmu, 0x28, 0, 1, 47, 0, .ro, 0⟩
  | .mmuWalkFaults => ⟨.mmu, 0x30, 0, 1, 47, 0, .ro, 0⟩
  | .mmuPoolHits => ⟨.mmu, 0x38, 0, 1, 47, 0, .ro, 0⟩
  | .mmuPromotions => ⟨.mmu, 0x40, 0, 1, 47, 0, .ro, 0⟩
  | .mmuRenewals => ⟨.mmu, 0x48, 0, 1, 47, 0, .ro, 0⟩
  | .mmuEvictions => ⟨.mmu, 0x50, 0, 1, 47, 0, .ro, 0⟩
  | .mmuEvictYields => ⟨.mmu, 0x58, 0, 1, 47, 0, .ro, 0⟩
  | .mmuPoolSkip => ⟨.mmu, 0x60, 0, 1, 47, 0, .ro, 0⟩
  | .mmuLateReads => ⟨.mmu, 0x68, 0, 1, 47, 0, .ro, 0⟩
  | .mmuFailedReads => ⟨.mmu, 0x70, 0, 1, 47, 0, .ro, 0⟩
  | .mmuT1Uncorrected => ⟨.mmu, 0x78, 0, 1, 47, 0, .ro, 0⟩
  | .mmuScrubPasses => ⟨.mmu, 0x80, 0, 1, 47, 0, .ro, 0⟩
  | .brwBursts => ⟨.brw, 0x10, 0, 1, 47, 0, .ro, 0⟩
  | .brwBusErrors => ⟨.brw, 0x18, 0, 1, 47, 0, .ro, 0⟩
  | .brwSkips => ⟨.brw, 0x20, 0, 1, 47, 0, .ro, 0⟩
  | .brwRestarts => ⟨.brw, 0x28, 0, 1, 47, 0, .ro, 0⟩
  | .brwDrops => ⟨.brw, 0x30, 0, 1, 47, 0, .ro, 0⟩
  | .brwChBytes => ⟨.brwch, 0x28, 0, 1, 47, 0, .ro, 0⟩
  | .nvmcPageReads => ⟨.nvmc, 0x40, 0, 1, 47, 0, .ro, 0⟩
  | .nvmcMirrorReads => ⟨.nvmc, 0x48, 0, 1, 47, 0, .ro, 0⟩
  | .nvmcInternalFail => ⟨.nvmc, 0x50, 0, 1, 47, 0, .ro, 0⟩
  | .nvmcPrograms => ⟨.nvmc, 0x58, 0, 1, 47, 0, .ro, 0⟩
  | .nvmcErases => ⟨.nvmc, 0x60, 0, 1, 47, 0, .ro, 0⟩
  | .nvmcSuspends => ⟨.nvmc, 0x68, 0, 1, 47, 0, .ro, 0⟩
  | .nvmcInterrupted => ⟨.nvmc, 0x70, 0, 1, 47, 0, .ro, 0⟩
  | .nvmcUnlockErr => ⟨.nvmc, 0x78, 0, 1, 47, 0, .ro, 0⟩
  | .nvmcRefused => ⟨.nvmc, 0x80, 0, 1, 47, 0, .ro, 0⟩
  | .nvmcScrubPages => ⟨.nvmc, 0x88, 0, 1, 47, 0, .ro, 0⟩
  | .nvmcRelocations => ⟨.nvmc, 0x90, 0, 1, 47, 0, .ro, 0⟩
  | .nvmcMirrorDiff => ⟨.nvmc, 0x98, 0, 1, 47, 0, .ro, 0⟩
  | .nvmcSuspendedReads => ⟨.nvmc, 0xa0, 0, 1, 47, 0, .ro, 0⟩
  | .treeBursts => ⟨.tree, 0x20, 0, 1, 47, 0, .ro, 0⟩
  | .treeCw => ⟨.tree, 0x28, 0, 1, 47, 0, .ro, 0⟩
  | .treeCwCorr => ⟨.tree, 0x30, 0, 1, 47, 0, .ro, 0⟩
  | .treeCwUncorr => ⟨.tree, 0x38, 0, 1, 47, 0, .ro, 0⟩
  | .treeBids => ⟨.tree, 0x40, 0, 1, 47, 0, .ro, 0⟩
  | .treeCollisions => ⟨.tree, 0x48, 0, 1, 47, 0, .ro, 0⟩
  | .treeStrayGrains => ⟨.tree, 0x50, 0, 1, 47, 0, .ro, 0⟩
  | .treeDupDropped => ⟨.tree, 0x58, 0, 1, 47, 0, .ro, 0⟩
  | .treeJoinRefused => ⟨.tree, 0x60, 0, 1, 47, 0, .ro, 0⟩
  | .epCw => ⟨.tree, 0x1010, 32, 128, 47, 0, .ro, 0⟩
  | .epMiss => ⟨.tree, 0x1018, 32, 128, 47, 0, .ro, 0⟩
  | .sessFramesIn => ⟨.sess, 0x20, 0, 1, 47, 0, .ro, 0⟩
  | .sessTagFail => ⟨.sess, 0x28, 0, 1, 47, 0, .ro, 0⟩
  | .sessMalformed => ⟨.sess, 0x30, 0, 1, 47, 0, .ro, 0⟩
  | .sessOow => ⟨.sess, 0x38, 0, 1, 47, 0, .ro, 0⟩
  | .sessDup => ⟨.sess, 0x40, 0, 1, 47, 0, .ro, 0⟩
  | .sessReplay => ⟨.sess, 0x48, 0, 1, 47, 0, .ro, 0⟩
  | .sessStale => ⟨.sess, 0x50, 0, 1, 47, 0, .ro, 0⟩
  | .sessSkipped => ⟨.sess, 0x58, 0, 1, 47, 0, .ro, 0⟩
  | .sessResumeFail => ⟨.sess, 0x60, 0, 1, 47, 0, .ro, 0⟩
  | .sessAuthFail => ⟨.sess, 0x68, 0, 1, 47, 0, .ro, 0⟩
  | .sessUnbound => ⟨.sess, 0x70, 0, 1, 47, 0, .ro, 0⟩
  | .sessSFrames => ⟨.sess, 0x1018, 64, 128, 47, 0, .ro, 0⟩
  | .sessSHoles => ⟨.sess, 0x1020, 64, 128, 47, 0, .ro, 0⟩
  | .nbrFramesIn => ⟨.nbr, 0x40, 0, 1, 47, 0, .ro, 0⟩
  | .nbrFramesOut => ⟨.nbr, 0x48, 0, 1, 47, 0, .ro, 0⟩
  | .nbrRetrans => ⟨.nbr, 0x50, 0, 1, 47, 0, .ro, 0⟩
  | .nbrFecCorr => ⟨.nbr, 0x58, 0, 1, 47, 0, .ro, 0⟩
  | .nbrFecUncorr => ⟨.nbr, 0x60, 0, 1, 47, 0, .ro, 0⟩
  | .nbrTagFail => ⟨.nbr, 0x68, 0, 1, 47, 0, .ro, 0⟩
  | .nbrMalformed => ⟨.nbr, 0x70, 0, 1, 47, 0, .ro, 0⟩
  | .nbrStale => ⟨.nbr, 0x78, 0, 1, 47, 0, .ro, 0⟩
  | .nbrReplay => ⟨.nbr, 0x80, 0, 1, 47, 0, .ro, 0⟩
  | .nbrDup => ⟨.nbr, 0x88, 0, 1, 47, 0, .ro, 0⟩
  | .nbrCredit => ⟨.nbr, 0x90, 0, 1, 47, 0, .ro, 0⟩
  | .nbrLateItems => ⟨.nbr, 0x98, 0, 1, 47, 0, .ro, 0⟩
  | .nbrContra => ⟨.nbr, 0xa0, 0, 1, 47, 0, .ro, 0⟩
  | .nbrSendDiscard => ⟨.nbr, 0xa8, 0, 1, 47, 0, .ro, 0⟩
  | .nbrPageReads => ⟨.nbr, 0xb0, 0, 1, 47, 0, .ro, 0⟩
  | .nbrPageFail => ⟨.nbr, 0xb8, 0, 1, 47, 0, .ro, 0⟩
  | .nbrDowns => ⟨.nbr, 0xc0, 0, 1, 47, 0, .ro, 0⟩
  | .vdecPictures => ⟨.vdec, 0x10, 0, 1, 47, 0, .ro, 0⟩
  | .vdecSamples => ⟨.vdec, 0x18, 0, 1, 47, 0, .ro, 0⟩
  | .vdecCorruptSlices => ⟨.vdec, 0x20, 0, 1, 47, 0, .ro, 0⟩
  | .vdecPoisonRows => ⟨.vdec, 0x28, 0, 1, 47, 0, .ro, 0⟩
  | .vdecDropped => ⟨.vdec, 0x30, 0, 1, 47, 0, .ro, 0⟩
  | .vdecOverrun => ⟨.vdec, 0x38, 0, 1, 47, 0, .ro, 0⟩
  | .vdecUnconf => ⟨.vdec, 0x40, 0, 1, 47, 0, .ro, 0⟩
  | .gooseEvals => ⟨.goose, 0x20, 0, 1, 47, 0, .ro, 0⟩
  | .gooseAlarms => ⟨.goose, 0x28, 0, 1, 47, 0, .ro, 0⟩
  | .gooseDisagree => ⟨.goose, 0x30, 0, 1, 47, 0, .ro, 0⟩
  | .gooseStale => ⟨.goose, 0x38, 0, 1, 47, 0, .ro, 0⟩
  | .mgmtFramesOut => ⟨.mgmt, 0x40, 0, 1, 47, 0, .ro, 0⟩
  | .mgmtFramesIn => ⟨.mgmt, 0x48, 0, 1, 47, 0, .ro, 0⟩
  | .mgmtTxDropped => ⟨.mgmt, 0x50, 0, 1, 47, 0, .ro, 0⟩
  | .mgmtReqDropped => ⟨.mgmt, 0x58, 0, 1, 47, 0, .ro, 0⟩
  | .mgmtBadIn => ⟨.mgmt, 0x60, 0, 1, 47, 0, .ro, 0⟩
  | .watDenials => ⟨.wat, 0x10, 0, 1, 47, 0, .ro, 0⟩

/-- A counter's SAT flag: the top bit of the counter's word (Table 4.10), or the bit its own table gives. -/
def Ctr.satInfo (c : Ctr) : RegInfo :=
  match c with
  | .pciDeniedCount => ⟨.pci, 0x18, 0, 1, 31, 31, .rc, 0⟩
  | .queDrop => ⟨.que, 0x18, 0, 1, 31, 31, .rc, 0⟩
  | c => { c.countInfo with hi := 63, lo := 63 }

/-- The table of register fields. -/
def Fld.info : Fld → RegInfo
  | .count c => c.countInfo
  | .sat c => c.satInfo
  | .hubIdentPart => ⟨.hub, 0x0, 0, 1, 63, 48, .ro, 0x1408⟩
  | .hubIdentStep => ⟨.hub, 0x0, 0, 1, 47, 40, .ro, 0⟩
  | .hubIdentFwBuild => ⟨.hub, 0x0, 0, 1, 31, 16, .ro, 0⟩
  | .hubIdentGoverning => ⟨.hub, 0x0, 0, 1, 8, 8, .ro, 0⟩
  | .hubIdentHub => ⟨.hub, 0x0, 0, 1, 1, 1, .ro, 0⟩
  | .hubIdentVariant => ⟨.hub, 0x0, 0, 1, 0, 0, .ro, 0⟩
  | .hubSerial0SnLo => ⟨.hub, 0x8, 0, 1, 63, 0, .ro, 0⟩
  | .hubSerial1SnHi => ⟨.hub, 0x10, 0, 1, 63, 0, .ro, 0⟩
  | .pciLinkStatusDownCount => ⟨.pci, 0x0, 0, 1, 31, 16, .ro, 0⟩
  | .pciLinkStatusDownSat => ⟨.pci, 0x0, 0, 1, 9, 9, .ro, 0⟩
  | .pciLinkStatusDegraded => ⟨.pci, 0x0, 0, 1, 8, 8, .ro, 0⟩
  | .pciLinkStatusWidth => ⟨.pci, 0x0, 0, 1, 7, 4, .ro, 0⟩
  | .pciLinkStatusRate => ⟨.pci, 0x0, 0, 1, 3, 1, .ro, 0⟩
  | .pciLinkStatusUp => ⟨.pci, 0x0, 0, 1, 0, 0, .ro, 0⟩
  | .pciApertureBase => ⟨.pci, 0x10, 0, 1, 15, 0, .rw, 0⟩
  | .tillDoorbellGo => ⟨.till, 0xfc0, 0, 1, 0, 0, .wo, 0⟩
  | .tillStateOverrun => ⟨.till, 0xfc4, 0, 1, 8, 8, .w1c, 0⟩
  | .tillState => ⟨.till, 0xfc4, 0, 1, 1, 0, .ro, 0⟩
  | .tillRespSeq => ⟨.till, 0xfc8, 0, 1, 63, 32, .ro, 0⟩
  | .tillRespStatus => ⟨.till, 0xfc8, 0, 1, 31, 16, .ro, 0⟩
  | .tillRespLength => ⟨.till, 0xfc8, 0, 1, 11, 0, .ro, 0⟩
  | .tillLastSeq => ⟨.till, 0xfd0, 0, 1, 31, 0, .ro, 0⟩
  | .tillCfgSeqValid => ⟨.till, 0xfd4, 0, 1, 31, 31, .ro, 0⟩
  | .tillCfgVector => ⟨.till, 0xfd4, 0, 1, 10, 0, .rw, 0⟩
  | .queProd => ⟨.que, 0x0, 0, 1, 15, 0, .rw, 0⟩
  | .queCons => ⟨.que, 0x8, 0, 1, 15, 0, .rw, 0⟩
  | .queStatusDbReject => ⟨.que, 0x10, 0, 1, 4, 4, .w1c, 0⟩
  | .queStatusFull => ⟨.que, 0x10, 0, 1, 3, 3, .ro, 0⟩
  | .queStatusEmpty => ⟨.que, 0x10, 0, 1, 2, 2, .ro, 1⟩
  | .queStatusWaiting => ⟨.que, 0x10, 0, 1, 1, 1, .ro, 0⟩
  | .queStatusEnabled => ⟨.que, 0x10, 0, 1, 0, 0, .ro, 0⟩
  | .oxStatusStep => ⟨.ox, 0x0, 0, 1, 31, 16, .ro, 0⟩
  | .oxStatusSatSeen => ⟨.ox, 0x0, 0, 1, 12, 12, .ro, 0⟩
  | .oxStatusPair => ⟨.ox, 0x0, 0, 1, 11, 8, .ro, 0⟩
  | .oxStatusCtx => ⟨.ox, 0x0, 0, 1, 4, 2, .ro, 0⟩
  | .oxStatusChk => ⟨.ox, 0x0, 0, 1, 1, 1, .ro, 0⟩
  | .oxStatusBusy => ⟨.ox, 0x0, 0, 1, 0, 0, .ro, 0⟩
  | .oxClearLast => ⟨.ox, 0x8, 0, 1, 1, 1, .wo, 0⟩
  | .oxClearStats => ⟨.ox, 0x8, 0, 1, 0, 0, .wo, 0⟩
  | .oxChkLastValid => ⟨.ox, 0x48, 0, 1, 63, 63, .ro, 0⟩
  | .oxChkLastCtx => ⟨.ox, 0x48, 0, 1, 58, 56, .ro, 0⟩
  | .oxChkLastStep => ⟨.ox, 0x48, 0, 1, 55, 40, .ro, 0⟩
  | .oxChkLastTile => ⟨.ox, 0x48, 0, 1, 39, 24, .ro, 0⟩
  | .oxChkLastRow => ⟨.ox, 0x48, 0, 1, 23, 16, .ro, 0⟩
  | .oxChkLastCol => ⟨.ox, 0x48, 0, 1, 15, 8, .ro, 0⟩
  | .oxChkLastKind => ⟨.ox, 0x48, 0, 1, 1, 1, .ro, 0⟩
  | .oxChkLastMulti => ⟨.ox, 0x48, 0, 1, 0, 0, .ro, 0⟩
  | .vuStatusStep => ⟨.vu, 0x0, 0, 1, 31, 16, .ro, 0⟩
  | .vuStatusCtx => ⟨.vu, 0x0, 0, 1, 4, 2, .ro, 0⟩
  | .vuStatusEpilogue => ⟨.vu, 0x0, 0, 1, 1, 1, .ro, 0⟩
  | .vuStatusBusy => ⟨.vu, 0x0, 0, 1, 0, 0, .ro, 0⟩
  | .vuClearStats => ⟨.vu, 0x8, 0, 1, 0, 0, .wo, 0⟩
  | .henStatusStep => ⟨.hen, 0x0, 0, 1, 31, 16, .ro, 0⟩
  | .henStatusOp => ⟨.hen, 0x0, 0, 1, 15, 8, .ro, 0⟩
  | .henStatusCtx => ⟨.hen, 0x0, 0, 1, 4, 2, .ro, 0⟩
  | .henStatusBusy => ⟨.hen, 0x0, 0, 1, 0, 0, .ro, 0⟩
  | .henClearStats => ⟨.hen, 0x8, 0, 1, 0, 0, .wo, 0⟩
  | .expStatusLanes => ⟨.exp, 0x0, 0, 1, 31, 16, .ro, 0⟩
  | .expStatusCtx => ⟨.exp, 0x0, 0, 1, 4, 2, .ro, 0⟩
  | .expStatusDirect => ⟨.exp, 0x0, 0, 1, 1, 1, .ro, 0⟩
  | .expStatusBusy => ⟨.exp, 0x0, 0, 1, 0, 0, .ro, 0⟩
  | .expClearLast => ⟨.exp, 0x8, 0, 1, 1, 1, .wo, 0⟩
  | .expClearStats => ⟨.exp, 0x8, 0, 1, 0, 0, .wo, 0⟩
  | .expFailLastValid => ⟨.exp, 0x50, 0, 1, 63, 63, .ro, 0⟩
  | .expFailLastCause => ⟨.exp, 0x50, 0, 1, 62, 59, .ro, 0⟩
  | .expFailLastCtx => ⟨.exp, 0x50, 0, 1, 58, 56, .ro, 0⟩
  | .expFailLastStep => ⟨.exp, 0x50, 0, 1, 55, 40, .ro, 0⟩
  | .expFailLastBlock => ⟨.exp, 0x50, 0, 1, 31, 0, .ro, 0⟩
  | .expRefValid => ⟨.exp, 0x80, 8, 8, 63, 63, .ro, 0⟩
  | .expRefRefB => ⟨.exp, 0x80, 8, 8, 55, 48, .ro, 0⟩
  | .expRefRefA => ⟨.exp, 0x80, 8, 8, 47, 40, .ro, 0⟩
  | .expRefTableOff => ⟨.exp, 0x80, 8, 8, 21, 0, .ro, 0⟩
  | .stallStatusP => ⟨.stall, 0x0, 0, 1, 31, 16, .ro, 0⟩
  | .stallStatusCtxUsed => ⟨.stall, 0x0, 0, 1, 15, 8, .ro, 0⟩
  | .stallStatusIntake => ⟨.stall, 0x0, 0, 1, 1, 1, .ro, 0⟩
  | .stallStatusBound => ⟨.stall, 0x0, 0, 1, 0, 0, .ro, 0⟩
  | .stallClearStats => ⟨.stall, 0x8, 0, 1, 0, 0, .wo, 0⟩
  | .stallCtxValid => ⟨.stall, 0x80, 8, 8, 63, 63, .ro, 0⟩
  | .stallCtxHead => ⟨.stall, 0x80, 8, 8, 47, 32, .ro, 0⟩
  | .stallCtxGroup => ⟨.stall, 0x80, 8, 8, 31, 16, .ro, 0⟩
  | .stallCtxToken => ⟨.stall, 0x80, 8, 8, 15, 0, .ro, 0⟩
  | .stallTroughValid => ⟨.stall, 0x100, 8, 32, 63, 63, .ro, 0⟩
  | .stallTroughFull => ⟨.stall, 0x100, 8, 32, 47, 32, .ro, 0⟩
  | .stallTroughTwrap => ⟨.stall, 0x100, 8, 32, 20, 20, .ro, 0⟩
  | .stallTroughTail => ⟨.stall, 0x100, 8, 32, 19, 16, .ro, 0⟩
  | .stallTroughHwrap => ⟨.stall, 0x100, 8, 32, 12, 12, .ro, 0⟩
  | .stallTroughHead => ⟨.stall, 0x100, 8, 32, 11, 8, .ro, 0⟩
  | .stallTroughNslot => ⟨.stall, 0x100, 8, 32, 4, 0, .ro, 0⟩
  | .ledgerStatusLimgUsed => ⟨.ledger, 0x0, 0, 1, 15, 8, .ro, 0⟩
  | .ledgerStatusOpen => ⟨.ledger, 0x0, 0, 1, 7, 0, .ro, 0⟩
  | .ledgerClearLast => ⟨.ledger, 0x8, 0, 1, 1, 1, .wo, 0⟩
  | .ledgerClearStats => ⟨.ledger, 0x8, 0, 1, 0, 0, .wo, 0⟩
  | .ledgerCfgMaxReplay => ⟨.ledger, 0xc, 0, 1, 3, 0, .rws, 3⟩
  | .ledgerLastAbortValid => ⟨.ledger, 0x50, 0, 1, 63, 63, .ro, 0⟩
  | .ledgerLastAbortCause => ⟨.ledger, 0x50, 0, 1, 62, 59, .ro, 0⟩
  | .ledgerLastAbortLimg => ⟨.ledger, 0x50, 0, 1, 58, 56, .ro, 0⟩
  | .ledgerLastAbortEpoch => ⟨.ledger, 0x50, 0, 1, 47, 40, .ro, 0⟩
  | .ledgerLastAbortPass => ⟨.ledger, 0x50, 0, 1, 31, 16, .ro, 0⟩
  | .ledgerLastAbortGroup => ⟨.ledger, 0x50, 0, 1, 15, 0, .ro, 0⟩
  | .ledgerImgValid => ⟨.ledger, 0x80, 8, 8, 63, 63, .ro, 0⟩
  | .ledgerImgOpen => ⟨.ledger, 0x80, 8, 8, 36, 32, .ro, 0⟩
  | .ledgerImgPass => ⟨.ledger, 0x80, 8, 8, 31, 16, .ro, 0⟩
  | .ledgerImgGroup => ⟨.ledger, 0x80, 8, 8, 15, 0, .ro, 0⟩
  | .tallyStatusPending => ⟨.tally, 0x0, 0, 1, 31, 16, .ro, 0⟩
  | .tallyStatusVotes => ⟨.tally, 0x0, 0, 1, 15, 8, .ro, 0⟩
  | .tallyStatusSelftest => ⟨.tally, 0x0, 0, 1, 1, 1, .ro, 0⟩
  | .tallyStatusFailed => ⟨.tally, 0x0, 0, 1, 0, 0, .ro, 0⟩
  | .tallyClearLast => ⟨.tally, 0x8, 0, 1, 1, 1, .wo, 0⟩
  | .tallyClearStats => ⟨.tally, 0x8, 0, 1, 0, 0, .wo, 0⟩
  | .tallySelftestGo => ⟨.tally, 0xc, 0, 1, 0, 0, .wo, 0⟩
  | .tallyLastVerdictValid => ⟨.tally, 0x58, 0, 1, 63, 63, .ro, 0⟩
  | .tallyLastVerdictKind => ⟨.tally, 0x58, 0, 1, 62, 59, .ro, 0⟩
  | .tallyLastVerdictStall => ⟨.tally, 0x58, 0, 1, 58, 55, .ro, 0⟩
  | .tallyLastVerdictShRow => ⟨.tally, 0x58, 0, 1, 54, 52, .ro, 0⟩
  | .tallyLastVerdictShStall => ⟨.tally, 0x58, 0, 1, 51, 48, .ro, 0⟩
  | .tallyLastVerdictRefRow => ⟨.tally, 0x58, 0, 1, 47, 45, .ro, 0⟩
  | .tallyLastVerdictRefStall => ⟨.tally, 0x58, 0, 1, 44, 41, .ro, 0⟩
  | .tallyLastVerdictCtx => ⟨.tally, 0x58, 0, 1, 40, 38, .ro, 0⟩
  | .tallyLastVerdictStep => ⟨.tally, 0x58, 0, 1, 31, 16, .ro, 0⟩
  | .tallyLastVerdictGroup => ⟨.tally, 0x58, 0, 1, 15, 0, .ro, 0⟩
  | .tallyPenchkChkOn => ⟨.tally, 0x100, 8, 32, 3, 3, .rws, 1⟩
  | .tallyPenchkFCode => ⟨.tally, 0x100, 8, 32, 2, 0, .rws, 3⟩
  | .tallyStallState => ⟨.tally, 0x200, 8, 16, 63, 61, .rw, 0⟩
  | .tallyStallRole => ⟨.tally, 0x200, 8, 16, 60, 58, .rw, 0⟩
  | .tallyStallStrikes => ⟨.tally, 0x200, 8, 16, 57, 56, .rw, 0⟩
  | .tallyStallTestDue => ⟨.tally, 0x200, 8, 16, 55, 55, .ro, 0⟩
  | .tallyStallFOvr => ⟨.tally, 0x200, 8, 16, 54, 52, .rw, 0⟩
  | .tallyStallPen => ⟨.tally, 0x200, 8, 16, 39, 32, .ro, 0xff⟩
  | .tallyStallSat => ⟨.tally, 0x200, 8, 16, 31, 31, .ro, 0⟩
  | .tallyStallSinceTest => ⟨.tally, 0x200, 8, 16, 30, 0, .ro, 0⟩
  | .mmuStatusPoolOn => ⟨.mmu, 0x0, 0, 1, 1, 1, .ro, 0⟩
  | .mmuStatusScrub => ⟨.mmu, 0x0, 0, 1, 0, 0, .ro, 0⟩
  | .mmuClearCe => ⟨.mmu, 0x8, 0, 1, 2, 2, .wo, 0⟩
  | .mmuClearLast => ⟨.mmu, 0x8, 0, 1, 1, 1, .wo, 0⟩
  | .mmuClearStats => ⟨.mmu, 0x8, 0, 1, 0, 0, .wo, 0⟩
  | .mmuCfgCeThresh => ⟨.mmu, 0xc, 0, 1, 31, 16, .rws, 0x100⟩
  | .mmuCfgLateDefault => ⟨.mmu, 0xc, 0, 1, 15, 0, .rws, 0x200⟩
  | .mmuPoolPages => ⟨.mmu, 0x10, 0, 1, 41, 21, .ro, 0⟩
  | .mmuPoolValid => ⟨.mmu, 0x10, 0, 1, 20, 0, .ro, 0⟩
  | .mmuFaultLastValid => ⟨.mmu, 0x90, 0, 1, 63, 63, .ro, 0⟩
  | .mmuFaultLastCause => ⟨.mmu, 0x90, 0, 1, 62, 59, .ro, 0⟩
  | .mmuFaultLastPen => ⟨.mmu, 0x90, 0, 1, 52, 48, .ro, 0⟩
  | .mmuFaultLastPage => ⟨.mmu, 0x90, 0, 1, 47, 16, .ro, 0⟩
  | .mmuT1CeHit => ⟨.mmu, 0x98, 0, 1, 63, 63, .ro, 0⟩
  | .mmuT1CeCount => ⟨.mmu, 0x98, 0, 1, 47, 0, .ro, 0⟩
  | .mmuPenQuota => ⟨.mmu, 0x100, 8, 32, 53, 32, .ro, 0⟩
  | .mmuPenUsed => ⟨.mmu, 0x100, 8, 32, 21, 0, .ro, 0⟩
  | .brwClearStats => ⟨.brw, 0x8, 0, 1, 0, 0, .wo, 0⟩
  | .brwChCtrlRecover => ⟨.brwch, 0x0, 0, 1, 17, 16, .wo, 0⟩
  | .brwChCtrlWorld => ⟨.brwch, 0x0, 0, 1, 13, 13, .ro, 0⟩
  | .brwChCtrlPenValid => ⟨.brwch, 0x0, 0, 1, 12, 12, .rw, 0⟩
  | .brwChCtrlPen => ⟨.brwch, 0x0, 0, 1, 11, 7, .rw, 0⟩
  | .brwChCtrlPrioMax => ⟨.brwch, 0x0, 0, 1, 6, 4, .rw, 0⟩
  | .brwChCtrlEnable => ⟨.brwch, 0x0, 0, 1, 0, 0, .rw, 0⟩
  | .brwChStartHubsec => ⟨.brwch, 0x8, 0, 1, 16, 16, .rw, 0⟩
  | .brwChStartChain => ⟨.brwch, 0x8, 0, 1, 15, 0, .rw, 0⟩
  | .brwChStateDesc => ⟨.brwch, 0x10, 0, 1, 17, 2, .ro, 0⟩
  | .brwChState => ⟨.brwch, 0x10, 0, 1, 1, 0, .ro, 0⟩
  | .brwChPosI2 => ⟨.brwch, 0x18, 0, 1, 47, 32, .ro, 0⟩
  | .brwChPosI1 => ⟨.brwch, 0x18, 0, 1, 31, 16, .ro, 0⟩
  | .brwChPosI0 => ⟨.brwch, 0x18, 0, 1, 15, 0, .ro, 0⟩
  | .brwChErrValid => ⟨.brwch, 0x20, 0, 1, 63, 63, .w1c, 0⟩
  | .brwChErrDir => ⟨.brwch, 0x20, 0, 1, 62, 62, .ro, 0⟩
  | .brwChErrCause => ⟨.brwch, 0x20, 0, 1, 61, 58, .ro, 0⟩
  | .brwChErrSpace => ⟨.brwch, 0x20, 0, 1, 57, 54, .ro, 0⟩
  | .brwChErrAddr => ⟨.brwch, 0x20, 0, 1, 47, 0, .ro, 0⟩
  | .nvmcStatusBusyBanks => ⟨.nvmc, 0x0, 0, 1, 31, 16, .ro, 0⟩
  | .nvmcStatusJournal => ⟨.nvmc, 0x0, 0, 1, 8, 8, .ro, 0⟩
  | .nvmcStatusFrozen => ⟨.nvmc, 0x0, 0, 1, 7, 7, .ro, 0⟩
  | .nvmcStatusBrownout => ⟨.nvmc, 0x0, 0, 1, 6, 6, .ro, 0⟩
  | .nvmcStatusScrub => ⟨.nvmc, 0x0, 0, 1, 5, 5, .ro, 0⟩
  | .nvmcStatusUnlock => ⟨.nvmc, 0x0, 0, 1, 4, 3, .ro, 0⟩
  | .nvmcClearLast => ⟨.nvmc, 0x8, 0, 1, 1, 1, .wo, 0⟩
  | .nvmcClearStats => ⟨.nvmc, 0x8, 0, 1, 0, 0, .wo, 0⟩
  | .nvmcCfgScrubDays => ⟨.nvmc, 0xc, 0, 1, 7, 0, .rws, 7⟩
  | .nvmcTargetValid => ⟨.nvmc, 0x10, 0, 1, 31, 31, .rw, 0⟩
  | .nvmcTargetPblock => ⟨.nvmc, 0x10, 0, 1, 17, 0, .rw, 0⟩
  | .nvmcLastCmdValid => ⟨.nvmc, 0x18, 0, 1, 63, 63, .ro, 0⟩
  | .nvmcLastCmdResult => ⟨.nvmc, 0x18, 0, 1, 47, 32, .ro, 0⟩
  | .nvmcLastCmd => ⟨.nvmc, 0x18, 0, 1, 31, 16, .ro, 0⟩
  | .nvmcLastCmdBank => ⟨.nvmc, 0x18, 0, 1, 3, 0, .ro, 0⟩
  | .nvmcSparesRetired => ⟨.nvmc, 0x20, 0, 1, 31, 14, .ro, 0⟩
  | .nvmcSparesFree => ⟨.nvmc, 0x20, 0, 1, 13, 0, .ro, 0⟩
  | .nvmcWp => ⟨.nvmc, 0x100, 8, 8, 63, 0, .ro, 0xffffffffffffffff⟩
  | .nvmcWpSysWp => ⟨.nvmc, 0x140, 0, 1, 0, 0, .ro, 1⟩
  | .nvmcBankState => ⟨.nvmc, 0x200, 8, 16, 63, 62, .ro, 0⟩
  | .nvmcBankOp => ⟨.nvmc, 0x200, 8, 16, 61, 58, .ro, 0⟩
  | .nvmcBankPhys => ⟨.nvmc, 0x200, 8, 16, 57, 57, .ro, 0⟩
  | .nvmcBankBo => ⟨.nvmc, 0x200, 8, 16, 56, 56, .ro, 0⟩
  | .nvmcBankResult => ⟨.nvmc, 0x200, 8, 16, 55, 40, .ro, 0⟩
  | .nvmcBankPblock => ⟨.nvmc, 0x200, 8, 16, 35, 18, .ro, 0⟩
  | .nvmcBankPage => ⟨.nvmc, 0x200, 8, 16, 17, 10, .ro, 0⟩
  | .nvmcBankSusp => ⟨.nvmc, 0x200, 8, 16, 9, 0, .ro, 0⟩
  | .nvmcBmapGoCount => ⟨.nvmc, 0x800, 0, 1, 10, 0, .wo, 0⟩
  | .nvmcBmapEntPblock => ⟨.nvmc, 0x1000, 8, 1024, 47, 30, .rw, 0⟩
  | .nvmcBmapEntLblock => ⟨.nvmc, 0x1000, 8, 1024, 16, 0, .rw, 0⟩
  | .treeStatusActive => ⟨.tree, 0x0, 0, 1, 31, 24, .ro, 0⟩
  | .treeStatusStray => ⟨.tree, 0x0, 0, 1, 3, 3, .ro, 0⟩
  | .treeStatusSweep => ⟨.tree, 0x0, 0, 1, 2, 2, .ro, 0⟩
  | .treeStatusLock => ⟨.tree, 0x0, 0, 1, 1, 1, .ro, 0⟩
  | .treeStatusUp => ⟨.tree, 0x0, 0, 1, 0, 0, .ro, 0⟩
  | .treeClearLast => ⟨.tree, 0x8, 0, 1, 1, 1, .wo, 0⟩
  | .treeClearStats => ⟨.tree, 0x8, 0, 1, 0, 0, .wo, 0⟩
  | .treeCfgErrThresh => ⟨.tree, 0x10, 0, 1, 63, 48, .rws, 0x400⟩
  | .treeCfgMissLimit => ⟨.tree, 0x10, 0, 1, 47, 40, .rws, 0x10⟩
  | .treeCfgStrayThresh => ⟨.tree, 0x10, 0, 1, 39, 34, .rws, 4⟩
  | .treeCfgBidStart => ⟨.tree, 0x10, 0, 1, 33, 23, .rws, 0xc8⟩
  | .treeCfgBidSlots => ⟨.tree, 0x10, 0, 1, 22, 16, .rws, 8⟩
  | .treeCfgSpreadG => ⟨.tree, 0x10, 0, 1, 15, 6, .rws, 0x1e0⟩
  | .treeCfgAutoSweep => ⟨.tree, 0x10, 0, 1, 1, 1, .rws, 0⟩
  | .treeCfgEnable => ⟨.tree, 0x10, 0, 1, 0, 0, .rws, 0⟩
  | .treeStrayLastValid => ⟨.tree, 0x80, 0, 1, 63, 63, .ro, 0⟩
  | .treeStrayLastSuspect => ⟨.tree, 0x80, 0, 1, 62, 56, .ro, 0⟩
  | .treeStrayLastHasSuspect => ⟨.tree, 0x80, 0, 1, 55, 55, .ro, 0⟩
  | .treeStrayLastGrains => ⟨.tree, 0x80, 0, 1, 42, 32, .ro, 0⟩
  | .treeStrayLastStart => ⟨.tree, 0x80, 0, 1, 31, 21, .ro, 0⟩
  | .treeStrayLastTflo => ⟨.tree, 0x80, 0, 1, 15, 0, .ro, 0⟩
  | .epState => ⟨.tree, 0x1000, 32, 128, 63, 60, .ro, 0⟩
  | .epStateReg => ⟨.tree, 0x1000, 32, 128, 59, 59, .ro, 0⟩
  | .epStateDual => ⟨.tree, 0x1000, 32, 128, 58, 58, .ro, 0⟩
  | .epStatePen => ⟨.tree, 0x1000, 32, 128, 57, 53, .ro, 0⟩
  | .epStateEqd => ⟨.tree, 0x1000, 32, 128, 52, 35, .ro, 0⟩
  | .epStateOffset => ⟨.tree, 0x1000, 32, 128, 25, 16, .ro, 0⟩
  | .epErrHit => ⟨.tree, 0x1008, 32, 128, 63, 63, .ro, 0⟩
  | .epErrCount => ⟨.tree, 0x1008, 32, 128, 47, 0, .ro, 0⟩
  | .sessStatusRun => ⟨.sess, 0x0, 0, 1, 31, 24, .ro, 0⟩
  | .sessStatusParked => ⟨.sess, 0x0, 0, 1, 23, 16, .ro, 0⟩
  | .sessStatusHandshake => ⟨.sess, 0x0, 0, 1, 15, 8, .ro, 0⟩
  | .sessClearStats => ⟨.sess, 0x8, 0, 1, 0, 0, .wo, 0⟩
  | .sessCfgErrThresh => ⟨.sess, 0x10, 0, 1, 63, 48, .rws, 0x100⟩
  | .sessCfgParkMaxS => ⟨.sess, 0x10, 0, 1, 47, 32, .rws, 0x3c⟩
  | .sessCfgWin => ⟨.sess, 0x10, 0, 1, 31, 21, .rws, 0x100⟩
  | .sessCfgHoldTf => ⟨.sess, 0x10, 0, 1, 20, 13, .rws, 0x10⟩
  | .sessCfgRespTf => ⟨.sess, 0x10, 0, 1, 12, 5, .rws, 0x40⟩
  | .sessCfgRetries => ⟨.sess, 0x10, 0, 1, 4, 3, .rws, 3⟩
  | .sessSState => ⟨.sess, 0x1000, 64, 128, 63, 60, .ro, 0⟩
  | .sessSStateKepoch => ⟨.sess, 0x1000, 64, 128, 59, 52, .ro, 0⟩
  | .sessSStatePepoch => ⟨.sess, 0x1000, 64, 128, 51, 44, .ro, 0⟩
  | .sessSStateBound => ⟨.sess, 0x1000, 64, 128, 43, 36, .ro, 0⟩
  | .sessSStateLastClose => ⟨.sess, 0x1000, 64, 128, 35, 32, .ro, 0⟩
  | .sessSStateWin => ⟨.sess, 0x1000, 64, 128, 31, 21, .ro, 0⟩
  | .sessSStateNoResume => ⟨.sess, 0x1000, 64, 128, 20, 20, .ro, 0⟩
  | .sessSUseqBase => ⟨.sess, 0x1008, 64, 128, 63, 32, .ro, 0⟩
  | .sessSUseqHigh => ⟨.sess, 0x1008, 64, 128, 31, 0, .ro, 0⟩
  | .sessSErrHit => ⟨.sess, 0x1010, 64, 128, 63, 63, .ro, 0⟩
  | .sessSErrCount => ⟨.sess, 0x1010, 64, 128, 47, 0, .ro, 0⟩
  | .sessSBlocks => ⟨.sess, 0x1028, 64, 128, 32, 0, .ro, 0⟩
  | .nbrStatusKepoch => ⟨.nbr, 0x0, 0, 1, 31, 24, .ro, 0⟩
  | .nbrStatusLead => ⟨.nbr, 0x0, 0, 1, 3, 3, .ro, 0⟩
  | .nbrStatusState => ⟨.nbr, 0x0, 0, 1, 2, 0, .ro, 0⟩
  | .nbrClearStats => ⟨.nbr, 0x8, 0, 1, 0, 0, .wo, 0⟩
  | .nbrCfgNoticeLimitUs => ⟨.nbr, 0x10, 0, 1, 63, 48, .rws, 0x7d0⟩
  | .nbrCfgDeadUs => ⟨.nbr, 0x10, 0, 1, 47, 32, .rws, 0x64⟩
  | .nbrCfgRtoUs => ⟨.nbr, 0x10, 0, 1, 31, 24, .rws, 0x14⟩
  | .nbrCfgErrThresh => ⟨.nbr, 0x10, 0, 1, 23, 8, .rws, 0x100⟩
  | .nbrCfgPenValid => ⟨.nbr, 0x10, 0, 1, 7, 7, .rws, 0⟩
  | .nbrCfgPen => ⟨.nbr, 0x10, 0, 1, 6, 2, .rws, 0⟩
  | .nbrCfgEnable => ⟨.nbr, 0x10, 0, 1, 0, 0, .rws, 0⟩
  | .nbrPeerId => ⟨.nbr, 0x18, 0, 1, 63, 0, .ro, 0⟩
  | .nbrErrHit => ⟨.nbr, 0x20, 0, 1, 63, 63, .ro, 0⟩
  | .nbrErrCount => ⟨.nbr, 0x20, 0, 1, 47, 0, .ro, 0⟩
  | .vdecStatusStreams => ⟨.vdec, 0x0, 0, 1, 31, 24, .ro, 0⟩
  | .vdecStatusBusy => ⟨.vdec, 0x0, 0, 1, 0, 0, .ro, 0⟩
  | .vdecClearStats => ⟨.vdec, 0x8, 0, 1, 0, 0, .wo, 0⟩
  | .watStatusZeroing => ⟨.wat, 0x0, 0, 1, 1, 1, .ro, 0⟩
  | .watStatusSame => ⟨.wat, 0x0, 0, 1, 0, 0, .ro, 1⟩
  | .watClearLast => ⟨.wat, 0x8, 0, 1, 1, 1, .wo, 0⟩
  | .watClearStats => ⟨.wat, 0x8, 0, 1, 0, 0, .wo, 0⟩
  | .watDenyLastValid => ⟨.wat, 0x18, 0, 1, 63, 63, .ro, 0⟩
  | .watDenyLastKind => ⟨.wat, 0x18, 0, 1, 62, 59, .ro, 0⟩
  | .watDenyLastSource => ⟨.wat, 0x18, 0, 1, 58, 56, .ro, 0⟩
  | .watDenyLastDir => ⟨.wat, 0x18, 0, 1, 55, 55, .ro, 0⟩
  | .watDenyLastSourceId => ⟨.wat, 0x18, 0, 1, 51, 32, .ro, 0⟩
  | .watDenyLastIndex => ⟨.wat, 0x18, 0, 1, 22, 0, .ro, 0⟩
  | .gooseStatusMode => ⟨.goose, 0x0, 0, 1, 5, 5, .ro, 0⟩
  | .gooseStatusStale => ⟨.goose, 0x0, 0, 1, 4, 4, .ro, 1⟩
  | .gooseStatusLiveB => ⟨.goose, 0x0, 0, 1, 3, 3, .ro, 0⟩
  | .gooseStatusLiveA => ⟨.goose, 0x0, 0, 1, 2, 2, .ro, 0⟩
  | .gooseStatusAlarm => ⟨.goose, 0x0, 0, 1, 1, 1, .ro, 0⟩
  | .gooseStatusHealth => ⟨.goose, 0x0, 0, 1, 0, 0, .ro, 0⟩
  | .gooseClearStats => ⟨.goose, 0x8, 0, 1, 0, 0, .wo, 0⟩
  | .gooseCfgZones => ⟨.goose, 0x10, 0, 1, 63, 32, .rws, 0xffffffff⟩
  | .gooseCfgStaleMs => ⟨.goose, 0x10, 0, 1, 25, 16, .rws, 0x64⟩
  | .gooseLastEval => ⟨.goose, 0x40, 8, 2, 63, 32, .ro, 0⟩
  | .gooseLastVerdict => ⟨.goose, 0x40, 8, 2, 31, 0, .ro, 0⟩
  | .pwrStatusStage => ⟨.pwr, 0x0, 0, 1, 31, 28, .ro, 0⟩
  | .pwrStatusCapped => ⟨.pwr, 0x0, 0, 1, 3, 3, .ro, 0⟩
  | .pwrStatusBrownout => ⟨.pwr, 0x0, 0, 1, 2, 2, .ro, 0⟩
  | .pwrStatusFeedB => ⟨.pwr, 0x0, 0, 1, 1, 1, .ro, 0⟩
  | .pwrStatusFeedA => ⟨.pwr, 0x0, 0, 1, 0, 0, .ro, 0⟩
  | .pwrCapWatts => ⟨.pwr, 0x8, 0, 1, 9, 0, .rw, 0⟩
  | .pwrInputVoltsB => ⟨.pwr, 0x10, 0, 1, 63, 48, .ro, 0⟩
  | .pwrInputWattsB => ⟨.pwr, 0x10, 0, 1, 47, 32, .ro, 0⟩
  | .pwrInputVoltsA => ⟨.pwr, 0x10, 0, 1, 31, 16, .ro, 0⟩
  | .pwrInputWattsA => ⟨.pwr, 0x10, 0, 1, 15, 0, .ro, 0⟩
  | .pwrRailTj => ⟨.pwr, 0x100, 8, 10, 47, 40, .ro, 0⟩
  | .pwrRailActual => ⟨.pwr, 0x100, 8, 10, 31, 16, .ro, 0x2ee⟩
  | .pwrRailSet => ⟨.pwr, 0x100, 8, 10, 15, 0, .rw, 0x2ee⟩
  | .pwrDomState => ⟨.pwr, 0x1000, 8, 176, 63, 62, .ro, 0⟩
  | .pwrDomForce => ⟨.pwr, 0x1000, 8, 176, 61, 60, .rw, 0⟩
  | .pwrDomWakeLvl => ⟨.pwr, 0x1000, 8, 176, 59, 59, .rw, 0⟩
  | .pwrDomWakePulse => ⟨.pwr, 0x1000, 8, 176, 58, 58, .wo, 0⟩
  | .pwrDomAutoOk => ⟨.pwr, 0x1000, 8, 176, 57, 57, .ro, 0⟩
  | .pwrDomOffTicks => ⟨.pwr, 0x1000, 8, 176, 47, 24, .rw, 0⟩
  | .pwrDomRetTicks => ⟨.pwr, 0x1000, 8, 176, 23, 0, .rw, 0⟩
  | .rtcCountTicks => ⟨.rtc, 0x0, 0, 1, 47, 0, .ro, 0⟩
  | .rtcAlarmArmed => ⟨.rtc, 0x10, 8, 8, 63, 63, .rw, 0⟩
  | .rtcAlarmFired => ⟨.rtc, 0x10, 8, 8, 62, 62, .w1c, 0⟩
  | .rtcAlarmDomain => ⟨.rtc, 0x10, 8, 8, 55, 48, .rw, 0xff⟩
  | .rtcAlarmTime => ⟨.rtc, 0x10, 8, 8, 47, 0, .rw, 0⟩
  | .mgmtStatusBacklog => ⟨.mgmt, 0x0, 0, 1, 24, 16, .ro, 0⟩
  | .mgmtStatusEnabled => ⟨.mgmt, 0x0, 0, 1, 1, 1, .ro, 0⟩
  | .mgmtStatusLink => ⟨.mgmt, 0x0, 0, 1, 0, 0, .ro, 0⟩
  | .mgmtClearStats => ⟨.mgmt, 0x8, 0, 1, 0, 0, .wo, 0⟩
  | .mgmtCfgHbS => ⟨.mgmt, 0x10, 0, 1, 31, 24, .rw, 1⟩
  | .mgmtCfgEvents => ⟨.mgmt, 0x10, 0, 1, 2, 2, .rw, 1⟩
  | .mgmtCfgReq => ⟨.mgmt, 0x10, 0, 1, 1, 1, .rw, 0⟩
  | .mgmtCfgEnable => ⟨.mgmt, 0x10, 0, 1, 0, 0, .rw, 0⟩
  | .mgmtDestMac => ⟨.mgmt, 0x18, 0, 1, 47, 0, .rw, 0xffffffffffff⟩
  | .mgmtMac => ⟨.mgmt, 0x20, 0, 1, 47, 0, .ro, 0⟩

/-- Width of a field in bits. -/
def Fld.width (f : Fld) : Nat := f.info.hi + 1 - f.info.lo

def Ctr.part0 : List Ctr := [.pciDeniedCount, .queDrop, .oxBeats, .oxWaitBeats, .oxSatCount, .oxChkTiles, .oxChkMismatch, .oxChkSkip, .oxPoisonOut, .vuBeats, .vuWaitBeats, .vuNanQuant, .vuScaleSat, .vuOverflow, .vuQclamp, .vuTrackEmpty, .vuPoisonOut, .henBeats, .henWaitBeats, .henBounds, .henClip, .henOrder, .henHashFull, .henPriceOvf, .henAssignOpen, .henPoisonOut, .expBlocks, .expEscapes, .expStallBeats, .expTrimmed]
def Ctr.part1 : List Ctr := [.expPoisonBlocks, .expCheckFail, .expBadBlock, .expDirectLines, .stallSteps, .stallAltStarts, .stallDispatchMiss, .stallPoisonSlots, .ledgerCommits, .ledgerAborts, .ledgerReplays, .ledgerCascades, .ledgerClosings, .ledgerProvSent, .ledgerWindowWaits, .ledgerDepWaits, .tallyChecks, .tallyShadowed, .tallyShadowSkip, .tallyMismatch, .tallyVotesRun, .tallyNoReferee, .tallyTestsRun, .tallyTestsFailed, .tallyTestsLate, .mmuTranslations, .mmuWalks, .mmuWalkFaults, .mmuPoolHits, .mmuPromotions]
def Ctr.part2 : List Ctr := [.mmuRenewals, .mmuEvictions, .mmuEvictYields, .mmuPoolSkip, .mmuLateReads, .mmuFailedReads, .mmuT1Uncorrected, .mmuScrubPasses, .brwBursts, .brwBusErrors, .brwSkips, .brwRestarts, .brwDrops, .brwChBytes, .nvmcPageReads, .nvmcMirrorReads, .nvmcInternalFail, .nvmcPrograms, .nvmcErases, .nvmcSuspends, .nvmcInterrupted, .nvmcUnlockErr, .nvmcRefused, .nvmcScrubPages, .nvmcRelocations, .nvmcMirrorDiff, .nvmcSuspendedReads, .treeBursts, .treeCw, .treeCwCorr]
def Ctr.part3 : List Ctr := [.treeCwUncorr, .treeBids, .treeCollisions, .treeStrayGrains, .treeDupDropped, .treeJoinRefused, .epCw, .epMiss, .sessFramesIn, .sessTagFail, .sessMalformed, .sessOow, .sessDup, .sessReplay, .sessStale, .sessSkipped, .sessResumeFail, .sessAuthFail, .sessUnbound, .sessSFrames, .sessSHoles, .nbrFramesIn, .nbrFramesOut, .nbrRetrans, .nbrFecCorr, .nbrFecUncorr, .nbrTagFail, .nbrMalformed, .nbrStale, .nbrReplay]
def Ctr.part4 : List Ctr := [.nbrDup, .nbrCredit, .nbrLateItems, .nbrContra, .nbrSendDiscard, .nbrPageReads, .nbrPageFail, .nbrDowns, .vdecPictures, .vdecSamples, .vdecCorruptSlices, .vdecPoisonRows, .vdecDropped, .vdecOverrun, .vdecUnconf, .gooseEvals, .gooseAlarms, .gooseDisagree, .gooseStale, .mgmtFramesOut, .mgmtFramesIn, .mgmtTxDropped, .mgmtReqDropped, .mgmtBadIn, .watDenials]

/-- Every counter. -/
def Ctr.all : List Ctr := List.flatten [Ctr.part0, Ctr.part1, Ctr.part2, Ctr.part3, Ctr.part4]

def Fld.part0 : List Fld := [.hubIdentPart, .hubIdentStep, .hubIdentFwBuild, .hubIdentGoverning, .hubIdentHub, .hubIdentVariant, .hubSerial0SnLo, .hubSerial1SnHi, .pciLinkStatusDownCount, .pciLinkStatusDownSat, .pciLinkStatusDegraded, .pciLinkStatusWidth, .pciLinkStatusRate, .pciLinkStatusUp, .pciApertureBase, .tillDoorbellGo, .tillStateOverrun, .tillState, .tillRespSeq, .tillRespStatus, .tillRespLength, .tillLastSeq, .tillCfgSeqValid, .tillCfgVector, .queProd, .queCons, .queStatusDbReject, .queStatusFull, .queStatusEmpty, .queStatusWaiting]
def Fld.part1 : List Fld := [.queStatusEnabled, .oxStatusStep, .oxStatusSatSeen, .oxStatusPair, .oxStatusCtx, .oxStatusChk, .oxStatusBusy, .oxClearLast, .oxClearStats, .oxChkLastValid, .oxChkLastCtx, .oxChkLastStep, .oxChkLastTile, .oxChkLastRow, .oxChkLastCol, .oxChkLastKind, .oxChkLastMulti, .vuStatusStep, .vuStatusCtx, .vuStatusEpilogue, .vuStatusBusy, .vuClearStats, .henStatusStep, .henStatusOp, .henStatusCtx, .henStatusBusy, .henClearStats, .expStatusLanes, .expStatusCtx, .expStatusDirect]
def Fld.part2 : List Fld := [.expStatusBusy, .expClearLast, .expClearStats, .expFailLastValid, .expFailLastCause, .expFailLastCtx, .expFailLastStep, .expFailLastBlock, .expRefValid, .expRefRefB, .expRefRefA, .expRefTableOff, .stallStatusP, .stallStatusCtxUsed, .stallStatusIntake, .stallStatusBound, .stallClearStats, .stallCtxValid, .stallCtxHead, .stallCtxGroup, .stallCtxToken, .stallTroughValid, .stallTroughFull, .stallTroughTwrap, .stallTroughTail, .stallTroughHwrap, .stallTroughHead, .stallTroughNslot, .ledgerStatusLimgUsed, .ledgerStatusOpen]
def Fld.part3 : List Fld := [.ledgerClearLast, .ledgerClearStats, .ledgerCfgMaxReplay, .ledgerLastAbortValid, .ledgerLastAbortCause, .ledgerLastAbortLimg, .ledgerLastAbortEpoch, .ledgerLastAbortPass, .ledgerLastAbortGroup, .ledgerImgValid, .ledgerImgOpen, .ledgerImgPass, .ledgerImgGroup, .tallyStatusPending, .tallyStatusVotes, .tallyStatusSelftest, .tallyStatusFailed, .tallyClearLast, .tallyClearStats, .tallySelftestGo, .tallyLastVerdictValid, .tallyLastVerdictKind, .tallyLastVerdictStall, .tallyLastVerdictShRow, .tallyLastVerdictShStall, .tallyLastVerdictRefRow, .tallyLastVerdictRefStall, .tallyLastVerdictCtx, .tallyLastVerdictStep, .tallyLastVerdictGroup]
def Fld.part4 : List Fld := [.tallyPenchkChkOn, .tallyPenchkFCode, .tallyStallState, .tallyStallRole, .tallyStallStrikes, .tallyStallTestDue, .tallyStallFOvr, .tallyStallPen, .tallyStallSat, .tallyStallSinceTest, .mmuStatusPoolOn, .mmuStatusScrub, .mmuClearCe, .mmuClearLast, .mmuClearStats, .mmuCfgCeThresh, .mmuCfgLateDefault, .mmuPoolPages, .mmuPoolValid, .mmuFaultLastValid, .mmuFaultLastCause, .mmuFaultLastPen, .mmuFaultLastPage, .mmuT1CeHit, .mmuT1CeCount, .mmuPenQuota, .mmuPenUsed, .brwClearStats, .brwChCtrlRecover, .brwChCtrlWorld]
def Fld.part5 : List Fld := [.brwChCtrlPenValid, .brwChCtrlPen, .brwChCtrlPrioMax, .brwChCtrlEnable, .brwChStartHubsec, .brwChStartChain, .brwChStateDesc, .brwChState, .brwChPosI2, .brwChPosI1, .brwChPosI0, .brwChErrValid, .brwChErrDir, .brwChErrCause, .brwChErrSpace, .brwChErrAddr, .nvmcStatusBusyBanks, .nvmcStatusJournal, .nvmcStatusFrozen, .nvmcStatusBrownout, .nvmcStatusScrub, .nvmcStatusUnlock, .nvmcClearLast, .nvmcClearStats, .nvmcCfgScrubDays, .nvmcTargetValid, .nvmcTargetPblock, .nvmcLastCmdValid, .nvmcLastCmdResult, .nvmcLastCmd]
def Fld.part6 : List Fld := [.nvmcLastCmdBank, .nvmcSparesRetired, .nvmcSparesFree, .nvmcWp, .nvmcWpSysWp, .nvmcBankState, .nvmcBankOp, .nvmcBankPhys, .nvmcBankBo, .nvmcBankResult, .nvmcBankPblock, .nvmcBankPage, .nvmcBankSusp, .nvmcBmapGoCount, .nvmcBmapEntPblock, .nvmcBmapEntLblock, .treeStatusActive, .treeStatusStray, .treeStatusSweep, .treeStatusLock, .treeStatusUp, .treeClearLast, .treeClearStats, .treeCfgErrThresh, .treeCfgMissLimit, .treeCfgStrayThresh, .treeCfgBidStart, .treeCfgBidSlots, .treeCfgSpreadG, .treeCfgAutoSweep]
def Fld.part7 : List Fld := [.treeCfgEnable, .treeStrayLastValid, .treeStrayLastSuspect, .treeStrayLastHasSuspect, .treeStrayLastGrains, .treeStrayLastStart, .treeStrayLastTflo, .epState, .epStateReg, .epStateDual, .epStatePen, .epStateEqd, .epStateOffset, .epErrHit, .epErrCount, .sessStatusRun, .sessStatusParked, .sessStatusHandshake, .sessClearStats, .sessCfgErrThresh, .sessCfgParkMaxS, .sessCfgWin, .sessCfgHoldTf, .sessCfgRespTf, .sessCfgRetries, .sessSState, .sessSStateKepoch, .sessSStatePepoch, .sessSStateBound, .sessSStateLastClose]
def Fld.part8 : List Fld := [.sessSStateWin, .sessSStateNoResume, .sessSUseqBase, .sessSUseqHigh, .sessSErrHit, .sessSErrCount, .sessSBlocks, .nbrStatusKepoch, .nbrStatusLead, .nbrStatusState, .nbrClearStats, .nbrCfgNoticeLimitUs, .nbrCfgDeadUs, .nbrCfgRtoUs, .nbrCfgErrThresh, .nbrCfgPenValid, .nbrCfgPen, .nbrCfgEnable, .nbrPeerId, .nbrErrHit, .nbrErrCount, .vdecStatusStreams, .vdecStatusBusy, .vdecClearStats, .watStatusZeroing, .watStatusSame, .watClearLast, .watClearStats, .watDenyLastValid, .watDenyLastKind]
def Fld.part9 : List Fld := [.watDenyLastSource, .watDenyLastDir, .watDenyLastSourceId, .watDenyLastIndex, .gooseStatusMode, .gooseStatusStale, .gooseStatusLiveB, .gooseStatusLiveA, .gooseStatusAlarm, .gooseStatusHealth, .gooseClearStats, .gooseCfgZones, .gooseCfgStaleMs, .gooseLastEval, .gooseLastVerdict, .pwrStatusStage, .pwrStatusCapped, .pwrStatusBrownout, .pwrStatusFeedB, .pwrStatusFeedA, .pwrCapWatts, .pwrInputVoltsB, .pwrInputWattsB, .pwrInputVoltsA, .pwrInputWattsA, .pwrRailTj, .pwrRailActual, .pwrRailSet, .pwrDomState, .pwrDomForce]
def Fld.part10 : List Fld := [.pwrDomWakeLvl, .pwrDomWakePulse, .pwrDomAutoOk, .pwrDomOffTicks, .pwrDomRetTicks, .rtcCountTicks, .rtcAlarmArmed, .rtcAlarmFired, .rtcAlarmDomain, .rtcAlarmTime, .mgmtStatusBacklog, .mgmtStatusEnabled, .mgmtStatusLink, .mgmtClearStats, .mgmtCfgHbS, .mgmtCfgEvents, .mgmtCfgReq, .mgmtCfgEnable, .mgmtDestMac, .mgmtMac]

/-- Every field, block by block. -/
def Fld.all : List Fld :=
  List.flatten [Ctr.all.map Fld.count, Ctr.all.map Fld.sat, Fld.part0, Fld.part1, Fld.part2, Fld.part3, Fld.part4, Fld.part5, Fld.part6, Fld.part7, Fld.part8, Fld.part9, Fld.part10]

end Sys2Proof.Machine
end

