-- ==== Sys2Proof/Machine/State.lean ====
section
/-! DEFINITION. The state of the module (the hall) and of the queue of waiting commands, as plain data, and the state
right after reset. Register fields live in `Hall.regs`; whatever the manual gives the machine that is no register
field lives in the records below. -/

namespace Sys2Proof.Machine

/-- Why a command would stop the block. The manual gives every command of the table an effect, so no meaning raises
one; the constructor is kept so that a stop, were one needed, has a name (safe: it claims nothing). -/
inductive Fault where
  /-- Raised by no meaning. Safe. -/
  | noSuchBehaviour
deriving DecidableEq, Repr

/-- Why a command has no meaning. -/
inductive Refusal where
  /-- Raised by the dispatch only, for a command that is not modelled yet. Safe: nothing is claimed of it. -/
  | notModelled (mnemonic : String)
deriving DecidableEq, Repr

/-- A register field that does not hold its reset value. -/
structure RegVal where
  fld : Fld
  unit : Nat
  val : Nat
deriving DecidableEq, Repr

/-- Marks of a 64-byte line of T0 or T1 (R270, R271): poisoned, and late (a poisoned line's mark). -/
structure LineMark where
  poison : Bool := false
  late : Bool := false
deriving DecidableEq, Repr

/-- A byte on its way, with the poison and late marks of the line it was read from. -/
structure PByte where
  b : Byte
  poison : Bool := false
  late : Bool := false
deriving DecidableEq, Repr

/-- Data on its way. -/
abbrev Payload := List PByte

/-- The module's memories: `ram` by module physical address (T0 windows, T1, till buffers), marks of its lines, the
cells of each row's weight array, and host memory as the ports see it (R39, R270, R297, R48). -/
structure MemSys where
  ram : Mem := []
  marks : Tab LineMark := []
  nvm : Tab Mem := []
  host : Mem := []
deriving DecidableEq, Repr

/-- A TLP completion as the requester sees it (R53, R54). -/
inductive Completion where
  | data (bytes : Bytes)
  | unsupportedRequest
  | completerAbort
  | discarded
deriving DecidableEq, Repr

/-- What has left the module, newest first: interrupts (R76), completions and AER reports (R53, R54), writes to the
host are in `MemSys.host`; frames of the tree, neighbour and management ports; SPDM and IDE answers (R437). -/
inductive Out where
  | msix (port : Hub) (fn : Fn) (vector : Nat)
  | completion (port : Hub) (c : Completion)
  | aerAdvisory (port : Hub)
  | aerUncorrectable (port : Hub)
  | treeFrame (port : Nat) (tf : Nat) (header : Bytes) (payload : List Bytes)
  | nbrFrame (port : Nat) (frame : Bytes)
  | mgmtFrame (hub : Hub) (frame : Bytes)
  | doe (port : Hub) (object : Bytes)
deriving DecidableEq, Repr

/-- Records of the fault junction (R29), by what deposits them. -/
inductive RecKind where
  | tallyVerdict | stallFault | rowFault | linkLoss | brownout | unitStuck | hubLost | mpLost | lossOfSignal
  | poison | busError | linkTransfer | worldDenied | stray | clone | treeError | sessError | nbrError | nvm | expander
  | walkFault | t1Error | power | thermal | contradiction | other
deriving DecidableEq, Repr

/-- One record of a fault junction (R29): its class, kind, the unit it concerns and a value the rule names. -/
structure FjRec where
  urgent : Bool
  kind : RecKind
  unit : Nat
  info : Nat := 0
deriving DecidableEq, Repr

/-- The fault junction of a hub (R29, R30): records oldest first, held urgent records, the two statistics counters. -/
structure Junction where
  urgent : List FjRec := []
  ordinary : List FjRec := []
  held : List FjRec := []
  dropped : Nat := 0
  heldCount : Nat := 0
deriving DecidableEq, Repr

/-- Module firmware state of an IDE stream (R437, R438). -/
structure IdeStream where
  secure : Bool := false
  /-- Set when a check failed: later TLPs of the port are discarded until a new key set starts (R438). -/
  failed : Bool := false
  keySets : Tab Bytes := []
  active : Option Nat := none
  required : Bool := false
deriving DecidableEq, Repr

/-- SPDM responder of a port (R437): how far the connection has come, and the session. -/
structure Spdm where
  versioned : Bool := false
  capable : Bool := false
  negotiated : Bool := false
  exchanged : Bool := false
  session : Bool := false
  keyGen : Nat := 0
  transcript : Bytes := []
deriving DecidableEq, Repr

/-- A host port (R45–R54): virtual functions enabled, VF Enable, IDE and SPDM. -/
structure HostPort where
  vfEnable : Bool := false
  vfs : List Nat := []
  ide : IdeStream := {}
  spdm : Spdm := {}
deriving DecidableEq, Repr

/-- A stored till response, for the retry rule (R59). -/
structure TillResp where
  status : Nat
  payload : Bytes
deriving DecidableEq, Repr

/-- A till beyond its registers (R59, R63): the virtual function it is assigned to (none: PF1, or PF0 below 32) and
the response of the last command that passed the sequence check. -/
structure Till where
  vf : Option Nat := none
  stored : Option TillResp := none
deriving DecidableEq, Repr

/-- A queue record (R67, Table 2.17). -/
structure QueRec where
  typ : Nat
  secure : Bool
  pen : Nat
  log2 : Nat
  coalesce : Nat
  vector : Nat
  base : Nat
  writeback : Nat
  resultQueue : Nat
deriving DecidableEq, Repr

/-- An event entry before it is placed in a ring (R70, Table 2.20). -/
structure Event where
  typ : Nat
  handle : Nat := 0
  status : Nat := 0
  till : Nat := 0
  pen : Nat := 0xFF
  detail : Bytes := []
deriving DecidableEq, Repr

/-- A queue beyond its registers (R67–R76): its record, the PHASE of the next entry, its SEQ, requests in flight that
name it (RES credit), events held for it and lost (EVT), entries written since its vector was last raised. -/
structure Que where
  qrec : Option QueRec := none
  phase : Bool := true
  seq : Nat := 0
  inFlight : Nat := 0
  held : List Event := []
  lost : Nat := 0
  sinceRaise : Nat := 0
  /-- The pen the queue is granted to (R466), if any. -/
  grant : Option Nat := none
deriving DecidableEq, Repr

/-- Events of a world that no queue could take (R71). -/
structure WorldEvents where
  held : List Event := []
  lost : Nat := 0
deriving DecidableEq, Repr

/-- An operation answered ACCEPTED (R61): who asked, for the TILL_DONE entry. -/
structure Op where
  till : Nat
  pen : Nat
  secure : Bool
deriving DecidableEq, Repr

/-- Tills, queues, events and operations (R56–R76). -/
structure CmdSys where
  tills : Tab Till := []
  ques : Tab Que := []
  secureEvents : WorldEvents := {}
  plainEvents : WorldEvents := {}
  ops : Tab Op := []
  nextHandle : Nat := 1
deriving DecidableEq, Repr

/-! ### Stalls, images, Ledger and Tally (chapters 4 to 9) -/

/-- A trough descriptor (R190, Table 7.6). -/
structure TroughDesc where
  base : Nat
  slotLines : Nat
  nslot : Nat
  scaleLines : Nat
  prod : Nat
  cons : Nat
  chain : Nat
deriving DecidableEq, Repr

/-- Slot states (R191, Table 7.10). -/
inductive SlotState where
  | free | filling | full | draining
deriving DecidableEq, Repr

/-- A run of a commit group (R205): row of its Ledger, image index, pass, group. -/
structure RunKey where
  row : Nat
  limg : Nat
  pass : Nat
  group : Nat
deriving DecidableEq, Repr

/-- What provisional data depends on (R211): a group run of this module, or a neighbour's tag on a port (R221). -/
inductive Dep where
  | own (k : RunKey)
  | nbr (port : Nat) (tag : Nat)
deriving DecidableEq, Repr

/-- A trough slot (R191–R194): state, request token, tags its data carries, poison summary; `lock` names the open run
whose step freed it, until that run commits (R209). -/
structure Slot where
  state : SlotState := .free
  token : Nat := 0
  tags : List Dep := []
  poison : Bool := false
  lock : Option RunKey := none
deriving DecidableEq, Repr

/-- A trough (R191). `refill` and `retake` list slots that an abort returned while HEAD or TAIL could not step back, with
the run that refills or retakes them at their places. -/
structure Trough where
  desc : TroughDesc
  slots : Tab Slot := []
  head : Nat := 0
  tail : Nat := 0
  hwrap : Bool := false
  twrap : Bool := false
  refill : List (Nat × RunKey) := []
  retake : List (Nat × RunKey) := []
deriving DecidableEq, Repr

/-- Slots a running step takes from a trough, or fills in it: those taken so far in order, how many in all, KEEP
(R185). -/
structure Take where
  trough : Nat
  slots : List Nat := []
  n : Nat
  keep : Bool := false
deriving DecidableEq, Repr

/-- A computed element: its bits and whether it is poisoned. -/
structure Elem where
  raw : Nat
  poison : Bool := false
deriving DecidableEq, Repr

/-- A decode-table slot record as loaded into the lanes (R162, R169). -/
structure DecTable where
  fmt : Nat
  nsym : Nat
  escLen : Nat
  tableId : Nat
  syms : List Nat
  lens : List Nat
deriving DecidableEq, Repr

/-- A block in an expander lane (R172): its index among the blocks of every reading of the stream, the slot it names
(true: slot B; none for a block without a code), and its 128 weights once decoded. -/
structure LaneBlock where
  index : Nat
  names : Option Bool := none
  decoded : Option (List Elem) := none
deriving DecidableEq, Repr

/-- The expander of a stall while it serves a step (R172): lanes, next block to fetch and to hand over, weights the Ox
has taken of the current row tile, the loaded table pair, the stream map. -/
structure Expander where
  lanes : Tab (List LaneBlock) := []
  nextFetch : Nat := 0
  nextTake : Nat := 0
  taken : List Elem := []
  tableA : Option DecTable := none
  tableB : Option DecTable := none
  classes : List (Nat × Nat) := []
  rowTile : Nat := 0
deriving DecidableEq, Repr

/-- A step running on an engine. -/
structure Running where
  idx : Nat
  pass : Nat
  ctx : Nat
  key : RunKey
  epoch : Nat
  token : Nat
  inA : Option Take := none
  inW : Option Take := none
  inU : Option Take := none
  out : Option Take := none
  chk : Bool := false
  shadow : Bool := false
  /-- Every element written is poisoned: closing pass (R215) or poisoned replay (R233). -/
  poisonAll : Bool := false
  /-- No check runs: closing pass, or the step of a poisoned replay. -/
  unchecked : Bool := false
  tile : Nat := 0
  vals : Tab (List Elem) := []
  clean : Tab (List Elem) := []
  mismatch : Bool := false
  cleanMismatch : Bool := false
  loc : Option (Nat × Nat × Nat × Bool) := none
  rowsDone : Nat := 0
  /-- Scale records of the rows done, 16 bytes each. -/
  recs : Tab Bytes := []
  /-- Output slots finished. -/
  filled : Nat := 0
deriving DecidableEq, Repr

/-- CLEAR writes of a stall's blocks (R132, R154, R179, R203). -/
inductive StallClear where
  | oxLast | oxStats | vuStats | henStats | expLast | expStats | stallStats
deriving DecidableEq, Repr

/-- A pattern test that runs on a stall (R242–R245): its place in the pack, whether it is the repeat, its test entry and
body. -/
structure PackTest where
  idx : Nat
  again : Bool
  eng : Nat
  pair : Nat
  beats : Nat
  sig : Nat
  expect : Nat
  packId : Nat
  version : Nat
  body : Bytes
deriving DecidableEq, Repr

/-- A stall (R181–R194): the image bound to it, its step records (512-bit words), troughs, per context the number of
records started, the running step of each engine, the expander, the pass count base, a pattern test in progress. -/
structure Stall where
  image : Option Nat := none
  lrow : Nat := 0
  lstall : Nat := 0
  steps : List Nat := []
  troughs : Tab Trough := []
  started : Tab Nat := []
  /-- Records that have to start again after an abort (R214): pass and index. -/
  redo : List (Nat × Nat) := []
  /-- CLEAR writes that wait for the stall's next step boundary. -/
  clears : List StallClear := []
  lastToken : Tab Nat := []
  ox : Option Running := none
  vu : Option Running := none
  hen : Option Running := none
  exp : Expander := {}
  /-- The pattern test running. -/
  test : Option PackTest := none
  /-- Tests of the full pack run still to run; none when no run is due. -/
  packRun : Option (List Nat) := none
  /-- Steps started since the run fell due, and whether one of its tests has failed. -/
  packStart : Nat := 0
  packFailed : Bool := false
  lastPackPassed : Bool := true
  stuck : Bool := false
  /-- Reserved by PEN_SPARES (R453). -/
  spare : Bool := false
deriving DecidableEq, Repr

/-- A commit-group record of an image (R198, Table 7.9). -/
structure GroupRec where
  group : Nat
  nstep : Nat
  beats : Nat
deriving DecidableEq, Repr

/-- A section of an image (R180). -/
structure Section where
  typ : Nat
  lrow : Nat
  lstall : Nat
  data : Bytes
deriving DecidableEq, Repr

/-- States of an image (Table 7.14), coded as SCHED_QUERY codes them (R200). -/
inductive ImgState where
  | empty | loading | loaded | active | pausing | paused | retiring
deriving DecidableEq, Repr

/-- An image (R180–R202). -/
structure Image where
  pen : Nat
  state : ImgState := .loading
  imageId : Nat := 0
  raw : Bytes := []
  /-- Status that the copy of the staged bytes met, 0 for none. -/
  fault : Nat := 0
  sections : List Section := []
  groups : List GroupRec := []
  firstLaunch : Nat := 0
  nEntry : Nat := 0
  /-- Physical row of each logical row. -/
  rows : Tab Nat := []
  /-- Physical stall (16·row + stall) of logical stall 16·l + s. -/
  stalls : Tab Nat := []
  /-- Ledger image index in each physical row. -/
  limgs : Tab Nat := []
  /-- Operation handle of the load, pause or retirement in progress. -/
  op : Option Nat := none
deriving DecidableEq, Repr

/-- A launch entry (R196, Table 7.8), and the marks a rolling swap makes on its image (R336). -/
structure LaunchEntry where
  handle : Nat
  intake : Nat
  exit : Nat
  maxIn : Nat
  minOut : Nat
  inflight : Nat
  valid : Bool := false
  hreq : Bool := false
  dreq : Bool := false
  intakeOn : Bool := false
  used : Nat := 0
deriving DecidableEq, Repr

/-- A request in flight (R193, R197, R217), by its token. -/
structure Req where
  hub : Hub
  pen : Nat
  queue : Nat
  resultQueue : Nat
  launch : Nat
  handle : Nat
  tag : Nat
  inMva : Nat
  inBytes : Nat
  outMva : Nat
  outBytes : Nat
  stamp : Nat
  status : Nat := 0
  shadowed : Bool := false
  mixed : Bool := false
  /-- Layers crossed, in crossing order (R334): LOT_ID, LAYER, GEN_l. -/
  layers : List (Nat × Nat × Nat) := []
  written : Nat := 0
  /-- Position in the order in which requests were taken; the intake chain has begun, and has ended, its run for it. -/
  order : Nat := 0
  intakeBegun : Bool := false
  intakeDone : Bool := false
  /-- The pen's check settings at intake (R253): CHK_ON and F_CODE. -/
  chkOn : Bool := true
  fCode : Nat := 0
deriving DecidableEq, Repr

/-- A saved line (R208). -/
structure UndoLine where
  line : Nat
  data : Bytes
  mark : LineMark
  tag : Option RunKey
deriving DecidableEq, Repr

/-- A redo line for T1 (R208). -/
structure RedoLine where
  addr : Nat
  data : Payload
deriving DecidableEq, Repr

/-- A slot move of an open run (R191, R208): stall, trough, slot, whether it was a fill or a drain, whether it has ended,
and whether it was made at a place that an earlier abort had returned. -/
structure SlotMove where
  stall : Nat
  trough : Nat
  slot : Nat
  fill : Bool
  ended : Bool
  placed : Bool := false
deriving DecidableEq, Repr

/-- An open run of a commit group in a row's Ledger (R204–R217). -/
structure GroupRun where
  key : RunKey
  handle : Nat
  pen : Nat
  epoch : Nat := 0
  nstep : Nat
  stepsDone : Nat := 0
  undo : List UndoLine := []
  redo : List RedoLine := []
  deps : List Dep := []
  statuses : List (Nat × Nat) := []
  tokens : List Nat := []
  moves : List SlotMove := []
  /-- Items sent under the tag, per neighbour port, and the tag's DEPTH (R219). -/
  items : Tab Nat := []
  depth : Nat := 0
  closing : Bool := false
  /-- Steps (stall, index) that a poisoned replay reruns poisoned (R233). -/
  poisonSteps : List (Nat × Nat) := []
  /-- Steps (stall, index) that started in this run, in order. -/
  startedSteps : List (Nat × Nat) := []
deriving DecidableEq, Repr

/-- A row's Ledger (R206): image handles by LIMG, runs committed by LIMG, open runs. -/
structure Ledger where
  images : Tab Nat := []
  committed : Tab Nat := []
  runs : List GroupRun := []
  /-- CLEAR and CFG writes that wait for the next commit or abort (R223): LAST, STATS, MAX_REPLAY. -/
  clearLast : Bool := false
  clearStats : Bool := false
  cfgDue : Option Nat := none
deriving DecidableEq, Repr

/-- Where the check of a step stands (R228–R236). -/
inductive CheckPhase where
  /-- A step with SHADOW set waits for a place (R228). -/
  | waitPlace
  | shadowRun
  | waitReferee
  | copying
  | refereeRun
  /-- The repeat on a shadow or checksum-logic suspect runs before the run settles (R236). -/
  | repeating
  /-- Checks that passed while the Tally's self-test runs (Table 9.5). -/
  | settling
deriving DecidableEq, Repr

/-- A step whose checks await settlement (R228–R236). `clean` is the digest of a fault-free run on the held inputs. -/
structure CheckItem where
  id : Nat
  key : RunKey
  epoch : Nat
  stall : Nat
  idx : Nat
  ctx : Nat
  token : Nat
  pen : Nat
  engine : Nat
  pair : Nat
  digest : Nat
  clean : Nat
  cleanMismatch : Bool := false
  oxChecked : Bool := false
  mismatch : Bool := false
  shadowWanted : Bool := false
  loc : Option (Nat × Nat × Nat × Bool) := none
  phase : CheckPhase
  shadow : Option Nat := none
  shadowDigest : Option Nat := none
  referee : Option Nat := none
  /-- KIND and answer of the vote, and the SEQ of its record, while the repeat is awaited. -/
  verdict : Option (Nat × Nat × Nat) := none
deriving DecidableEq, Repr

/-- A repeat awaited from the replay of a group (R236): the computing stall's step, the answer, the vote's record. -/
structure RepeatItem where
  id : Nat
  key : RunKey
  stall : Nat
  idx : Nat
  answer : Nat
  prior : Nat
  /-- Digest and checksum outcome of the repeated step, once it has ended. -/
  got : Option (Nat × Bool) := none
  item : CheckItem
deriving DecidableEq, Repr

/-- A row's Tally (R224–R246): steps awaiting settlement, repeats awaited, the KIND 5 watch of 24 h. -/
structure Tally where
  items : List CheckItem := []
  repeats : List RepeatItem := []
  nextId : Nat := 0
  watch : Bool := false
  /-- A row fault of R240 has been met. -/
  rowFault : Bool := false
  /-- Switchboard writes that wait for the next settlement (R253): LAST, STATS, GO, and the RW fields of TALLY_STALL by
  stall. -/
  clearLast : Bool := false
  clearStats : Bool := false
  goDue : Bool := false
  stallDue : Tab Nat := []
deriving DecidableEq, Repr

/-- Elapsed ticks of a stall (R239): observation time and time since the last full pack run. -/
structure StallTotals where
  observed : Nat := 0
  packAge : Nat := 0
deriving DecidableEq, Repr

/-- A probe in progress (R246), by operation handle. -/
structure Probe where
  sigId : Nat
  todo : List (Nat × Nat)
  run : Nat := 0
  failed : Nat := 0
  first : Option Nat := none
deriving DecidableEq, Repr

/-- The installed pattern pack (R242, R243). -/
structure Pack where
  packId : Nat
  version : Nat
  raw : Bytes
deriving DecidableEq, Repr

/-- A failure signature record (R248, Table 9.10), before it is encoded and signed. -/
structure SigRecord where
  seq : Nat
  hub : Hub
  ticks : Nat
  kind : Nat
  prior : Option Nat := none
  pen : Nat
  image : Option Nat := none
  step : Option (Nat × Nat × Nat × Nat × Nat) := none
  engine : Nat × Nat := (0, 0)
  computing : Option Nat := none
  shadow : Option Nat := none
  referee : Option Nat := none
  digests : List (Nat × Nat) := []
  oxLoc : Option (Nat × Nat × Nat × Bool) := none
  rail : Nat := 0
  tj : Nat := 0
  pack : Option (Nat × Nat × Nat) := none
  strikes : Nat := 0
  state : Nat := 0
  fw : Nat := 0
  /-- The signed record (R248). -/
  signed : Bytes := []
deriving DecidableEq, Repr

/-- Checking beyond the rows (R227, R237–R249): stall totals and their saved copy, standby copy, pack, probes, installs,
signature records in T1 (last 4,096) and in the system areas (last 256), next SEQ. -/
structure Checks where
  totals : Tab StallTotals := []
  standbyTotals : Tab StallTotals := []
  savedTotals : Tab StallTotals := []
  watchTicks : Tab Nat := []
  pack : Option Pack := none
  packInstalls : Tab (Nat × Bytes) := []
  probes : Tab Probe := []
  records : List SigRecord := []
  saved : List SigRecord := []
  nextSeq : Nat := 0
  /-- Permanent retirements kept in the stall check records of the system areas (R237). -/
  retired : List Nat := []
deriving DecidableEq, Repr

/-- Data plane of the stalls (chapters 7 to 9). -/
structure Data where
  stalls : Tab Stall := []
  images : Tab Image := []
  nextImage : Nat := 1
  launch : Tab LaunchEntry := []
  requests : Tab Req := []
  /-- Token given last, and requests taken so far. -/
  lastToken : Nat := 0
  taken : Nat := 0
  ledgers : Tab Ledger := []
  tallies : Tab Tally := []
  lineTags : Tab RunKey := []
deriving DecidableEq, Repr

/-! ### Address range, pool and Barrow (chapters 10 and 11) -/

/-- Pool frame states (R265, Table 10.4). -/
inductive PoolState where
  | free | filling | valid | draining | invalid
deriving DecidableEq, Repr

/-- A frame of a sub-pool (R264–R266): the home page it holds or fills, its promotion stamp, bursts translated to it
that have not finished, the page whose fill waits for it while DRAINING, and whether it leaves the pool when FREE. -/
structure PoolFrame where
  state : PoolState := .free
  home : Nat := 0
  stamp : Nat := 0
  bursts : Nat := 0
  next : Option Nat := none
  leaving : Bool := false
  /-- The copy a neighbour has sent for a fill from T3. -/
  copy : Payload := []
deriving DecidableEq, Repr

/-- A hub's sub-pool: frames by physical page number, next promotion number, a resize in progress. -/
structure Pool where
  frames : Tab PoolFrame := []
  nextStamp : Nat := 0
  resize : Option Nat := none
deriving DecidableEq, Repr

/-- A tile region (R273). -/
structure TileRegion where
  base : Nat
  rows : Nat
  cols : Nat
  fmt : Nat
deriving DecidableEq, Repr

/-- Where a burst lands. -/
inductive Dest where
  | phys (addr : Nat)
  | prov (addr : Nat)
  | redo (addr : Nat)
  | host (addr : Nat)
  | output (addr : Nat) (host : Bool)
  | nbrSend (port : Nat) (offset : Nat)
  | drop
deriving DecidableEq, Repr

/-- A burst outstanding on a channel (R283, R288): bytes it moves, where they land, the data once read (none while a
lot-page read is under way), its run key and the token it serves, the pool frame it was translated to, and the failing
side's address where it met a bus error. -/
structure DmaBurst where
  n : Nat
  dest : Dest
  payload : Option Payload
  read : Option Nat := none
  key : Option RunKey := none
  tags : List Dep := []
  token : Nat := 0
  frame : Option (Nat × Nat) := none
  dirWrite : Bool := false
deriving DecidableEq, Repr

/-- A trough slot that a channel opened in its current run (R284, R288): the descriptor that opened it, stall, trough,
slot, whether it fills it, and the open run whose slot it is. -/
structure OpenSlot where
  desc : Nat
  stall : Nat
  trough : Nat
  slot : Nat
  fill : Bool
  key : Option RunKey
deriving DecidableEq, Repr

/-- A Barrow channel beyond its registers (R276–R292): the image chain bound to it, bytes of the current run already
cut into bursts, bursts outstanding oldest first, the failing burst while HALTED, slots opened, the request its run
serves, the poison status a SKIP recorded for an exit run, bytes of a neighbour item collected. -/
structure ChanSt where
  handle : Option Nat := none
  lrow : Option Nat := none
  off : Nat := 0
  issuedAll : Bool := false
  outstanding : List DmaBurst := []
  failing : Option (Nat × Nat × Nat × Nat) := none
  opened : List OpenSlot := []
  token : Nat := 0
  skipPoison : Bool := false
  item : Payload := []
  /-- Bytes of the item already cut into frames, and the tag it goes out under. -/
  itemOff : Nat := 0
  itemTag : Nat := 0
  /-- Descriptor to restart from after recovery from HALTED (R292). -/
  restartDue : Option Nat := none
deriving DecidableEq, Repr

/-- A read of a lot page in progress (R268): the reading channel and pen, MVA page, physical home address, the
physical blocks of the preferred and the other copy as translated (R298), rows whose copy failed internally, and the
data once the home tier has returned it. -/
structure LotRead where
  hub : Hub
  chan : Nat
  pen : Nat
  page : Nat
  addr : Nat
  n : Nat
  pref : Nat := 0
  prefBlk : Nat := 0
  otherBlk : Nat := 0
  failed : List Nat := []
  result : Option Payload := none
deriving DecidableEq, Repr

/-- A large MEM_MAP whose frames are still to be zeroed: pen, first MVA page, frames, W. -/
structure ZeroMap where
  pen : Nat
  page : Nat
  frames : List Nat
  write : Bool
deriving DecidableEq, Repr

/-- Writes that wait for a hub's next translation (R275): the three bits of MMU_CLEAR, and MMU_CFG. -/
structure MmuDue where
  ce : Bool := false
  last : Bool := false
  stats : Bool := false
  cfg : Option Nat := none
deriving DecidableEq, Repr

/-- Address range and Barrow state. `pages` holds the L3 entries by pen · 2^32 + page (R255); `frames` the T1 pages
charged to pens (R263). -/
structure Tiers where
  pages : Tab Nat := []
  cacheA : List Nat := []
  cacheB : List Nat := []
  frames : Tab Nat := []
  poolA : Pool := {}
  poolB : Pool := {}
  tiles : Tab TileRegion := []
  reads : Tab LotRead := []
  nextRead : Nat := 0
  chans : Tab ChanSt := []
  /-- Channel served last, by engine · 8 + level (R286). -/
  served : Tab Nat := []
  /-- Mappings whose frames are still to be zeroed (R263), by operation handle. -/
  zeroing : Tab ZeroMap := []
  /-- Writes of MMU_CLEAR and MMU_CFG that wait for the hub's next translation (R275), by hub. -/
  mmuDue : Tab MmuDue := []
deriving DecidableEq, Repr

/-! ### Weight arrays and lots (chapters 12 and 13) -/

/-- An operation of a bank under way (R308–R312): erase progress is a command of its own, so the state keeps whether a
SUSPEND is held, the data to be programmed, and the command's logical address. -/
structure BankOp where
  /-- A SUSPEND is held (R312). -/
  heldSuspend : Bool := false
  data : Bytes := []
  /-- READ_PAGE_PHYS or BLANK_CHECK running beside a suspended erase (R309): operation, block, page. -/
  beside : Option (Nat × Nat × Nat) := none
  /-- The erase waits for reads translated under the old mapping (R299). -/
  deferred : Bool := false
deriving DecidableEq, Repr

/-- An unlock sequence (R306): its owner (a hub's MP), the command word, offset and number of the cycles collected so
far, their data, the value of a command cycle, and whether the cycles are complete (the command waits to be run). -/
structure Unlock where
  owner : Hub
  word : Nat := 0
  first : Nat := 0
  got : Nat := 0
  data : Bytes := []
  value : Nat := 0
  complete : Bool := false
deriving DecidableEq, Repr

/-- A row's array and controller (R295–R319) beyond registers and cells: block map where it differs from the identity
and the map last journalled, retired blocks, erase counts, highest page programmed since the last erase (page + 1),
pages that an interrupted pulse left not blank (block · 256 + page), blocks whose membership of the spare pool differs
from that of a new module, bank operations, page buffer, poison list of logical lines, scrub position. -/
structure NvArray where
  map : Tab Nat := []
  journal : Tab Nat := []
  retired : List Nat := []
  erases : Tab Nat := []
  topPage : Tab Nat := []
  torn : List Nat := []
  poolDelta : List Nat := []
  banks : Tab BankOp := []
  unlock : Option Unlock := none
  pageBuf : Payload := []
  poisonLines : List Nat := []
  /-- Page under scrub (block · 256 + page), next block of the pass, blocks skipped and due again. -/
  scrubPos : Nat := 0
  scrubNext : Nat := 1
  scrubSkipped : List Nat := []
  /-- Blocks whose relocation is due (R315), with whether the mirror is the clean copy; blocks to settle (R316). -/
  dueRelocation : Tab Bool := []
  dueSettle : List Nat := []
deriving DecidableEq, Repr

/-- A source of shards (R326): the host at an address, or a neighbour port with LOT_ID and GEN. -/
structure Source where
  nbr : Bool
  port : Nat
  addr : Nat
deriving DecidableEq, Repr

/-- A layer of an installed lot (R320, R332). -/
structure Layer where
  part : Nat
  shards : Nat
  first : Nat
  gen : Nat
deriving DecidableEq, Repr

/-- States of a lot (R332). -/
inductive LotState where
  | installing | ready | swapping | mixed | removing
deriving DecidableEq, Repr

/-- A tensor of a lot (R320, Table 13.2). -/
structure Tensor where
  layer : Nat
  fmt : Nat
  sidx : Nat
  tpair : Nat
deriving DecidableEq, Repr

/-- An installed lot (R320–R332). `parts` holds pair, first sector and shards of each part. -/
structure Lot where
  lotId : Nat
  gen : Nat
  serve : Bool
  state : LotState
  layout : Bytes
  parts : List (Nat × Nat × Nat)
  layers : List Layer
  tensors : List Tensor
  digests : List Bytes
  grants : List Nat := []
  /-- The manifest it was installed from, last replaced when a rolling swap ended on every layer. -/
  manifest : Bytes := []
  /-- Operation that removes it (R342). -/
  op : Option Nat := none
deriving DecidableEq, Repr

/-- An adapter in a pen's T1 frames (R331). -/
structure Adapter where
  lotId : Nat
  gen : Nat
  baseId : Nat
  pen : Nat
  mva : Nat
  pages : Nat
  layout : Bytes := []
  manifest : Bytes := []
deriving DecidableEq, Repr

/-- Shard progress (R327): source index, failures at that source, and whether it is held and programmed. -/
structure ShardSt where
  src : Nat := 0
  fails : Nat := 0
  done : Bool := false
deriving DecidableEq, Repr

/-- An installation in progress (R322–R328), by operation handle: the handle the lot gets, the pair named, SERVE, the
manifest once verified. `shards` holds the progress of each shard by number, the manifest's under 0xFFFF_FFFF. -/
structure Install where
  lot : Nat
  pair : Option Nat
  serve : Bool
  sources : List Source
  manifest : Option Bytes := none
  shards : Tab ShardSt := []
deriving DecidableEq, Repr

/-- States of a layer in a rolling swap (Table 13.4). -/
inductive SwapState where
  | fetch | programmed | tabled | held | flipped
deriving DecidableEq, Repr

/-- A swap in progress (R335–R338), by operation handle: rolling (`lot`, new manifest once verified, layer under way,
spare blocks by logical block in each row of its pair) or consistent. -/
structure Swap where
  rolling : Bool
  pen : Nat
  lot : Nat
  newLot : Nat := 0
  newImage : Nat := 0
  oldImage : Nat := 0
  layer : Nat := 0
  state : SwapState := .fetch
  sources : List Source := []
  manifest : Option Bytes := none
  shards : Tab ShardSt := []
  /-- New physical blocks, by 65536 · part + shard of the part: in row r and in row r + 4. -/
  spareLo : Tab Nat := []
  spareHi : Tab Nat := []
  /-- Launch entries whose INTAKE_ON a consistent swap cleared. -/
  held : List Nat := []
deriving DecidableEq, Repr

/-- Layer counters of an image (R336), by handle, lot and layer. -/
structure Crossing where
  handle : Nat
  lot : Nat
  layer : Nat
  crossed : Nat := 0
  left : Nat := 0
deriving DecidableEq, Repr

/-- Arrays, lots and their lifecycle. -/
structure Weights where
  arrays : Tab NvArray := []
  lots : Tab Lot := []
  adapters : Tab Adapter := []
  nextLot : Nat := 1
  installs : Tab Install := []
  swaps : Tab Swap := []
  crossings : List Crossing := []
  /-- Blocks (row, physical block) that flips have removed from the map and that wait to be erased (R299, R336). -/
  oldBlocks : List (Nat × Nat) := []
  /-- Lot that a pen's images read under a LOT_ID, where a consistent swap has changed it (R338), by pen · 2^32 + LOT_ID. -/
  remaps : Tab Nat := []
deriving DecidableEq, Repr

/-! ### Pens, management processors, goose (chapter 19) -/

/-- Pen states (Table 19.1), coded as PEN_STATE codes them (R469). -/
inductive PenState where
  | absent | up | wedged | resetting | shed
deriving DecidableEq, Repr

/-- A pen reset in progress (R445): who asked (operation handle, none for an FLR), ZERO, the half of P0 (0 none, 1 A,
2 B), whether the pen was SHED, requests discarded so far. -/
structure PenReset where
  op : Option Nat := none
  zero : Bool := false
  half : Nat := 0
  toShed : Bool := false
  discarded : Nat := 0
deriving DecidableEq, Repr

/-- A pen (R442–R449). -/
structure Pen where
  state : PenState := .absent
  secure : Bool := false
  priority : Nat := 0
  wedgeMs : Nat := 0
  partner : Option Nat := none
  /-- 0 none, 1 hot, 2 warm (R447). -/
  mode : Nat := 0
  mirrorMva : Nat := 0
  mirrorPages : Nat := 0
  /-- Primary of a warm pair (R449). -/
  primary : Bool := false
  /-- Mirroring stops until the former primary's copy is done (R449). -/
  unsynced : Bool := false
  reset : Option PenReset := none
deriving DecidableEq, Repr

/-- Condition of a management processor (R32, R33, R431, R464): running and ready, starting, in ROM recovery, or lost;
the firmware slot it runs. -/
inductive MpState where
  | off | starting | ready | romRecovery | lost
deriving DecidableEq, Repr

structure Mp where
  state : MpState := .off
  slot : Nat := 0
deriving DecidableEq, Repr

/-- How far a live handover has come (Table 19.5). -/
inductive HandoverPhase where
  | standbyRestarting | standbyReady | roleMoved
deriving DecidableEq, Repr

/-- A live handover (R464). -/
structure Handover where
  op : Nat
  update : Bool
  phase : HandoverPhase
deriving DecidableEq, Repr

/-- Availability: pens, MPs, hubs, rows and links lost, failed optical ports, heartbeats, handover, goose
mode, the EVAL that toggled HEALTH last (R459–R462). -/
structure Avail where
  pens : Tab Pen := []
  mpA : Mp := {}
  mpB : Mp := {}
  lostHubs : List Hub := []
  lostRows : List Nat := []
  /-- Lost row-to-hub links: 2 · row + hub (R23). -/
  lostLinks : List Nat := []
  lostPorts : List Nat := []
  beats : Nat × Nat := (0, 0)
  handover : Option Handover := none
  gooseMode : Bool := false
  lastToggle : Option Nat := none
  /-- RTC ticks at a half's last commit since module reset (R460–R462). -/
  commitA : Option Nat := none
  commitB : Option Nat := none
  /-- EVAL of the last disagreement counted. -/
  disagreed : Option Nat := none
  /-- Domains that goose mode has forced OFF (R457, R482). -/
  gooseDoms : List Nat := []
deriving DecidableEq, Repr
/-! ### Tree ports, sessions, video (chapters 14, 15 and 17) -/

/-- A lease (R354). -/
structure Lease where
  pen : Nat
  lFirst : Nat
  lLast : Nat
  gFirst : Nat
  gLast : Nat
deriving DecidableEq, Repr

/-- An entry of a grant map (R355): TF mod 8, LID, first grain, length. -/
structure MapGrant where
  frame : Nat
  lid : Nat
  start : Nat
  len : Nat
deriving DecidableEq, Repr

/-- What a grant was given for (R348, R377). -/
inductive GrantKind where
  | map | request | range | handshake
deriving DecidableEq, Repr

/-- A grant that a sent header carried, and whether a burst has claimed it. -/
structure UpGrant where
  kind : GrantKind
  lid : Nat
  start : Nat
  len : Nat
  got : Bool := false
deriving DecidableEq, Repr

/-- A received bid (R357, R358): its slot, message, the LID of its burst header, arrival past its slot in half ns. -/
structure BidRec where
  slot : Nat
  lid : Nat
  join : Bool
  nonce : Nat
  ident : Bytes
  grains : Nat
  delta : Int
  grain : Nat
  offset : Int
deriving DecidableEq, Repr

/-- An upstream frame whose header has been sent (R347, R356): its grants, its auction window (first grain, slots,
spread, JOIN_EQD), bids received in it, slots that collided, when its last burst ended. -/
structure UpFrame where
  grants : List UpGrant := []
  window : Option (Nat × Nat × Nat × Nat) := none
  bids : List BidRec := []
  collided : List Nat := []
  ends : List (Nat × Nat) := []
deriving DecidableEq, Repr

/-- TREE_CFG as it is in force; a write takes effect at the next superframe (R371). -/
structure TreeCfg where
  errThresh : Nat := 0x0400
  missLimit : Nat := 16
  strayThresh : Nat := 4
  bidStart : Nat := 200
  bidSlots : Nat := 8
  spreadG : Nat := 480
  autoSweep : Bool := false
  enable : Bool := false
deriving DecidableEq, Repr

/-- A silencing sweep (R365): candidates, the half silenced in this round, whether this round confirms, its operation. -/
structure Sweep where
  cand : List Nat
  half : List Nat := []
  confirm : Bool := false
  op : Option Nat := none
deriving DecidableEq, Repr

/-- A tree port beyond its registers (R346–R371): the number of the next downstream frame and of the upstream frame
being received, TREE_PORT_SET's values, leases, the active map, frames in flight, entries and session frames that wait
with the first TF they may leave in, stray light of the last 64 frames, the sweep. -/
structure TreePort where
  tf : Nat := 0
  upTf : Nat := 0
  treeId : Nat := 0
  rttMin : Nat := 0
  cfg : TreeCfg := {}
  clearStats : Bool := false
  clearLast : Bool := false
  /-- SESS_CFG in force: ERR_THRESH, WIN, RETRIES; a clear that waits for the superframe (R393). -/
  sessErrThresh : Nat := 0x0100
  sessWin : Nat := 256
  sessRetries : Nat := 3
  clearSess : Bool := false
  leases : List Lease := []
  map : List MapGrant := []
  up : Tab UpFrame := []
  entries : List (Nat × Nat) := []
  down : List (Nat × Bytes) := []
  /-- Ranging due: LID. -/
  ranges : List Nat := []
  /-- REQUEST grants due: LID, grains (R358). -/
  requests : List (Nat × Nat) := []
  hsLast : Nat := 127
  /-- Doubling of BID_SLOTS (R359): factor and windows left. -/
  boost : Nat × Nat := (1, 0)
  strayHist : List Bool := []
  sweep : Option Sweep := none
  /-- A sweep that waits for the twin port's (R366): its operation. -/
  sweepWait : Option (Option Nat) := none
deriving DecidableEq, Repr

/-- A LID beyond its registers: registered IDENT, IDENT of the unit that holds it, its last eight arrival offsets (ns),
ranging failures, misses in a row, first TF it is granted in, first TF after a sweep's silence, TF of the last clone
event. -/
structure Lid where
  ident : Option Bytes := none
  bound : Option Bytes := none
  offsets : List Int := []
  fails : Nat := 0
  misses : Nat := 0
  grantFrom : Nat := 0
  silentTo : Nat := 0
  cloneTf : Option Nat := none
deriving DecidableEq, Repr

/-- A session beyond its registers (R372–R391). -/
structure Sess where
  chalId : Nat := 0
  nonce : Bytes := []
  frags : List (Nat × Bytes) := []
  fragTotal : Nat := 0
  fragLast : Bool := false
  /-- The chain received whole under the current challenge. -/
  chain : Option Bytes := none
  /-- Leaf key and anchor (slot of the trust store) of the authenticated chain. -/
  leaf : Bytes := []
  anchor : Nat := 0
  answered : Bool := false
  key : Bytes := []
  pendKey : Bytes := []
  prevKey : Bytes := []
  prevEpoch : Nat := 0
  /-- Last KEY frame sent, repeated unchanged (R379). -/
  keyFrame : Bytes := []
  /-- Handshake message that RESP guards, and its resends so far. -/
  guarded : Option Bytes := none
  resends : Nat := 0
  upCseq : Option Nat := none
  downCseq : Nat := 0
  rtoken : Option Bytes := none
  parked : Bool := false
  sentStreams : Nat := 0
  sentWin : Nat := 0
  got : List Nat := []
  staleRun : Nat := 0
  rekeyWaits : Bool := false
  blocksUp : Nat := 0
  blocksDown : Nat := 0
  ackDue : List Nat := []
  lastAck : Nat := 0
  rekeyOps : List Nat := []
  chalOps : List Nat := []
  /-- TF in which a handshake message was last repeated for a repeated RESPONSE (R389). -/
  repeated : Option Nat := none
  /-- Epoch and key under which a LEAVE_ACK is awaited. -/
  closing : Option (Nat × Bytes) := none
deriving DecidableEq, Repr

/-- The upstream data space of a unit (R367, R382–R385): next USEQ to pass on (BASE), frames held beyond it, skipped
USEQs, bindings by stream, the other hub's kept frames and the last reported USEQ. -/
structure UnitSpace where
  next : Nat := 0
  held : Tab Bytes := []
  skipped : List Nat := []
  bindings : Tab Nat := []
  kept : Tab Bytes := []
  reported : Option Nat := none
deriving DecidableEq, Repr

/-- An output region of a stream (R414). -/
structure OutRegion where
  cx : Nat
  cy : Nat
  cw : Nat
  ch : Nat
  ow : Nat
  oh : Nat
deriving DecidableEq, Repr

/-- An access unit in a stream's input ring: its number, STAMP, data, whether it has a gap, whether it is poisoned, its
last USEQ, and whether it is complete. -/
structure AccessUnit where
  num : Nat
  stamp : Nat
  data : Bytes := []
  gap : Bool := false
  lastUseq : Nat := 0
  ended : Bool := false
deriving DecidableEq, Repr

/-- A configured decode stream (R411–R420). `order` lists complete access units by number. -/
structure VStream where
  pen : Nat
  port : Nat
  lid : Nat
  stream : Nat
  launch : Nat
  queue : Nat
  maxPps : Nat
  inMva : Nat
  inBuf : Nat
  outBase : Nat
  outStride : Nat
  nbuf : Nat
  lumaOnly : Bool
  regions : List OutRegion
  /-- Decoding has started at an IRAP or IDR picture (R413). -/
  started : Bool := false
  /-- VDEC_REFUSED has been raised for the present parameter set (R412). -/
  refused : Bool := false
  units : List AccessUnit := []
  /-- An access unit is being discarded for want of space (R416). -/
  discarding : Bool := false
  /-- A gap stands before the next access unit (R418). -/
  gapAhead : Bool := false
  nextUnit : Nat := 0
  stamps : Tab Nat := []
  busy : List Nat := []
  pictures : Nat := 0
  stopped : Bool := false
deriving DecidableEq, Repr

/-- A decode engine: streams configured, complete access units in order of their last DATA frame (stream index and unit
number), the one in decode. -/
structure DecEngine where
  streams : Tab VStream := []
  nextStream : Nat := 0
  order : List (Nat × Nat) := []
  now : Option (Nat × AccessUnit) := none
deriving DecidableEq, Repr

/-- Ingress from drop units: tree ports, LIDs (128 · port + LID), sessions, unit spaces, decode engines, decode shares by
32 · engine + pen. -/
structure Ingress where
  ports : Tab TreePort := []
  lids : Tab Lid := []
  sess : Tab Sess := []
  units : Tab UnitSpace := []
  engines : Tab DecEngine := []
  shares : Tab Nat := []
deriving DecidableEq, Repr

/-! ### Neighbour links (chapters 8 and 16) -/

/-- Receiver states of a tag (Table 8.7). -/
inductive TagState where
  | held | wait | committed
deriving DecidableEq, Repr

/-- An item in a port's hold area: its tag without EPOCH (0 for committed data), index, data held so far, whether its END
frame has come, whether it has been taken. -/
structure HeldItem where
  tag : Nat
  item : Nat
  data : Payload := []
  complete : Bool := false
  taken : Bool := false
  order : Nat := 0
deriving DecidableEq, Repr

/-- State of a tag at the receiver (R221). -/
structure TagRec where
  state : TagState
  epoch : Nat
  /-- ITEMS of a commit notice that waits for its last item. -/
  commitAt : Option Nat := none
deriving DecidableEq, Repr

/-- A frame of a conversation 1 to 3 that is to be sent or is unacknowledged: type, payload, credit units it charges,
and its bytes once sent. -/
structure ConvFrame where
  typ : Nat
  body : Bytes
  units : Nat := 0
  bytes : Bytes := []
deriving DecidableEq, Repr

/-- A conversation 1 to 3 (R399): next SEQ, BASE of the peer's last ACK, unacknowledged frames by SEQ, frames that wait
for window or credit; next SEQ to be delivered, frames received out of order. -/
structure Conv where
  nextSeq : Nat := 0
  base : Nat := 0
  unacked : Tab ConvFrame := []
  waiting : List ConvFrame := []
  recvBase : Nat := 0
  ahead : Tab (Nat × Bytes) := []
deriving DecidableEq, Repr

/-- A lot transfer open on a port (R401). As server: the lot, shards asked and not yet acknowledged. As requester: the
installation or swap it serves, the manifest's length, fragments collected by shard. -/
structure Rid where
  server : Bool
  lot : Nat := 0
  job : Nat := 0
  nshard : Nat := 0
  mlen : Nat := 0
  wanted : List Nat := []
  parts : Tab Bytes := []
deriving DecidableEq, Repr

/-- A T3 read in progress at the reader (R402), by RTAG: the lot read it serves, or the pool frame it fills (hub and
frame), its address in the peer's T2 windows and length, whether PAGE_READ has been sent, data collected. -/
structure FarRead where
  read : Nat := 0
  fill : Option (Nat × Nat) := none
  addr : Nat
  n : Nat
  sent : Bool := false
  data : Payload := []
deriving DecidableEq, Repr

/-- A neighbour port beyond its registers (R394–R409). -/
structure NbrPort where
  aligned : Bool := false
  pin : Bytes := []
  nonce : Bytes := []
  peerNonce : Bytes := []
  peerModule : Bytes := []
  frags : List (Nat × Bytes) := []
  fragTotal : Nat := 0
  fragLast : Bool := false
  peerLeaf : Bytes := []
  anchor : Nat := 0
  guarded : List Bytes := []
  resends : Nat := 0
  keys : List Bytes := []
  pendKeys : List Bytes := []
  pendEpoch : Nat := 0
  prevKeys : List Bytes := []
  prevEpoch : Nat := 0
  rekeyOps : List Nat := []
  ctlSend : Nat := 0
  ctlRecv : Option Nat := none
  convs : Tab Conv := []
  /-- Units the peer lets this side send (LIMIT) and units sent; units granted to the peer and units received. -/
  limit : Nat := 0
  sentUnits : Nat := 0
  granted : Nat := 8192
  recvUnits : Nat := 0
  items : List HeldItem := []
  nextOrder : Nat := 0
  tags : Tab TagRec := []
  notices : List (Nat × Bytes) := []
  /-- Notices received that wait for the ITEM frames they name (AFTER). -/
  noticesIn : List Bytes := []
  /-- Slots that wait for items to come again: tag, stall, trough, slot (Table 8.7, WAIT). -/
  refills : List (Nat × Nat × Nat × Nat) := []
  rids : Tab Rid := []
  nextRid : Nat := 0
  reads : Tab FarRead := []
  nextTag : Nat := 0
  /-- Next ITEM index by tag sent, and the SEQ of the last ITEM frame sent under it. -/
  sentItems : Tab (Nat × Nat) := []
  /-- WITHDRAW frames sent and not yet acknowledged: SEQ on conversation 1. -/
  withdraws : List Nat := []
  blocks : Nat := 0
deriving DecidableEq, Repr

/-! ### Trust, power, management port (chapters 18, 20 and 21) -/

/-- A firmware slot of the system areas (R431). -/
structure FwSlot where
  svn : Nat
  build : Nat
  package : Bytes
deriving DecidableEq, Repr

/-- Trust state. The trust store by 16 · purpose + slot, chain 1, firmware slots and the active one, the anti-rollback
counter; all of it lies in the system areas and outlives power (R429–R434). -/
structure Trust where
  keys : Tab Bytes := []
  chain1 : Option Bytes := none
  slot0 : Option FwSlot := none
  slot1 : Option FwSlot := none
  active : Nat := 0
  rollback : Nat := 0
  rollbackSat : Bool := false
  /-- World changes whose zeroing is under way (R426), by operation handle: kind, secure, first, count. -/
  zeroing : Tab (Nat × Bool × Nat × Nat) := []
deriving DecidableEq, Repr

/-- Power and start-up beyond the registers (R474–R483): rails whose die is held at 0.68 V by its temperature, mV by which
the cap holds a rail below its set value, whether PWR_CAP_HIT has been raised, the last 1,024 samples of input power,
domains that wake from OFF, whether a thermal shutdown holds, GOOSE_START of the start-up record. -/
structure Power where
  hot : List Nat := []
  capDrop : Tab Nat := []
  fromOff : List Nat := []
  capHit : Bool := false
  samples : List Nat := []
  shutdown : Bool := false
  gooseStart : Bool := false
deriving DecidableEq, Repr

/-- A frame for a management link (R498): type, destination, the MSEQ that an answer echoes (none: the link's next, given
as it is sent), its payload with zeros for MSEQ. -/
structure MgmtFrame where
  typ : Nat
  dest : Nat
  echo : Option Nat := none
  bytes : Bytes
deriving DecidableEq, Repr

/-- A management link (R497–R504): next MSEQ, transmit queue, frames of signature records and reports that wait for room,
requests answered in an RTC second. -/
structure MgmtLink where
  mseq : Nat := 0
  queue : List MgmtFrame := []
  waiting : List MgmtFrame := []
  second : Nat := 0
  answered : Nat := 0
deriving DecidableEq, Repr

/-- The management port: both links, and the configuration record that start-up reads (R503): MGMT_CFG and MGMT_DEST. -/
structure Mgmt where
  a : MgmtLink := {}
  b : MgmtLink := {}
  cfgRecord : Option (Nat × Nat) := none
deriving DecidableEq, Repr


/-! ### The whole state -/

/-- The module (the hall): everything the manual gives it. `freeCtr` is the model's own: the counter that free values
and random draws of `Config` are applied to (log entry 1). -/
structure Hall where
  regs : List RegVal := []
  mem : MemSys := {}
  outs : List Out := []
  junctionA : Junction := {}
  junctionB : Junction := {}
  portA : HostPort := {}
  portB : HostPort := {}
  cmd : CmdSys := {}
  data : Data := {}
  checks : Checks := {}
  tiers : Tiers := {}
  weights : Weights := {}
  avail : Avail := {}
  ingress : Ingress := {}
  nbrs : Tab NbrPort := []
  trust : Trust := {}
  power : Power := {}
  mgmt : Mgmt := {}
  /-- Entries of the world table (WAT) that are not secure, by kind · 2^23 + index (R424); every other entry is. -/
  watPlain : List Nat := []
  freeCtr : Nat := 0
deriving DecidableEq, Repr

/-- The module and the queue of the commands that wait, first in first out. -/
structure State where
  hall : Hall
  pending : List Instr
deriving DecidableEq, Repr

/-- Right after reset: every register at its reset value, nothing started, no command waiting (R481: start-up itself
runs with POWER_APPLIED or MODULE_RESET). -/
def State.reset : State := { hall := {}, pending := [] }

end Sys2Proof.Machine
end

