-- ==== Sys2Proof/Machine/Flags.lean ====
section
/-! DEFINITION. Register fields of the state: reading and writing them (R9–R13), statistics and error counters
(R13), and the fault junction (R29, R30). -/

namespace Sys2Proof.Machine

/-- Reset value of a field in a unit (the register tables; R486 for the domains of the two MPs; 3,840 spare blocks per
row, which is what an empty repair map leaves on IL8-1024-M, Table 12.1, log entry 2). -/
def Fld.resetAt (f : Fld) (u : Nat) : Nat :=
  match f with
  | .hubIdentHub => u
  | .nvmcSparesFree => 3840
  | .pwrDomState => if u = 174 ∨ u = 175 then 2 else 0
  | _ => f.info.reset

/-- The listed value of a field in a list of register values. -/
def findReg (f : Fld) (u : Nat) : List RegVal → Option Nat
  | [] => none
  | r :: rest => if r.fld = f ∧ r.unit = u then some r.val else findReg f u rest

/-- A list of register values with one value replaced, or listed at the end. -/
def putReg (f : Fld) (u v : Nat) : List RegVal → List RegVal
  | [] => [⟨f, u, v⟩]
  | r :: rest => if r.fld = f ∧ r.unit = u then ⟨f, u, v⟩ :: rest else r :: putReg f u v rest

/-- The value of a register field. -/
def Hall.getF (h : Hall) (f : Fld) (u : Nat) : Nat := (findReg f u h.regs).getD (f.resetAt u)

/-- Sets a register field; a value beyond its width is truncated. -/
def Hall.setF (h : Hall) (f : Fld) (u v : Nat) : Hall :=
  { h with regs := putReg f u (v % 2 ^ f.width) h.regs }

/-- A one-bit field as a Bool. -/
def Hall.flag (h : Hall) (f : Fld) (u : Nat) : Bool := decide (h.getF f u ≠ 0)

/-- Sets a one-bit field from a Bool. -/
def Hall.setB (h : Hall) (f : Fld) (u : Nat) (b : Bool) : Hall := h.setF f u (b2n b)

/-- Several fields of one unit. -/
def Hall.setFs (h : Hall) (u : Nat) (l : List (Fld × Nat)) : Hall := l.foldl (fun h p => h.setF p.1 u p.2) h

/-- Largest value of a counter's COUNT. -/
def Ctr.top (c : Ctr) : Nat := 2 ^ (Fld.count c).width - 1

/-- A statistics counter grows by `k`: it sticks at its maximum and sets its SAT flag (R13). -/
def Hall.bump (h : Hall) (c : Ctr) (u : Nat) (k : Nat := 1) : Hall :=
  let v := h.getF (.count c) u + k
  if k = 0 then h
  else if c.top ≤ v then (h.setF (.count c) u c.top).setF (.sat c) u 1
  else h.setF (.count c) u v

/-- Clears a statistics counter and its SAT flag (R13). -/
def Hall.clearCtr (h : Hall) (u : Nat) (c : Ctr) : Hall := (h.setF (.count c) u 0).setF (.sat c) u 0

/-- Clears the counters given. -/
def Hall.clearCtrs (h : Hall) (u : Nat) (l : List Ctr) : Hall := l.foldl (fun h c => h.clearCtr u c) h

/-- Clears the fields given to zero. -/
def Hall.clearFs (h : Hall) (u : Nat) (l : List Fld) : Hall := l.foldl (fun h f => h.setF f u 0) h

/-- Numbers of the hubs: 0 hub A, 1 hub B. -/
def hubNum : Hub → Nat
  | .a => 0
  | .b => 1

def hubOf (n : Nat) : Hub := if n % 2 = 0 then .a else .b

/-- The other hub. -/
def otherHub : Hub → Hub
  | .a => .b
  | .b => .a

/-- One junction takes a record (R29, R30): an ordinary record is dropped and counted when its class is full, an urgent
one is held. While a record is held, further urgent ones wait behind it. -/
def Junction.deposit (j : Junction) (r : FjRec) : Junction :=
  if r.urgent then
    if j.urgent.length < 256 ∧ j.held = [] then { j with urgent := j.urgent ++ [r] }
    else { j with held := j.held ++ [r], heldCount := j.heldCount + 1 }
  else if j.ordinary.length < 4096 then { j with ordinary := j.ordinary ++ [r] }
  else { j with dropped := j.dropped + 1 }

/-- A record goes to both hubs' junctions (R29). -/
def Hall.deposit (h : Hall) (r : FjRec) : Hall :=
  { h with junctionA := h.junctionA.deposit r, junctionB := h.junctionB.deposit r }

/-- An urgent record. -/
def Hall.urgent (h : Hall) (k : RecKind) (unit : Nat) (info : Nat := 0) : Hall := h.deposit ⟨true, k, unit, info⟩

/-- An ordinary record. -/
def Hall.ordinary (h : Hall) (k : RecKind) (unit : Nat) (info : Nat := 0) : Hall := h.deposit ⟨false, k, unit, info⟩

/-- An error-kind counter grows by `k` (R13): at its threshold it raises its event once and sticks until cleared. A
threshold of 0 is taken as 1 where the register's table says so. -/
def Hall.errorCount (h : Hall) (count hit : Fld) (u k thresh : Nat) (rk : RecKind) : Hall :=
  let t := if thresh = 0 then 1 else thresh
  if h.flag hit u then h
  else
    let v := h.getF count u + k
    if v < t then h.setF count u v
    else ((h.setF count u t).setF hit u 1).ordinary rk u t

/-- The module sends something. -/
def Hall.emit (h : Hall) (o : Out) : Hall := { h with outs := o :: h.outs }

/-- Draws `n` random bytes (Config.random), counting the draw. -/
def Hall.draw (h : Hall) (n : Nat) : Bytes × Hall :=
  (slice (Config.random h.freeCtr n) 0 n, { h with freeCtr := h.freeCtr + 1 })

/-- A free value, counting its use. -/
def Hall.free (h : Hall) : Nat × Hall := (Config.freeNat h.freeCtr, { h with freeCtr := h.freeCtr + 1 })

/-- The governing MP: HUB_IDENT.GOVERNING of a hub (R32); none where no hub's is set. -/
def Hall.governing (h : Hall) : Option Hub :=
  if h.flag .hubIdentGoverning 0 then some .a else if h.flag .hubIdentGoverning 1 then some .b else none

/-- The hub of the governing MP, hub A where none governs (for choices that need a hub). -/
def Hall.govHub (h : Hall) : Hub := h.governing.getD .a

/-- A switchboard write is accepted from the governing MP only (R32). -/
def Hall.accepts (h : Hall) (req : Requester) : Bool :=
  match req with
  | .mp hub => decide (h.governing = some hub)
  | .host _ _ => false

/-- The meaning of a command on the module, the queue untouched. -/
def State.run (s : State) (f : Hall → Hall) : Host.Outcome State Fault Refusal :=
  .next { s with hall := f s.hall }

/-- A switchboard write: it acts when the governing MP makes it, and is discarded otherwise (R32). -/
def State.board (s : State) (req : Requester) (f : Hall → Hall) : Host.Outcome State Fault Refusal :=
  s.run fun h => if h.accepts req then f h else h

end Sys2Proof.Machine
end

