-- ==== Sys2Proof/Machine/MgmtLine.lean ====
section
/-! DEFINITION. Frames of the management links (R497–R500): their header, the transmit queue, what the module sends
unasked. -/

namespace Sys2Proof.Machine

/-- SHA-512, 64 bytes. -/
def sha512 (b : Bytes) : Bytes := slice (Config.sha512 b) 0 64

/-- MODULE: SHA-512 of the identity key's SubjectPublicKeyInfo (R433). -/
def moduleId : Bytes := sha512 Config.identityKey

def Hall.link (h : Hall) : Hub → MgmtLink
  | .a => h.mgmt.a
  | .b => h.mgmt.b
def Hall.updLink (h : Hall) (hub : Hub) (f : MgmtLink → MgmtLink) : Hall :=
  match hub with
  | .a => { h with mgmt.a := f h.mgmt.a }
  | .b => { h with mgmt.b := f h.mgmt.b }

/-- TYPE of Table 21.8. -/
def mgHeartbeat : Nat := 0x01
def mgSignature : Nat := 0x02
def mgEvent : Nat := 0x03
def mgReport : Nat := 0x04

/-- A link that carries frames: up, in service, and its hub not lost (R500, R502). -/
def Hall.linkOn (h : Hall) (hub : Hub) : Bool :=
  h.flag .mgmtStatusLink (hubNum hub) && h.flag .mgmtCfgEnable (hubNum hub) && !h.avail.lostHubs.contains hub

/-- Payload of the frame of a content that begins at byte `o`, MSEQ left zero (Table 21.7, R500). -/
def mgmtPayload (hub : Hub) (typ : Nat) (content : Bytes) (o : Nat) : Bytes :=
  let part := (content.drop o).take 1468
  let last := decide (content.length ≤ o + 1468)
  let p := beBytes 1 1 ++ beBytes 1 typ ++ beBytes 2 part.length ++ beBytes 4 0 ++ moduleId.take 8 ++ beBytes 1 (hubNum hub) ++
    beBytes 1 (b2n last) ++ beBytes 2 0 ++ beBytes 4 o ++ beBytes 4 content.length ++ beBytes 4 0 ++ part
  p ++ List.replicate (46 - p.length) 0

/-- Frames of a content in OFFSET order. -/
def mgmtFrames (hub : Hub) (typ dest : Nat) (echo : Option Nat) (content : Bytes) : List MgmtFrame :=
  (List.range (max 1 (ceilDiv content.length 1468))).map fun i =>
    { typ := typ, dest := dest, echo := echo, bytes := mgmtPayload hub typ content (1468 * i) }

/-- Frames that wait enter the transmit queue while it has room (R500). -/
def MgmtLink.fill (l : MgmtLink) : MgmtLink :=
  let n := 256 - l.queue.length
  { l with queue := l.queue ++ l.waiting.take n, waiting := l.waiting.drop n }

/-- A SIGNATURE or a REPORT for one link: it waits until the queue has room. -/
def Hall.mgmtHold (h : Hall) (hub : Hub) (fs : List MgmtFrame) : Hall :=
  if h.linkOn hub then h.updLink hub fun l => ({ l with waiting := l.waiting ++ fs } : MgmtLink).fill else h

/-- An EVENT for one link: discarded and counted when the queue is full. -/
def Hall.mgmtEventTo (h : Hall) (hub : Hub) (entry : Bytes) : Hall :=
  let u := hubNum hub
  if !(h.linkOn hub && h.flag .mgmtCfgEvents u) then h
  else if 256 ≤ (h.link hub).queue.length then h.bump .mgmtTxDropped u
  else h.updLink hub fun l => { l with queue := l.queue ++ mgmtFrames hub mgEvent (h.getF .mgmtDestMac u) none entry }

/-- A HEARTBEAT for one link: with the queue full it replaces one that is still queued. Where none is queued, it is not
sent (log entry 46). -/
def Hall.mgmtBeatTo (h : Hall) (hub : Hub) (content : Bytes) : Hall :=
  if !h.linkOn hub then h
  else
    let fs := mgmtFrames hub mgHeartbeat (h.getF .mgmtDestMac (hubNum hub)) none content
    h.updLink hub fun l =>
      if l.queue.length < 256 then { l with queue := l.queue ++ fs }
      else if l.queue.any fun (f : MgmtFrame) => f.typ = mgHeartbeat then
        { l with queue := (l.queue.filter fun (f : MgmtFrame) => decide (f.typ ≠ mgHeartbeat)) ++ fs }
      else l

/-- An event entry with each field of Table 2.20 big-endian (Table 21.8). -/
def eventBigEndian (e : Bytes) : Bytes :=
  let f := fun o n => (slice e o n).reverse
  f 0 2 ++ f 2 2 ++ f 4 4 ++ f 8 4 ++ f 12 2 ++ f 14 2 ++ e.drop 16

/-- An entry of the secure module event queue leaves as an EVENT on both links (Table 21.8). -/
def Hall.mgmtEvent (h : Hall) (entry : Bytes) : Hall :=
  (h.mgmtEventTo .a (eventBigEndian entry)).mgmtEventTo .b (eventBigEndian entry)

/-- A new signature record leaves on both links (R500). -/
def Hall.mgmtRecord (h : Hall) (signed : Bytes) : Hall :=
  let one := fun (h : Hall) (hub : Hub) => h.mgmtHold hub (mgmtFrames hub mgSignature (h.getF .mgmtDestMac (hubNum hub)) none signed)
  one (one h .a) .b

end Sys2Proof.Machine
end

