-- ==== Sys2Proof/Machine/Operands.lean ====
section
/-! DEFINITION. The number formats of chapter 3 and the arithmetic on them: encoding and decoding, rounding (R86),
conversion (R90, R103), quantisation (R92–R100), correctly rounded functions (R124) and comparison (R88). -/

namespace Sys2Proof.Machine

/-- An exact dyadic number `m · 2^e`. -/
structure Dy where
  m : Int
  e : Int
deriving DecidableEq, Repr

/-- `n · 2^k` for `k ≥ 0`, `⌊n / 2^(-k)⌋` otherwise. -/
def shiftInt (n : Int) (k : Int) : Int := if 0 ≤ k then n * 2 ^ k.toNat else n / 2 ^ (-k).toNat

/-- Exact sum of two dyadic numbers. -/
def Dy.add (a b : Dy) : Dy :=
  let e := min a.e b.e
  ⟨shiftInt a.m (a.e - e) + shiftInt b.m (b.e - e), e⟩

/-- Exact product. -/
def Dy.mul (a b : Dy) : Dy := ⟨a.m * b.m, a.e + b.e⟩

def Dy.neg (a : Dy) : Dy := ⟨-a.m, a.e⟩

def Dy.abs (a : Dy) : Dy := ⟨a.m.natAbs, a.e⟩

def Dy.sum (l : List Dy) : Dy := l.foldl Dy.add ⟨0, 0⟩

/-- `a < b`. -/
def Dy.lt (a b : Dy) : Bool := decide ((b.add a.neg).m > 0)

/-- rnd(t) = floor(t + 1/2) (R92). -/
def Dy.rnd (a : Dy) : Int := shiftInt ((Dy.add a ⟨1, -1⟩).m) ((Dy.add a ⟨1, -1⟩).e)

/-- A float layout (Table 3.3): exponent and fraction widths and bias; `fin` for the finite-only FP8-E4M3. -/
structure FFmt where
  eBits : Nat
  fBits : Nat
  bias : Nat
  fin : Bool
deriving DecidableEq, Repr

def fE4M3 : FFmt := ⟨4, 3, 7, true⟩
def fE5M2 : FFmt := ⟨5, 2, 15, false⟩
def fF16 : FFmt := ⟨5, 10, 15, false⟩
def fBF16 : FFmt := ⟨8, 7, 127, false⟩
def fF32 : FFmt := ⟨8, 23, 127, false⟩

/-- The float format of a format code (Table 3.1). -/
def floatFmt (code : Nat) : Option FFmt :=
  match code with
  | 3 => some fE4M3
  | 4 => some fE5M2
  | 5 => some fF16
  | 6 => some fBF16
  | 7 => some fF32
  | _ => none

/-- Range of an integer format (Table 3.2). -/
def intRange (code : Nat) : Option (Int × Int) :=
  match code with
  | 0 => some (-8, 7)
  | 1 => some (-128, 127)
  | 2 => some (0, 255)
  | 8 => some (-2147483648, 2147483647)
  | _ => none

/-- Bits per element (Table 3.1); BX8 elements count 8 bits and their blocks 264. -/
def fmtBits (code : Nat) : Nat :=
  match code with
  | 0 => 4
  | 1 | 2 | 3 | 4 | 9 => 8
  | 5 | 6 => 16
  | 7 | 8 => 32
  | _ => 0

/-- A reserved format code (R80). -/
def fmtReserved (code : Nat) : Bool := decide (9 < code)

/-- Bytes that `n` elements of a format take (R81, R84). -/
def fmtBytes (code n : Nat) : Nat :=
  if code = 9 then 33 * ceilDiv n 32 else ceilDiv (n * fmtBits code) 8

/-- The value of a float encoding. -/
inductive Fl where
  | nan (neg : Bool)
  | inf (neg : Bool)
  | fin (neg : Bool) (m : Nat) (e : Int)
deriving DecidableEq, Repr

/-- Sign bit of an encoding. -/
def FFmt.sign (f : FFmt) (v : Nat) : Bool := v.testBit (f.eBits + f.fBits)

/-- Exponent and fraction bits of an encoding. -/
def FFmt.mag (f : FFmt) (v : Nat) : Nat := v % 2 ^ (f.eBits + f.fBits)

/-- The magnitude code of infinity (or the first code past the largest finite value). -/
def FFmt.infMag (f : FFmt) : Nat :=
  if f.fin then 2 ^ (f.eBits + f.fBits) - 1 else (2 ^ f.eBits - 1) * 2 ^ f.fBits

/-- Sign bit placed over a magnitude. -/
def FFmt.pack (f : FFmt) (neg : Bool) (mag : Nat) : Nat := mag + (if neg then 2 ^ (f.eBits + f.fBits) else 0)

/-- Canonical NaN (Table 3.4). -/
def FFmt.canNaN (f : FFmt) : Nat :=
  if f.fin then f.infMag else f.infMag + 2 ^ (f.fBits - 1)

/-- Decodes an encoding (R82, R83). -/
def FFmt.decode (f : FFmt) (v : Nat) : Fl :=
  let neg := f.sign v
  let mag := f.mag v
  if f.fin && decide (mag = f.infMag) then .nan neg
  else if !f.fin && decide (mag = f.infMag) then .inf neg
  else if !f.fin && decide (f.infMag < mag) then .nan neg
  else
    let E := mag / 2 ^ f.fBits
    let F := mag % 2 ^ f.fBits
    if E = 0 then .fin neg F (1 - (f.bias : Int) - f.fBits)
    else .fin neg (2 ^ f.fBits + F) ((E : Int) - f.bias - f.fBits)

/-- Exact value of a finite encoding, 0 for a NaN or an infinity. -/
def Fl.dy : Fl → Dy
  | .fin neg m e => ⟨if neg then -(m : Int) else m, e⟩
  | _ => ⟨0, 0⟩

def Fl.isFin : Fl → Bool
  | .fin _ _ _ => true
  | _ => false

def Fl.isNaN : Fl → Bool
  | .nan _ => true
  | _ => false

def Fl.negative : Fl → Bool
  | .nan n => n
  | .inf n => n
  | .fin n _ _ => n

def Fl.isZero : Fl → Bool
  | .fin _ 0 _ => true
  | _ => false

/-- Magnitude code nearest to a positive value in `[q, q+1) · 2^e` (exact when `sticky` is false), ties to even
(R86); codes at and above `infMag` have overflowed. -/
def FFmt.roundMag (f : FFmt) (q : Nat) (sticky : Bool) (e : Int) : Nat :=
  if q = 0 then 0
  else
    let top : Int := e + (Nat.log2 q : Nat)
    let emin : Int := 1 - (f.bias : Int)
    let E := max top emin
    let ulp := E - f.fBits
    let sh := ulp - e
    let m :=
      if sh ≤ 0 then q * 2 ^ (-sh).toNat
      else
        let k := sh.toNat
        let m0 := q / 2 ^ k
        let rem := q % 2 ^ k
        let half := 2 ^ (k - 1)
        if rem < half then m0
        else if rem = half && !sticky then (if m0 % 2 = 0 then m0 else m0 + 1)
        else m0 + 1
    ((E + f.bias - 1).toNat) * 2 ^ f.fBits + m

/-- Encoding of a rounded value: overflow gives infinity, or the largest finite value in FP8-E4M3 (R86, R90). -/
def FFmt.encodeMag (f : FFmt) (neg : Bool) (mag : Nat) : Nat :=
  if mag < f.infMag then f.pack neg mag
  else f.pack neg (if f.fin then f.infMag - 1 else f.infMag)

/-- Rounds an exact value into a format; `zneg` is the sign of a zero result. -/
def FFmt.round (f : FFmt) (d : Dy) (zneg : Bool) : Nat :=
  if d.m = 0 then f.pack zneg 0
  else f.encodeMag (decide (d.m < 0)) (f.roundMag d.m.natAbs false d.e)

/-- True where rounding a finite value overflows the format. -/
def FFmt.overflows (f : FFmt) (d : Dy) : Bool := decide (f.infMag ≤ f.roundMag d.m.natAbs false d.e)

/-- The FP32 value of an encoding. -/
def f32 (v : Nat) : Fl := fF32.decode v

def f32NaN : Nat := 0x7FC00000
def f32Inf (neg : Bool) : Nat := fF32.pack neg 0x7F800000
def f32One : Nat := 0x3F800000
def f32Max : Nat := 0x7F7FFFFF

/-- FP32 addition (R86, R88): used by the VU and the Hen, subnormals produced (Table 3.6). -/
def f32Add (a b : Nat) : Nat :=
  match f32 a, f32 b with
  | .nan _, _ => f32NaN
  | _, .nan _ => f32NaN
  | .inf x, .inf y => if x = y then f32Inf x else f32NaN
  | .inf x, _ => f32Inf x
  | _, .inf y => f32Inf y
  | x, y => fF32.round (x.dy.add y.dy) (x.negative && y.negative && x.isZero && y.isZero)

/-- Sign flip of an FP32 value. -/
def f32Neg (a : Nat) : Nat := fF32.pack (!fF32.sign a) (fF32.mag a)

def f32Sub (a b : Nat) : Nat := f32Add a (f32Neg b)

/-- Exact product as a value, NaN for invalid operations. -/
def Fl.mul (x y : Fl) : Fl :=
  match x, y with
  | .nan _, _ => .nan false
  | _, .nan _ => .nan false
  | .inf p, .inf q => .inf (p != q)
  | .inf p, .fin q m _ => if m = 0 then .nan false else .inf (p != q)
  | .fin p m _, .inf q => if m = 0 then .nan false else .inf (p != q)
  | .fin p m e, .fin q n k => .fin (p != q) (m * n) (e + k)

/-- Encodes a value in FP32 under R86. -/
def Fl.toF32 : Fl → Nat
  | .nan _ => f32NaN
  | .inf n => f32Inf n
  | .fin n m e => fF32.round (Fl.dy (.fin n m e)) n

def f32Mul (a b : Nat) : Nat := ((f32 a).mul (f32 b)).toF32

/-- Fused multiply-add `a·b + c`, rounded once (R86). -/
def f32Fma (a b c : Nat) : Nat :=
  match (f32 a).mul (f32 b), f32 c with
  | .nan _, _ => f32NaN
  | _, .nan _ => f32NaN
  | .inf p, .inf q => if p = q then f32Inf p else f32NaN
  | .inf p, _ => f32Inf p
  | _, .inf q => f32Inf q
  | x, y => fF32.round (x.dy.add y.dy) (x.negative && y.negative && x.isZero && y.isZero)

/-- FP32 rounding of a positive rational `n / d`. -/
def f32MagOfRat (n d : Nat) : Nat :=
  if n = 0 ∨ d = 0 then 0
  else
    let k := 64 + Nat.log2 d
    let q := n * 2 ^ k / d
    fF32.roundMag q (decide (n * 2 ^ k % d ≠ 0)) (-(k : Int))

/-- Correctly rounded FP32 quotient of two finite values, the second not zero (R98). -/
def f32Div (a b : Nat) : Nat :=
  match f32 a, f32 b with
  | .fin p m e, .fin q n k =>
    let d := e - k
    let num := if 0 ≤ d then m * 2 ^ d.toNat else m
    let den := if 0 ≤ d then n else n * 2 ^ (-d).toNat
    fF32.encodeMag (p != q) (f32MagOfRat num den)
  | _, _ => f32NaN

/-- FP32 of an exact integer, rounded under R86. -/
def f32OfInt (n : Int) : Nat := fF32.round ⟨n, 0⟩ false

/-- Comparison key of R88: −0 and +0 equal, every NaN above +∞. -/
def f32Key (v : Nat) : Int :=
  if (f32 v).isNaN then 2 ^ 31 else if fF32.sign v then -(fF32.mag v : Int) else (fF32.mag v : Int)

/-- A NaN selected by a comparison is returned as the canonical NaN (R125). -/
def f32Canon (v : Nat) : Nat := if (f32 v).isNaN then f32NaN else v

/-! ### Conversions -/

/-- Signed value of an integer element (R91). -/
def intOfRaw (code raw : Nat) : Int :=
  match code with
  | 0 => toSigned 4 raw
  | 1 => toSigned 8 raw
  | 2 => ((raw % 256 : Nat) : Int)
  | 8 => toSigned 32 raw
  | _ => 0

/-- Bits of an integer value in a format. -/
def rawOfInt (code : Nat) (v : Int) : Nat := ofSigned (fmtBits code) v

/-- Conversion of a narrower float to FP32: exact; a NaN gives the canonical NaN with its sign (R88, R90). -/
def f32OfFloat (f : FFmt) (raw : Nat) : Nat :=
  match f.decode raw with
  | .nan n => fF32.pack n f32NaN
  | .inf n => f32Inf n
  | .fin n m e => fF32.round (Fl.dy (.fin n m e)) n

/-- Conversion of FP32 to a float format (R90, Table 3.7), and whether it saturated or a finite value became
infinite. -/
def narrow (f : FFmt) (v : Nat) : Nat × Bool :=
  if f = fF32 then (v, false)
  else match f32 v with
  | .nan n => (f.pack n f.canNaN, false)
  | .inf n => (f.pack n (if f.fin then f.infMag - 1 else f.infMag), f.fin)
  | .fin n m e => (f.round (Fl.dy (.fin n m e)) n, f.overflows (Fl.dy (.fin n m e)))

/-- An element of a format as FP32, as the VU reads it without a named scale (R122). -/
def f32OfElem (code raw : Nat) : Nat :=
  match floatFmt code with
  | some f => f32OfFloat f raw
  | none => f32OfInt (intOfRaw code raw)


/-- Value of a BX8 mantissa under a shared exponent below 0xFF (R84). -/
def bx8Dy (x m : Nat) : Dy := ⟨toSigned 8 m, (x : Int) - 133⟩

/-- A BX8 element as FP32 (R103). -/
def f32OfBx8 (x m : Nat) : Nat := if x = 255 then f32NaN else fF32.round (bx8Dy x m) false

/-- The value of an element of any format; a BX8 element is its shared exponent and mantissa. -/
def elemFl (code raw : Nat) : Fl :=
  match floatFmt code with
  | some f => f.decode raw
  | none =>
    if code = 9 then
      if raw / 256 % 256 = 255 then .nan false
      else
        let d := bx8Dy (raw / 256 % 256) raw
        .fin (decide (d.m < 0)) d.m.natAbs d.e
    else
      let v := intOfRaw code raw
      .fin (decide (v < 0)) v.natAbs 0

/-- An element read with scale `s` and zero point `z`: round_fp32((q − z) × s), the difference exact (R122). -/
def f32Dequant (code raw : Nat) (s : Nat) (z : Int) : Nat :=
  match elemFl code raw with
  | .nan _ => f32NaN
  | .inf n => ((Fl.inf n).mul (f32 s)).toF32
  | .fin n m e =>
    let d := (Fl.dy (.fin n m e)).add ⟨-z, 0⟩
    ((Fl.fin (decide (d.m < 0)) d.m.natAbs d.e).mul (f32 s)).toF32

/-- Exponent of the leading bit of a positive dyadic number. -/
def Dy.log2 (d : Dy) : Int := (Nat.log2 d.m.natAbs : Nat) + d.e

/-- A BX8 block of 32 FP32 values: shared exponent and mantissas (R103). A poisoned element takes mantissa 0 (R105)
and no part in the shared exponent. -/
def bx8OfF32 (xs : List (Nat × Bool)) : Nat × List Nat :=
  let live := (xs.filter fun p => !p.2).map fun p => f32 p.1
  if live.any fun v => !v.isFin then (255, xs.map fun _ => 0)
  else
    let a : Dy := live.foldl (fun acc v => if acc.lt v.dy.abs then v.dy.abs else acc) (Dy.mk 0 0)
    if a.m = 0 ∨ a.lt ⟨1, -127⟩ = true then (0, xs.map fun _ => 0)
    else
      let X := a.log2 + 127
      (X.toNat, xs.map fun p =>
        if p.2 then 0
        else ofSigned 8 (clampInt (-127) 127 (Dy.rnd (Dy.mul (f32 p.1).dy ⟨1, 133 - X⟩))))

/-! ### Quantisation -/

/-- Result of quantising one element (R93): its value, whether it counts in VU_QCLAMP, and in VU_NAN_QUANT. -/
structure QRes where
  q : Int
  clamped : Bool := false
  nan : Bool := false
deriving DecidableEq, Repr

/-- R93. -/
def quantise (x r : Nat) (z qmin qmax : Int) : QRes :=
  match f32 (f32Mul x r) with
  | .nan _ => { q := z, nan := true }
  | .inf n => { q := if n then qmin else qmax, clamped := true }
  | .fin n m e =>
    let v := Dy.rnd (Fl.dy (.fin n m e)) + z
    { q := clampInt qmin qmax v, clamped := decide (v < qmin ∨ qmax < v) }

/-- Integer requantisation (R94). -/
def requant (acc M : Int) (sh : Nat) (qmin qmax zout : Int) : Int :=
  let t := acc * M + (if sh = 0 then 0 else 2 ^ (sh - 1))
  clampInt (qmin - zout) (qmax - zout) (t / 2 ^ sh) + zout

/-- Saturation to INT32 (R91). -/
def satI32 (v : Int) : Int := clampInt (-2147483648) 2147483647 v

/-- A row scale record (R100, Table 3.10). -/
structure ScaleRec where
  s : Nat
  rcp : Nat
  m : Int
  sh : Nat
  sat : Bool
  poisonAll : Bool
  z : Int
deriving DecidableEq, Repr

/-- The 16 bytes of a scale record. -/
def ScaleRec.bytes (r : ScaleRec) : Bytes :=
  leBytes 4 r.s ++ leBytes 4 r.rcp ++ leBytes 4 (ofSigned 32 r.m) ++
  leBytes 1 (r.sh % 64 + (if r.sat then 64 else 0) + (if r.poisonAll then 128 else 0)) ++ leBytes 1 0 ++
  leBytes 2 (ofSigned 16 r.z)

/-- A scale record read from 16 bytes. -/
def ScaleRec.ofBytes (b : Bytes) : ScaleRec :=
  { s := leAt b 0 4, rcp := leAt b 4 4, m := toSigned 32 (leAt b 8 4), sh := bits (leAt b 12 1) 5 0
    sat := bit (leAt b 12 1) 6, poisonAll := bit (leAt b 12 1) 7, z := toSigned 16 (leAt b 14 2) }

/-- Consumer multiplier of R99: M, SH and SAT of a scale and a gain. -/
def consumerMult (s g : Nat) : Int × Nat × Bool :=
  match f32 (f32Mul s g) with
  | .nan _ => (2147483647, 0, true)
  | .inf _ => (2147483647, 0, true)
  | .fin _ 0 _ => (0, 0, false)
  | .fin _ m e =>
    let ex : Int := (Nat.log2 m : Nat) + e + 1
    let M0 := Dy.rnd ⟨m, e - ex + 31⟩
    let sh0 := 31 - ex
    let M1 := if M0 = 2147483648 then 1073741824 else M0
    let sh1 := if M0 = 2147483648 then sh0 - 1 else sh0
    if sh1 > 63 then ((M1 + 2 ^ (sh1 - 64).toNat) / 2 ^ (sh1 - 63).toNat, 63, false)
    else if sh1 < 0 then (2147483647, 0, true)
    else (M1, sh1.toNat, false)

/-- The tracked range of a per-token row (R97): FP32 minimum and maximum, or none where nothing was tracked. -/
abbrev Track := Option (Nat × Nat)

/-- Tracking takes one finite element in. -/
def Track.add (t : Track) (v : Nat) : Track :=
  if (f32 v).isFin then
    match t with
    | none => some (v, v)
    | some (lo, hi) => some (if f32Key v < f32Key lo then v else lo, if f32Key hi < f32Key v then v else hi)
  else t

/-- Scale, reciprocal and zero point of a tracked row (R98). -/
def deriveScale (t : Track) (qmin qmax : Int) : Nat × Nat × Int :=
  let lo := match t with | none => 0 | some p => if f32Key p.1 < 0 then p.1 else 0
  let hi := match t with | none => 0 | some p => if 0 < f32Key p.2 then p.2 else 0
  let d0 := f32Sub hi lo
  let d := if fF32.mag d0 = 0x7F800000 then f32Max else d0
  let zOf := fun (r : Nat) => clampInt qmin qmax (qmin - Dy.rnd (f32 (f32Mul lo r)).dy)
  if (f32 d).isZero then (f32One, f32One, zOf f32One)
  else
    let w := (qmax - qmin).toNat
    let (num, den) := match f32 d with
      | .fin _ m e => if 0 ≤ e then (m * 2 ^ e.toNat, 1) else (m, 2 ^ (-e).toNat)
      | _ => (0, 1)
    let s := fF32.encodeMag false (f32MagOfRat num (w * den))
    let r0 := fF32.encodeMag false (f32MagOfRat (w * den) num)
    let r := if fF32.mag r0 = 0x7F800000 then f32Max else r0
    (s, r, zOf r)

/-! ### Correctly rounded functions (R124)

The value is enclosed between two fixed-point bounds; where both round to one FP32 value, that value is the correctly
rounded one. The precisions tried leave more than 100 bits beyond FP32's 24 (DEDUCED, log entry 7). -/

/-- Bounds of `e^y · 2^p` for `y = m · 2^e` between 0 and 128: Taylor series of `y / 512`, then nine squarings. -/
def expBounds (p m : Nat) (e : Int) : Nat × Nat :=
  let s : Int := e - 9 + p
  let ylo := if 0 ≤ s then m * 2 ^ s.toNat else m / 2 ^ (-s).toNat
  let yhi := if 0 ≤ s then ylo else ylo + 1
  let one := 2 ^ p
  let step := fun (acc : (Nat × Nat) × (Nat × Nat)) (n : Nat) =>
    let tl := acc.1.1 * ylo / one / (n + 1)
    let th := acc.2.1 * yhi / one / (n + 1) + 2
    ((tl, acc.1.2 + tl), (th, acc.2.2 + th))
  let r := (List.range (p / 4)).foldl step ((one, one), (one, one))
  let sq := fun (b : Nat × Nat) (_ : Nat) => (b.1 * b.1 / one, b.2 * b.2 / one + 1)
  (List.range 9).foldl sq (r.1.2, r.2.2 + 2 * r.2.1)

/-- Bounds of `e^(-y) · 2^p`. -/
def expNegBounds (p m : Nat) (e : Int) : Nat × Nat :=
  let b := expBounds p m e
  (2 ^ (2 * p) / b.2, 2 ^ (2 * p) / b.1 + 1)

/-- The first precision at which both bounds round to one magnitude code; `f p` gives the bounds scaled by `2^p`,
and the value is multiplied by `m · 2^e` before rounding. -/
def roundBounds (f : Nat → Nat × Nat) (m : Nat) (e : Int) : List Nat → Nat
  | [] => 0
  | p :: rest =>
    let b := f p
    let lo := fF32.roundMag (m * b.1) true (e - p)
    let hi := fF32.roundMag (m * b.2) true (e - p)
    if lo = hi ∨ rest = [] then lo else roundBounds f m e rest

/-- `m · 2^e` limited to 128, beyond which the functions below no longer change after rounding. -/
def capArg (m : Nat) (e : Int) : Nat × Int :=
  if m ≠ 0 ∧ 7 ≤ (Nat.log2 m : Int) + e then (1, 7) else (m, e)

def fnExp (v : Nat) : Nat :=
  match f32 v with
  | .nan _ => f32NaN
  | .inf n => if n then 0 else f32Inf false
  | .fin n m e =>
    if m = 0 then f32One
    else
      let a := capArg m e
      let f := fun p => if n then expNegBounds p a.1 a.2 else expBounds p a.1 a.2
      fF32.encodeMag false (roundBounds f 1 0 [256, 512])

def fnRecip (v : Nat) : Nat :=
  match f32 v with
  | .nan _ => f32NaN
  | .inf n => fF32.pack n 0
  | .fin n m _ => if m = 0 then f32Inf n else f32Div f32One v

def fnRsqrt (v : Nat) : Nat :=
  match f32 v with
  | .nan _ => f32NaN
  | .inf n => if n then f32NaN else 0
  | .fin n m e =>
    if m = 0 then f32Inf n
    else if n then f32NaN
    else
      -- 1/√(m·2^e): an even exponent is split off, then an integer square root with a sticky bit.
      let odd := e % 2
      let m' := if odd = 0 then m else 2 * m
      let e' := if odd = 0 then e else e - 1
      let y := 2 ^ 160 / m'
      let q := Nat.sqrt y
      fF32.encodeMag false (fF32.roundMag q (decide (q * q * m' ≠ 2 ^ 160)) (-80 - e' / 2))

/-- Bounds of sigmoid(±y) · 2^p. -/
def sigmoidBounds (n : Bool) (m : Nat) (e : Int) (p : Nat) : Nat × Nat :=
  let b := expNegBounds p m e
  if n then (b.1 * 2 ^ p / (2 ^ p + b.1), b.2 * 2 ^ p / (2 ^ p + b.2) + 1)
  else (2 ^ (2 * p) / (2 ^ p + b.2), 2 ^ (2 * p) / (2 ^ p + b.1) + 1)

def fnSigmoid (v : Nat) : Nat :=
  match f32 v with
  | .nan _ => f32NaN
  | .inf n => if n then 0 else f32One
  | .fin n m e =>
    if m = 0 then 0x3F000000
    else
      let a := capArg m e
      fF32.encodeMag false (roundBounds (sigmoidBounds n a.1 a.2) 1 0 [256, 512])

def fnTanh (v : Nat) : Nat :=
  match f32 v with
  | .nan _ => f32NaN
  | .inf n => fF32.pack n f32One
  | .fin n m e =>
    -- Below 2^-13 the cubic term is less than half of the last place, so the argument itself is the result.
    if m = 0 ∨ (Nat.log2 m : Int) + e < -13 then v
    else
      let a := capArg m (e + 1)
      let f := fun p =>
        let b := expNegBounds p a.1 a.2
        ((2 ^ p - b.2) * 2 ^ p / (2 ^ p + b.2), (2 ^ p - b.1) * 2 ^ p / (2 ^ p + b.1) + 1)
      fF32.encodeMag n (roundBounds f 1 0 [256, 512])

def fnSilu (v : Nat) : Nat :=
  match f32 v with
  | .nan _ => f32NaN
  | .inf n => if n then fF32.pack true 0 else f32Inf false
  | .fin n m e =>
    -- Below -128 the product is less than half of the least subnormal.
    if m = 0 then v
    else if n ∧ 7 ≤ (Nat.log2 m : Int) + e then fF32.pack true 0
    else
      let a := capArg m e
      fF32.encodeMag n (roundBounds (sigmoidBounds n a.1 a.2) m e [256, 512])

/-- arctan(1/k) · 2^p to within the number of its terms. -/
def atanInv (p k : Nat) : Int :=
  (List.range p).foldl (fun (acc : Int) i =>
    let t : Int := ((2 ^ p / k ^ (2 * i + 1) / (2 * i + 1) : Nat) : Int)
    if i % 2 = 0 then acc + t else acc - t) 0

/-- Bounds of √(2π) · 2^p by Machin's formula. -/
def sqrt2PiBounds (p : Nat) : Nat × Nat :=
  let pi := (16 * atanInv p 5 - 4 * atanInv p 239).toNat
  let slack := 20 * (p + 2)
  (Nat.sqrt (2 * (pi - slack) * 2 ^ p), Nat.sqrt (2 * (pi + slack) * 2 ^ p) + 1)

/-- Bounds of Φ(±x) · 2^p for `x = m · 2^e` up to 16: ½ ± φ(x) Σ x^(2n+1)/(2n+1)!!. -/
def phiBounds (neg : Bool) (m : Nat) (e : Int) (p : Nat) : Nat × Nat :=
  let one := 2 ^ p
  let s : Int := e + p
  let xlo := if 0 ≤ s then m * 2 ^ s.toNat else m / 2 ^ (-s).toNat
  let xhi := if 0 ≤ s then xlo else xlo + 1
  let step := fun (acc : (Nat × Nat) × (Nat × Nat)) (n : Nat) =>
    let tl := acc.1.1 * xlo / one * xlo / one / (2 * n + 3)
    let th := (acc.2.1 * xhi / one + 1) * xhi / one / (2 * n + 3) + 2
    ((tl, acc.1.2 + tl), (th, acc.2.2 + th))
  let r := (List.range (2 * p)).foldl step ((xlo, xlo), (xhi, xhi))
  let ex := expNegBounds p (m * m) (2 * e - 1)
  let c := sqrt2PiBounds p
  let lo := r.1.2 * ex.1 / c.2
  let hi := (r.2.2 + 2 * r.2.1 + 4) * ex.2 / c.1 + 1
  if neg then (one / 2 - hi, one / 2 - lo) else (one / 2 + lo, one / 2 + hi)

def fnGelu (v : Nat) : Nat :=
  match f32 v with
  | .nan _ => f32NaN
  | .inf n => if n then fF32.pack true 0 else f32Inf false
  | .fin n m e =>
    if m = 0 then v
    else if 4 ≤ (Nat.log2 m : Int) + e then (if n then fF32.pack true 0 else v)
    else fF32.encodeMag n (roundBounds (phiBounds n m e) m e [512, 1024])

end Sys2Proof.Machine
end

