-- ==== Sys2Proof/Machine/Ops.lean ====
section
/-! DEFINITION. The named operations over the module's parts: lookups, memory and its line marks (R39, R270, R271),
provisional writes (R208), address translation (R255–R260), the world table (WAT) (R424, R425), MSI-X, queues and
events (R66–R76), and operations answered ACCEPTED (R61). -/

namespace Sys2Proof.Machine

/-! ### Lookups -/

def Hall.stall (h : Hall) (i : Nat) : Stall := Tab.get {} h.data.stalls i
def Hall.updStall (h : Hall) (i : Nat) (f : Stall → Stall) : Hall :=
  { h with data.stalls := Tab.set h.data.stalls i (f (h.stall i)) }
def Hall.ledger (h : Hall) (r : Nat) : Ledger := Tab.get {} h.data.ledgers r
def Hall.updLedger (h : Hall) (r : Nat) (f : Ledger → Ledger) : Hall :=
  { h with data.ledgers := Tab.set h.data.ledgers r (f (h.ledger r)) }
def Hall.tally (h : Hall) (r : Nat) : Tally := Tab.get {} h.data.tallies r
def Hall.updTally (h : Hall) (r : Nat) (f : Tally → Tally) : Hall :=
  { h with data.tallies := Tab.set h.data.tallies r (f (h.tally r)) }
def Hall.que (h : Hall) (q : Nat) : Que := Tab.get {} h.cmd.ques q
def Hall.updQue (h : Hall) (q : Nat) (f : Que → Que) : Hall :=
  { h with cmd.ques := Tab.set h.cmd.ques q (f (h.que q)) }
def Hall.till (h : Hall) (t : Nat) : Till := Tab.get {} h.cmd.tills t
def Hall.updTill (h : Hall) (t : Nat) (f : Till → Till) : Hall :=
  { h with cmd.tills := Tab.set h.cmd.tills t (f (h.till t)) }
def Hall.pen (h : Hall) (p : Nat) : Pen := Tab.get {} h.avail.pens p
def Hall.updPen (h : Hall) (p : Nat) (f : Pen → Pen) : Hall :=
  { h with avail.pens := Tab.set h.avail.pens p (f (h.pen p)) }
def Hall.array (h : Hall) (r : Nat) : NvArray := Tab.get {} h.weights.arrays r
def Hall.updArray (h : Hall) (r : Nat) (f : NvArray → NvArray) : Hall :=
  { h with weights.arrays := Tab.set h.weights.arrays r (f (h.array r)) }
def Hall.chan (h : Hall) (c : Nat) : ChanSt := Tab.get {} h.tiers.chans c
def Hall.updChan (h : Hall) (c : Nat) (f : ChanSt → ChanSt) : Hall :=
  { h with tiers.chans := Tab.set h.tiers.chans c (f (h.chan c)) }
def Hall.port (h : Hall) : Hub → HostPort
  | .a => h.portA
  | .b => h.portB
def Hall.updPort (h : Hall) (p : Hub) (f : HostPort → HostPort) : Hall :=
  match p with
  | .a => { h with portA := f h.portA }
  | .b => { h with portB := f h.portB }
def Hall.pool (h : Hall) : Hub → Pool
  | .a => h.tiers.poolA
  | .b => h.tiers.poolB
def Hall.updPool (h : Hall) (p : Hub) (f : Pool → Pool) : Hall :=
  match p with
  | .a => { h with tiers.poolA := f h.tiers.poolA }
  | .b => { h with tiers.poolB := f h.tiers.poolB }
def Hall.image (h : Hall) (i : Nat) : Option Image := Tab.find h.data.images i
def Hall.updImage (h : Hall) (i : Nat) (f : Image → Image) : Hall :=
  match h.image i with
  | some im => { h with data.images := Tab.set h.data.images i (f im) }
  | none => h
def Hall.req (h : Hall) (t : Nat) : Option Req := Tab.find h.data.requests t
def Hall.updReq (h : Hall) (t : Nat) (f : Req → Req) : Hall :=
  match h.req t with
  | some r => { h with data.requests := Tab.set h.data.requests t (f r) }
  | none => h
def Hall.lot (h : Hall) (i : Nat) : Option Lot := Tab.find h.weights.lots i
def Hall.updLot (h : Hall) (i : Nat) (f : Lot → Lot) : Hall :=
  match h.lot i with
  | some l => { h with weights.lots := Tab.set h.weights.lots i (f l) }
  | none => h
def Hall.launchEntry (h : Hall) (k : Nat) : Option LaunchEntry := Tab.find h.data.launch k
def Hall.updLaunch (h : Hall) (k : Nat) (f : LaunchEntry → LaunchEntry) : Hall :=
  match h.launchEntry k with
  | some e => { h with data.launch := Tab.set h.data.launch k (f e) }
  | none => h
def Hall.hubLost (h : Hall) (hub : Hub) : Bool := h.avail.lostHubs.contains hub
/-- Pen that owns a stall (TALLY_STALL_s.PEN), 255 for none. -/
def Hall.stallPen (h : Hall) (i : Nat) : Nat := h.getF .tallyStallPen i
/-- Stalls of a pen, in ascending (row, stall) order. -/
def Hall.stallsOf (h : Hall) (p : Nat) : List Nat := (List.range 128).filter fun i => h.stallPen i = p
/-- Stalls in check state RETIRED (Table 9.6). -/
def Hall.stallRetired (h : Hall) (i : Nat) : Bool := h.getF .tallyStallState i = 2
/-- The standby of a warm pair (R449). -/
def Hall.isStandby (h : Hall) (p : Nat) : Bool := (h.pen p).partner.isSome && decide ((h.pen p).mode = 2) && !(h.pen p).primary
/-- A pen that exists. -/
def Hall.penExists (h : Hall) (p : Nat) : Bool := (h.pen p).state ≠ .absent

/-- Status codes (Table 0.8, R65, R252, R318, R468 and the chapters that add them). -/
def stOK : Nat := 0x0000
def stAccepted : Nat := 0x0001
def stBadOpcode : Nat := 0x0101
def stBadArg : Nat := 0x0102
def stNotPermitted : Nat := 0x0103
def stBusy : Nat := 0x0104
def stNoResource : Nat := 0x0105
def stBadSequence : Nat := 0x0106
def stVerifyFailed : Nat := 0x0201
def stCheckMismatch : Nat := 0x0202
def stPackStale : Nat := 0x0203
def stNoPack : Nat := 0x0204
def stPoisoned : Nat := 0x0301
def stAborted : Nat := 0x0302
def stDeadline : Nat := 0x0303
def stNotErased : Nat := 0x0401
def stProtected : Nat := 0x0402
def stEraseSuspended : Nat := 0x0403
def stInterrupted : Nat := 0x0404
def stBlockRetired : Nat := 0x0405
def stOpFailed : Nat := 0x0406
def stPenWedged : Nat := 0x0601
def stShed : Nat := 0x0602
def stHandoverFailed : Nat := 0x0603
def stGooseMode : Nat := 0x0604

/-! ### Physical map and memory -/

/-- Base of the T0 window of row r (Table 1.11). -/
def t0Base (r : Nat) : Nat := 0x00F000000000 + r * 0x000100000000
/-- Base of the stall store of stall 16r + s. -/
def storeBase (i : Nat) : Nat := t0Base (i / 16) + (i % 16) * 0x400000
/-- Base of the row buffer. -/
def rowBufBase (r : Nat) : Nat := t0Base r + 0x04000000
/-- Base of a hub's registers. -/
def hubRegBase (hub : Hub) : Nat := 0x00FF00000000 + hubNum hub * 0x01000000
/-- Base of a till (R55, R56). -/
def tillBase (t : Nat) : Nat := hubRegBase (hubOf t) + 0x040000 + t / 2 * 0x1000

/-- Regions of the physical map (R39, Table 1.11). -/
inductive Region where
  | t1 (hub : Hub)
  | t0 (row off : Nat)
  | hubRegs (hub : Hub) (off : Nat)
  | rowRegs (row off : Nat)
  | t2 (row off : Nat)
  | t3 (port off : Nat)
  | outside
deriving DecidableEq, Repr

/-- Populated bytes of a T2 window (R41). -/
def Hall.t2Bytes (h : Hall) : Nat := if h.flag .hubIdentVariant 0 then 0x008000000000 else 0x004000000000

/-- State of a power domain (Table 20.11): 0 OFF, 1 RET, 2 ON, 3 WAKING. -/
def Hall.domState (h : Hall) (d : Nat) : Nat := h.getF .pwrDomState d

/-- A row whose array nothing can read: lost, or its memory domain OFF (R452, R476). -/
def Hall.rowGone (h : Hall) (r : Nat) : Bool := h.avail.lostRows.contains r || decide (h.domState (128 + r) = 0)

/-- Offset of a T0 window in a domain that is OFF: a stall's store, or the row buffer (R476). -/
def Hall.t0Off (h : Hall) (r o : Nat) : Bool :=
  decide (h.domState (if o < 0x04000000 then 16 * r + o / 0x400000 else 128 + r) = 0)

/-- The region of an address; `outside` for what no region covers, is not accessible (R39, R40), or lies in a domain that is
OFF (R476) or on a hub that is lost (R452). -/
def Hall.region (h : Hall) (a : Nat) : Region :=
  if a < 0x001E00000000 then if h.hubLost .a then .outside else .t1 .a
  else if a < 0x002000000000 then .outside
  else if a < 0x003E00000000 then if h.hubLost .b then .outside else .t1 .b
  else if a < 0x00F000000000 then .outside
  else if a < 0x00F800000000 then
    let o := a - 0x00F000000000
    if o % 0x000100000000 < 0x06000000 && !h.t0Off (o / 0x000100000000) (o % 0x000100000000) then .t0 (o / 0x000100000000) (o % 0x000100000000) else .outside
  else if a < 0x00FF00000000 then .outside
  else if a < 0x00FF01000000 then if h.hubLost .a then .outside else .hubRegs .a (a - 0x00FF00000000)
  else if a < 0x00FF02000000 then if h.hubLost .b then .outside else .hubRegs .b (a - 0x00FF01000000)
  else if a < 0x00FF10000000 then .outside
  else if a < 0x00FF12000000 then .rowRegs ((a - 0x00FF10000000) / 0x400000) ((a - 0x00FF10000000) % 0x400000)
  else if a < 0x040000000000 then .outside
  else if a < 0x080000000000 then
    let o := a - 0x040000000000
    if o % 0x008000000000 < h.t2Bytes && decide (h.domState (128 + o / 0x008000000000) ≠ 0) then .t2 (o / 0x008000000000) (o % 0x008000000000) else .outside
  else if a < 0x180000000000 then .t3 ((a - 0x080000000000) / 0x040000000000) ((a - 0x080000000000) % 0x040000000000)
  else .outside

/-- Marks of a line. -/
def Hall.mark (h : Hall) (line : Nat) : LineMark := Tab.get {} h.mem.marks line

/-- Sets a line's marks, listing only marked lines. -/
def Hall.setMark (h : Hall) (line : Nat) (m : LineMark) : Hall :=
  { h with mem.marks := if m = {} then Tab.erase h.mem.marks line else Tab.set h.mem.marks line m }

/-- `n` bytes of T0, T1 or a till from a physical address, with the poison of their lines. -/
def Hall.readRam (h : Hall) (a n : Nat) : Payload :=
  (List.range n).map fun i => { b := Mem.read 0 h.mem.ram (a + i), poison := (h.mark ((a + i) / 64)).poison }

/-- `n` plain bytes. -/
def Hall.readBytes (h : Hall) (a n : Nat) : Bytes := Mem.readN 0 h.mem.ram a n

/-- Bytes without marks. -/
def cleanBytes (bs : Bytes) : Payload := bs.map fun b => { b := b }

/-- True when a line of the range carries poison. -/
def Hall.rangePoison (h : Hall) (a n : Nat) : Bool :=
  (List.range (n / 64 + 2)).any fun i => decide ((a / 64 + i) * 64 < a + n) && (h.mark (a / 64 + i)).poison

/-- True when a line of the range carries the late mark (R269). -/
def Hall.rangeLate (h : Hall) (a n : Nat) : Bool :=
  (List.range (n / 64 + 2)).any fun i => decide ((a / 64 + i) * 64 < a + n) && (h.mark (a / 64 + i)).late

/-- Writes bytes into one line from byte `o` of it, by Table 10.6 (R271). -/
def Hall.writeLine (h : Hall) (line o : Nat) (p : Payload) : Hall :=
  if p = [] then h
  else
    let bad := p.any fun (x : PByte) => x.poison
    let late := p.any fun (x : PByte) => x.late
    let old := h.mark line
    let m : LineMark :=
      if late then { poison := true, late := true }
      else if p.length = 64 then { poison := bad, late := false }
      else { poison := old.poison || bad, late := old.late }
    ({ h with mem.ram := Mem.writeN 0 h.mem.ram (line * 64 + o) (p.map fun (x : PByte) => x.b) }).setMark line m

/-- Writes a payload line by line. -/
def Hall.writeRam (h : Hall) (a : Nat) (p : Payload) : Hall :=
  (List.range ((a % 64 + p.length + 63) / 64)).foldl (fun h i =>
    let line := a / 64 + i
    let start := max a (line * 64)
    let stop := min (a + p.length) (line * 64 + 64)
    h.writeLine line (start - line * 64) ((p.drop (start - a)).take (stop - start))) h

/-- Writes plain bytes. -/
def Hall.writeBytes (h : Hall) (a : Nat) (bs : Bytes) : Hall := h.writeRam a (cleanBytes bs)

/-- Writes zeros over a line-aligned range and clears its marks (R263, R426). -/
def Hall.zero (h : Hall) (a n : Nat) : Hall :=
  { h with mem.ram := Mem.clear h.mem.ram a n
           mem.marks := Tab.keep (fun l _ => decide (l * 64 < a) || decide (a + n ≤ l * 64)) h.mem.marks }

/-- Marks every line of a range poisoned. -/
def Hall.poisonRange (h : Hall) (a n : Nat) (late : Bool) : Hall :=
  (List.range ((a % 64 + n + 63) / 64)).foldl (fun h i => h.setMark (a / 64 + i) { poison := true, late := late }) h

/-- Host memory as the ports see it (R48). -/
def Hall.hostRead (h : Hall) (a n : Nat) : Bytes := Mem.readN 0 h.mem.host a n
def Hall.hostWrite (h : Hall) (a : Nat) (bs : Bytes) : Hall := { h with mem.host := Mem.writeN 0 h.mem.host a bs }

/-- The host's own stores (log entry 8). -/
def Hall.hostStores (h : Hall) (l : List HostStore) : Hall := l.foldl (fun h s => h.hostWrite s.addr s.data) h

/-! ### Ledger runs and provisional writes -/

def Hall.findRun (h : Hall) (k : RunKey) : Option GroupRun := (h.ledger k.row).runs.find? fun r => r.key = k

/-- Changes one open run. -/
def Hall.updRun (h : Hall) (k : RunKey) (f : GroupRun → GroupRun) : Hall :=
  h.updLedger k.row fun l => { l with runs := l.runs.map fun r => if r.key = k then f r else r }

/-- Every open run of the module. -/
def Hall.openRuns (h : Hall) : List GroupRun := (List.range 8).flatMap fun r => (h.ledger r).runs

/-- A provisional write to a stall-store or row-buffer line that is no slot (R208): the line's former content is saved
on the run's first write of it, and the line takes the tag. -/
def Hall.provWrite (h : Hall) (k : RunKey) (a : Nat) (p : Payload) : Hall :=
  let lines := (List.range ((a % 64 + p.length + 63) / 64)).map fun i => a / 64 + i
  let save := fun (h : Hall) (line : Nat) =>
    let h := match h.findRun k with
      | some r =>
        if r.undo.any fun u => u.line = line then h
        else
          let u : UndoLine := ⟨line, h.readBytes (line * 64) 64, h.mark line, Tab.find h.data.lineTags line⟩
          h.updRun k fun (r : GroupRun) => { r with undo := r.undo ++ [u] }
      | none => h
    { h with data.lineTags := Tab.set h.data.lineTags line k }
  (lines.foldl save h).writeRam a p

/-! ### World table, WAT (R424, R425) -/

def watKey (kind idx : Nat) : Nat := kind * 2 ^ 23 + idx

/-- An entry reads secure. -/
def Hall.secureEntry (h : Hall) (kind idx : Nat) : Bool := !(h.watPlain.contains (watKey kind idx))

/-- Writes an entry. -/
def Hall.setWorld (h : Hall) (kind idx : Nat) (secure : Bool) : Hall :=
  let k := watKey kind idx
  { h with watPlain := if secure then h.watPlain.filter (· ≠ k)
                       else if h.watPlain.contains k then h.watPlain else k :: h.watPlain }

/-- The table entry of a physical address, if its region has entries (Table 18.2). -/
def Hall.physEntry (h : Hall) (a : Nat) : Option (Nat × Nat) :=
  match h.region a with
  | .t0 r o => some (8, 1536 * r + o / 65536)
  | .t1 _ => some (9, a / 65536)
  | .t2 r o => some (10, 512 * r + o / 2 ^ 30)
  | _ => none

/-- A refused access (R425): count, latch, record, in both hubs' tables. -/
def Hall.watDeny (h : Hall) (kind idx source sourceId : Nat) (write : Bool) : Hall :=
  let one := fun (h : Hall) (u : Nat) => (h.bump .watDenials u).setFs u
    [(.watDenyLastValid, 1), (.watDenyLastKind, kind), (.watDenyLastSource, source), (.watDenyLastDir, b2n write),
     (.watDenyLastSourceId, sourceId), (.watDenyLastIndex, idx)]
  (one (one h 0) 1).ordinary .worldDenied kind idx

/-! ### Translation (R254–R260) -/

def pageKey (pen mva : Nat) : Nat := pen * 2 ^ 32 + mva / 65536 % 2 ^ 32
def pteType (e : Nat) : Nat := bits e 62 61
def pteW (e : Nat) : Bool := bit e 60
def ptePromote (e : Nat) : Bool := bit e 59
def pteTile (e : Nat) : Bool := bit e 58
def ptePhys (e : Nat) : Nat := bits e 47 16 * 65536
def pteHost (e : Nat) : Nat := bits e 57 16 * 65536
def pteLate (e : Nat) : Nat := bits e 15 0

/-- The L3 entry of an MVA, if valid. -/
def Hall.pte (h : Hall) (pen mva : Nat) : Option Nat := Tab.find h.tiers.pages (pageKey pen mva)

/-- What an access reaches. -/
inductive Target where
  | ram (addr : Nat)
  | lot (addr entry : Nat)
  | host (addr : Nat)
deriving DecidableEq, Repr

/-- Latches MMU_FAULT_LAST unless a fault is latched already (R257). -/
def Hall.latchMmu (h : Hall) (u cause pen page : Nat) : Hall :=
  if h.flag .mmuFaultLastValid u then h
  else h.setFs u [(.mmuFaultLastValid, 1), (.mmuFaultLastCause, cause), (.mmuFaultLastPen, pen), (.mmuFaultLastPage, page)]

/-- The entry's target and whether Table 10.3 allows the access; `hubChain` for writes to host pages (R259). -/
def resolvePte (e mva : Nat) (write hubChain : Bool) : Option Target :=
  let off := mva % 65536
  match pteType e with
  | 1 => if write && !pteW e then none else some (.ram (ptePhys e + off))
  | 2 => if write then none else some (.lot (ptePhys e + off) e)
  | 3 => if write && !(pteW e && hubChain) then none else some (.host (pteHost e + off))
  | _ => none

/-- The statistics counters of MMU_ (Table 10.12). -/
def mmuCounters : List Ctr :=
  [.mmuTranslations, .mmuWalks, .mmuWalkFaults, .mmuPoolHits, .mmuPromotions, .mmuRenewals, .mmuEvictions, .mmuEvictYields,
   .mmuPoolSkip, .mmuLateReads, .mmuFailedReads, .mmuT1Uncorrected, .mmuScrubPasses]

/-- Fields of MMU_FAULT_LAST. -/
def mmuFaultFields : List Fld := [.mmuFaultLastValid, .mmuFaultLastCause, .mmuFaultLastPen, .mmuFaultLastPage]

/-- Writes of MMU_CLEAR and MMU_CFG take effect at the hub's next translation (R275). -/
def Hall.mmuApply (h : Hall) (u : Nat) : Hall :=
  match Tab.find h.tiers.mmuDue u with
  | none => h
  | some d =>
    let h := { h with tiers.mmuDue := Tab.erase h.tiers.mmuDue u }
    let h := if d.ce then h.clearFs u [.mmuT1CeHit, .mmuT1CeCount] else h
    let h := if d.last then h.clearFs u mmuFaultFields else h
    let h := if d.stats then h.clearCtrs u mmuCounters else h
    match d.cfg with
    | some v => h.setFs u [(.mmuCfgCeThresh, bits v 31 16), (.mmuCfgLateDefault, bits v 15 0)]
    | none => h

def Hall.mmuDue (h : Hall) (u : Nat) (f : MmuDue → MmuDue) : Hall :=
  { h with tiers.mmuDue := Tab.set h.tiers.mmuDue u (f (Tab.get {} h.tiers.mmuDue u)) }

/-- Translates one access through the unit of a hub (R255, R257, R259): the target, or the CAUSE of Table 11.9
(2 walk fault, 3 refused), with what is counted and latched. -/
def Hall.translate (h : Hall) (hub : Hub) (pen mva : Nat) (write hubChain : Bool) : Sum Nat Target × Hall :=
  let u := hubNum hub
  let k := pageKey pen mva
  let cached := match hub with
    | .a => h.tiers.cacheA.contains k
    | .b => h.tiers.cacheB.contains k
  let h := (h.mmuApply u).bump .mmuTranslations u
  let h := if cached then h else h.bump .mmuWalks u
  match h.pte pen mva with
  | none =>
    (.inl 2, ((h.bump .mmuWalkFaults u).latchMmu u 1 pen (mva / 65536)).ordinary .walkFault pen (mva / 65536))
  | some e =>
    let h := if cached then h else
      match hub with
      | .a => { h with tiers.cacheA := k :: h.tiers.cacheA }
      | .b => { h with tiers.cacheB := k :: h.tiers.cacheB }
    match resolvePte e mva write hubChain with
    | none => (.inl 3, (h.latchMmu u 2 pen (mva / 65536)).ordinary .walkFault pen (mva / 65536))
    | some t => (.inr t, h)

/-- Writes an L3 entry (or removes it) and drops its cached translations (R257). -/
def Hall.setPte (h : Hall) (pen mva : Nat) (e : Option Nat) : Hall :=
  let k := pageKey pen mva
  { h with tiers.pages := match e with
             | some v => Tab.set h.tiers.pages k v
             | none => Tab.erase h.tiers.pages k
           tiers.cacheA := h.tiers.cacheA.filter (· ≠ k)
           tiers.cacheB := h.tiers.cacheB.filter (· ≠ k) }

/-- The world of a pen (R422): P0 and pens created secure. -/
def Hall.penSecure (h : Hall) (p : Nat) : Bool := p = 0 || (h.pen p).secure

/-! ### MSI-X -/

/-- The port a write to the host leaves by (R77): the home hub's when its link is up, otherwise the other. -/
def Hall.outPort (h : Hall) (home : Hub) : Hub :=
  if h.flag .pciLinkStatusUp (hubNum home) && !(h.hubLost home) then home else otherHub home

/-- The function that serves a pen: PF0 for a secure pen, its virtual function where enabled, otherwise PF1. -/
def Hall.penFn (h : Hall) (port : Hub) (p : Nat) : Fn :=
  if p = 255 then .pf1
  else if h.penSecure p then .pf0
  else if (h.port port).vfs.contains p then .vf p else .pf1

/-- The function a till belongs to (R63). -/
def Hall.tillFn (h : Hall) (t : Nat) : Fn :=
  if t < 32 then .pf0 else match (h.till t).vf with
    | some k => .vf k
    | none => .pf1

/-! ### Queues and events (R66–R76) -/

def queSize (r : QueRec) : Nat := 2 ^ r.log2

/-- Entries in a queue. -/
def Hall.queCount (h : Hall) (q : Nat) : Nat :=
  match (h.que q).qrec with
  | some r => (h.getF .queProd q + queSize r - h.getF .queCons q) % queSize r
  | none => 0

/-- Publishes FULL and EMPTY from the indices (Table 2.22). -/
def Hall.queFlags (h : Hall) (q : Nat) : Hall :=
  match (h.que q).qrec with
  | some r => (h.setB .queStatusEmpty q (decide (h.queCount q = 0))).setB .queStatusFull q (decide (h.queCount q = queSize r - 1))
  | none => h

/-- Free result credit of a RES queue (R75). -/
def Hall.resCredit (h : Hall) (q : Nat) : Nat :=
  match (h.que q).qrec with
  | some r => queSize r - 1 - h.queCount q - (h.que q).inFlight
  | none => 0

/-- Raises a queue's vector where due (R76): COALESCE entries since the last raise, or nothing further held. -/
def Hall.queRaise (h : Hall) (q : Nat) (r : QueRec) : Hall :=
  let n := (h.que q).sinceRaise + 1
  let due := (if r.coalesce = 0 then 1 else r.coalesce) ≤ n ∨ ((h.que q).held = [] ∧ (h.que q).lost = 0)
  let port := h.outPort (hubOf q)
  let fn := if r.pen = 255 then (if r.secure then .pf0 else .pf1) else h.penFn port r.pen
  let h := h.updQue q fun x => { x with sinceRaise := if due then 0 else n }
  if due then h.emit (.msix port fn r.vector) else h

/-- Writes a 64-byte entry at the producer index, with PHASE and SEQ, and advances QUE_PROD (R69, R70, R73). `mk` builds
the entry from the PHASE bit and the SEQ. A queue that a hub's loss has stopped takes nothing (R74, R79). -/
def Hall.quePut (h : Hall) (q : Nat) (mk : Nat → Nat → Bytes) : Hall :=
  if !h.flag .queStatusEnabled q then h
  else match (h.que q).qrec with
  | none => h
  | some r =>
    let x := h.que q
    let p := h.getF .queProd q
    let entry := slice (mk (b2n x.phase) x.seq) 0 64
    let p' := (p + 1) % queSize r
    let h := h.hostWrite (r.base + 64 * p) entry
    let h := h.updQue q fun x => { x with seq := (x.seq + 1) % 2 ^ 32, phase := if p' = 0 then !x.phase else x.phase }
    let h := ((h.setF .queProd q p').queFlags q).queRaise q r
    if r.typ = 2 ∧ r.pen = 255 ∧ r.secure = true then h.mgmtEvent entry else h

/-- Bytes of an event entry (Table 2.20). -/
def Event.bytes (e : Event) (phase seq : Nat) : Bytes :=
  leBytes 2 e.typ ++ leBytes 2 phase ++ leBytes 4 seq ++ leBytes 4 e.handle ++ leBytes 2 e.status ++ leBytes 2 e.till ++
  leBytes 1 e.pen ++ slice e.detail 0 47

/-- An EVENTS_LOST entry (R70, R71). -/
def eventsLost (n pen : Nat) : Event := { typ := 2, pen := pen, detail := leBytes 4 n }

/-- The queue is full. -/
def Hall.queIsFull (h : Hall) (q : Nat) : Bool :=
  match (h.que q).qrec with
  | some r => h.queCount q = queSize r - 1
  | none => true

/-- An event reaches its EVT queue: written when a slot is free and none waits, else held up to 256, else counted in
QUE_DROP (R75). -/
def Hall.evtPut (h : Hall) (q : Nat) (e : Event) : Hall :=
  if h.queIsFull q || decide ((h.que q).held ≠ []) then
    if (h.que q).held.length < 256 then h.updQue q fun x => { x with held := x.held ++ [e] }
    else (h.updQue q fun x => { x with lost := x.lost + 1 }).bump .queDrop q
  else h.quePut q e.bytes

/-- Writes held events, then one EVENTS_LOST entry, while slots are free (R75). -/
def Hall.evtDrain (h : Hall) (q : Nat) : Nat → Hall
  | 0 => h
  | n + 1 =>
    if h.queIsFull q then h
    else match (h.que q).held with
      | e :: rest => ((h.updQue q fun x => { x with held := rest }).quePut q e.bytes).evtDrain q n
      | [] =>
        if (h.que q).lost = 0 then h
        else
          let e := eventsLost (h.que q).lost (((h.que q).qrec.map fun r => r.pen).getD 255)
          (h.updQue q fun x => { x with lost := 0 }).quePut q e.bytes

/-- The enabled EVT queue of a pen, or the module event queue (pen 255) of a world (R67, R71). -/
def Hall.evtQueue (h : Hall) (pen : Nat) (secure : Bool) : Option Nat :=
  (h.cmd.ques.find? fun e => match e.2.qrec with
    | some r => r.typ = 2 && r.pen = pen && (pen ≠ 255 || r.secure = secure) && h.flag .queStatusEnabled e.1
    | none => false).map (·.1)

def Hall.worldEvents (h : Hall) (secure : Bool) : WorldEvents :=
  if secure then h.cmd.secureEvents else h.cmd.plainEvents
def Hall.setWorldEvents (h : Hall) (secure : Bool) (w : WorldEvents) : Hall :=
  if secure then { h with cmd.secureEvents := w } else { h with cmd.plainEvents := w }

/-- Posts an event of a pen or of the module (R71). -/
def Hall.post (h : Hall) (pen : Nat) (secure : Bool) (e : Event) : Hall :=
  match h.evtQueue pen secure with
  | some q => h.evtPut q e
  | none => match h.evtQueue 255 secure with
    | some q => h.evtPut q e
    | none =>
      let w := h.worldEvents secure
      h.setWorldEvents secure (if w.held.length < 256 then { w with held := w.held ++ [e] } else { w with lost := w.lost + 1 })

/-- Posts an event of a pen with its own world. -/
def Hall.postPen (h : Hall) (pen : Nat) (typ : Nat) (detail : Bytes) : Hall :=
  h.post pen (h.penSecure pen) { typ := typ, pen := pen, detail := detail }

/-- Events of a pen that has no EVT queue of its own go where those of the secure module event queue go. -/
def Hall.inModuleEvents (h : Hall) (pen : Nat) : Bool :=
  h.penSecure pen && match h.evtQueue pen true with
    | some q => ((h.que q).qrec.map fun r => r.pen) = some 255
    | none => true

/-- Posts an event to the queues of some pens and to the secure module event queue, once where they are the same (R343,
R408, R469). -/
def Hall.postMany (h : Hall) (pens : List Nat) (typ : Nat) (detail : Bytes) : Hall :=
  let h' := pens.foldl (fun h p => h.postPen p typ detail) h
  if pens.any h.inModuleEvents then h' else h'.post 255 true { typ := typ, pen := (match pens with | [p] => p | _ => 255), detail := detail }

/-- The same for one pen. -/
def Hall.postBoth (h : Hall) (pen : Nat) (typ : Nat) (detail : Bytes) : Hall := h.postMany [pen] typ detail

/-- Events a world holds go to a queue that has come to be enabled: those of its pen, or of every pen for a module
event queue (R71). EVENTS_LOST follows the last of them (log entry 20). -/
def Hall.drainWorld (h : Hall) (q : Nat) (pen : Nat) (secure : Bool) : Hall :=
  let w := h.worldEvents secure
  let mine := w.held.filter fun e => pen = 255 || e.pen = pen
  let rest := w.held.filter fun e => !(pen = 255 || e.pen = pen)
  let last := rest.isEmpty && decide (w.lost ≠ 0)
  let mine := if last then mine ++ [eventsLost w.lost 255] else mine
  let h := h.setWorldEvents secure { held := rest, lost := if last then 0 else w.lost }
  let h := (h.updQue q fun x => { x with held := x.held ++ mine }).evtDrain q ((h.que q).held.length + mine.length + 1)
  let excess := (h.que q).held.length - 256
  (h.updQue q fun x => { x with held := x.held.take 256, lost := x.lost + excess }).bump .queDrop q excess

/-! ### Operations answered ACCEPTED (R61) -/

/-- Opens an operation and answers its handle. -/
def Hall.openOp (h : Hall) (till pen : Nat) (secure : Bool) : Nat × Hall :=
  let k := h.cmd.nextHandle
  (k, { h with cmd.ops := Tab.set h.cmd.ops k { till := till, pen := pen, secure := secure }, cmd.nextHandle := (k + 1) % 2 ^ 32 })

/-- Ends an operation: TILL_DONE with its final status (R61, R70). -/
def Hall.closeOp (h : Hall) (k status : Nat) (detail : Bytes := []) : Hall :=
  match Tab.find h.cmd.ops k with
  | none => h
  | some o =>
    ({ h with cmd.ops := Tab.erase h.cmd.ops k }).post o.pen
      (if o.pen = 255 then o.secure else h.penSecure o.pen)
      { typ := 1, handle := k, status := status, till := o.till, pen := o.pen, detail := detail }

/-! ### Small helpers over lists -/

/-- Folds over numbers 0 to n − 1. -/
def upTo (n : Nat) (h : Hall) (f : Hall → Nat → Hall) : Hall := (List.range n).foldl f h

/-- The first element that satisfies a condition, with its index. -/
def firstIdx {α : Type} (p : α → Bool) : List α → Nat → Option (Nat × α)
  | [], _ => none
  | a :: rest, i => if p a then some (i, a) else firstIdx p rest (i + 1)

/-- The check value of R164: CRC-16, polynomial 0x1021, initial value 0xFFFF, most significant bit first. -/
def crc16 (bs : Bytes) : Nat :=
  bs.foldl (fun c b =>
    (List.range 8).foldl (fun c _ => if c.testBit 15 then (c * 2 % 65536) ^^^ 0x1021 else c * 2 % 65536) (c ^^^ (b.toNat * 256))) 0xFFFF

/-- The CRC-64 of R230: polynomial 0x42F0E1EBA9EA3693, initial value all ones, most significant bit first. -/
def crc64 (bs : Bytes) : Nat :=
  bs.foldl (fun c b =>
    (List.range 8).foldl (fun c _ => if c.testBit 63 then (c * 2 % 2 ^ 64) ^^^ 0x42F0E1EBA9EA3693 else c * 2 % 2 ^ 64)
      (c ^^^ (b.toNat * 2 ^ 56))) (2 ^ 64 - 1)

end Sys2Proof.Machine
end

