-- ==== Sys2Proof/Machine/Tills.lean ====
section
/-! DEFINITION. Tills (R56–R65): the checks of Table 2.14, the retry rule, completion, and the shared operation that
every till command of the table is a use of. -/

namespace Sys2Proof.Machine

/-- A command of a family (Table 2.15 and the family tables): opcode, secure-only always, carries PEN 0xFF. -/
structure OpRow where
  code : Nat
  secureOnly : Bool := false
  wide : Bool := false
deriving DecidableEq, Repr

def opsPen : List OpRow :=
  [⟨0x0101, true, false⟩, ⟨0x0102, true, false⟩, ⟨0x0103, true, false⟩, ⟨0x0104, true, false⟩, ⟨0x0105, false, false⟩,
   ⟨0x0106, true, false⟩, ⟨0x0107, false, false⟩, ⟨0x0108, true, false⟩, ⟨0x0109, true, false⟩, ⟨0x010A, true, true⟩,
   ⟨0x010B, true, true⟩, ⟨0x010C, false, false⟩]
def opsSched : List OpRow :=
  [⟨0x0201, false, false⟩, ⟨0x0202, false, false⟩, ⟨0x0203, false, false⟩, ⟨0x0204, false, false⟩,
   ⟨0x0205, false, false⟩, ⟨0x0206, false, false⟩]
def opsWeight : List OpRow :=
  [⟨0x0301, true, true⟩, ⟨0x0302, true, false⟩, ⟨0x0303, true, false⟩, ⟨0x0304, false, false⟩, ⟨0x0305, true, true⟩,
   ⟨0x0306, false, false⟩, ⟨0x0307, false, false⟩]
def opsMem : List OpRow :=
  [⟨0x0401, false, false⟩, ⟨0x0402, false, false⟩, ⟨0x0403, false, false⟩, ⟨0x0404, false, false⟩, ⟨0x0405, true, false⟩,
   ⟨0x0406, true, true⟩, ⟨0x0407, false, false⟩, ⟨0x0408, false, false⟩]
def opsCheck : List OpRow :=
  [⟨0x0501, false, false⟩, ⟨0x0502, false, false⟩, ⟨0x0503, false, false⟩, ⟨0x0504, true, false⟩]
def opsTree : List OpRow :=
  [⟨0x0601, true, true⟩, ⟨0x0602, true, false⟩, ⟨0x0603, false, false⟩, ⟨0x0604, false, false⟩, ⟨0x0605, false, false⟩,
   ⟨0x0606, false, false⟩, ⟨0x0607, false, false⟩]
def opsSess : List OpRow :=
  [⟨0x0701, false, false⟩, ⟨0x0702, false, false⟩, ⟨0x0703, false, false⟩, ⟨0x0704, false, false⟩, ⟨0x0705, false, false⟩,
   ⟨0x0706, false, false⟩]
def opsNbr : List OpRow :=
  [⟨0x0801, true, true⟩, ⟨0x0802, true, false⟩, ⟨0x0803, true, false⟩, ⟨0x0804, false, false⟩]
def opsVdec : List OpRow := [⟨0x0901, false, false⟩, ⟨0x0902, false, false⟩, ⟨0x0903, false, false⟩]
def opsPwr : List OpRow :=
  [⟨0x0A01, false, false⟩, ⟨0x0A02, true, true⟩, ⟨0x0A03, true, true⟩, ⟨0x0A04, true, true⟩, ⟨0x0A05, true, false⟩]
def opsTrust : List OpRow :=
  [⟨0x0B01, false, false⟩, ⟨0x0B02, false, false⟩, ⟨0x0B03, true, true⟩, ⟨0x0B04, true, true⟩, ⟨0x0B05, true, true⟩,
   ⟨0x0B06, true, true⟩, ⟨0x0B07, false, false⟩, ⟨0x0B08, true, true⟩, ⟨0x0B09, true, true⟩, ⟨0x0B0A, true, true⟩]
def opsLogFw : List OpRow :=
  [⟨0x0C01, false, false⟩, ⟨0x0C02, true, true⟩, ⟨0x0D01, true, true⟩, ⟨0x0D02, true, true⟩, ⟨0x0D03, true, true⟩]

/-- The row of an opcode, none where its family or command is not defined (check 3). -/
def opRow (code : Nat) : Option OpRow :=
  [opsPen, opsSched, opsWeight, opsMem, opsCheck, opsTree, opsSess, opsNbr, opsVdec, opsPwr, opsTrust, opsLogFw].flatten.find?
    fun r => r.code = code

/-- Commands that report and change nothing, accepted in goose mode (R457): those the tables name queries, and
CHECK_GET, TRUST_CERT_GET and TRUST_KEY_LIST (DEDUCED, log entry 20). -/
def opIsQuery (code : Nat) : Bool :=
  [0x010C, 0x0206, 0x0306, 0x0403, 0x0502, 0x0607, 0x0706, 0x0804, 0x0903, 0x0A05, 0x0B02, 0x0B07, 0x0D03].contains code

/-- Commands accepted for a WEDGED pen (R444). -/
def opInWedge (code : Nat) : Bool := [0x0107, 0x010C, 0x0108, 0x0102].contains code

/-- Commands accepted in goose mode (R457). -/
def opInGoose (code : Nat) : Bool := opIsQuery code || [0x0109, 0x010B].contains code

/-- Header of a till's command (Table 2.11), with its payload. -/
structure TillCmd where
  till : Nat
  opcode : Nat
  flags : Nat
  seq : Nat
  pen : Nat
  secure : Bool
  reserved : Bool
  length : Nat
  payload : Bytes
deriving DecidableEq, Repr

/-- The command that stands in a till. -/
def Hall.tillCmd (h : Hall) (t : Nat) : TillCmd :=
  let hd := h.readBytes (tillBase t) 64
  let len := leAt hd 10 2
  { till := t, opcode := leAt hd 0 2, flags := leAt hd 2 2, seq := leAt hd 4 4, pen := leAt hd 8 1
    secure := bit (leAt hd 9 1) 0
    reserved := decide (leAt hd 9 1 / 2 ≠ 0) || decide (4 ≤ leAt hd 2 2) || decide (leAt hd 12 52 ≠ 0)
    length := len, payload := h.readBytes (tillBase t + 0x40) (min len 3968) }

/-- What a command answers: its status, response payload, and the module after it. -/
structure Answer where
  status : Nat
  payload : Bytes := []
  hall : Hall

def refuse (h : Hall) (status : Nat) : Answer := { status := status, hall := h }
def okWith (h : Hall) (payload : Bytes := []) : Answer := { status := stOK, payload := payload, hall := h }

/-- ACCEPTED with the handle of an operation opened for the command (R61); `f` starts the operation. -/
def acceptOp (h : Hall) (c : TillCmd) (f : Nat → Hall → Hall) (more : Bytes := []) : Answer :=
  let (k, h) := h.openOp c.till c.pen c.secure
  { status := stAccepted, payload := leBytes 4 k ++ more, hall := f k h }

/-- The world of a till (R63). -/
def tillSecure (t : Nat) : Bool := decide (t < 32)

/-- The pen is owned by the till's function (check 5, log entry 14). -/
def Hall.fnOwnsPen (h : Hall) (fn : Fn) (p : Nat) : Bool :=
  match fn with
  | .pf0 => true
  | .pf1 => decide (p < 32) && !h.penSecure p && !(h.portA.vfs.contains p || h.portB.vfs.contains p)
  | .vf k => decide (p = k) && !h.penSecure p

/-- No MP governs, and the MP of till 0's or till 1's hub, in ROM recovery, serves that till (R33, R431). -/
def Hall.tillRecovery (h : Hall) (t : Nat) : Bool :=
  h.governing.isNone && decide (t < 2) && decide ((match hubOf t with
    | .a => h.avail.mpA.state
    | .b => h.avail.mpB.state) = MpState.romRecovery)

/-- Checks 2 to 5 of Table 2.14 and the refusals of R431, R444 and R457. `wideToo`: the command
is module-wide also where its table does not say that it always carries PEN 0xFF. -/
def Hall.tillChecks (h : Hall) (c : TillCmd) (secureCase wideToo : Bool) : Option Nat :=
  if c.reserved || decide (3968 < c.length) || !(decide (c.pen ≤ 31) || decide (c.pen = 255)) then some stBadArg
  else match opRow c.opcode with
  | none => some stBadOpcode
  | some row =>
    if decide (c.secure ≠ tillSecure c.till) || ((row.secureOnly || secureCase) && !tillSecure c.till) then some stNotPermitted
    else if h.tillRecovery c.till && decide (c.opcode ≠ 0x0D01) then some stNotPermitted
    else if c.pen = 255 then
      if !(row.wide || wideToo) then some stNotPermitted
      else if h.avail.gooseMode && !opInGoose c.opcode then some stGooseMode else none
    else if !h.fnOwnsPen (h.tillFn c.till) c.pen then some stNotPermitted
    else if row.wide then some stBadArg
    else if h.avail.gooseMode && !opInGoose c.opcode then some stGooseMode
    else if c.opcode = 0x0101 then none
    else if !h.penExists c.pen then some stBadArg
    else if decide ((h.pen c.pen).state = .wedged) && !opInWedge c.opcode then some stPenWedged
    else none

/-- Presents a response: payload, TILL_RESP, STATE DONE, then the vector if IRQ is set (Table 2.13). -/
def Hall.tillDone (h : Hall) (c : TillCmd) (status : Nat) (payload : Bytes) : Hall :=
  let h := h.writeBytes (tillBase c.till + 0x40) payload
  let h := h.setFs c.till [(.tillRespSeq, c.seq), (.tillRespStatus, status), (.tillRespLength, payload.length), (.tillState, 3)]
  if bit c.flags 0 then
    h.emit (.msix (h.outPort (hubOf c.till)) (h.tillFn c.till) (h.getF .tillCfgVector c.till))
  else h

/-- Completes a command that passed the sequence check: LAST_SEQ, SEQ_VALID and the stored response (R59). -/
def Hall.tillComplete (h : Hall) (c : TillCmd) (status : Nat) (payload : Bytes) : Hall :=
  let h := h.setFs c.till [(.tillLastSeq, c.seq), (.tillCfgSeqValid, 1)]
  (h.updTill c.till fun x => { x with stored := some ⟨status, payload⟩ }).tillDone c status payload

/-- The governing MP takes tills, and the hub of this one is there (R62, R79); or an MP in ROM recovery takes till 0 or 1. -/
def Hall.tillServed (h : Hall) (t : Nat) : Bool :=
  (h.governing.isSome || h.tillRecovery t) && !h.hubLost (hubOf t) && decide (h.getF .tillState t = 1)

/-- Outcome of the sequence check (R59). -/
inductive SeqCheck where
  | fresh | retry | bad
deriving DecidableEq, Repr

def Hall.seqCheck (h : Hall) (c : TillCmd) : SeqCheck :=
  if !h.flag .tillCfgSeqValid c.till then .fresh
  else if c.seq = (h.getF .tillLastSeq c.till + 1) % 2 ^ 32 then .fresh
  else if c.seq = h.getF .tillLastSeq c.till then .retry
  else .bad

/-- The governing MP takes the command posted in till `t` (R58–R61). `known` says whether this row is the one that the
opcode names; where it is not, nothing happens. With VALIDATE nothing is applied and success is OK. -/
def Hall.tillRun (h : Hall) (t : Nat) (known : Nat → Bool) (secureCase wideToo : TillCmd → Hall → Bool)
    (body : TillCmd → Hall → Answer) : Hall :=
  let c := h.tillCmd t
  if !h.tillServed t || !known c.opcode then h
  else match h.seqCheck c with
  | .bad => h.tillDone c stBadSequence []
  | .retry => match (h.till t).stored with
    | some r => h.tillDone c r.status r.payload
    | none => h.tillDone c stBadSequence []
  | .fresh => match h.tillChecks c (secureCase c h) (wideToo c h) with
    | some status => h.tillComplete c status []
    | none =>
      let a := body c h
      if bit c.flags 1 then h.tillComplete c (if a.status = stAccepted then stOK else a.status) []
      else a.hall.tillComplete c a.status a.payload

/-- A till command of one opcode: secure-only where its table says so, or in the case given. -/
def State.till (s : State) (t : Nat) (code : Nat) (secureCase : TillCmd → Hall → Bool) (body : TillCmd → Hall → Answer) :
    Host.Outcome State Fault Refusal :=
  s.run fun h => h.tillRun t (fun o => decide (o = code)) secureCase (fun _ _ => false) body

/-- The same for a command that may also be module-wide. -/
def State.tillWide (s : State) (t : Nat) (code : Nat) (secureCase wideToo : TillCmd → Hall → Bool)
    (body : TillCmd → Hall → Answer) : Host.Outcome State Fault Refusal :=
  s.run fun h => h.tillRun t (fun o => decide (o = code)) secureCase wideToo body

/-- No case beyond the table makes the command secure-only. -/
def never (_ : TillCmd) (_ : Hall) : Bool := false

/-- Secure-only for pen P0 (R64). -/
def forP0 (c : TillCmd) (_ : Hall) : Bool := decide (c.pen = 0)

/-- A till goes to IDLE: its command is discarded and SEQ_VALID cleared (Table 2.13). -/
def Hall.tillIdle (h : Hall) (t : Nat) : Hall :=
  (h.setFs t [(.tillState, 0), (.tillCfgSeqValid, 0)]).updTill t fun x => { x with stored := none }

/-- A till returns to its reset state (R51): its registers too. -/
def Hall.tillReset (h : Hall) (t : Nat) : Hall :=
  (h.tillIdle t).clearFs t [.tillStateOverrun, .tillRespSeq, .tillRespStatus, .tillRespLength, .tillLastSeq, .tillCfgVector]

/-- Bytes `o` to `o + n − 1` of a command's payload as a number. -/
def TillCmd.arg (c : TillCmd) (o n : Nat) : Nat := leAt c.payload o n

end Sys2Proof.Machine
end

