-- ==== Sys2Proof/Machine/Crypto.lean ====
section
/-! DEFINITION. Keys, chains and sealed frames over the functions of `Config` (R374, R378, R427–R434). -/

namespace Sys2Proof.Machine

/-- ASCII bytes. -/
def ascii (s : String) : Bytes := s.toList.map fun c => BitVec.ofNat 8 c.toNat

/-- Signs with the identity key: 512 bytes. -/
def Hall.sign (h : Hall) (m : Bytes) : Bytes × Hall :=
  (slice (Config.identitySign h.freeCtr m) 0 512, { h with freeCtr := h.freeCtr + 1 })

/-- Wraps a key with RSAES-OAEP: 512 bytes. -/
def Hall.wrap (h : Hall) (spki label plain : Bytes) : Bytes × Hall :=
  (slice (Config.oaepWrap spki label plain h.freeCtr) 0 512, { h with freeCtr := h.freeCtr + 1 })

/-- Sealed payload: cipher text of the payload's length and a 16-byte tag (R374). -/
def gcmSeal (key nonce aad plain : Bytes) : Bytes := slice (Config.gcmSeal key nonce aad plain) 0 (plain.length + 16)

/-- Opens a sealed payload; a plain text of the wrong length counts as a failed tag. -/
def gcmOpen (key nonce aad box : Bytes) : Option Bytes :=
  match Config.gcmOpen key nonce aad box with
  | some p => if p.length + 16 = box.length then some p else none
  | none => none

/-- Purposes of the trust store (Table 18.5). -/
def purposeImage : Nat := 1
def purposeLot : Nat := 2
def purposePack : Nat := 3
def purposeEndpoint : Nat := 4
def purposeNeighbour : Nat := 5

/-- Keys of a purpose in slot order (R429): slot and key. -/
def Hall.keysOf (h : Hall) (purpose : Nat) : List (Nat × Bytes) :=
  (List.range 16).filterMap fun i => (Tab.find h.trust.keys (16 * purpose + i)).map fun k => (i, k)

/-- A signed object verifies under any key of its purpose, tried in slot order (R429). -/
def Hall.verifies (h : Hall) (purpose : Nat) (msg sig : Bytes) : Bool :=
  (h.keysOf purpose).any fun k => Config.pssVerify k.2 msg sig

/-- Every certificate but the last is signed by the next one's key; `i` counts from the leaf, 0. CA and path length hold
for every certificate but the leaf (R378). -/
def chainLinks : List Config.Cert → Nat → Bool
  | [], _ => false
  | c :: rest, i =>
    let here := c.strong && c.pss && (decide (i = 0) || (c.ca && match c.pathLen with
      | some p => decide (i - 1 ≤ p)
      | none => true))
    match rest with
    | [] => here
    | d :: _ => here && Config.pssVerify d.spki c.tbs c.sig && chainLinks rest (i + 1)

/-- A chain by the rules of R378, but for its IDENT: the leaf's key and the slot of the anchor. -/
def Hall.chainCheck (h : Hall) (purpose : Nat) (der : Bytes) : Option (Bytes × Nat) :=
  if 12288 < der.length then none
  else match Config.x509 der with
  | none => none
  | some certs =>
    match certs.head?, certs.getLast? with
    | some leaf, some last =>
      if decide (certs.length ≤ 4) && chainLinks certs 0 then
        ((h.keysOf purpose).find? fun k => Config.pssVerify k.2 last.tbs last.sig).map fun k => (leaf.spki, k.1)
      else none
    | _, _ => none

/-- The chain presented to neighbours and by SPDM (R434). -/
def Hall.presented (h : Hall) : Bytes := h.trust.chain1.getD Config.chain0

end Sys2Proof.Machine
end

