-- ==== Sys2Proof/Machine/Mva.lean ====
section
/-! DEFINITION. Ranges of a pen's MVA: cutting at pages, stores by units that are no Barrow channel (R254–R260), and the
world check of a target (R425). -/

namespace Sys2Proof.Machine

/-- A range cut at 64 KiB pages: MVA and length of each piece. -/
def mvaPieces (mva n : Nat) : List (Nat × Nat) :=
  (List.range ((mva % 65536 + n + 65535) / 65536)).map fun i =>
    let start := max mva ((mva / 65536 + i) * 65536)
    let stop := min (mva + n) ((mva / 65536 + i + 1) * 65536)
    (start, stop - start)

/-- A unit that accesses memory, for the world check: its entry in the table, and SOURCE and SOURCE_ID of Table 18.12. -/
structure Accessor where
  secure : Bool
  source : Nat
  id : Nat
deriving DecidableEq, Repr

/-- Jenig: secure (R423). -/
def jenig : Accessor := { secure := true, source := 0, id := 0 }

/-- The world check of a physical address (R425): none where the access may go on. -/
def Hall.worldRefuses (h : Hall) (who : Accessor) (a : Nat) : Option (Nat × Nat) :=
  if who.secure then none
  else match h.physEntry a with
    | some (k, i) => if h.secureEntry k i then some (k, i) else none
    | none => none

/-- Stores a payload at an MVA through a hub's translation; none at the first page that is not writable T1 or host
memory (host pages only where `hubChain`), or that the world check refuses, with what was counted. -/
def Hall.mvaStore (h : Hall) (hub : Hub) (who : Accessor) (pen mva : Nat) (p : Payload) (hubChain : Bool := false) :
    Bool × Hall :=
  (mvaPieces mva p.length).foldl (fun acc piece =>
    if !acc.1 then acc
    else
      let h := acc.2
      let part := (p.drop (piece.1 - mva)).take piece.2
      match h.translate hub pen piece.1 true hubChain with
      | (.inr (.ram a), h) => match h.worldRefuses who a with
        | some (k, i) => (false, h.watDeny k i who.source who.id true)
        | none => (true, h.writeRam a part)
      | (.inr (.host a), h) => (true, h.hostWrite a (part.map fun (x : PByte) => x.b))
      | (_, h) => (false, h)) (true, h)

/-- Every page of a range is mapped and writable by R259 (destination checks of till commands). -/
def Hall.mvaWritable (h : Hall) (pen mva n : Nat) (hubChain : Bool) : Bool :=
  (mvaPieces mva n).all fun piece => match h.pte pen piece.1 with
    | some e => (resolvePte e piece.1 true hubChain).isSome
    | none => false

/-- Every page of a range is mapped and readable. -/
def Hall.mvaReadable (h : Hall) (pen mva n : Nat) : Bool :=
  (mvaPieces mva n).all fun piece => match h.pte pen piece.1 with
    | some e => (resolvePte e piece.1 false false).isSome
    | none => false

end Sys2Proof.Machine
end

