-- ==== Sys2Proof/Machine/Video.lean ====
section
/-! DEFINITION. Decode engines (chapter 17): input from sessions, decoding in order of the last DATA frame, exact crop
and resize, output with poison marks, DREQ entries. The decoders of H.265 and H.264 themselves are an operand. -/

namespace Sys2Proof.Machine

def Hall.engine (h : Hall) (e : Nat) : DecEngine := Tab.get {} h.ingress.engines e
def Hall.updEngine (h : Hall) (e : Nat) (f : DecEngine → DecEngine) : Hall :=
  { h with ingress.engines := Tab.set h.ingress.engines e (f (h.engine e)) }
def Hall.updStream (h : Hall) (e i : Nat) (f : VStream → VStream) : Hall :=
  h.updEngine e fun x => match Tab.find x.streams i with
    | some s => { x with streams := Tab.set x.streams i (f s) }
    | none => x
/-- Hub of an engine: VA0–VA7 are 0–7, VB0–VB7 8–15. -/
def engineHub (e : Nat) : Hub := if e < 8 then .a else .b
/-- Engine e of a hub has its registers as unit e of the block: the same number. -/
def Hall.share (h : Hall) (e pen : Nat) : Nat := Tab.get 0 h.ingress.shares (32 * e + pen)

/-- The stream of an engine that takes a session's stream; the two ports of a dual-homed unit count as one. -/
def Hall.streamFor (h : Hall) (e port lid stream : Nat) (dual : Bool) : Option (Nat × VStream) :=
  (h.engine e).streams.find? fun s =>
    (decide (s.2.port = port) || (dual && decide (s.2.port % 4 = port % 4))) && decide (s.2.lid = lid) && decide (s.2.stream = stream)

/-- Changes the open access unit of a stream. -/
def updOpen (s : VStream) (f : AccessUnit → AccessUnit) : VStream :=
  { s with units := s.units.map fun (u : AccessUnit) => if u.ended then u else f u }

/-- The open access unit of a stream, if one is being collected. -/
def openUnit (s : VStream) : Option AccessUnit := s.units.find? fun (u : AccessUnit) => !u.ended

/-- Bytes that a stream's input ring holds. -/
def ringUsed (s : VStream) : Nat := (s.units.map fun (u : AccessUnit) => u.data.length).sum

/-- A gap reaches a stream (R385, R416): its open access unit is corrupt, or the next one where none is open. -/
def gapStream (s : VStream) : VStream :=
  match openUnit s with
  | some _ => updOpen s fun u => { u with gap := true }
  | none => { s with gapAhead := true }

/-- Ends the open access unit and queues it behind those that ended before it (R410). -/
def Hall.endUnit (h : Hall) (e i : Nat) (s : VStream) : Hall :=
  match openUnit s with
  | some u =>
    (h.updStream e i fun s => updOpen s fun u => { u with ended := true }).updEngine e fun x =>
      { x with order := x.order ++ [(i, u.num)] }
  | none => h

/-- A DATA payload is delivered to an engine in USEQ order (R385, R416, R419). -/
def Hall.vdecData (h : Hall) (e port lid stream : Nat) (dual : Bool) (useq : Nat) (body : Bytes) : Hall :=
  match h.streamFor e port lid stream dual with
  | none => h.bump .vdecUnconf e
  | some (i, s) =>
    if s.stopped then h
    else
      let start := bit (beAt body 1 1) 0
      let last := bit (beAt body 1 1) 1
      let stamp := beAt body 4 4
      let data := body.drop 8
      -- an access unit that lost its end is closed with a gap when the next one starts
      let h := if start && (openUnit s).isSome then
          let h := h.updStream e i fun s => updOpen s fun u => { u with gap := true }
          match Tab.find (h.engine e).streams i with
          | some s => h.endUnit e i s
          | none => h
        else h
      let h := if start then
          h.updStream e i fun s =>
            { s with units := s.units ++ [{ num := s.nextUnit, stamp := stamp, gap := s.gapAhead, lastUseq := useq }]
                     stamps := Tab.set s.stamps s.nextUnit stamp
                     nextUnit := s.nextUnit + 1, gapAhead := false, discarding := false }
        else h
      match Tab.find (h.engine e).streams i with
      | none => h
      | some s =>
        if s.discarding then h
        else match openUnit s with
        | none => h.updStream e i fun s => { s with gapAhead := true }
        | some _ =>
          if s.inBuf < ringUsed s + data.length then
            (h.updStream e i fun s =>
              { s with units := s.units.filter fun (u : AccessUnit) => u.ended
                       discarding := true, gapAhead := true }).bump .vdecOverrun e
          else
            let h := h.updStream e i fun s => updOpen s fun u => { u with data := u.data ++ data, lastUseq := useq }
            if last then
              match Tab.find (h.engine e).streams i with
              | some s => h.endUnit e i s
              | none => h
            else h

/-- A gap stands in place of a skipped USEQ (R385): every stream bound to the unit takes it, since nothing tells whose
frame was lost (log entry 17). -/
def Hall.vdecGap (h : Hall) (e port lid stream : Nat) (dual : Bool) : Hall :=
  match h.streamFor e port lid stream dual with
  | none => h
  | some (i, _) => h.updStream e i gapStream

/-- Queued access units of a stream are discarded (Table 17.2). -/
def Hall.vdecFlush (h : Hall) (e port lid stream : Nat) (dual : Bool) : Hall :=
  match h.streamFor e port lid stream dual with
  | none => h
  | some (i, _) =>
    (h.updStream e i fun s => { s with units := [], started := false }).updEngine e fun x =>
      { x with order := x.order.filter fun (o : Nat × Nat) => o.1 ≠ i }

/-- VDEC_DECODE_START: a free engine takes the next access unit (R410). -/
def execVdecDecodeStart (engine : Fin 16) (s : State) : Host.Outcome State Fault Refusal :=
  s.run fun h =>
    let e := engine.val
    match (h.engine e).now, (h.engine e).order with
    | none, (i, n) :: rest =>
      match Tab.find (h.engine e).streams i with
      | none => h.updEngine e fun x => { x with order := rest }
      | some st =>
        match st.units.find? fun (u : AccessUnit) => u.num = n with
        | none => h.updEngine e fun x => { x with order := rest }
        | some u =>
          let h := h.updStream e i fun s => { s with units := s.units.filter fun (v : AccessUnit) => v.num ≠ n }
          (h.updEngine e fun x => { x with order := rest, now := some (i, u) }).setF .vdecStatusBusy e 1
    | _, _ => h

/-! ### Crop and resize (R414, R415) -/

/-- First sample index, weight and second index of an output coordinate: `x` of `o` outputs over `w` inputs. -/
def resizeAt (w o x : Nat) : Nat × Nat × Nat :=
  let sx : Int := ((w * 65536 / o : Nat) : Int)
  let p := (clampInt 0 (((w - 1) * 65536 : Nat) : Int) (((2 * (x : Int) + 1) * sx - 65536) / 2)).toNat
  let i := p / 65536
  (i, p / 256 % 256, min (i + 1) (w - 1))

/-- One output sample: rows i and i' of the crop weighted by g, columns likewise by f. -/
def resizeSample (at_ : Nat → Nat → Nat) (w h ow oh x y : Nat) : Nat :=
  let (i, f, i') := resizeAt w ow x
  let (j, g, j') := resizeAt h oh y
  let row := fun r => at_ r i * (256 - f) + at_ r i' * f
  (row j * (256 - g) + row j' * g + 32768) / 65536

/-- A 10-bit sample becomes min((v + 2) >> 2, 255) (R414). -/
def sample8 (depth v : Nat) : Nat := if depth = 10 then min ((v + 2) / 4) 255 else v % 256

/-- One plane of one region: rows of stride bytes with their poison. `ps` is the plane's picture samples, `pw` its width,
`cx cy cw ch` the crop in the plane's units, `bad` the corrupt rows of the plane. A row of weight 0 is no source row
(DEDUCED from R415 and R418, log entry 17). -/
def planeRows (ps : List Nat) (depth pw cx cy cw ch ow oh stride : Nat) (bad : Nat → Bool) : List Payload :=
  let arr := ps.toArray
  let src := fun r c => sample8 depth (arr.getD ((cy + r) * pw + (cx + c)) 0)
  (List.range oh).map fun y =>
    let (j, g, j') := resizeAt ch oh y
    let poison := bad (cy + j) || (decide (g ≠ 0) && bad (cy + j'))
    let row := (List.range ow).map fun x => BitVec.ofNat 8 (resizeSample src cw ch ow oh x y)
    (row ++ List.replicate (stride - ow) 0).map fun b => { b := b, poison := poison }

/-- Strides of Y and of the chroma planes (R414). -/
def strideY (ow : Nat) : Nat := ceilDiv ow 64 * 64
def strideC (ow : Nat) : Nat := ceilDiv ow 128 * 64

/-- Size of a region's planes. -/
def OutRegion.bytes (r : OutRegion) (lumaOnly : Bool) : Nat :=
  strideY r.ow * r.oh + if lumaOnly then 0 else 2 * (strideC r.ow * (r.oh / 2))

/-- A luma row is corrupt or tainted. -/
def rowBad (p : Picture) (row : Nat) : Bool := p.corruptRows.any fun r => decide (r.1 ≤ row) && decide (row < r.1 + r.2)

/-- Rows of a region of a picture, in plane order. -/
def OutRegion.rows (r : OutRegion) (p : Picture) (lumaOnly : Bool) : List Payload :=
  let y := planeRows p.yPlane p.bitDepth p.width r.cx r.cy r.cw r.ch r.ow r.oh (strideY r.ow) (rowBad p)
  let badC := fun row => rowBad p (2 * row) || rowBad p (2 * row + 1)
  let chroma := fun ps =>
    if p.mono then
      (planeRows ps p.bitDepth (p.width / 2) (r.cx / 2) (r.cy / 2) (r.cw / 2) (r.ch / 2) (r.ow / 2) (r.oh / 2)
        (strideC r.ow) badC).map fun row => (row.zipIdx.map fun (x : PByte × Nat) =>
          if x.2 < r.ow / 2 then { x.1 with b := 128 } else x.1)
    else planeRows ps p.bitDepth (p.width / 2) (r.cx / 2) (r.cy / 2) (r.cw / 2) (r.ch / 2) (r.ow / 2) (r.oh / 2)
      (strideC r.ow) badC
  if lumaOnly then y else y ++ chroma p.cbPlane ++ chroma p.crPlane

/-- The region lies inside the picture (R414). -/
def OutRegion.inside (r : OutRegion) (w h : Nat) : Bool := decide (r.cx + r.cw ≤ w) && decide (r.cy + r.ch ≤ h)

/-- Total size of a stream's regions. -/
def VStream.total (s : VStream) : Nat := (s.regions.map fun (r : OutRegion) => r.bytes s.lumaOnly).sum

/-- The request entry of a picture (R417, Table 2.18). -/
def dreqEntry (e : Nat) (s : VStream) (k stamp : Nat) : Bytes :=
  let mva := s.outBase + k * s.outStride
  leBytes 2 s.launch ++ leBytes 6 0 ++ leBytes 1 e ++ leBytes 1 s.port ++ leBytes 1 s.lid ++ leBytes 1 s.stream ++
  leBytes 4 s.pictures ++ leBytes 8 mva ++ leBytes 4 s.total ++ leBytes 4 0 ++ leBytes 8 mva ++ leBytes 4 s.outStride ++
  leBytes 4 0 ++ leBytes 4 stamp ++ leBytes 12 0

/-- Posts a DREQ entry in T1 (R75): false where the queue is not an enabled DREQ queue of the pen, is full, or its ring
cannot be written. -/
def Hall.dreqPost (h : Hall) (e q pen : Nat) (entry : Bytes) : Bool × Hall :=
  match (h.que q).qrec with
  | some r =>
    if r.typ ≠ 3 ∨ r.pen ≠ pen ∨ !h.flag .queStatusEnabled q then (false, h)
    else if h.queIsFull q then (false, h.bump .queDrop q)
    else
      let p := h.getF .queProd q
      match h.mvaStore (engineHub e) { secure := h.secureEntry 5 e, source := 3, id := e } pen (r.base + 64 * p) (cleanBytes entry) with
      | (true, h) => (true, (h.setF .queProd q ((p + 1) % queSize r)).queFlags q)
      | (false, h) => (false, h)
  | none => (false, h)

/-- A picture of a stream is output (R414–R418). One that is not posted counts in VDEC_DROPPED (Table 17.6). -/
def Hall.vdecOutput (h : Hall) (e i : Nat) (p : Picture) : Hall :=
  match Tab.find (h.engine e).streams i with
  | none => h
  | some s =>
    if s.regions.any fun (r : OutRegion) => !r.inside p.width p.height then h.bump .vdecDropped e
    else match (List.range s.nbuf).find? fun k => !s.busy.contains k with
    | none => h.bump .vdecDropped e
    | some k =>
      let rows := s.regions.flatMap fun (r : OutRegion) => r.rows p s.lumaOnly
      let who : Accessor := { secure := h.secureEntry 5 e, source := 3, id := e }
      match h.mvaStore (engineHub e) who s.pen (s.outBase + k * s.outStride) rows.flatten with
      | (false, h) => h.bump .vdecDropped e
      | (true, h) =>
        let h := h.bump .vdecPoisonRows e (rows.filter fun (r : Payload) => r.any fun (b : PByte) => b.poison).length
        let entry := dreqEntry e s k (Tab.get 0 s.stamps p.unit)
        let h := h.updStream e i fun s => { s with pictures := (s.pictures + 1) % 2 ^ 32 }
        match h.dreqPost e s.queue s.pen entry with
        | (true, h) => (h.updStream e i fun s => { s with busy := s.busy ++ [k] }).bump .vdecPictures e
        | (false, h) => h.bump .vdecDropped e

/-- The USEQ of a decoded frame is reported to the other hub (Table 14.10). -/
def Hall.reportUseq (h : Hall) (s : VStream) (useq : Nat) : Hall :=
  let k := 128 * (s.port % 4) + s.lid
  match Tab.find h.ingress.units k with
  | some u => { h with ingress.units := Tab.set h.ingress.units k { u with reported := some useq } }
  | none => h

/-- VDEC_PICTURE_DONE: the access unit in decode is done (R412, R413, R417). -/
def execVdecPictureDone (engine : Fin 16) (decoded : Decoded) (s : State) : Host.Outcome State Fault Refusal :=
  s.run fun h =>
    let e := engine.val
    match (h.engine e).now with
    | none => h
    | some (i, u) =>
      let h := (h.updEngine e fun x => { x with now := none }).setF .vdecStatusBusy e 0
      match Tab.find (h.engine e).streams i with
      | none => h
      | some st =>
        let h := h.reportUseq st u.lastUseq
        match decoded.refused with
        | some (profile, level) =>
          let h := h.bump .vdecDropped e
          let h := if st.refused then h else
            h.postPen st.pen 0x0901 (leBytes 1 e ++ leBytes 1 st.port ++ leBytes 1 st.lid ++ leBytes 1 st.stream ++
              leBytes 1 profile ++ leBytes 1 level)
          h.updStream e i fun s => { s with refused := true, started := false }
        | none =>
          if !st.started && !decoded.irap then
            (h.bump .vdecDropped e).updStream e i fun s => { s with refused := false }
          else
            let h := h.updStream e i fun s => { s with started := true, refused := false }
            let h := h.bump .vdecSamples e decoded.samples
            let h := h.bump .vdecCorruptSlices e (if u.gap then max 1 decoded.corruptSlices else decoded.corruptSlices)
            decoded.pictures.foldl (fun h p => h.vdecOutput e i p) h

/-- A buffer is freed when the result of the request that named it is written (R416). -/
def Hall.vdecRelease (h : Hall) (pen queue mva : Nat) : Hall :=
  { h with ingress.engines := Tab.mapVals (fun _ (x : DecEngine) =>
      { x with streams := Tab.mapVals (fun _ (s : VStream) =>
          if s.pen = pen ∧ s.queue = queue then { s with busy := s.busy.filter fun k => s.outBase + k * s.outStride ≠ mva }
          else s) x.streams }) h.ingress.engines }

/-- A pen's streams on an engine are cleared and their buffers freed (Table 17.2). -/
def Hall.vdecClearOn (h : Hall) (e pen : Nat) : Hall :=
  let gone := (h.engine e).streams.filter fun s => s.2.pen = pen
  let keep := (h.engine e).streams.filter fun s => s.2.pen ≠ pen
  (h.updEngine e fun x =>
    { x with streams := keep
             order := x.order.filter fun (o : Nat × Nat) => !(gone.any fun g => g.1 = o.1) }).setF .vdecStatusStreams e keep.length

/-- The same on every engine. -/
def Hall.vdecClearPen (h : Hall) (pen : Nat) : Hall := upTo 16 h fun h e => h.vdecClearOn e pen

/-! ### VDEC commands (R420) -/

/-- A region of VDEC_STREAM_SET's payload. -/
def regionAt (c : TillCmd) (o : Nat) : OutRegion :=
  { cx := c.arg o 2, cy := c.arg (o + 2) 2, cw := c.arg (o + 4) 2, ch := c.arg (o + 6) 2, ow := c.arg (o + 8) 2, oh := c.arg (o + 10) 2 }

/-- R414: even values, an output size of 16 to 4,096, a crop that a picture of at most 4,096 × 2,304 can hold. -/
def OutRegion.valid (r : OutRegion) : Bool :=
  [r.cx, r.cy, r.cw, r.ch, r.ow, r.oh].all (fun v => v % 2 = 0) && decide (16 ≤ r.ow) && decide (r.ow ≤ 4096) &&
  decide (16 ≤ r.oh) && decide (r.oh ≤ 4096) && decide (0 < r.cw) && decide (0 < r.ch) &&
  decide (r.cx + r.cw ≤ 4096) && decide (r.cy + r.ch ≤ 2304)

/-- Declared rates on an engine, of one pen or of all (R411). -/
def Hall.declared (h : Hall) (e : Nat) (pen : Option Nat) : Nat :=
  (((h.engine e).streams.filter fun s => match pen with
    | some p => s.2.pen = p
    | none => true).map fun s => s.2.maxPps).sum

/-- VDEC_STREAM_SET (R411, R414, R420). -/
def vdecStreamSet (c : TillCmd) (h : Hall) : Answer :=
  let e := c.arg 0 1
  let port := c.arg 1 1
  let lid := c.arg 2 1
  let stream := c.arg 3 1
  let nreg := c.arg 38 1
  let s : VStream :=
    { pen := c.pen, port := port, lid := lid, stream := stream, launch := c.arg 4 2, queue := c.arg 6 2, maxPps := c.arg 8 4
      inMva := c.arg 12 8, inBuf := c.arg 20 4, outBase := c.arg 24 8, outStride := c.arg 32 4, nbuf := c.arg 36 1
      lumaOnly := decide (c.arg 37 1 = 1)
      regions := (List.range nreg).map fun j => regionAt c (39 + 12 * j) }
  if c.length ≠ 39 + 12 * nreg ∨ 15 < e ∨ 7 < port ∨ 127 < lid ∨ 7 < stream ∨ s.nbuf < 2 ∨ 64 < s.nbuf ∨ 1 < c.arg 37 1 ∨
      nreg = 0 ∨ 4 < nreg ∨ 16383 < s.queue ∨ !(s.regions.all OutRegion.valid) then refuse h stBadArg
  else if (h.streamFor e port lid stream false).isSome then refuse h stBusy
  else if h.share e c.pen * 77500000 < h.declared e (some c.pen) + s.maxPps ∨ 1240000000 < h.declared e none + s.maxPps ∨
      64 ≤ (h.engine e).streams.length then refuse h stNoResource
  else
    let h := h.updEngine e fun x => { x with streams := Tab.set x.streams x.nextStream s, nextStream := x.nextStream + 1 }
    okWith (h.setF .vdecStatusStreams e (h.engine e).streams.length)

def execVdecStreamSet (till : Fin 128) (s : State) : Host.Outcome State Fault Refusal := s.till till.val 0x0901 forP0 vdecStreamSet

/-- VDEC_STREAM_CLEAR (Table 17.2). -/
def vdecStreamClear (c : TillCmd) (h : Hall) : Answer :=
  let e := c.arg 0 1
  if c.length ≠ 4 ∨ 15 < e then refuse h stBadArg
  else match h.streamFor e (c.arg 1 1) (c.arg 2 1) (c.arg 3 1) false with
  | none => refuse h stBadArg
  | some (i, s) =>
    if s.pen ≠ c.pen then refuse h stBadArg
    else if s.busy ≠ [] then refuse (h.updStream e i fun s => { s with stopped := true }) stBusy
    else
      let h := h.updEngine e fun x =>
        { x with streams := Tab.erase x.streams i, order := x.order.filter fun (o : Nat × Nat) => o.1 ≠ i }
      okWith (h.setF .vdecStatusStreams e (h.engine e).streams.length)

def execVdecStreamClear (till : Fin 128) (s : State) : Host.Outcome State Fault Refusal :=
  s.till till.val 0x0902 forP0 vdecStreamClear

/-- VDEC_QUERY (R420). The manual gives the state byte no codes (`Config.vdecState`). -/
def vdecQuery (c : TillCmd) (h : Hall) : Answer :=
  let e := c.arg 0 1
  if c.length ≠ 1 ∨ 15 < e then refuse h stBadArg
  else
    let mine := (h.engine e).streams.filter fun s => s.2.pen = c.pen
    okWith h (leBytes 1 (h.share e c.pen) ++ mine.flatMap fun s =>
      leBytes 1 s.2.port ++ leBytes 1 s.2.lid ++ leBytes 1 s.2.stream ++ leBytes 1 (Config.vdecState s.2.started s.2.refused) ++
      leBytes 1 (s.2.nbuf - s.2.busy.length))

def execVdecQuery (till : Fin 128) (s : State) : Host.Outcome State Fault Refusal := s.till till.val 0x0903 forP0 vdecQuery

/-- Counters of a decode engine (Table 17.6). -/
def vdecCtrs : List Ctr :=
  [.vdecPictures, .vdecSamples, .vdecCorruptSlices, .vdecPoisonRows, .vdecDropped, .vdecOverrun, .vdecUnconf]

def execVdecClearStats (req : Requester) (engine : Fin 16) (s : State) : Host.Outcome State Fault Refusal :=
  s.board req fun h => h.clearCtrs engine.val vdecCtrs

end Sys2Proof.Machine
end

