-- ==== Sys2Proof/Machine/Drop.lean ====
section
/-! DEFINITION. What the access layer and the session layer share (chapters 14 and 15): ports, LIDs, entries of the
downstream header, frames waiting to be sent, events. A LID's registers and records are unit 128 · port + LID. -/

namespace Sys2Proof.Machine

def Hall.tport (h : Hall) (p : Nat) : TreePort := Tab.get {} h.ingress.ports p
def Hall.updPortT (h : Hall) (p : Nat) (f : TreePort → TreePort) : Hall :=
  { h with ingress.ports := Tab.set h.ingress.ports p (f (h.tport p)) }
def Hall.lid (h : Hall) (u : Nat) : Lid := Tab.get {} h.ingress.lids u
def Hall.updLid (h : Hall) (u : Nat) (f : Lid → Lid) : Hall :=
  { h with ingress.lids := Tab.set h.ingress.lids u (f (h.lid u)) }
def Hall.sess (h : Hall) (u : Nat) : Sess := Tab.get {} h.ingress.sess u
def Hall.updSess (h : Hall) (u : Nat) (f : Sess → Sess) : Hall :=
  { h with ingress.sess := Tab.set h.ingress.sess u (f (h.sess u)) }
def Hall.space (h : Hall) (k : Nat) : UnitSpace := Tab.get {} h.ingress.units k
def Hall.updSpace (h : Hall) (k : Nat) (f : UnitSpace → UnitSpace) : Hall :=
  { h with ingress.units := Tab.set h.ingress.units k (f (h.space k)) }

def lidUnit (port lid : Nat) : Nat := 128 * port + lid
/-- Hub of a tree port: TA0–TA3 are 0–3, TB0–TB3 4–7. -/
def treeHub (port : Nat) : Hub := if port < 4 then .a else .b
/-- The twin port (R366). -/
def twinPort (port : Nat) : Nat := (port + 4) % 8

/-- LID states (Table 14.8), coded as EP_STATE codes them. -/
def lidFree : Nat := 0
def lidRanging : Nat := 1
def lidAuth : Nat := 2
def lidHeld : Nat := 3
def lidQuarantine : Nat := 4
def lidActive : Nat := 5
def lidLost : Nat := 6
def lidSilenced : Nat := 7

/-- Session states (Table 15.4), coded as SESS_S_STATE codes them. -/
def ssIdle : Nat := 0
def ssChallenged : Nat := 1
def ssHeld : Nat := 2
def ssQuarantined : Nat := 3
def ssKeying : Nat := 4
def ssBinding : Nat := 5
def ssRun : Nat := 6
def ssRekey : Nat := 7
def ssRechallenge : Nat := 8
def ssParked : Nat := 9

def Hall.lidState (h : Hall) (port lid : Nat) : Nat := h.getF .epState (lidUnit port lid)
def Hall.ssState (h : Hall) (port lid : Nat) : Nat := h.getF .sessSState (lidUnit port lid)

/-- The lease a LID lies in (R354). -/
def Hall.leaseOf (h : Hall) (port lid : Nat) : Option Lease :=
  (h.tport port).leases.find? fun (l : Lease) => decide (l.lFirst ≤ lid) && decide (lid ≤ l.lLast)

/-- The pen that leases a LID. -/
def Hall.lidPen (h : Hall) (port lid : Nat) : Option Nat := (h.leaseOf port lid).map fun (l : Lease) => l.pen

/-- A dual-homed LID (R367). -/
def Hall.lidDual (h : Hall) (port lid : Nat) : Bool := h.flag .epStateDual (lidUnit port lid)

/-- The upstream data space of a LID: shared by the two ports of a dual-homed unit, but not for P0, whose halves take
their own copies (R367, R458). -/
def Hall.spaceKey (h : Hall) (port lid : Nat) : Nat :=
  if h.lidDual port lid && decide (h.lidPen port lid ≠ some 0) then 128 * (port % 4) + lid else 1024 + lidUnit port lid

/-- Two ports deliver into one space. -/
def Hall.lidShared (h : Hall) (port lid : Nat) : Bool := h.lidDual port lid && decide (h.lidPen port lid ≠ some 0)

/-- An event of a LID: to the pen that leases it, and to the secure module event queue (R370, R392). -/
def Hall.lidEvent (h : Hall) (port lid typ : Nat) (more : Bytes := []) : Hall :=
  let detail := leBytes 1 port ++ leBytes 1 lid ++ leBytes 4 (h.tport port).tf ++ more
  match h.lidPen port lid with
  | some pen => h.postBoth pen typ detail
  | none => h.post 255 true { typ := typ, detail := detail }

/-- An entry for the next downstream header that may carry it (R350). -/
def Hall.pushEntry (h : Hall) (port notBefore word : Nat) : Hall :=
  h.updPortT port fun p => { p with entries := p.entries ++ [(notBefore, word)] }

/-- Word of an entry: TYPE, LID, bits 52:0. -/
def entryWord (typ lid rest : Nat) : Nat := typ * 2 ^ 60 + lid % 128 * 2 ^ 53 + rest

def Hall.sendEqd (h : Hall) (port lid : Nat) : Hall :=
  h.pushEntry port (h.tport port).tf (entryWord 4 lid (h.getF .epStateEqd (lidUnit port lid) * 2 ^ 35))
def Hall.sendRelease (h : Hall) (port lid : Nat) : Hall := h.pushEntry port (h.tport port).tf (entryWord 6 lid 0)
def Hall.sendUnsilence (h : Hall) (port lid : Nat) : Hall := h.pushEntry port (h.tport port).tf (entryWord 7 lid 0)
/-- SILENCE: with PERSIST, FRAMES is 255 (DESIGN CHOICE, log entry 17: the manual gives it no value there). -/
def Hall.sendSilence (h : Hall) (port lid : Nat) (persist : Bool) (frames : Nat) : Hall :=
  h.pushEntry port (h.tport port).tf (entryWord 5 lid (b2n persist * 2 ^ 52 + frames * 2 ^ 44))

/-- Recounts TREE_STATUS.ACTIVE. -/
def Hall.countActive (h : Hall) (port : Nat) : Hall :=
  h.setF .treeStatusActive port ((List.range 128).filter fun l => h.lidState port l = lidActive).length

/-- A LID enters a state (Table 14.8). Entering FREE clears its counters and what it held of the unit (R371). -/
def Hall.setLid (h : Hall) (port lid st : Nat) : Hall :=
  let u := lidUnit port lid
  let h := h.setF .epState u st
  let h := if st = lidFree then
      let h := h.updPortT port fun t => { t with ranges := t.ranges.filter (· ≠ lid), requests := t.requests.filter fun r => r.1 ≠ lid }
      ((h.clearFs u [.epStateEqd, .epStateOffset, .epErrHit, .epErrCount]).clearCtrs u [.epCw, .epMiss]).updLid u fun l =>
        { ident := l.ident }
    else h
  h.countActive port

/-- RELEASE_LID, and the LID becomes FREE. -/
def Hall.freeLid (h : Hall) (port lid : Nat) : Hall := (h.sendRelease port lid).setLid port lid lidFree

/-- EP_ERR grows (R361): TREE_DEGRADED and its record at ERR_THRESH. -/
def Hall.epErr (h : Hall) (port lid k : Nat) : Hall :=
  let u := lidUnit port lid
  let was := h.flag .epErrHit u
  let h := if k = 0 then h else h.errorCount .epErrCount .epErrHit u k (h.tport port).cfg.errThresh .treeError
  if !was && h.flag .epErrHit u then h.lidEvent port lid 0x0605 else h

/-- First TF of the next superframe whose auction header has not been sent. -/
def nextSuperframe (tf : Nat) : Nat := (tf + 7) / 8 * 8

end Sys2Proof.Machine
end

