-- ==== Sys2Proof/Machine/Session.lean ====
section
/-! DEFINITION. Endpoint sessions (chapter 15): frames, authentication, keys, the session state machine, acknowledgement
and in-order delivery, rekeying, park and resume, SESS commands. -/

namespace Sys2Proof.Machine

/-! ### Frames (R373, R374) -/

/-- Header of a session frame (Table 15.1). -/
def sessHeader (lid typ kepoch flags seq len : Nat) : Bytes :=
  beBytes 1 lid ++ beBytes 1 typ ++ beBytes 1 kepoch ++ beBytes 1 flags ++ beBytes 4 seq ++ beBytes 2 len ++ beBytes 2 0

/-- Nonce of a session frame (Table 15.2): direction (1 upstream), class (1 other than DATA). -/
def sessNonce (dir cls kepoch seq : Nat) : Bytes :=
  beBytes 1 (dir * 2 + cls) ++ beBytes 1 kepoch ++ beBytes 6 0 ++ beBytes 4 seq

/-- A clear frame with its check value. -/
def clearFrame (lid typ flags : Nat) (body : Bytes) : Bytes :=
  let hb := sessHeader lid typ 0 flags 0 body.length ++ body
  hb ++ beBytes 2 (crc16 hb)

/-- a precedes b by serial-number arithmetic over 32 bits (R376). -/
def precedes (a b : Nat) : Bool :=
  let d := (b + 2 ^ 32 - a % 2 ^ 32) % 2 ^ 32
  decide (1 ≤ d) && decide (d < 2 ^ 31)

/-- GCM blocks of a payload. -/
def gcmBlocks (n : Nat) : Nat := ceilDiv n 16

/-- Queues a downstream session frame (R349). -/
def Hall.sendDown (h : Hall) (port notBefore : Nat) (frame : Bytes) : Hall :=
  h.updPortT port fun p => { p with down := p.down ++ [(notBefore, frame)] }

/-- Publishes SESS_S_BLOCKS: the busier direction, bounded by 2^32. -/
def Hall.setBlocks (h : Hall) (u : Nat) : Hall :=
  h.setF .sessSBlocks u (min (2 ^ 32) (max (h.sess u).blocksUp (h.sess u).blocksDown))

/-- Builds and queues an encrypted downstream frame under the current key; nothing is sent under a key that has
protected 2^32 blocks (R386). -/
def Hall.sendSealed (h : Hall) (port lid typ : Nat) (body : Bytes) : Bytes × Hall :=
  let u := lidUnit port lid
  let s := h.sess u
  let ep := h.getF .sessSStateKepoch u
  if ep = 0 ∨ 2 ^ 32 ≤ s.blocksDown + gcmBlocks body.length then ([], h)
  else
    let hd := sessHeader lid typ ep 0 s.downCseq body.length
    let frame := hd ++ gcmSeal s.key (sessNonce 0 1 ep s.downCseq) hd body
    let h := h.updSess u fun s =>
      { s with downCseq := (s.downCseq + 1) % 2 ^ 32, blocksDown := s.blocksDown + gcmBlocks body.length }
    (frame, (h.setBlocks u).sendDown port (h.tport port).tf frame)

/-! ### State changes (Table 15.4) -/

/-- Recounts SESS_STATUS (Table 15.10). -/
def Hall.countSess (h : Hall) (port : Nat) : Hall :=
  let count := fun (p : Nat → Bool) => ((List.range 128).filter p).length
  h.setFs port
    [(.sessStatusRun, count fun l => [ssRun, ssRekey, ssRechallenge].contains (h.ssState port l)),
     (.sessStatusParked, count fun l => (h.sess (lidUnit port l)).parked),
     (.sessStatusHandshake, count fun l => [ssChallenged, ssKeying, ssBinding].contains (h.ssState port l))]

def Hall.setSs (h : Hall) (port lid st : Nat) : Hall := (h.setF .sessSState (lidUnit port lid) st).countSess port

/-- Ends the operations that wait on a session. -/
def Hall.endSessOps (h : Hall) (u rekeyStatus chalStatus : Nat) : Hall :=
  let s := h.sess u
  let h := h.updSess u fun s => { s with rekeyOps := [], chalOps := [] }
  let h := s.rekeyOps.foldl (fun h k => h.closeOp k rekeyStatus) h
  s.chalOps.foldl (fun h k => h.closeOp k chalStatus) h

/-- A session enters IDLE: its registers return to reset (R393); the key a LEAVE was sent under stays for LEAVE_ACK. -/
def Hall.sessIdle (h : Hall) (port lid : Nat) : Hall :=
  let u := lidUnit port lid
  let h := h.endSessOps u stAborted stAborted
  let h := h.updSess u fun s => { closing := s.closing }
  let h := (h.clearFs u [.sessSStateKepoch, .sessSStatePepoch, .sessSStateBound, .sessSStateLastClose, .sessSStateWin,
    .sessSStateNoResume, .sessSUseqBase, .sessSUseqHigh, .sessSErrHit, .sessSErrCount, .sessSBlocks]).clearCtrs u
    [.sessSFrames, .sessSHoles]
  let h := if h.lidShared port lid && decide (h.ssState (twinPort port) lid ≠ ssIdle) then h
    else h.updSpace (h.spaceKey port lid) fun x => { bindings := x.bindings }
  h.setSs port lid ssIdle

/-- SESS_CLOSED with a reason (R392). -/
def Hall.sessClosed (h : Hall) (port lid reason : Nat) : Hall :=
  (h.setF .sessSStateLastClose (lidUnit port lid) reason).lidEvent port lid 0x0704 (leBytes 1 reason)

/-- LEAVE with a reason, where a key is held; the session waits for LEAVE_ACK under that key. -/
def Hall.sendLeave (h : Hall) (port lid reason : Nat) : Hall :=
  let u := lidUnit port lid
  let ep := h.getF .sessSStateKepoch u
  if ep = 0 then h
  else ((h.sendSealed port lid 0x30 (beBytes 1 reason ++ beBytes 3 0)).2).updSess u fun s => { s with closing := some (ep, s.key) }

/-- The module ends a session: LEAVE where a key is held, SESS_CLOSED, release of the LID (R381). -/
def Hall.sessEnd (h : Hall) (port lid reason : Nat) : Hall :=
  let u := lidUnit port lid
  let h := h.endSessOps u stAborted (if reason = 5 then stVerifyFailed else stAborted)
  let h := if h.getF .sessSStateKepoch u = 0 then h else (h.sendLeave port lid reason).sessClosed port lid reason
  (h.sessIdle port lid).freeLid port lid

/-- Drops a parked state (SESS_CLOSED), the session staying CHALLENGED. -/
def Hall.dropParked (h : Hall) (port lid reason : Nat) : Hall :=
  let u := lidUnit port lid
  if !(h.sess u).parked then h
  else
    let h := h.sessClosed port lid reason
    let h := h.endSessOps u stAborted stAborted
    let h := h.updSess u fun s =>
      { s with parked := false, key := [], pendKey := [], prevKey := [], prevEpoch := 0, rtoken := none, upCseq := none
               downCseq := 0, got := [], rekeyWaits := false, blocksUp := 0, blocksDown := 0, leaf := [] }
    let h := h.clearFs u [.sessSStateKepoch, .sessSStatePepoch, .sessSStateBound, .sessSStateWin, .sessSStateNoResume,
      .sessSUseqBase, .sessSUseqHigh, .sessSBlocks]
    let h := if h.lidShared port lid && decide (h.ssState (twinPort port) lid ≠ ssIdle) then h
      else h.updSpace (h.spaceKey port lid) fun x => { bindings := x.bindings }
    h.countSess port

/-- AUTH_FAIL with a reason (Table 15.3). -/
def Hall.authFail (h : Hall) (port lid reason : Nat) : Hall :=
  (h.sendDown port (h.tport port).tf (clearFrame lid 0x05 0 (beBytes 1 reason ++ beBytes 3 0))).bump .sessAuthFail port

/-- Sends a CHALLENGE with a fresh CHAL_ID and NONCE, guarded by RESP (R377). -/
def Hall.challenge (h : Hall) (port lid notBefore : Nat) : Hall :=
  let u := lidUnit port lid
  let (id, h) := h.draw 4
  let (nonce, h) := h.draw 32
  let frame := clearFrame lid 0x01 0 (id ++ nonce ++ moduleId.take 16)
  let h := h.updSess u fun s =>
    { s with chalId := beNat id, nonce := nonce, frags := [], fragTotal := 0, fragLast := false, chain := none
             answered := false, guarded := some frame, resends := 0, repeated := none }
  h.sendDown port notBefore frame

/-- The LID of a session enters AUTH: CHALLENGED, a parked state kept. The first header that leaves at least 25 µs later
is that of upstream frame + 4, since ranging bursts lie in the service area (R377). -/
def Hall.sessEnterAuth (h : Hall) (port lid : Nat) : Hall :=
  ((h.challenge port lid ((h.tport port).upTf + 4)).setSs port lid ssChallenged)

/-- QUARANTINE after a failed authentication (Table 14.8): event and fault record. -/
def Hall.quarantine (h : Hall) (port lid reason : Nat) : Hall :=
  let u := lidUnit port lid
  let h := h.authFail port lid reason
  let h := h.setLid port lid lidQuarantine
  let h := h.lidEvent port lid 0x0602 (leBytes 1 lidQuarantine ++ slice ((h.lid u).bound.getD []) 0 16)
  let h := h.updSess u fun s => { s with guarded := none }
  (h.ordinary .sessError u reason).setSs port lid ssQuarantined

/-- The LID becomes ACTIVE (Table 14.8): grants from the next superframe, TREE_JOIN. -/
def Hall.lidJoin (h : Hall) (port lid : Nat) : Hall :=
  let u := lidUnit port lid
  let h := (h.setLid port lid lidActive).updLid u fun l => { l with grantFrom := nextSuperframe ((h.tport port).tf + 1), misses := 0 }
  h.lidEvent port lid 0x0601 (leBytes 4 (h.getF .epStateEqd u))

/-- A KEY frame with a fresh key of an epoch (R379): the key and the module after sending it. -/
def Hall.sendKey (h : Hall) (port lid epoch : Nat) : Bytes × Hall :=
  let u := lidUnit port lid
  let (key, h) := h.draw 32
  let label := beBytes 2 (h.tport port).treeId ++ beBytes 1 lid ++ beBytes 1 epoch
  let (wrapped, h) := h.wrap (h.sess u).leaf label key
  let frame := clearFrame lid 0x04 0 (beBytes 1 epoch ++ beBytes 3 0 ++ wrapped)
  let h := h.updSess u fun s => { s with keyFrame := frame, guarded := some frame, resends := 0 }
  (key, h.sendDown port (h.tport port).tf frame)

/-- The epoch after one (R379). -/
def nextEpoch (e : Nat) : Nat := if e = 255 then 1 else e + 1

/-- A rekey starts in RUN (R386). -/
def Hall.startRekey (h : Hall) (port lid : Nat) : Hall :=
  let u := lidUnit port lid
  let e := nextEpoch (h.getF .sessSStateKepoch u)
  let (key, h) := h.sendKey port lid e
  ((h.updSess u fun s => { s with pendKey := key, rekeyWaits := false }).setF .sessSStatePepoch u e).setSs port lid ssRekey

/-- Back to RUN, or to REKEY when one waits. -/
def Hall.toRun (h : Hall) (port lid : Nat) : Hall :=
  let u := lidUnit port lid
  let h := h.updSess u fun s => { s with guarded := none, resends := 0 }
  if (h.sess u).rekeyWaits || decide (h.getF .sessSStatePepoch u ≠ 0) then h.startRekey port lid
  else h.setSs port lid ssRun

/-- Streams bound to a LID as a bitmap. -/
def Hall.boundMap (h : Hall) (port lid : Nat) : Nat :=
  ((h.space (h.spaceKey port lid)).bindings.map fun b => 2 ^ b.1).sum

/-- BIND with a new resume token (R380, R382). -/
def Hall.sendBind (h : Hall) (port lid : Nat) (guard : Bool) : Hall :=
  let u := lidUnit port lid
  let (tok, h) := h.draw 16
  let win := clampNat 16 1024 (h.tport port).sessWin
  let streams := h.boundMap port lid
  let (frame, h) := h.sendSealed port lid 0x11 (beBytes 2 win ++ beBytes 1 streams ++ beBytes 1 0 ++ tok)
  h.updSess u fun s =>
    { s with rtoken := some tok, sentStreams := streams, sentWin := win
             guarded := if guard then some frame else s.guarded, resends := if guard then 0 else s.resends }

/-- RECHALLENGE (Table 15.4): CHALLENGE and SESS_SUSPECT. -/
def Hall.suspectSess (h : Hall) (port lid why : Nat) : Hall :=
  let st := h.ssState port lid
  if st = ssRun ∨ st = ssRekey then
    let u := lidUnit port lid
    let h := if st = ssRekey then h.updSess u fun s => { s with rekeyWaits := true } else h
    let h := h.challenge port lid (h.tport port).tf
    (h.setSs port lid ssRechallenge).lidEvent port lid 0x0705 (leBytes 1 why)
  else h

/-- An error of the unit marked ERR (R389). -/
def Hall.sessErr (h : Hall) (port lid : Nat) : Hall :=
  let u := lidUnit port lid
  let was := h.flag .sessSErrHit u
  let h := h.errorCount .sessSErrCount .sessSErrHit u 1 (h.tport port).sessErrThresh .sessError
  if !was && h.flag .sessSErrHit u then h.suspectSess port lid 1 else h

/-- The LID becomes LOST: the session parks, or its state is dropped (Table 15.4). -/
def Hall.sessLidLost (h : Hall) (port lid : Nat) : Hall :=
  let u := lidUnit port lid
  let st := h.ssState port lid
  let park := fun (h : Hall) =>
    (((h.updSess u fun s => { s with parked := true, guarded := none }).setSs port lid ssParked)).lidEvent port lid 0x0702
  if st = ssKeying ∨ st = ssBinding then h.sessIdle port lid
  else if st = ssRun ∨ st = ssRekey then park h
  else if st = ssRechallenge then park (h.setF .sessSStateNoResume u 1)
  else h

/-! ### Delivery (R367, R382–R385) -/

/-- Hub that delivers a shared unit's frames: the hub of a bound engine. -/
def Hall.deliveringHub (h : Hall) (port lid : Nat) : Hub :=
  match (h.space (h.spaceKey port lid)).bindings with
  | (_, e) :: _ => engineHub e
  | [] => treeHub port

/-- Passes one frame to the engine bound to its stream. -/
def Hall.passFrame (h : Hall) (port lid useq : Nat) (body : Bytes) : Hall :=
  if body = [] then h
  else match Tab.find (h.space (h.spaceKey port lid)).bindings (beAt body 0 1) with
    | some e => h.vdecData e port lid (beAt body 0 1) (h.lidShared port lid) useq body
    | none => h

/-- Publishes BASE to the sessions that share a space. -/
def Hall.setBase (h : Hall) (port lid : Nat) : Hall :=
  let b := (h.space (h.spaceKey port lid)).next
  let h := h.setF .sessSUseqBase (lidUnit port lid) b
  if h.lidShared port lid && decide (h.ssState (twinPort port) lid ≠ ssIdle) then h.setF .sessSUseqBase (lidUnit (twinPort port) lid) b
  else h

/-- Passes held frames on while BASE is held; `n` bounds the frames. -/
def Hall.passHeld (h : Hall) (port lid : Nat) : Nat → Hall
  | 0 => h
  | n + 1 =>
    let k := h.spaceKey port lid
    match Tab.find (h.space k).held (h.space k).next with
    | none => h
    | some body =>
      let q := (h.space k).next
      let h := h.updSpace k fun x => { x with next := (q + 1) % 2 ^ 32, held := Tab.erase x.held q }
      (h.passFrame port lid q body).passHeld port lid n

/-- Keeps the last 32 accepted frames on the hub that does not deliver (Table 14.10). -/
def Hall.keepFrame (h : Hall) (port lid useq : Nat) (body : Bytes) : Hall :=
  if h.lidShared port lid && decide (treeHub port ≠ h.deliveringHub port lid) then
    h.updSpace (h.spaceKey port lid) fun x =>
      let kept := x.kept.filter (fun e => e.1 ≠ useq) ++ [(useq, body)]
      { x with kept := kept.drop (kept.length - 32) }
  else h

/-- A DATA frame that authenticated is windowed, acknowledged, and held or passed on (R382, R385, R389). -/
def Hall.takeData (h : Hall) (port lid useq : Nat) (body : Bytes) : Hall :=
  let u := lidUnit port lid
  let k := h.spaceKey port lid
  let base := (h.space k).next
  let d := (useq + 2 ^ 32 - base) % 2 ^ 32
  let win := if h.getF .sessSStateWin u = 0 then (h.sess u).sentWin else h.getF .sessSStateWin u
  let ack := fun (h : Hall) =>
    h.updSess u fun s =>
      { s with ackDue := if s.ackDue.contains ((h.tport port).upTf + 4) then s.ackDue else s.ackDue ++ [(h.tport port).upTf + 4] }
  let mine := (h.sess u).got.contains useq
  if mine then (ack h).bump .sessDup port
  else if win ≤ d ∧ d ≤ 2 ^ 31 then ((ack h).bump .sessOow port).sessErr port lid
  else
    let note := fun (h : Hall) =>
      let high := h.getF .sessSUseqHigh u
      let first := (h.sess u).got = []
      let h := h.bump .sessSFrames u
      let h := if !first && precedes useq high then h.bump .sessSHoles u else h
      let h := if first || precedes high useq then h.setF .sessSUseqHigh u useq else h
      h.updSess u fun s => { s with got := (s.got ++ [useq]).drop ((s.got.length + 1) - 4096) }
    if 2 ^ 31 < d then
      -- below BASE: the twin's session delivered it, or it is a duplicate
      if h.lidShared port lid && decide (2 ^ 32 - 4096 ≤ d) && !(h.space k).skipped.contains useq then
        (note (ack h)).bump .treeDupDropped (if treeHub port = h.deliveringHub port lid then port else twinPort port)
      else (ack h).bump .sessDup port
    else
      let h := note (ack h)
      if (Tab.find (h.space k).held useq).isSome then
        h.bump .treeDupDropped (if treeHub port = h.deliveringHub port lid then port else twinPort port)
      else
        let bound := (h.getF .sessSStateBound u).testBit (beAt body 0 1)
        let h := if bound then h else h.bump .sessUnbound port
        let h := h.keepFrame port lid useq body
        let h := h.updSpace k fun x => { x with held := Tab.set x.held useq (if bound then body else []) }
        (h.passHeld port lid ((h.space k).held.length)).setBase port lid

/-- MAP of an ACK: bit i for BASE + 1 + i received by this session, or taken by the delivering hub from the twin (R383, R367). -/
def Hall.ackMap (h : Hall) (port lid : Nat) : Nat :=
  let x := h.space (h.spaceKey port lid)
  ((List.range 64).map fun i =>
    let q := (x.next + 1 + i) % 2 ^ 32
    if (h.sess (lidUnit port lid)).got.contains q || (Tab.find x.held q).isSome then 2 ^ i else 0).sum

/-- Sends an ACK (R383). -/
def Hall.sendAck (h : Hall) (port lid : Nat) : Hall :=
  let u := lidUnit port lid
  let h := (h.sendSealed port lid 0x21
    (beBytes 4 (h.space (h.spaceKey port lid)).next ++ beBytes 8 (h.ackMap port lid) ++ beBytes 4 0)).2
  h.updSess u fun s => { s with ackDue := s.ackDue.filter fun t => (h.tport port).tf < t, lastAck := (h.tport port).tf }

/-! ### Clear frames from a unit -/

/-- Malformed frame (Table 15.6). -/
def Hall.sessMalformedFrame (h : Hall) (port lid : Nat) : Hall := (h.bump .sessMalformed port).sessErr port lid

/-- Puts fragments together from offset `pos`; none while one is missing. -/
def assemble (frags : List (Nat × Bytes)) (total : Nat) : Nat → Nat → Option Bytes
  | 0, _ => none
  | n + 1, pos =>
    if pos = total then some []
    else match frags.find? fun f => decide (f.1 = pos) && decide (0 < f.2.length) with
      | some f => (assemble frags total n (pos + f.2.length)).map fun rest => f.2 ++ rest
      | none => none

/-- CERT fragment (R378): the chain is whole when its last fragment has come and none is missing. -/
def Hall.sessCert (h : Hall) (port lid : Nat) (flags : Nat) (body : Bytes) : Hall :=
  let u := lidUnit port lid
  let st := h.ssState port lid
  if st ≠ ssChallenged ∧ st ≠ ssRechallenge then h
  else
    let h := h.bump .sessFramesIn port
    let h := h.updSess u fun s =>
      { s with frags := s.frags.filter (fun f => f.1 ≠ beAt body 0 2) ++ [(beAt body 0 2, body.drop 4)]
               fragTotal := beAt body 2 2, fragLast := s.fragLast || bit flags 0 }
    let s := h.sess u
    match if s.fragLast then assemble s.frags s.fragTotal (s.frags.length + 1) 0 else none with
    | none => h
    | some chain =>
      let h := h.updSess u fun s => { s with frags := [], fragLast := false }
      match s.chain with
      | some old =>
        if old = chain then h
        else if st = ssChallenged then h.quarantine port lid 1
        else (h.ordinary .sessError u 5).sessEnd port lid 5
      | none =>
        let h := h.updSess u fun s => { s with chain := some chain }
        if st = ssRechallenge ∧ (Config.x509 chain).bind (fun c => c.head?.map fun x => x.spki) ≠ some s.leaf then
          (h.ordinary .sessError u 5).sessEnd port lid 5
        else h

/-- The string that SIG covers (R378). -/
def Hall.proofString (h : Hall) (port lid : Nat) : Bytes :=
  let u := lidUnit port lid
  ascii "IL8S" ++ beBytes 4 (h.sess u).chalId ++ (h.sess u).nonce ++ moduleId.take 16 ++ beBytes 2 (h.tport port).treeId ++
  beBytes 1 lid ++ slice ((h.lid u).bound.getD []) 0 16

/-- RESPONSE (R378, R381). -/
def Hall.sessResponse (h : Hall) (port lid : Nat) (body : Bytes) : Hall :=
  let u := lidUnit port lid
  let st := h.ssState port lid
  let s := h.sess u
  let sig := slice body 4 512
  if s.answered ∧ beAt body 0 4 = s.chalId then
    -- repeated after it was accepted: the next handshake message again, at most once per RESP_TF (R389)
    let due := match s.repeated with
      | some t => decide (t + max 1 (h.getF .sessCfgRespTf port) ≤ (h.tport port).tf)
      | none => true
    match s.guarded with
    | some f => if due then
        (h.updSess u fun s => { s with repeated := some (h.tport port).tf }).sendDown port (h.tport port).tf f
      else h
    | none => h
  else if (st ≠ ssChallenged ∧ st ≠ ssRechallenge) ∨ beAt body 0 4 ≠ s.chalId then (h.bump .sessReplay port).sessErr port lid
  else if st = ssChallenged then
    let h := h.bump .sessFramesIn port
    match s.chain.bind (h.chainCheck purposeEndpoint) with
    | none => h.quarantine port lid 1
    | some (leaf, anchor) =>
      if some ((sha512 leaf).take 16) ≠ (h.lid u).bound then h.quarantine port lid 3
      else if !Config.pssVerify leaf (h.proofString port lid) sig then h.quarantine port lid 1
      else
        let h := h.updSess u fun s => { s with answered := true, guarded := none }
        if (h.lid u).ident ≠ none ∧ (h.lid u).ident = (h.lid u).bound then
          let h := h.dropParked port lid 6
          let h := h.updSess u fun s => { s with leaf := leaf, anchor := anchor }
          let h := h.lidJoin port lid
          let (key, h) := h.sendKey port lid 1
          ((h.updSess u fun s => { s with key := key }).setF .sessSStateKepoch u 1).setSs port lid ssKeying
        else
          let h := h.dropParked port lid 6
          let h := h.setLid port lid lidHeld
          let h := h.lidEvent port lid 0x0602 (leBytes 1 lidHeld ++ slice ((h.lid u).bound.getD []) 0 16)
          h.setSs port lid ssHeld
  else
    let h := h.bump .sessFramesIn port
    if Config.pssVerify s.leaf (h.proofString port lid) sig then
      let h := h.updSess u fun s => { s with answered := true }
      let h := h.clearFs u [.sessSErrHit, .sessSErrCount]
      let ops := (h.sess u).chalOps
      let h := h.updSess u fun s => { s with chalOps := [] }
      (ops.foldl (fun h k => h.closeOp k stOK) h).toRun port lid
    else (h.ordinary .sessError u 5).sessEnd port lid 5

/-! ### Encrypted frames from a unit -/

/-- Which key an epoch names: current, pending, previous (R387). -/
inductive KeyUse where
  | current | pending | previous
deriving DecidableEq, Repr

/-- The key of an upstream frame's epoch; none when stale (R386, R389). -/
def Hall.keyFor (h : Hall) (u ep : Nat) : Option (KeyUse × Bytes) :=
  let s := h.sess u
  if ep ≠ 0 ∧ ep = h.getF .sessSStateKepoch u then
    if 2 ^ 32 ≤ s.blocksUp then none else some (.current, s.key)
  else if ep ≠ 0 ∧ ep = h.getF .sessSStatePepoch u then some (.pending, s.pendKey)
  else if ep ≠ 0 ∧ ep = s.prevEpoch then some (.previous, s.prevKey)
  else none

/-- A frame authenticated under a key that a KEY frame carried: KEYING goes to BINDING, a rekey completes (Table 15.4). -/
def Hall.keyProved (h : Hall) (port lid : Nat) (use : KeyUse) : Hall :=
  let u := lidUnit port lid
  let st := h.ssState port lid
  if st = ssKeying ∧ use = .current then
    ((h.updSess u fun s => { s with guarded := none, resends := 0 }).setSs port lid ssBinding).sendBind port lid true
  else if st = ssRekey ∧ use = .pending then
    let old := h.getF .sessSStateKepoch u
    let h := h.updSess u fun s =>
      { s with prevKey := s.key, prevEpoch := old, key := s.pendKey, pendKey := [], blocksUp := 0, blocksDown := 0
               guarded := none, resends := 0 }
    let h := (h.setF .sessSStateKepoch u (h.getF .sessSStatePepoch u)).setF .sessSStatePepoch u 0
    let (tok, h) := h.draw 16
    let h := (h.sendSealed port lid 0x14 tok).2
    let ops := (h.sess u).rekeyOps
    let h := h.updSess u fun s => { s with rtoken := some tok, rekeyOps := [] }
    let h := ops.foldl (fun h k => h.closeOp k stOK) h
    (h.setBlocks u).setSs port lid ssRun
  else h

/-- A valid RESUME (R380, Table 15.4). -/
def Hall.sessResumed (h : Hall) (port lid : Nat) : Hall :=
  let u := lidUnit port lid
  let (tok, h) := h.draw 16
  let base := (h.space (h.spaceKey port lid)).next
  let h := (h.sendSealed port lid 0x13 (beBytes 4 base ++ tok)).2
  let h := h.updSess u fun s => { s with rtoken := some tok, parked := false, guarded := none, answered := true }
  let h := h.lidJoin port lid
  let h := h.lidEvent port lid 0x0703 (leBytes 4 base)
  let h := h.toRun port lid
  h.countSess port

/-- An invalid RESUME: AUTH_FAIL 2, the parked state dropped, RESP restarted (Table 15.4). -/
def Hall.resumeInvalid (h : Hall) (port lid : Nat) : Hall :=
  let h := ((h.bump .sessResumeFail port).authFail port lid 2).dropParked port lid 6
  h.updSess (lidUnit port lid) fun s => { s with resends := 0 }

/-- What a unit's encrypted frame does once it is authentic and in sequence. -/
def Hall.sessMessage (h : Hall) (port lid typ : Nat) (body : Bytes) : Hall :=
  let u := lidUnit port lid
  let st := h.ssState port lid
  if typ = 0x12 then
    -- BIND_ACK of the binding last sent (R382)
    if beAt body 0 1 ≠ (h.sess u).sentStreams then h
    else
      let h := h.setFs u [(.sessSStateBound, beAt body 0 1), (.sessSStateWin, (h.sess u).sentWin)]
      if st = ssBinding then
        let h := (h.updSess u fun s => { s with lastAck := (h.tport port).tf }).setBase port lid
        (h.toRun port lid).lidEvent port lid 0x0701 (leBytes 1 (h.getF .sessSStateKepoch u))
      else h
  else if typ = 0x30 then
    -- LEAVE of the unit
    if ssKeying ≤ st ∧ st ≤ ssRechallenge then
      let h := (h.sendSealed port lid 0x31 []).2
      ((h.sessClosed port lid 0).sessIdle port lid).freeLid port lid
    else h
  else h

/-- Types that a unit sends encrypted, with the payload length each has; none for DATA, whose length varies. -/
def upTypeLen (typ : Nat) : Option (Option Nat) :=
  match typ with
  | 0x06 => some (some 52)
  | 0x10 => some (some 4)
  | 0x12 => some (some 4)
  | 0x20 => some none
  | 0x30 => some (some 4)
  | 0x31 => some (some 0)
  | _ => none

/-- Reserved bytes of an opened payload are zero, and its length is that of its type. -/
def upBodyOk (typ : Nat) (body : Bytes) : Bool :=
  match typ with
  | 0x10 => decide (beAt body 1 3 = 0)
  | 0x12 => decide (beAt body 1 3 = 0)
  | 0x30 => decide (beAt body 1 3 = 0)
  | 0x20 => decide (8 ≤ body.length) && decide (beAt body 0 1 ≤ 7) && decide (beAt body 1 1 < 4) && decide (beAt body 2 2 = 0)
  | _ => true

/-- An encrypted upstream frame (R374, R387, R389). -/
def Hall.sessSealed (h : Hall) (port lid : Nat) (frame : Bytes) : Hall :=
  let u := lidUnit port lid
  let st := h.ssState port lid
  let typ := beAt frame 1 1
  let ep := beAt frame 2 1
  let seq := beAt frame 4 4
  let len := beAt frame 8 2
  let hd := frame.take 12
  let box := (frame.drop 12).take (len + 16)
  let cls := if typ = 0x20 then 0 else 1
  let nonce := sessNonce 1 cls ep seq
  let s := h.sess u
  if st = ssIdle then
    -- LEAVE_ACK for a session the module closed (R375)
    match s.closing with
    | some (e, key) =>
      if typ = 0x31 ∧ e = ep ∧ (gcmOpen key nonce hd box).isSome then
        (h.bump .sessFramesIn port).updSess u fun s => { s with closing := none }
      else h.sessMalformedFrame port lid
    | none => h.sessMalformedFrame port lid
  else if typ = 0x06 ∧ st = ssChallenged then
    -- RESUME (R380)
    let opened := match h.keyFor u ep with
      | some (.current, key) => gcmOpen key nonce hd box
      | _ => none
    match opened with
    | none => h.resumeInvalid port lid
    | some body =>
      if beAt body 0 4 ≠ s.chalId then (h.bump .sessReplay port).sessErr port lid
      else if s.parked ∧ !h.flag .sessSStateNoResume u ∧ slice body 4 32 = s.nonce ∧ some (slice body 36 16) = s.rtoken then
        ((h.bump .sessFramesIn port).updSess u fun s => { s with upCseq := some seq }).sessResumed port lid
      else h.resumeInvalid port lid
  else if h.getF .sessSStateKepoch u = 0 ∨ st = ssChallenged then h.sessMalformedFrame port lid
  else match h.keyFor u ep with
  | none =>
    let h := (h.bump .sessStale port).updSess u fun s => { s with staleRun := s.staleRun + 1 }
    let h := if 8 ≤ (h.sess u).staleRun then
        (h.updSess u fun s => { s with staleRun := 0 }).sendDown port (h.tport port).tf (h.sess u).keyFrame
      else h
    h.sessErr port lid
  | some (use, key) =>
    match gcmOpen key nonce hd box with
    | none => (h.bump .sessTagFail port).sessErr port lid
    | some body =>
      let fresh := match s.upCseq with
        | some c => precedes c seq
        | none => true
      if cls = 1 ∧ !fresh then (h.bump .sessReplay port).sessErr port lid
      else if !upBodyOk typ body then h.sessMalformedFrame port lid
      else
        let h := h.bump .sessFramesIn port
        let h := (h.updSess u fun s =>
          { s with staleRun := 0, upCseq := if cls = 1 then some seq else s.upCseq
                   blocksUp := s.blocksUp + gcmBlocks body.length }).setBlocks u
        let h := h.keyProved port lid use
        if typ = 0x20 then h.takeData port lid seq body else h.sessMessage port lid typ body

/-- One session frame from a unit (R373, R375, R389): `frame` is header, payload and trailer, whole. -/
def Hall.sessFrame (h : Hall) (port : Nat) (frame : Bytes) : Hall :=
  let lid := beAt frame 0 1
  let typ := beAt frame 1 1
  let ep := beAt frame 2 1
  let flags := beAt frame 3 1
  let len := beAt frame 8 2
  if 127 < lid ∨ !(h.tport port).cfg.enable then h
  else if frame.length ≠ 12 + len + (if ep = 0 then 2 else 16) ∨ beAt frame 10 2 ≠ 0 ∨ 1 < flags ∨ 16384 < len ∨
      (flags = 1 ∧ typ ≠ 0x02) then h.sessMalformedFrame port lid
  else if ep = 0 then
    let body := (frame.drop 12).take len
    if crc16 (frame.take (12 + len)) ≠ beAt frame (12 + len) 2 ∨ beAt frame 4 4 ≠ 0 then h.sessMalformedFrame port lid
    else if typ = 0x02 ∧ 4 ≤ len then
      if ssBinding ≤ h.ssState port lid ∧ h.ssState port lid ≠ ssRechallenge then h.sessMalformedFrame port lid
      else h.sessCert port lid flags body
    else if typ = 0x03 ∧ len = 516 then h.sessResponse port lid body
    else h.sessMalformedFrame port lid
  else match upTypeLen typ with
    | none => h.sessMalformedFrame port lid
    | some none => h.sessSealed port lid frame
    | some (some n) => if len = n then h.sessSealed port lid frame else h.sessMalformedFrame port lid

/-- The command of one frame type: a frame of another type is another command's. -/
def State.sessCommand (s : State) (port typ : Nat) (frame : Bytes) : Host.Outcome State Fault Refusal :=
  s.run fun h => if beAt frame 1 1 = typ then h.sessFrame port frame else h

def execCert (port : Fin 8) (frame : Bytes) (s : State) : Host.Outcome State Fault Refusal := s.sessCommand port.val 0x02 frame
def execResponse (port : Fin 8) (frame : Bytes) (s : State) : Host.Outcome State Fault Refusal := s.sessCommand port.val 0x03 frame
def execResume (port : Fin 8) (frame : Bytes) (s : State) : Host.Outcome State Fault Refusal := s.sessCommand port.val 0x06 frame
def execKeyAck (port : Fin 8) (frame : Bytes) (s : State) : Host.Outcome State Fault Refusal := s.sessCommand port.val 0x10 frame
def execBindAck (port : Fin 8) (frame : Bytes) (s : State) : Host.Outcome State Fault Refusal := s.sessCommand port.val 0x12 frame
def execData (port : Fin 8) (frame : Bytes) (s : State) : Host.Outcome State Fault Refusal := s.sessCommand port.val 0x20 frame
def execLeave (port : Fin 8) (frame : Bytes) (s : State) : Host.Outcome State Fault Refusal := s.sessCommand port.val 0x30 frame
def execLeaveAck (port : Fin 8) (frame : Bytes) (s : State) : Host.Outcome State Fault Refusal := s.sessCommand port.val 0x31 frame

/-! ### Timers (R381, R385–R388) -/

/-- SESS_RESP_TIMEOUT: the guarded message again, or the lapse of Table 15.4. -/
def execSessRespTimeout (port : Fin 8) (lid : Fin 128) (s : State) : Host.Outcome State Fault Refusal :=
  s.run fun h =>
    let u := lidUnit port.val lid.val
    let st := h.ssState port.val lid.val
    match (h.sess u).guarded with
    | none => h
    | some f =>
      if (h.sess u).resends < max 1 (h.tport port.val).sessRetries then
        (h.updSess u fun s => { s with resends := s.resends + 1 }).sendDown port.val (h.tport port.val).tf f
      else if st = ssChallenged then h.quarantine port.val lid.val 4
      else if st = ssKeying ∨ st = ssBinding then h.sessEnd port.val lid.val 3
      else if st = ssRekey then h.sessEnd port.val lid.val 4
      else if st = ssRechallenge then (h.ordinary .sessError u 5).sessEnd port.val lid.val 5
      else h

/-- SESS_PARK_EXPIRE: PARK_MAX_S passes. -/
def execSessParkExpire (port : Fin 8) (lid : Fin 128) (s : State) : Host.Outcome State Fault Refusal :=
  s.run fun h =>
    let u := lidUnit port.val lid.val
    if !(h.sess u).parked then h
    else
      let was := h.ssState port.val lid.val
      let h := h.dropParked port.val lid.val 2
      if was = ssParked then
        let h := h.sessIdle port.val lid.val
        if h.lidState port.val lid.val = lidLost then h.freeLid port.val lid.val else h
      else h

/-- SESS_REKEY_TRIGGER: a limit of R386 is reached. A parked session or one that is challenged again rekeys later
(Table 15.8). -/
def execSessRekeyTrigger (port : Fin 8) (lid : Fin 128) (s : State) : Host.Outcome State Fault Refusal :=
  s.run fun h =>
    let u := lidUnit port.val lid.val
    let st := h.ssState port.val lid.val
    if st = ssRun then h.startRekey port.val lid.val
    else if st = ssRechallenge ∨ (h.sess u).parked then h.updSess u fun s => { s with rekeyWaits := true }
    else h

/-- SESS_HOLE_SKIP: BASE is missing behind a held frame and is skipped (R385). -/
def execSessHoleSkip (port : Fin 8) (lid : Fin 128) (s : State) : Host.Outcome State Fault Refusal :=
  s.run fun h =>
    let p := port.val
    let l := lid.val
    let k := h.spaceKey p l
    if (h.space k).held = [] then h
    else
      let q := (h.space k).next
      let h := h.updSpace k fun x => { x with next := (q + 1) % 2 ^ 32, skipped := (x.skipped ++ [q]).drop (x.skipped.length + 1 - 4096) }
      let h := h.bump .sessSkipped p
      let h := (h.space k).bindings.foldl (fun h b => h.vdecGap b.2 p l b.1 (h.lidShared p l)) h
      (h.passHeld p l ((h.space k).held.length)).setBase p l

/-- SESS_OLD_EPOCH_EXPIRE: 64 tree frames after a rekey (R387). -/
def execSessOldEpochExpire (port : Fin 8) (lid : Fin 128) (s : State) : Host.Outcome State Fault Refusal :=
  s.run fun h => h.updSess (lidUnit port.val lid.val) fun s => { s with prevKey := [], prevEpoch := 0 }

/-! ### SESS commands (R391) -/

/-- The LID of a command: PORT and LID at the payload's start, when valid. -/
def sessTarget (c : TillCmd) : Option (Nat × Nat) :=
  if c.arg 0 1 ≤ 7 ∧ c.arg 1 1 ≤ 127 then some (c.arg 0 1, c.arg 1 1) else none

/-- Secure-only: the LID is leased by P0 (R391). -/
def sessForP0 (c : TillCmd) (h : Hall) : Bool :=
  match sessTarget c with
  | some (p, l) => decide (h.lidPen p l = some 0)
  | none => false

/-- The sessions a command applies to: both for a dual-homed LID. -/
def Hall.sessPorts (h : Hall) (p l : Nat) : List Nat := if h.lidDual p l then [p, twinPort p] else [p]

/-- Checks the LID of a SESS command and goes on. -/
def sessChecked (c : TillCmd) (h : Hall) (n : Nat) (f : Nat → Nat → Answer) : Answer :=
  if c.length ≠ n then refuse h stBadArg
  else match sessTarget c with
    | none => refuse h stBadArg
    | some (p, l) => if h.lidPen p l ≠ some c.pen then refuse h stNotPermitted else f p l

/-- Status codes of this chapter (R392). -/
def stStreamBound : Nat := 0x0520
def stNoSession : Nat := 0x0521

/-- A changed binding is sent at once in RUN (R382). -/
def Hall.rebind (h : Hall) (p l : Nat) : Hall :=
  (h.sessPorts p l).foldl (fun h q => if h.ssState q l = ssRun then h.sendBind q l false else h) h

def sessBind (c : TillCmd) (h : Hall) : Answer :=
  sessChecked c h 4 fun p l =>
    let stream := c.arg 2 1
    let e := c.arg 3 1
    let k := h.spaceKey p l
    if 7 < stream ∨ 15 < e then refuse h stBadArg
    else if (Tab.find (h.space k).bindings stream).isSome then refuse h stStreamBound
    else if h.share e c.pen = 0 ∨ (h.lidShared p l ∧ (h.space k).bindings ≠ [] ∧ engineHub e ≠ h.deliveringHub p l) then
      refuse h stNotPermitted
    else okWith ((h.updSpace k fun x => { x with bindings := Tab.set x.bindings stream e }).rebind p l)

def execSessBind (till : Fin 128) (s : State) : Host.Outcome State Fault Refusal := s.till till.val 0x0701 sessForP0 sessBind

def sessUnbind (c : TillCmd) (h : Hall) : Answer :=
  sessChecked c h 3 fun p l =>
    let stream := c.arg 2 1
    let k := h.spaceKey p l
    match Tab.find (h.space k).bindings stream with
    | none => refuse h stBadArg
    | some e =>
      let h := h.vdecFlush e p l stream (h.lidShared p l)
      okWith ((h.updSpace k fun x => { x with bindings := Tab.erase x.bindings stream }).rebind p l)

def execSessUnbind (till : Fin 128) (s : State) : Host.Outcome State Fault Refusal := s.till till.val 0x0702 sessForP0 sessUnbind

def sessClose (c : TillCmd) (h : Hall) : Answer :=
  sessChecked c h 2 fun p l =>
    let live := (h.sessPorts p l).filter fun q => h.ssState q l ≠ ssIdle
    if live = [] then refuse h stNoSession
    else okWith (live.foldl (fun h q => h.sessEnd q l 1) h)

def execSessClose (till : Fin 128) (s : State) : Host.Outcome State Fault Refusal := s.till till.val 0x0703 sessForP0 sessClose

/-- BUSY unless every session of the LID is in RUN; a dual-homed LID's operation ends with its first session's outcome. -/
def sessInRun (c : TillCmd) (h : Hall) (f : Nat → Nat → Hall → Nat → Hall) : Answer :=
  sessChecked c h 2 fun p l =>
    if (h.sessPorts p l).all fun q => h.ssState q l = ssRun then
      acceptOp h c fun k h => (h.sessPorts p l).foldl (fun h q => f q l h k) h
    else refuse h stBusy

def sessRekey (c : TillCmd) (h : Hall) : Answer :=
  sessInRun c h fun q l h k =>
    (h.startRekey q l).updSess (lidUnit q l) fun s => { s with rekeyOps := s.rekeyOps ++ [k] }

def execSessRekey (till : Fin 128) (s : State) : Host.Outcome State Fault Refusal := s.till till.val 0x0704 sessForP0 sessRekey

def sessChallenge (c : TillCmd) (h : Hall) : Answer :=
  sessInRun c h fun q l h k =>
    (h.suspectSess q l 3).updSess (lidUnit q l) fun s => { s with chalOps := s.chalOps ++ [k] }

def execSessChallenge (till : Fin 128) (s : State) : Host.Outcome State Fault Refusal :=
  s.till till.val 0x0705 sessForP0 sessChallenge

/-- SESS_QUERY: for a dual-homed LID, the session of the port named. -/
def sessQuery (c : TillCmd) (h : Hall) : Answer :=
  sessChecked c h 2 fun p l =>
    let u := lidUnit p l
    let b := (h.space (h.spaceKey p l)).bindings
    okWith h (leBytes 1 (h.ssState p l) ++ leBytes 1 (h.getF .sessSStateKepoch u) ++ leBytes 1 (h.boundMap p l) ++
      leBytes 1 (h.getF .sessSStateBound u) ++ leBytes 2 (h.getF .sessSStateWin u) ++ leBytes 4 (h.getF .sessSUseqBase u) ++
      leBytes 4 (h.getF .sessSUseqHigh u) ++ slice ((h.lid u).bound.getD []) 0 16 ++
      (List.range 8).map fun i => BitVec.ofNat 8 (Tab.get 255 b i))

def execSessQuery (till : Fin 128) (s : State) : Host.Outcome State Fault Refusal := s.till till.val 0x0706 sessForP0 sessQuery

/-! ### Other chapters' uses -/

/-- Pen reset: the bindings of a pen's LIDs on a port go, and a BIND with no streams is sent (Table 15.8). -/
def Hall.sessUnbindOn (h : Hall) (p pen : Nat) : Hall :=
  upTo 128 h fun h l =>
    if h.lidPen p l = some pen ∧ (h.space (h.spaceKey p l)).bindings ≠ [] then
      (h.updSpace (h.spaceKey p l) fun x => { x with bindings := [] }).rebind p l
    else h

/-- The same on every port. -/
def Hall.sessUnbindPen (h : Hall) (pen : Nat) : Hall := upTo 8 h fun h p => h.sessUnbindOn p pen

/-- The governing role moves during a handshake: the last handshake message again (Table 15.8). -/
def Hall.sessRoleMoved (h : Hall) : Hall :=
  upTo 8 h fun h p => upTo 128 h fun h l =>
    match (h.sess (lidUnit p l)).guarded with
    | some f => (h.updSess (lidUnit p l) fun s => { s with resends := 0 }).sendDown p (h.tport p).tf f
    | none => h

/-- An ENDPOINT key is removed: sessions it anchored end with REASON 8 (R430). -/
def Hall.sessAnchorGone (h : Hall) (slot : Nat) : Hall :=
  upTo 8 h fun h p => upTo 128 h fun h l =>
    let u := lidUnit p l
    if h.getF .sessSStateKepoch u ≠ 0 ∧ (h.sess u).anchor = slot then h.sessEnd p l 8 else h

/-- Session port counters (Table 15.13). -/
def sessCtrs : List Ctr :=
  [.sessFramesIn, .sessTagFail, .sessMalformed, .sessOow, .sessDup, .sessReplay, .sessStale, .sessSkipped,
   .sessResumeFail, .sessAuthFail, .sessUnbound]

/-- SESS_CLEAR.STATS, at the next superframe (R393). -/
def execSessClearStats (req : Requester) (port : Fin 8) (s : State) : Host.Outcome State Fault Refusal :=
  s.board req fun h => h.updPortT port.val fun p => { p with clearSess := true }

end Sys2Proof.Machine
end

