-- ==== Sys2Proof/Machine/Tree.lean ====
section
/-! DEFINITION. The tree access layer (chapter 14): downstream frames, upstream bursts, the auction, joining and ranging,
misses, clones, stray light and silencing sweeps, TREE commands. -/

namespace Sys2Proof.Machine

/-! ### Configuration in force (R371, R393) -/

/-- TREE_CFG as written, with its clamps (Table 14.15). -/
def Hall.treeCfg (h : Hall) (p : Nat) : TreeCfg :=
  { errThresh := h.getF .treeCfgErrThresh p, missLimit := max 1 (h.getF .treeCfgMissLimit p)
    strayThresh := max 1 (h.getF .treeCfgStrayThresh p), bidStart := h.getF .treeCfgBidStart p
    bidSlots := clampNat 8 64 (h.getF .treeCfgBidSlots p), spreadG := min 960 (h.getF .treeCfgSpreadG p)
    autoSweep := h.flag .treeCfgAutoSweep p, enable := h.flag .treeCfgEnable p }

/-- Tree port counters (Table 14.16). -/
def treeCtrs : List Ctr :=
  [.treeBursts, .treeCw, .treeCwCorr, .treeCwUncorr, .treeBids, .treeCollisions, .treeStrayGrains, .treeDupDropped,
   .treeJoinRefused]

/-- Clears TREE_STRAY_LAST. -/
def Hall.clearStrayLast (h : Hall) (p : Nat) : Hall :=
  h.clearFs p [.treeStrayLastValid, .treeStrayLastSuspect, .treeStrayLastHasSuspect, .treeStrayLastGrains,
    .treeStrayLastStart, .treeStrayLastTflo]

/-- SESS_CFG and the clears take effect at a superframe's start (R371, R393). -/
def Hall.portSuperframe (h : Hall) (p : Nat) : Hall :=
  let t := h.tport p
  let h := if t.clearStats then h.clearCtrs p treeCtrs else h
  let h := if t.clearLast then h.clearStrayLast p else h
  let h := if t.clearSess then h.clearCtrs p sessCtrs else h
  h.updPortT p fun t =>
    { t with cfg := h.treeCfg p, clearStats := false, clearLast := false, clearSess := false
             sessErrThresh := h.getF .sessCfgErrThresh p, sessWin := h.getF .sessCfgWin p, sessRetries := max 1 (h.getF .sessCfgRetries p) }

/-- Ends every LID and session of a port that is disabled (Table 14.8, Table 15.4). -/
def Hall.portRelease (h : Hall) (p : Nat) : Hall :=
  upTo 128 h fun h l =>
    if h.lidState p l = lidFree then h
    else if h.ssState p l = ssIdle then h.freeLid p l else h.sessEnd p l 7

/-- A port goes out of service: its LIDs end, a sweep ends, and UP and LOCK are published clear. -/
def Hall.portDisable (h : Hall) (p : Nat) : Hall :=
  let h := h.portRelease p
  let h := match (h.tport p).sweep with
    | some s => match s.op with
      | some k => h.closeOp k stOK
      | none => h
    | none => h
  (h.updPortT p fun t => { t with cfg := { t.cfg with enable := false }, sweep := none }).clearFs p
    [.treeStatusUp, .treeStatusLock, .treeStatusSweep]

/-! ### Grant maps (R355, R356) -/

/-- GRANTS section type (Table 7.2). -/
def secGrants : Nat := 8

/-- Entry of a GRANTS section at index i: port and grant. -/
def grantAt (d : Bytes) (i : Nat) : Nat × MapGrant :=
  let o := 16 + 8 * i
  (leAt d o 1 % 8, { frame := leAt d (o + 1) 1 % 8, lid := leAt d (o + 2) 1 % 128, start := leAt d (o + 4) 2 % 2048, len := leAt d (o + 6) 2 % 2048 })

/-- Grants of an image on a port. -/
def imageGrants (im : Image) (port : Nat) : List MapGrant :=
  (im.sections.filter fun (s : Section) => s.typ = secGrants).flatMap fun (s : Section) =>
    ((List.range (leAt s.data 0 4)).map fun i => grantAt s.data i).filterMap fun g => if g.1 = port then some g.2 else none

/-- The active map of a port: the grants of ACTIVE images whose pens hold leases on it. -/
def Hall.activeMap (h : Hall) (port : Nat) : List MapGrant :=
  (h.data.images.filter fun i => decide (i.2.state = .active) &&
    (h.tport port).leases.any fun (l : Lease) => l.pen = i.2.pen).flatMap fun i => imageGrants i.2 port

/-! ### Clones (R363) -/

/-- A clone event of a LID: the established session is challenged again; within 1 s (8,000 tree frames) a further one is
counted in EP_ERR's place only, not reported. -/
def Hall.clone (h : Hall) (port lid grain : Nat) (offset : Int) : Hall :=
  let u := lidUnit port lid
  let tf := (h.tport port).tf
  let again := match (h.lid u).cloneTf with
    | some t => decide (tf < t + 8000)
    | none => false
  if again then h
  else
    let h := h.updLid u fun l => { l with cloneTf := some tf }
    let h := h.lidEvent port lid 0x0603 (leBytes 2 grain ++ leBytes 4 (ofSigned 32 offset))
    (h.ordinary .clone u grain).suspectSess port lid 2

/-! ### Bids (R357–R360) -/

/-- BID_RESULT for a bid. -/
def Hall.bidResult (h : Hall) (port : Nat) (b : BidRec) (lid outcome : Nat) : Hall :=
  h.pushEntry port (h.tport port).tf (entryWord 2 lid (b.slot % 64 * 2 ^ 47 + b.nonce % 2 ^ 32 * 2 ^ 15 + outcome * 2 ^ 12))

/-- LIDs of a port in ascending order. -/
def lids : List Nat := List.range 128

/-- The LID that an IDENT is bound to, in any state but FREE. -/
def Hall.boundLid (h : Hall) (port : Nat) (ident : Bytes) : Option Nat :=
  lids.find? fun l => h.lidState port l ≠ lidFree ∧ (h.lid (lidUnit port l)).bound = some ident

/-- The LID given to an accepted JOIN (R360). -/
def Hall.joinLid (h : Hall) (port : Nat) (ident : Bytes) : Option Nat :=
  match lids.find? fun l => (h.lid (lidUnit port l)).ident = some ident with
  | some l => if h.lidState port l = lidFree then some l else none
  | none => lids.find? fun l => h.lidState port l = lidFree ∧ (h.lid (lidUnit port l)).ident = none

/-- A JOIN is answered; the number of JOINs accepted in its window so far goes along (R358, R360, R363). -/
def Hall.answerJoin (h : Hall) (port jeqd : Nat) (b : BidRec) (accepted : Nat) : Nat × Hall :=
  let no := fun (h : Hall) => (accepted, h.bidResult port b 0x7F 2)
  let place := fun (h : Hall) (lid : Nat) =>
    -- EQD := JOIN_EQD − δ, δ in half nanoseconds
    let eqd2 : Int := 2 * (jeqd : Int) - b.delta
    if eqd2 < 32000 then no (h.bump .treeJoinRefused port)
    else
      let u := lidUnit port lid
      let h := (h.setF .epStateEqd u (eqd2 / 2).toNat).setLid port lid lidRanging
      let h := h.updLid u fun l => { l with bound := some b.ident, fails := 0, offsets := [], misses := 0 }
      let h := (h.bidResult port b lid 0).sendEqd port lid
      (accepted + 1, h.updPortT port fun t => { t with ranges := t.ranges ++ [lid] })
  if 4 ≤ accepted then no h
  else match h.boundLid port b.ident with
  | some l =>
    let st := h.lidState port l
    if st = lidLost then place h l
    else if st = lidRanging ∨ st = lidAuth ∨ st = lidActive then no (h.clone port l b.grain b.offset)
    else no h
  | none => match h.joinLid port b.ident with
    | some l => place h l
    | none => no (h.bump .treeJoinRefused port)

/-- A REQUEST is answered (R358, R362). -/
def Hall.answerRequest (h : Hall) (port : Nat) (b : BidRec) : Hall :=
  if b.lid ≤ 127 ∧ h.lidState port b.lid = lidActive ∧ 13 ≤ b.grains ∧ b.grains ≤ 32 then
    (h.bidResult port b b.lid 1).updPortT port fun t => { t with requests := t.requests ++ [(b.lid, b.grains)] }
  else h.bidResult port b (b.lid % 128) 2

/-- Bids sorted by slot. -/
def insertBid (b : BidRec) : List BidRec → List BidRec
  | [] => [b]
  | c :: rest => if b.slot < c.slot then b :: c :: rest else c :: insertBid b rest

/-- First header that leaves at least 25 µs after the window of upstream frame `f` ends (R358): f + 3, or f + 4 where the
window ends within 25 µs of that header. -/
def answerTf (f : Nat) (w : Nat × Nat × Nat × Nat) : Nat := if w.1 + 16 * w.2.1 + w.2.2.1 ≤ 1600 then f + 3 else f + 4

/-- Answers the bids of upstream frames whose answer is due in the next header. -/
def Hall.answerBids (h : Hall) (port : Nat) : Hall :=
  (h.tport port).up.foldl (fun h f => match f.2.window with
    | some w =>
      if answerTf f.1 w ≤ (h.tport port).tf ∧ f.2.bids ≠ [] then
        let sorted := f.2.bids.foldl (fun l b => insertBid b l) []
        let h := h.updPortT port fun t => { t with up := Tab.set t.up f.1 { f.2 with bids := [] } }
        (sorted.foldl (fun acc b => if b.join then acc.2.answerJoin port w.2.2.2 b acc.1 else (acc.1, acc.2.answerRequest port b)) (0, h)).2
      else h
    | none => h) h

/-! ### Downstream frames (R349, R350, R356, R377) -/

/-- GRANT and RANGE entries. -/
def grantWord (g : UpGrant) : Nat :=
  entryWord (if g.kind = .range then 3 else 1) g.lid (g.start * 2 ^ 42 + g.len * 2 ^ 31)

/-- Map grants of a frame: only for ACTIVE LIDs, from their first superframe, outside a sweep's silence (R356). -/
def Hall.mapGrants (h : Hall) (port tf : Nat) : List UpGrant :=
  ((h.tport port).map.filter fun (g : MapGrant) => decide (g.frame = tf % 8) && decide (h.lidState port g.lid = lidActive) &&
    decide ((h.lid (lidUnit port g.lid)).grantFrom ≤ tf) && decide ((h.lid (lidUnit port g.lid)).silentTo ≤ tf)).map
    fun (g : MapGrant) => { kind := .map, lid := g.lid, start := g.start, len := g.len }

/-- The next session that shares the handshake grants, round-robin by LID (R377): CHALLENGED, its CHALLENGE sent or in
this frame, no answer yet. -/
def Hall.handshakeLid (h : Hall) (port : Nat) : Option Nat :=
  let want := fun l => h.ssState port l = ssChallenged ∧ !(h.sess (lidUnit port l)).answered ∧
    !((h.tport port).down.any fun d => decide ((h.tport port).tf < d.1) && decide (beAt d.2 0 1 = l) && decide (beAt d.2 1 1 = 1))
  let last := (h.tport port).hsLast
  (lids.map fun i => (last + 1 + i) % 128).find? fun l => want l

/-- Service area of a frame (R348, R377): ranging first, then REQUEST grants, then a handshake grant; every frame with
TF mod 8 = 4 is kept for handshakes. -/
def Hall.serviceGrants (h : Hall) (port tf : Nat) : List UpGrant × Hall :=
  let t := h.tport port
  let ranges := if tf % 8 = 4 then [] else t.ranges.take 2
  let rg : List UpGrant := ranges.zipIdx.map fun x => { kind := .range, lid := x.1, start := 1968 + 16 * x.2, len := 16 }
  let h := h.updPortT port fun t => { t with ranges := t.ranges.drop ranges.length }
  let used := 16 * ranges.length
  let ask := if tf % 8 = 4 then none else
    match (h.tport port).requests with
    | (l, n) :: _ => if used + n ≤ 32 then some (l, n) else none
    | [] => none
  let (qg, used, h) := match ask with
    | some (l, n) =>
      let h := h.updPortT port fun t => { t with requests := t.requests.drop 1 }
      if h.lidState port l = lidActive then
        (([{ kind := .request, lid := l, start := 1968 + used, len := n }] : List UpGrant), used + n, h)
      else ([], used, h)
    | none => ([], used, h)
  if used = 0 then
    match h.handshakeLid port with
    | some l =>
      ([{ kind := .handshake, lid := l, start := 1968, len := 32 }], h.updPortT port fun t => { t with hsLast := l })
    | none => ([], h)
  else (rg ++ qg, h)

/-- Session frames that fit a downstream frame behind its header, in order. -/
def fitFrames : List (Nat × Bytes) → Nat → Nat → List Bytes × List (Nat × Bytes)
  | [], _, _ => ([], [])
  | (t, f) :: rest, tf, room =>
    if t ≤ tf ∧ f.length ≤ room then
      let (out, keep) := fitFrames rest tf (room - f.length)
      (f :: out, keep)
    else
      let (out, keep) := fitFrames rest tf room
      (out, (t, f) :: keep)

/-- ACKs due in the next downstream frame (R383). -/
def Hall.dueAcks (h : Hall) (port : Nat) : Hall :=
  lids.foldl (fun h l =>
    let st := h.ssState port l
    let s := h.sess (lidUnit port l)
    let tf := (h.tport port).tf
    let due := (s.ackDue.any fun t => decide (t ≤ tf)) || ([ssRun, ssRekey, ssRechallenge].contains st && decide (s.lastAck + 64 ≤ tf))
    if due && decide (h.getF .sessSStateKepoch (lidUnit port l) ≠ 0) then h.sendAck port l else h) h

/-- TREE_FRAME: the port sends downstream frame TF. -/
def execTreeFrame (port : Fin 8) (s : State) : Host.Outcome State Fault Refusal :=
  s.run fun h =>
    let p := port.val
    let tf := (h.tport p).tf
    let h := if tf % 8 = 0 then
        let was := (h.tport p).cfg.enable
        let h := h.portSuperframe p
        let now := (h.tport p).cfg.enable
        let h := if was && !now then h.portDisable p else h
        let h := if now then h.setFs p [(.treeStatusUp, 1), (.treeStatusLock, 1)] else h
        h.updPortT p fun t => { t with map := h.activeMap p }
      else h
    let next := fun (h : Hall) => h.updPortT p fun t => { t with tf := (tf + 1) % 2 ^ 32 }
    if !(h.tport p).cfg.enable then next (h.updPortT p fun t => { t with up := Tab.set t.up tf {} })
    else
      let h := (h.answerBids p).dueAcks p
      let cfg := (h.tport p).cfg
      let auction := decide (tf % 8 = 0)
      let slots := min 64 (cfg.bidSlots * (h.tport p).boost.1)
      let h := if auction then
          h.updPortT p fun t => { t with boost := if t.boost.2 ≤ 1 then (1, 0) else (t.boost.1, t.boost.2 - 1) }
        else h
      let (service, h) := h.serviceGrants p tf
      let grants := h.mapGrants p tf ++ service
      let t := h.tport p
      let ready := (t.entries.filter fun e => decide (e.1 ≤ tf)).take (512 - grants.length)
      let later := t.entries.filter (fun e => !decide (e.1 ≤ tf)) |>.append
        ((t.entries.filter fun e => decide (e.1 ≤ tf)).drop (512 - grants.length))
      let words := ready.map (·.2) ++ grants.map grantWord
      let jeqd := 250000 - t.rttMin
      let head := beBytes 4 tf ++ beBytes 2 t.treeId ++ beBytes 1 (b2n auction + 2 * b2n t.sweep.isSome) ++
        beBytes 1 (if auction then slots else 0) ++ beBytes 2 words.length ++ beBytes 2 cfg.bidStart ++ beBytes 4 jeqd ++
        words.flatMap (beBytes 8)
      let head := head ++ beBytes 2 (crc16 head)
      let head := slice head 0 ((head.length + 7) / 8 * 8)
      let (frames, keep) := fitFrames t.down tf (320000 - 1 - head.length)
      let up : UpFrame := { grants := grants
                            window := if auction then some (cfg.bidStart, slots, cfg.spreadG, jeqd) else none }
      let h := h.updPortT p fun t =>
        { t with entries := later, down := keep
                 up := (Tab.set t.up tf up).filter fun f => decide (tf < f.1 + 16) }
      next (h.emit (.treeFrame p tf head frames))

/-! ### Upstream bursts (R352, R353) -/

/-- The upstream frame being received. -/
def Hall.upFrame (h : Hall) (p : Nat) : UpFrame := Tab.get {} (h.tport p).up (h.tport p).upTf
def Hall.updUp (h : Hall) (p : Nat) (f : UpFrame → UpFrame) : Hall :=
  h.updPortT p fun t => { t with up := Tab.set t.up t.upTf (f (Tab.get {} t.up t.upTf)) }

/-- Arrival past a grain, in half nanoseconds. -/
def pastGrain (b : Burst) (start : Nat) : Int := (b.grain : Int) * 125 - (start : Int) * 125 + 2 * b.offsetNs

/-- Mean of a list of integers, toward negative infinity; 0 of none. -/
def meanInt (l : List Int) : Int := if l = [] then 0 else l.sum / (l.length : Int)

/-- Records an arrival offset: after eight, OFFSET is their mean, and EQD_SET follows when it exceeds 16 ns (R353). -/
def Hall.noteOffset (h : Hall) (port lid : Nat) (ns : Int) : Hall :=
  let u := lidUnit port lid
  let l := ((h.lid u).offsets ++ [ns])
  let l := l.drop (l.length - 8)
  let h := h.updLid u fun x => { x with offsets := l }
  let m := meanInt l
  let h := h.setF .epStateOffset u (ofSigned 10 m)
  if l.length = 8 ∧ (16 < m ∨ m < -16) then
    let h := h.setF .epStateEqd u (((h.getF .epStateEqd u : Nat) : Int) - m).toNat
    (h.updLid u fun x => { x with offsets := [] }).sendEqd port lid
  else h

/-- A ranging burst that fails, or none: new EQD_SET and RANGE, and RELEASE_LID at the third failure (Table 14.8). -/
def Hall.rangeFailed (h : Hall) (port lid : Nat) : Hall :=
  let u := lidUnit port lid
  let n := (h.lid u).fails + 1
  if 3 ≤ n then
    h.freeLid port lid
  else
    let h := (h.updLid u fun l => { l with fails := n }).sendEqd port lid
    h.updPortT port fun t => { t with ranges := t.ranges ++ [lid] }

/-- Session frames of a burst's payload with their offsets; the last one is `none` where its LEN runs beyond the end. -/
def splitFrames : Nat → Bytes → Nat → List (Nat × Option Bytes)
  | 0, _, _ => []
  | n + 1, b, o =>
    if b.length ≤ o ∨ beAt b o 1 = 0xFF then []
    else
      let len := 12 + beAt b (o + 8) 2 + (if beAt b (o + 2) 1 = 0 then 2 else 16)
      if b.length < o + 12 ∨ b.length < o + len then [(o, none)]
      else (o, some (slice b o len)) :: splitFrames n b (o + len)

/-- A bid burst (R357, R358). -/
def Hall.takeBid (h : Hall) (p : Nat) (b : Burst) (lid plen : Nat) : Hall :=
  let f := h.upFrame p
  let msg := slice b.content 8 32
  let collide := fun (h : Hall) =>
    (h.bump .treeCollisions p).updUp p fun f => { f with collided := if f.collided.contains b.slot then f.collided else f.collided ++ [b.slot] }
  match f.window with
  | none => h
  | some (start, slots, spread, _) =>
    if b.grain < start ∨ start + 16 * slots + spread ≤ b.grain ∨ slots ≤ b.slot then h
    else if plen ≠ 5 ∨ crc16 msg ≠ beAt b.content 40 2 then collide h
    else if beAt msg 1 3 ≠ 0 ∨ beAt msg 26 6 ≠ 0 ∨ (beAt msg 0 1 ≠ 1 ∧ beAt msg 0 1 ≠ 2) ∨ (beAt msg 0 1 = 1 ∧ beAt msg 24 2 ≠ 0) then collide h
    else
      let r : BidRec := { slot := b.slot, lid := lid, join := decide (beAt msg 0 1 = 1), nonce := beAt msg 4 4
                          ident := slice msg 8 16, grains := beAt msg 24 2, delta := pastGrain b (start + 16 * b.slot)
                          grain := b.grain, offset := b.offsetNs }
      (h.bump .treeBids p).updUp p fun f => { f with bids := f.bids ++ [r] }

/-- The grant whose grains a burst began in. -/
def grantFor (f : UpFrame) (grain : Nat) : Option UpGrant :=
  f.grants.find? fun (g : UpGrant) => decide (g.start ≤ grain) && decide (grain < g.start + g.len)

/-- TREE_BURST: an upstream burst is received (R353). -/
def execTreeBurst (port : Fin 8) (burst : Burst) (s : State) : Host.Outcome State Fault Refusal :=
  s.run fun h =>
    let p := port.val
    let t := h.tport p
    if !t.cfg.enable ∨ t.tf ≤ t.upTf then h
    else
      let f := h.upFrame p
      let g := grantFor f burst.grain
      let uncorr := burst.lost.length
      let h := (((h.bump .treeBursts p).bump .treeCw p burst.cwTotal).bump .treeCwCorr p burst.cwCorr)
      let headOk := decide (8 ≤ burst.content.length) && decide (crc16 (burst.content.take 6) = beAt burst.content 6 2) &&
        !(burst.lost.any fun r => decide (r.1 < 8) && decide (0 < r.2))
      let h := match g with
        | some g =>
          let h := h.bump .epCw (lidUnit p g.lid) burst.cwTotal
          h.epErr p g.lid uncorr
        | none => h
      if !headOk then
        -- a failed header (R353): counted as uncorrectable, and in EP_ERR of the granted LID
        let h := h.bump .treeCwUncorr p (max 1 uncorr)
        match g with
        | some g => (h.epErr p g.lid 1).updUp p fun f =>
            { f with grants := f.grants.map fun (x : UpGrant) => if x = g ∧ g.kind ≠ .range then { x with got := true } else x }
        | none => match f.window with
          | some (start, slots, spread, _) =>
            if start ≤ burst.grain ∧ burst.grain < start + 16 * slots + spread then
              (h.bump .treeCollisions p).updUp p fun f =>
                { f with collided := if f.collided.contains burst.slot then f.collided else f.collided ++ [burst.slot] }
            else h
          | none => h
      else
        let h := h.bump .treeCwUncorr p uncorr
        let lid := beAt burst.content 0 1
        let kind := beAt burst.content 1 1
        let plen := beAt burst.content 4 2
        let tfOk := decide (beAt burst.content 2 2 = t.upTf % 2 ^ 16)
        if kind = 1 then h.takeBid p burst lid plen
        else match g with
        | none =>
          -- a data burst in grains not granted to a LID that is not FREE (R363)
          if kind = 0 ∧ lid ≤ 127 ∧ h.lidState p lid ≠ lidFree then h.clone p lid burst.grain burst.offsetNs else h
        | some g =>
          let claim := fun (h : Hall) => h.updUp p fun f =>
            { f with grants := f.grants.map fun (x : UpGrant) => if x = g then { x with got := true } else x
                     ends := f.ends ++ [(g.start + g.len, g.lid)] }
          let half := pastGrain burst g.start
          let near := decide (-80 ≤ half) && decide (half ≤ 80)
          if g.kind = .range ∧ kind = 2 then
            if lid = g.lid ∧ tfOk ∧ !g.got ∧ h.lidState p lid = lidRanging then
              let h := claim h
              if near then
                let h := (h.updLid (lidUnit p lid) fun l => { l with fails := 0 }).setLid p lid lidAuth
                h.sessEnterAuth p lid
              else
                let u := lidUnit p lid
                let h := h.setF .epStateEqd u (((h.getF .epStateEqd u : Nat) : Int) - half / 2).toNat
                (h.epErr p lid 1).rangeFailed p lid
            else if lid = g.lid ∧ tfOk ∧ g.got then h.clone p lid burst.grain burst.offsetNs
            else h.epErr p g.lid 1
          else if kind ≠ 0 ∨ !tfOk ∨ lid ≠ g.lid ∨ g.kind = .range then
            let h := h.epErr p g.lid 1
            if kind = 0 ∧ lid ≠ g.lid ∧ lid ≤ 127 ∧ h.lidState p lid ≠ lidFree then h.clone p lid burst.grain burst.offsetNs else h
          else if g.got then h.clone p lid burst.grain burst.offsetNs
          else
            let h := claim h
            let h := h.updLid (lidUnit p lid) fun l => { l with misses := 0 }
            let h := if near then h else h.epErr p lid 1
            let h := h.noteOffset p lid (half / 2)
            let payload := slice burst.content 8 (min (plen * 8) (burst.content.length - 8))
            (splitFrames (payload.length + 1) payload 0).foldl (fun h x =>
              let stop := x.1 + match x.2 with
                | some fr => fr.length
                | none => 12
              let hit := burst.lost.any fun r => decide (r.1 < 8 + stop) && decide (8 + x.1 < r.1 + r.2)
              if hit then h
              else match x.2 with
                | some fr => if beAt fr 0 1 = lid then h.sessFrame p fr else h.sessMalformedFrame p lid
                | none => h.sessMalformedFrame p lid) h

/-! ### Sweeps (R365, R366) -/

/-- SILENCE for one superframe to the LIDs of a round; they are not granted meanwhile. -/
def Hall.silence (h : Hall) (p : Nat) (l : List Nat) : Hall :=
  l.foldl (fun h lid => (h.sendSilence p lid false 8).updLid (lidUnit p lid) fun x => { x with silentTo := (h.tport p).tf + 8 }) h

/-- The sweep ends: TREE_SWEEP_DONE, and the waiting sweep of the twin port may start. -/
def Hall.sweepDone (h : Hall) (p lid outcome : Nat) : Hall :=
  match (h.tport p).sweep with
  | none => h
  | some s =>
    let h := (h.updPortT p fun t => { t with sweep := none }).setF .treeStatusSweep p 0
    let h := h.lidEvent p lid 0x0607 (leBytes 1 outcome)
    match s.op with
    | some k => h.closeOp k stOK
    | none => h

/-- The next round of a sweep: half of the candidates, or the confirmation of the last one; no candidate ends it. -/
def Hall.sweepNext (h : Hall) (p : Nat) (s : Sweep) : Hall :=
  match s.cand with
  | [] => (h.updPortT p fun t => { t with sweep := some s }).sweepDone p 0 1
  | [l] => (h.updPortT p fun t => { t with sweep := some { s with half := [l], confirm := true } }).silence p [l]
  | c =>
    let half := c.take (c.length / 2)
    (h.updPortT p fun t => { t with sweep := some { s with half := half, confirm := false } }).silence p half

/-- Starts a sweep over the ACTIVE LIDs, the suspect first (R365); it waits while the twin port sweeps (R366). -/
def Hall.sweepStart (h : Hall) (p : Nat) (op : Option Nat) : Hall :=
  if (h.tport (twinPort p)).sweep.isSome then h.updPortT p fun t => { t with sweepWait := some op }
  else
    let act := lids.filter fun l => h.lidState p l = lidActive
    let sus := h.getF .treeStrayLastSuspect p
    let cand := if h.flag .treeStrayLastHasSuspect p && act.contains sus then sus :: act.filter (· ≠ sus) else act
    (h.setF .treeStatusSweep p 1).sweepNext p { cand := cand, op := op }

/-- A sweep of the twin port has ended: one that waited starts. -/
def Hall.sweepWake (h : Hall) (p : Nat) : Hall :=
  match (h.tport p).sweepWait with
  | some op =>
    if (h.tport (twinPort p)).sweep.isSome ∨ (h.tport p).sweep.isSome then h
    else (h.updPortT p fun t => { t with sweepWait := none }).sweepStart p op
  | none => h

/-- SWEEP_ROUND: the superframe of a round has passed; `stray` lists its stray grains. -/
def execSweepRound (port : Fin 8) (stray : List Nat) (s : State) : Host.Outcome State Fault Refusal :=
  s.run fun h =>
    let p := port.val
    match (h.tport p).sweep with
    | none => h
    | some w =>
      let seen := decide (stray ≠ [])
      if w.confirm then
        match w.half with
        | l :: _ =>
          if seen then (h.sweepDone p l 1).sweepWake (twinPort p)
          else
            let h := (h.sendSilence p l true 255).setLid p l lidSilenced
            let h := h.lidEvent p l 0x0604 (leBytes 2 (h.getF .treeStrayLastStart p) ++ leBytes 2 (h.getF .treeStrayLastGrains p))
            (h.sweepDone p l 0).sweepWake (twinPort p)
        | [] => (h.sweepDone p 0 1).sweepWake (twinPort p)
      else
        let cand := if seen then w.cand.filter fun l => !w.half.contains l else w.half
        let h := h.sweepNext p { w with cand := cand }
        if (h.tport p).sweep.isSome then h else h.sweepWake (twinPort p)

/-- The governing role moves: sweeps end UNLOCATED (Table 14.11). -/
def Hall.sweepsRoleMoved (h : Hall) : Hall :=
  upTo 8 h fun h p => (h.sweepDone p 0 1).sweepWake (twinPort p)

/-! ### The end of an upstream frame (R361, R364) -/

/-- A grain that a grant, a RANGE grant or the auction window covers. -/
def covered (f : UpFrame) (grain : Nat) : Bool :=
  (grantFor f grain).isSome || match f.window with
    | some (start, slots, spread, _) => decide (start ≤ grain) && decide (grain < start + 16 * slots + spread)
    | none => false

/-- A LID misses every grant of a frame (R361, Table 14.8). -/
def Hall.missFrame (h : Hall) (p lid : Nat) : Hall :=
  let u := lidUnit p lid
  let n := (h.lid u).misses + 1
  let h := h.updLid u fun l => { l with misses := n }
  if h.lidState p lid = lidActive ∧ (h.tport p).cfg.missLimit ≤ n then
    ((h.setLid p lid lidLost).lidEvent p lid 0x0606).sessLidLost p lid
  else h

/-- The burst that last ended at most 64 grains before a grain: its end and LID (R364). -/
def lastEnd (ends : List (Nat × Nat)) (first : Nat) : Option (Nat × Nat) :=
  ends.foldl (fun (best : Option (Nat × Nat)) (e : Nat × Nat) =>
    if first < e.1 ∨ 64 < first - e.1 then best
    else match best with
      | some b => if b.1 ≤ e.1 then some e else some b
      | none => some e) none

/-- UPSTREAM_FRAME_END: misses, collisions and stray light of the frame being received; `stray` lists its lit grains. -/
def execUpstreamFrameEnd (port : Fin 8) (stray : List Nat) (s : State) : Host.Outcome State Fault Refusal :=
  s.run fun h =>
    let p := port.val
    if (h.tport p).tf ≤ (h.tport p).upTf then h
    else
      let f := h.upFrame p
      let upTf := (h.tport p).upTf
      let bad := stray.filter fun g => decide (g < 2000) && !covered f g
      -- grants with no burst
      let h := f.grants.foldl (fun h (g : UpGrant) => if g.got ∨ g.kind = .range then h else h.bump .epMiss (lidUnit p g.lid)) h
      let asked := (f.grants.filter fun (g : UpGrant) => g.kind = .map ∨ g.kind = .request).map fun (g : UpGrant) => g.lid
      let silentLids := asked.eraseDups.filter fun l => !(f.grants.any fun (g : UpGrant) => decide (g.lid = l) && g.got)
      let h := silentLids.foldl (fun h l => h.missFrame p l) h
      let h := f.grants.foldl (fun h (g : UpGrant) =>
        if g.kind = .range ∧ !g.got ∧ h.lidState p g.lid = lidRanging then h.rangeFailed p g.lid else h) h
      -- collided slots (R359)
      let h := match f.window with
        | some (_, slots, _, _) =>
          if slots < 2 * f.collided.length then
            h.updPortT p fun t => { t with boost := (min 8 (2 * t.boost.1), 8) }
          else h
        | none => h
      -- stray light (R364)
      let h := h.bump .treeStrayGrains p bad.length
      let before := ((h.tport p).strayHist.filter id).length
      let hist := ((h.tport p).strayHist ++ [decide (bad ≠ [])])
      let hist := hist.drop (hist.length - 64)
      let now := (hist.filter id).length
      let th := (h.tport p).cfg.strayThresh
      let h := (h.updPortT p fun t => { t with strayHist := hist }).setB .treeStatusStray p (decide (th ≤ now))
      let h := match bad with
        | [] => h
        | first :: _ =>
          if th ≤ now ∧ before < th then
            let sus := lastEnd f.ends first
            let h := h.ordinary .stray p first
            let h := h.setFs p [(.treeStrayLastValid, 1), (.treeStrayLastSuspect, (sus.map Prod.snd).getD 0),
                (.treeStrayLastHasSuspect, b2n sus.isSome), (.treeStrayLastGrains, bad.length), (.treeStrayLastStart, first),
                (.treeStrayLastTflo, upTf % 2 ^ 16)]
            if (h.tport p).cfg.autoSweep ∧ (h.tport p).sweep = none ∧ (h.tport p).sweepWait = none then h.sweepStart p none else h
          else h
      h.updPortT p fun t => { t with upTf := (upTf + 1) % 2 ^ 32 }

def execTreeClearLast (req : Requester) (port : Fin 8) (s : State) : Host.Outcome State Fault Refusal :=
  s.board req fun h => h.updPortT port.val fun t => { t with clearLast := true }

def execTreeClearStats (req : Requester) (port : Fin 8) (s : State) : Host.Outcome State Fault Refusal :=
  s.board req fun h => h.updPortT port.val fun t => { t with clearStats := true }

/-! ### TREE commands (R369) -/

def stSweepRunning : Nat := 0x0501
def stLeaseOverlap : Nat := 0x0502

/-- TREE_PORT_SET: PORT, TREE_ID, RTT_MIN_NS, then the TREE_CFG word as its table lays it out (log entry 18). With ENABLE clear
the LIDs are released at once (Table 14.8); the port goes out of service at the next superframe (R371). -/
def treePortSet (c : TillCmd) (h : Hall) : Answer :=
  let p := c.arg 0 1
  let cfg := c.arg 7 8
  let start := bits cfg 33 23
  let slots := clampNat 8 64 (bits cfg 22 16)
  let spread := min 960 (bits cfg 15 6)
  if c.length ≠ 15 ∨ 7 < p ∨ 100000 < c.arg 3 4 ∨ bits cfg 5 2 ≠ 0 ∨ 1968 < start + 16 * slots + spread then refuse h stBadArg
  else if (h.tport p).sweep.isSome then refuse h stBusy
  else
    let h := h.setFs p
      [(.treeCfgErrThresh, bits cfg 63 48), (.treeCfgMissLimit, bits cfg 47 40), (.treeCfgStrayThresh, bits cfg 39 34),
       (.treeCfgBidStart, start), (.treeCfgBidSlots, bits cfg 22 16), (.treeCfgSpreadG, bits cfg 15 6),
       (.treeCfgAutoSweep, bits cfg 1 1), (.treeCfgEnable, bits cfg 0 0)]
    let h := h.updPortT p fun t => { t with treeId := c.arg 1 2, rttMin := c.arg 3 4 }
    okWith (if bits cfg 0 0 = 0 then h.portRelease p else h)

def execTreePortSet (till : Fin 128) (s : State) : Host.Outcome State Fault Refusal := s.till till.val 0x0601 never treePortSet

/-- Ranges a–b and c–d overlap. -/
def overlaps (a b c d : Nat) : Bool := decide (a ≤ d) && decide (c ≤ b)

/-- An image of a pen that is loaded uses the pen's lease on a port: it has grants there. -/
def Hall.leaseUsed (h : Hall) (port pen : Nat) : Bool :=
  h.data.images.any fun i => decide (i.2.pen = pen) && decide (i.2.state ≠ .empty) && decide (imageGrants i.2 port ≠ [])

/-- TREE_LEASE (R354): a zero range removes the pen's lease on the port. -/
def treeLease (c : TillCmd) (h : Hall) : Answer :=
  let p := c.arg 0 1
  let l : Lease := { pen := c.pen, lFirst := c.arg 1 1, lLast := c.arg 2 1, gFirst := c.arg 3 2, gLast := c.arg 5 2 }
  if c.length ≠ 7 ∨ 7 < p then refuse h stBadArg
  else if h.leaseUsed p c.pen then refuse h stBusy
  else
    let others := (h.tport p).leases.filter fun (x : Lease) => x.pen ≠ c.pen
    -- the lease's tree entries take the pen's world (R354); those of no lease are secure
    let setPens := fun (h : Hall) => upTo 128 h fun h i =>
      (h.setF .epStatePen (lidUnit p i) ((h.lidPen p i).getD 0)).setWorld 6 (lidUnit p i) (((h.lidPen p i).map h.penSecure).getD true)
    if l.lFirst = 0 ∧ l.lLast = 0 ∧ l.gFirst = 0 ∧ l.gLast = 0 then
      okWith (setPens (h.updPortT p fun t => { t with leases := others }))
    else
      let cfg := h.treeCfg p
      if 127 < l.lLast ∨ l.lLast < l.lFirst ∨ l.gLast < l.gFirst ∨ 1968 ≤ l.gLast ∨
          overlaps l.gFirst l.gLast cfg.bidStart (cfg.bidStart + 16 * cfg.bidSlots + cfg.spreadG - 1) then refuse h stBadArg
      else if others.any fun (x : Lease) => overlaps x.lFirst x.lLast l.lFirst l.lLast || overlaps x.gFirst x.gLast l.gFirst l.gLast then
        refuse h stLeaseOverlap
      else
        let h := h.updPortT p fun t => { t with leases := others ++ [l] }
        okWith (setPens h)

def execTreeLease (till : Fin 128) (s : State) : Host.Outcome State Fault Refusal := s.till till.val 0x0602 never treeLease

/-- Secure-only for LIDs of P0: the LID at payload bytes 0 and 1. -/
def treeForP0 (c : TillCmd) (h : Hall) : Bool := decide (c.pen = 0) || sessForP0 c h

/-- TREE_REGISTER. A dual-homed unit is registered on both ports of its pair by one command for each (R367). -/
def treeRegister (c : TillCmd) (h : Hall) : Answer :=
  let p := c.arg 0 1
  let l := c.arg 1 1
  let ident := slice c.payload 3 16
  if c.length ≠ 19 ∨ 7 < p ∨ 127 < l ∨ 1 < c.arg 2 1 then refuse h stBadArg
  else if h.lidPen p l ≠ some c.pen then refuse h stNotPermitted
  else if h.lidState p l ≠ lidFree ∨ (lids.any fun i => decide ((h.lid (lidUnit p i)).ident = some ident)) ∨
      (h.boundLid p ident).isSome then refuse h stBusy
  else
    let u := lidUnit p l
    okWith ((h.updLid u fun x => { x with ident := some ident }).setFs u [(.epStateReg, 1), (.epStateDual, c.arg 2 1)])

def execTreeRegister (till : Fin 128) (s : State) : Host.Outcome State Fault Refusal := s.till till.val 0x0603 treeForP0 treeRegister

/-- A LID of the command's pen. -/
def treeChecked (c : TillCmd) (h : Hall) (f : Nat → Nat → Answer) : Answer :=
  match sessTarget c with
  | none => refuse h stBadArg
  | some (p, l) => if h.lidPen p l ≠ some c.pen then refuse h stNotPermitted else f p l

def treeUnregister (c : TillCmd) (h : Hall) : Answer :=
  if c.length ≠ 2 then refuse h stBadArg
  else treeChecked c h fun p l =>
    let u := lidUnit p l
    let h := if h.lidState p l = lidFree then h
      else if h.ssState p l = ssIdle then h.freeLid p l else h.sessEnd p l 7
    okWith ((h.updLid u fun x => { x with ident := none }).setFs u [(.epStateReg, 0), (.epStateDual, 0)])

def execTreeUnregister (till : Fin 128) (s : State) : Host.Outcome State Fault Refusal :=
  s.till till.val 0x0604 treeForP0 treeUnregister

def treeRelease (c : TillCmd) (h : Hall) : Answer :=
  if c.length ≠ 2 then refuse h stBadArg
  else treeChecked c h fun p l =>
    let st := h.lidState p l
    if st = lidHeld ∨ st = lidQuarantine ∨ st = lidSilenced then
      let h := if st = lidSilenced then h.sendUnsilence p l else h
      okWith (if h.ssState p l = ssIdle then h.freeLid p l else h.sessEnd p l 7)
    else refuse h stBadArg

def execTreeRelease (till : Fin 128) (s : State) : Host.Outcome State Fault Refusal := s.till till.val 0x0605 treeForP0 treeRelease

/-- TREE_SWEEP. The port must carry a lease of the command's pen. -/
def treeSweep (c : TillCmd) (h : Hall) : Answer :=
  let p := c.arg 0 1
  if c.length ≠ 1 ∨ 7 < p then refuse h stBadArg
  else if !((h.tport p).leases.any fun (l : Lease) => l.pen = c.pen) then refuse h stNotPermitted
  else if (h.tport p).sweep.isSome ∨ (h.tport p).sweepWait.isSome then refuse h stSweepRunning
  else acceptOp h c fun k h => h.sweepStart p (some k)

def execTreeSweep (till : Fin 128) (s : State) : Host.Outcome State Fault Refusal := s.till till.val 0x0606 forP0 treeSweep

/-- TREE_QUERY: LIDs of the pen's lease from FIRST_LID. -/
def treeQuery (c : TillCmd) (h : Hall) : Answer :=
  let p := c.arg 0 1
  let first := c.arg 1 1
  if c.length ≠ 2 ∨ 7 < p ∨ 127 < first then refuse h stBadArg
  else
    okWith h ((lids.filter fun l => decide (first ≤ l) && decide (h.lidPen p l = some c.pen)).flatMap fun l =>
      let u := lidUnit p l
      leBytes 1 (h.lidState p l) ++ leBytes 4 (h.getF .epStateEqd u) ++ slice ((h.lid u).ident.getD ((h.lid u).bound.getD [])) 0 16)

def execTreeQuery (till : Fin 128) (s : State) : Host.Outcome State Fault Refusal := s.till till.val 0x0607 forP0 treeQuery

/-- Images' grants and sessions of a hub's ports stop when the hub is lost (R452): LIDs and sessions of its ports end. -/
def Hall.treeHubLost (h : Hall) (hub : Hub) : Hall :=
  upTo 4 h fun h i =>
    let p := 4 * hubNum hub + i
    let h := upTo 128 h fun h l =>
      let h := if h.ssState p l = ssIdle then h else h.sessIdle p l
      if h.lidState p l = lidFree then h else h.setLid p l lidFree
    (h.updPortT p fun t => { tf := t.tf, treeId := t.treeId, rttMin := t.rttMin, leases := t.leases }).clearFs p
      [.treeStatusUp, .treeStatusLock, .treeStatusSweep, .treeStatusStray]

end Sys2Proof.Machine
end

