-- ==== Sys2Proof/Machine/Nvm.lean ====
section
/-! DEFINITION. The weight arrays and their controllers (R295–R319): map, reads, unlock sequences, commands, brown-out,
scrub and relocation. Copies that differ are settled in `Settle.lean`. -/

namespace Sys2Proof.Machine

/-! ### Organisation and cells (R295–R297) -/

/-- Bytes of an erase block, pages of it, bytes of a page. -/
def nvBlockBytes : Nat := 4194304
def nvPageBytes : Nat := 16384

/-- Logical erase blocks of a row (Table 12.1). -/
def Hall.nvLogical (h : Hall) : Nat := if h.flag .hubIdentVariant 0 then 131072 else 65536
/-- Physical erase blocks of a row. -/
def Hall.nvTotal (h : Hall) : Nat := if h.flag .hubIdentVariant 0 then 139264 else 69632

/-- Bank of a physical erase block (R296). -/
def nvBank (p : Nat) : Nat := p % 16

/-- A block lies in the system area (R296). -/
def Hall.nvSystem (h : Hall) (p : Nat) : Bool := decide (h.nvLogical ≤ p) && decide (p < h.nvLogical + 256)

/-- Physical block of a logical block under a map. -/
def nvMapped (map : Tab Nat) (l : Nat) : Nat := (Tab.find map l).getD l

def Hall.nvPhys (h : Hall) (r l : Nat) : Nat := nvMapped (h.array r).map l

/-- Logical block that a physical block backs, if any. -/
def Hall.nvBacks (h : Hall) (r p : Nat) : Option Nat :=
  let m := (h.array r).map
  match m.find? fun e => e.2 = p with
  | some e => some e.1
  | none => if p < h.nvLogical && (Tab.find m p).isNone then some p else none

/-- `n` bytes of a physical block; an erased cell reads 0xFF. -/
def Hall.nvRead (h : Hall) (r p o n : Nat) : Bytes := Mem.readN 0xFF (Tab.get [] h.mem.nvm r) (p * nvBlockBytes + o) n

/-- Writes cells of a physical block. -/
def Hall.nvWrite (h : Hall) (r p o : Nat) (bs : Bytes) : Hall :=
  { h with mem.nvm := Tab.set h.mem.nvm r (Mem.writeN 0xFF (Tab.get [] h.mem.nvm r) (p * nvBlockBytes + o) bs) }

/-- Erases the cells of a block. -/
def Hall.nvErase (h : Hall) (r p : Nat) : Hall :=
  { h with mem.nvm := Tab.set h.mem.nvm r (Mem.clear (Tab.get [] h.mem.nvm r) (p * nvBlockBytes) nvBlockBytes) }

/-- Bytes of a logical offset in one copy. -/
def Hall.nvLogicalRead (h : Hall) (r o n : Nat) : Bytes :=
  h.nvRead r (h.nvPhys r (o / nvBlockBytes)) (o % nvBlockBytes) n

/-- Pages a range touches. -/
def nvPages (o n : Nat) : Nat := (o % nvPageBytes + n + nvPageBytes - 1) / nvPageBytes

/-- Content of a row's window as data: lines of the row pair's poison list come poisoned (Table 12.7). -/
def Hall.nvPayload (h : Hall) (r o : Nat) (bs : Bytes) : Payload :=
  let bad := (h.array (r % 4)).poisonLines
  if bad = [] then cleanBytes bs
  else (List.range bs.length).map fun i => { b := bs.getD i 0, poison := bad.contains ((o + i) / 64) }

/-! ### Banks -/

def bankU (r b : Nat) : Nat := 16 * r + b
def Hall.bankState (h : Hall) (r b : Nat) : Nat := h.getF .nvmcBankState (bankU r b)
def Hall.bankOp (h : Hall) (r b : Nat) : BankOp := Tab.get {} (h.array r).banks b
def Hall.setBankOp (h : Hall) (r b : Nat) (o : BankOp) : Hall :=
  h.updArray r fun a => { a with banks := Tab.set a.banks b o }
def Hall.bankPblock (h : Hall) (r b : Nat) : Nat := h.getF .nvmcBankPblock (bankU r b)

/-- A bank is free: IDLE or DONE (R302), or its erase still waits for reads under an old mapping (R299). -/
def Hall.bankFree (h : Hall) (r b : Nat) : Bool :=
  decide (h.bankState r b = 0) || decide (h.bankState r b = 3) || (h.bankOp r b).deferred
def Hall.bankBusy (h : Hall) (r b : Nat) : Bool := decide (h.bankState r b = 1) && !(h.bankOp r b).deferred
def Hall.bankSuspended (h : Hall) (r b : Nat) : Bool := decide (h.bankState r b = 2)

/-- Sets a bank's state and the BUSY_BANKS bits. -/
def Hall.setBankState (h : Hall) (r b st : Nat) : Hall :=
  let h := h.setF .nvmcBankState (bankU r b) st
  h.setF .nvmcStatusBusyBanks r ((List.range 16).foldl (fun acc i =>
    let s := h.bankState r i
    if s = 1 ∨ s = 2 then acc + 2 ^ i else acc) 0)

/-- An operation starts in a bank (Table 12.9). -/
def Hall.bankStart (h : Hall) (r p page op : Nat) (phys : Bool) (o : BankOp) : Hall :=
  let b := nvBank p
  (((h.setFs (bankU r b) [(.nvmcBankOp, op), (.nvmcBankPhys, b2n phys), (.nvmcBankBo, 0), (.nvmcBankResult, 0),
    (.nvmcBankPblock, p), (.nvmcBankPage, page), (.nvmcBankSusp, 0)]).setBankOp r b o).setBankState r b 1)

/-- An operation ends in a bank: DONE with its result. -/
def Hall.bankEnd (h : Hall) (r b status : Nat) : Hall :=
  ((h.setF .nvmcBankResult (bankU r b) status).setBankOp r b {}).setBankState r b 3

/-- NVMC_LAST_CMD (Table 12.13). -/
def Hall.lastCmd (h : Hall) (r status cmd bank : Nat) : Hall :=
  h.setFs r [(.nvmcLastCmdValid, 1), (.nvmcLastCmdResult, status), (.nvmcLastCmd, cmd), (.nvmcLastCmdBank, bank)]

/-! ### Retiring and the spare pool (R296, R310, R315) -/

/-- A block is in the pool of a new module. -/
def Hall.nvPoolNew (h : Hall) (p : Nat) : Bool := decide (h.nvLogical + 256 ≤ p) && decide (p < h.nvTotal)

/-- A block is in the pool now. -/
def Hall.nvInPool (h : Hall) (r p : Nat) : Bool := h.nvPoolNew p != (h.array r).poolDelta.contains p

/-- Moves a block in or out of the pool, with NVMC_SPARES.FREE. -/
def Hall.nvSetPool (h : Hall) (r p : Nat) (inside : Bool) : Hall :=
  if h.nvInPool r p = inside then h
  else
    let h' := h.updArray r fun a => { a with poolDelta := if a.poolDelta.contains p then a.poolDelta.filter (· ≠ p) else p :: a.poolDelta }
    let free := h.getF .nvmcSparesFree r
    h'.setF .nvmcSparesFree r (if inside then free + 1 else free - 1)

/-- Retires a physical block. -/
def Hall.nvRetire (h : Hall) (r p : Nat) : Hall :=
  if (h.array r).retired.contains p then h
  else
    let h := (h.nvSetPool r p false).updArray r fun a => { a with retired := p :: a.retired }
    h.setF .nvmcSparesRetired r (h.getF .nvmcSparesRetired r + 1)

def Hall.nvErases (h : Hall) (r p : Nat) : Nat := Tab.get 0 (h.array r).erases p

/-- The spare block Jenig takes: lowest erase count, then lowest number (R310), in a bank that is free. -/
def Hall.nvSpare (h : Hall) (r : Nat) : Option Nat :=
  let fresh := (List.range (h.nvTotal - (h.nvLogical + 256))).map (· + (h.nvLogical + 256))
  let cand := (fresh ++ (h.array r).poolDelta.filter fun p => !h.nvPoolNew p).filter fun p =>
    h.nvInPool r p && h.bankFree r (nvBank p)
  cand.foldl (fun best p => match best with
    | none => some p
    | some q => if h.nvErases r p < h.nvErases r q ∨ (h.nvErases r p = h.nvErases r q ∧ p < q) then some p else some q) none

/-! ### Reads (R299–R303) -/

/-- Reads in flight that were translated to a physical block. -/
def Hall.nvOldReads (h : Hall) (r p : Nat) : Nat :=
  (h.tiers.reads.filter fun e =>
    let x := e.2
    x.result.isNone && decide (x.addr < 0x080000000000) &&
      ((decide (x.pref = r) && decide (x.prefBlk = p)) || (decide ((x.pref + 4) % 8 = r) && decide (x.otherBlk = p)))).length

/-- What one copy answers. -/
inductive CopyRead where
  | data (p : Payload)
  | poisoned (p : Payload) (suspended : Bool)
  | wait
deriving DecidableEq, Repr

/-- A payload of `n` bytes with every line poisoned; what the bytes are is open. -/
def Hall.poisonedBytes (h : Hall) (n : Nat) : Payload × Hall :=
  let (bs, h) := h.draw n
  (bs.map fun b => { b := b, poison := true }, h)

/-- A read served by one copy under R303, of window offset `o`, from physical block `p`. -/
def Hall.nvRaw (h : Hall) (r p o n : Nat) : CopyRead × Hall :=
  let b := nvBank p
  if h.bankBusy r b then (.wait, h)
  else
    let h := h.bump .nvmcPageReads r (nvPages o n)
    if h.bankSuspended r b && decide (h.bankPblock r b = p) then
      let (x, h) := h.poisonedBytes n
      (.poisoned x true, h.bump .nvmcSuspendedReads r)
    else (.data (h.nvPayload r o (h.nvRead r p (o % nvBlockBytes) n)), h)

/-- Relocation of a block comes due (R315). -/
def Hall.nvDue (h : Hall) (r l : Nat) (fromMirror : Bool) : Hall :=
  h.updArray r fun a => { a with dueRelocation := Tab.set a.dueRelocation l fromMirror }

/-- An internal failure of a page of logical block `l` in row r (R302, R315). -/
def Hall.nvInternalFail (h : Hall) (r l : Nat) : Hall := (h.bump .nvmcInternalFail r).nvDue r l true

/-- A mirror-resolved read that meets no internal failure (Table 12.2), for readers whose command carries no outcome of
the internal correction: preferred row, window offset, bytes; none while both banks are BUSY. -/
def Hall.nvMirrorRead (h : Hall) (pref o n : Nat) : Option Payload × Hall :=
  let l := o / nvBlockBytes
  let other := (pref + 4) % 8
  let serve := fun (h : Hall) (r : Nat) =>
    match h.nvRaw r (h.nvPhys r l) o n with
    | (.data x, h) => (some x, h)
    | (.poisoned x _, h) => (some x, h)
    | (.wait, h) => (none, h)
  if h.rowGone pref then if h.rowGone other then (none, h) else serve (h.bump .nvmcMirrorReads pref) other
  else if h.bankFree pref (nvBank (h.nvPhys pref l)) || h.rowGone other then serve h pref
  else if h.bankFree other (nvBank (h.nvPhys other l)) then serve (h.bump .nvmcMirrorReads pref) other
  else serve h pref

/-- One copy's page read for a lot read in progress (R302, Table 12.2): `row` must be the copy whose turn it is. -/
def execArrayPageRead (id : Nat) (row : Fin 8) (internalFail : Bool) (s : State) : Host.Outcome State Fault Refusal :=
  s.run fun h =>
    match Tab.find h.tiers.reads id with
    | none => h
    | some x =>
      let r := row.val
      let other := (x.pref + 4) % 8
      let o := x.addr % 0x008000000000
      let l := o / nvBlockBytes
      let pf := h.bankFree x.pref (nvBank x.prefBlk)
      let ofr := h.bankFree other (nvBank x.otherBlk)
      let bad := fun (k : Nat) => x.failed.contains k || h.rowGone k
      let turn := if bad x.pref then other
        else if pf then x.pref
        else if ofr && !bad other then other
        else x.pref
      let blk := if r = x.pref then x.prefBlk else x.otherBlk
      if x.result.isSome || decide (0x080000000000 ≤ x.addr) || decide (turn ≠ r) || h.rowGone r then h
      else
        let put := fun (h : Hall) (y : LotRead) => { h with tiers.reads := Tab.set h.tiers.reads id y }
        match h.nvRaw r blk o x.n with
        | (.wait, _) => h
        | (.poisoned p _, h) => put h { x with result := some p }
        | (.data p, h) =>
          if internalFail then
            let h := h.nvInternalFail r l
            if bad (if r = x.pref then other else x.pref) then
              let (p, h) := h.poisonedBytes x.n
              put (h.ordinary .nvm r l) { x with failed := r :: x.failed, result := some p }
            else put (h.ordinary .nvm r l) { x with failed := r :: x.failed }
          else put (if r = x.pref then h else h.bump .nvmcMirrorReads x.pref) { x with result := some p }

/-! ### Unlock sequences (R305–R307) -/

/-- Codes of Table 12.4. -/
def nvCodes : List Nat := [0x0010, 0x0020, 0x0030, 0x00B0, 0x00D0, 0x0070, 0x0060, 0x0061, 0x0062, 0x00A0]

def cmdCode (w : Nat) : Nat := w % 16384
def cmdPhys (w : Nat) : Bool := bit w 14

/-- A command word that the controller knows: a code, with PHYS or without, and nothing else set. -/
def cmdKnown (w : Nat) : Bool := decide (w < 32768) && nvCodes.contains (cmdCode w)

/-- The value a command's single cycle carries fits (Table 12.4). -/
def cycleFits (w offset value : Nat) : Bool :=
  match cmdCode w with
  | 0x0020 => value = 0x0030
  | 0x0030 => value ≤ 1
  | 0x00B0 => value = 0
  | 0x00D0 => value = 0
  | 0x0070 => value = 0
  | 0x00A0 => value = 0
  | 0x0060 => value = 1
  | 0x0061 => value = 1
  | 0x0062 => value = 1 && offset = 0xAAA8
  | _ => false

/-- Ends a sequence; NVMC_STATUS.UNLOCK reads LOCKED. -/
def Hall.unlockEnd (h : Hall) (r : Nat) : Hall :=
  (h.updArray r fun a => { a with unlock := none }).setF .nvmcStatusUnlock r 0

/-- Abandons a sequence. -/
def Hall.unlockAbandon (h : Hall) (r : Nat) : Hall := (h.unlockEnd r).bump .nvmcUnlockErr r

def Hall.setUnlock (h : Hall) (r st : Nat) (u : Unlock) : Hall :=
  (h.updArray r fun a => { a with unlock := some u }).setF .nvmcStatusUnlock r st

/-- A command cycle: a 4-byte write with bits 31:16 zero (R305). -/
def cmdCycle (data : Bytes) : Option Nat :=
  if data.length = 4 ∧ leNat data < 65536 then some (leNat data) else none

/-- One write to a row's window by the MP of `hub` (Table 12.3). -/
def Hall.windowWrite (h : Hall) (hub : Hub) (r offset : Nat) (data : Bytes) : Hall :=
  let st := h.getF .nvmcStatusUnlock r
  match (h.array r).unlock with
  | none =>
    if cmdCycle data = some 0x5A5A ∧ offset = 0xAAA8 then h.setUnlock r 1 { owner := hub }
    else h.bump .nvmcUnlockErr r
  | some u =>
    if u.owner ≠ hub then h.bump .nvmcUnlockErr r
    else if st = 1 then
      if cmdCycle data = some 0xA5A5 ∧ offset = 0x5550 then h.setUnlock r 2 u else h.unlockAbandon r
    else if st = 2 then
      match cmdCycle data with
      | some w => if offset = 0xAAA8 ∧ cmdKnown w = true then h.setUnlock r 3 { u with word := w } else h.unlockAbandon r
      | none => h.unlockAbandon r
    else if cmdCode u.word = 0x0010 then
      if data.length = 64 ∧ (if u.got = 0 then offset % nvPageBytes = 0 else offset = u.first + 64 * u.got) then
        let u := { u with first := if u.got = 0 then offset else u.first, got := u.got + 1, data := u.data ++ data }
        if u.got = 256 then h.setUnlock r 0 { u with complete := true } else h.setUnlock r 3 u
      else h.unlockAbandon r
    else match cmdCycle data with
      | some v => if cycleFits u.word offset v then h.setUnlock r 0 { u with first := offset, value := v, complete := true }
                  else h.unlockAbandon r
      | none => h.unlockAbandon r

/-! ### Commands (R308–R312) -/

/-- A command whose cycles are complete: word, block, page, offset, value and data. -/
structure NvCmd where
  word : Nat
  pblock : Nat
  page : Nat
  offset : Nat
  value : Nat
  data : Bytes
deriving DecidableEq, Repr

/-- The target of a completed command (R307). -/
def Hall.nvTarget (h : Hall) (r : Nat) (u : Unlock) : NvCmd :=
  { word := u.word
    pblock := if cmdPhys u.word then h.getF .nvmcTargetPblock r else h.nvPhys r (u.first / nvBlockBytes)
    page := u.first % nvBlockBytes / nvPageBytes, offset := u.first, value := u.value, data := u.data }

/-- Whether a sector's bit protects it. -/
def Hall.wpSector (h : Hall) (r n : Nat) : Bool := bit (h.getF .nvmcWp (8 * r + n / 64)) (n % 64)
def Hall.setWp (h : Hall) (r n : Nat) (v : Bool) : Hall :=
  let w := h.getF .nvmcWp (8 * r + n / 64)
  if bit w (n % 64) = v then h else h.setF .nvmcWp (8 * r + n / 64) (w ^^^ 2 ^ (n % 64))

/-- The target of a program or erase is protected (R311): the sector of the logical block it backs, or the system area;
a block of the spare pool has no protect bit. -/
def Hall.nvProtected (h : Hall) (r p : Nat) : Bool :=
  if h.nvSystem p then h.flag .nvmcWpSysWp r
  else match h.nvBacks r p with
    | some l => h.wpSector r (l / 256)
    | none => false

/-- The suspended block of a bank is the command's block. -/
def Hall.sameSuspended (h : Hall) (r p : Nat) : Bool := decide (h.bankPblock r (nvBank p) = p)

/-- Check 5: Table 12.18. None where the command is accepted. -/
def Hall.bankAllows (h : Hall) (r : Nat) (c : NvCmd) : Option Nat :=
  let b := nvBank c.pblock
  let st := h.bankState r b
  let code := cmdCode c.word
  if code = 0x0070 ∨ code = 0x0060 ∨ code = 0x0061 ∨ code = 0x0062 then none
  else if code = 0x00B0 then
    if st = 1 ∧ h.getF .nvmcBankOp (bankU r b) = 2 then none else some stBadArg
  else if code = 0x00D0 then
    if st = 2 then none else if st = 1 ∧ (h.bankOp r b).heldSuspend = true then none else some stBadArg
  else if st = 0 ∨ st = 3 then none
  else if st = 1 then some stBusy
  else if code = 0x0010 ∨ code = 0x0020 then some stBusy
  else if (h.bankOp r b).beside.isSome then some stBusy
  else if code = 0x0030 ∧ h.sameSuspended r c.pblock = true then some stEraseSuspended
  else none

/-- Checks of Table 12.5 in order. -/
def Hall.nvChecks (h : Hall) (r : Nat) (c : NvCmd) : Option Nat :=
  let code := cmdCode c.word
  let pe := decide (code = 0x0010) || decide (code = 0x0020)
  if (code = 0x00A0 ∧ cmdPhys c.word = false) ∨
      (cmdPhys c.word = true ∧ (h.flag .nvmcTargetValid r = false ∨ h.nvTotal ≤ c.pblock)) then some stBadArg
  else if pe && h.flag .nvmcStatusBrownout r then some stInterrupted
  else if pe && h.nvProtected r c.pblock then some stProtected
  else if pe && (h.array r).retired.contains c.pblock then some stBlockRetired
  else match h.bankAllows r c with
  | some st => some st
  | none =>
    if code = 0x0061 ∧ h.flag .nvmcStatusFrozen r = true then some stNotPermitted
    else if code = 0x0010 ∧ c.page < Tab.get 0 (h.array r).topPage c.pblock then some stBadArg
    else none

/-- A page or block is erased: every cell 0xFF and no pulse of an interrupted operation left in it (R310, R313). -/
def Hall.nvBlank (h : Hall) (r p o n : Nat) : Bool :=
  (h.nvRead r p o n).all (fun b => decide (b = 0xFF)) &&
    !(h.array r).torn.any fun t => decide (t / 256 = p) && decide (o ≤ t % 256 * nvPageBytes) && decide (t % 256 * nvPageBytes < o + n)

/-- Runs a completed command of one code in a row: refused by the checks of Table 12.5 (NVMC_REFUSED), or started. -/
def Hall.nvCommand (h : Hall) (r code : Nat) (f : Hall → NvCmd → Hall) : Hall :=
  match (h.array r).unlock with
  | some u =>
    if u.complete && decide (cmdCode u.word = code) then
      let c := h.nvTarget r u
      let h := h.unlockEnd r
      match h.nvChecks r c with
      | some st => (h.bump .nvmcRefused r).lastCmd r st c.word (nvBank c.pblock)
      | none => f (h.lastCmd r stOK c.word (nvBank c.pblock)) c
    else h
  | none => h

def Hall.cmdProgram (h : Hall) (r : Nat) : Hall := h.nvCommand r 0x0010 fun h c =>
  let h := h.bankStart r c.pblock c.page 1 (cmdPhys c.word) { data := c.data }
  if h.nvBlank r c.pblock (c.page * nvPageBytes) nvPageBytes then h else h.bankEnd r (nvBank c.pblock) stNotErased

def Hall.cmdErase (h : Hall) (r : Nat) : Hall := h.nvCommand r 0x0020 fun h c =>
  h.bankStart r c.pblock 0 2 (cmdPhys c.word) { deferred := (h.nvBacks r c.pblock).isNone && decide (h.nvOldReads r c.pblock ≠ 0) }

def Hall.cmdBlank (h : Hall) (r : Nat) : Hall := h.nvCommand r 0x0030 fun h c =>
  let b := nvBank c.pblock
  let ok := if c.value = 0 then h.nvBlank r c.pblock (c.page * nvPageBytes) nvPageBytes
            else h.nvBlank r c.pblock 0 nvBlockBytes
  let st := if ok then stOK else stNotErased
  if h.bankSuspended r b then h.lastCmd r st c.word b
  else (h.bankStart r c.pblock (if c.value = 0 then c.page else 0) 3 (cmdPhys c.word) {}).bankEnd r b st

def Hall.cmdSuspend (h : Hall) (r : Nat) : Hall := h.nvCommand r 0x00B0 fun h c =>
  h.setBankOp r (nvBank c.pblock) { h.bankOp r (nvBank c.pblock) with heldSuspend := true }

def Hall.cmdResume (h : Hall) (r : Nat) : Hall := h.nvCommand r 0x00D0 fun h c =>
  let b := nvBank c.pblock
  let h := h.setBankOp r b { h.bankOp r b with heldSuspend := false }
  if h.bankSuspended r b then h.setBankState r b 1 else h

/-- READ_STATUS: the published word already shows the bank as of the command; NVMC_LAST_CMD has been latched. -/
def Hall.cmdReadStatus (h : Hall) (r : Nat) : Hall := h.nvCommand r 0x0070 fun h _ => h

/-- WP_SET and WP_CLEAR: the sector of the address, or with PHYS the system area. -/
def Hall.cmdWp (h : Hall) (r code : Nat) (v : Bool) : Hall := h.nvCommand r code fun h c =>
  if cmdPhys c.word then h.setB .nvmcWpSysWp r v else h.setWp r (c.offset / 2 ^ 30) v

def Hall.cmdFreeze (h : Hall) (r : Nat) : Hall := h.nvCommand r 0x0062 fun h _ => h.setF .nvmcStatusFrozen r 1

def Hall.cmdReadPage (h : Hall) (r : Nat) : Hall := h.nvCommand r 0x00A0 fun h c =>
  let b := nvBank c.pblock
  if h.bankSuspended r b then h.setBankOp r b { h.bankOp r b with beside := some (4, c.pblock, c.page) }
  else h.bankStart r c.pblock c.page 4 true {}

/-- Runs the completed command that a row holds, whichever it is (R306: applied when its cycles are complete). -/
def Hall.nvRunComplete (h : Hall) (r : Nat) : Hall :=
  let h := ((((h.cmdProgram r).cmdErase r).cmdBlank r).cmdSuspend r).cmdResume r
  ((((h.cmdReadStatus r).cmdWp r 0x0060 true).cmdWp r 0x0061 false).cmdFreeze r).cmdReadPage r

/-- NVMC_WINDOW_WRITE: only the MPs reach the window (R305); a command still to be run is run first. -/
def execNvmcWindowWrite (req : Requester) (row : Fin 8) (offset : Nat) (data : Bytes) (s : State) :
    Host.Outcome State Fault Refusal :=
  s.run fun h =>
    match req with
    | .mp hub => if h.t2Bytes ≤ offset then h
        else if h.governing = some hub then (h.nvRunComplete row.val).windowWrite hub row.val offset data
        else h.bump .nvmcUnlockErr row.val
    | .host _ fn => if fn = .pf0 ∧ offset < h.t2Bytes then h.bump .nvmcUnlockErr row.val else h

def execNvmcUnlockLapse (row : Fin 8) (s : State) : Host.Outcome State Fault Refusal :=
  s.run fun h => match (h.array row.val).unlock with
    | some u => if u.complete then h else h.unlockAbandon row.val
    | none => h

def execProgramPage (row : Fin 8) (s : State) : Host.Outcome State Fault Refusal := s.run fun h => h.cmdProgram row.val
def execEraseBlock (row : Fin 8) (s : State) : Host.Outcome State Fault Refusal := s.run fun h => h.cmdErase row.val
def execBlankCheck (row : Fin 8) (s : State) : Host.Outcome State Fault Refusal := s.run fun h => h.cmdBlank row.val
def execSuspend (row : Fin 8) (s : State) : Host.Outcome State Fault Refusal := s.run fun h => h.cmdSuspend row.val
def execNvmResume (row : Fin 8) (s : State) : Host.Outcome State Fault Refusal := s.run fun h => h.cmdResume row.val
def execReadStatus (row : Fin 8) (s : State) : Host.Outcome State Fault Refusal := s.run fun h => h.cmdReadStatus row.val
def execWpSet (row : Fin 8) (s : State) : Host.Outcome State Fault Refusal := s.run fun h => h.cmdWp row.val 0x0060 true
def execWpClear (row : Fin 8) (s : State) : Host.Outcome State Fault Refusal := s.run fun h => h.cmdWp row.val 0x0061 false
def execWpFreeze (row : Fin 8) (s : State) : Host.Outcome State Fault Refusal := s.run fun h => h.cmdFreeze row.val
def execReadPagePhys (row : Fin 8) (s : State) : Host.Outcome State Fault Refusal := s.run fun h => h.cmdReadPage row.val

/-- A held SUSPEND takes effect (R312). -/
def execSuspendEffect (row : Fin 8) (bank : Fin 16) (s : State) : Host.Outcome State Fault Refusal :=
  s.run fun h =>
    let o := h.bankOp row.val bank.val
    let u := bankU row.val bank.val
    if o.heldSuspend && h.bankBusy row.val bank.val then
      ((((h.setBankOp row.val bank.val { o with heldSuspend := false }).setBankState row.val bank.val 2).setF .nvmcBankSusp u
        (min 1023 (h.getF .nvmcBankSusp u + 1))).bump .nvmcSuspends row.val)
    else h

/-- A page holds what an unfinished or failed pulse left in it: open, and not blank (R313). -/
def Hall.tearPage (h : Hall) (r p page : Nat) : Hall :=
  let (bs, h) := h.draw nvPageBytes
  (h.nvWrite r p (page * nvPageBytes) bs).updArray r fun a =>
    { a with torn := (p * 256 + page) :: a.torn.filter (· ≠ p * 256 + page)
             topPage := Tab.set a.topPage p (max (page + 1) (Tab.get 0 a.topPage p)) }

/-- A block holds what an unfinished or failed erase left in it. -/
def Hall.tearBlock (h : Hall) (r p : Nat) : Hall :=
  let (bs, h) := h.draw nvBlockBytes
  (h.nvWrite r p 0 bs).updArray r fun a =>
    { a with torn := (List.range 256).map (p * 256 + ·) ++ a.torn.filter fun t => decide (t / 256 ≠ p)
             topPage := Tab.set a.topPage p 256 }

/-- A verify failed (R310): the block is retired, a record goes to the junction, and where the block backs data its
other pages are due for relocation (R315). -/
def Hall.nvVerifyFail (h : Hall) (r p : Nat) : Hall :=
  let h := (h.nvRetire r p).ordinary .nvm r p
  match h.nvBacks r p with
  | some l => h.nvDue r l true
  | none => h

/-- The page of a program ends up in its cells. -/
def Hall.nvProgramPage (h : Hall) (r p page : Nat) (data : Bytes) : Hall :=
  ((h.nvWrite r p (page * nvPageBytes) data).updArray r fun a =>
    { a with topPage := Tab.set a.topPage p (max (page + 1) (Tab.get 0 a.topPage p)) }).bump .nvmcPrograms r

/-- A program ends (R310). -/
def execProgramEnd (row : Fin 8) (bank : Fin 16) (verified : Bool) (s : State) : Host.Outcome State Fault Refusal :=
  s.run fun h =>
    let r := row.val
    let u := bankU r bank.val
    if h.bankState r bank.val = 1 ∧ h.getF .nvmcBankOp u = 1 then
      let p := h.bankPblock r bank.val
      let page := h.getF .nvmcBankPage u
      let o := h.bankOp r bank.val
      if verified then (h.nvProgramPage r p page o.data).bankEnd r bank.val stOK
      else (((h.tearPage r p page).bump .nvmcPrograms r).nvVerifyFail r p).bankEnd r bank.val stOpFailed
    else h

/-- An erase of a block has completed: cells, counts, retirement at 3,000 (R310). -/
def Hall.nvEraseDone (h : Hall) (r p : Nat) : Hall :=
  let h := ((h.nvErase r p).updArray r fun a =>
    { a with torn := a.torn.filter (fun t => decide (t / 256 ≠ p)), topPage := Tab.erase a.topPage p
             erases := Tab.set a.erases p (Tab.get 0 a.erases p + 1) }).bump .nvmcErases r
  if 3000 ≤ h.nvErases r p then h.nvRetire r p else h

/-- An erased block that backs nothing returns to the pool (R315). -/
def Hall.nvReturn (h : Hall) (r p : Nat) : Hall :=
  if (h.nvBacks r p).isNone && !h.nvSystem p && !(h.array r).retired.contains p then h.nvSetPool r p true else h

/-- An erase ends (R310). -/
def execEraseEnd (row : Fin 8) (bank : Fin 16) (verified : Bool) (s : State) : Host.Outcome State Fault Refusal :=
  s.run fun h =>
    let r := row.val
    let u := bankU r bank.val
    if h.bankBusy r bank.val ∧ h.getF .nvmcBankOp u = 2 then
      let p := h.bankPblock r bank.val
      if verified then ((h.nvEraseDone r p).nvReturn r p).bankEnd r bank.val stOK
      else ((h.tearBlock r p).nvVerifyFail r p).bankEnd r bank.val stOpFailed
    else h

/-- A page goes to NVMC_PAGEBUF (R319). -/
def Hall.toPageBuf (h : Hall) (r p page : Nat) (internalFail : Bool) : Hall :=
  let h := h.bump .nvmcPageReads r
  let bs := h.nvRead r p (page * nvPageBytes) nvPageBytes
  if internalFail then
    let h := h.bump .nvmcInternalFail r
    let h := match h.nvBacks r p with
      | some l => h.nvDue r l true
      | none => h
    let (x, h) := h.poisonedBytes nvPageBytes
    h.updArray r fun a => { a with pageBuf := x }
  else
    let x := match h.nvBacks r p with
      | some l => h.nvPayload r (l * nvBlockBytes + page * nvPageBytes) bs
      | none => cleanBytes bs
    h.updArray r fun a => { a with pageBuf := x }

/-- READ_PAGE_PHYS ends (R303, R309, R319): in a bank of its own, or beside a suspended erase. -/
def execReadPagePhysEnd (row : Fin 8) (bank : Fin 16) (internalFail : Bool) (s : State) : Host.Outcome State Fault Refusal :=
  s.run fun h =>
    let r := row.val
    let b := bank.val
    let u := bankU r b
    let o := h.bankOp r b
    match o.beside with
    | some (_, p, page) =>
      let h := h.setBankOp r b { o with beside := none }
      if h.bankSuspended r b && decide (h.bankPblock r b = p) then
        ((h.bump .nvmcPageReads r).bump .nvmcSuspendedReads r).lastCmd r stEraseSuspended 0x40A0 b
      else (h.toPageBuf r p page internalFail).lastCmd r stOK 0x40A0 b
    | none =>
      if h.bankState r b = 1 ∧ h.getF .nvmcBankOp u = 4 then
        (h.toPageBuf r (h.bankPblock r b) (h.getF .nvmcBankPage u) internalFail).bankEnd r b stOK
      else h

/-! ### Block map (R298) -/

/-- Entries 0 to n − 1 of the staging area: logical and physical block. -/
def Hall.bmapStaged (h : Hall) (r n : Nat) : List (Nat × Nat) :=
  (List.range n).map fun i => (h.getF .nvmcBmapEntLblock (1024 * r + i), h.getF .nvmcBmapEntPblock (1024 * r + i))

/-- A map with the entries of a batch; an entry equal to the identity is not listed. -/
def mapWith (map : Tab Nat) (es : List (Nat × Nat)) : Tab Nat :=
  es.foldl (fun m e => if e.1 = e.2 then Tab.erase m e.1 else Tab.set m e.1 e.2) map

/-- The batch may be applied (R298). -/
def Hall.bmapOk (h : Hall) (r : Nat) (es : List (Nat × Nat)) : Bool :=
  let a := h.array r
  let m := mapWith a.map es
  decide (es.map Prod.fst).Nodup && decide (es.map Prod.snd).Nodup &&
  es.all fun e => decide (e.1 < h.nvLogical) && decide (e.2 < h.nvTotal) && !h.nvSystem e.2 && !a.retired.contains e.2 &&
    m.all (fun x => decide (x.2 ≠ e.2) || decide (x.1 = e.1)) &&
    (decide (e.2 = e.1) || decide (h.nvLogical ≤ e.2) || (Tab.find m e.2).isSome)

/-- Applies a batch: the map changes, what comes to back data leaves the pool, and the journal write is due. -/
def Hall.bmapApply (h : Hall) (r : Nat) (es : List (Nat × Nat)) : Hall :=
  let h := es.foldl (fun h e => h.nvSetPool r e.2 false) h
  (h.updArray r fun a => { a with map := mapWith a.map es }).setF .nvmcStatusJournal r 1

/-- NVMC_BMAP_GO (R298); a count above 1,024, which the register's text does not allow, is refused with the batch. -/
def execNvmcBmapGo (req : Requester) (row : Fin 8) (count : Nat) (s : State) : Host.Outcome State Fault Refusal :=
  s.board req fun h =>
    let n := count % 2048
    let es := h.bmapStaged row.val (min n 1024)
    if n = 0 then h
    else if decide (n ≤ 1024) && h.bmapOk row.val es then h.bmapApply row.val es
    else h.lastCmd row.val stBadArg 0xFFFF 0

/-! ### Brown-out (R313) -/

/-- A pulse under way in a bank is ended cleanly. -/
def Hall.interruptBank (h : Hall) (r b : Nat) : Hall :=
  let u := bankU r b
  let op := h.getF .nvmcBankOp u
  if h.bankState r b = 1 ∧ (op = 1 ∨ op = 2) then
    let p := h.bankPblock r b
    let h := if op = 1 then h.tearPage r p (h.getF .nvmcBankPage u)
             else if (h.bankOp r b).deferred then h else h.tearBlock r p
    (((h.setF .nvmcBankBo u 1).bankEnd r b stInterrupted).bump .nvmcInterrupted r).urgent .brownout r u
  else h

/-- The detector asserts: every row's NVMC_STATUS shows it, and pulses end. -/
def Hall.brownoutArrays (h : Hall) : Hall :=
  upTo 8 h fun h r => upTo 16 (h.setF .nvmcStatusBrownout r 1) fun h b => h.interruptBank r b

def Hall.brownoutArraysClear (h : Hall) : Hall := upTo 8 h fun h r => h.setF .nvmcStatusBrownout r 0

/-- The governing role moves: open sequences are abandoned (Table 12.3); a completed command has been applied. -/
def Hall.nvmRoleMoved (h : Hall) : Hall :=
  upTo 8 h fun h r =>
    let h := h.nvRunComplete r
    if (h.array r).unlock.isSome then h.unlockAbandon r else h

/-! ### Scrub and relocation (R314, R315) -/

/-- The scrub moves on from its page; `skip` leaves the block for later. -/
def Hall.scrubNext (h : Hall) (r : Nat) (skip : Bool) : Hall :=
  let a := h.array r
  let blk := a.scrubPos / 256
  let skipped := if skip then a.scrubSkipped ++ [blk] else a.scrubSkipped
  if !skip && decide (a.scrubPos % 256 < 255) then h.updArray r fun a => { a with scrubPos := a.scrubPos + 1 }
  else if a.scrubNext < h.nvLogical then
    h.updArray r fun a => { a with scrubPos := a.scrubNext * 256, scrubNext := a.scrubNext + 1, scrubSkipped := skipped }
  else match skipped with
    | b :: rest => h.updArray r fun a => { a with scrubPos := b * 256, scrubSkipped := rest }
    | [] => (h.updArray r fun a => { a with scrubPos := 0, scrubNext := 1, scrubSkipped := [] }).setF .nvmcStatusScrub r 0

/-- Two copies differ: the block is to be settled (R316). -/
def Hall.settleDue (h : Hall) (r l : Nat) : Hall :=
  h.updArray (r % 4) fun a => { a with dueSettle := if a.dueSettle.contains l then a.dueSettle else a.dueSettle ++ [l] }

/-- One page of the scrub (R314). In rows 0–3 the copy in row r + 4 is read too, so its bank must be free as well. -/
def execNvmScrubPage (row : Fin 8) (weak uncorrectable : Bool) (s : State) : Host.Outcome State Fault Refusal :=
  s.run fun h =>
    let r := row.val
    let h := h.setF .nvmcStatusScrub r 1
    let a := h.array r
    let l := a.scrubPos / 256
    let o := a.scrubPos % 256 * nvPageBytes
    let other := (r + 4) % 8
    let p := h.nvPhys r l
    let q := h.nvPhys other l
    if !h.bankFree r (nvBank p) || (decide (r < 4) && !h.bankFree other (nvBank q)) then h.scrubNext r true
    else
      let h := (h.bump .nvmcPageReads r).bump .nvmcScrubPages r
      let h := if uncorrectable then (h.nvInternalFail r l).ordinary .nvm r l
               else if weak then (h.nvDue r l false).ordinary .nvm r l else h
      let h := if r < 4 then
          let h := h.bump .nvmcPageReads other
          if !uncorrectable && decide (h.nvRead r p o nvPageBytes ≠ h.nvRead other q o nvPageBytes) then
            (h.bump .nvmcMirrorDiff r).settleDue r l
          else h
        else if uncorrectable && h.bankFree other (nvBank q) then (h.bump .nvmcPageReads other).bump .nvmcMirrorReads r
        else h
      h.scrubNext r false

/-- Relocates a logical block to a spare with the content given (R315): spare programmed, map flipped, old block's erase
started; none where no spare is to be had or a bank is not free. -/
def Hall.nvRelocate (h : Hall) (r l : Nat) (content : Bytes) : Option Hall :=
  let old := h.nvPhys r l
  match h.nvSpare r with
  | none => none
  | some p =>
    if h.flag .nvmcStatusBrownout r || !h.bankFree r (nvBank old) || (h.bankOp r (nvBank old)).deferred then none
    else
      let h := upTo 256 h fun h i => h.nvProgramPage r p i (slice content (i * nvPageBytes) nvPageBytes)
      let h := (h.bmapApply r [(l, p)]).bump .nvmcRelocations r
      some (h.bankStart r old 0 2 true { deferred := decide (h.nvOldReads r old ≠ 0) })

/-- RELOCATION of a block that is due (R315). -/
def execRelocation (row : Fin 8) (lblock : Nat) (s : State) : Host.Outcome State Fault Refusal :=
  s.run fun h =>
    let r := row.val
    match Tab.find (h.array r).dueRelocation lblock with
    | none => h
    | some fromMirror =>
      let src := if fromMirror then (r + 4) % 8 else r
      match h.nvRelocate r lblock (h.nvRead src (h.nvPhys src lblock) 0 nvBlockBytes) with
      | some h => h.updArray r fun a => { a with dueRelocation := Tab.erase a.dueRelocation lblock }
      | none => h

end Sys2Proof.Machine
end

