-- ==== Sys2Proof/Machine/NbrLine.lean ====
section
/-! DEFINITION. Neighbour ports: link frames, their protection, sending, windows and credit (R395, R399, R400), and the
T3 reads a port carries (R402). The handshake and what received frames do are in `Nbr.lean`. -/

namespace Sys2Proof.Machine

def Hall.nbr (h : Hall) (p : Nat) : NbrPort := Tab.get {} h.nbrs p
def Hall.updNbr (h : Hall) (p : Nat) (f : NbrPort → NbrPort) : Hall := { h with nbrs := Tab.set h.nbrs p (f (h.nbr p)) }

/-- States of a link (NBR_STATUS.STATE). -/
def nbDown : Nat := 0
def nbHello : Nat := 1
def nbProve : Nat := 2
def nbKeying : Nat := 3
def nbUp : Nat := 4
def nbHoldoff : Nat := 5

def Hall.nbrState (h : Hall) (p : Nat) : Nat := h.getF .nbrStatusState p
def Hall.nbrUp (h : Hall) (p : Nat) : Bool := decide (h.nbrState p = nbUp)

/-- Header of a link frame (Table 16.2). -/
def linkHeader (conv typ kepoch flags seq len : Nat) : Bytes :=
  beBytes 1 conv ++ beBytes 1 typ ++ beBytes 1 kepoch ++ beBytes 1 flags ++ beBytes 4 seq ++ beBytes 2 len ++ [0, 0]

/-- Nonce of an encrypted link frame (R395). -/
def linkNonce (fromLead : Bool) (conv kepoch seq : Nat) : Bytes :=
  beBytes 1 ((if fromLead then 0 else 4) + conv) ++ beBytes 1 kepoch ++ List.replicate 6 0 ++ beBytes 4 seq

/-- Sends bytes on a port. -/
def Hall.nbrOut (h : Hall) (p : Nat) (frame : Bytes) : Hall := (h.emit (.nbrFrame p frame)).bump .nbrFramesOut p

/-- Sends a clear frame with the check value of R164. -/
def Hall.nbrClear (h : Hall) (p typ flags : Nat) (body : Bytes) : Hall :=
  let hd := linkHeader 0 typ 0 flags 0 body.length ++ body
  h.nbrOut p (hd ++ beBytes 2 (crc16 hd))

/-- An encrypted frame under keys and an epoch. -/
def sealLink (lead : Bool) (keys : List Bytes) (epoch conv typ seq : Nat) (body : Bytes) : Bytes :=
  let hd := linkHeader conv typ epoch 0 seq body.length
  hd ++ gcmSeal (keys.getD conv []) (linkNonce lead conv epoch seq) hd body

/-- Blocks of AES-GCM a frame protects. -/
def nbrGcmBlocks (n : Nat) : Nat := (n + 15) / 16

/-- Sends a control frame under given keys (R399: neither acknowledged nor retransmitted). -/
def Hall.nbrControlWith (h : Hall) (p : Nat) (keys : List Bytes) (epoch typ : Nat) (body : Bytes) : Hall :=
  let x := h.nbr p
  let f := sealLink (h.flag .nbrStatusLead p) keys epoch 0 typ x.ctlSend body
  (h.updNbr p fun x => { x with ctlSend := x.ctlSend + 1, blocks := x.blocks + nbrGcmBlocks body.length }).nbrOut p f

/-- Sends a control frame under the current epoch. -/
def Hall.nbrControl (h : Hall) (p typ : Nat) (body : Bytes) : Hall :=
  h.nbrControlWith p (h.nbr p).keys (h.getF .nbrStatusKepoch p) typ body

def NbrPort.conv (x : NbrPort) (c : Nat) : Conv := Tab.get {} x.convs c
def Hall.updConv (h : Hall) (p c : Nat) (f : Conv → Conv) : Hall :=
  h.updNbr p fun x => { x with convs := Tab.set x.convs c (f (x.conv c)) }

/-- A conversation may send a frame now: window of 1,024, at most 256 unacknowledged notices, activation credit. -/
def NbrPort.maySend (x : NbrPort) (c : Nat) (f : ConvFrame) : Bool :=
  let k := x.conv c
  decide (k.nextSeq < k.base + 1024) && (decide (c ≠ 3) || decide (k.unacked.length < 256)) &&
    decide (x.sentUnits + f.units ≤ x.limit ∨ f.units = 0)

/-- Sends one frame of conversation `c` under the next SEQ. -/
def Hall.convSend (h : Hall) (p c : Nat) (f : ConvFrame) : Hall :=
  let x := h.nbr p
  let k := x.conv c
  let bytes := sealLink (h.flag .nbrStatusLead p) x.keys (h.getF .nbrStatusKepoch p) c f.typ (k.nextSeq % 2 ^ 32) f.body
  let h := h.updNbr p fun x => { x with
    convs := Tab.set x.convs c { k with nextSeq := k.nextSeq + 1, unacked := Tab.set k.unacked k.nextSeq { f with bytes := bytes } }
    sentUnits := x.sentUnits + f.units, blocks := x.blocks + nbrGcmBlocks f.body.length }
  let h := h.nbrOut p bytes
  if f.typ = 0x2B then h.updNbr p fun x => { x with withdraws := x.withdraws ++ [k.nextSeq] }
  else if f.typ = 0x30 then
    h.updNbr p fun x =>
      let tag := beAt f.body 0 8
      { x with sentItems := Tab.set x.sentItems tag ((Tab.get (0, 0) x.sentItems tag).1, k.nextSeq) }
  else h

/-- Sends waiting frames while the limits allow. -/
def Hall.convPump (h : Hall) (p c : Nat) : Nat → Hall
  | 0 => h
  | n + 1 =>
    match ((h.nbr p).conv c).waiting with
    | [] => h
    | f :: rest =>
      if h.nbrUp p && (h.nbr p).maySend c f then
        ((h.updConv p c fun k => { k with waiting := rest }).convSend p c f).convPump p c n
      else h

/-- Queues a frame on a conversation of a port that is UP, and sends what may go (R404: discarded while it is not). -/
def Hall.nbrPost (h : Hall) (p c typ : Nat) (body : Bytes) (units : Nat := 0) : Hall :=
  if h.nbrUp p then
    let h := h.updConv p c fun k => { k with waiting := k.waiting ++ [{ typ := typ, body := body, units := units }] }
    h.convPump p c ((h.nbr p).conv c).waiting.length
  else h

/-- Free units of the hold area, 32 MiB (R220, R400): what is granted never exceeds them. -/
def NbrPort.heldUnits (x : NbrPort) : Nat :=
  x.items.foldl (fun n i => n + ceilDiv i.data.length 4096) 0

/-- LIMIT this side grants: units received and freed again, plus the size of the hold area. -/
def NbrPort.grantNow (x : NbrPort) : Nat := x.recvUnits + (8192 - x.heldUnits)

/-- Sends the ACK of a conversation (R399), on a link that is UP. -/
def Hall.nbrAck (h : Hall) (p c : Nat) : Hall :=
  if !h.nbrUp p then h
  else
    let h := if c = 2 then h.updNbr p fun x => { x with granted := max x.granted x.grantNow } else h
    let x := h.nbr p
    let k := x.conv c
    let map := (List.range 64).foldl (fun m i => if (Tab.find k.ahead (k.recvBase + 1 + i)).isSome then m + 2 ^ i else m) 0
    h.nbrControl p 0x07 (beBytes 1 c ++ [0, 0, 0] ++ beBytes 4 (k.recvBase % 2 ^ 32) ++ beBytes 8 map ++
      beBytes 4 (if c = 2 then x.granted % 2 ^ 32 else 0))

/-- Freed hold space is granted to the peer at once (R220, R400). -/
def Hall.creditPump (h : Hall) (p : Nat) : Hall :=
  if h.nbrUp p && decide ((h.nbr p).granted < (h.nbr p).grantNow) then h.nbrAck p 2 else h

/-! ### Notices (R219, R403) -/

/-- Notices go out once no ITEM frame of their tag waits on the port; AFTER names the last one sent. -/
def Hall.noticePump (h : Hall) (p : Nat) : Hall :=
  (h.nbr p).notices.foldl (fun h n =>
    if ((h.nbr p).conv 2).waiting.any fun f => f.typ = 0x30 && beAt f.body 0 8 = n.1 then h
    else
      let after := (Tab.get (0, 0) (h.nbr p).sentItems n.1).2
      (h.updNbr p fun x => { x with notices := x.notices.filter (· ≠ n), sentItems := Tab.erase x.sentItems n.1 }).nbrPost p 3 0x40
        (n.2 ++ beBytes 4 (after % 2 ^ 32))) h

/-- Queues a notice: KIND, CAUSE, ITEMS, TAG (Table 8.6). -/
def Hall.postNotice (h : Hall) (p kind cause items tag : Nat) : Hall :=
  if h.nbrUp p then
    (h.updNbr p fun x => { x with
      notices := x.notices ++ [(tag, beBytes 1 kind ++ beBytes 1 cause ++ beBytes 2 items ++ beBytes 8 tag)] }).noticePump p
  else h

/-! ### T3 reads (R402) -/

/-- Sends PAGE_READs that wait, up to 256 outstanding. -/
def Hall.farPump (h : Hall) (p : Nat) : Hall :=
  (h.nbr p).reads.foldl (fun h e =>
    let out := ((h.nbr p).reads.filter fun r => r.2.sent).length
    if e.2.sent || decide (256 ≤ out) || !h.nbrUp p then h
    else
      let h := h.updNbr p fun x => { x with reads := Tab.set x.reads e.1 { e.2 with sent := true } }
      h.nbrPost p 1 0x28 (beBytes 4 e.1 ++ beBytes 8 e.2.addr ++ beBytes 4 e.2.n)) h

/-- Starts a T3 read of `n` bytes at an address of the physical map. Through a port that is not UP nothing is sent, and
the read ends late (R268, R404). -/
def Hall.farStart (h : Hall) (addr n : Nat) (read : Nat) (fill : Option (Nat × Nat)) : Hall :=
  let p := (addr - 0x080000000000) / 0x040000000000
  let o := (addr - 0x080000000000) % 0x040000000000
  if h.nbrUp p then
    let t := (h.nbr p).nextTag
    (h.updNbr p fun x => { x with nextTag := (t + 1) % 2 ^ 32
                                  reads := Tab.set x.reads t { read := read, fill := fill, addr := o, n := n } }).farPump p
  else h

/-- Drops the T3 reads that served a lot read that has ended. -/
def Hall.farDrop (h : Hall) (read : Nat) : Hall :=
  upTo 4 h fun h p => (h.updNbr p fun x => { x with reads := Tab.keep (fun _ r => r.fill.isSome || decide (r.read ≠ read)) x.reads }).farPump p

end Sys2Proof.Machine
end

