-- ==== Sys2Proof/Machine/Image.lean ====
section
/-! DEFINITION. What an image holds, decoded: sections (R180), step records (R184), operand fields (R185), trough
descriptors (R190), Barrow descriptors (R280), LOTREF records (R333); groups and positions of runs (R205, R206). -/

namespace Sys2Proof.Machine

/-! ### Sections -/

def Image.sect (im : Image) (typ lrow lstall : Nat) : Option Section :=
  im.sections.find? fun s => s.typ = typ && s.lrow = lrow && s.lstall = lstall

/-- Records of `w` bytes of a section's data. -/
def records (w : Nat) (d : Bytes) : List Bytes := (List.range (d.length / w)).map fun i => slice d (w * i) w

def Image.records (im : Image) (typ lrow lstall w : Nat) : List Bytes :=
  match im.sect typ lrow lstall with
  | some s => Machine.records w s.data
  | none => []

/-- Logical stalls with a STEPS section, as (logical row, logical stall). -/
def Image.lstalls (im : Image) : List (Nat × Nat) :=
  (im.sections.filter fun s => s.typ = 1).map fun s => (s.lrow, s.lstall)

/-! ### Step records (Table 7.3) -/

/-- An operand field (Table 7.4). -/
structure Opnd where
  trough : Nat
  slots : Nat
  keep : Bool
  ufmt : Nat
  raw : Nat
deriving DecidableEq, Repr

def decodeOpnd (w : Nat) : Opnd :=
  { trough := bits w 4 0, slots := bits w 23 8, keep := bit w 6, ufmt := bits w 27 24, raw := w }

/-- A decoded step record; `bytes` are its 64 bytes. -/
structure Step where
  eng : Nat
  ctx : Nat
  gend : Bool
  pair : Nat
  direct : Bool
  chk : Bool
  shadow : Bool
  token : Bool
  ftol : Nat
  ofmt : Nat
  afmt : Nat
  wfmt : Nat
  altN : Nat
  alt : List Nat
  group : Nat
  rows : Nat
  cols : Nat
  k : Nat
  rank : Nat
  za : Int
  a : Opnd
  w : Opnd
  u : Opnd
  o : Opnd
  param : Nat
  table : Nat
  outl : Nat
  outlEn : Bool
  adapt : Nat
  gain : Nat
  epi : Nat
  opsN : Nat
  rcheck : Nat
  bytes : Bytes
deriving DecidableEq, Repr

def decodeStep (b : Bytes) : Step :=
  let w := fun o n => leAt b o n
  { eng := bits (w 0 1) 1 0, ctx := bits (w 0 1) 4 2, gend := bit (w 0 1) 5
    pair := bits (w 1 1) 3 0, direct := bit (w 1 1) 4, chk := bit (w 1 1) 5, shadow := bit (w 1 1) 6, token := bit (w 1 1) 7
    ftol := bits (w 2 1) 2 0, ofmt := bits (w 2 1) 7 4, afmt := bits (w 3 1) 3 0, wfmt := bits (w 3 1) 7 4
    altN := bits (w 4 4) 2 0
    alt := (List.range (bits (w 4 4) 2 0)).map fun i => bits (w 4 4) (3 * i + 5) (3 * i + 3)
    group := w 8 2, rows := w 10 2 + 1, cols := w 12 2 + 1, k := bits (w 14 3) 19 0 + 1, rank := bits (w 17 1) 6 0
    za := toSigned 16 (w 18 2)
    a := decodeOpnd (w 20 4), w := decodeOpnd (w 24 4), u := decodeOpnd (w 28 4), o := decodeOpnd (w 32 4)
    param := bits (w 36 4) 21 0, table := bits (w 40 4) 21 0, outl := bits (w 44 4) 21 0, outlEn := bit (w 44 4) 31
    adapt := bits (w 48 4) 21 0, gain := w 52 4, epi := bits (w 56 4) 21 0, opsN := bits (w 56 4) 25 22
    rcheck := w 60 2, bytes := b }

/-- The step records of a stall, decoded. -/
def Stall.step (x : Stall) (i : Nat) : Option Step := (x.steps[i]?).map fun w => decodeStep (leBytes 64 w)

def Stall.allSteps (x : Stall) : List Step := x.steps.map fun w => decodeStep (leBytes 64 w)

/-- Indices of the records of a context, in list order. -/
def Stall.ctxIdx (x : Stall) (c : Nat) : List Nat :=
  (List.range x.steps.length).filter fun i => bits (x.steps.getD i 0) 4 2 = c

/-! ### Trough descriptors (Table 7.6) -/

def decodeTrough (b : Bytes) : TroughDesc :=
  { base := bits (leAt b 0 4) 21 0, slotLines := bits (leAt b 4 2) 12 0, nslot := bits (leAt b 6 1) 4 0
    scaleLines := bits (leAt b 8 2) 12 0, prod := bits (leAt b 10 1) 2 0, cons := bits (leAt b 10 1) 5 3, chain := leAt b 12 2 }

/-! ### Barrow descriptors (Table 11.1) -/

structure Desc where
  src : Nat
  dst : Nat
  run : Nat
  n0 : Nat
  n1 : Nat
  n2 : Nat
  ss : List Int
  ds : List Int
  sspace : Nat
  dspace : Nat
  ssel : Nat
  dsel : Nat
  strough : Nat
  dtrough : Nat
  last : Bool
  slotend : Bool
  tile : Bool
  prio : Nat
  next : Nat
  srow : Nat
  drow : Nat
  dcheck : Nat
  bytes : Bytes
deriving DecidableEq, Repr

def decodeDesc (b : Bytes) : Desc :=
  let w := fun o n => leAt b o n
  { src := bits (w 0 8) 47 0, dst := bits (w 8 8) 47 0, run := (bits (w 16 2) 13 0 + 1) * 4
    n0 := w 18 2 + 1, n1 := w 20 2 + 1, n2 := w 22 2 + 1
    ss := [toSigned 32 (w 24 4), toSigned 32 (w 28 4), toSigned 32 (w 32 4)]
    ds := [toSigned 32 (w 36 4), toSigned 32 (w 40 4), toSigned 32 (w 44 4)]
    sspace := w 48 1 % 16, dspace := w 48 1 / 16, ssel := w 49 1 % 16, dsel := w 49 1 / 16
    strough := bits (w 50 1) 4 0, dtrough := bits (w 51 1) 4 0
    last := bit (w 52 1) 0, slotend := bit (w 52 1) 1, tile := bit (w 52 1) 2, prio := bits (w 53 1) 2 0, next := w 54 2
    srow := bits (w 56 1) 2 0, drow := bits (w 56 1) 6 4, dcheck := w 60 2, bytes := b }

/-- Address of run (i0, i1, i2) on one side (R282). -/
def runAddr (base : Nat) (steps : List Int) (i0 i1 i2 : Nat) : Int :=
  (base : Int) + (i0 : Int) * steps.getD 0 0 + (i1 : Int) * steps.getD 1 0 + (i2 : Int) * steps.getD 2 0

/-- Lowest and highest byte address of a side over all runs (R285). -/
def Desc.extent (d : Desc) (source : Bool) : Int × Int :=
  let base := if source then d.src else d.dst
  let st := if source then d.ss else d.ds
  let ends := [0, d.n0 - 1].flatMap fun a => [0, d.n1 - 1].flatMap fun b => [0, d.n2 - 1].map fun c => runAddr base st a b c
  (ends.foldl min (base : Int), ends.foldl max (base : Int) + d.run - 1)

/-- Descriptors of a section. -/
def Image.descs (im : Image) (lrow : Option Nat) : List Desc :=
  (match lrow with
   | some l => im.records 4 l 255 64
   | none => im.records 5 255 255 64).map decodeDesc

/-- Indices of the descriptors that no other descriptor's NEXT names: the chains, by their first descriptor. -/
def chainHeads (ds : List Desc) : List Nat :=
  (List.range ds.length).filter fun i => ds.all fun d => d.last || decide (d.next ≠ i)

/-- Indices of a chain from its first descriptor to LAST. -/
def chainFrom (ds : List Desc) (i : Nat) : Nat → List Nat
  | 0 => []
  | n + 1 => match ds[i]? with
    | some d => i :: (if d.last then [] else chainFrom ds d.next n)
    | none => []

def chainOf (ds : List Desc) (i : Nat) : List Nat := chainFrom ds i ds.length

/-- MVA pages that an image's chains name (Table 10.7): space-0 sides at their full extent. -/
def Image.namesPage (im : Image) (page : Nat) : Bool :=
  let side := fun (d : Desc) (s : Bool) =>
    decide ((if s then d.sspace else d.dspace) = 0) &&
      decide ((d.extent s).1 < ((page + 1) * 65536 : Nat)) && decide (((page * 65536 : Nat) : Int) ≤ (d.extent s).2)
  (((List.range 8).flatMap fun l => im.descs (some l)) ++ im.descs none).any fun d => side d true || side d false

/-! ### LOTREF records (Table 13.3) -/

def Image.lotrefs (im : Image) : List Bytes := im.records 9 255 255 16

/-- LOT_ID of a lot record by its index. -/
def Image.lotId (im : Image) (i : Nat) : Nat := leAt (im.lotrefs.getD i []) 4 4

/-- Layers an image reads: LOT_ID, layer, ENTRY group, EXIT group. -/
def Image.layerRefs (im : Image) : List (Nat × Nat × Nat × Nat) :=
  (im.lotrefs.filter fun r => leAt r 0 1 = 3).map fun r => (im.lotId (leAt r 1 1), leAt r 4 2, leAt r 6 2, leAt r 8 2)

/-- Decode tables an image reads: LOT_ID, logical row, logical stall, tensor, stall-store offset. -/
def Image.tableRefs (im : Image) : List (Nat × Nat × Nat × Nat × Nat) :=
  (im.lotrefs.filter fun r => leAt r 0 1 = 4).map fun r =>
    (im.lotId (leAt r 1 1), leAt r 2 1, leAt r 3 1, leAt r 4 4, leAt r 8 4)

/-- Row-buffer range of a logical row: offset and length. -/
def Image.rbuf (im : Image) (l : Nat) : Option (Nat × Nat) :=
  (im.lotrefs.find? fun r => leAt r 0 1 = 5 && leAt r 1 1 = l).map fun r => (leAt r 4 4, leAt r 8 4)

/-- LOT_IDs of lots and adapters that an image names. -/
def Image.lotIds (im : Image) : List Nat :=
  (im.lotrefs.filter fun r => leAt r 0 1 = 1 || leAt r 0 1 = 6).map fun r => leAt r 4 4

/-! ### Groups and positions -/

/-- Logical row of a group: that of the first stall whose list names it (R204). -/
def Image.groupRow (im : Image) (g : Nat) : Option Nat :=
  (im.lstalls.find? fun ls => (im.records 1 ls.1 ls.2 64).any fun b => leAt b 8 2 = g).map Prod.fst

/-- Groups of an image in one logical row, in increasing order. -/
def Image.groupsIn (im : Image) (l : Nat) : List Nat :=
  (im.groups.map fun g => g.group).filter fun g => im.groupRow g = some l

/-- Position of a group run among its image's runs in the row (R206). -/
def Image.position (im : Image) (l pass g : Nat) : Nat :=
  let gs := im.groupsIn l
  pass * gs.length + (gs.filter (· < g)).length

/-- Pass and group at a position. -/
def Image.atPosition (im : Image) (l n : Nat) : Nat × Nat :=
  let gs := im.groupsIn l
  if gs.length = 0 then (0, 0) else (n / gs.length, gs.getD (n % gs.length) 0)

def Image.nstep (im : Image) (g : Nat) : Nat :=
  match im.groups.find? fun r => r.group = g with
  | some r => r.nstep
  | none => 0

/-- Image loaded under a handle that is bound to stalls. -/
def Image.loaded (im : Image) : Bool := im.state ≠ .empty && im.state ≠ .loading

/-- Logical row of an image that a physical row carries. -/
def Image.lrowOf (im : Image) (row : Nat) : Option Nat := (im.rows.find? fun e => e.2 = row).map Prod.fst

/-- Physical stall of a logical stall. -/
def Image.pstall (im : Image) (l s : Nat) : Option Nat := Tab.find im.stalls (16 * l + s)

/-- The image bound to a stall. -/
def Hall.stallImage (h : Hall) (i : Nat) : Option Image :=
  match (h.stall i).image with
  | some k => h.image k
  | none => none

/-- Tag of a run (Table 8.1). -/
def tagOf (k : RunKey) (depth epoch : Nat) : Nat :=
  k.row * 2 ^ 61 + k.limg * 2 ^ 58 + depth * 2 ^ 55 + (epoch % 256) * 2 ^ 32 + (k.pass % 65536) * 2 ^ 16 + k.group % 65536

/-- A tag without its EPOCH (R221). -/
def tagBare (t : Nat) : Nat := t - bits t 39 32 * 2 ^ 32
def tagEpoch (t : Nat) : Nat := bits t 39 32

end Sys2Proof.Machine
end

