-- ==== Sys2Proof/Machine/Pool.lean ====
section
/-! DEFINITION. T1 and its pool (R262–R270): frames, sub-pools, fills and evictions, lot-page reads on time, late and
failed, and the scrub of T1. -/

namespace Sys2Proof.Machine

/-- First physical page of a half, and pages in it (R262). -/
def halfBase (hub : Hub) : Nat := hubNum hub * 2097152
def halfPages : Nat := 1966080
def reservePages : Nat := 32768

/-- Pages of a half that pens and the pool may have. -/
def inHalf (hub : Hub) (page : Nat) : Bool :=
  decide (halfBase hub + reservePages ≤ page) && decide (page < halfBase hub + halfPages)

/-- Half of a physical page. -/
def halfOf (page : Nat) : Hub := if page < 2097152 then .a else .b

/-- Pages of a half in use by pens, and by the sub-pool. -/
def Hall.usedIn (h : Hall) (hub : Hub) : List Nat := (h.tiers.frames.map Prod.fst).filter (inHalf hub)
def Hall.pooledIn (h : Hall) (hub : Hub) : List Nat := (h.pool hub).frames.map Prod.fst

/-- Free pages of a half. -/
def Hall.freeIn (h : Hall) (hub : Hub) : Nat :=
  halfPages - reservePages - (h.usedIn hub).length - (h.pooledIn hub).length

/-- The `n` lowest free pages of a half (log entry 25: the manual does not say which frames Jenig takes). -/
def Hall.lowPages (h : Hall) (hub : Hub) (n : Nat) : List Nat :=
  let taken := h.usedIn hub ++ h.pooledIn hub
  (((List.range (taken.length + n)).map (· + (halfBase hub + reservePages))).filter fun p =>
    inHalf hub p && !taken.contains p).take n

/-- The `n` highest free pages of a half, for the pool. -/
def Hall.highPages (h : Hall) (hub : Hub) (n : Nat) : List Nat :=
  let taken := h.usedIn hub ++ h.pooledIn hub
  (((List.range (taken.length + n)).map fun i => halfBase hub + halfPages - 1 - i).filter fun p =>
    inHalf hub p && !taken.contains p).take n

/-! ### Sub-pools (R264–R267) -/

/-- Size of a sub-pool: frames that are not leaving it. -/
def Pool.size (p : Pool) : Nat := (p.frames.filter fun e => !e.2.leaving).length
def Pool.valid (p : Pool) : Nat := (p.frames.filter fun e => e.2.state = .valid).length

def Hall.updFrame (h : Hall) (hub : Hub) (page : Nat) (f : PoolFrame → PoolFrame) : Hall :=
  h.updPool hub fun p => match Tab.find p.frames page with
    | some x => { p with frames := Tab.set p.frames page (f x) }
    | none => p

/-- The oldest VALID frame. -/
def Pool.oldest (p : Pool) : Option Nat :=
  (p.frames.foldl (fun (best : Option (Nat × Nat)) e =>
    if e.2.state = .valid then
      match best with
      | some b => if e.2.stamp < b.2 then some (e.1, e.2.stamp) else best
      | none => some (e.1, e.2.stamp)
    else best) none).map Prod.fst

/-- Starts the copy of a home page into a frame: FREE or handed over, to FILLING. -/
def Hall.startCopy (h : Hall) (hub : Hub) (page home : Nat) : Hall :=
  let h := h.updFrame hub page fun x => { x with state := .filling, home := home, next := none, copy := [] }
  if 0x080000000000 ≤ home * 65536 then h.farStart (home * 65536) 65536 0 (some (hubNum hub, page)) else h

/-- Starts a fill with a home page (R265, R266): a FREE frame, otherwise the oldest VALID one as victim, otherwise the
promotion is skipped. A page that is being filled already is not filled again. -/
def Hall.poolFill (h : Hall) (hub : Hub) (home : Nat) : Hall :=
  let p := h.pool hub
  if p.size = 0 || p.frames.any (fun e => (e.2.state = .filling && e.2.home = home) || e.2.next = some home) then h
  else match p.frames.find? fun e => e.2.state = .free && !e.2.leaving with
    | some (page, _) => h.startCopy hub page home
    | none => match p.oldest with
      | some page => h.updFrame hub page fun x => { x with state := .draining, next := some home }
      | none => h.bump .mmuPoolSkip (hubNum hub)

/-- Gives a frame a new stamp: the young end of the order. -/
def Hall.stampFrame (h : Hall) (hub : Hub) (page : Nat) : Hall :=
  let s := (h.pool hub).nextStamp
  (h.updFrame hub page fun x => { x with state := .valid, stamp := s, next := none }).updPool hub fun p => { p with nextStamp := s + 1 }

/-- Renewal of a VALID or DRAINING frame (R265, R266): an eviction under way is withdrawn, and its fill takes the
next-oldest VALID frame. -/
def Hall.renewFrame (h : Hall) (hub : Hub) (page : Nat) (x : PoolFrame) : Hall :=
  let u := hubNum hub
  let h := (h.stampFrame hub page).bump .mmuRenewals u
  match x.state, x.next with
  | .draining, some home =>
    let h := h.bump .mmuEvictYields u
    match ((h.pool hub).frames.filter fun e => decide (e.1 ≠ page)) |> fun fs => ({ frames := fs } : Pool).oldest with
    | some v => h.updFrame hub v fun y => { y with state := .draining, next := some home }
    | none => h.bump .mmuPoolSkip u
  | _, _ => h

/-- The frame that holds a home page. -/
def Pool.holds (p : Pool) (home : Nat) : Option (Nat × PoolFrame) :=
  p.frames.find? fun e => e.2.home = home && (e.2.state = .valid || e.2.state = .draining)

/-- Looks a lot page up for a read (R264): the frame that serves it, if any; a read with PROMOTE renews or promotes. -/
def Hall.poolLook (h : Hall) (hub : Hub) (home : Nat) (promote : Bool) : Option Nat × Hall :=
  match (h.pool hub).holds home with
  | some (page, x) =>
    if promote then (some page, (h.renewFrame hub page x).bump .mmuPoolHits (hubNum hub))
    else if x.state = .valid then (some page, h.bump .mmuPoolHits (hubNum hub))
    else (none, h)
  | none => (none, if promote then h.poolFill hub home else h)

/-- A resize ends once no frame is left that leaves (R274). -/
def Hall.poolSettle (h : Hall) : Hall :=
  match h.tiers.poolA.resize with
  | none => h
  | some op =>
    if (h.tiers.poolA.frames ++ h.tiers.poolB.frames).any fun e => e.2.leaving then h
    else
      let h := (h.updPool .a fun p => { p with resize := none }).updPool .b fun p => { p with resize := none }
      h.closeOp op stOK

/-- A frame becomes FREE, or leaves the pool. -/
def Hall.freeFrame (h : Hall) (hub : Hub) (page : Nat) : Hall :=
  (h.updPool hub fun p => match Tab.find p.frames page with
    | some x => if x.leaving then { p with frames := Tab.erase p.frames page } else { p with frames := Tab.set p.frames page {} }
    | none => p).poolSettle

/-- Invalidation of the frames of the home pages given, in one sub-pool (Table 10.4). A fill that waited for such a frame
takes another. -/
def Hall.poolInvalidateIn (h : Hall) (hub : Hub) (bad : Nat → Bool) : Hall :=
  (h.pool hub).frames.foldl (fun h e =>
    if (e.2.state = .valid || e.2.state = .draining) && bad e.2.home then
      let h := h.updFrame hub e.1 fun x => { x with state := .invalid, next := none }
      match e.2.next with
      | some home => h.poolFill hub home
      | none => h
    else h) h

def Hall.poolInvalidate (h : Hall) (bad : Nat → Bool) : Hall := (h.poolInvalidateIn .a bad).poolInvalidateIn .b bad

/-- A burst translated to a frame has finished. -/
def Hall.frameBurstDone (h : Hall) (hub page : Nat) : Hall := h.updFrame (hubOf hub) page fun x => { x with bursts := x.bursts - 1 }

/-- POOL_FILL_DONE (R265): a clean copy makes the frame VALID; one that arrived poisoned, or past its late bound, frees it
and the promotion counts as discarded. -/
def execPoolFillDone (hub : Hub) (frame : Nat) (failed : Bool) (s : State) : Host.Outcome State Fault Refusal :=
  s.run fun h =>
    match Tab.find (h.pool hub).frames frame with
    | none => h
    | some x =>
      if x.state ≠ .filling then h
      else
        let a := x.home * 65536
        let (copy, h) := if 0x080000000000 ≤ a then ((if x.copy = [] then none else some x.copy), h)
          else h.nvMirrorRead ((a - 0x040000000000) / 0x008000000000 % 4) (a % 0x008000000000) 65536
        match copy with
        | some p =>
          if failed || x.leaving || (p.any fun (y : PByte) => y.poison) then (h.bump .mmuPoolSkip (hubNum hub)).freeFrame hub frame
          else ((h.writeRam (frame * 65536) p).updFrame hub frame fun x => { x with copy := [] }).stampFrame hub frame
                |>.bump .mmuPromotions (hubNum hub)
        | none => if failed then (h.bump .mmuPoolSkip (hubNum hub)).freeFrame hub frame else h

/-- POOL_DRAIN_DONE (R265): the frame is handed to the evictor's fill. -/
def execPoolDrainDone (hub : Hub) (frame : Nat) (s : State) : Host.Outcome State Fault Refusal :=
  s.run fun h =>
    match Tab.find (h.pool hub).frames frame with
    | some x =>
      if x.state = .draining ∧ x.bursts = 0 then
        match x.next with
        | some home => (h.startCopy hub frame home).bump .mmuEvictions (hubNum hub)
        | none => h
      else h
    | none => h

/-- POOL_INVALID_DRAINED (R265). -/
def execPoolInvalidDrained (hub : Hub) (frame : Nat) (s : State) : Host.Outcome State Fault Refusal :=
  s.run fun h =>
    match Tab.find (h.pool hub).frames frame with
    | some x => if x.state = .invalid ∧ x.bursts = 0 then h.freeFrame hub frame else h
    | none => h

/-! ### Lot-page reads (R268, R301) -/

/-- Starts a read of a lot page from its home tier: T2 by the preferred copy's translation, T3 by PAGE_READ. `issuer` is
the row that issues it, none for a hub (R301). -/
def Hall.lotReadStart (h : Hall) (hub : Hub) (chan pen page addr n : Nat) (issuer : Option Nat) : Nat × Hall :=
  let id := h.tiers.nextRead
  let row := (addr - 0x040000000000) / 0x008000000000 % 8
  let l := addr % 0x008000000000 / nvBlockBytes
  let first := match issuer with
    | some r => if r % 4 = row % 4 then r else row % 4
    | none => row % 4
  let pref := if h.rowGone first && !h.rowGone ((first + 4) % 8) then (first + 4) % 8 else first
  let x : LotRead := { hub := hub, chan := chan, pen := pen, page := page, addr := addr, n := n, pref := pref
                       prefBlk := h.nvPhys pref l, otherBlk := h.nvPhys ((pref + 4) % 8) l }
  let h := { h with tiers.reads := Tab.set h.tiers.reads id x, tiers.nextRead := id + 1 }
  (id, if 0x080000000000 ≤ addr then h.farStart addr n id none else h)

/-- Delivers the data of a lot read to the burst that waits for it. -/
def Hall.lotDeliver (h : Hall) (id : Nat) (x : LotRead) (p : Payload) : Hall :=
  let h := { h with tiers.reads := Tab.erase h.tiers.reads id }
  h.updChan x.chan fun c => { c with outstanding := c.outstanding.map fun (b : DmaBurst) =>
    if b.read = (some id : Option Nat) then { b with read := none, payload := some p } else b }

/-- LOT_READ_RETURN (R268): the data the home tier returned is delivered; poisoned data is a failed read, CAUSE 4. -/
def execLotReadReturn (id : Nat) (s : State) : Host.Outcome State Fault Refusal :=
  s.run fun h =>
    match Tab.find h.tiers.reads id with
    | none => h
    | some x => match x.result with
      | none => h
      | some p =>
        let h := if (p.any fun (y : PByte) => y.poison) then
            (h.bump .mmuFailedReads (hubNum x.hub)).latchMmu (hubNum x.hub) 4 x.pen x.page
          else h
        h.lotDeliver id x p

/-- LOT_READ_LATE (R268): the lines are delivered poisoned with the late mark, CAUSE 3. -/
def execLotReadLate (id : Nat) (s : State) : Host.Outcome State Fault Refusal :=
  s.run fun h =>
    match Tab.find h.tiers.reads id with
    | none => h
    | some x =>
      let (bs, h) := h.draw x.n
      let h := (h.bump .mmuLateReads (hubNum x.hub)).latchMmu (hubNum x.hub) 3 x.pen x.page
      (h.lotDeliver id x (bs.map fun b => { b := b, poison := true, late := true })).farDrop id

/-! ### T1 scrub (R270, R272) -/

/-- T1_SCRUB_STEP: a line of the hub's half with `errors` symbol errors. One or two are corrected and counted; three or
more that are detected mark the line. The last line of the half ends the pass. -/
def execT1ScrubStep (hub : Hub) (line : Nat) (errors : Nat) (s : State) : Host.Outcome State Fault Refusal :=
  s.run fun h =>
    let u := hubNum hub
    if h.region (line * 64) ≠ .t1 hub then h
    else
      let h := h.setF .mmuStatusScrub u 1
      let h :=
        if errors = 0 then h
        else if errors ≤ 2 then h.errorCount .mmuT1CeCount .mmuT1CeHit u 1 (h.getF .mmuCfgCeThresh u) .t1Error
        else
          let h := h.setMark line { poison := true, late := (h.mark line).late }
          ((h.bump .mmuT1Uncorrected u).latchMmu u 5 0 (line * 64 / 65536)).ordinary .t1Error u line
      if (line + 1) * 64 = (halfBase hub + halfPages) * 65536 then
        (h.setF .mmuStatusScrub u 0).bump .mmuScrubPasses u
      else h

/-- Counters and latches of MMU_ are cleared at the hub's next translation (R275). -/
def execMmuClearCe (req : Requester) (hub : Hub) (s : State) : Host.Outcome State Fault Refusal :=
  s.board req fun h => h.mmuDue (hubNum hub) fun d => { d with ce := true }
def execMmuClearLast (req : Requester) (hub : Hub) (s : State) : Host.Outcome State Fault Refusal :=
  s.board req fun h => h.mmuDue (hubNum hub) fun d => { d with last := true }
def execMmuClearStats (req : Requester) (hub : Hub) (s : State) : Host.Outcome State Fault Refusal :=
  s.board req fun h => h.mmuDue (hubNum hub) fun d => { d with stats := true }

end Sys2Proof.Machine
end

