-- ==== Sys2Proof/Machine/Mem.lean ====
section
/-! DEFINITION. The MEM commands (R263, R264, R273, R274). -/

namespace Sys2Proof.Machine

/-- An L3 entry (Table 10.1). -/
def mkPte (typ : Nat) (w promote : Bool) (addr late : Nat) : Nat :=
  2 ^ 63 + typ * 2 ^ 61 + b2n w * 2 ^ 60 + b2n promote * 2 ^ 59 + addr / 65536 * 65536 + late

/-- QUOTA and USED of a pen, the same in both hubs. -/
def Hall.penUsed (h : Hall) (p : Nat) : Nat := h.getF .mmuPenUsed p
def Hall.penQuota (h : Hall) (p : Nat) : Nat := h.getF .mmuPenQuota p
def Hall.setUsed (h : Hall) (p v : Nat) : Hall := (h.setF .mmuPenUsed p v).setF .mmuPenUsed (32 + p) v
def Hall.setQuota (h : Hall) (p v : Nat) : Hall := (h.setF .mmuPenQuota p v).setF .mmuPenQuota (32 + p) v

/-- Takes a frame for a pen: zeroed, charged, and of the pen's world (R263, R422, R426, log entry 15). -/
def Hall.takeFrame (h : Hall) (p page : Nat) : Hall :=
  let h := { h.zero (page * 65536) 65536 with tiers.frames := Tab.set h.tiers.frames page p }
  (h.setWorld 9 page (h.penSecure p)).setUsed p (h.penUsed p + 1)

/-- Gives a frame back: zeroed, secure, charged to no pen. -/
def Hall.dropFrame (h : Hall) (p page : Nat) : Hall :=
  let h := { h.zero (page * 65536) 65536 with tiers.frames := Tab.erase h.tiers.frames page }
  (h.setWorld 9 page true).setUsed p (h.penUsed p - 1)

/-- Physical home address of a lot offset (R325): the pair's row below 4. -/
def Lot.homeOf (l : Lot) (off : Nat) : Option Nat :=
  let rec go : List (Nat × Nat × Nat) → Nat → Option Nat
    | [], _ => none
    | (pair, sector, shards) :: rest, o =>
      if o < shards * 4194304 then some (0x040000000000 + pair * 0x008000000000 + sector * 2 ^ 30 + o)
      else go rest (o - shards * 4194304)
  go l.parts off

/-- Bytes of a lot's shards. -/
def Lot.bytes (l : Lot) : Nat := l.parts.foldl (fun n p => n + p.2.2 * 4194304) 0

/-- MVA pages of a MEM command's range, by number. -/
def pageRange (page n : Nat) : List Nat := (List.range n).map (page + ·)

/-- Pages of a range that a mapping occupies: a valid entry, or one whose frames are still being zeroed. -/
def Hall.pageTaken (h : Hall) (p page : Nat) : Bool :=
  (h.pte p (page * 65536)).isSome ||
    h.tiers.zeroing.any fun z => z.2.pen = p && decide (z.2.page ≤ page) && decide (page < z.2.page + z.2.frames.length)

/-- What MEM_MAP's payload asks for. -/
structure MapArgs where
  page : Nat
  n : Nat
  typ : Nat
  w : Bool
  promote : Bool
  half : Nat
  late : Nat
  lot : Nat
  lotOff : Nat
  host : Nat
deriving DecidableEq, Repr

/-- The half a TYPE 1 mapping takes its frames from; with "either", half A where it has room (log entry 25). -/
def Hall.mapHalf (h : Hall) (a : MapArgs) : Hub :=
  if a.half = 0 then .a else if a.half = 1 then .b else if a.n ≤ h.freeIn .a then .a else .b

/-- BAD_ARGUMENT of MEM_MAP (Table 10.7). -/
def mapBad (h : Hall) (c : TillCmd) (a : MapArgs) : Bool :=
  let len := if a.typ = 2 then 28 else if a.typ = 3 then 24 else 16
  let reach := match h.lot a.lot with
    | some l => decide (l.bytes < a.lotOff + a.n * 65536)
    | none => false
  decide (c.length ≠ len) || decide (2 ^ 48 ≤ c.arg 0 8) || decide (c.arg 0 8 % 65536 ≠ 0) || decide (a.n = 0) ||
    decide (2 ^ 32 < a.page + a.n) || decide (a.typ = 0) || decide (3 < a.typ) ||
    (pageRange a.page a.n).any (h.pageTaken c.pen) ||
    (decide (a.typ = 2) && a.w) || (decide (a.typ ≠ 2) && a.promote) || (decide (a.typ ≠ 1) && decide (a.half ≠ 0)) ||
    decide (a.half = 3) || (decide (a.typ ≠ 2) && decide (a.late ≠ 0)) || decide (16 ≤ c.arg 13 1) ||
    (decide (a.typ = 2) && (decide (a.lotOff % 65536 ≠ 0) || reach)) ||
    (decide (a.typ = 3) && (decide (a.host % 65536 ≠ 0) || decide (2 ^ 58 < a.host + a.n * 65536)))

/-- MEM_MAP (R263, R274). More than 1,024 T1 pages are ACCEPTED and mapped once their frames are zeroed. -/
def execMemMap (till : Fin 128) (s : State) : Host.Outcome State Fault Refusal :=
  s.till till.val 0x0401 forP0 fun c h =>
    let a : MapArgs := { page := c.arg 0 8 / 65536, n := c.arg 8 4, typ := c.arg 12 1, w := bit (c.arg 13 1) 0
                         promote := bit (c.arg 13 1) 1, half := bits (c.arg 13 1) 3 2, late := c.arg 14 2
                         lot := c.arg 16 4, lotOff := c.arg 20 8, host := c.arg 16 8 }
    if mapBad h c a then refuse h stBadArg
    else if a.typ = 1 then
      let half := h.mapHalf a
      if h.penQuota c.pen < h.penUsed c.pen + a.n ∨ h.freeIn half < a.n then refuse h stNoResource
      else
        let pages := h.lowPages half a.n
        if a.n ≤ 1024 then
          okWith ((List.zip (pageRange a.page a.n) pages).foldl (fun h e =>
            (h.takeFrame c.pen e.2).setPte c.pen (e.1 * 65536) (some (mkPte 1 a.w false (e.2 * 65536) 0))) h)
        else acceptOp h c fun k h =>
          let h := pages.foldl (fun h p => h.takeFrame c.pen p) h
          { h with tiers.zeroing := Tab.set h.tiers.zeroing k { pen := c.pen, page := a.page, frames := pages, write := a.w } }
    else if a.typ = 2 then
      match h.lot a.lot with
      | some l =>
        if !l.grants.contains c.pen then refuse h stNotPermitted
        else okWith ((List.range a.n).foldl (fun h i => match l.homeOf (a.lotOff + i * 65536) with
          | some addr => h.setPte c.pen ((a.page + i) * 65536) (some (mkPte 2 false a.promote addr a.late))
          | none => h) h)
      | none => refuse h stNotPermitted
    else okWith ((List.range a.n).foldl (fun h i =>
      h.setPte c.pen ((a.page + i) * 65536) (some (mkPte 3 a.w false (a.host + i * 65536) 0))) h)

/-- The zeroing of a large MEM_MAP is done: the pages are mapped, and TILL_DONE follows. -/
def execMemMapZeroed (handle : Nat) (s : State) : Host.Outcome State Fault Refusal :=
  s.run fun h => match Tab.find h.tiers.zeroing handle with
    | none => h
    | some z =>
      let h := (List.zip (pageRange z.page z.frames.length) z.frames).foldl (fun h e =>
        h.setPte z.pen (e.1 * 65536) (some (mkPte 1 z.write false (e.2 * 65536) 0))) h
      ({ h with tiers.zeroing := Tab.erase h.tiers.zeroing handle }).closeOp handle stOK

/-- Pages of an MVA range of a request. -/
def inRange (page mva n : Nat) : Bool := decide (n ≠ 0) && decide (mva / 65536 ≤ page) && decide (page ≤ (mva + n - 1) / 65536)

/-- A request in flight, or a loaded image's chain, names a page (Table 10.7). -/
def Hall.pageNamed (h : Hall) (p page : Nat) : Bool :=
  h.data.requests.any (fun e => e.2.pen = p && (inRange page e.2.inMva e.2.inBytes || inRange page e.2.outMva e.2.outBytes)) ||
    h.data.images.any fun e => e.2.pen = p && e.2.loaded && e.2.namesPage page

/-- Pages of a tile region. -/
def TileRegion.elemBytes (t : TileRegion) : Nat := fmtBits t.fmt / 8
def TileRegion.bytes (t : TileRegion) : Nat := t.rows * t.cols * t.elemBytes
def TileRegion.covers (t : TileRegion) (page : Nat) : Bool := inRange page t.base t.bytes

def Hall.tilesOf (h : Hall) (p : Nat) : List (Nat × TileRegion) := h.tiers.tiles.filter fun e => e.1 / 64 = p

/-- No other entry of the module maps a home page. -/
def Hall.homeMapped (h : Hall) (home : Nat) : Bool :=
  h.tiers.pages.any fun e => pteType e.2 = 2 && ptePhys e.2 = home * 65536

/-- Removes one mapping: its frame goes back, and a lot page that nothing maps any more leaves the pool (Table 10.4). -/
def Hall.unmapPage (h : Hall) (p page : Nat) : Hall :=
  match h.pte p (page * 65536) with
  | none => h
  | some e =>
    let h := h.setPte p (page * 65536) none
    if pteType e = 1 then h.dropFrame p (ptePhys e / 65536)
    else if pteType e = 2 ∧ h.homeMapped (ptePhys e / 65536) = false then h.poolInvalidate fun k => decide (k = ptePhys e / 65536)
    else h

/-- A page of a layer whose barrier is raised (Table 13.7). -/
def Hall.pageHeld (h : Hall) (p page : Nat) : Bool :=
  match h.pte p (page * 65536) with
  | some e => pteType e = 2 && h.weights.swaps.any fun w => w.2.rolling && w.2.state = .held &&
      match h.lot w.2.lot with
      | some l => match l.layers[w.2.layer]? with
        | some y => match l.parts[y.part]? with
          | some (pair, sector, _) =>
            let base := 0x040000000000 + pair * 0x008000000000 + sector * 2 ^ 30 + y.first * 4194304
            decide (base ≤ ptePhys e) && decide (ptePhys e < base + y.shards * 4194304)
          | none => false
        | none => false
      | none => false
  | none => false

/-- MEM_UNMAP (R274). While a page belongs to a held layer the command waits in its till (Table 13.7). -/
def execMemUnmap (till : Fin 128) (s : State) : Host.Outcome State Fault Refusal :=
  if (pageRange ((s.hall.tillCmd till.val).arg 0 8 / 65536) (min (2 ^ 32) ((s.hall.tillCmd till.val).arg 8 4))).any
      (s.hall.pageHeld (s.hall.tillCmd till.val).pen) then s.run id
  else s.till till.val 0x0402 forP0 fun c h =>
    let page := c.arg 0 8 / 65536
    let n := c.arg 8 4
    if c.length ≠ 12 ∨ 2 ^ 48 ≤ c.arg 0 8 ∨ c.arg 0 8 % 65536 ≠ 0 ∨ n = 0 ∨ 2 ^ 32 < page + n then refuse h stBadArg
    else
      let pages := (pageRange page n).filter fun p => (h.pte c.pen (p * 65536)).isSome
      if pages.any fun p => h.pageNamed c.pen p || (h.tilesOf c.pen).any fun t => t.2.covers p then refuse h stBusy
      else okWith (pages.foldl (fun h p => h.unmapPage c.pen p) h)

/-- Code of a home page's state in a sub-pool (Table 10.7). -/
def Hall.poolCode (h : Hall) (hub : Hub) (home : Nat) : Nat :=
  match (h.pool hub).frames.find? fun e => e.2.home = home && e.2.state ≠ .free with
  | some (_, x) => match x.state with
    | .filling => 1
    | .valid => 2
    | _ => 3
  | none => 0

/-- MEM_QUERY. -/
def execMemQuery (till : Fin 128) (s : State) : Host.Outcome State Fault Refusal :=
  s.till till.val 0x0403 forP0 fun c h =>
    if c.length ≠ 8 ∨ 2 ^ 48 ≤ c.arg 0 8 then refuse h stBadArg
    else
      let e := (h.pte c.pen (c.arg 0 8)).getD 0
      let code := fun hub => if pteType e = 2 then h.poolCode hub (ptePhys e / 65536) else 0
      okWith h (leBytes 8 e ++ leBytes 1 (code .a) ++ leBytes 1 (code .b))

/-- Promotes or renews one lot page (R265): whether it was skipped under R266. -/
def Hall.promote (h : Hall) (hub : Hub) (home : Nat) : Bool × Hall :=
  match (h.pool hub).holds home with
  | some (page, x) => (false, h.renewFrame hub page x)
  | none =>
    let before := h.getF (.count .mmuPoolSkip) (hubNum hub)
    let h' := h.poolFill hub home
    (decide (h'.getF (.count .mmuPoolSkip) (hubNum hub) ≠ before), h')

/-- MEM_PROMOTE: HALF is coded as in MEM_MAP; "either" takes sub-pool A unless its size is zero (log entry 25). -/
def execMemPromote (till : Fin 128) (s : State) : Host.Outcome State Fault Refusal :=
  s.till till.val 0x0404 forP0 fun c h =>
    let page := c.arg 0 8 / 65536
    let n := c.arg 8 4
    let half := c.arg 12 1
    if c.length ≠ 13 ∨ 2 ^ 48 ≤ c.arg 0 8 ∨ c.arg 0 8 % 65536 ≠ 0 ∨ n = 0 ∨ 2 ^ 32 < page + n ∨ 2 < half then refuse h stBadArg
    else
      let hub : Hub := if half = 0 then .a else if half = 1 then .b else if (h.pool .a).size = 0 then .b else .a
      acceptOp h c fun k h =>
        let (skipped, h) := (pageRange page n).foldl (fun (acc : Nat × Hall) p =>
          match acc.2.pte c.pen (p * 65536) with
          | some e =>
            if pteType e = 2 then
              let (sk, h) := acc.2.promote hub (ptePhys e / 65536)
              (acc.1 + b2n sk, h)
            else acc
          | none => acc) (0, h)
        h.closeOp k stOK (leBytes 4 skipped)

/-- MEM_QUOTA. -/
def execMemQuota (till : Fin 128) (s : State) : Host.Outcome State Fault Refusal :=
  s.till till.val 0x0405 never fun c h =>
    if c.length ≠ 4 ∨ 2 ^ 22 ≤ c.arg 0 4 then refuse h stBadArg
    else if c.arg 0 4 < h.penUsed c.pen then refuse h stBusy
    else okWith (h.setQuota c.pen (c.arg 0 4))

/-- Resizes one sub-pool: new frames are FREE; frames past the new size leave, those in use after an invalidation. -/
def Hall.poolResize (h : Hall) (hub : Hub) (n : Nat) : Hall :=
  let p := h.pool hub
  if p.frames.length ≤ n then
    (h.highPages hub (n - p.frames.length)).foldl (fun h page =>
      h.updPool hub fun p => { p with frames := Tab.set p.frames page {} }) h
  else
    (p.frames.take (p.frames.length - n)).foldl (fun h e =>
      match e.2.state with
      | .free => h.updPool hub fun p => { p with frames := Tab.erase p.frames e.1 }
      | .filling => h.updFrame hub e.1 fun x => { x with leaving := true }
      | _ =>
        let h := h.updFrame hub e.1 fun x => { x with state := .invalid, leaving := true, next := none }
        match e.2.next with
        | some home => h.poolFill hub home
        | none => h) h

/-- MEM_POOL_SET; while an earlier one is still draining frames it is refused with BUSY (log entry 25). -/
def execMemPoolSet (till : Fin 128) (s : State) : Host.Outcome State Fault Refusal :=
  s.till till.val 0x0406 never fun c h =>
    let fits := fun hub n => decide (n + (h.usedIn hub).length ≤ halfPages - reservePages)
    if c.length ≠ 8 then refuse h stBadArg
    else if h.tiers.poolA.resize.isSome then refuse h stBusy
    else if !(fits .a (c.arg 0 4) && fits .b (c.arg 4 4)) then refuse h stNoResource
    else acceptOp h c fun k h =>
      let h := (h.poolResize .a (c.arg 0 4)).poolResize .b (c.arg 4 4)
      ((h.updPool .a fun p => { p with resize := some k }).updPool .b fun p => { p with resize := some k }).poolSettle

/-- Sets or clears TILE in the entries of a range. -/
def Hall.setTile (h : Hall) (p : Nat) (pages : List Nat) (on : Bool) : Hall :=
  pages.foldl (fun h page => match h.pte p (page * 65536) with
    | some e => if pteTile e = on then h else h.setPte p (page * 65536) (some (e ^^^ 2 ^ 58))
    | none => h) h

def TileRegion.pages (t : TileRegion) : List Nat :=
  pageRange (t.base / 65536) ((t.base % 65536 + t.bytes + 65535) / 65536)

/-- MEM_TILE_MAP (R273). -/
def execMemTileMap (till : Fin 128) (s : State) : Host.Outcome State Fault Refusal :=
  s.till till.val 0x0407 forP0 fun c h =>
    let t : TileRegion := { base := c.arg 0 8, rows := c.arg 8 4, cols := c.arg 12 4, fmt := c.arg 16 1 }
    let dim := fun n => decide (n % 32 = 0) && decide (32 ≤ n) && decide (n ≤ 65536)
    let fmtOk := decide (t.fmt ≠ 0) && decide (t.fmt < 9) && !fmtReserved t.fmt && decide (8 ≤ fmtBits t.fmt) && decide (fmtBits t.fmt % 8 = 0)
    let mapped := t.pages.all fun page => match h.pte c.pen (page * 65536) with
      | some e => decide (pteType e = 1) && pteW e
      | none => false
    if c.length ≠ 17 ∨ 2 ^ 48 ≤ t.base + t.bytes then refuse h stBadArg
    else if !(fmtOk && dim t.rows && dim t.cols) || decide (t.base % (1024 * t.elemBytes) ≠ 0) || !mapped then refuse h stBadArg
    else match (List.range 64).find? fun i => (Tab.find h.tiers.tiles (64 * c.pen + i)).isNone with
    | none => refuse h stNoResource
    | some i =>
      okWith ({ h with tiers.tiles := Tab.set h.tiers.tiles (64 * c.pen + i) t }.setTile c.pen t.pages true) (leBytes 1 i)

/-- MEM_TILE_UNMAP: TILE goes from pages that no other region covers. -/
def execMemTileUnmap (till : Fin 128) (s : State) : Host.Outcome State Fault Refusal :=
  s.till till.val 0x0408 forP0 fun c h =>
    match Tab.find h.tiers.tiles (64 * c.pen + c.arg 0 1) with
    | some t =>
      if c.length ≠ 1 ∨ 64 ≤ c.arg 0 1 then refuse h stBadArg
      else
        let h := { h with tiers.tiles := Tab.erase h.tiers.tiles (64 * c.pen + c.arg 0 1) }
        okWith (h.setTile c.pen (t.pages.filter fun p => !(h.tilesOf c.pen).any fun u => u.2.covers p) false)
    | none => refuse h stBadArg

end Sys2Proof.Machine
end

