-- ==== Sys2Proof/Machine/Trough.lean ====
section
/-! DEFINITION. Troughs and their slots (R190–R194, Table 7.10): filling, draining, and undoing an aborted run's moves. -/

namespace Sys2Proof.Machine

def Hall.trough (h : Hall) (i t : Nat) : Option Trough := Tab.find (h.stall i).troughs t

def Hall.updTrough (h : Hall) (i t : Nat) (f : Trough → Trough) : Hall :=
  match h.trough i t with
  | some x => h.updStall i fun st => { st with troughs := Tab.set st.troughs t (f x) }
  | none => h

def Trough.slot (x : Trough) (s : Nat) : Slot := Tab.get {} x.slots s
def Trough.setSlot (x : Trough) (s : Nat) (v : Slot) : Trough := { x with slots := Tab.set x.slots s v }

/-- Next index of a ring. -/
def Trough.next (x : Trough) (s : Nat) : Nat := if s + 1 < x.desc.nslot then s + 1 else 0
/-- Previous index of a ring. -/
def Trough.prev (x : Trough) (s : Nat) : Nat := if s = 0 then x.desc.nslot - 1 else s - 1

/-- Physical address of a slot, its bytes of data and the address of a row's scale record (R190). -/
def slotAddr (i : Nat) (x : Trough) (s : Nat) : Nat := storeBase i + x.desc.base + s * x.desc.slotLines * 64
def TroughDesc.dataBytes (d : TroughDesc) : Nat := (d.slotLines - d.scaleLines) * 64
def scaleAddr (i : Nat) (x : Trough) (s j : Nat) : Nat := slotAddr i x s + x.desc.dataBytes + 16 * j

/-- The slot that a producer fills next, where it may: a returned place of its own run first, otherwise the slot at
TAIL, FREE and not awaited by an open run (R192, R209, Table 7.10). -/
def Trough.fillSlot (x : Trough) (key : Option RunKey) : Option Nat :=
  match x.refill with
  | (s, k) :: _ => if key = some k then some s else none
  | [] => if (x.slot x.tail).state = .free && (x.slot x.tail).lock.isNone then some x.tail else none

/-- The `n` slots that a consumer takes next, in order: returned places of its own run first, then from HEAD. -/
def Trough.drainSlots (x : Trough) (key : Option RunKey) (n : Nat) : Option (List Nat) :=
  let ring := (List.range n).foldl (fun (acc : List Nat × Nat) _ => (acc.1 ++ [acc.2], x.next acc.2)) ([], x.head)
  match x.retake with
  | (_, k) :: _ =>
    if key = some k then some (((x.retake.filter fun e => e.2 = k).map Prod.fst ++ ring.1).take n) else none
  | [] => some ring.1

/-- The first slot a consumer takes is FULL. -/
def Trough.firstFull (x : Trough) (key : Option RunKey) : Option Nat :=
  match x.drainSlots key 1 with
  | some (s :: _) => if (x.slot s).state = .full then some s else none
  | _ => none

/-- Records a slot move in the open run it belongs to. -/
def Hall.addMove (h : Hall) (key : Option RunKey) (m : SlotMove) : Hall :=
  match key with
  | some k => h.updRun k fun r => { r with moves := r.moves ++ [m] }
  | none => h

def sameMove (m : SlotMove) (i t s : Nat) (fill : Bool) : Bool :=
  m.stall = i && m.trough = t && m.slot = s && m.fill = fill && !m.ended

/-- A producer starts writing a slot: FREE to FILLING; the slot takes the token and tags of the work. -/
def Hall.fillStart (h : Hall) (i t s : Nat) (key : Option RunKey) (token : Nat) (tags : List Dep) : Hall :=
  match h.trough i t with
  | none => h
  | some x =>
    let placed := x.refill.any fun e => e.1 = s
    (h.updTrough i t fun x => x.setSlot s { state := .filling, token := token, tags := tags }).addMove key
      { stall := i, trough := t, slot := s, fill := true, ended := false, placed := placed }

/-- A producer finishes a slot: FILLING to FULL, and TAIL advances past a slot that stood at it. -/
def Hall.fillEnd (h : Hall) (i t s : Nat) (key : Option RunKey) (token : Nat) (tags : List Dep) (poison : Bool) : Hall :=
  match h.trough i t with
  | none => h
  | some x =>
    let placed := x.refill.any fun e => e.1 = s
    let h := h.updTrough i t fun x =>
      let x := x.setSlot s { state := .full, token := token, tags := tags, poison := poison }
      if placed then { x with refill := x.refill.filter fun e => decide (e.1 ≠ s) }
      else { x with tail := x.next x.tail, twrap := if x.next x.tail = 0 then !x.twrap else x.twrap }
    match key with
    | some k => h.updRun k fun r =>
        { r with moves := r.moves.map fun m => if sameMove m i t s true then { m with ended := true } else m }
    | none => h

/-- A consumer takes a slot: FULL to DRAINING. -/
def Hall.drainStart (h : Hall) (i t s : Nat) (key : Option RunKey) : Hall :=
  match h.trough i t with
  | none => h
  | some x =>
    let placed := x.retake.any fun e => e.1 = s
    (h.updTrough i t fun x => x.setSlot s { x.slot s with state := .draining }).addMove key
      { stall := i, trough := t, slot := s, fill := false, ended := false, placed := placed }

/-- A consumer is done with a slot: with KEEP it is FULL again; otherwise it is FREE, to its producer only once the run
that freed it has committed (R209), and HEAD advances. -/
def Hall.drainEnd (h : Hall) (i t s : Nat) (key : Option RunKey) (keep : Bool) : Hall :=
  match h.trough i t with
  | none => h
  | some x =>
    let old := x.slot s
    if keep then
      let h := h.updTrough i t fun x => x.setSlot s { old with state := .full }
      match key with
      | some k => h.updRun k fun r => { r with moves := r.moves.filter fun m => !sameMove m i t s false }
      | none => h
    else
      let placed := x.retake.any fun e => e.1 = s
      let h := if old.poison then h.bump .stallPoisonSlots i else h
      let lock := match key with
        | some k => if (h.findRun k).isSome then some k else none
        | none => none
      let h := h.updTrough i t fun x =>
        let x := x.setSlot s { old with state := .free, lock := lock }
        if placed then { x with retake := x.retake.filter fun e => decide (e.1 ≠ s) }
        else { x with head := x.next x.head, hwrap := if x.next x.head = 0 then !x.hwrap else x.hwrap }
      match key with
      | some k => h.updRun k fun r =>
          { r with moves := r.moves.map fun m => if sameMove m i t s false then { m with ended := true } else m }
      | none => h

/-- Undoes one slot move of an aborting run (Table 7.10): HEAD or TAIL steps back where nothing beyond has moved, and
otherwise the slot waits for the replay at its place. -/
def Hall.undoMove (h : Hall) (k : RunKey) (m : SlotMove) : Hall :=
  h.updTrough m.stall m.trough fun x =>
    if m.fill then
      let x := x.setSlot m.slot {}
      if m.placed then
        { x with refill := if x.refill.any fun e => e.1 = m.slot then x.refill else (m.slot, k) :: x.refill }
      else if !m.ended then x
      else if x.prev x.tail = m.slot ∧ x.refill = [] then
        { x with tail := m.slot, twrap := if x.tail = 0 then !x.twrap else x.twrap }
      else { x with refill := (m.slot, k) :: x.refill }
    else
      let x := x.setSlot m.slot { x.slot m.slot with state := .full, lock := none }
      if m.placed then
        { x with retake := if x.retake.any fun e => e.1 = m.slot then x.retake else (m.slot, k) :: x.retake }
      else if !m.ended then x
      else if x.prev x.head = m.slot ∧ x.retake = [] then
        { x with head := m.slot, hwrap := if x.head = 0 then !x.hwrap else x.hwrap }
      else { x with retake := (m.slot, k) :: x.retake }

/-- A run is over: its slots' locks and tags go (Table 8.2). -/
def Trough.release (x : Trough) (k : RunKey) : Trough :=
  { x with
    slots := x.slots.map fun e =>
      (e.1, { e.2 with lock := if e.2.lock = some k then none else e.2.lock, tags := e.2.tags.filter (· ≠ Dep.own k) })
    refill := x.refill.filter fun e => decide (e.2 ≠ k), retake := x.retake.filter fun e => decide (e.2 ≠ k) }

/-- HEAD = TAIL = 0, every slot FREE (SCHED_START or pen reset). -/
def Trough.reset (x : Trough) : Trough := { desc := x.desc }

end Sys2Proof.Machine
end

