-- ==== Sys2Proof/Machine/Ledger.lean ====
section
/-! DEFINITION. The Ledgers (R204–R223): runs of commit groups, dependencies, commit, abort and replay. -/

namespace Sys2Proof.Machine

/-- Counters of LEDGER_ (Table 8.12). -/
def ledgerCounters : List Ctr :=
  [.ledgerCommits, .ledgerAborts, .ledgerReplays, .ledgerCascades, .ledgerClosings, .ledgerProvSent, .ledgerWindowWaits,
   .ledgerDepWaits]

/-- Fields of LEDGER_LAST_ABORT. -/
def ledgerLastFields : List Fld :=
  [.ledgerLastAbortValid, .ledgerLastAbortCause, .ledgerLastAbortLimg, .ledgerLastAbortEpoch, .ledgerLastAbortPass,
   .ledgerLastAbortGroup]

/-- Writes of LEDGER_CLEAR and LEDGER_CFG take effect at the Ledger's next commit or abort (R223). -/
def Hall.ledgerApply (h : Hall) (r : Nat) : Hall :=
  let l := h.ledger r
  let h := if l.clearLast then h.clearFs r ledgerLastFields else h
  let h := if l.clearStats then h.clearCtrs r ledgerCounters else h
  let h := match l.cfgDue with
    | some v => h.setF .ledgerCfgMaxReplay r v
    | none => h
  h.updLedger r fun l => { l with clearLast := false, clearStats := false, cfgDue := none }

/-- Image of a run. -/
def Hall.runImage (h : Hall) (k : RunKey) : Option Image :=
  match Tab.find (h.ledger k.row).images k.limg with
  | some i => h.image i
  | none => none

/-- Position of a run among its image's in the row. -/
def Hall.runPosition (h : Hall) (k : RunKey) : Nat :=
  match h.runImage k with
  | some im => match im.lrowOf k.row with
    | some l => im.position l k.pass k.group
    | none => 0
  | none => 0

/-- Runs of an image committed in the row: the position of the oldest uncommitted one. -/
def Hall.runsCommitted (h : Hall) (r limg : Nat) : Nat := Tab.get 0 (h.ledger r).committed limg

/-- A run lies in the window of its image (R206). -/
def Hall.inWindow (h : Hall) (k : RunKey) : Bool := decide (h.runPosition k < h.runsCommitted k.row k.limg + 16)

/-! ### Statuses and dependencies -/

/-- Records a status for a token in a run (R217); a closing pass records ABORTED in place of POISONED (R215). -/
def Hall.recordStatus (h : Hall) (k : RunKey) (token status : Nat) : Hall :=
  if token = 0 then h.updRun k fun r => { r with statuses := r.statuses ++ [(0, status)] }
  else h.updRun k fun r => { r with statuses := r.statuses ++ [(token, if r.closing && status = stPoisoned then stAborted else status)] }

/-- The first non-OK status of a token stands (R217). -/
def Hall.setStatus (h : Hall) (token status : Nat) : Hall :=
  h.updReq token fun q => if q.status = 0 then { q with status := status } else q

/-- A dependency that still holds a run back: an open run, or a neighbour tag that has not committed. -/
def Hall.depOpen (h : Hall) : Dep → Bool
  | .own k => (h.findRun k).isSome
  | .nbr p t => match Tab.find (h.nbr p).tags t with
    | some r => r.state ≠ .committed
    | none => false

/-- Dependencies of a run after adding those given, but for the run itself and those that no longer hold it back. -/
def Hall.depsWith (h : Hall) (k : RunKey) (new : List Dep) : List Dep :=
  match h.findRun k with
  | some r => (r.deps ++ new.filter fun d => decide (d ≠ .own k)).dedup.filter h.depOpen
  | none => ((new.filter fun d => decide (d ≠ .own k)).dedup).filter h.depOpen

/-- At most 32 dependencies (R211). -/
def Hall.depsFit (h : Hall) (k : RunKey) (new : List Dep) : Bool := decide ((h.depsWith k new).length ≤ 32)

def Hall.addDeps (h : Hall) (k : RunKey) (new : List Dep) : Hall :=
  let ds := h.depsWith k new
  h.updRun k fun r => { r with deps := ds }

/-- Tags of the lines of a range. -/
def Hall.lineDeps (h : Hall) (a n : Nat) : List Dep :=
  ((List.range (n / 64 + 2)).filterMap fun i =>
    if (a / 64 + i) * 64 < a + n then (Tab.find h.data.lineTags (a / 64 + i)).map Dep.own else none).dedup

/-- DEPTH of an item a run sends (R219): one more than the greatest among the neighbour tags it depends on. -/
def runDepth (r : GroupRun) : Nat :=
  1 + r.deps.foldl (fun n d => match d with
    | .nbr _ t => max n (bits t 57 55)
    | .own _ => n) 0

/-! ### Commit (R212) -/

/-- The lot that a pen's images read under a LOT_ID (R333, R338): what a consistent swap has set, else one granted to the
pen, else any installed. -/
def Hall.lotFor (h : Hall) (pen id : Nat) : Option (Nat × Lot) :=
  match (Tab.find h.weights.remaps (pen * 2 ^ 32 + id)).bind fun k => (h.lot k).map fun l => (k, l) with
  | some e => some e
  | none => match h.weights.lots.find? fun e => e.2.lotId = id && e.2.grants.contains pen with
    | some e => some e
    | none => h.weights.lots.find? fun e => e.2.lotId = id

/-- Layers (lot handle, layer) of an image whose ENTRY or EXIT group a run is. -/
def Hall.layersAt (h : Hall) (k : RunKey) (entry : Bool) : List (Nat × Nat) :=
  match h.runImage k with
  | some im => (im.layerRefs.filter fun l => decide ((if entry then l.2.2.1 else l.2.2.2) = k.group)).filterMap fun l =>
      (h.lotFor im.pen l.1).map fun e => (e.1, l.2.1)
  | none => []

/-- Changes the counters of an image and layer (R336). -/
def Hall.updCrossing (h : Hall) (handle lot layer : Nat) (f : Crossing → Crossing) : Hall :=
  let hit := fun (c : Crossing) => c.handle = handle && c.lot = lot && c.layer = layer
  if h.weights.crossings.any hit then
    { h with weights.crossings := h.weights.crossings.map fun c => if hit c then f c else c }
  else { h with weights.crossings := h.weights.crossings ++ [f ⟨handle, lot, layer, 0, 0⟩] }

/-- The five conditions (R212), condition 5 being that no abort has begun: an instance with a step on a stall that has been
retired aborts by cause 2 (Table 8.4) and does not commit before. -/
def Hall.mayCommit (h : Hall) (r : GroupRun) : Bool :=
  decide (r.stepsDone = r.nstep) && !(r.startedSteps.any fun e => h.stallRetired e.1) &&
  (r.closing || (!(h.tally r.key.row).items.any (fun (c : CheckItem) => decide (c.key = r.key)) &&
    !(h.tally r.key.row).repeats.any (fun (c : RepeatItem) => decide (c.key = r.key)) && !r.deps.any h.depOpen)) &&
  decide (h.runPosition r.key = h.runsCommitted r.key.row r.key.limg)

/-- A run's slots and lines are no longer provisional. -/
def Hall.releaseRun (h : Hall) (k : RunKey) : Hall :=
  let rel := fun (t : Tab Trough) => t.map fun (e : Nat × Trough) => (e.1, e.2.release k)
  { h with
    data.stalls := h.data.stalls.map fun e => (e.1, { e.2 with troughs := rel e.2.troughs })
    data.lineTags := Tab.keep (fun _ v => decide (v ≠ k)) h.data.lineTags
    tiers.chans := h.tiers.chans.map fun e =>
      (e.1, { e.2 with opened := e.2.opened.map fun o => if o.key = some k then { o with key := none } else o }) }

/-- Takes a run out of its Ledger, and out of what other runs wait for. -/
def Hall.dropRun (h : Hall) (k : RunKey) : Hall :=
  let without := fun (r : GroupRun) => { r with deps := r.deps.filter fun d => decide (d ≠ Dep.own k) }
  { h with data.ledgers := h.data.ledgers.map fun e =>
      (e.1, { e.2 with runs := (e.2.runs.filter fun r => decide (r.key ≠ k)).map without }) }

/-- Notices of a run to the ports that carried items of its tag. -/
def Hall.runNotices (h : Hall) (r : GroupRun) (kind cause : Nat) : Hall :=
  r.items.foldl (fun h e => h.postNotice e.1 kind cause e.2 (tagOf r.key r.depth r.epoch)) h

/-- Frame address of a warm pair's standby that mirrors a T1 address of the primary (R449): the frame at the same MVA,
within the mirror range, once both hold the range. -/
def Hall.mirrorAddr (h : Hall) (p a : Nat) : Option Nat :=
  let x := h.pen p
  match x.partner with
  | none => none
  | some q =>
    if x.mode = 2 ∧ x.primary = true ∧ x.unsynced = false then
      match h.tiers.pages.find? fun e => decide (e.1 / 2 ^ 32 = p) && decide (pteType e.2 = 1) && decide (ptePhys e.2 = a / 65536 * 65536) &&
          decide (x.mirrorMva / 65536 ≤ e.1 % 2 ^ 32) && decide (e.1 % 2 ^ 32 < x.mirrorMva / 65536 + x.mirrorPages) with
      | some e => match Tab.find h.tiers.pages (q * 2 ^ 32 + e.1 % 2 ^ 32) with
        | some f => if pteType f = 1 then some (ptePhys f + a % 65536) else none
        | none => none
      | none => none
    else none

/-- A redo line goes to the standby's frame too. -/
def Hall.mirrorLine (h : Hall) (p : Nat) (l : RedoLine) : Hall :=
  match h.mirrorAddr p l.addr with
  | some a => h.writeRam a l.data
  | none => h

/-- Commits a run: every action of Table 8.2 and the sequence of Table 8.3 as one transaction. -/
def Hall.commitRun (h : Hall) (r : GroupRun) : Hall :=
  let k := r.key
  let h := (h.releaseRun k).dropRun k
  let h := r.redo.foldl (fun h l => (h.writeRam l.addr l.data).mirrorLine r.pen l) h
  let h := r.statuses.foldl (fun h e => if e.1 = 0 then h.ordinary .poison k.row e.2 else h.setStatus e.1 e.2) h
  let h := h.updLedger k.row fun l => { l with committed := Tab.set l.committed k.limg (Tab.get 0 l.committed k.limg + 1) }
  let h := h.bump .ledgerCommits k.row
  let n := (r.tokens.filter (· ≠ 0)).length
  let h := (h.layersAt k false).foldl (fun h l => h.updCrossing r.handle l.1 l.2 fun c => { c with left := c.left + n }) h
  (h.runNotices r 1 0).ledgerApply k.row

/-- The oldest open run of an image in a row. -/
def Hall.oldestRun (h : Hall) (r limg : Nat) : Option GroupRun :=
  (h.ledger r).runs.find? fun x => x.key.limg = limg && h.runPosition x.key = h.runsCommitted r limg

/-- LEDGER_COMMIT (R212). -/
def execLedgerCommit (row : Fin 8) (limg : Fin 8) (s : State) : Host.Outcome State Fault Refusal :=
  s.run fun h => match h.oldestRun row.val limg.val with
    | some r => if h.mayCommit r then h.commitRun r else h
    | none => h

/-! ### Abort (R213–R216) -/

/-- Stops the running steps of a run (Table 4.2). -/
def Stall.stopRun (x : Stall) (k : RunKey) : Stall :=
  let keep := fun (e : Option Running) => match e with
    | some r => if r.key = k then none else e
    | none => none
  { x with ox := keep x.ox, vu := keep x.vu, hen := keep x.hen
           exp := match x.ox with
             | some r => if r.key = k then {} else x.exp
             | none => x.exp }

/-- Engine instance of a channel number: hub 0 and 1, row 2 + r (registers of BRW_). -/
def chanEngine (c : Nat) : Nat := if c < 256 then c / 128 else 2 + (c - 256) / 64

/-- A channel filling or draining a slot of an aborted run restarts (Table 11.3, R292). -/
def Hall.restartChans (h : Hall) (k : RunKey) : Hall :=
  h.tiers.chans.foldl (fun h e =>
    match e.2.opened.find? fun o => o.key = some k with
    | none => h
    | some o =>
      let st := h.getF .brwChState e.1
      let keepOpen := e.2.opened.takeWhile fun (x : OpenSlot) => decide (x.key ≠ some k)
      let lost := fun (b : DmaBurst) => if b.key = some k then { b with dest := Dest.drop } else b
      if st = 3 then h.updChan e.1 fun c => { c with restartDue := some o.desc, opened := keepOpen, outstanding := c.outstanding.map lost }
      else if st = 0 then h
      else
        ((h.updChan e.1 fun c => { c with opened := keepOpen, off := 0, issuedAll := false, item := [], itemOff := 0
                                          outstanding := c.outstanding.map lost }).setFs e.1
          [(.brwChStateDesc, o.desc), (.brwChPosI0, 0), (.brwChPosI1, 0), (.brwChPosI2, 0), (.brwChState, 2)]).bump .brwRestarts
          (chanEngine e.1)) h

/-- Checks of an instance that aborts (Table 9.5): by cause 1, its other shadow runs, votes and repeats go on, and a repeat
that the replay was is awaited from the next one; by another cause they are dropped. -/
def Hall.dropChecks (h : Hall) (k : RunKey) (vote : Bool) : Hall :=
  h.updTally k.row fun t =>
    { t with
      items := t.items.filter fun (c : CheckItem) =>
        decide (c.key ≠ k) || (vote && decide (c.phase ≠ .waitPlace) && decide (c.phase ≠ .settling))
      repeats := (t.repeats.filter fun (r : RepeatItem) => decide (r.key ≠ k) || vote).map fun (r : RepeatItem) =>
        if r.key = k then { r with got := none } else r }

/-- One run goes back to its beginning: the abort column of Table 8.2, EPOCH, counters, LEDGER_LAST_ABORT (R213, R214);
`urgent` when the cause is itself an urgent record. -/
def Hall.restoreRun (h : Hall) (r : GroupRun) (cause : Nat) : Hall :=
  let k := r.key
  let h := (h.bump .ledgerAborts k.row).bump .ledgerCascades k.row (if cause = 3 ∨ cause = 4 then 1 else 0)
  let h := h.setFs k.row [(.ledgerLastAbortValid, 1), (.ledgerLastAbortCause, cause), (.ledgerLastAbortLimg, k.limg),
    (.ledgerLastAbortEpoch, r.epoch % 256), (.ledgerLastAbortPass, k.pass), (.ledgerLastAbortGroup, k.group)]
  let h := if cause = 2 then h else h.ordinary .other k.row cause
  let h := { h with data.stalls := h.data.stalls.map fun e => (e.1, e.2.stopRun k) }
  let h := r.undo.reverse.foldl (fun (h : Hall) (u : UndoLine) =>
    let h := ({ h with mem.ram := Mem.writeN 0 h.mem.ram (u.line * 64) u.data }).setMark u.line u.mark
    { h with data.lineTags := match u.tag with
      | some t => Tab.set h.data.lineTags u.line t
      | none => Tab.erase h.data.lineTags u.line }) h
  let h := r.moves.reverse.foldl (fun h m => h.undoMove k m) h
  let h := (h.restartChans k).runNotices r 2 cause
  let h := h.dropChecks k (decide (cause = 1))
  let h := r.startedSteps.foldl (fun h e => h.updStall e.1 fun x => { x with redo := x.redo ++ [(k.pass, e.2)] }) h
  let closing := r.closing || decide (r.epoch = (if h.getF .ledgerCfgMaxReplay k.row = 0 then 1 else h.getF .ledgerCfgMaxReplay k.row))
  (h.updRun k fun r => { r with epoch := r.epoch + 1, stepsDone := 0, undo := [], redo := [], deps := [], statuses := []
                                moves := [], items := [], depth := 0, closing := closing, startedSteps := [] }).ledgerApply k.row

/-- Runs that depend on one of the runs given and can be aborted. -/
def Hall.dependents (h : Hall) (ks : List RunKey) : List RunKey :=
  (h.openRuns.filter fun r => !r.closing && !ks.contains r.key &&
    r.deps.any fun d => match d with
      | .own k => ks.contains k
      | .nbr _ _ => false).map GroupRun.key

/-- The runs that fall with those given, the last reached first. -/
def Hall.cascade (h : Hall) (ks : List RunKey) : Nat → List RunKey
  | 0 => ks
  | n + 1 => match h.dependents ks with
    | [] => ks
    | more => h.cascade (more ++ ks) n

/-- Aborts an open run by a cause of Table 8.4 and every run that depends on it by cause 3. A closing pass is aborted by
cause 2 only (R215). -/
def Hall.abortRun (h : Hall) (k : RunKey) (cause : Nat) : Hall :=
  match h.findRun k with
  | none => h
  | some r =>
    if r.closing && decide (cause ≠ 2) then h
    else (h.cascade [k] h.openRuns.length).foldl (fun h j => match h.findRun j with
      | some x => h.restoreRun x (if j = k then cause else 3)
      | none => h) h

/-- Discards a run (cause 6; cause 2 with its row, R452): its writes are undone and it leaves the Ledger; its dependents of other pens abort by
cause 3. -/
def Hall.discardRun (h : Hall) (k : RunKey) (cause : Nat := 6) : Hall :=
  match h.findRun k with
  | none => h
  | some r =>
    let h := ((h.cascade [k] h.openRuns.length).filter fun j => decide (j ≠ k)).foldl (fun h j => match h.findRun j with
      | some x => h.restoreRun x 3
      | none => h) h
    (((h.restoreRun r cause).releaseRun k).dropRun k)

/-- LEDGER_ABORT (R214): an open run aborts by a cause of Table 8.4; cause 6 only while its pen is being reset. -/
def execLedgerAbort (row : Fin 8) (limg : Fin 8) (pass group cause : Nat) (s : State) : Host.Outcome State Fault Refusal :=
  s.run fun h =>
    let k : RunKey := ⟨row.val, limg.val, pass, group⟩
    match h.findRun k with
    | none => h
    | some r =>
      if cause = 6 then if (h.pen r.pen).state = .resetting then h.discardRun k else h
      else if 1 ≤ cause ∧ cause ≤ 5 then h.abortRun k cause
      else h

/-! ### Opening a run (R205) -/

/-- A run opens with its first step, or opens again after an abort. -/
def Hall.openRun (h : Hall) (k : RunKey) (handle pen nstep : Nat) : Hall :=
  match h.findRun k with
  | some r =>
    if r.epoch ≠ 0 ∧ r.startedSteps = [] then
      if r.closing then h.bump .ledgerClosings k.row else h.bump .ledgerReplays k.row
    else h
  | none => h.updLedger k.row fun l => { l with runs := l.runs ++ [{ key := k, handle := handle, pen := pen, nstep := nstep }] }

/-- Generation of a layer of an installed lot. -/
def Hall.layerGen (h : Hall) (lot layer : Nat) : Nat :=
  match h.lot lot with
  | some l => match l.layers[layer]? with
    | some y => y.gen
    | none => 0
  | none => 0

/-- The barrier of a layer stands on a group of an image (R336): a rolling swap holds the layer. -/
def Hall.barrierOn (h : Hall) (k : RunKey) : Bool :=
  (h.layersAt k true).any fun l => h.weights.swaps.any fun w => w.2.rolling && w.2.state = .held && w.2.lot = l.1 && w.2.layer = l.2

/-- A token enters a run: its first time, and in the run's first pass, it crosses the layers whose ENTRY group it is
(R334, R336). -/
def Hall.enterToken (h : Hall) (k : RunKey) (token : Nat) : Hall :=
  match h.findRun k with
  | none => h
  | some r =>
    if r.tokens.contains token then h
    else
      let h := h.updRun k fun r => { r with tokens := r.tokens ++ [token] }
      if token = 0 ∨ r.epoch ≠ 0 then h
      else (h.layersAt k true).foldl (fun h l =>
        let g := h.layerGen l.1 l.2
        let id := ((h.lot l.1).map fun x => x.lotId).getD 0
        let h := h.updReq token fun q =>
          { q with layers := q.layers ++ [(id, l.2, g)]
                   mixed := q.mixed || q.layers.any fun x => decide (x.1 = id) && decide (x.2.2 ≠ g) }
        h.updCrossing r.handle l.1 l.2 fun c => { c with crossed := c.crossed + 1 }) h

end Sys2Proof.Machine
end

