-- ==== Sys2Proof/Machine/View.lean ====
section
/-! DEFINITION. What a read of a register region yields: fields that the state shows elsewhere, where each register lies (R55, Tables
2.4 and 2.5), and the windows of NVMC_PAGEBUF and the world table (R27, R319, R441). The published copy lags by nothing here (log
entry 13). -/

namespace Sys2Proof.Machine

/-! ### Heads and the dispatch point (R187) -/

def earlier (a b : Nat × Nat) : Bool := decide (a.1 < b.1) || (decide (a.1 = b.1) && decide (a.2 < b.2))

/-- The earliest of records given by pass and index. -/
def earliest (l : List (Nat × Nat)) : Option (Nat × Nat) :=
  l.foldl (fun acc e => match acc with
    | none => some e
    | some b => if earlier e b then some e else acc) none

/-- Pass and index of the head of a context: records that an abort returned, then the next in list order. -/
def Stall.head (x : Stall) (c : Nat) : Option (Nat × Nat) :=
  let idx := x.ctxIdx c
  let n := Tab.get 0 x.started c
  let next := if idx = [] then [] else [(n / idx.length, idx.getD (n % idx.length) 0)]
  earliest ((x.redo.filter fun e => idx.contains e.2) ++ next)

/-- Pass and index of the dispatch point. -/
def Stall.point (x : Stall) : Option (Nat × Nat) := earliest ((List.range 8).filterMap x.head)

/-! ### Fields that the state shows -/

/-- An Ox step of a stall holds the VU for its epilogue (R127). -/
def Stall.epilogue (x : Stall) : Bool := match x.ox with
  | some r => match x.step r.idx with
    | some st => decide (0 < st.opsN)
    | none => false
  | none => false

/-- REF of a slot of a table pair in a stall's expander (R170): blocks of the running step that name it and are not yet
decoded. -/
def Stall.refOf (x : Stall) (off : Nat) (slotB : Bool) : Nat :=
  match x.ox with
  | some r => match x.step r.idx with
    | some st => if st.table = off then
        ((x.exp.lanes.flatMap fun (e : Nat × List LaneBlock) => e.2).filter fun (b : LaneBlock) => b.names = some slotB && b.decoded.isNone).length
      else 0
    | none => 0
  | none => 0

/-! ### Domains (Tables 20.1 and 20.2) -/

/-- What a domain index names. -/
inductive Domain where
  | stall (i : Nat)
  | row (r : Nat)
  | mp (hub : Hub)
  | core (hub : Hub)
  | host (hub : Hub)
  | tree (port : Nat)
  | nbr (port : Nat)
  | decode (e : Nat)
  | dram (hub : Hub)
  | goose (hub : Hub)
  | always (hub : Hub)
deriving DecidableEq, Repr

def domainOf (d : Nat) : Domain :=
  if d < 128 then .stall d
  else if d < 136 then .row (d - 128)
  else if 174 ≤ d then .always (hubOf d)
  else
    let n := (d - 136) / 19
    let hub := hubOf n
    match (d - 136) % 19 with
    | 0 => .mp hub
    | 1 => .core hub
    | 2 => .host hub
    | 17 => .dram hub
    | 18 => .goose hub
    | u => if u < 7 then .tree (4 * n + u - 3) else if u < 9 then .nbr (2 * n + u - 7) else .decode (8 * n + u - 9)

def hubDomain (hub : Hub) (u : Nat) : Nat := 136 + 19 * hubNum hub + u
def decodeDomain (e : Nat) : Nat := 136 + 19 * (e / 8) + 9 + e % 8

/-- A domain has a state (0 OFF, 1 RET, 2 ON). -/
def Domain.has (x : Domain) (st : Nat) : Bool :=
  st = 2 || match x with
  | .stall _ => true
  | .row _ => true
  | .decode _ => true
  | .host _ => st = 0
  | .tree _ => st = 0
  | .nbr _ => st = 0
  | .dram _ => st = 1
  | _ => false

/-- Domains of P0 (R473): its stalls, decode engines, output stages and the memory domains of rows 0 and 4. -/
def Domain.ofP0 : Domain → Bool
  | .stall i => i = 15 || i = 79
  | .row r => r = 0 || r = 4
  | .decode e => e = 0 || e = 8
  | .goose _ => true
  | _ => false

/-- AUTO_OK: the domain permits automatic entry (Tables 20.1 and 20.2). -/
def Domain.autoOk (x : Domain) : Bool := x.has 1 && !x.ofP0

/-- A bit vector of the numbers below n for which `p` holds. -/
def bitsOf (n : Nat) (p : Nat → Bool) : Nat := (List.range n).foldl (fun v i => if p i then v + 2 ^ i else v) 0

/-- STALL_TROUGH_t (Table 7.19). -/
def Trough.view (x : Trough) : Fld → Nat
  | .stallTroughValid => 1
  | .stallTroughFull => bitsOf 16 fun i => (Tab.get {} x.slots i : Slot).state = .full || (Tab.get {} x.slots i : Slot).state = .draining
  | .stallTroughTwrap => b2n x.twrap
  | .stallTroughTail => x.tail
  | .stallTroughHwrap => b2n x.hwrap
  | .stallTroughHead => x.head
  | .stallTroughNslot => x.desc.nslot
  | _ => 0

/-- STALL_CTX_n (Table 7.18). -/
def Stall.ctxView (x : Stall) (c : Nat) (f : Fld) : Nat :=
  let head : Nat := ((x.head c).map fun p => p.2).getD 0
  match f with
  | .stallCtxValid => b2n (x.ctxIdx c ≠ [])
  | .stallCtxHead => head
  | .stallCtxGroup => ((x.step head).map fun st => st.group).getD 0
  | .stallCtxToken => Tab.get 0 x.lastToken c
  | _ => 0

/-- LEDGER_IMG_n (Table 8.14): the oldest uncommitted instance of an image. -/
def Hall.limgView (h : Hall) (r n : Nat) (f : Fld) : Nat :=
  match Tab.find (h.ledger r).images n with
  | none => 0
  | some k =>
    let oldest := match h.image k with
      | some im => match im.lrowOf r with
        | some l => im.atPosition l (h.runsCommitted r n)
        | none => (0, 0)
      | none => (0, 0)
    match f with
    | .ledgerImgValid => 1
    | .ledgerImgOpen => ((h.ledger r).runs.filter fun x => x.key.limg = n).length
    | .ledgerImgPass => oldest.1
    | .ledgerImgGroup => oldest.2
    | _ => 0

/-- Requests wait for a result queue (Table 2.22): a request queue that names it holds entries. -/
def Hall.requestsWait (h : Hall) (q : Nat) : Bool :=
  h.cmd.ques.any fun e => match e.2.qrec with
    | some r => (r.typ = 0 || r.typ = 3) && decide (r.resultQueue = q) && h.flag .queStatusEnabled e.1 && decide (h.queCount e.1 ≠ 0)
    | none => false

def Hall.queWaiting (h : Hall) (q : Nat) : Bool :=
  match (h.que q).qrec with
  | some r => r.typ = 1 && decide (h.resCredit q = 0) && h.requestsWait q
  | none => false

def CheckPhase.voting (x : CheckPhase) : Bool := x = .waitReferee || x = .copying || x = .refereeRun

/-- The value of a field as a read returns it: WO fields read zero (Table 0.6). -/
def Hall.view (h : Hall) (f : Fld) (u : Nat) : Nat :=
  if f.info.acc = .wo then 0
  else match f with
  | .oxStatusBusy => b2n (h.stall u).ox.isSome
  | .vuStatusEpilogue => b2n (h.stall u).epilogue
  | .vuStatusBusy => b2n ((h.stall u).vu.isSome || (h.stall u).epilogue)
  | .henStatusBusy => b2n (h.stall u).hen.isSome
  | .expStatusLanes => bitsOf 16 fun j => (Tab.get [] (h.stall u).exp.lanes j : List LaneBlock) ≠ []
  | .expStatusBusy => b2n ((h.stall u).exp.lanes.any fun e => e.2 ≠ [])
  | .expRefRefA => (h.stall (u / 8)).refOf (h.getF .expRefTableOff u) false
  | .expRefRefB => (h.stall (u / 8)).refOf (h.getF .expRefTableOff u) true
  | .stallStatusP => ((h.stall u).point.map fun p => p.2).getD 0
  | .stallStatusCtxUsed => bitsOf 8 fun c => (h.stall u).ctxIdx c ≠ []
  | .stallStatusIntake => b2n (decide (((h.stallImage u).map fun im => im.state) = some .active))
  | .stallStatusBound => b2n (h.stall u).image.isSome
  | .stallCtxValid => (h.stall (u / 8)).ctxView (u % 8) f
  | .stallCtxHead => (h.stall (u / 8)).ctxView (u % 8) f
  | .stallCtxGroup => (h.stall (u / 8)).ctxView (u % 8) f
  | .stallCtxToken => (h.stall (u / 8)).ctxView (u % 8) f
  | .stallTroughValid => ((h.trough (u / 32) (u % 32)).map fun x => x.view f).getD 0
  | .stallTroughFull => ((h.trough (u / 32) (u % 32)).map fun x => x.view f).getD 0
  | .stallTroughTwrap => ((h.trough (u / 32) (u % 32)).map fun x => x.view f).getD 0
  | .stallTroughTail => ((h.trough (u / 32) (u % 32)).map fun x => x.view f).getD 0
  | .stallTroughHwrap => ((h.trough (u / 32) (u % 32)).map fun x => x.view f).getD 0
  | .stallTroughHead => ((h.trough (u / 32) (u % 32)).map fun x => x.view f).getD 0
  | .stallTroughNslot => ((h.trough (u / 32) (u % 32)).map fun x => x.view f).getD 0
  | .ledgerStatusLimgUsed => bitsOf 8 fun n => (Tab.find (h.ledger u).images n).isSome
  | .ledgerStatusOpen => (h.ledger u).runs.length
  | .ledgerImgValid => h.limgView (u / 8) (u % 8) f
  | .ledgerImgOpen => h.limgView (u / 8) (u % 8) f
  | .ledgerImgPass => h.limgView (u / 8) (u % 8) f
  | .ledgerImgGroup => h.limgView (u / 8) (u % 8) f
  | .tallyStatusPending => (h.tally u).items.length
  | .tallyStatusVotes => ((h.tally u).items.filter fun (c : CheckItem) => c.phase.voting).length
  | .mmuStatusPoolOn => b2n ((h.pool (hubOf u)).frames ≠ [])
  | .mmuPoolPages => (h.pool (hubOf u)).frames.length
  | .mmuPoolValid => ((h.pool (hubOf u)).frames.filter fun e => e.2.state = .valid).length
  | .mgmtStatusBacklog => (h.link (hubOf u)).queue.length
  | .mgmtStatusEnabled => b2n (h.linkOn (hubOf u))
  | .queStatusWaiting => b2n (h.queWaiting u)
  | .pwrDomAutoOk => b2n (domainOf u).autoOk
  | _ => h.getF f u

/-! ### Where registers lie -/

/-- The block of a register region that holds an offset: the block, its number, the offset in it; none where no block lies (R55).
The ROW_ blocks and the queues' global registers, of which the manual lists no register, are shown as offsets that hold none. -/
def hubBlock (hub : Hub) (o : Nat) : Option (Blk × Nat × Nat) :=
  let u := hubNum hub
  if o < 0x10000 then some (.hub, u, o)
  else if o < 0x20000 then some (.pci, u, o - 0x10000)
  else if o < 0x40000 then none
  else if o < 0x80000 then some (.till, 2 * ((o - 0x40000) / 0x1000) + u, o % 0x1000)
  else if o < 0x100000 then none
  else if o < 0x180000 then some (.hub, u, o)
  else if o < 0x200000 then some (.que, 2 * ((o - 0x180000) / 0x40) + u, o % 0x40)
  else if o < 0x300000 then some (.mmu, u, o - 0x200000)
  else if o < 0x400000 then some (.wat, u, o - 0x300000)
  else if o < 0x410000 then
    let x := o - 0x400000
    if 0x1000 ≤ x ∧ x < 0x9000 then some (.brwch, 128 * u + (x - 0x1000) / 0x100, x % 0x100) else some (.brw, u, x)
  else if o < 0x500000 then none
  else if o < 0x540000 then some (.tree, 4 * u + (o - 0x500000) / 0x10000, o % 0x10000)
  else if o < 0x580000 then some (.sess, 4 * u + (o - 0x540000) / 0x10000, o % 0x10000)
  else if o < 0x5A0000 then some (.nbr, 2 * u + (o - 0x580000) / 0x10000, o % 0x10000)
  else if o < 0x5C0000 then some (.hub, u, o)
  else if o < 0x600000 then some (.vdec, 8 * u + (o - 0x5C0000) / 0x8000, o % 0x8000)
  else if o < 0x610000 then some (.pwr, u, o - 0x600000)
  else if o < 0x620000 then some (.rtc, u, o - 0x610000)
  else if o < 0x630000 then some (.goose, u, o - 0x620000)
  else if o < 0x640000 then some (.mgmt, u, o - 0x630000)
  else none

def rowBlock (r o : Nat) : Option (Blk × Nat × Nat) :=
  if o < 0x10000 then some (.tally, r, 0x10000 + o)
  else if o < 0x20000 then some (.tally, r, o - 0x10000)
  else if o < 0x30000 then some (.ledger, r, o - 0x20000)
  else if o < 0x40000 then some (.nvmc, r, o - 0x30000)
  else if o < 0x50000 then
    let x := o - 0x40000
    if 0x1000 ≤ x ∧ x < 0x5000 then some (.brwch, 256 + 64 * r + (x - 0x1000) / 0x100, x % 0x100) else some (.brw, 2 + r, x)
  else if o < 0x100000 then none
  else if o < 0x200000 then
    let i := 16 * r + (o - 0x100000) / 0x10000
    let x := o % 0x10000
    if x < 0x4000 then some (.stall, i, x)
    else if x < 0x8000 then some (.ox, i, x - 0x4000)
    else if x < 0xA000 then some (.vu, i, x - 0x8000)
    else if x < 0xC000 then some (.hen, i, x - 0xA000)
    else some (.exp, i, x - 0xC000)
  else none

def regBlockAt : Region → Option (Blk × Nat × Nat)
  | .hubRegs hub o => hubBlock hub o
  | .rowRegs r o => rowBlock r o
  | _ => none

/-- The unit that a field's i-th register in block k belongs to. Rails, domains and the pens' check settings stand once in the state
and show in every block that lists them (R486, R224). -/
def Fld.unitIn (f : Fld) (k i : Nat) : Nat :=
  match f with
  | .tallyPenchkChkOn => i
  | .tallyPenchkFCode => i
  | .pwrRailTj => i
  | .pwrRailActual => i
  | .pwrRailSet => i
  | .pwrDomState => i
  | .pwrDomForce => i
  | .pwrDomWakeLvl => i
  | .pwrDomWakePulse => i
  | .pwrDomAutoOk => i
  | .pwrDomOffTicks => i
  | .pwrDomRetTicks => i
  | _ => f.info.n * k + i

/-- Fields with a bit in bytes `o` to `o + n − 1` of a block: each with the number of its register. -/
def fieldsIn (blk : Blk) (o n : Nat) : List (Fld × Nat) :=
  (Fld.all.filter fun f => f.info.blk = blk).flatMap fun f =>
    let r := f.info
    let is := if r.stride = 0 then [0]
      else if o + n ≤ r.off then []
      else ((List.range (n / r.stride + 2)).map fun d => (o - r.off) / r.stride - 1 + d).filter (· < r.n)
    (is.filter fun i => decide (r.off + r.stride * i + r.lo / 8 < o + n) && decide (o ≤ r.off + r.stride * i + r.hi / 8)).dedup.map fun i => (f, i)

/-- Bytes of registers from the fields that lie there. -/
def Hall.fieldBytes (h : Hall) (blk : Blk) (k o n : Nat) : Bytes :=
  let start := o / 8 * 8
  let v := ((fieldsIn blk o n).map fun e =>
    h.view e.1 (e.1.unitIn k e.2) * 2 ^ (8 * (e.1.info.off + e.1.info.stride * e.2 - start) + e.1.info.lo)).sum
  (leBytes (n + 8) v).drop (o - start) |>.take n

/-- The window of the world table that holds an offset: kind, first entry of the window's word, first offset (Table 18.13). -/
def watWindow (o : Nat) : Option (Nat × Nat) :=
  let word := fun (kind base : Nat) => some (kind, (o - base) / 8)
  if o < 0x1000 then none
  else if o < 0x1010 then word 0 0x1000
  else if 0x1100 ≤ o ∧ o < 0x1110 then word 1 0x1100
  else if 0x1200 ≤ o ∧ o < 0x1208 then word 5 0x1200
  else if 0x1400 ≤ o ∧ o < 0x1420 then word 3 0x1400
  else if 0x1420 ≤ o ∧ o < 0x1460 then word 4 0x1420
  else if 0x2000 ≤ o ∧ o < 0x2080 then word 6 0x2000
  else if 0x3000 ≤ o ∧ o < 0x3800 then word 2 0x3000
  else if 0x4000 ≤ o ∧ o < 0x4200 then word 10 0x4000
  else if 0x5000 ≤ o ∧ o < 0x5600 then word 8 0x5000
  else if 0x80000 ≤ o ∧ o < 0x100000 then word 9 0x80000
  else none

/-- A byte of the world table's windows. -/
def Hall.watByte (h : Hall) (o : Nat) : Byte :=
  match watWindow o with
  | none => 0
  | some (5, _) =>
    let entry := fun (i : Nat) => if i < 16 then h.secureEntry 5 i else decide (i < 20) && h.secureEntry 7 (i - 16)
    BitVec.ofNat 8 (bitsOf 8 fun j => entry (8 * (o % 8) + j))
  | some (kind, w) => BitVec.ofNat 8 (bitsOf 8 fun j => h.secureEntry kind (64 * w + 8 * (o % 8) + j))

/-- `n` bytes read from a place in a block. -/
def Hall.blockRead (h : Hall) (b : Blk × Nat × Nat) (n : Nat) : Bytes :=
  let (blk, k, o) := b
  if blk = .till ∧ o < 0xFC0 then h.readBytes (tillBase k + o) n
  else if blk = .nvmc ∧ 0x8000 ≤ o ∧ o < 0xC000 then ((List.range n).map fun i => ((h.array k).pageBuf.getD (o - 0x8000 + i) { b := 0 }).b)
  else if blk = .wat ∧ 0x1000 ≤ o then (List.range n).map fun i => h.watByte (o + i)
  else h.fieldBytes blk k o n

/-- Bytes of a register region, zeros where no block lies; poison marks of NVMC_PAGEBUF go with its bytes. -/
def Hall.regPayload (h : Hall) (a n : Nat) : Payload :=
  match regBlockAt (h.region a) with
  | some (.nvmc, k, o) =>
    if 0x8000 ≤ o ∧ o < 0xC000 then (List.range n).map fun i => (h.array k).pageBuf.getD (o - 0x8000 + i) { b := 0 }
    else cleanBytes (h.blockRead (.nvmc, k, o) n)
  | some b => cleanBytes (h.blockRead b n)
  | none => List.replicate n { b := 0 }

end Sys2Proof.Machine
end

