-- ==== Sys2Proof/Machine/Chan.lean ====
section
/-! DEFINITION. Barrow channels as such: where bursts land (R208, R283, R290), and dropping and stopping a channel
(R291). -/

namespace Sys2Proof.Machine

/-- Channel numbers of the model: 128 · hub + c for a hub channel, 256 + 64 · r + c for a row channel. -/
def chanNum : Chan → Nat
  | .hub h c => hubNum h * 128 + c.val
  | .row r c => 256 + r.val * 64 + c.val

/-- Engine of BRW_ counters: hub 0 and 1, row 2 + r. -/
def engineNum : Engine → Nat
  | .hub h => hubNum h
  | .row r => 2 + r.val

/-- Channels of an engine, in increasing number. -/
def engineChans (e : Nat) : List Nat :=
  if e < 2 then (List.range 128).map (e * 128 + ·) else (List.range 64).map (256 + (e - 2) * 64 + ·)

/-- Jenig's reserved channels (R276). -/
def chanReserved (c : Nat) : Bool := if c < 256 then decide (120 ≤ c % 128) else decide (60 ≤ (c - 256) % 64)

def chanIsHub (c : Nat) : Bool := decide (c < 256)
def chanHub (c : Nat) : Hub := hubOf (c / 128)
def chanRow (c : Nat) : Nat := (c - 256) / 64

/-- The hub that carries a channel's accesses: its own, or for a row channel hub A while its link and the hub are there
(log entry 26). -/
def Hall.carrier (h : Hall) (c : Nat) : Hub :=
  if chanIsHub c then chanHub c
  else if h.hubLost .a || h.avail.lostLinks.contains (2 * chanRow c) then .b else .a

/-- A write of the physical space (space 8): memory; 64-byte data cycles of the array windows; every other register is
written through the switchboard only, so such a write is discarded. -/
def Hall.physWrite (h : Hall) (a : Nat) (p : Payload) : Hall :=
  match h.region a with
  | .t1 _ => h.writeRam a p
  | .t0 _ _ => h.writeRam a p
  | .t2 r o => match h.governing with
    | some hub => (h.nvRunComplete r).windowWrite hub r o (p.map fun (x : PByte) => x.b)
    | none => h
  | _ => h

/-- Places bytes in an item at an offset. -/
def placeAt (item : Payload) (o : Nat) (p : Payload) : Payload :=
  let base := item ++ List.replicate (o - item.length) { b := 0 }
  base.take o ++ p ++ base.drop (o + p.length)

/-- A burst lands (R208, R217, R283). -/
def Hall.land (h : Hall) (c : Nat) (b : DmaBurst) (p : Payload) : Hall :=
  match b.dest with
  | .phys a => h.physWrite a p
  | .prov a => match b.key with
    | some k => if (h.findRun k).isSome then h.provWrite k a p else h.writeRam a p
    | none => h.writeRam a p
  | .redo a => match b.key with
    | some k =>
      if (h.findRun k).isSome then h.updRun k fun r => { r with redo := r.redo ++ [{ addr := a, data := p }] }
      else h.writeRam a p
    | none => h.writeRam a p
  | .host a => h.hostWrite a (p.map fun (x : PByte) => x.b)
  | .output a toHost =>
    let h := if toHost then h.hostWrite a (p.map fun (x : PByte) => x.b) else h.writeRam a p
    if (h.chan c).skipPoison then h else h.updReq b.token fun q => { q with written := q.written + p.length }
  | .nbrSend _ o => h.updChan c fun x => { x with item := placeAt x.item o p }
  | .drop => h

/-- The burst no longer holds its pool frame. -/
def Hall.burstLeaves (h : Hall) (b : DmaBurst) : Hall :=
  match b.frame with
  | some (hub, page) => h.frameBurstDone hub page
  | none => h

/-- Ends the lot reads of a channel's bursts. -/
def Hall.dropReads (h : Hall) (c : Nat) : Hall :=
  (h.chan c).outstanding.foldl (fun h b => match b.read with
    | some id => ({ h with tiers.reads := Tab.erase h.tiers.reads id }).farDrop id
    | none => h) h

/-- Drops a channel at once (R291): bursts in flight are lost, and how many of their bytes land, the descriptor index and
the loop positions are free values. -/
def Hall.chanDrop (h : Hall) (c : Nat) : Hall :=
  if h.getF .brwChState c = 0 then h
  else
    let h := h.dropReads c
    let h := (h.chan c).outstanding.foldl (fun h b =>
      let (k, h) := h.free
      let h := h.burstLeaves b
      match b.payload with
      | some p => if p.length = 0 then h else h.land c b (p.take (k % (p.length + 1)))
      | none => h) h
    let (d, h) := h.free
    let (i0, h) := h.free
    let (i1, h) := h.free
    let (i2, h) := h.free
    let h := h.setFs c [(.brwChState, 0), (.brwChStateDesc, d), (.brwChPosI0, i0), (.brwChPosI1, i1), (.brwChPosI2, i2),
      (.brwChCtrlEnable, 0)]
    (h.updChan c fun x => { handle := x.handle, lrow := x.lrow }).bump .brwDrops (chanEngine c)

/-- A channel is taken from an image: dropped, and its pen and chain cleared. -/
def Hall.chanRelease (h : Hall) (c : Nat) : Hall :=
  let h := (h.chanDrop c).clearFs c [.brwChCtrlEnable, .brwChCtrlPenValid, .brwChCtrlPen, .brwChCtrlPrioMax, .brwChCtrlWorld,
    .brwChStartChain, .brwChStartHubsec]
  let h := h.setWorld (if c < 256 then 3 else 4) (if c < 256 then c else c - 256) true
  { h with tiers.chans := Tab.erase h.tiers.chans c }

/-- Pen reset of a channel's pen: ENABLE and BRW_CH_ERR cleared, and BRW_CH_BYTES (Table 11.3, R294). -/
def Hall.chanPenReset (h : Hall) (c : Nat) : Hall :=
  (h.clearFs c [.brwChErrValid, .brwChErrDir, .brwChErrCause, .brwChErrSpace, .brwChErrAddr]).clearCtr c .brwChBytes

end Sys2Proof.Machine
end

