-- ==== Sys2Proof/Machine/Shadow.lean ====
section
/-! DEFINITION. Shadow fractions (Table 9.2) and the designation of shadow stalls (R227, R508). -/

namespace Sys2Proof.Machine

/-- f of an F_CODE, in 1/128 (Table 9.2). -/
def fUnits (c : Nat) : Nat := if c = 0 then 0 else 2 ^ (c - 1)

/-- f_eff of a stall for a pen's F_CODE, in 1/128 (R225). -/
def Hall.fEff (h : Hall) (i code : Nat) : Nat := max (fUnits code) (fUnits (h.getF .tallyStallFOvr i))

/-- TALLY_PENCHK of a pen, the same in every row (R253). -/
def Hall.penChkOn (h : Hall) (p : Nat) : Bool := h.flag .tallyPenchkChkOn p
def Hall.penFCode (h : Hall) (p : Nat) : Nat := h.getF .tallyPenchkFCode p

/-- Stalls of a pen that images are bound to. -/
def Hall.boundStalls (h : Hall) (p : Nat) : List Nat := (h.stallsOf p).filter fun i => (h.stall i).image.isSome && !h.stallRetired i

/-- Shadow stalls of a pen, in ascending order. -/
def Hall.shadowsOf (h : Hall) (p : Nat) : List Nat := (h.stallsOf p).filter fun i => h.getF .tallyStallRole i = 2

/-- A stall that may be a shadow stall: of the pen, unbound, and neither retired, reserved nor of another role. -/
def Hall.shadowable (h : Hall) (i : Nat) : Bool :=
  (h.stall i).image.isNone && !h.stallRetired i && !(h.stall i).spare &&
    (h.getF .tallyStallRole i = 0 || h.getF .tallyStallRole i = 2)

/-- An image has a step with SHADOW set. -/
def Image.shadowSteps (im : Image) : Bool := im.lstalls.any fun ls => (im.records 1 ls.1 ls.2 64).any fun b => bit (leAt b 1 1) 6

/-- Shadow stalls that a pen needs (R227). -/
def Hall.shadowNeed (h : Hall) (p : Nat) : Nat :=
  let n := ceilDiv ((h.boundStalls p).map fun i => h.fEff i (h.penFCode p)).sum 128
  if n = 0 ∧ (h.data.images.any fun e => e.2.pen = p && e.2.loaded && e.2.shadowSteps) = true then 1 else n

/-- Every row with a bound stall has a shadow stall in another row. -/
def crossRow (rows chosen : List Nat) : Bool := rows.all fun r => chosen.any fun i => decide (i / 16 ≠ r)

/-- The first `n` of the candidates that meet the cross-row rule together: the last one chosen gives way to the next that
meets it, and where none does, one more is taken (DEDUCED, log entry 33). -/
def pickShadows (n : Nat) (rows pool : List Nat) : Option (List Nat) :=
  let first := pool.take n
  if n = 0 then some []
  else if first.length < n then none
  else if crossRow rows first then some first
  else match (pool.drop n).find? fun i => crossRow rows (pool.take (n - 1) ++ [i]) with
    | some i => some (pool.take (n - 1) ++ [i])
    | none => ((pool.drop n).find? fun i => crossRow rows (first ++ [i])).map fun i => first ++ [i]

/-- Candidates of a pen: those designated already, then the others, each in ascending order (R508). -/
def Hall.shadowPool (h : Hall) (p : Nat) : List Nat :=
  let c := (h.stallsOf p).filter h.shadowable
  (c.filter fun i => h.getF .tallyStallRole i = 2) ++ c.filter fun i => h.getF .tallyStallRole i ≠ 2

def Hall.boundRows (h : Hall) (p : Nat) : List Nat := ((h.boundStalls p).map (· / 16)).dedup

/-- Designates exactly the stalls given. -/
def Hall.setShadows (h : Hall) (p : Nat) (l : List Nat) : Hall :=
  let h := (h.shadowsOf p).foldl (fun h i => if l.contains i then h else h.setF .tallyStallRole i 0) h
  l.foldl (fun h i => h.setF .tallyStallRole i 2) h

/-- Designates the shadow stalls of a pen by R227; none where it lacks the stalls. -/
def Hall.designate (h : Hall) (p : Nat) : Option Hall :=
  (pickShadows (h.shadowNeed p) (h.boundRows p) (h.shadowPool p)).map fun l => h.setShadows p l

/-- The same for changes that no command can refuse: as many as there are, and none changed where there is none. -/
def Hall.redesignate (h : Hall) (p : Nat) : Hall :=
  let n := h.shadowNeed p
  match (List.range (n + 1)).findSome? fun d =>
      if d < n ∨ n = 0 then pickShadows (n - d) (h.boundRows p) (h.shadowPool p) else none with
  | some l => h.setShadows p l
  | none => h

end Sys2Proof.Machine
end

