-- ==== Sys2Proof/Machine/Requests.lean ====
section
/-! DEFINITION. Requests from intake to result (R68, R69, R197, R217, R218, R254, R260), and the release of an image
(Table 7.14). -/

namespace Sys2Proof.Machine

/-- A request entry (Table 2.18). -/
structure ReqEntry where
  launch : Nat
  tag : Nat
  inMva : Nat
  inBytes : Nat
  outMva : Nat
  outBytes : Nat
  stamp : Nat
  reserved : Bool
deriving DecidableEq, Repr

def decodeReq (b : Bytes) : ReqEntry :=
  { launch := leAt b 0 2, tag := leAt b 8 8, inMva := leAt b 16 8, inBytes := leAt b 24 4, outMva := leAt b 32 8
    outBytes := leAt b 40 4, stamp := leAt b 48 4
    reserved := decide (leAt b 2 6 ≠ 0) || decide (leAt b 28 4 ≠ 0) || decide (leAt b 44 4 ≠ 0) || decide (leAt b 52 12 ≠ 0) }

/-- VERSION (R334): CRC-64 over one 12-byte record per layer crossed. -/
def versionOf (layers : List (Nat × Nat × Nat)) : Nat :=
  if layers = [] then 2 ^ 64 - 1
  else crc64 (layers.flatMap fun l => leBytes 4 l.1 ++ leBytes 2 l.2.1 ++ [0, 0] ++ leBytes 4 l.2.2)

/-- A result entry (Table 2.19). -/
def resultBytes (q : Req) (status written phase seq : Nat) : Bytes :=
  leBytes 2 status ++ leBytes 2 (phase + 2 * b2n q.mixed + 4 * b2n q.shadowed) ++ leBytes 4 seq ++ leBytes 8 q.tag ++
  leBytes 8 q.outMva ++ leBytes 4 written ++ leBytes 2 q.queue ++ leBytes 2 q.launch ++ leBytes 4 q.stamp ++ leBytes 4 0 ++
  leBytes 8 (versionOf q.layers)

/-! ### Release of an image -/

/-- A stall without an image. -/
def Stall.unbind (x : Stall) : Stall :=
  { test := x.test, packRun := x.packRun, packStart := x.packStart, packFailed := x.packFailed, lastPackPassed := x.lastPackPassed, stuck := x.stuck
    spare := x.spare }

/-- Channels bound to an image. -/
def Hall.imageChans (h : Hall) (handle : Nat) : List Nat :=
  (h.tiers.chans.filter fun e => e.2.handle = some handle).map Prod.fst

/-- Worlds of the pens whose images declare a range over a granule of a row's buffer (R182). -/
def Hall.bufOwners (h : Hall) (r g : Nat) : List Bool :=
  h.data.images.filterMap fun e =>
    if e.2.rows.any fun x => decide (x.2 = r) && (match e.2.rbuf x.1 with
      | some b => decide (b.1 < (g + 1) * 65536) && decide (g * 65536 < b.1 + b.2)
      | none => false)
    then some (h.penSecure e.2.pen) else none

/-- The granules of a declared range take the world of the pens that declare them, and are zeroed where they leave the secure
world (R422, R426, log entry 15). -/
def Hall.bufWorld (h : Hall) (r : Nat) (b : Nat × Nat) : Hall :=
  upTo ((b.1 + b.2 + 65535) / 65536 - b.1 / 65536) h fun h n =>
    let g := b.1 / 65536 + n
    let owners := h.bufOwners r g
    let secure := decide (owners = []) || owners.any id
    let k := 1536 * r + 1024 + g
    if h.secureEntry 8 k = secure then h
    else (if secure then h else h.zero (rowBufBase r + g * 65536) 65536).setWorld 8 k secure

/-- Row-buffer ranges that an image holds: row and range. -/
def Image.bufRanges (im : Image) : List (Nat × Nat × Nat) := im.rows.filterMap fun e => (im.rbuf e.1).map fun b => (e.2, b)

/-- An image returns to EMPTY: channels, stalls, Ledger indices and launch entries are released (Table 7.14). -/
def Hall.imageFree (h : Hall) (handle : Nat) : Hall :=
  let pen := (h.image handle).map fun im => im.pen
  let bufs := ((h.image handle).map Image.bufRanges).getD []
  let h := (h.imageChans handle).foldl (fun h c => h.chanRelease c) h
  let gone := (h.openRuns.filter fun r => decide (r.handle = handle)).map GroupRun.key
  let h := gone.foldl (fun h k => (h.releaseRun k).updTally k.row fun t =>
    { t with items := t.items.filter fun (c : CheckItem) => decide (c.key ≠ k)
             repeats := t.repeats.filter fun (c : RepeatItem) => decide (c.key ≠ k) }) h
  let h := ((List.range 128).filter fun i => (h.stall i).image = some handle).foldl (fun h i =>
    if h.getF .tallyStallRole i = 1 then h.setF .tallyStallRole i 0 else h) h
  let h := { h with
    data.stalls := h.data.stalls.map fun e => if e.2.image = some handle then (e.1, e.2.unbind) else e
    data.launch := Tab.keep (fun _ v => decide (v.handle ≠ handle)) h.data.launch
    data.images := Tab.erase h.data.images handle
    weights.crossings := h.weights.crossings.filter fun c => decide (c.handle ≠ handle)
    data.ledgers := h.data.ledgers.map fun e =>
      let gone := (e.2.images.filter fun x => x.2 = handle).map Prod.fst
      (e.1, { e.2 with images := e.2.images.filter fun x => decide (x.2 ≠ handle)
                       committed := e.2.committed.filter fun x => !gone.contains x.1
                       runs := e.2.runs.filter fun r => decide (r.handle ≠ handle) }) }
  let h := bufs.foldl (fun h b => h.bufWorld b.1 b.2) h
  match pen with
  | some p => h.redesignate p
  | none => h

/-- Image of a launch entry. -/
def Hall.launchImage (h : Hall) (pen launch : Nat) : Option Nat := (h.launchEntry (256 * pen + launch)).map fun e => e.handle

/-- Requests in flight of an image. -/
def Hall.inFlight (h : Hall) (handle : Nat) : Nat :=
  (h.data.requests.filter fun e => h.launchImage e.2.pen e.2.launch = some handle).length

/-- PAUSING and RETIRING end with the last request in flight (Table 7.14). -/
def Hall.imageSettle (h : Hall) (handle : Nat) : Hall :=
  match h.image handle with
  | none => h
  | some im =>
    if h.inFlight handle ≠ 0 then h
    else match im.state with
    | .pausing =>
      let h := h.updImage handle fun im => { im with state := .paused, op := none }
      match im.op with
      | some k => h.closeOp k stOK
      | none => h
    | .retiring =>
      let h := h.imageFree handle
      match im.op with
      | some k => h.closeOp k stOK
      | none => h
    | _ => h

/-! ### Results -/

/-- Writes the result of a request and ends it: its credits return (R69, R75, R217, R218). -/
def Hall.endRequest (h : Hall) (token : Nat) : Hall :=
  match h.req token with
  | none => h
  | some q =>
    let handle := h.launchImage q.pen q.launch
    let h := { h with data.requests := Tab.erase h.data.requests token }
    let h := h.updQue q.resultQueue fun x => { x with inFlight := x.inFlight - 1 }
    let h := h.updLaunch (256 * q.pen + q.launch) fun e => { e with used := e.used - 1 }
    let written := if q.status = 0 ∨ q.status = stPoisoned ∧ q.written ≠ 0 then q.written else 0
    let h := h.quePut q.resultQueue (resultBytes q q.status written)
    match handle with
    | some k => h.imageSettle k
    | none => h

/-- A request is discarded without a result (pen reset): its credits return. -/
def Hall.dropRequest (h : Hall) (token : Nat) : Hall :=
  match h.req token with
  | none => h
  | some q =>
    let h := { h with data.requests := Tab.erase h.data.requests token }
    (h.updQue q.resultQueue fun x => { x with inFlight := x.inFlight - 1 }).updLaunch (256 * q.pen + q.launch) fun e =>
      { e with used := e.used - 1 }

/-! ### Intake -/

/-- Reads `n` bytes of T1 or host memory at an MVA. -/
def Hall.mvaRead (h : Hall) (hub : Hub) (pen mva n : Nat) : Option Payload × Hall :=
  (mvaPieces mva n).foldl (fun (acc : Option Payload × Hall) piece =>
    match acc with
    | (none, h) => (none, h)
    | (some p, h) => match h.translate hub pen piece.1 false false with
      | (.inr (.ram a), h) => (some (p ++ h.readRam a piece.2), h)
      | (.inr (.host a), h) => (some (p ++ cleanBytes (h.hostRead a piece.2)), h)
      | (.inr (.lot a _), h) => match h.nvMirrorRead ((a - 0x040000000000) / 0x008000000000 % 4) (a % 0x008000000000) piece.2 with
        | (some x, h) => (some (p ++ x), h)
        | (none, h) => (none, h)
      | (.inl _, h) => (none, h)) (some [], h)

/-- The entry at a request queue's head: from host memory, or for a DREQ queue from T1 (R68). -/
def Hall.headEntry (h : Hall) (q : Nat) (r : QueRec) : Option Bytes × Hall :=
  let o := r.base + 64 * h.getF .queCons q
  if r.typ = 3 then
    match h.mvaRead (hubOf q) r.pen o 64 with
    | (some p, h) => (some (p.map fun (x : PByte) => x.b), h)
    | (none, h) => (none, h)
  else (some (h.hostRead o 64), h)

/-- The next free request token, 1 to 65,535 (R193). -/
def Hall.newToken (h : Hall) : Nat :=
  let n := h.data.requests.length + 1
  (((List.range n).map fun i => (h.data.lastToken + i) % 65535 + 1).find? fun t => (h.req t).isNone).getD 0

/-- Refusals at intake: Table 7.11, R254, R260, and an entry with a reserved field set (R12). -/
def Hall.intakeRefusal (h : Hall) (r : QueRec) (e : ReqEntry) : Option Nat :=
  if 255 < e.launch ∨ e.reserved = true then some stBadArg
  else match h.launchEntry (256 * r.pen + e.launch) with
  | none => some stBadArg
  | some l =>
    if !l.valid then some stBadArg
    else if (r.typ = 0 ∧ l.hreq = false) ∨ (r.typ = 3 ∧ l.dreq = false) then some stNotPermitted
    else if l.maxIn < e.inBytes ∨ e.outBytes < l.minOut then some stBadArg
    else if ((h.image l.handle).map fun im => im.state) = some .retiring then some stAborted
    else if 2 ^ 48 ≤ e.inMva ∨ 2 ^ 48 ≤ e.outMva ∨ 2 ^ 48 < e.inMva + e.inBytes ∨ 2 ^ 48 < e.outMva + e.outBytes then some stBadArg
    else if !(h.mvaReadable r.pen e.inMva e.inBytes && h.mvaWritable r.pen e.outMva e.outBytes true) then some stBadArg
    else none

/-- The queue's consumer index moves past its head entry, and is written back where the record says so (R72). The
manual gives WRITEBACK no width: four bytes (log entry 27). -/
def Hall.queTake (h : Hall) (q : Nat) (r : QueRec) : Hall :=
  let c := (h.getF .queCons q + 1) % queSize r
  let h := (h.setF .queCons q c).queFlags q
  if r.typ = 0 ∧ r.writeback ≠ 0 then h.hostWrite r.writeback (leBytes 4 c) else h

/-- The result queue takes results. -/
def Hall.resReady (h : Hall) (q : Nat) : Bool :=
  match (h.que q).qrec with
  | some r => r.typ = 1 && h.flag .queStatusEnabled q && decide (0 < h.resCredit q)
  | none => false

/-- The image of a launch entry takes requests now (R197). -/
def Hall.launchOpen (h : Hall) (pen launch : Nat) : Bool :=
  match h.launchEntry (256 * pen + launch) with
  | some l => l.intakeOn && decide (l.used < l.inflight)
  | none => false

/-- REQUEST_INTAKE (R197): the head entry of a request queue is taken, refused at once, or waits. A SHED pen's
entries are answered with SHED (R456). -/
def execRequestIntake (queue : Fin 16384) (s : State) : Host.Outcome State Fault Refusal :=
  s.run fun h =>
    let q := queue.val
    match (h.que q).qrec with
    | none => h
    | some r =>
      let p := h.pen r.pen
      let live := p.state = .up || p.state = .wedged || p.state = .shed || (p.state = .resetting && (p.reset.map fun x => decide (x.half ≠ 0)) = some true)
      if !(r.typ = 0 || r.typ = 3) || !h.flag .queStatusEnabled q || decide (h.queCount q = 0) || !h.resReady r.resultQueue || !live
      then h
      else match h.headEntry q r with
      | (none, h) => h
      | (some bytes, h) =>
        let e := decodeReq bytes
        let why := if p.state = .shed then some stShed else h.intakeRefusal r e
        if why = none ∧ h.launchOpen r.pen e.launch = false then h
        else
          let token := h.newToken
          let home := hubOf q
          let x : Req :=
            { hub := if h.hubLost home then otherHub home else home, pen := r.pen, queue := q, resultQueue := r.resultQueue
              launch := e.launch, handle := (h.launchImage r.pen e.launch).getD 0, tag := e.tag
              inMva := e.inMva, inBytes := e.inBytes, outMva := e.outMva, outBytes := e.outBytes, stamp := e.stamp
              status := why.getD 0, order := h.data.taken
              chkOn := h.flag .tallyPenchkChkOn r.pen, fCode := h.getF .tallyPenchkFCode r.pen }
          let h := h.queTake q r
          let h := h.updQue r.resultQueue fun y => { y with inFlight := y.inFlight + 1 }
          let h := { h with data.requests := Tab.set h.data.requests token x, data.lastToken := token, data.taken := h.data.taken + 1 }
          let h := if e.launch ≤ 255 then h.updLaunch (256 * r.pen + e.launch) fun l => { l with used := l.used + 1 } else h
          match why with
          | some _ => h.endRequest token
          | none => h.bump .mmuTranslations (hubNum x.hub) ((mvaPieces e.inMva e.inBytes).length + (mvaPieces e.outMva e.outBytes).length)

end Sys2Proof.Machine
end

