-- ==== Sys2Proof/Machine/Barrow.lean ====
section
/-! DEFINITION. Barrow (R276–R294): chains walked descriptor by descriptor, bursts issued and landed, slots filled and
drained, bus errors and recovery. -/

namespace Sys2Proof.Machine

/-! ### Chains of a channel -/

/-- Descriptors of the section a channel's chain lies in. -/
def Hall.chanDescs (h : Hall) (c : Nat) : List Desc :=
  match (h.chan c).handle with
  | some k => match h.image k with
    | some im => im.descs (h.chan c).lrow
    | none => []
  | none => []

/-- The current descriptor. -/
def Hall.curDesc (h : Hall) (c : Nat) : Option Desc := (h.chanDescs c)[h.getF .brwChStateDesc c]?

/-- Launch entries of a channel's image, and whether its chain is their intake or exit chain. -/
def Hall.chanLaunch (h : Hall) (c : Nat) (exit : Bool) : Bool :=
  chanIsHub c && h.data.launch.any fun e =>
    decide ((h.chan c).handle = some e.2.handle) &&
      decide ((if exit then e.2.exit else e.2.intake) = h.getF .brwChStartChain c)

/-- Pen of a channel, and its accesses' world. -/
def Hall.chanPen (h : Hall) (c : Nat) : Nat := h.getF .brwChCtrlPen c
def Hall.chanWho (h : Hall) (c : Nat) : Accessor :=
  { secure := if c < 256 then h.secureEntry 3 c else h.secureEntry 4 (c - 256), source := 1, id := c }

/-- Physical stall that a descriptor's side names (Table 11.2). -/
def Hall.descStall (h : Hall) (c : Nat) (d : Desc) (source : Bool) : Option Nat :=
  match (h.chan c).handle with
  | some k => match h.image k with
    | some im =>
      let l := match (h.chan c).lrow with
        | some l => l
        | none => if source then d.srow else d.drow
      im.pstall l (if source then d.ssel else d.dsel)
    | none => none
  | none => none

/-- The hub that R277 names for chains that are neither intake nor exit chains. -/
def Hall.chainHub (h : Hall) (c : Nat) : Hub :=
  let ds := h.chanDescs c
  let own := (chainOf ds (h.getF .brwChStartChain c)).filterMap fun i => ds[i]?
  match own.find? fun d => d.dspace = 6 || d.sspace = 7 with
  | some d => hubOf ((if d.dspace = 6 then d.dsel else d.ssel) / 2)
  | none => if h.hubLost .a then .b else .a

/-- The slot that a channel has opened in its run for a side. -/
def ChanSt.openSlot (x : ChanSt) (stall trough : Nat) (fill : Bool) : Option OpenSlot :=
  x.opened.find? fun o => o.stall = stall && o.trough = trough && o.fill = fill

/-- The open run whose tag a slot carries (R211). -/
def Hall.slotRun (h : Hall) (s : Slot) : Option RunKey :=
  (s.tags.filterMap fun d => match d with
    | .own k => if (h.findRun k).isSome then some k else none
    | .nbr _ _ => none).head?

/-- The slot a channel takes as source: its opened one, or the next full one. -/
def Hall.srcSlot (h : Hall) (c : Nat) (d : Desc) : Option (Nat × Nat × Slot) :=
  match h.descStall c d true with
  | none => none
  | some i => match h.trough i d.strough with
    | none => none
    | some x => match (h.chan c).openSlot i d.strough false with
      | some o => some (i, o.slot, x.slot o.slot)
      | none =>
        let s := match x.retake with
          | (s, _) :: _ => s
          | [] => x.head
        if (x.slot s).state = .full then some (i, s, x.slot s) else none

/-- Requests whose intake a channel's chain is, the oldest first. -/
def Hall.intakeNext (h : Hall) (c : Nat) : Option (Nat × Req) :=
  let mine := h.data.requests.filter fun e =>
    decide (e.2.hub = chanHub c) && !e.2.intakeBegun && decide ((h.chan c).handle = some e.2.handle) &&
      match h.launchEntry (256 * e.2.pen + e.2.launch) with
      | some l => decide (l.intake = h.getF .brwChStartChain c)
      | none => false
  mine.foldl (fun best e => match best with
    | some b => if e.2.order < b.2.order then some e else best
    | none => some e) none

/-- The oldest complete item of a port not yet taken (R403). -/
def Hall.heldNext (h : Hall) (p : Nat) : Option HeldItem :=
  ((h.nbr p).items.filter fun i => i.complete && !i.taken).foldl (fun best i => match best with
    | some b => if i.order < b.order then some i else best
    | none => some i) none

/-- What a burst carries along from its source: the token, the tags, and for a row chain the open run (R193, R211). -/
structure Origin where
  token : Nat
  tags : List Dep
  key : Option RunKey
deriving DecidableEq, Repr

def Hall.origin (h : Hall) (c : Nat) (d : Desc) : Origin :=
  if d.sspace = 2 then
    match h.srcSlot c d with
    | some (_, _, s) => { token := s.token, tags := s.tags.filter h.depOpen, key := if chanIsHub c then none else h.slotRun s }
    | none => { token := 0, tags := [], key := none }
  else if d.sspace = 7 then
    match h.heldNext d.ssel with
    | some i => { token := (h.chan c).token, tags := [Dep.nbr d.ssel i.tag].filter h.depOpen, key := none }
    | none => { token := (h.chan c).token, tags := [], key := none }
  else { token := (h.chan c).token, tags := [], key := none }

/-- The hub that homes the result queue of a token's request (R277). -/
def Hall.exitHub (h : Hall) (token : Nat) : Hub :=
  match h.req token with
  | some q => let home := hubOf q.resultQueue; if h.hubLost home then otherHub home else home
  | none => if h.hubLost .a then .b else .a

/-- The source side may be read now (R192, R208, R277, R284). -/
def Hall.srcReady (h : Hall) (c : Nat) (d : Desc) : Bool :=
  match d.sspace with
  | 2 => match h.srcSlot c d with
    | some (_, _, s) =>
      if h.chanLaunch c true then decide ((s.tags.filter h.depOpen) = []) && decide (h.exitHub s.token = chanHub c) else true
    | none => false
  | 4 => decide ((h.chan c).token ≠ 0) || (h.intakeNext c).isSome
  | 7 => (h.heldNext d.ssel).isSome
  | 8 => match h.region d.src with
    | .t2 r o => !h.bankBusy r (nvBank (h.nvPhys r (o / nvBlockBytes)))
    | _ => true
  | _ => true

/-- DEPTH of what a slot would send (R219): none where nothing is tagged. -/
def Hall.sendDepth (h : Hall) (o : Origin) : Nat :=
  match o.tags.filterMap fun d => match d with
    | .own k => h.findRun k
    | .nbr _ _ => none with
  | r :: _ => if r.depth ≠ 0 then r.depth else runDepth r
  | [] => 0

/-- The destination side may be written now. -/
def Hall.dstReady (h : Hall) (c : Nat) (d : Desc) (o : Origin) : Bool :=
  match d.dspace with
  | 2 => match h.descStall c d false with
    | some i => match h.trough i d.dtrough with
      | some x => ((h.chan c).openSlot i d.dtrough true).isSome || (x.fillSlot o.key).isSome
      | none => false
    | none => false
  | 6 => !h.nbrUp d.dsel || (decide (((h.nbr d.dsel).conv 2).waiting = []) && decide (h.sendDepth o ≤ 4))
  | _ => true

/-- The channel makes the run at all (R277). -/
def Hall.runsHere (h : Hall) (c : Nat) : Bool :=
  !chanIsHub c || h.chanLaunch c true || h.chanLaunch c false || decide (h.chainHub c = chanHub c)

/-- Power domain that a side of a descriptor reaches, where it lies in a row: the stall's or the row's memory domain. -/
def Hall.sideDomain (h : Hall) (c : Nat) (d : Desc) (source : Bool) : Option Nat :=
  match if source then d.sspace else d.dspace with
  | 1 => h.descStall c d source
  | 2 => h.descStall c d source
  | 3 => some (128 + chanRow c)
  | _ => none

/-- A side in RET, or waking, holds the burst at its port (R476). -/
def Hall.sideAsleep (h : Hall) (c : Nat) (d : Desc) : Bool :=
  [true, false].any fun s => match h.sideDomain c d s with
    | some k => h.domState k = 1 || h.domState k = 3
    | none => false

/-- A side in a domain that is OFF (R476). -/
def Hall.sideOff (h : Hall) (c : Nat) (d : Desc) (source : Bool) : Bool :=
  match h.sideDomain c d source with
  | some k => h.domState k = 0
  | none => false

/-- The channel's next burst may be started. -/
def Hall.burstReady (h : Hall) (c : Nat) : Bool :=
  match h.curDesc c with
  | some d =>
    let x := h.chan c
    !x.issuedAll && decide (x.outstanding.length < 16) && h.runsHere c && !h.sideAsleep c d && h.srcReady c d && h.dstReady c d (h.origin c d)
  | none => false

/-! ### One burst -/

/-- The tile region at a base of a pen. -/
def Hall.tileAt (h : Hall) (p base : Nat) : Option TileRegion :=
  ((h.tilesOf p).find? fun e => e.2.base = base).map Prod.snd

/-- Address of the current run on a side; none for a tile outside its region (R293). -/
def Hall.runBase (h : Hall) (c : Nat) (d : Desc) (source : Bool) : Option Int :=
  let i0 := h.getF .brwChPosI0 c
  let i1 := h.getF .brwChPosI1 c
  let i2 := h.getF .brwChPosI2 c
  let base := if source then d.src else d.dst
  let space := if source then d.sspace else d.dspace
  if d.tile && decide (space = 0) then
    match h.tileAt (h.chanPen c) base with
    | some t =>
      if i1 < t.cols / 32 ∧ i2 < t.rows / 32 then some ((base + (i2 * (t.cols / 32) + i1) * (1024 * t.elemBytes) : Nat) : Int) else none
    | none => none
  else some (runAddr base (if source then d.ss else d.ds) i0 i1 i2)

/-- What a side yields: an error with its CAUSE (Table 11.9), or the thing itself. -/
inductive Side (α : Type) where
  | bad (cause : Nat)
  | ok (x : α)

/-- Data of a source, or the lot page to be read. -/
inductive SrcData where
  | here (p : Payload) (frame : Option (Nat × Nat))
  | lot (addr page : Nat)

/-- The world check of a physical address for a channel: CAUSE 4 and what is latched (R425). -/
def Hall.chanWorld (h : Hall) (c a : Nat) (write : Bool) : Option Hall :=
  match h.worldRefuses (h.chanWho c) a with
  | some (k, i) => some (h.watDeny k i 1 c write)
  | none => none

/-- Reads `n` bytes at a pen MVA for a channel (R257, R259, R264). -/
def Hall.srcMva (h : Hall) (c mva n : Nat) : Side SrcData × Hall :=
  let hub := h.carrier c
  match h.translate hub (h.chanPen c) mva false false with
  | (.inl cause, h) => (.bad cause, h)
  | (.inr (.ram a), h) => match h.chanWorld c a false with
    | some h => (.bad 4, h)
    | none => (.ok (.here (h.readRam a n) none), h)
  | (.inr (.host a), h) => (.ok (.here (cleanBytes (h.hostRead a n)) none), h)
  | (.inr (.lot a e), h) => match h.chanWorld c a false with
    | some h => (.bad 4, h)
    | none => match h.poolLook hub (a / 65536) (ptePromote e) with
      | (some page, h) =>
        let h := h.updFrame hub page fun x => { x with bursts := x.bursts + 1 }
        (.ok (.here (h.readRam (page * 65536 + a % 65536) n) (some (hubNum hub, page))), h)
      | (none, h) => (.ok (.lot a (mva / 65536)), h)

/-- Bytes of an MVA range of a request, zero at and beyond its length (R284). -/
def padInput (p : Payload) (off limit : Nat) : Payload :=
  (List.range p.length).map fun i => if off + i < limit then p.getD i { b := 0 } else { b := 0 }

/-- Where a channel's row-buffer offsets start, and how many there are: the range its image declares for the chain's logical row
(Table 11.2, R182); a channel of no image addresses the whole buffer. -/
def Hall.chanBuf (h : Hall) (c : Nat) : Nat × Nat :=
  match (h.chan c).handle with
  | none => (rowBufBase (chanRow c), 0x2000000)
  | some k => match (h.image k).bind fun im => im.rbuf ((h.chan c).lrow.getD 255) with
    | some b => (rowBufBase (chanRow c) + b.1, b.2)
    | none => (rowBufBase (chanRow c), 0)

/-- Reads the source side of a burst. -/
def Hall.srcRead (h : Hall) (c : Nat) (d : Desc) (a : Int) (n : Nat) : Side SrcData × Hall :=
  if a < 0 then (.bad (if d.sspace = 1 then 5 else 1), h)
  else if h.sideOff c d true then (.bad 1, h)
  else
    let o := a.toNat
    match d.sspace with
    | 0 => if 2 ^ 48 < o + n then (.bad 1, h) else h.srcMva c o n
    | 1 => match h.descStall c d true with
      | some i => if 0x3F0000 < o + n then (.bad 5, h) else (.ok (.here (h.readRam (storeBase i + o) n) none), h)
      | none => (.bad 1, h)
    | 2 => match h.srcSlot c d with
      | some (i, s, _) => match h.trough i d.strough with
        | some x => (.ok (.here (h.readRam (slotAddr i x s + o) n) none), h)
        | none => (.bad 1, h)
      | none => (.bad 1, h)
    | 3 =>
      if (h.chanBuf c).2 < o + n then (.bad 1, h)
      else match h.chanWorld c ((h.chanBuf c).1 + o) false with
      | some h => (.bad 4, h)
      | none => (.ok (.here (h.readRam ((h.chanBuf c).1 + o) n) none), h)
    | 4 => match h.req (h.chan c).token with
      | some q =>
        if q.inBytes ≤ o then (.ok (.here (List.replicate n { b := 0 }) none), h)
        else match h.srcMva c (q.inMva + o) n with
        | (.ok (.here p f), h) => (.ok (.here (padInput p o q.inBytes) f), h)
        | r => r
      | none => (.ok (.here (List.replicate n { b := 0 }) none), h)
    | 7 =>
      if !(h.flag .nbrCfgPenValid d.ssel && decide (h.getF .nbrCfgPen d.ssel = h.chanPen c)) then (.bad 4, h)
      else match h.heldNext d.ssel with
      | some i =>
        if i.data.length < o + n then (.bad 1, h)
        else (.ok (.here ((i.data.drop o).take n) none), h)
      | none => (.bad 1, h)
    | 8 =>
      if !(h.chanWho c).secure then (.bad 4, h)
      else match h.region o with
      | .t1 _ => (.ok (.here (h.readRam o n) none), h)
      | .t0 _ _ => (.ok (.here (h.readRam o n) none), h)
      | .hubRegs _ _ => (.ok (.here (h.regPayload o n) none), h)
      | .rowRegs _ _ => (.ok (.here (h.regPayload o n) none), h)
      | .t2 r w => match h.nvRaw r (h.nvPhys r (w / nvBlockBytes)) w n with
        | (.data p, h) => (.ok (.here p none), h)
        | (.poisoned p _, h) => (.ok (.here p none), h)
        | (.wait, h) => (.bad 1, h)
      | .t3 _ _ => (.ok (.lot o (o / 65536)), h)
      | .outside => (.bad 1, h)
    | _ => (.bad 1, h)

/-- Where the destination side of a burst lands. -/
def Hall.dstWrite (h : Hall) (c : Nat) (d : Desc) (a : Int) (n : Nat) (o : Origin) : Side Dest × Hall :=
  if a < 0 then (.bad (if d.dspace = 1 then 5 else 1), h)
  else if h.sideOff c d false then (.bad 1, h)
  else
    let w := a.toNat
    match d.dspace with
    | 0 =>
      if 2 ^ 48 < w + n then (.bad 1, h)
      else match h.translate (h.carrier c) (h.chanPen c) w true (chanIsHub c) with
      | (.inl cause, h) => (.bad cause, h)
      | (.inr (.ram p), h) => match h.chanWorld c p true with
        | some h => (.bad 4, h)
        | none => (.ok (if chanIsHub c then .phys p else .redo p), h)
      | (.inr (.host p), h) => (.ok (.host p), h)
      | (.inr (.lot _ _), h) => (.bad 3, h)
    | 1 => match h.descStall c d false with
      | some i => if 0x3F0000 < w + n then (.bad 5, h) else (.ok (.prov (storeBase i + w)), h)
      | none => (.bad 1, h)
    | 2 => match h.descStall c d false with
      | some i => match h.trough i d.dtrough with
        | some x => match (h.chan c).openSlot i d.dtrough true with
          | some s => (.ok (.phys (slotAddr i x s.slot + w)), h)
          | none => match x.fillSlot o.key with
            | some s => (.ok (.phys (slotAddr i x s + w)), h)
            | none => (.bad 1, h)
        | none => (.bad 1, h)
      | none => (.bad 1, h)
    | 3 =>
      if (h.chanBuf c).2 < w + n then (.bad 1, h)
      else match h.chanWorld c ((h.chanBuf c).1 + w) true with
      | some h => (.bad 4, h)
      | none => (.ok (.prov ((h.chanBuf c).1 + w)), h)
    | 5 => match h.req o.token with
      | some q =>
        if q.status ≠ 0 then (.ok .drop, h)
        else if q.outBytes < w + n then (.bad 1, h)
        else match h.translate (h.carrier c) (h.chanPen c) (q.outMva + w) true true with
        | (.inl cause, h) => (.bad cause, h)
        | (.inr (.ram p), h) => match h.chanWorld c p true with
          | some h => (.bad 4, h)
          | none => (.ok (.output p false), h)
        | (.inr (.host p), h) => (.ok (.output p true), h)
        | (.inr (.lot _ _), h) => (.bad 3, h)
      | none => (.ok .drop, h)
    | 6 =>
      if !(h.flag .nbrCfgPenValid d.dsel && decide (h.getF .nbrCfgPen d.dsel = h.chanPen c)) then (.bad 4, h)
      else if !h.nbrUp d.dsel then (.ok .drop, h.bump .nbrSendDiscard d.dsel)
      else if 16777216 < w + n then (.bad 1, h)
      else (.ok (.nbrSend d.dsel w), h)
    | 8 =>
      if !(h.chanWho c).secure then (.bad 4, h)
      else match h.region w with
      | .outside => (.bad 1, h)
      | .t3 _ _ => (.bad 1, h)
      | _ => (.ok (.phys w), h)
    | _ => (.bad 1, h)

/-- Opens the slots a burst touches for the first time in the chain's run (R284). -/
def Hall.openSlots (h : Hall) (c : Nat) (d : Desc) (o : Origin) : Hall :=
  let desc := h.getF .brwChStateDesc c
  let h := if d.sspace = 2 then
      match h.descStall c d true, h.srcSlot c d with
      | some i, some (_, s, _) =>
        if ((h.chan c).openSlot i d.strough false).isSome then h
        else (h.drainStart i d.strough s o.key).updChan c fun x =>
          { x with opened := x.opened ++ [⟨desc, i, d.strough, s, false, o.key⟩] }
      | _, _ => h
    else h
  if d.dspace = 2 then
    match h.descStall c d false with
    | some i => match h.trough i d.dtrough with
      | some x =>
        if ((h.chan c).openSlot i d.dtrough true).isSome then h
        else match x.fillSlot o.key with
        | some s => (h.fillStart i d.dtrough s o.key o.token o.tags).updChan c fun x =>
            { x with opened := x.opened ++ [⟨desc, i, d.dtrough, s, true, o.key⟩] }
        | none => h
      | none => h
    | none => h
  else h

/-- Loop positions after a burst of `n` bytes (R282). -/
def Hall.advance (h : Hall) (c : Nat) (d : Desc) (n : Nat) : Hall :=
  let x := h.chan c
  if x.off + n < d.run then h.updChan c fun x => { x with off := x.off + n }
  else
    let h := h.updChan c fun x => { x with off := 0 }
    let i0 := h.getF .brwChPosI0 c + 1
    let i1 := h.getF .brwChPosI1 c + 1
    let i2 := h.getF .brwChPosI2 c + 1
    if i0 < d.n0 then h.setF .brwChPosI0 c i0
    else if i1 < d.n1 then h.setFs c [(.brwChPosI0, 0), (.brwChPosI1, i1)]
    else if i2 < d.n2 then h.setFs c [(.brwChPosI0, 0), (.brwChPosI1, 0), (.brwChPosI2, i2)]
    else (h.setFs c [(.brwChPosI0, 0), (.brwChPosI1, 0), (.brwChPosI2, 0)]).updChan c fun x => { x with issuedAll := true }

/-- A bus error halts the channel (R288, R289); a latched error is kept (R294). -/
def Hall.chanHalt (h : Hall) (c : Nat) (write : Bool) (cause space : Nat) (a : Int) : Hall :=
  let addr := (a % (2 ^ 48 : Nat)).toNat
  let h := if h.flag .brwChErrValid c then h else
    (h.setFs c [(.brwChErrValid, 1), (.brwChErrDir, b2n write), (.brwChErrCause, cause), (.brwChErrSpace, space), (.brwChErrAddr, addr)]).bump
      .brwBusErrors (chanEngine c)
  ((h.updChan c fun x => { x with failing := some (b2n write, cause, space, addr) }).setF .brwChState c 3).ordinary .busError c cause

/-- Bytes of the next burst: to the end of the run, the next 512-byte boundary of the destination (R283), and the next
page of a source that is translated (log entry 26). -/
def burstBytes (d : Desc) (left : Nat) (s w : Int) : Nat :=
  let toLine := 512 - (w % 512).toNat
  let toPage := if d.sspace = 0 ∨ d.sspace = 4 then 65536 - (s % 65536).toNat else left
  min left (min toLine toPage)

/-- Length of the burst at a channel's place, its runs starting at `s0` and `w0`; in space 4 the source's page is that of the
request's input. -/
def Hall.burstLen (h : Hall) (c : Nat) (d : Desc) (s0 w0 : Int) : Nat :=
  let off := (h.chan c).off
  let base4 := if d.sspace = 4 then (((h.req (h.chan c).token).map fun q => q.inMva).getD 0) else 0
  burstBytes d (d.run - off) (s0 + off + base4) (w0 + off)

/-- Takes the request that an intake chain waits for (R284). -/
def Hall.takeRequest (h : Hall) (c : Nat) (d : Desc) : Hall :=
  if d.sspace = 4 ∧ (h.chan c).token = 0 then
    match h.intakeNext c with
    | some (t, _) => (h.updReq t fun q => { q with intakeBegun := true }).updChan c fun x => { x with token := t }
    | none => h
  else h

/-- Starts the next burst of a channel. `skipRead` delivers the source poisoned without reading it (R290). -/
def Hall.issueBurst (h : Hall) (c : Nat) (skipRead : Bool) : Hall :=
  match h.curDesc c with
  | none => h
  | some d =>
    let h := h.takeRequest c d
    let o := h.origin c d
    let h := h.openSlots c d o
    match h.runBase c d true, h.runBase c d false with
    | none, _ => h.chanHalt c false 6 d.sspace d.src
    | _, none => h.chanHalt c true 6 d.dspace d.dst
    | some s0, some w0 =>
      let off := (h.chan c).off
      let n := h.burstLen c d s0 w0
      let (src, h) := if skipRead then
          let (p, h) := h.poisonedBytes n
          ((.ok (.here p none) : Side SrcData), h)
        else h.srcRead c d (s0 + off) n
      match src with
      | .bad cause => h.chanHalt c false cause d.sspace (s0 + off)
      | .ok data => match h.dstWrite c d (w0 + off) n o with
        | (.bad cause, h) => h.chanHalt c true cause d.dspace (w0 + off)
        | (.ok dest, h) =>
          let b : DmaBurst := { n := n, dest := dest, payload := none, key := o.key, tags := o.tags, token := o.token }
          let (b, h) := match data with
            | .here p f => ({ b with payload := some p, frame := f }, h)
            | .lot a page =>
              let (id, h) := h.lotReadStart (h.carrier c) c (h.chanPen c) page a n (if chanIsHub c then none else some (chanRow c))
              ({ b with read := some id }, h)
          (h.updChan c fun x => { x with outstanding := x.outstanding ++ [b] }).advance c d n

/-- Effective priority of a channel's descriptor (R286). -/
def Hall.chanPrio (h : Hall) (c : Nat) : Nat :=
  match h.curDesc c with
  | some d => min d.prio (h.getF .brwChCtrlPrioMax c)
  | none => 0

/-- The channel an engine serves: highest level, then round-robin after the one served last at it (R286). -/
def Hall.chooseChan (h : Hall) (e : Nat) (ready : List Nat) : Option Nat :=
  let top := ready.foldl (fun n c => max n (h.chanPrio c)) 0
  let level := ready.filter fun c => h.chanPrio c = top
  match Tab.find h.tiers.served (e * 8 + top) with
  | some last => match level.find? fun c => decide (last < c) with
    | some c => some c
    | none => level.head?
  | none => level.head?

/-- BRW_BURST_ISSUE (R286): running channels that must wait go to WAITING; one of the others starts a burst. -/
def execBrwBurstIssue (engine : Engine) (s : State) : Host.Outcome State Fault Refusal :=
  s.run fun h =>
    let e := engineNum engine
    let live := (engineChans e).filter fun c => h.getF .brwChState c = 1 && h.flag .brwChCtrlEnable c
    let ready := live.filter h.burstReady
    let h := (live.filter fun c => !h.burstReady c && !(h.chan c).issuedAll && decide ((h.chan c).outstanding.length < 16)).foldl
      (fun h c => h.setF .brwChState c 2) h
    match h.chooseChan e ready with
    | none => h
    | some c =>
      ({ h with tiers.served := Tab.set h.tiers.served (e * 8 + h.chanPrio c) c }).issueBurst c false

/-- BRW_BURST_COMPLETE (R283): the oldest outstanding burst lands once its data is there. -/
def execBrwBurstComplete (chan : Chan) (s : State) : Host.Outcome State Fault Refusal :=
  s.run fun h =>
    let c := chanNum chan
    match (h.chan c).outstanding with
    | [] => h
    | b :: rest => match b.payload with
      | none => h
      | some p =>
        let h := (h.updChan c fun x => { x with outstanding := rest }).burstLeaves b
        ((h.land c b p).bump .brwBursts (chanEngine c)).bump .brwChBytes c b.n

/-- BRW_SLOT_READY (R284, Table 11.3). -/
def execBrwSlotReady (chan : Chan) (s : State) : Host.Outcome State Fault Refusal :=
  s.run fun h =>
    let c := chanNum chan
    if h.getF .brwChState c = 2 ∧ h.burstReady c = true then h.setF .brwChState c 1 else h

/-! ### End of a descriptor -/

/-- Sends a formed item as ITEM frames (R403). -/
def Hall.sendItem (h : Hall) (p tag item : Nat) (data : Payload) : Hall :=
  let frames := ceilDiv data.length 8192
  (List.range (max 1 frames)).foldl (fun h i =>
    let part := (data.drop (8192 * i)).take 8192
    let poison := (List.range 128).foldl (fun m j =>
      if ((part.drop (64 * j)).take 64).any fun (x : PByte) => x.poison then m + 2 ^ j else m) 0
    h.nbrPost p 2 0x30 (beBytes 8 tag ++ beBytes 2 item ++ beBytes 1 (b2n (decide (i + 1 = max 1 frames))) ++ [0] ++
      beBytes 4 (8192 * i) ++ beBytes 16 poison ++ (part.map fun (x : PByte) => x.b)) (ceilDiv part.length 4096)) h

/-- The item a descriptor pass has formed goes out (R219): under its run's tag while the run is open, otherwise as
committed data. -/
def Hall.itemOut (h : Hall) (c p : Nat) (o : Origin) : Hall :=
  let data := (h.chan c).item
  let h := h.updChan c fun x => { x with item := [] }
  if data = [] || !h.nbrUp p then h
  else match (o.tags.filterMap fun d => match d with
    | .own k => h.findRun k
    | .nbr _ _ => none).head? with
  | some r =>
    let depth := h.sendDepth o
    let n := Tab.get 0 r.items p
    let h := h.updRun r.key fun x => { x with items := Tab.set x.items p (n + 1), depth := depth }
    (h.sendItem p (tagOf r.key depth r.epoch) n data).bump .ledgerProvSent r.key.row
  | none =>
    let n := (Tab.get (0, 0) (h.nbr p).sentItems 0).1
    let h := h.updNbr p fun x => { x with sentItems := Tab.set x.sentItems 0 (n + 1, (Tab.get (0, 0) x.sentItems 0).2) }
    h.sendItem p 0 (n % 65536) data

/-- A held item is taken; with its tag committed its space is free (R220). -/
def Hall.itemTaken (h : Hall) (p : Nat) : Hall :=
  match h.heldNext p with
  | none => h
  | some i =>
    let done := !h.depOpen (.nbr p i.tag)
    let h := h.updNbr p fun x =>
      let kept := if done then x.items.filter (fun j => decide (j.order ≠ i.order))
        else x.items.map (fun j => if j.order = i.order then { j with taken := true } else j)
      { x with items := kept }
    h.creditPump p

/-- SLOTEND (R284): filled slots become FULL, drained slots FREE; items are sent or taken. -/
def Hall.slotEnd (h : Hall) (c : Nat) (d : Desc) (o : Origin) : Hall :=
  let h := if d.dspace = 2 then
      match h.descStall c d false with
      | some i => match (h.chan c).openSlot i d.dtrough true, h.trough i d.dtrough with
        | some s, some x =>
          let bad := h.rangePoison (slotAddr i x s.slot) (x.desc.slotLines * 64)
          (h.fillEnd i d.dtrough s.slot s.key (x.slot s.slot).token ((x.slot s.slot).tags ++ o.tags).dedup bad).updChan c fun y =>
            { y with opened := y.opened.filter (· ≠ s) }
        | _, _ => h
      | none => h
    else if d.dspace = 6 then h.itemOut c d.dsel o else h
  let h := if d.sspace = 2 then
      match h.descStall c d true with
      | some i => match (h.chan c).openSlot i d.strough false with
        | some s => (h.drainEnd i d.strough s.slot s.key false).updChan c fun y => { y with opened := y.opened.filter (· ≠ s) }
        | none => h
      | none => h
    else h
  if d.sspace = 7 then h.itemTaken d.ssel else h

/-- The chain's LAST descriptor has completed: an exit chain writes its token's result, an intake chain has brought its
request in, and the chain begins again (R193, R280). -/
def Hall.chainDone (h : Hall) (c token : Nat) : Hall :=
  let isExit := h.chanLaunch c true
  let h := if isExit && (h.chan c).skipPoison then h.setStatus token stPoisoned else h
  let h := if isExit then h.endRequest token
           else if (h.chan c).token ≠ 0 then h.updReq (h.chan c).token fun q => { q with intakeDone := true } else h
  (h.updChan c fun x => { x with token := 0, skipPoison := false }).setF .brwChStateDesc c (h.getF .brwChStartChain c)

/-- BRW_DESCRIPTOR_END (R284). The image may be released by the result that ends its last request. -/
def execBrwDescriptorEnd (chan : Chan) (s : State) : Host.Outcome State Fault Refusal :=
  s.run fun h =>
    let c := chanNum chan
    let x := h.chan c
    match h.curDesc c with
    | none => h
    | some d =>
      if !x.issuedAll || decide (x.outstanding ≠ []) || !(decide (h.getF .brwChState c = 1) || decide (h.getF .brwChState c = 2)) then h
      else
        let o := h.origin c d
        let h := if d.slotend then h.slotEnd c d o else h
        let h := h.updChan c fun x => { x with issuedAll := false, off := 0 }
        let h := h.setF .brwChState c 1
        if d.last then h.chainDone c o.token else h.setF .brwChStateDesc c d.next

/-! ### Control writes -/

/-- BRW_CH_ENABLE (R288): an IDLE channel takes the chain at BRW_CH_START. -/
def Hall.chanEnable (h : Hall) (c : Nat) : Hall :=
  let h := h.setF .brwChCtrlEnable c 1
  if h.getF .brwChState c = 0 then
    (h.updChan c fun x => { handle := x.handle, lrow := x.lrow }).setFs c
      [(.brwChState, 1), (.brwChStateDesc, h.getF .brwChStartChain c), (.brwChPosI0, 0), (.brwChPosI1, 0), (.brwChPosI2, 0)]
  else h

def execBrwChEnable (req : Requester) (chan : Chan) (s : State) : Host.Outcome State Fault Refusal :=
  s.board req fun h => h.chanEnable (chanNum chan)

/-- BRW_CH_DISABLE (R291). -/
def execBrwChDisable (req : Requester) (chan : Chan) (s : State) : Host.Outcome State Fault Refusal :=
  s.board req fun h => (h.chanDrop (chanNum chan)).setF .brwChCtrlEnable (chanNum chan) 0

/-- A restart that an abort left due while the channel was HALTED (R292). -/
def Hall.restartDue (h : Hall) (c : Nat) : Option Hall :=
  match (h.chan c).restartDue with
  | none => none
  | some d =>
    some (((h.updChan c fun x => { x with restartDue := none, failing := none, off := 0, issuedAll := false, item := [] }).setFs c
      [(.brwChStateDesc, d), (.brwChPosI0, 0), (.brwChPosI1, 0), (.brwChPosI2, 0), (.brwChState, 2)]).bump .brwRestarts (chanEngine c))

/-- RECOVER = RESUME (R290): the failing burst is issued again. -/
def execRecoverResume (req : Requester) (chan : Chan) (s : State) : Host.Outcome State Fault Refusal :=
  s.board req fun h =>
    let c := chanNum chan
    if h.getF .brwChState c ≠ 3 then h
    else match h.restartDue c with
    | some h => h
    | none => ((h.updChan c fun x => { x with failing := none }).setF .brwChState c 1).issueBurst c false

/-- The token of a discarded write records POISONED (R217, R290); under token 0 a poison record is deposited. -/
def Hall.skipStatus (h : Hall) (c : Nat) (o : Origin) : Hall :=
  if h.chanLaunch c true then h.updChan c fun x => { x with skipPoison := true }
  else if o.token = 0 then h.ordinary .poison c
  else match o.key with
  | some k => h.recordStatus k o.token stPoisoned
  | none => h.setStatus o.token stPoisoned

/-- RECOVER = SKIP (R290): a failing read delivers its lines poisoned; a failing write is discarded. -/
def execRecoverSkip (req : Requester) (chan : Chan) (s : State) : Host.Outcome State Fault Refusal :=
  s.board req fun h =>
    let c := chanNum chan
    if h.getF .brwChState c ≠ 3 then h
    else match h.restartDue c with
    | some h => h.bump .brwSkips (chanEngine c)
    | none => match (h.chan c).failing, h.curDesc c with
      | some (dir, _, _, _), some d =>
        let h := ((h.updChan c fun x => { x with failing := none }).setF .brwChState c 1).bump .brwSkips (chanEngine c)
        if dir = 0 then h.issueBurst c true
        else
          let o := h.origin c d
          let n := h.burstLen c d ((h.runBase c d true).getD 0) ((h.runBase c d false).getD 0)
          let h := (h.skipStatus c o).openSlots c d o
          (h.updChan c fun x => { x with outstanding := x.outstanding ++
            [{ n := n, dest := .drop, payload := some [], key := o.key, token := o.token }] }).advance c d n
      | _, _ => h.setF .brwChState c 1

/-- BRW_CH_ERR.VALID is cleared (R294). -/
def execBrwErrClear (req : Requester) (chan : Chan) (s : State) : Host.Outcome State Fault Refusal :=
  s.board req fun h => h.setF .brwChErrValid (chanNum chan) 0

/-- BRW_CLEAR.STATS (R294): every counter of the engine, those of its channels included. -/
def execBrwClearStats (req : Requester) (engine : Engine) (s : State) : Host.Outcome State Fault Refusal :=
  s.board req fun h =>
    let h := h.clearCtrs (engineNum engine) [.brwBursts, .brwBusErrors, .brwSkips, .brwRestarts, .brwDrops]
    (engineChans (engineNum engine)).foldl (fun h c => h.clearCtr c .brwChBytes) h

end Sys2Proof.Machine
end

