-- ==== Sys2Proof/Machine/Blocks.lean ====
section
/-! DEFINITION. Compressed weights (chapter 6): rate classes, decode tables, stream maps, and the decoding of one block. -/

namespace Sys2Proof.Machine

/-- Bytes of a block of a rate class (Table 6.2); none for a class that is reserved for the format (R158). -/
def blockSize (fmt cls : Nat) : Option Nat :=
  match fmt, cls with
  | 5, 0 | 6, 0 => some 176
  | 5, 1 | 6, 1 => some 192
  | 5, 2 | 6, 2 => some 208
  | 5, 3 | 6, 3 => some 224
  | 5, 7 | 6, 7 => some 272
  | 3, 0 | 4, 0 => some 80
  | 3, 1 | 4, 1 => some 96
  | 3, 2 | 4, 2 => some 112
  | 3, 7 | 4, 7 => some 144
  | 1, 6 | 9, 6 => some 144
  | 0, 6 => some 80
  | _, _ => none

/-- Largest trim of a format (Table 6.1). -/
def trimMax (fmt : Nat) : Nat :=
  match fmt with
  | 5 | 6 => 4
  | 3 => 2
  | 4 => 1
  | _ => 0

/-- Float formats that a lot may hold (Table 6.1). -/
def floatWeight (fmt : Nat) : Bool := fmt = 3 || fmt = 4 || fmt = 5 || fmt = 6

/-! ### Decode tables -/

/-- A decode-table slot record (Table 6.5), as it stands. -/
def decodeSlotRec (b : Bytes) : DecTable :=
  let n := leAt b 1 1
  { fmt := leAt b 0 1 % 16, nsym := n, escLen := leAt b 2 1 % 16, tableId := leAt b 4 4
    syms := (List.range (min n 32)).map fun k => leAt b (8 + k) 1
    lens := (List.range (min n 32)).map fun k => leAt b (40 + k / 2) 1 / 16 ^ (k % 2) % 16 }

/-- The rules of Table 6.5 and the sum of R163, but for TCHECK. -/
def slotRecWellFormed (b : Bytes) (fmt : Nat) : Bool :=
  let t := decodeSlotRec b
  match floatFmt fmt with
  | none => false
  | some f =>
    floatWeight fmt && decide (t.fmt = fmt) && decide (leAt b 0 1 < 16) && decide (leAt b 2 1 < 16) && decide (leAt b 3 1 = 0) &&
    decide (leAt b 58 6 = 0) && decide (1 ≤ t.nsym ∧ t.nsym ≤ 32) && decide (1 ≤ t.escLen ∧ t.escLen ≤ 12) &&
    t.syms.all (fun s => decide (s < 2 ^ f.eBits)) && decide t.syms.Nodup && t.lens.all (fun l => decide (1 ≤ l ∧ l ≤ 12)) &&
    ((List.range 32).all fun k => decide (k < t.nsym) ||
      (decide (leAt b (8 + k) 1 = 0) && decide (leAt b (40 + k / 2) 1 / 16 ^ (k % 2) % 16 = 0))) &&
    decide (((t.lens ++ [t.escLen]).map fun l => 2 ^ (12 - l)).sum = 4096)

def slotRecSumOk (b : Bytes) : Bool := decide (crc16 (slice b 0 56) = leAt b 56 2)

/-- A slot record that may stand in a table pair: empty (NSYM 0), or well-formed with its TCHECK (R169). -/
def slotRecOk (b : Bytes) (fmt : Nat) : Bool := decide (leAt b 1 1 = 0) || (slotRecWellFormed b fmt && slotRecSumOk b)

/-- The table that a lane loads from a slot: none where the slot is empty or is taken as empty (R169). -/
def loadSlotRec (b : Bytes) (fmt : Nat) : Option DecTable :=
  if slotRecWellFormed b fmt && slotRecSumOk b then some (decodeSlotRec b) else none

/-- Entries of a code in the order of R163: length and index, the escape being index 32. -/
def DecTable.order (t : DecTable) : List (Nat × Nat) :=
  let es := ((List.range t.nsym).map fun k => (t.lens.getD k 0, k)) ++ [(t.escLen, 32)]
  (List.range 13).flatMap fun l => es.filter fun e => e.1 = l

/-- Canonical code words (R163): length, code word, index. -/
def DecTable.words (t : DecTable) : List (Nat × Nat × Nat) :=
  let step := fun (acc : Nat × Nat × List (Nat × Nat × Nat)) (e : Nat × Nat) =>
    let code := if acc.2.2 = [] then 0 else acc.1 * 2 ^ (e.1 - acc.2.1)
    (code + 1, e.1, acc.2.2 ++ [(e.1, code, e.2)])
  (t.order.foldl step (0, 0, [])).2.2

/-! ### Stream maps (R506) -/

/-- Runs of a stream map: class and blocks. -/
def mapRuns (b : Bytes) : List (Nat × Nat) :=
  (List.range (min (leAt b 0 2) 256)).map fun j => (leAt b (16 + 4 * j) 1 % 8, leAt b (17 + 4 * j) 3)

/-- A stream map by the rules of R506 that stand in the map alone. -/
def mapOk (b : Bytes) (fmt blocks : Nat) : Bool :=
  decide (1 ≤ leAt b 0 2 ∧ leAt b 0 2 ≤ 256) &&
  ((List.range (min (leAt b 0 2) 256)).all fun j =>
    decide (1 ≤ leAt b (17 + 4 * j) 3) && (blockSize fmt (leAt b (16 + 4 * j) 1 % 8)).isSome) &&
  decide (((mapRuns b).map Prod.snd).sum = blocks)

/-- Reserved bits of a stream map are clear (R12). -/
def mapReservedOk (b : Bytes) : Bool :=
  decide (leAt b 2 14 = 0) && (List.range (min (leAt b 0 2) 256)).all fun j => decide (leAt b (16 + 4 * j) 1 < 8)

/-- Class of block `i`. -/
def classOf : List (Nat × Nat) → Nat → Nat
  | [], _ => 7
  | (c, n) :: rest, i => if i < n then c else classOf rest (i - n)

/-- Where block `i` of a stream lies: position of its slot among the step's slots, offset and size (R506). `area` is the
slot's area below its scale area. -/
def blockPlace (fmt area : Nat) (runs : List (Nat × Nat)) (i : Nat) : Nat × Nat × Nat :=
  let size := fun j => (blockSize fmt (classOf runs j)).getD 144
  let at0 := fun (p : Nat × Nat) (j : Nat) => if p.2 + size j ≤ area then p else (p.1 + 1, 0)
  let p := (List.range i).foldl (fun p j => let q := at0 p j; (q.1, q.2 + size j)) (0, 0)
  let q := at0 p i
  (q.1, q.2, size i)

/-! ### One block -/

/-- Big-endian number of bits `pos` to `pos + n − 1` of a block, most significant bit of each byte first (R159). -/
def bitsAt (b : Bytes) (pos n : Nat) : Nat := (beNat b >>> (8 * b.length - pos - n)) % 2 ^ n

/-- What decoding a block yields: its weights, or the cause of Table 6.11; escapes decoded. -/
structure BlockOut where
  weights : List Nat
  cause : Nat
  escapes : Nat
  trim : Nat
deriving DecidableEq, Repr

/-- The next exponent of a code section: exponent, whether it was an escape, next position; none past the end. -/
def nextExp (b : Bytes) (f : FFmt) (t : DecTable) (pos : Nat) : Option (Nat × Bool × Nat) :=
  let total := 8 * b.length
  match t.words.find? fun w => decide (pos + w.1 ≤ total) && decide (bitsAt b pos w.1 = w.2.1) with
  | none => none
  | some w =>
    if w.2.2 = 32 then
      if pos + w.1 + f.eBits ≤ total then some (bitsAt b (pos + w.1) f.eBits, true, pos + w.1 + f.eBits) else none
    else some (t.syms.getD w.2.2 0, false, pos + w.1)

/-- The 128 exponents of a coded block and the number of escapes. -/
def decodeExps (b : Bytes) (f : FFmt) (t : DecTable) : Nat → Nat → List Nat → Nat → Option (List Nat × Nat)
  | 0, _, acc, esc => some (acc.reverse, esc)
  | n + 1, pos, acc, esc => match nextExp b f t pos with
    | some (e, x, p) => decodeExps b f t n p (e :: acc) (esc + b2n x)
    | none => none

/-- Native weights of a stored or plain block (R159); a BX8 weight is its shared exponent and mantissa. -/
def nativeWeights (fmt : Nat) (d : Bytes) : List Nat :=
  (List.range 128).map fun i =>
    match fmt with
    | 0 => leAt d (i / 2) 1 / 16 ^ (i % 2) % 16
    | 5 | 6 => leAt d (2 * i) 2
    | 9 => leAt d (33 * (i / 32)) 1 * 256 + leAt d (33 * (i / 32) + 1 + i % 32) 1
    | _ => leAt d i 1

/-- Bytes of 128 weights in native encoding, for CHECK (R164). -/
def nativeBytes (fmt : Nat) (ws : List Nat) : Bytes :=
  match fmt with
  | 0 => (List.range 64).map fun i => BitVec.ofNat 8 (ws.getD (2 * i) 0 + 16 * ws.getD (2 * i + 1) 0)
  | 5 | 6 => ws.flatMap fun w => leBytes 2 w
  | 9 => (List.range 4).flatMap fun b =>
      BitVec.ofNat 8 (ws.getD (32 * b) 0 / 256) :: ((ws.drop (32 * b)).take 32).map fun w => BitVec.ofNat 8 w
  | _ => ws.map fun w => BitVec.ofNat 8 w

/-- Decodes a block whose lines carry no poison (R159, R160, R176). The causes are tested as decoding meets them: the
header, the slot, the code section, the escapes, the check value (DEDUCED, log entry 28). -/
def decodeBlock (b : Bytes) (fmt cls : Nat) (tabA tabB : Option DecTable) : BlockOut :=
  let hd := leAt b 0 4
  let nesc := bits hd 15 8
  let trim := bits hd 7 5
  let slotB := bit hd 4
  let bad := fun c => BlockOut.mk [] c 0 trim
  let finish := fun (ws : List Nat) (esc : Nat) =>
    if crc16 (nativeBytes fmt ws) = bits hd 31 16 then BlockOut.mk ws 0 esc trim else BlockOut.mk [] 1 esc trim
  if bits hd 3 0 ≠ fmt then bad 2
  else if 6 ≤ cls then
    if nesc ≠ 0 ∨ trim ≠ 0 ∨ slotB = true then bad 2 else finish (nativeWeights fmt (b.drop 4)) 0
  else match floatFmt fmt with
  | none => bad 2
  | some f =>
    if trimMax fmt < trim then bad 2
    else match (if slotB then tabB else tabA) with
    | none => bad 5
    | some t =>
      let fb := f.fBits - trim
      match decodeExps b f t 128 (32 + 128 * (1 + fb)) [] 0 with
      | none => bad 3
      | some (exps, esc) =>
        if esc ≠ nesc then BlockOut.mk [] 4 esc trim
        else finish (exps.zipIdx.map fun (e : Nat × Nat) =>
          let p := 32 + e.2 * (1 + fb)
          bitsAt b p 1 * 2 ^ (f.eBits + f.fBits) + e.1 * 2 ^ f.fBits + bitsAt b (p + 1) fb * 2 ^ trim) esc

/-- A weight delivered poisoned (R105, R176). -/
def poisonWeight (fmt : Nat) : Elem :=
  { raw := match floatFmt fmt with
      | some f => f.canNaN
      | none => 0
    poison := true }

/-! ### Order of a weight stream (R507) -/

/-- Weights of a stream of `cols` columns and length `k` along the reduction. -/
def streamWeights (fmt cols k : Nat) : Nat := if fmt = 9 then cols * (ceilDiv k 32 * 32) else cols * k

/-- Position in the stream of weight (k, c); `g` is the width of a column group. -/
def streamIndex (fmt cols kLen g k c : Nat) : Nat :=
  let gi := c / g
  let w := min g (cols - gi * g)
  if fmt = 9 then gi * g * (ceilDiv kLen 32 * 32) + (k / 32 * w + (c - gi * g)) * 32 + k % 32
  else gi * g * kLen + k * w + (c - gi * g)

end Sys2Proof.Machine
end

