-- ==== Sys2Proof/Machine/Vector.lean ====
section
/-! DEFINITION. Operand matrices in panel layout (R507), and the vector unit's arithmetic: operation lists (R186, Table 7.5),
reductions (R125) and per-token quantisation (R97–R100, R126), row by row. -/

namespace Sys2Proof.Machine

/-! ### Panel layout (R507) -/

/-- Rows of a panel. -/
def panelRows (fmt : Nat) : Nat :=
  match fmt with
  | 5 | 6 => 32
  | 7 | 8 => 16
  | _ => 64

/-- Bytes of a panel of rows of `n` elements. -/
def panelBytes (fmt n : Nat) : Nat :=
  match fmt with
  | 0 => ceilDiv n 2 * 64
  | 9 => ceilDiv n 32 * 2112
  | _ => n * 64

/-- Panels that each slot but the last takes. -/
def panelsPerSlot (fmt rows slots : Nat) : Nat := max 1 (ceilDiv (ceilDiv rows (panelRows fmt)) slots)

/-- Slot (by position) of a row, and the row's index in its slot. -/
def rowSlot (fmt rows slots r : Nat) : Nat × Nat :=
  let per := panelsPerSlot fmt rows slots
  let p := r / panelRows fmt
  (p / per, p % per * panelRows fmt + r % panelRows fmt)

/-- First row and number of rows of a slot. -/
def slotRows (fmt rows slots i : Nat) : Nat × Nat :=
  let n := panelsPerSlot fmt rows slots * panelRows fmt
  (min rows (i * n), min rows ((i + 1) * n) - min rows (i * n))

/-- Bytes of row `j` of a slot's element `e`: the line offset in the slot of its panel, and for BX8 of its exponent. -/
def elemOffset (fmt n j e : Nat) : Nat × Nat :=
  let base := j / panelRows fmt * panelBytes fmt n
  let k := j % panelRows fmt
  match fmt with
  | 0 => (base + e / 2 * 64 + k, 0)
  | 5 | 6 => (base + e * 64 + 2 * k, 0)
  | 7 | 8 => (base + e * 64 + 4 * k, 0)
  | 9 => (base + e / 32 * 2112 + 33 * k + 1 + e % 32, base + e / 32 * 2112 + 33 * k)
  | _ => (base + e * 64 + k, 0)

/-- An element read from memory: `a` is the slot's base. -/
def Hall.readElem (h : Hall) (a fmt n j e : Nat) : Elem :=
  let o := elemOffset fmt n j e
  let at' := a + o.1
  let w := leNat (h.readBytes at' (match fmt with
    | 5 | 6 => 2
    | 7 | 8 => 4
    | _ => 1))
  let bad := (h.mark (at' / 64)).poison
  match fmt with
  | 0 => { raw := w / 16 ^ (e % 2) % 16, poison := bad }
  | 9 => { raw := leNat (h.readBytes (a + o.2) 1) * 256 + w, poison := bad || (h.mark ((a + o.2) / 64)).poison }
  | _ => { raw := w, poison := bad }

/-- A row read from memory. -/
def Hall.readRow (h : Hall) (a fmt n j : Nat) : List Elem := (List.range n).map fun e => h.readElem a fmt n j e

/-- The row scale record of a row (R100, R190), and whether it was read with poison. -/
def Hall.readScale (h : Hall) (a : Nat) : ScaleRec × Bool := (ScaleRec.ofBytes (h.readBytes a 16), (h.mark (a / 64)).poison)

/-- Bytes of an element, with its poison. -/
def elemBytes (w : Nat) (e : Elem) : Payload := (leBytes w e.raw).map fun b => { b := b, poison := e.poison }

/-- The bytes of a panel whose rows are given (missing rows are zero). -/
def panelPayload (fmt n : Nat) (rows : List (List Elem)) : Payload :=
  let el := fun (j e : Nat) => (rows.getD j []).getD e { raw := 0 }
  match fmt with
  | 0 => (List.range (ceilDiv n 2)).flatMap fun u => (List.range 64).map fun j =>
      let lo := el j (2 * u)
      let hi := if 2 * u + 1 < n then el j (2 * u + 1) else { raw := 0 }
      { b := BitVec.ofNat 8 (lo.raw % 16 + 16 * (hi.raw % 16)), poison := lo.poison || hi.poison }
  | 9 => (List.range (ceilDiv n 32)).flatMap fun u => (List.range 64).flatMap fun j =>
      { b := BitVec.ofNat 8 ((el j (32 * u)).raw / 256), poison := false } ::
        (List.range 32).map fun i =>
          let x := if 32 * u + i < n then el j (32 * u + i) else { raw := 0 }
          { b := BitVec.ofNat 8 x.raw, poison := x.poison }
  | 5 | 6 => (List.range n).flatMap fun u => (List.range 32).flatMap fun j => elemBytes 2 (el j u)
  | 7 | 8 => (List.range n).flatMap fun u => (List.range 16).flatMap fun j => elemBytes 4 (el j u)
  | _ => (List.range n).flatMap fun u => (List.range 64).flatMap fun j => elemBytes 1 (el j u)

/-- The bytes of a slot's rows. -/
def rowsPayload (fmt n : Nat) (rows : List (List Elem)) : Payload :=
  (List.range (ceilDiv rows.length (panelRows fmt))).flatMap fun p =>
    panelPayload fmt n ((rows.drop (p * panelRows fmt)).take (panelRows fmt))

/-- The lines of a slot's scale records. -/
def scalesPayload (recs : List ScaleRec) : Payload :=
  let bytes := recs.flatMap fun r => r.bytes
  cleanBytes (slice bytes 0 (ceilDiv bytes.length 64 * 64))

/-! ### Operation lists (R186, Table 7.5) -/

structure VuOp where
  opc : Nat
  res : Nat
  z : Int
  imm : Nat
deriving DecidableEq, Repr

def decodeOps (b : Bytes) : List VuOp :=
  (List.range (b.length / 8)).map fun i =>
    { opc := leAt b (8 * i) 1, res := leAt b (8 * i + 1) 1, z := toSigned 16 (leAt b (8 * i + 2) 2), imm := leAt b (8 * i + 4) 4 }

def opcKnown (o : Nat) : Bool :=
  (decide (1 ≤ o) && decide (o ≤ 9)) || (decide (0x10 ≤ o) && decide (o ≤ 0x16)) || (decide (0x20 ≤ o) && decide (o ≤ 0x25)) ||
  (decide (0x30 ≤ o) && decide (o ≤ 0x32))

def opcLastOnly (o : Nat) : Bool := decide (0x20 ≤ o)
def opcReduces (o : Nat) : Bool := decide (0x20 ≤ o) && decide (o ≤ 0x25)
def opcReadsU (o : Nat) : Bool := o = 6 || o = 7
def opcReadsCol (o : Nat) : Bool := o = 8 || o = 9
def intFmt (f : Nat) : Bool := f = 0 || f = 1 || f = 2 || f = 8

/-- A list that is not malformed (R186); `rank` is above 0 for an epilogue whose OPND_U carries the adapter input. -/
def opsOk (ops : List VuOp) (ofmt : Nat) (adapter : Bool) : Bool :=
  ops.all (fun o => opcKnown o.opc) && (ops.drop 1).all (fun o => decide (o.opc ≠ 1)) &&
  ops.dropLast.all (fun o => !opcLastOnly o.opc) && !(adapter && ops.any fun o => opcReadsU o.opc) &&
  (match ops.getLast? with
   | some o =>
     if o.opc = 0x30 ∨ o.opc = 0x31 then intFmt ofmt
     else if o.opc = 0x32 then decide (ofmt = 9)
     else if o.opc = 0x24 ∨ o.opc = 0x25 then decide (ofmt = 8)
     else (floatFmt ofmt).isSome
   | none => (floatFmt ofmt).isSome)

/-- Elements per output row. -/
def outCols (ops : List VuOp) (n : Nat) : Nat :=
  match ops.getLast? with
  | some o => if opcReduces o.opc then 1 else n
  | none => n

/-- The list quantises rows per token. -/
def opsPerToken (ops : List VuOp) : Bool :=
  match ops.getLast? with
  | some o => o.opc = 0x31
  | none => false

/-- Beats of a row (R123). -/
def rowBeats (ops : List VuOp) (n : Nat) : Nat :=
  let rate := ops.foldl (fun r o =>
    min r (if o.opc = 0x11 ∨ o.opc = 0x12 then 128 else if 0x10 ≤ o.opc ∧ o.opc ≤ 0x16 then 64 else 256)) 256
  let stop := match ops.getLast? with
    | some o => if opcReduces o.opc then 8 else if o.opc = 0x31 then 12 + ceilDiv n 256 else 0
    | none => 0
  ceilDiv n rate + stop

/-! ### Counting -/

/-- What a pass over a row adds to the VU_ counters (Table 4.15). -/
structure VuCnt where
  nan : Nat := 0
  sat : Nat := 0
  ovf : Nat := 0
  clamp : Nat := 0
  empty : Nat := 0
  poison : Nat := 0
deriving DecidableEq, Repr

def VuCnt.add (a b : VuCnt) : VuCnt :=
  { nan := a.nan + b.nan, sat := a.sat + b.sat, ovf := a.ovf + b.ovf, clamp := a.clamp + b.clamp, empty := a.empty + b.empty
    poison := a.poison + b.poison }

/-- An FP32 value on its way through the list. -/
structure VVal where
  v : Nat
  poison : Bool := false
  ovf : Nat := 0
deriving DecidableEq, Repr

/-- A finite result was rounded to an infinity. -/
def overflowed (ins : List Nat) (out : Nat) : Nat :=
  b2n (ins.all (fun i => (f32 i).isFin) && decide (fF32.mag out = 0x7F800000))

/-- max and min of R88 with a constant or another value: the first is kept where both compare equal. -/
def fpMax (a b : Nat) : Nat := f32Canon (if f32Key a < f32Key b then b else a)
def fpMin (a b : Nat) : Nat := f32Canon (if f32Key b < f32Key a then b else a)

/-- A nonlinear function (R124). -/
def nonlinear (opc v : Nat) : Nat :=
  match opc with
  | 0x10 => fnExp v
  | 0x11 => fnRecip v
  | 0x12 => fnRsqrt v
  | 0x13 => fnSigmoid v
  | 0x14 => fnTanh v
  | 0x15 => fnSilu v
  | _ => fnGelu v

/-- One operation on one element; `u` is the second operand or the column's table entry. -/
def applyOp (o : VuOp) (x u : VVal) : VVal :=
  let two := fun (f : Nat → Nat → Nat) (b : Nat) (p : Bool) =>
    let r := f x.v b
    VVal.mk r (x.poison || p) (x.ovf + overflowed [x.v, b] r)
  match o.opc with
  | 2 => two f32Add o.imm false
  | 3 => two f32Mul o.imm false
  | 4 => { x with v := fpMax x.v o.imm }
  | 5 => { x with v := fpMin x.v o.imm }
  | 6 | 8 => two f32Add u.v u.poison
  | 7 | 9 => two f32Mul u.v u.poison
  | 0x10 | 0x11 | 0x12 | 0x13 | 0x14 | 0x15 | 0x16 =>
    let r := nonlinear o.opc x.v
    { x with v := r, ovf := x.ovf + (if (f32 x.v).isZero then 0 else overflowed [x.v] r) }
  | _ => x

/-! ### Row reductions (R125) -/

/-- Level by level combination of lane values. -/
def combineLanes : Nat → List Nat → Nat
  | 0, l => l.getD 0 0
  | n + 1, l => combineLanes n ((List.range (l.length / 2)).map fun i => f32Add (l.getD (2 * i) 0) (l.getD (2 * i + 1) 0))

/-- Sum or sum of squares: 256 lanes in increasing index, then eight levels. -/
def reduceSum (square : Bool) (vs : List Nat) : Nat :=
  let lane := fun (l : Nat) =>
    (List.range (ceilDiv (vs.length - l) 256)).foldl (fun acc i =>
      let v := vs.getD (l + 256 * i) 0
      if square then f32Fma v v acc else f32Add acc v) 0
  combineLanes 8 ((List.range 256).map lane)

/-- Index of the first greatest (or least) element. -/
def argBest (least : Bool) (vs : List Nat) : Nat :=
  ((vs.zipIdx.foldl (fun (acc : Option (Nat × Nat)) e => match acc with
    | none => some e
    | some b => if (if least then decide (f32Key e.1 < f32Key b.1) else decide (f32Key b.1 < f32Key e.1)) then some e else acc)
    none).map Prod.snd).getD 0

/-! ### Writing -/

/-- Value of a poisoned output element of a format (R105); `z` where a quantisation wrote it. -/
def poisonElem (fmt : Nat) (z : Int) : Elem :=
  { raw := match floatFmt fmt with
      | some f => f.canNaN
      | none => if fmt = 9 then 0 else rawOfInt fmt z
    poison := true }

/-- Writes one FP32 value in a float format (R90). -/
def writeFloat (fmt : Nat) (x : VVal) : Elem × Nat :=
  if x.poison then (poisonElem fmt 0, 0)
  else match floatFmt fmt with
  | some f =>
    let r := narrow f x.v
    ({ raw := r.1 }, x.ovf + b2n r.2)
  | none => ({ raw := x.v }, x.ovf)

/-- A row as the VU leaves it: elements, the scale record of a per-token row, and what it counted. -/
structure VuRow where
  out : List Elem
  scale : Option ScaleRec := none
  cnt : VuCnt := {}
deriving DecidableEq, Repr

def countPoison (es : List Elem) : Nat := (es.filter fun e => e.poison).length

/-- Quantises the values of a row (R93). -/
def quantRow (fmt : Nat) (r : Nat) (z : Int) (xs : List VVal) : List Elem × VuCnt :=
  let rng := (intRange fmt).getD (0, 0)
  let one := fun (x : VVal) =>
    if x.poison then (poisonElem fmt z, ({} : VuCnt))
    else
      let q := quantise x.v r z rng.1 rng.2
      ({ raw := rawOfInt fmt q.q }, { nan := b2n q.nan, clamp := b2n q.clamped, ovf := x.ovf })
  let l := xs.map one
  (l.map Prod.fst, l.foldl (fun c e => c.add e.2) {})

/-- Per-token quantisation of a row (R97–R100); `skip` says which elements take no part in the tracking. -/
def tokenRow (fmt gain : Nat) (skip : Nat → Bool) (xs : List VVal) : VuRow :=
  let rng := (intRange fmt).getD (0, 0)
  let t : Track := xs.zipIdx.foldl (fun t (e : VVal × Nat) => if e.1.poison || skip e.2 then t else Track.add t e.1.v) none
  let d := deriveScale t rng.1 rng.2
  let m := consumerMult d.1 gain
  let q := quantRow fmt d.2.1 d.2.2 xs
  { out := q.1
    scale := some { s := d.1, rcp := d.2.1, m := m.1, sh := m.2.1, sat := m.2.2, poisonAll := xs.all fun (x : VVal) => x.poison
                    z := d.2.2 }
    cnt := { q.2 with sat := b2n m.2.2, empty := b2n t.isNone } }

/-- Forms BX8 blocks (R103). -/
def bx8Row (xs : List VVal) : List Elem :=
  (List.range (ceilDiv xs.length 32)).flatMap fun b =>
    let part := (xs.drop (32 * b)).take 32
    let blk := bx8OfF32 (part.map fun (x : VVal) => (x.v, x.poison))
    (part.zip blk.2).map fun (e : VVal × Nat) => { raw := blk.1 * 256 + e.2 % 256, poison := e.1.poison }

/-- The last operation of a list and the writing of its row in `fmt`. -/
def finishRow (last : Option VuOp) (fmt gain : Nat) (skip : Nat → Bool) (xs : List VVal) : VuRow :=
  let plain := fun (ys : List VVal) =>
    let l := ys.map (writeFloat fmt)
    VuRow.mk (l.map Prod.fst) none { ovf := (l.map Prod.snd).sum }
  let r := match last with
    | none => plain xs
    | some o =>
      let bad := xs.any fun (x : VVal) => x.poison
      let vs := xs.map fun (x : VVal) => x.v
      let ovf := (xs.map fun (x : VVal) => if x.poison then 0 else x.ovf).sum
      match o.opc with
      | 0x20 | 0x21 =>
        let s := reduceSum (decide (o.opc = 0x21)) vs
        plain [{ v := s, poison := bad, ovf := ovf + overflowed vs s }]
      | 0x22 => plain [{ v := f32Canon (vs.getD (argBest false vs) 0), poison := bad, ovf := ovf }]
      | 0x23 => plain [{ v := f32Canon (vs.getD (argBest true vs) 0), poison := bad, ovf := ovf }]
      | 0x24 | 0x25 =>
        VuRow.mk [if bad then poisonElem fmt 0 else { raw := argBest (decide (o.opc = 0x25)) vs }] none { ovf := ovf }
      | 0x30 =>
        let q := quantRow fmt o.imm o.z xs
        VuRow.mk q.1 none q.2
      | 0x31 => tokenRow fmt gain skip xs
      | 0x32 => VuRow.mk (bx8Row xs) none { ovf := ovf }
      | _ => plain xs
  { r with cnt := { r.cnt with poison := countPoison r.out } }

/-- Inputs of a row: its elements in `fmt`, the second input in `ufmt`, the scale and zero point that DEQ takes where the
step names a scale record, and whether that record makes the whole row poisoned. -/
structure VuIn where
  fmt : Nat
  row : List Elem
  ufmt : Nat := 7
  u : List Elem := []
  named : Option (Nat × Option Int) := none
  rowPoison : Bool := false
deriving DecidableEq, Repr

/-- An element as FP32, without a named scale (R122). -/
def elemF32 (fmt raw : Nat) : Nat := if fmt = 9 then f32OfBx8 (raw / 256 % 256) raw else f32OfElem fmt raw

/-- Applies an operation list to a row; `col opIndex c` is the FP32 table entry of ADD_COL and MUL_COL. -/
def vuRow (ops : List VuOp) (ofmt gain : Nat) (skip : Nat → Bool) (col : VuOp → Nat → VVal) (x : VuIn) : VuRow :=
  let first := fun (e : Elem) =>
    match ops.head? with
    | some o =>
      if o.opc = 1 then
        let (s, z) := match x.named with
          | some (s, some z) => (s, z)
          | some (s, none) => (s, o.z)
          | none => (o.imm, o.z)
        let v := f32Dequant x.fmt e.raw s z
        VVal.mk v (e.poison || x.rowPoison) (b2n ((elemFl x.fmt e.raw).isFin && (f32 s).isFin && decide (fF32.mag v = 0x7F800000)))
      else VVal.mk (elemF32 x.fmt e.raw) (e.poison || x.rowPoison) 0
    | none => VVal.mk (elemF32 x.fmt e.raw) (e.poison || x.rowPoison) 0
  let body := ops.filter fun o => decide (o.opc ≠ 1) && !opcLastOnly o.opc
  let vals := x.row.zipIdx.map fun (p : Elem × Nat) =>
    body.foldl (fun v o =>
      let other : VVal :=
        if opcReadsU o.opc then
          let e := x.u.getD p.2 { raw := 0 }
          { v := elemF32 x.ufmt e.raw, poison := e.poison }
        else if opcReadsCol o.opc then col o p.2
        else { v := 0 }
      applyOp o v other) (first p.1)
  finishRow (ops.getLast?.filter fun o => opcLastOnly o.opc) ofmt gain skip vals

end Sys2Proof.Machine
end

