-- ==== Sys2Proof/Machine/HenOps.lean ====
section
/-! DEFINITION. The Hen's operations (chapter 5): parameter blocks, lists, and what each operation writes and counts. -/

namespace Sys2Proof.Machine

/-! ### Parameter blocks (Table 5.1) -/

structure HenParam where
  op : Nat
  fmt : Nat
  descend : Bool
  cont : Bool
  aggMax : Bool
  clear : Bool
  na : Nat
  nb : Nat
  out : Nat
  rowBytes : Nat
  aOff : Nat
  bOff : Nat
  cOff : Nat
  outOff : Nat
  auxOff : Nat
  phOff : Nat
  p0 : Nat
  p1 : Nat
  seed : Nat
  reserved : Bool
deriving DecidableEq, Repr

def decodeHen (b : Bytes) : HenParam :=
  let w := fun o n => leAt b o n
  { op := w 0 1, fmt := w 1 1 % 16, descend := bit (w 2 1) 0, cont := bit (w 2 1) 1, aggMax := bit (w 2 1) 2, clear := bit (w 2 1) 3
    na := w 4 4, nb := w 8 4, out := w 12 4, rowBytes := w 16 2
    aOff := bits (w 20 4) 21 0, bOff := bits (w 24 4) 21 0, cOff := bits (w 28 4) 21 0, outOff := bits (w 32 4) 21 0
    auxOff := bits (w 36 4) 21 0, phOff := bits (w 40 4) 21 0, p0 := w 44 1, p1 := w 45 1, seed := w 48 4
    reserved := decide (16 ≤ w 1 1) || decide (16 ≤ w 2 1) || decide (w 3 1 ≠ 0) || decide (w 18 2 ≠ 0) || decide (w 46 2 ≠ 0) ||
      decide (w 52 12 ≠ 0) || [20, 24, 28, 32, 36, 40].any fun o => decide (2 ^ 22 ≤ w o 4) }

/-- Entries of a phase table: eps and ROUNDS (R149). -/
def phases (b : Bytes) (n : Nat) : List (Nat × Nat) := (List.range n).map fun i => (leAt b (8 * i) 4, leAt b (8 * i + 4) 2)

def phasesOk (l : List (Nat × Nat)) : Bool :=
  l.all fun p => (f32 p.1).isFin && !(f32 p.1).isZero && !fF32.sign p.1 && decide (1 ≤ p.2 ∧ p.2 ≤ 4096)

def henRows (op : Nat) : Bool := (decide (1 ≤ op) && decide (op ≤ 6)) || op = 0x10

/-- Beats of a step (Table 5.2); `rounds` is R_total. -/
def henBeats (p : HenParam) (rounds : Nat) : Nat :=
  let r := ceilDiv p.rowBytes 512
  let l := max 64 (2 ^ Nat.clog 2 p.na)
  match p.op with
  | 0x01 => 16 + p.na * r
  | 0x02 => 16 + p.na * (2 * r)
  | 0x03 | 0x04 | 0x05 | 0x06 => 16 + (p.na + p.out) * r
  | 0x08 => 16 + (1 + Nat.log2 (l / 64)) * (l / 64 + 21)
  | 0x09 | 0x0A | 0x0B => 16 + ceilDiv (p.na + p.nb) 64
  | 0x0C => 16 + ceilDiv p.na 64 + 21 * ceilDiv p.out 64
  | 0x0D => 16 + 2 * p.na + (if p.clear then ceilDiv (2 ^ p.p0 * p.p1) 64 else 0)
  | 0x0E => 16 + p.na
  | 0x10 => 16 + p.na * ceilDiv (p.rowBytes / 4) 64
  | 0x11 => 32 + rounds * (ceilDiv (p.na * p.nb) 64 + 24)
  | _ => 0

/-- A parameter block within the limits of R135 and Table 5.2, with the phase table of an ASSIGN step. -/
def henOk (p : HenParam) (ph : List (Nat × Nat)) : Bool :=
  [0x01, 0x02, 0x03, 0x04, 0x05, 0x06, 0x08, 0x09, 0x0A, 0x0B, 0x0C, 0x0D, 0x0E, 0x10, 0x11].contains p.op &&
  (if p.op = 1 then !fmtReserved p.fmt else p.fmt = 7 || p.fmt = 8) &&
  (!henRows p.op || (decide (4 ≤ p.rowBytes) && decide (p.rowBytes ≤ 4096) && decide (p.rowBytes % 4 = 0))) &&
  (match p.op with
   | 0x0C => decide (p.na ≤ 1048576) && decide (1 ≤ p.out) && decide (p.out ≤ 256)
   | 0x10 => decide (p.na ≤ 65536) && decide (p.rowBytes / 4 ≤ 256)
   | 0x11 => decide (p.na ≤ 256) && decide (p.nb ≤ 256) && decide (1 ≤ p.p0) && decide (p.p0 ≤ 8) && phasesOk ph
   | 0x0D | 0x0E => decide (p.na ≤ 65536) && decide (4 ≤ p.p0) && decide (p.p0 ≤ 16) && decide (1 ≤ p.p1) && decide (p.p1 ≤ 8)
   | 0x09 | 0x0A | 0x0B => decide (p.na ≤ 65536) && decide (p.nb ≤ 65536)
   | 0x03 | 0x04 | 0x05 | 0x06 => decide (p.na ≤ 65536) && decide (p.out ≤ 65536)
   | _ => decide (p.na ≤ 65536)) &&
  decide (henBeats p ((ph.map Prod.snd).sum) ≤ 24800)

/-- Regions of the stall store that a step may read, and those it may write: offset and bytes (R136, R152). The table of
C's rows has no stated maximum, so it is taken at NB_MAX rows (DEDUCED, log entry 28). -/
def henReads (p : HenParam) : List (Nat × Nat) :=
  let lst := fun (o n w : Nat) => (o, 16 + n * w)
  match p.op with
  | 0x01 => [lst p.aOff p.na 4, lst p.cOff p.nb p.rowBytes]
  | 0x02 => [lst p.aOff p.na 4, lst p.bOff p.nb p.rowBytes]
  | 0x03 | 0x04 | 0x05 | 0x06 => [lst p.aOff p.na p.rowBytes, lst p.bOff p.nb 4]
  | 0x08 | 0x0C => [lst p.aOff p.na 4]
  | 0x09 | 0x0A | 0x0B | 0x0D => [lst p.aOff p.na 4, lst p.bOff p.nb 4]
  | 0x0E => [lst p.aOff p.na 4, lst p.cOff (2 ^ p.p0 * p.p1) 8]
  | 0x10 => [lst p.aOff p.na 12, lst p.cOff p.nb p.rowBytes]
  | 0x11 => [lst p.cOff (p.na * p.nb) 4, (p.phOff, 8 * p.p0)]
  | _ => []

def henWrites (p : HenParam) : List (Nat × Nat) :=
  let lst := fun (o n w : Nat) => (o, 16 + n * w)
  match p.op with
  | 0x01 => [lst p.outOff p.na p.rowBytes]
  | 0x02 | 0x03 | 0x04 | 0x05 | 0x06 | 0x10 => [lst p.outOff p.out p.rowBytes]
  | 0x08 => [lst p.outOff p.na 4, lst p.auxOff p.na 4]
  | 0x0C => [lst p.outOff p.out 4, lst p.auxOff p.out 4]
  | 0x0A => [lst p.outOff (p.na + p.nb) 4]
  | 0x09 | 0x0B | 0x0E => [lst p.outOff p.na 4]
  | 0x0D => [lst p.outOff p.na 4, lst p.cOff (2 ^ p.p0 * p.p1) 8]
  | 0x11 => [lst p.outOff p.na 4, lst p.auxOff p.nb 4]
  | _ => []

/-- Offsets that a step uses, for R130 and the alignment of R134. -/
def henOffsets (p : HenParam) : List Nat := (henReads p ++ henWrites p).map Prod.fst

/-! ### Reading lists -/

/-- A stall store as the Hen reads it. -/
structure HenMem where
  hall : Hall
  base : Nat

/-- A word of 4 bytes and its poison; a word in the stall's own area is a bus error, and reads as poisoned (R130). -/
def HenMem.word (m : HenMem) (o : Nat) : Elem :=
  if 0x3F0000 < o + 4 then { raw := 0, poison := true }
  else { raw := leNat (m.hall.readBytes (m.base + o) 4), poison := (m.hall.mark ((m.base + o) / 64)).poison }

/-- A row of 4-byte words. -/
def HenMem.row (m : HenMem) (o n : Nat) : List Elem := (List.range n).map fun i => m.word (o + 4 * i)

/-- COUNT of a list, clipped at its maximum; whether it was clipped (R137). -/
def HenMem.count (m : HenMem) (o mx : Nat) : Nat × Bool :=
  let n := (m.word o).raw
  if mx < n then (mx, true) else (n, false)

def HenMem.cols (m : HenMem) (o mx : Nat) : Nat × Bool :=
  let n := (m.word (o + 4)).raw
  if mx < n then (mx, true) else (n, false)

/-- Elements of a list of words. -/
def HenMem.list (m : HenMem) (o n : Nat) : List Elem := (List.range n).map fun i => m.word (o + 16 + 4 * i)

/-! ### Results -/

/-- A list to be written: offset, COUNT, flags beyond TRUNC and POISON, and its words. -/
structure HenList where
  off : Nat
  count : Nat
  bounds : Bool := false
  order : Bool := false
  full : Bool := false
  openF : Bool := false
  words : List Elem
deriving DecidableEq, Repr

/-- What an operation writes and counts. `patches` are words written besides whole lists. -/
structure HenOut where
  lists : List HenList := []
  patches : List (Nat × Elem) := []
  clip : Nat := 0
  bounds : Nat := 0
  order : Nat := 0
  full : Nat := 0
  price : Nat := 0
  openN : Nat := 0
  /-- A read met the stall's own area (R130). -/
  bus : Bool := false
deriving DecidableEq, Repr

/-- Bytes of a list (Table 5.3). -/
def HenList.payload (l : HenList) (trunc : Bool) : Payload :=
  let bad := l.words.any fun (e : Elem) => e.poison
  let flags := b2n trunc + 2 * b2n bad + 4 * b2n l.bounds + 8 * b2n l.order + 16 * b2n l.full + 32 * b2n l.openF
  cleanBytes (leBytes 4 l.count ++ leBytes 4 0 ++ leBytes 8 flags) ++ l.words.flatMap (elemBytes 4)

/-- A word of an output list or table of value format `fmt`, poisoned (R139). -/
def henPoison (fmt : Nat) : Elem := { raw := if fmt = 7 then f32NaN else 0, poison := true }

def zeroWord : Elem := { raw := 0 }
def padTo (n : Nat) (d : Elem) (l : List Elem) : List Elem := l ++ List.replicate (n - l.length) d

/-- The signed value of an INT32 word. -/
def i32 (e : Elem) : Int := toSigned 32 e.raw

/-- Comparison key of a word in a value format (R88). -/
def henKey (fmt : Nat) (raw : Nat) : Int := if fmt = 7 then f32Key raw else toSigned 32 raw

/-- A key as it is written: a NaN as the canonical NaN (R138). -/
def henCanon (fmt raw : Nat) : Nat := if fmt = 7 then f32Canon raw else raw

/-- Addition in a value format (R138). -/
def henAdd (fmt a b : Nat) : Nat := if fmt = 7 then f32Add a b else ofSigned 32 (satI32 (toSigned 32 a + toSigned 32 b))

/-- An index is in range. -/
def henInRange (e : Elem) (n : Nat) : Bool := decide (0 ≤ i32 e) && decide (i32 e < n)

/-- A table held as rows of words. -/
abbrev Rows := List (List Elem)

def Rows.setRow (t : List (List Elem)) (i : Nat) (r : List Elem) : List (List Elem) := t.set i r

/-- Poisons a whole table where `bad`. -/
def taint (fmt : Nat) (bad : Bool) (t : List Elem) : List Elem := if bad then t.map fun _ => henPoison fmt else t

/-! ### Rows (R141, R142, R147) -/

/-- Words of the poison value of a GATHER row in any format (R139, R105). -/
def gatherPoison (fmt n : Nat) : List Elem :=
  let w := match floatFmt fmt with
    | some f => if fmtBits fmt = 8 then f.canNaN * 0x01010101 else if fmtBits fmt = 16 then f.canNaN * 0x00010001 else f.canNaN
    | none => 0
  List.replicate n { raw := w, poison := true }

def henGather (p : HenParam) (m : HenMem) : HenOut :=
  let a := m.count p.aOff p.na
  let rows := (m.word p.cOff).raw
  let n := p.rowBytes / 4
  let ix := m.list p.aOff a.1
  let one := fun (e : Elem) =>
    if e.poison then (gatherPoison p.fmt n, false)
    else if !henInRange e rows then (List.replicate n zeroWord, true)
    else
      let r := m.row (p.cOff + 16 + e.raw * p.rowBytes) n
      (if r.any fun (w : Elem) => w.poison then gatherPoison p.fmt n else r, false)
  let l := ix.map one
  let miss := (l.filter fun e => e.2).length
  { lists := [{ off := p.outOff, count := a.1, bounds := decide (miss ≠ 0)
                words := padTo (p.na * n) zeroWord (l.flatMap Prod.fst) }]
    clip := b2n a.2, bounds := miss
    bus := ix.any fun e => henInRange e rows && decide (0x3F0000 < p.cOff + 16 + (e.raw + 1) * p.rowBytes) }

/-- The target table of SCATTER_ADD and MSG as it stands. -/
def HenMem.target (m : HenMem) (p : HenParam) : List (List Elem) :=
  (List.range p.out).map fun i => m.row (p.outOff + 16 + i * p.rowBytes) (p.rowBytes / 4)

/-- Adds a row into a target row; a poisoned operand poisons the result. -/
def addRow (fmt : Nat) (t r : List Elem) : List Elem :=
  List.zipWith (fun (x y : Elem) => if x.poison || y.poison then henPoison fmt else { raw := henAdd fmt x.raw y.raw }) t r

def henScatterAdd (p : HenParam) (m : HenMem) : HenOut :=
  let a := m.count p.aOff p.na
  let b := m.count p.bOff p.nb
  let n := min a.1 b.1
  let ix := m.list p.aOff n
  let bad := ix.any fun (e : Elem) => e.poison
  let tab := (ix.zipIdx).foldl (fun (t : List (List Elem)) (e : Elem × Nat) =>
    if henInRange e.1 p.out then
      t.set e.1.raw (addRow p.fmt (t.getD e.1.raw []) (m.row (p.bOff + 16 + e.2 * p.rowBytes) (p.rowBytes / 4)))
    else t) (m.target p)
  let miss := (ix.filter fun e => !e.poison && !henInRange e p.out).length
  { lists := [{ off := p.outOff, count := p.out, bounds := decide (miss ≠ 0), words := taint p.fmt bad tab.flatten }]
    clip := b2n a.2 + b2n b.2, bounds := miss }

/-- Segment reductions (R142); `op` 3 sum, 4 max, 5 min, 6 argmax. -/
def henSegment (p : HenParam) (m : HenMem) : HenOut :=
  let a := m.count p.aOff p.na
  let b := m.count p.bOff p.nb
  let n := min a.1 b.1
  let w := p.rowBytes / 4
  let ids := m.list p.bOff n
  let bad := ids.any fun (e : Elem) => e.poison
  let first : Nat :=
    match p.op with
    | 3 => 0
    | 4 => if p.fmt = 7 then 0xFF800000 else 0x80000000
    | 5 => if p.fmt = 7 then 0x7F800000 else 0x7FFFFFFF
    | _ => 0xFFFFFFFF
  let row := fun (i : Nat) => m.row (p.aOff + 16 + i * p.rowBytes) w
  let outFmt := if p.op = 6 then 8 else p.fmt
  let step := fun (i : Nat) (t : List Elem) =>
    let r := row i
    if r.any (fun (e : Elem) => e.poison) || t.any (fun (e : Elem) => e.poison) then t.map fun _ => henPoison outFmt
    else (List.zip t r).zipIdx.map fun (x : (Elem × Elem) × Nat) =>
      let cur := x.1.1.raw
      let new := x.1.2.raw
      let better := fun (c : Nat) => decide (henKey p.fmt c < henKey p.fmt new)
      match p.op with
      | 3 => ({ raw := henAdd p.fmt cur new } : Elem)
      | 4 => { raw := henCanon p.fmt (if better cur then new else cur) }
      | 5 => { raw := henCanon p.fmt (if henKey p.fmt new < henKey p.fmt cur then new else cur) }
      | _ => { raw := if cur = 0xFFFFFFFF ∨ better ((row cur).getD x.2 zeroWord).raw = true then i else cur }
  let tab := ids.zipIdx.foldl (fun (t : List (List Elem)) (e : Elem × Nat) =>
    if henInRange e.1 p.out then t.set e.1.raw (step e.2 (t.getD e.1.raw [])) else t)
    (List.replicate p.out (List.replicate w { raw := first }))
  let miss := (ids.filter fun e => !e.poison && !henInRange e p.out).length
  { lists := [{ off := p.outOff, count := p.out, bounds := decide (miss ≠ 0), words := taint outFmt bad tab.flatten }]
    clip := b2n a.2 + b2n b.2, bounds := miss }

def henMsg (p : HenParam) (m : HenMem) : HenOut :=
  let a := m.count p.aOff p.na
  let rows := (m.word p.cOff).raw
  let f := p.rowBytes / 4
  let edge := fun (i : Nat) =>
    let o := p.aOff + 16 + 12 * i
    (m.word o, m.word (o + 4), m.word (o + 8))
  let es := (List.range a.1).map edge
  let bad := es.any fun e => e.1.poison || e.2.1.poison
  let ok := fun (e : Elem × Elem × Elem) => henInRange e.1 rows && henInRange e.2.1 p.out
  let tab := es.foldl (fun (t : List (List Elem)) e =>
    if ok e then
      let src := m.row (p.cOff + 16 + e.1.raw * p.rowBytes) f
      let dirty := e.2.2.poison || src.any fun (x : Elem) => x.poison
      t.set e.2.1.raw (List.zipWith (fun (x y : Elem) =>
        if dirty || x.poison then henPoison 7
        else if p.aggMax then ({ raw := fpMax x.raw (f32Mul e.2.2.raw y.raw) } : Elem)
        else { raw := f32Fma e.2.2.raw y.raw x.raw }) (t.getD e.2.1.raw []) src)
    else t) (m.target p)
  let miss := (es.filter fun e => !(e.1.poison || e.2.1.poison) && !ok e).length
  { lists := [{ off := p.outOff, count := p.out, bounds := decide (miss ≠ 0), words := taint 7 bad tab.flatten }]
    clip := b2n a.2, bounds := miss
    bus := es.any fun e => ok e && decide (0x3F0000 < p.cOff + 16 + (e.1.raw + 1) * p.rowBytes) }

/-! ### Order (R143–R145) -/

/-- Inserts behind every entry that does not come after it. -/
def insertKey (before : Elem × Nat → Elem × Nat → Bool) (x : Elem × Nat) : List (Elem × Nat) → List (Elem × Nat)
  | [] => [x]
  | y :: rest => if before x y then x :: y :: rest else y :: insertKey before x rest

/-- Keys with their indices in order; equal keys keep ascending index. -/
def sortKeys (fmt : Nat) (descend : Bool) (ks : List Elem) : List (Elem × Nat) :=
  let before := fun (x y : Elem × Nat) =>
    if descend then decide (henKey fmt y.1.raw < henKey fmt x.1.raw) else decide (henKey fmt x.1.raw < henKey fmt y.1.raw)
  ks.zipIdx.foldl (fun l e => insertKey before e l) []

def henSort (p : HenParam) (m : HenMem) : HenOut :=
  let a := m.count p.aOff p.na
  let ks := m.list p.aOff a.1
  let bad := ks.any fun (e : Elem) => e.poison
  let s := sortKeys p.fmt p.descend ks
  let keys := padTo p.na zeroWord (s.map fun e => ({ raw := henCanon p.fmt e.1.raw } : Elem))
  let perm := padTo p.na zeroWord (s.map fun e => ({ raw := e.2 } : Elem))
  { lists := [{ off := p.outOff, count := a.1, words := taint p.fmt bad keys }, { off := p.auxOff, count := a.1, words := taint 8 bad perm }]
    clip := b2n a.2 }

def henTopk (p : HenParam) (m : HenMem) : HenOut :=
  let a := m.count p.aOff p.na
  let ks := m.list p.aOff a.1
  let bad := ks.any fun (e : Elem) => e.poison
  let s := (sortKeys p.fmt true ks).take p.out
  let least : Elem := { raw := if p.fmt = 7 then 0xFF800000 else 0x80000000 }
  let keys := padTo p.out least (s.map fun e => ({ raw := henCanon p.fmt e.1.raw } : Elem))
  let idx := padTo p.out { raw := 0xFFFFFFFF } (s.map fun e => ({ raw := e.2 } : Elem))
  let n := min a.1 p.out
  { lists := [{ off := p.outOff, count := n, words := taint p.fmt bad keys }, { off := p.auxOff, count := n, words := taint 8 bad idx }]
    clip := b2n a.2 }

def ascending (ks : List Elem) : Bool := (ks.zip (ks.drop 1)).all fun e => decide (i32 e.1 < i32 e.2)

/-- Merges two ascending lists of values, each value once. -/
def mergeVals : Nat → List Int → List Int → List Int
  | 0, _, _ => []
  | _ + 1, [], ys => ys
  | _ + 1, xs, [] => xs
  | n + 1, x :: xs, y :: ys =>
    if x < y then x :: mergeVals n xs (y :: ys)
    else if y < x then y :: mergeVals n (x :: xs) ys
    else x :: mergeVals n xs ys

/-- Set operations (R144): 9 intersection, 10 union, 11 difference. With a list out of order the manual gives no COUNT;
`free` stands for it. -/
def henSet (p : HenParam) (m : HenMem) (free : Nat) : HenOut :=
  let a := m.count p.aOff p.na
  let b := m.count p.bOff p.nb
  let xs := m.list p.aOff a.1
  let ys := m.list p.bOff b.1
  let bad := (xs ++ ys).any fun (e : Elem) => e.poison
  let wrong := b2n (!ascending xs) + b2n (!ascending ys)
  let xv := xs.map i32
  let yv := ys.map i32
  let res := match p.op with
    | 9 => xv.filter fun v => yv.contains v
    | 10 => mergeVals (xv.length + yv.length) xv yv
    | _ => xv.filter fun v => !yv.contains v
  let room := if p.op = 10 then p.na + p.nb else p.na
  let words := padTo room zeroWord (res.map fun v => ({ raw := ofSigned 32 v } : Elem))
  { lists := [{ off := p.outOff, count := if wrong = 0 then res.length else free % (room + 1), order := decide (wrong ≠ 0)
                words := taint 8 (bad || decide (wrong ≠ 0)) words }]
    clip := b2n a.2 + b2n b.2, order := wrong }

/-! ### Hashing (R146) -/

def emptyKey : Nat := 0x80000000

/-- Bucket of a key. -/
def henBucket (p : HenParam) (key : Nat) : Nat := ((key ^^^ p.seed) * 0x9E3779B1 % 2 ^ 32) >>> (32 - p.p0)

/-- Slots of a table: key and value words. -/
def HenMem.slots (m : HenMem) (p : HenParam) : List (Elem × Elem) :=
  (List.range (2 ^ p.p0 * p.p1)).map fun i => (m.word (p.cOff + 16 + 8 * i), m.word (p.cOff + 20 + 8 * i))

def bucketSlots (p : HenParam) (key : Nat) : List Nat := (List.range p.p1).map fun i => henBucket p key * p.p1 + i

def minusOne : Elem := { raw := 0xFFFFFFFF }

def henHashInsert (p : HenParam) (m : HenMem) : HenOut :=
  let a := m.count p.aOff p.na
  let b := m.count p.bOff p.nb
  let keys := m.list p.aOff a.1
  let vals := m.list p.bOff b.1
  let bad := keys.any fun (e : Elem) => e.poison
  let start := if p.clear then List.replicate (2 ^ p.p0 * p.p1) (({ raw := emptyKey } : Elem), zeroWord) else m.slots p
  let step := fun (acc : List (Elem × Elem) × List Elem × Nat × Nat) (e : Elem × Nat) =>
    let (tab, outs, miss, full) := acc
    if e.1.raw = emptyKey then (tab, outs ++ [minusOne], miss + 1, full)
    else
      let bs := bucketSlots p e.1.raw
      let dirty := bs.any fun i => (tab.getD i (zeroWord, zeroWord)).1.poison
      let mark := fun (w : Elem) => if dirty then henPoison 8 else w
      match bs.find? fun i => decide ((tab.getD i (zeroWord, zeroWord)).1.raw = e.1.raw) with
      | some i => (tab, outs ++ [mark { raw := i }], miss, full)
      | none => match bs.find? fun i => decide ((tab.getD i (zeroWord, zeroWord)).1.raw = emptyKey) with
        | some i =>
          let v := vals.getD e.2 zeroWord
          (tab.set i ({ raw := e.1.raw, poison := v.poison }, if v.poison then henPoison 8 else v), outs ++ [mark { raw := i }], miss, full)
        | none => (tab, outs ++ [mark minusOne], miss, full + 1)
  let r := keys.zipIdx.foldl step (start, [], 0, 0)
  let tab := if bad then r.1.map fun _ => (henPoison 8, henPoison 8) else r.1
  let before := m.slots p
  let patch := tab.zipIdx.flatMap fun (e : (Elem × Elem) × Nat) =>
    let old := before.getD e.2 (zeroWord, zeroWord)
    if !p.clear && decide (e.1 = old) then []
    else [(p.cOff + 16 + 8 * e.2, e.1.1), (p.cOff + 20 + 8 * e.2, e.1.2)]
  { lists := [{ off := p.outOff, count := a.1, bounds := decide (r.2.2.1 ≠ 0), full := decide (r.2.2.2 ≠ 0)
                words := taint 8 bad (padTo p.na zeroWord r.2.1) }]
    patches := patch, clip := b2n a.2 + b2n b.2, bounds := r.2.2.1, full := r.2.2.2 }

def henHashProbe (p : HenParam) (m : HenMem) : HenOut :=
  let a := m.count p.aOff p.na
  let keys := m.list p.aOff a.1
  let bad := keys.any fun (e : Elem) => e.poison
  let tab := m.slots p
  let one := fun (e : Elem) =>
    if e.raw = emptyKey then (minusOne, 1)
    else
      let bs := (bucketSlots p e.raw).map fun i => tab.getD i (zeroWord, zeroWord)
      if bs.any fun s => s.1.poison then (henPoison 8, 0)
      else match bs.find? fun s => decide (s.1.raw = e.raw) with
        | some s => (if s.2.poison then henPoison 8 else { raw := s.2.raw }, 0)
        | none => (minusOne, 0)
  let l := keys.map one
  let miss := (l.map Prod.snd).sum
  { lists := [{ off := p.outOff, count := a.1, bounds := decide (miss ≠ 0), words := taint 8 bad (padTo p.na zeroWord (l.map Prod.fst)) }]
    clip := b2n a.2, bounds := miss }

/-! ### ASSIGN (R148–R151) -/

/-- The auction: owner of each object, prices, prices that reached +∞. -/
structure Auction where
  owner : List (Option Nat)
  price : List Nat
  ovf : Nat := 0
deriving DecidableEq, Repr

def Auction.unassigned (s : Auction) (i : Nat) : Bool := !s.owner.contains (some i)

/-- The bid of a bidder: object and price. `ben` are its allowed entries by object. -/
def auctionBid (ben : List (Nat × Nat)) (price : List Nat) (eps : Nat) : Option (Nat × Nat) :=
  let value := fun (e : Nat × Nat) => if price.getD e.1 0 = 0x7F800000 then 0xFF800000 else f32Sub e.2 (price.getD e.1 0)
  let best := fun (l : List (Nat × Nat)) => l.foldl (fun (acc : Option (Nat × Nat × Nat)) e => match acc with
    | none => some (e.1, e.2, value e)
    | some b => if f32Key b.2.2 < f32Key (value e) then some (e.1, e.2, value e) else acc) none
  match best ben with
  | none => none
  | some (j, a, v1) =>
    if price.getD j 0 = 0x7F800000 then none
    else
      let v2 := match best (ben.filter fun e => decide (e.1 ≠ j)) with
        | some b => b.2.2
        | none => v1
      some (j, f32Add (f32Sub a v2) eps)

/-- One round. -/
def auctionRound (ben : List (List (Nat × Nat))) (eps : Nat) (s : Auction) : Auction :=
  let bids := ben.zipIdx.filterMap fun (e : List (Nat × Nat) × Nat) =>
    if s.unassigned e.2 then (auctionBid e.1 s.price eps).map fun b => (e.2, b) else none
  (List.range s.price.length).foldl (fun s j =>
    match (bids.filter fun b => b.2.1 = j).foldl (fun (acc : Option (Nat × Nat)) b => match acc with
      | none => some (b.1, b.2.2)
      | some w => if f32Key w.2 < f32Key b.2.2 then some (b.1, b.2.2) else acc) none with
    | none => s
    | some (i, bid) =>
      { owner := s.owner.set j (some i), price := s.price.set j bid, ovf := s.ovf + b2n (decide (bid = 0x7F800000)) }) s

def auctionRounds (ben : List (List (Nat × Nat))) (eps : Nat) : Nat → Auction → Auction
  | 0, s => s
  | n + 1, s => auctionRounds ben eps n (auctionRound ben eps s)

/-- Phases in table order; assignments are cleared before every phase but the first. -/
def auctionPhases (ben : List (List (Nat × Nat))) : List (Nat × Nat) → Bool → Auction → Auction
  | [], _, s => s
  | (eps, rounds) :: rest, first, s =>
    let s := if first then s else { s with owner := s.owner.map fun _ => none }
    auctionPhases ben rest false (auctionRounds ben eps rounds s)

/-- Stored assignments of a CONTINUE step, corrected in increasing bidder index (R150): owners and corrections. -/
def storedOwners (stored : List Elem) (real cols : Nat) (ben : List (List (Nat × Nat))) : List (Option Nat) × Nat :=
  stored.zipIdx.foldl (fun (acc : List (Option Nat) × Nat) (e : Elem × Nat) =>
    let v := i32 e.1
    if v = -1 then acc
    else if e.2 < real ∧ 0 ≤ v ∧ v < cols ∧ acc.1.getD v.toNat none = none ∧ ((ben.getD e.2 []).any fun x => decide (x.1 = v.toNat)) = true
    then (acc.1.set v.toNat (some e.2), acc.2)
    else (acc.1, acc.2 + 1)) (List.replicate cols none, 0)

def henAssign (p : HenParam) (m : HenMem) (ph : List (Nat × Nat)) : HenOut :=
  let nr := m.count p.cOff p.na
  let nc := m.cols p.cOff p.nb
  let entry := fun (i j : Nat) => m.word (p.cOff + 16 + 4 * (i * p.nb + j))
  let ben := (List.range nr.1).map fun i => (List.range nc.1).filterMap fun j =>
    if (f32 (entry i j).raw).isFin then some (j, (entry i j).raw) else none
  let outs := m.list p.outOff p.na
  let aux := m.list p.auxOff p.nb
  let live := aux.take nc.1
  let bad := ((List.range nr.1).any fun i => (List.range nc.1).any fun j => (entry i j).poison) ||
    (p.cont && (live.any (fun (e : Elem) => e.poison) || outs.any fun (e : Elem) => e.poison))
  let own := if p.cont then storedOwners outs nr.1 nc.1 ben else (List.replicate nc.1 none, 0)
  let wrongPrice := fun (v : Nat) => (f32 v).isNaN || decide (v = 0xFF800000)
  let fixes := if p.cont then (live.filter fun e => wrongPrice e.raw).length else 0
  let prices := if p.cont then live.map fun e => if wrongPrice e.raw then 0 else e.raw else List.replicate nc.1 0
  let s := auctionPhases ben ph true { owner := own.1, price := prices }
  let object := fun (i : Nat) => (s.owner.zipIdx.find? fun e => e.1 = some i).map Prod.snd
  let left := ((List.range nr.1).filter fun i => (object i).isNone && decide (ben.getD i [] ≠ [])).length
  let miss := own.2 + fixes
  { lists :=
      [{ off := p.outOff, count := nr.1, bounds := decide (miss ≠ 0), openF := decide (left ≠ 0)
         words := taint 8 bad ((List.range p.na).map fun i => match object i with
           | some j => ({ raw := j } : Elem)
           | none => minusOne) },
       { off := p.auxOff, count := nc.1, words := taint 7 bad (padTo p.nb zeroWord (s.price.map fun v => ({ raw := v } : Elem))) }]
    clip := b2n nr.2 + b2n nc.2, bounds := miss, price := s.ovf, openN := left }

/-- The operation of a parameter block; `free` is a free value, `ph` the phase table. -/
def henRun (p : HenParam) (m : HenMem) (ph : List (Nat × Nat)) (free : Nat) : HenOut :=
  match p.op with
  | 0x01 => henGather p m
  | 0x02 => henScatterAdd p m
  | 0x03 | 0x04 | 0x05 | 0x06 => henSegment p m
  | 0x08 => henSort p m
  | 0x09 | 0x0A | 0x0B => henSet p m free
  | 0x0C => henTopk p m
  | 0x0D => henHashInsert p m
  | 0x0E => henHashProbe p m
  | 0x10 => henMsg p m
  | 0x11 => henAssign p m ph
  | _ => {}

end Sys2Proof.Machine
end

