-- ==== Sys2Proof/Machine/OxArray.lean ====
section
/-! DEFINITION. The Ox array's arithmetic (R89, R91, R94–R96, R102, R104, R107–R119): one tile, its checksums and its
output stage. -/

namespace Sys2Proof.Machine

/-- Rows of a tile, data columns with checksums on and off, of a pair code (Table 4.1). -/
def pairRows (p : Nat) : Nat := if p = 5 ∨ p = 6 then 32 else 64
def pairCols (p : Nat) (checked : Bool) : Nat := pairRows p - (if checked then pairRows p / 32 else 0)
def pairFloat (p : Nat) : Bool := 4 ≤ p && p ≤ 7

/-- Formats that a pair code takes (Table 4.1). -/
def pairOk (p a w : Nat) : Bool :=
  match p with
  | 0 => a = 1 && w = 1
  | 1 => a = 2 && w = 1
  | 2 => a = 1 && w = 0
  | 3 => a = 0 && w = 0
  | 4 => (a = 3 || a = 4) && (w = 3 || w = 4)
  | 5 => a = 6 && w = 6
  | 6 => a = 5 && w = 5
  | 7 => a = 9 && w = 9
  | _ => false

/-- Beats of one tile but for its drain (R108). -/
def tileBeats (pair k data count rank : Nat) : Nat :=
  max (if pair = 3 then ceilDiv k 2 else k) (ceilDiv (pairRows pair * data * (count + rank)) 512)

/-- Beats of the final drain. -/
def drainBeats (pair : Nat) : Nat := pairRows pair

/-! ### Accumulation -/

/-- round_fp32 of the Ox: to nearest even, subnormal results flushed to zero of the same sign (R86, R87). -/
def oxFlush (v : Nat) : Nat := if fF32.mag v < 0x00800000 then fF32.pack (fF32.sign v) 0 else v
def oxRound (x : Fl) : Nat := oxFlush x.toF32
def oxAdd (a b : Nat) : Nat := oxFlush (f32Add a b)

/-- Exact sum of the products of a chunk (R89); of a BX8 block pair, whose zero has no sign (R104). -/
def chunkSum (bx : Bool) (ps : List Fl) : Fl :=
  let pos := ps.any fun p => decide (p = .inf false)
  let neg := ps.any fun p => decide (p = .inf true)
  if ps.any (fun p => p.isNaN) || (pos && neg) then .nan false
  else if pos then .inf false
  else if neg then .inf true
  else
    let s := Dy.sum (ps.map Fl.dy)
    if s.m = 0 then .fin (!bx && ps.all fun p => p.negative && p.isZero) 0 0
    else .fin (decide (s.m < 0)) s.m.natAbs s.e

/-- The list cut into pieces of `n`. -/
def chunks {α : Type} (n : Nat) (l : List α) : List (List α) :=
  (List.range (ceilDiv l.length n)).map fun i => (l.drop (n * i)).take n

/-- The accumulator of R89 over a list of products in increasing k. -/
def accumulate (bx : Bool) (ps : List Fl) : Nat :=
  (chunks (if bx then 32 else 64) ps).foldl (fun acc c => oxAdd acc (oxRound (chunkSum bx c))) 0

/-- Accumulator bits inverted by an upset: 40 bits with integer operands (R91), 48 in their check accumulators (R116),
FP32 otherwise. -/
def flipInt (v : Int) (m : Nat) : Int := toSigned 40 (ofSigned 40 v ^^^ (m % 2 ^ 40))
def flipChk (v : Int) (m : Nat) : Int := toSigned 48 (ofSigned 48 v ^^^ (m % 2 ^ 48))
def flipF32 (v m : Nat) : Nat := (v ^^^ m) % 2 ^ 32

def upsetAt (us : List Upset) (r c : Nat) : Nat :=
  us.foldl (fun m u => if u.row = r ∧ u.col = c then m ^^^ u.flip else m) 0

/-! ### A tile -/

/-- A requantisation entry (Table 3.8). -/
structure ReqEnt where
  m : Int
  sh : Nat
  token : Bool
  zw : Int
  zout : Int
  c0 : Int
  c1 : Int
  poison : Bool
deriving DecidableEq, Repr

def decodeReqEnt (b : Bytes) (poison : Bool) : ReqEnt :=
  { m := toSigned 32 (leAt b 0 4), sh := bits (leAt b 4 1) 5 0, token := bit (leAt b 4 1) 6, zw := toSigned 8 (leAt b 5 1)
    zout := toSigned 16 (leAt b 6 2), c0 := toSigned 32 (leAt b 8 4), c1 := toSigned 32 (leAt b 12 4), poison := poison }

/-- Operands of one tile: activations by row, weights by column, requantisation entries by column, scale records by row
with whether they were read with poison, adapter input by row and up-projection by column, outlier sums by row. -/
structure TileIn where
  pair : Nat
  afmt : Nat
  wfmt : Nat
  ofmt : Nat
  checks : Bool
  ftol : Nat
  epilogue : Bool
  token : Bool
  za : Int
  a : List (List Elem)
  w : List (List Elem)
  ent : List ReqEnt := []
  scale : List (ScaleRec × Bool) := []
  u : List (List Elem) := []
  b : List (List Elem) := []
  outl : List (List Nat) := []
deriving DecidableEq, Repr

/-- Outcome of a tile's checks: those that failed, and how many were skipped. -/
structure ChkOut where
  rows : List Nat := []
  cols : List Nat := []
  skipped : Nat := 0
deriving DecidableEq, Repr

structure TileOut where
  out : List (List Elem)
  sat : Nat
  chk : ChkOut
deriving DecidableEq, Repr

def rowPoison (r : List Elem) : Bool := r.any fun (e : Elem) => e.poison

/-- Exact value of a weighted sum, none where a value is not finite. -/
def exactSum (vs : List (Nat × Fl)) : Option Dy :=
  if vs.all fun v => v.2.isFin then some (Dy.sum (vs.map fun v => Dy.mul ⟨v.1, 0⟩ v.2.dy)) else none

def Dy.fl (d : Dy) : Fl := .fin (decide (d.m < 0)) d.m.natAbs d.e

/-- The comparison of R117: both sides as FP32 terms with integer factors. -/
def floatMismatch (nch ftol : Nat) (chk : Nat) (terms : List (Nat × Nat)) : Bool :=
  if !(f32 chk).isFin || terms.any fun t => !(f32 t.2).isFin then true
  else
    let side := Dy.sum (terms.map fun t => Dy.mul ⟨t.1, 0⟩ (f32 t.2).dy)
    let d := ((f32 chk).dy.add side.neg).abs
    let s := (f32 chk).dy.abs.add (Dy.sum (terms.map fun t => (Dy.mul ⟨t.1, 0⟩ (f32 t.2).dy).abs))
    Dy.lt (Dy.mul ⟨nch + 2, (ftol : Int) - 24⟩ s) d

/-- Columns `c` of row-major data. -/
def colOf {α : Type} (d : α) (rows : List (List α)) (c : Nat) : List α := rows.map fun r => r.getD c d

/-- Adds the factor c + 1 to each of a list. -/
def weighted {α : Type} (l : List α) : List (Nat × α) := l.zipIdx.map fun e => (e.2 + 1, e.1)
def unweighted {α : Type} (l : List α) : List (Nat × α) := l.map fun e => (1, e)

/-- Row and column checks of a tile with integer operands (R115, R116); `acc` are the step-1 accumulators. -/
def intChecks (x : TileIn) (us : List Upset) (acc : List (List Int)) : ChkOut :=
  let av := x.a.map fun r => r.map fun (e : Elem) => intOfRaw x.afmt e.raw
  let wv := x.w.map fun c => c.map fun (e : Elem) => intOfRaw x.wfmt e.raw
  let kLen := (av.getD 0 []).length
  let ws := fun (f : Nat → Int) => (List.range kLen).map fun k => ((wv.zipIdx.map fun c => f c.2 * c.1.getD k 0).sum : Int)
  let dot := fun (p q : List Int) => ((List.zipWith (· * ·) p q).sum : Int)
  let n := pairCols x.pair true
  let rowBad := fun (r : Nat) =>
    let ar := av.getD r []
    let cr := acc.getD r []
    let one := decide (flipChk (dot ar (ws fun _ => 1)) (upsetAt us r n) ≠ cr.sum)
    let two := decide (pairRows x.pair = 64) &&
      decide (flipChk (dot ar (ws fun c => (c : Int) + 1)) (upsetAt us r (n + 1)) ≠ ((cr.zipIdx.map fun e => ((e.2 : Int) + 1) * e.1).sum : Int))
    one || two
  let asum := (List.range kLen).map fun k => ((av.map fun r => r.getD k 0).sum : Int)
  let colBad := fun (c : Nat) =>
    decide (flipChk (dot asum (wv.getD c [])) (upsetAt us (pairRows x.pair) c) ≠ ((acc.map fun r => r.getD c 0).sum : Int))
  let rs := List.range x.a.length
  let cs := List.range x.w.length
  let rskip := rs.filter fun r => rowPoison (x.a.getD r [])
  let cskip := cs.filter fun c => rowPoison (x.w.getD c [])
  { rows := (rs.filter fun r => !rskip.contains r).filter rowBad
    cols := (cs.filter fun c => !cskip.contains c).filter colBad
    skipped := rskip.length + cskip.length }

/-- Row and column checks of a tile with float operands (R115, R117, R118); `acc` are the accumulators after the last
main chunk. -/
def floatChecks (x : TileIn) (us : List Upset) (acc : List (List Nat)) : ChkOut :=
  let bx := decide (x.pair = 7)
  let av := x.a.map fun r => r.map fun (e : Elem) => elemFl x.afmt e.raw
  let wv := x.w.map fun c => c.map fun (e : Elem) => elemFl x.wfmt e.raw
  let kLen := (av.getD 0 []).length
  let nch := ceilDiv kLen (if bx then 32 else 64)
  let ws := fun (wt : Bool) => (List.range kLen).map fun k =>
    exactSum (wv.zipIdx.map fun c => ((if wt then c.2 + 1 else 1), c.1.getD k (.nan false)))
  let run := fun (p : List Fl) (q : List (Option Dy)) =>
    accumulate bx (List.zipWith (fun (s : Fl) (t : Option Dy) => match t with
      | some d => s.mul d.fl
      | none => .nan false) p q)
  let n := pairCols x.pair true
  let plain := ws false
  let wtd := ws true
  let rowBad := fun (r : Nat) =>
    let cr := acc.getD r []
    floatMismatch nch x.ftol (flipF32 (run (av.getD r []) plain) (upsetAt us r n)) (unweighted cr) ||
      (decide (pairRows x.pair = 64) &&
        floatMismatch nch x.ftol (flipF32 (run (av.getD r []) wtd) (upsetAt us r (n + 1))) (weighted cr))
  let asum := (List.range kLen).map fun k => exactSum (av.map fun r => (1, r.getD k (.nan false)))
  let colBad := fun (c : Nat) =>
    floatMismatch nch x.ftol (flipF32 (run (wv.getD c []) asum) (upsetAt us (pairRows x.pair) c)) (unweighted (colOf 0 acc c))
  let rs := List.range x.a.length
  let cs := List.range x.w.length
  let wsBad := plain.any fun d => d.isNone
  let asBad := asum.any fun d => d.isNone
  let rskip := rs.filter fun r => rowPoison (x.a.getD r []) || (av.getD r []).any (fun v => !v.isFin) || wsBad
  let cskip := cs.filter fun c => rowPoison (x.w.getD c []) || (wv.getD c []).any (fun v => !v.isFin) || asBad
  { rows := (rs.filter fun r => !rskip.contains r).filter rowBad
    cols := (cs.filter fun c => !cskip.contains c).filter colBad
    skipped := rskip.length + cskip.length }

/-- One integer element through Table 3.9: its value before step 5 and whether it saturated; none where o is a NaN. -/
def intOutput (acc za arow : Int) (e : ReqEnt) (o : Option Nat) : Option (Int × Bool) :=
  let x := acc + e.c0 + za * e.c1 - e.zw * arow
  let sat := fun (v : Int) => some (satI32 v, decide (satI32 v ≠ v))
  match o with
  | none => sat x
  | some v => match f32 v with
    | .nan _ => none
    | .inf n => some (if n then -2147483648 else 2147483647, true)
    | .fin n m k => sat (x + Dy.rnd (Fl.dy (.fin n m k)))

/-- A tile with integer operands. -/
def intTile (x : TileIn) (us : List Upset) : TileOut :=
  let av := x.a.map fun r => r.map fun (e : Elem) => intOfRaw x.afmt e.raw
  let wv := x.w.map fun c => c.map fun (e : Elem) => intOfRaw x.wfmt e.raw
  let acc := av.zipIdx.map fun r => wv.zipIdx.map fun c =>
    flipInt ((List.zipWith (· * ·) r.1 c.1).sum : Int) (upsetAt us r.2 c.2)
  let elem := fun (r c : Nat) =>
    let e := x.ent.getD c (decodeReqEnt [] false)
    let s := x.scale.getD r (ScaleRec.ofBytes [], false)
    let za := if x.token then s.1.z else x.za
    let rec' := x.token && (s.1.poisonAll || s.2)
    let bad := rowPoison (x.a.getD r []) || rowPoison (x.w.getD c []) || e.poison || rec' || (e.token && !x.token)
    let o := (x.outl[r]?).map fun l => l.getD c 0
    let toInt32 := x.epilogue || decide (x.ofmt = 8)
    let rng := (intRange x.ofmt).getD (0, 0)
    let poisoned : Elem := { raw := if toInt32 then 0 else rawOfInt x.ofmt e.zout, poison := true }
    match intOutput ((acc.getD r []).getD c 0) za ((av.getD r []).sum) e o with
    | none => (poisoned, 0)
    | some (v, sat) =>
      let (m, sh) := if e.token then (s.1.m, s.1.sh) else (e.m, e.sh)
      (if bad then poisoned
       else if toInt32 then { raw := rawOfInt 8 v }
       else { raw := rawOfInt x.ofmt (requant v m sh rng.1 rng.2 e.zout) }, b2n sat)
  let grid := (List.range x.a.length).map fun r => (List.range x.w.length).map fun c => elem r c
  { out := grid.map fun r => r.map Prod.fst, sat := (grid.map fun r => (r.map Prod.snd).sum).sum
    chk := if x.checks then intChecks x us acc else {} }

/-- A tile with float operands: FP32 values, completed by the adapter and the outliers (R113, R102). -/
def floatTile (x : TileIn) (us : List Upset) : TileOut :=
  let bx := decide (x.pair = 7)
  let av := x.a.map fun r => r.map fun (e : Elem) => elemFl x.afmt e.raw
  let wv := x.w.map fun c => c.map fun (e : Elem) => elemFl x.wfmt e.raw
  let acc := av.zipIdx.map fun r => wv.zipIdx.map fun c =>
    flipF32 (accumulate bx (List.zipWith Fl.mul r.1 c.1)) (upsetAt us r.2 c.2)
  let bf := fun (l : List Elem) => l.map fun (e : Elem) => elemFl 6 e.raw
  let elem := fun (r c : Nat) =>
    let v := (acc.getD r []).getD c 0
    let v := if x.u = [] then v
      else oxAdd v (oxRound (chunkSum false (List.zipWith Fl.mul (bf (x.u.getD r [])) (bf (x.b.getD c [])))))
    let v := match x.outl[r]? with
      | some l => oxAdd v (l.getD c 0)
      | none => v
    let bad := rowPoison (x.a.getD r []) || rowPoison (x.w.getD c []) || rowPoison (x.u.getD r []) || rowPoison (x.b.getD c [])
    if bad then { raw := f32NaN, poison := true } else ({ raw := v } : Elem)
  { out := (List.range x.a.length).map fun r => (List.range x.w.length).map fun c => elem r c, sat := 0
    chk := if x.checks then floatChecks x us acc else {} }

def runTile (x : TileIn) (us : List Upset) : TileOut := if pairFloat x.pair then floatTile x us else intTile x us

/-- A check of the tile failed. -/
def ChkOut.failed (c : ChkOut) : Bool := decide (c.rows ≠ []) || decide (c.cols ≠ [])

/-- Location of a mismatch (R119): row, column, MULTI. -/
def ChkOut.loc (c : ChkOut) : Nat × Nat × Bool :=
  match c.rows, c.cols with
  | [r], [k] => (r, k, false)
  | _, _ => (255, 255, true)

end Sys2Proof.Machine
end

