-- ==== Sys2Proof/Machine/ImageCheck.lean ====
section
/-! DEFINITION. The checks of SCHED_LOAD (R199, Tables 7.12 and 7.21, R285, R333, R355) on the image as it was staged. -/

namespace Sys2Proof.Machine

/-- A refusal (Table 7.21). -/
structure Refuse where
  status : Nat
  detail : Nat
  sect : Nat
  index : Nat
deriving DecidableEq, Repr

def badArg (detail sect index : Nat) : Refuse := ⟨stBadArg, detail, sect, index⟩

/-- The first condition that holds, as a refusal. -/
def firstBad (sect index : Nat) (l : List (Nat × Bool)) : Option Refuse :=
  (l.find? fun e => e.2).map fun e => badArg e.1 sect index

/-- The first refusal of a list. -/
def firstRefuse (l : List (Option Refuse)) : Option Refuse := l.findSome? id

/-- The refusal of a list of (DETAIL, SECTION, INDEX) that stands lowest (R199, order 4). -/
def lowestRefuse (l : List (Nat × Nat × Nat)) : Option Refuse :=
  (l.foldl (fun (acc : Option (Nat × Nat × Nat)) e => match acc with
    | none => some e
    | some b =>
      if e.1 < b.1 ∨ e.1 = b.1 ∧ (e.2.1 < b.2.1 ∨ e.2.1 = b.2.1 ∧ e.2.2 < b.2.2) then some e else acc) none).map
    fun e => badArg e.1 e.2.1 e.2.2

/-! ### Header and section table (order 1) -/

/-- A section-table entry (Table 7.2). -/
structure SectEnt where
  typ : Nat
  lrow : Nat
  lstall : Nat
  len : Nat
  off : Nat
deriving DecidableEq, Repr

def sectTable (raw : Bytes) : List SectEnt :=
  (List.range (leAt raw 6 2)).map fun i =>
    let o := 64 + 16 * i
    { typ := leAt raw o 2, lrow := leAt raw (o + 2) 1, lstall := leAt raw (o + 3) 1, len := leAt raw (o + 4) 4, off := leAt raw (o + 8) 8 }

def sectPerStall (t : Nat) : Bool := t = 1 || t = 2 || t = 3
def sectPerImage (t : Nat) : Bool := (decide (5 ≤ t) && decide (t ≤ 9)) || t = 15

/-- Type, row and stall of an entry suit each other, and its content lies in the image behind the table. -/
def sectEntOk (raw : Bytes) (nl : Nat) (e : SectEnt) : Bool :=
  (if sectPerStall e.typ then decide (e.lrow < nl) && decide (e.lstall < 16)
   else if e.typ = 4 then decide (e.lrow < nl) && decide (e.lstall = 255)
   else sectPerImage e.typ && decide (e.lrow = 255) && decide (e.lstall = 255)) &&
  decide (e.off % 64 = 0) && decide (64 + 16 * leAt raw 6 2 ≤ e.off) && decide (e.off + e.len ≤ raw.length)

/-- Two sections share a byte. -/
def sectOverlap (a b : SectEnt) : Bool := decide (0 < a.len) && decide (0 < b.len) && decide (a.off < b.off + b.len) && decide (b.off < a.off + a.len)

def sectKey (e : SectEnt) : Nat × Nat × Nat := (e.typ, e.lrow, e.lstall)

/-- INDEX of a missing or surplus section (Table 7.21). -/
def sectIndex (k : Nat × Nat × Nat) : Nat := k.1 + k.2.1 * 65536 + k.2.2 * 16777216

def headerRefuse (raw : Bytes) : Option Refuse :=
  let w := fun o n => leAt raw o n
  ([(0, decide (raw.length < 64) || decide (w 0 4 ≠ 0x4C385349)), (4, decide (w 4 2 ≠ 1)),
    (6, !(decide (2 ≤ w 6 2) && decide (w 6 2 ≤ 1024) && decide (64 + 16 * w 6 2 ≤ raw.length))),
    (16, !(decide (1 ≤ w 16 1) && decide (w 16 1 ≤ 8))), (17, !(decide (1 ≤ w 17 1) && decide (w 17 1 ≤ 16))),
    (18, decide (w 18 2 ≠ 0)), (20, !(decide (1 ≤ w 20 4) && decide (w 20 4 ≤ 65536))), (24, decide (w 24 8 ≠ raw.length)),
    (32, decide (w 32 32 ≠ 0))].find? fun e => e.2).map fun e => badArg 1 0xFFFF e.1

def tableRefuse (raw : Bytes) : Option Refuse :=
  let es := sectTable raw
  let nl := leAt raw 16 1
  (firstIdx (fun e => !sectEntOk raw nl e.1 || (es.take e.2).any fun f => sectOverlap f e.1) es.zipIdx 0).map fun e =>
    badArg 1 e.1 0xFFFFFFFF

/-- Presence and number of sections: repeats and strays in table order, then those missing (log entry 28). -/
def presenceRefuse (raw : Bytes) : Option Refuse :=
  let es := (sectTable raw).map sectKey
  let steps := (es.filter fun k => k.1 = 1).map Prod.snd
  let stray := es.zipIdx.find? fun e =>
    (es.take e.2).contains e.1 || ((e.1.1 = 2 || e.1.1 = 3) && !steps.contains e.1.2)
  let rows := (List.range (leAt raw 16 1)).find? fun l => steps.all fun s => decide (s.1 ≠ l)
  let whole := [6, 7, 15].find? fun t => es.all fun k => decide (k.1 ≠ t)
  match stray, rows, whole with
  | some e, _, _ => some (badArg 1 0xFFFF (sectIndex e.1))
  | none, some l, _ => some (badArg 1 0xFFFF (sectIndex (1, l, 255)))
  | none, none, some t => some (badArg 1 0xFFFF (sectIndex (t, 255, 255)))
  | none, none, none => none

/-- The sections of an image whose table is sound. -/
def imageSections (raw : Bytes) : List Section :=
  (sectTable raw).map fun e => { typ := e.typ, lrow := e.lrow, lstall := e.lstall, data := slice raw e.off e.len }

/-! ### Signature and digests (order 2, R428) -/

/-- Signature and digests of a signed manifest: the object's header and table, the manifest, and the bodies whose
digests it holds (none for the manifest's own section). -/
def manifestSig (h : Hall) (purpose : Nat) (lead man : Bytes) (n : Nat) : Bool :=
  h.verifies purpose (lead ++ slice man 0 (64 + 64 * n)) (slice man (64 + 64 * n) 512)

def manifestForm (man : Bytes) (n : Nat) : Bool :=
  decide (man.length = 64 + 64 * n + 512) && decide (leAt man 0 4 = 0x4C384D46) && decide (leAt man 4 2 = 1) &&
  decide (leAt man 6 2 = n) && decide (leAt man 8 56 = 0)

def signatureRefuse (h : Hall) (raw : Bytes) (ss : List Section) : Option Refuse :=
  match firstIdx (fun (s : Section) => s.typ = 15) ss 0 with
  | none => some (badArg 1 0xFFFF (sectIndex (15, 255, 255)))
  | some (mi, m) =>
    if !manifestForm m.data ss.length then some (badArg 1 mi 0)
    else if !manifestSig h purposeImage (slice raw 0 (64 + 16 * ss.length)) m.data ss.length then some ⟨stVerifyFailed, 0, mi, 0⟩
    else (firstIdx (fun (e : Section × Nat) =>
        decide (slice m.data (64 + 64 * e.2) 64 ≠ (if e.2 = mi then List.replicate 64 0 else sha512 e.1.data))) ss.zipIdx 0).map
      fun e => ⟨stVerifyFailed, 0, e.1, 0⟩

/-! ### Step records (order 3) -/

/-- Content of STORE_INIT; the store is zero beyond it. -/
def Image.init (im : Image) (l s : Nat) : Bytes :=
  match im.sect 3 l s with
  | some x => x.data
  | none => []

/-- The operation list of a step, as STORE_INIT places it. -/
def stepOps (st : Step) (mem : Bytes) : List VuOp :=
  decodeOps (slice mem (if st.eng = 0 then st.epi else st.param) (8 * st.opsN))

def stepUsesU (st : Step) (ops : List VuOp) : Bool := decide (0 < st.rank) || ops.any fun o => opcReadsU o.opc

/-- Columns of a step's output before a reduction: Ox output columns, VU row length. -/
def stepCols (st : Step) : Nat := if st.eng = 0 then st.cols else st.k

/-- Fields that a record's engine does not use, as the numbers they hold (R184). -/
def unusedFields (st : Step) (ops : List VuOp) : List Nat :=
  let b := st.bytes
  let w := fun o n => leAt b o n
  let isf := pairFloat st.pair
  let except := fun (c : Bool) (v : Nat) => if c then 0 else v
  let deq := ops.any fun o => decide (o.opc = 1)
  let tok := opsPerToken ops
  let gain := except tok st.gain
  match st.eng with
  | 0 =>
    [except (!isf || deq) (b2n st.token), except (!isf) (w 18 2), except isf st.ftol, except (stepUsesU st ops) st.u.raw,
     except (!isf || (!st.direct && decide (st.pair ≠ 7))) (w 36 4), except (isf && !st.direct && decide (st.pair ≠ 7)) (w 40 4),
     except st.outlEn st.outl, except (decide (0 < st.rank)) (w 48 4), gain, except (decide (0 < st.opsN)) st.epi]
  | 1 =>
    [st.pair, b2n st.direct, b2n st.chk, st.ftol, st.wfmt, w 12 2, st.rank, w 18 2, st.w.raw, w 40 4, w 48 4, st.epi,
     except (tok && st.outlEn) st.outl, except tok (b2n st.outlEn), except (stepUsesU st ops) st.u.raw, except deq (b2n st.token), gain]
  | _ =>
    [st.pair, b2n st.direct, b2n st.chk, b2n st.token, w 2 2, w 10 4, w 14 3, st.rank, w 18 2, st.w.raw, st.u.raw, w 40 4, w 44 4, w 48 4,
     st.gain, w 56 4]

/-- Reserved bits of a record and of its operand fields. -/
def stepReserved (st : Step) : Bool :=
  let w := fun o n => leAt st.bytes o n
  let opnd := fun (v : Nat) (u : Bool) =>
    decide (bits v 31 28 ≠ 0) || bit v 7 || bit v 5 || (!u && decide (bits v 27 24 ≠ 0))
  decide (st.eng = 3) || decide (64 ≤ w 0 1) || bit (w 2 1) 3 || decide (2 ^ 24 ≤ w 4 4) || decide (bits (w 4 4) 23 3 ≥ 8 ^ st.altN) ||
  decide (bits (w 14 3) 23 20 ≠ 0) || bit (w 17 1) 7 || opnd st.a.raw false || opnd st.w.raw false || opnd st.u.raw true ||
  opnd st.o.raw false || st.o.keep || decide (2 ^ 22 ≤ w 36 4) || decide (2 ^ 22 ≤ w 40 4) || decide (bits (w 44 4) 30 22 ≠ 0) ||
  decide (2 ^ 22 ≤ w 48 4) || decide (2 ^ 26 ≤ w 56 4) || decide (w 62 2 ≠ 0)

/-- COUNT of the outlier table that a step names. -/
def outlCount (st : Step) (mem : Bytes) : Nat := if st.outlEn then leAt mem st.outl 2 else 0
def outlChannels (st : Step) (mem : Bytes) : List Nat :=
  (List.range (min 64 (outlCount st mem))).map fun i => leAt mem (st.outl + 8 + 2 * i) 2

/-- Width of a tile's data columns at load: with checksums unless the weights are direct and CHK is clear. -/
def loadCols (st : Step) : Nat := pairCols st.pair (st.chk || !st.direct)

/-- Beats of an Ox step (R108). -/
def oxBeats (st : Step) (count data : Nat) : Nat :=
  let tiles := ceilDiv st.rows (pairRows st.pair) * ceilDiv st.cols data
  tiles * tileBeats st.pair st.k data count st.rank + drainBeats st.pair

/-- Table of requantisation entries. -/
def reqEntries (st : Step) (mem : Bytes) : List ReqEnt := (List.range st.cols).map fun c => decodeReqEnt (slice mem (st.param + 16 * c) 16) false

def inIntRange (fmt : Nat) (v : Int) : Bool :=
  match intRange fmt with
  | some r => decide (r.1 ≤ v) && decide (v ≤ r.2)
  | none => true

def gainOk (g : Nat) : Bool := (f32 g).isFin && !(f32 g).isZero && !fF32.sign g

/-- Blocks of a block-mode step's stream. -/
def stepBlocks (st : Step) : Nat := ceilDiv (streamWeights st.wfmt st.cols st.k) 128

/-- A float weight stream has a stream map and a table pair (R506, R169). -/
def stepMapped (st : Step) : Bool := decide (st.eng = 0) && !st.direct && floatWeight st.wfmt

/-- Runs of classes of a block-mode step. -/
def stepRuns (st : Step) (mem : Bytes) : List (Nat × Nat) :=
  if stepMapped st then mapRuns (slice mem st.param 1040) else [(6, stepBlocks st)]

/-- Regions of the stall store that a step reads besides troughs: offset and length. -/
def stepRegions (st : Step) (ops : List VuOp) (mem : Bytes) : List (Nat × Nat) :=
  match st.eng with
  | 0 =>
    (if pairFloat st.pair then [] else [(st.param, 16 * st.cols)]) ++
    (if stepMapped st then [(st.param, 16 + 4 * min 256 (leAt mem st.param 2)), (st.table, 128)] else []) ++
    (if st.outlEn then [(st.outl, 8 + 2 * outlCount st mem)] else []) ++
    (if 0 < st.rank then [(st.adapt, 2 * st.rank * st.cols)] else []) ++ (if 0 < st.opsN then [(st.epi, 8 * st.opsN)] else [])
  | 1 => [(st.param, 8 * st.opsN)] ++ (if st.outlEn then [(st.outl, 8 + 2 * outlCount st mem)] else [])
  | _ => [(st.param, 64)] ++ (ops.filter fun _ => false).map fun _ => (0, 0)

/-- Tables of ADD_COL and MUL_COL. -/
def colRegions (st : Step) (ops : List VuOp) : List (Nat × Nat) :=
  (ops.filter fun o => opcReadsCol o.opc).map fun o => (o.imm % 2 ^ 22, 4 * stepCols st)

def regionOk (align : Bool) (r : Nat × Nat) : Bool := (!align || decide (r.1 % 64 = 0)) && decide (r.1 + r.2 ≤ 0x3F0000)

/-- Parameter block and phase table of a Hen step. -/
def stepHen (st : Step) (mem : Bytes) : HenParam × List (Nat × Nat) :=
  let p := decodeHen (slice mem st.param 64)
  (p, if p.op = 0x11 then phases (slice mem p.phOff (8 * min 8 p.p0)) (min 8 p.p0) else [])

/-- The checks of one record alone, in increasing DETAIL. -/
def stepChecks (st : Step) (mem : Bytes) : List (Nat × Bool) :=
  let ops := if st.eng = 2 then [] else stepOps st mem
  let isf := pairFloat st.pair
  let ox := decide (st.eng = 0)
  let vu := decide (st.eng = 1)
  let hen := stepHen st mem
  let ents := if ox && !isf then reqEntries st mem else []
  let tok := opsPerToken ops
  let chans := outlChannels st mem
  let usesU := stepUsesU st ops
  let outFmtOk := if 0 < st.opsN then true else if isf then (floatFmt st.ofmt).isSome else intFmt st.ofmt
  [(2, stepReserved st || (unusedFields st ops).any (fun v => decide (v ≠ 0)) || ops.any (fun o => decide (o.res ≠ 0)) ||
      ((List.range (if ox && !isf then st.cols else 0)).any fun c => bit (leAt mem (st.param + 16 * c + 4) 1) 7) ||
      (st.outlEn && decide (leAt mem (st.outl + 2) 6 ≠ 0)) || (decide (st.eng = 2) && hen.1.reserved) ||
      (stepMapped st && !mapReservedOk (slice mem st.param 1040))),
   (3, decide (crc16 (slice st.bytes 0 60) ≠ st.rcheck)),
   (4, ((ox || vu) && (fmtReserved st.afmt || fmtReserved st.ofmt || (usesU && fmtReserved st.u.ufmt))) ||
      (ox && (fmtReserved st.wfmt || !pairOk st.pair st.afmt st.wfmt || !outFmtOk || (decide (0 < st.rank) && (!isf || decide (st.u.ufmt ≠ 6)))))),
   (5, ox && (decide (64 < st.rank) || decide (64 < outlCount st mem) || decide (24800 < oxBeats st (outlCount st mem) (loadCols st)))),
   (6, decide (st.eng = 2) && !henOk hen.1 hen.2),
   (7, ((vu || decide (0 < st.opsN)) && !opsOk ops st.ofmt (ox && decide (0 < st.rank))) || (tok && decide (16384 < stepCols st))),
   (8, (tok && !gainOk st.gain) || (ox && !isf && !st.token && !inIntRange st.afmt st.za) ||
      (ents.any fun e => !inIntRange st.wfmt e.zw || (e.token && !st.token) ||
        (decide (st.opsN = 0) && decide (st.ofmt ≠ 8) && !inIntRange st.ofmt e.zout)) ||
      (ops.any fun o => (decide (o.opc = 0x30) && !inIntRange st.ofmt o.z) ||
        (decide (o.opc = 1) && !st.token && !inIntRange (if vu then st.afmt else if isf then 7 else 8) o.z))),
   (9, st.outlEn && (decide (64 < outlCount st mem) || chans.any (fun c => decide (st.k ≤ c)) ||
      (chans.zip (chans.drop 1)).any fun e => decide (e.2 ≤ e.1))),
   (10, (stepRegions st ops mem).any (fun r => !regionOk true r) || (colRegions st ops).any (fun r => !regionOk false r) ||
      (decide (st.eng = 2) && (henReads hen.1 ++ henWrites hen.1).any fun r => !regionOk true r)),
   (13, !decide st.alt.Nodup || st.alt.contains st.ctx),
   (24, stepMapped st && !mapOk (slice mem st.param 1040) st.wfmt (stepBlocks st))]

/-! ### Other records (order 3) -/

def troughChecks (b : Bytes) : List (Nat × Bool) :=
  let d := decodeTrough b
  let w := fun o n => leAt b o n
  [(2, decide (2 ^ 22 ≤ w 0 4) || decide (2 ^ 13 ≤ w 4 2) || decide (32 ≤ w 6 1) || decide (w 7 1 ≠ 0) || decide (2 ^ 13 ≤ w 8 2) ||
      decide (64 ≤ w 10 1) || decide (w 11 1 ≠ 0) || decide (w 14 2 ≠ 0)),
   (10, decide (d.base % 64 ≠ 0) || decide (0x3F0000 < d.base + d.slotLines * 64 * d.nslot)),
   (11, !(decide (3 ≤ d.nslot) && decide (d.nslot ≤ 16) && decide (1 ≤ d.slotLines) && decide (d.slotLines ≤ 4096) &&
      decide (d.scaleLines < d.slotLines) && decide (d.prod ≤ 4) && decide (d.cons ≤ 4)))]

/-- Ceiling of a pen's channels (R286). -/
def prioCeiling (pen : Nat) : Nat := if pen = 0 then 7 else 5

/-- A space allowed for a channel's kind and side (Table 11.2). -/
def spaceOk (hub source secure : Bool) (sp : Nat) : Bool :=
  match sp with
  | 0 | 2 => true
  | 1 | 3 => !hub
  | 4 | 7 => hub && source
  | 5 | 6 => hub && !source
  | 8 => secure
  | _ => false

def descChecks (b : Bytes) (hub : Bool) (pen : Nat) (secure : Bool) (nl n : Nat) : List (Nat × Bool) :=
  let d := decodeDesc b
  let w := fun o k => leAt b o k
  let sel := fun (sp s : Nat) => decide (s ≠ 0) && !(sp = 1 || sp = 2 || ((sp = 6 || sp = 7) && decide (s ≤ 3)))
  let row := fun (sp r : Nat) => decide (nl ≤ r) || (decide (r ≠ 0) && !(hub && decide (sp = 2)))
  [(18, decide (crc16 (slice b 0 60) ≠ d.dcheck) || decide (2 ^ 48 ≤ w 0 8) || decide (2 ^ 48 ≤ w 8 8) || decide (2 ^ 14 ≤ w 16 2) ||
      decide (32 ≤ w 50 1) || decide (32 ≤ w 51 1) || decide (8 ≤ w 52 1) || decide (8 ≤ w 53 1) || bit (w 56 1) 3 || bit (w 56 1) 7 ||
      decide (w 57 3 ≠ 0) || decide (w 62 2 ≠ 0) || !spaceOk hub true secure d.sspace || !spaceOk hub false secure d.dspace ||
      sel d.sspace d.ssel || sel d.dspace d.dsel || row d.sspace d.srow || row d.dspace d.drow ||
      decide (d.src % 4 ≠ 0) || decide (d.dst % 4 ≠ 0) || (d.ss ++ d.ds).any (fun v => decide (v % 4 ≠ 0)) ||
      decide (prioCeiling pen < d.prio) || (hub && d.tile)),
   (20, if d.last then decide (d.next ≠ 0xFFFF) else decide (n ≤ d.next))]

def entryChecks (b : Bytes) : List (Nat × Bool) :=
  let n := leAt b 16 2
  [(1, !(decide (1 ≤ n) && decide (n ≤ 4096))), (2, decide (16 ≤ leAt b 18 1) || decide (leAt b 19 13 ≠ 0))]

def groupChecks (b : Bytes) : List (Nat × Bool) :=
  [(14, !(decide (1 ≤ leAt b 2 2) && decide (leAt b 2 2 ≤ 256) && decide (1 ≤ leAt b 4 4) && decide (leAt b 4 4 ≤ 24800)))]

/-- A lot that the pen may read, at or above a generation (R333, R330). -/
def Hall.lotReadable (h : Hall) (pen id gen : Nat) : Bool :=
  match h.lotFor pen id with
  | some (_, l) => decide (l.state ≠ .installing) && decide (l.state ≠ .removing) && l.grants.contains pen && decide (gen ≤ l.gen) &&
      (decide (l.grants.length ≤ 1) || decide ((((h.stallsOf pen).map (· / 16)).dedup).length ≤ 2))
  | none => false

/-- An adapter of the pen at an MVA. -/
def Hall.adapterAt (h : Hall) (pen id mva : Nat) : Bool :=
  h.weights.adapters.any fun e => e.2.lotId = id && e.2.pen = pen && e.2.mva = mva && (h.pte pen mva).isSome

def lotrefChecks (h : Hall) (pen nl : Nat) (b : Bytes) : List (Nat × Bool) :=
  let w := fun o n => leAt b o n
  let k := w 0 1
  let res := match k with
    | 1 => decide (w 1 3 ≠ 0) || decide (w 12 4 ≠ 0)
    | 2 => decide (w 4 12 ≠ 0)
    | 3 => decide (w 2 2 ≠ 0) || decide (w 10 6 ≠ 0)
    | 4 => decide (w 12 4 ≠ 0)
    | 5 => decide (w 2 2 ≠ 0) || decide (w 12 4 ≠ 0)
    | 6 => decide (w 1 3 ≠ 0) || decide (w 12 4 ≠ 0)
    | _ => true
  [(2, res),
   (21, match k with
     | 1 => !h.lotReadable pen (w 4 4) (w 8 4)
     | 2 => decide (nl ≤ w 3 1)
     | 4 => decide (nl ≤ w 2 1) || decide (15 < w 3 1) || !regionOk true (w 8 4, 128)
     | 5 => decide (nl ≤ w 1 1) || decide (w 4 4 % 64 ≠ 0) || decide (w 8 4 = 0) || decide (2 ^ 25 < w 4 4 + w 8 4)
     | 6 => !h.adapterAt pen (w 4 4) (w 8 4 * 65536)
     | _ => false)]

/-- A grant entry within a lease of the pen, with the field rules of Table 14.6 (R355). -/
def grantChecks (h : Hall) (pen : Nat) (b : Bytes) : List (Nat × Bool) :=
  let port := leAt b 0 1
  let start := leAt b 4 2
  let len := leAt b 6 2
  let lid := leAt b 2 1
  let leased := (Tab.get {} h.ingress.ports port).leases.any fun (l : Lease) =>
    l.pen = pen && decide (l.lFirst ≤ lid) && decide (lid ≤ l.lLast) && decide (l.gFirst ≤ start) && decide (start + len - 1 ≤ l.gLast)
  [(2, decide (8 ≤ port) || decide (8 ≤ leAt b 1 1) || decide (128 ≤ lid) || decide (leAt b 3 1 ≠ 0) || decide (2048 ≤ start) ||
      decide (2048 ≤ len)),
   (22, !(decide (13 ≤ len) && decide (len ≤ 1968)) || !leased)]

/-- Refusals within one section. -/
def sectionRefuse (h : Hall) (pen : Nat) (im : Image) (nl nentry ngroup : Nat) (i : Nat) (s : Section) : Option Refuse :=
  let each := fun (w : Nat) (f : Bytes → List (Nat × Bool)) =>
    firstRefuse ((records w s.data).zipIdx.map fun e => firstBad i e.2 (f e.1))
  let whole := fun (w : Nat) => decide (s.data.length % w ≠ 0)
  match s.typ with
  | 1 =>
    if whole 64 then some (badArg 1 i 0xFFFFFFFF)
    else if s.data.length = 0 ∨ 65536 < s.data.length / 64 then some (badArg 17 i 0)
    else
      let mem := im.init s.lrow s.lstall
      each 64 fun b => stepChecks (decodeStep b) mem
  | 2 => if whole 16 || decide (512 < s.data.length) then some (badArg 1 i 0xFFFFFFFF) else each 16 troughChecks
  | 3 => if 0x3F0000 < s.data.length then some (badArg 10 i 0) else none
  | 4 => if whole 64 then some (badArg 1 i 0xFFFFFFFF) else each 64 fun b => descChecks b false pen (h.penSecure pen) nl (s.data.length / 64)
  | 5 => if whole 64 then some (badArg 1 i 0xFFFFFFFF) else each 64 fun b => descChecks b true pen (h.penSecure pen) nl (s.data.length / 64)
  | 6 => if s.data.length ≠ 8 * ngroup then some (badArg 1 i 0xFFFFFFFF) else each 8 groupChecks
  | 7 => if s.data.length ≠ 32 * nentry then some (badArg 1 i 0xFFFFFFFF) else each 32 entryChecks
  | 8 =>
    if s.data.length < 16 ∨ s.data.length ≠ 16 + 8 * leAt s.data 0 4 then some (badArg 1 i 0xFFFFFFFF)
    else if leAt s.data 4 12 ≠ 0 then some (badArg 2 i 0)
    else firstRefuse ((records 8 (s.data.drop 16)).zipIdx.map fun e => firstBad i e.2 (grantChecks h pen e.1))
  | 9 => if whole 16 then some (badArg 1 i 0xFFFFFFFF) else each 16 (lotrefChecks h pen nl)
  | _ => none

/-! ### Checks over several records (order 4) -/

/-- Index of a section. -/
def Image.sectNum (im : Image) (typ l s : Nat) : Nat :=
  match firstIdx (fun (x : Section) => x.typ = typ && x.lrow = l && x.lstall = s) im.sections 0 with
  | some (i, _) => i
  | none => 0xFFFF

def Image.stepsOf (im : Image) (l s : Nat) : List Step := (im.records 1 l s 64).map decodeStep
def Image.troughsOf (im : Image) (l s : Nat) : List TroughDesc := (im.records 2 l s 16).map decodeTrough
def Image.templates (im : Image) : List Bytes := im.records 7 255 255 32
def Image.intakes (im : Image) : List Nat := im.templates.map fun b => leAt b 4 2
def Image.exits (im : Image) : List Nat := im.templates.map fun b => leAt b 6 2

/-- The chains of a section reach LAST, and no descriptor lies in two of them (R285). -/
def chainFaults (ds : List Desc) : List Nat :=
  let heads := chainHeads ds
  let walks := heads.map fun i => chainOf ds i
  let ends := walks.filterMap fun c => match c.getLast? with
    | some i => if ((ds[i]?).map fun d => d.last) = some true then none else some i
    | none => none
  let all := walks.flatten
  let twice := (List.range ds.length).filter fun i => decide (1 < all.count i)
  let never := (List.range ds.length).filter fun i => !all.contains i
  ends ++ twice ++ never

/-- Head of the chain that a descriptor lies in. -/
def headOf (ds : List Desc) (i : Nat) : Nat := ((chainHeads ds).find? fun c => (chainOf ds c).contains i).getD i

/-- Steps of a stall with what they read from and write to. -/
structure StepAt where
  l : Nat
  s : Nat
  i : Nat
  st : Step
  ops : List VuOp
deriving DecidableEq, Repr

def Image.allSteps (im : Image) : List StepAt :=
  im.lstalls.flatMap fun ls =>
    let mem := im.init ls.1 ls.2
    (im.stepsOf ls.1 ls.2).zipIdx.map fun e =>
      { l := ls.1, s := ls.2, i := e.2, st := e.1, ops := if e.1.eng = 2 then [] else stepOps e.1 mem }

/-- The operands that a step must have, as (operand, whether it is the output). -/
def stepOpnds (x : StepAt) : List (Opnd × Bool) :=
  match x.st.eng with
  | 0 => [(x.st.a, false), (x.st.w, false), (x.st.o, true)] ++ (if stepUsesU x.st x.ops then [(x.st.u, false)] else [])
  | 1 => [(x.st.a, false), (x.st.o, true)] ++ (if stepUsesU x.st x.ops then [(x.st.u, false)] else [])
  | _ => (if x.st.a.slots = 0 then [] else [(x.st.a, false)]) ++ (if x.st.o.slots = 0 then [] else [(x.st.o, true)])

/-- Scale records of the slots of an operand fit their scale area (R190, R507). -/
def scaleFits (t : TroughDesc) (fmt rows slots : Nat) : Bool :=
  decide (16 * min rows (panelsPerSlot fmt rows slots * panelRows fmt) ≤ t.scaleLines * 64)

/-- Faults of one step against troughs and tables: DETAIL values. -/
def stepCross (im : Image) (x : StepAt) : List Nat :=
  let ts := im.troughsOf x.l x.s
  let mem := im.init x.l x.s
  let st := x.st
  let small := fun (o : Opnd) (fmt : Nat) => match ts[o.trough]? with
    | some t => decide (0 < o.slots) && !scaleFits t fmt st.rows o.slots
    | none => false
  let wrong := fun (o : Opnd × Bool) => match ts[o.1.trough]? with
    | some t => decide (o.1.slots = 0) || decide ((if o.2 then t.prod else t.cons) ≠ st.eng)
    | none => true
  let listed := im.tableRefs.any fun r => r.2.1 = x.l && r.2.2.1 = x.s && r.2.2.2.2 = st.table
  let pair := fun (k : Nat) => slotRecOk (slice mem (st.table + 64 * k) 64) st.wfmt
  let fits := match ts[st.w.trough]? with
    | some t =>
      let n := stepBlocks st
      let runs := stepRuns st mem
      decide (n = 0) || (decide ((blockPlace st.wfmt t.dataBytes runs (n - 1)).1 < st.w.slots) &&
        runs.all fun r => decide ((blockSize st.wfmt r.1).getD 0 ≤ t.dataBytes))
    | none => true
  (if (st.token && small st.a st.afmt) || (opsPerToken x.ops && small st.o st.ofmt) then [11] else []) ++
  (if (stepOpnds x).any wrong then [12] else []) ++
  (if stepMapped st && !listed && !(pair 0 && pair 1) then [23] else []) ++
  (if st.eng = 0 ∧ st.direct = false ∧ fits = false then [24] else [])

/-- Faults of one step against its stall's list: alternates, groups, intake (R189, R195, R204). -/
def listCross (im : Image) (xs : List StepAt) (x : StepAt) : List Nat :=
  let here := xs.filter fun y => y.l = x.l && y.s = x.s
  let ts := im.troughsOf x.l x.s
  let intake := (stepOpnds x).any fun o => !o.2 && match ts[o.1.trough]? with
    | some t => decide (t.prod = 4) && im.intakes.contains t.chain
    | none => false
  let later := here.any fun y => decide (x.i < y.i) && decide (y.st.group = x.st.group)
  let earlier := here.any fun y => decide (y.i < x.i) && decide (y.st.group = x.st.group)
  let known := im.groups.any fun g => g.group = x.st.group
  let otherRow := xs.any fun y => decide (y.st.group = x.st.group) && decide (y.l < x.l)
  (if x.st.alt.any fun c => here.all fun y => decide (y.st.ctx ≠ c) then [13] else []) ++
  (if !known || x.st.gend == later || otherRow then [14] else []) ++
  (if intake && earlier then [15] else [])

/-- Lines of a region. -/
def regionLines (r : Nat × Nat) : Nat := if r.2 = 0 then 0 else (r.1 + r.2 - 1) / 64 + 1 - r.1 / 64

/-- Undo and redo lines that a group can need (R207). -/
def Image.groupLines (im : Image) (xs : List StepAt) (g : Nat) : Nat × Nat :=
  let mine := xs.filter fun x => decide (x.st.group = g)
  let hen := (mine.map fun x =>
    if x.st.eng = 2 then (((henWrites (stepHen x.st (im.init x.l x.s)).1).map regionLines).sum : Nat) else 0).sum
  let fills := (mine.filter fun x => decide (x.st.o.slots ≠ 0)).map fun x => (x.l, x.s, x.st.o.trough)
  let lines := fun (d : Desc) =>
    let e := d.extent false
    let span := (e.2 / 64 - e.1 / 64 + 1).toNat
    min span (d.n0 * d.n1 * d.n2 * (d.run / 64 + 2))
  let moved := (List.range 8).flatMap fun l => (im.descs (some l)).filterMap fun d =>
    if d.sspace = 2 ∧ fills.contains (l, d.ssel, d.strough) = true then some (d.dspace, lines d) else none
  (hen + ((moved.filter fun m => m.1 = 1 || m.1 = 3).map Prod.snd).sum, ((moved.filter fun m => m.1 = 0).map Prod.snd).sum)

/-- Limit of a side's addresses in a space, where load can check it (R285): none in spaces 0 and 6 to 8. -/
def sideLimit (im : Image) (lrow : Option Nat) (head : Nat) (sp sel row tr : Nat) : Option Nat :=
  let l := lrow.getD row
  match sp with
  | 1 => some (if im.lstalls.contains (l, sel) then 0x3F0000 else 0)
  | 2 => some (match (im.troughsOf l sel)[tr]? with
    | some t => t.dataBytes
    | none => 0)
  | 3 => some (match im.rbuf l with
    | some r => r.2
    | none => 0)
  | 4 => (im.templates.filterMap fun b => if leAt b 4 2 = head then some (leAt b 8 4) else none).min?
  | 5 => (im.templates.filterMap fun b => if leAt b 6 2 = head then some (leAt b 12 4) else none).min?
  | _ => none

/-- Faults of one descriptor against the rest of the image. -/
def descCross (im : Image) (lrow : Option Nat) (ds : List Desc) (i : Nat) (d : Desc) : List Nat :=
  let head := headOf ds i
  let side := fun (source : Bool) =>
    let sp := if source then d.sspace else d.dspace
    let sel := if source then d.ssel else d.dsel
    let row := if source then d.srow else d.drow
    let tr := if source then d.strough else d.dtrough
    let e := d.extent source
    let role := (decide (sp = 4) && !im.intakes.contains head) || (decide (sp = 5) && !im.exits.contains head)
    let chain := decide (sp = 2) && match (im.troughsOf (lrow.getD row) sel)[tr]? with
      | some t => decide ((if source then t.cons else t.prod) ≠ (if lrow.isSome then 3 else 4)) || decide (t.chain ≠ head)
      | none => false
    let out := match sideLimit im lrow head sp sel row tr with
      | some n => decide (e.1 < 0) || decide ((n : Int) ≤ e.2)
      | none => false
    (if chain then [12] else []) ++ (if role then [18] else []) ++ (if out then [19] else [])
  side true ++ side false

/-- A write of the image to a region of a stall store or a row buffer, with the record that makes it. -/
structure ImgWrite where
  l : Nat
  s : Option Nat
  first : Int
  last : Int
  who : Nat × Nat
  head : Nat
deriving DecidableEq, Repr

/-- Writes of row chains to the stall store and the row buffer. -/
def Image.chainWrites (im : Image) : List ImgWrite :=
  (List.range 8).flatMap fun l =>
    let ds := im.descs (some l)
    ds.zipIdx.filterMap fun e =>
      if e.1.dspace = 1 ∨ e.1.dspace = 3 then
        let x := e.1.extent false
        some { l := l, s := if e.1.dspace = 1 then some e.1.dsel else none, first := x.1, last := x.2, who := (im.sectNum 4 l 255, e.2)
               head := headOf ds e.2 }
      else none

def overlap (a b : Int × Int) : Bool := decide (a.1 ≤ b.2) && decide (b.1 ≤ a.2)
def span (r : Nat × Nat) : Int × Int := ((r.1 : Int), (r.1 : Int) + r.2 - 1)
def laterOf (a b : Nat × Nat) : Nat × Nat := if a.1 < b.1 ∨ a.1 = b.1 ∧ a.2 < b.2 then b else a

/-- Region of a trough. -/
def troughSpan (t : TroughDesc) : Int × Int := span (t.base, t.slotLines * 64 * t.nslot)

/-- Descriptors that fill a trough. -/
def Image.fills (im : Image) (l s t : Nat) : List (Nat × Nat) :=
  let mine := fun (row : Option Nat) (sn : Nat) => (im.descs row).zipIdx.filterMap fun e =>
    if e.1.dspace = 2 ∧ e.1.dsel = s ∧ e.1.dtrough = t ∧ row.getD e.1.drow = l then some (sn, e.2) else none
  mine (some l) (im.sectNum 4 l 255) ++ mine none (im.sectNum 5 255 255)

/-- Overlapping writes (0x0010), each reported at the record examined last of those that make it: Hen regions (R152), two chains (R292), and writes into a table pair or a stream map. -/
def writeCross (im : Image) (xs : List StepAt) : List (Nat × Nat × Nat) :=
  let at' := fun (x : StepAt) => (im.sectNum 1 x.l x.s, x.i)
  let hens := xs.filter fun x => decide (x.st.eng = 2)
  let param := fun (x : StepAt) => (stepHen x.st (im.init x.l x.s)).1
  let own := hens.filterMap fun x =>
    let p := param x
    let ws := henWrites p
    let rs := henReads p
    let clash := (ws.any fun w => rs.any fun r => overlap (span w) (span r)) ||
      ws.zipIdx.any fun w => (ws.take w.2).any fun v => overlap (span w.1) (span v)
    if clash then some (at' x) else none
  let linked := fun (a b : StepAt) =>
    let ins := fun (y : StepAt) => ((stepOpnds y).filter fun o => !o.2).map fun o => o.1.trough
    let outs := fun (y : StepAt) => ((stepOpnds y).filter fun o => o.2).map fun o => o.1.trough
    (outs a).any (fun t => (ins b).contains t) || (outs b).any fun t => (ins a).contains t
  let via := fun (y : StepAt) (o : Opnd) => ((im.troughsOf y.l y.s)[o.trough]?).map fun t =>
    (troughSpan t, laterOf (at' y) (im.sectNum 2 y.l y.s, o.trough))
  let touched := fun (y : StepAt) =>
    ((stepRegions y.st y.ops (im.init y.l y.s) ++ colRegions y.st y.ops).map fun r => (span r, at' y)) ++
    (stepOpnds y).filterMap fun o => via y o.1
  let shared := hens.flatMap fun x => (xs.filter fun y => y.l = x.l && y.s = x.s && decide (y.st.eng ≠ 2) && !linked x y).flatMap fun y =>
    (touched y).filterMap fun r => if (henWrites (param x)).any fun w => overlap (span w) r.1 then some (laterOf (at' x) r.2) else none
  let cw := im.chainWrites
  let two := cw.zipIdx.flatMap fun e => (cw.take e.2).filterMap fun v =>
    if v.l = e.1.l ∧ v.s = e.1.s ∧ v.head ≠ e.1.head ∧ overlap (v.first, v.last) (e.1.first, e.1.last) = true then
      some (laterOf v.who e.1.who) else none
  let fixed := (xs.filter fun x => stepMapped x.st).flatMap fun x =>
    [(x, span (x.st.param, 16 + 4 * min 256 (leAt (im.init x.l x.s) x.st.param 2))), (x, span (x.st.table, 128))]
  let into := fixed.flatMap fun f =>
    (cw.filterMap fun w => if w.l = f.1.l ∧ w.s = some f.1.s ∧ overlap f.2 (w.first, w.last) = true then some (laterOf w.who (at' f.1)) else none) ++
    ((xs.filter fun y => y.l = f.1.l && y.s = f.1.s).flatMap fun y =>
      let ws := if y.st.eng = 2 then (henWrites (param y)).map fun w => (span w, at' y)
        else ((stepOpnds y).filter fun o => o.2).filterMap fun o => via y o.1
      ws.filterMap fun w => if overlap f.2 w.1 then some (laterOf w.2 (at' f.1)) else none) ++
    (((im.troughsOf f.1.l f.1.s).zipIdx.filter fun t => overlap f.2 (troughSpan t.1)).flatMap fun t =>
      (im.fills f.1.l f.1.s t.2).map fun w => laterOf (laterOf w (im.sectNum 2 f.1.l f.1.s, t.2)) (at' f.1))
  (own ++ shared ++ two ++ into).map fun e => (16, e.1, e.2)

/-- Faults of LOTREF records against each other, the image and the lots (R333). -/
def lotrefCross (h : Hall) (im : Image) (xs : List StepAt) : List (Nat × Nat × Nat) :=
  let rs := im.lotrefs
  let sect := im.sectNum 9 255 255
  let lotOf := fun (j i : Nat) => if i < j ∧ leAt (rs.getD i []) 0 1 = 1 then (h.lotFor im.pen (im.lotId i)).map Prod.snd else none
  let known := fun (g : Nat) => im.groups.any fun r => r.group = g
  let rowOf := fun (g : Nat) => (xs.find? fun x => decide (x.st.group = g)).map fun x => x.l
  rs.zipIdx.filterMap fun e =>
    let b := e.1
    let bad := match leAt b 0 1 with
      | 2 => match lotOf e.2 (leAt b 1 1) with
        | some l => decide (l.parts.length ≤ leAt b 2 1)
        | none => true
      | 3 => match lotOf e.2 (leAt b 1 1) with
        | some l => decide (l.layers.length ≤ leAt b 4 2) || !known (leAt b 6 2) || !known (leAt b 8 2) ||
            decide (leAt b 8 2 < leAt b 6 2) || decide (rowOf (leAt b 6 2) ≠ rowOf (leAt b 8 2))
        | none => true
      | 4 => match lotOf e.2 (leAt b 1 1) with
        | some l => decide (l.tensors.length ≤ leAt b 4 4) || !im.lstalls.contains (leAt b 2 1, leAt b 3 1)
        | none => true
      | 5 => (rs.take e.2).any fun r => leAt r 0 1 = 5 && leAt r 1 1 = leAt b 1 1
      | _ => false
    if bad then some (21, sect, e.2) else none

/-- Grant entries of an image: port, frame, LID, first grain, length. -/
def Image.grants (im : Image) : List (Nat × Nat × Nat × Nat × Nat) :=
  match im.sect 8 255 255 with
  | some s => (Machine.records 8 (s.data.drop 16)).map fun b => (leAt b 0 1, leAt b 1 1, leAt b 2 1, leAt b 4 2, leAt b 6 2)
  | none => []

def grantClash (a b : Nat × Nat × Nat × Nat × Nat) : Bool :=
  a.1 = b.1 && a.2.1 = b.2.1 && decide (a.2.2.2.1 < b.2.2.2.1 + b.2.2.2.2) && decide (b.2.2.2.1 < a.2.2.2.1 + a.2.2.2.2)

def grantCross (h : Hall) (im : Image) : List (Nat × Nat × Nat) :=
  let others := h.data.images.flatMap fun e => if e.2.pen = im.pen && e.2.loaded then e.2.grants else []
  let gs := im.grants
  gs.zipIdx.filterMap fun e =>
    if (gs.take e.2).any (grantClash e.1) || others.any (grantClash e.1) then some (22, im.sectNum 8 255 255, e.2) else none

/-- All checks of order 4. Names of chains are judged where every chain of the section is sound (log entry 28). -/
def crossRefuse (h : Hall) (im : Image) : Option Refuse :=
  let xs := im.allSteps
  let steps := xs.flatMap fun x => (stepCross im x ++ listCross im xs x).map fun d => (d, im.sectNum 1 x.l x.s, x.i)
  let gsect := im.sectNum 6 255 255
  let groups := im.groups.zipIdx.filterMap fun (e : GroupRec × Nat) =>
    let n := (xs.filter fun x => decide (x.st.group = e.1.group)).length
    let lines := im.groupLines xs e.1.group
    let before := (im.groups.take e.2).any fun g => decide (e.1.group ≤ g.group)
    if n ≠ e.1.nstep ∨ before = true ∨ 512 < lines.1 ∨ 512 < lines.2 then some (14, gsect, e.2) else none
  let sects := ((List.range 8).map some) ++ [none]
  let chains := sects.flatMap fun l =>
    let ds := im.descs l
    let sn := match l with
      | some r => im.sectNum 4 r 255
      | none => im.sectNum 5 255 255
    let broken := chainFaults ds
    (broken.map fun i => (20, sn, i)) ++
      (if broken = [] then ds.zipIdx.flatMap fun e => (descCross im l ds e.2 e.1).map fun d => (d, sn, e.2) else [])
  let names := fun (l : Option Nat) (c : Nat) => decide (chainFaults (im.descs l) ≠ []) || (chainHeads (im.descs l)).contains c
  let entries := im.templates.zipIdx.filterMap fun (e : Bytes × Nat) =>
    if names none (leAt e.1 4 2) && names none (leAt e.1 6 2) then none
    else some (20, im.sectNum 7 255 255, e.2)
  let troughs := im.lstalls.flatMap fun ls =>
    let ts := im.troughsOf ls.1 ls.2
    let sn := im.sectNum 2 ls.1 ls.2
    ts.zipIdx.flatMap fun e =>
      let named := fun (k : Nat) => if k = 3 then names (some ls.1) e.1.chain else if k = 4 then names none e.1.chain else true
      (if (ts.take e.2).any fun t => overlap (troughSpan t) (troughSpan e.1) then [(11, sn, e.2)] else []) ++
      (if named e.1.prod && named e.1.cons then [] else [(12, sn, e.2)])
  lowestRefuse (steps ++ groups ++ chains ++ entries ++ troughs ++ writeCross im xs ++ lotrefCross h im xs ++ grantCross h im)

/-- The image of staged bytes, sections and groups decoded. -/
def parseImage (pen : Nat) (raw : Bytes) : Image :=
  let ss := imageSections raw
  let groups := match ss.find? fun s => s.typ = 6 with
    | some s => (records 8 s.data).map fun b => { group := leAt b 0 2, nstep := leAt b 2 2, beats := leAt b 4 4 }
    | none => []
  { pen := pen, imageId := leAt raw 8 4, raw := raw, sections := ss, groups := groups, nEntry := leAt raw 17 1 }

/-- What SCHED_LOAD finds wrong with an image, in the order of R199; none where it is sound. -/
def imageRefuse (h : Hall) (pen : Nat) (raw : Bytes) : Option Refuse :=
  match headerRefuse raw with
  | some r => some r
  | none => match tableRefuse raw with
  | some r => some r
  | none => match presenceRefuse raw with
  | some r => some r
  | none =>
    let im := parseImage pen raw
    match signatureRefuse h raw im.sections with
    | some r => some r
    | none =>
      match firstRefuse (im.sections.zipIdx.map fun e =>
        sectionRefuse h pen im (leAt raw 16 1) (leAt raw 17 1) (leAt raw 20 4) e.2 e.1) with
      | some r => some r
      | none => crossRefuse h im

end Sys2Proof.Machine
end

