-- ==== Sys2Proof/Machine/Cose.lean ====
section
/-! DEFINITION. CBOR in core deterministic encoding (RFC 8949) and tagged COSE_Sign1 (RFC 9052), as far as the signed
records and reports use them (R248, R435). -/

namespace Sys2Proof.Machine

/-- Head of a data item: major type and argument in its shortest form. -/
def cborHead (major n : Nat) : Bytes :=
  if n < 24 then beBytes 1 (major * 32 + n)
  else if n < 2 ^ 8 then beBytes 1 (major * 32 + 24) ++ beBytes 1 n
  else if n < 2 ^ 16 then beBytes 1 (major * 32 + 25) ++ beBytes 2 n
  else if n < 2 ^ 32 then beBytes 1 (major * 32 + 26) ++ beBytes 4 n
  else beBytes 1 (major * 32 + 27) ++ beBytes 8 n

def cborUint (n : Nat) : Bytes := cborHead 0 n
def cborInt (n : Int) : Bytes := if 0 ≤ n then cborHead 0 n.toNat else cborHead 1 (-1 - n).toNat
def cborBstr (b : Bytes) : Bytes := cborHead 2 b.length ++ b
def cborTstr (s : String) : Bytes := cborHead 3 (ascii s).length ++ ascii s
def cborArr (l : List Bytes) : Bytes := cborHead 4 l.length ++ l.flatten
def cborUints (l : List Nat) : Bytes := cborArr (l.map cborUint)
def cborBool (b : Bool) : Bytes := beBytes 1 (if b then 0xF5 else 0xF4)

/-- A map with unsigned keys, given in ascending order. -/
def cborMap (l : List (Nat × Bytes)) : Bytes := cborHead 5 l.length ++ l.flatMap fun e => cborUint e.1 ++ e.2

/-- Protected header of R248: {1: −39 (PS512), 4: the first 16 bytes of MODULE}. -/
def coseProtected : Bytes := cborMap [(1, cborInt (-39)), (4, cborBstr (moduleId.take 16))]

/-- The bytes a COSE_Sign1 signature covers (RFC 9052, Sig_structure). -/
def coseToSign (payload : Bytes) : Bytes :=
  cborArr [cborTstr "Signature1", cborBstr coseProtected, cborBstr [], cborBstr payload]

/-- A tagged COSE_Sign1 structure, signed with the module identity key. -/
def Hall.coseSign (h : Hall) (payload : Bytes) : Bytes × Hall :=
  let s := h.sign (coseToSign payload)
  (cborHead 6 18 ++ cborArr [cborBstr coseProtected, cborMap [], cborBstr payload, cborBstr s.1], s.2)

end Sys2Proof.Machine
end

