-- ==== Sys2Proof/Machine/Goose.lean ====
section
/-! DEFINITION. The goose output stages (R459–R463, R470): commits of the two halves, HEALTH, ALARM, liveness. -/

namespace Sys2Proof.Machine

/-- A field of the shared output state, which both hubs show (R470). -/
def Hall.gooseSet (h : Hall) (f : Fld) (b : Bool) : Hall := (h.setB f 0 b).setB f 1 b
def Hall.gooseBump (h : Hall) (c : Ctr) : Hall := (h.bump c 0).bump c 1

/-- The last EVAL and VERDICT of a half (Table 19.12). -/
def Hall.gooseEval (h : Hall) (half : Hub) : Nat := h.getF .gooseLastEval (hubNum half)
def Hall.gooseVerdict (h : Hall) (half : Hub) : Nat := h.getF .gooseLastVerdict (hubNum half)

def Hall.gooseLive (h : Hall) : Hub → Bool
  | .a => h.flag .gooseStatusLiveA 0
  | .b => h.flag .gooseStatusLiveB 0
def Hall.setGooseLive (h : Hall) (half : Hub) (b : Bool) : Hall :=
  match half with
  | .a => h.gooseSet .gooseStatusLiveA b
  | .b => h.gooseSet .gooseStatusLiveB b
def Hall.gooseTick (h : Hall) : Hub → Option Nat
  | .a => h.avail.commitA
  | .b => h.avail.commitB

/-- STALE_MS, clamped to 1 to 1,000 (Table 19.10). -/
def Hall.staleMs (h : Hall) : Nat := min 1000 (max 1 (h.getF .gooseCfgStaleMs 0))

/-- A half has committed within STALE_MS of RTC time. -/
def Hall.gooseFresh (h : Hall) (half : Hub) : Bool :=
  match h.gooseTick half with
  | some t => decide ((h.getF .rtcCountTicks (hubNum half) - t) * 1000 ≤ h.staleMs * 32768)
  | none => false

/-- ALARM (R462): lit only while a half is live, every live half's masked verdict is zero and HEALTH is not stale. -/
def Hall.alarmLit (h : Hall) : Bool :=
  let clear := fun half => !h.gooseLive half || decide (Nat.land (h.gooseVerdict half) (h.getF .gooseCfgZones 0) = 0)
  (h.gooseLive .a || h.gooseLive .b) && clear .a && clear .b && !h.flag .gooseStatusStale 0

def Hall.showAlarm (h : Hall) : Hall := h.gooseSet .gooseStatusAlarm h.alarmLit

/-- RTC time has passed: a half that has not committed within STALE_MS is no longer live (R460). -/
def Hall.gooseAge (h : Hall) : Hall :=
  let one := fun (h : Hall) half => if h.gooseLive half && !h.gooseFresh half then h.setGooseLive half false else h
  (one (one h .a) .b).showAlarm

/-- EVAL `b` follows `a` by serial-number arithmetic over 32 bits (R376). -/
def follows (b a : Nat) : Bool :=
  let d := (b + 2 ^ 32 - a) % 2 ^ 32
  decide (1 ≤ d) && decide (d ≤ 2 ^ 31 - 1)

/-- HEALTH toggles on an EVAL that follows the last one that toggled it, or on the first (R460, R461). -/
def Hall.gooseToggle (h : Hall) (eval : Nat) : Hall :=
  if (match h.avail.lastToggle with
    | some t => follows eval t
    | none => true) then
    ({ h.gooseSet .gooseStatusHealth (!h.flag .gooseStatusHealth 0) with avail := { h.avail with lastToggle := some eval } }).gooseBump .gooseEvals
  else h

/-- GOOSE_DISAGREE: both halves have given a verdict for one EVAL, and the verdicts differ (R462). -/
def Hall.gooseCompare (h : Hall) (half : Hub) : Hall :=
  let e := h.gooseEval half
  if (h.gooseTick (otherHub half)).isSome && decide (h.gooseEval (otherHub half) = e) &&
      decide (h.gooseVerdict (otherHub half) ≠ h.gooseVerdict half) && decide (h.avail.disagreed ≠ some e) then
    { h with avail := { h.avail with disagreed := some e } }.gooseBump .gooseDisagree
  else h

/-- The output stages take the pair of a half. -/
def Hall.goosePut (h : Hall) (half : Hub) (eval verdict : Nat) : Hall :=
  let put := fun (h : Hall) (u : Nat) => h.setFs (2 * u + hubNum half) [(.gooseLastEval, eval), (.gooseLastVerdict, verdict)]
  let h := put (put h 0) 1
  let now := some (h.getF .rtcCountTicks (hubNum half))
  match half with
  | .a => { h with avail := { h.avail with commitA := now } }
  | .b => { h with avail := { h.avail with commitB := now } }

/-- GOOSE_COMMIT (R459–R462): the commit of an evaluation of P0's half. -/
def execGooseCommit (half : Hub) (eval verdict : BitVec 32) (s : State) : Host.Outcome State Fault Refusal :=
  s.run fun h =>
    if h.hubLost half || !h.penExists 0 then h
    else
      let lit := h.flag .gooseStatusAlarm 0
      let h := (((h.goosePut half eval.toNat verdict.toNat).setGooseLive half true).gooseToggle eval.toNat).gooseSet .gooseStatusStale false
      let h := (h.gooseCompare half).gooseAge
      if lit && !h.flag .gooseStatusAlarm 0 then h.gooseBump .gooseAlarms else h

/-- GOOSE_STALE_TIMEOUT (R460): neither half has committed within STALE_MS. -/
def execGooseStaleTimeout (s : State) : Host.Outcome State Fault Refusal :=
  s.run fun h =>
    if h.flag .gooseStatusStale 0 then h
    else
      let h := (h.gooseSet .gooseStatusHealth false).gooseSet .gooseStatusStale true
      (((h.setGooseLive .a false).setGooseLive .b false).showAlarm).gooseBump .gooseStale

/-- GOOSE_CLEAR.STATS (R470). -/
def execGooseClearStats (req : Requester) (hub : Hub) (s : State) : Host.Outcome State Fault Refusal :=
  s.board req fun h => h.clearCtrs (hubNum hub) [.gooseEvals, .gooseAlarms, .gooseDisagree, .gooseStale]

end Sys2Proof.Machine
end

