-- ==== Sys2Proof/Machine/Verdict.lean ====
section
/-! DEFINITION. The Tallies: steps that await settlement, votes and their verdicts (R228, R231–R236), check state of a stall
(R238–R241), failure signature records (R248–R250). -/

namespace Sys2Proof.Machine

/-! ### Management processors -/

def Hall.mp (h : Hall) : Hub → Mp
  | .a => h.avail.mpA
  | .b => h.avail.mpB
def Hall.updMp (h : Hall) (hub : Hub) (f : Mp → Mp) : Hall :=
  match hub with
  | .a => { h with avail.mpA := f h.avail.mpA }
  | .b => { h with avail.mpB := f h.avail.mpB }

def Hall.fwSlot (h : Hall) (n : Nat) : Option FwSlot := if n = 0 then h.trust.slot0 else h.trust.slot1

/-- FW_BUILD of the firmware that a hub's MP runs. -/
def Hall.fwBuildOf (h : Hall) (hub : Hub) : Nat := ((h.fwSlot (h.mp hub).slot).map fun s => s.build).getD 0

/-! ### Failure signature records (R248, R249) -/

def stallCbor (i : Nat) : Bytes := cborUints [i / 16, i % 16]

/-- An optional key of a map. -/
def optKey (k : Nat) : Option Bytes → List (Nat × Bytes)
  | some b => [(k, b)]
  | none => []

/-- The CBOR map of a record (Table 9.10). Digests are written least significant byte first, as every number of the
module's memory is (R8; log entry 32). -/
def SigRecord.cbor (r : SigRecord) : Bytes :=
  cborMap ([(1, cborUint 1), (2, cborBstr moduleId), (3, cborUint r.seq), (4, cborUints [hubNum r.hub, r.ticks]), (5, cborUint r.kind)] ++
    optKey 6 (r.prior.map cborUint) ++ [(7, cborUint r.pen)] ++ optKey 8 (r.image.map cborUint) ++
    optKey 9 (r.step.map fun s => cborUints [s.1, s.2.1, s.2.2.1, s.2.2.2.1, s.2.2.2.2]) ++
    [(10, cborUints [r.engine.1, r.engine.2]),
     (11, cborMap (optKey 1 (r.computing.map stallCbor) ++ optKey 2 (r.shadow.map stallCbor) ++ optKey 3 (r.referee.map stallCbor))),
     (12, cborMap (r.digests.map fun d => (d.1, cborBstr (leBytes 8 d.2))))] ++
    optKey 13 (r.oxLoc.map fun l => cborUints [l.1, l.2.1, l.2.2.1, b2n l.2.2.2]) ++
    [(14, cborArr [cborUint r.rail, cborInt (toSigned 8 r.tj)])] ++
    optKey 15 (r.pack.map fun p => cborUints [p.1, p.2.1, p.2.2]) ++
    [(16, cborUints [r.strikes, r.state]), (17, cborUint r.fw)])

def lastN {α : Type} (n : Nat) (l : List α) : List α := l.drop (l.length - n)

/-- Makes a record: stamped, signed, kept in T1 and in the system areas, sent to the management links, deposited as an
urgent record, and reported to its pen with the stall given (R234, R239, R248–R250, R500). -/
def Hall.addRecord (h : Hall) (row stall : Nat) (r : SigRecord) : Hall :=
  let hub := h.govHub
  let seq := h.checks.nextSeq
  let r := { r with seq := seq, hub := hub, ticks := h.getF .rtcCountTicks (hubNum hub), rail := h.getF .pwrRailActual row
                    tj := h.getF .pwrRailTj row, fw := h.fwBuildOf hub }
  let (signed, h) := h.coseSign r.cbor
  let r := { r with signed := signed }
  let h := { h with checks := { h.checks with
    records := lastN 4096 (h.checks.records ++ [r]), saved := lastN 256 (h.checks.saved ++ [r]), nextSeq := (seq + 1) % 2 ^ 32
    savedTotals := h.checks.totals } }
  let h := (h.urgent .tallyVerdict row r.kind).mgmtRecord signed
  if r.pen = 255 then h
  else h.postPen r.pen 0x0501 (leBytes 1 r.kind ++ leBytes 4 seq ++ leBytes 1 (stall / 16) ++ leBytes 1 (stall % 16))

/-- Latches TALLY_LAST_VERDICT (Table 9.16). -/
def Hall.latchVerdict (h : Hall) (row kind stall : Nat) (shadow referee : Option Nat) (ctx idx group : Nat) : Hall :=
  let s := shadow.getD 0
  let t := referee.getD 0
  h.setFs row [(.tallyLastVerdictValid, 1), (.tallyLastVerdictKind, kind), (.tallyLastVerdictStall, stall % 16),
    (.tallyLastVerdictShRow, s / 16), (.tallyLastVerdictShStall, s % 16), (.tallyLastVerdictRefRow, t / 16),
    (.tallyLastVerdictRefStall, t % 16), (.tallyLastVerdictCtx, ctx), (.tallyLastVerdictStep, idx % 65536), (.tallyLastVerdictGroup, group)]

/-! ### Settlement -/

def tallyCounters : List Ctr :=
  [.tallyChecks, .tallyShadowed, .tallyShadowSkip, .tallyMismatch, .tallyVotesRun, .tallyNoReferee, .tallyTestsRun, .tallyTestsFailed,
   .tallyTestsLate]
def tallyLastFields : List Fld :=
  [.tallyLastVerdictValid, .tallyLastVerdictKind, .tallyLastVerdictStall, .tallyLastVerdictShRow, .tallyLastVerdictShStall,
   .tallyLastVerdictRefRow, .tallyLastVerdictRefStall, .tallyLastVerdictCtx, .tallyLastVerdictStep, .tallyLastVerdictGroup]

/-- The RW fields of TALLY_STALL_s from a written value (Table 9.18). -/
def Hall.writeTallyStall (h : Hall) (i v : Nat) : Hall :=
  h.setFs i [(.tallyStallState, bits v 63 61), (.tallyStallRole, bits v 60 58), (.tallyStallStrikes, bits v 57 56),
    (.tallyStallFOvr, bits v 54 52)]

/-- Switchboard writes take effect at the Tally's next settlement (R253). -/
def Hall.tallyApply (h : Hall) (row : Nat) : Hall :=
  let t := h.tally row
  let h := if t.clearLast then h.clearFs row tallyLastFields else h
  let h := if t.clearStats then h.clearCtrs row tallyCounters else h
  let h := if t.goDue then h.setF .tallyStatusSelftest row 1 else h
  let h := t.stallDue.foldl (fun h e => h.writeTallyStall e.1 e.2) h
  h.updTally row fun t => { t with clearLast := false, clearStats := false, goDue := false, stallDue := [] }

def Hall.selftest (h : Hall) (row : Nat) : Bool := h.flag .tallyStatusSelftest row

def Hall.item (h : Hall) (row id : Nat) : Option CheckItem := (h.tally row).items.find? fun (c : CheckItem) => c.id = id
def Hall.updItem (h : Hall) (row id : Nat) (f : CheckItem → CheckItem) : Hall :=
  h.updTally row fun t => { t with items := t.items.map fun (c : CheckItem) => if c.id = id then f c else c }
def Hall.dropItem (h : Hall) (row id : Nat) : Hall :=
  h.updTally row fun t => { t with items := t.items.filter fun (c : CheckItem) => decide (c.id ≠ id) }

/-- TALLY_CHECKS counts a settled step with checksums in force or a completed shadow run, once (Table 9.15). -/
def Hall.countCheck (h : Hall) (c : CheckItem) : Hall :=
  if c.oxChecked || c.shadowDigest.isSome then h.bump .tallyChecks c.key.row else h

/-- A step settles with every check passed. -/
def Hall.settlePassed (h : Hall) (c : CheckItem) : Hall := ((h.tallyApply c.key.row).countCheck c).dropItem c.key.row c.id

/-! ### Check state of a stall (Table 9.6) -/

/-- Changes the elapsed ticks of a stall. -/
def Hall.updTotals (h : Hall) (i : Nat) (f : StallTotals → StallTotals) : Hall :=
  let t : StallTotals := Tab.get {} h.checks.totals i
  { h with checks.totals := Tab.set h.checks.totals i (f t) }

/-- Shadow stalls follow f_eff (R227). -/
def Hall.stallRedesignate (h : Hall) (i : Nat) : Hall := if h.stallPen i < 32 then h.redesignate (h.stallPen i) else h

/-- A transient verdict. -/
def Hall.strike (h : Hall) (i : Nat) : Hall :=
  match h.getF .tallyStallState i with
  | 0 =>
    let h := h.setFs i [(.tallyStallState, 1), (.tallyStallStrikes, 1), (.tallyStallFOvr, 7)]
    (h.updTotals i fun x => { x with observed := 0 }).stallRedesignate i
  | 1 => h.setFs i [(.tallyStallState, 2), (.tallyStallStrikes, 2)]
  | _ => h

/-- A permanent verdict: the stall is RETIRED, and STALL_RETIRE replaces it. -/
def Hall.condemn (h : Hall) (i : Nat) : Hall := h.setF .tallyStallState i 2

/-- STRIKES and state of a stall for a record. -/
def Hall.withState (h : Hall) (i : Nat) (r : SigRecord) : SigRecord :=
  { r with strikes := h.getF .tallyStallStrikes i, state := h.getF .tallyStallState i }

/-- Tests of the installed pack. -/
def Pack.ntest (p : Pack) : Nat := leAt p.raw 6 2

/-- A full pack run falls due (R244); with no pack installed there is no test to run. -/
def Hall.packDue (h : Hall) (i : Nat) : Hall :=
  match h.checks.pack with
  | none => h
  | some p =>
    if (h.stall i).packRun.isSome || h.stallRetired i then h
    else
      let h := (h.updStall i fun x => { x with packRun := some (List.range p.ntest), packStart := 0, packFailed := false }).setF
        .tallyStallTestDue i 1
      h.updTotals i fun x => { x with packAge := 0 }

/-- A KIND 5 verdict on a row (R240). -/
def Hall.rowSuspect (h : Hall) (row : Nat) : Hall :=
  let h := (List.range 16).foldl (fun h s =>
    let i := 16 * row + s
    if h.stallRetired i then h else ((h.setF .tallyStallFOvr i 7).packDue i).stallRedesignate i) h
  let h := h.updTally row fun t => { t with watch := true, rowFault := t.rowFault || t.watch }
  { h with checks.watchTicks := Tab.set h.checks.watchTicks row 0 }

/-! ### Places and candidates (R228, R231, R508) -/

/-- A place on a shadow stall (R228): the lowest shadow stall of the pen in another row whose place for the context is free. -/
def Hall.shadowPlace (h : Hall) (pen row stall ctx : Nat) : Option Nat :=
  (h.shadowsOf pen).find? fun s => decide (s / 16 ≠ row) && decide (s / 16 ≠ stall / 16) && !h.stallRetired s &&
    !((List.range 8).any fun r => (h.tally r).items.any fun (c : CheckItem) =>
      c.shadow = some s && c.phase = .shadowRun && c.ctx = ctx)

/-- Referee candidates (R231): spares marked referee, then shadow stalls of the pen, in a third row. -/
def Hall.refereeRows (h : Hall) (pen : Nat) (out : List Nat) : List Nat :=
  ((List.range 128).filter fun i => h.getF .tallyStallRole i = 3 && !h.stallRetired i && !out.contains (i / 16)) ++
  (h.shadowsOf pen).filter fun i => !h.stallRetired i && !out.contains (i / 16)

/-- Candidates for an item: neither in the computing row (its Ledger's and its stall's) nor in the shadow's. -/
def Hall.candidates (h : Hall) (c : CheckItem) : List Nat :=
  h.refereeRows c.pen ([c.key.row, c.stall / 16] ++ (c.shadow.map (· / 16)).toList)

/-- A candidate that no other vote occupies, and for a shadow stall one whose place for the context is free. -/
def Hall.refereeFree (h : Hall) (c : CheckItem) (i : Nat) : Bool :=
  !((List.range 8).any fun r => (h.tally r).items.any fun (d : CheckItem) =>
    (d.referee = some i && (d.phase = .copying || d.phase = .refereeRun)) ||
    (d.shadow = some i && d.phase = .shadowRun && d.ctx = c.ctx))

/-! ### Verdicts (R232, R233, R236) -/

/-- The instance of a vote aborts by cause 1. Where an earlier vote of the same instance has aborted it already (Table
9.5), it aborts again only if the replay has started the step. -/
def Hall.voteAbort (h : Hall) (c : CheckItem) : Hall :=
  match h.findRun c.key with
  | none => h
  | some r =>
    if r.epoch = c.epoch || r.startedSteps.contains (c.stall, c.idx) then h.abortRun c.key 1 else h

/-- The step runs poisoned in the replay (R233). -/
def Hall.poisonStep (h : Hall) (c : CheckItem) : Hall :=
  h.updRun c.key fun r => { r with poisonSteps := (c.stall, c.idx) :: r.poisonSteps }

/-- The record of an item, before its kind's own keys. -/
def Hall.itemRecord (h : Hall) (c : CheckItem) (kind : Nat) : SigRecord :=
  { seq := 0, hub := .a, ticks := 0, kind := kind, pen := c.pen, image := (h.runImage c.key).map fun im => im.imageId
    step := some (c.idx, c.ctx, c.key.group, c.key.pass, c.epoch % 256), engine := (c.engine, c.pair) }

/-- The end of a vote with its kind and the referee's digest (Table 9.3, order 5 of Table 9.4). -/
def Hall.verdict (h : Hall) (c : CheckItem) (kind : Nat) (t : Option Nat) : Hall :=
  let row := c.key.row
  let seq := h.checks.nextSeq
  let h := ((h.tallyApply row).countCheck c).latchVerdict row kind c.stall c.shadow c.referee c.ctx c.idx c.key.group
  let digests := [(1, c.digest)] ++ (c.shadowDigest.map fun d => (2, d)).toList ++ (t.map fun d => (3, d)).toList
  let suspect := if kind = 2 then c.shadow.getD c.stall else c.stall
  let h := h.addRecord row c.stall (h.withState suspect
    { h.itemRecord c kind with computing := some c.stall, shadow := c.shadow, referee := c.referee, digests := digests
                               oxLoc := if c.mismatch then c.loc else none })
  let repeatOf := fun (h : Hall) (answer : Nat) => h.updTally row fun x =>
    { x with nextId := x.nextId + 1
             repeats := x.repeats ++ [{ id := x.nextId, key := c.key, stall := c.stall, idx := c.idx, answer := answer, prior := seq, item := c }] }
  match kind with
  | 1 => ((repeatOf h (c.shadowDigest.getD 0)).dropItem row c.id).voteAbort c
  | 3 => ((repeatOf h (t.getD 0)).dropItem row c.id).voteAbort c
  | 5 => ((((h.dropItem row c.id).poisonStep c).voteAbort c).rowSuspect row).setF .tallyStatusSelftest row 1
  | 6 => (((h.bump .tallyNoReferee row).dropItem row c.id).poisonStep c).voteAbort c
  | _ => (h.updItem row c.id fun c => { c with phase := .repeating, verdict := some (kind, c.digest, seq) }).setF .tallyStatusSelftest row 1

/-- Votes for which no candidate exists end with KIND 6 (R231), unless the self-test runs. -/
def Hall.noReferee (h : Hall) (row : Nat) : Hall :=
  ((h.tally row).items.map fun (c : CheckItem) => c.id).foldl (fun h id => match h.item row id with
    | some c => if c.phase = .waitReferee && !h.selftest row && (h.candidates c).isEmpty then h.verdict c 6 none else h
    | none => h) h

/-- A disagreement on an item becomes known (R231). -/
def Hall.disagree (h : Hall) (row id : Nat) : Hall :=
  ((h.bump .tallyMismatch row).updItem row id fun c => { c with phase := .waitReferee }).noReferee row

def Hall.markShadowed (h : Hall) (token : Nat) : Hall := h.updReq token fun q => { q with shadowed := true }

/-- A step's checks come to the Tally (R225–R228): the settlement of one that passed, or an item that awaits it. -/
def Hall.submitCheck (h : Hall) (c : CheckItem) (forced : Bool) : Hall :=
  let row := c.key.row
  let id := (h.tally row).nextId
  let add := fun (h : Hall) (c : CheckItem) => h.updTally row fun t => { t with items := t.items ++ [{ c with id := id }], nextId := id + 1 }
  let unshadowed := fun (h : Hall) =>
    if c.mismatch then (add h { c with shadowWanted := false }).disagree row id
    else if !c.oxChecked then h
    else if h.selftest row then add h { c with phase := .settling }
    else (h.tallyApply row).bump .tallyChecks row
  if !c.shadowWanted then unshadowed h
  else match h.shadowPlace c.pen row c.stall c.ctx with
    | some s => add (h.markShadowed c.token) { c with phase := .shadowRun, shadow := some s }
    | none => if forced then add h { c with phase := .waitPlace } else unshadowed (h.bump .tallyShadowSkip row)

/-! ### Commands of a row's Tally -/

/-- SHADOW_RUN_END (R230): `fault` is what an upset of the shadow stall changes in the digest. An item that waits for a place
takes one first (R228). -/
def execShadowRunEnd (row : Fin 8) (id : Nat) (fault : BitVec 64) (s : State) : Host.Outcome State Fault Refusal :=
  s.run fun h => match h.item row.val id with
    | none => h
    | some c =>
      let place := if c.phase = .waitPlace then h.shadowPlace c.pen row.val c.stall c.ctx
        else if c.phase = .shadowRun then c.shadow else none
      match place with
      | none => h
      | some s =>
        if h.selftest row.val then h
        else
          let d := c.clean ^^^ fault.toNat
          let h := (h.markShadowed c.token).bump .tallyShadowed row.val
          let c := { c with shadow := some s, shadowDigest := some d }
          let h := h.updItem row.val id fun _ => c
          if d = c.digest ∧ c.mismatch = false then h.settlePassed c else h.disagree row.val id

/-- VOTE_START (R231, R508): the first candidate that is free becomes the referee, and the copy to it starts. -/
def execVoteStart (row : Fin 8) (id : Nat) (s : State) : Host.Outcome State Fault Refusal :=
  s.run fun h => match h.item row.val id with
    | none => h
    | some c =>
      if c.phase ≠ .waitReferee ∨ h.selftest row.val = true then h
      else match (h.candidates c).find? (h.refereeFree c) with
      | some i => h.updItem row.val id fun c => { c with phase := .copying, referee := some i }
      | none => h

/-- VOTE_COPY_DONE (Table 9.4, order 3). -/
def execVoteCopyDone (row : Fin 8) (id : Nat) (s : State) : Host.Outcome State Fault Refusal :=
  s.run fun h => h.updItem row.val id fun c => if c.phase = .copying then { c with phase := .refereeRun } else c

/-- KIND of a vote by Table 9.3: the digests of O, S and T, whether T's own checks failed. -/
def voteKind (c : CheckItem) (t : Nat) (checksFailed : Bool) : Nat :=
  match c.shadowDigest with
  | some d =>
    if d ≠ c.digest then if t = c.digest then 2 else if t = d then 1 else 5
    else if checksFailed then 5 else if t = c.digest then 4 else 3
  | none => if checksFailed then 5 else if t = c.digest then 4 else 3

/-- REFEREE_END (R232): T is the step's result on the held inputs, changed by `fault`; `checkFailed` says that a fault made
T's own checksums fail. The referee's store is cleared where it is a spare (R231). -/
def execRefereeEnd (row : Fin 8) (id : Nat) (fault : BitVec 64) (checkFailed : Bool) (s : State) : Host.Outcome State Fault Refusal :=
  s.run fun h => match h.item row.val id with
    | none => h
    | some c => match c.referee with
      | none => h
      | some i =>
        if c.phase ≠ .refereeRun ∨ h.selftest row.val = true then h
        else
          let t := c.clean ^^^ fault.toNat
          let bad := decide (c.engine = 0) && (checkFailed || c.cleanMismatch)
          let h := h.bump .tallyVotesRun row.val
          let h := if h.getF .tallyStallRole i = 3 then h.zero (storeBase i) 0x400000 else h
          h.verdict c (voteKind c t bad) (some t)

/-- Records the outcome of a repeat: KIND 7 or 8, and Table 9.6 for the suspect. -/
def Hall.repeatVerdict (h : Hall) (c : CheckItem) (suspect prior digest : Nat) (correct : Bool) : Hall :=
  let kind := if correct then 7 else 8
  let row := c.key.row
  let h := (h.tallyApply row).latchVerdict row kind c.stall c.shadow c.referee c.ctx c.idx c.key.group
  let h := if correct then h.strike suspect else h.condemn suspect
  let r := { h.itemRecord c kind with prior := some prior, digests := [(4, digest)] }
  let r := if suspect = c.stall then { r with computing := some suspect } else { r with shadow := some suspect }
  h.addRecord row suspect (h.withState suspect r)

/-- REPEAT_END (R236): the replay's run of the step where the computing stall is the suspect, a further run on the suspect
otherwise, whose digest `fault` changes. -/
def execRepeatEnd (row : Fin 8) (id : Nat) (fault : BitVec 64) (s : State) : Host.Outcome State Fault Refusal :=
  s.run fun h =>
    if h.selftest row.val then h
    else match (h.tally row.val).repeats.find? fun (r : RepeatItem) => r.id = id with
    | some r => match r.got with
      | none => h
      | some (d, bad) =>
        let h := h.updTally row.val fun t => { t with repeats := t.repeats.filter fun (x : RepeatItem) => decide (x.id ≠ id) }
        h.repeatVerdict r.item r.stall r.prior d (decide (d = r.answer) && !bad)
    | none => match h.item row.val id with
      | none => h
      | some c => match c.phase, c.verdict with
        | .repeating, some (kind, answer, prior) =>
          let d := c.clean ^^^ fault.toNat
          let suspect := if kind = 2 then c.shadow.getD c.stall else c.stall
          (h.dropItem row.val id).repeatVerdict c suspect prior d (decide (d = answer) && !(c.oxChecked && c.cleanMismatch))
        | _, _ => h

/-- SELFTEST_END (R241): FAILED is latched; a failure is a KIND 11 record and a row fault. What waited goes on (Table 9.5). -/
def execSelftestEnd (row : Fin 8) (failed : Bool) (s : State) : Host.Outcome State Fault Refusal :=
  s.run fun h =>
    let r := row.val
    if !h.selftest r then h
    else
      let h := (h.setF .tallyStatusSelftest r 0).setB .tallyStatusFailed r failed
      let h := if failed then
          ((h.latchVerdict r 11 0 none none 0 0 0).addRecord r (16 * r)
            { seq := 0, hub := .a, ticks := 0, kind := 11, pen := 255 }).updTally r fun t => { t with rowFault := true }
        else h
      let h := ((h.tally r).items.filter fun (c : CheckItem) => c.phase = .settling).foldl (fun h c => h.settlePassed c) h
      h.noReferee r

/-- TALLY_SELFTEST.GO (R241, R253). -/
def execTallySelftestGo (req : Requester) (row : Fin 8) (s : State) : Host.Outcome State Fault Refusal :=
  s.board req fun h => h.updTally row.val fun t => { t with goDue := true }

/-- TALLY_CLEAR (R253). -/
def execTallyClearLast (req : Requester) (row : Fin 8) (s : State) : Host.Outcome State Fault Refusal :=
  s.board req fun h => h.updTally row.val fun t => { t with clearLast := true }
def execTallyClearStats (req : Requester) (row : Fin 8) (s : State) : Host.Outcome State Fault Refusal :=
  s.board req fun h => h.updTally row.val fun t => { t with clearStats := true }

/-- LEDGER_CLEAR (R223). -/
def execLedgerClearLast (req : Requester) (row : Fin 8) (s : State) : Host.Outcome State Fault Refusal :=
  s.board req fun h => h.updLedger row.val fun l => { l with clearLast := true }
def execLedgerClearStats (req : Requester) (row : Fin 8) (s : State) : Host.Outcome State Fault Refusal :=
  s.board req fun h => h.updLedger row.val fun l => { l with clearStats := true }

/-! ### Elapsed ticks (R239) -/

/-- RTC ticks of 24 hours and of one hour (32,768 per second). -/
def dayTicks : Nat := 24 * 3600 * 32768
def hourTicks : Nat := 3600 * 32768

/-- TICK_TOTALS_ADD: ticks of the RTC pass; the governing MP adds them to the running totals, and the standby MP takes a copy. -/
def execTickTotalsAdd (ticks : Nat) (s : State) : Host.Outcome State Fault Refusal :=
  s.run fun h =>
    let h := ([0, 1].foldl (fun h u => h.setF .rtcCountTicks u (h.getF .rtcCountTicks u + ticks)) h).gooseAge
    if h.governing.isNone then h
    else
      let h := (List.range 128).foldl (fun h i =>
        if h.stallRetired i then h
        else
          let seen := if h.getF .tallyStallState i = 1 then ticks else 0
          h.updTotals i fun x => { observed := x.observed + seen, packAge := x.packAge + ticks }) h
      let h := (List.range 8).foldl (fun h r =>
        let n := if (h.tally r).watch then Tab.get 0 h.checks.watchTicks r + ticks else Tab.get 0 h.checks.watchTicks r
        { h with checks.watchTicks := if n = 0 then Tab.erase h.checks.watchTicks r else Tab.set h.checks.watchTicks r n }) h
      if (h.mp (otherHub h.govHub)).state = .ready then { h with checks.standbyTotals := h.checks.totals } else h

/-- TICK_TOTALS_SAVE. -/
def execTickTotalsSave (s : State) : Host.Outcome State Fault Refusal :=
  s.run fun h => if h.governing.isNone then h else { h with checks.savedTotals := h.checks.totals }

/-- OBSERVATION_CLEAR (Table 9.6): 24 h since the last strike, and the last full pack run passed. In a row under the watch of
R240 the override stays. -/
def execObservationClear (row : Fin 8) (stall : Fin 16) (s : State) : Host.Outcome State Fault Refusal :=
  s.run fun h =>
    let i := 16 * row.val + stall.val
    if h.getF .tallyStallState i = 1 ∧ dayTicks ≤ (Tab.get {} h.checks.totals i).observed ∧ (h.stall i).lastPackPassed = true then
      let h := h.setFs i [(.tallyStallState, 0), (.tallyStallStrikes, 0), (.tallyStallFOvr, if (h.tally row.val).watch then 7 else 0)]
      let h := (h.latchVerdict row.val 10 i none none 0 0 0).stallRedesignate i
      h.addRecord row.val i (h.withState i { seq := 0, hub := .a, ticks := 0, kind := 10, pen := 255, computing := some i })
    else h

/-- ROW_WATCH_EXPIRE (R240): the override ends, but for stalls under observation. -/
def execRowWatchExpire (row : Fin 8) (s : State) : Host.Outcome State Fault Refusal :=
  s.run fun h =>
    if (h.tally row.val).watch ∧ dayTicks ≤ Tab.get 0 h.checks.watchTicks row.val then
      let h := (h.updTally row.val fun t => { t with watch := false })
      (List.range 16).foldl (fun h s =>
        let i := 16 * row.val + s
        if h.getF .tallyStallState i = 0 then (h.setF .tallyStallFOvr i 0).stallRedesignate i else h) h
    else h

end Sys2Proof.Machine
end

