-- ==== Sys2Proof/Machine/Sched.lean ====
section
/-! DEFINITION. The SCHED commands (R180–R183, R196, R199–R202, R206, R276, R333): loading, placement and the states of an
image. -/

namespace Sys2Proof.Machine

/-! ### Loading -/

/-- Copies staged bytes from a pen's range: the bytes, or the status the copy ends with (R254, log entry 21). -/
def Hall.stageCopy (h : Hall) (pen mva n : Nat) : Sum Nat Bytes × Hall :=
  match h.mvaRead h.govHub pen mva n with
  | (some p, h) => if p.any fun (x : PByte) => x.poison then (.inl stVerifyFailed, h) else (.inr (p.map fun (x : PByte) => x.b), h)
  | (none, h) => (.inl stBadArg, h)

/-- SCHED_LOAD (R201, Table 7.14): the image is copied, and the load goes on as an operation. -/
def execSchedLoad (till : Fin 128) (s : State) : Host.Outcome State Fault Refusal :=
  s.till till.val 0x0201 forP0 fun c h =>
    if c.length ≠ 13 then refuse h stBadArg
    else
      let handle := h.data.nextImage
      acceptOp h c (fun k h =>
        let r := h.stageCopy c.pen (c.arg 0 8) (c.arg 8 4)
        let raw := match r.1 with
          | .inr b => b
          | .inl _ => []
        let fault := match r.1 with
          | .inr _ => 0
          | .inl f => f
        let im : Image := { pen := c.pen, imageId := leAt raw 8 4, raw := raw, fault := fault, firstLaunch := c.arg 12 1, op := some k }
        { r.2 with data.images := Tab.set r.2.data.images handle im, data.nextImage := handle + 1 }) (leBytes 4 handle)

/-- Logical stalls of a logical row. -/
def Image.rowStalls (im : Image) (l : Nat) : List Nat := (im.lstalls.filter fun e => e.1 = l).map Prod.snd

def Image.nlrow (im : Image) : Nat := leAt im.raw 16 1

/-- Mirror pairs whose sectors LOTREF names for a logical row. -/
def Hall.rowPairs (h : Hall) (im : Image) (l : Nat) : List Nat :=
  (im.lotrefs.filter fun r => leAt r 0 1 = 2 && leAt r 3 1 = l).filterMap fun r =>
    match h.lotFor im.pen (im.lotId (leAt r 1 1)) with
    | some (_, lot) => (lot.parts[leAt r 2 1]?).map Prod.fst
    | none => none

/-- Stalls of a physical row that a pen can place an image on (R181, R227). -/
def Hall.freeStalls (h : Hall) (pen r : Nat) : List Nat :=
  ((List.range 16).map (16 * r + ·)).filter fun i =>
    h.stallPen i = pen && (h.stall i).image.isNone && !h.stallRetired i && !(h.stall i).spare && h.getF .tallyStallRole i = 0

/-- The physical row of a logical row (R181): the lowest that holds its sectors and has room, else the lowest with room. -/
def Hall.rowFor (h : Hall) (im : Image) (l : Nat) (used : List Nat) : Option Nat :=
  let need := (im.rowStalls l).length
  let room := (List.range 8).filter fun r =>
    !used.contains r && !h.avail.lostRows.contains r && decide (need ≤ (h.freeStalls im.pen r).length)
  let pairs := h.rowPairs im l
  match room.find? fun r => pairs.all fun p => p = r % 4 with
  | some r => some r
  | none => room.head?

/-- Physical rows of every logical row, in order. -/
def Hall.placeRows (h : Hall) (im : Image) : Option (Tab Nat) :=
  (List.range im.nlrow).foldl (fun acc l => match acc with
    | none => none
    | some t => (h.rowFor im l (t.map Prod.snd)).map fun r => t ++ [(l, r)]) (some [])

/-- Bytes of an image in a row section of the launch table, and in each hub's (R201). -/
def Image.rowBytes (im : Image) (l : Nat) : Nat :=
  ((im.sections.filter fun s => s.lrow = l && (s.typ = 1 || s.typ = 2 || s.typ = 4)).map fun s => s.data.length).sum
def Image.hubBytes (im : Image) : Nat :=
  ((im.sections.filter fun s => decide (5 ≤ s.typ) && decide (s.typ ≤ 9)).map fun s => s.data.length).sum

/-- Images that are loaded, with their handles. -/
def Hall.loadedImages (h : Hall) : List (Nat × Image) := h.data.images.filter fun e => e.2.loaded

/-- Free image channels of a row, and of a hub (R276). -/
def Hall.freeRowChans (h : Hall) (r : Nat) : List Nat :=
  ((List.range 60).map (256 + 64 * r + ·)).filter fun c => (h.chan c).handle.isNone
def Hall.freeHubChans (h : Hall) (hub : Nat) : List Nat :=
  ((List.range 120).map (128 * hub + ·)).filter fun c => (h.chan c).handle.isNone

/-- Two ranges (offset, length) share a byte. -/
def rangesMeet (a b : Nat × Nat) : Bool := decide (a.1 < b.1 + b.2) && decide (b.1 < a.1 + a.2)

/-- Whether an image finds the room that R182, R196, R201, R206 and R276 ask for, on the rows given. -/
def Hall.roomFor (h : Hall) (im : Image) (rows : Tab Nat) : Bool :=
  let others := h.loadedImages
  let inRow := fun (r : Nat) => others.filterMap fun e => (e.2.lrowOf r).map fun l => (e.2, l)
  decide ((others.filter fun e => e.2.pen = im.pen).length < 16) &&
  decide (im.firstLaunch + im.nEntry ≤ 256) &&
  ((List.range im.nEntry).all fun i => match h.launchEntry (256 * im.pen + im.firstLaunch + i) with
    | some e => !e.valid
    | none => true) &&
  decide (im.hubBytes + (others.map fun e => e.2.hubBytes).sum ≤ 2 ^ 21) &&
  [0, 1].all (fun hub => h.hubLost (hubOf hub) || decide ((chainHeads (im.descs none)).length ≤ (h.freeHubChans hub).length)) &&
  rows.all fun e =>
    decide (im.rowBytes e.1 + ((inRow e.2).map fun x => x.1.rowBytes x.2).sum ≤ 2 ^ 23) &&
    decide ((chainHeads (im.descs (some e.1))).length ≤ (h.freeRowChans e.2).length) &&
    decide ((h.ledger e.2).images.length < 8) &&
    match im.rbuf e.1 with
    | none => true
    | some b => (inRow e.2).all fun x => match x.1.rbuf x.2 with
      | some o => !rangesMeet b o
      | none => true

/-- Binds a channel to a chain of an image: its pen, world, ceiling and first descriptor (R276, R279, R286). -/
def Hall.bindChan (h : Hall) (c handle pen head : Nat) (lrow : Option Nat) : Hall :=
  let secure := h.penSecure pen
  let h := h.setFs c [(.brwChCtrlPenValid, 1), (.brwChCtrlPen, pen), (.brwChCtrlPrioMax, prioCeiling pen), (.brwChCtrlWorld, b2n secure),
    (.brwChStartChain, head), (.brwChStartHubsec, b2n lrow.isNone), (.brwChCtrlEnable, 0)]
  let h := h.setWorld (if c < 256 then 3 else 4) (if c < 256 then c else c - 256) secure
  h.updChan c fun _ => { handle := some handle, lrow := lrow }

/-- Binds the chains of one section to the lowest free channels. -/
def Hall.bindChans (h : Hall) (free : List Nat) (handle pen : Nat) (heads : List Nat) (lrow : Option Nat) : Hall :=
  (heads.zip free).foldl (fun h e => h.bindChan e.2 handle pen e.1 lrow) h

/-- Step records of a logical stall as 512-bit words. -/
def Image.stepWords (im : Image) (l s : Nat) : List Nat := (im.records 1 l s 64).map leNat

/-- A stall takes a logical stall of an image (R181, R183). -/
def Hall.bindStall (h : Hall) (i handle : Nat) (im : Image) (l s : Nat) : Hall :=
  let troughs : Tab Trough := (im.troughsOf l s).zipIdx.map fun e => (e.2, { desc := e.1 })
  let h := h.updStall i fun x =>
    { x with image := some handle, lrow := l, lstall := s, steps := im.stepWords l s, troughs := troughs, started := [], redo := []
             lastToken := [], ox := none, vu := none, hen := none, exp := {} }
  h.setF .tallyStallRole i 1

/-- The lowest Ledger image index that a row has free (R205). -/
def Hall.freeLimg (h : Hall) (r : Nat) : Nat :=
  ((List.range 8).find? fun n => (Tab.find (h.ledger r).images n).isNone).getD 0

/-- Binds one logical row of an image. -/
def Hall.bindRow (h : Hall) (handle l r : Nat) : Hall :=
  match h.image handle with
  | none => h
  | some im =>
    let limg := h.freeLimg r
    let pairs := (im.rowStalls l).mergeSort.zip (h.freeStalls im.pen r)
    let h := h.updLedger r fun x => { x with images := Tab.set x.images limg handle, committed := Tab.erase x.committed limg }
    let h := pairs.foldl (fun h e => h.bindStall e.2 handle im l e.1) h
    let h := h.bindChans (h.freeRowChans r) handle im.pen (chainHeads (im.descs (some l))) (some l)
    let h := h.updImage handle fun im =>
      { im with rows := Tab.set im.rows l r, limgs := Tab.set im.limgs l limg
                stalls := pairs.foldl (fun t e => Tab.set t (16 * l + e.1) e.2) im.stalls }
    match im.rbuf l with
    | some b => h.bufWorld r b
    | none => h

/-- A launch entry from a template, VALID and INTAKE_ON clear (Table 7.8). -/
def templateEntry (handle : Nat) (b : Bytes) : LaunchEntry :=
  { handle := handle, intake := leAt b 4 2, exit := leAt b 6 2, maxIn := leAt b 8 4, minOut := leAt b 12 4, inflight := leAt b 16 2
    hreq := bit (leAt b 18 1) 1, dreq := bit (leAt b 18 1) 2 }

/-- Binds a whole image and writes its launch entries. -/
def Hall.bindImage (h : Hall) (handle : Nat) (im : Image) (rows : Tab Nat) : Hall :=
  let h := { h with data.images := Tab.set h.data.images handle im }
  let h := rows.foldl (fun h e => h.bindRow handle e.1 e.2) h
  let heads := chainHeads (im.descs none)
  let h := [0, 1].foldl (fun h hub =>
    if h.hubLost (hubOf hub) then h else h.bindChans (h.freeHubChans hub) handle im.pen heads none) h
  let launch := im.templates.zipIdx.foldl (fun t e => Tab.set t (256 * im.pen + im.firstLaunch + e.2) (templateEntry handle e.1)) h.data.launch
  { h with data.launch := launch }

/-- DETAIL bytes of a refused load (R199). -/
def Refuse.bytes (r : Refuse) : Bytes := leBytes 2 r.detail ++ leBytes 2 r.sect ++ leBytes 4 r.index

/-- The end of a load that was refused. -/
def Hall.loadFailed (h : Hall) (handle : Nat) (op : Option Nat) (status : Nat) (detail : Bytes) : Hall :=
  let h := { h with data.images := Tab.erase h.data.images handle }
  match op with
  | some k => h.closeOp k status detail
  | none => h

/-- Checks and places a loading image. -/
def Hall.loadEnd (h : Hall) (handle : Nat) (im0 : Image) : Hall :=
  if im0.fault ≠ 0 then h.loadFailed handle im0.op im0.fault []
  else match imageRefuse h im0.pen im0.raw with
  | some r => h.loadFailed handle im0.op r.status r.bytes
  | none =>
    let im := { parseImage im0.pen im0.raw with firstLaunch := im0.firstLaunch, op := im0.op }
    match h.placeRows im with
    | none => h.loadFailed handle im.op stNoResource []
    | some rows =>
      if !h.roomFor im rows then h.loadFailed handle im.op stNoResource []
      else
        let bound := (h.bindImage handle im rows).updImage handle fun im => { im with state := .loaded, op := none }
        let done := fun (h : Hall) => match im.op with
          | some k => h.closeOp k stOK
          | none => h
        if im.shadowSteps && (pickShadows 1 (bound.boundRows im.pen) (bound.shadowPool im.pen)).isNone then
          h.loadFailed handle im.op stNoResource []
        else done (bound.redesignate im.pen)

/-- SCHED_LOAD_DONE (R199, Table 7.14): verification, checks and placement of an image end. -/
def execSchedLoadDone (handle : Nat) (s : State) : Host.Outcome State Fault Refusal :=
  s.run fun h => match h.image handle with
    | some im => if im.state = .loading then h.loadEnd handle im else h
    | none => h

/-! ### Starting -/

/-- Physical address of a tensor's table pair in its part's row below 4 (R320, R323, R325). -/
def Lot.pairAddr (l : Lot) (tensor : Nat) : Option (Nat × Nat) :=
  match l.tensors[tensor]? with
  | none => none
  | some t => match l.layers[t.layer]? with
    | none => none
    | some y => (l.parts[y.part]?).map fun p => (p.1, p.2.1 * 2 ^ 30 + t.tpair)

/-- Copies one decode-table pair from its lot into a stall store (R169, Table 13.3 KIND 4). -/
def Hall.copyPair (h : Hall) (im : Image) (lot l s tensor off : Nat) : Hall :=
  match h.lotFor im.pen lot, im.pstall l s with
  | some (_, x), some i => match x.pairAddr tensor with
    | some (row, o) => match h.nvMirrorRead row o 128 with
      | (some p, h) => h.writeRam (storeBase i + off) p
      | (none, h) => h
    | none => h
  | _, _ => h

/-- What SCHED_START writes into the stall stores: STORE_INIT and the table pairs of TABLE records. -/
def Hall.startStores (h : Hall) (im : Image) : Hall :=
  let h := im.lstalls.foldl (fun h ls => match im.pstall ls.1 ls.2 with
    | some i => h.writeBytes (storeBase i) (im.init ls.1 ls.2)
    | none => h) h
  im.tableRefs.foldl (fun h t => h.copyPair im t.1 t.2.1 t.2.2.1 t.2.2.2.1 t.2.2.2.2) h

/-- Troughs of an image's stalls go back to HEAD = TAIL = 0 (Table 7.10). -/
def Hall.resetTroughs (h : Hall) (handle : Nat) : Hall :=
  { h with data.stalls := h.data.stalls.map fun e =>
      if e.2.image = some handle then (e.1, { e.2 with troughs := e.2.troughs.map fun t => (t.1, t.2.reset) }) else e }

/-- Changes every launch entry of an image. -/
def Hall.updEntries (h : Hall) (handle : Nat) (f : LaunchEntry → LaunchEntry) : Hall :=
  { h with data.launch := h.data.launch.map fun e => if e.2.handle = handle then (e.1, f e.2) else e }

/-- A LOADED image becomes ACTIVE (Table 7.14); INTAKE_ON stays clear on the standby of a warm pair (R449). -/
def Hall.imageStart (h : Hall) (handle : Nat) : Hall :=
  match h.image handle with
  | none => h
  | some im =>
    let h := (h.startStores im).resetTroughs handle
    let h := (h.imageChans handle).foldl (fun h c => h.chanEnable c) h
    (h.updEntries handle fun e => { e with valid := true, intakeOn := !h.isStandby im.pen }).updImage handle fun im => { im with state := .active }

/-! ### Commands on a handle -/

def ImgState.transient (x : ImgState) : Bool := x = .loading || x = .pausing || x = .retiring

/-- A command on an image of the pen: refused where the handle names none, or where the state does not take it (R201). -/
def onImage (c : TillCmd) (h : Hall) (takes : ImgState → Bool) (f : Nat → Image → Answer) : Answer :=
  if c.length ≠ 4 then refuse h stBadArg
  else match h.image (c.arg 0 4) with
  | none => refuse h stBadArg
  | some im =>
    if im.pen ≠ c.pen then refuse h stBadArg
    else if takes im.state then f (c.arg 0 4) im
    else refuse h (if im.state.transient then stBusy else stBadArg)

/-- SCHED_START (R201, R202). -/
def execSchedStart (till : Fin 128) (s : State) : Host.Outcome State Fault Refusal :=
  s.till till.val 0x0202 forP0 fun c h =>
    onImage c h (fun x => x = .loaded) fun k _ => okWith (h.imageStart k)

/-- SCHED_PAUSE (R201): INTAKE_ON is cleared; the operation ends with the last request in flight. -/
def execSchedPause (till : Fin 128) (s : State) : Host.Outcome State Fault Refusal :=
  s.till till.val 0x0203 forP0 fun c h =>
    onImage c h (fun x => x = .active) fun k _ =>
      acceptOp h c fun op h =>
        ((h.updEntries k fun e => { e with intakeOn := false }).updImage k fun im => { im with state := .pausing, op := some op }).imageSettle k

/-- SCHED_RESUME (R201). -/
def execSchedResume (till : Fin 128) (s : State) : Host.Outcome State Fault Refusal :=
  s.till till.val 0x0204 forP0 fun c h =>
    onImage c h (fun x => x = .paused) fun k im =>
      okWith ((h.updEntries k fun e => { e with intakeOn := !h.isStandby im.pen }).updImage k fun im => { im with state := .active })

/-- SCHED_RETIRE (R201): requests already taken run to their end, then the image is EMPTY. -/
def execSchedRetire (till : Fin 128) (s : State) : Host.Outcome State Fault Refusal :=
  s.till till.val 0x0205 forP0 fun c h =>
    onImage c h (fun x => x = .loaded || x = .active || x = .paused) fun k _ =>
      acceptOp h c fun op h =>
        ((h.updEntries k fun e => { e with intakeOn := false }).updImage k fun im => { im with state := .retiring, op := some op }).imageSettle k

def ImgState.code : ImgState → Nat
  | .empty => 0
  | .loading => 1
  | .loaded => 2
  | .active => 3
  | .pausing => 4
  | .paused => 5
  | .retiring => 6

/-- Response of SCHED_QUERY (Table 7.13). -/
def Hall.imageReport (h : Hall) (k : Nat) (im : Image) : Bytes :=
  leBytes 1 im.state.code ++ [0, 0, 0] ++ leBytes 4 im.imageId ++
  ((List.range 8).map fun l => BitVec.ofNat 8 (Tab.get 255 im.rows l)) ++
  ((List.range 128).map fun i => BitVec.ofNat 8 (Tab.get 255 im.stalls i)) ++ leBytes 4 (h.inFlight k)

/-- SCHED_QUERY (R200, R201). -/
def execSchedQuery (till : Fin 128) (s : State) : Host.Outcome State Fault Refusal :=
  s.till till.val 0x0206 forP0 fun c h => onImage c h (fun _ => true) fun k im => okWith h (h.imageReport k im)

end Sys2Proof.Machine
end

