-- ==== Sys2Proof/Machine/Lots.lean ====
section
/-! DEFINITION. Lots: the manifest (Tables 13.1 and 13.2), what makes a lot well-formed (R320–R322), its place in the
arrays (R323, R325), who may read it (R330), and its withdrawal from neighbours (R402). -/

namespace Sys2Proof.Machine

def shardBytes : Nat := 4194304

/-- The number under which SHARD_WANT names the manifest (Table 16.4). -/
def manifestShard : Nat := 0xFFFFFFFF

/-! ### Manifest -/

def manKind (m : Bytes) : Nat := leAt m 6 1
def manParts (m : Bytes) : Nat := leAt m 7 1 % 16
def manLotId (m : Bytes) : Nat := leAt m 8 4
def manGen (m : Bytes) : Nat := leAt m 12 4
def manBase (m : Bytes) : Nat := leAt m 16 4
def manLayers (m : Bytes) : Nat := leAt m 20 2
def manTensors (m : Bytes) : Nat := leAt m 24 4
def manShards (m : Bytes) : Nat := leAt m 28 4
def manLayout (m : Bytes) : Bytes := slice m 32 64

/-- Bytes of the part, layer and tensor tables. -/
def manTableBytes (m : Bytes) : Nat := 16 * manParts m + 16 * manLayers m + 24 * manTensors m

/-- Bytes of the whole manifest that a header announces. -/
def manLen (m : Bytes) : Nat := 128 + manTableBytes m + 64 * manShards m + 512

/-- A manifest is at most 64 MiB (R320). -/
def manMax : Nat := 64 * 2 ^ 20

def manPart (m : Bytes) (i : Nat) : Bytes := slice m (128 + 16 * i) 16
def manLayer (m : Bytes) (i : Nat) : Bytes := slice m (128 + 16 * manParts m + 16 * i) 16
def manTensor (m : Bytes) (i : Nat) : Bytes := slice m (128 + 16 * manParts m + 16 * manLayers m + 24 * i) 24
def manDigest (m : Bytes) (i : Nat) : Bytes := slice m (128 + manTableBytes m + 64 * i) 64

/-- SHARDS of every part. -/
def manPartShards (m : Bytes) : List Nat := (List.range (manParts m)).map fun i => leAt (manPart m i) 0 4

def manLayerList (m : Bytes) : List Layer :=
  (List.range (manLayers m)).map fun i =>
    let b := manLayer m i
    { part := leAt b 0 1, shards := leAt b 2 2, first := leAt b 4 4, gen := manGen m }

def manTensorList (m : Bytes) : List Tensor :=
  (List.range (manTensors m)).map fun i =>
    let b := manTensor m i
    { layer := leAt b 0 2, fmt := leAt b 2 1, sidx := leAt b 8 8, tpair := leAt b 16 8 }

def manDigests (m : Bytes) : List Bytes := (List.range (manShards m)).map (manDigest m)

/-- First shard number of a part. -/
def partFirst (parts : List Nat) (p : Nat) : Nat := (parts.take p).sum

/-- Part and shard of the part of a shard number. -/
def shardPlace : List Nat → Nat → Nat → Option (Nat × Nat)
  | [], _, _ => none
  | n :: rest, p, i => if i < n then some (p, i) else shardPlace rest (p + 1) (i - n)

/-- Formats of lot tensors (Table 6.2). -/
def lotFmt (f : Nat) : Bool := floatWeight f || f = 0 || f = 1 || f = 9

def disjointRuns : List (Nat × Nat) → Bool
  | [] => true
  | a :: rest => rest.all (fun b => decide (a.1 + a.2 ≤ b.1) || decide (b.1 + b.2 ≤ a.1)) && disjointRuns rest

/-- Every field of Tables 13.1 and 13.2, and R321 as far as the manifest shows it; `limit` is the logical erase blocks of
a row. LAYOUT's digest is checked apart. -/
def manFieldsOk (m : Bytes) (kind limit : Nat) : Bool :=
  let parts := manPartShards m
  let layers := manLayerList m
  decide (leAt m 0 4 = 0x4C384C54) && decide (leAt m 4 2 = 1) && decide (manKind m = kind) && decide (leAt m 7 1 < 16) &&
  decide (1 ≤ manParts m ∧ manParts m ≤ 8) && (decide (kind = 0) || decide (manParts m = 1)) &&
  (decide (kind = 1) || decide (manBase m = 0)) && decide (1 ≤ manLayers m ∧ manLayers m ≤ 4096) && decide (leAt m 22 2 = 0) &&
  decide (1 ≤ manTensors m ∧ manTensors m ≤ 65536) && decide (manShards m = parts.sum) && decide (leAt m 96 32 = 0) &&
  ((List.range (manParts m)).all fun i => decide (leAt (manPart m i) 4 12 = 0)) && parts.all (fun n => decide (n ≤ limit)) &&
  ((List.range (manLayers m)).all fun i => decide (leAt (manLayer m i) 1 1 = 0) && decide (leAt (manLayer m i) 8 8 = 0)) &&
  layers.all (fun (y : Layer) => decide (y.part < manParts m) && decide (1 ≤ y.shards ∧ y.shards ≤ 1024) &&
    decide (y.first + y.shards ≤ parts.getD y.part 0)) &&
  ((List.range (manParts m)).all fun p =>
    disjointRuns ((layers.filter fun (y : Layer) => y.part = p).map fun (y : Layer) => (y.first, y.shards))) &&
  ((List.range (manTensors m)).all fun i => decide (leAt (manTensor m i) 3 5 = 0)) &&
  (manTensorList m).all fun (t : Tensor) =>
    lotFmt t.fmt && (decide (kind = 0) || decide (t.fmt = 6)) &&
    match layers[t.layer]? with
    | none => false
    | some y =>
      let lo := y.first * shardBytes
      let hi := (y.first + y.shards) * shardBytes
      decide (lo ≤ t.sidx) && decide (t.sidx + 32 ≤ hi) &&
      (if floatWeight t.fmt then decide (lo ≤ t.tpair) && decide (t.tpair + 128 ≤ hi) else decide (t.tpair = 2 ^ 64 - 1))

/-- What a manifest's verification yields: none when it verifies, else the status its refusal has (R322). -/
def Hall.manifestFault (h : Hall) (m : Bytes) (kind : Nat) : Option Nat :=
  if m.length < 640 ∨ manMax < m.length ∨ m.length ≠ manLen m then some stBadArg
  else if !h.verifies purposeLot (m.take (m.length - 512)) (m.drop (m.length - 512)) then some stVerifyFailed
  else if !manFieldsOk m kind h.nvLogical then some stBadArg
  else if Config.sha512 (slice m 128 (manTableBytes m)) ≠ manLayout m then some stVerifyFailed
  else none

/-! ### What the shards hold (R165–R168, R163, R322) -/

/-- Entries of a segment index: class and offset. -/
def indexEntries (es : Bytes) : List (Nat × Nat) :=
  (List.range (es.length / 8)).map fun i => (bits (leAt es (8 * i) 8) 50 48, bits (leAt es (8 * i) 8) 47 0)

/-- OFFSET[0] is 0 and segments are packed (R166). -/
def packedFrom (fmt : Nat) : List (Nat × Nat) → Nat → Bool
  | [], _ => true
  | (c, o) :: rest, at' => decide (o = at') && match blockSize fmt c with
    | some z => packedFrom fmt rest (at' + 4096 * z)
    | none => false

/-- A segment index by Tables 6.7 and 6.8 and R166: header and entries. -/
def indexOk (fmt : Nat) (hd es : Bytes) : Bool :=
  let nseg := leAt hd 4 4
  let nblk := leAt hd 8 4
  let nw := leAt hd 16 8
  decide (leAt hd 0 1 = fmt) && decide (leAt hd 1 3 = 0) && decide (nseg = ceilDiv nblk 4096) && decide (leAt hd 12 4 = 0) &&
  decide (nw ≤ 128 * nblk) && decide (128 * nblk < nw + 128) && decide (leAt hd 26 6 = 0) &&
  decide (crc16 (slice hd 0 24 ++ es) = leAt hd 24 2) && decide (es.length = 8 * nseg) &&
  ((List.range nseg).all fun i => decide (leAt es (8 * i) 8 / 2 ^ 51 = 0)) && packedFrom fmt (indexEntries es) 0

/-- Where block `n` of a tensor lies from the tensor base, and its class (R166). -/
def blockAt (fmt : Nat) (segs : List (Nat × Nat)) (n : Nat) : Nat × Nat :=
  let s := segs.getD (n / 4096) (7, 0)
  (s.2 + n % 4096 * (blockSize fmt s.1).getD 0, s.1)

/-- Bytes of a tensor's index entries, as far as they lie below `hi`. -/
def indexBytes (rd : Nat → Nat → Bytes) (t : Tensor) (hi : Nat) : Bytes × Bytes :=
  let hd := rd t.sidx 32
  (hd, rd (t.sidx + 32) (min (8 * leAt hd 4 4) (hi - (t.sidx + 32))))

/-- The slot rule (R322): every coded block of the stream names slot `slot`, and the stream ends below `hi`. -/
def blocksNameSlot (rd : Nat → Nat → Bytes) (t : Tensor) (hd es : Bytes) (slot lo hi : Nat) : Bool :=
  let base := Config.tensorBase t.sidx (leAt hd 4 4)
  (List.range (leAt hd 8 4)).all fun n =>
    let (o, c) := blockAt t.fmt (indexEntries es) n
    decide (lo ≤ base + o) && decide (base + o + (blockSize t.fmt c).getD 0 ≤ hi) &&
      (decide (6 ≤ c) || decide (b2n (bit (leAt (rd (base + o) 4) 0 4) 4) = slot))

/-- The checks of R322 on one tensor: segment index, slot records, slot rule. `rd` reads its part. -/
def tensorOk (rd : Nat → Nat → Bytes) (t : Tensor) (y : Layer) (slot : Nat) : Bool :=
  let hi := (y.first + y.shards) * shardBytes
  let x := indexBytes rd t hi
  indexOk t.fmt x.1 x.2 && blocksNameSlot rd t x.1 x.2 slot (y.first * shardBytes) hi &&
    (!floatWeight t.fmt ||
      (let r := rd (t.tpair + 64 * slot) 64
       slotRecWellFormed r t.fmt && slotRecSumOk r && decide (leAt (rd (t.tpair + 64 * (1 - slot)) 64) 1 1 = 0)))

/-! ### Placement (R323, R325) -/

/-- Sectors of a pair that lots use: first and count. -/
def Hall.usedSectors (h : Hall) (pair : Nat) : List (Nat × Nat) :=
  h.weights.lots.flatMap fun e => (e.2.parts.filter fun p => p.1 = pair).map fun p => (p.2.1, ceilDiv p.2.2 256)

/-- The lowest run of `n` free sectors of a pair. -/
def Hall.sectorsFor (h : Hall) (pair n : Nat) (more : List (Nat × Nat)) : Option Nat :=
  (List.range (h.nvLogical / 256)).find? fun f =>
    decide (f + n ≤ h.nvLogical / 256) && (h.usedSectors pair ++ more).all fun u => decide (u.1 + u.2 ≤ f) || decide (f + n ≤ u.1)

/-- Pair, first sector and shards of each part: the named pair, or the lowest with room. -/
def Hall.placeParts (h : Hall) (named : Option Nat) (parts : List Nat) : Option (List (Nat × Nat × Nat)) :=
  parts.foldl (fun acc n => match acc with
    | none => none
    | some done =>
      let pairs := match named with
        | some p => [p]
        | none => [0, 1, 2, 3]
      let need := ceilDiv n 256
      (pairs.filterMap fun p =>
        (h.sectorsFor p need ((done.filter fun d => d.1 = p).map fun d => (d.2.1, ceilDiv d.2.2 256))).map fun f =>
          (p, f, n)).head?.map fun x => done ++ [x]) (some [])

/-- Pair and logical erase block of a shard of a part. -/
def Lot.blockOf (l : Lot) (part n : Nat) : Nat × Nat :=
  match l.parts[part]? with
  | some p => (p.1, 256 * p.2.1 + n)
  | none => (0, 0)

/-- SHARDS of each part. -/
def Lot.partShards (l : Lot) : List Nat := l.parts.map fun p => p.2.2

/-- The lot offset that a physical T2 address in the row below 4 holds (inverse of R325). -/
def Lot.offOf (l : Lot) (a : Nat) : Option Nat :=
  let rec go : List (Nat × Nat × Nat) → Nat → Option Nat
    | [], _ => none
    | (pair, sector, shards) :: rest, o =>
      let base := 0x040000000000 + pair * 0x008000000000 + sector * 2 ^ 30
      if base ≤ a ∧ a < base + shards * shardBytes then some (o + (a - base)) else go rest (o + shards * shardBytes)
  go l.parts 0

/-- Write protection of a part's sectors in both rows while they are written (R311, R323); set again afterwards. A clear
has no effect once protection is frozen. -/
def Hall.protectParts (h : Hall) (parts : List (Nat × Nat × Nat)) (on : Bool) : Hall :=
  parts.foldl (fun h p => [p.1, p.1 + 4].foldl (fun h r =>
    if !on && h.flag .nvmcStatusFrozen r then h
    else (List.range (ceilDiv p.2.2 256)).foldl (fun h i => h.setWp r (p.2.1 + i) on) h) h) h

end Sys2Proof.Machine
end

