-- ==== Sys2Proof/Machine/Weights.lean ====
section
/-! DEFINITION. Installing and replacing weights: sources and shards (R326–R328), installation (R322–R325), sharing
(R330), adapters (R331), rolling and consistent swaps (R335–R339), and the WEIGHT commands (R342). -/

namespace Sys2Proof.Machine

def Hall.install (h : Hall) (k : Nat) : Option Install := Tab.find h.weights.installs k
def Hall.updInstall (h : Hall) (k : Nat) (f : Install → Install) : Hall :=
  match h.install k with
  | some x => { h with weights.installs := Tab.set h.weights.installs k (f x) }
  | none => h
def Hall.swap (h : Hall) (k : Nat) : Option Swap := Tab.find h.weights.swaps k
def Hall.updSwap (h : Hall) (k : Nat) (f : Swap → Swap) : Hall :=
  match h.swap k with
  | some x => { h with weights.swaps := Tab.set h.weights.swaps k (f x) }
  | none => h

/-- A rolling swap names the lot. -/
def Hall.rollingOn (h : Hall) (lot : Nat) : Bool := h.weights.swaps.any fun w => w.2.rolling && w.2.lot = lot

/-- A swap of any kind, the lot's being SWAPPING, or its removal, stands against another command (Table 13.7). -/
def Hall.lotBusy (h : Hall) (lot : Nat) : Bool :=
  h.weights.swaps.any (fun w => decide (w.2.lot = lot) || decide (w.2.newLot = lot)) ||
    match h.lot lot with
    | some l => l.state = .swapping || l.state = .removing
    | none => false

/-! ### Blocks of the arrays -/

/-- Erases the physical block that backs a logical one; one that its erase retires is replaced by a spare (R310). -/
def Hall.eraseLogical (h : Hall) (r l : Nat) : Hall :=
  let p := h.nvPhys r l
  let h := h.nvEraseDone r p
  if (h.array r).retired.contains p then
    match h.nvSpare r with
    | some q => h.bmapApply r [(l, q)]
    | none => h
  else h

/-- Every page of a block holds nothing. -/
def Hall.blockBlank (h : Hall) (r p : Nat) : Bool :=
  (Tab.find (h.array r).topPage p).isNone && !(h.array r).torn.any fun t => t / 256 = p

def Hall.fillBlock (h : Hall) (r p : Nat) (data : Bytes) : Hall :=
  upTo 256 h fun h i => h.nvProgramPage r p i (slice data (i * nvPageBytes) nvPageBytes)

/-- Programs a shard into the copy of a row, or into a spare block where the block is not blank (R324). -/
def Hall.programShard (h : Hall) (r l : Nat) (data : Bytes) : Hall :=
  let p := h.nvPhys r l
  if h.blockBlank r p && !(h.array r).retired.contains p then h.fillBlock r p data
  else match h.nvSpare r with
    | some q => (h.bmapApply r [(l, q)]).fillBlock r q data
    | none => h.fillBlock r p data

/-- Erases the blocks that flips have removed from the map, once their rows' journals are written and no read under the
old mapping is in flight (R299, R336). -/
def Hall.oldSettle (h : Hall) : Hall :=
  let ready := fun (h : Hall) (b : Nat × Nat) => !h.flag .nvmcStatusJournal b.1 && decide (h.nvOldReads b.1 b.2 = 0)
  let due := h.weights.oldBlocks.filter fun b => ready h b
  due.foldl (fun h b => (h.nvEraseDone b.1 b.2).nvReturn b.1 b.2)
    { h with weights.oldBlocks := h.weights.oldBlocks.filter fun b => !ready h b }

/-- Poison-list lines, relocations and settlements of a run of logical blocks are dropped (Table 12.7, Table 13.7). -/
def Hall.forgetBlocks (h : Hall) (pair first n : Nat) : Hall :=
  let out := fun (l : Nat) => decide (l < first) || decide (first + n ≤ l)
  [pair, pair + 4].foldl (fun h r => h.updArray r fun a =>
    { a with poisonLines := a.poisonLines.filter fun x => out (x * 64 / nvBlockBytes)
             dueRelocation := Tab.keep (fun l _ => out l) a.dueRelocation
             dueSettle := a.dueSettle.filter out }) h

/-- Erases the shards' blocks of a lot's parts in both rows, given which shards are there. -/
def Hall.eraseParts (h : Hall) (l : Lot) (there : Nat → Bool) : Hall :=
  l.parts.zipIdx.foldl (fun h p =>
    let first := partFirst l.partShards p.2
    ((List.range p.1.2.2).filter fun i => there (first + i)).foldl (fun h i =>
      (h.eraseLogical p.1.1 (256 * p.1.2.1 + i)).eraseLogical (p.1.1 + 4) (256 * p.1.2.1 + i)) h) h

/-! ### Neighbours' transfers and reads of a lot that leaves READY (R401, R402) -/

/-- Key of a transfer in `NbrPort.rids`. -/
def ridKey (server : Bool) (rid : Nat) : Nat := 2 * rid + b2n server

/-- A served lot leaves READY: WITHDRAW on every port that is UP, and its open transfers are refused. -/
def Hall.lotWithdraw (h : Hall) (k : Nat) (l : Lot) : Hall :=
  upTo 4 h fun h p =>
    let mine := (h.nbr p).rids.filter fun (e : Nat × Rid) => e.2.server && e.2.lot = k
    let h := h.updNbr p fun x => { x with rids := x.rids.filter fun (e : Nat × Rid) => !(e.2.server && decide (e.2.lot = k)) }
    let h := mine.foldl (fun h e => h.nbrPost p 1 0x22 (beBytes 4 (e.1 / 2) ++ [2, 0, 0, 0])) h
    if l.serve && h.nbrUp p then
      l.parts.foldl (fun h x =>
        h.nbrPost p 1 0x2B (beBytes 8 (x.1 * 0x008000000000 + x.2.1 * 2 ^ 30) ++ beBytes 8 (x.2.2 * shardBytes))) h
    else h

/-- Every WITHDRAW has been acknowledged, or its port is down. -/
def Hall.withdrawsDone (h : Hall) : Bool :=
  (List.range 4).all fun p => decide ((h.nbr p).withdraws = []) &&
    !(((h.nbr p).conv 1).waiting.any fun (f : ConvFrame) => f.typ = 0x2B)

/-- A lot in REMOVING goes once no neighbour can read it and its sectors can be erased. -/
def Hall.removeSettle (h : Hall) (k : Nat) : Hall :=
  match h.lot k with
  | none => h
  | some l =>
    if l.state ≠ .removing ∨ h.withdrawsDone = false then h
    else
      let h := l.parts.foldl (fun h p => h.forgetBlocks p.1 (256 * p.2.1) (256 * ceilDiv p.2.2 256)) h
      let h := ((h.protectParts l.parts false).eraseParts l fun _ => true).protectParts l.parts true
      let h := { h with weights.lots := Tab.erase h.weights.lots k }
      match l.op with
      | some op => h.closeOp op stOK
      | none => h

/-! ### Jobs: what is fetched, from where (R326, R327) -/

/-- An installation or rolling swap as a fetch of shards. -/
structure Job where
  sources : List Source
  manifest : Option Bytes
  shards : Tab ShardSt
  due : List Nat
deriving DecidableEq, Repr

/-- Shard numbers of a layer of a lot, with part and shard of the part. -/
def Lot.layerShards (l : Lot) (i : Nat) : List (Nat × Nat × Nat) :=
  match l.layers[i]? with
  | some y => (List.range y.shards).map fun n => (partFirst l.partShards y.part + y.first + n, y.part, y.first + n)
  | none => []

/-- The next layer from `i` on that does not hold the new generation (R332). -/
def Lot.nextLayer (l : Lot) (gen i : Nat) : Option Nat :=
  (List.range l.layers.length).find? fun j => decide (i ≤ j) && match l.layers[j]? with
    | some y => decide (y.gen ≠ gen)
    | none => false

/-- Shards of a rolling swap that are fetched now: the layer's, and the next one's once the layer is PROGRAMMED (R336). -/
def Swap.wanted (w : Swap) (l : Lot) (m : Bytes) : List Nat :=
  let next := if w.state = .fetch then [] else match l.nextLayer (manGen m) (w.layer + 1) with
    | some j => (l.layerShards j).map Prod.fst
    | none => []
  (if w.state = .flipped then [] else (l.layerShards w.layer).map Prod.fst) ++ next

def shardDone (t : Tab ShardSt) (i : Nat) : Bool := (Tab.get {} t i).done

def Hall.job (h : Hall) (k : Nat) : Option Job :=
  match h.install k with
  | some x =>
    some { sources := x.sources, manifest := x.manifest, shards := x.shards
           due := match x.manifest with
             | none => [manifestShard]
             | some m => (List.range (manShards m)).filter fun i => !shardDone x.shards i }
  | none => match h.swap k with
    | some w =>
      if w.rolling then
        some { sources := w.sources, manifest := w.manifest, shards := w.shards
               due := match w.manifest, h.lot w.lot with
                 | some m, some l => (w.wanted l m).filter fun i => !shardDone w.shards i
                 | _, _ => [manifestShard] }
      else none
    | none => none

/-- Changes the progress of a shard. -/
def Hall.updShard (h : Hall) (k i : Nat) (f : ShardSt → ShardSt) : Hall :=
  (h.updInstall k fun x => { x with shards := Tab.set x.shards i (f (Tab.get {} x.shards i)) }).updSwap k fun w =>
    { w with shards := Tab.set w.shards i (f (Tab.get {} w.shards i)) }

/-- The transfer that a job has open with a source. -/
def Hall.jobRid (h : Hall) (p k src : Nat) : Option (Nat × Rid) :=
  (h.nbr p).rids.find? fun (e : Nat × Rid) => !e.2.server && e.2.job = k && e.2.lot = src

/-- SHARD_WANT (Table 16.4). -/
def Hall.sendWant (h : Hall) (p key : Nat) (l : List Nat) : Hall :=
  h.nbrPost p 1 0x23 (beBytes 4 (key / 2) ++ beBytes 1 l.length ++ [0, 0, 0] ++ l.flatMap fun i => beBytes 4 i)

/-- Asks one source for what is due from it: a neighbour with LOT_REQ or SHARD_WANT; the host is read (R326). -/
def Hall.askSource (h : Hall) (k : Nat) (j : Job) (src : Nat) (s : Source) : Hall :=
  let mine := j.due.filter fun i => (Tab.get {} j.shards i).src = src
  if !s.nbr || !h.nbrUp s.port || decide (mine = []) then h
  else match h.jobRid s.port k src with
  | none =>
    let rid := (h.nbr s.port).nextRid
    (h.updNbr s.port fun x => { x with nextRid := (rid + 1) % 2 ^ 32
                                       rids := Tab.set x.rids (ridKey false rid) { server := false, lot := src, job := k } }).nbrPost
      s.port 1 0x20 (beBytes 4 rid ++ beBytes 4 (s.addr % 2 ^ 32) ++ beBytes 4 (s.addr / 2 ^ 32))
  | some (key, r) =>
    let new := (mine.filter fun i => !r.wanted.contains i).take (32 - r.wanted.length)
    if r.mlen = 0 ∨ new = [] then h
    else (h.updNbr s.port fun x => { x with rids := Tab.set x.rids key { r with wanted := r.wanted ++ new } }).sendWant s.port key new

def Hall.jobAsk (h : Hall) (k : Nat) : Hall :=
  match h.job k with
  | some j => j.sources.zipIdx.foldl (fun h e => h.askSource k j e.2 e.1) h
  | none => h

/-- Closes every transfer of a job (R401). -/
def Hall.jobClose (h : Hall) (k : Nat) : Hall :=
  upTo 4 h fun h p =>
    let mine := (h.nbr p).rids.filter fun (e : Nat × Rid) => !e.2.server && e.2.job = k
    mine.foldl (fun h e => (h.updNbr p fun x => { x with rids := Tab.erase x.rids e.1 }).nbrPost p 1 0x26 (beBytes 4 (e.1 / 2))) h

/-- A shard fails (R327): three more requests to the same source, then the next one, and after the last the first. -/
def Hall.shardFail (h : Hall) (k i : Nat) : Hall :=
  match h.job k with
  | none => h
  | some j =>
    let h := h.updShard k i fun s =>
      if s.fails + 1 < 4 then { s with fails := s.fails + 1 }
      else { s with fails := 0, src := if s.src + 1 < j.sources.length then s.src + 1 else 0 }
    h.jobAsk k

/-! ### Installation (R322–R325, R328) -/

/-- An installation ends: DETAIL bytes 17–20 hold the lot handle. -/
def Hall.installEnd (h : Hall) (k lot status : Nat) : Hall :=
  let h := h.jobClose k
  ({ h with weights.installs := Tab.erase h.weights.installs k }).closeOp k status (leBytes 4 lot)

/-- Nothing of the lot remains. -/
def Hall.installUndo (h : Hall) (x : Install) : Hall :=
  match h.lot x.lot with
  | some l =>
    let h := (h.eraseParts l fun i => shardDone x.shards i).protectParts l.parts true
    { h with weights.lots := Tab.erase h.weights.lots x.lot }
  | none => h

def Hall.installFail (h : Hall) (k status : Nat) : Hall :=
  match h.install k with
  | some x => (h.installUndo x).installEnd k x.lot status
  | none => h

/-- The lot a verified manifest describes. -/
def lotOfManifest (m : Bytes) (serve : Bool) (parts : List (Nat × Nat × Nat)) : Lot :=
  { lotId := manLotId m, gen := manGen m, serve := serve, state := .installing, layout := manLayout m, parts := parts
    layers := manLayerList m, tensors := manTensorList m, digests := manDigests m, manifest := m }

/-- A verified manifest: the lot is placed and its shards are asked for. -/
def Hall.installPlace (h : Hall) (k : Nat) (x : Install) (m : Bytes) : Hall :=
  match h.placeParts x.pair (manPartShards m) with
  | none => h.installFail k stNoResource
  | some parts =>
    let h := { h with weights.lots := Tab.set h.weights.lots x.lot (lotOfManifest m x.serve parts) }
    ((h.protectParts parts false).updInstall k fun x => { x with manifest := some m }).jobAsk k

/-- Bytes of an installed lot's part, in the row below 4. -/
def Hall.partRead (h : Hall) (l : Lot) (part o n : Nat) : Bytes :=
  let (pair, first) := l.blockOf part 0
  (List.range n).map fun i => (h.nvLogicalRead pair (first * shardBytes + o + i) 1).getD 0 0

/-- Every shard is held: the checks on their content, then READY (R322, R324). -/
def Hall.installReady (h : Hall) (k : Nat) (x : Install) (l : Lot) : Hall :=
  let ok := l.tensors.all fun (t : Tensor) => match l.layers[t.layer]? with
    | some y => tensorOk (h.partRead l y.part) t y (l.gen % 2)
    | none => false
  if ok then ((h.protectParts l.parts true).updLot x.lot fun l => { l with state := .ready }).installEnd k x.lot stOK
  else h.installFail k stBadArg

/-- No brown-out holds the rows of a pair, and the block's sector may be written. -/
def Hall.mayProgram (h : Hall) (pair l : Nat) : Bool :=
  [pair, pair + 4].all fun r => !h.flag .nvmcStatusBrownout r && !h.wpSector r (l / 256)

/-- A shard of an installation that verifies is programmed in both rows (R323, R324). -/
def Hall.installShard (h : Hall) (k i : Nat) (data : Bytes) : Hall :=
  match h.install k with
  | none => h
  | some x => match h.lot x.lot with
    | none => h
    | some l => match shardPlace l.partShards 0 i with
      | none => h
      | some (p, n) =>
        let (pair, blk) := l.blockOf p n
        if !h.mayProgram pair blk then h
        else
          let h := (h.programShard pair blk data).programShard (pair + 4) blk data
          let h := (h.updShard k i fun s => { s with done := true }).jobAsk k
          match h.job k with
          | some j => if j.due = [] then match h.install k with
              | some x => h.installReady k x l
              | none => h
            else h
          | none => h

/-! ### Rolling swap (R335–R337, R339) -/

/-- State of a lot on which no swap runs. -/
def Lot.restState (l : Lot) : LotState :=
  match l.layers with
  | [] => .ready
  | y :: rest => if rest.all fun (z : Layer) => z.gen = y.gen then .ready else .mixed

/-- Key of a shard of a part in a swap's spare tables. -/
def spareKey (part n : Nat) : Nat := part * 2 ^ 20 + n

/-- Erases the spare blocks of layers that the swap has not flipped, and returns them. -/
def Hall.dropSpares (h : Hall) (w : Swap) : Hall :=
  match h.lot w.lot with
  | none => h
  | some l =>
    let flipped := fun (key : Nat) => match w.manifest with
      | some m => l.layers.any fun (y : Layer) => y.part = key / 2 ^ 20 && decide (y.first ≤ key % 2 ^ 20) &&
          decide (key % 2 ^ 20 < y.first + y.shards) && y.gen = manGen m
      | none => false
    let drop := fun (h : Hall) (off : Nat) (e : Nat × Nat) =>
      if flipped e.1 then h
      else
        let r := (l.blockOf (e.1 / 2 ^ 20) 0).1 + off
        (h.nvEraseDone r e.2).nvReturn r e.2
    w.spareHi.foldl (fun h e => drop h 4 e) (w.spareLo.foldl (fun h e => drop h 0 e) h)

/-- Whether a lot's swap has begun. -/
def Swap.begun (w : Swap) : Bool := w.rolling && w.manifest.isSome

/-- A rolling swap ends with a status; the lot is READY or MIXED, and takes the new generation where every layer has
it. -/
def Hall.swapEnd (h : Hall) (k status : Nat) : Hall :=
  match h.swap k with
  | none => h
  | some w =>
    let h := (h.dropSpares w).jobClose k
    let h := if w.begun then h.updLot w.lot fun l =>
        let l := { l with state := l.restState }
        match w.manifest with
        | some m => if l.layers.all fun (y : Layer) => y.gen = manGen m then { l with gen := manGen m, manifest := m } else l
        | none => l
      else h
    ({ h with weights.swaps := Tab.erase h.weights.swaps k }).closeOp k status

/-- In each row of the lot's pairs, the largest layer's shards fit into the spares less 256 (R335). -/
def Hall.sparesFor (h : Hall) (l : Lot) : Bool :=
  let big := l.layers.foldl (fun n (y : Layer) => max n y.shards) 0
  l.parts.all fun p => [p.1, p.1 + 4].all fun r => decide (big + 256 ≤ h.getF .nvmcSparesFree r)

/-- A verified manifest of a rolling swap: the conditions of R335, then the first layer. -/
def Hall.swapBegin (h : Hall) (k : Nat) (w : Swap) (m : Bytes) : Hall :=
  match h.lot w.lot with
  | none => h.swapEnd k stBadArg
  | some l =>
    if !(l.state = .ready || l.state = .mixed) || decide (manLotId m ≠ l.lotId) || decide (manLayout m ≠ l.layout) ||
        decide (manGen m ≤ l.gen) then h.swapEnd k stBadArg
    else if !h.sparesFor l then h.swapEnd k stNoResource
    else
      let h := (h.lotWithdraw w.lot l).updLot w.lot fun l => { l with state := .swapping }
      let h := h.updSwap k fun w => { w with manifest := some m, layer := (l.nextLayer (manGen m) 0).getD 0 }
      h.jobAsk k

/-- A shard of a rolling swap that verifies is programmed into a spare block of each row (R336). -/
def Hall.swapShard (h : Hall) (k i : Nat) (data : Bytes) : Hall :=
  match h.swap k with
  | none => h
  | some w => match h.lot w.lot with
    | none => h
    | some l => match shardPlace l.partShards 0 i with
      | none => h
      | some (p, n) =>
        let pair := (l.blockOf p n).1
        if [pair, pair + 4].any fun r => h.flag .nvmcStatusBrownout r then h
        else match h.nvSpare pair, h.nvSpare (pair + 4) with
        | some a, some b =>
          let h := ((h.nvSetPool pair a false).fillBlock pair a data).nvSetPool (pair + 4) b false
          let h := (h.fillBlock (pair + 4) b data).updSwap k fun w =>
            { w with spareLo := Tab.set w.spareLo (spareKey p n) a, spareHi := Tab.set w.spareHi (spareKey p n) b }
          (h.updShard k i fun s => { s with done := true }).jobAsk k
        | _, _ => h

/-- Bytes of a layer's new copy in the spare blocks of the row below 4, by offset from the start of the part. -/
def Hall.spareRead (h : Hall) (w : Swap) (pair part o n : Nat) : Bytes :=
  (List.range n).map fun i =>
    match Tab.find w.spareLo (spareKey part ((o + i) / shardBytes)) with
    | some b => (h.nvRead pair b ((o + i) % shardBytes) 1).getD 0 0
    | none => 0xFF

/-- Tensors of a layer, with their indices. -/
def Lot.layerTensors (l : Lot) (i : Nat) : List (Tensor × Nat) := l.tensors.zipIdx.filter fun e => e.1.layer = i

/-- SWAP_LAYER_PROGRAMMED (Table 13.4): the layer's shards are held in both rows, and what they hold is checked (R322). -/
def Hall.layerProgrammed (h : Hall) (k : Nat) : Hall :=
  match h.swap k with
  | none => h
  | some w => match w.manifest, h.lot w.lot with
    | some m, some l =>
      if w.state ≠ .fetch ∨ w.rolling = false ∨ ((l.layerShards w.layer).all fun x => shardDone w.shards x.1) = false then h
      else
        let ok := (l.layerTensors w.layer).all fun e => match l.layers[w.layer]? with
          | some y => tensorOk (h.spareRead w (l.blockOf y.part 0).1 y.part) ((manTensorList m).getD e.2 e.1) y (manGen m % 2)
          | none => false
        if ok then (h.updSwap k fun w => { w with state := .programmed }).jobAsk k else h.swapEnd k stBadArg
    | _, _ => h

/-- Stall-store copies of the table pairs of a lot's layer that loaded images name: stall, offset, tensor (R336). -/
def Hall.pairCopies (h : Hall) (lot layer : Nat) (l : Lot) : List (Nat × Nat × Nat) :=
  h.loadedImages.flatMap fun e => e.2.tableRefs.filterMap fun t =>
    if ((h.lotFor e.2.pen t.1).map Prod.fst) = some lot ∧ ((l.tensors[t.2.2.2.1]?).map fun (x : Tensor) => x.layer) = some layer then
      (e.2.pstall t.2.1 t.2.2.1).map fun i => (i, t.2.2.2.2, t.2.2.2.1)
    else none

/-- The slot that a layer's new tables take is free (R171): the layer's present blocks name the other slot, and no
expander holds a block that names it. -/
def Hall.slotFree (h : Hall) (w : Swap) (l : Lot) (gen : Nat) : Bool :=
  let coded := (l.layerTensors w.layer).any fun e => floatWeight e.1.fmt
  !coded || (decide ((((l.layers[w.layer]?).map fun (y : Layer) => y.gen).getD 0) % 2 ≠ gen % 2) &&
    (h.pairCopies w.lot w.layer l).all fun c => decide ((h.stall c.1).refOf c.2.1 (decide (gen % 2 = 1)) = 0))

/-- SWAP_LAYER_TABLED (Table 13.4): the slot records are written into every copy, and the barrier is raised. -/
def Hall.layerTabled (h : Hall) (k : Nat) : Hall :=
  match h.swap k with
  | none => h
  | some w => match w.manifest, h.lot w.lot with
    | some m, some l =>
      if w.state ≠ .programmed ∨ h.slotFree w l (manGen m) = false then h
      else
        let slot := manGen m % 2
        let h := (h.pairCopies w.lot w.layer l).foldl (fun h c =>
          match (manTensorList m)[c.2.2]?, l.layers[w.layer]? with
          | some t, some y => if floatWeight t.fmt then
              h.writeBytes (storeBase c.1 + c.2.1 + 64 * slot) (h.spareRead w (l.blockOf y.part 0).1 y.part (t.tpair + 64 * slot) 64)
            else h
          | _, _ => h) h
        h.updSwap k fun w => { w with state := .held }
    | _, _ => h

/-- The layer is empty: CROSSED equals LEFT in every image (R336). -/
def Hall.layerEmpty (h : Hall) (lot layer : Nat) : Bool :=
  h.weights.crossings.all fun c => decide (c.lot ≠ lot) || decide (c.layer ≠ layer) || decide (c.crossed = c.left)

/-- After a flip: once both journals are written the old blocks go, and the next layer is fetched or the swap ends
(R298, R336). -/
def Hall.swapSettle (h : Hall) (k : Nat) : Hall :=
  match h.swap k with
  | none => h
  | some w => match w.manifest, h.lot w.lot with
    | some m, some l =>
      let pair := ((l.layers[w.layer]?).map fun (y : Layer) => (l.blockOf y.part 0).1).getD 0
      if w.state ≠ .flipped ∨ h.flag .nvmcStatusJournal pair = true ∨ h.flag .nvmcStatusJournal (pair + 4) = true then h
      else match l.nextLayer (manGen m) (w.layer + 1) with
      | some j => (h.updSwap k fun w => { w with state := .fetch, layer := j }).jobAsk k
      | none => h.swapEnd k stOK
    | _, _ => h

def Hall.swapsSettle (h : Hall) : Hall := h.weights.swaps.foldl (fun h e => h.swapSettle e.1) h.oldSettle

/-- The flip transaction of a layer (R337), and the SWAP_LAYER event. -/
def Hall.flipLayer (h : Hall) (k : Nat) (w : Swap) (m : Bytes) (l : Lot) (y : Layer) : Hall :=
  let pair := (l.blockOf y.part 0).1
  let news := fun (t : Tab Nat) => (List.range y.shards).filterMap fun n =>
    (Tab.find t (spareKey y.part (y.first + n))).map fun b => ((l.blockOf y.part (y.first + n)).2, b)
  let olds := (news w.spareLo).map (fun e => (pair, h.nvPhys pair e.1)) ++ (news w.spareHi).map fun e => (pair + 4, h.nvPhys (pair + 4) e.1)
  let h := (h.bmapApply pair (news w.spareLo)).bmapApply (pair + 4) (news w.spareHi)
  let first := (l.blockOf y.part y.first).2
  let h := (h.forgetBlocks pair first y.shards).poolInvalidate fun page =>
    decide ((0x040000000000 + pair * 0x008000000000 + first * shardBytes) / 65536 ≤ page) &&
      decide (page < (0x040000000000 + pair * 0x008000000000 + (first + y.shards) * shardBytes) / 65536)
  let from' := partFirst l.partShards y.part + y.first
  let h := h.updLot w.lot fun l => { l with
    layers := l.layers.zipIdx.map fun e => if e.2 = w.layer then { e.1 with gen := manGen m } else e.1
    digests := l.digests.zipIdx.map fun e => if from' ≤ e.2 ∧ e.2 < from' + y.shards then manDigest m e.2 else e.1 }
  let h := (h.updSwap k fun w => { w with state := .flipped }).postMany l.grants 0x0301
    (leBytes 4 w.lot ++ leBytes 2 w.layer ++ leBytes 4 (manGen m))
  ({ h with weights.oldBlocks := h.weights.oldBlocks ++ olds }).swapsSettle

/-- SWAP_LAYER_FLIP (R337). -/
def Hall.layerFlip (h : Hall) (k : Nat) : Hall :=
  match h.swap k with
  | none => h
  | some w => match w.manifest, h.lot w.lot with
    | some m, some l => match l.layers[w.layer]? with
      | some y => if w.state = .held ∧ h.layerEmpty w.lot w.layer = true ∧ h.withdrawsDone = true then h.flipLayer k w m l y
                  else h
      | none => h
    | _, _ => h

/-! ### Consistent swap (R338) -/

/-- An image reads a lot, or an adapter at its place. -/
def Hall.imageReads (h : Hall) (im : Image) (k : Nat) : Bool :=
  im.lotrefs.any fun b =>
    (decide (leAt b 0 1 = 1) && decide (((h.lotFor im.pen (leAt b 4 4)).map Prod.fst) = some k)) ||
    (decide (leAt b 0 1 = 6) && match Tab.find h.weights.adapters k with
      | some a => a.pen = im.pen && a.lotId = leAt b 4 4 && a.mva = leAt b 8 4 * 65536
      | none => false)

/-- Rewrites every L3 entry of a pen that maps OLD to NEW at the same LOT_OFF. -/
def Hall.remapPages (h : Hall) (pen : Nat) (old new : Lot) : Hall :=
  (h.tiers.pages.filter fun e => decide (e.1 / 2 ^ 32 = pen) && pteType e.2 = 2).foldl (fun h e =>
    match (old.offOf (ptePhys e.2)).bind new.homeOf with
    | some a => h.setPte pen (e.1 % 2 ^ 32 * 65536) (some (e.2 - ptePhys e.2 + a))
    | none => h) h

/-- The images of a pen that read OLD come to read NEW. -/
def Hall.remapIds (h : Hall) (pen old new : Nat) : Hall :=
  let ids := ((h.data.images.filter fun e => e.2.pen = pen).flatMap fun e => e.2.lotIds).filter fun id =>
    ((h.lotFor pen id).map Prod.fst) = some old
  { h with weights.remaps := ids.foldl (fun t id => Tab.set t (pen * 2 ^ 32 + id) new) h.weights.remaps }

/-- Exchanges the frames under two adapters of a pen: OLD's place comes to hold NEW. -/
def Hall.remapAdapters (h : Hall) (pen ka kb : Nat) (a b : Adapter) : Hall :=
  let h := (List.range (min a.pages b.pages)).foldl (fun h i =>
    let ma := a.mva + i * 65536
    let mb := b.mva + i * 65536
    let ea := h.pte pen ma
    let eb := h.pte pen mb
    (h.setPte pen ma eb).setPte pen mb ea) h
  { h with weights.adapters := Tab.set (Tab.set h.weights.adapters ka { a with mva := b.mva }) kb { b with mva := a.mva } }

/-- Launch entries of the old image take the templates of NEW_IMAGE by rank; it starts, and the old image is retired. -/
def Hall.changeImage (h : Hall) (old new : Nat) : Hall :=
  match h.image old, h.image new with
  | some o, some n =>
    let h := { h with data.launch := Tab.keep (fun _ (e : LaunchEntry) => decide (e.handle ≠ new)) h.data.launch }
    let h := n.templates.zipIdx.foldl (fun h e =>
      { h with data.launch := Tab.set h.data.launch (256 * o.pen + o.firstLaunch + e.2) (templateEntry new e.1) }) h
    ((h.updImage new fun im => { im with firstLaunch := o.firstLaunch }).imageStart new).imageFree old
  | _, _ => h

/-- A consistent swap ends: INTAKE_ON of the entries it held is set again. -/
def Hall.consistentEnd (h : Hall) (k status : Nat) : Hall :=
  match h.swap k with
  | none => h
  | some w =>
    let h := w.held.foldl (fun h e => h.updLaunch e fun x => { x with intakeOn := true }) h
    ({ h with weights.swaps := Tab.erase h.weights.swaps k }).closeOp k status

/-- The flip of a consistent swap (Table 13.6, order 3): the table pairs of the images that read NEW are rewritten
whole. -/
def Hall.consistentFlip (h : Hall) (w : Swap) : Hall :=
  let h :=
    if w.newImage ≠ 0 then h.changeImage w.oldImage w.newImage
    else match h.lot w.lot, h.lot w.newLot with
    | some o, some n => (h.remapIds w.pen w.lot w.newLot).remapPages w.pen o n
    | _, _ => match Tab.find h.weights.adapters w.lot, Tab.find h.weights.adapters w.newLot with
      | some a, some b => h.remapAdapters w.pen w.lot w.newLot a b
      | _, _ => h
  h.loadedImages.foldl (fun h e =>
    if e.2.pen = w.pen && h.imageReads e.2 w.newLot then
      e.2.tableRefs.foldl (fun h t => h.copyPair e.2 t.1 t.2.1 t.2.2.1 t.2.2.2.1 t.2.2.2.2) h
    else h) h

/-- The last request under the held entries has ended. -/
def Hall.heldDrained (h : Hall) (w : Swap) : Bool :=
  !(h.data.requests.any fun e => w.held.contains (256 * e.2.pen + e.2.launch))

/-! ### Ends from outside (R328, R341, R339) -/

/-- A swap ends before its time: DEADLINE or ABORTED. -/
def Hall.swapStop (h : Hall) (k status : Nat) : Hall :=
  match h.swap k with
  | none => h
  | some w =>
    if !w.rolling then h.consistentEnd k status
    else match w.manifest, h.lot w.lot with
    | some m, some l => if w.state = .flipped ∧ (l.nextLayer (manGen m) (w.layer + 1)).isNone = true then h else h.swapEnd k status
    | _, _ => h.swapEnd k status

/-- Pen reset: swaps issued from the pen's till end (Table 13.7). -/
def Hall.swapsPenReset (h : Hall) (pen : Nat) : Hall :=
  (h.weights.swaps.filter fun e => e.2.pen = pen).foldl (fun h e => h.swapStop e.1 stAborted) h

/-- The governing role moves: a HELD layer lowers its barrier and returns to TABLED (Table 13.7). -/
def Hall.swapsRoleMoved (h : Hall) : Hall :=
  { h with weights.swaps := h.weights.swaps.map fun e => if e.2.state = .held then (e.1, { e.2 with state := .tabled }) else e }

/-- At start-up every interrupted installation is undone, and every interrupted rolling swap is settled by the journals
of its rows (R339). -/
def Hall.lotsAtStart (h : Hall) : Hall :=
  let h := h.weights.installs.foldl (fun h e => h.installUndo e.2) h
  let one := fun (h : Hall) (e : Nat × Swap) =>
    match e.2.manifest, h.lot e.2.lot with
    | some m, some l =>
      if !e.2.rolling then h
      else
        let at' := fun (t : Tab Nat) (off : Nat) (y : Layer) => (List.range y.shards).all fun n =>
          match Tab.find t (spareKey y.part (y.first + n)) with
          | some b => decide (nvMapped (h.array ((l.blockOf y.part 0).1 + off)).journal (l.blockOf y.part (y.first + n)).2 = b)
          | none => false
        let kept := fun (y : Layer) => at' e.2.spareLo 0 y || at' e.2.spareHi 4 y
        let h := l.layers.foldl (fun h y =>
          if kept y then
            let pair := (l.blockOf y.part 0).1
            let put := fun (h : Hall) (off : Nat) (t : Tab Nat) => h.updArray (pair + off) fun a =>
              let map := mapWith a.map ((List.range y.shards).filterMap fun n =>
                (Tab.find t (spareKey y.part (y.first + n))).map fun b => ((l.blockOf y.part (y.first + n)).2, b))
              { a with map := map, journal := map }
            put (put h 0 e.2.spareLo) 4 e.2.spareHi
          else h) h
        let regen := fun (y : Layer) => if kept y then manGen m else if y.gen = manGen m then l.gen else y.gen
        let h := h.updLot e.2.lot fun l => { l with layers := l.layers.map fun (y : Layer) => { y with gen := regen y } }
        let h := (h.dropSpares e.2).updLot e.2.lot fun l => { l with state := l.restState }
        match h.lot e.2.lot with
        | some l =>
          let top := l.layers.foldl (fun n (y : Layer) => max n y.gen) 0
          let n := (l.layers.filter fun (y : Layer) => y.gen = top).length
          h.postMany l.grants 0x0302 (leBytes 4 e.2.lot ++ leBytes 2 n ++ leBytes 1 (Config.lotState (if l.state = .ready then 1 else 3)))
        | none => h
    | _, _ => h
  let h := h.weights.swaps.foldl one h
  { h with weights.installs := [], weights.swaps := [], weights.crossings := [], weights.remaps := [] }

/-! ### Shards that arrive -/

/-- A manifest that does not verify sends the job to the next source, and after the last it ends. -/
def Hall.manifestBad (h : Hall) (k status : Nat) (j : Job) : Hall :=
  let s := Tab.get {} j.shards manifestShard
  if s.src + 1 < j.sources.length then (h.updShard k manifestShard fun s => { s with src := s.src + 1, fails := 0 }).jobAsk k
  else if (h.install k).isSome then h.installFail k status
  else h.swapEnd k stBadArg

/-- A manifest has arrived. -/
def Hall.manifestArrives (h : Hall) (k : Nat) (j : Job) (m : Bytes) : Hall :=
  match h.manifestFault m 0 with
  | some st => h.manifestBad k st j
  | none => match h.install k, h.swap k with
    | some x, _ => h.installPlace k x m
    | none, some w => h.swapBegin k w m
    | none, none => h

/-- A shard that a job still needs has arrived from a source: one whose digest matches is programmed; one that does not
match fails where its source is the one asked (R327). -/
def Hall.shardArrives (h : Hall) (k i : Nat) (j : Job) (src : Option Nat) (data : Bytes) : Hall :=
  match j.manifest with
  | none => h
  | some m =>
    if data.length = shardBytes ∧ Config.sha512 data = manDigest m i then
      if (h.install k).isSome then h.installShard k i data else h.swapShard k i data
    else if src = some (Tab.get {} j.shards i).src then h.shardFail k i
    else h

/-- A shard, or the manifest, that a neighbour has sent whole for a job: port, transfer key, bytes, its source. -/
def Hall.sentWhole (h : Hall) (k i : Nat) : Option (Nat × Nat × Bytes × Nat) :=
  ((List.range 4).flatMap fun p => (h.nbr p).rids.filterMap fun (e : Nat × Rid) =>
    if e.2.server || decide (e.2.job ≠ k) then none
    else match Tab.find e.2.parts i with
    | some b => if b.length = (if i = manifestShard then e.2.mlen else shardBytes) then some (p, e.1, b, e.2.lot) else none
    | none => none).head?

/-- Bytes staged in host memory at a source's address: the manifest, or shard `i` after it (R326). -/
def Hall.hostShard (h : Hall) (addr i mlen : Nat) : Bytes :=
  if i = manifestShard then
    let n := manLen (h.hostRead addr 128)
    if n ≤ manMax then h.hostRead addr n else h.hostRead addr 128
  else h.hostRead (addr + mlen + i * shardBytes) shardBytes

/-- A shard that arrives takes its effect on its job. -/
def Hall.shardEffect (h : Hall) (k i : Nat) (j : Job) (src : Option Nat) (b : Bytes) : Hall :=
  if i = manifestShard then
    if j.manifest.isNone && decide (src = some (Tab.get {} j.shards i).src) then h.manifestArrives k j b else h
  else if shardDone j.shards i then h else h.shardArrives k i j src b

/-- Whether a whole shard of a neighbour verifies, for SHARD_ACK. -/
def shardVerdict (j : Job) (i : Nat) (b : Bytes) : Bool :=
  match j.manifest with
  | some m => decide (i = manifestShard) || (decide (b.length = shardBytes) && decide (Config.sha512 b = manDigest m i))
  | none => true

/-- SHARD_VERIFY (R327): a shard that a neighbour has sent whole, acknowledged with SHARD_ACK; else one read from host
memory, where `data` is what the host has stored at its place by then (log entry 8). -/
def execShardVerify (job shard : Nat) (data : Bytes) (s : State) : Host.Outcome State Fault Refusal :=
  s.run fun h => match h.job job with
    | none => h
    | some j => match h.sentWhole job shard with
      | some (p, key, b, src) =>
        let good := shardVerdict j shard b
        let h := h.updNbr p fun x => { x with rids := match Tab.find x.rids key with
          | some r => Tab.set x.rids key { r with parts := Tab.erase r.parts shard, wanted := r.wanted.filter (· ≠ shard) }
          | none => x.rids }
        let h := h.nbrPost p 1 0x25 (beBytes 4 (key / 2) ++ beBytes 4 shard ++ [if good then 0 else 1, 0, 0, 0])
        h.shardEffect job shard j (some src) b
      | none =>
        let st := Tab.get ({} : ShardSt) j.shards shard
        match j.sources[st.src]? with
        | some x =>
          if x.nbr || !j.due.contains shard then h
          else
            let mlen := (j.manifest.map List.length).getD 0
            let at' := if shard = manifestShard then x.addr else x.addr + mlen + shard * shardBytes
            let h := if data = [] then h else h.hostWrite at' data
            h.shardEffect job shard j (some st.src) (h.hostShard x.addr shard mlen)
        | none => h

/-- SHARD_TIMEOUT (R327): the shard has not arrived within SHARD_MS; it is asked for again. -/
def execShardTimeout (job shard : Nat) (s : State) : Host.Outcome State Fault Refusal :=
  s.run fun h => match h.job job with
    | none => h
    | some j =>
      if !j.due.contains shard then h
      else
        let st := Tab.get ({} : ShardSt) j.shards shard
        let h := h.shardFail job shard
        match j.sources[st.src]? with
        | some x => match h.jobRid x.port job st.src with
          | some (key, r) =>
            if x.nbr && decide (st.fails < 3) && r.wanted.contains shard then
              (h.updNbr x.port fun y => { y with rids := Tab.set y.rids key { r with parts := Tab.erase r.parts shard } }).sendWant x.port key [shard]
            else h
          | none => h
        | none => h

/-- INSTALL_DEADLINE (R328). -/
def execInstallDeadline (job : Nat) (s : State) : Host.Outcome State Fault Refusal := s.run fun h => h.installFail job stDeadline

def execSwapLayerProgrammed (job : Nat) (s : State) : Host.Outcome State Fault Refusal := s.run fun h => h.layerProgrammed job
def execSwapLayerTabled (job : Nat) (s : State) : Host.Outcome State Fault Refusal := s.run fun h => h.layerTabled job
def execSwapLayerFlip (job : Nat) (s : State) : Host.Outcome State Fault Refusal := s.run fun h => h.layerFlip job

/-- SWAP_BARRIER_TIMEOUT (Table 13.4): the barrier is lowered without a flip. -/
def execSwapBarrierTimeout (job : Nat) (s : State) : Host.Outcome State Fault Refusal :=
  s.run fun h => match h.swap job with
    | some w => if w.rolling && w.state = .held && !h.layerEmpty w.lot w.layer then h.updSwap job fun w => { w with state := .tabled } else h
    | none => h

/-- SWAP_BARRIER_RETRY: the barrier is raised again. -/
def execSwapBarrierRetry (job : Nat) (s : State) : Host.Outcome State Fault Refusal :=
  s.run fun h => match h.swap job with
    | some w => if w.rolling && w.state = .tabled then h.updSwap job fun w => { w with state := .held } else h
    | none => h

/-- SWAP_DEADLINE (R328, Table 13.4). -/
def execSwapDeadline (job : Nat) (s : State) : Host.Outcome State Fault Refusal :=
  s.run fun h => match h.swap job with
    | some w => if w.rolling then h.swapStop job stDeadline else h
    | none => h

/-- CONSISTENT_SWAP_FLIP (Table 13.6). -/
def execConsistentSwapFlip (job : Nat) (s : State) : Host.Outcome State Fault Refusal :=
  s.run fun h => match h.swap job with
    | some w => if !w.rolling && h.heldDrained w then (h.consistentFlip w).consistentEnd job stOK else h
    | none => h

/-- CONSISTENT_SWAP_DEADLINE (R338). -/
def execConsistentSwapDeadline (job : Nat) (s : State) : Host.Outcome State Fault Refusal :=
  s.run fun h => match h.swap job with
    | some w => if !w.rolling && !h.heldDrained w then h.consistentEnd job stDeadline else h
    | none => h

/-- A deferred erase starts once no read under the old mapping is in flight (R299): in a bank, and of blocks that a flip
has removed from the map. -/
def execEraseDeferredStart (row : Fin 8) (bank : Fin 16) (s : State) : Host.Outcome State Fault Refusal :=
  s.run fun h =>
    let o := h.bankOp row.val bank.val
    let h := if o.deferred && decide (h.nvOldReads row.val (h.bankPblock row.val bank.val) = 0) then
        h.setBankOp row.val bank.val { o with deferred := false }
      else h
    h.oldSettle

/-- The batch is written to the journal (R298); a flip that waited for it goes on. -/
def execNvmcJournalWrite (row : Fin 8) (s : State) : Host.Outcome State Fault Refusal :=
  s.run fun h =>
    if h.flag .nvmcStatusJournal row.val then
      ((h.updArray row.val fun a => { a with journal := a.map }).setF .nvmcStatusJournal row.val 0).swapsSettle
    else h

/-! ### WEIGHT commands (Table 13.8) -/

/-- Source entries from an offset of the payload; none where one breaks R342. -/
def TillCmd.sources (c : TillCmd) (o n : Nat) : Option (List Source) :=
  (List.range n).foldl (fun acc i => match acc with
    | none => none
    | some l =>
      let b := o + 16 * i
      let kind := c.arg b 1
      if 1 < kind ∨ 3 < c.arg (b + 1) 1 ∨ c.arg (b + 2) 6 ≠ 0 then none
      else some (l ++ [{ nbr := decide (kind = 1), port := c.arg (b + 1) 1, addr := c.arg (b + 8) 8 }])) (some [])

/-- WEIGHT_INSTALL (R322–R326). -/
def execWeightInstall (till : Fin 128) (s : State) : Host.Outcome State Fault Refusal :=
  s.till till.val 0x0301 never fun c h =>
    let n := c.arg 0 1
    let pair := c.arg 1 1
    let ok := decide (1 ≤ n ∧ n ≤ 4) && decide (c.length = 10 + 16 * n) && (decide (pair ≤ 3) || decide (pair = 255)) &&
      decide (c.arg 2 1 ≤ 1) && decide (c.arg 3 1 = 0) && decide (1 ≤ c.arg 4 2 ∧ c.arg 4 2 ≤ 1000) &&
      decide (1 ≤ c.arg 6 4 ∧ c.arg 6 4 ≤ 3600000)
    match c.sources 10 n with
    | none => refuse h stBadArg
    | some src =>
      if !ok then refuse h stBadArg
      else acceptOp h c fun k h =>
        let lot := h.weights.nextLot
        let x : Install := { lot := lot, pair := if pair = 255 then none else some pair, serve := decide (c.arg 2 1 = 1), sources := src }
        ({ h with weights.installs := Tab.set h.weights.installs k x, weights.nextLot := lot + 1 }).jobAsk k

/-- Rows in which a pen owns stalls. -/
def Hall.penRows (h : Hall) (p : Nat) : List Nat := ((h.stallsOf p).map (· / 16)).dedup

/-- R330: with a lot granted to more than one pen, each owns stalls in at most two rows. -/
def Hall.grantsFit (h : Hall) (grants : List Nat) : Bool :=
  decide (grants.length ≤ 16) && (decide (grants.length ≤ 1) || grants.all fun p => decide ((h.penRows p).length ≤ 2))

/-- WEIGHT_GRANT (R330). -/
def execWeightGrant (till : Fin 128) (s : State) : Host.Outcome State Fault Refusal :=
  s.till till.val 0x0302 never fun c h =>
    match h.lot (c.arg 0 4) with
    | none => refuse h stBadArg
    | some l =>
      if c.length ≠ 4 ∨ l.state = .installing ∨ l.state = .removing then refuse h stBadArg
      else if l.grants.contains c.pen then okWith h
      else if !h.grantsFit (l.grants ++ [c.pen]) then refuse h stNotPermitted
      else okWith (h.updLot (c.arg 0 4) fun l => { l with grants := l.grants ++ [c.pen] })

/-- A pen maps a lot. -/
def Hall.penMaps (h : Hall) (pen : Nat) (l : Lot) : Bool :=
  h.tiers.pages.any fun e => decide (e.1 / 2 ^ 32 = pen) && decide (pteType e.2 = 2) && (l.offOf (ptePhys e.2)).isSome

/-- WEIGHT_REVOKE. -/
def execWeightRevoke (till : Fin 128) (s : State) : Host.Outcome State Fault Refusal :=
  s.till till.val 0x0303 never fun c h =>
    let k := c.arg 0 4
    match h.lot k with
    | none => refuse h stBadArg
    | some l =>
      if c.length ≠ 4 ∨ l.grants.contains c.pen = false then refuse h stBadArg
      else if h.lotBusy k || h.penMaps c.pen l || h.loadedImages.any (fun e => e.2.pen = c.pen && h.imageReads e.2 k) then refuse h stBusy
      else okWith (h.updLot k fun l => { l with grants := l.grants.filter (· ≠ c.pen) })

/-- A lot or adapter that a pen may name as OLD or NEW. -/
def Hall.swapForm (h : Hall) (pen old new newImage : Nat) : Option (Bool × Nat) :=
  let layouts := match h.lot old, h.lot new with
    | some (o : Lot), some (n : Lot) =>
      if (decide (o.state = LotState.ready) || decide (o.state = LotState.mixed)) && decide (n.state = LotState.ready) && o.grants.contains pen && n.grants.contains pen && decide (old ≠ new) then
        some (decide (o.layout = n.layout))
      else none
    | _, _ => match Tab.find h.weights.adapters old, Tab.find h.weights.adapters new with
      | some a, some b => if a.pen = pen ∧ b.pen = pen ∧ old ≠ new then some (decide (a.layout = b.layout ∧ a.pages = b.pages)) else none
      | _, _ => none
  match layouts with
  | none => none
  | some true => some (true, 0)
  | some false =>
    match h.image newImage, h.loadedImages.filter (fun (e : Nat × Image) => decide (e.2.pen = pen) && h.imageReads e.2 old) with
    | some n, [(ko, o)] => if n.pen = pen ∧ n.state = ImgState.loaded ∧ n.nEntry = o.nEntry ∧ ko ≠ newImage then some (false, ko) else none
    | _, _ => none

/-- Launch entries of the pen's images that read a lot or adapter. -/
def Hall.readingEntries (h : Hall) (pen k : Nat) : List Nat :=
  (h.data.launch.filter fun e => e.2.valid && decide (e.1 / 256 = pen) && match h.image e.2.handle with
    | some im => h.imageReads im k
    | none => false).map Prod.fst

/-- WEIGHT_SWAP (R335, R338). -/
def execWeightSwap (till : Fin 128) (s : State) : Host.Outcome State Fault Refusal :=
  s.till till.val 0x0304 (fun c h => decide (c.pen = 0) || match h.lot (c.arg 4 4) with
      | some l => decide (1 < l.grants.length)
      | none => false) fun c h =>
    let old := c.arg 4 4
    let new := c.arg 8 4
    let rolling := decide (c.arg 0 1 = 0)
    let n := c.arg 24 1
    let ok := decide (c.arg 0 1 ≤ 1) && decide (c.arg 1 3 = 0) && decide (1 ≤ c.arg 20 4 ∧ c.arg 20 4 ≤ 3600000) &&
      (if rolling then decide (c.length = 25 + 16 * n) && decide (1 ≤ n ∧ n ≤ 4) && decide (new = 0) && decide (c.arg 12 4 = 0) &&
          decide (10 ≤ c.arg 16 2 ∧ c.arg 16 2 ≤ 10000) && decide (1 ≤ c.arg 18 2 ∧ c.arg 18 2 ≤ 1000)
        else decide (c.length = 24))
    match c.sources 25 (if rolling then n else 0) with
    | none => refuse h stBadArg
    | some src =>
      if !ok then refuse h stBadArg
      else acceptOp h c fun k h =>
        if h.lotBusy old then h.closeOp k stBusy
        else if rolling then
          match h.lot old with
          | none => h.closeOp k stBadArg
          | some l =>
            if !(l.state = .ready || l.state = .mixed) || !(tillSecure c.till || l.grants.contains c.pen) then h.closeOp k stBadArg
            else ({ h with weights.swaps := Tab.set h.weights.swaps k { rolling := true, pen := c.pen, lot := old, sources := src } }).jobAsk k
        else match h.swapForm c.pen old new (c.arg 12 4) with
          | none => h.closeOp k stBadArg
          | some (remap, ko) =>
            let held := (h.readingEntries c.pen old).filter fun e => ((h.launchEntry e).map fun x => x.intakeOn) = some true
            let h := held.foldl (fun h e => h.updLaunch e fun x => { x with intakeOn := false }) h
            let w : Swap := { rolling := false, pen := c.pen, lot := old, newLot := new
                              newImage := if remap then 0 else c.arg 12 4, oldImage := ko, held := held }
            { h with weights.swaps := Tab.set h.weights.swaps k w }

/-- WEIGHT_REMOVE. -/
def execWeightRemove (till : Fin 128) (s : State) : Host.Outcome State Fault Refusal :=
  s.till till.val 0x0305 never fun c h =>
    let k := c.arg 0 4
    match h.lot k with
    | none => refuse h stBadArg
    | some l =>
      if c.length ≠ 4 then refuse h stBadArg
      else if decide (l.grants ≠ []) || h.lotBusy k || l.state = .installing then refuse h stBusy
      else acceptOp h c fun op h =>
        ((h.lotWithdraw k l).updLot k fun l => { l with state := .removing, op := some op }).removeSettle k

/-- Rank of a lot's state in the table of R332. -/
def LotState.rank : LotState → Nat
  | .installing => 0
  | .ready => 1
  | .swapping => 2
  | .mixed => 3
  | .removing => 4

/-- WEIGHT_QUERY. -/
def execWeightQuery (till : Fin 128) (s : State) : Host.Outcome State Fault Refusal :=
  s.till till.val 0x0306 forP0 fun c h =>
    match h.lot (c.arg 0 4) with
    | none => refuse h stBadArg
    | some l =>
      if c.length ≠ 6 then refuse h stBadArg
      else okWith h (leBytes 1 (Config.lotState l.state.rank) ++ leBytes 4 l.lotId ++ leBytes 4 l.gen ++ leBytes 2 l.layers.length ++
        ((List.range 8).map fun i => BitVec.ofNat 8 (((l.parts[i]?).map Prod.fst).getD 255)) ++
        (((l.layers.drop (c.arg 4 2)).take 960).flatMap fun y => leBytes 4 y.gen))

/-- Verifies and places an adapter; its status (R331). -/
def Hall.adapterInstall (h : Hall) (pen mva : Nat) (b : Bytes) (k : Nat) : Nat × Hall :=
  let m := b.take (manLen b)
  let n := manShards m
  let pages := 64 * n
  let half : Hub := if pages ≤ h.freeIn .a then .a else .b
  match h.manifestFault m 1 with
  | some st => (st, h)
  | none =>
    if b.length ≠ manLen b + n * shardBytes then (stBadArg, h)
    else if !((List.range n).all fun i => decide (Config.sha512 (slice b (manLen b + i * shardBytes) shardBytes) = manDigest m i)) then (stVerifyFailed, h)
    else if !(h.weights.lots.any fun e => e.2.lotId = manBase m && e.2.grants.contains pen) then (stNotPermitted, h)
    else if mva % 65536 ≠ 0 ∨ 2 ^ 48 < mva + pages * 65536 ∨ ((pageRange (mva / 65536) pages).any fun p => h.pageTaken pen p) = true then (stBadArg, h)
    else if h.penQuota pen < h.penUsed pen + pages ∨ h.freeIn half < pages then (stNoResource, h)
    else
      let frames := h.lowPages half pages
      let h := frames.zipIdx.foldl (fun h e =>
        ((h.takeFrame pen e.1).writeBytes (e.1 * 65536) (slice b (manLen b + e.2 * 65536) 65536)).setPte pen (mva + e.2 * 65536)
          (some (mkPte 1 false false (e.1 * 65536) 0))) h
      let a : Adapter := { lotId := manLotId m, gen := manGen m, baseId := manBase m, pen := pen, mva := mva, pages := pages, manifest := m, layout := manLayout m }
      (stOK, { h with weights.adapters := Tab.set h.weights.adapters k a, weights.nextLot := k + 1 })

/-- WEIGHT_ADAPTER (R331). -/
def execWeightAdapter (till : Fin 128) (s : State) : Host.Outcome State Fault Refusal :=
  s.till till.val 0x0307 forP0 fun c h =>
    if c.length ≠ 20 then refuse h stBadArg
    else acceptOp h c fun op h =>
      match h.stageCopy c.pen (c.arg 8 8) (c.arg 16 4) with
      | (.inl st, h) => h.closeOp op st
      | (.inr b, h) =>
        let k := h.weights.nextLot
        let (st, h) := h.adapterInstall c.pen (c.arg 0 8) b k
        h.closeOp op st (if st = stOK then leBytes 4 k else [])

end Sys2Proof.Machine
end

