-- ==== Sys2Proof/Machine/Settle.lean ====
section
/-! DEFINITION. Copies of a weight block's erase block that differ, or that an expander poison record names, are settled
unit by unit (R316, Table 12.7, R340). -/

namespace Sys2Proof.Machine

/-- A unit of a lot's content that a check covers: offset from the start of its part, length, and the check on a copy. -/
structure LotUnit where
  off : Nat
  len : Nat
  check : (Nat → Nat → Bytes) → Bool

/-- Outcome of Table 12.7 for one unit. -/
inductive UnitEnd where
  | same | first | second | poison
deriving DecidableEq, Repr

/-- Bytes of a part in the copy of row `row`. -/
def Hall.copyRead (h : Hall) (l : Lot) (part row o n : Nat) : Bytes :=
  let first := (l.blockOf part 0).2
  (List.range n).map fun i => (h.nvLogicalRead row (first * shardBytes + o + i) 1).getD 0 0

/-- The index of a tensor from the copy in which it is well-formed. -/
def goodIndex (t : Tensor) (hi : Nat) (ra rb : Nat → Nat → Bytes) : Bytes × Bytes :=
  let a := indexBytes ra t hi
  if indexOk t.fmt a.1 a.2 then a else indexBytes rb t hi

/-- Units of a tensor: segment index, table slots, weight blocks. -/
def tensorUnits (t : Tensor) (hi : Nat) (ra rb : Nat → Nat → Bytes) : List LotUnit :=
  let x := goodIndex t hi ra rb
  let nseg := x.2.length / 8
  let index : LotUnit := { off := t.sidx, len := 32 + 8 * nseg
                           check := fun rd => let y := indexBytes rd t hi; indexOk t.fmt y.1 y.2 }
  let slots : List LotUnit := if floatWeight t.fmt then [0, 1].map fun i =>
      { off := t.tpair + 64 * i, len := 64, check := fun rd => slotRecOk (rd (t.tpair + 64 * i) 64) t.fmt } else []
  let base := Config.tensorBase t.sidx (leAt x.1 4 4)
  let table := fun (rd : Nat → Nat → Bytes) (i : Nat) => if floatWeight t.fmt then loadSlotRec (rd (t.tpair + 64 * i) 64) t.fmt else none
  let blocks : List LotUnit := (List.range (leAt x.1 8 4)).map fun n =>
    let p := blockAt t.fmt (indexEntries x.2) n
    let z := (blockSize t.fmt p.2).getD 0
    { off := base + p.1, len := z, check := fun rd => decide ((decodeBlock (rd (base + p.1) z) t.fmt p.2 (table rd 0) (table rd 1)).cause = 0) }
  index :: slots ++ blocks

/-- Table 12.7 for one unit; where both copies match their check, the one that agrees with the manifest digest wins. -/
def unitEnd (same : Bool) (okA okB digA digB : Bool) : UnitEnd :=
  if same then (if okA then .same else .poison)
  else if okA && !okB then .first
  else if okB && !okA then .second
  else if okA && okB then (if digA then .first else if digB then .second else .poison)
  else .poison

/-- A part's byte lies in one of the units given. -/
def inUnits (us : List (LotUnit × UnitEnd)) (o : Nat) : Option UnitEnd :=
  (us.find? fun u => decide (u.1.off ≤ o) && decide (o < u.1.off + u.1.len)).map Prod.snd

/-- A copy with the winning units of the other one. -/
def mergeCopy (us : List (LotUnit × UnitEnd)) (rest : UnitEnd) (base : Nat) (mine other : Bytes) (take : UnitEnd) : Bytes :=
  (List.range mine.length).map fun i =>
    if (inUnits us (base + i)).getD rest = take then other.getD i 0 else mine.getD i 0

/-- MIRROR_SETTLE (R316): decides every unit of a logical erase block that is due, relocates the losing copies, and enters
what both copies have lost in the row pair's poison list. A block that no lot holds needs no settlement. -/
def execMirrorSettle (row : Fin 8) (lblock : Nat) (s : State) : Host.Outcome State Fault Refusal :=
  s.run fun h =>
    let r := row.val % 4
    let clear := fun (h : Hall) => h.updArray r fun a => { a with dueSettle := a.dueSettle.filter (· ≠ lblock) }
    if !(h.array r).dueSettle.contains lblock then h
    else
      let place := h.weights.lots.flatMap fun e => e.2.parts.zipIdx.filterMap fun p =>
        if p.1.1 = r ∧ 256 * p.1.2.1 ≤ lblock ∧ lblock < 256 * p.1.2.1 + p.1.2.2 then some (e.2, p.2, lblock - 256 * p.1.2.1) else none
      match place.head? with
      | none => clear h
      | some (l, part, n) =>
        let ra := h.copyRead l part r
        let rb := h.copyRead l part (r + 4)
        let lo := n * shardBytes
        let a := ra lo shardBytes
        let b := rb lo shardBytes
        let digest := l.digests.getD (partFirst l.partShards part + n) []
        let digA := decide (Config.sha512 a = digest)
        let digB := decide (Config.sha512 b = digest)
        let units := (l.tensors.flatMap fun t => match l.layers[t.layer]? with
          | some y => if y.part = part ∧ y.first ≤ n ∧ n < y.first + y.shards then tensorUnits t ((y.first + y.shards) * shardBytes) ra rb else []
          | none => []).filter fun u => decide (u.off < lo + shardBytes) && decide (lo < u.off + u.len)
        let ended := units.map fun u =>
          (u, unitEnd (decide (ra u.off u.len = rb u.off u.len)) (u.check ra) (u.check rb) digA digB)
        let a1 := mergeCopy ended .same lo a b .second
        let b1 := mergeCopy ended .same lo b a .first
        let others := (List.range shardBytes).filter fun i => (inUnits ended (lo + i)).isNone && decide (a.getD i 0 ≠ b.getD i 0)
        let rest := if others = [] then UnitEnd.same
          else unitEnd false (decide (Config.sha512 a1 = digest)) (decide (Config.sha512 b1 = digest)) digA digB
        let fa := mergeCopy ended rest lo a b .second
        let fb := mergeCopy ended rest lo b a .first
        let lines := ((ended.filter fun u => u.2 = .poison).flatMap fun u =>
            (List.range ((u.1.off % 64 + u.1.len + 63) / 64)).map fun i => u.1.off / 64 + i) ++
          (if rest = .poison then others.map fun i => (lo + i) / 64 else [])
        let first := (l.blockOf part 0).2
        let here := ((lines.map fun x => first * (shardBytes / 64) + x).filter fun x => x / (shardBytes / 64) = lblock).dedup
        let one := if fa = a then some h else h.nvRelocate r lblock fa
        let two := match one with
          | some h => if fb = b then some h else h.nvRelocate (r + 4) lblock fb
          | none => none
        match two with
        | none => h
        | some h =>
          let h := if here = [] then h
            else (h.updArray r fun x => { x with poisonLines := x.poisonLines ++ here.filter fun i => !x.poisonLines.contains i }).ordinary .nvm r lblock
          let bothOk := ended.any fun u => u.1.check ra && u.1.check rb && decide (u.2 ≠ .same)
          clear (if bothOk then h.ordinary .nvm r lblock else h)

end Sys2Proof.Machine
end

