-- ==== Sys2Proof/Machine/Nbr.lean ====
section
/-! DEFINITION. Neighbour links: bring-up, keys and rekeys (R396–R398), the end of a link (R404), events (R408), and the
NBR commands (R407). -/

namespace Sys2Proof.Machine

/-! ### Events and errors -/

/-- The pen a port is assigned to. -/
def Hall.nbrPen (h : Hall) (p : Nat) : Option Nat := if h.flag .nbrCfgPenValid p then some (h.getF .nbrCfgPen p) else none

/-- An event of Table 16.9. -/
def Hall.nbrEvent (h : Hall) (p typ : Nat) (more : Bytes) : Hall := h.postMany (h.nbrPen p).toList typ (leBytes 1 p ++ more)

/-! ### Handshake messages (R397) -/

/-- Sends clear frames that RESP guards from now on. -/
def Hall.nbrGuard (h : Hall) (p : Nat) (l : List (Nat × Nat × Bytes)) : Hall :=
  let frame := fun (x : Nat × Nat × Bytes) => let hd := linkHeader 0 x.1 0 x.2.1 0 x.2.2.length ++ x.2.2; hd ++ beBytes 2 (crc16 hd)
  let h := h.updNbr p fun x => { x with guarded := l.map frame, resends := 0 }
  l.foldl (fun h x => h.nbrOut p (frame x)) h

def Hall.helloFrame (h : Hall) (p : Nat) : Nat × Nat × Bytes := (0x01, 0, beBytes 1 p ++ [0, 0, 0] ++ moduleId ++ slice (h.nbr p).nonce 0 32)

/-- CERT fragments of the chain presented, LAST on the last one. -/
def Hall.certFrames (h : Hall) : List (Nat × Nat × Bytes) :=
  let chain := h.presented
  let n := max 1 (ceilDiv chain.length 8192)
  (List.range n).map fun i =>
    (0x02, b2n (decide (i + 1 = n)), beBytes 2 (8192 * i) ++ beBytes 2 chain.length ++ (chain.drop (8192 * i)).take 8192)

/-- The 196 bytes that a PROOF covers (R397). -/
def proofBytes (peerNonce ownNonce ownModule peerModule : Bytes) : Bytes := ascii "IL8N" ++ peerNonce ++ ownNonce ++ ownModule ++ peerModule

/-- Sends the CERT fragments and PROOF, after the frames given. -/
def Hall.sendProof (h : Hall) (p : Nat) (first : List (Nat × Nat × Bytes)) : Hall :=
  let x := h.nbr p
  let (sig, h) := h.sign (proofBytes x.peerNonce (slice x.nonce 0 32) moduleId x.peerModule)
  h.nbrGuard p (first ++ h.certFrames ++ [(0x03, 0, sig)])

def Hall.setNbrState (h : Hall) (p st : Nat) : Hall := h.setF .nbrStatusState p st

/-- Sends HELLO with a fresh NONCE. -/
def Hall.nbrStart (h : Hall) (p : Nat) : Hall :=
  let (n, h) := h.draw 32
  let h := h.updNbr p fun x => { x with nonce := n, peerNonce := [], peerModule := [], peerLeaf := [], frags := [], fragTotal := 0
                                        fragLast := false, keys := [], pendKeys := [], prevKeys := [] }
  ((h.setNbrState p nbHello).setF .nbrStatusLead p 0).nbrGuard p [h.helloFrame p]

/-- DOWN to HELLO where the port is enabled and aligned (Table 16.3). -/
def Hall.nbrTry (h : Hall) (p : Nat) : Hall :=
  if h.nbrState p = nbDown && h.flag .nbrCfgEnable p && (h.nbr p).aligned && !h.hubLost (hubOf (p / 2)) then h.nbrStart p else h

/-- To HOLDOFF with NBR_REFUSED. -/
def Hall.nbrHoldoff (h : Hall) (p reason received : Nat) : Hall :=
  let h := h.updNbr p fun x => { x with guarded := [], keys := [], pendKeys := [] }
  (h.setNbrState p nbHoldoff).nbrEvent p 0x0803 (leBytes 1 reason ++ leBytes 1 received)

/-- A peer that does not prove itself: REFUSE, the event and a fault record. -/
def Hall.nbrRefuse (h : Hall) (p reason : Nat) : Hall :=
  ((h.nbrClear p 0x06 0 (beBytes 1 reason ++ [0, 0, 0])).nbrHoldoff p reason 0).ordinary .nbrError p reason

/-! ### End of a link (R404) -/

/-- Home pages of a port's T3 window. -/
def inT3 (p first n page : Nat) : Bool :=
  let base := 0x080000000000 + p * 0x040000000000 + first
  decide (base < (page + 1) * 65536) && decide (page * 65536 < base + n)

/-- The conversations of a port end. -/
def Hall.nbrEnd (h : Hall) (p : Nat) : Hall :=
  let rids := ((h.nbr p).rids.filter fun (e : Nat × Rid) => !e.2.server).map Prod.snd
  let h := h.updNbr p fun x => { x with
    convs := [], withdraws := [], notices := [], noticesIn := [], sentItems := [], ctlSend := 0, ctlRecv := none, limit := 0, sentUnits := 0
    granted := 8192, recvUnits := 0, reads := [], rids := [], keys := [], pendKeys := [], prevKeys := [], guarded := [], blocks := 0
    items := x.items.filter fun (i : HeldItem) => i.complete }
  let ops := (h.nbr p).rekeyOps
  let h := ops.foldl (fun h k => h.closeOp k 0x0540) (h.updNbr p fun x => { x with rekeyOps := [] })
  let h := (h.setFs p [(.nbrStatusKepoch, 0), (.nbrPeerId, 0)]).poolInvalidate fun page => inT3 p 0 0x040000000000 page
  let h := rids.foldl (fun h r => r.wanted.foldl (fun h i => h.shardFail r.job i) h) h
  h.weights.lots.foldl (fun h e => h.removeSettle e.1) h

/-- A link that was UP goes DOWN with its cause (Table 16.9); otherwise the port just goes DOWN. -/
def Hall.nbrDown (h : Hall) (p cause : Nat) : Hall :=
  let was := h.nbrUp p
  let h := (h.nbrEnd p).setNbrState p nbDown
  let h := if was then (h.bump .nbrDowns p).nbrEvent p 0x0802 (leBytes 1 cause) else h
  let h := if was && (decide (cause = 1) || decide (cause = 3)) then h.ordinary .nbrError p cause else h
  h.nbrTry p

/-- An error marked ERR of Table 16.5: at ERR_THRESH the link goes down. -/
def Hall.nbrErr (h : Hall) (p : Nat) : Hall :=
  let before := h.flag .nbrErrHit p
  let h := h.errorCount .nbrErrCount .nbrErrHit p 1 (h.getF .nbrCfgErrThresh p) .nbrError
  if !before && h.flag .nbrErrHit p && h.nbrUp p then h.nbrDown p 3 else h

/-- A hub is lost: its two ports go DOWN (R406). -/
def Hall.nbrHubLost (h : Hall) (hub : Hub) : Hall :=
  [2 * hubNum hub, 2 * hubNum hub + 1].foldl (fun h p => h.nbrDown p 6) h

/-- The governing role moves: ports in HELLO, PROVE or KEYING restart from HELLO. -/
def Hall.nbrRoleMoved (h : Hall) : Hall :=
  upTo 4 h fun h p => if 1 ≤ h.nbrState p ∧ h.nbrState p ≤ 3 then h.nbrStart p else h

/-- An anchor of neighbours is removed from slot `slot` (R430): links whose peer chain it anchored go down. -/
def Hall.nbrAnchorGone (h : Hall) (slot : Nat) : Hall :=
  upTo 4 h fun h p => if h.nbrUp p && decide ((h.nbr p).anchor = slot) then h.nbrDown p 7 else h

/-! ### Keys (R397, R398) -/

/-- The link comes UP under epoch 1. The first ACK of the activation conversation gives the peer its credit (DEDUCED from
R400, log entry 19). -/
def Hall.nbrEnterUp (h : Hall) (p : Nat) (keys : List Bytes) (epoch : Nat) : Hall :=
  let x := h.nbr p
  let h := h.updNbr p fun x => { x with
    keys := keys, pendKeys := [], prevKeys := [], guarded := [], resends := 0, convs := [], ctlSend := 0, ctlRecv := none
    limit := 0, sentUnits := 0, granted := 8192 - x.heldUnits, recvUnits := 0, blocks := 0 }
  let h := (h.setNbrState p nbUp).setFs p
    [(.nbrStatusKepoch, epoch), (.nbrPeerId, leNat (x.peerModule.take 8)), (.nbrErrCount, 0), (.nbrErrHit, 0)]
  (h.nbrEvent p 0x0801 (leBytes 1 epoch ++ x.peerModule.take 8)).nbrAck p 2

/-- The four conversation keys in 128 bytes. -/
def splitKeys (b : Bytes) : List Bytes := (List.range 4).map fun i => slice b (32 * i) 32

/-- KEYS: the lead draws and wraps four keys for an epoch. -/
def Hall.sendKeys (h : Hall) (p epoch : Nat) : Hall :=
  let (b, h) := h.draw 128
  let (w, h) := h.wrap (h.nbr p).peerLeaf (ascii "IL8N" ++ beBytes 1 epoch) (slice b 0 128)
  (h.updNbr p fun x => { x with pendKeys := splitKeys b, pendEpoch := epoch }).nbrGuard p [(0x04, 0, beBytes 1 epoch ++ [0, 0, 0] ++ w)]

/-- A rekey starts at the lead, unless one is under way. -/
def Hall.nbrRekey (h : Hall) (p : Nat) : Hall :=
  if h.nbrUp p && h.flag .nbrStatusLead p && decide ((h.nbr p).pendKeys = []) then
    h.sendKeys p (nextEpoch (h.getF .nbrStatusKepoch p))
  else h

/-- The new keys of a rekey are in force; rekeys asked for end with OK. -/
def Hall.nbrNewEpoch (h : Hall) (p : Nat) (keys : List Bytes) (epoch : Nat) : Hall :=
  let ops := (h.nbr p).rekeyOps
  let h := h.updNbr p fun x => { x with
    prevKeys := x.keys, prevEpoch := h.getF .nbrStatusKepoch p, keys := keys, pendKeys := [], guarded := [], resends := 0, rekeyOps := []
    blocks := 0 }
  ops.foldl (fun h k => h.closeOp k stOK) (h.setF .nbrStatusKepoch p epoch)

/-! ### Timers and line -/

/-- PCS_ALIGNED (R396). -/
def execPcsAligned (port : Fin 4) (s : State) : Host.Outcome State Fault Refusal :=
  s.run fun h => (h.updNbr port.val fun x => { x with aligned := true }).nbrTry port.val

/-- PCS_ALIGN_LOST (R396). -/
def execPcsAlignLost (port : Fin 4) (s : State) : Host.Outcome State Fault Refusal :=
  s.run fun h =>
    let h := h.updNbr port.val fun x => { x with aligned := false }
    if h.nbrUp port.val then h.nbrDown port.val 2 else h

/-- NBR_RESP_TIMEOUT (R396): the guarded messages are sent again, three times; then RESP lapses. -/
def execNbrRespTimeout (port : Fin 4) (s : State) : Host.Outcome State Fault Refusal :=
  s.run fun h =>
    let p := port.val
    let x := h.nbr p
    if x.guarded = [] then h
    else if x.resends < 3 then
      x.guarded.foldl (fun h f => h.nbrOut p f) (h.updNbr p fun x => { x with resends := x.resends + 1 })
    else if h.nbrUp p then h.nbrDown p 4
    else if 1 ≤ h.nbrState p ∧ h.nbrState p ≤ 3 then h.nbrHoldoff p 4 0
    else h

/-- NBR_HOLDOFF_EXPIRE (R396). -/
def execNbrHoldoffExpire (port : Fin 4) (s : State) : Host.Outcome State Fault Refusal :=
  s.run fun h => if h.nbrState port.val = nbHoldoff then h.nbrStart port.val else h

/-- NBR_DEAD (R396). -/
def execNbrDead (port : Fin 4) (s : State) : Host.Outcome State Fault Refusal :=
  s.run fun h => if h.nbrUp port.val then h.nbrDown port.val 1 else h

/-- NBR_KEEPALIVE_SEND (R396). -/
def execNbrKeepaliveSend (port : Fin 4) (s : State) : Host.Outcome State Fault Refusal :=
  s.run fun h => if h.nbrUp port.val then h.nbrControl port.val 0x08 [] else h

/-- NBR_RTO (R399): an unacknowledged frame is sent again. -/
def execNbrRto (port : Fin 4) (conv : Nat) (seq : Nat) (s : State) : Host.Outcome State Fault Refusal :=
  s.run fun h =>
    match Tab.find ((h.nbr port.val).conv conv).unacked seq with
    | some f => if h.nbrUp port.val then (h.nbrOut port.val f.bytes).bump .nbrRetrans port.val else h
    | none => h

/-- NBR_REKEY_TRIGGER (R398). -/
def execNbrRekeyTrigger (port : Fin 4) (s : State) : Host.Outcome State Fault Refusal := s.run fun h => h.nbrRekey port.val

/-- NBR_OLD_EPOCH_EXPIRE (R398). -/
def execNbrOldEpochExpire (port : Fin 4) (s : State) : Host.Outcome State Fault Refusal :=
  s.run fun h => h.updNbr port.val fun x => { x with prevKeys := [] }

/-! ### NBR commands (Table 16.8) -/

def nbrCounters : List Ctr :=
  [.nbrFramesIn, .nbrFramesOut, .nbrRetrans, .nbrFecCorr, .nbrFecUncorr, .nbrTagFail, .nbrMalformed, .nbrStale, .nbrReplay, .nbrDup,
   .nbrCredit, .nbrLateItems, .nbrContra, .nbrSendDiscard, .nbrPageReads, .nbrPageFail, .nbrDowns]

/-- NBR_CLEAR.STATS (R409). -/
def execNbrClearStats (req : Requester) (port : Fin 4) (s : State) : Host.Outcome State Fault Refusal :=
  s.board req fun h => h.clearCtrs port.val nbrCounters

/-- NBR_PORT_SET. -/
def execNbrPortSet (till : Fin 128) (s : State) : Host.Outcome State Fault Refusal :=
  s.till till.val 0x0801 never fun c h =>
    let p := c.arg 0 1
    if c.length ≠ 75 ∨ 3 < p ∨ 1 < c.arg 1 1 ∨ c.arg 2 2 ≠ 0 then refuse h stBadArg
    else
      let h := (h.updNbr p fun x => { x with pin := slice c.payload 4 64 }).setFs p
        [(.nbrCfgDeadUs, c.arg 68 2), (.nbrCfgNoticeLimitUs, c.arg 70 2), (.nbrCfgRtoUs, c.arg 72 1), (.nbrCfgErrThresh, c.arg 73 2),
         (.nbrCfgEnable, c.arg 1 1)]
      okWith (if c.arg 1 1 = 0 then h.nbrDown p 6 else h.nbrTry p)

/-- A loaded image has a chain that names space 6 or 7 of a port. -/
def Hall.imageNamesPort (h : Hall) (p : Nat) : Bool :=
  h.loadedImages.any fun e => (e.2.descs none).any fun d =>
    (decide (d.dspace = 6) && decide (d.dsel = p)) || (decide (d.sspace = 7) && decide (d.ssel = p))

/-- NBR_ASSIGN (R403). -/
def execNbrAssign (till : Fin 128) (s : State) : Host.Outcome State Fault Refusal :=
  s.till till.val 0x0802 never fun c h =>
    let p := c.arg 0 1
    let pen := c.arg 1 1
    if c.length ≠ 2 ∨ 3 < p ∨ (pen ≠ 255 ∧ (31 < pen ∨ h.penExists pen = false)) then refuse h stBadArg
    else if decide ((h.nbr p).items ≠ []) || h.imageNamesPort p then refuse h stBusy
    else okWith (if pen = 255 then h.setFs p [(.nbrCfgPenValid, 0), (.nbrCfgPen, 0)] else h.setFs p [(.nbrCfgPenValid, 1), (.nbrCfgPen, pen)])

/-- NBR_REKEY (R398). Where this module is not lead the operation ends with the next rekey of the lead. -/
def execNbrRekey (till : Fin 128) (s : State) : Host.Outcome State Fault Refusal :=
  s.till till.val 0x0803 never fun c h =>
    let p := c.arg 0 1
    if c.length ≠ 1 ∨ 3 < p then refuse h stBadArg
    else acceptOp h c fun k h =>
      if h.nbrUp p then (h.updNbr p fun x => { x with rekeyOps := x.rekeyOps ++ [k] }).nbrRekey p else h.closeOp k 0x0540

/-- NBR_QUERY. -/
def execNbrQuery (till : Fin 128) (s : State) : Host.Outcome State Fault Refusal :=
  s.till till.val 0x0804 forP0 fun c h =>
    let p := c.arg 0 1
    if c.length ≠ 1 ∨ 3 < p then refuse h stBadArg
    else if tillSecure c.till = false ∧ h.nbrPen p ≠ some c.pen then refuse h stNotPermitted
    else
      let x := h.nbr p
      let held := (x.items.map fun (i : HeldItem) => i.data.length).sum
      okWith h (leBytes 1 (h.nbrState p) ++ leBytes 1 (h.getF .nbrStatusKepoch p) ++ leBytes 1 (h.getF .nbrStatusLead p) ++
        leBytes 1 ((h.nbrPen p).getD 255) ++ slice x.peerModule 0 64 ++ leBytes 4 held ++ leBytes 4 x.limit ++ leBytes 1 x.rids.length)

end Sys2Proof.Machine
end

