-- ==== Sys2Proof/Machine/NbrData.lean ====
section
/-! DEFINITION. What frames of a neighbour do (R394–R405): the checks of Table 16.5, delivery in SEQ order, lots and page
reads (R401, R402), items and notices (R219–R222, Table 8.7). -/

namespace Sys2Proof.Machine

/-! ### Checks of a received frame (Table 16.5) -/

/-- Types sent clear (Table 16.4). -/
def linkClear (typ : Nat) : Bool := [0x01, 0x02, 0x03, 0x04, 0x06].contains typ

/-- Conversation of a type, none for a type that is not listed. -/
def linkConv (typ : Nat) : Option Nat :=
  if 1 ≤ typ ∧ typ ≤ 8 then some 0
  else if [0x20, 0x21, 0x22, 0x23, 0x24, 0x25, 0x26, 0x28, 0x29, 0x2A, 0x2B].contains typ then some 1
  else if typ = 0x30 then some 2
  else if typ = 0x40 then some 3
  else none

/-- A payload by Table 16.4: its length, its reserved bytes and the ranges the table gives. -/
def linkBodyOk (typ : Nat) (b : Bytes) : Bool :=
  let n := b.length
  match typ with
  | 0x01 => decide (n = 100) && decide (beAt b 1 3 = 0)
  | 0x02 => decide (4 < n) && decide (beAt b 0 2 + (n - 4) ≤ beAt b 2 2) && decide (beAt b 2 2 ≤ 12288)
  | 0x03 => decide (n = 512)
  | 0x04 => decide (n = 516) && decide (beAt b 0 1 ≠ 0) && decide (beAt b 1 3 = 0)
  | 0x05 => decide (n = 4) && decide (beAt b 0 1 ≠ 0) && decide (beAt b 1 3 = 0)
  | 0x06 => decide (n = 4) && decide (1 ≤ beAt b 0 1 ∧ beAt b 0 1 ≤ 4) && decide (beAt b 1 3 = 0)
  | 0x07 => decide (n = 20) && decide (1 ≤ beAt b 0 1 ∧ beAt b 0 1 ≤ 3) && decide (beAt b 1 3 = 0)
  | 0x08 => decide (n = 0)
  | 0x20 | 0x21 => decide (n = 12)
  | 0x22 => decide (n = 8) && decide (1 ≤ beAt b 4 1 ∧ beAt b 4 1 ≤ 4) && decide (beAt b 5 3 = 0)
  | 0x23 => decide (1 ≤ beAt b 4 1 ∧ beAt b 4 1 ≤ 32) && decide (n = 8 + 4 * beAt b 4 1) && decide (beAt b 5 3 = 0)
  | 0x24 => decide (12 < n ∧ n ≤ 12 + 8192)
  | 0x25 => decide (n = 12) && decide (beAt b 8 1 ≤ 1) && decide (beAt b 9 3 = 0)
  | 0x26 | 0x2A => decide (n = 4)
  | 0x28 =>
    let a := beAt b 4 8
    let k := beAt b 12 4
    decide (n = 16) && decide (a % 64 = 0) && decide (64 ≤ k ∧ k ≤ 65536) && decide (a % 65536 + k ≤ 65536)
  | 0x29 => decide (24 < n ∧ n ≤ 24 + 8192)
  | 0x2B => decide (n = 16)
  | 0x30 => decide (32 ≤ n ∧ n ≤ 32 + 8192) && decide (beAt b 10 1 ≤ 1) && decide (beAt b 11 1 = 0)
  | 0x40 => decide (n = 16) && decide (1 ≤ beAt b 0 1 ∧ beAt b 0 1 ≤ 2)
  | _ => false

/-- Why a frame is discarded before delivery. -/
inductive LinkBad where
  | fec | malformed | stale | tag | replay | credit
deriving DecidableEq, Repr

/-- A frame that passed the checks: `at'` is its SEQ as a running number, `dup` whether it was received before. -/
structure LinkFrame where
  conv : Nat
  typ : Nat
  flags : Nat
  body : Bytes
  epoch : Nat := 0
  at' : Nat := 0
  dup : Bool := false
deriving DecidableEq, Repr

/-- Keys of an epoch that the port accepts: current, previous, or the one a rekey of this side has offered. -/
def NbrPort.keysOf (x : NbrPort) (now epoch : Nat) : Option (List Bytes) :=
  if x.keys ≠ [] ∧ epoch = now then some x.keys
  else if x.prevKeys ≠ [] ∧ epoch = x.prevEpoch then some x.prevKeys
  else if x.pendKeys ≠ [] ∧ epoch = x.pendEpoch then some x.pendKeys
  else none

/-- Places a SEQ of a conversation (R399): running number and whether it was received before; none beyond the window. -/
def Conv.place (k : Conv) (seq : Nat) : Option (Nat × Bool) :=
  let d := (seq + (2 ^ 32 - k.recvBase % 2 ^ 32)) % 2 ^ 32
  if d < 1024 then some (k.recvBase + d, (Tab.find k.ahead (k.recvBase + d)).isSome)
  else if 2 ^ 31 ≤ d then some (k.recvBase + d - 2 ^ 32, true)
  else none

/-- SEQ of control frames: above the last accepted. -/
def NbrPort.ctlFresh (x : NbrPort) (seq : Nat) : Bool :=
  match x.ctlRecv with
  | none => true
  | some c => let d := (seq + (2 ^ 32 - c)) % 2 ^ 32; decide (d ≠ 0) && decide (d < 2 ^ 31)

/-- The checks of Table 16.5 up to delivery, in the order line, form, epoch, tag, SEQ, credit. -/
def Hall.linkCheck (h : Hall) (p : Nat) (line : LineCw) (f : Bytes) : Sum LinkBad LinkFrame :=
  let conv := beAt f 0 1
  let typ := beAt f 1 1
  let epoch := beAt f 2 1
  let seq := beAt f 4 4
  let len := beAt f 8 2
  let clear := linkClear typ
  let body := slice f 12 len
  let x := h.nbr p
  if line.uncorrectable then .inl .fec
  else if decide (f.length < 12) || decide (linkConv typ ≠ some conv) || decide (1 < beAt f 3 1) || decide (beAt f 10 2 ≠ 0) ||
      decide (8224 < len) || decide (f.length ≠ 12 + len + (if clear then 2 else 16)) || decide (clear ≠ decide (epoch = 0)) then .inl .malformed
  else if clear then
    if seq ≠ 0 ∨ crc16 (f.take (12 + len)) ≠ beAt f (12 + len) 2 ∨ linkBodyOk typ body = false then .inl .malformed
    else .inr { conv := 0, typ := typ, flags := beAt f 3 1, body := body }
  else match x.keysOf (h.getF .nbrStatusKepoch p) epoch with
  | none => .inl .stale
  | some keys =>
    if h.nbrUp p = false ∧ typ ≠ 0x05 then .inl .stale
    else match gcmOpen (keys.getD conv []) (linkNonce (!h.flag .nbrStatusLead p) conv epoch seq) (f.take 12) (f.drop 12) with
    | none => .inl .tag
    | some plain =>
      if linkBodyOk typ plain = false then .inl .malformed
      else
        let g : LinkFrame := { conv := conv, typ := typ, flags := beAt f 3 1, body := plain, epoch := epoch }
        if conv = 0 then (if x.ctlFresh seq then .inr { g with at' := seq } else .inl .replay)
        else match (x.conv conv).place seq with
        | none => .inl .replay
        | some (n, dup) =>
          if !dup && decide (conv = 2) && decide (x.granted < x.recvUnits + ceilDiv (plain.length - 32) 4096) then .inl .credit
          else .inr { g with at' := n, dup := dup }

/-- A frame discarded by Table 16.5. -/
def Hall.linkDiscard (h : Hall) (p : Nat) (b : LinkBad) : Hall :=
  match b with
  | .fec => h.bump .nbrFecUncorr p
  | .malformed => (h.bump .nbrMalformed p).nbrErr p
  | .stale => (h.bump .nbrStale p).nbrErr p
  | .tag => (h.bump .nbrTagFail p).nbrErr p
  | .replay => (h.bump .nbrReplay p).nbrErr p
  | .credit => (h.bump .nbrCredit p).nbrErr p

/-! ### Control frames -/

/-- The peer's chain and PROOF (R397): none, or the REASON of the refusal; with the leaf key and anchor. -/
def Hall.peerCheck (h : Hall) (p : Nat) (chain sig : Bytes) : Sum Nat (Bytes × Nat) :=
  let x := h.nbr p
  if x.peerModule = moduleId then .inl 3
  else match h.chainCheck purposeNeighbour chain with
  | none => .inl 1
  | some (leaf, anchor) =>
    let id := sha512 leaf
    if id ≠ x.peerModule then .inl 1
    else if x.pin ≠ [] ∧ leNat x.pin ≠ 0 ∧ x.pin ≠ id then .inl 2
    else if Config.pssVerify leaf (proofBytes (slice x.nonce 0 32) x.peerNonce x.peerModule moduleId) sig then .inr (leaf, anchor)
    else .inl 1

/-- HELLO of the peer (Table 16.3). -/
def Hall.onHello (h : Hall) (p : Nat) (b : Bytes) : Hall :=
  let lead := decide (beNat moduleId < beAt b 4 64)
  let learn := fun (h : Hall) => (h.updNbr p fun x =>
    { x with peerModule := slice b 4 64, peerNonce := slice b 68 32, frags := [], fragTotal := 0, fragLast := false }).setB .nbrStatusLead p lead
  if h.nbrState p = nbHello then ((learn h).sendProof p []).setNbrState p nbProve
  else if h.nbrUp p then
    let h := ((h.nbrEnd p).bump .nbrDowns p).nbrEvent p 0x0802 (leBytes 1 5)
    let (n, h) := h.draw 32
    let h := learn (h.updNbr p fun x => { x with nonce := n })
    (h.sendProof p [h.helloFrame p]).setNbrState p nbProve
  else h

def Hall.onCert (h : Hall) (p flags : Nat) (b : Bytes) : Hall :=
  if h.nbrState p = nbProve then
    h.updNbr p fun x => { x with frags := x.frags.filter (fun f => decide (f.1 ≠ beAt b 0 2)) ++ [(beAt b 0 2, b.drop 4)]
                                 fragTotal := beAt b 2 2, fragLast := x.fragLast || bit flags 0 }
  else h

/-- PROOF of the peer: once its chain is whole, both are judged. -/
def Hall.onProof (h : Hall) (p : Nat) (b : Bytes) : Hall :=
  let x := h.nbr p
  if h.nbrState p ≠ nbProve then h
  else match if x.fragLast then assemble x.frags x.fragTotal (x.frags.length + 1) 0 else none with
  | none => h
  | some chain => match h.peerCheck p chain b with
    | .inl reason => h.nbrRefuse p reason
    | .inr (leaf, anchor) =>
      let h := (h.updNbr p fun x => { x with peerLeaf := leaf, anchor := anchor, frags := [], fragLast := false }).setNbrState p nbKeying
      if h.flag .nbrStatusLead p then h.sendKeys p 1 else h

/-- KEYS of the lead: unwrapped, taken into force and answered under the new epoch. -/
def Hall.onKeys (h : Hall) (p : Nat) (b : Bytes) : Hall :=
  let e := beAt b 0 1
  if h.flag .nbrStatusLead p then h
  else match Config.oaepUnwrap (ascii "IL8N" ++ beBytes 1 e) (slice b 4 512) with
  | none => h
  | some plain =>
    let ks := splitKeys plain
    let ack := fun (h : Hall) => h.nbrControl p 0x05 (beBytes 1 e ++ [0, 0, 0])
    if plain.length ≠ 128 then h
    else if h.nbrState p = nbKeying ∧ e = 1 then
      ack (h.nbrEnterUp p ks 1)
    else if h.nbrUp p ∧ e = nextEpoch (h.getF .nbrStatusKepoch p) then ack (h.nbrNewEpoch p ks e)
    else if h.nbrUp p ∧ e = h.getF .nbrStatusKepoch p then ack h
    else h

/-- KEYS_ACK of the peer under the epoch the lead has offered. -/
def Hall.onKeysAck (h : Hall) (p : Nat) (f : LinkFrame) : Hall :=
  let x := h.nbr p
  if !h.flag .nbrStatusLead p || decide (x.pendKeys = []) || decide (f.epoch ≠ x.pendEpoch) || decide (beAt f.body 0 1 ≠ x.pendEpoch) then h
  else if h.nbrState p = nbKeying then (h.nbrEnterUp p x.pendKeys x.pendEpoch).updNbr p fun y => { y with ctlRecv := some f.at' }
  else if h.nbrUp p then h.nbrNewEpoch p x.pendKeys x.pendEpoch
  else h

/-- REFUSE of the peer: it ends a handshake; during a rekey of an UP link it ends the rekey. -/
def Hall.onRefuse (h : Hall) (p : Nat) (b : Bytes) : Hall :=
  if 1 ≤ h.nbrState p ∧ h.nbrState p ≤ 3 then h.nbrHoldoff p (beAt b 0 1) 1
  else if h.nbrUp p ∧ (h.nbr p).pendKeys ≠ [] then
    let ops := (h.nbr p).rekeyOps
    let h := h.updNbr p fun x => { x with pendKeys := [], guarded := [], rekeyOps := [] }
    ops.foldl (fun h k => h.closeOp k 0x0541) (h.nbrEvent p 0x0803 (leBytes 1 (beAt b 0 1) ++ leBytes 1 1))
  else h

/-- The running number that a 32-bit value stands for, at or above a base; none where it lies behind. -/
def runningOf (base v : Nat) : Option Nat :=
  let d := (v + (2 ^ 32 - base % 2 ^ 32)) % 2 ^ 32
  if d < 2 ^ 31 then some (base + d) else none

/-- ACK (R399, R400): the window moves, missing frames go again, credit rises. -/
def Hall.onAck (h : Hall) (p : Nat) (b : Bytes) : Hall :=
  let c := beAt b 0 1
  let k := (h.nbr p).conv c
  let map := beAt b 8 8
  match runningOf k.base (beAt b 4 4) with
  | none => h
  | some base =>
    if k.nextSeq < base then h
    else
      let seen := fun (u : Nat) => decide (u < base) || (decide (base < u) && decide (u ≤ base + 64) && bit map (u - base - 1))
      let top := (List.range 64).foldl (fun m i => if bit map i then base + 1 + i else m) base
      let left := Tab.keep (fun u _ => !seen u) k.unacked
      let h := h.updConv p c fun k => { k with base := base, unacked := left }
      let h := left.foldl (fun h e => if e.1 < top then (h.nbrOut p e.2.bytes).bump .nbrRetrans p else h) h
      let h := if c = 1 then h.updNbr p fun x => { x with withdraws := x.withdraws.filter fun s => decide (base ≤ s) } else h
      let h := if c = 2 then h.updNbr p fun x => { x with limit := (runningOf x.limit (beAt b 16 4)).getD x.limit } else h
      let h := ((h.convPump p c ((h.nbr p).conv c).waiting.length).farPump p).noticePump p
      h.weights.lots.foldl (fun h e => h.removeSettle e.1) h

/-! ### Lots (R401) -/

/-- LOT_REQ: the answer, and the RID it opens. -/
def Hall.onLotReq (h : Hall) (p : Nat) (b : Bytes) : Hall :=
  let rid := beAt b 0 4
  let refuse := fun (reason : Nat) => h.nbrPost p 1 0x22 (beBytes 4 rid ++ beBytes 1 reason ++ [0, 0, 0])
  match h.weights.lots.find? fun e => e.2.lotId = beAt b 4 4 && e.2.gen = beAt b 8 4 with
  | none => refuse 1
  | some (k, l) =>
    if l.state ≠ .ready then refuse 2
    else if !l.serve then refuse 3
    else if 4 ≤ ((h.nbr p).rids.filter fun (e : Nat × Rid) => e.2.server).length then refuse 4
    else
      let n := l.partShards.sum
      let r : Rid := { server := true, lot := k, nshard := n, mlen := l.manifest.length }
      (h.updNbr p fun x => { x with rids := Tab.set x.rids (ridKey true rid) r }).nbrPost p 1 0x21
        (beBytes 4 rid ++ beBytes 4 n ++ beBytes 4 l.manifest.length)

def Hall.rid (h : Hall) (p : Nat) (server : Bool) (rid : Nat) : Option Rid := Tab.find (h.nbr p).rids (ridKey server rid)
def Hall.setRid (h : Hall) (p : Nat) (server : Bool) (rid : Nat) (r : Rid) : Hall :=
  h.updNbr p fun x => { x with rids := Tab.set x.rids (ridKey server rid) r }
def Hall.dropRid (h : Hall) (p : Nat) (server : Bool) (rid : Nat) : Hall :=
  h.updNbr p fun x => { x with rids := Tab.erase x.rids (ridKey server rid) }

def Hall.onLotOffer (h : Hall) (p : Nat) (b : Bytes) : Hall :=
  match h.rid p false (beAt b 0 4) with
  | some r => (h.setRid p false (beAt b 0 4) { r with nshard := beAt b 4 4, mlen := beAt b 8 4 }).jobAsk r.job
  | none => h

/-- Mirror-resolved read of a lot pair for a neighbour; where both banks are busy the read waits and then yields the
preferred copy (R303). -/
def Hall.nbrMirrorRead (h : Hall) (pair o n : Nat) : Payload × Hall :=
  match h.nvMirrorRead pair o n with
  | (some x, h) => (x, h)
  | (none, h) => (h.nvPayload pair o (h.nvLogicalRead pair o n), h)

/-- Sends one shard, or the manifest, as SHARD_DATA frames in OFFSET order. -/
def Hall.sendShard (h : Hall) (p rid : Nat) (l : Lot) (i : Nat) : Hall :=
  let n := if i = manifestShard then l.manifest.length else shardBytes
  (List.range (ceilDiv n 8192)).foldl (fun h j =>
    let len := min 8192 (n - 8192 * j)
    let (data, h) := if i = manifestShard then (slice l.manifest (8192 * j) len, h)
      else match shardPlace l.partShards 0 i with
        | some (part, k) =>
          let (pair, blk) := l.blockOf part k
          let (x, h) := h.nbrMirrorRead pair (blk * shardBytes + 8192 * j) len
          (x.map fun (y : PByte) => y.b, h)
        | none => ([], h)
    h.nbrPost p 1 0x24 (beBytes 4 rid ++ beBytes 4 i ++ beBytes 4 (8192 * j) ++ data)) h

/-- SHARD_WANT: at most 32 shards wanted and not yet acknowledged per RID; a shard named again is sent again. -/
def Hall.onShardWant (h : Hall) (p : Nat) (b : Bytes) : Hall :=
  let rid := beAt b 0 4
  let named := (List.range (beAt b 4 1)).map fun i => beAt b (8 + 4 * i) 4
  match h.rid p true rid with
  | none => h
  | some r => match h.lot r.lot with
    | none => h
    | some l =>
      let ok := (named.filter fun i => decide (i < r.nshard) || decide (i = manifestShard)).dedup
      let wanted := (r.wanted ++ ok.filter fun i => !r.wanted.contains i).take 32
      (ok.filter fun i => wanted.contains i).foldl (fun h i => h.sendShard p rid l i) (h.setRid p true rid { r with wanted := wanted })

/-- SHARD_DATA: fragments are collected in OFFSET order; offset 0 begins a shard again. -/
def Hall.onShardData (h : Hall) (p : Nat) (b : Bytes) : Hall :=
  let rid := beAt b 0 4
  let i := beAt b 4 4
  let o := beAt b 8 4
  match h.rid p false rid with
  | some r =>
    if r.wanted.contains i then
      let have' := if o = 0 then [] else Tab.get [] r.parts i
      if have'.length = o then h.setRid p false rid { r with parts := Tab.set r.parts i (have' ++ b.drop 12) } else h
    else h.bump .nbrMalformed p
  | none => h.bump .nbrMalformed p

def Hall.onShardAck (h : Hall) (p : Nat) (b : Bytes) : Hall :=
  match h.rid p true (beAt b 0 4) with
  | some r => h.setRid p true (beAt b 0 4) { r with wanted := r.wanted.filter (· ≠ beAt b 4 4) }
  | none => h

/-! ### Page reads (R402) -/

/-- POISON of up to 128 lines. -/
def poisonMap (p : Payload) : Nat :=
  (List.range 128).foldl (fun m j => if ((p.drop (64 * j)).take 64).any fun (x : PByte) => x.poison then m + 2 ^ j else m) 0

/-- Data with the marks of a POISON field. -/
def markedData (map : Nat) (b : Bytes) : Payload := b.zipIdx.map fun e => { b := e.1, poison := bit map (e.2 / 64) }

/-- An offset in the T2 windows lies in a sector of a served lot that is READY. -/
def Hall.servedPage (h : Hall) (a : Nat) : Bool :=
  h.weights.lots.any fun e => e.2.serve && e.2.state = .ready && e.2.parts.any fun x =>
    decide (x.1 = a / 0x008000000000 % 4) && decide (a < 0x040000000000) && decide (x.2.1 ≤ a % 0x008000000000 / 2 ^ 30) &&
      decide (a % 0x008000000000 / 2 ^ 30 < x.2.1 + ceilDiv x.2.2 256)

def Hall.onPageRead (h : Hall) (p : Nat) (b : Bytes) : Hall :=
  let tag := beAt b 0 4
  let a := beAt b 4 8
  let n := beAt b 12 4
  if h.servedPage a then
    let (x, h) := h.nbrMirrorRead (a / 0x008000000000 % 4) (a % 0x008000000000) n
    ((List.range (ceilDiv n 8192)).foldl (fun h j =>
      let part := (x.drop (8192 * j)).take 8192
      h.nbrPost p 1 0x29 (beBytes 4 tag ++ beBytes 4 (8192 * j) ++ beBytes 16 (poisonMap part) ++ part.map fun (y : PByte) => y.b)) h).bump
      .nbrPageReads p
  else (h.nbrPost p 1 0x2A (beBytes 4 tag)).bump .nbrPageFail p

/-- The data of a T3 read has come: to the lot read it serves, or to the pool frame it fills. -/
def Hall.farDone (h : Hall) (p tag : Nat) (r : FarRead) (data : Payload) : Hall :=
  let h := h.updNbr p fun x => { x with reads := Tab.erase x.reads tag }
  let h := match r.fill with
    | some (hub, frame) => h.updPool (hubOf hub) fun q => match Tab.find q.frames frame with
      | some x => { q with frames := Tab.set q.frames frame { x with copy := data } }
      | none => q
    | none => match Tab.find h.tiers.reads r.read with
      | some x => { h with tiers.reads := Tab.set h.tiers.reads r.read { x with result := some data } }
      | none => h
  h.farPump p

def Hall.onPageData (h : Hall) (p : Nat) (b : Bytes) : Hall :=
  let tag := beAt b 0 4
  match Tab.find (h.nbr p).reads tag with
  | some r =>
    if beAt b 4 4 ≠ r.data.length then h
    else
      let data := r.data ++ markedData (beAt b 8 16) (b.drop 24)
      if r.n ≤ data.length then h.farDone p tag r (data.take r.n)
      else h.updNbr p fun x => { x with reads := Tab.set x.reads tag { r with data := data } }
  | none => h

/-- PAGE_FAIL: a failed read (R268). -/
def Hall.onPageFail (h : Hall) (p : Nat) (b : Bytes) : Hall :=
  match Tab.find (h.nbr p).reads (beAt b 0 4) with
  | some r =>
    let (x, h) := h.poisonedBytes r.n
    h.farDone p (beAt b 0 4) r x
  | none => h

/-! ### Items and notices (R219–R222) -/

/-- Aborts the runs that depend on a tag. -/
def Hall.abortTag (h : Hall) (p tag cause : Nat) : Hall :=
  (h.openRuns.filter fun r => r.deps.contains (Dep.nbr p tag)).foldl (fun h r => h.abortRun r.key cause) h

/-- Channels that are taking an item under the tag begin their descriptor again (Table 11.3). -/
def Hall.restartTakers (h : Hall) (p tag : Nat) : Hall :=
  match h.heldNext p with
  | none => h
  | some i =>
    if i.tag ≠ tag then h
    else h.tiers.chans.foldl (fun h e =>
      match h.curDesc e.1 with
      | none => h
      | some d =>
        let st := h.getF .brwChState e.1
        if d.sspace ≠ 7 ∨ d.ssel ≠ p ∨ st = 0 ∨ (e.2.off = 0 ∧ e.2.outstanding = []) then h
        else if st = 3 then h.updChan e.1 fun c => { c with restartDue := some (h.getF .brwChStateDesc e.1) }
        else
          ((h.updChan e.1 fun c => { c with off := 0, issuedAll := false
                                            outstanding := c.outstanding.map fun (b : DmaBurst) => { b with dest := .drop } }).setFs e.1
            [(.brwChPosI0, 0), (.brwChPosI1, 0), (.brwChPosI2, 0), (.brwChState, 2)]).bump .brwRestarts (chanEngine e.1)) h

/-- Slots of a trough from HEAD on. -/
def Trough.ring (x : Trough) : List Nat := (List.range x.desc.nslot).map fun i => (x.head + i) % x.desc.nslot

/-- Intake slots filled from a tag's items return to FILLING and wait for them to come again. -/
def Hall.slotsWait (h : Hall) (p tag : Nat) : Hall :=
  h.data.stalls.foldl (fun h e => e.2.troughs.foldl (fun h t => t.2.ring.foldl (fun h s =>
    if (t.2.slot s).state = .full && (t.2.slot s).tags.contains (Dep.nbr p tag) then
      (h.updTrough e.1 t.1 fun x => x.setSlot s { x.slot s with state := .filling, poison := false }).updNbr p fun x =>
        { x with refills := x.refills ++ [(tag, e.1, t.1, s)] }
    else h) h) h) h

/-- Items of a tag are discarded, their dependents abort by cause 4, and the slots filled from them wait. -/
def Hall.discardTag (h : Hall) (p tag : Nat) : Hall :=
  let h := (h.restartTakers p tag).updNbr p fun x => { x with items := x.items.filter fun (i : HeldItem) => decide (i.tag ≠ tag) }
  ((h.abortTag p tag 4).slotsWait p tag).creditPump p

def Hall.setTag (h : Hall) (p tag : Nat) (r : TagRec) : Hall := h.updNbr p fun x => { x with tags := Tab.set x.tags tag r }

/-- Runs of a descriptor: source and destination offset of each. -/
def Desc.runs (d : Desc) : List (Nat × Nat) :=
  (List.range d.n2).flatMap fun i2 => (List.range d.n1).flatMap fun i1 => (List.range d.n0).map fun i0 =>
    ((runAddr d.src d.ss i0 i1 i2).toNat, (runAddr d.dst d.ds i0 i1 i2).toNat)

/-- Writes an item into a slot as the intake chain's descriptors of that slot do, and the slot is FULL again. -/
def Hall.refillSlot (h : Hall) (p tag i t s : Nat) (data : Payload) : Hall :=
  match h.trough i t, h.stallImage i with
  | some x, some im =>
    let mine := (im.descs none).filter fun d =>
      d.sspace = 7 && d.ssel = p && d.dspace = 2 && d.dtrough = t && decide (im.pstall d.drow d.dsel = some i)
    let ds := mine.takeWhile (fun d => !d.last) ++ (mine.find? fun d => d.last).toList
    let h := ds.foldl (fun h d => d.runs.foldl (fun h r => h.writeRam (slotAddr i x s + r.2) ((data.drop r.1).take d.run)) h) h
    let bad := h.rangePoison (slotAddr i x s) (x.desc.slotLines * 64)
    h.updTrough i t fun x => x.setSlot s { x.slot s with state := .full, tags := [Dep.nbr p tag], poison := bad }
  | _, _ => h

/-- Complete items of a tag go to the slots that wait for them. -/
def Hall.refillTag (h : Hall) (p tag : Nat) : Nat → Hall
  | 0 => h
  | n + 1 =>
    match (h.nbr p).refills.find? fun e => e.1 = tag,
      (h.nbr p).items.find? fun (i : HeldItem) => i.tag = tag && i.complete && !i.taken with
    | some e, some i =>
      let h := h.refillSlot p tag e.2.1 e.2.2.1 e.2.2.2 i.data
      (h.updNbr p fun x => { x with
        refills := x.refills.erase e
        items := x.items.map fun (j : HeldItem) => if j.order = i.order then { j with taken := true } else j }).refillTag p tag n
    | _, _ => h

/-- The tag commits: its items are committed, those taken free their space (R220). -/
def Hall.commitTag (h : Hall) (p tag : Nat) (r : TagRec) : Hall :=
  ((h.setTag p tag { r with state := .committed, commitAt := none }).updNbr p fun x =>
    { x with items := x.items.filter fun (i : HeldItem) => !(decide (i.tag = tag) && i.taken) }).creditPump p

/-- A recorded commit notice takes effect once every item is held. -/
def Hall.commitIfWhole (h : Hall) (p tag : Nat) : Hall :=
  match Tab.find (h.nbr p).tags tag with
  | some r => match r.commitAt with
    | some n =>
      if (List.range n).all fun i => (h.nbr p).items.any fun (x : HeldItem) => x.tag = tag && x.item = i && x.complete then h.commitTag p tag r else h
    | none => h
  | none => h

/-- Holds the data of an ITEM frame. An overlap, a gap or more than 16 MiB discards the item (Table 16.5). -/
def Hall.holdItem (h : Hall) (p tag idx off : Nat) (data : Payload) (last : Bool) : Hall :=
  let mine := fun (i : HeldItem) => i.tag = tag && i.item = idx && (decide (tag ≠ 0) || !i.complete)
  match (h.nbr p).items.find? mine with
  | some i =>
    if i.complete || decide (off ≠ i.data.length) || decide (16777216 < off + data.length) then
      let h := if i.complete then h else h.updNbr p fun x => { x with items := x.items.filter fun (j : HeldItem) => decide (j.order ≠ i.order) }
      (h.bump .nbrMalformed p).nbrErr p
    else h.updNbr p fun x => { x with items := x.items.map fun (j : HeldItem) =>
      if j.order = i.order then { j with data := j.data ++ data, complete := last } else j }
  | none =>
    if off ≠ 0 then (h.bump .nbrMalformed p).nbrErr p
    else h.updNbr p fun x => { x with
      items := x.items ++ [{ tag := tag, item := idx, data := data, complete := last, order := x.nextOrder }], nextOrder := x.nextOrder + 1 }

/-- ITEM (Table 8.7). -/
def Hall.onItem (h : Hall) (p : Nat) (b : Bytes) : Hall :=
  let full := beAt b 0 8
  let tag := tagBare full
  let e := tagEpoch full
  let data := markedData (beAt b 16 16) (b.drop 32)
  let hold := fun (h : Hall) =>
    let h := h.holdItem p tag (beAt b 8 2) (beAt b 12 4) data (bit (beAt b 10 1) 0)
    (h.refillTag p tag (h.nbr p).refills.length).commitIfWhole p tag
  if full = 0 then hold h
  else match Tab.find (h.nbr p).tags tag with
  | none => hold (h.setTag p tag { state := .held, epoch := e })
  | some r =>
    if r.state = .committed ∨ e < r.epoch then (h.bump .nbrLateItems p).creditPump p
    else if r.state = .held ∧ e = r.epoch then hold h
    else if r.state = .held then hold ((h.discardTag p tag).setTag p tag { state := .held, epoch := e })
    else hold (h.setTag p tag { state := .held, epoch := e })

/-- A notice is applied to its tag (Table 8.7). -/
def Hall.applyNotice (h : Hall) (p : Nat) (b : Bytes) : Hall :=
  let full := beAt b 4 8
  let tag := tagBare full
  let e := tagEpoch full
  let commit := decide (beAt b 0 1 = 1)
  match Tab.find (h.nbr p).tags tag with
  | none => h.bump .nbrLateItems p
  | some r =>
    if r.state = .committed then
      if commit then h.bump .nbrLateItems p else (h.bump .nbrContra p).ordinary .contradiction p tag
    else if e < r.epoch then h.bump .nbrLateItems p
    else if commit then
      let h := if r.state = .held ∧ r.epoch < e then h.discardTag p tag else h
      (h.setTag p tag { state := .held, epoch := e, commitAt := some (beAt b 2 2) }).commitIfWhole p tag
    else (h.discardTag p tag).setTag p tag { state := .wait, epoch := e + 1 }

/-- Every activation SEQ up to AFTER has been delivered (R403). -/
def Hall.afterDone (h : Hall) (p : Nat) (b : Bytes) : Bool :=
  decide ((((h.nbr p).conv 2).recvBase + (2 ^ 33 - 1 - beAt b 12 4)) % 2 ^ 32 < 2 ^ 31)

/-- Notices that waited are applied in the order they came. -/
def Hall.noticesGo (h : Hall) (p : Nat) : Hall :=
  (h.nbr p).noticesIn.foldl (fun h b =>
    if h.afterDone p b then (h.updNbr p fun x => { x with noticesIn := x.noticesIn.erase b }).applyNotice p b else h) h

def Hall.onNotice (h : Hall) (p : Nat) (b : Bytes) : Hall :=
  if h.afterDone p b then h.applyNotice p b else h.updNbr p fun x => { x with noticesIn := x.noticesIn ++ [b] }

/-! ### Delivery (R399) -/

/-- What a delivered frame of conversations 1 to 3 does. -/
def Hall.linkDeliver (h : Hall) (p typ : Nat) (b : Bytes) : Hall :=
  match typ with
  | 0x20 => h.onLotReq p b
  | 0x21 => h.onLotOffer p b
  | 0x22 => h.dropRid p false (beAt b 0 4)
  | 0x23 => h.onShardWant p b
  | 0x24 => h.onShardData p b
  | 0x25 => h.onShardAck p b
  | 0x26 => h.dropRid p true (beAt b 0 4)
  | 0x28 => h.onPageRead p b
  | 0x29 => h.onPageData p b
  | 0x2A => h.onPageFail p b
  | 0x2B => h.poolInvalidate fun page => inT3 p (beAt b 0 8) (beAt b 8 8) page
  | 0x30 => h.onItem p b
  | 0x40 => h.onNotice p b
  | _ => h

/-- What a control frame does. -/
def Hall.linkControl (h : Hall) (p : Nat) (f : LinkFrame) : Hall :=
  match f.typ with
  | 0x01 => h.onHello p f.body
  | 0x02 => h.onCert p f.flags f.body
  | 0x03 => h.onProof p f.body
  | 0x04 => h.onKeys p f.body
  | 0x05 => h.onKeysAck p f
  | 0x06 => h.onRefuse p f.body
  | 0x07 => h.onAck p f.body
  | _ => h

/-- Delivers what has come in order. -/
def Hall.linkPump (h : Hall) (p c : Nat) : Nat → Hall
  | 0 => h
  | n + 1 =>
    let k := (h.nbr p).conv c
    match Tab.find k.ahead k.recvBase with
    | none => h
    | some (typ, b) =>
      let h := h.updConv p c fun k => { k with recvBase := k.recvBase + 1, ahead := Tab.erase k.ahead k.recvBase }
      ((h.linkDeliver p typ b).noticesGo p).linkPump p c n

/-- A frame that passed the checks is accepted. -/
def Hall.linkAccept (h : Hall) (p : Nat) (line : LineCw) (f : LinkFrame) : Hall :=
  let h := h.bump .nbrFecCorr p line.corrected
  if f.dup then (h.bump .nbrDup p).nbrAck p f.conv
  else
    let h := h.bump .nbrFramesIn p
    if f.conv = 0 then
      let h := if f.epoch = 0 then h else h.updNbr p fun x => { x with ctlRecv := some f.at' }
      h.linkControl p f
    else
      let h := if f.conv = 2 then h.updNbr p fun x => { x with recvUnits := x.recvUnits + ceilDiv (f.body.length - 32) 4096 } else h
      let h := h.updConv p f.conv fun k => { k with ahead := Tab.set k.ahead f.at' (f.typ, f.body) }
      (h.linkPump p f.conv ((h.nbr p).conv f.conv).ahead.length).nbrAck p f.conv

/-- A received frame of one type. A frame of another type, or one that the checks discard (NBR_MALFORMED_FRAME), is not
this command's. -/
def State.link (s : State) (p : Nat) (line : LineCw) (frame : Bytes) (typ : Nat) : Host.Outcome State Fault Refusal :=
  s.run fun h => match h.linkCheck p line frame with
    | .inr f => if f.typ = typ then h.linkAccept p line f else h
    | .inl _ => h

def execHello (port : Fin 4) (line : LineCw) (frame : Bytes) (s : State) : Host.Outcome State Fault Refusal := s.link port.val line frame 0x01
def execNbrCert (port : Fin 4) (line : LineCw) (frame : Bytes) (s : State) : Host.Outcome State Fault Refusal := s.link port.val line frame 0x02
def execProof (port : Fin 4) (line : LineCw) (frame : Bytes) (s : State) : Host.Outcome State Fault Refusal := s.link port.val line frame 0x03
def execKeys (port : Fin 4) (line : LineCw) (frame : Bytes) (s : State) : Host.Outcome State Fault Refusal := s.link port.val line frame 0x04
def execKeysAck (port : Fin 4) (line : LineCw) (frame : Bytes) (s : State) : Host.Outcome State Fault Refusal := s.link port.val line frame 0x05
def execRefuse (port : Fin 4) (line : LineCw) (frame : Bytes) (s : State) : Host.Outcome State Fault Refusal := s.link port.val line frame 0x06
def execAck (port : Fin 4) (line : LineCw) (frame : Bytes) (s : State) : Host.Outcome State Fault Refusal := s.link port.val line frame 0x07
def execKeepalive (port : Fin 4) (line : LineCw) (frame : Bytes) (s : State) : Host.Outcome State Fault Refusal := s.link port.val line frame 0x08
def execLotReq (port : Fin 4) (line : LineCw) (frame : Bytes) (s : State) : Host.Outcome State Fault Refusal := s.link port.val line frame 0x20
def execLotOffer (port : Fin 4) (line : LineCw) (frame : Bytes) (s : State) : Host.Outcome State Fault Refusal := s.link port.val line frame 0x21
def execLotRefuse (port : Fin 4) (line : LineCw) (frame : Bytes) (s : State) : Host.Outcome State Fault Refusal := s.link port.val line frame 0x22
def execShardWant (port : Fin 4) (line : LineCw) (frame : Bytes) (s : State) : Host.Outcome State Fault Refusal := s.link port.val line frame 0x23
def execShardData (port : Fin 4) (line : LineCw) (frame : Bytes) (s : State) : Host.Outcome State Fault Refusal := s.link port.val line frame 0x24
def execShardAck (port : Fin 4) (line : LineCw) (frame : Bytes) (s : State) : Host.Outcome State Fault Refusal := s.link port.val line frame 0x25
def execLotDone (port : Fin 4) (line : LineCw) (frame : Bytes) (s : State) : Host.Outcome State Fault Refusal := s.link port.val line frame 0x26
def execPageRead (port : Fin 4) (line : LineCw) (frame : Bytes) (s : State) : Host.Outcome State Fault Refusal := s.link port.val line frame 0x28
def execPageData (port : Fin 4) (line : LineCw) (frame : Bytes) (s : State) : Host.Outcome State Fault Refusal := s.link port.val line frame 0x29
def execPageFail (port : Fin 4) (line : LineCw) (frame : Bytes) (s : State) : Host.Outcome State Fault Refusal := s.link port.val line frame 0x2A
def execWithdraw (port : Fin 4) (line : LineCw) (frame : Bytes) (s : State) : Host.Outcome State Fault Refusal := s.link port.val line frame 0x2B
def execItem (port : Fin 4) (line : LineCw) (frame : Bytes) (s : State) : Host.Outcome State Fault Refusal := s.link port.val line frame 0x30
def execNotice (port : Fin 4) (line : LineCw) (frame : Bytes) (s : State) : Host.Outcome State Fault Refusal := s.link port.val line frame 0x40

/-- NBR_MALFORMED_FRAME (R405): a frame that a check of Table 16.5 discards before delivery. -/
def execNbrMalformedFrame (port : Fin 4) (line : LineCw) (frame : Bytes) (s : State) : Host.Outcome State Fault Refusal :=
  s.run fun h => match h.linkCheck port.val line frame with
    | .inl b => (h.bump .nbrFecCorr port.val line.corrected).linkDiscard port.val b
    | .inr _ => h

/-! ### Notice limit and pen reset -/

/-- Data poisoned with the late mark, so that its consumers record DEADLINE (R222, R269). -/
def lateData (p : Payload) : Payload := p.map fun (x : PByte) => { x with poison := true, late := true }

/-- NOTICE_LIMIT (R222). -/
def execNoticeLimit (port : Fin 4) (tag : Nat) (s : State) : Host.Outcome State Fault Refusal :=
  s.run fun h =>
    let p := port.val
    match Tab.find (h.nbr p).tags tag with
    | none => h
    | some r =>
      if r.state = .committed then h
      else
        let h := h.updNbr p fun x => { x with items := x.items.map fun (i : HeldItem) =>
          if i.tag = tag then { i with data := lateData i.data, complete := true } else i }
        let mine := (h.nbr p).refills.filter fun e => e.1 = tag
        let h := h.updNbr p fun x => { x with refills := x.refills.filter fun e => decide (e.1 ≠ tag) }
        let h := mine.foldl (fun h e => match h.trough e.2.1 e.2.2.1 with
          | some x =>
            (h.poisonRange (slotAddr e.2.1 x e.2.2.2) (x.desc.slotLines * 64) true).updTrough e.2.1 e.2.2.1 fun x =>
              x.setSlot e.2.2.2 { x.slot e.2.2.2 with state := .full, poison := true }
          | none => h) h
        let h := h.data.stalls.foldl (fun h e => e.2.troughs.foldl (fun h t => t.2.slots.foldl (fun h s =>
          if s.2.tags.contains (Dep.nbr p tag) && decide (s.2.state ≠ .free) then
            (h.poisonRange (slotAddr e.1 t.2 s.1) (t.2.desc.slotLines * 64) true).updTrough e.1 t.1 fun x =>
              x.setSlot s.1 { x.slot s.1 with poison := true }
          else h) h) h) h
        (h.abortTag p tag 5).commitTag p tag r

/-- Pen reset of the assigned pen: held items and tags are discarded (Table 8.7, R406). -/
def Hall.nbrPenReset (h : Hall) (pen : Nat) : Hall :=
  upTo 4 h fun h p =>
    if h.nbrPen p = some pen then
      (h.updNbr p fun x => { x with items := [], tags := [], noticesIn := [], refills := [] }).creditPump p
    else h

end Sys2Proof.Machine
end

