-- ==== Sys2Proof/Machine/Engine.lean ====
section
/-! DEFINITION. What the steps of a stall share: heads and the dispatch point (R187–R189), readiness (R188, R195, R206, R211,
R336), starting a step, taking further slots (R185, R192), filling output slots (R193, R507), statuses (R217, R269), and
what a step hands to the Tally at its end (R225–R230). -/

namespace Sys2Proof.Machine

/-! ### CLEAR writes of a stall's blocks (R132, R154, R179, R203) -/

def oxCounters : List Ctr := [.oxBeats, .oxWaitBeats, .oxSatCount, .oxChkTiles, .oxChkMismatch, .oxChkSkip, .oxPoisonOut]
def vuCounters : List Ctr :=
  [.vuBeats, .vuWaitBeats, .vuNanQuant, .vuScaleSat, .vuOverflow, .vuQclamp, .vuTrackEmpty, .vuPoisonOut]
def henCounters : List Ctr :=
  [.henBeats, .henWaitBeats, .henBounds, .henClip, .henOrder, .henHashFull, .henPriceOvf, .henAssignOpen, .henPoisonOut]
def expCounters : List Ctr :=
  [.expBlocks, .expEscapes, .expStallBeats, .expTrimmed, .expPoisonBlocks, .expCheckFail, .expBadBlock, .expDirectLines]
def stallCounters : List Ctr := [.stallSteps, .stallAltStarts, .stallDispatchMiss, .stallPoisonSlots]

def oxLastFields : List Fld :=
  [.oxChkLastValid, .oxChkLastCtx, .oxChkLastStep, .oxChkLastTile, .oxChkLastRow, .oxChkLastCol, .oxChkLastKind, .oxChkLastMulti]
def expLastFields : List Fld := [.expFailLastValid, .expFailLastCause, .expFailLastCtx, .expFailLastStep, .expFailLastBlock]

def Hall.stallClear (h : Hall) (i : Nat) (c : StallClear) : Hall :=
  match c with
  | .oxLast => h.clearFs i oxLastFields
  | .oxStats => h.clearCtrs i oxCounters
  | .vuStats => h.clearCtrs i vuCounters
  | .henStats => h.clearCtrs i henCounters
  | .expLast => h.clearFs i expLastFields
  | .expStats => h.clearCtrs i expCounters
  | .stallStats => h.clearCtrs i stallCounters

/-- A step boundary: CLEAR writes that wait take effect. -/
def Hall.stepBoundary (h : Hall) (i : Nat) : Hall :=
  ((h.stall i).clears.foldl (fun h c => h.stallClear i c) h).updStall i fun x => { x with clears := [] }

/-! ### A record that may start -/

structure StepRef where
  i : Nat
  handle : Nat
  im : Image
  idx : Nat
  pass : Nat
  st : Step
  key : RunKey

/-- The record of a stall at a pass and index, with its image and run. -/
def Hall.stepRef (h : Hall) (i : Nat) (p : Nat × Nat) : Option StepRef :=
  let x := h.stall i
  match x.image with
  | none => none
  | some k => match h.image k, x.step p.2 with
    | some im, some st =>
      match Tab.find im.rows x.lrow, Tab.find im.limgs x.lrow with
      | some row, some limg =>
        some { i := i, handle := k, im := im, idx := p.2, pass := p.1, st := st, key := ⟨row, limg, p.1, st.group⟩ }
      | _, _ => none
    | _, _ => none

/-- Bytes of a stall's store. -/
def Hall.storeBytes (h : Hall) (i o n : Nat) : Bytes := h.readBytes (storeBase i + o) n

/-- The operation list of a step, read from the store. -/
def Hall.opsOf (h : Hall) (i : Nat) (st : Step) : List VuOp :=
  if st.eng = 2 then [] else decodeOps (h.storeBytes i (if st.eng = 0 then st.epi else st.param) (8 * st.opsN))

def Stall.testOn (x : Stall) (eng : Nat) : Bool := match x.test with
  | some t => t.eng = eng
  | none => false

/-- The engines that a step needs are free (R188). -/
def Stall.engFree (x : Stall) (st : Step) : Bool :=
  let vu := x.vu.isNone && !x.epilogue && !x.testOn 1
  match st.eng with
  | 0 => x.ox.isNone && !x.testOn 0 && (decide (st.opsN = 0) || vu)
  | 1 => vu
  | _ => x.hen.isNone && !x.testOn 2

/-- Input operands that a step uses. -/
def Step.inputs (st : Step) : List Opnd :=
  ((if st.eng = 0 then [st.a, st.w, st.u] else if st.eng = 1 then [st.a, st.u] else [st.a]).filter fun o => decide (o.slots ≠ 0))

/-- A run that has not opened, or opens again after an abort. -/
def Hall.runUnopened (h : Hall) (k : RunKey) : Bool :=
  match h.findRun k with
  | some r => r.startedSteps = []
  | none => true

/-- The first intake slot of every step of a group that takes one is FULL (R195). -/
def Hall.intakesFull (h : Hall) (im : Image) (k : RunKey) : Bool :=
  im.lstalls.all fun ls => match im.pstall ls.1 ls.2 with
    | none => true
    | some i => (h.stall i).allSteps.all fun st => decide (st.group ≠ k.group) || st.inputs.all fun o => match h.trough i o.trough with
      | some x => !(decide (x.desc.prod = 4) && im.intakes.contains x.desc.chain) || (x.firstFull (some k)).isSome
      | none => true

/-- Lines outside troughs that a step reads: offset and length (R229). -/
def Hall.stepReads (h : Hall) (i : Nat) (st : Step) : List (Nat × Nat) :=
  let ops := h.opsOf i st
  let hd := fun (o n : Nat) => h.storeBytes i o n
  match st.eng with
  | 0 =>
    (if pairFloat st.pair then [] else [(st.param, 16 * st.cols)]) ++
    (if stepMapped st then [(st.param, 16 + 4 * min 256 (leAt (hd st.param 4) 2 2)), (st.table, 128)] else []) ++
    (if st.outlEn then [(st.outl, 8 + 2 * min 64 (leAt (hd st.outl 2) 0 2))] else []) ++
    (if 0 < st.rank then [(st.adapt, 2 * st.rank * st.cols)] else []) ++ (if 0 < st.opsN then [(st.epi, 8 * st.opsN)] else []) ++
    colRegions st ops
  | 1 =>
    [(st.param, 8 * st.opsN)] ++ (if st.outlEn then [(st.outl, 8 + 2 * min 64 (leAt (hd st.outl 2) 0 2))] else []) ++ colRegions st ops
  | _ => (st.param, 64) :: henReads (decodeHen (hd st.param 64))

/-- Dependencies that a step takes on with its first slots and the lines it reads (R211). -/
def Hall.firstDeps (h : Hall) (r : StepRef) : List Dep :=
  (r.st.inputs.flatMap fun o => match h.trough r.i o.trough with
    | some x => match x.firstFull (some r.key) with
      | some s => (x.slot s).tags
      | none => []
    | none => []) ++ (h.stepReads r.i r.st).flatMap fun e => h.lineDeps (storeBase r.i + e.1) e.2

/-- A step is ready (R188, R195, R206, R211, R336); a refusal by the window is counted. -/
def Hall.ready (h : Hall) (r : StepRef) : Bool × Hall :=
  let fresh := h.runUnopened r.key
  let slots := (r.st.inputs.all fun o => match h.trough r.i o.trough with
      | some x => (x.firstFull (some r.key)).isSome
      | none => false) &&
    (decide (r.st.o.slots = 0) || match h.trough r.i r.st.o.trough with
      | some x => (x.fillSlot (some r.key)).isSome
      | none => false)
  let late := (h.findRun r.key).isNone && !h.inWindow r.key
  let ok := slots && (h.stall r.i).engFree r.st && !late &&
    (!fresh || (h.intakesFull r.im r.key && !h.barrierOn r.key)) && h.depsFit r.key (h.firstDeps r)
  (ok, if late then h.bump .ledgerWindowWaits r.key.row else h)

/-! ### Starting (R189, R205, R226) -/

def Stall.running (x : Stall) (eng : Nat) : Option Running :=
  match eng with
  | 0 => x.ox
  | 1 => x.vu
  | _ => x.hen

def Stall.setRunning (x : Stall) (eng : Nat) (r : Option Running) : Stall :=
  match eng with
  | 0 => { x with ox := r }
  | 1 => { x with vu := r }
  | _ => { x with hen := r }

/-- Changes the step running on an engine. -/
def Hall.updRunning (h : Hall) (i eng : Nat) (f : Running → Running) : Hall :=
  h.updStall i fun x => x.setRunning eng ((x.running eng).map f)

def takeOf (o : Opnd) : Option Take := if o.slots = 0 then none else some { trough := o.trough, n := o.slots, keep := o.keep }

/-- Operand of a running step: 0 A, 1 W, 2 U. -/
def Running.take (r : Running) (sel : Nat) : Option Take :=
  match sel with
  | 0 => r.inA
  | 1 => r.inW
  | _ => r.inU
def Running.setTake (r : Running) (sel : Nat) (t : Option Take) : Running :=
  match sel with
  | 0 => { r with inA := t }
  | 1 => { r with inW := t }
  | _ => { r with inU := t }
def Running.takes (r : Running) : List Take := [r.inA, r.inW, r.inU].filterMap id

/-- Takes the next slot of an input operand, where it is FULL and its dependencies fit. -/
def Hall.takeNext (h : Hall) (i eng sel : Nat) : Option Hall :=
  match (h.stall i).running eng with
  | none => none
  | some r => match r.take sel with
    | none => none
    | some t =>
      if t.n ≤ t.slots.length then none
      else match h.trough i t.trough with
      | none => none
      | some x =>
        let n := ((r.takes.filter fun u => u.trough = t.trough).map fun u => u.slots.length).sum
        match x.drainSlots (some r.key) (n + 1) with
        | none => none
        | some l => match l[n]? with
          | none => none
          | some s =>
            if (x.slot s).state = .full && h.depsFit r.key (x.slot s).tags then
              let h := (h.addDeps r.key (x.slot s).tags).drainStart i t.trough s (some r.key)
              some (h.updRunning i eng fun r => r.setTake sel (some { t with slots := t.slots ++ [s] }))
            else none

/-- The first `n` slots of an input operand are taken; none while one of them is awaited. -/
def Hall.takeTo (h : Hall) (i eng sel n : Nat) : Nat → Option Hall
  | 0 => some h
  | fuel + 1 =>
    match ((h.stall i).running eng).bind fun r => r.take sel with
    | none => some h
    | some t => if n ≤ t.slots.length ∨ t.n ≤ t.slots.length then some h
      else match h.takeNext i eng sel with
        | some h => h.takeTo i eng sel n fuel
        | none => none

/-- Request settings that govern a step's checks: those of the request at its intake, or the pen's now (R253). -/
def Hall.chkOnFor (h : Hall) (pen token : Nat) : Bool := match h.req token with
  | some q => q.chkOn
  | none => h.penChkOn pen
def Hall.fCodeFor (h : Hall) (pen token : Nat) : Nat := match h.req token with
  | some q => q.fCode
  | none => h.penFCode pen

/-- SINCE_TEST and the lateness of a due pack run (Table 9.18, R244). -/
def Hall.countStep (h : Hall) (i : Nat) : Hall :=
  let n := h.getF .tallyStallSinceTest i
  let h := if n + 1 < 2 ^ 31 - 1 then h.setF .tallyStallSinceTest i (n + 1)
    else (h.setF .tallyStallSinceTest i (2 ^ 31 - 1)).setF .tallyStallSat i 1
  if (h.stall i).packRun.isNone then h
  else
    let h := h.updStall i fun x => { x with packStart := x.packStart + 1 }
    if (h.stall i).packStart = 10000 then h.bump .tallyTestsLate (i / 16) else h

/-- Publishes what the engine runs. -/
def Hall.engineStatus (h : Hall) (r : StepRef) (chk : Bool) : Hall :=
  let idx := r.idx % 65536
  match r.st.eng with
  | 0 =>
    let h := h.setFs r.i [(.oxStatusStep, idx), (.oxStatusSatSeen, 0), (.oxStatusPair, r.st.pair), (.oxStatusCtx, r.st.ctx),
      (.oxStatusChk, b2n chk)]
    if 0 < r.st.opsN then h.setFs r.i [(.vuStatusStep, idx), (.vuStatusCtx, r.st.ctx)] else h
  | 1 => h.setFs r.i [(.vuStatusStep, idx), (.vuStatusCtx, r.st.ctx)]
  | _ => h.setFs r.i [(.henStatusStep, idx), (.henStatusOp, (decodeHen (h.storeBytes r.i r.st.param 64)).op), (.henStatusCtx, r.st.ctx)]

/-- The expander as a block-mode step finds it: its table pair is loaded, its lanes are empty (R169, R172). -/
def Hall.loadExpander (h : Hall) (r : StepRef) : Hall :=
  if r.st.eng ≠ 0 then h
  else
    let slot := fun (k : Nat) => loadSlotRec (h.storeBytes r.i (r.st.table + 64 * k) 64) r.st.wfmt
    let runs := if stepMapped r.st then mapRuns (h.storeBytes r.i r.st.param 1040) else [(6, stepBlocks r.st)]
    let e : Expander :=
      if r.st.direct then {}
      else if stepMapped r.st then { tableA := slot 0, tableB := slot 1, classes := runs }
      else { classes := runs }
    let h := h.updStall r.i fun x => { x with exp := e }
    let h := h.setFs r.i [(.expStatusCtx, r.st.ctx), (.expStatusDirect, b2n r.st.direct)]
    if stepMapped r.st then h.setFs (8 * r.i + r.st.ctx) [(.expRefValid, 1), (.expRefTableOff, r.st.table)] else h

/-- Starts a step. -/
def Hall.startStep (h : Hall) (r : StepRef) (alt : Bool) : Hall :=
  let st := r.st
  let h := h.stepBoundary r.i
  let deps := h.firstDeps r
  let h := (h.openRun r.key r.handle r.im.pen (r.im.nstep st.group)).addDeps r.key deps
  let run := (h.findRun r.key).getD { key := r.key, handle := r.handle, pen := r.im.pen, nstep := 0 }
  let token := match h.trough r.i st.a.trough with
    | some x => if st.a.slots = 0 then 0 else match x.firstFull (some r.key) with
      | some s => (x.slot s).token
      | none => 0
    | none => 0
  let forcedPoison := run.poisonSteps.contains (r.i, r.idx)
  let unchecked := run.closing || forcedPoison
  let chk := decide (st.eng = 0) && !unchecked && (st.chk || h.chkOnFor r.im.pen token)
  let (n, h) := h.free
  let sampled := decide (n % 128 < h.fEff r.i (h.fCodeFor r.im.pen token))
  let x : Running :=
    { idx := r.idx, pass := r.pass, ctx := st.ctx, key := r.key, epoch := run.epoch, token := token
      inA := takeOf st.a, inW := if st.eng = 0 then takeOf st.w else none, inU := if st.eng = 2 then none else takeOf st.u
      out := takeOf st.o, chk := chk, shadow := !unchecked && (st.shadow || sampled)
      poisonAll := run.closing || forcedPoison, unchecked := unchecked }
  let h := h.updStall r.i fun y =>
    let y := y.setRunning st.eng (some x)
    let y := { y with lastToken := Tab.set y.lastToken st.ctx token }
    if y.redo.contains (r.pass, r.idx) then { y with redo := y.redo.filter fun e => decide (e ≠ (r.pass, r.idx)) }
    else { y with started := Tab.set y.started st.ctx (Tab.get 0 y.started st.ctx + 1) }
  let h := [0, 1, 2].foldl (fun h sel => (h.takeTo r.i st.eng sel 1 1).getD h) h
  let h := if st.o.slots = 0 then h
    else match (h.trough r.i st.o.trough).bind fun y => y.fillSlot (some r.key) with
      | some s => (h.fillStart r.i st.o.trough s (some r.key) token [.own r.key]).updRunning r.i st.eng fun x =>
          { x with out := x.out.map fun t => { t with slots := [s] } }
      | none => h
  let h := (h.updRun r.key fun y => { y with startedSteps := y.startedSteps ++ [(r.i, r.idx)] }).enterToken r.key token
  let h := (h.bump .stallSteps r.i).bump .stallAltStarts r.i (b2n alt)
  ((h.countStep r.i).engineStatus r chk).loadExpander r

/-- An image whose stalls run (Table 7.14). -/
def ImgState.runs (x : ImgState) : Bool := x = .active || x = .pausing || x = .paused || x = .retiring

/-- Starts a record if it is ready; whether it did. -/
def Hall.tryStart (h : Hall) (i : Nat) (p : Nat × Nat) (alt : Bool) : Bool × Hall :=
  match h.stepRef i p with
  | none => (false, h)
  | some r => match h.ready r with
    | (true, h) => (true, h.startStep r alt)
    | (false, h) => (false, h)

/-- One dispatch of a stall (R189): its domain has to be ON (R476). -/
def Hall.dispatch (h : Hall) (i : Nat) : Hall :=
  let x := h.stall i
  let live := match h.stallImage i with
    | some im => im.state.runs
    | none => false
  if !live || h.stallRetired i || x.stuck || decide (h.domState i ≠ 2) then h
  else match x.point with
  | none => h
  | some p =>
    let alts := match x.step p.2 with
      | some st => st.alt
      | none => []
    let first := h.tryStart i p false
    let rest := alts.foldl (fun (acc : Bool × Hall) c => match (acc.2.stall i).head c with
      | none => acc
      | some q =>
        if q = p ∨ p.1 + 1 < q.1 then acc
        else
          let t := acc.2.tryStart i q true
          (acc.1 || t.1, t.2)) first
    if rest.1 then rest.2 else rest.2.bump .stallDispatchMiss i

/-- STALL_DISPATCH (R189). -/
def execStallDispatch (row : Fin 8) (stall : Fin 16) (s : State) : Host.Outcome State Fault Refusal :=
  s.run fun h => h.dispatch (16 * row.val + stall.val)

/-! ### Operands of a running step -/

/-- Base address of the slot at a position of an operand, and the trough. -/
def Hall.takeBase (h : Hall) (i : Nat) (t : Take) (pos : Nat) : Nat :=
  match h.trough i t.trough, t.slots[pos]? with
  | some x, some s => slotAddr i x s
  | _, _ => 0

/-- Row `r` of an operand of `rows` rows of `n` elements in `fmt`. -/
def Hall.operandRow (h : Hall) (i : Nat) (t : Take) (fmt rows n r : Nat) : List Elem :=
  let p := rowSlot fmt rows t.n r
  h.readRow (h.takeBase i t p.1) fmt n p.2

/-- The scale record of row `r` of an operand. -/
def Hall.operandScale (h : Hall) (i : Nat) (t : Take) (fmt rows r : Nat) : ScaleRec × Bool :=
  let p := rowSlot fmt rows t.n r
  match h.trough i t.trough, t.slots[p.1]? with
  | some x, some s => h.readScale (scaleAddr i x s p.2)
  | _, _ => (ScaleRec.ofBytes [], false)

/-- Slots of an operand that rows below `r` lie in. -/
def slotsFor (fmt rows slots r : Nat) : Nat := if r = 0 then 0 else (rowSlot fmt rows slots (r - 1)).1 + 1

/-- An FP32 word of the store with its poison. -/
def Hall.storeF32 (h : Hall) (i o : Nat) : VVal :=
  { v := leNat (h.storeBytes i o 4), poison := (h.mark ((storeBase i + o) / 64)).poison }

/-! ### Output slots -/

/-- Opens the output slot at a position; none while it is not free. -/
def Hall.openOut (h : Hall) (i eng pos : Nat) : Option Hall :=
  match (h.stall i).running eng with
  | none => none
  | some r => match r.out with
    | none => none
    | some t =>
      if pos < t.slots.length then some h
      else match (h.trough i t.trough).bind fun x => x.fillSlot (some r.key) with
        | some s =>
          some ((h.fillStart i t.trough s (some r.key) r.token [.own r.key]).updRunning i eng fun r =>
            { r with out := r.out.map fun t => { t with slots := t.slots ++ [s] } })
        | none => none

/-- A line's bytes followed by its poison byte (R230). -/
def digestLines (p : Payload) : Bytes :=
  (List.range (ceilDiv p.length 64)).flatMap fun i =>
    let l := (p.drop (64 * i)).take 64
    (l.map fun (x : PByte) => x.b) ++ [if l.any fun (x : PByte) => x.poison then 1 else 0]

/-- Data and scale area of the output slot at a position, from the rows of the whole output (R507). What lies beyond the
slot's data area is not written (log entry 27). -/
def slotPayload (d : TroughDesc) (ofmt rows slots pos : Nat) (out : List (List Elem)) (recs : List ScaleRec) : Payload × Payload :=
  let (first, n) := slotRows ofmt rows slots pos
  let mine := (out.drop first).take n
  let width := (mine.head?.map List.length).getD 0
  ((rowsPayload ofmt width mine).take d.dataBytes, (scalesPayload ((recs.drop first).take n)).take (64 * d.scaleLines))

/-- Writes the output slot at a position and finishes it; the slot's poison summary follows its lines (R194). -/
def Hall.writeSlot (h : Hall) (i eng pos ofmt rows : Nat) (out : List (List Elem)) (recs : List ScaleRec) : Hall :=
  match (h.stall i).running eng with
  | none => h
  | some r => match r.out with
    | none => h
    | some t => match h.trough i t.trough, t.slots[pos]? with
      | some x, some s =>
        let (d, sc) := slotPayload x.desc ofmt rows t.n pos out recs
        let h := (h.writeRam (slotAddr i x s) d).writeRam (scaleAddr i x s 0) sc
        let bad := (d ++ sc).any fun (b : PByte) => b.poison
        (h.fillEnd i t.trough s (some r.key) r.token [.own r.key] bad).updRunning i eng fun r => { r with filled := pos + 1 }
      | _, _ => h

/-- Writes every output slot whose rows lie below `done`, while slots are free; true once all slots are finished. -/
def Hall.writeSlots (h : Hall) (i eng ofmt rows done : Nat) (out : List (List Elem)) (recs : List ScaleRec) : Nat → Bool × Hall
  | 0 => (false, h)
  | fuel + 1 =>
    match ((h.stall i).running eng).map fun r => (r.filled, r.out) with
    | some (pos, some t) =>
      if t.n ≤ pos then (true, h)
      else
        let (first, n) := slotRows ofmt rows t.n pos
        if done < first + n then (false, h)
        else match h.openOut i eng pos with
        | some h => (h.writeSlot i eng pos ofmt rows out recs).writeSlots i eng ofmt rows done out recs fuel
        | none => (false, h)
    | _ => (true, h)

/-- The lines of an output in slot order and then line-address order. -/
def outputLines (d : Option TroughDesc) (ofmt rows slots : Nat) (out : List (List Elem)) (recs : List ScaleRec) : Payload :=
  match d with
  | none => []
  | some d => (List.range slots).flatMap fun pos =>
      let p := slotPayload d ofmt rows slots pos out recs
      p.1 ++ p.2

/-! ### The end of a step -/

/-- A line that the step took carries the late mark (R269). -/
def Hall.tookLate (h : Hall) (i : Nat) (r : Running) (reads : List (Nat × Nat)) : Bool :=
  (r.takes.any fun t => match h.trough i t.trough with
    | some x => t.slots.any fun s => h.rangeLate (slotAddr i x s) (x.desc.slotLines * 64)
    | none => false) || reads.any fun e => h.rangeLate (storeBase i + e.1) e.2

/-- The stall fills in the digest of a repeat that the replay was (R236). -/
def Hall.fillRepeat (h : Hall) (i idx : Nat) (k : RunKey) (digest : Nat) (bad : Bool) : Hall :=
  h.updTally k.row fun t => { t with repeats := t.repeats.map fun (c : RepeatItem) =>
    if c.key = k && c.stall = i && c.idx = idx && c.got.isNone then { c with got := some (digest, bad) } else c }

/-- The common end of a step: statuses, slots, the run's progress, and its checks. `lines` and `clean` are its output with
and without the changes that upsets made; `poisoned` says that a slot was written poisoned. -/
def Hall.endStep (h : Hall) (i eng : Nat) (pair : Nat) (lines clean : Payload) (poisoned : Bool) : Hall :=
  match (h.stall i).running eng, (h.stall i).image with
  | some r, some handle => match (h.stall i).step r.idx with
    | none => h
    | some st =>
      let k := r.key
      let pen := ((h.image handle).map fun im => im.pen).getD 255
      let late := h.tookLate i r (h.stepReads i st)
      let h := if late && decide (r.token ≠ 0) then h.recordStatus k r.token stDeadline else h
      let h := if poisoned then h.recordStatus k r.token stPoisoned else h
      let closing := ((h.findRun k).map fun y => y.closing).getD false
      let h := if closing && decide (r.token ≠ 0) then h.recordStatus k r.token stAborted else h
      let h := r.takes.foldl (fun h t => t.slots.foldl (fun h s => h.drainEnd i t.trough s (some k) t.keep) h) h
      let h := h.updStall i fun x => { x.setRunning eng none with exp := if eng = 0 then {} else x.exp }
      let h := h.updRun k fun y => { y with stepsDone := y.stepsDone + 1 }
      let digest := crc64 (digestLines lines)
      let repeated := (h.tally k.row).repeats.any fun (c : RepeatItem) => c.key = k && c.stall = i && c.idx = r.idx && c.got.isNone
      let h := if repeated then h.fillRepeat i r.idx k digest r.mismatch else h
      let h := if r.unchecked then h
        else h.submitCheck
          { id := 0, key := k, epoch := r.epoch, stall := i, idx := r.idx, ctx := r.ctx, token := r.token, pen := pen, engine := eng
            pair := pair, digest := digest, clean := crc64 (digestLines clean), cleanMismatch := r.cleanMismatch, oxChecked := r.chk
            mismatch := r.mismatch && !repeated, shadowWanted := r.shadow, loc := r.loc, phase := .waitPlace } st.shadow
      h.stepBoundary i
  | _, _ => h

end Sys2Proof.Machine
end

