-- ==== Sys2Proof/Machine/Tally.lean ====
section
/-! DEFINITION. Pattern packs and probes (R242–R246), the CHECK commands and LOG_EXPORT (R224, R251). -/

namespace Sys2Proof.Machine

/-! ### Packs (R242, Table 9.7) -/

structure PackEntry where
  eng : Nat
  pair : Nat
  beats : Nat
  sig : Nat
  off : Nat
  len : Nat
  expect : Nat
  reserved : Nat
deriving DecidableEq, Repr

def packEntry (raw : Bytes) (i : Nat) : PackEntry :=
  let w := fun o n => leAt raw (64 + 32 * i + o) n
  { eng := w 0 1, pair := w 1 1, beats := w 2 2, sig := w 4 4, off := w 8 4, len := w 12 4, expect := w 16 8, reserved := w 24 8 }

/-- Tests of an installed pack that a SIG_ID selects, 0 for every test. -/
def Pack.select (p : Pack) (sig : Nat) : List Nat :=
  (List.range p.ntest).filter fun i => decide (sig = 0) || decide ((packEntry p.raw i).sig = sig)

/-- Every offset of a test's step record that its engine reads lies in the prefetch area (R242). -/
def testOffsets (b : Bytes) : Bool :=
  let st := decodeStep b
  let here := fun (o : Nat) => decide (0x3F8000 ≤ o)
  let used := match st.eng with
    | 0 => [some st.param, some st.table, (if st.outlEn then some st.outl else none), (if 0 < st.rank then some st.adapt else none),
            (if 0 < st.opsN then some st.epi else none)]
    | 1 => [some st.param, if st.outlEn then some st.outl else none]
    | _ => [some st.param]
  (used.filterMap id).all fun o => decide (o = 0) || here o

/-- Fields of a pack but for its manifest's signature and digests (Table 9.7). -/
def packForm (raw : Bytes) : Bool :=
  let w := fun o n => leAt raw o n
  let n := w 6 2
  let lead := 64 + 32 * n
  let bodies := raw.length - (64 + 64 * n + 512)
  decide (w 0 4 = 0x4C385450) && decide (w 4 2 = 1) && decide (1 ≤ n) && decide (n ≤ 4096) && decide (w 16 8 = raw.length) &&
  decide (raw.length ≤ 64 * 2 ^ 20) && decide (w 24 40 = 0) && decide (lead + 64 + 64 * n + 512 ≤ raw.length) &&
  manifestForm (raw.drop bodies) n &&
  (List.range n).all fun i =>
    let e := packEntry raw i
    let body := slice raw e.off e.len
    decide (e.eng ≤ 2) && decide (1 ≤ e.beats) && decide (e.beats ≤ 512) && decide (e.off % 64 = 0) && decide (64 ≤ e.len) &&
    decide (e.len ≤ 24576) && decide (lead ≤ e.off) && decide (e.off + e.len ≤ bodies) && decide (e.reserved = 0) &&
    (decide (e.eng ≠ 1) || decide (e.pair = 0)) && decide ((decodeStep (body.take 64)).eng = e.eng) && testOffsets (body.take 64)

/-- Signature and digests of a pack (R428). The manifest is the pack's last part. -/
def Hall.packSigned (h : Hall) (raw : Bytes) : Bool :=
  let n := leAt raw 6 2
  let man := raw.drop (raw.length - (64 + 64 * n + 512))
  manifestSig h purposePack (slice raw 0 (64 + 32 * n)) man n &&
  (List.range n).all fun i =>
    let e := packEntry raw i
    decide (slice man (64 + 64 * i) 64 = sha512 (slice raw e.off e.len))

/-- CHECK_PACK_INSTALL (R243): the pack is copied, and the install goes on as an operation. -/
def execCheckPackInstall (till : Fin 128) (s : State) : Host.Outcome State Fault Refusal :=
  s.till till.val 0x0504 never fun c h =>
    if c.length ≠ 12 then refuse h stBadArg
    else acceptOp h c fun k h =>
      let r := h.stageCopy c.pen (c.arg 0 8) (c.arg 8 4)
      let x : Nat × Bytes := match r.1 with
        | .inr b => (0, b)
        | .inl f => (f, [])
      { r.2 with checks.packInstalls := Tab.set r.2.checks.packInstalls k x }

/-- Status of an install (R243): a pack whose parts cannot be told apart is malformed before its signature is looked at. -/
def Hall.packStatus (h : Hall) (fault : Nat) (raw : Bytes) : Nat :=
  let n := leAt raw 6 2
  if fault ≠ 0 then fault
  else if raw.length < 64 + 96 * n + 576 ∨ n = 0 ∨ 4096 < n then stBadArg
  else if !h.packSigned raw then stVerifyFailed
  else if !packForm raw then stBadArg
  else match h.checks.pack with
    | some p => if leAt raw 12 4 ≤ p.version then stPackStale else stOK
    | none => stOK

/-- PACK_INSTALL_DONE (R243): runs that are due, and probes, go on with the tests of the new pack. -/
def execPackInstallDone (handle : Nat) (s : State) : Host.Outcome State Fault Refusal :=
  s.run fun h => match Tab.find h.checks.packInstalls handle with
    | none => h
    | some (fault, raw) =>
      let st := h.packStatus fault raw
      let h := { h with checks.packInstalls := Tab.erase h.checks.packInstalls handle }
      let h := if st = stOK then
          let p : Pack := { packId := leAt raw 8 4, version := leAt raw 12 4, raw := raw }
          { h with
            checks.pack := some p
            data.stalls := h.data.stalls.map fun e =>
              (e.1, { e.2 with packRun := e.2.packRun.map fun _ => List.range p.ntest })
            checks.probes := h.checks.probes.map fun e =>
              (e.1, { e.2 with todo := (e.2.todo.map Prod.fst).dedup.flatMap fun i => (p.select e.2.sigId).map fun t => (i, t) }) }
        else h
      h.closeOp handle st

/-! ### Tests (R244, R245) -/

/-- PACK_RUN_DUE (Table 9.8). -/
def execPackRunDue (row : Fin 8) (stall : Fin 16) (s : State) : Host.Outcome State Fault Refusal :=
  s.run fun h =>
    let i := 16 * row.val + stall.val
    let age := (Tab.get ({} : StallTotals) h.checks.totals i).packAge
    let due :=
      if h.getF .tallyStallState i = 1 then decide (10000 ≤ h.getF .tallyStallSinceTest i)
      else if h.getF .tallyStallRole i = 3 then decide (hourTicks ≤ age)
      else if h.getF .tallyStallRole i = 1 ∨ h.getF .tallyStallRole i = 2 then decide (dayTicks ≤ age)
      else false
    if due then h.packDue i else h

/-- Nothing can be dispatched on the stall now, and no open instance still needs it. -/
def Hall.testMoment (h : Hall) (i : Nat) : Bool :=
  let x := h.stall i
  x.ox.isNone && x.vu.isNone && x.hen.isNone && x.test.isNone && !x.stuck && !h.stallRetired i &&
  (match x.point with
   | none => true
   | some p => match h.stepRef i p with
     | some r => !(h.ready r).1
     | none => true) &&
  !(h.openRuns.any fun r => decide (some r.handle = x.image) && (List.range x.steps.length).any fun n => match x.step n with
      | some st => decide (st.group = r.key.group) && !r.startedSteps.contains (i, n)
      | none => false)

/-- The next test for a stall: of its full pack run, otherwise of a probe that names it. -/
def Hall.nextTest (h : Hall) (i : Nat) : Option Nat :=
  match (h.stall i).packRun with
  | some (t :: _) => some t
  | _ => h.checks.probes.findSome? fun e => (e.2.todo.find? fun t => t.1 = i).map Prod.snd

/-- PATTERN_TEST_START (R244). -/
def execPatternTestStart (row : Fin 8) (stall : Fin 16) (s : State) : Host.Outcome State Fault Refusal :=
  s.run fun h =>
    let i := 16 * row.val + stall.val
    match h.checks.pack, h.nextTest i with
    | some p, some t =>
      if !h.testMoment i then h
      else
        let e := packEntry p.raw t
        h.updStall i fun x =>
          { x with test := some { idx := t, again := false, eng := e.eng, pair := e.pair, beats := e.beats, sig := e.sig, expect := e.expect
                                  packId := p.packId, version := p.version, body := slice p.raw e.off e.len } }
    | _, _ => h

/-- A full pack run goes on without a test that has ended, and ends with its last one. -/
def Hall.packStep (h : Hall) (i t : Nat) (failed : Bool) : Hall :=
  match (h.stall i).packRun with
  | none => h
  | some l =>
    let bad := (h.stall i).packFailed || (failed && l.contains t)
    match l.filter (· ≠ t) with
    | [] =>
      let h := (h.updStall i fun x => { x with packRun := none, packFailed := false, lastPackPassed := !bad }).setF .tallyStallTestDue i 0
      if bad then h else (h.setF .tallyStallSinceTest i 0).setF .tallyStallSat i 0
    | rest => h.updStall i fun x => { x with packRun := some rest, packFailed := bad }

/-- DETAIL bytes of a probe (Table 9.11). -/
def Probe.detail (p : Probe) : Bytes :=
  let i := p.first.getD 0
  leBytes 2 p.run ++ leBytes 2 p.failed ++ leBytes 1 (i / 16) ++ leBytes 1 (i % 16)

/-- Ends a probe whose tests have all run. -/
def Hall.probeSettle (h : Hall) (k : Nat) : Hall :=
  match Tab.find h.checks.probes k with
  | none => h
  | some p =>
    if p.todo ≠ [] then h
    else { h with checks.probes := Tab.erase h.checks.probes k }.closeOp k (if p.failed = 0 then stOK else stCheckMismatch) p.detail

/-- A test of a stall has ended, for the probes that named it. -/
def Hall.probeStep (h : Hall) (i t : Nat) (failed : Bool) : Hall :=
  let one := fun (p : Probe) =>
    if p.todo.contains (i, t) then
      { p with todo := p.todo.filter (· ≠ (i, t)), run := p.run + 1, failed := p.failed + b2n failed
               first := if failed && p.first.isNone then some i else p.first }
    else p
  let l : Tab Probe := h.checks.probes.map fun (e : Nat × Probe) => (e.1, one e.2)
  l.foldl (fun h e => h.probeSettle e.1) { h with checks.probes := l }

/-- The record of a test. -/
def testRecord (t : PackTest) (kind i : Nat) (digests : List (Nat × Nat)) : SigRecord :=
  { seq := 0, hub := .a, ticks := 0, kind := kind, pen := 255, engine := (t.eng, t.pair), computing := some i, digests := digests
    pack := some (t.packId, t.version, t.sig) }

/-- PATTERN_TEST_END (R245): the digest of a fault-free run, changed by `fault`, against EXPECT; a failing test runs once
more at once. -/
def execPatternTestEnd (row : Fin 8) (stall : Fin 16) (fault : BitVec 64) (s : State) : Host.Outcome State Fault Refusal :=
  s.run fun h =>
    let i := 16 * row.val + stall.val
    match (h.stall i).test with
    | none => h
    | some t =>
      let d := Config.testDigest t.body % 2 ^ 64 ^^^ fault.toNat
      let failed := decide (d ≠ t.expect)
      let h := (h.bump .tallyTestsRun row.val).bump .tallyTestsFailed row.val (b2n failed)
      if t.again then
        let h := h.updStall i fun x => { x with test := none }
        let h := h.latchVerdict row.val (if failed then 8 else 7) i none none 0 0 0
        let h := if failed then h.condemn i else h.strike i
        let h := h.addRecord row.val i (h.withState i (testRecord t (if failed then 8 else 7) i [(4, d), (5, t.expect)]))
        (h.packStep i t.idx true).probeStep i t.idx true
      else if failed then
        let h := h.updStall i fun x => { x with test := some { t with again := true } }
        (h.latchVerdict row.val 9 i none none 0 0 0).addRecord row.val i (h.withState i (testRecord t 9 i [(1, d), (5, t.expect)]))
      else
        let h := h.updStall i fun x => { x with test := none }
        (h.packStep i t.idx false).probeStep i t.idx false

/-! ### CHECK commands (Table 9.11) -/

/-- CHECK_SET (R224, R227, R253). -/
def execCheckSet (till : Fin 128) (s : State) : Host.Outcome State Fault Refusal :=
  s.till till.val 0x0501 forP0 fun c h =>
    if c.length ≠ 2 ∨ 1 < c.arg 0 1 ∨ 7 < c.arg 1 1 then refuse h stBadArg
    else
      match (h.setFs c.pen [(.tallyPenchkChkOn, c.arg 0 1), (.tallyPenchkFCode, c.arg 1 1)]).designate c.pen with
      | some h => okWith h
      | none => refuse h stNoResource

/-- CHECK_GET. -/
def execCheckGet (till : Fin 128) (s : State) : Host.Outcome State Fault Refusal :=
  s.till till.val 0x0502 never fun c h =>
    if c.length ≠ 0 then refuse h stBadArg
    else
      let place := fun (i : Nat) => leBytes 1 (i / 16) ++ leBytes 1 (i % 16)
      let shadows := h.shadowsOf c.pen
      let stalls := h.stallsOf c.pen
      okWith h (leBytes 1 (h.getF .tallyPenchkChkOn c.pen) ++ leBytes 1 (h.getF .tallyPenchkFCode c.pen) ++
        leBytes 1 shadows.length ++ shadows.flatMap place ++ leBytes 1 stalls.length ++ stalls.flatMap fun i =>
          place i ++ leBytes 1 (h.getF .tallyStallState i) ++ leBytes 1 (h.getF .tallyStallStrikes i) ++ leBytes 1 (h.getF .tallyStallFOvr i))

/-- Stalls of a list of (row, stall) pairs in a payload; none where one does not exist. -/
def TillCmd.stallList (c : TillCmd) (o n : Nat) : Option (List Nat) :=
  let l : List (Nat × Nat) := (List.range n).map fun i => (c.arg (o + 2 * i) 1, c.arg (o + 2 * i + 1) 1)
  if (l.all fun e => decide (e.1 < 8) && decide (e.2 < 16)) then some (l.map fun e => 16 * e.1 + e.2) else none

/-- CHECK_PROBE (R246). -/
def execCheckProbe (till : Fin 128) (s : State) : Host.Outcome State Fault Refusal :=
  s.till till.val 0x0503 forP0 fun c h =>
    let n := c.arg 0 1
    let ms := c.arg (5 + 2 * n) 4
    if c.length ≠ 9 + 2 * n ∨ n = 0 ∨ 64 < n ∨ ms = 0 ∨ 10000 < ms then refuse h stBadArg
    else match c.stallList 1 n with
    | none => refuse h stBadArg
    | some l =>
      if !c.secure && (l.any fun i => decide (h.stallPen i ≠ c.pen)) then refuse h stNotPermitted
      else acceptOp h c fun k h => match h.checks.pack with
        | none => h.closeOp k stNoPack
        | some p =>
          let sig := c.arg (1 + 2 * n) 4
          let x : Probe := { sigId := sig, todo := l.dedup.flatMap fun i => (p.select sig).map fun t => (i, t) }
          { h with checks.probes := Tab.set h.checks.probes k x }.probeSettle k

/-- CHECK_PROBE_DEADLINE (R246). -/
def execCheckProbeDeadline (handle : Nat) (s : State) : Host.Outcome State Fault Refusal :=
  s.run fun h => match Tab.find h.checks.probes handle with
    | some p => { h with checks.probes := Tab.erase h.checks.probes handle }.closeOp handle stDeadline p.detail
    | none => h

/-! ### LOG_EXPORT -/

/-- Records held, oldest first: those of T1, after those that only the system areas still hold (R249). -/
def Hall.heldRecords (h : Hall) : List SigRecord :=
  (h.checks.saved.filter fun r => !(h.checks.records.any fun x => x.seq = r.seq)) ++ h.checks.records

/-- Entries that fit in a number of bytes. -/
def fitEntries : List SigRecord → Nat → List SigRecord
  | [], _ => []
  | r :: rest, n => if r.signed.length + 2 ≤ n then r :: fitEntries rest (n - r.signed.length - 2) else []

/-- LOG_EXPORT (R251): NEXT_SEQ is where a further export goes on (DEDUCED, log entry 34). -/
def execLogExport (till : Fin 128) (s : State) : Host.Outcome State Fault Refusal :=
  s.till till.val 0x0C01 never fun c h =>
    if c.length ≠ 6 then refuse h stBadArg
    else
      let start : Nat := c.arg 0 4
      let ahead : Nat → Nat := fun x => (x + 2 ^ 32 - start) % 2 ^ 32
      let held := h.heldRecords
      let mine := held.filter fun r => decide (ahead r.seq < 2 ^ 31) &&
        (c.secure || (decide (r.pen ≠ 255) && h.fnOwnsPen (h.tillFn c.till) r.pen))
      let out := fitEntries (mine.take (c.arg 4 2)) (3968 - 8)
      let oldest : Nat := (held.head?.map fun r => r.seq).getD h.checks.nextSeq
      let gap := decide (0 < ahead oldest) && decide (ahead oldest < 2 ^ 31)
      let next := ((mine[out.length]?).map fun r => r.seq).getD h.checks.nextSeq
      okWith h (leBytes 4 next ++ leBytes 2 out.length ++ leBytes 1 (b2n gap) ++ leBytes 1 0 ++
        out.flatMap fun r => leBytes 2 r.signed.length ++ r.signed)

end Sys2Proof.Machine
end

