-- ==== Sys2Proof/Machine/Trust.lean ====
section
/-! DEFINITION. Trust (chapter 18): the world attribute table's commands (R424–R426), the trust store and the certificate
chains (R427–R434), the anti-rollback counter (R432), attestation reports (R435, R436), and FW_QUERY (R467). -/

namespace Sys2Proof.Machine

/-! ### The world attribute table (R424–R426) -/

/-- Entries of each kind (Table 18.2). -/
def watCount : Nat → Nat
  | 0 => 128
  | 1 => 128
  | 2 => 16384
  | 3 => 256
  | 4 => 512
  | 5 => 16
  | 6 => 1024
  | 7 => 4
  | 8 => 12288
  | 9 => 4194304
  | 10 => 4096
  | _ => 0

/-- Pens that own a block or region: whether each is secure. -/
def Hall.watOwners (h : Hall) (kind i : Nat) : List Bool :=
  let pen := fun (p : Nat) => if p < 32 then [h.penSecure p] else []
  match kind with
  | 0 => pen (h.stallPen i)
  | 1 => if i < 32 then [true] else match (h.till i).vf with
    | some k => [h.penSecure k]
    | none => [false]
  | 2 => match (h.que i).qrec with
    | some r => if r.pen = 255 then [r.secure] else pen r.pen
    | none => match (h.que i).grant with
      | some p => pen p
      | none => []
  | 3 => if 120 ≤ i % 128 then [true] else if h.flag .brwChCtrlPenValid i then pen (h.getF .brwChCtrlPen i) else []
  | 4 => if 60 ≤ i % 64 then [true] else if h.flag .brwChCtrlPenValid (256 + i) then pen (h.getF .brwChCtrlPen (256 + i)) else []
  | 5 => (List.range 32).filterMap fun p => if h.share i p = 0 then none else some (h.penSecure p)
  | 6 => match h.lidPen (i / 128) (i % 128) with
    | some p => pen p
    | none => []
  | 7 => match h.nbrPen i with
    | some p => pen p
    | none => []
  | 8 => if i % 1536 < 1024 then pen (h.stallPen (16 * (i / 1536) + i % 1536 / 64)) else h.bufOwners (i / 1536) (i % 1536 - 1024)
  | 9 => match Tab.find h.tiers.frames i with
    | some p => pen p
    | none => if i % 2097152 < reservePages ∨ halfPages ≤ i % 2097152 then [true] else []
  | _ => []

/-- Lots that hold a shard in a sector of a row (R323). -/
def Hall.sectorLots (h : Hall) (row n : Nat) : List Lot :=
  (h.weights.lots.map Prod.snd).filter fun l => l.parts.any fun p =>
    decide (p.1 = row % 4) && decide (p.2.1 ≤ n) && decide (n < p.2.1 + ceilDiv p.2.2 256)

/-- R426 lets an entry take a world. -/
def Hall.watAllowed (h : Hall) (kind i : Nat) (secure : Bool) : Bool :=
  (h.watOwners kind i).all (fun o => o = secure) &&
  (secure || kind ≠ 10 ||
    (decide (i % 512 * 2 ^ 30 < h.t2Bytes) && (h.sectorLots (i / 512) (i % 512)).all fun l => l.grants.all fun p => !h.penSecure p))

/-- Changes one entry: a granule that leaves the secure world is zeroed; a stall's store and a channel's registers are
cleared before their bit changes. -/
def Hall.watChange (h : Hall) (kind i : Nat) (secure : Bool) : Hall :=
  if h.secureEntry kind i = secure then h
  else
    let h := match kind with
      | 0 => h.zero (storeBase i) 0x400000
      | 3 => (h.chanDrop i).chanPenReset i
      | 4 => (h.chanDrop (256 + i)).chanPenReset (256 + i)
      | 8 => if secure then h else h.zero (t0Base (i / 1536) + i % 1536 * 65536) 65536
      | 9 => if secure then h else h.zero (i * 65536) 65536
      | _ => h
    h.setWorld kind i secure

/-- Granules of a range that leave the secure world. -/
def Hall.watZeroes (h : Hall) (kind first count : Nat) (secure : Bool) : Nat :=
  if secure || !(kind = 8 || kind = 9) then 0
  else ((List.range count).filter fun i => h.secureEntry kind (first + i)).length

def Hall.setZeroing (h : Hall) : Hall :=
  let b := decide (h.trust.zeroing ≠ [])
  (h.setB .watStatusZeroing 0 b).setB .watStatusZeroing 1 b

/-- TRUST_WAT_SET (R426, R439). -/
def execTrustWatSet (till : Fin 128) (s : State) : Host.Outcome State Fault Refusal :=
  s.till till.val 0x0B08 never fun c h =>
    let kind := c.arg 0 1
    let secure := decide (c.arg 1 1 = 1)
    let first := c.arg 2 4
    let count := c.arg 6 4
    if c.length ≠ 10 ∨ 1 < c.arg 1 1 ∨ 10 < kind ∨ watCount kind < first + count then refuse h stBadArg
    else if !((List.range count).all fun i => h.watAllowed kind (first + i) secure) then refuse h stNotPermitted
    else if 1024 < h.watZeroes kind first count secure then
      acceptOp h c fun k h => { h with trust.zeroing := Tab.set h.trust.zeroing k (kind, secure, first, count) }.setZeroing
    else okWith (upTo count h fun h i => h.watChange kind (first + i) secure)

/-- TRUST_WAT_ZEROED (R426): the granules have been zeroed, and the entries change, but for those whose owner has changed
meanwhile. -/
def execTrustWatZeroed (handle : Nat) (s : State) : Host.Outcome State Fault Refusal :=
  s.run fun h => match Tab.find h.trust.zeroing handle with
    | none => h
    | some (kind, secure, first, count) =>
      let h := upTo count h fun h i => if h.watAllowed kind (first + i) secure then h.watChange kind (first + i) secure else h
      { h with trust.zeroing := Tab.erase h.trust.zeroing handle }.setZeroing.closeOp handle stOK

/-- WAT_CLEAR (R441). -/
def execWatClearLast (req : Requester) (hub : Hub) (s : State) : Host.Outcome State Fault Refusal :=
  s.board req fun h => h.clearFs (hubNum hub)
    [.watDenyLastValid, .watDenyLastKind, .watDenyLastSource, .watDenyLastDir, .watDenyLastSourceId, .watDenyLastIndex]
def execWatClearStats (req : Requester) (hub : Hub) (s : State) : Host.Outcome State Fault Refusal :=
  s.board req fun h => h.clearCtr (hubNum hub) .watDenials

/-! ### Attestation reports (R435, R436) -/

def cborNull : Bytes := beBytes 1 0xF6

/-- Bits of a kind's entries, eight to a byte, lowest entry in bit 0. -/
def Hall.watBits (h : Hall) (kind : Nat) : Bytes :=
  (List.range (ceilDiv (watCount kind) 8)).map fun k => BitVec.ofNat 8
    ((List.range 8).foldl (fun acc j =>
      if 8 * k + j < watCount kind ∧ h.secureEntry kind (8 * k + j) = true then acc + 2 ^ j else acc) 0)

/-- What an MP runs, null for one in ROM recovery. -/
def Hall.mpReport (h : Hall) (hub : Hub) : Bytes :=
  match (h.mp hub).state, h.fwSlot (h.mp hub).slot with
  | .romRecovery, _ => cborNull
  | .off, _ => cborNull
  | .lost, _ => cborNull
  | _, some f => cborArr [cborUint (hubNum hub), cborUint (h.mp hub).slot, cborUint f.svn, cborUint f.build, cborBstr (sha512 f.package)]
  | _, none => cborNull

/-- The signed manifest of an image. -/
def Image.manifest (im : Image) : Bytes :=
  match (imageSections im.raw).find? fun x => x.typ = 15 with
  | some x => x.data
  | none => []

/-- Payload of a report for a request with a nonce; `only` restricts keys 13–15 to one pen. -/
def Hall.report (h : Hall) (nonce : Bytes) (only : Option Nat) : Bytes :=
  let hub := h.govHub
  let seen := fun (p : Nat) => match only with
    | some q => decide (p = q)
    | none => true
  let store := [purposeImage, purposeLot, purposePack, purposeEndpoint, purposeNeighbour].flatMap fun p => (h.keysOf p).flatMap Prod.snd
  let images := (h.data.images.filter fun e => seen e.2.pen).map fun e =>
    cborArr [cborUint e.2.pen, cborUint e.2.imageId, cborUint e.1, cborUint e.2.state.code, cborBstr (sha512 e.2.manifest)]
  let lots := (h.weights.lots.filter fun e => only.isNone || e.2.grants.any seen).map fun e =>
    cborArr [cborUint e.2.lotId, cborUint e.2.gen, cborUint (Config.lotState e.2.state.rank), cborBstr (sha512 e.2.manifest),
      cborUints (e.2.grants.filter seen)]
  let adapters := (h.weights.adapters.filter fun e => seen e.2.pen).map fun e =>
    cborArr [cborUint e.2.pen, cborUint e.2.lotId, cborBstr (sha512 e.2.manifest)]
  cborMap ([(1, cborUint 1), (2, cborBstr moduleId), (3, cborBstr nonce),
    (4, cborArr [cborUint (h.getF .hubIdentPart 0), cborUint (h.getF .hubIdentStep 0), cborUint (h.getF .hubIdentVariant 0),
      cborBstr (leBytes 8 (h.getF .hubSerial0SnLo 0) ++ leBytes 8 (h.getF .hubSerial1SnHi 0))]),
    (5, cborUints [hubNum hub, h.getF .rtcCountTicks (hubNum hub)]),
    (6, cborArr [cborBstr (slice (Config.romDigest 0) 0 64), cborBstr (slice (Config.romDigest 1) 0 64)]),
    (7, cborArr [h.mpReport .a, h.mpReport .b]), (8, cborUint h.trust.rollback), (9, cborUint (hubNum hub)),
    (10, cborBstr (sha512 store)), (11, cborBstr (sha512 ((List.range 11).flatMap h.watBits)))] ++
    optKey 12 (h.checks.pack.map fun p => cborArr [cborUint p.packId, cborUint p.version, cborBstr (sha512 p.raw)]) ++
    [(13, cborArr images), (14, cborArr lots), (15, cborArr adapters), (16, cborUint ((List.range 128).filter h.stallRetired).length)])

/-- Writes bytes at an MVA of a pen for a command. -/
def Hall.jenigStore (h : Hall) (pen mva : Nat) (b : Bytes) : Hall := (h.mvaStore h.govHub jenig pen mva (cleanBytes b) true).2

/-- The destination of a command's output is writable (R259). -/
def Hall.dstOk (h : Hall) (pen mva n : Nat) : Bool := decide (mva + n ≤ 2 ^ 48) && h.mvaWritable pen mva n true

/-- TRUST_ATTEST (R435, R436). -/
def execTrustAttest (till : Fin 128) (s : State) : Host.Outcome State Fault Refusal :=
  s.till till.val 0x0B01 never fun c h =>
    let dst := c.arg 32 8
    let max := c.arg 40 4
    if c.length ≠ 44 ∨ h.dstOk c.pen dst max = false then refuse h stBadArg
    else acceptOp h c fun k h =>
      let r := h.coseSign (h.report (c.payload.take 32) (if c.secure then none else some c.pen))
      if max < r.1.length then h.closeOp k stNoResource
      else (r.2.jenigStore c.pen dst r.1).closeOp k stOK (leBytes 4 r.1.length)

/-! ### Chains and keys (R429–R434) -/

/-- Answers a length, with the bytes written to a destination; NO_RESOURCE where they exceed MAX (log entry 35). -/
def giveBytes (h : Hall) (pen dst max : Nat) (b : Bytes) : Answer :=
  if h.dstOk pen dst max = false then refuse h stBadArg
  else if max < b.length then refuse h stNoResource
  else okWith (h.jenigStore pen dst b) (leBytes 4 b.length)

/-- TRUST_CERT_GET. -/
def execTrustCertGet (till : Fin 128) (s : State) : Host.Outcome State Fault Refusal :=
  s.till till.val 0x0B02 never fun c h =>
    if c.length ≠ 13 then refuse h stBadArg
    else match c.arg 0 1, h.trust.chain1 with
      | 0, _ => giveBytes h c.pen (c.arg 1 8) (c.arg 9 4) Config.chain0
      | 1, some x => giveBytes h c.pen (c.arg 1 8) (c.arg 9 4) x
      | _, _ => refuse h stBadArg

/-- Form of a chain (R378, R434): size, number of certificates, algorithms, CA and path lengths. -/
def chainForm (certs : List Config.Cert) : Bool :=
  decide (1 ≤ certs.length) && decide (certs.length ≤ 4) && certs.zipIdx.all fun e =>
    e.1.strong && e.1.pss && (decide (e.2 = 0) || (e.1.ca && match e.1.pathLen with
      | some p => decide (e.2 - 1 ≤ p)
      | none => true))

/-- Every certificate but the last is signed by the next one's key. -/
def chainSigned : List Config.Cert → Bool
  | [] => true
  | [_] => true
  | c :: d :: rest => Config.pssVerify d.spki c.tbs c.sig && chainSigned (d :: rest)

/-- TRUST_CERT_SET: the source lies in P0's range, as that of every module-wide command. -/
def execTrustCertSet (till : Fin 128) (s : State) : Host.Outcome State Fault Refusal :=
  s.till till.val 0x0B03 never fun c h =>
    if c.length ≠ 12 then refuse h stBadArg
    else if c.arg 8 4 = 0 then okWith { h with trust.chain1 := none }
    else match h.stageCopy 0 (c.arg 0 8) (c.arg 8 4) with
      | (.inl f, h) => refuse h f
      | (.inr der, h) =>
        if 12288 < der.length then refuse h stBadArg
        else match Config.x509 der with
        | none => refuse h stBadArg
        | some certs =>
          if !chainForm certs then refuse h stBadArg
          else if !chainSigned certs || decide ((certs.head?.map fun x => x.spki) ≠ some Config.identityKey) then refuse h stVerifyFailed
          else okWith { h with trust.chain1 := some der }

/-- TRUST_CSR (RFC 2986). -/
def execTrustCsr (till : Fin 128) (s : State) : Host.Outcome State Fault Refusal :=
  s.till till.val 0x0B04 never fun c h =>
    let n := c.arg 0 2
    if c.length ≠ 14 + n then refuse h stBadArg
    else
      let body := Config.csr (slice c.payload 2 n)
      let r := h.sign body
      giveBytes r.2 0 (c.arg (2 + n) 8) (c.arg (10 + n) 4) (body ++ r.1)

/-- TRUST_KEY_ADD. -/
def execTrustKeyAdd (till : Fin 128) (s : State) : Host.Outcome State Fault Refusal :=
  s.till till.val 0x0B05 never fun c h =>
    let purpose := c.arg 0 1
    let k := 16 * purpose + c.arg 1 1
    if c.length ≠ 14 ∨ purpose = 0 ∨ 5 < purpose ∨ 15 < c.arg 1 1 then refuse h stBadArg
    else if (Tab.find h.trust.keys k).isSome then refuse h stBusy
    else match h.stageCopy 0 (c.arg 2 8) (c.arg 10 4) with
      | (.inl f, h) => refuse h f
      | (.inr der, h) => match Config.publicKey der with
        | some (spki, true) => okWith { h with trust.keys := Tab.set h.trust.keys k spki }
        | _ => refuse h stBadArg

/-- TRUST_KEY_REMOVE (R430). -/
def execTrustKeyRemove (till : Fin 128) (s : State) : Host.Outcome State Fault Refusal :=
  s.till till.val 0x0B06 never fun c h =>
    let purpose := c.arg 0 1
    let slot := c.arg 1 1
    let k := 16 * purpose + slot
    if c.length ≠ 2 ∨ 15 < slot ∨ (Tab.find h.trust.keys k).isNone = true then refuse h stBadArg
    else
      let h := { h with trust.keys := Tab.erase h.trust.keys k }
      okWith (if purpose = purposeEndpoint then h.sessAnchorGone slot
        else if purpose = purposeNeighbour then h.nbrAnchorGone slot else h)

/-- TRUST_KEY_LIST. -/
def execTrustKeyList (till : Fin 128) (s : State) : Host.Outcome State Fault Refusal :=
  s.till till.val 0x0B07 never fun c h =>
    if c.length ≠ 1 ∨ c.arg 0 1 = 0 ∨ 5 < c.arg 0 1 then refuse h stBadArg
    else okWith h ((h.keysOf (c.arg 0 1)).flatMap fun k => leBytes 1 k.1 ++ sha512 k.2)

/-! ### The anti-rollback counter and IDE (R432, R438) -/

/-- Security versions that a new counter value may not pass: what either MP runs and what either slot holds. -/
def Hall.svns (h : Hall) : List Nat :=
  ([h.trust.slot0, h.trust.slot1].filterMap id).map fun f => f.svn

/-- TRUST_ROLLBACK_SET: while the brown-out detector is asserted no record can be programmed, and the counter keeps its old
value (Table 18.9). -/
def execTrustRollbackSet (till : Fin 128) (s : State) : Host.Outcome State Fault Refusal :=
  s.till till.val 0x0B09 never fun c h =>
    let v := c.arg 0 4
    if c.length ≠ 4 ∨ v ≤ h.trust.rollback then refuse h stBadArg
    else if h.avail.handover.isSome then refuse h stBusy
    else if h.svns.any fun x => decide (x < v) then refuse h stNotPermitted
    else if h.flag .pwrStatusBrownout 0 then refuse h stInterrupted
    else okWith { h with trust.rollback := v, trust.rollbackSat := decide (v = 2 ^ 32 - 1) }

/-- TRUST_IDE_POLICY (R438). -/
def execTrustIdePolicy (till : Fin 128) (s : State) : Host.Outcome State Fault Refusal :=
  s.till till.val 0x0B0A never fun c h =>
    if c.length ≠ 2 ∨ 1 < c.arg 0 1 ∨ 1 < c.arg 1 1 then refuse h stBadArg
    else okWith (h.updPort (hubOf (c.arg 0 1)) fun p => { p with ide := { p.ide with required := decide (c.arg 1 1 = 1) } })

/-- FW_QUERY (Table 19.7); an empty slot reads 0. -/
def execFwQuery (till : Fin 128) (s : State) : Host.Outcome State Fault Refusal :=
  s.till till.val 0x0D03 never fun c h =>
    if c.length ≠ 0 then refuse h stBadArg
    else
      let slot := fun (n : Nat) =>
        let f := h.fwSlot n
        leBytes 4 ((f.map fun x => x.svn).getD 0) ++ leBytes 2 ((f.map fun x => x.build).getD 0) ++ leBytes 1 (b2n (decide (h.trust.active = n)))
      okWith h (slot 0 ++ slot 1 ++ leBytes 1 (h.mp .a).slot ++ leBytes 1 (h.mp .b).slot)

end Sys2Proof.Machine
end

