-- ==== Sys2Proof/Machine/Domains.lean ====
section
/-! DEFINITION. Power domains, rails, alarms and the PWR commands (R471–R480, R484–R486). -/

namespace Sys2Proof.Machine

def Hall.setDom (h : Hall) (d st : Nat) : Hall := h.setF .pwrDomState d st

/-- A stall runs no step and no test, and no channel holds a slot of it (R474). -/
def Hall.stallIdle (h : Hall) (i : Nat) : Bool :=
  let x := h.stall i
  x.ox.isNone && x.vu.isNone && x.hen.isNone && x.test.isNone &&
    !(h.tiers.chans.any fun e => e.2.opened.any fun (o : OpenSlot) => o.stall = i)

/-- A domain is idle (R474). -/
def Hall.domIdle (h : Hall) : Domain → Bool
  | .stall i => h.stallIdle i
  | .row r => decide ((h.ledger r).runs = []) && (List.range 16).all (fun b => h.bankState r b = 0 || h.bankState r b = 3) &&
      !(h.tiers.chans.any fun e => decide (256 ≤ e.1) && decide (chanRow e.1 = r) && decide (e.2.outstanding ≠ []))
  | .decode e => (h.engine e).now.isNone
  | .dram hub => !(h.tiers.chans.any fun e => e.2.outstanding.any fun (b : DmaBurst) => match b.dest with
      | .phys a => h.region a = .t1 hub
      | .redo a => h.region a = .t1 hub
      | _ => false)
  | _ => true

/-- Fields of a block that a power-off returns to reset. -/
def Hall.resetBlock (h : Hall) (keep : Access → Bool) (blk : Blk) (k : Nat) : Hall :=
  { h with regs := h.regs.filter fun r => !(r.fld.info.blk = blk && r.unit / r.fld.info.n = k && !keep r.fld.info.acc) }

/-- What a domain loses in OFF (Table 20.3). A row's settings, and the pen membership that its Tally holds, Jenig writes again
at the wake (log entry 36); what is bound to a stall stands in the launch table. -/
def Hall.domLose (h : Hall) : Domain → Hall
  | .stall i =>
    let h := [Blk.ox, .vu, .hen, .exp, .stall].foldl (fun h b => h.resetBlock (fun _ => false) b i) h
    (h.zero (storeBase i) 0x400000).updStall i fun x => { x with troughs := x.troughs.map fun t => (t.1, t.2.reset), exp := {}, lastToken := [] }
  | .row r => ((h.zero (rowBufBase r) 0x2000000).clearCtrs r ledgerCounters).clearCtrs r tallyCounters
  | .decode e => ((h.resetBlock (fun _ => false) .vdec e).updEngine e fun _ => {})
  | .host hub => h.setF .pciLinkStatusUp (hubNum hub) 0
  | .tree p => h.portDisable p
  | .nbr p => h.nbrDown p 6
  | _ => h

def Hall.domOff (h : Hall) (d : Nat) : Hall := (h.domLose (domainOf d)).setDom d 0

/-- OFF_TICKS stands only for an unbound stall that is neither spare, shadow nor referee, and for a decode engine without a
stream (R474). -/
def Hall.offAllowed (h : Hall) : Domain → Bool
  | .stall i => (h.stall i).image.isNone && !(h.stall i).spare && h.getF .tallyStallRole i ≠ 2 && h.getF .tallyStallRole i ≠ 3
  | .decode e => (h.engine e).streams.isEmpty
  | _ => false

/-- DOMAIN_ENTER_RET: RET_TICKS has run out on an idle domain (R474, R475). -/
def execDomainEnterRet (domain : Fin 176) (s : State) : Host.Outcome State Fault Refusal :=
  s.run fun h =>
    let d := domain.val
    let x := domainOf d
    if h.domState d = 2 ∧ h.getF .pwrDomForce d = 0 ∧ h.getF .pwrDomRetTicks d ≠ 0 ∧ x.autoOk = true ∧ h.domIdle x = true then h.setDom d 1
    else h

/-- DOMAIN_ENTER_OFF: OFF_TICKS has run out in RET. -/
def execDomainEnterOff (domain : Fin 176) (s : State) : Host.Outcome State Fault Refusal :=
  s.run fun h =>
    let d := domain.val
    let x := domainOf d
    if h.domState d = 1 ∧ h.getF .pwrDomForce d = 0 ∧ h.getF .pwrDomOffTicks d ≠ 0 ∧ x.autoOk = true ∧ h.offAllowed x = true then h.domOff d
    else h

/-- A domain starts to wake. -/
def Hall.wake (h : Hall) (d : Nat) : Hall :=
  let st := h.domState d
  if st = 1 then h.setDom d 3
  else if st = 0 then { h.setDom d 3 with power.fromOff := d :: h.power.fromOff }
  else h

/-- The domains run: the sequencer has powered the module. -/
def Hall.powered (h : Hall) : Bool := decide (h.avail.mpA.state ≠ .off ∨ h.avail.mpB.state ≠ .off)

/-- DOMAIN_FORCE_APPLY (R477): FORCE takes effect at an idle moment. -/
def execDomainForceApply (domain : Fin 176) (s : State) : Host.Outcome State Fault Refusal :=
  s.run fun h =>
    let d := domain.val
    let x := domainOf d
    let st := h.domState d
    if !h.powered || x.ofP0 then h
    else match h.getF .pwrDomForce d with
    | 1 => h.wake d
    | 2 => if x.has 1 && decide (st = 2) && h.domIdle x then h.setDom d 1 else h
    | 3 => if x.has 0 && ((decide (st = 2) && h.domIdle x) || decide (st = 1)) then h.domOff d else h
    | _ => h

/-- An RTC alarm that has fired asserts a level wake of its domain (R475, R486). -/
def Hall.alarmWakes (h : Hall) (d : Nat) : Bool :=
  (List.range 16).any fun u => h.flag .rtcAlarmFired u && decide (h.getF .rtcAlarmDomain u = d)

/-- DOMAIN_WAKE (R475): a held request wakes a domain in RET; WAKE_LVL and an alarm wake one in OFF too. -/
def execDomainWake (domain : Fin 176) (s : State) : Host.Outcome State Fault Refusal :=
  s.run fun h =>
    let d := domain.val
    if !h.powered then h
    else if h.domState d = 1 then h.wake d
    else if h.domState d = 0 ∧ (h.flag .pwrDomWakeLvl d || h.alarmWakes d) = true then h.wake d
    else h

/-- DOMAIN_WAKE_DONE (R476); a wake from OFF holds while the brown-out detector is asserted (Table 20.5). -/
def execDomainWakeDone (domain : Fin 176) (s : State) : Host.Outcome State Fault Refusal :=
  s.run fun h =>
    let d := domain.val
    if h.domState d ≠ 3 ∨ (h.power.fromOff.contains d ∧ h.flag .pwrStatusBrownout 0 = true) then h
    else { h.setDom d 2 with power.fromOff := h.power.fromOff.filter (· ≠ d) }

/-- WAKE_PULSE (R475): an edge, with no effect on a domain that is ON. -/
def execWakePulse (req : Requester) (domain : Fin 176) (s : State) : Host.Outcome State Fault Refusal :=
  s.board req fun h => if h.powered then h.wake domain.val else h

/-! ### RTC alarms (R486) -/

/-- RTC_ALARM_FIRE: TICKS has reached TIME while ARMED. -/
def execRtcAlarmFire (hub : Hub) (alarm : Fin 8) (s : State) : Host.Outcome State Fault Refusal :=
  s.run fun h =>
    let u := 8 * hubNum hub + alarm.val
    if h.flag .rtcAlarmArmed u && !h.flag .rtcAlarmFired u && decide (h.getF .rtcAlarmTime u ≤ h.getF .rtcCountTicks (hubNum hub)) then
      let h := h.setF .rtcAlarmFired u 1
      let d := h.getF .rtcAlarmDomain u
      if d < 176 ∧ h.powered = true then h.wake d else h
    else h

/-- RTC_ALARM_CLEAR: writing 1 to FIRED clears it and ARMED. -/
def execRtcAlarmClear (req : Requester) (hub : Hub) (alarm : Fin 8) (s : State) : Host.Outcome State Fault Refusal :=
  s.board req fun h =>
    let u := 8 * hubNum hub + alarm.val
    if h.flag .rtcAlarmFired u then h.clearFs u [.rtcAlarmFired, .rtcAlarmArmed] else h

/-! ### Rails and the power cap (R478–R480) -/

def Hall.railSet (h : Hall) (n : Nat) : Nat := h.getF .pwrRailSet n

/-- Where a rail is to stand: its set value, lowered by the cap to no less than 0.68 V, or 0.68 V while its die is hot. -/
def Hall.railTarget (h : Hall) (n : Nat) : Nat :=
  let s := h.railSet n
  if h.power.hot.contains n then min s 680 else max (min s 680) (s - Tab.get 0 h.power.capDrop n)

/-- RAIL_SLEW_STEP: at most 10 mV nearer. -/
def execRailSlewStep (rail : Fin 10) (s : State) : Host.Outcome State Fault Refusal :=
  s.run fun h =>
    let n := rail.val
    let a := h.getF .pwrRailActual n
    let t := h.railTarget n
    h.setF .pwrRailActual n (if a < t then min t (a + 10) else max t (a - 10))

/-- The rails a condition holds for, those of the rows first. -/
def railPick (l : List (Nat × Nat)) (better : Nat → Nat → Bool) : Option Nat :=
  (l.foldl (fun (best : Option (Nat × Nat)) e => match best with
    | some b => if better e.2 b.2 then some e else best
    | none => some e) none).map Prod.fst

def Hall.setDrop (h : Hall) (n v : Nat) : Hall :=
  { h with power.capDrop := if v = 0 then Tab.erase h.power.capDrop n else Tab.set h.power.capDrop n v }

def Hall.showCapped (h : Hall) : Hall :=
  let b := decide (h.power.capDrop ≠ [])
  (h.setB .pwrStatusCapped 0 b).setB .pwrStatusCapped 1 b

/-- One sample's answer to an average above the cap: the highest row rail, lowest number first, then the hub rails; with
every rail at 0.68 V, PWR_CAP_HIT once. -/
def Hall.capLower (h : Hall) (average : Nat) : Hall :=
  let high := fun (l : List Nat) => (l.filter fun n => decide (680 < h.railTarget n) && !h.power.hot.contains n).map fun n => (n, h.railTarget n)
  let above := fun (a b : Nat) => decide (b < a)
  match railPick (high (List.range 8)) above with
  | some n => h.setDrop n (Tab.get 0 h.power.capDrop n + 10)
  | none => match railPick (high [8, 9]) above with
    | some n => h.setDrop n (Tab.get 0 h.power.capDrop n + 10)
    | none =>
      if h.power.capHit then h
      else { h with power.capHit := true }.post 255 true { typ := 0x0A01, detail := leBytes 2 average }

/-- The reverse: hub rails first, then the lowest row rail, highest number first. -/
def Hall.capRaise (h : Hall) : Hall :=
  let low := fun (l : List Nat) =>
    (l.filter fun n => decide (0 < Tab.get 0 h.power.capDrop n) && !h.power.hot.contains n).map fun n => (n, h.railTarget n)
  let beneath := fun (a b : Nat) => decide (a < b)
  match railPick (low [9, 8]) beneath with
  | some n => h.setDrop n (Tab.get 0 h.power.capDrop n - 10)
  | none => match railPick (low (List.range 8).reverse) beneath with
    | some n => h.setDrop n (Tab.get 0 h.power.capDrop n - 10)
    | none => h

/-- POWER_SAMPLE (R479): volts and watts of both feeds, in units of 0.1. Before 1,024 samples have been taken, the average is
that of those there are (log entry 37). -/
def execPowerSample (va wa vb wb : Nat) (s : State) : Host.Outcome State Fault Refusal :=
  s.run fun h =>
    let put := fun (h : Hall) (u : Nat) => h.setFs u [(.pwrInputVoltsA, va), (.pwrInputWattsA, wa), (.pwrInputVoltsB, vb), (.pwrInputWattsB, wb)]
    let l := ((wa + wb) :: h.power.samples).take 1024
    let h : Hall := { put (put h 0) 1 with power.samples := l }
    let watts : Nat := h.getF .pwrCapWatts 0
    let h : Hall := if watts = 0 ∨ h.governing.isNone = true then h
      else if watts * 10 * l.length < l.sum then h.capLower (l.sum / (10 * l.length))
      else
        let h := { h with power.capHit := false }
        if l.sum * 100 < watts * 10 * 95 * l.length then h.capRaise else h
    h.showCapped

/-- THERMAL_LIMIT (R480): the junction of the rail's die has reached 110 °C. -/
def execThermalLimit (rail : Fin 10) (tj : Nat) (s : State) : Host.Outcome State Fault Refusal :=
  s.run fun h =>
    let n := rail.val
    if tj < 110 ∨ h.governing.isNone = true then h
    else
      let h := h.setF .pwrRailTj n tj
      if h.power.hot.contains n then h
      else { h with power.hot := n :: h.power.hot }.post 255 true { typ := 0x0A03, detail := leBytes 1 n ++ leBytes 1 tj }

/-- THERMAL_RECOVER (R480): it has fallen below 100 °C. -/
def execThermalRecover (rail : Fin 10) (tj : Nat) (s : State) : Host.Outcome State Fault Refusal :=
  s.run fun h =>
    let n := rail.val
    if 100 ≤ tj then h else { h.setF .pwrRailTj n tj with power.hot := h.power.hot.filter (· ≠ n) }

/-! ### PWR commands (Table 20.7) -/

/-- Stalls and decode engines of a pen alone. -/
def Hall.domOfPen (h : Hall) (p : Nat) : Domain → Bool
  | .stall i => h.stallPen i = p
  | .decode e => decide (h.share e p ≠ 0) && (List.range 32).all fun q => q = p || h.share e q = 0
  | _ => false

/-- A stall or decode engine in which another pen has a part. -/
def Hall.domForeign (h : Hall) (p : Nat) : Domain → Bool
  | .stall i => h.stallPen i ≠ p && h.stallPen i ≠ 255
  | .decode e => (List.range 32).any fun q => q ≠ p && h.share e q ≠ 0
  | _ => false

/-- PWR_DOMAIN_SET (R473, R474, R477). -/
def execPwrDomainSet (till : Fin 128) (s : State) : Host.Outcome State Fault Refusal :=
  s.till till.val 0x0A01 (fun c h => !h.domOfPen c.pen (domainOf (c.arg 0 1)) && decide (c.arg 0 1 < 176)) fun c h =>
    let d := c.arg 0 1
    let x := domainOf d
    let force := c.arg 1 1
    let ret := c.arg 2 4
    let off := c.arg 6 4
    if c.length ≠ 10 ∨ 176 ≤ d ∨ 3 < force ∨ 2 ^ 24 ≤ ret ∨ 2 ^ 24 ≤ off then refuse h stBadArg
    else if (force = 2 ∧ x.has 1 = false) ∨ (force = 3 ∧ x.has 0 = false) ∨ (ret ≠ 0 ∧ x.has 1 = false) then refuse h stBadArg
    else if h.domForeign c.pen x || (x.ofP0 && (decide (2 ≤ force) || decide (ret ≠ 0))) || (decide (off ≠ 0) && (x.ofP0 || !h.offAllowed x)) then
      refuse h stNotPermitted
    else okWith (h.setFs d [(.pwrDomForce, force), (.pwrDomRetTicks, ret), (.pwrDomOffTicks, off)])

/-- PWR_RAIL_SET (R478). -/
def execPwrRailSet (till : Fin 128) (s : State) : Host.Outcome State Fault Refusal :=
  s.till till.val 0x0A02 never fun c h =>
    let n := c.arg 0 1
    let mv := c.arg 1 2
    let floor := if n = 0 ∨ n = 4 ∨ 8 ≤ n then 680 else 600
    if c.length ≠ 3 ∨ 9 < n ∨ mv < floor ∨ 900 < mv ∨ mv % 10 ≠ 0 then refuse h stBadArg
    else okWith (h.setF .pwrRailSet n mv)

/-- PWR_CAP_SET (R479): without a cap no rail is held below its set value. -/
def execPwrCapSet (till : Fin 128) (s : State) : Host.Outcome State Fault Refusal :=
  s.till till.val 0x0A03 never fun c h =>
    let w := c.arg 0 2
    if c.length ≠ 2 ∨ (w ≠ 0 ∧ (w < 100 ∨ 600 < w)) then refuse h stBadArg
    else
      let h := (h.setF .pwrCapWatts 0 w).setF .pwrCapWatts 1 w
      okWith ({ h with power := { h.power with capHit := false, capDrop := if w = 0 then [] else h.power.capDrop } }.showCapped)

/-- PWR_START_SET (R482). -/
def execPwrStartSet (till : Fin 128) (s : State) : Host.Outcome State Fault Refusal :=
  s.till till.val 0x0A04 never fun c h =>
    if c.length ≠ 1 ∨ 1 < c.arg 0 1 then refuse h stBadArg
    else okWith { h with power.gooseStart := decide (c.arg 0 1 = 1) }

/-- PWR_QUERY. -/
def execPwrQuery (till : Fin 128) (s : State) : Host.Outcome State Fault Refusal :=
  s.till till.val 0x0A05 never fun c h =>
    if c.length ≠ 2 ∨ 176 < c.arg 0 1 + c.arg 1 1 then refuse h stBadArg
    else
      okWith h (((List.range (c.arg 1 1)).flatMap fun i => leBytes 1 (h.domState (c.arg 0 1 + i)) ++ leBytes 1 (h.getF .pwrDomForce (c.arg 0 1 + i))) ++
        leBytes 2 (h.getF .pwrInputVoltsA 0) ++ leBytes 2 (h.getF .pwrInputWattsA 0) ++ leBytes 2 (h.getF .pwrInputVoltsB 0) ++
        leBytes 2 (h.getF .pwrInputWattsB 0))

end Sys2Proof.Machine
end

