-- ==== Sys2Proof/Machine/Pens.lean ====
section
/-! DEFINITION. Pens (R442–R449): states, pen reset (R445, R446), pairs, membership of stalls, tills, queues and decode shares,
and the PEN commands that do not shed (R466). -/

namespace Sys2Proof.Machine

/-! ### States (Table 19.1) -/

def PenState.code : PenState → Nat
  | .absent => 0
  | .up => 1
  | .wedged => 2
  | .resetting => 3
  | .shed => 4

/-- A pen changes state, and PEN_STATE reports it. -/
def Hall.setPenState (h : Hall) (p : Nat) (st : PenState) : Hall :=
  if (h.pen p).state = st then h
  else (h.updPen p fun x => { x with state := st }).postBoth p 0x0101 (leBytes 1 st.code)

/-- INTAKE_ON of a pen's launch entries: cleared on all, or set on those of ACTIVE images. -/
def Hall.penIntake (h : Hall) (p : Nat) (on : Bool) : Hall :=
  { h with data.launch := h.data.launch.map fun e =>
      if e.1 / 256 = p then
        (e.1, { e.2 with intakeOn := on && e.2.valid && decide (((h.image e.2.handle).map fun im => im.state) = some .active) })
      else e }

/-- The standby of a warm pair takes over from a primary that has left UP, and the roles swap (R449). Where the standby is not UP
itself, the roles stay (log entry 41). -/
def Hall.takeover (h : Hall) (p : Nat) : Hall :=
  let x := h.pen p
  match x.partner with
  | none => h
  | some q =>
    if x.mode = 2 ∧ x.primary = true ∧ (h.pen q).state = .up then
      (((h.updPen p fun x => { x with primary := false }).updPen q fun x => { x with primary := true, unsynced := true }).penIntake q true).penIntake
        p false
    else h

/-- PEN_WEDGE_DETECT (R444): WEDGE_MS has passed with requests in flight and no commit of the pen. -/
def execPenWedgeDetect (pen : Fin 32) (s : State) : Host.Outcome State Fault Refusal :=
  s.run fun h =>
    let p := pen.val
    if (h.pen p).state = .up ∧ (h.data.requests.any fun e => e.2.pen = p) = true then (h.setPenState p .wedged).takeover p else h

/-- Copies the mirror range of a new primary to the former one (R449). -/
def Hall.mirrorCopy (h : Hall) (src dst : Nat) : Hall :=
  let x := h.pen src
  (h.tiers.pages.filter fun e => decide (e.1 / 2 ^ 32 = src) && decide (pteType e.2 = 1) && decide (x.mirrorMva / 65536 ≤ e.1 % 2 ^ 32) &&
      decide (e.1 % 2 ^ 32 < x.mirrorMva / 65536 + x.mirrorPages)).foldl (fun h e =>
    match Tab.find h.tiers.pages (dst * 2 ^ 32 + e.1 % 2 ^ 32) with
    | some f => if pteType f = 1 then h.writeRam (ptePhys f) (h.readRam (ptePhys e.2) 65536) else h
    | none => h) h

/-- PAIR_SYNC (R449): the former primary is UP again. -/
def execPairSync (pen : Fin 32) (s : State) : Host.Outcome State Fault Refusal :=
  s.run fun h =>
    let p := pen.val
    match (h.pen p).partner with
    | none => h
    | some q =>
      if (h.pen p).state = .up ∧ (h.pen q).primary = true ∧ (h.pen q).unsynced = true then
        (((h.mirrorCopy q p).updPen q fun x => { x with unsynced := false })).postBoth p 0x0104 (leBytes 1 q)
      else h

/-! ### Pen reset (Table 19.2) -/

/-- The stall of a half of P0 (R446). -/
def halfStall (half : Nat) : Nat := if half = 1 then 15 else 79
def halfEngine (half : Nat) : Nat := if half = 1 then 0 else 8
def halfPorts (half : Nat) : List Nat := (List.range 4).map (4 * (half - 1) + ·)

/-- Images that a reset takes to EMPTY: all of the pen's, or those of P0 that run on the half alone (log entry 41). -/
def Hall.resetImages (h : Hall) (p half : Nat) : List Nat :=
  (h.data.images.filter fun e => e.2.pen = p &&
    (half = 0 || (decide (e.2.stalls ≠ []) && e.2.stalls.all fun (s : Nat × Nat) => s.2 = halfStall half))).map Prod.fst

/-- An image returns to EMPTY, and what a command on it waits for ends. -/
def Hall.imageGone (h : Hall) (k : Nat) : Hall :=
  let op := (h.image k).bind fun im => im.op
  let h := h.imageFree k
  match op with
  | some o => h.closeOp o stAborted
  | none => h

/-- Orders 3 and 4 for a queue: disabled, emptied, indices at zero, and enabled again when it was. Events that it held are
counted, and one EVENTS_LOST entry comes first. -/
def Hall.queReset (h : Hall) (q : Nat) : Hall :=
  let h := (h.updQue q fun x =>
    { x with phase := true, held := [], lost := x.lost + x.held.length, sinceRaise := 0 }).clearFs q [.queProd, .queCons, .queStatusDbReject]
  let h := (h.clearCtr q .queDrop).queFlags q
  if h.flag .queStatusEnabled q then h.evtDrain q 1 else h

def Hall.penQues (h : Hall) (p : Nat) : List Nat :=
  (h.cmd.ques.filter fun e => (e.2.qrec.map fun r => r.pen) = some p).map Prod.fst
def Hall.penTills (h : Hall) (p : Nat) : List Nat := (h.cmd.tills.filter fun e => e.2.vf = some p).map Prod.fst
def Hall.penFrames (h : Hall) (p : Nat) : List Nat := (h.tiers.frames.filter fun e => e.2 = p).map Prod.fst

/-- Register fields of a stall's blocks but for RWS (R11). -/
def Hall.stallRegsReset (h : Hall) (i : Nat) : Hall :=
  [Blk.ox, .vu, .hen, .exp, .stall].foldl (fun h b => h.resetBlock (fun a => a = .rws) b i) (h.updStall i fun x => { x with clears := [] })

/-- Orders 2 to 5 of a pen reset, or of the reset of one half of P0; also the number of requests discarded. -/
def Hall.penClear (h : Hall) (p half : Nat) (zero : Bool) : Nat × Hall :=
  let ims := h.resetImages p half
  let h := ((h.openRuns.filter fun r => ims.contains r.handle).map GroupRun.key).foldl (fun h k => h.discardRun k) h
  let gone := (h.data.requests.filter fun e => e.2.pen = p && ims.contains e.2.handle).map Prod.fst
  let h := gone.foldl (fun h t => h.dropRequest t) h
  let h := (ims.flatMap h.imageChans).foldl (fun h c => h.chanPenReset c) h
  let h := ims.foldl (fun h k => h.imageGone k) h
  let h :=
    if half = 0 then
      let h := (h.penTills p).foldl (fun h t => h.tillReset t) h
      let h := (((h.nbrPenReset p).sessUnbindPen p).vdecClearPen p).swapsPenReset p
      let h := (h.penQues p).foldl (fun h q => h.queReset q) h
      (h.stallsOf p).foldl (fun h i => h.stallRegsReset i) h
    else
      let h := (halfPorts half).foldl (fun h t => h.sessUnbindOn t p) h
      (h.vdecClearOn (halfEngine half) p).stallRegsReset (halfStall half)
  let h := if zero then (h.penFrames p).foldl (fun h f => h.zero (f * 65536) 65536) h else h
  (gone.length, h)

/-- Order 1: INTAKE_ON is cleared and the pen is RESETTING. A reset of a half leaves the other half's images alone. -/
def Hall.resetStart (h : Hall) (p : Nat) (r : PenReset) : Hall :=
  let shed := decide ((h.pen p).state = .shed)
  let h :=
    if r.half = 0 then h.penIntake p false
    else (h.resetImages p r.half).foldl (fun h k => h.updEntries k fun e => { e with intakeOn := false }) h
  ((h.updPen p fun x => { x with reset := some { r with toShed := shed } }).setPenState p .resetting).takeover p

/-! ### Membership -/

/-- A stall goes to a pen, or to none; its entries take the pen's world, and its store is cleared where its world changes (R422,
R426, log entry 15). -/
def Hall.giveStall (h : Hall) (i : Nat) (p : Option Nat) : Hall :=
  let secure := match p with
    | some q => h.penSecure q
    | none => true
  let h := (h.setFs i [(.tallyStallPen, p.getD 255), (.tallyStallRole, 0)]).watChange 0 i secure
  upTo 64 h fun h n => h.watChange 8 (1536 * (i / 16) + 64 * (i % 16) + n) secure

/-- The world of a decode engine: non-secure while no secure pen has a share. -/
def Hall.engineWorld (h : Hall) (e : Nat) : Hall :=
  let owners := (List.range 32).filter fun p => decide (h.share e p ≠ 0)
  h.setWorld 5 e (decide (owners = []) || owners.any h.penSecure)

def Hall.setShare (h : Hall) (e p n : Nat) : Hall :=
  { h with ingress.shares := if n = 0 then Tab.erase h.ingress.shares (32 * e + p) else Tab.set h.ingress.shares (32 * e + p) n }.engineWorld e

/-- A queue returns to its state at reset, granted to no pen. -/
def Hall.queFree (h : Hall) (q : Nat) : Hall :=
  let h := ((h.clearFs q [.queProd, .queCons, .queStatusDbReject, .queStatusEnabled, .queStatusFull]).setF .queStatusEmpty q 1).clearCtr q .queDrop
  ({ h with cmd.ques := Tab.erase h.cmd.ques q }).setWorld 2 q true

/-- A pair is dissolved (R447): a standby's entries take requests again. -/
def Hall.unpair (h : Hall) (p : Nat) : Hall :=
  match (h.pen p).partner with
  | none => h
  | some q =>
    let alone := fun (x : Pen) => { x with partner := none, mode := 0, mirrorMva := 0, mirrorPages := 0, primary := false, unsynced := false }
    let free := fun (h : Hall) (p : Nat) (was : Bool) => if was then h.penIntake p true else h
    let sp := h.isStandby p
    let sq := h.isStandby q
    free (free ((h.updPen p alone).updPen q alone) p sp) q sq

/-- Everything a pen holds is released (Table 19.1, PEN_DESTROY): frames are zeroed (R263). -/
def Hall.penRelease (h : Hall) (p : Nat) : Hall :=
  let h := h.unpair p
  let h := (h.stallsOf p).foldl (fun h i => h.giveStall i none) h
  let h := (h.penTills p).foldl (fun h t => (h.tillReset t).updTill t fun _ => {}) h
  let h := ((h.cmd.ques.filter fun e => e.2.grant = some p).map Prod.fst).foldl (fun h q => h.queFree q) h
  let h := upTo 16 h fun h e => if h.share e p = 0 then h else h.setShare e p 0
  let h := upTo 8 h fun h t =>
    if (h.tport t).leases.any fun (l : Lease) => l.pen = p then
      let mine := (List.range 128).filter fun l => h.lidPen t l = some p
      let h := h.updPortT t fun x => { x with leases := x.leases.filter fun (l : Lease) => decide (l.pen ≠ p) }
      mine.foldl (fun h l => (h.setF .epStatePen (lidUnit t l) 0).setWorld 6 (lidUnit t l) true) h
    else h
  let h := upTo 4 h fun h n => if h.nbrPen n = some p then (h.clearFs n [.nbrCfgPenValid, .nbrCfgPen]).setWorld 7 n true else h
  let h := ((h.tiers.zeroing.filter fun e => e.2.pen = p)).foldl (fun h e =>
    (e.2.frames.foldl (fun (h : Hall) f => h.dropFrame p f) { h with tiers.zeroing := Tab.erase h.tiers.zeroing e.1 }).closeOp e.1 stAborted) h
  let h := ((h.tiers.pages.filter fun e => e.1 / 2 ^ 32 = p).map fun e => e.1 % 2 ^ 32).foldl (fun h page => h.unmapPage p page) h
  let h := (h.setQuota p 0).clearFs p [.tallyPenchkChkOn, .tallyPenchkFCode]
  { h with
    tiers.tiles := Tab.keep (fun k _ => decide (k / 64 ≠ p)) h.tiers.tiles
    weights.adapters := Tab.keep (fun _ a => decide (a.pen ≠ p)) h.weights.adapters
    weights.remaps := Tab.keep (fun k _ => decide (k / 2 ^ 32 ≠ p)) h.weights.remaps }

/-- PEN_DESTROY's action (Table 19.1): a pen reset with zeroing, then the release; the pen is ABSENT. An unfinished reset of the pen
ends ABORTED (log entry 41). -/
def Hall.penDestroy (h : Hall) (p k : Nat) : Hall :=
  let h := match (h.pen p).reset.bind fun r => r.op with
    | some o => h.closeOp o stAborted
    | none => h
  let (_, h) := (h.penIntake p false).penClear p 0 true
  let h := ((h.penRelease p).setPenState p .absent).closeOp k stOK
  { h with avail.pens := Tab.erase h.avail.pens p }

/-- PEN_RESET_DONE (R445): orders 2 to 6. The pen is UP again, or SHED as it was. -/
def execPenResetDone (pen : Fin 32) (s : State) : Host.Outcome State Fault Refusal :=
  s.run fun h =>
    let p := pen.val
    match (h.pen p).state, (h.pen p).reset with
    | .resetting, some r =>
      let (n, h) := h.penClear p r.half r.zero
      let h := h.updPen p fun x => { x with reset := none }
      let h := h.setPenState p (if r.toShed then .shed else .up)
      match r.op with
      | some k => h.closeOp k stOK (leBytes 4 n)
      | none => h
    | _, _ => h

/-! ### Function level resets (R50, R51) -/

/-- A reset that no command asked for. -/
def Hall.flrPen (h : Hall) (p : Nat) : Hall :=
  match (h.pen p).state with
  | .up => h.resetStart p {}
  | .wedged => h.resetStart p {}
  | .shed => h.resetStart p {}
  | _ => h

/-- PCI_FLR (R51). PF0 does not support it. Queues assigned to PF1 itself are those of pens that no virtual function serves, and
the module event queue (log entry 14). -/
def execPciFlr (port : Hub) (fn : Fn) (s : State) : Host.Outcome State Fault Refusal :=
  s.run fun h =>
    match fn with
    | .pf0 => h
    | .vf k => if (h.port port).vfs.contains k then h.flrPen k else h
    | .pf1 =>
      let h := (h.port port).vfs.foldl (fun h k => h.flrPen k) h
      let h := (List.range 96).foldl (fun h n => if (h.till (32 + n)).vf.isNone then h.tillReset (32 + n) else h) h
      let mine := (h.cmd.ques.filter fun e => match e.2.qrec with
        | some r => !r.secure && (decide (r.pen = 255) || h.fnOwnsPen .pf1 r.pen)
        | none => false).map Prod.fst
      mine.foldl (fun h q =>
        let grant := (h.que q).grant
        let w := h.secureEntry 2 q
        ((h.queFree q).updQue q fun x => { x with grant := grant }).setWorld 2 q w) h

/-- VF_ENABLE_SET (R50): every virtual function whose pen exists and is non-secure. -/
def execVfEnableSet (port : Hub) (s : State) : Host.Outcome State Fault Refusal :=
  s.run fun h => h.updPort port fun x =>
    { x with vfEnable := true, vfs := ((List.range 31).map (· + 1)).filter fun k => h.penExists k && !h.penSecure k }

/-- VF_ENABLE_CLEAR (R51). -/
def execVfEnableClear (port : Hub) (s : State) : Host.Outcome State Fault Refusal :=
  s.run fun h =>
    let gone := (h.port port).vfs
    gone.foldl (fun h k => h.flrPen k) (h.updPort port fun x => { x with vfEnable := false, vfs := [] })

/-! ### PEN commands (Table 19.6) -/

/-- PEN_CREATE (R442, R443). -/
def execPenCreate (till : Fin 128) (s : State) : Host.Outcome State Fault Refusal :=
  s.till till.val 0x0101 never fun c h =>
    let prio := c.arg 1 1
    let ms := c.arg 2 2
    if c.pen = 0 then refuse h stNotPermitted
    else if c.length ≠ 4 ∨ 1 < c.arg 0 1 ∨ prio = 0 ∨ 254 < prio ∨ ms = 0 ∨ 10000 < ms then refuse h stBadArg
    else if h.penExists c.pen then refuse h stBusy
    else okWith ((h.updPen c.pen fun _ => { secure := decide (c.arg 0 1 = 1), priority := prio, wedgeMs := ms }).setPenState c.pen .up)

/-- PEN_DESTROY (R443). -/
def execPenDestroy (till : Fin 128) (s : State) : Host.Outcome State Fault Refusal :=
  s.till till.val 0x0102 never fun c h =>
    if c.length ≠ 0 then refuse h stBadArg
    else if c.pen = 0 then refuse h stNotPermitted
    else if (h.weights.lots.any fun e => e.2.grants.contains c.pen) = true then refuse h stBusy
    else acceptOp h c fun k h => h.penDestroy c.pen k

/-- A stall that PEN_STALLS or PEN_SPARES may give away. -/
def Hall.stallFree (h : Hall) (i : Nat) : Bool :=
  h.stallPen i = 255 && !(h.stall i).spare && !h.stallRetired i && (h.stall i).image.isNone

/-- A stall of a pen that no work holds (R31). -/
def Hall.stallLoose (h : Hall) (i : Nat) : Bool :=
  (h.stall i).image.isNone && h.stallIdle i &&
    !((List.range 8).any fun r => (h.tally r).items.any fun (c : CheckItem) => c.shadow = some i || c.referee = some i)

/-- PEN_STALLS. P0's own two stalls cannot be removed (R458). -/
def execPenStalls (till : Fin 128) (s : State) : Host.Outcome State Fault Refusal :=
  s.till till.val 0x0103 never fun c h =>
    let n := c.arg 1 1
    match c.stallList 2 n with
    | none => refuse h stBadArg
    | some l =>
      if c.length ≠ 2 + 2 * n ∨ 1 < c.arg 0 1 ∨ l.dedup ≠ l then refuse h stBadArg
      else if c.arg 0 1 = 0 then
        if !l.all h.stallFree then refuse h stBusy
        else
          let h' := l.foldl (fun h i => h.giveStall i (some c.pen)) h
          if (h.weights.lots.any fun e => e.2.grants.contains c.pen && !h'.grantsFit e.2.grants) then refuse h stNotPermitted
          else okWith (h'.redesignate c.pen)
      else if !(l.all fun i => h.stallPen i = c.pen) then refuse h stBadArg
      else if c.pen = 0 ∧ (l.any fun i => i = 15 || i = 79) = true then refuse h stNotPermitted
      else if !l.all h.stallLoose then refuse h stBusy
      else okWith ((l.foldl (fun h i => h.giveStall i none) h).redesignate c.pen)

/-- PEN_GRANT (R63, R67, R411). The payload of KIND 3 is its KIND, ENGINE and SIXTEENTHS. -/
def execPenGrant (till : Fin 128) (s : State) : Host.Outcome State Fault Refusal :=
  s.till till.val 0x0104 never fun c h =>
    let first := c.arg 1 2
    let l := (List.range (c.arg 3 2)).map (first + ·)
    match c.arg 0 1 with
    | 1 =>
      if c.length ≠ 5 ∨ 128 < first + c.arg 3 2 then refuse h stBadArg
      else if first < 32 ∨ h.penSecure c.pen = true then refuse h stNotPermitted
      else if l.any fun t => h.getF .tillState t = 1 || h.getF .tillState t = 2 then refuse h stBusy
      else okWith (l.foldl (fun h t =>
        if (h.till t).vf = some c.pen then h else ((h.tillIdle t).updTill t fun x => { x with vf := some c.pen }).setWorld 1 t false) h)
    | 2 =>
      let held := fun (q : Nat) => match (h.que q).qrec with
        | some r => decide (r.pen ≠ c.pen) && (h.flag .queStatusEnabled q || decide (h.queCount q ≠ 0))
        | none => false
      if c.length ≠ 5 ∨ 16384 < first + c.arg 3 2 then refuse h stBadArg
      else if l.any held then refuse h stBusy
      else okWith (l.foldl (fun h q =>
        if (h.que q).grant = some c.pen then h
        else ((h.queFree q).updQue q fun x => { x with grant := some c.pen }).setWorld 2 q (h.penSecure c.pen)) h)
    | 3 =>
      let e := c.arg 1 1
      let n := c.arg 2 1
      let others := ((List.range 32).map fun p => if p = c.pen then 0 else h.share e p).sum
      if c.length ≠ 3 ∨ 15 < e then refuse h stBadArg
      else if c.pen = 0 ∧ (e = 0 ∨ e = 8) ∧ n ≠ 16 then refuse h stNotPermitted
      else if 16 < others + n ∨ n * 77500000 < h.declared e (some c.pen) then refuse h stNoResource
      else okWith (h.setShare e c.pen n)
    | _ => refuse h stBadArg

/-- A queue record (Table 2.17). -/
def decodeQueRec (c : TillCmd) : QueRec :=
  { typ := c.arg 2 1 % 4, secure := bit (c.arg 2 1) 2, pen := c.arg 3 1, log2 := c.arg 4 1, coalesce := c.arg 5 1, vector := c.arg 6 2
    base := c.arg 8 8, writeback := c.arg 16 8, resultQueue := c.arg 24 2 }

/-- MSI-X vectors of the function that serves a pen (Table 2.1). -/
def Hall.vectorsOf (h : Hall) (p : Nat) : Nat :=
  match h.penFn .a p with
  | .vf _ => 64
  | _ => match h.penFn .b p with
    | .vf _ => 64
    | _ => 2048

/-- Form of a record for the command that carries it. -/
def Hall.queRecOk (h : Hall) (c : TillCmd) (r : QueRec) : Bool :=
  decide (c.arg 0 2 < 16384) && decide (c.arg 2 1 < 8) && decide (r.pen = c.pen) && decide (4 ≤ r.log2 ∧ r.log2 ≤ 16) &&
  decide (r.vector < h.vectorsOf r.pen) && decide (r.base % 4096 = 0) && (decide (r.typ ≠ 3) || decide (r.base < 2 ^ 48)) &&
  decide (r.resultQueue < 16384) && decide (c.arg 26 6 = 0) && decide (r.secure = (if c.pen = 255 then c.secure else h.penSecure c.pen)) &&
  (decide (c.pen ≠ 255) || decide (r.typ = 2))

/-- A second EVT queue of the pen, or of the module in the world (R67). -/
def Hall.secondEvt (h : Hall) (q : Nat) (r : QueRec) : Bool :=
  decide (r.typ = 2) && h.cmd.ques.any fun e => decide (e.1 ≠ q) && match e.2.qrec with
    | some x => decide (x.typ = 2) && decide (x.pen = r.pen) && (decide (r.pen ≠ 255) || decide (x.secure = r.secure))
    | none => false

/-- A queue is enabled (R74), and takes the events that wait for it (R71). -/
def Hall.queEnable (h : Hall) (q : Nat) (r : QueRec) : Hall :=
  let h := (h.updQue q fun x => { x with phase := true, sinceRaise := 0 }).setFs q
    [(.queProd, 0), (.queCons, 0), (.queStatusDbReject, 0), (.queStatusEnabled, 1)]
  let h := h.queFlags q
  if r.typ = 2 then (h.evtDrain q 257).drainWorld q r.pen r.secure else h

/-- PEN_QUEUE (R67, R74). Disabling a RES queue that requests in flight name answers BUSY, since no result may be lost (R75, log
entry 41). -/
def penQueue (c : TillCmd) (h : Hall) : Answer :=
  let q := c.arg 0 2
  let r := decodeQueRec c
  let enable := decide (c.arg 32 1 = 1)
  let on := h.flag .queStatusEnabled q
  if c.length ≠ 33 ∨ 1 < c.arg 32 1 ∨ h.queRecOk c r = false then refuse h stBadArg
  else if (h.que q).grant ≠ (if c.pen = 255 then none else some c.pen) then refuse h stNotPermitted
  else
    let set := fun (h : Hall) => if enable && !on then h.queEnable q r else if !enable && on then h.setF .queStatusEnabled q 0 else h
    if (h.que q).qrec = some r then
      if !enable ∧ on ∧ (h.que q).inFlight ≠ 0 then refuse h stBusy else okWith (set h)
    else if on ∨ h.queCount q ≠ 0 then refuse h stBusy
    else if h.secondEvt q r then refuse h stBadArg
    else
      let h := (h.updQue q fun x => { x with qrec := some r, seq := 0, phase := true, sinceRaise := 0 }).setFs q [(.queProd, 0), (.queCons, 0)]
      let h := if c.pen = 255 then h.setWorld 2 q r.secure else h
      okWith (set (h.queFlags q))

def execPenQueue (till : Fin 128) (s : State) : Host.Outcome State Fault Refusal :=
  s.tillWide till.val 0x0105 forP0 (fun _ _ => true) penQueue

/-- PEN_PAIR (R447, R449): of a warm pair, the pen that the command names is primary and PARTNER the standby (log entry 41). -/
def execPenPair (till : Fin 128) (s : State) : Host.Outcome State Fault Refusal :=
  s.till till.val 0x0106 never fun c h =>
    let q := c.arg 0 1
    let mode := c.arg 1 1
    let mva := c.arg 2 8
    let n := c.arg 10 4
    let taken : Nat → Nat → Bool := fun a b => match (h.pen a).partner with
      | some x => decide (x ≠ b)
      | none => false
    if c.length ≠ 14 ∨ 31 < q ∨ q = c.pen ∨ 2 < mode ∨ h.penExists q = false then refuse h stBadArg
    else if c.pen = 0 ∨ q = 0 ∨ h.penSecure q ≠ h.penSecure c.pen then refuse h stNotPermitted
    else if (h.pen c.pen).state = .resetting ∨ (h.pen q).state = .resetting then refuse h stBusy
    else if mode = 0 then
      if (h.pen c.pen).partner = some q then okWith (h.unpair c.pen) else refuse h stBadArg
    else if taken c.pen q = true ∨ taken q c.pen = true ∨ (mode = 2 ∧ (mva % 65536 ≠ 0 ∨ 65536 < n ∨ 2 ^ 48 < mva + n * 65536)) then refuse h stBadArg
    else
      let h := h.unpair c.pen
      let join := fun (partner : Nat) (first : Bool) (x : Pen) =>
        { x with partner := some partner, mode := mode, primary := first, unsynced := false
                 mirrorMva := if mode = 2 then mva else 0, mirrorPages := if mode = 2 then n else 0 }
      let h := (h.updPen c.pen (join q (decide (mode = 2)))).updPen q (join c.pen false)
      okWith (if mode = 2 then h.penIntake q false else h)

/-- PEN_RESET (R445, R446). -/
def execPenReset (till : Fin 128) (s : State) : Host.Outcome State Fault Refusal :=
  s.till till.val 0x0107 forP0 fun c h =>
    let half := c.arg 0 1
    if c.length ≠ 2 ∨ 1 < c.arg 1 1 ∨ 3 < half ∨ (c.pen ≠ 0 ∧ half ≠ 0) then refuse h stBadArg
    else if c.pen = 0 ∧ (half = 0 ∨ half = 3) then refuse h stNotPermitted
    else if (h.pen c.pen).state = .resetting then refuse h stBusy
    else acceptOp h c fun k h => h.resetStart c.pen { op := some k, zero := decide (c.arg 1 1 = 1), half := half }

/-- PEN_QUERY. -/
def execPenQuery (till : Fin 128) (s : State) : Host.Outcome State Fault Refusal :=
  s.till till.val 0x010C forP0 fun c h =>
    let x := h.pen c.pen
    let l := h.stallsOf c.pen
    if c.length ≠ 0 then refuse h stBadArg
    else okWith h (leBytes 1 x.state.code ++ leBytes 1 x.priority ++ leBytes 1 (b2n (h.penSecure c.pen)) ++ leBytes 1 (x.partner.getD 255) ++
      leBytes 1 x.mode ++ leBytes 1 l.length ++ l.flatMap fun i => leBytes 1 (i / 16) ++ leBytes 1 (i % 16))

end Sys2Proof.Machine
end

