-- ==== Sys2Proof/Machine/Avail.lean ====
section
/-! DEFINITION. Availability (R32, R33, R79, R449–R457): replacement of retired stalls, shedding, goose mode, and single faults. -/

namespace Sys2Proof.Machine

/-! ### Work sent again (Table 9.5) -/

/-- The referee or shadow work that a stall holds goes to the next candidate (R228, R231): a shadow run waits for a place. A repeat
on it is dropped (R236). -/
def Hall.sendAgain (h : Hall) (i : Nat) : Hall :=
  upTo 8 h fun h row =>
    let h := h.updTally row fun t =>
      { t with items := (t.items.filter fun (c : CheckItem) => !(decide (c.phase = .repeating) &&
                  (decide (c.shadow = some i) && decide ((c.verdict.map fun v => v.1) = some 2)))).map fun (c : CheckItem) =>
          if c.referee = some i ∧ (c.phase = .copying ∨ c.phase = .refereeRun) then { c with phase := .waitReferee, referee := none }
          else if c.shadow = some i ∧ c.phase = .shadowRun then { c with phase := .waitPlace, shadow := none }
          else c }
    h.noReferee row

/-! ### Replacement (R183, R453, R454, R508) -/

/-- A stall that can take the place of a retired one. -/
def Hall.canReplace (h : Hall) (j : Nat) : Bool :=
  !h.stallRetired j && (h.stall j).image.isNone && !h.avail.lostRows.contains (j / 16)

/-- The first stall in the order of R453, then those of SHED pens, of the same row first (R456). `row` is the physical row of the
logical row. -/
def Hall.replacement (h : Hall) (p row : Nat) : Option Nat :=
  let all := (List.range 128).filter h.canReplace
  let here := fun (j : Nat) => decide (j / 16 = row)
  let role := h.getF .tallyStallRole
  let shed := fun (j : Nat) => decide (h.stallPen j < 32) && decide ((h.pen (h.stallPen j)).state = .shed)
  let classes : List (Nat → Bool) :=
    [fun j => here j && decide (h.stallPen j = p) && decide (role j ≠ 2) && !(h.stall j).spare,
     fun j => here j && (h.stall j).spare,
     fun j => here j && decide (h.stallPen j = p) && decide (role j = 2),
     fun j => !here j && (h.stall j).spare,
     fun j => here j && shed j,
     fun j => !here j && shed j]
  classes.findSome? fun c => all.find? c

/-- Moves what one stall store holds to another: bytes, marks, and the tags and saved lines of open runs. -/
def Hall.moveStore (h : Hall) (i j : Nat) : Hall :=
  let a := storeBase i
  let d := storeBase j
  let here := fun (x : Nat) => decide (a ≤ x) && decide (x < a + 0x400000)
  let line := fun (l : Nat) => if here (l * 64) then l - a / 64 + d / 64 else l
  let addr := fun (x : Nat) => if here x then x - a + d else x
  let h : Hall := h.zero d 0x400000
  let ram := (h.mem.ram.filter fun c => here c.1).foldl (fun m c => Mem.write 0 m (addr c.1) c.2) h.mem.ram
  let marks := (h.mem.marks.filter fun c => here (c.1 * 64)).foldl (fun m c => Tab.set m (line c.1) c.2) h.mem.marks
  let tags := (h.data.lineTags.filter fun c => here (c.1 * 64)).foldl (fun m c => Tab.set m (line c.1) c.2)
    (Tab.keep (fun l _ => !here (l * 64)) h.data.lineTags)
  let moved := fun (s : Nat) => if s = i then j else s
  let run := fun (r : GroupRun) =>
    { r with undo := r.undo.map fun (u : UndoLine) => { u with line := line u.line }
             moves := r.moves.map fun (m : SlotMove) => { m with stall := moved m.stall } }
  let dest : Dest → Dest := fun x => match x with
    | .phys y => Dest.phys (addr y)
    | .prov y => Dest.prov (addr y)
    | y => y
  let h := { h with
    mem.ram := ram
    mem.marks := marks
    data.lineTags := tags
    data.ledgers := h.data.ledgers.map fun (e : Nat × Ledger) => (e.1, { e.2 with runs := e.2.runs.map run })
    tiers.chans := h.tiers.chans.map fun (e : Nat × ChanSt) =>
      (e.1, { e.2 with opened := e.2.opened.map fun (o : OpenSlot) => { o with stall := moved o.stall }
                       outstanding := e.2.outstanding.map fun (b : DmaBurst) => { b with dest := dest b.dest } })
    nbrs := h.nbrs.map fun (e : Nat × NbrPort) => (e.1, ({ e.2 with refills := e.2.refills.map fun (r : Nat × Nat × Nat × Nat) => (r.1, moved r.2.1, r.2.2.1, r.2.2.2) } : NbrPort)) }
  h.zero a 0x400000

/-- The image on stall i goes on on stall j: step list, troughs and store content move (R183), and STALL_REPLACED reports it. What a
store held in RET or OFF is discarded (Table 20.5). -/
def Hall.rebindStall (h : Hall) (i j k p row : Nat) : Hall :=
  let h := (h.sendAgain j).giveStall j (some p)
  let h := if h.domState i = 2 then h.moveStore i j else h
  let x := h.stall i
  let h := h.updStall j fun y =>
    { x with test := none, packRun := y.packRun, packStart := y.packStart, packFailed := y.packFailed, lastPackPassed := y.lastPackPassed
             stuck := y.stuck, spare := false, clears := y.clears }
  let h := ((h.updStall i Stall.unbind).setF .tallyStallRole i 0).setF .tallyStallRole j 1
  let h := h.updImage k fun im => { im with stalls := im.stalls.map fun e => if e.2 = i then (e.1, j) else e }
  (h.redesignate p).postBoth p 0x0102
    (leBytes 1 (i / 16) ++ leBytes 1 (i % 16) ++ leBytes 1 (j / 16) ++ leBytes 1 (j % 16) ++ leBytes 1 (b2n (decide (j / 16 ≠ row))))

/-- Replaces a retired stall that an image is bound to, where one qualifies. -/
def Hall.replaceStall (h : Hall) (i : Nat) : Hall :=
  let x := h.stall i
  match x.image with
  | none => h
  | some k => match h.image k with
    | none => h
    | some im =>
      let row := Tab.get (i / 16) im.rows x.lrow
      match h.replacement im.pen row with
      | some j => h.rebindStall i j k im.pen row
      | none => h

/-! ### A row's images (R181, R452) -/

/-- An image whose row is lost starts again on another row: its open runs end, its requests in flight end ABORTED, and its troughs
are emptied (DESIGN CHOICE, log entry 43). -/
def Hall.imageRestart (h : Hall) (k l r : Nat) : Hall :=
  match h.image k with
  | none => h
  | some im =>
    let h := ((h.openRuns.filter fun x => x.handle = k).map GroupRun.key).foldl (fun h q => h.discardRun q 2) h
    let h := ((h.data.requests.filter fun e => e.2.handle = k).map Prod.fst).foldl (fun h t => (h.setStatus t stAborted).endRequest t) h
    match h.image k with
    | none => h
    | some im' =>
      let chans := h.imageChans k
      let on := chans.map fun c => (c, h.flag .brwChCtrlEnable c)
      let h : Hall := chans.foldl (fun (h : Hall) c => h.chanDrop c) h
      let h := { h with data.stalls := h.data.stalls.map fun (e : Nat × Stall) =>
                          if e.2.image = some k then
                            (e.1, { e.2 with started := [], redo := [], lastToken := [], ox := none, vu := none, hen := none, exp := {} })
                          else e }
      let h := im'.rows.foldl (fun h e => h.updLedger e.2 fun x =>
        { x with committed := Tab.erase x.committed (Tab.get 0 im'.limgs e.1) }) h
      let h := h.resetTroughs k
      let others := (im.rows.filter fun e => e.1 ≠ l).map Prod.snd
      let h := match h.rowFor im l others with
        | none => h
        | some r' =>
          let h := (chans.filter fun c => decide (256 ≤ c) && decide (chanRow c = r)).foldl (fun h c => h.chanRelease c) h
          let h := (h.updLedger r fun x => { x with images := x.images.filter fun e => decide (e.2 ≠ k) })
          let h := { h with data.stalls := h.data.stalls.map fun (e : Nat × Stall) =>
            if e.2.image = some k ∧ e.2.lrow = l then (e.1, e.2.unbind) else e }
          let h := h.bindRow k l r'
          let h := match im.rbuf l with
            | some b => h.bufWorld r b
            | none => h
          let h := h.startStores im'
          if im'.state = ImgState.loaded ∨ im'.state = ImgState.loading then h
          else ((h.imageChans k).filter fun c => decide (256 ≤ c) && decide (chanRow c = r')).foldl (fun h c => h.chanEnable c) h
      on.foldl (fun h e => if e.2 && decide ((h.chan e.1).handle = some k) then h.chanEnable e.1 else h) h

/-- Binds again what rows have lost and what retired stalls held, as far as stalls qualify. -/
def Hall.repair (h : Hall) : Hall :=
  let h := h.data.images.foldl (fun h e => e.2.rows.foldl (fun h x =>
    if h.avail.lostRows.contains x.2 && e.2.loaded then h.imageRestart e.1 x.1 x.2 else h) h) h
  (List.range 128).foldl (fun h i => if h.stallRetired i then h.replaceStall i else h) h

/-! ### Shedding (R455) and goose mode (R457) -/

/-- A pen whose images all have their rows and stalls. -/
def Hall.imagesPlaced (h : Hall) (p : Nat) : Bool :=
  h.loadedImages.all fun e => e.2.pen ≠ p ||
    (e.2.rows.all (fun x => !h.avail.lostRows.contains x.2) && e.2.stalls.all fun x => !h.stallRetired x.2)

/-- Pens that capacity counts: those that are neither ABSENT nor SHED. -/
def Hall.livePens (h : Hall) : List Nat := (List.range 32).filter fun p => (h.pen p).state ≠ .absent && (h.pen p).state ≠ .shed

/-- Declared rates of the live tenants fit on the surviving engines, those of P0 left out (R411, R455). -/
def Hall.decodeFits (h : Hall) (pens : List Nat) : Bool :=
  let engines := (List.range 16).filter fun e => !h.hubLost (engineHub e) && decide (e % 8 ≠ 0)
  let rate := ((pens.filter (· ≠ 0)).map fun p => ((List.range 16).map fun e => h.declared e (some p)).sum).sum
  decide (rate ≤ engines.length * 1240000000)

/-- T1 pages of a pen that lie in a lost half. -/
def Hall.lostFrames (h : Hall) (p : Nat) : List Nat := (h.penFrames p).filter fun f => h.hubLost (halfOf f)

/-- Pinned frames of the pens fit into the surviving half (R455). -/
def Hall.framesFit (h : Hall) (pens : List Nat) : Bool :=
  let free := (if h.hubLost .a then 0 else h.freeIn .a) + (if h.hubLost .b then 0 else h.freeIn .b)
  decide ((pens.map fun p => (h.lostFrames p).length).sum ≤ free)

def Hall.allFit (h : Hall) : Bool :=
  let pens := h.livePens
  pens.all (fun p => p = 0 || h.imagesPlaced p) && h.decodeFits pens && h.framesFit pens

/-- The pen shed next (R442): lowest PRIORITY, among equals the higher number. -/
def Hall.nextShed (h : Hall) : Option Nat :=
  (h.livePens.foldl (fun (best : Option Nat) p =>
    if p = 0 ∨ ((h.pen p).state = .resetting ∧ ((h.pen p).reset.map fun r => r.toShed) = some true) then best
    else match best with
    | none => some p
    | some b => if (h.pen p).priority ≤ (h.pen b).priority then some p else some b) none)

/-- A pen is shed: reset at once, then SHED (Table 19.1); one that is RESETTING will be SHED when its reset ends. -/
def Hall.shedPen (h : Hall) (p : Nat) : Hall :=
  let now := fun (h : Hall) => ((((h.penIntake p false).penClear p 0 false).2).setPenState p .shed).takeover p
  match (h.pen p).state with
  | .up => now h
  | .wedged => now h
  | .resetting => h.updPen p fun x => { x with reset := x.reset.map fun r => { r with toShed := true } }
  | _ => h

/-- Domains of the tenants: their stalls and decode engines. -/
def Hall.tenantDoms (h : Hall) : List Nat :=
  ((List.range 128).filter fun i => h.stallPen i ≠ 255 && h.stallPen i ≠ 0) ++
  ((List.range 16).filter fun e => (List.range 32).any fun p => p ≠ 0 && decide (h.share e p ≠ 0) && h.share e 0 = 0).map decodeDomain

/-- Forces domains OFF, remembering them (R457, R482). -/
def Hall.gooseOff (h : Hall) (l : List Nat) : Hall :=
  let l := l.filter fun d => !(domainOf d).ofP0 && h.domState d ≠ 0
  let h := l.foldl (fun h d => (h.domOff d).setF .pwrDomForce d 3) h
  { h with avail := { h.avail with gooseDoms := h.avail.gooseDoms ++ l } }

def Hall.setGooseMode (h : Hall) (on : Bool) : Hall :=
  let h := { h with avail := { h.avail with gooseMode := on } }
  ((h.setB .gooseStatusMode 0 on).setB .gooseStatusMode 1 on).post 255 true { typ := 0x0103, detail := leBytes 1 (b2n on) }

/-- Goose mode is entered: every pen but P0 is SHED and its domains are off (R457). -/
def Hall.enterGoose (h : Hall) : Hall :=
  if h.avail.gooseMode then h
  else
    let h := (h.livePens.filter (· ≠ 0)).foldl (fun h _ => match h.nextShed with
      | some p => h.shedPen p
      | none => h) h
    (h.gooseOff h.tenantDoms).setGooseMode true

/-- Goose mode ends: the domains that it turned off wake (R457). -/
def Hall.leaveGoose (h : Hall) : Hall :=
  if !h.avail.gooseMode then h
  else
    let l := h.avail.gooseDoms
    let h := { h with avail := { h.avail with gooseDoms := [] } }
    (l.foldl (fun h d => (h.setF .pwrDomForce d 0).wake d) h).setGooseMode false

/-- Shedding that left no pen but P0 ends in goose mode. -/
def Hall.gooseIfAlone (h : Hall) : Hall :=
  if h.livePens.all fun p => p = 0 || ((h.pen p).reset.map fun r => r.toShed) = some true then h.enterGoose else h

/-- Sheds in the order of R442 until every pen left fits, never skipping one to keep a lower one. -/
def Hall.shedUntil (h : Hall) : Nat → Hall
  | 0 => h
  | n + 1 =>
    let h := h.repair
    if h.allFit then h
    else match h.nextShed with
    | some p => ((h.shedPen p).shedUntil n)
    | none => h

/-- Capacity has fallen: repair, and shed what no longer fits. -/
def Hall.shedCapacity (h : Hall) : Hall :=
  let before := h.livePens.length
  let h := h.shedUntil 33
  if h.livePens.length < before then h.gooseIfAlone else h

/-! ### Retirement of a stall (R31, R237, R452) -/

/-- What retirement does to the stall itself: its instances abort by cause 2, votes on its results are dropped, work sent to it goes
elsewhere. -/
def Hall.retireStall (h : Hall) (i : Nat) : Hall :=
  let h := { h with checks := { h.checks with retired := i :: h.checks.retired } }
  let ks := (h.openRuns.filter fun r => r.startedSteps.any fun e => e.1 = i).map GroupRun.key
  let h := ks.foldl (fun h k => h.abortRun k 2) h
  let h := upTo 8 h fun h row => h.updTally row fun t =>
    { t with repeats := t.repeats.filter fun (r : RepeatItem) => decide (r.stall ≠ i)
             items := t.items.filter fun (c : CheckItem) => !(decide (c.phase = .repeating) && decide (c.stall = i)) }
  let h := (h.sendAgain i).updStall i fun x => { x with spare := false, exp := {}, test := none }
  let h := if (h.stall i).image.isNone then h.setF .tallyStallRole i 0 else h
  h.stallRedesignate i

/-- STALL_RETIRE (R237, R453): a stall that the Tally or the watchdog has condemned is replaced. -/
def execStallRetire (row : Fin 8) (stall : Fin 16) (s : State) : Host.Outcome State Fault Refusal :=
  s.run fun h =>
    let i := 16 * row.val + stall.val
    if h.stallRetired i && !h.checks.retired.contains i && h.governing.isSome then ((h.retireStall i).replaceStall i).shedCapacity else h

/-- UNIT_STUCK (R451): the watchdog declares a unit of a stall stuck. -/
def execUnitStuck (row : Fin 8) (stall : Fin 16) (s : State) : Host.Outcome State Fault Refusal :=
  s.run fun h =>
    let i := 16 * row.val + stall.val
    if h.domState i ≠ 2 ∨ h.stallRetired i = true then h
    else ((h.updStall i fun x => { x with stuck := true }).setF .tallyStallState i 2).urgent .unitStuck i

/-! ### PEN commands that shed (R456, R457) -/

/-- PEN_SHED; of a pen that is SHED already it changes nothing. -/
def execPenShed (till : Fin 128) (s : State) : Host.Outcome State Fault Refusal :=
  s.till till.val 0x0108 never fun c h =>
    if c.length ≠ 0 then refuse h stBadArg
    else if c.pen = 0 then refuse h stNotPermitted
    else if (h.pen c.pen).state = .resetting then refuse h stBusy
    else if (h.pen c.pen).state = .shed then okWith h
    else okWith (h.shedPen c.pen).gooseIfAlone

/-- Pages of a pen that lay in a lost half get frames of the surviving half, zeroed (R263, R455; log entry 43). -/
def Hall.framesAgain (h : Hall) (p : Nat) : Hall :=
  (h.tiers.pages.filter fun e => decide (e.1 / 2 ^ 32 = p) && decide (pteType e.2 = 1) && h.hubLost (halfOf (ptePhys e.2 / 65536))).foldl
    (fun h e =>
      let old := ptePhys e.2 / 65536
      let page := e.1 % 2 ^ 32
      let h := h.dropFrame p old
      match h.lowPages (otherHub (halfOf old)) 1 with
      | f :: _ => (h.takeFrame p f).setPte p (page * 65536) (some (e.2 - ptePhys e.2 + f * 65536))
      | [] => h.setPte p (page * 65536) none) h

/-- PEN_RESTORE (R456): the pen is UP again where its needs fit, and goose mode ends. -/
def execPenRestore (till : Fin 128) (s : State) : Host.Outcome State Fault Refusal :=
  s.till till.val 0x0109 never fun c h =>
    let pens := c.pen :: h.livePens
    if c.length ≠ 0 ∨ (h.pen c.pen).state ≠ .shed then refuse h stBadArg
    else if !(h.decodeFits pens && h.framesFit pens) then refuse h stNoResource
    else okWith (((h.framesAgain c.pen).leaveGoose).setPenState c.pen .up)

/-- PEN_SPARES (R453): the list replaces the reservation in force (log entry 42). -/
def execPenSpares (till : Fin 128) (s : State) : Host.Outcome State Fault Refusal :=
  s.till till.val 0x010A never fun c h =>
    let n := c.arg 0 1
    match c.stallList 1 n with
    | none => refuse h stBadArg
    | some l =>
      let now := (List.range 128).filter fun i => (h.stall i).spare
      if c.length ≠ 1 + 2 * n ∨ 16 < n ∨ l.dedup ≠ l then refuse h stBadArg
      else if !(l.all fun i => h.stallFree i || (h.stall i).spare) then refuse h stBusy
      else
        let h := (now.filter fun i => !l.contains i).foldl (fun h i =>
          ((h.sendAgain i).updStall i fun x => { x with spare := false }).setF .tallyStallRole i 0) h
        okWith ((l.filter fun i => !now.contains i).foldl (fun h i => (h.updStall i fun x => { x with spare := true }).setF .tallyStallRole i 3) h)

/-- PEN_GOOSE (R457). -/
def execPenGoose (till : Fin 128) (s : State) : Host.Outcome State Fault Refusal :=
  s.till till.val 0x010B never fun c h =>
    if c.length ≠ 0 then refuse h stBadArg else acceptOp h c fun k h => h.enterGoose.closeOp k stOK

/-! ### Management processors (R32, R33, R62, R431, R464, R465) -/

/-- FW_BUILD of each hub follows the firmware its MP runs. -/
def Hall.showFw (h : Hall) : Hall := (h.setF .hubIdentFwBuild 0 (h.fwBuildOf .a)).setF .hubIdentFwBuild 1 (h.fwBuildOf .b)

/-- The governing role moves to a hub's MP: GOVERNING changes in both hubs, and what the chapters say of the move happens. -/
def Hall.govern (h : Hall) (hub : Hub) : Hall :=
  let h := (h.setB .hubIdentGoverning 0 (decide (hub = .a))).setB .hubIdentGoverning 1 (decide (hub = .b))
  ((((h.sessRoleMoved).sweepsRoleMoved).nvmRoleMoved).nbrRoleMoved).swapsRoleMoved

/-- A handover ends: TILL_DONE with its status. -/
def Hall.handoverEnd (h : Hall) (status : Nat) : Hall :=
  match h.avail.handover with
  | some o => { h with avail := { h.avail with handover := none } }.closeOp o.op status
  | none => h

def Hall.handoverPhase (h : Hall) : Option HandoverPhase := h.avail.handover.map fun o => o.phase

/-- The governing MP is gone (R32, R465): the standby, which holds a copy of the elapsed ticks (R239), governs at once when it is
ready; otherwise none governs until one is. -/
def Hall.govLost (h : Hall) (g : Hub) : Hall :=
  let h := { h with checks := { h.checks with totals := h.checks.standbyTotals } }
  let h := if h.handoverPhase = some .roleMoved then h else h.handoverEnd stHandoverFailed
  let h := (h.setF .hubIdentGoverning 0 0).setF .hubIdentGoverning 1 0
  let s := otherHub g
  if (h.mp s).state = .ready ∧ h.hubLost s = false then h.govern s else h

/-- The standby MP is gone. -/
def Hall.standbyLost (h : Hall) : Hall :=
  match h.handoverPhase with
  | some .roleMoved => h.handoverEnd stOK
  | some _ => h.handoverEnd stHandoverFailed
  | none => h

/-- MP_HEARTBEAT (R451). -/
def execMpHeartbeat (hub : Hub) (s : State) : Host.Outcome State Fault Refusal :=
  s.run fun h =>
    if (h.mp hub).state = .ready ∧ h.hubLost hub = false then
      let b := h.avail.beats
      { h with avail := { h.avail with beats := match hub with
                                         | .a => (b.1 + 1, b.2)
                                         | .b => (b.1, b.2 + 1) } }
    else h

/-- MP_LOST (R33, R452): the governing MP fails while its hub is alive, and enters ROM recovery. -/
def execMpLost (s : State) : Host.Outcome State Fault Refusal :=
  s.run fun h => match h.governing with
    | none => h
    | some g => ((h.updMp g fun m => { m with state := .romRecovery }).ordinary .mpLost (hubNum g)).govLost g

/-- STANDBY_MP_LOST (R33). -/
def execStandbyMpLost (s : State) : Host.Outcome State Fault Refusal :=
  s.run fun h => match h.governing with
    | none => h
    | some g =>
      let x := otherHub g
      if h.hubLost x ∨ (h.mp x).state = .romRecovery then h
      else ((h.updMp x fun m => { m with state := .romRecovery }).ordinary .mpLost (hubNum x)).standbyLost

/-- HANDOVER_STANDBY_READY (Table 19.5, orders 1 and 2): an MP that was restarting is ready. Where none governs, it governs (R465). -/
def execHandoverStandbyReady (s : State) : Host.Outcome State Fault Refusal :=
  s.run fun h =>
    match [Hub.a, Hub.b].find? fun x => decide ((h.mp x).state = .starting) && !h.hubLost x with
    | none => h
    | some x =>
      if h.handoverPhase = some .roleMoved then h
      else
        let h := (h.updMp x fun m => { m with state := .ready }).showFw
        if h.governing.isNone then h.govern x
        else { h with avail := { h.avail with handover := h.avail.handover.map fun o => { o with phase := .standbyReady } } }

/-- HANDOVER_STANDBY_FAILED (R465): the standby restarts from the active slot, and the command ends. -/
def execHandoverStandbyFailed (s : State) : Host.Outcome State Fault Refusal :=
  s.run fun h => match h.governing, h.handoverPhase with
    | some g, some .standbyRestarting =>
      ((h.updMp (otherHub g) fun _ => { state := .ready, slot := h.trust.active }).showFw).handoverEnd stHandoverFailed
    | _, _ => h

/-- HANDOVER_ROLE_MOVE (orders 3 to 6): the role moves in one write; with UPDATE the new slot is active; the former governing MP
restarts from the active slot. -/
def execHandoverRoleMove (s : State) : Host.Outcome State Fault Refusal :=
  s.run fun h => match h.governing, h.avail.handover with
    | some g, some o =>
      if o.phase ≠ .standbyReady then h
      else
        let x := otherHub g
        let h := if o.update then { h with trust := { h.trust with active := (h.mp x).slot } } else h
        let h := (h.updMp g fun _ => { state := .starting, slot := h.trust.active }).govern x
        { h with avail := { h.avail with handover := some { o with phase := .roleMoved } } }
    | _, _ => h

/-- HANDOVER_FORMER_READY (order 6): the former governing MP is standby, and the command ends. -/
def execHandoverFormerReady (s : State) : Host.Outcome State Fault Refusal :=
  s.run fun h =>
    if h.handoverPhase ≠ some .roleMoved then h
    else match [Hub.a, Hub.b].find? fun x => decide ((h.mp x).state = .starting) && !h.hubLost x with
    | none => h
    | some x =>
      let h := (h.updMp x fun m => { m with state := .ready }).showFw
      let h := if h.governing.isNone then h.govern x else h
      let g := h.govHub
      (h.handoverEnd stOK).post 255 true { typ := 0x0D01, detail := leBytes 1 (hubNum g) ++ leBytes 2 (h.fwBuildOf g) }

/-- FW_HANDOVER (R464). -/
def execFwHandover (till : Fin 128) (s : State) : Host.Outcome State Fault Refusal :=
  s.till till.val 0x0D02 never fun c h =>
    let update := decide (c.arg 0 1 = 1)
    let x := otherHub h.govHub
    let slot := if update then 1 - h.trust.active else h.trust.active
    if c.length ≠ 1 ∨ 1 < c.arg 0 1 then refuse h stBadArg
    else if h.avail.handover.isSome then refuse h stBusy
    else acceptOp h c fun k h =>
      if h.hubLost x || (h.fwSlot slot).isNone then h.closeOp k stHandoverFailed
      else
        let h := h.updMp x fun _ => { state := .starting, slot := slot }
        { h with avail := { h.avail with handover := some { op := k, update := update, phase := .standbyRestarting } } }

/-! ### Loss of rows, links and hubs (R23, R79, R278, R367, R452) -/

/-- ROW_LINK_LOST (R23). -/
def execRowLinkLost (row : Fin 8) (hub : Hub) (s : State) : Host.Outcome State Fault Refusal :=
  s.run fun h =>
    let k := 2 * row.val + hubNum hub
    if h.avail.lostLinks.contains k then h
    else { h with avail := { h.avail with lostLinks := k :: h.avail.lostLinks } }.urgent .linkLoss k

/-- LOSS_OF_SIGNAL (R451) on an optical port: 0 to 7 tree ports, 8 to 11 neighbour ports, 12 and 13 host ports. A tree port loses
LOCK; what follows for its LIDs, a neighbour link or a host link comes with their own commands. -/
def execLossOfSignal (port : Nat) (s : State) : Host.Outcome State Fault Refusal :=
  s.run fun h =>
    if 13 < port then h
    else
      let h := { h with avail := { h.avail with lostPorts := if h.avail.lostPorts.contains port then h.avail.lostPorts else port :: h.avail.lostPorts } }
      let h := h.urgent .lossOfSignal port
      if port < 8 then h.setF .treeStatusLock port 0 else h

/-- ROW_LOST (R452): a row fault of R240, both links lost, or the row's rail failed. Every stall of the row is retired. -/
def execRowLost (row : Fin 8) (s : State) : Host.Outcome State Fault Refusal :=
  s.run fun h =>
    let r := row.val
    if h.avail.lostRows.contains r then h
    else
      let h := { h with avail := { h.avail with lostRows := r :: h.avail.lostRows } }.urgent .rowFault r
      let h := (List.range 16).foldl (fun h s =>
        let i := 16 * r + s
        if h.checks.retired.contains i then h
        else
          let h := (h.setF .tallyStallState i 2).sendAgain i
          let h := { h with checks := { h.checks with retired := i :: h.checks.retired } }
          let h := h.updStall i fun x => { x with spare := false, test := none }
          if (h.stall i).image.isNone then h.setF .tallyStallRole i 0 else h) h
      let h := h.updTally r fun t => { t with items := [], repeats := [] }
      let pens := ((List.range 16).map fun s => h.stallPen (16 * r + s)).dedup.filter (· < 32)
      let h := pens.foldl (fun h p => h.redesignate p) h
      h.shedCapacity

/-- Streams of a lost hub's engine go to the other hub's, those of P0 stay (R452): each to the lowest engine that its rate fits on,
with a share that covers it; decoding starts again under R413. -/
def Hall.streamsAgain (h : Hall) (hub : Hub) : Hall :=
  (List.range 8).foldl (fun h n =>
    let e := 8 * hubNum hub + n
    (h.engine e).streams.foldl (fun h s =>
      let x := s.2
      if x.pen = 0 then h
      else
        let target := ((List.range 7).map fun m => 8 * hubNum (otherHub hub) + m + 1).find? fun d =>
          decide (h.declared d none + x.maxPps ≤ 1240000000) && decide ((h.engine d).streams.length < 64) &&
            (h.streamFor d x.port x.lid x.stream false).isNone
        match target with
        | none => h
        | some d =>
          let fresh := { x with started := false, units := [], discarding := false, gapAhead := false, stamps := [], busy := [] }
          let h := h.updEngine e fun y => { y with streams := Tab.erase y.streams s.1, order := y.order.filter fun (o : Nat × Nat) => o.1 ≠ s.1 }
          let h := h.updEngine d fun y => { y with streams := Tab.set y.streams y.nextStream fresh, nextStream := y.nextStream + 1 }
          let need := ceilDiv (h.declared d (some x.pen)) 77500000
          let h := if h.share d x.pen < need then h.setShare d x.pen need else h
          let key := h.spaceKey x.port x.lid
          let h := h.updSpace key fun y => { y with bindings := y.bindings.map fun b => if b.1 = x.stream ∧ b.2 = e then (b.1, d) else b }
          (h.setF .vdecStatusStreams e (h.engine e).streams.length).setF .vdecStatusStreams d (h.engine d).streams.length) h) h

/-- Hub channels of a lost hub end (R278): instances whose slots they held open abort, other slots they held return, and the runs
begin again on the other hub's channels. -/
def Hall.hubChansLost (h : Hall) (hub : Hub) : Hall :=
  let mine := (List.range 128).map (128 * hubNum hub + ·)
  let opened := mine.flatMap fun c => (h.chan c).opened
  let h := (opened.filterMap fun o => o.key).dedup.foldl (fun h k => h.abortRun k 2) h
  let h := (opened.filter fun o => o.key.isNone).foldl (fun h o =>
    h.undoMove ⟨0, 0, 0, 0⟩ { stall := o.stall, trough := o.trough, slot := o.slot, fill := o.fill, ended := false }) h
  let h := mine.foldl (fun h c => if (h.chan c).handle.isSome then h.chanRelease c else h) h
  { h with data.requests := h.data.requests.map fun e =>
      if e.2.hub = hub then (e.1, { e.2 with hub := otherHub hub, intakeBegun := e.2.intakeDone }) else e }

/-- A pen's request whose input or output lies on pages of a lost half ends ABORTED. -/
def Hall.windowsLost (h : Hall) (q : Req) : Bool :=
  let hit := fun (mva n : Nat) => (pageRange (mva / 65536) ((mva + n + 65535) / 65536 - mva / 65536)).any fun page =>
    match h.pte q.pen (page * 65536) with
    | some e => decide (pteType e = 1) && h.hubLost (halfOf (ptePhys e / 65536))
    | none => false
  hit q.inMva q.inBytes || hit q.outMva q.outBytes

/-- HUB_LOST (R79, R451, R452). -/
def execHubLost (hub : Hub) (s : State) : Host.Outcome State Fault Refusal :=
  s.run fun h =>
    if h.hubLost hub then h
    else
      let was := h.governing
      let u := hubNum hub
      let h := { h with avail := { h.avail with lostHubs := hub :: h.avail.lostHubs } }.urgent .hubLost u
      let h := h.updMp hub fun m => { m with state := .lost }
      let h := if was = some hub then h.govLost hub else if was.isSome then h.standbyLost else h
      -- queues and host port
      let lostQ := (h.cmd.ques.filter fun e => hubOf e.1 = hub).map Prod.fst
      let held := lostQ.flatMap fun q => (h.que q).held.map fun e => (((h.que q).qrec.map fun r => r.secure).getD true, e)
      let h := lostQ.foldl (fun h q =>
        ((h.setF .queStatusEnabled q 0).updQue q fun x => { x with held := [] })) h
      let h := held.foldl (fun h e => h.post e.2.pen e.1 e.2) h
      let h := h.setF .pciLinkStatusUp u 0
      -- warm primaries whose queues are homed there
      let h := (List.range 32).foldl (fun h p =>
        if (h.penQues p).any fun q => decide (hubOf q = hub) then
          if (h.penQues p).all fun q => decide (hubOf q = hub) then h.takeover p else h
        else h) h
      -- ports
      let h := (List.range 4).foldl (fun h n =>
        let p := 4 * u + n
        (h.portDisable p).updPortT p fun t => { t with down := [], entries := [] }) h
      let h := h.nbrHubLost hub
      -- T1 half and its pool
      let h := h.hubChansLost hub
      let hit := (h.data.requests.filter fun e => h.windowsLost e.2).map Prod.fst
      let h := hit.foldl (fun h t => h.setStatus t stAborted) h
      let h := (h.updPool hub fun _ => {}).zero (hubNum hub * 0x002000000000) 0x001E00000000
      let h := h.shedCapacity
      let h := h.livePens.foldl (fun h p => h.framesAgain p) h
      h.streamsAgain hub

end Sys2Proof.Machine
end

