-- ==== Sys2Proof/Machine/OxRun.lean ====
section
/-! DEFINITION. Steps on the Ox and in the expander (R107–R120, R127, R156, R169–R177, R506, R507). -/

namespace Sys2Proof.Machine

/-- The step on an engine of a stall, with its record. -/
def Hall.onEngine (h : Hall) (i eng : Nat) : Option (Running × Step) :=
  match (h.stall i).running eng with
  | some r => ((h.stall i).step r.idx).map fun st => (r, st)
  | none => none

/-! ### Tiles (R107) -/

/-- Data columns of a step's tiles. -/
def tileCols (st : Step) (chk : Bool) : Nat := pairCols st.pair (chk || !st.direct)
def rowTiles (st : Step) : Nat := ceilDiv st.rows (pairRows st.pair)
def colTiles (st : Step) (chk : Bool) : Nat := ceilDiv st.cols (tileCols st chk)

/-- First row and rows, first column and columns of a tile. -/
def tileRowsOf (st : Step) (chk : Bool) (t : Nat) : Nat × Nat :=
  let r0 := t / colTiles st chk * pairRows st.pair
  (r0, min (pairRows st.pair) (st.rows - r0))
def tileColsOf (st : Step) (chk : Bool) (t : Nat) : Nat × Nat :=
  let c0 := t % colTiles st chk * tileCols st chk
  (c0, min (tileCols st chk) (st.cols - c0))

/-- Weights of the stream up to the end of a column tile. -/
def streamEnd (st : Step) (chk : Bool) (t : Nat) : Nat :=
  let c := tileColsOf st chk t
  (c.1 + c.2) * (if st.wfmt = 9 then ceilDiv st.k 32 * 32 else st.k)

/-! ### Expander (R172–R176) -/

/-- Place of a block of a step's stream: position of its slot, offset, size. -/
def Hall.blockAt (h : Hall) (i : Nat) (st : Step) (t : Take) (b : Nat) : Nat × Nat × Nat :=
  match h.trough i t.trough with
  | some x => blockPlace st.wfmt x.desc.dataBytes (h.stall i).exp.classes b
  | none => (0, 0, 0)

def Expander.lane (e : Expander) (l : Nat) : List LaneBlock := Tab.get [] e.lanes l
def Expander.setLane (e : Expander) (l : Nat) (bs : List LaneBlock) : Expander :=
  { e with lanes := if bs = [] then Tab.erase e.lanes l else Tab.set e.lanes l bs }

/-- EXP_BLOCK_FETCH (R172): the next block of the stream goes to its lane where that has a free place, and its slot of the
weight trough is there. -/
def execExpBlockFetch (row : Fin 8) (stall : Fin 16) (lane : Fin 16) (s : State) : Host.Outcome State Fault Refusal :=
  s.run fun h =>
    let i := 16 * row.val + stall.val
    match h.onEngine i 0 with
    | none => h
    | some (r, st) =>
      let e := (h.stall i).exp
      let n := stepBlocks st
      let b := e.nextFetch % n
      if st.direct || decide (n * rowTiles st ≤ e.nextFetch) || decide (b % 16 ≠ lane.val) || decide (3 ≤ (e.lane lane.val).length) then h
      else match r.inW with
      | none => h
      | some w =>
        let p := h.blockAt i st w b
        match h.takeTo i 0 1 (p.1 + 1) (w.n + 1) with
        | none => h
        | some h =>
          let w := ((((h.stall i).running 0).bind fun r => r.inW).getD w)
          let coded := decide (classOf e.classes b < 6)
          let names := if coded then some (bit (leNat (h.readBytes (h.takeBase i w p.1 + p.2.1) 1)) 4) else none
          h.updStall i fun x =>
            { x with exp := { x.exp.setLane lane.val (x.exp.lane lane.val ++ [{ index := x.exp.nextFetch, names := names }]) with
                              nextFetch := x.exp.nextFetch + 1 } }

/-- The Ox takes the decoded blocks of the stream that its current tile uses up, in order (R172). -/
def Expander.hand (e : Expander) (n reading need : Nat) : Nat → Expander
  | 0 => e
  | fuel + 1 =>
    let b := e.nextTake % n
    let used := decide (e.nextTake / n < reading) ||
      (decide (e.nextTake / n = reading) && (decide (128 * (b + 1) ≤ need) || (decide (b + 1 = n) && decide (128 * b < need))))
    match e.lane (b % 16) with
    | x :: rest =>
      match x.decoded with
      | some ws =>
        if decide (x.index = e.nextTake) && used then
          ({ e.setLane (b % 16) rest with nextTake := e.nextTake + 1, taken := e.taken ++ ws }).hand n reading need fuel
        else e
      | none => e
    | [] => e

def Hall.handBlocks (h : Hall) (i : Nat) : Hall :=
  match h.onEngine i 0 with
  | none => h
  | some (r, st) =>
    if st.direct ∨ rowTiles st * colTiles st r.chk ≤ r.tile then h
    else h.updStall i fun x =>
      { x with exp := x.exp.hand (stepBlocks st) (r.tile / colTiles st r.chk) (streamEnd st r.chk r.tile) 49 }

/-- Weights of the current reading that the Ox can see: those taken, and the next block if it is decoded. -/
def Expander.visible (e : Expander) (n : Nat) : List Elem :=
  match e.lane (e.nextTake % n % 16) with
  | x :: _ => if x.index = e.nextTake ∧ x.index / n = e.rowTile then e.taken ++ x.decoded.getD [] else e.taken
  | [] => e.taken

/-- What a block yields: its weights, with what is counted and latched (R176). -/
def Hall.deliverBlock (h : Hall) (i : Nat) (r : Running) (st : Step) (w : Take) (b : Nat) : List Elem × Hall :=
  let e := (h.stall i).exp
  let p := h.blockAt i st w b
  let a := h.takeBase i w p.1 + p.2.1
  let bytes := h.readBytes a p.2.2
  let out := if h.rangePoison a p.2.2 then BlockOut.mk [] 6 0 0
    else decodeBlock bytes st.wfmt (classOf e.classes b) e.tableA e.tableB
  let h := (h.bump .expBlocks i).bump .expEscapes i out.escapes
  if out.cause = 0 then
    (out.weights.map fun v => ({ raw := v } : Elem), h.bump .expTrimmed i (b2n (decide (out.trim ≠ 0))))
  else
    let h := h.bump .expPoisonBlocks i
    let h := if out.cause = 1 then h.bump .expCheckFail i else if out.cause = 6 then h else h.bump .expBadBlock i
    let h := if h.flag .expFailLastValid i then h
      else h.setFs i [(.expFailLastValid, 1), (.expFailLastCause, out.cause), (.expFailLastCtx, r.ctx), (.expFailLastStep, r.idx % 65536),
        (.expFailLastBlock, b)]
    let slotB := bit (leNat (bytes.take 1)) 4
    let table := (((if slotB then e.tableB else e.tableA).map fun t => t.tableId).getD 0)
    (List.replicate 128 (poisonWeight st.wfmt), h.ordinary .expander i (b + r.idx * 2 ^ 32 + table * 2 ^ 64))

/-- EXP_BLOCK_DECODED (R173, R176): a lane finishes its oldest block. -/
def execExpBlockDecoded (row : Fin 8) (stall : Fin 16) (lane : Fin 16) (s : State) : Host.Outcome State Fault Refusal :=
  s.run fun h =>
    let i := 16 * row.val + stall.val
    match h.onEngine i 0 with
    | none => h
    | some (r, st) =>
      let bs := (h.stall i).exp.lane lane.val
      match bs.find? fun (b : LaneBlock) => b.decoded.isNone, r.inW with
      | some b, some w =>
        let (ws, h) := h.deliverBlock i r st w (b.index % stepBlocks st)
        let h := h.updStall i fun x => { x with exp := x.exp.setLane lane.val (bs.map fun (c : LaneBlock) =>
          if c.index = b.index then { c with decoded := some ws } else c) }
        h.handBlocks i
      | _, _ => h

/-! ### One tile (R109–R119) -/

/-- Indices and poison of the outlier table of a step; none where it has none. -/
def Hall.outlierCount (h : Hall) (i : Nat) (st : Step) : Nat := if st.outlEn then min 64 (leNat (h.storeBytes i st.outl 2)) else 0

/-- Outlier sums of a tile: the manual gives the strip's operands no place to be read from, so the sums are free FP32
values (log entry 13). -/
def outlierSums (ctr rows cols : Nat) : List (List Nat) :=
  (List.range rows).map fun r => (List.range cols).map fun c => Config.freeNat (ctr + r * cols + c) % 2 ^ 32

/-- Column `c` of the weights of a tile. -/
def Hall.weightCol (h : Hall) (i : Nat) (r : Running) (st : Step) (c : Nat) : List Elem :=
  if st.direct then match r.inW with
    | some w => h.operandRow i w st.wfmt st.cols st.k c
    | none => []
  else
    let e := (h.stall i).exp
    let ws := e.visible (stepBlocks st)
    (List.range st.k).map fun k => ws.getD (streamIndex st.wfmt st.cols st.k (tileCols st r.chk) k c) (poisonWeight st.wfmt)

/-- The operands of a tile. -/
def Hall.tileInput (h : Hall) (i : Nat) (r : Running) (st : Step) (ctr : Nat) : TileIn :=
  let (r0, nr) := tileRowsOf st r.chk r.tile
  let (c0, nc) := tileColsOf st r.chk r.tile
  let rows := (List.range nr).map (r0 + ·)
  let cols := (List.range nc).map (c0 + ·)
  let isf := pairFloat st.pair
  let a := rows.map fun j => match r.inA with
    | some t => (h.operandRow i t st.afmt st.rows st.k j).map fun (e : Elem) => if r.poisonAll then { e with poison := true } else e
    | none => []
  { pair := st.pair, afmt := st.afmt, wfmt := st.wfmt, ofmt := st.ofmt, checks := r.chk, ftol := st.ftol
    epilogue := decide (0 < st.opsN), token := st.token && !isf, za := st.za, a := a, w := cols.map fun c => h.weightCol i r st c
    ent := if isf then [] else cols.map fun c =>
      decodeReqEnt (h.storeBytes i (st.param + 16 * c) 16) (h.rangePoison (storeBase i + st.param + 16 * c) 16)
    scale := if st.token && !isf then rows.map fun j => match r.inA with
        | some t => h.operandScale i t st.afmt st.rows j
        | none => (ScaleRec.ofBytes [], false)
      else []
    u := if st.rank = 0 then [] else rows.map fun j => match r.inU with
      | some t => h.operandRow i t 6 st.rows st.rank j
      | none => []
    b := if st.rank = 0 then [] else cols.map fun c => (List.range st.rank).map fun j =>
      let o := st.adapt + 2 * (j * st.cols + c)
      { raw := leNat (h.storeBytes i o 2), poison := (h.mark ((storeBase i + o) / 64)).poison }
    outl := if h.outlierCount i st = 0 then [] else outlierSums ctr nr nc }

/-- Takes the slots that a tile reads; none while one is awaited or the expander has not delivered its weights. -/
def Hall.tileReady (h : Hall) (i : Nat) (r : Running) (st : Step) : Option Hall :=
  let (r0, nr) := tileRowsOf st r.chk r.tile
  let (c0, nc) := tileColsOf st r.chk r.tile
  let an := (r.inA.map fun t => slotsFor st.afmt st.rows t.n (r0 + nr)).getD 0
  let wn := (r.inW.map fun t => slotsFor st.wfmt st.cols t.n (c0 + nc)).getD 0
  let un := (r.inU.map fun t => slotsFor 6 st.rows t.n (r0 + nr)).getD 0
  let more := fun (h : Option Hall) (sel n : Nat) => h.bind fun h => h.takeTo i 0 sel n (n + 1)
  let h1 := more (some h) 0 an
  let h2 := if st.direct then more h1 1 wn else h1
  let h3 := if st.rank = 0 then h2 else more h2 2 un
  h3.bind fun h =>
    if st.direct || decide (streamEnd st r.chk r.tile ≤ (((h.stall i).exp.visible (stepBlocks st)).length)) then some h else none

/-- Appends the rows of a tile to the rows that a step has computed. -/
def appendRows (t : Tab (List Elem)) (r0 : Nat) (out : List (List Elem)) : Tab (List Elem) :=
  out.zipIdx.foldl (fun t e => Tab.set t (r0 + e.2) (Tab.get [] t (r0 + e.2) ++ e.1)) t

/-- Counts and latches of a tile's checks (R118, R119). -/
def Hall.tileChecks (h : Hall) (i : Nat) (r : Running) (st : Step) (c : ChkOut) : Hall :=
  if !r.chk then h
  else
    let h := (h.bump .oxChkTiles i).bump .oxChkSkip i c.skipped
    if !c.failed then h
    else
      let h := h.bump .oxChkMismatch i
      let (row, col, multi) := c.loc
      if h.flag .oxChkLastValid i then h
      else h.setFs i [(.oxChkLastValid, 1), (.oxChkLastCtx, r.ctx), (.oxChkLastStep, r.idx % 65536), (.oxChkLastTile, r.tile % 65536),
        (.oxChkLastRow, row), (.oxChkLastCol, col), (.oxChkLastKind, b2n (pairFloat st.pair)), (.oxChkLastMulti, b2n multi)]

/-- Lines of a direct weight operand (R156). -/
def directLines (st : Step) : Nat := ceilDiv st.cols (panelRows st.wfmt) * panelBytes st.wfmt st.k / 64

/-- OX_TILE_END (R119): the tile is computed, compared and counted. -/
def Hall.tileEnd (h : Hall) (i : Nat) (r : Running) (st : Step) (us : List Upset) : Hall :=
  let x := h.tileInput i r st h.freeCtr
  let count := h.outlierCount i st
  let (r0, nr) := tileRowsOf st r.chk r.tile
  let (_, nc) := tileColsOf st r.chk r.tile
  let h := { h with freeCtr := h.freeCtr + (if count = 0 then 0 else nr * nc) }
  let out := runTile x us
  let clean := runTile x []
  let h := (h.tileChecks i r st out.chk).bump .oxSatCount i out.sat
  let h := if out.sat = 0 then h else h.setF .oxStatusSatSeen i 1
  let h := h.bump .oxPoisonOut i (out.out.map countPoison).sum
  let h := h.bump .oxBeats i (tileBeats st.pair st.k (tileCols st r.chk) count st.rank)
  let newRow := decide (r.tile % colTiles st r.chk + 1 = colTiles st r.chk)
  let h := if st.direct && decide (r.tile % colTiles st r.chk = 0) then h.bump .expDirectLines i (directLines st) else h
  let bad := out.chk.failed
  let h := h.updRunning i 0 fun r =>
    { r with tile := r.tile + 1, vals := appendRows r.vals r0 out.out, clean := appendRows r.clean r0 clean.out
             mismatch := r.mismatch || bad, cleanMismatch := r.cleanMismatch || clean.chk.failed
             loc := if bad ∧ r.loc.isNone = true then some (r.tile, out.chk.loc) else r.loc }
  let h := if newRow then h.updStall i fun x => { x with exp := { x.exp with taken := [], rowTile := x.exp.rowTile + 1 } } else h
  h.handBlocks i

def execOxTileEnd (row : Fin 8) (stall : Fin 16) (upsets : List Upset) (s : State) : Host.Outcome State Fault Refusal :=
  s.run fun h =>
    let i := 16 * row.val + stall.val
    match h.onEngine i 0 with
    | none => h
    | some (r, st) =>
      if rowTiles st * colTiles st r.chk ≤ r.tile then h
      else match h.tileReady i r st with
      | none => h
      | some h => match h.onEngine i 0 with
        | some (r, st) => h.tileEnd i r st upsets
        | none => h

/-! ### The output stage and the epilogue (R110, R127) -/

def Hall.vuCount (h : Hall) (i : Nat) (c : VuCnt) : Hall :=
  (((((h.bump .vuNanQuant i c.nan).bump .vuScaleSat i c.sat).bump .vuOverflow i c.ovf).bump .vuQclamp i c.clamp).bump
    .vuTrackEmpty i c.empty).bump .vuPoisonOut i c.poison

/-- ADD_COL and MUL_COL tables of a stall. -/
def Hall.colTable (h : Hall) (i : Nat) (o : VuOp) (c : Nat) : VVal := h.storeF32 i (o.imm % 2 ^ 22 + 4 * c)

/-- One row of an Ox output through its epilogue. -/
def Hall.epilogueRow (h : Hall) (i : Nat) (r : Running) (st : Step) (ops : List VuOp) (j : Nat) (row : List Elem) : VuRow :=
  let u := if ops.any fun o => opcReadsU o.opc then match r.inU with
      | some t => h.operandRow i t st.u.ufmt st.rows st.cols j
      | none => []
    else []
  let rec' := match r.inA with
    | some t => h.operandScale i t st.afmt st.rows j
    | none => (ScaleRec.ofBytes [], false)
  vuRow ops st.ofmt st.gain (fun _ => false) (h.colTable i)
    { fmt := if pairFloat st.pair then 7 else 8, row := row, ufmt := st.u.ufmt, u := u
      named := if st.token then some (rec'.1.s, none) else none, rowPoison := st.token && (rec'.1.poisonAll || rec'.2) }

/-- The rows of a finished step in its output format, the scale records, and what the epilogue counts. -/
def Hall.oxOutput (h : Hall) (i : Nat) (r : Running) (st : Step) (vals : Tab (List Elem)) : List (List Elem) × List ScaleRec × VuCnt :=
  let rows := (List.range st.rows).map fun j => Tab.get [] vals j
  if st.opsN = 0 then
    if pairFloat st.pair then
      (rows.map fun l => l.map fun (e : Elem) => (writeFloat st.ofmt { v := e.raw, poison := e.poison }).1, [], {})
    else (rows, [], {})
  else
    let ops := h.opsOf i st
    let out := rows.zipIdx.map fun e => h.epilogueRow i r st ops e.2 e.1
    (out.map VuRow.out, out.filterMap VuRow.scale, out.foldl (fun c x => c.add x.cnt) {})

/-- OX_STEP_END (R110): after its last tile the step writes its output, and the slots it took advance. -/
def Hall.oxEnd (h : Hall) (i : Nat) (r : Running) (st : Step) : Hall :=
  let out := h.oxOutput i r st r.vals
  let clean := h.oxOutput i r st r.clean
  let slots := (r.out.map fun t => t.n).getD 0
  let desc := (r.out.bind fun t => h.trough i t.trough).map fun x => x.desc
  let (done, h) := h.writeSlots i 0 st.ofmt st.rows st.rows out.1 out.2.1 (slots + 1)
  if !done then h
  else
    let ops := h.opsOf i st
    let h := h.bump .oxBeats i (drainBeats st.pair)
    let h := if st.opsN = 0 then h else (h.vuCount i out.2.2).bump .vuBeats i (st.rows * rowBeats ops st.cols)
    let lines := outputLines desc st.ofmt st.rows slots out.1 out.2.1
    h.endStep i 0 st.pair lines (outputLines desc st.ofmt st.rows slots clean.1 clean.2.1) (lines.any fun (x : PByte) => x.poison)

def execOxStepEnd (row : Fin 8) (stall : Fin 16) (s : State) : Host.Outcome State Fault Refusal :=
  s.run fun h =>
    let i := 16 * row.val + stall.val
    match h.onEngine i 0 with
    | none => h
    | some (r, st) =>
      if r.tile < rowTiles st * colTiles st r.chk then h
      else
        let un := if st.rank = 0 then (r.inU.map fun t => t.n).getD 0 else 0
        match h.takeTo i 0 2 un (un + 1) with
        | none => h
        | some h => match h.onEngine i 0 with
          | some (r, st) => h.oxEnd i r st
          | none => h

end Sys2Proof.Machine
end

