-- ==== Sys2Proof/Machine/VuRun.lean ====
section
/-! DEFINITION. Steps on the vector unit (R122–R128). -/

namespace Sys2Proof.Machine

/-- Input-channel indices of an outlier table of a step (R101). -/
def Hall.outlierList (h : Hall) (i : Nat) (st : Step) : List Nat :=
  (List.range (h.outlierCount i st)).map fun j => leNat (h.storeBytes i (st.outl + 8 + 2 * j) 2)

/-- One row of a VU step. The outlier channels of a row that is quantised per token take no part in its tracking (R97). -/
def Hall.vuStepRow (h : Hall) (i : Nat) (r : Running) (st : Step) (ops : List VuOp) (j : Nat) : VuRow :=
  let row := match r.inA with
    | some t => (h.operandRow i t st.afmt st.rows st.k j).map fun (e : Elem) => if r.poisonAll then { e with poison := true } else e
    | none => []
  let u := if ops.any fun o => opcReadsU o.opc then match r.inU with
      | some t => h.operandRow i t st.u.ufmt st.rows st.k j
      | none => []
    else []
  let rec' := match r.inA with
    | some t => h.operandScale i t st.afmt st.rows j
    | none => (ScaleRec.ofBytes [], false)
  let skip := h.outlierList i st
  vuRow ops st.ofmt st.gain (fun c => skip.contains c) (h.colTable i)
    { fmt := st.afmt, row := row, ufmt := st.u.ufmt, u := u, named := if st.token then some (rec'.1.s, some rec'.1.z) else none
      rowPoison := st.token && (rec'.1.poisonAll || rec'.2) }

/-- The slots of both inputs up to row `n`. -/
def Hall.vuTake (h : Hall) (i : Nat) (r : Running) (st : Step) (n : Nat) : Option Hall :=
  let an := (r.inA.map fun t => slotsFor st.afmt st.rows t.n n).getD 0
  let un := (r.inU.map fun t => slotsFor st.u.ufmt st.rows t.n n).getD 0
  (h.takeTo i 1 0 an (an + 1)).bind fun h => h.takeTo i 1 2 un (un + 1)

/-- Rows done, in order. -/
def Running.rows (r : Running) : List (List Elem) := (List.range r.rowsDone).map fun j => Tab.get [] r.vals j
def Running.records (r : Running) : List ScaleRec := (List.range r.rowsDone).map fun j => ScaleRec.ofBytes (Tab.get [] r.recs j)

/-- VU_ROW_END (R126): the next row of a per-token step is quantised, and its scale record is written. -/
def Hall.vuRowEnd (h : Hall) (i : Nat) (st : Step) (ops : List VuOp) : Hall :=
  match (h.stall i).vu with
  | none => h
  | some r =>
    let j := r.rowsDone
    let pos := match r.out with
      | some t => rowSlot st.ofmt st.rows t.n j
      | none => (0, 0)
    match h.openOut i 1 pos.1 with
    | none => h
    | some h =>
      let x := h.vuStepRow i r st ops j
      let recBytes := (x.scale.map fun q => q.bytes).getD (List.replicate 16 0)
      let a := match ((h.stall i).running 1).bind fun r => r.out with
        | some t => match h.trough i t.trough, t.slots[pos.1]? with
          | some y, some s => scaleAddr i y s pos.2
          | _, _ => 0
        | none => 0
      let h := (h.writeBytes a recBytes).vuCount i x.cnt
      let h := (h.bump .vuBeats i (rowBeats ops st.k)).updRunning i 1 fun r =>
        { r with vals := Tab.set r.vals j x.out, recs := Tab.set r.recs j recBytes, rowsDone := j + 1 }
      match (h.stall i).vu with
      | some r => (h.writeSlots i 1 st.ofmt st.rows r.rowsDone r.rows r.records (((r.out.map fun t => t.n).getD 0) + 1)).2
      | none => h

def execVuRowEnd (row : Fin 8) (stall : Fin 16) (s : State) : Host.Outcome State Fault Refusal :=
  s.run fun h =>
    let i := 16 * row.val + stall.val
    match h.onEngine i 1 with
    | none => h
    | some (r, st) =>
      let ops := h.opsOf i st
      if !opsPerToken ops || decide (st.rows ≤ r.rowsDone) then h
      else match h.vuTake i r st (r.rowsDone + 1) with
      | some h => h.vuRowEnd i st ops
      | none => h

/-- VU_STEP_END (R123): the list has been applied to every row; the step's slots advance. -/
def Hall.vuEnd (h : Hall) (i : Nat) (st : Step) (ops : List VuOp) : Hall :=
  match (h.stall i).vu with
  | none => h
  | some r =>
    let slots := (r.out.map fun t => t.n).getD 0
    let desc := (r.out.bind fun t => h.trough i t.trough).map fun x => x.desc
    let tok := opsPerToken ops
    let rows := if tok then [] else (List.range st.rows).map fun j => h.vuStepRow i r st ops j
    let out := if tok then r.rows else rows.map VuRow.out
    let recs := if tok then r.records else []
    let (done, h) := h.writeSlots i 1 st.ofmt st.rows st.rows out recs (slots + 1)
    if !done then h
    else
      let h := if tok then h
        else (h.vuCount i (rows.foldl (fun c x => c.add x.cnt) {})).bump .vuBeats i (st.rows * rowBeats ops st.k)
      let lines := outputLines desc st.ofmt st.rows slots out recs
      h.endStep i 1 0 lines lines (lines.any fun (x : PByte) => x.poison)

def execVuStepEnd (row : Fin 8) (stall : Fin 16) (s : State) : Host.Outcome State Fault Refusal :=
  s.run fun h =>
    let i := 16 * row.val + stall.val
    match h.onEngine i 1 with
    | none => h
    | some (r, st) =>
      let ops := h.opsOf i st
      if opsPerToken ops && decide (r.rowsDone < st.rows) then h
      else match h.vuTake i r st st.rows with
      | some h => h.vuEnd i st ops
      | none => h

end Sys2Proof.Machine
end

