-- ==== Sys2Proof/Machine/HenRun.lean ====
section
/-! DEFINITION. Steps on the Hen (R133–R153): one command per operation, all uses of one shared end of a Hen step. -/

namespace Sys2Proof.Machine

/-- Formats of an operation's output lists, in the order it writes them. -/
def henOutFmts (p : HenParam) : List Nat :=
  match p.op with
  | 0x06 | 0x09 | 0x0A | 0x0B | 0x0D | 0x0E => [8]
  | 0x08 | 0x0C => [p.fmt, 8]
  | 0x11 => [8, 7]
  | _ => [p.fmt]

/-- Every element that a poisoned replay or a closing pass writes is poisoned (R215, R233). -/
def HenOut.poisoned (o : HenOut) (p : HenParam) : HenOut :=
  let fmts := henOutFmts p
  { o with
    lists := o.lists.zipIdx.map fun e =>
      let f := fmts.getD e.2 8
      { e.1 with words := if p.op = 1 then gatherPoison p.fmt e.1.words.length else e.1.words.map fun _ => henPoison f }
    patches := o.patches.map fun e => (e.1, henPoison 8) }

/-- Lists and words to be written: offset in the store and payload. -/
def HenOut.writes (o : HenOut) : List (Nat × Payload) :=
  (o.lists.map fun l => (l.off, l.payload (decide (0 < o.clip)))) ++ o.patches.map fun e => (e.1, elemBytes 4 e.2)

/-- Poisoned elements written. -/
def HenOut.poisonCount (o : HenOut) : Nat :=
  (o.lists.map fun l => countPoison l.words).sum + (o.patches.filter fun e => e.2.poison).length

/-- The stall's lines that hold a step's output, in address order, without repeats. -/
def henLines (i : Nat) (ws : List (Nat × Payload)) : List Nat :=
  ((ws.flatMap fun w => (List.range ((w.1 % 64 + w.2.length + 63) / 64)).map fun j => (storeBase i + w.1) / 64 + j).mergeSort).dedup

/-- Writes the outputs of a Hen step and counts (Table 5.x), fills its output slots and ends it. -/
def Hall.henEnd (h : Hall) (i : Nat) (r : Running) (st : Step) : Hall :=
  let p := decodeHen (h.storeBytes i st.param 64)
  let ph := if p.op = 0x11 then phases (h.storeBytes i p.phOff (8 * min 8 p.p0)) (min 8 p.p0) else []
  let (free, h) := h.free
  let out := henRun p { hall := h, base := storeBase i } ph free
  let out := if r.poisonAll then out.poisoned p else out
  let ws := out.writes.filter fun w => decide (w.1 + w.2.length ≤ 0x3F0000)
  let stray := out.bus || out.writes.any fun w => decide (0x3F0000 < w.1 + w.2.length)
  let h := ws.foldl (fun h w => h.provWrite r.key (storeBase i + w.1) w.2) h
  let h := if stray then h.ordinary .busError i else h
  let h := (((h.bump .henBeats i (henBeats p ((ph.map Prod.snd).sum))).bump .henBounds i out.bounds).bump .henClip i out.clip).bump
    .henOrder i out.order
  let h := (((h.bump .henHashFull i out.full).bump .henPriceOvf i out.price).bump .henAssignOpen i out.openN).bump .henPoisonOut i
    out.poisonCount
  let lines := henLines i ws
  let data := lines.flatMap fun l => h.readRam (l * 64) 64
  let bad := fun (a n : Nat) => lines.any fun l => decide (a ≤ l * 64) && decide (l * 64 < a + n) && (h.mark l).poison
  let ended := (List.range ((r.out.map fun t => t.n).getD 0)).foldl (fun (acc : Bool × Hall) pos => match acc.2.openOut i 2 pos with
    | none => (acc.1, acc.2)
    | some h => match ((h.stall i).running 2).bind fun r => r.out with
      | some t => match h.trough i t.trough, t.slots[pos]? with
        | some x, some s =>
          let b := bad (slotAddr i x s) (x.desc.slotLines * 64)
          (acc.1 || b, h.fillEnd i t.trough s (some r.key) r.token [.own r.key] b)
        | _, _ => (acc.1, h)
      | none => (acc.1, h)) (false, h)
  ended.2.endStep i 2 p.op data data ended.1

/-- Enough free output slots for a Hen step, in order from TAIL. -/
def Hall.henOutFree (h : Hall) (i : Nat) (r : Running) : Bool :=
  match r.out with
  | none => true
  | some t => match h.trough i t.trough with
    | none => false
    | some x =>
      let rest := t.n - t.slots.length
      let free := (x.slots.filter fun e => decide (e.2.state ≠ .free) || e.2.lock.isSome).length
      decide (rest + free ≤ x.desc.nslot)

/-- A Hen step of one operation ends: its inputs are there and its output slots are free. -/
def Hall.henStep (h : Hall) (i op : Nat) : Hall :=
  match h.onEngine i 2 with
  | none => h
  | some (r, st) =>
    if (decodeHen (h.storeBytes i st.param 64)).op ≠ op ∨ h.henOutFree i r = false then h
    else
      let an := (r.inA.map fun t => t.n).getD 0
      match h.takeTo i 2 0 an (an + 1) with
      | none => h
      | some h => match h.onEngine i 2 with
        | some (r, st) => h.henEnd i r st
        | none => h

/-- GATHER (R141). -/
def execGather (row : Fin 8) (stall : Fin 16) (s : State) : Host.Outcome State Fault Refusal :=
  s.run fun h => h.henStep (16 * row.val + stall.val) 0x01
/-- SCATTER_ADD (R141). -/
def execScatterAdd (row : Fin 8) (stall : Fin 16) (s : State) : Host.Outcome State Fault Refusal :=
  s.run fun h => h.henStep (16 * row.val + stall.val) 0x02
/-- SEG_SUM (R142). -/
def execSegSum (row : Fin 8) (stall : Fin 16) (s : State) : Host.Outcome State Fault Refusal :=
  s.run fun h => h.henStep (16 * row.val + stall.val) 0x03
/-- SEG_MAX (R142). -/
def execSegMax (row : Fin 8) (stall : Fin 16) (s : State) : Host.Outcome State Fault Refusal :=
  s.run fun h => h.henStep (16 * row.val + stall.val) 0x04
/-- SEG_MIN (R142). -/
def execSegMin (row : Fin 8) (stall : Fin 16) (s : State) : Host.Outcome State Fault Refusal :=
  s.run fun h => h.henStep (16 * row.val + stall.val) 0x05
/-- SEG_ARGMAX (R142). -/
def execSegArgmax (row : Fin 8) (stall : Fin 16) (s : State) : Host.Outcome State Fault Refusal :=
  s.run fun h => h.henStep (16 * row.val + stall.val) 0x06
/-- SORT (R143). -/
def execSort (row : Fin 8) (stall : Fin 16) (s : State) : Host.Outcome State Fault Refusal :=
  s.run fun h => h.henStep (16 * row.val + stall.val) 0x08
/-- INTERSECT (R144). -/
def execIntersect (row : Fin 8) (stall : Fin 16) (s : State) : Host.Outcome State Fault Refusal :=
  s.run fun h => h.henStep (16 * row.val + stall.val) 0x09
/-- UNION (R144). -/
def execUnion (row : Fin 8) (stall : Fin 16) (s : State) : Host.Outcome State Fault Refusal :=
  s.run fun h => h.henStep (16 * row.val + stall.val) 0x0A
/-- DIFF (R144). -/
def execDiff (row : Fin 8) (stall : Fin 16) (s : State) : Host.Outcome State Fault Refusal :=
  s.run fun h => h.henStep (16 * row.val + stall.val) 0x0B
/-- TOPK (R145). -/
def execTopk (row : Fin 8) (stall : Fin 16) (s : State) : Host.Outcome State Fault Refusal :=
  s.run fun h => h.henStep (16 * row.val + stall.val) 0x0C
/-- HASH_INSERT (R146). -/
def execHashInsert (row : Fin 8) (stall : Fin 16) (s : State) : Host.Outcome State Fault Refusal :=
  s.run fun h => h.henStep (16 * row.val + stall.val) 0x0D
/-- HASH_PROBE (R146). -/
def execHashProbe (row : Fin 8) (stall : Fin 16) (s : State) : Host.Outcome State Fault Refusal :=
  s.run fun h => h.henStep (16 * row.val + stall.val) 0x0E
/-- MSG (R147). -/
def execMsg (row : Fin 8) (stall : Fin 16) (s : State) : Host.Outcome State Fault Refusal :=
  s.run fun h => h.henStep (16 * row.val + stall.val) 0x10
/-- ASSIGN (R148). -/
def execAssign (row : Fin 8) (stall : Fin 16) (s : State) : Host.Outcome State Fault Refusal :=
  s.run fun h => h.henStep (16 * row.val + stall.val) 0x11

/-! ### CLEAR writes of a stall's blocks: they wait for its next step boundary -/

/-- A CLEAR write by the governing MP; with no step running the stall stands at a boundary. -/
def Hall.queueClear (h : Hall) (i : Nat) (c : StallClear) : Hall :=
  let h := h.updStall i fun x => { x with clears := x.clears ++ [c] }
  let x := h.stall i
  if x.ox.isNone && x.vu.isNone && x.hen.isNone then h.stepBoundary i else h

/-- OX_CLEAR.LAST (R132). -/
def execOxClearLast (req : Requester) (row : Fin 8) (stall : Fin 16) (s : State) : Host.Outcome State Fault Refusal :=
  s.board req fun h => h.queueClear (16 * row.val + stall.val) .oxLast
/-- OX_CLEAR.STATS (R132). -/
def execOxClearStats (req : Requester) (row : Fin 8) (stall : Fin 16) (s : State) : Host.Outcome State Fault Refusal :=
  s.board req fun h => h.queueClear (16 * row.val + stall.val) .oxStats
/-- VU_CLEAR.STATS (R132). -/
def execVuClearStats (req : Requester) (row : Fin 8) (stall : Fin 16) (s : State) : Host.Outcome State Fault Refusal :=
  s.board req fun h => h.queueClear (16 * row.val + stall.val) .vuStats
/-- HEN_CLEAR.STATS (R154). -/
def execHenClearStats (req : Requester) (row : Fin 8) (stall : Fin 16) (s : State) : Host.Outcome State Fault Refusal :=
  s.board req fun h => h.queueClear (16 * row.val + stall.val) .henStats
/-- EXP_CLEAR.LAST (R179). -/
def execExpClearLast (req : Requester) (row : Fin 8) (stall : Fin 16) (s : State) : Host.Outcome State Fault Refusal :=
  s.board req fun h => h.queueClear (16 * row.val + stall.val) .expLast
/-- EXP_CLEAR.STATS (R179). -/
def execExpClearStats (req : Requester) (row : Fin 8) (stall : Fin 16) (s : State) : Host.Outcome State Fault Refusal :=
  s.board req fun h => h.queueClear (16 * row.val + stall.val) .expStats
/-- STALL_CLEAR.STATS (R203). -/
def execStallClearStats (req : Requester) (row : Fin 8) (stall : Fin 16) (s : State) : Host.Outcome State Fault Refusal :=
  s.board req fun h => h.queueClear (16 * row.val + stall.val) .stallStats

end Sys2Proof.Machine
end

