-- ==== Sys2Proof/Machine/Power.lean ====
section
/-! DEFINITION. Start-up and loss of power (R431, R473, R481–R483, R491, R493), the brown-out detector (R313) and FW_INSTALL (R467). -/

namespace Sys2Proof.Machine

/-! ### What outlives power -/

def Hall.setStage (h : Hall) (n : Nat) : Hall := (h.setF .pwrStatusStage 0 n).setF .pwrStatusStage 1 n

/-- A field of both hubs' PWR_ blocks. -/
def Hall.setPwr (h : Hall) (f : Fld) (v : Nat) : Hall := (h.setF f 0 v).setF f 1 v

def feedFld : Hub → Fld
  | .a => .pwrStatusFeedA
  | .b => .pwrStatusFeedB

def Hall.feed (h : Hall) (f : Hub) : Bool := h.flag (feedFld f) 0
def Hall.brownout (h : Hall) : Bool := h.flag .pwrStatusBrownout 0

/-- What an array holds without power: cells, the journalled map, retirement, wear, the spare pool (R296, R298). -/
def NvArray.kept (a : NvArray) : NvArray :=
  { map := a.journal, journal := a.journal, retired := a.retired, erases := a.erases, topPage := a.topPage, torn := a.torn
    poolDelta := a.poolDelta, poisonLines := a.poisonLines }

/-- Register fields that outlive a wipe: what the always-on domains show, what the system areas hold. -/
def keptField : Fld → Bool
  | .pwrStatusStage => true
  | .pwrStatusBrownout => true
  | .pwrStatusFeedA => true
  | .pwrStatusFeedB => true
  | .nvmcSparesRetired => true
  | .nvmcSparesFree => true
  | .tallyStallState => true
  | .tallyStallStrikes => true
  | _ => false

/-- Every domain but the always-on domains is OFF (R473, R481, R483, R491). Pulses under way end as R313 has them. What the system
areas and the arrays keep stays: cells, journalled maps, lots, stall check records, the trust store, firmware, records (R237, R239,
R249, R296, R431, R432, R503), and so do the host's memory and what has left the module. -/
def Hall.wipe (h : Hall) : Hall :=
  let h := h.brownoutArrays
  { regs := h.regs.filter fun r => keptField r.fld
    mem := { nvm := h.mem.nvm, host := h.mem.host }
    outs := h.outs
    data := { tallies := (h.data.tallies.filter fun e => e.2.watch).map fun e => (e.1, { watch := true }) }
    checks := { totals := h.checks.savedTotals, standbyTotals := h.checks.savedTotals, savedTotals := h.checks.savedTotals
                watchTicks := h.checks.watchTicks, saved := h.checks.saved, nextSeq := h.checks.nextSeq, retired := h.checks.retired }
    weights := { arrays := h.weights.arrays.map fun (e : Nat × NvArray) => (e.1, e.2.kept)
                 lots := h.weights.lots.map fun (e : Nat × Lot) => (e.1, { e.2 with grants := [], op := none })
                 nextLot := h.weights.nextLot, installs := h.weights.installs, swaps := h.weights.swaps, oldBlocks := h.weights.oldBlocks }
    trust := { h.trust with zeroing := [] }
    power := { gooseStart := h.power.gooseStart }
    mgmt := { cfgRecord := h.mgmt.cfgRecord }
    freeCtr := h.freeCtr }

/-! ### Start-up (Table 20.6) -/

/-- Domains come ON. -/
def Hall.powerUp (h : Hall) (l : List Nat) : Hall := l.foldl (fun h d => h.setDom d 2) h

/-- Order 3: each hub's MP, hub core and host port, and the memory domains of rows 0 and 4. -/
def earlyDomains : List Nat :=
  [hubDomain .a 0, hubDomain .a 1, hubDomain .a 2, hubDomain .b 0, hubDomain .b 1, hubDomain .b 2, 128, 132]

/-- A firmware slot's package qualifies (R431). -/
def Hall.slotRuns (h : Hall) (n : Nat) : Bool :=
  match h.fwSlot n with
  | some x => match Config.firmware x.package with
    | some f => f.chainOk && f.sigOk && decide (h.trust.rollback ≤ f.svn)
    | none => false
  | none => false

/-- Order 5: the boot ROM tries the active slot, then the other. -/
def Hall.bootSlot (h : Hall) : Option Nat := [h.trust.active, 1 - h.trust.active].find? h.slotRuns

/-- Orders 5 and 6 for one MP: ready on the firmware found, or in ROM recovery. -/
def bootMp (slot : Option Nat) (fails : Bool) : Mp :=
  match slot, fails with
  | some n, false => { state := .ready, slot := n }
  | some n, true => { state := .romRecovery, slot := n }
  | none, _ => { state := .romRecovery, slot := 0 }

/-- Domains that stay on at the start in goose mode besides those of P0 (R482). -/
def gooseStaysOn : Domain → Bool
  | .mp _ => true
  | .core _ => true
  | .host _ => true
  | .dram _ => true
  | .always _ => true
  | _ => false

/-- Order 8: retired stalls are marked, stalls under observation and those of a watched row are fully checked again (R237, R240,
Table 9.6), and the configuration record is read (R503). -/
def Hall.readRecords (h : Hall) : Hall :=
  let h := upTo 128 h fun h i =>
    if h.getF .tallyStallState i = 2 then
      if h.checks.retired.contains i then h else { h with checks := { h.checks with retired := i :: h.checks.retired } }
    else if h.getF .tallyStallState i = 1 ∨ (h.tally (i / 16)).watch = true then h.setF .tallyStallFOvr i 7
    else h
  match h.mgmt.cfgRecord with
  | some c => upTo 2 h fun h u =>
      h.setFs u [(.mgmtCfgHbS, c.1 / 2 ^ 24), (.mgmtCfgEvents, c.1 / 4), (.mgmtCfgReq, c.1 / 2), (.mgmtCfgEnable, c.1), (.mgmtDestMac, c.2)]
  | none => h

/-- Order 10: P0 is created (R442), with stalls S0.15 and S4.15, engines VA0 and VB0; S3.15 and S7.15 are spares (R183). A stall
that is retired is given to neither. No command writes the rest of P0's configuration record, so it is empty (log entry 39). -/
def Hall.createP0 (h : Hall) : Hall :=
  let h := (h.updPen 0 fun _ => { secure := true, priority := 255 }).setPenState 0 .up
  let h := [15, 79].foldl (fun h i => if h.stallRetired i then h else (h.giveStall i (some 0)).setF .tallyStallRole i 4) h
  let h := (h.setShare 0 0 16).setShare 8 0 16
  [63, 127].foldl (fun h i => if h.stallRetired i then h else (h.updStall i fun x => { x with spare := true }).setF .tallyStallRole i 3) h

/-- Orders 7 to 11 under the governing MP. -/
def Hall.startServices (h : Hall) (gov : Hub) (tests : StartTests) : Hall :=
  let h := (h.powerUp (List.range 174)).lotsAtStart
  let h := h.readRecords
  let h := h.createP0
  let goose := tests.failA || tests.failB || !(h.feed .a && h.feed .b) || h.power.gooseStart
  let h := if goose then (h.gooseOff ((List.range 176).filter fun d => !gooseStaysOn (domainOf d))).setGooseMode true else h
  (h.setStage 11).post 255 true { typ := 0x0A04, detail := leBytes 1 (hubNum gov) ++ leBytes 1 (b2n goose) }

/-- Orders 5 and 6, with what follows: hub A's MP governs unless hub A fails its tests; with both failed, none does, and start-up
stays at order 6 (R32, R33). `installed`: an MP that restarts from the package in the slot given. -/
def Hall.startMps (h : Hall) (tests : StartTests) (installed : Option (Hub × Nat)) : Hall :=
  let slot := fun (x : Hub) => match installed with
    | some (y, n) => if x = y then some n else h.bootSlot
    | none => h.bootSlot
  let h := (h.updMp .a fun _ => bootMp (slot .a) tests.failA).updMp .b fun _ => bootMp (slot .b) tests.failB
  let h := (h.setStage 6).showFw
  if (h.mp .a).state = .ready then (h.govern .a).startServices .a { tests with failB := decide ((h.mp .b).state ≠ .ready) }
  else if (h.mp .b).state = .ready then (h.govern .b).startServices .b { tests with failA := true }
  else h

/-- Orders 3 and on. -/
def Hall.startUp (h : Hall) (tests : StartTests) : Hall := ((h.powerUp earlyDomains).setStage 3).startMps tests none

/-- The always-on domains run and nothing else does: start-up waits, or the module has shut down. -/
def Hall.waitsStart (h : Hall) : Bool := !h.powered && (h.feed .a || h.feed .b)

/-! ### Feeds, reset, brown-out, thermal shutdown -/

/-- POWER_APPLIED (R481), order 1: a feed reaches 40 V, the always-on domains start, the RTC counts from 0. The brown-out detector
stays asserted until it clears (order 2, R313), and start-up goes on with BROWNOUT_CLEAR (DEDUCED, log entry 38). -/
def execPowerApplied (feed : Hub) (s : State) : Host.Outcome State Fault Refusal :=
  s.run fun h =>
    if h.feed .a || h.feed .b then h
    else (((h.wipe.setPwr (feedFld feed) 1).setPwr .pwrStatusBrownout 1).setStage 1)

/-- MODULE_RESET (R481): start-up in the order of Table 20.6, the brown-out detector as it stands. During a thermal shutdown the
module waits for THERMAL_RESTART. -/
def execModuleReset (tests : StartTests) (s : State) : Host.Outcome State Fault Refusal :=
  s.run fun h =>
    if !(h.feed .a || h.feed .b) || h.power.shutdown then h
    else
      let h := h.wipe.setStage 1
      if h.brownout then h else (h.setStage 2).startUp tests

/-- PWR_FEED (R485), once Jenig runs. -/
def Hall.feedEvent (h : Hall) (feed : Hub) (lost : Bool) : Hall :=
  if h.governing.isNone then h else h.post 255 true { typ := 0x0A02, detail := leBytes 1 (hubNum feed) ++ leBytes 1 (b2n lost) }

/-- FEED_LOST (R493): the other feed carries the load; with both lost the module has no power. -/
def execFeedLost (feed : Hub) (s : State) : Host.Outcome State Fault Refusal :=
  s.run fun h =>
    if !h.feed feed then h
    else
      let h := h.setPwr (feedFld feed) 0
      if h.feed .a || h.feed .b then h.feedEvent feed true
      else (h.wipe.setStage 0).setPwr .pwrStatusBrownout 0

/-- FEED_RESTORED (R485). -/
def execFeedRestored (feed : Hub) (s : State) : Host.Outcome State Fault Refusal :=
  s.run fun h =>
    if h.feed feed || !(h.feed (otherHub feed)) then h else (h.setPwr (feedFld feed) 1).feedEvent feed false

/-- BROWNOUT_ASSERT (R313); during orders 3 to 10 every domain but the always-on domains goes OFF (R483). -/
def execBrownoutAssert (s : State) : Host.Outcome State Fault Refusal :=
  s.run fun h =>
    if h.brownout || !(h.feed .a || h.feed .b) then h
    else
      let h := h.setPwr .pwrStatusBrownout 1
      if !h.powered then h
      else if h.getF .pwrStatusStage 0 < 11 then h.wipe
      else h.brownoutArrays

/-- BROWNOUT_CLEAR (R313); where start-up has waited for it, order 2 is done and start-up goes on. -/
def execBrownoutClear (tests : StartTests) (s : State) : Host.Outcome State Fault Refusal :=
  s.run fun h =>
    if !h.brownout then h
    else
      let h := (h.setPwr .pwrStatusBrownout 0).brownoutArraysClear
      if h.waitsStart && !h.power.shutdown then (h.setStage 2).startUp tests else h

/-- THERMAL_SHUTDOWN (R491): a junction has reached 120 °C. Both goose outputs go dark with the domains (R463). -/
def execThermalShutdown (rail : Fin 10) (tj : Nat) (s : State) : Host.Outcome State Fault Refusal :=
  s.run fun h =>
    if tj < 120 ∨ h.powered = false then h
    else { h.wipe.setF .pwrRailTj rail.val tj with power := { gooseStart := h.power.gooseStart, shutdown := true } }

/-- THERMAL_RESTART (R491): every junction is below 90 °C, and start-up resumes at order 3. -/
def execThermalRestart (tests : StartTests) (s : State) : Host.Outcome State Fault Refusal :=
  s.run fun h =>
    if !h.power.shutdown then h
    else
      let h := { h with power := { h.power with shutdown := false } }
      if h.brownout then h else h.startUp tests

/-! ### FW_INSTALL (R467, Table 19.7) -/

/-- The bytes of the package: staged through P0's range by the governing MP; in ROM recovery, with no pen in being, from host memory
(DESIGN CHOICE, log entry 40). -/
def Hall.fwSource (h : Hall) (src n : Nat) : Sum Nat Bytes × Hall :=
  if h.governing.isNone then (.inr (h.hostRead src n), h) else h.stageCopy 0 src n

/-- A package that qualifies goes to the inactive slot. -/
def Hall.fwWrite (h : Hall) (b : Bytes) (f : Config.Firmware) : Hall :=
  let x : FwSlot := { svn := f.svn, build := f.build, package := b }
  if h.trust.active = 0 then { h with trust := { h.trust with slot1 := some x } } else { h with trust := { h.trust with slot0 := some x } }

/-- FW_INSTALL. In ROM recovery the MP restarts from the package, and start-up resumes at order 5 (R33). -/
def execFwInstall (till : Fin 128) (tests : StartTests) (s : State) : Host.Outcome State Fault Refusal :=
  s.till till.val 0x0D01 never fun c h =>
    if c.length ≠ 12 then refuse h stBadArg
    else if h.avail.handover.isSome then refuse h stBusy
    else acceptOp h c fun k h =>
      let r := h.fwSource (c.arg 0 8) (c.arg 8 4)
      match r.1 with
      | .inl st => r.2.closeOp k st
      | .inr b => match Config.firmware b with
        | none => r.2.closeOp k stBadArg
        | some f =>
          if !(f.chainOk && f.sigOk) || decide (f.svn < h.trust.rollback) then r.2.closeOp k stVerifyFailed
          else if h.brownout then r.2.closeOp k stInterrupted
          else
            let h := (r.2.fwWrite b f).closeOp k stOK
            if h.governing.isSome then h
            else
              let h := if h.getF .pwrStatusStage 0 = 11 then (h.wipe.powerUp earlyDomains) else h
              h.startMps tests (some (hubOf c.till, 1 - h.trust.active))

end Sys2Proof.Machine
end

