-- ==== Sys2Proof/Machine/MgmtPort.lean ====
section
/-! DEFINITION. The management port (R497–R504): heartbeats, requests and their answers, LOG_MGMT_SET, the fault junctions' held
records (R30). -/

namespace Sys2Proof.Machine

/-! ### What goes out -/

/-- GOOSE_STATUS bits 5:0 (Table 19.9). -/
def Hall.gooseBits (h : Hall) (u : Nat) : Nat :=
  h.getF .gooseStatusHealth u + 2 * h.getF .gooseStatusAlarm u + 4 * h.getF .gooseStatusLiveA u + 8 * h.getF .gooseStatusLiveB u +
    16 * h.getF .gooseStatusStale u + 32 * h.getF .gooseStatusMode u

/-- Content of a HEARTBEAT (Table 21.8). GOV is 0 or 1 for the hub, 255 for none; MODE is 1 in goose mode (DESIGN CHOICE, log
entry 46). -/
def Hall.heartbeat (h : Hall) (hub : Hub) : Bytes :=
  let u := hubNum hub
  let gov := match h.governing with
    | some g => hubNum g
    | none => 255
  beBytes 1 (h.getF .pwrStatusStage u) ++ beBytes 1 gov ++ beBytes 1 (b2n h.avail.gooseMode) ++ beBytes 1 (h.gooseBits u) ++
    beBytes 2 (h.getF .pwrInputVoltsB u) ++ beBytes 2 (h.getF .pwrInputWattsB u) ++ beBytes 2 (h.getF .pwrInputVoltsA u) ++
    beBytes 2 (h.getF .pwrInputWattsA u) ++ beBytes 8 (h.getF .rtcCountTicks u)

/-- MGMT_HEARTBEAT (R499): HB_S seconds of RTC time have passed. -/
def execMgmtHeartbeat (hub : Hub) (s : State) : Host.Outcome State Fault Refusal := s.run fun h => h.mgmtBeatTo hub (h.heartbeat hub)

/-- An Ethernet II frame of the link (R497, R498), MSEQ filled in. -/
def mgmtWire (mac : Nat) (f : MgmtFrame) (mseq : Nat) : Bytes :=
  beBytes 6 f.dest ++ beBytes 6 mac ++ beBytes 2 0x88B5 ++ f.bytes.take 4 ++ beBytes 4 mseq ++ f.bytes.drop 8

/-- MGMT_FRAME_SENT (R500): the frame at the front leaves; one that waits takes its place. An answer carries the request's MSEQ, any
other frame the link's next (Table 21.7). -/
def execMgmtFrameSent (hub : Hub) (s : State) : Host.Outcome State Fault Refusal :=
  s.run fun h =>
    let u := hubNum hub
    let l := h.link hub
    match l.queue with
    | f :: rest =>
      if h.flag .mgmtStatusLink u = false ∨ h.hubLost hub = true then h
      else
        let h := h.emit (.mgmtFrame hub (mgmtWire (h.getF .mgmtMac u) f (f.echo.getD l.mseq)))
        let next := if f.echo.isNone then (l.mseq + 1) % 2 ^ 32 else l.mseq
        (h.updLink hub fun l => ({ l with queue := rest, mseq := next } : MgmtLink).fill).bump .mgmtFramesOut u
    | [] => h

/-- MGMT_LINK_UP (R500): MSEQ starts at 0, and the link resumes with a HEARTBEAT. -/
def execMgmtLinkUp (hub : Hub) (s : State) : Host.Outcome State Fault Refusal :=
  s.run fun h =>
    let u := hubNum hub
    if h.flag .mgmtStatusLink u ∨ h.hubLost hub = true then h
    else
      let h := (h.setF .mgmtStatusLink u 1).updLink hub fun l => { l with mseq := 0 }
      h.mgmtBeatTo hub (h.heartbeat hub)

/-- MGMT_LINK_DOWN (R500): nothing is queued while a link is down. -/
def execMgmtLinkDown (hub : Hub) (s : State) : Host.Outcome State Fault Refusal :=
  s.run fun h => (h.setF .mgmtStatusLink (hubNum hub) 0).updLink hub fun l => { l with queue := [], waiting := [] }

/-! ### What comes in -/

/-- A received frame, cut up (R497, R498). -/
structure MgmtIn where
  src : Nat
  typ : Nat
  len : Nat
  mseq : Nat
  offset : Nat
  total : Nat
  content : Bytes
deriving DecidableEq, Repr

/-- A frame for the module on a link in service; one with another EtherType, or addressed to neither MGMT_MAC nor broadcast, is
ignored (R497). -/
def Hall.mgmtTakes (h : Hall) (hub : Hub) (f : Bytes) : Option MgmtIn :=
  let dst := beAt f 0 6
  if !h.linkOn hub || decide (f.length < 46) || decide (beAt f 12 2 ≠ 0x88B5) || !(decide (dst = h.getF .mgmtMac (hubNum hub)) || decide (dst = 2 ^ 48 - 1)) then none
  else
    let p := f.drop 14
    some { src := beAt f 6 6, typ := beAt p 1 1, len := beAt p 2 2, mseq := beAt p 4 4, offset := beAt p 20 4, total := beAt p 24 4
           content := slice p 32 (beAt p 2 2) }

/-- Malformed requests (R499): another TYPE, OFFSET or TOTAL not zero; and, as they cannot be read, a content of another length and a
MAX outside 1 to 64 (DESIGN CHOICE, log entry 46). -/
def MgmtIn.bad (m : MgmtIn) : Bool :=
  decide (m.offset ≠ 0) || decide (m.total ≠ 0) || !(match m.typ with
    | 0x10 => decide (m.len = 6) && decide (1 ≤ beAt m.content 4 2) && decide (beAt m.content 4 2 ≤ 64)
    | 0x11 => decide (m.len = 32)
    | _ => false)

/-- A well-formed request is answered while REQ is set and the second's 16 answers are not used up (R501). -/
def Hall.mgmtAnswer (h : Hall) (hub : Hub) (f : Hall → Hall) : Hall :=
  let u := hubNum hub
  let h := h.bump .mgmtFramesIn u
  let now := h.getF .rtcCountTicks u / 32768
  let used := if (h.link hub).second = now then (h.link hub).answered else 0
  if h.flag .mgmtCfgReq u ∧ used < 16 then f (h.updLink hub fun l => { l with second := now, answered := used + 1 })
  else h.bump .mgmtReqDropped u

/-- A request of one TYPE that the link takes. -/
def Hall.mgmtRequest (h : Hall) (hub : Hub) (frame : Bytes) (typ : Nat) : Option MgmtIn :=
  (h.mgmtTakes hub frame).filter fun m => m.typ = typ && !m.bad

/-- RESEND (R501): held records from FROM_SEQ onwards, at most MAX, in SEQ order, one content each. -/
def execResend (hub : Hub) (frame : Bytes) (s : State) : Host.Outcome State Fault Refusal :=
  s.run fun h => match h.mgmtRequest hub frame 0x10 with
    | none => h
    | some m => h.mgmtAnswer hub fun h =>
      let start := beAt m.content 0 4
      let l := (h.heldRecords.filter fun r => decide ((r.seq + 2 ^ 32 - start) % 2 ^ 32 < 2 ^ 31)).take (beAt m.content 4 2)
      l.foldl (fun h r => h.mgmtHold hub (mgmtFrames hub mgSignature m.src (some m.mseq) r.signed)) h

/-- ATTEST (R435, R501): one signed report, secure view. -/
def execAttest (hub : Hub) (frame : Bytes) (s : State) : Host.Outcome State Fault Refusal :=
  s.run fun h => match h.mgmtRequest hub frame 0x11 with
    | none => h
    | some m => h.mgmtAnswer hub fun h =>
      let r := h.coseSign (h.report m.content none)
      r.2.mgmtHold hub (mgmtFrames hub mgReport m.src (some m.mseq) r.1)

/-- MGMT_MALFORMED_REQUEST (R499). -/
def execMgmtMalformedRequest (hub : Hub) (frame : Bytes) (s : State) : Host.Outcome State Fault Refusal :=
  s.run fun h => match h.mgmtTakes hub frame with
    | some m => if m.bad then (h.bump .mgmtFramesIn (hubNum hub)).bump .mgmtBadIn (hubNum hub) else h
    | none => h

/-! ### Configuration (R503, R504) -/

/-- LOG_MGMT_SET (R503): DEST is in the order in which a MAC address is sent (DESIGN CHOICE, log entry 46). -/
def execLogMgmtSet (till : Fin 128) (s : State) : Host.Outcome State Fault Refusal :=
  s.till till.val 0x0C02 never fun c h =>
    let hb := c.arg 3 1
    if c.length ≠ 10 ∨ 1 < c.arg 0 1 ∨ 1 < c.arg 1 1 ∨ 1 < c.arg 2 1 ∨ hb = 0 ∨ 60 < hb then refuse h stBadArg
    else
      let dest := beAt c.payload 4 6
      let h := upTo 2 h fun h u => h.setFs u [(.mgmtCfgEnable, c.arg 0 1), (.mgmtCfgReq, c.arg 1 1), (.mgmtCfgEvents, c.arg 2 1), (.mgmtCfgHbS, hb), (.mgmtDestMac, dest)]
      okWith { h with mgmt := { h.mgmt with cfgRecord := some (hb * 2 ^ 24 + 4 * c.arg 2 1 + 2 * c.arg 1 1 + c.arg 0 1, dest) } }

/-- MGMT_CLEAR.STATS (R504). -/
def execMgmtClearStats (req : Requester) (hub : Hub) (s : State) : Host.Outcome State Fault Refusal :=
  s.board req fun h => h.clearCtrs (hubNum hub) [.mgmtFramesOut, .mgmtFramesIn, .mgmtTxDropped, .mgmtReqDropped, .mgmtBadIn]

/-! ### Held urgent records (R30) -/

/-- A slot of the urgent class has freed: the oldest held record takes it. Jenig has taken the oldest record of a full class (DESIGN
CHOICE, log entry 46). -/
def Junction.release (j : Junction) : Junction :=
  match j.held with
  | [] => j
  | r :: rest => { j with urgent := (if j.urgent.length < 256 then j.urgent else j.urgent.drop 1) ++ [r], held := rest }

/-- FJ_HELD_RELEASE (R30). -/
def execFjHeldRelease (hub : Hub) (s : State) : Host.Outcome State Fault Refusal :=
  s.run fun h => match hub with
    | .a => { h with junctionA := h.junctionA.release }
    | .b => { h with junctionB := h.junctionB.release }

end Sys2Proof.Machine
end

