-- ==== Sys2Proof/Machine/HostLink.lean ====
section
/-! DEFINITION. What comes in by the host ports: doorbells and indices (R58, R72–R75), register writes (R10, R53, R486), the secure
aperture (R54), the links themselves (R46, R77), failed reads (R48), and IDE with its SPDM responder (R437, R438). -/

namespace Sys2Proof.Machine

/-! ### Whether an access arrives, and whose it is -/

/-- The port's link is up and its hub there. -/
def Hall.portUp (h : Hall) (p : Hub) : Bool := h.flag .pciLinkStatusUp (hubNum p) && !h.hubLost p

/-- Later TLPs are refused: an IDE check has failed, or the port requires a secure stream and has none (R438). -/
def Hall.ideRefuses (h : Hall) (p : Hub) : Bool := (h.port p).ide.failed || ((h.port p).ide.required && !(h.port p).ide.secure)

/-- A TLP of memory space that arrives at a port and is not refused. -/
def Hall.tlpOk (h : Hall) (p : Hub) : Bool := h.portUp p && !h.ideRefuses p

/-- An access counted and reported under R53. -/
def Hall.denied (h : Hall) (p : Hub) : Hall := (h.bump .pciDeniedCount (hubNum p)).emit (.aerAdvisory p)

/-- Function number of a function, for WAT_DENY_LAST: 0 PF0, 1 PF1, 1 + k virtual function k (DESIGN CHOICE, log entry 22). -/
def fnNum : Fn → Nat
  | .pf0 => 0
  | .pf1 => 1
  | .vf k => 1 + k

def Hall.ownsTill (h : Hall) (fn : Fn) (t : Nat) : Bool := fn = .pf0 || h.tillFn t = fn

/-- The function that a queue belongs to: that of its pen, or of its world for a module event queue. -/
def Hall.queFn (h : Hall) (p : Hub) (q : Nat) : Option Fn :=
  match (h.que q).qrec with
  | some r => some (if r.pen = 255 then (if r.secure then .pf0 else .pf1) else h.penFn p r.pen)
  | none => (h.que q).grant.map fun k => h.penFn p k

def Hall.ownsQue (h : Hall) (p : Hub) (fn : Fn) (q : Nat) : Bool := fn = .pf0 || h.queFn p q = some fn

/-- A refused access of a slot (R53); where the slot's entry is secure, the world table refuses it as well (R425). -/
def Hall.slotDenied (h : Hall) (p : Hub) (fn : Fn) (kind idx : Nat) (write : Bool) : Hall :=
  (if h.secureEntry kind idx then h.watDeny kind idx 2 (fnNum fn) write else h).denied p

/-! ### Tills (R53, R58) -/

/-- TILL_GO (R58): the host's stores, then the write of the till's content and of GO. -/
def execTillGo (port : Hub) (fn : Fn) (till : Fin 128) (content : Bytes) (stores : List HostStore) (s : State) : Host.Outcome State Fault Refusal :=
  s.run fun h =>
    let t := till.val
    let h := h.hostStores stores
    if !h.tlpOk port || h.hubLost (hubOf t) then h
    else if !h.ownsTill fn t then h.slotDenied port fn 1 t true
    else if h.getF .tillState t = 1 ∨ h.getF .tillState t = 2 then h.setF .tillStateOverrun t 1
    else (h.writeBytes (tillBase t) (content.take 0xFC0)).setF .tillState t 1

/-- TILL_OVERRUN_CLEAR (R58). -/
def execTillOverrunClear (port : Hub) (fn : Fn) (till : Fin 128) (s : State) : Host.Outcome State Fault Refusal :=
  s.run fun h =>
    if !h.tlpOk port || h.hubLost (hubOf till.val) then h
    else if h.ownsTill fn till.val then h.setF .tillStateOverrun till.val 0
    else h.slotDenied port fn 1 till.val true

/-- TILL_BAD_OPCODE (R59, R60): the governing MP takes a command that no family defines. -/
def execTillBadOpcode (till : Fin 128) (s : State) : Host.Outcome State Fault Refusal :=
  s.run fun h => h.tillRun till.val (fun o => (opRow o).isNone) never never fun _ h => refuse h stBadOpcode

def slotOwned (h : Hall) (p : Hub) (fn : Fn) : SlotRef → Bool
  | .till t => h.ownsTill fn t.val
  | .queue q => h.ownsQue p fn q.val

def slotKind : SlotRef → Nat × Nat
  | .till t => (1, t.val)
  | .queue q => (2, q.val)

/-- FOREIGN_SLOT_ACCESS (R53): a read completes with Unsupported Request, a write is discarded. -/
def execForeignSlotAccess (port : Hub) (fn : Fn) (slot : SlotRef) (op : AccessOp) (s : State) : Host.Outcome State Fault Refusal :=
  s.run fun h =>
    if !h.portUp port || slotOwned h port fn slot then h
    else if h.ideRefuses port then match op with
      | .read _ => h.emit (.completion port .unsupportedRequest)
      | .write _ => h
    else match op with
      | .read _ => (h.slotDenied port fn (slotKind slot).1 (slotKind slot).2 false).emit (.completion port .unsupportedRequest)
      | .write _ => (h.slotDenied port fn (slotKind slot).1 (slotKind slot).2 true).emit (.completion port .discarded)

/-! ### Read-clear registers -/

/-- The word of a counter that a read clears: SAT in bit 31, COUNT below it. -/
def Hall.rcWord (h : Hall) (c : Ctr) (u : Nat) : Bytes := leBytes 4 (h.getF (.count c) u + 2 ^ 31 * h.getF (.sat c) u)

/-- PCI_DENIED_COUNT_READ, by PF0 through the port whose register it is. -/
def execPciDeniedCountRead (port : Hub) (s : State) : Host.Outcome State Fault Refusal :=
  s.run fun h =>
    let u := hubNum port
    if !h.portUp port then h
    else if h.ideRefuses port then h.emit (.completion port .unsupportedRequest)
    else (h.emit (.completion port (.data (h.rcWord .pciDeniedCount u)))).clearCtr u .pciDeniedCount

/-- QUE_DROP_READ (R53, R75). -/
def execQueDropRead (port : Hub) (fn : Fn) (queue : Fin 16384) (s : State) : Host.Outcome State Fault Refusal :=
  s.run fun h =>
    let q := queue.val
    if !h.portUp port || h.hubLost (hubOf q) then h
    else if h.ideRefuses port then h.emit (.completion port .unsupportedRequest)
    else if !h.ownsQue port fn q then (h.slotDenied port fn 2 q false).emit (.completion port .unsupportedRequest)
    else (h.emit (.completion port (.data (h.rcWord .queDrop q)))).clearCtr q .queDrop

/-! ### Queue indices (R72–R74) -/

def Hall.dbReject (h : Hall) (q : Nat) : Hall := h.setF .queStatusDbReject q 1

/-- A producer index that R72 accepts. -/
def Hall.prodOk (h : Hall) (q : Nat) (r : QueRec) (v : Nat) : Bool :=
  let n := (v + queSize r - h.getF .queCons q) % queSize r
  decide (v < queSize r) && decide (h.queCount q ≤ n)

/-- A consumer index that R73 accepts: it does not pass the producer index. -/
def Hall.consOk (h : Hall) (q : Nat) (r : QueRec) (v : Nat) : Bool :=
  decide (v < queSize r) && decide ((v + queSize r - h.getF .queCons q) % queSize r ≤ h.queCount q)

/-- The pen of a queue is being reset: its doorbells are ignored (Table 19.2). -/
def Hall.queResetting (h : Hall) (r : QueRec) : Bool :=
  decide (r.pen < 32) && decide ((h.pen r.pen).state = .resetting) && decide (((h.pen r.pen).reset.map fun x => x.half) = some 0)

/-- QUE_PROD (R72, R74, R78): the host's stores, then the index. -/
def execQueProd (port : Hub) (fn : Fn) (queue : Fin 16384) (value : Nat) (stores : List HostStore) (s : State) : Host.Outcome State Fault Refusal :=
  s.run fun h =>
    let q := queue.val
    let v := value % 65536
    let h := h.hostStores stores
    if !h.tlpOk port || h.hubLost (hubOf q) then h
    else if !h.ownsQue port fn q then h.slotDenied port fn 2 q true
    else match (h.que q).qrec with
    | none => h.dbReject q
    | some r =>
      if h.queResetting r then h
      else if !h.flag .queStatusEnabled q then h.dbReject q
      else if r.typ ≠ 0 then h
      else if h.prodOk q r v then (h.setF .queProd q v).queFlags q
      else h.dbReject q

/-- QUE_CONS (R73–R75): slots come free, and what is held for an EVT queue is written. -/
def execQueCons (port : Hub) (fn : Fn) (queue : Fin 16384) (value : Nat) (s : State) : Host.Outcome State Fault Refusal :=
  s.run fun h =>
    let q := queue.val
    let v := value % 65536
    if !h.tlpOk port || h.hubLost (hubOf q) then h
    else if !h.ownsQue port fn q then h.slotDenied port fn 2 q true
    else match (h.que q).qrec with
    | none => h.dbReject q
    | some r =>
      if h.queResetting r then h
      else if !h.flag .queStatusEnabled q then h.dbReject q
      else if r.typ = 0 ∨ r.typ = 3 then h
      else if h.consOk q r v then
        let h := (h.setF .queCons q v).queFlags q
        if r.typ = 2 then h.evtDrain q 257 else h
      else h.dbReject q

/-- DB_REJECT_CLEAR. -/
def execDbRejectClear (port : Hub) (fn : Fn) (queue : Fin 16384) (s : State) : Host.Outcome State Fault Refusal :=
  s.run fun h =>
    let q := queue.val
    if !h.tlpOk port || h.hubLost (hubOf q) then h
    else if h.ownsQue port fn q then h.setF .queStatusDbReject q 0
    else h.slotDenied port fn 2 q true

/-! ### Register writes (R10, R12) -/

/-- The bits of a field after a write of the bytes given from offset `o` of a block to its register at offset `reg`: bits in bytes
that the write does not cover keep what they hold. -/
def mergeField (old hi lo reg o : Nat) (data : Bytes) : Nat :=
  (List.range (hi + 1 - lo)).foldl (fun v i =>
    let b := reg + (lo + i) / 8
    let on := if o ≤ b ∧ b < o + data.length then bit (data.getD (b - o) 0).toNat ((lo + i) % 8) else bit old i
    if on then v + 2 ^ i else v) 0

/-- Fields whose writes are commands of their own; a REGISTER_WRITE leaves them. -/
def ownCommand : Fld → Bool
  | .queProd => true
  | .queCons => true
  | .brwChCtrlEnable => true
  | _ => false

/-- Who may write a field: PF0 alone the aperture's base (Table 2.8), a till's function its vector, the governing MP what stands
behind the switchboard (R32). -/
def Hall.mayWrite (h : Hall) (req : Requester) (f : Fld) (u : Nat) : Bool :=
  match f, req with
  | .pciApertureBase, .host _ fn => fn = .pf0
  | .pciApertureBase, .mp _ => false
  | .tillCfgVector, .host _ fn => h.ownsTill fn u
  | _, _ => h.accepts req

/-- TALLY_STALL's RW fields as one word (Table 9.18). -/
def Hall.tallyStallWord (h : Hall) (i : Nat) : Nat :=
  match Tab.find (h.tally (i / 16)).stallDue i with
  | some v => v
  | none => h.getF .tallyStallState i * 2 ^ 61 + h.getF .tallyStallRole i * 2 ^ 58 + h.getF .tallyStallStrikes i * 2 ^ 56 + h.getF .tallyStallFOvr i * 2 ^ 52

def Hall.mmuCfgWord (h : Hall) (u : Nat) : Nat :=
  match (Tab.get {} h.tiers.mmuDue u : MmuDue).cfg with
  | some v => v
  | none => h.getF .mmuCfgCeThresh u * 2 ^ 16 + h.getF .mmuCfgLateDefault u

/-- A word with one field replaced. -/
def putBits (w hi lo v : Nat) : Nat := w - bits w hi lo * 2 ^ lo + v % 2 ^ (hi + 1 - lo) * 2 ^ lo

/-- What a field holds for a write: the value due where a write waits for its moment. -/
def Hall.dueField (h : Hall) (f : Fld) (u : Nat) : Nat :=
  match f with
  | .tallyStallState => bits (h.tallyStallWord u) 63 61
  | .tallyStallRole => bits (h.tallyStallWord u) 60 58
  | .tallyStallStrikes => bits (h.tallyStallWord u) 57 56
  | .tallyStallFOvr => bits (h.tallyStallWord u) 54 52
  | .mmuCfgCeThresh => bits (h.mmuCfgWord u) 31 16
  | .mmuCfgLateDefault => bits (h.mmuCfgWord u) 15 0
  | .ledgerCfgMaxReplay => (h.ledger u).cfgDue.getD (h.getF f u)
  | _ => h.getF f u

/-- A value of a power field that R473, R474, R478 and Table 20.1 allow; any other write of it is discarded. -/
def Hall.powerOk (h : Hall) (f : Fld) (u v : Nat) : Bool :=
  let x := domainOf u
  match f with
  | .pwrDomForce => (decide (v ≠ 2) || x.has 1) && (decide (v ≠ 3) || x.has 0) && !(x.ofP0 && decide (2 ≤ v))
  | .pwrDomRetTicks => v = 0 || (x.has 1 && !x.ofP0)
  | .pwrDomOffTicks => v = 0 || (!x.ofP0 && h.offAllowed x)
  | .pwrRailSet => decide ((if u = 0 ∨ u = 4 ∨ 8 ≤ u then 680 else 600) ≤ v) && decide (v ≤ 900) && decide (v % 10 = 0)
  | _ => true

/-- Sets a field at the moment that its chapter gives (R223, R253, R275, R486). -/
def Hall.writeField (h : Hall) (f : Fld) (u v : Nat) : Hall :=
  let due := fun (hi lo : Nat) => h.updTally (u / 16) fun t => { t with stallDue := Tab.set t.stallDue u (putBits (h.tallyStallWord u) hi lo v) }
  match f with
  | .tallyStallState => due 63 61
  | .tallyStallRole => due 60 58
  | .tallyStallStrikes => due 57 56
  | .tallyStallFOvr => due 54 52
  | .mmuCfgCeThresh => h.mmuDue u fun d => { d with cfg := some (putBits (h.mmuCfgWord u) 31 16 v) }
  | .mmuCfgLateDefault => h.mmuDue u fun d => { d with cfg := some (putBits (h.mmuCfgWord u) 15 0 v) }
  | .ledgerCfgMaxReplay => h.updLedger u fun l => { l with cfgDue := some v }
  | .pwrCapWatts => h.setPwr f v
  | _ => if h.powerOk f u v then h.setF f u v else h

/-- One field of a register write: RW and RWS fields take the value; RO, RC and reserved bits take nothing, and WO and W1C fields
have commands of their own (Table 0.6). -/
def Hall.regField (h : Hall) (req : Requester) (k o : Nat) (data : Bytes) (e : Fld × Nat) : Hall :=
  let f := e.1
  let u := f.unitIn k e.2
  let r := f.info
  if !(r.acc = .rw || r.acc = .rws) || ownCommand f || !h.mayWrite req f u then h
  else h.writeField f u (mergeField (h.dueField f u) r.hi r.lo (r.off + r.stride * e.2) o data)

/-- A write of bytes at a place in a block: a till's header and payload outside POSTED and RUNNING (R58), register fields elsewhere. -/
def Hall.blockWrite (h : Hall) (req : Requester) (b : Blk × Nat × Nat) (data : Bytes) : Hall :=
  let (blk, k, o) := b
  if blk = .till ∧ o < 0xFC0 then
    if h.getF .tillState k = 1 ∨ h.getF .tillState k = 2 then h else h.writeBytes (tillBase k + o) (data.take (0xFC0 - o))
  else (fieldsIn blk o data.length).foldl (fun h e => h.regField req k o data e) h

/-- REGISTER_WRITE at a physical register address (R10, R53, R55). -/
def execRegisterWrite (req : Requester) (addr : Nat) (data : Bytes) (s : State) : Host.Outcome State Fault Refusal :=
  s.run fun h =>
    match regBlockAt (h.region addr) with
    | none => match req with
      | .host p .pf0 => if h.tlpOk p then h.ordinary .busError addr else h
      | .mp _ => h.ordinary .busError addr
      | _ => h
    | some b => match req with
      | .mp _ => h.blockWrite req b data
      | .host p fn =>
        if !h.tlpOk p then h
        else if fn = .pf0 then h.blockWrite req b data
        else match b.1 with
          | .till => if h.ownsTill fn b.2.1 then h.blockWrite req b data else h.slotDenied p fn 1 b.2.1 true
          | .que => if h.ownsQue p fn b.2.1 then h.blockWrite req b data else h.slotDenied p fn 2 b.2.1 true
          | _ => h

/-! ### The secure aperture (R54) -/

/-- Fields that a read clears (Table 0.6). -/
def Hall.readClears (h : Hall) (b : Blk × Nat × Nat) (n : Nat) : Hall :=
  (fieldsIn b.1 b.2.2 n).foldl (fun h e => if e.1.info.acc = .rc then h.setF e.1 (e.1.unitIn b.2.1 e.2) 0 else h) h

/-- An aperture read completes: data, or Completer Abort with a record for a bus error. -/
def Hall.apertureRead (h : Hall) (p : Hub) (a n : Nat) : Hall :=
  let bad := fun (h : Hall) => (h.ordinary .busError a).emit (.completion p .completerAbort)
  let ok := fun (h : Hall) (bs : Bytes) => h.emit (.completion p (.data bs))
  if h.region (a + n - 1) = .outside then bad h
  else match h.region a with
  | .t1 _ => ok h (h.readBytes a n)
  | .t0 _ _ => ok h (h.readBytes a n)
  | .t2 r o => match h.nvRaw r (h.nvPhys r (o / nvBlockBytes)) o n with
    | (.data x, h) => ok h (x.map fun (y : PByte) => y.b)
    | (.poisoned x _, h) => ok h (x.map fun (y : PByte) => y.b)
    | (.wait, h) => h
  | .t3 _ _ =>
    let r := h.draw n
    ok r.2 r.1
  | .outside => bad h
  | g => match regBlockAt g with
    | some b => (ok h (h.blockRead b n)).readClears b n
    | none => bad h

/-- An aperture write: one that ends as a bus error is discarded with a record. The array windows take command cycles of the MPs
only (R305), and the neighbour windows are read-only. -/
def Hall.apertureWrite (h : Hall) (p : Hub) (a : Nat) (data : Bytes) : Hall :=
  let bad := fun (h : Hall) => (h.ordinary .busError a).emit (.completion p .discarded)
  if h.region (a + data.length - 1) = .outside then bad h
  else match h.region a with
  | .t1 _ => h.writeBytes a data
  | .t0 _ _ => h.writeBytes a data
  | .t2 r _ => h.bump .nvmcUnlockErr r
  | .t3 _ _ => bad h
  | .outside => bad h
  | g => match regBlockAt g with
    | some b => h.blockWrite (.host p .pf0) b data
    | none => bad h

/-- APERTURE_ACCESS (R54): PF0 BAR4, 4 GiB from PCI_APERTURE.BASE × 2³². -/
def execApertureAccess (port : Hub) (offset : Nat) (op : AccessOp) (s : State) : Host.Outcome State Fault Refusal :=
  s.run fun h =>
    let a := h.getF .pciApertureBase (hubNum port) * 2 ^ 32 + offset % 2 ^ 32
    if !h.portUp port then h
    else if h.ideRefuses port then match op with
      | .read _ => h.emit (.completion port .unsupportedRequest)
      | .write _ => h
    else match op with
      | .read n => h.apertureRead port a n
      | .write data => h.apertureWrite port a data

/-! ### Links (R46, R77) and failed reads (R48) -/

/-- HOST_LINK_UP: rate code and width of Table 2.7. -/
def execHostLinkUp (port : Hub) (rate width : Nat) (s : State) : Host.Outcome State Fault Refusal :=
  s.run fun h =>
    let u := hubNum port
    if h.flag .pciLinkStatusUp u ∨ h.hubLost port = true ∨ h.domState (hubDomain port 2) ≠ 2 ∨ rate = 0 ∨ 5 < rate ∨ ¬ width ∈ [1, 2, 4, 8] then h
    else h.setFs u [(.pciLinkStatusUp, 1), (.pciLinkStatusRate, rate), (.pciLinkStatusWidth, width), (.pciLinkStatusDegraded, b2n (decide (rate < 3) || decide (width < 8)))]

/-- HOST_LINK_DOWN: DOWN_COUNT sticks at 0xFFFF (R13). An IDE stream that was secure ends with its link (PRESUMED from PCI Express). -/
def execHostLinkDown (port : Hub) (s : State) : Host.Outcome State Fault Refusal :=
  s.run fun h =>
    let u := hubNum port
    let n := h.getF .pciLinkStatusDownCount u
    if h.flag .pciLinkStatusUp u = false then h
    else
      let h := h.setFs u [(.pciLinkStatusUp, 0), (.pciLinkStatusRate, 0), (.pciLinkStatusWidth, 0), (.pciLinkStatusDegraded, 0), (.pciLinkStatusDownCount, min 0xFFFF (n + 1))]
      let h := if 0xFFFF ≤ n + 1 then h.setF .pciLinkStatusDownSat u 1 else h
      h.updPort port fun x => { x with ide := { x.ide with secure := false, active := none } }

/-- HOST_READ_FAILED (R48): the request ends POISONED, or the till's command with NO_RESOURCE. -/
def execHostReadFailed (victim : HostReadVictim) (s : State) : Host.Outcome State Fault Refusal :=
  s.run fun h => match victim with
    | .request token => if (h.req token).isSome then h.setStatus token stPoisoned else h
    | .till t => h.tillRun t.val (fun o => (opRow o).isSome) never never fun _ h => refuse h stNoResource

/-! ### IDE (R438) -/

/-- IDE_CHECK_FAIL: the stream enters Insecure, and AER reports an uncorrectable error. -/
def execIdeCheckFail (port : Hub) (s : State) : Host.Outcome State Fault Refusal :=
  s.run fun h =>
    if !h.portUp port || !(h.port port).ide.secure then h
    else (h.updPort port fun x => { x with ide := { x.ide with secure := false, active := none, failed := true } }).emit (.aerUncorrectable port)

/-! ### The SPDM responder (R437, Table 18.7) -/

/-- One request: its code stands in byte 1 (DSP0274). In order and well formed, it is answered and `step` moves the responder on; otherwise
an ERROR is answered and nothing moves. What the messages hold beyond that the cited standard gives (log entry 9). -/
def Hall.spdm (h : Hall) (p : Hub) (code : Nat) (request : Bytes) (inOrder : Spdm → Bool) (step : Spdm → Spdm) : Hall :=
  let x := (h.port p).spdm
  if !h.portUp p || decide (leAt request 1 1 ≠ code) then h
  else if inOrder x && Config.spdmAccepts code x.transcript request then
    let answer := Config.spdmAnswer code x.transcript request (Config.chain0, h.trust.chain1) h.freeCtr
    let h : Hall := { h with freeCtr := h.freeCtr + 1 }
    let y := step { x with transcript := if code = 0x84 then request ++ answer else x.transcript ++ request ++ answer }
    (h.updPort p fun z => { z with spdm := y }).emit (.doe p answer)
  else h.emit (.doe p (Config.spdmError request))

def execGetVersion (port : Hub) (request : Bytes) (s : State) : Host.Outcome State Fault Refusal :=
  s.run fun h => h.spdm port 0x84 request (fun _ => true) fun x => { versioned := true, transcript := x.transcript }
def execGetCapabilities (port : Hub) (request : Bytes) (s : State) : Host.Outcome State Fault Refusal :=
  s.run fun h => h.spdm port 0xE1 request (fun x => x.versioned) fun x => { x with capable := true }
def execNegotiateAlgorithms (port : Hub) (request : Bytes) (s : State) : Host.Outcome State Fault Refusal :=
  s.run fun h => h.spdm port 0xE3 request (fun x => x.capable) fun x => { x with negotiated := true }
def execGetDigests (port : Hub) (request : Bytes) (s : State) : Host.Outcome State Fault Refusal :=
  s.run fun h => h.spdm port 0x81 request (fun x => x.negotiated) id
def execGetCertificate (port : Hub) (request : Bytes) (s : State) : Host.Outcome State Fault Refusal :=
  s.run fun h => h.spdm port 0x82 request (fun x => x.negotiated) id
def execChallengeSpdm (port : Hub) (request : Bytes) (s : State) : Host.Outcome State Fault Refusal :=
  s.run fun h => h.spdm port 0x83 request (fun x => x.negotiated) id
def execKeyExchange (port : Hub) (request : Bytes) (s : State) : Host.Outcome State Fault Refusal :=
  s.run fun h => h.spdm port 0xE4 request (fun x => x.negotiated && !x.session) fun x => { x with exchanged := true }
def execFinish (port : Hub) (request : Bytes) (s : State) : Host.Outcome State Fault Refusal :=
  s.run fun h => h.spdm port 0xE5 request (fun x => x.exchanged) fun x => { x with exchanged := false, session := true, keyGen := 0 }
def execKeyUpdate (port : Hub) (request : Bytes) (s : State) : Host.Outcome State Fault Refusal :=
  s.run fun h => h.spdm port 0xE9 request (fun x => x.session) fun x => { x with keyGen := x.keyGen + 1 }
def execEndSession (port : Hub) (request : Bytes) (s : State) : Host.Outcome State Fault Refusal :=
  s.run fun h => h.spdm port 0xEC request (fun x => x.session) fun x => { x with session := false, keyGen := 0 }

/-! ### IDE key management (R437, R438) -/

/-- An object of IDE key management (PCI Express; PRESUMED, log entry 9): byte 1 its kind, byte 4 the stream, byte 6 the key set in bit 0 and
direction and sub-stream above it, byte 7 the port index. -/
def ideSet (r : Bytes) : Nat := leAt r 6 1 % 2

/-- An object of a kind, carried by the SPDM session (Table 18.7). -/
def Hall.ideKm (h : Hall) (p : Hub) (kind : Nat) (request : Bytes) (f : Hall → Hall) : Hall :=
  if !h.portUp p || !(h.port p).spdm.session || decide (leAt request 1 1 ≠ kind) then h else f h

/-- An acknowledgement: KP_ACK (3) with a status, or K_GOSTOP_ACK (6). -/
def ideAck (kind status : Nat) (r : Bytes) : Bytes :=
  leBytes 1 0 ++ leBytes 1 kind ++ leBytes 2 0 ++ leBytes 1 (leAt r 4 1) ++ leBytes 1 status ++ leBytes 1 (leAt r 6 1) ++ leBytes 1 (leAt r 7 1)

def execIdeKmQuery (port : Hub) (request : Bytes) (s : State) : Host.Outcome State Fault Refusal :=
  s.run fun h => h.ideKm port 0 request fun h => h.emit (.doe port (Config.ideQueryResp (hubNum port) request))

/-- KEY_PROG: key and initialisation vector of one direction and sub-stream of a key set. -/
def execKeyProg (port : Hub) (request : Bytes) (s : State) : Host.Outcome State Fault Refusal :=
  s.run fun h => h.ideKm port 2 request fun h =>
    if request.length ≠ 48 then h.emit (.doe port (ideAck 3 1 request))
    else if leAt request 7 1 ≠ 0 then h.emit (.doe port (ideAck 3 2 request))
    else
      (h.updPort port fun x => { x with ide := { x.ide with keySets := Tab.set x.ide.keySets (leAt request 6 1) (request.drop 8) } }).emit (.doe port (ideAck 3 0 request))

/-- K_SET_GO: a programmed key set starts, and the stream is secure. -/
def execKSetGo (port : Hub) (request : Bytes) (s : State) : Host.Outcome State Fault Refusal :=
  s.run fun h => h.ideKm port 4 request fun h =>
    let n := ideSet request
    let h := if (Tab.find (h.port port).ide.keySets (leAt request 6 1)).isSome then
        h.updPort port fun x => { x with ide := { x.ide with secure := true, failed := false, active := some n } }
      else h
    h.emit (.doe port (ideAck 6 0 request))

/-- K_SET_STOP: the key set is gone; the stream it carried is Insecure. -/
def execKSetStop (port : Hub) (request : Bytes) (s : State) : Host.Outcome State Fault Refusal :=
  s.run fun h => h.ideKm port 5 request fun h =>
    let n := ideSet request
    (h.updPort port fun x => { x with ide :=
      { x.ide with keySets := Tab.keep (fun k _ => decide (k % 2 ≠ n)) x.ide.keySets
                   secure := x.ide.secure && decide (x.ide.active ≠ some n)
                   active := if x.ide.active = some n then none else x.ide.active } }).emit (.doe port (ideAck 6 0 request))

/-! ### NVMC_CLEAR (R319) -/

/-- NVMC_CLEAR.LAST. -/
def execNvmcClearLast (req : Requester) (row : Fin 8) (s : State) : Host.Outcome State Fault Refusal :=
  s.board req fun h => h.clearFs row.val [.nvmcLastCmdValid, .nvmcLastCmdResult, .nvmcLastCmd, .nvmcLastCmdBank]

/-- The counters of NVMC_ (Table 12.15). -/
def nvmcCounters : List Ctr :=
  [.nvmcPageReads, .nvmcMirrorReads, .nvmcInternalFail, .nvmcPrograms, .nvmcErases, .nvmcSuspends, .nvmcInterrupted, .nvmcUnlockErr,
   .nvmcRefused, .nvmcScrubPages, .nvmcRelocations, .nvmcMirrorDiff, .nvmcSuspendedReads]

/-- NVMC_CLEAR.STATS. -/
def execNvmcClearStats (req : Requester) (row : Fin 8) (s : State) : Host.Outcome State Fault Refusal :=
  s.board req fun h => h.clearCtrs row.val nvmcCounters

end Sys2Proof.Machine
end

