-- ==== Sys2Proof/Machine/Dispatch.lean ====
section
/-! DEFINITION. The dispatch: one arm per command, each one direct call of its meaning. -/

namespace Sys2Proof.Machine

/-- The effect of a command on everything but the queue. -/
def exec (i : Instr) (s : State) : Host.Outcome State Fault Refusal :=
  match i with
  | .tillGo port fn till content stores => Sys2Proof.Machine.execTillGo port fn till content stores s
  | .tillOverrunClear port fn till => Sys2Proof.Machine.execTillOverrunClear port fn till s
  | .registerWrite req addr data => Sys2Proof.Machine.execRegisterWrite req addr data s
  | .foreignSlotAccess port fn slot op => Sys2Proof.Machine.execForeignSlotAccess port fn slot op s
  | .pciDeniedCountRead port => Sys2Proof.Machine.execPciDeniedCountRead port s
  | .apertureAccess port offset op => Sys2Proof.Machine.execApertureAccess port offset op s
  | .pciFlr port fn => Sys2Proof.Machine.execPciFlr port fn s
  | .vfEnableClear port => Sys2Proof.Machine.execVfEnableClear port s
  | .hostReadFailed victim => Sys2Proof.Machine.execHostReadFailed victim s
  | .ideCheckFail port => Sys2Proof.Machine.execIdeCheckFail port s
  | .getVersion port request => Sys2Proof.Machine.execGetVersion port request s
  | .getCapabilities port request => Sys2Proof.Machine.execGetCapabilities port request s
  | .negotiateAlgorithms port request => Sys2Proof.Machine.execNegotiateAlgorithms port request s
  | .getDigests port request => Sys2Proof.Machine.execGetDigests port request s
  | .getCertificate port request => Sys2Proof.Machine.execGetCertificate port request s
  | .challengeSpdm port request => Sys2Proof.Machine.execChallengeSpdm port request s
  | .keyExchange port request => Sys2Proof.Machine.execKeyExchange port request s
  | .finish port request => Sys2Proof.Machine.execFinish port request s
  | .keyUpdate port request => Sys2Proof.Machine.execKeyUpdate port request s
  | .endSession port request => Sys2Proof.Machine.execEndSession port request s
  | .ideKmQuery port request => Sys2Proof.Machine.execIdeKmQuery port request s
  | .keyProg port request => Sys2Proof.Machine.execKeyProg port request s
  | .kSetGo port request => Sys2Proof.Machine.execKSetGo port request s
  | .kSetStop port request => Sys2Proof.Machine.execKSetStop port request s
  | .queProd port fn queue value stores => Sys2Proof.Machine.execQueProd port fn queue value stores s
  | .queCons port fn queue value => Sys2Proof.Machine.execQueCons port fn queue value s
  | .dbRejectClear port fn queue => Sys2Proof.Machine.execDbRejectClear port fn queue s
  | .queDropRead port fn queue => Sys2Proof.Machine.execQueDropRead port fn queue s
  | .requestIntake queue => Sys2Proof.Machine.execRequestIntake queue s
  | .stallDispatch row stall => Sys2Proof.Machine.execStallDispatch row stall s
  | .expBlockFetch row stall lane => Sys2Proof.Machine.execExpBlockFetch row stall lane s
  | .expBlockDecoded row stall lane => Sys2Proof.Machine.execExpBlockDecoded row stall lane s
  | .oxTileEnd row stall upsets => Sys2Proof.Machine.execOxTileEnd row stall upsets s
  | .oxStepEnd row stall => Sys2Proof.Machine.execOxStepEnd row stall s
  | .vuRowEnd row stall => Sys2Proof.Machine.execVuRowEnd row stall s
  | .vuStepEnd row stall => Sys2Proof.Machine.execVuStepEnd row stall s
  | .gather row stall => Sys2Proof.Machine.execGather row stall s
  | .scatterAdd row stall => Sys2Proof.Machine.execScatterAdd row stall s
  | .segSum row stall => Sys2Proof.Machine.execSegSum row stall s
  | .segMax row stall => Sys2Proof.Machine.execSegMax row stall s
  | .segMin row stall => Sys2Proof.Machine.execSegMin row stall s
  | .segArgmax row stall => Sys2Proof.Machine.execSegArgmax row stall s
  | .sort row stall => Sys2Proof.Machine.execSort row stall s
  | .intersect row stall => Sys2Proof.Machine.execIntersect row stall s
  | .union row stall => Sys2Proof.Machine.execUnion row stall s
  | .diff row stall => Sys2Proof.Machine.execDiff row stall s
  | .topk row stall => Sys2Proof.Machine.execTopk row stall s
  | .hashInsert row stall => Sys2Proof.Machine.execHashInsert row stall s
  | .hashProbe row stall => Sys2Proof.Machine.execHashProbe row stall s
  | .msg row stall => Sys2Proof.Machine.execMsg row stall s
  | .assign row stall => Sys2Proof.Machine.execAssign row stall s
  | .ledgerCommit row limg => Sys2Proof.Machine.execLedgerCommit row limg s
  | .ledgerAbort row limg pass group cause => Sys2Proof.Machine.execLedgerAbort row limg pass group cause s
  | .fjHeldRelease hub => Sys2Proof.Machine.execFjHeldRelease hub s
  | .shadowRunEnd row id fault => Sys2Proof.Machine.execShadowRunEnd row id fault s
  | .voteStart row id => Sys2Proof.Machine.execVoteStart row id s
  | .voteCopyDone row id => Sys2Proof.Machine.execVoteCopyDone row id s
  | .refereeEnd row id fault checkFailed => Sys2Proof.Machine.execRefereeEnd row id fault checkFailed s
  | .repeatEnd row id fault => Sys2Proof.Machine.execRepeatEnd row id fault s
  | .stallRetire row stall => Sys2Proof.Machine.execStallRetire row stall s
  | .observationClear row stall => Sys2Proof.Machine.execObservationClear row stall s
  | .rowWatchExpire row => Sys2Proof.Machine.execRowWatchExpire row s
  | .tickTotalsAdd ticks => Sys2Proof.Machine.execTickTotalsAdd ticks s
  | .tickTotalsSave => Sys2Proof.Machine.execTickTotalsSave s
  | .tallySelftestGo req row => Sys2Proof.Machine.execTallySelftestGo req row s
  | .selftestEnd row failed => Sys2Proof.Machine.execSelftestEnd row failed s
  | .packRunDue row stall => Sys2Proof.Machine.execPackRunDue row stall s
  | .patternTestStart row stall => Sys2Proof.Machine.execPatternTestStart row stall s
  | .patternTestEnd row stall fault => Sys2Proof.Machine.execPatternTestEnd row stall fault s
  | .lotReadReturn id => Sys2Proof.Machine.execLotReadReturn id s
  | .lotReadLate id => Sys2Proof.Machine.execLotReadLate id s
  | .arrayPageRead id row internalFail => Sys2Proof.Machine.execArrayPageRead id row internalFail s
  | .poolFillDone hub frame failed => Sys2Proof.Machine.execPoolFillDone hub frame failed s
  | .poolDrainDone hub frame => Sys2Proof.Machine.execPoolDrainDone hub frame s
  | .poolInvalidDrained hub frame => Sys2Proof.Machine.execPoolInvalidDrained hub frame s
  | .t1ScrubStep hub line errors => Sys2Proof.Machine.execT1ScrubStep hub line errors s
  | .brwChEnable req chan => Sys2Proof.Machine.execBrwChEnable req chan s
  | .brwChDisable req chan => Sys2Proof.Machine.execBrwChDisable req chan s
  | .brwBurstIssue engine => Sys2Proof.Machine.execBrwBurstIssue engine s
  | .brwBurstComplete chan => Sys2Proof.Machine.execBrwBurstComplete chan s
  | .brwSlotReady chan => Sys2Proof.Machine.execBrwSlotReady chan s
  | .brwDescriptorEnd chan => Sys2Proof.Machine.execBrwDescriptorEnd chan s
  | .recoverResume req chan => Sys2Proof.Machine.execRecoverResume req chan s
  | .recoverSkip req chan => Sys2Proof.Machine.execRecoverSkip req chan s
  | .brwErrClear req chan => Sys2Proof.Machine.execBrwErrClear req chan s
  | .nvmcWindowWrite req row offset data => Sys2Proof.Machine.execNvmcWindowWrite req row offset data s
  | .nvmcUnlockLapse row => Sys2Proof.Machine.execNvmcUnlockLapse row s
  | .programPage row => Sys2Proof.Machine.execProgramPage row s
  | .eraseBlock row => Sys2Proof.Machine.execEraseBlock row s
  | .blankCheck row => Sys2Proof.Machine.execBlankCheck row s
  | .suspend row => Sys2Proof.Machine.execSuspend row s
  | .nvmResume row => Sys2Proof.Machine.execNvmResume row s
  | .readStatus row => Sys2Proof.Machine.execReadStatus row s
  | .wpSet row => Sys2Proof.Machine.execWpSet row s
  | .wpClear row => Sys2Proof.Machine.execWpClear row s
  | .wpFreeze row => Sys2Proof.Machine.execWpFreeze row s
  | .readPagePhys row => Sys2Proof.Machine.execReadPagePhys row s
  | .eraseDeferredStart row bank => Sys2Proof.Machine.execEraseDeferredStart row bank s
  | .suspendEffect row bank => Sys2Proof.Machine.execSuspendEffect row bank s
  | .programEnd row bank verified => Sys2Proof.Machine.execProgramEnd row bank verified s
  | .eraseEnd row bank verified => Sys2Proof.Machine.execEraseEnd row bank verified s
  | .readPagePhysEnd row bank internalFail => Sys2Proof.Machine.execReadPagePhysEnd row bank internalFail s
  | .nvmcBmapGo req row count => Sys2Proof.Machine.execNvmcBmapGo req row count s
  | .nvmcJournalWrite row => Sys2Proof.Machine.execNvmcJournalWrite row s
  | .nvmScrubPage row weak uncorrectable => Sys2Proof.Machine.execNvmScrubPage row weak uncorrectable s
  | .mirrorSettle row lblock => Sys2Proof.Machine.execMirrorSettle row lblock s
  | .relocation row lblock => Sys2Proof.Machine.execRelocation row lblock s
  | .brownoutAssert => Sys2Proof.Machine.execBrownoutAssert s
  | .brownoutClear tests => Sys2Proof.Machine.execBrownoutClear tests s
  | .shardVerify job shard data => Sys2Proof.Machine.execShardVerify job shard data s
  | .shardTimeout job shard => Sys2Proof.Machine.execShardTimeout job shard s
  | .installDeadline job => Sys2Proof.Machine.execInstallDeadline job s
  | .swapLayerProgrammed job => Sys2Proof.Machine.execSwapLayerProgrammed job s
  | .swapLayerTabled job => Sys2Proof.Machine.execSwapLayerTabled job s
  | .swapLayerFlip job => Sys2Proof.Machine.execSwapLayerFlip job s
  | .swapBarrierTimeout job => Sys2Proof.Machine.execSwapBarrierTimeout job s
  | .swapBarrierRetry job => Sys2Proof.Machine.execSwapBarrierRetry job s
  | .swapDeadline job => Sys2Proof.Machine.execSwapDeadline job s
  | .consistentSwapFlip job => Sys2Proof.Machine.execConsistentSwapFlip job s
  | .consistentSwapDeadline job => Sys2Proof.Machine.execConsistentSwapDeadline job s
  | .treeFrame port => Sys2Proof.Machine.execTreeFrame port s
  | .treeBurst port burst => Sys2Proof.Machine.execTreeBurst port burst s
  | .upstreamFrameEnd port stray => Sys2Proof.Machine.execUpstreamFrameEnd port stray s
  | .sweepRound port stray => Sys2Proof.Machine.execSweepRound port stray s
  | .cert port frame => Sys2Proof.Machine.execCert port frame s
  | .response port frame => Sys2Proof.Machine.execResponse port frame s
  | .resume port frame => Sys2Proof.Machine.execResume port frame s
  | .keyAck port frame => Sys2Proof.Machine.execKeyAck port frame s
  | .bindAck port frame => Sys2Proof.Machine.execBindAck port frame s
  | .data port frame => Sys2Proof.Machine.execData port frame s
  | .leave port frame => Sys2Proof.Machine.execLeave port frame s
  | .leaveAck port frame => Sys2Proof.Machine.execLeaveAck port frame s
  | .sessRespTimeout port lid => Sys2Proof.Machine.execSessRespTimeout port lid s
  | .sessParkExpire port lid => Sys2Proof.Machine.execSessParkExpire port lid s
  | .sessRekeyTrigger port lid => Sys2Proof.Machine.execSessRekeyTrigger port lid s
  | .sessHoleSkip port lid => Sys2Proof.Machine.execSessHoleSkip port lid s
  | .sessOldEpochExpire port lid => Sys2Proof.Machine.execSessOldEpochExpire port lid s
  | .pcsAligned port => Sys2Proof.Machine.execPcsAligned port s
  | .pcsAlignLost port => Sys2Proof.Machine.execPcsAlignLost port s
  | .hello port line frame => Sys2Proof.Machine.execHello port line frame s
  | .nbrCert port line frame => Sys2Proof.Machine.execNbrCert port line frame s
  | .proof port line frame => Sys2Proof.Machine.execProof port line frame s
  | .keys port line frame => Sys2Proof.Machine.execKeys port line frame s
  | .keysAck port line frame => Sys2Proof.Machine.execKeysAck port line frame s
  | .refuse port line frame => Sys2Proof.Machine.execRefuse port line frame s
  | .ack port line frame => Sys2Proof.Machine.execAck port line frame s
  | .keepalive port line frame => Sys2Proof.Machine.execKeepalive port line frame s
  | .lotReq port line frame => Sys2Proof.Machine.execLotReq port line frame s
  | .lotOffer port line frame => Sys2Proof.Machine.execLotOffer port line frame s
  | .lotRefuse port line frame => Sys2Proof.Machine.execLotRefuse port line frame s
  | .shardWant port line frame => Sys2Proof.Machine.execShardWant port line frame s
  | .shardData port line frame => Sys2Proof.Machine.execShardData port line frame s
  | .shardAck port line frame => Sys2Proof.Machine.execShardAck port line frame s
  | .lotDone port line frame => Sys2Proof.Machine.execLotDone port line frame s
  | .pageRead port line frame => Sys2Proof.Machine.execPageRead port line frame s
  | .pageData port line frame => Sys2Proof.Machine.execPageData port line frame s
  | .pageFail port line frame => Sys2Proof.Machine.execPageFail port line frame s
  | .withdraw port line frame => Sys2Proof.Machine.execWithdraw port line frame s
  | .item port line frame => Sys2Proof.Machine.execItem port line frame s
  | .notice port line frame => Sys2Proof.Machine.execNotice port line frame s
  | .nbrRespTimeout port => Sys2Proof.Machine.execNbrRespTimeout port s
  | .nbrHoldoffExpire port => Sys2Proof.Machine.execNbrHoldoffExpire port s
  | .nbrDead port => Sys2Proof.Machine.execNbrDead port s
  | .nbrKeepaliveSend port => Sys2Proof.Machine.execNbrKeepaliveSend port s
  | .nbrRto port conv seq => Sys2Proof.Machine.execNbrRto port conv seq s
  | .nbrRekeyTrigger port => Sys2Proof.Machine.execNbrRekeyTrigger port s
  | .nbrOldEpochExpire port => Sys2Proof.Machine.execNbrOldEpochExpire port s
  | .noticeLimit port tag => Sys2Proof.Machine.execNoticeLimit port tag s
  | .vdecDecodeStart engine => Sys2Proof.Machine.execVdecDecodeStart engine s
  | .vdecPictureDone engine decoded => Sys2Proof.Machine.execVdecPictureDone engine decoded s
  | .gooseCommit half eval verdict => Sys2Proof.Machine.execGooseCommit half eval verdict s
  | .gooseStaleTimeout => Sys2Proof.Machine.execGooseStaleTimeout s
  | .penWedgeDetect pen => Sys2Proof.Machine.execPenWedgeDetect pen s
  | .penResetDone pen => Sys2Proof.Machine.execPenResetDone pen s
  | .pairSync pen => Sys2Proof.Machine.execPairSync pen s
  | .unitStuck row stall => Sys2Proof.Machine.execUnitStuck row stall s
  | .mpHeartbeat hub => Sys2Proof.Machine.execMpHeartbeat hub s
  | .hubLost hub => Sys2Proof.Machine.execHubLost hub s
  | .mpLost => Sys2Proof.Machine.execMpLost s
  | .rowLost row => Sys2Proof.Machine.execRowLost row s
  | .rowLinkLost row hub => Sys2Proof.Machine.execRowLinkLost row hub s
  | .lossOfSignal port => Sys2Proof.Machine.execLossOfSignal port s
  | .handoverStandbyReady => Sys2Proof.Machine.execHandoverStandbyReady s
  | .handoverRoleMove => Sys2Proof.Machine.execHandoverRoleMove s
  | .handoverFormerReady => Sys2Proof.Machine.execHandoverFormerReady s
  | .powerApplied feed => Sys2Proof.Machine.execPowerApplied feed s
  | .moduleReset tests => Sys2Proof.Machine.execModuleReset tests s
  | .feedLost feed => Sys2Proof.Machine.execFeedLost feed s
  | .feedRestored feed => Sys2Proof.Machine.execFeedRestored feed s
  | .powerSample va wa vb wb => Sys2Proof.Machine.execPowerSample va wa vb wb s
  | .railSlewStep rail => Sys2Proof.Machine.execRailSlewStep rail s
  | .thermalLimit rail tj => Sys2Proof.Machine.execThermalLimit rail tj s
  | .thermalRecover rail tj => Sys2Proof.Machine.execThermalRecover rail tj s
  | .thermalShutdown rail tj => Sys2Proof.Machine.execThermalShutdown rail tj s
  | .thermalRestart tests => Sys2Proof.Machine.execThermalRestart tests s
  | .domainEnterRet domain => Sys2Proof.Machine.execDomainEnterRet domain s
  | .domainEnterOff domain => Sys2Proof.Machine.execDomainEnterOff domain s
  | .domainForceApply domain => Sys2Proof.Machine.execDomainForceApply domain s
  | .domainWake domain => Sys2Proof.Machine.execDomainWake domain s
  | .domainWakeDone domain => Sys2Proof.Machine.execDomainWakeDone domain s
  | .wakePulse req domain => Sys2Proof.Machine.execWakePulse req domain s
  | .rtcAlarmFire hub alarm => Sys2Proof.Machine.execRtcAlarmFire hub alarm s
  | .rtcAlarmClear req hub alarm => Sys2Proof.Machine.execRtcAlarmClear req hub alarm s
  | .mgmtHeartbeat hub => Sys2Proof.Machine.execMgmtHeartbeat hub s
  | .resend hub frame => Sys2Proof.Machine.execResend hub frame s
  | .attest hub frame => Sys2Proof.Machine.execAttest hub frame s
  | .mgmtLinkUp hub => Sys2Proof.Machine.execMgmtLinkUp hub s
  | .mgmtLinkDown hub => Sys2Proof.Machine.execMgmtLinkDown hub s
  | .oxClearLast req row stall => Sys2Proof.Machine.execOxClearLast req row stall s
  | .oxClearStats req row stall => Sys2Proof.Machine.execOxClearStats req row stall s
  | .vuClearStats req row stall => Sys2Proof.Machine.execVuClearStats req row stall s
  | .henClearStats req row stall => Sys2Proof.Machine.execHenClearStats req row stall s
  | .expClearLast req row stall => Sys2Proof.Machine.execExpClearLast req row stall s
  | .expClearStats req row stall => Sys2Proof.Machine.execExpClearStats req row stall s
  | .stallClearStats req row stall => Sys2Proof.Machine.execStallClearStats req row stall s
  | .ledgerClearLast req row => Sys2Proof.Machine.execLedgerClearLast req row s
  | .ledgerClearStats req row => Sys2Proof.Machine.execLedgerClearStats req row s
  | .tallyClearLast req row => Sys2Proof.Machine.execTallyClearLast req row s
  | .tallyClearStats req row => Sys2Proof.Machine.execTallyClearStats req row s
  | .mmuClearCe req hub => Sys2Proof.Machine.execMmuClearCe req hub s
  | .mmuClearLast req hub => Sys2Proof.Machine.execMmuClearLast req hub s
  | .mmuClearStats req hub => Sys2Proof.Machine.execMmuClearStats req hub s
  | .brwClearStats req engine => Sys2Proof.Machine.execBrwClearStats req engine s
  | .nvmcClearLast req row => Sys2Proof.Machine.execNvmcClearLast req row s
  | .nvmcClearStats req row => Sys2Proof.Machine.execNvmcClearStats req row s
  | .treeClearLast req port => Sys2Proof.Machine.execTreeClearLast req port s
  | .treeClearStats req port => Sys2Proof.Machine.execTreeClearStats req port s
  | .sessClearStats req port => Sys2Proof.Machine.execSessClearStats req port s
  | .nbrClearStats req port => Sys2Proof.Machine.execNbrClearStats req port s
  | .vdecClearStats req engine => Sys2Proof.Machine.execVdecClearStats req engine s
  | .watClearLast req hub => Sys2Proof.Machine.execWatClearLast req hub s
  | .watClearStats req hub => Sys2Proof.Machine.execWatClearStats req hub s
  | .gooseClearStats req hub => Sys2Proof.Machine.execGooseClearStats req hub s
  | .mgmtClearStats req hub => Sys2Proof.Machine.execMgmtClearStats req hub s
  | .penCreate till => Sys2Proof.Machine.execPenCreate till s
  | .penDestroy till => Sys2Proof.Machine.execPenDestroy till s
  | .penStalls till => Sys2Proof.Machine.execPenStalls till s
  | .penGrant till => Sys2Proof.Machine.execPenGrant till s
  | .penQueue till => Sys2Proof.Machine.execPenQueue till s
  | .penPair till => Sys2Proof.Machine.execPenPair till s
  | .penReset till => Sys2Proof.Machine.execPenReset till s
  | .penShed till => Sys2Proof.Machine.execPenShed till s
  | .penRestore till => Sys2Proof.Machine.execPenRestore till s
  | .penSpares till => Sys2Proof.Machine.execPenSpares till s
  | .penGoose till => Sys2Proof.Machine.execPenGoose till s
  | .penQuery till => Sys2Proof.Machine.execPenQuery till s
  | .schedLoad till => Sys2Proof.Machine.execSchedLoad till s
  | .schedLoadDone handle => Sys2Proof.Machine.execSchedLoadDone handle s
  | .schedStart till => Sys2Proof.Machine.execSchedStart till s
  | .schedPause till => Sys2Proof.Machine.execSchedPause till s
  | .schedResume till => Sys2Proof.Machine.execSchedResume till s
  | .schedRetire till => Sys2Proof.Machine.execSchedRetire till s
  | .schedQuery till => Sys2Proof.Machine.execSchedQuery till s
  | .weightInstall till => Sys2Proof.Machine.execWeightInstall till s
  | .weightGrant till => Sys2Proof.Machine.execWeightGrant till s
  | .weightRevoke till => Sys2Proof.Machine.execWeightRevoke till s
  | .weightSwap till => Sys2Proof.Machine.execWeightSwap till s
  | .weightRemove till => Sys2Proof.Machine.execWeightRemove till s
  | .weightQuery till => Sys2Proof.Machine.execWeightQuery till s
  | .weightAdapter till => Sys2Proof.Machine.execWeightAdapter till s
  | .memMap till => Sys2Proof.Machine.execMemMap till s
  | .memMapZeroed handle => Sys2Proof.Machine.execMemMapZeroed handle s
  | .memUnmap till => Sys2Proof.Machine.execMemUnmap till s
  | .memQuery till => Sys2Proof.Machine.execMemQuery till s
  | .memPromote till => Sys2Proof.Machine.execMemPromote till s
  | .memQuota till => Sys2Proof.Machine.execMemQuota till s
  | .memPoolSet till => Sys2Proof.Machine.execMemPoolSet till s
  | .memTileMap till => Sys2Proof.Machine.execMemTileMap till s
  | .memTileUnmap till => Sys2Proof.Machine.execMemTileUnmap till s
  | .checkSet till => Sys2Proof.Machine.execCheckSet till s
  | .checkGet till => Sys2Proof.Machine.execCheckGet till s
  | .checkProbe till => Sys2Proof.Machine.execCheckProbe till s
  | .checkProbeDeadline handle => Sys2Proof.Machine.execCheckProbeDeadline handle s
  | .checkPackInstall till => Sys2Proof.Machine.execCheckPackInstall till s
  | .logExport till => Sys2Proof.Machine.execLogExport till s
  | .logMgmtSet till => Sys2Proof.Machine.execLogMgmtSet till s
  | .treePortSet till => Sys2Proof.Machine.execTreePortSet till s
  | .treeLease till => Sys2Proof.Machine.execTreeLease till s
  | .treeRegister till => Sys2Proof.Machine.execTreeRegister till s
  | .treeUnregister till => Sys2Proof.Machine.execTreeUnregister till s
  | .treeRelease till => Sys2Proof.Machine.execTreeRelease till s
  | .treeSweep till => Sys2Proof.Machine.execTreeSweep till s
  | .treeQuery till => Sys2Proof.Machine.execTreeQuery till s
  | .sessBind till => Sys2Proof.Machine.execSessBind till s
  | .sessUnbind till => Sys2Proof.Machine.execSessUnbind till s
  | .sessClose till => Sys2Proof.Machine.execSessClose till s
  | .sessRekey till => Sys2Proof.Machine.execSessRekey till s
  | .sessChallenge till => Sys2Proof.Machine.execSessChallenge till s
  | .sessQuery till => Sys2Proof.Machine.execSessQuery till s
  | .nbrPortSet till => Sys2Proof.Machine.execNbrPortSet till s
  | .nbrAssign till => Sys2Proof.Machine.execNbrAssign till s
  | .nbrRekey till => Sys2Proof.Machine.execNbrRekey till s
  | .nbrQuery till => Sys2Proof.Machine.execNbrQuery till s
  | .vdecStreamSet till => Sys2Proof.Machine.execVdecStreamSet till s
  | .vdecStreamClear till => Sys2Proof.Machine.execVdecStreamClear till s
  | .vdecQuery till => Sys2Proof.Machine.execVdecQuery till s
  | .pwrDomainSet till => Sys2Proof.Machine.execPwrDomainSet till s
  | .pwrRailSet till => Sys2Proof.Machine.execPwrRailSet till s
  | .pwrCapSet till => Sys2Proof.Machine.execPwrCapSet till s
  | .pwrStartSet till => Sys2Proof.Machine.execPwrStartSet till s
  | .pwrQuery till => Sys2Proof.Machine.execPwrQuery till s
  | .trustAttest till => Sys2Proof.Machine.execTrustAttest till s
  | .trustCertGet till => Sys2Proof.Machine.execTrustCertGet till s
  | .trustCertSet till => Sys2Proof.Machine.execTrustCertSet till s
  | .trustCsr till => Sys2Proof.Machine.execTrustCsr till s
  | .trustKeyAdd till => Sys2Proof.Machine.execTrustKeyAdd till s
  | .trustKeyRemove till => Sys2Proof.Machine.execTrustKeyRemove till s
  | .trustKeyList till => Sys2Proof.Machine.execTrustKeyList till s
  | .trustWatSet till => Sys2Proof.Machine.execTrustWatSet till s
  | .trustWatZeroed handle => Sys2Proof.Machine.execTrustWatZeroed handle s
  | .trustRollbackSet till => Sys2Proof.Machine.execTrustRollbackSet till s
  | .trustIdePolicy till => Sys2Proof.Machine.execTrustIdePolicy till s
  | .fwInstall till tests => Sys2Proof.Machine.execFwInstall till tests s
  | .fwHandover till => Sys2Proof.Machine.execFwHandover till s
  | .fwQuery till => Sys2Proof.Machine.execFwQuery till s
  | .hostLinkUp port rate width => Sys2Proof.Machine.execHostLinkUp port rate width s
  | .hostLinkDown port => Sys2Proof.Machine.execHostLinkDown port s
  | .vfEnableSet port => Sys2Proof.Machine.execVfEnableSet port s
  | .tillBadOpcode till => Sys2Proof.Machine.execTillBadOpcode till s
  | .handoverStandbyFailed => Sys2Proof.Machine.execHandoverStandbyFailed s
  | .standbyMpLost => Sys2Proof.Machine.execStandbyMpLost s
  | .packInstallDone handle => Sys2Proof.Machine.execPackInstallDone handle s
  | .mgmtFrameSent hub => Sys2Proof.Machine.execMgmtFrameSent hub s
  | .mgmtMalformedRequest hub frame => Sys2Proof.Machine.execMgmtMalformedRequest hub frame s
  | .nbrMalformedFrame port line frame => Sys2Proof.Machine.execNbrMalformedFrame port line frame s

end Sys2Proof.Machine
end

