-- ==== Sys2Proof/WellFormed.lean ====
section
/-! DEFINITION. Well-formed commands: the ranges that the manual gives what an outside partner sends. A command that is
not well formed cannot come about; the meanings do not rely on it. -/

namespace Sys2Proof

/-- Virtual functions are numbered 1 to 31 (R45). -/
def Fn.ok : Fn → Bool
  | .pf0 => true
  | .pf1 => true
  | .vf k => decide (1 ≤ k) && decide (k ≤ 31)

def Requester.ok : Requester → Bool
  | .host _ fn => fn.ok
  | .mp _ => true

/-- Host memory has 64-bit addresses (R48). -/
def storesOk (l : List HostStore) : Bool := l.all fun w => decide (w.addr + w.data.length ≤ 2 ^ 64)

/-- Bytes that an access moves. -/
def AccessOp.size : AccessOp → Nat
  | .read n => n
  | .write data => data.length

/-- A request of a TLP is of 1 to 4,096 bytes (R48). -/
def AccessOp.ok (o : AccessOp) : Bool := decide (1 ≤ o.size) && decide (o.size ≤ 4096)

/-- Register windows of the hubs and of the rows (Table 1.11). -/
def regSpace (a n : Nat) : Bool :=
  decide (1 ≤ n) && decide (0x00FF00000000 ≤ a) && decide (a + n ≤ 0x00FF12000000)

def HostReadVictim.ok : HostReadVictim → Bool
  | .request token => decide (token < 2 ^ 32)
  | .till _ => true

/-- Tiles have at most 64 rows and a check row, 64 columns, and accumulators of at most 48 bits (R107, R114, R116). -/
def Upset.ok (u : Upset) : Bool := decide (u.row ≤ 64) && decide (u.col < 64) && decide (u.flip < 2 ^ 48)

/-- A burst lies in a frame of 2,000 grains and its content is at most that of 1,968 grains (R346, R352). -/
def Burst.ok (b : Burst) : Bool :=
  decide (b.grain < 2000) && decide (b.slot < 256) && decide (b.content.length ≤ 160 * 1956) &&
  b.lost.all fun x => decide (x.1 + x.2 ≤ b.content.length)

/-- A picture's planes have the sizes that its dimensions give. -/
def Picture.planesOk (p : Picture) : Bool :=
  decide (p.yPlane.length = p.width * p.height) && p.corruptRows.all fun x => decide (x.1 + x.2 ≤ p.height)

def Decoded.ok (d : Decoded) : Bool := d.pictures.all Picture.planesOk

/-- Grains are numbered 0 to 1,999 (R346). -/
def straysOk (l : List Nat) : Bool := l.all fun g => decide (g < 2000)

/-- An object of a DOE mailbox: 1 byte at least, 2^20 at most (PCI Express). -/
def doeOk (r : Bytes) : Bool := decide (1 ≤ r.length) && decide (r.length ≤ 2 ^ 20)

/-- Header, payload of at most 16,384 bytes and tag of a session frame (R373). -/
def sessFrameOk (f : Bytes) : Bool := decide (f.length ≤ 12 + 16384 + 16)

/-- Header, payload of at most 8,224 bytes and tag of a neighbour frame (R395). -/
def nbrFrameOk (f : Bytes) : Bool := decide (f.length ≤ 12 + 8224 + 16)

/-- A frame of Ethernet without its check value (R497). -/
def mgmtFrameOk (f : Bytes) : Bool := decide (f.length ≤ 1518)

/-- A command whose operands lie in the ranges that the manual gives them. -/
def Instr.wellFormed : Instr → Bool
  | .tillGo _ fn _ content stores => fn.ok && decide (content.length ≤ 0xFC0) && storesOk stores
  | .tillOverrunClear _ fn _ => fn.ok
  | .registerWrite req addr bytes => req.ok && regSpace addr bytes.length && decide (bytes.length ≤ 64)
  | .foreignSlotAccess _ fn _ op => fn.ok && op.ok
  | .pciDeniedCountRead _ => true
  | .apertureAccess _ offset op => decide (offset + op.size ≤ 2 ^ 32) && op.ok
  | .pciFlr _ fn => fn.ok
  | .vfEnableClear _ => true
  | .hostReadFailed victim => victim.ok
  | .ideCheckFail _ => true
  | .getVersion _ request => doeOk request
  | .getCapabilities _ request => doeOk request
  | .negotiateAlgorithms _ request => doeOk request
  | .getDigests _ request => doeOk request
  | .getCertificate _ request => doeOk request
  | .challengeSpdm _ request => doeOk request
  | .keyExchange _ request => doeOk request
  | .finish _ request => doeOk request
  | .keyUpdate _ request => doeOk request
  | .endSession _ request => doeOk request
  | .ideKmQuery _ request => doeOk request
  | .keyProg _ request => doeOk request
  | .kSetGo _ request => doeOk request
  | .kSetStop _ request => doeOk request
  | .queProd _ fn _ value stores => fn.ok && decide (value < 2 ^ 16) && storesOk stores
  | .queCons _ fn _ value => fn.ok && decide (value < 2 ^ 16)
  | .dbRejectClear _ fn _ => fn.ok
  | .queDropRead _ fn _ => fn.ok
  | .requestIntake _ => true
  | .stallDispatch _ _ => true
  | .expBlockFetch _ _ _ => true
  | .expBlockDecoded _ _ _ => true
  | .oxTileEnd _ _ upsets => upsets.all Upset.ok
  | .oxStepEnd _ _ => true
  | .vuRowEnd _ _ => true
  | .vuStepEnd _ _ => true
  | .gather _ _ => true
  | .scatterAdd _ _ => true
  | .segSum _ _ => true
  | .segMax _ _ => true
  | .segMin _ _ => true
  | .segArgmax _ _ => true
  | .sort _ _ => true
  | .intersect _ _ => true
  | .union _ _ => true
  | .diff _ _ => true
  | .topk _ _ => true
  | .hashInsert _ _ => true
  | .hashProbe _ _ => true
  | .msg _ _ => true
  | .assign _ _ => true
  | .ledgerCommit _ _ => true
  | .ledgerAbort _ _ pass group cause => decide (pass < 2 ^ 16) && decide (group < 2 ^ 16) && decide (1 ≤ cause) && decide (cause ≤ 6)
  | .fjHeldRelease _ => true
  | .shadowRunEnd _ id _ => decide (id < 2 ^ 32)
  | .voteStart _ id => decide (id < 2 ^ 32)
  | .voteCopyDone _ id => decide (id < 2 ^ 32)
  | .refereeEnd _ id _ _ => decide (id < 2 ^ 32)
  | .repeatEnd _ id _ => decide (id < 2 ^ 32)
  | .stallRetire _ _ => true
  | .observationClear _ _ => true
  | .rowWatchExpire _ => true
  | .tickTotalsAdd ticks => decide (ticks < 2 ^ 64)
  | .tickTotalsSave => true
  | .tallySelftestGo req _ => req.ok
  | .selftestEnd _ _ => true
  | .packRunDue _ _ => true
  | .patternTestStart _ _ => true
  | .patternTestEnd _ _ _ => true
  | .lotReadReturn id => decide (id < 2 ^ 32)
  | .lotReadLate id => decide (id < 2 ^ 32)
  | .arrayPageRead id _ _ => decide (id < 2 ^ 32)
  | .poolFillDone _ frame _ => decide (frame < 2 ^ 29)
  | .poolDrainDone _ frame => decide (frame < 2 ^ 29)
  | .poolInvalidDrained _ frame => decide (frame < 2 ^ 29)
  | .t1ScrubStep _ line _ => decide (line < 0x001E00000000 / 64)
  | .brwChEnable req _ => req.ok
  | .brwChDisable req _ => req.ok
  | .brwBurstIssue _ => true
  | .brwBurstComplete _ => true
  | .brwSlotReady _ => true
  | .brwDescriptorEnd _ => true
  | .recoverResume req _ => req.ok
  | .recoverSkip req _ => req.ok
  | .brwErrClear req _ => req.ok
  | .nvmcWindowWrite req _ offset bytes => req.ok && decide (offset + bytes.length ≤ 0x008000000000) && decide (1 ≤ bytes.length) && decide (bytes.length ≤ 64)
  | .nvmcUnlockLapse _ => true
  | .programPage _ => true
  | .eraseBlock _ => true
  | .blankCheck _ => true
  | .suspend _ => true
  | .nvmResume _ => true
  | .readStatus _ => true
  | .wpSet _ => true
  | .wpClear _ => true
  | .wpFreeze _ => true
  | .readPagePhys _ => true
  | .eraseDeferredStart _ _ => true
  | .suspendEffect _ _ => true
  | .programEnd _ _ _ => true
  | .eraseEnd _ _ _ => true
  | .readPagePhysEnd _ _ _ => true
  | .nvmcBmapGo req _ count => req.ok && decide (count < 2 ^ 11)
  | .nvmcJournalWrite _ => true
  | .nvmScrubPage _ _ _ => true
  | .mirrorSettle _ lblock => decide (lblock < 2 ^ 16)
  | .relocation _ lblock => decide (lblock < 2 ^ 16)
  | .brownoutAssert => true
  | .brownoutClear _ => true
  | .shardVerify job shard bytes => decide (job < 2 ^ 32) && decide (shard < 2 ^ 32) && decide (bytes.length ≤ 0x400000)
  | .shardTimeout job shard => decide (job < 2 ^ 32) && decide (shard < 2 ^ 32)
  | .installDeadline job => decide (job < 2 ^ 32)
  | .swapLayerProgrammed job => decide (job < 2 ^ 32)
  | .swapLayerTabled job => decide (job < 2 ^ 32)
  | .swapLayerFlip job => decide (job < 2 ^ 32)
  | .swapBarrierTimeout job => decide (job < 2 ^ 32)
  | .swapBarrierRetry job => decide (job < 2 ^ 32)
  | .swapDeadline job => decide (job < 2 ^ 32)
  | .consistentSwapFlip job => decide (job < 2 ^ 32)
  | .consistentSwapDeadline job => decide (job < 2 ^ 32)
  | .treeFrame _ => true
  | .treeBurst _ burst => burst.ok
  | .upstreamFrameEnd _ stray => straysOk stray
  | .sweepRound _ stray => straysOk stray
  | .cert _ frame => sessFrameOk frame
  | .response _ frame => sessFrameOk frame
  | .resume _ frame => sessFrameOk frame
  | .keyAck _ frame => sessFrameOk frame
  | .bindAck _ frame => sessFrameOk frame
  | .data _ frame => sessFrameOk frame
  | .leave _ frame => sessFrameOk frame
  | .leaveAck _ frame => sessFrameOk frame
  | .sessRespTimeout _ _ => true
  | .sessParkExpire _ _ => true
  | .sessRekeyTrigger _ _ => true
  | .sessHoleSkip _ _ => true
  | .sessOldEpochExpire _ _ => true
  | .pcsAligned _ => true
  | .pcsAlignLost _ => true
  | .hello _ _ frame => nbrFrameOk frame
  | .nbrCert _ _ frame => nbrFrameOk frame
  | .proof _ _ frame => nbrFrameOk frame
  | .keys _ _ frame => nbrFrameOk frame
  | .keysAck _ _ frame => nbrFrameOk frame
  | .refuse _ _ frame => nbrFrameOk frame
  | .ack _ _ frame => nbrFrameOk frame
  | .keepalive _ _ frame => nbrFrameOk frame
  | .lotReq _ _ frame => nbrFrameOk frame
  | .lotOffer _ _ frame => nbrFrameOk frame
  | .lotRefuse _ _ frame => nbrFrameOk frame
  | .shardWant _ _ frame => nbrFrameOk frame
  | .shardData _ _ frame => nbrFrameOk frame
  | .shardAck _ _ frame => nbrFrameOk frame
  | .lotDone _ _ frame => nbrFrameOk frame
  | .pageRead _ _ frame => nbrFrameOk frame
  | .pageData _ _ frame => nbrFrameOk frame
  | .pageFail _ _ frame => nbrFrameOk frame
  | .withdraw _ _ frame => nbrFrameOk frame
  | .item _ _ frame => nbrFrameOk frame
  | .notice _ _ frame => nbrFrameOk frame
  | .nbrRespTimeout _ => true
  | .nbrHoldoffExpire _ => true
  | .nbrDead _ => true
  | .nbrKeepaliveSend _ => true
  | .nbrRto _ conv _ => decide (1 ≤ conv) && decide (conv ≤ 3)
  | .nbrRekeyTrigger _ => true
  | .nbrOldEpochExpire _ => true
  | .noticeLimit _ tag => decide (tag < 2 ^ 64)
  | .vdecDecodeStart _ => true
  | .vdecPictureDone _ decoded => decoded.ok
  | .gooseCommit _ _ _ => true
  | .gooseStaleTimeout => true
  | .penWedgeDetect _ => true
  | .penResetDone _ => true
  | .pairSync _ => true
  | .unitStuck _ _ => true
  | .mpHeartbeat _ => true
  | .hubLost _ => true
  | .mpLost => true
  | .rowLost _ => true
  | .rowLinkLost _ _ => true
  | .lossOfSignal port => decide (port < 14)
  | .handoverStandbyReady => true
  | .handoverRoleMove => true
  | .handoverFormerReady => true
  | .powerApplied _ => true
  | .moduleReset _ => true
  | .feedLost _ => true
  | .feedRestored _ => true
  | .powerSample va wa vb wb => decide (va < 2 ^ 16) && decide (wa < 2 ^ 16) && decide (vb < 2 ^ 16) && decide (wb < 2 ^ 16)
  | .railSlewStep _ => true
  | .thermalLimit _ tj => decide (tj < 2 ^ 8)
  | .thermalRecover _ tj => decide (tj < 2 ^ 8)
  | .thermalShutdown _ tj => decide (tj < 2 ^ 8)
  | .thermalRestart _ => true
  | .domainEnterRet _ => true
  | .domainEnterOff _ => true
  | .domainForceApply _ => true
  | .domainWake _ => true
  | .domainWakeDone _ => true
  | .wakePulse req _ => req.ok
  | .rtcAlarmFire _ _ => true
  | .rtcAlarmClear req _ _ => req.ok
  | .mgmtHeartbeat _ => true
  | .resend _ frame => mgmtFrameOk frame
  | .attest _ frame => mgmtFrameOk frame
  | .mgmtLinkUp _ => true
  | .mgmtLinkDown _ => true
  | .oxClearLast req _ _ => req.ok
  | .oxClearStats req _ _ => req.ok
  | .vuClearStats req _ _ => req.ok
  | .henClearStats req _ _ => req.ok
  | .expClearLast req _ _ => req.ok
  | .expClearStats req _ _ => req.ok
  | .stallClearStats req _ _ => req.ok
  | .ledgerClearLast req _ => req.ok
  | .ledgerClearStats req _ => req.ok
  | .tallyClearLast req _ => req.ok
  | .tallyClearStats req _ => req.ok
  | .mmuClearCe req _ => req.ok
  | .mmuClearLast req _ => req.ok
  | .mmuClearStats req _ => req.ok
  | .brwClearStats req _ => req.ok
  | .nvmcClearLast req _ => req.ok
  | .nvmcClearStats req _ => req.ok
  | .treeClearLast req _ => req.ok
  | .treeClearStats req _ => req.ok
  | .sessClearStats req _ => req.ok
  | .nbrClearStats req _ => req.ok
  | .vdecClearStats req _ => req.ok
  | .watClearLast req _ => req.ok
  | .watClearStats req _ => req.ok
  | .gooseClearStats req _ => req.ok
  | .mgmtClearStats req _ => req.ok
  | .penCreate _ => true
  | .penDestroy _ => true
  | .penStalls _ => true
  | .penGrant _ => true
  | .penQueue _ => true
  | .penPair _ => true
  | .penReset _ => true
  | .penShed _ => true
  | .penRestore _ => true
  | .penSpares _ => true
  | .penGoose _ => true
  | .penQuery _ => true
  | .schedLoad _ => true
  | .schedLoadDone handle => decide (handle < 2 ^ 32)
  | .schedStart _ => true
  | .schedPause _ => true
  | .schedResume _ => true
  | .schedRetire _ => true
  | .schedQuery _ => true
  | .weightInstall _ => true
  | .weightGrant _ => true
  | .weightRevoke _ => true
  | .weightSwap _ => true
  | .weightRemove _ => true
  | .weightQuery _ => true
  | .weightAdapter _ => true
  | .memMap _ => true
  | .memMapZeroed handle => decide (handle < 2 ^ 32)
  | .memUnmap _ => true
  | .memQuery _ => true
  | .memPromote _ => true
  | .memQuota _ => true
  | .memPoolSet _ => true
  | .memTileMap _ => true
  | .memTileUnmap _ => true
  | .checkSet _ => true
  | .checkGet _ => true
  | .checkProbe _ => true
  | .checkProbeDeadline handle => decide (handle < 2 ^ 32)
  | .checkPackInstall _ => true
  | .logExport _ => true
  | .logMgmtSet _ => true
  | .treePortSet _ => true
  | .treeLease _ => true
  | .treeRegister _ => true
  | .treeUnregister _ => true
  | .treeRelease _ => true
  | .treeSweep _ => true
  | .treeQuery _ => true
  | .sessBind _ => true
  | .sessUnbind _ => true
  | .sessClose _ => true
  | .sessRekey _ => true
  | .sessChallenge _ => true
  | .sessQuery _ => true
  | .nbrPortSet _ => true
  | .nbrAssign _ => true
  | .nbrRekey _ => true
  | .nbrQuery _ => true
  | .vdecStreamSet _ => true
  | .vdecStreamClear _ => true
  | .vdecQuery _ => true
  | .pwrDomainSet _ => true
  | .pwrRailSet _ => true
  | .pwrCapSet _ => true
  | .pwrStartSet _ => true
  | .pwrQuery _ => true
  | .trustAttest _ => true
  | .trustCertGet _ => true
  | .trustCertSet _ => true
  | .trustCsr _ => true
  | .trustKeyAdd _ => true
  | .trustKeyRemove _ => true
  | .trustKeyList _ => true
  | .trustWatSet _ => true
  | .trustWatZeroed handle => decide (handle < 2 ^ 32)
  | .trustRollbackSet _ => true
  | .trustIdePolicy _ => true
  | .fwInstall _ _ => true
  | .fwHandover _ => true
  | .fwQuery _ => true
  | .hostLinkUp _ rate width => decide (1 ≤ rate) && decide (rate ≤ 5) && [1, 2, 4, 8].contains width
  | .hostLinkDown _ => true
  | .vfEnableSet _ => true
  | .tillBadOpcode _ => true
  | .handoverStandbyFailed => true
  | .standbyMpLost => true
  | .packInstallDone handle => decide (handle < 2 ^ 32)
  | .mgmtFrameSent _ => true
  | .mgmtMalformedRequest _ frame => mgmtFrameOk frame
  | .nbrMalformedFrame _ _ frame => nbrFrameOk frame

end Sys2Proof
end

