-- ==== Sys2Proof/Safety.lean ====
section
/-! DEFINITION. The terms in which claims are stated: the parts of the module and what leaves them alone (frames), a
command's answer, a till command that is ready to run, and the invariant that every step keeps. -/

namespace Sys2Proof.Machine

/-- The parts of the module, but for its registers. -/
inductive Part where
  | ram | marks | nvm | host | outs | junctions | ports | cmd | data | checks | tiers | weights | avail | ingress | nbrs
  | trust | power | mgmt | wat | draws
deriving DecidableEq, Repr

/-- A part is the same in two states of the module. -/
def Part.same (h h' : Hall) : Part → Prop
  | .ram => h'.mem.ram = h.mem.ram
  | .marks => h'.mem.marks = h.mem.marks
  | .nvm => h'.mem.nvm = h.mem.nvm
  | .host => h'.mem.host = h.mem.host
  | .outs => h'.outs = h.outs
  | .junctions => h'.junctionA = h.junctionA ∧ h'.junctionB = h.junctionB
  | .ports => h'.portA = h.portA ∧ h'.portB = h.portB
  | .cmd => h'.cmd = h.cmd
  | .data => h'.data = h.data
  | .checks => h'.checks = h.checks
  | .tiers => h'.tiers = h.tiers
  | .weights => h'.weights = h.weights
  | .avail => h'.avail = h.avail
  | .ingress => h'.ingress = h.ingress
  | .nbrs => h'.nbrs = h.nbrs
  | .trust => h'.trust = h.trust
  | .power => h'.power = h.power
  | .mgmt => h'.mgmt = h.mgmt
  | .wat => h'.watPlain = h.watPlain
  | .draws => h'.freeCtr = h.freeCtr

/-- Nothing has changed but the parts given, and register fields that `may` allows. -/
def Frame (h h' : Hall) (parts : List Part) (may : Fld → Nat → Prop) : Prop :=
  (∀ p : Part, p ∉ parts → p.same h h') ∧ ∀ f u, ¬ may f u → h'.getF f u = h.getF f u

/-- No register field. -/
def noReg (_ : Fld) (_ : Nat) : Prop := False

/-- The register fields listed, of one unit. -/
def regsOf (u : Nat) (l : List Fld) (f : Fld) (v : Nat) : Prop := v = u ∧ f ∈ l

/-- The parts that posting an event may change: a queue's ring in host memory, its vector, queues and events, the
management links' queues (R71, R500). -/
def postParts : List Part := [.host, .outs, .cmd, .mgmt]

/-- The register fields that posting an event may change. -/
def postReg (f : Fld) (_ : Nat) : Prop :=
  f ∈ [Fld.queProd, .queStatusFull, .queStatusEmpty, .count .queDrop, .sat .queDrop, .count .mgmtTxDropped, .sat .mgmtTxDropped]

/-- Either of two allowances. -/
def orReg (a b : Fld → Nat → Prop) (f : Fld) (u : Nat) : Prop := a f u ∨ b f u

/-- Every byte of T0, T1 and the tills outside a range reads as before. -/
def RamOutside (h h' : Hall) (a n : Nat) : Prop :=
  ∀ b, b < a ∨ a + n ≤ b → Mem.read 0 h'.mem.ram b = Mem.read 0 h.mem.ram b

/-- A command answers the next state in which the module is `h'`; the queue is as it was. -/
def Becomes (i : Instr) (s : State) (h' : Hall) : Prop := exec i s = .next { hall := h', pending := s.pending }

/-- A command answers a next state whose module satisfies `P`, with the queue as it was. -/
def Gives (i : Instr) (s : State) (P : Hall → Prop) : Prop := ∃ h', Becomes i s h' ∧ P h'

/-- The governing MP finds a command of opcode `code` posted in till `t`, in sequence, past checks 2 to 5 of Table 2.14
(`sc`: secure-only in this use; `wide`: module-wide in this use) and without VALIDATE: it runs the command (R58, R59). -/
def Hall.tillReady (h : Hall) (t code : Nat) (sc wide : Bool) : Bool :=
  let c := h.tillCmd t
  h.tillServed t && decide (c.opcode = code) && decide (h.seqCheck c = .fresh) && (h.tillChecks c sc wide).isNone &&
    !bit c.flags 1

/-- The command in till `t` is answered with `status` and `payload`, the module being `h'` before the answer is presented. -/
def Answers (i : Instr) (s : State) (t status : Nat) (payload : Bytes) (h' : Hall) : Prop :=
  Becomes i s (h'.tillComplete (s.hall.tillCmd t) status payload)

/-- The payload of the command in a till. -/
def Hall.tillPayload (h : Hall) (t : Nat) : Bytes := (h.tillCmd t).payload

/-- The memories are in canonical form: addresses rise strictly, and no listed byte is what an unlisted address reads as
(0 in T0, T1, the tills and the host's memory; 0xFF, erased, in the weight arrays). -/
def MemSys.ok (m : MemSys) : Bool := Mem.wf 0 m.ram && Mem.wf 0 m.host && m.nvm.all fun e => Mem.wf 0xFF e.2

/-- The invariant that every step keeps: memories in canonical form, waiting commands well formed. -/
def State.Inv (s : State) : Prop := s.hall.mem.ok = true ∧ ∀ c ∈ s.pending, c.wellFormed = true

end Sys2Proof.Machine
end

