-- ==== Sys2Proof/Certificates/Slice0/Obligations.lean ====
section
/-! DEFINITION. The statements for the provers, family by family; OBLIGATIONS.json lists them. -/

open Sys2Proof Sys2Proof.Machine

/-- A step runs the command at the front of the queue with the queue's rest (sil00_scope.md). -/
def Obligations.StepRunsFrontCommand : Prop :=
  (∀ (h : Hall) (c : Instr) (rest : List Instr),
    step { hall := h, pending := c :: rest } = exec c { hall := h, pending := rest }) ∧
  ∀ h : Hall, step { hall := h, pending := [] } = .next { hall := h, pending := [] }

/-- Every command answers a next state and leaves the queue as it was (sil00_scope.md, R13). -/
def Obligations.EveryCommandCompletes : Prop :=
  ∀ (i : Instr) (s : State), ∃ h' : Hall, Becomes i s h'

/-- What reset leaves: every register at its reset value, nothing listed in memory, no command waiting (R481, R9, R40). -/
def Obligations.ResetState : Prop :=
  (∀ f u, State.reset.hall.getF f u = f.resetAt u) ∧
  (∀ a, Mem.read 0 State.reset.hall.mem.ram a = 0 ∧ Mem.read 0 State.reset.hall.mem.host a = 0) ∧
  (∀ r a, Mem.read 0xFF (Tab.get [] State.reset.hall.mem.nvm r) a = 0xFF) ∧
  State.reset.pending = [] ∧ State.reset.hall.governing = none ∧
  (∀ t, State.reset.hall.getF .tillState t = 0) ∧ ∀ q, (State.reset.hall.que q).qrec = none

/-- The invariant holds at reset (R39, R40, log entries 3 to 5). -/
def Obligations.InvariantAtReset : Prop := State.reset.Inv

/-- Every step keeps the memories in canonical form and the waiting commands well formed (R39, R40, R208, R270, R298, R310, R313, log entries 3 to 5). -/
def Obligations.InvariantKept : Prop :=
  ∀ s s' : State, s.Inv → step s = .next s' → s'.Inv

/-- A statistics counter grows by what is counted, sticks at its largest value and sets SAT there (R13, Table 0.7). -/
def Obligations.CountersStick : Prop :=
  ∀ (h : Hall) (c : Ctr) (u k : Nat), h.getF (.count c) u ≤ c.top →
    ((h.bump c u k).getF (.count c) u = min c.top (h.getF (.count c) u + k)) ∧
    (0 < k → c.top ≤ h.getF (.count c) u + k → (h.bump c u k).getF (.sat c) u = 1) ∧
    (h.getF (.count c) u + k < c.top → (h.bump c u k).getF (.sat c) u = h.getF (.sat c) u) ∧
    Frame h (h.bump c u k) [] (regsOf u [.count c, .sat c]) ∧
    ((h.clearCtr u c).getF (.count c) u = 0 ∧ (h.clearCtr u c).getF (.sat c) u = 0) ∧
    Frame h (h.clearCtr u c) [] (regsOf u [.count c, .sat c])

/-- A fault junction never loses an urgent record and drops an ordinary one only when its class is full (R29, R30). -/
def Obligations.JunctionClasses : Prop :=
  (∀ (j : Junction) (r : FjRec), r.urgent = true →
    (j.deposit r).urgent ++ (j.deposit r).held = j.urgent ++ j.held ++ [r] ∧
    (j.deposit r).ordinary = j.ordinary ∧ (j.deposit r).dropped = j.dropped ∧
    ((j.deposit r).heldCount = if j.urgent.length < 256 ∧ j.held = [] then j.heldCount else j.heldCount + 1)) ∧
  (∀ (j : Junction) (r : FjRec), r.urgent = false →
    ((j.deposit r).ordinary = if j.ordinary.length < 4096 then j.ordinary ++ [r] else j.ordinary) ∧
    ((j.deposit r).dropped = if j.ordinary.length < 4096 then j.dropped else j.dropped + 1) ∧
    (j.deposit r).urgent = j.urgent ∧ (j.deposit r).held = j.held ∧ (j.deposit r).heldCount = j.heldCount) ∧
  ∀ (h : Hall) (r : FjRec),
    (h.deposit r).junctionA = h.junctionA.deposit r ∧ (h.deposit r).junctionB = h.junctionB.deposit r ∧
    Frame h (h.deposit r) [.junctions] noReg

/-- The host posts a command in a till; while it is POSTED or RUNNING a doorbell only sets OVERRUN (R53, R58, Table 2.13). -/
def Obligations.TillPosting : Prop :=
  (∀ (s : State) (p : Hub) (fn : Fn) (t : Fin 128) (content : Bytes) (stores : List HostStore),
    s.hall.mem.ok = true → s.hall.tlpOk p = true → s.hall.hubLost (hubOf t) = false → s.hall.ownsTill fn t = true →
    s.hall.getF .tillState t ≠ 1 → s.hall.getF .tillState t ≠ 2 →
    Gives (.tillGo p fn t content stores) s fun h' =>
      h'.getF .tillState t = 1 ∧ h'.mem.host = (s.hall.hostStores stores).mem.host ∧
      (∀ i, i < min content.length 0xFC0 → Mem.read 0 h'.mem.ram (tillBase t + i) = content.getD i 0) ∧
      RamOutside s.hall h' (tillBase t) (min content.length 0xFC0) ∧
      Frame s.hall h' [.ram, .marks, .host] (regsOf t [.tillState])) ∧
  (∀ (s : State) (p : Hub) (fn : Fn) (t : Fin 128) (content : Bytes) (stores : List HostStore),
    s.hall.tlpOk p = true → s.hall.hubLost (hubOf t) = false → s.hall.ownsTill fn t = true →
    (s.hall.getF .tillState t = 1 ∨ s.hall.getF .tillState t = 2) →
    Gives (.tillGo p fn t content stores) s fun h' =>
      h'.getF .tillStateOverrun t = 1 ∧ h'.mem.host = (s.hall.hostStores stores).mem.host ∧
      Frame s.hall h' [.host] (regsOf t [.tillStateOverrun])) ∧
  (∀ (s : State) (p : Hub) (fn : Fn) (t : Fin 128),
    s.hall.tlpOk p = true → s.hall.hubLost (hubOf t) = false → s.hall.ownsTill fn t = true →
    Gives (.tillOverrunClear p fn t) s fun h' =>
      h'.getF .tillStateOverrun t = 0 ∧ Frame s.hall h' [] (regsOf t [.tillStateOverrun])) ∧
  ∀ (s : State) (p : Hub) (fn : Fn) (t : Fin 128) (content : Bytes) (stores : List HostStore),
    s.hall.tlpOk p = true → s.hall.hubLost (hubOf t) = false → s.hall.ownsTill fn t = false →
    Gives (.tillGo p fn t content stores) s fun h' =>
      h'.outs = .aerAdvisory p :: s.hall.outs ∧
      h'.getF (.count .pciDeniedCount) (hubNum p) = (s.hall.bump .pciDeniedCount (hubNum p)).getF (.count .pciDeniedCount) (hubNum p) ∧
      (∀ u, h'.getF .tillState u = s.hall.getF .tillState u ∧ h'.getF .tillStateOverrun u = s.hall.getF .tillStateOverrun u) ∧
      h'.mem.ram = s.hall.mem.ram ∧ h'.cmd = s.hall.cmd

/-- A function that does not own a till or queue gets Unsupported Request or a discarded write, and disturbs nothing (R53). -/
def Obligations.ForeignSlots : Prop :=
  ∀ (s : State) (p : Hub) (fn : Fn) (slot : SlotRef) (op : AccessOp),
    s.hall.tlpOk p = true → slotOwned s.hall p fn slot = false →
    Gives (.foreignSlotAccess p fn slot op) s fun h' =>
      h'.outs = (.completion p (match op with | .read _ => .unsupportedRequest | .write _ => .discarded)) :: .aerAdvisory p :: s.hall.outs ∧
      h'.getF (.count .pciDeniedCount) (hubNum p) = (s.hall.bump .pciDeniedCount (hubNum p)).getF (.count .pciDeniedCount) (hubNum p) ∧
      h'.mem = s.hall.mem ∧ h'.cmd = s.hall.cmd ∧ h'.data = s.hall.data ∧ h'.avail = s.hall.avail ∧
      ∀ u, h'.getF .tillState u = s.hall.getF .tillState u ∧ h'.getF .queProd u = s.hall.getF .queProd u ∧
        h'.getF .queCons u = s.hall.getF .queCons u ∧ h'.getF .queStatusDbReject u = s.hall.getF .queStatusDbReject u

/-- Reading PCI_DENIED_COUNT or QUE_DROP returns COUNT and SAT and clears them (R53, R75, Table 0.6). -/
def Obligations.ReadClearCounters : Prop :=
  (∀ (s : State) (p : Hub), s.hall.tlpOk p = true →
    Gives (.pciDeniedCountRead p) s fun h' =>
      h'.outs = .completion p (.data (leBytes 4 (s.hall.getF (.count .pciDeniedCount) (hubNum p) + 2 ^ 31 * s.hall.getF (.sat .pciDeniedCount) (hubNum p)))) :: s.hall.outs ∧
      h'.getF (.count .pciDeniedCount) (hubNum p) = 0 ∧ h'.getF (.sat .pciDeniedCount) (hubNum p) = 0 ∧
      Frame s.hall h' [.outs] (regsOf (hubNum p) [.count .pciDeniedCount, .sat .pciDeniedCount])) ∧
  ∀ (s : State) (p : Hub) (fn : Fn) (q : Fin 16384),
    s.hall.tlpOk p = true → s.hall.hubLost (hubOf q) = false → s.hall.ownsQue p fn q = true →
    Gives (.queDropRead p fn q) s fun h' =>
      h'.outs = .completion p (.data (leBytes 4 (s.hall.getF (.count .queDrop) q + 2 ^ 31 * s.hall.getF (.sat .queDrop) q))) :: s.hall.outs ∧
      h'.getF (.count .queDrop) q = 0 ∧ h'.getF (.sat .queDrop) q = 0 ∧
      Frame s.hall h' [.outs] (regsOf q [.count .queDrop, .sat .queDrop])

/-- QUE_PROD and QUE_CONS are accepted by the rules of R72 and R73 and otherwise set DB_REJECT (R72, R73, R74). -/
def Obligations.QueueIndices : Prop :=
  (∀ (s : State) (p : Hub) (fn : Fn) (q : Fin 16384) (v : Nat) (stores : List HostStore) (r : QueRec),
    s.hall.tlpOk p = true → s.hall.hubLost (hubOf q) = false → s.hall.ownsQue p fn q = true → (s.hall.que q).qrec = some r →
    s.hall.queResetting r = false → s.hall.flag .queStatusEnabled q = true → r.typ = 0 → v < queSize r → r.log2 ≤ 16 →
    s.hall.queCount q ≤ (v + queSize r - s.hall.getF .queCons q) % queSize r →
    Gives (.queProd p fn q v stores) s fun h' =>
      h'.getF .queProd q = v ∧ h'.mem.host = (s.hall.hostStores stores).mem.host ∧
      Frame s.hall h' [.host] (regsOf q [.queProd, .queStatusEmpty, .queStatusFull])) ∧
  (∀ (s : State) (p : Hub) (fn : Fn) (q : Fin 16384) (v : Nat) (stores : List HostStore) (r : QueRec),
    s.hall.tlpOk p = true → s.hall.hubLost (hubOf q) = false → s.hall.ownsQue p fn q = true → (s.hall.que q).qrec = some r →
    s.hall.queResetting r = false → s.hall.flag .queStatusEnabled q = true → r.typ = 0 → v < 65536 →
    (queSize r ≤ v ∨ (v + queSize r - s.hall.getF .queCons q) % queSize r < s.hall.queCount q) →
    Gives (.queProd p fn q v stores) s fun h' =>
      h'.getF .queStatusDbReject q = 1 ∧ Frame s.hall h' [.host] (regsOf q [.queStatusDbReject])) ∧
  (∀ (s : State) (p : Hub) (fn : Fn) (q : Fin 16384) (v : Nat) (r : QueRec),
    s.hall.tlpOk p = true → s.hall.hubLost (hubOf q) = false → s.hall.ownsQue p fn q = true → (s.hall.que q).qrec = some r →
    s.hall.queResetting r = false → s.hall.flag .queStatusEnabled q = true → r.typ = 1 → v < 65536 →
    (v < queSize r ∧ (v + queSize r - s.hall.getF .queCons q) % queSize r ≤ s.hall.queCount q →
      Gives (.queCons p fn q v) s fun h' =>
        h'.getF .queCons q = v ∧ Frame s.hall h' [] (regsOf q [.queCons, .queStatusEmpty, .queStatusFull])) ∧
    (¬ (v < queSize r ∧ (v + queSize r - s.hall.getF .queCons q) % queSize r ≤ s.hall.queCount q) →
      Gives (.queCons p fn q v) s fun h' =>
        h'.getF .queStatusDbReject q = 1 ∧ Frame s.hall h' [] (regsOf q [.queStatusDbReject]))) ∧
  (∀ (s : State) (p : Hub) (fn : Fn) (q : Fin 16384) (v : Nat),
    s.hall.tlpOk p = true → s.hall.hubLost (hubOf q) = false → s.hall.ownsQue p fn q = true →
    (∀ r, (s.hall.que q).qrec = some r → s.hall.queResetting r = false) → s.hall.flag .queStatusEnabled q = false →
    Gives (.queProd p fn q v []) s (fun h' =>
      h'.getF .queStatusDbReject q = 1 ∧ Frame s.hall h' [] (regsOf q [.queStatusDbReject])) ∧
    Gives (.queCons p fn q v) s fun h' =>
      h'.getF .queStatusDbReject q = 1 ∧ Frame s.hall h' [] (regsOf q [.queStatusDbReject])) ∧
  ∀ (s : State) (p : Hub) (fn : Fn) (q : Fin 16384),
    s.hall.tlpOk p = true → s.hall.hubLost (hubOf q) = false → s.hall.ownsQue p fn q = true →
    Gives (.dbRejectClear p fn q) s fun h' =>
      h'.getF .queStatusDbReject q = 0 ∧ Frame s.hall h' [] (regsOf q [.queStatusDbReject])

/-- A register write acts by the access code and from the governing MP; any other requester's write of a switchboard register changes nothing (R10, R12, R32, R53). -/
def Obligations.RegisterWriteAccess : Prop :=
  (∀ (s : State) (hub : Hub) (addr : Nat) (data : Bytes) (b : Blk × Nat × Nat),
    regBlockAt (s.hall.region addr) = some b → s.hall.governing ≠ some hub → b.1 ≠ .till →
    Becomes (.registerWrite (.mp hub) addr data) s s.hall) ∧
  (∀ (s : State) (p : Hub) (fn : Fn) (addr : Nat) (data : Bytes) (b : Blk × Nat × Nat),
    s.hall.tlpOk p = true → regBlockAt (s.hall.region addr) = some b → fn ≠ .pf0 → b.1 ≠ .till → b.1 ≠ .que →
    Becomes (.registerWrite (.host p fn) addr data) s s.hall) ∧
  (∀ (s : State) (p : Hub) (addr : Nat) (data : Bytes) (b : Blk × Nat × Nat),
    s.hall.tlpOk p = true → regBlockAt (s.hall.region addr) = some b → b.1 ≠ .till → b.1 ≠ .pci →
    Becomes (.registerWrite (.host p .pf0) addr data) s s.hall) ∧
  ∀ (s : State) (hub : Hub) (addr : Nat) (data : Bytes) (b : Blk × Nat × Nat) (f : Fld) (i : Nat),
    regBlockAt (s.hall.region addr) = some b → b.1 ≠ .till → s.hall.governing = some hub →
    fieldsIn b.1 b.2.2 data.length = [(f, i)] → f.info.acc = .rw →
    f ∉ [Fld.tallyStallState, .tallyStallRole, .tallyStallStrikes, .tallyStallFOvr, .mmuCfgCeThresh, .mmuCfgLateDefault,
      .ledgerCfgMaxReplay, .pwrCapWatts, .pwrDomForce, .pwrDomRetTicks, .pwrDomOffTicks, .pwrRailSet, .queProd, .queCons,
      .brwChCtrlEnable, .pciApertureBase, .tillCfgVector] →
    Gives (.registerWrite (.mp hub) addr data) s fun h' =>
      h'.getF f (f.unitIn b.2.1 i) =
        mergeField (s.hall.getF f (f.unitIn b.2.1 i)) f.info.hi f.info.lo (f.info.off + f.info.stride * i) b.2.2 data % 2 ^ f.width ∧
      Frame s.hall h' [] (regsOf (f.unitIn b.2.1 i) [f])

/-- PF0's aperture reaches BASE × 2^32 + offset: T0 and T1 read and written, a bus error is recorded (R39, R54). -/
def Obligations.ApertureAccesses : Prop :=
  ∀ (s : State) (p : Hub) (o : Nat), s.hall.tlpOk p = true → o < 2 ^ 32 →
    (∀ n, ((∃ hub, s.hall.region (s.hall.getF .pciApertureBase (hubNum p) * 2 ^ 32 + o) = .t1 hub) ∨
        ∃ r x, s.hall.region (s.hall.getF .pciApertureBase (hubNum p) * 2 ^ 32 + o) = .t0 r x) →
      s.hall.region (s.hall.getF .pciApertureBase (hubNum p) * 2 ^ 32 + o + n - 1) ≠ .outside →
      Gives (.apertureAccess p o (.read n)) s fun h' =>
        h'.outs = .completion p (.data (s.hall.readBytes (s.hall.getF .pciApertureBase (hubNum p) * 2 ^ 32 + o) n)) :: s.hall.outs ∧
        Frame s.hall h' [.outs] noReg) ∧
    (∀ data : Bytes, s.hall.mem.ok = true →
      ((∃ hub, s.hall.region (s.hall.getF .pciApertureBase (hubNum p) * 2 ^ 32 + o) = .t1 hub) ∨
        ∃ r x, s.hall.region (s.hall.getF .pciApertureBase (hubNum p) * 2 ^ 32 + o) = .t0 r x) →
      s.hall.region (s.hall.getF .pciApertureBase (hubNum p) * 2 ^ 32 + o + data.length - 1) ≠ .outside →
      Gives (.apertureAccess p o (.write data)) s fun h' =>
        (∀ i, i < data.length → Mem.read 0 h'.mem.ram (s.hall.getF .pciApertureBase (hubNum p) * 2 ^ 32 + o + i) = data.getD i 0) ∧
        RamOutside s.hall h' (s.hall.getF .pciApertureBase (hubNum p) * 2 ^ 32 + o) data.length ∧
        Frame s.hall h' [.ram, .marks] noReg) ∧
    ∀ op : AccessOp, s.hall.region (s.hall.getF .pciApertureBase (hubNum p) * 2 ^ 32 + o) = .outside →
      Gives (.apertureAccess p o op) s fun h' =>
        h'.outs = .completion p (match op with | .read _ => .completerAbort | .write _ => .discarded) :: s.hall.outs ∧
        h'.junctionA = s.hall.junctionA.deposit ⟨false, .busError, s.hall.getF .pciApertureBase (hubNum p) * 2 ^ 32 + o, 0⟩ ∧
        Frame s.hall h' [.outs, .junctions] noReg

/-- An SPDM request in order is answered and moves the responder on; any other is answered with ERROR and moves nothing (R437, Table 18.7). -/
def Obligations.SpdmResponder : Prop :=
  ∀ (s : State) (p : Hub) (r : Bytes), s.hall.portUp p = true →
    let x := (s.hall.port p).spdm
    let ok := fun (i : Instr) (code : Nat) (done : Spdm → Prop) => leAt r 1 1 = code → Gives i s fun h' =>
      if Config.spdmAccepts code x.transcript r = true then
        h'.outs = .doe p (Config.spdmAnswer code x.transcript r (Config.chain0, s.hall.trust.chain1) s.hall.freeCtr) :: s.hall.outs ∧
        done (h'.port p).spdm ∧ (h'.port p).ide = (s.hall.port p).ide ∧ h'.port (otherHub p) = s.hall.port (otherHub p) ∧
        Frame s.hall h' [.outs, .ports, .draws] noReg
      else h'.outs = .doe p (Config.spdmError r) :: s.hall.outs ∧ Frame s.hall h' [.outs] noReg
    ok (.getVersion p r) 0x84 (fun y => y.versioned = true ∧ y.session = false) ∧
    (x.versioned = true → ok (.getCapabilities p r) 0xE1 fun y => y.capable = true) ∧
    (x.capable = true → ok (.negotiateAlgorithms p r) 0xE3 fun y => y.negotiated = true) ∧
    (x.negotiated = true → ok (.getDigests p r) 0x81 (fun y => y.session = x.session) ∧
      ok (.getCertificate p r) 0x82 (fun y => y.session = x.session) ∧ ok (.challengeSpdm p r) 0x83 fun y => y.session = x.session) ∧
    (x.negotiated = true → x.session = false → ok (.keyExchange p r) 0xE4 fun y => y.exchanged = true) ∧
    (x.exchanged = true → ok (.finish p r) 0xE5 fun y => y.session = true ∧ y.exchanged = false) ∧
    (x.session = true → ok (.keyUpdate p r) 0xE9 (fun y => y.session = true ∧ y.keyGen = x.keyGen + 1) ∧
      ok (.endSession p r) 0xEC fun y => y.session = false)

/-- IDE keys are programmed and started in an SPDM session; a failed check makes the stream Insecure (R437, R438). -/
def Obligations.IdeKeyManagement : Prop :=
  (∀ (s : State) (p : Hub) (r : Bytes), s.hall.portUp p = true → (s.hall.port p).spdm.session = true →
    (leAt r 1 1 = 0 → Gives (.ideKmQuery p r) s fun h' =>
      h'.outs = .doe p (Config.ideQueryResp (hubNum p) r) :: s.hall.outs ∧ Frame s.hall h' [.outs] noReg) ∧
    (leAt r 1 1 = 2 → r.length = 48 → leAt r 7 1 = 0 → Gives (.keyProg p r) s fun h' =>
      Tab.find (h'.port p).ide.keySets (leAt r 6 1) = some (r.drop 8) ∧ h'.outs = .doe p (ideAck 3 0 r) :: s.hall.outs ∧
      Frame s.hall h' [.outs, .ports] noReg) ∧
    (leAt r 1 1 = 4 → (Tab.find (s.hall.port p).ide.keySets (leAt r 6 1)).isSome = true → Gives (.kSetGo p r) s fun h' =>
      (h'.port p).ide.secure = true ∧ (h'.port p).ide.failed = false ∧ (h'.port p).ide.active = some (ideSet r) ∧
      h'.outs = .doe p (ideAck 6 0 r) :: s.hall.outs ∧ Frame s.hall h' [.outs, .ports] noReg) ∧
    (leAt r 1 1 = 5 → (s.hall.port p).ide.active = some (ideSet r) → Gives (.kSetStop p r) s fun h' =>
      (h'.port p).ide.secure = false ∧ (h'.port p).ide.active = none ∧
      h'.outs = .doe p (ideAck 6 0 r) :: s.hall.outs ∧ Frame s.hall h' [.outs, .ports] noReg)) ∧
  ∀ (s : State) (p : Hub), s.hall.portUp p = true → (s.hall.port p).ide.secure = true →
    Gives (.ideCheckFail p) s fun h' =>
      (h'.port p).ide.secure = false ∧ (h'.port p).ide.failed = true ∧ h'.outs = .aerUncorrectable p :: s.hall.outs ∧
      h'.tlpOk p = false ∧ h'.port (otherHub p) = s.hall.port (otherHub p) ∧ Frame s.hall h' [.outs, .ports] noReg

/-- A host link comes up with its rate and width and is counted when it goes down (R46, R77, Table 2.7). -/
def Obligations.HostLinks : Prop :=
  (∀ (s : State) (p : Hub) (rate width : Nat), s.hall.flag .pciLinkStatusUp (hubNum p) = false → s.hall.hubLost p = false →
    s.hall.domState (hubDomain p 2) = 2 → 1 ≤ rate → rate ≤ 5 → width ∈ [1, 2, 4, 8] →
    Gives (.hostLinkUp p rate width) s fun h' =>
      h'.getF .pciLinkStatusUp (hubNum p) = 1 ∧ h'.getF .pciLinkStatusRate (hubNum p) = rate ∧
      h'.getF .pciLinkStatusWidth (hubNum p) = width ∧
      (h'.getF .pciLinkStatusDegraded (hubNum p) = 1 ↔ rate < 3 ∨ width < 8) ∧
      Frame s.hall h' [] (regsOf (hubNum p) [.pciLinkStatusUp, .pciLinkStatusRate, .pciLinkStatusWidth, .pciLinkStatusDegraded])) ∧
  ∀ (s : State) (p : Hub), s.hall.flag .pciLinkStatusUp (hubNum p) = true →
    Gives (.hostLinkDown p) s fun h' =>
      h'.getF .pciLinkStatusUp (hubNum p) = 0 ∧ h'.getF .pciLinkStatusRate (hubNum p) = 0 ∧
      h'.getF .pciLinkStatusWidth (hubNum p) = 0 ∧ h'.getF .pciLinkStatusDegraded (hubNum p) = 0 ∧
      h'.getF .pciLinkStatusDownCount (hubNum p) = min 0xFFFF (s.hall.getF .pciLinkStatusDownCount (hubNum p) + 1) ∧
      (0xFFFF ≤ s.hall.getF .pciLinkStatusDownCount (hubNum p) + 1 → h'.getF .pciLinkStatusDownSat (hubNum p) = 1) ∧
      (h'.port p).ide.secure = false ∧
      Frame s.hall h' [.ports] (regsOf (hubNum p) [.pciLinkStatusUp, .pciLinkStatusRate, .pciLinkStatusWidth,
        .pciLinkStatusDegraded, .pciLinkStatusDownCount, .pciLinkStatusDownSat])

/-- How a till's command is answered: sequence, unknown opcode, and what completion presents (R58, R59, R60, R61, Table 2.13, Table 2.14). -/
def Obligations.TillAnswering : Prop :=
  (∀ (h : Hall) (c : TillCmd) (status : Nat) (payload : Bytes), h.mem.ok = true → payload.length ≤ 3968 →
    let h' := h.tillComplete c status payload
    h'.getF .tillState c.till = 3 ∧ h'.getF .tillRespStatus c.till = status % 2 ^ 16 ∧
    h'.getF .tillRespLength c.till = payload.length ∧ h'.getF .tillRespSeq c.till = c.seq % 2 ^ 32 ∧
    h'.getF .tillLastSeq c.till = c.seq % 2 ^ 32 ∧ h'.getF .tillCfgSeqValid c.till = 1 ∧
    (h'.till c.till).stored = some ⟨status, payload⟩ ∧ (∀ t, t ≠ c.till → h'.till t = h.till t) ∧ h'.cmd.ques = h.cmd.ques ∧
    h'.cmd.ops = h.cmd.ops ∧
    (∀ i, i < payload.length → Mem.read 0 h'.mem.ram (tillBase c.till + 0x40 + i) = payload.getD i 0) ∧
    RamOutside h h' (tillBase c.till + 0x40) payload.length ∧
    Frame h h' [.ram, .marks, .outs, .cmd] (regsOf c.till [.tillState, .tillRespStatus, .tillRespLength, .tillRespSeq, .tillLastSeq, .tillCfgSeqValid])) ∧
  (∀ (s : State) (t : Fin 128), s.hall.tillServed t = true → opRow (s.hall.tillCmd t).opcode = none →
    s.hall.seqCheck (s.hall.tillCmd t) = .fresh → (s.hall.tillCmd t).reserved = false → (s.hall.tillCmd t).length ≤ 3968 →
    ((s.hall.tillCmd t).pen ≤ 31 ∨ (s.hall.tillCmd t).pen = 255) →
    Answers (.tillBadOpcode t) s t stBadOpcode [] s.hall) ∧
  (∀ (s : State) (t : Fin 128), s.hall.tillReady t (s.hall.tillCmd t).opcode false false = true →
    Answers (.hostReadFailed (.till t)) s t stNoResource [] s.hall) ∧
  (∀ (s : State) (token : Nat) (r : Req), s.hall.req token = some r → r.status = 0 →
    Gives (.hostReadFailed (.request token)) s fun h' =>
      (h'.req token).map Req.status = some stPoisoned ∧ Frame s.hall h' [.data] noReg) ∧
  ∀ (s : State) (t : Fin 128) (r : TillResp), s.hall.tillServed t = true → (s.hall.tillCmd t).opcode = 0x0A05 →
    s.hall.flag .tillCfgSeqValid t = true → (s.hall.tillCmd t).seq = s.hall.getF .tillLastSeq t →
    (s.hall.till t).stored = some r → r.payload.length ≤ 3968 →
    Becomes (.pwrQuery t) s (s.hall.tillDone (s.hall.tillCmd t) r.status r.payload)

/-- CLEAR writes that wait for their block's moment: stalls, Ledger, Tally, MMU, tree and session ports (R32, R132, R154, R179, R203, R223, R253, R275, R371, R393). -/
def Obligations.ClearsThatWait : Prop :=
  (∀ (s : State) (req : Requester) (r : Fin 8) (x : Fin 16),
      let u := 16 * r.val + x.val
      let clears : List (Instr × StallClear × List Fld) :=
        [(.oxClearLast req r x, .oxLast, [.oxChkLastValid]),
         (.oxClearStats req r x, .oxStats, [.count .oxBeats, .sat .oxBeats, .count .oxChkMismatch]),
         (.vuClearStats req r x, .vuStats, [.count .vuBeats, .sat .vuBeats, .count .vuQclamp]),
         (.henClearStats req r x, .henStats, [.count .henBeats, .sat .henBeats, .count .henClip]),
         (.expClearLast req r x, .expLast, [.expFailLastValid]),
         (.expClearStats req r x, .expStats, [.count .expBlocks, .sat .expBlocks, .count .expCheckFail]),
         (.stallClearStats req r x, .stallStats, [.count .stallSteps, .sat .stallSteps, .count .stallDispatchMiss])]
      ∀ e ∈ clears,
        (s.hall.accepts req = false → Becomes e.1 s s.hall) ∧
        (s.hall.accepts req = true →
          ((s.hall.stall u).ox.isNone && (s.hall.stall u).vu.isNone && (s.hall.stall u).hen.isNone) = false →
          Becomes e.1 s (s.hall.updStall u fun y => { y with clears := y.clears ++ [e.2.1] })) ∧
        (s.hall.accepts req = true →
          ((s.hall.stall u).ox.isNone && (s.hall.stall u).vu.isNone && (s.hall.stall u).hen.isNone) = true →
          Gives e.1 s fun h' => ∀ f ∈ e.2.2, h'.getF f u = 0)) ∧
    ∀ (s : State) (req : Requester),
      (s.hall.accepts req = true →
        (∀ r : Fin 8, Becomes (.ledgerClearLast req r) s (s.hall.updLedger r fun l => { l with clearLast := true })) ∧
        (∀ r : Fin 8, Becomes (.ledgerClearStats req r) s (s.hall.updLedger r fun l => { l with clearStats := true })) ∧
        (∀ r : Fin 8, Becomes (.tallyClearLast req r) s (s.hall.updTally r fun t => { t with clearLast := true })) ∧
        (∀ r : Fin 8, Becomes (.tallyClearStats req r) s (s.hall.updTally r fun t => { t with clearStats := true })) ∧
        (∀ hub, Gives (.mmuClearCe req hub) s fun h' =>
          (Tab.get {} h'.tiers.mmuDue (hubNum hub) : MmuDue).ce = true ∧ Frame s.hall h' [.tiers] noReg) ∧
        (∀ hub, Gives (.mmuClearLast req hub) s fun h' =>
          (Tab.get {} h'.tiers.mmuDue (hubNum hub) : MmuDue).last = true ∧ Frame s.hall h' [.tiers] noReg) ∧
        (∀ hub, Gives (.mmuClearStats req hub) s fun h' =>
          (Tab.get {} h'.tiers.mmuDue (hubNum hub) : MmuDue).stats = true ∧ Frame s.hall h' [.tiers] noReg) ∧
        (∀ p : Fin 8, Becomes (.treeClearLast req p) s (s.hall.updPortT p fun t => { t with clearLast := true })) ∧
        (∀ p : Fin 8, Becomes (.treeClearStats req p) s (s.hall.updPortT p fun t => { t with clearStats := true })) ∧
        ∀ p : Fin 8, Becomes (.sessClearStats req p) s (s.hall.updPortT p fun t => { t with clearSess := true })) ∧
      (s.hall.accepts req = false →
        (∀ r : Fin 8, Becomes (.ledgerClearLast req r) s s.hall ∧ Becomes (.ledgerClearStats req r) s s.hall ∧
          Becomes (.tallyClearLast req r) s s.hall ∧ Becomes (.tallyClearStats req r) s s.hall) ∧
        (∀ hub, Becomes (.mmuClearCe req hub) s s.hall ∧ Becomes (.mmuClearLast req hub) s s.hall ∧ Becomes (.mmuClearStats req hub) s s.hall) ∧
        ∀ p : Fin 8, Becomes (.treeClearLast req p) s s.hall ∧ Becomes (.treeClearStats req p) s s.hall ∧ Becomes (.sessClearStats req p) s s.hall)

/-- CLEAR writes that act at once zero exactly their own fields (R13, R32, R294, R319, R409, R441, R470, R504). -/
def Obligations.ClearsAtOnce : Prop :=
  ∀ (s : State) (req : Requester),
    let stats := fun (i : Instr) (u : Nat) (cs : List Ctr) =>
      (s.hall.accepts req = true → Gives i s fun h' =>
        (∀ c ∈ cs, h'.getF (.count c) u = 0 ∧ h'.getF (.sat c) u = 0) ∧
        Frame s.hall h' [] fun f v => v = u ∧ ∃ c ∈ cs, f = .count c ∨ f = .sat c) ∧
      (s.hall.accepts req = false → Becomes i s s.hall)
    let last := fun (i : Instr) (u : Nat) (fs : List Fld) =>
      (s.hall.accepts req = true → Gives i s fun h' => (∀ f ∈ fs, h'.getF f u = 0) ∧ Frame s.hall h' [] (regsOf u fs)) ∧
      (s.hall.accepts req = false → Becomes i s s.hall)
    (∀ r : Fin 8, stats (.nvmcClearStats req r) r nvmcCounters ∧
      last (.nvmcClearLast req r) r [.nvmcLastCmdValid, .nvmcLastCmdResult, .nvmcLastCmd, .nvmcLastCmdBank]) ∧
    (∀ p : Fin 4, stats (.nbrClearStats req p) p nbrCounters) ∧
    (∀ e : Fin 16, stats (.vdecClearStats req e) e vdecCtrs) ∧
    (∀ hub, stats (.watClearStats req hub) (hubNum hub) [.watDenials] ∧
      last (.watClearLast req hub) (hubNum hub)
        [.watDenyLastValid, .watDenyLastKind, .watDenyLastSource, .watDenyLastDir, .watDenyLastSourceId, .watDenyLastIndex]) ∧
    (∀ hub, stats (.gooseClearStats req hub) (hubNum hub) [.gooseEvals, .gooseAlarms, .gooseDisagree, .gooseStale]) ∧
    (∀ hub, stats (.mgmtClearStats req hub) (hubNum hub) [.mgmtFramesOut, .mgmtFramesIn, .mgmtTxDropped, .mgmtReqDropped, .mgmtBadIn]) ∧
    ∀ e : Engine,
      (s.hall.accepts req = true → Gives (.brwClearStats req e) s fun h' =>
        (∀ c ∈ [Ctr.brwBursts, .brwBusErrors, .brwSkips, .brwRestarts, .brwDrops],
          h'.getF (.count c) (engineNum e) = 0 ∧ h'.getF (.sat c) (engineNum e) = 0) ∧
        (∀ c ∈ engineChans (engineNum e), h'.getF (.count .brwChBytes) c = 0 ∧ h'.getF (.sat .brwChBytes) c = 0) ∧
        Frame s.hall h' [] fun f v => (v = engineNum e ∧ ∃ c ∈ [Ctr.brwBursts, .brwBusErrors, .brwSkips, .brwRestarts, .brwDrops],
          f = .count c ∨ f = .sat c) ∨ (v ∈ engineChans (engineNum e) ∧ (f = .count .brwChBytes ∨ f = .sat .brwChBytes))) ∧
      (s.hall.accepts req = false → Becomes (.brwClearStats req e) s s.hall)

/-- How a power domain moves between ON, RET, OFF and WAKING (R474, R475, R476, R477, Table 20.11). -/
def Obligations.DomainStates : Prop :=
  ∀ (s : State) (d : Fin 176),
    (s.hall.domState d = 2 → s.hall.getF .pwrDomForce d = 0 → s.hall.getF .pwrDomRetTicks d ≠ 0 → (domainOf d).autoOk = true →
      s.hall.domIdle (domainOf d) = true →
      Gives (.domainEnterRet d) s fun h' => h'.domState d = 1 ∧ Frame s.hall h' [] (regsOf d [.pwrDomState])) ∧
    (s.hall.domState d = 1 → s.hall.getF .pwrDomForce d = 0 → s.hall.getF .pwrDomOffTicks d ≠ 0 → (domainOf d).autoOk = true →
      s.hall.offAllowed (domainOf d) = true →
      Gives (.domainEnterOff d) s fun h' => h'.domState d = 0 ∧ ∀ e, e ≠ d.val → h'.domState e = s.hall.domState e) ∧
    (s.hall.powered = true → (domainOf d).ofP0 = false → s.hall.getF .pwrDomForce d = 1 → s.hall.domState d = 1 →
      Gives (.domainForceApply d) s fun h' => h'.domState d = 3 ∧ Frame s.hall h' [] (regsOf d [.pwrDomState])) ∧
    (s.hall.powered = true → (domainOf d).ofP0 = false → s.hall.getF .pwrDomForce d = 3 → (domainOf d).has 0 = true →
      s.hall.domState d = 2 → s.hall.domIdle (domainOf d) = true →
      Gives (.domainForceApply d) s fun h' => h'.domState d = 0) ∧
    (s.hall.powered = true → s.hall.domState d = 1 →
      Gives (.domainWake d) s fun h' => h'.domState d = 3 ∧ Frame s.hall h' [] (regsOf d [.pwrDomState])) ∧
    (s.hall.powered = true → s.hall.domState d = 0 → s.hall.flag .pwrDomWakeLvl d = true →
      Gives (.domainWake d) s fun h' =>
        h'.domState d = 3 ∧ h'.power.fromOff = d.val :: s.hall.power.fromOff ∧ Frame s.hall h' [.power] (regsOf d [.pwrDomState])) ∧
    (s.hall.domState d = 3 → ¬ (s.hall.power.fromOff.contains d.val = true ∧ s.hall.flag .pwrStatusBrownout 0 = true) →
      Gives (.domainWakeDone d) s fun h' =>
        h'.domState d = 2 ∧ h'.power.fromOff = s.hall.power.fromOff.filter (· ≠ d.val) ∧ Frame s.hall h' [.power] (regsOf d [.pwrDomState])) ∧
    ∀ req, s.hall.accepts req = true → s.hall.powered = true → s.hall.domState d = 1 →
      Gives (.wakePulse req d) s fun h' => h'.domState d = 3 ∧ Frame s.hall h' [] (regsOf d [.pwrDomState])

/-- An armed RTC alarm fires at its time and wakes its domain; clearing FIRED clears ARMED with it (R475, R486). -/
def Obligations.RtcAlarms : Prop :=
  ∀ (s : State) (hub : Hub) (a : Fin 8),
    let u := 8 * hubNum hub + a.val
    (s.hall.flag .rtcAlarmArmed u = true → s.hall.flag .rtcAlarmFired u = false →
      s.hall.getF .rtcAlarmTime u ≤ s.hall.getF .rtcCountTicks (hubNum hub) →
      Gives (.rtcAlarmFire hub a) s fun h' =>
        h'.getF .rtcAlarmFired u = 1 ∧
        (s.hall.powered = true → s.hall.getF .rtcAlarmDomain u < 176 → s.hall.domState (s.hall.getF .rtcAlarmDomain u) = 1 →
          h'.domState (s.hall.getF .rtcAlarmDomain u) = 3) ∧
        Frame s.hall h' [.power] fun f v => (f = .rtcAlarmFired ∧ v = u) ∨ (f = .pwrDomState ∧ v = s.hall.getF .rtcAlarmDomain u)) ∧
    ∀ req, s.hall.accepts req = true → s.hall.flag .rtcAlarmFired u = true →
      Gives (.rtcAlarmClear req hub a) s fun h' =>
        h'.getF .rtcAlarmFired u = 0 ∧ h'.getF .rtcAlarmArmed u = 0 ∧ Frame s.hall h' [] (regsOf u [.rtcAlarmFired, .rtcAlarmArmed])

/-- A rail slews by at most 10 mV; samples are shown and kept; a hot die is noted and let go again (R478, R479, R480). -/
def Obligations.RailsAndHeat : Prop :=
  (∀ (s : State) (n : Fin 10), s.hall.getF .pwrRailActual n < 2 ^ 16 → s.hall.railTarget n < 2 ^ 16 →
    Gives (.railSlewStep n) s fun h' =>
      h'.getF .pwrRailActual n = (if s.hall.getF .pwrRailActual n < s.hall.railTarget n then min (s.hall.railTarget n) (s.hall.getF .pwrRailActual n + 10)
        else max (s.hall.railTarget n) (s.hall.getF .pwrRailActual n - 10)) ∧
      Frame s.hall h' [] (regsOf n [.pwrRailActual])) ∧
  (∀ (s : State) (va wa vb wb : Nat), va < 2 ^ 16 → wa < 2 ^ 16 → vb < 2 ^ 16 → wb < 2 ^ 16 → s.hall.getF .pwrCapWatts 0 = 0 →
    Gives (.powerSample va wa vb wb) s fun h' =>
      (∀ u, u = 0 ∨ u = 1 → h'.getF .pwrInputVoltsA u = va ∧ h'.getF .pwrInputWattsA u = wa ∧ h'.getF .pwrInputVoltsB u = vb ∧
        h'.getF .pwrInputWattsB u = wb) ∧
      h'.power.samples = ((wa + wb) :: s.hall.power.samples).take 1024 ∧ h'.power.capDrop = s.hall.power.capDrop ∧
      Frame s.hall h' [.power] fun f u => (u = 0 ∨ u = 1) ∧
        f ∈ [Fld.pwrInputVoltsA, .pwrInputWattsA, .pwrInputVoltsB, .pwrInputWattsB, .pwrStatusCapped]) ∧
  (∀ (s : State) (n : Fin 10) (tj : Nat), 110 ≤ tj → tj < 256 → s.hall.governing.isSome = true →
    Gives (.thermalLimit n tj) s fun h' => h'.power.hot.contains n.val = true ∧ h'.railTarget n ≤ 680) ∧
  ∀ (s : State) (n : Fin 10) (tj : Nat), tj < 100 →
    Gives (.thermalRecover n tj) s fun h' =>
      h'.getF .pwrRailTj n = tj ∧ h'.power.hot.contains n.val = false ∧ Frame s.hall h' [.power] (regsOf n [.pwrRailTj])

/-- The PWR commands of a till: what they set and what they answer (R473, R478, R479, R482, R484, Table 20.7). -/
def Obligations.PowerTillCommands : Prop :=
  ∀ (s : State) (t : Fin 128),
    let b := s.hall.tillPayload t
    let c := s.hall.tillCmd t
    (s.hall.tillReady t 0x0A01 (!s.hall.domOfPen c.pen (domainOf (leAt b 0 1)) && decide (leAt b 0 1 < 176)) false = true →
      c.length = 10 → leAt b 0 1 < 176 → leAt b 1 1 ≤ 1 → leAt b 2 4 < 2 ^ 24 → leAt b 6 4 = 0 →
      (leAt b 2 4 = 0 ∨ (domainOf (leAt b 0 1)).has 1 = true) → s.hall.domForeign c.pen (domainOf (leAt b 0 1)) = false →
      ((domainOf (leAt b 0 1)).ofP0 = false ∨ leAt b 2 4 = 0) →
      Answers (.pwrDomainSet t) s t stOK [] (s.hall.setFs (leAt b 0 1) [(.pwrDomForce, leAt b 1 1), (.pwrDomRetTicks, leAt b 2 4), (.pwrDomOffTicks, leAt b 6 4)])) ∧
    (s.hall.tillReady t 0x0A02 false false = true → c.length = 3 → leAt b 0 1 ≤ 9 → 680 ≤ leAt b 1 2 → leAt b 1 2 ≤ 900 →
      leAt b 1 2 % 10 = 0 → Answers (.pwrRailSet t) s t stOK [] (s.hall.setF .pwrRailSet (leAt b 0 1) (leAt b 1 2))) ∧
    (s.hall.tillReady t 0x0A03 false false = true → c.length = 2 → (leAt b 0 2 = 0 ∨ 100 ≤ leAt b 0 2 ∧ leAt b 0 2 ≤ 600) →
      ∃ h', Answers (.pwrCapSet t) s t stOK [] h' ∧ h'.getF .pwrCapWatts 0 = leAt b 0 2 ∧ h'.getF .pwrCapWatts 1 = leAt b 0 2 ∧
        (leAt b 0 2 = 0 → h'.power.capDrop = []) ∧
        Frame s.hall h' [.power] fun f u => (u = 0 ∨ u = 1) ∧ f ∈ [Fld.pwrCapWatts, .pwrStatusCapped]) ∧
    (s.hall.tillReady t 0x0A04 false false = true → c.length = 1 → leAt b 0 1 ≤ 1 →
      ∃ h', Answers (.pwrStartSet t) s t stOK [] h' ∧ h'.power.gooseStart = decide (leAt b 0 1 = 1) ∧ Frame s.hall h' [.power] noReg) ∧
    (s.hall.tillReady t 0x0A05 false false = true → c.length = 2 → leAt b 0 1 + leAt b 1 1 ≤ 176 →
      Answers (.pwrQuery t) s t stOK (((List.range (leAt b 1 1)).flatMap fun i =>
          leBytes 1 (s.hall.domState (leAt b 0 1 + i)) ++ leBytes 1 (s.hall.getF .pwrDomForce (leAt b 0 1 + i))) ++
        leBytes 2 (s.hall.getF .pwrInputVoltsA 0) ++ leBytes 2 (s.hall.getF .pwrInputWattsA 0) ++
        leBytes 2 (s.hall.getF .pwrInputVoltsB 0) ++ leBytes 2 (s.hall.getF .pwrInputWattsB 0)) s.hall)

/-- Start-up, brown-out, loss of feeds and thermal shutdown (R32, R313, R431, R473, R481, R483, R491, R493, Table 20.6). -/
def Obligations.StartAndLossOfPower : Prop :=
  let keeps := fun (h h' : Hall) =>
    h'.mem.host = h.mem.host ∧ h'.trust.keys = h.trust.keys ∧ h'.trust.rollback = h.trust.rollback ∧ h'.trust.chain1 = h.trust.chain1
  let waits := fun (h' : Hall) =>
    h'.getF .pwrStatusStage 0 = 6 ∧ h'.governing = none ∧ (h'.mp .a).state = .romRecovery ∧ (h'.mp .b).state = .romRecovery
  (∀ (s : State) (f : Hub), s.hall.feed .a = false → s.hall.feed .b = false →
    Gives (.powerApplied f) s fun h' =>
      h'.getF .pwrStatusStage 0 = 1 ∧ h'.feed f = true ∧ h'.brownout = true ∧ h'.mem.ram = [] ∧ keeps s.hall h') ∧
  (∀ (s : State) (tests : StartTests), (s.hall.feed .a = true ∨ s.hall.feed .b = true) → s.hall.power.shutdown = false →
    s.hall.brownout = false →
    Gives (.moduleReset tests) s fun h' =>
      (s.hall.bootSlot = none → waits h' ∧ h'.mem.ram = [] ∧ keeps s.hall h') ∧
      (s.hall.bootSlot.isSome = true → tests.failA = false → h'.getF .pwrStatusStage 0 = 11)) ∧
  (∀ (s : State) (f : Hub), s.hall.feed f = true → s.hall.feed (otherHub f) = true →
    Gives (.feedLost f) s fun h' => h'.feed f = false ∧ h'.feed (otherHub f) = true ∧
      Frame s.hall h' postParts (orReg postReg fun g u => (u = 0 ∨ u = 1) ∧ g = feedFld f)) ∧
  (∀ (s : State) (f : Hub), s.hall.feed f = true → s.hall.feed (otherHub f) = false →
    Gives (.feedLost f) s fun h' =>
      h'.getF .pwrStatusStage 0 = 0 ∧ h'.feed f = false ∧ h'.mem.ram = [] ∧ h'.powered = false ∧ keeps s.hall h') ∧
  (∀ (s : State) (f : Hub), s.hall.feed f = false → s.hall.feed (otherHub f) = true →
    Gives (.feedRestored f) s fun h' => h'.feed f = true ∧
      Frame s.hall h' postParts (orReg postReg fun g u => (u = 0 ∨ u = 1) ∧ g = feedFld f)) ∧
  (∀ s : State, s.hall.brownout = false → (s.hall.feed .a = true ∨ s.hall.feed .b = true) →
    Gives .brownoutAssert s fun h' => h'.brownout = true ∧ keeps s.hall h') ∧
  (∀ (s : State) (tests : StartTests), s.hall.brownout = true →
    Gives (.brownoutClear tests) s fun h' =>
      ((s.hall.waitsStart = false ∨ s.hall.power.shutdown = true) → h'.brownout = false ∧ keeps s.hall h') ∧
      (s.hall.waitsStart = true → s.hall.power.shutdown = false →
        (s.hall.bootSlot = none → waits h' ∧ h'.brownout = false) ∧
        (s.hall.bootSlot.isSome = true → tests.failA = false → h'.getF .pwrStatusStage 0 = 11))) ∧
  (∀ (s : State) (n : Fin 10) (tj : Nat), 120 ≤ tj → tj < 256 → s.hall.powered = true →
    Gives (.thermalShutdown n tj) s fun h' =>
      h'.power.shutdown = true ∧ h'.powered = false ∧ h'.getF .pwrRailTj n = tj ∧ h'.mem.ram = [] ∧ keeps s.hall h') ∧
  ∀ (s : State) (tests : StartTests), s.hall.power.shutdown = true → s.hall.brownout = false →
    Gives (.thermalRestart tests) s fun h' =>
      (s.hall.bootSlot = none → waits h' ∧ h'.power.shutdown = false) ∧
      (s.hall.bootSlot.isSome = true → tests.failA = false → h'.getF .pwrStatusStage 0 = 11)

/-- FW_INSTALL puts a package that qualifies into the inactive slot, and no other (R431, R467, Table 19.7). -/
def Obligations.FirmwareInstall : Prop :=
  ∀ (s : State) (t : Fin 128) (tests : StartTests), s.hall.tillReady t 0x0D01 false false = true → (s.hall.tillCmd t).length = 12 →
    s.hall.avail.handover = none → s.hall.governing.isSome = true →
    ∃ h', Answers (.fwInstall t tests) s t stAccepted (leBytes 4 s.hall.cmd.nextHandle) h' ∧
      h'.trust.active = s.hall.trust.active ∧ h'.trust.rollback = s.hall.trust.rollback ∧ h'.trust.keys = s.hall.trust.keys ∧
      (s.hall.trust.active = 0 → h'.trust.slot0 = s.hall.trust.slot0 ∧ (h'.trust.slot1 = s.hall.trust.slot1 ∨
        ∃ b f, Config.firmware b = some f ∧ f.chainOk = true ∧ f.sigOk = true ∧ s.hall.trust.rollback ≤ f.svn ∧
          h'.trust.slot1 = some ⟨f.svn, f.build, b⟩))

/-- The TRUST commands of a till: keys, chains, the anti-rollback counter and the IDE policy (R429, R430, R432, R434, R438, R439, Table 18.9). -/
def Obligations.TrustStoreCommands : Prop :=
  ∀ (s : State) (t : Fin 128),
    let b := s.hall.tillPayload t
    let c := s.hall.tillCmd t
    (s.hall.tillReady t 0x0B05 false false = true → c.length = 14 → leAt b 0 1 ≠ 0 → leAt b 0 1 ≤ 5 → leAt b 1 1 ≤ 15 →
      Tab.find s.hall.trust.keys (16 * leAt b 0 1 + leAt b 1 1) = none →
      ∀ (der : Bytes) (h1 : Hall), s.hall.stageCopy 0 (leAt b 2 8) (leAt b 10 4) = (.inr der, h1) →
        ∃ (st : Nat) (h' : Hall), Answers (.trustKeyAdd t) s t st [] h' ∧
          (∀ spki, Config.publicKey der = some (spki, true) → st = stOK ∧
            Tab.find h'.trust.keys (16 * leAt b 0 1 + leAt b 1 1) = some spki ∧ Frame h1 h' [.trust] noReg) ∧
          ((∀ spki, Config.publicKey der ≠ some (spki, true)) → st = stBadArg ∧ h' = h1)) ∧
    (s.hall.tillReady t 0x0B06 false false = true → c.length = 2 → leAt b 1 1 ≤ 15 → leAt b 0 1 ≠ purposeEndpoint →
      leAt b 0 1 ≠ purposeNeighbour → (Tab.find s.hall.trust.keys (16 * leAt b 0 1 + leAt b 1 1)).isSome = true →
      ∃ h', Answers (.trustKeyRemove t) s t stOK [] h' ∧ Tab.find h'.trust.keys (16 * leAt b 0 1 + leAt b 1 1) = none ∧
        (∀ k, k ≠ 16 * leAt b 0 1 + leAt b 1 1 → Tab.find h'.trust.keys k = Tab.find s.hall.trust.keys k) ∧
        Frame s.hall h' [.trust] noReg) ∧
    (s.hall.tillReady t 0x0B07 false false = true → c.length = 1 → leAt b 0 1 ≠ 0 → leAt b 0 1 ≤ 5 →
      Answers (.trustKeyList t) s t stOK ((s.hall.keysOf (leAt b 0 1)).flatMap fun k => leBytes 1 k.1 ++ sha512 k.2) s.hall) ∧
    (s.hall.tillReady t 0x0B03 false false = true → c.length = 12 → leAt b 8 4 = 0 →
      ∃ h', Answers (.trustCertSet t) s t stOK [] h' ∧ h'.trust = { s.hall.trust with chain1 := none } ∧ Frame s.hall h' [.trust] noReg) ∧
    (s.hall.tillReady t 0x0B03 false false = true → c.length = 12 → leAt b 8 4 ≠ 0 →
      ∀ (der : Bytes) (h1 : Hall), s.hall.stageCopy 0 (leAt b 0 8) (leAt b 8 4) = (.inr der, h1) → der.length ≤ 12288 →
        ∃ (st : Nat) (h' : Hall), Answers (.trustCertSet t) s t st [] h' ∧
          ∀ certs, Config.x509 der = some certs → chainForm certs = true →
            (chainSigned certs = true ∧ certs.head?.map Config.Cert.spki = some Config.identityKey →
              st = stOK ∧ h'.trust = { h1.trust with chain1 := some der }) ∧
            (chainSigned certs = false → st = stVerifyFailed ∧ h' = h1)) ∧
    (s.hall.tillReady t 0x0B09 false false = true → c.length = 4 → s.hall.trust.rollback < leAt b 0 4 → s.hall.avail.handover = none →
      (∀ f, s.hall.trust.slot0 = some f ∨ s.hall.trust.slot1 = some f → leAt b 0 4 ≤ f.svn) → s.hall.flag .pwrStatusBrownout 0 = false →
      ∃ h', Answers (.trustRollbackSet t) s t stOK [] h' ∧ h'.trust.rollback = leAt b 0 4 ∧
        (h'.trust.rollbackSat = true ↔ leAt b 0 4 = 2 ^ 32 - 1) ∧ Frame s.hall h' [.trust] noReg) ∧
    (s.hall.tillReady t 0x0B0A false false = true → c.length = 2 → leAt b 0 1 ≤ 1 → leAt b 1 1 ≤ 1 →
      ∃ h', Answers (.trustIdePolicy t) s t stOK [] h' ∧ (h'.port (hubOf (leAt b 0 1))).ide.required = decide (leAt b 1 1 = 1) ∧
        h'.port (otherHub (hubOf (leAt b 0 1))) = s.hall.port (otherHub (hubOf (leAt b 0 1))) ∧ Frame s.hall h' [.ports] noReg) ∧
    (s.hall.tillReady t 0x0D03 false false = true → c.length = 0 →
      ∃ a, Answers (.fwQuery t) s t stOK a s.hall ∧ a.length = 16 ∧
        (∀ f, s.hall.trust.slot0 = some f → leAt a 0 4 = f.svn % 2 ^ 32) ∧ leAt a 6 1 = b2n (decide (s.hall.trust.active = 0)))

/-- TRUST_ATTEST, TRUST_CERT_GET and TRUST_CSR write what they report to a writable place and answer its length (R433, R434, R435, R439). -/
def Obligations.ReportsAndCertificates : Prop :=
  ∀ (s : State) (t : Fin 128),
    let b := s.hall.tillPayload t
    let c := s.hall.tillCmd t
    (s.hall.tillReady t 0x0B02 false false = true → c.length = 13 → leAt b 0 1 = 0 → s.hall.dstOk c.pen (leAt b 1 8) (leAt b 9 4) = true →
      (if leAt b 9 4 < Config.chain0.length then Answers (.trustCertGet t) s t stNoResource [] s.hall
        else Answers (.trustCertGet t) s t stOK (leBytes 4 Config.chain0.length) (s.hall.jenigStore c.pen (leAt b 1 8) Config.chain0))) ∧
    (s.hall.tillReady t 0x0B04 false false = true → c.length = 14 + leAt b 0 2 →
      s.hall.dstOk 0 (leAt b (2 + leAt b 0 2) 8) (leAt b (10 + leAt b 0 2) 4) = true →
      ∃ (st : Nat) (a : Bytes) (h' : Hall), Answers (.trustCsr t) s t st a h' ∧ h'.trust = s.hall.trust ∧
        (st = stOK ∧ a.length = 4 ∨ st = stNoResource ∧ a = [] ∧ h'.mem = s.hall.mem)) ∧
    (s.hall.tillReady t 0x0B01 false false = true → c.length = 44 → s.hall.dstOk c.pen (leAt b 32 8) (leAt b 40 4) = true →
      ∃ h', Answers (.trustAttest t) s t stAccepted (leBytes 4 s.hall.cmd.nextHandle) h' ∧ h'.trust = s.hall.trust ∧
        Tab.find h'.cmd.ops s.hall.cmd.nextHandle = none ∧ h'.cmd.nextHandle = (s.hall.cmd.nextHandle + 1) % 2 ^ 32)

/-- TRUST_WAT_SET changes exactly the entries named, and a granule that leaves the secure world is zeroed first (R424, R425, R426). -/
def Obligations.WorldTable : Prop :=
  (∀ (s : State) (t : Fin 128),
    let b := s.hall.tillPayload t
    let c := s.hall.tillCmd t
    let kind := leAt b 0 1
    let secure := decide (leAt b 1 1 = 1)
    s.hall.tillReady t 0x0B08 false false = true → c.length = 10 → leAt b 1 1 ≤ 1 → kind ∈ [1, 2, 5, 6, 7, 8, 9, 10] →
    leAt b 2 4 + leAt b 6 4 ≤ watCount kind → (∀ i, i < leAt b 6 4 → s.hall.watAllowed kind (leAt b 2 4 + i) secure = true) →
    (s.hall.watZeroes kind (leAt b 2 4) (leAt b 6 4) secure ≤ 1024 →
      ∃ h', Answers (.trustWatSet t) s t stOK [] h' ∧
        (∀ i, i < leAt b 6 4 → h'.secureEntry kind (leAt b 2 4 + i) = secure) ∧
        (∀ k i, i < 2 ^ 23 → ¬ (k = kind ∧ leAt b 2 4 ≤ i ∧ i < leAt b 2 4 + leAt b 6 4) → h'.secureEntry k i = s.hall.secureEntry k i) ∧
        (s.hall.mem.ok = true → secure = false → kind = 9 → ∀ i o, i < leAt b 6 4 → o < 65536 →
          s.hall.secureEntry 9 (leAt b 2 4 + i) = true → Mem.read 0 h'.mem.ram ((leAt b 2 4 + i) * 65536 + o) = 0) ∧
        Frame s.hall h' [.ram, .marks, .wat] noReg) ∧
    (1024 < s.hall.watZeroes kind (leAt b 2 4) (leAt b 6 4) secure →
      ∃ h', Answers (.trustWatSet t) s t stAccepted (leBytes 4 s.hall.cmd.nextHandle) h' ∧
        Tab.find h'.trust.zeroing s.hall.cmd.nextHandle = some (kind, secure, leAt b 2 4, leAt b 6 4) ∧ h'.watPlain = s.hall.watPlain)) ∧
  ∀ (s : State) (k kind first count : Nat), Tab.find s.hall.trust.zeroing k = some (kind, false, first, count) → kind ∈ [8, 9] →
    (∀ i, i < count → s.hall.watAllowed kind (first + i) false = true) →
    Gives (.trustWatZeroed k) s fun h' =>
      (∀ i, i < count → h'.secureEntry kind (first + i) = false) ∧ Tab.find h'.trust.zeroing k = none ∧
      h'.data = s.hall.data ∧ h'.weights = s.hall.weights ∧ h'.avail = s.hall.avail

/-- Management links: their state, heartbeats, frames that leave, and requests that are counted (R497, R499, R500, R501, R503, Table 21.7, Table 21.8). -/
def Obligations.ManagementPort : Prop :=
  (∀ (s : State) (hub : Hub), s.hall.flag .mgmtStatusLink (hubNum hub) = false → s.hall.hubLost hub = false →
    Gives (.mgmtLinkUp hub) s fun h' =>
      h'.getF .mgmtStatusLink (hubNum hub) = 1 ∧ (h'.link hub).mseq = 0 ∧ h'.link (otherHub hub) = s.hall.link (otherHub hub) ∧
      Frame s.hall h' [.mgmt] (regsOf (hubNum hub) [.mgmtStatusLink])) ∧
  (∀ (s : State) (hub : Hub), Gives (.mgmtLinkDown hub) s fun h' =>
      h'.getF .mgmtStatusLink (hubNum hub) = 0 ∧ (h'.link hub).queue = [] ∧ (h'.link hub).waiting = [] ∧
      Frame s.hall h' [.mgmt] (regsOf (hubNum hub) [.mgmtStatusLink])) ∧
  (∀ (s : State) (hub : Hub), s.hall.linkOn hub = true → (s.hall.link hub).queue.length < 256 →
    Gives (.mgmtHeartbeat hub) s fun h' =>
      (h'.link hub).queue = (s.hall.link hub).queue ++
        mgmtFrames hub mgHeartbeat (s.hall.getF .mgmtDestMac (hubNum hub)) none (s.hall.heartbeat hub) ∧
      Frame s.hall h' [.mgmt] noReg) ∧
  (∀ (s : State) (hub : Hub) (f : MgmtFrame) (rest : List MgmtFrame), (s.hall.link hub).queue = f :: rest →
    s.hall.flag .mgmtStatusLink (hubNum hub) = true → s.hall.hubLost hub = false →
    Gives (.mgmtFrameSent hub) s fun h' =>
      h'.outs = .mgmtFrame hub (mgmtWire (s.hall.getF .mgmtMac (hubNum hub)) f (f.echo.getD (s.hall.link hub).mseq)) :: s.hall.outs ∧
      h'.getF (.count .mgmtFramesOut) (hubNum hub) = (s.hall.bump .mgmtFramesOut (hubNum hub)).getF (.count .mgmtFramesOut) (hubNum hub) ∧
      (rest.length + 1 = 256 → (h'.link hub).queue = rest ++ (s.hall.link hub).waiting.take 1) ∧
      Frame s.hall h' [.mgmt, .outs] (regsOf (hubNum hub) [.count .mgmtFramesOut, .sat .mgmtFramesOut])) ∧
  (∀ (s : State) (hub : Hub) (frame : Bytes) (m : MgmtIn), s.hall.flag .mgmtCfgReq (hubNum hub) = false →
    let drops := fun (i : Instr) => Gives i s fun h' =>
      h'.getF (.count .mgmtReqDropped) (hubNum hub) = (s.hall.bump .mgmtReqDropped (hubNum hub)).getF (.count .mgmtReqDropped) (hubNum hub) ∧
      h'.getF (.count .mgmtFramesIn) (hubNum hub) = (s.hall.bump .mgmtFramesIn (hubNum hub)).getF (.count .mgmtFramesIn) (hubNum hub) ∧
      Frame s.hall h' [] (regsOf (hubNum hub) [.count .mgmtFramesIn, .sat .mgmtFramesIn, .count .mgmtReqDropped, .sat .mgmtReqDropped])
    (s.hall.mgmtRequest hub frame 0x10 = some m → drops (.resend hub frame)) ∧
    (s.hall.mgmtRequest hub frame 0x11 = some m → drops (.attest hub frame))) ∧
  (∀ (s : State) (hub : Hub) (frame : Bytes) (m : MgmtIn), s.hall.flag .mgmtCfgReq (hubNum hub) = true →
    ((s.hall.link hub).second ≠ s.hall.getF .rtcCountTicks (hubNum hub) / 32768 ∨ (s.hall.link hub).answered < 16) →
    (s.hall.mgmtRequest hub frame 0x10 = some m → Gives (.resend hub frame) s fun h' =>
      (h'.link hub).second = s.hall.getF .rtcCountTicks (hubNum hub) / 32768 ∧
      (h'.link hub).answered = (if (s.hall.link hub).second = s.hall.getF .rtcCountTicks (hubNum hub) / 32768 then (s.hall.link hub).answered else 0) + 1 ∧
      Frame s.hall h' [.mgmt] (regsOf (hubNum hub) [.count .mgmtFramesIn, .sat .mgmtFramesIn])) ∧
    (s.hall.mgmtRequest hub frame 0x11 = some m → Gives (.attest hub frame) s fun h' =>
      (h'.link hub).second = s.hall.getF .rtcCountTicks (hubNum hub) / 32768 ∧
      (h'.link hub).answered = (if (s.hall.link hub).second = s.hall.getF .rtcCountTicks (hubNum hub) / 32768 then (s.hall.link hub).answered else 0) + 1 ∧
      (h'.link hub).queue.length + (h'.link hub).waiting.length > (s.hall.link hub).queue.length + (s.hall.link hub).waiting.length ∧
      Frame s.hall h' [.mgmt, .draws] (regsOf (hubNum hub) [.count .mgmtFramesIn, .sat .mgmtFramesIn]))) ∧
  (∀ (s : State) (hub : Hub) (frame : Bytes) (m : MgmtIn), s.hall.mgmtTakes hub frame = some m → m.bad = true →
    Gives (.mgmtMalformedRequest hub frame) s fun h' =>
      h'.getF (.count .mgmtBadIn) (hubNum hub) = (s.hall.bump .mgmtBadIn (hubNum hub)).getF (.count .mgmtBadIn) (hubNum hub) ∧
      Frame s.hall h' [] (regsOf (hubNum hub) [.count .mgmtFramesIn, .sat .mgmtFramesIn, .count .mgmtBadIn, .sat .mgmtBadIn])) ∧
  (∀ (s : State) (t : Fin 128), let b := s.hall.tillPayload t
    s.hall.tillReady t 0x0C02 false false = true → (s.hall.tillCmd t).length = 10 → leAt b 0 1 ≤ 1 → leAt b 1 1 ≤ 1 → leAt b 2 1 ≤ 1 →
    1 ≤ leAt b 3 1 → leAt b 3 1 ≤ 60 →
    ∃ h', Answers (.logMgmtSet t) s t stOK [] h' ∧
      (∀ u, u < 2 → h'.getF .mgmtCfgEnable u = leAt b 0 1 ∧ h'.getF .mgmtCfgReq u = leAt b 1 1 ∧ h'.getF .mgmtCfgEvents u = leAt b 2 1 ∧
        h'.getF .mgmtCfgHbS u = leAt b 3 1 ∧ h'.getF .mgmtDestMac u = beAt b 4 6) ∧
      Frame s.hall h' [.mgmt] fun f u => u < 2 ∧ f ∈ [Fld.mgmtCfgEnable, .mgmtCfgReq, .mgmtCfgEvents, .mgmtCfgHbS, .mgmtDestMac]) ∧
  ∀ (s : State) (r : FjRec) (rest : List FjRec), s.hall.junctionA.held = r :: rest →
    Gives (.fjHeldRelease .a) s fun h' =>
      h'.junctionA.held = rest ∧ h'.junctionA.urgent.getLast? = some r ∧
      (s.hall.junctionA.urgent.length ≤ 256 → h'.junctionA.urgent.length ≤ 256) ∧
      h'.junctionA.ordinary = s.hall.junctionA.ordinary ∧ h'.junctionB = s.hall.junctionB ∧ Frame s.hall h' [.junctions] noReg

/-- Pens: creation, wedge, reset and its end, destruction, shedding and restoring (R442, R443, R444, R445, R446, R456, R457, Table 19.1). -/
def Obligations.PenLifeCycle : Prop :=
  (∀ (s : State) (t : Fin 128),
    let b := s.hall.tillPayload t
    let c := s.hall.tillCmd t
    let k := s.hall.cmd.nextHandle
    (s.hall.tillReady t 0x0101 false false = true → c.pen ≠ 0 → c.length = 4 → leAt b 0 1 ≤ 1 → 1 ≤ leAt b 1 1 → leAt b 1 1 ≤ 254 →
      1 ≤ leAt b 2 2 → leAt b 2 2 ≤ 10000 → s.hall.penExists c.pen = false →
      ∃ h', Answers (.penCreate t) s t stOK [] h' ∧
        h'.pen c.pen = { state := .up, secure := decide (leAt b 0 1 = 1), priority := leAt b 1 1, wedgeMs := leAt b 2 2 } ∧
        (∀ p, p ≠ c.pen → h'.pen p = s.hall.pen p) ∧ Frame s.hall h' (.avail :: postParts) postReg) ∧
    (s.hall.tillReady t 0x0102 false false = true → c.length = 0 → c.pen ≠ 0 → (∀ e ∈ s.hall.weights.lots, c.pen ∉ e.2.grants) →
      ∃ h', Answers (.penDestroy t) s t stAccepted (leBytes 4 k) h' ∧ (h'.pen c.pen).state = .absent ∧
        Tab.find h'.cmd.ops k = none) ∧
    (s.hall.tillReady t 0x0107 (decide (c.pen = 0)) false = true → c.length = 2 → leAt b 1 1 ≤ 1 →
      (c.pen ≠ 0 ∧ leAt b 0 1 = 0 ∨ c.pen = 0 ∧ (leAt b 0 1 = 1 ∨ leAt b 0 1 = 2)) → (s.hall.pen c.pen).state ≠ .resetting →
      ∃ h', Answers (.penReset t) s t stAccepted (leBytes 4 k) h' ∧ (h'.pen c.pen).state = .resetting ∧
        ((h'.pen c.pen).reset.map fun r => (r.op, r.zero, r.half)) = some (some k, decide (leAt b 1 1 = 1), leAt b 0 1) ∧
        h'.mem.ram = s.hall.mem.ram) ∧
    (s.hall.tillReady t 0x0108 false false = true → c.length = 0 → c.pen ≠ 0 → (s.hall.pen c.pen).state = .up ∨ (s.hall.pen c.pen).state = .wedged →
      ∃ h1 : Hall, Answers (.penShed t) s t stOK [] h1.gooseIfAlone ∧ (h1.pen c.pen).state = .shed) ∧
    (s.hall.tillReady t 0x0109 false false = true → c.length = 0 → (s.hall.pen c.pen).state = .shed →
      s.hall.decodeFits (c.pen :: s.hall.livePens) = true → s.hall.framesFit (c.pen :: s.hall.livePens) = true →
      ∃ h', Answers (.penRestore t) s t stOK [] h' ∧ (h'.pen c.pen).state = .up) ∧
    (s.hall.tillReady t 0x010B false false = true → c.length = 0 →
      ∃ h', Answers (.penGoose t) s t stAccepted (leBytes 4 k) h' ∧ h'.avail.gooseMode = true ∧ Tab.find h'.cmd.ops k = none)) ∧
  (∀ (s : State) (p : Fin 32), (s.hall.pen p).state = .up → (∃ e ∈ s.hall.data.requests, e.2.pen = p.val) →
    Gives (.penWedgeDetect p) s fun h' => (h'.pen p).state = .wedged ∧ Frame s.hall h' (.avail :: .data :: postParts) postReg) ∧
  (∀ (s : State) (p : Fin 32) (r : PenReset), (s.hall.pen p).state = .resetting → (s.hall.pen p).reset = some r →
    Gives (.penResetDone p) s fun h' => (h'.pen p).state = (if r.toShed then .shed else .up) ∧ (h'.pen p).reset = none)

/-- Stalls, tills, queues, decode shares, pairs and spares of pens (R63, R67, R411, R447, R449, R453, R466, Table 19.6). -/
def Obligations.PenMembership : Prop :=
  (∀ (s : State) (t : Fin 128),
    let b := s.hall.tillPayload t
    let c := s.hall.tillCmd t
    (s.hall.tillReady t 0x0103 false false = true → ∀ l, c.stallList 2 (leAt b 1 1) = some l → c.length = 2 + 2 * leAt b 1 1 → l.Nodup →
      (leAt b 0 1 = 0 → (∀ i ∈ l, s.hall.stallFree i = true) → (∀ e ∈ s.hall.weights.lots, c.pen ∉ e.2.grants) →
        ∃ h', Answers (.penStalls t) s t stOK [] h' ∧ (∀ i ∈ l, h'.stallPen i = c.pen) ∧ ∀ i, i ∉ l → h'.stallPen i = s.hall.stallPen i) ∧
      (leAt b 0 1 = 1 → c.pen ≠ 0 → (∀ i ∈ l, s.hall.stallPen i = c.pen ∧ s.hall.stallLoose i = true) →
        ∃ h', Answers (.penStalls t) s t stOK [] h' ∧ (∀ i ∈ l, h'.stallPen i = 255) ∧ ∀ i, i ∉ l → h'.stallPen i = s.hall.stallPen i)) ∧
    (s.hall.tillReady t 0x0104 false false = true →
      (leAt b 0 1 = 1 → c.length = 5 → 32 ≤ leAt b 1 2 → leAt b 1 2 + leAt b 3 2 ≤ 128 → s.hall.penSecure c.pen = false →
        (∀ n, n < leAt b 3 2 → s.hall.getF .tillState (leAt b 1 2 + n) ≠ 1 ∧ s.hall.getF .tillState (leAt b 1 2 + n) ≠ 2) →
        ∃ h', Answers (.penGrant t) s t stOK [] h' ∧ (∀ n, n < leAt b 3 2 → (h'.till (leAt b 1 2 + n)).vf = some c.pen) ∧
          ∀ u, ¬ (leAt b 1 2 ≤ u ∧ u < leAt b 1 2 + leAt b 3 2) → h'.till u = s.hall.till u) ∧
      (leAt b 0 1 = 2 → c.length = 5 → leAt b 1 2 + leAt b 3 2 ≤ 16384 → (∀ n, n < leAt b 3 2 → (s.hall.que (leAt b 1 2 + n)).qrec = none) →
        ∃ h', Answers (.penGrant t) s t stOK [] h' ∧ ∀ n, n < leAt b 3 2 → (h'.que (leAt b 1 2 + n)).grant = some c.pen) ∧
      (leAt b 0 1 = 3 → c.length = 3 → leAt b 1 1 ≤ 15 → c.pen ≠ 0 →
        ((List.range 32).map fun p => if p = c.pen then 0 else s.hall.share (leAt b 1 1) p).sum + leAt b 2 1 ≤ 16 →
        s.hall.declared (leAt b 1 1) (some c.pen) ≤ leAt b 2 1 * 77500000 →
        ∃ h', Answers (.penGrant t) s t stOK [] h' ∧ h'.share (leAt b 1 1) c.pen = leAt b 2 1)) ∧
    (s.hall.tillReady t 0x0106 false false = true → c.length = 14 → leAt b 0 1 ≤ 31 → leAt b 0 1 ≠ c.pen → leAt b 0 1 ≠ 0 → c.pen ≠ 0 →
      leAt b 1 1 = 1 → s.hall.penExists (leAt b 0 1) = true → s.hall.penSecure (leAt b 0 1) = s.hall.penSecure c.pen →
      (s.hall.pen c.pen).state ≠ .resetting → (s.hall.pen (leAt b 0 1)).state ≠ .resetting → (s.hall.pen c.pen).partner = none →
      (s.hall.pen (leAt b 0 1)).partner = none →
      ∃ h', Answers (.penPair t) s t stOK [] h' ∧ (h'.pen c.pen).partner = some (leAt b 0 1) ∧ (h'.pen (leAt b 0 1)).partner = some c.pen ∧
        (h'.pen c.pen).mode = 1 ∧ (h'.pen (leAt b 0 1)).mode = 1 ∧ Frame s.hall h' [.avail] noReg) ∧
    (s.hall.tillReady t 0x010A false false = true → ∀ l, c.stallList 1 (leAt b 0 1) = some l → c.length = 1 + 2 * leAt b 0 1 → leAt b 0 1 ≤ 16 →
      l.Nodup → (∀ i ∈ l, s.hall.stallFree i = true) → (∀ i, (s.hall.stall i).spare = false) →
      ∃ h', Answers (.penSpares t) s t stOK [] h' ∧ (∀ i, (h'.stall i).spare = true ↔ i ∈ l) ∧ (∀ i ∈ l, h'.getF .tallyStallRole i = 3) ∧
        Frame s.hall h' [.data] fun f u => f = .tallyStallRole ∧ u ∈ l) ∧
    (s.hall.tillReady t 0x010C (decide (c.pen = 0)) false = true → c.length = 0 →
      ∃ a, Answers (.penQuery t) s t stOK a s.hall ∧ leAt a 0 1 = (s.hall.pen c.pen).state.code ∧ leAt a 2 1 = b2n (s.hall.penSecure c.pen) ∧
        leAt a 5 1 = (s.hall.stallsOf c.pen).length % 256)) ∧
  ∀ (s : State) (p : Fin 32) (q : Nat), (s.hall.pen p).partner = some q → (s.hall.pen p).state = .up → (s.hall.pen q).primary = true →
    (s.hall.pen q).unsynced = true →
    Gives (.pairSync p) s fun h' => (h'.pen q).unsynced = false ∧ (h'.pen q).primary = true ∧
      Frame s.hall h' (.ram :: .marks :: .avail :: postParts) postReg

/-- PEN_QUEUE configures and enables a queue, which then starts at index 0 (R67, R74, R75, Table 2.17). -/
def Obligations.QueueEnabling : Prop :=
  ∀ (s : State) (t : Fin 128),
    let b := s.hall.tillPayload t
    let c := s.hall.tillCmd t
    let q := leAt b 0 2
    let r := decodeQueRec c
    s.hall.tillReady t 0x0105 (decide (c.pen = 0)) true = true → c.length = 33 → s.hall.queRecOk c r = true → c.pen ≠ 255 →
    (s.hall.que q).grant = some c.pen →
    ((s.hall.que q).qrec = none → s.hall.flag .queStatusEnabled q = false → r.typ ≠ 2 → leAt b 32 1 = 1 →
      ∃ h', Answers (.penQueue t) s t stOK [] h' ∧ (h'.que q).qrec = some r ∧ h'.getF .queStatusEnabled q = 1 ∧ h'.getF .queProd q = 0 ∧
        h'.getF .queCons q = 0 ∧ h'.getF .queStatusDbReject q = 0 ∧ (h'.que q).seq = 0 ∧ (h'.que q).phase = true ∧
        (∀ j, j ≠ q → h'.que j = s.hall.que j) ∧
        Frame s.hall h' [.cmd] (regsOf q [.queProd, .queCons, .queStatusDbReject, .queStatusEnabled, .queStatusFull, .queStatusEmpty])) ∧
    ((s.hall.que q).qrec = some r → s.hall.flag .queStatusEnabled q = true → (s.hall.que q).inFlight = 0 → leAt b 32 1 = 0 →
      Answers (.penQueue t) s t stOK [] (s.hall.setF .queStatusEnabled q 0))

/-- Virtual functions are enabled for non-secure pens; disabling or resetting one resets its pen (R50, R51). -/
def Obligations.FunctionResets : Prop :=
  (∀ (s : State) (p : Hub), Gives (.vfEnableSet p) s fun h' =>
    (h'.port p).vfEnable = true ∧ (∀ k, k ∈ (h'.port p).vfs ↔ 1 ≤ k ∧ k ≤ 31 ∧ s.hall.penExists k = true ∧ s.hall.penSecure k = false) ∧
    h'.port (otherHub p) = s.hall.port (otherHub p) ∧ Frame s.hall h' [.ports] noReg) ∧
  (∀ (s : State) (p : Hub), Gives (.vfEnableClear p) s fun h' =>
    (h'.port p).vfEnable = false ∧ (h'.port p).vfs = [] ∧
    (∀ k ∈ (s.hall.port p).vfs, (s.hall.pen k).state = .up → (h'.pen k).state = .resetting) ∧
    Frame s.hall h' (.ports :: .avail :: .data :: postParts) postReg) ∧
  (∀ (s : State) (p : Hub) (k : Nat), k ∈ (s.hall.port p).vfs → (s.hall.pen k).state = .up →
    Gives (.pciFlr p (.vf k)) s fun h' => (h'.pen k).state = .resetting ∧ Frame s.hall h' (.avail :: .data :: postParts) postReg) ∧
  (∀ (s : State) (p : Hub), Gives (.pciFlr p .pf1) s fun h' =>
    ∀ n, 32 ≤ n → n < 128 → (s.hall.till n).vf = none → h'.getF .tillState n = 0 ∧ h'.getF .tillCfgSeqValid n = 0) ∧
  ∀ (s : State) (p : Hub), Becomes (.pciFlr p .pf0) s s.hall

/-- Heartbeats, lost processors and the live handover (R32, R33, R451, R452, R464, R465, Table 19.5). -/
def Obligations.ProcessorFailures : Prop :=
  (∀ (s : State) (x : Hub), (s.hall.mp x).state = .ready → s.hall.hubLost x = false →
    Gives (.mpHeartbeat x) s fun h' =>
      h'.avail.beats = (match x with | .a => (s.hall.avail.beats.1 + 1, s.hall.avail.beats.2) | .b => (s.hall.avail.beats.1, s.hall.avail.beats.2 + 1)) ∧
      Frame s.hall h' [.avail] noReg) ∧
  (∀ (s : State) (g : Hub), s.hall.governing = some g →
    (∃ h1 : Hall, Becomes .mpLost s (h1.govLost g) ∧ (h1.mp g).state = .romRecovery ∧ h1.mp (otherHub g) = s.hall.mp (otherHub g) ∧
      Frame s.hall h1 [.avail, .junctions] noReg) ∧
    ((s.hall.mp (otherHub g)).state ≠ .ready → Gives .mpLost s fun h' => (h'.mp g).state = .romRecovery ∧ h'.governing = none) ∧
    (s.hall.hubLost (otherHub g) = false → (s.hall.mp (otherHub g)).state ≠ .romRecovery →
      Gives .standbyMpLost s fun h' => (h'.mp (otherHub g)).state = .romRecovery ∧ h'.mp g = s.hall.mp g ∧ h'.governing = some g ∧
        Frame s.hall h' (.avail :: .junctions :: postParts) postReg) ∧
    (∀ o : Handover, s.hall.avail.handover = some o → o.phase = .standbyRestarting → (s.hall.mp g).state = .ready →
      (s.hall.mp (otherHub g)).state = .starting → s.hall.hubLost (otherHub g) = false →
      Gives .handoverStandbyReady s (fun h' => (h'.mp (otherHub g)).state = .ready ∧ h'.governing = some g ∧
        h'.avail.handover = some { o with phase := .standbyReady } ∧ Frame s.hall h' [.avail] fun f u => f = .hubIdentFwBuild ∧ u < 2) ∧
      Gives .handoverStandbyFailed s fun h' => h'.mp (otherHub g) = { state := .ready, slot := s.hall.trust.active } ∧ h'.avail.handover = none ∧
        h'.governing = some g ∧ h'.trust = s.hall.trust) ∧
    (∀ o : Handover, s.hall.avail.handover = some o → o.phase = .standbyReady →
      ∃ h1 : Hall, Gives .handoverRoleMove s (fun h' => h'.avail.handover = some { o with phase := .roleMoved } ∧ h'.data = (h1.govern (otherHub g)).data) ∧
        (h1.mp g).state = .starting ∧ h1.trust.active = (if o.update then (s.hall.mp (otherHub g)).slot else s.hall.trust.active) ∧
        Frame s.hall h1 [.avail, .trust] noReg) ∧
    (∀ o : Handover, s.hall.avail.handover = some o → o.phase = .roleMoved → (s.hall.mp g).state = .ready → (s.hall.mp (otherHub g)).state = .starting →
      s.hall.hubLost (otherHub g) = false →
      Gives .handoverFormerReady s fun h' => (h'.mp (otherHub g)).state = .ready ∧ h'.avail.handover = none ∧ h'.governing = some g) ∧
    (∀ t : Fin 128, s.hall.tillReady t 0x0D02 false false = true → (s.hall.tillCmd t).length = 1 → leAt (s.hall.tillPayload t) 0 1 = 0 →
      s.hall.avail.handover = none → s.hall.hubLost (otherHub g) = false → (s.hall.fwSlot s.hall.trust.active).isSome = true →
      ∃ h', Answers (.fwHandover t) s t stAccepted (leBytes 4 s.hall.cmd.nextHandle) h' ∧
        h'.mp (otherHub g) = { state := .starting, slot := s.hall.trust.active } ∧ h'.mp g = s.hall.mp g ∧
        h'.avail.handover = some { op := s.hall.cmd.nextHandle, update := false, phase := .standbyRestarting } ∧
        Frame s.hall h' [.avail, .cmd] noReg))

/-- Stuck units, lost links, signals, rows and hubs (R23, R79, R237, R451, R452). -/
def Obligations.UnitsLost : Prop :=
  (∀ (s : State) (r : Fin 8) (x : Fin 16), s.hall.domState (16 * r.val + x.val) = 2 → s.hall.stallRetired (16 * r.val + x.val) = false →
    Gives (.unitStuck r x) s fun h' =>
      (h'.stall (16 * r.val + x.val)).stuck = true ∧ h'.getF .tallyStallState (16 * r.val + x.val) = 2 ∧
      h'.junctionA = s.hall.junctionA.deposit ⟨true, .unitStuck, 16 * r.val + x.val, 0⟩ ∧
      h'.junctionB = s.hall.junctionB.deposit ⟨true, .unitStuck, 16 * r.val + x.val, 0⟩ ∧
      Frame s.hall h' [.data, .junctions] (regsOf (16 * r.val + x.val) [.tallyStallState])) ∧
  (∀ (s : State) (r : Fin 8) (hub : Hub), s.hall.avail.lostLinks.contains (2 * r.val + hubNum hub) = false →
    Gives (.rowLinkLost r hub) s fun h' =>
      h'.avail.lostLinks = (2 * r.val + hubNum hub) :: s.hall.avail.lostLinks ∧
      h'.junctionA = s.hall.junctionA.deposit ⟨true, .linkLoss, 2 * r.val + hubNum hub, 0⟩ ∧ Frame s.hall h' [.avail, .junctions] noReg) ∧
  (∀ (s : State) (p : Nat), p ≤ 13 → Gives (.lossOfSignal p) s fun h' =>
      h'.avail.lostPorts.contains p = true ∧ (p < 8 → h'.getF .treeStatusLock p = 0) ∧
      h'.junctionA = s.hall.junctionA.deposit ⟨true, .lossOfSignal, p, 0⟩ ∧
      Frame s.hall h' [.avail, .junctions] fun f u => p < 8 ∧ f = .treeStatusLock ∧ u = p) ∧
  (∀ (s : State) (r : Fin 8) (x : Fin 16), s.hall.stallRetired (16 * r.val + x.val) = true → (16 * r.val + x.val) ∉ s.hall.checks.retired →
    s.hall.governing.isSome = true →
    ∃ h1 : Hall, Becomes (.stallRetire r x) s (h1.replaceStall (16 * r.val + x.val)).shedCapacity ∧
      (h1.stall (16 * r.val + x.val)).spare = false ∧ (h1.stall (16 * r.val + x.val)).test = none) ∧
  (∀ (s : State) (r : Fin 8), r.val ∉ s.hall.avail.lostRows → (∀ n, (s.hall.tally n).items = []) →
    ∃ h1 : Hall, Becomes (.rowLost r) s h1.shedCapacity ∧ r.val ∈ h1.avail.lostRows ∧
      (∀ x, x < 16 → 16 * r.val + x ∈ h1.checks.retired) ∧
      (∀ x, x < 16 → 16 * r.val + x ∉ s.hall.checks.retired → h1.getF .tallyStallState (16 * r.val + x) = 2) ∧
      h1.mem = s.hall.mem) ∧
  ∀ (s : State) (hub : Hub), s.hall.hubLost hub = false →
    ∃ h1 : Hall, Becomes (.hubLost hub) s ((h1.shedCapacity.livePens.foldl (fun h p => h.framesAgain p) h1.shedCapacity).streamsAgain hub) ∧
      h1.pool hub = {} ∧ ∀ a, hubNum hub * 0x002000000000 ≤ a → a < hubNum hub * 0x002000000000 + 0x001E00000000 →
        ∀ e ∈ h1.mem.ram, e.1 ≠ a

/-- The goose output stages: verdicts, HEALTH, ALARM, STALE and liveness (R459, R460, R461, R462, R470, Table 19.9). -/
def Obligations.GooseOutputs : Prop :=
  (∀ (s : State) (half : Hub) (e v : BitVec 32), s.hall.hubLost half = false → s.hall.penExists 0 = true →
    Gives (.gooseCommit half e v) s fun h' =>
      h'.gooseEval half = e.toNat ∧ h'.gooseVerdict half = v.toNat ∧ h'.gooseLive half = true ∧ h'.flag .gooseStatusStale 0 = false ∧
      h'.gooseEval (otherHub half) = s.hall.gooseEval (otherHub half) ∧ h'.gooseVerdict (otherHub half) = s.hall.gooseVerdict (otherHub half) ∧
      (h'.flag .gooseStatusHealth 0 = if (match s.hall.avail.lastToggle with | some t => follows e.toNat t | none => true)
        then !s.hall.flag .gooseStatusHealth 0 else s.hall.flag .gooseStatusHealth 0) ∧
      h'.flag .gooseStatusAlarm 0 = h'.alarmLit ∧
      Frame s.hall h' [.avail] fun f u => u < 4 ∧ f ∈ [Fld.gooseLastEval, .gooseLastVerdict, .gooseStatusLiveA, .gooseStatusLiveB,
        .gooseStatusHealth, .gooseStatusAlarm, .gooseStatusStale, .count .gooseEvals, .sat .gooseEvals, .count .gooseAlarms,
        .sat .gooseAlarms, .count .gooseDisagree, .sat .gooseDisagree]) ∧
  ∀ s : State, s.hall.flag .gooseStatusStale 0 = false →
    Gives .gooseStaleTimeout s fun h' =>
      h'.flag .gooseStatusHealth 0 = false ∧ h'.flag .gooseStatusStale 0 = true ∧ h'.gooseLive .a = false ∧ h'.gooseLive .b = false ∧
      h'.flag .gooseStatusAlarm 0 = false ∧
      h'.getF (.count .gooseStale) 0 = (s.hall.bump .gooseStale 0).getF (.count .gooseStale) 0 ∧
      Frame s.hall h' [] fun f u => u < 2 ∧ f ∈ [Fld.gooseStatusLiveA, .gooseStatusLiveB, .gooseStatusHealth, .gooseStatusAlarm,
        .gooseStatusStale, .count .gooseStale, .sat .gooseStale]

/-- Images: load, start, pause, resume, retire and query (R199, R200, R201, R202, Table 7.13, Table 7.14). -/
def Obligations.ScheduleCommands : Prop :=
  (∀ (s : State) (t : Fin 128),
    let b := s.hall.tillPayload t
    let c := s.hall.tillCmd t
    let op := s.hall.cmd.nextHandle
    let p0 := decide (c.pen = 0)
    (s.hall.tillReady t 0x0201 p0 false = true → c.length = 13 →
      ∃ h', Answers (.schedLoad t) s t stAccepted (leBytes 4 op ++ leBytes 4 s.hall.data.nextImage) h' ∧
        (h'.image s.hall.data.nextImage).map (fun im => (im.pen, im.state, im.firstLaunch, im.op)) =
          some (c.pen, ImgState.loading, leAt b 12 1, some op) ∧ h'.data.nextImage = s.hall.data.nextImage + 1) ∧
    (c.length = 4 → ∀ im : Image, s.hall.image (leAt b 0 4) = some im → im.pen = c.pen →
      (s.hall.tillReady t 0x0202 p0 false = true → im.state = .loaded →
        ∃ h', Answers (.schedStart t) s t stOK [] h' ∧ (h'.image (leAt b 0 4)).map Image.state = some .active ∧
          ∀ e ∈ h'.data.launch, e.2.handle = leAt b 0 4 → e.2.valid = true) ∧
      (s.hall.tillReady t 0x0203 p0 false = true → im.state = .active →
        ∃ h', Answers (.schedPause t) s t stAccepted (leBytes 4 op) h' ∧
          (h'.image (leAt b 0 4)).map Image.state = some (if s.hall.inFlight (leAt b 0 4) = 0 then .paused else .pausing) ∧
          (∀ e ∈ h'.data.launch, e.2.handle = leAt b 0 4 → e.2.intakeOn = false) ∧ h'.mem.ram = s.hall.mem.ram) ∧
      (s.hall.tillReady t 0x0204 p0 false = true → im.state = .paused →
        ∃ h', Answers (.schedResume t) s t stOK [] h' ∧ (h'.image (leAt b 0 4)).map Image.state = some .active ∧
          (∀ e ∈ h'.data.launch, e.2.handle = leAt b 0 4 → e.2.intakeOn = !s.hall.isStandby im.pen) ∧ Frame s.hall h' [.data] noReg) ∧
      (s.hall.tillReady t 0x0205 p0 false = true → (im.state = .loaded ∨ im.state = .active ∨ im.state = .paused) →
        ∃ h', Answers (.schedRetire t) s t stAccepted (leBytes 4 op) h' ∧
          (s.hall.inFlight (leAt b 0 4) = 0 → h'.image (leAt b 0 4) = none) ∧
          (s.hall.inFlight (leAt b 0 4) ≠ 0 → (h'.image (leAt b 0 4)).map Image.state = some .retiring)) ∧
      (s.hall.tillReady t 0x0206 p0 false = true →
        ∃ a, Answers (.schedQuery t) s t stOK a s.hall ∧ leAt a 0 1 = im.state.code ∧ leAt a 4 4 = im.imageId % 2 ^ 32))) ∧
  ∀ (s : State) (k : Nat) (im : Image), s.hall.image k = some im → im.state = .loading → im.fault = 0 →
    Gives (.schedLoadDone k) s fun h' =>
      (∀ r, imageRefuse s.hall im.pen im.raw = some r → h'.image k = none) ∧
      (imageRefuse s.hall im.pen im.raw = none →
        let im' := { parseImage im.pen im.raw with firstLaunch := im.firstLaunch, op := im.op }
        (∀ rows, s.hall.placeRows im' = some rows → s.hall.roomFor im' rows = true → im'.shadowSteps = false →
          (h'.image k).map (fun x => (x.state, x.op)) = some (ImgState.loaded, none)) ∧
        (s.hall.placeRows im' = none → h'.image k = none))

/-- The entry at the head of a request queue is taken, and a refused one is answered at once (R68, R193, R197, R260, Table 2.18). -/
def Obligations.RequestTaken : Prop :=
  ∀ (s : State) (q : Fin 16384) (r : QueRec), (s.hall.que q).qrec = some r → r.typ = 0 → r.log2 ≤ 16 →
    s.hall.flag .queStatusEnabled q = true → s.hall.queCount q ≠ 0 → s.hall.resReady r.resultQueue = true → (s.hall.pen r.pen).state = .up →
    let e := decodeReq (s.hall.hostRead (r.base + 64 * s.hall.getF .queCons q) 64)
    (s.hall.intakeRefusal r e = none → s.hall.launchOpen r.pen e.launch = true →
      Gives (.requestIntake q) s fun h' =>
        (h'.req s.hall.newToken).map (fun x => (x.pen, x.queue, x.launch, x.tag, x.inMva, x.outMva, x.stamp, x.status)) =
          some (r.pen, q.val, e.launch, e.tag, e.inMva, e.outMva, e.stamp, 0) ∧
        h'.getF .queCons q = (s.hall.getF .queCons q + 1) % queSize r ∧ h'.data.lastToken = s.hall.newToken ∧
        h'.data.taken = s.hall.data.taken + 1 ∧
        Frame s.hall h' [.host, .cmd, .data] fun f u => (u = q.val ∧ f ∈ [Fld.queCons, .queStatusEmpty, .queStatusFull]) ∨
          f = .count .mmuTranslations ∨ f = .sat .mmuTranslations) ∧
    (s.hall.intakeRefusal r e = none → s.hall.launchOpen r.pen e.launch = false → Becomes (.requestIntake q) s s.hall) ∧
    ((s.hall.intakeRefusal r e).isSome = true → q.val ≠ r.resultQueue →
      Gives (.requestIntake q) s fun h' => h'.req s.hall.newToken = none ∧
        h'.getF .queCons q = (s.hall.getF .queCons q + 1) % queSize r)

/-- A stall's dispatch starts the ready record at its dispatch point, or counts a miss (R187, R188, R189, R203, R205). -/
def Obligations.StallDispatches : Prop :=
  ∀ (s : State) (row : Fin 8) (x : Fin 16),
    let i := 16 * row.val + x.val
    let y := s.hall.stall i
    (∀ im p r, s.hall.stallImage i = some im → im.state.runs = true → s.hall.stallRetired i = false → y.stuck = false →
      s.hall.domState i = 2 → y.point = some p → s.hall.stepRef i p = some r → r.st.alt = [] →
      ((s.hall.ready r).1 = true → Gives (.stallDispatch row x) s fun h' =>
        ((h'.stall i).running r.st.eng).map (fun z => (z.idx, z.pass, z.ctx, z.key, z.tile, z.rowsDone)) =
          some (p.2, p.1, r.st.ctx, r.key, 0, 0) ∧
        (h'.findRun r.key).map GroupRun.startedSteps =
          some (((s.hall.findRun r.key).map GroupRun.startedSteps).getD [] ++ [(i, p.2)]) ∧
        (y.clears = [] → s.hall.getF (.count .stallSteps) i < Ctr.stallSteps.top →
          h'.getF (.count .stallSteps) i = s.hall.getF (.count .stallSteps) i + 1)) ∧
      ((s.hall.ready r).1 = false → Gives (.stallDispatch row x) s fun h' =>
        (s.hall.getF (.count .stallDispatchMiss) i < Ctr.stallDispatchMiss.top →
          h'.getF (.count .stallDispatchMiss) i = s.hall.getF (.count .stallDispatchMiss) i + 1) ∧
        Frame s.hall h' [] (orReg (regsOf i [.count .stallDispatchMiss, .sat .stallDispatchMiss])
          fun f _ => f ∈ [Fld.count .ledgerWindowWaits, .sat .ledgerWindowWaits]))) ∧
    (s.hall.stallRetired i = true ∨ y.stuck = true ∨ s.hall.domState i ≠ 2 ∨ y.point = none ∨ s.hall.stallImage i = none →
      Becomes (.stallDispatch row x) s s.hall)

/-- Blocks, tiles, rows and ends of steps on the Ox and the vector unit (R107, R110, R119, R123, R126, R172, R173, R176). -/
def Obligations.StepsOnOxAndVu : Prop :=
  ∀ (s : State) (row : Fin 8) (x : Fin 16),
    let i := 16 * row.val + x.val
    let h := s.hall
    let e := (h.stall i).exp
    let outReady := fun (r : Running) =>
      r.out.all fun t => decide (t.n ≤ t.slots.length) && (h.trough i t.trough).isSome
    let taken := fun (t : Option Take) => t.all fun t => decide (t.n ≤ t.slots.length)
    (∀ r st, h.onEngine i 0 = some (r, st) →
      (∀ (lane : Fin 16) (w : Take), st.direct = false → e.nextFetch < stepBlocks st * rowTiles st →
        e.nextFetch % stepBlocks st % 16 = lane.val → (e.lane lane.val).length < 3 → r.inW = some w →
        (h.blockAt i st w (e.nextFetch % stepBlocks st)).1 < w.slots.length →
        Gives (.expBlockFetch row x lane) s fun h' =>
          (h'.stall i).exp.nextFetch = e.nextFetch + 1 ∧
          (∃ b : LaneBlock, (h'.stall i).exp.lane lane.val = e.lane lane.val ++ [b] ∧ b.index = e.nextFetch ∧ b.decoded = none) ∧
          Frame h h' [.data] noReg) ∧
      (∀ lane : Fin 16, st.direct = true ∨ e.nextFetch % stepBlocks st % 16 ≠ lane.val ∨ 3 ≤ (e.lane lane.val).length →
        Becomes (.expBlockFetch row x lane) s h) ∧
      (∀ (lane : Fin 16) (b : LaneBlock) (w : Take), (e.lane lane.val).find? (fun c => c.decoded.isNone) = some b → r.inW = some w →
        Gives (.expBlockDecoded row x lane) s fun h' =>
          (h.getF (.count .expBlocks) i < Ctr.expBlocks.top → h'.getF (.count .expBlocks) i = h.getF (.count .expBlocks) i + 1) ∧
          h'.mem = h.mem ∧ (h'.onEngine i 0).map (fun z => z.1.tile) = some r.tile) ∧
      (r.tile < rowTiles st * colTiles st r.chk → ∀ us : List Upset,
        ((h.tileReady i r st).isSome = true → Gives (.oxTileEnd row x us) s fun h' =>
          (h'.onEngine i 0).map (fun z => z.1.tile) = some (r.tile + 1) ∧ h'.mem = h.mem ∧ h'.outs = h.outs ∧ h'.cmd = h.cmd) ∧
        (h.tileReady i r st = none → Becomes (.oxTileEnd row x us) s h)) ∧
      (r.tile < rowTiles st * colTiles st r.chk → Becomes (.oxStepEnd row x) s h) ∧
      (rowTiles st * colTiles st r.chk ≤ r.tile → (h.stall i).image.isSome = true → taken r.inU = true → outReady r = true →
        r.mismatch = false → Gives (.oxStepEnd row x) s fun h' =>
          (h'.stall i).ox = none ∧ (h'.stall i).exp = {} ∧
          (h'.findRun r.key).map GroupRun.stepsDone = (h.findRun r.key).map fun z => z.stepsDone + 1)) ∧
    ∀ r st, h.onEngine i 1 = some (r, st) →
      (opsPerToken (h.opsOf i st) = true → r.rowsDone < st.rows → taken r.inA = true → taken r.inU = true →
        (r.out.any fun t => (h.openOut i 1 (rowSlot st.ofmt st.rows t.n r.rowsDone).1).isSome) = true →
        Gives (.vuRowEnd row x) s fun h' => (h'.onEngine i 1).map (fun z => z.1.rowsDone) = some (r.rowsDone + 1)) ∧
      (opsPerToken (h.opsOf i st) = false → Becomes (.vuRowEnd row x) s h) ∧
      ((opsPerToken (h.opsOf i st) = true → st.rows ≤ r.rowsDone) → (h.stall i).image.isSome = true → taken r.inA = true →
        taken r.inU = true → outReady r = true → r.mismatch = false → Gives (.vuStepEnd row x) s fun h' =>
          (h'.stall i).vu = none ∧
          (h'.findRun r.key).map GroupRun.stepsDone = (h.findRun r.key).map fun z => z.stepsDone + 1)

/-- A Hen step ends: it writes the lists of its operation and nothing else of the store, and the Hen is idle (R130, R136, R141, R142, R143, R144, R145, R146, R147, R148, R151). -/
def Obligations.HenOperations : Prop :=
  ∀ (s : State) (row : Fin 8) (x : Fin 16),
    let i := 16 * row.val + x.val
    let h := s.hall
    let ops : List (Instr × Nat) :=
      [(.gather row x, 0x01), (.scatterAdd row x, 0x02), (.segSum row x, 0x03), (.segMax row x, 0x04), (.segMin row x, 0x05),
       (.segArgmax row x, 0x06), (.sort row x, 0x08), (.intersect row x, 0x09), (.union row x, 0x0A), (.diff row x, 0x0B),
       (.topk row x, 0x0C), (.hashInsert row x, 0x0D), (.hashProbe row x, 0x0E), (.msg row x, 0x10), (.assign row x, 0x11)]
    ∀ e ∈ ops,
      (h.onEngine i 2 = none → Becomes e.1 s h) ∧
      ∀ r st, h.onEngine i 2 = some (r, st) →
        let p := decodeHen (h.storeBytes i st.param 64)
        let ph := if p.op = 0x11 then phases (h.storeBytes i p.phOff (8 * min 8 p.p0)) (min 8 p.p0) else []
        let out := henRun p { hall := h.free.2, base := storeBase i } ph h.free.1
        let ws := (if r.poisonAll then out.poisoned p else out).writes
        (p.op ≠ e.2 → Becomes e.1 s h) ∧
        (p.op = e.2 → (h.stall i).image.isSome = true → (r.inA.all fun t => decide (t.n ≤ t.slots.length)) = true →
          (r.out.all fun t => decide (t.n ≤ t.slots.length) && (h.trough i t.trough).isSome) = true → h.henOutFree i r = true →
          r.mismatch = false → Gives e.1 s fun h' =>
            (h'.stall i).hen = none ∧
            (h'.findRun r.key).map GroupRun.stepsDone = (h.findRun r.key).map (fun z => z.stepsDone + 1) ∧
            (∀ a, (∀ w ∈ ws, a < storeBase i + w.1 ∨ storeBase i + w.1 + w.2.length ≤ a) →
              Mem.read 0 h'.mem.ram a = Mem.read 0 h.mem.ram a) ∧
            ∀ w, ws = [w] → w.1 + w.2.length ≤ 0x3F0000 →
              ∀ j, ∀ q : PByte, w.2[j]? = some q → Mem.read 0 h'.mem.ram (storeBase i + w.1 + j) = q.b)

/-- SORT and TOPK order: a stable permutation; INTERSECT, UNION and DIFF of ascending lists (R88, R143, R144, R145). -/
def Obligations.SortedKeysAndSets : Prop :=
  (∀ (fmt : Nat) (descend : Bool) (ks : List Elem),
    (sortKeys fmt descend ks).Perm ks.zipIdx ∧
    (sortKeys fmt descend ks).Pairwise fun x y =>
      (if descend then henKey fmt y.1.raw < henKey fmt x.1.raw else henKey fmt x.1.raw < henKey fmt y.1.raw) ∨
      (henKey fmt x.1.raw = henKey fmt y.1.raw ∧ x.2 < y.2)) ∧
  (∀ (p : HenParam) (m : HenMem) (free : Nat),
    let xs := m.list p.aOff (m.count p.aOff p.na).1
    let ys := m.list p.bOff (m.count p.bOff p.nb).1
    ascending xs = true → ascending ys = true → ((xs ++ ys).any fun e => e.poison) = false →
    ∃ (res : List Int) (l : HenList), (henSet p m free).lists = [l] ∧ l.count = res.length ∧ l.order = false ∧
      (l.words.take res.length).map Elem.raw = res.map (ofSigned 32) ∧ res.Pairwise (· < ·) ∧
      ∀ v, v ∈ res ↔ (if p.op = 9 then v ∈ xs.map i32 ∧ v ∈ ys.map i32
        else if p.op = 10 then v ∈ xs.map i32 ∨ v ∈ ys.map i32
        else v ∈ xs.map i32 ∧ v ∉ ys.map i32))

/-- Integer checks compare exactly, on the step-1 accumulators: any difference is a mismatch, and saturation never one (R116). -/
def Obligations.IntegerChecksExact : Prop :=
  ∀ (x : TileIn) (us : List Upset) (kLen : Nat),
    pairFloat x.pair = false → pairOk x.pair x.afmt x.wfmt = true → kLen ≤ 1048576 → (∀ r ∈ x.a, r.length = kLen) →
    (∀ c ∈ x.w, c.length = kLen) → x.a.length ≤ pairRows x.pair → x.w.length ≤ pairCols x.pair true →
    (∀ u ∈ us, u.row < x.a.length ∧ u.col < x.w.length) →
    let a := fun (r k : Nat) => intOfRaw x.afmt (((x.a.getD r []).getD k { raw := 0 }).raw)
    let w := fun (k c : Nat) => intOfRaw x.wfmt (((x.w.getD c []).getD k { raw := 0 }).raw)
    let sum := fun (n : Nat) (f : Nat → Int) => ((List.range n).map f).sum
    let acc := fun (r c : Nat) => flipInt (sum kLen fun k => a r k * w k c) (upsetAt us r c)
    let t := intTile { x with checks := true } us
    (∀ r, r < x.a.length → rowPoison (x.a.getD r []) = false →
      (r ∈ t.chk.rows ↔
        (sum kLen fun k => a r k * sum x.w.length fun c => w k c) ≠ sum x.w.length (fun c => acc r c) ∨
        (pairRows x.pair = 64 ∧
          (sum kLen fun k => a r k * sum x.w.length fun c => (c + 1) * w k c) ≠ sum x.w.length (fun c => (c + 1) * acc r c)))) ∧
    (∀ c, c < x.w.length → rowPoison (x.w.getD c []) = false →
      (c ∈ t.chk.cols ↔
        (sum kLen fun k => (sum x.a.length fun r => a r k) * w k c) ≠ sum x.a.length fun r => acc r c)) ∧
    ∀ y : TileIn, y.pair = x.pair → y.afmt = x.afmt → y.wfmt = x.wfmt → y.a = x.a → y.w = x.w →
      (intTile { y with checks := true } us).chk = t.chk

/-- Integer checks raise no false alarm, and locate every single change of an accumulator (R91, R114, R115, R116, R119). -/
def Obligations.IntegerUpsetLocated : Prop :=
  ∀ (x : TileIn) (kLen : Nat),
    pairFloat x.pair = false → pairOk x.pair x.afmt x.wfmt = true → x.checks = true → kLen ≤ 1048576 → (∀ r ∈ x.a, r.length = kLen) →
    (∀ c ∈ x.w, c.length = kLen) → x.a.length ≤ pairRows x.pair → x.w.length ≤ pairCols x.pair true →
    (∀ r ∈ x.a, rowPoison r = false) → (∀ c ∈ x.w, rowPoison c = false) →
    (runTile x []).chk.failed = false ∧
    ∀ u : Upset, u.row < x.a.length → u.col < x.w.length → u.flip % 2 ^ 40 ≠ 0 →
      (runTile x [u]).chk.failed = true ∧ (runTile x [u]).chk.loc = (u.row, u.col, false)

/-- Integer requantisation: exact, rounding half up, within the target's range; INT32 output skips it (R94). -/
def Obligations.Requantisation : Prop :=
  (∀ (acc M : Int) (sh : Nat) (qmin qmax z : Int),
    requant acc M sh qmin qmax z =
      max (qmin - z) (min (qmax - z) ⌊(acc * M : ℚ) / 2 ^ sh + (if sh = 0 then 0 else 1 / 2)⌋) + z ∨ qmax < qmin) ∧
  (∀ (acc M : Int) (sh : Nat) (qmin qmax z : Int), qmin ≤ z → z ≤ qmax →
    qmin ≤ requant acc M sh qmin qmax z ∧ requant acc M sh qmin qmax z ≤ qmax ∧ requant acc 0 sh qmin qmax z = z) ∧
  (∀ (acc M : Int) (sh : Nat), -2147483648 ≤ acc → acc ≤ 2147483647 → -2147483648 ≤ M → M ≤ 2147483647 → sh ≤ 63 →
    -(2 : Int) ^ 65 ≤ acc * M + (if sh = 0 then 0 else 2 ^ (sh - 1)) ∧ acc * M + (if sh = 0 then 0 else 2 ^ (sh - 1)) < 2 ^ 65) ∧
  ∀ (x : TileIn) (us : List Upset) (r c : Nat) (e : Elem), x.ofmt = 8 → x.outl = [] →
    ((intTile x us).out[r]?).bind (fun l => l[c]?) = some e → e.poison = false →
    let a := (x.a.getD r []).map fun (y : Elem) => intOfRaw x.afmt y.raw
    let w := (x.w.getD c []).map fun (y : Elem) => intOfRaw x.wfmt y.raw
    let n := x.ent.getD c (decodeReqEnt [] false)
    let za := if x.token then (x.scale.getD r (ScaleRec.ofBytes [], false)).1.z else x.za
    e.raw = rawOfInt 8 (satI32 (flipInt (List.zipWith (· * ·) a w).sum (upsetAt us r c) + n.c0 + za * n.c1 - n.zw * a.sum))

/-- A run that may commit commits and leaves its Ledger; one that aborts starts again with the next EPOCH (R206, R208, R212, R213, R214, R215, R216, R223). -/
def Obligations.CommitAndAbort : Prop :=
  (∀ (s : State) (row limg : Fin 8),
    (∀ r, s.hall.oldestRun row.val limg.val = some r →
      (s.hall.mayCommit r = false → Becomes (.ledgerCommit row limg) s s.hall) ∧
      (s.hall.mayCommit r = true → Gives (.ledgerCommit row limg) s fun h' =>
        h'.findRun r.key = none ∧
        h'.runsCommitted r.key.row r.key.limg = s.hall.runsCommitted r.key.row r.key.limg + 1 ∧
        ((s.hall.ledger r.key.row).clearStats = false → s.hall.getF (.count .ledgerCommits) r.key.row < Ctr.ledgerCommits.top →
          h'.getF (.count .ledgerCommits) r.key.row = s.hall.getF (.count .ledgerCommits) r.key.row + 1) ∧
        ((s.hall.pen r.pen).partner = none → ∀ a, (∀ l ∈ r.redo, a < l.addr ∨ l.addr + l.data.length ≤ a) →
          Mem.read 0 h'.mem.ram a = Mem.read 0 s.hall.mem.ram a))) ∧
    (s.hall.oldestRun row.val limg.val = none → Becomes (.ledgerCommit row limg) s s.hall)) ∧
  ∀ (s : State) (row limg : Fin 8) (pass group cause : Nat),
    let k : RunKey := ⟨row.val, limg.val, pass, group⟩
    let c : Instr := .ledgerAbort row limg pass group cause
    (s.hall.findRun k = none → Becomes c s s.hall) ∧
    ∀ r, s.hall.findRun k = some r →
      (cause = 6 → (s.hall.pen r.pen).state ≠ .resetting → Becomes c s s.hall) ∧
      (cause = 6 → (s.hall.pen r.pen).state = .resetting → Gives c s fun h' => h'.findRun k = none) ∧
      (cause = 0 ∨ 6 < cause → Becomes c s s.hall) ∧
      (1 ≤ cause → cause ≤ 5 → r.closing = true → cause ≠ 2 → Becomes c s s.hall) ∧
      (1 ≤ cause → cause ≤ 5 → (r.closing = false ∨ cause = 2) → Gives c s fun h' =>
        (h'.findRun k).map (fun z => (z.epoch, z.stepsDone, z.startedSteps, z.redo)) = some (r.epoch + 1, 0, [], []) ∧
        ((s.hall.ledger row.val).clearLast = false → h'.getF .ledgerLastAbortValid row.val = 1) ∧
        (s.hall.dependents [k] = [] → ∀ u : UndoLine, r.undo = [u] → ∀ j : Nat, ∀ b : Byte, u.data[j]? = some b →
          Mem.read 0 h'.mem.ram (u.line * 64 + j) = b))

/-- Shadow runs, votes and repeats: agreement settles, disagreement brings a referee, the verdict names the stall at fault (R228, R231, R232, R233, R236, R238, Table 9.3, Table 9.4, Table 9.6). -/
def Obligations.VotesAndShadows : Prop :=
  ∀ (s : State) (row : Fin 8) (id : Nat),
    let h := s.hall
    let r := row.val
    (∀ c : CheckItem, h.item r id = some c → c.key.row = r → c.id = id → h.selftest r = false →
      (∀ (sh : Nat) (fault : BitVec 64), c.phase = .shadowRun → c.shadow = some sh →
        (c.clean ^^^ fault.toNat = c.digest → c.mismatch = false →
          Gives (.shadowRunEnd row id fault) s fun h' => h'.item r id = none ∧ h'.mem = h.mem ∧ h'.cmd = h.cmd) ∧
        (c.clean ^^^ fault.toNat ≠ c.digest → h.candidates c ≠ [] →
          (∀ d ∈ (h.tally r).items, d.phase = .waitReferee → d.id = id) →
          Gives (.shadowRunEnd row id fault) s fun h' =>
            (h'.item r id).map (fun d => (d.phase, d.shadowDigest)) = some (CheckPhase.waitReferee, some (c.clean ^^^ fault.toNat)) ∧
            (h.getF (.count .tallyMismatch) r < Ctr.tallyMismatch.top →
              h'.getF (.count .tallyMismatch) r = h.getF (.count .tallyMismatch) r + 1))) ∧
      (c.phase = .waitReferee →
        (∀ i, (h.candidates c).find? (h.refereeFree c) = some i → Gives (.voteStart row id) s fun h' =>
          (h'.item r id).map (fun d => (d.phase, d.referee)) = some (CheckPhase.copying, some i) ∧ Frame h h' [.data] noReg) ∧
        ((h.candidates c).find? (h.refereeFree c) = none → Becomes (.voteStart row id) s h)) ∧
      (c.phase = .copying → Gives (.voteCopyDone row id) s fun h' =>
        (h'.item r id).map (fun d => (d.phase, d.referee)) = some (CheckPhase.refereeRun, c.referee) ∧ Frame h h' [.data] noReg) ∧
      (∀ (i : Nat) (fault : BitVec 64) (checkFailed : Bool), c.phase = .refereeRun → c.referee = some i →
        let t := c.clean ^^^ fault.toNat
        Gives (.refereeEnd row id fault checkFailed) s fun h' =>
          h'.getF .tallyLastVerdictKind r = voteKind c t (decide (c.engine = 0) && (checkFailed || c.cleanMismatch)) ∧
          h'.getF .tallyLastVerdictStall r = c.stall % 16 ∧ h'.checks.nextSeq = (h.checks.nextSeq + 1) % 2 ^ 32) ∧
      (∀ (kind answer prior : Nat) (fault : BitVec 64), c.phase = .repeating → c.verdict = some (kind, answer, prior) →
        ((h.tally r).repeats.find? fun x => x.id = id) = none →
        let right := decide (c.clean ^^^ fault.toNat = answer) && !(c.oxChecked && c.cleanMismatch)
        Gives (.repeatEnd row id fault) s fun h' =>
          h'.getF .tallyLastVerdictKind r = (if right then 7 else 8) ∧
          (right = false → h'.getF .tallyStallState (if kind = 2 then c.shadow.getD c.stall else c.stall) = 2) ∧
          h'.item r id = none ∧ h'.checks.nextSeq = (h.checks.nextSeq + 1) % 2 ^ 32)) ∧
    (∀ (x : RepeatItem) (d : Nat) (bad : Bool) (fault : BitVec 64), ((h.tally r).repeats.find? fun x => x.id = id) = some x →
      x.got = some (d, bad) → x.item.key.row = r → h.selftest r = false →
      Gives (.repeatEnd row id fault) s fun h' =>
        h'.getF .tallyLastVerdictKind r = (if d = x.answer ∧ bad = false then 7 else 8) ∧
        (¬ (d = x.answer ∧ bad = false) → h'.getF .tallyStallState x.stall = 2) ∧
        (d = x.answer → bad = false → (h.tally r).stallDue = [] → h.getF .tallyStallState x.stall = 0 →
          h'.getF .tallyStallState x.stall = 1 ∧ h'.getF .tallyStallFOvr x.stall = 7) ∧
        ∀ y ∈ (h'.tally r).repeats, y.id ≠ id) ∧
    (h.selftest r = true → ∀ (fault : BitVec 64) (b : Bool),
      Becomes (.repeatEnd row id fault) s h ∧ Becomes (.voteStart row id) s h ∧ Becomes (.refereeEnd row id fault b) s h ∧
      Becomes (.shadowRunEnd row id fault) s h)

/-- Self-tests, elapsed times, watches and pattern tests of the stalls (R239, R240, R241, R244, R245, R253, Table 9.6, Table 9.8). -/
def Obligations.SelfTestsAndPatternTests : Prop :=
  (∀ (s : State) (req : Requester) (row : Fin 8),
    (s.hall.accepts req = true → Becomes (.tallySelftestGo req row) s (s.hall.updTally row fun t => { t with goDue := true })) ∧
    (s.hall.accepts req = false → Becomes (.tallySelftestGo req row) s s.hall)) ∧
  (∀ (s : State) (row : Fin 8) (failed : Bool),
    (s.hall.selftest row = false → Becomes (.selftestEnd row failed) s s.hall) ∧
    (s.hall.selftest row = true → (s.hall.tally row).goDue = false → Gives (.selftestEnd row failed) s fun h' =>
      h'.getF .tallyStatusSelftest row = 0 ∧ h'.getF .tallyStatusFailed row = b2n failed ∧
      (failed = true → (s.hall.tally row).items = [] → h'.getF .tallyLastVerdictKind row = 11))) ∧
  (∀ (s : State) (ticks : Nat),
    Gives (.tickTotalsAdd ticks) s fun h' =>
      (∀ u, u = 0 ∨ u = 1 → h'.getF .rtcCountTicks u = (s.hall.getF .rtcCountTicks u + ticks) % 2 ^ Fld.rtcCountTicks.width) ∧
      (s.hall.governing.isSome = true → ∀ i, i < 128 →
        (Tab.get ({} : StallTotals) h'.checks.totals i).packAge = (Tab.get ({} : StallTotals) s.hall.checks.totals i).packAge +
          (if s.hall.stallRetired i then 0 else ticks)) ∧
      h'.data = s.hall.data ∧ h'.mem = s.hall.mem) ∧
  (∀ s : State,
    (s.hall.governing = none → Becomes .tickTotalsSave s s.hall) ∧
    (s.hall.governing.isSome = true → Gives .tickTotalsSave s fun h' =>
      h'.checks.savedTotals = s.hall.checks.totals ∧ Frame s.hall h' [.checks] noReg)) ∧
  ∀ (s : State) (row : Fin 8) (x : Fin 16),
    let h := s.hall
    let i := 16 * row.val + x.val
    let age := (Tab.get ({} : StallTotals) h.checks.totals i).packAge
    let well := h.getF .tallyStallState i = 1 ∧ dayTicks ≤ (Tab.get ({} : StallTotals) h.checks.totals i).observed ∧
      (h.stall i).lastPackPassed = true
    let due := if h.getF .tallyStallState i = 1 then 10000 ≤ h.getF .tallyStallSinceTest i
      else if h.getF .tallyStallRole i = 3 then hourTicks ≤ age
      else (h.getF .tallyStallRole i = 1 ∨ h.getF .tallyStallRole i = 2) ∧ dayTicks ≤ age
    (well → Gives (.observationClear row x) s fun h' =>
      h'.getF .tallyStallState i = 0 ∧ h'.getF .tallyStallStrikes i = 0 ∧ h'.getF .tallyLastVerdictKind row = 10 ∧
      h'.getF .tallyStallFOvr i = if (h.tally row).watch then 7 else 0) ∧
    (¬ well → Becomes (.observationClear row x) s h) ∧
    ((h.tally row).watch = true → dayTicks ≤ Tab.get 0 h.checks.watchTicks row → Gives (.rowWatchExpire row) s fun h' =>
      (h'.tally row).watch = false ∧
      h'.getF .tallyStallFOvr i = if h.getF .tallyStallState i = 0 then 0 else h.getF .tallyStallFOvr i) ∧
    ((h.tally row).watch = false → Becomes (.rowWatchExpire row) s h) ∧
    (due → ∀ p : Pack, h.checks.pack = some p → (h.stall i).packRun = none → h.stallRetired i = false →
      Gives (.packRunDue row x) s fun h' =>
        (h'.stall i).packRun = some (List.range p.ntest) ∧ h'.getF .tallyStallTestDue i = 1 ∧ h'.mem = h.mem) ∧
    (¬ due → Becomes (.packRunDue row x) s h) ∧
    (∀ (p : Pack) (t : Nat), h.checks.pack = some p → h.nextTest i = some t → h.testMoment i = true →
      Gives (.patternTestStart row x) s fun h' =>
        (h'.stall i).test.map (fun y => (y.idx, y.again, y.expect)) = some (t, false, (packEntry p.raw t).expect) ∧
        Frame h h' [.data] noReg) ∧
    (h.testMoment i = false ∨ h.checks.pack = none → Becomes (.patternTestStart row x) s h) ∧
    ((h.stall i).test = none → ∀ fault : BitVec 64, Becomes (.patternTestEnd row x fault) s h) ∧
    ∀ (t : PackTest) (fault : BitVec 64), (h.stall i).test = some t →
      let failed := decide (Config.testDigest t.body % 2 ^ 64 ^^^ fault.toNat ≠ t.expect)
      Gives (.patternTestEnd row x fault) s fun h' =>
        (h'.stall i).test = (if failed = true ∧ t.again = false then some { t with again := true } else none) ∧
        (h.getF (.count .tallyTestsRun) row < Ctr.tallyTestsRun.top →
          h'.getF (.count .tallyTestsRun) row = h.getF (.count .tallyTestsRun) row + 1) ∧
        (failed = true ∨ t.again = true →
          h'.getF .tallyLastVerdictKind row = if t.again then (if failed then 8 else 7) else 9)

/-- The CHECK commands and LOG_EXPORT (R224, R227, R242, R243, R246, R251, Table 9.11). -/
def Obligations.CheckCommands : Prop :=
  (∀ (s : State) (t : Fin 128),
    let c := s.hall.tillCmd t
    let b := s.hall.tillPayload t
    let op := s.hall.cmd.nextHandle
    let set := s.hall.setFs c.pen [(.tallyPenchkChkOn, leAt b 0 1), (.tallyPenchkFCode, leAt b 1 1)]
    (s.hall.tillReady t 0x0501 (decide (c.pen = 0)) false = true → c.length = 2 → leAt b 0 1 ≤ 1 → leAt b 1 1 ≤ 7 →
      ((set.designate c.pen).isSome = true → ∃ h', Answers (.checkSet t) s t stOK [] h' ∧
        h'.getF .tallyPenchkChkOn c.pen = leAt b 0 1 ∧ h'.getF .tallyPenchkFCode c.pen = leAt b 1 1 ∧
        Frame s.hall h' [] fun f u => (u = c.pen ∧ f ∈ [Fld.tallyPenchkChkOn, .tallyPenchkFCode]) ∨ f = .tallyStallRole) ∧
      (set.designate c.pen = none → Answers (.checkSet t) s t stNoResource [] s.hall)) ∧
    (s.hall.tillReady t 0x0502 false false = true → c.length = 0 → ∃ a, Answers (.checkGet t) s t stOK a s.hall ∧
      leAt a 0 1 = s.hall.getF .tallyPenchkChkOn c.pen % 256 ∧ leAt a 1 1 = s.hall.getF .tallyPenchkFCode c.pen % 256 ∧
      leAt a 2 1 = (s.hall.shadowsOf c.pen).length % 256) ∧
    (s.hall.tillReady t 0x0503 (decide (c.pen = 0)) false = true → c.secure = true →
      let n := leAt b 0 1
      c.length = 9 + 2 * n → 1 ≤ n → n ≤ 64 → 1 ≤ leAt b (5 + 2 * n) 4 → leAt b (5 + 2 * n) 4 ≤ 10000 →
      ∀ (l : List Nat) (p : Pack), c.stallList 1 n = some l → s.hall.checks.pack = some p → p.select (leAt b (1 + 2 * n) 4) ≠ [] →
        ∃ h', Answers (.checkProbe t) s t stAccepted (leBytes 4 op) h' ∧
          (Tab.find h'.checks.probes op).map (fun x => (x.sigId, x.run, x.failed, x.first)) =
            some (leAt b (1 + 2 * n) 4, 0, 0, none) ∧ h'.data = s.hall.data) ∧
    (s.hall.tillReady t 0x0504 false false = true → c.length = 12 → ∃ h',
      Answers (.checkPackInstall t) s t stAccepted (leBytes 4 op) h' ∧ (Tab.find h'.checks.packInstalls op).isSome = true ∧
      h'.checks.pack = s.hall.checks.pack) ∧
    (s.hall.tillReady t 0x0C01 false false = true → c.length = 6 → ∃ a, Answers (.logExport t) s t stOK a s.hall ∧ a.length ≤ 3968)) ∧
  ∀ (s : State) (k : Nat),
    (Tab.find s.hall.checks.probes k = none → Becomes (.checkProbeDeadline k) s s.hall) ∧
    ((Tab.find s.hall.checks.probes k).isSome = true → Gives (.checkProbeDeadline k) s fun h' =>
      Tab.find h'.checks.probes k = none ∧ Tab.find h'.cmd.ops k = none ∧ h'.data = s.hall.data) ∧
    (Tab.find s.hall.checks.packInstalls k = none → Becomes (.packInstallDone k) s s.hall) ∧
    ∀ (fault : Nat) (raw : Bytes), Tab.find s.hall.checks.packInstalls k = some (fault, raw) → Gives (.packInstallDone k) s fun h' =>
      Tab.find h'.checks.packInstalls k = none ∧ Tab.find h'.cmd.ops k = none ∧
      (s.hall.packStatus fault raw = stOK → h'.checks.pack = some { packId := leAt raw 8 4, version := leAt raw 12 4, raw := raw }) ∧
      (s.hall.packStatus fault raw ≠ stOK → h'.checks.pack = s.hall.checks.pack ∧ h'.data = s.hall.data)

/-- Lot-page reads, the frames of the pool and the scrub of T1 (R264, R265, R266, R268, R270, R272, R301, R302, Table 12.2). -/
def Obligations.LotReadsAndPool : Prop :=
  (∀ (s : State) (id : Nat),
    let h := s.hall
    (Tab.find h.tiers.reads id = none → Becomes (.lotReadReturn id) s h ∧ Becomes (.lotReadLate id) s h) ∧
    ∀ x : LotRead, Tab.find h.tiers.reads id = some x →
      (x.result = none → Becomes (.lotReadReturn id) s h) ∧
      (∀ p : Payload, x.result = some p → Gives (.lotReadReturn id) s fun h' =>
        Tab.find h'.tiers.reads id = none ∧
        (h'.chan x.chan).outstanding = (h.chan x.chan).outstanding.map (fun (b : DmaBurst) =>
          if b.read = some id then { b with read := none, payload := some p } else b) ∧
        ((p.any fun (y : PByte) => y.poison) = false → Frame h h' [.tiers] noReg)) ∧
      Gives (.lotReadLate id) s (fun h' =>
        Tab.find h'.tiers.reads id = none ∧
        (∃ p : Payload, p.length = x.n ∧ (∀ y ∈ p, y.poison = true ∧ y.late = true) ∧
          (h'.chan x.chan).outstanding = (h.chan x.chan).outstanding.map (fun (b : DmaBurst) =>
            if b.read = some id then { b with read := none, payload := some p } else b)) ∧
        (h.getF (.count .mmuLateReads) (hubNum x.hub) < Ctr.mmuLateReads.top →
          h'.getF (.count .mmuLateReads) (hubNum x.hub) = h.getF (.count .mmuLateReads) (hubNum x.hub) + 1)) ∧
      ∀ row : Fin 8, x.result = none → x.addr < 0x080000000000 → x.failed = [] → h.rowGone x.pref = false →
        h.rowGone ((x.pref + 4) % 8) = false → h.bankFree x.pref (nvBank x.prefBlk) = true →
        let o := x.addr % 0x008000000000
        (row.val ≠ x.pref → ∀ b : Bool, Becomes (.arrayPageRead id row b) s h) ∧
        (row.val = x.pref → (h.bankSuspended x.pref (nvBank x.prefBlk) && decide (h.bankPblock x.pref (nvBank x.prefBlk) = x.prefBlk)) = false →
          Gives (.arrayPageRead id row false) s (fun h' =>
            (Tab.find h'.tiers.reads id).map LotRead.result =
              some (some (h.nvPayload x.pref o (h.nvRead x.pref x.prefBlk (o % nvBlockBytes) x.n))) ∧ h'.mem = h.mem) ∧
          Gives (.arrayPageRead id row true) s fun h' =>
            (Tab.find h'.tiers.reads id).map (fun y => (y.result, y.failed)) = some (none, [x.pref]) ∧ h'.mem = h.mem)) ∧
  (∀ (s : State) (hub : Hub) (page : Nat),
    let h := s.hall
    let gone := fun (x : PoolFrame) (h' : Hall) => (Tab.find (h'.pool hub).frames page).map PoolFrame.state = if x.leaving then none else some .free
    (Tab.find (h.pool hub).frames page = none →
      Becomes (.poolFillDone hub page false) s h ∧ Becomes (.poolDrainDone hub page) s h ∧ Becomes (.poolInvalidDrained hub page) s h) ∧
    ∀ x : PoolFrame, Tab.find (h.pool hub).frames page = some x →
      (x.state ≠ .filling → ∀ b : Bool, Becomes (.poolFillDone hub page b) s h) ∧
      (x.state = .filling → x.home * 65536 < 0x080000000000 → x.leaving = false →
        let home := x.home * 65536
        let r := h.nvMirrorRead ((home - 0x040000000000) / 0x008000000000 % 4) (home % 0x008000000000) 65536
        ∀ p : Payload, r.1 = some p → (p.any fun (y : PByte) => y.poison) = false → Gives (.poolFillDone hub page false) s fun h' =>
          (Tab.find (h'.pool hub).frames page).map (fun y => (y.state, y.home)) = some (PoolState.valid, x.home) ∧
          (∀ j : Nat, ∀ y : PByte, p[j]? = some y → Mem.read 0 h'.mem.ram (page * 65536 + j) = y.b) ∧
          (h.getF (.count .mmuPromotions) (hubNum hub) < Ctr.mmuPromotions.top →
            h'.getF (.count .mmuPromotions) (hubNum hub) = h.getF (.count .mmuPromotions) (hubNum hub) + 1)) ∧
      (x.state = .filling → Gives (.poolFillDone hub page true) s fun h' => gone x h' ∧ h'.mem.ram = h.mem.ram) ∧
      (∀ home : Nat, x.state = .draining → x.bursts = 0 → x.next = some home → Gives (.poolDrainDone hub page) s fun h' =>
        (Tab.find (h'.pool hub).frames page).map (fun y => (y.state, y.home, y.next)) = some (PoolState.filling, home, none) ∧
        (h.getF (.count .mmuEvictions) (hubNum hub) < Ctr.mmuEvictions.top →
          h'.getF (.count .mmuEvictions) (hubNum hub) = h.getF (.count .mmuEvictions) (hubNum hub) + 1)) ∧
      (x.state ≠ .draining ∨ x.bursts ≠ 0 → Becomes (.poolDrainDone hub page) s h) ∧
      (x.state = .invalid → x.bursts = 0 → Gives (.poolInvalidDrained hub page) s fun h' => gone x h' ∧ h'.mem.ram = h.mem.ram) ∧
      (x.state ≠ .invalid ∨ x.bursts ≠ 0 → Becomes (.poolInvalidDrained hub page) s h)) ∧
  ∀ (s : State) (hub : Hub) (line errors : Nat),
    (s.hall.region (line * 64) ≠ .t1 hub → Becomes (.t1ScrubStep hub line errors) s s.hall) ∧
    (s.hall.region (line * 64) = .t1 hub → Gives (.t1ScrubStep hub line errors) s fun h' =>
      h'.mem.ram = s.hall.mem.ram ∧ (errors ≤ 2 → h'.mem.marks = s.hall.mem.marks) ∧ (3 ≤ errors → (h'.mark line).poison = true) ∧
      h'.getF .mmuStatusScrub (hubNum hub) = (if (line + 1) * 64 = (halfBase hub + halfPages) * 65536 then 0 else 1))

/-- Barrow's channels: enable, bursts, waits, the end of a descriptor, drop and recovery (R282, R283, R284, R286, R288, R290, R291, R292, R294, Table 11.3). -/
def Obligations.BarrowChannels : Prop :=
  (∀ (s : State) (req : Requester) (chan : Chan),
    let h := s.hall
    let c := chanNum chan
    let st := h.getF .brwChState c
    (s.hall.accepts req = false →
      Becomes (.brwChEnable req chan) s h ∧ Becomes (.brwChDisable req chan) s h ∧ Becomes (.recoverResume req chan) s h ∧
      Becomes (.recoverSkip req chan) s h ∧ Becomes (.brwErrClear req chan) s h) ∧
    (s.hall.accepts req = true →
      (st = 0 → Gives (.brwChEnable req chan) s fun h' =>
        h'.getF .brwChCtrlEnable c = 1 ∧ h'.getF .brwChState c = 1 ∧ h'.getF .brwChStateDesc c = h.getF .brwChStartChain c ∧
        h'.getF .brwChPosI0 c = 0 ∧ h'.getF .brwChPosI1 c = 0 ∧ h'.getF .brwChPosI2 c = 0 ∧
        Frame h h' [.tiers] (regsOf c [.brwChCtrlEnable, .brwChState, .brwChStateDesc, .brwChPosI0, .brwChPosI1, .brwChPosI2])) ∧
      (st ≠ 0 → Becomes (.brwChEnable req chan) s (h.setF .brwChCtrlEnable c 1)) ∧
      Gives (.brwChDisable req chan) s (fun h' =>
        h'.getF .brwChCtrlEnable c = 0 ∧ h'.getF .brwChState c = 0 ∧ (st ≠ 0 → (h'.chan c).outstanding = [])) ∧
      Becomes (.brwErrClear req chan) s (h.setF .brwChErrValid c 0) ∧
      (st ≠ 3 → Becomes (.recoverResume req chan) s h ∧ Becomes (.recoverSkip req chan) s h) ∧
      (st = 3 → (∀ d, (h.chan c).restartDue = some d → ∀ i ∈ [Instr.recoverResume req chan, .recoverSkip req chan],
        Gives i s fun h' => h'.getF .brwChState c = 2 ∧ h'.getF .brwChStateDesc c = d % 2 ^ Fld.brwChStateDesc.width ∧
          (h'.chan c).restartDue = none)) ∧
      (st = 3 → (h.chan c).restartDue = none → ∀ d : Desc, h.curDesc c = some d →
        (Gives (.recoverResume req chan) s fun h' =>
          (h'.chan c).outstanding.length = (h.chan c).outstanding.length + 1 ∨ h'.getF .brwChState c = 3) ∧
        ∀ (dir cause space a : Nat), (h.chan c).failing = some (dir, cause, space, a) → Gives (.recoverSkip req chan) s fun h' =>
          (h.getF (.count .brwSkips) (chanEngine c) < Ctr.brwSkips.top →
            h'.getF (.count .brwSkips) (chanEngine c) = h.getF (.count .brwSkips) (chanEngine c) + 1) ∧
          (dir ≠ 0 → (h'.chan c).outstanding.length = (h.chan c).outstanding.length + 1 ∧
            ((h'.chan c).outstanding.getLast?).map DmaBurst.dest = some Dest.drop)))) ∧
  (∀ (s : State) (engine : Engine),
    let h := s.hall
    let e := engineNum engine
    let live := (engineChans e).filter fun c => h.getF .brwChState c = 1 && h.flag .brwChCtrlEnable c
    (live = [] → Becomes (.brwBurstIssue engine) s h) ∧
    ∀ c, h.chooseChan e (live.filter h.burstReady) = some c → Gives (.brwBurstIssue engine) s fun h' =>
      ((h'.chan c).outstanding.length = (h.chan c).outstanding.length + 1 ∨ h'.getF .brwChState c = 3) ∧
      Tab.find h'.tiers.served (e * 8 + h.chanPrio c) = some c ∧
      ∀ d ∈ live, h.burstReady d = false → (h.chan d).issuedAll = false → (h.chan d).outstanding.length < 16 →
        h'.getF .brwChState d = 2) ∧
  ∀ (s : State) (chan : Chan),
    let h := s.hall
    let c := chanNum chan
    ((h.chan c).outstanding = [] → Becomes (.brwBurstComplete chan) s h) ∧
    (∀ (b : DmaBurst) (rest : List DmaBurst), (h.chan c).outstanding = b :: rest →
      (b.payload = none → Becomes (.brwBurstComplete chan) s h) ∧
      ∀ p : Payload, b.payload = some p → Gives (.brwBurstComplete chan) s fun h' =>
        (h'.chan c).outstanding = rest ∧
        (h.getF (.count .brwBursts) (chanEngine c) < Ctr.brwBursts.top →
          h'.getF (.count .brwBursts) (chanEngine c) = h.getF (.count .brwBursts) (chanEngine c) + 1) ∧
        (∀ a, b.dest = .prov a → (∀ j : Nat, ∀ y : PByte, p[j]? = some y → Mem.read 0 h'.mem.ram (a + j) = y.b) ∧
          RamOutside h h' a p.length) ∧
        (b.dest = .drop → h'.mem = h.mem)) ∧
    (h.getF .brwChState c = 2 ∧ h.burstReady c = true → Becomes (.brwSlotReady chan) s (h.setF .brwChState c 1)) ∧
    (¬ (h.getF .brwChState c = 2 ∧ h.burstReady c = true) → Becomes (.brwSlotReady chan) s h) ∧
    ((h.chan c).issuedAll = false ∨ (h.chan c).outstanding ≠ [] → Becomes (.brwDescriptorEnd chan) s h) ∧
    ∀ d : Desc, h.curDesc c = some d → (h.chan c).issuedAll = true → (h.chan c).outstanding = [] →
      (h.getF .brwChState c = 1 ∨ h.getF .brwChState c = 2) → (d.last = false ∨ h.chanLaunch c true = false) →
      Gives (.brwDescriptorEnd chan) s fun h' =>
        h'.getF .brwChState c = 1 ∧ (h'.chan c).issuedAll = false ∧ (h'.chan c).off = 0 ∧
        h'.getF .brwChStateDesc c =
          if d.last then h.getF .brwChStartChain c else d.next % 2 ^ Fld.brwChStateDesc.width

/-- Unlock sequences and the ten commands of a weight array (R303, R305, R306, R307, R308, R309, R310, R311, R312, Table 12.3, Table 12.4, Table 12.5). -/
def Obligations.ArrayCommands : Prop :=
  (∀ (s : State) (hub : Hub) (row : Fin 8) (offset : Nat) (data : Bytes),
    let h := s.hall
    let i : Instr := .nvmcWindowWrite (.mp hub) row offset data
    let st := h.getF .nvmcStatusUnlock row
    let errs := fun (h' : Hall) => h.getF (.count .nvmcUnlockErr) row < Ctr.nvmcUnlockErr.top →
      h'.getF (.count .nvmcUnlockErr) row = h.getF (.count .nvmcUnlockErr) row + 1
    let locked := fun (h' : Hall) => (h'.array row).unlock = none ∧ errs h'
    (h.t2Bytes ≤ offset → Becomes i s h) ∧
    (offset < h.t2Bytes → h.governing ≠ some hub → Gives i s fun h' =>
      errs h' ∧ Frame h h' [] (regsOf row [.count .nvmcUnlockErr, .sat .nvmcUnlockErr])) ∧
    (offset < h.t2Bytes → h.governing = some hub → (h.array row).unlock = none →
      (cmdCycle data = some 0x5A5A → offset = 0xAAA8 → Gives i s fun h' =>
        h'.getF .nvmcStatusUnlock row = 1 ∧ (h'.array row).unlock = some { owner := hub } ∧ h'.mem = h.mem) ∧
      (cmdCycle data ≠ some 0x5A5A ∨ offset ≠ 0xAAA8 → Gives i s fun h' => locked h' ∧ h'.mem = h.mem)) ∧
    (∀ p : Hub, offset < h.t2Bytes → Gives (.nvmcWindowWrite (.host p .pf0) row offset data) s fun h' =>
      errs h' ∧ Frame h h' [] (regsOf row [.count .nvmcUnlockErr, .sat .nvmcUnlockErr])) ∧
    ∀ u : Unlock, (h.array row).unlock = some u → u.complete = false → u.owner = hub → offset < h.t2Bytes → h.governing = some hub →
      (st = 1 → cmdCycle data = some 0xA5A5 → offset = 0x5550 → Gives i s fun h' =>
        h'.getF .nvmcStatusUnlock row = 2 ∧ (h'.array row).unlock = some u) ∧
      (st = 1 → (cmdCycle data ≠ some 0xA5A5 ∨ offset ≠ 0x5550) → Gives i s fun h' => locked h' ∧ h'.getF .nvmcStatusUnlock row = 0) ∧
      (∀ w, st = 2 → cmdCycle data = some w → offset = 0xAAA8 → cmdKnown w = true → Gives i s fun h' =>
        h'.getF .nvmcStatusUnlock row = 3 ∧ (h'.array row).unlock = some { u with word := w }) ∧
      (∀ v, st = 3 → cmdCode u.word ≠ 0x0010 → cmdCycle data = some v →
        (cycleFits u.word offset v = true → Gives i s fun h' =>
          (h'.array row).unlock = some { u with first := offset, value := v, complete := true } ∧ h'.getF .nvmcStatusUnlock row = 0) ∧
        (cycleFits u.word offset v = false → Gives i s fun h' => locked h' ∧ h'.getF .nvmcStatusUnlock row = 0))) ∧
  (∀ (s : State) (row : Fin 8),
    let h := s.hall
    ((h.array row).unlock = none ∨ ((h.array row).unlock.any fun u => u.complete) = true → Becomes (.nvmcUnlockLapse row) s h) ∧
    ∀ u : Unlock, (h.array row).unlock = some u → u.complete = false → Gives (.nvmcUnlockLapse row) s fun h' =>
      (h'.array row).unlock = none ∧ h'.getF .nvmcStatusUnlock row = 0 ∧ h'.mem = h.mem) ∧
  ∀ (s : State) (row : Fin 8),
    let h := s.hall
    let r := row.val
    let cmds : List (Instr × Nat) :=
      [(.programPage row, 0x0010), (.eraseBlock row, 0x0020), (.blankCheck row, 0x0030), (.suspend row, 0x00B0), (.nvmResume row, 0x00D0),
       (.readStatus row, 0x0070), (.wpSet row, 0x0060), (.wpClear row, 0x0061), (.wpFreeze row, 0x0062), (.readPagePhys row, 0x00A0)]
    (∀ e ∈ cmds, (∀ u : Unlock, (h.array r).unlock = some u → u.complete = false ∨ cmdCode u.word ≠ e.2 → Becomes e.1 s h) ∧
      ((h.array r).unlock = none → Becomes e.1 s h) ∧
      ∀ (u : Unlock) (st : Nat), (h.array r).unlock = some u → u.complete = true → cmdCode u.word = e.2 →
        (h.unlockEnd r).nvChecks r (h.nvTarget r u) = some st → Gives e.1 s fun h' =>
          (h'.array r).unlock = none ∧ h'.getF .nvmcLastCmdValid r = 1 ∧ h'.getF .nvmcLastCmdResult r = st % 65536 ∧ h'.mem = h.mem ∧
          (h.getF (.count .nvmcRefused) r < Ctr.nvmcRefused.top →
            h'.getF (.count .nvmcRefused) r = h.getF (.count .nvmcRefused) r + 1) ∧
          Frame h h' [.weights] (regsOf r [.nvmcStatusUnlock, .count .nvmcRefused, .sat .nvmcRefused, .nvmcLastCmdValid,
            .nvmcLastCmdResult, .nvmcLastCmd, .nvmcLastCmdBank])) ∧
    ∀ u : Unlock, (h.array r).unlock = some u → u.complete = true → (h.unlockEnd r).nvChecks r (h.nvTarget r u) = none →
      let c := h.nvTarget r u
      let b := nvBank c.pblock
      let started := fun (op : Nat) (h' : Hall) => h'.bankState r b = 1 ∧ h'.getF .nvmcBankOp (bankU r b) = op ∧
        h'.bankPblock r b = c.pblock % 2 ^ Fld.nvmcBankPblock.width ∧ h'.mem = h.mem
      (cmdCode u.word = 0x0010 → Gives (.programPage row) s fun h' =>
        if h.nvBlank r c.pblock (c.page * nvPageBytes) nvPageBytes then started 1 h' ∧ (h'.bankOp r b).data = u.data
        else h'.bankState r b = 3 ∧ h'.getF .nvmcBankResult (bankU r b) = stNotErased ∧ h'.mem = h.mem) ∧
      (cmdCode u.word = 0x0020 → Gives (.eraseBlock row) s fun h' => started 2 h') ∧
      (cmdCode u.word = 0x0030 → h.bankSuspended r b = false → Gives (.blankCheck row) s fun h' =>
        h'.bankState r b = 3 ∧ h'.mem = h.mem ∧ h'.getF .nvmcBankResult (bankU r b) =
          (if (if u.value = 0 then h.nvBlank r c.pblock (c.page * nvPageBytes) nvPageBytes else h.nvBlank r c.pblock 0 nvBlockBytes)
           then stOK else stNotErased)) ∧
      (cmdCode u.word = 0x00B0 → Gives (.suspend row) s fun h' => (h'.bankOp r b).heldSuspend = true ∧ h'.mem = h.mem) ∧
      (cmdCode u.word = 0x00D0 → Gives (.nvmResume row) s fun h' => (h'.bankOp r b).heldSuspend = false ∧ h'.bankState r b = 1) ∧
      (cmdCode u.word = 0x0070 → Gives (.readStatus row) s fun h' => h'.getF .nvmcLastCmdResult r = stOK ∧
        Frame h h' [.weights] (regsOf r [.nvmcStatusUnlock, .nvmcLastCmdValid, .nvmcLastCmdResult, .nvmcLastCmd, .nvmcLastCmdBank])) ∧
      (∀ v : Bool, cmdCode u.word = (if v then 0x0060 else 0x0061) → Gives (if v then .wpSet row else .wpClear row) s fun h' =>
        (cmdPhys u.word = true → h'.flag .nvmcWpSysWp r = v) ∧
        (cmdPhys u.word = false → u.first / 2 ^ 30 < 512 → h'.wpSector r (u.first / 2 ^ 30) = v) ∧ h'.mem = h.mem) ∧
      (cmdCode u.word = 0x0062 → Gives (.wpFreeze row) s fun h' => h'.getF .nvmcStatusFrozen r = 1 ∧ h'.mem = h.mem) ∧
      (cmdCode u.word = 0x00A0 → h.bankSuspended r b = false → Gives (.readPagePhys row) s fun h' => started 4 h')

/-- What the operations of a weight array leave in its cells, its map and its page buffer (R298, R299, R303, R310, R312, R314, R315, R316, R319). -/
def Obligations.ArrayOperationsEnd : Prop :=
  (∀ (s : State) (row : Fin 8) (bank : Fin 16),
    let h := s.hall
    let r := row.val
    let b := bank.val
    let u := bankU r b
    let p := h.bankPblock r b
    let busy := h.bankState r b = 1
    ((h.bankOp r b).heldSuspend = true → h.bankBusy r b = true → Gives (.suspendEffect row bank) s fun h' =>
      h'.bankState r b = 2 ∧ (h'.bankOp r b).heldSuspend = false ∧ h'.mem = h.mem) ∧
    ((h.bankOp r b).heldSuspend = false ∨ h.bankBusy r b = false → Becomes (.suspendEffect row bank) s h) ∧
    (busy → h.getF .nvmcBankOp u = 1 →
      ((h.bankOp r b).data.length = nvPageBytes → Gives (.programEnd row bank true) s fun h' =>
        h'.nvRead r p (h.getF .nvmcBankPage u * nvPageBytes) nvPageBytes = (h.bankOp r b).data ∧
        h'.bankState r b = 3 ∧ h'.getF .nvmcBankResult u = stOK ∧ h'.mem.ram = h.mem.ram ∧
        (∀ a, a < p * nvBlockBytes + h.getF .nvmcBankPage u * nvPageBytes ∨
            p * nvBlockBytes + h.getF .nvmcBankPage u * nvPageBytes + nvPageBytes ≤ a →
          Mem.read 0xFF (Tab.get [] h'.mem.nvm r) a = Mem.read 0xFF (Tab.get [] h.mem.nvm r) a)) ∧
      Gives (.programEnd row bank false) s (fun h' =>
        h'.bankState r b = 3 ∧ h'.getF .nvmcBankResult u = stOpFailed ∧ p ∈ (h'.array r).retired)) ∧
    (¬ (busy ∧ h.getF .nvmcBankOp u = 1) → ∀ v : Bool, Becomes (.programEnd row bank v) s h) ∧
    (h.bankBusy r b = true → h.getF .nvmcBankOp u = 2 →
      Gives (.eraseEnd row bank true) s (fun h' =>
        (∀ o, o < nvBlockBytes → Mem.read 0xFF (Tab.get [] h'.mem.nvm r) (p * nvBlockBytes + o) = 0xFF) ∧
        (∀ a, a < p * nvBlockBytes ∨ (p + 1) * nvBlockBytes ≤ a →
          Mem.read 0xFF (Tab.get [] h'.mem.nvm r) a = Mem.read 0xFF (Tab.get [] h.mem.nvm r) a) ∧
        h'.nvErases r p = h.nvErases r p + 1 ∧ h'.bankState r b = 3 ∧ h'.getF .nvmcBankResult u = stOK) ∧
      Gives (.eraseEnd row bank false) s (fun h' =>
        h'.bankState r b = 3 ∧ h'.getF .nvmcBankResult u = stOpFailed ∧ p ∈ (h'.array r).retired)) ∧
    (¬ (h.bankBusy r b = true ∧ h.getF .nvmcBankOp u = 2) → ∀ v : Bool, Becomes (.eraseEnd row bank v) s h) ∧
    (busy → h.getF .nvmcBankOp u = 4 → (h.bankOp r b).beside = none → h.nvBacks r p = none →
      Gives (.readPagePhysEnd row bank false) s fun h' =>
        (h'.array r).pageBuf = cleanBytes (h.nvRead r p (h.getF .nvmcBankPage u * nvPageBytes) nvPageBytes) ∧
        h'.bankState r b = 3 ∧ h'.mem = h.mem) ∧
    ((h.bankOp r b).deferred = true → h.nvOldReads r p = 0 → h.weights.oldBlocks = [] → Gives (.eraseDeferredStart row bank) s fun h' =>
      (h'.bankOp r b).deferred = false ∧ h'.mem = h.mem)) ∧
  ∀ (s : State) (req : Requester) (row : Fin 8),
    let h := s.hall
    let r := row.val
    let a := h.array r
    (∀ count : Nat,
      let n := count % 2048
      let es := h.bmapStaged r n
      (h.accepts req = false ∨ n = 0 → Becomes (.nvmcBmapGo req row count) s h) ∧
      (h.accepts req = true → 1 ≤ n → n ≤ 1024 → h.bmapOk r es = true → Gives (.nvmcBmapGo req row count) s fun h' =>
        (∀ e ∈ es, h'.nvPhys r e.1 = e.2) ∧ h'.getF .nvmcStatusJournal r = 1 ∧ h'.mem = h.mem) ∧
      (h.accepts req = true → 1 ≤ n → n ≤ 1024 → h.bmapOk r es = false → Gives (.nvmcBmapGo req row count) s fun h' =>
        h'.getF .nvmcLastCmdResult r = stBadArg ∧ (h'.array r).map = a.map ∧ h'.mem = h.mem)) ∧
    (h.flag .nvmcStatusJournal r = false → Becomes (.nvmcJournalWrite row) s h) ∧
    (h.flag .nvmcStatusJournal r = true → h.weights.swaps = [] → h.weights.oldBlocks = [] → Gives (.nvmcJournalWrite row) s fun h' =>
      (h'.array r).journal = a.map ∧ h'.getF .nvmcStatusJournal r = 0 ∧ h'.mem = h.mem) ∧
    (∀ weak bad : Bool, Gives (.nvmScrubPage row weak bad) s fun h' =>
      h'.mem = h.mem ∧
      (h.bankFree r (nvBank (h.nvPhys r (a.scrubPos / 256))) = true →
        h.bankFree ((r + 4) % 8) (nvBank (h.nvPhys ((r + 4) % 8) (a.scrubPos / 256))) = true →
        (a.scrubPos % 256 < 255 → (h'.array r).scrubPos = a.scrubPos + 1) ∧
        (bad = true → Tab.find (h'.array r).dueRelocation (a.scrubPos / 256) = some true))) ∧
    ∀ l : Nat,
      (Tab.find a.dueRelocation l = none → Becomes (.relocation row l) s h) ∧
      (∀ (m : Bool) (p : Nat), Tab.find a.dueRelocation l = some m → h.nvSpare r = some p → p ≠ h.nvPhys r l →
        h.flag .nvmcStatusBrownout r = false → h.bankFree r (nvBank (h.nvPhys r l)) = true →
        (h.bankOp r (nvBank (h.nvPhys r l))).deferred = false → Gives (.relocation row l) s fun h' =>
          let src := if m then (r + 4) % 8 else r
          h'.nvPhys r l = p ∧ Tab.find (h'.array r).dueRelocation l = none ∧
          h'.nvRead r p 0 nvBlockBytes = h.nvRead src (h.nvPhys src l) 0 nvBlockBytes) ∧
      ((h.array (r % 4)).dueSettle.contains l = false → Becomes (.mirrorSettle row l) s h) ∧
      ((h.array (r % 4)).dueSettle.contains l = true → h.weights.lots = [] → Gives (.mirrorSettle row l) s fun h' =>
        (h'.array (r % 4)).dueSettle = (h.array (r % 4)).dueSettle.filter (· ≠ l) ∧ Frame h h' [.weights] noReg)

/-- Weights: install, grant, revoke, swap, remove, query, adapters, and what moves a job on (R322, R326, R327, R328, R330, R331, R335, R336, R337, R338, R342, Table 13.8). -/
def Obligations.WeightsAndSwaps : Prop :=
  (∀ (s : State) (t : Fin 128),
    let h := s.hall
    let c := h.tillCmd t
    let b := h.tillPayload t
    let op := h.cmd.nextHandle
    let k := leAt b 0 4
    (∀ src : List Source, h.tillReady t 0x0301 false false = true → c.sources 10 (leAt b 0 1) = some src → 1 ≤ leAt b 0 1 → leAt b 0 1 ≤ 4 →
      c.length = 10 + 16 * leAt b 0 1 → leAt b 1 1 ≤ 3 ∨ leAt b 1 1 = 255 → leAt b 2 1 ≤ 1 → leAt b 3 1 = 0 → 1 ≤ leAt b 4 2 →
      leAt b 4 2 ≤ 1000 → 1 ≤ leAt b 6 4 → leAt b 6 4 ≤ 3600000 →
      ∃ h', Answers (.weightInstall t) s t stAccepted (leBytes 4 op) h' ∧ h'.mem = h.mem ∧
        (h'.install op).map (fun x => (x.lot, x.serve, x.sources, x.manifest, x.shards)) =
          some (h.weights.nextLot, decide (leAt b 2 1 = 1), src, none, [])) ∧
    (∀ l : Lot, h.lot k = some l →
      (h.tillReady t 0x0302 false false = true → c.length = 4 → l.state ≠ .installing → l.state ≠ .removing →
        l.grants.contains c.pen = false →
        (h.grantsFit (l.grants ++ [c.pen]) = true → ∃ h', Answers (.weightGrant t) s t stOK [] h' ∧
          (h'.lot k).map Lot.grants = some (l.grants ++ [c.pen]) ∧ Frame h h' [.weights] noReg) ∧
        (h.grantsFit (l.grants ++ [c.pen]) = false → Answers (.weightGrant t) s t stNotPermitted [] h)) ∧
      (h.tillReady t 0x0303 false false = true → c.length = 4 → l.grants.contains c.pen = true →
        (h.lotBusy k = false → h.penMaps c.pen l = false → h.loadedImages = [] → ∃ h', Answers (.weightRevoke t) s t stOK [] h' ∧
          (h'.lot k).map Lot.grants = some (l.grants.filter (· ≠ c.pen)) ∧ Frame h h' [.weights] noReg) ∧
        (h.lotBusy k = true → Answers (.weightRevoke t) s t stBusy [] h)) ∧
      (h.tillReady t 0x0305 false false = true → c.length = 4 → l.grants = [] → h.lotBusy k = false → l.state ≠ .installing →
        ∃ h', Answers (.weightRemove t) s t stAccepted (leBytes 4 op) h' ∧
          (h'.lot k = none ∨ (h'.lot k).map (fun y => (y.state, y.op)) = some (LotState.removing, some op))) ∧
      (h.tillReady t 0x0306 (decide (c.pen = 0)) false = true → c.length = 6 → ∃ a, Answers (.weightQuery t) s t stOK a h ∧
        leAt a 1 4 = l.lotId % 2 ^ 32 ∧ leAt a 5 4 = l.gen % 2 ^ 32 ∧ leAt a 9 2 = l.layers.length % 2 ^ 16)) ∧
    (∀ (l : Lot) (src : List Source), h.lot (leAt b 4 4) = some l → leAt b 0 1 = 0 → leAt b 1 3 = 0 →
      h.tillReady t 0x0304 (decide (c.pen = 0) || decide (1 < l.grants.length)) false = true → c.sources 25 (leAt b 24 1) = some src →
      1 ≤ leAt b 24 1 → leAt b 24 1 ≤ 4 → c.length = 25 + 16 * leAt b 24 1 → leAt b 8 4 = 0 → leAt b 12 4 = 0 → 10 ≤ leAt b 16 2 →
      leAt b 16 2 ≤ 10000 → 1 ≤ leAt b 18 2 → leAt b 18 2 ≤ 1000 → 1 ≤ leAt b 20 4 → leAt b 20 4 ≤ 3600000 →
      h.lotBusy (leAt b 4 4) = false → (l.state = .ready ∨ l.state = .mixed) → l.grants.contains c.pen = true →
      ∃ h', Answers (.weightSwap t) s t stAccepted (leBytes 4 op) h' ∧ h'.mem = h.mem ∧
        (h'.swap op).map (fun w => (w.rolling, w.pen, w.lot, w.state, w.manifest, w.sources)) =
          some (true, c.pen, leAt b 4 4, SwapState.fetch, none, src)) ∧
    (h.tillReady t 0x0307 (decide (c.pen = 0)) false = true → c.length = 20 →
      let h0 := (h.openOp t c.pen c.secure).2
      let r := h0.stageCopy c.pen (leAt b 8 8) (leAt b 16 4)
      ∃ h', Answers (.weightAdapter t) s t stAccepted (leBytes 4 op) h' ∧ Tab.find h'.cmd.ops op = none ∧
        match r.1 with
        | .inl _ => h'.weights.adapters = h.weights.adapters
        | .inr raw =>
          if (r.2.adapterInstall c.pen (leAt b 0 8) raw h.weights.nextLot).1 = stOK then
            (Tab.find h'.weights.adapters h.weights.nextLot).map (fun y => (y.pen, y.mva, y.lotId)) =
              some (c.pen, leAt b 0 8, manLotId (raw.take (manLen raw)))
          else h'.weights.adapters = h.weights.adapters)) ∧
  ∀ (s : State) (k : Nat),
    let h := s.hall
    (h.job k = none → ∀ (i : Nat) (d : Bytes), Becomes (.shardVerify k i d) s h ∧ Becomes (.shardTimeout k i) s h) ∧
    (∀ (x : Install) (j : Job) (i : Nat), h.install k = some x → h.job k = some j →
      let st : ShardSt := Tab.get {} x.shards i
      let failed : ShardSt :=
        if st.fails + 1 < 4 then { st with fails := st.fails + 1 }
        else { st with fails := 0, src := if st.src + 1 < j.sources.length then st.src + 1 else 0 }
      (j.due.contains i = false → Becomes (.shardTimeout k i) s h) ∧
      (j.due.contains i = true → Gives (.shardTimeout k i) s fun h' =>
        ((h'.install k).map fun y => Tab.get ({} : ShardSt) y.shards i) = some failed ∧ h'.mem = h.mem) ∧
      ∀ (m : Bytes) (src : Source) (l : Lot), x.manifest = some m → h.sentWhole k i = none → x.sources[st.src]? = some src →
        src.nbr = false → i ∈ j.due → i ≠ manifestShard → h.lot x.lot = some l →
        let raw := h.hostShard src.addr i m.length
        Gives (.shardVerify k i []) s fun h' =>
          (¬ (raw.length = shardBytes ∧ Config.sha512 raw = manDigest m i) →
            ((h'.install k).map fun y => Tab.get ({} : ShardSt) y.shards i) = some failed ∧ h'.mem = h.mem) ∧
          (raw.length = shardBytes → Config.sha512 raw = manDigest m i → (∃ n ∈ j.due, n ≠ i) →
            ∀ (p n : Nat), shardPlace l.partShards 0 i = some (p, n) →
              h.mayProgram (l.blockOf p n).1 (l.blockOf p n).2 = true →
              ((h'.install k).map fun y => shardDone y.shards i) = some true)) ∧
    (h.install k = none → Becomes (.installDeadline k) s h) ∧
    (∀ x : Install, h.install k = some x → Gives (.installDeadline k) s fun h' =>
      h'.install k = none ∧ h'.lot x.lot = none ∧ Tab.find h'.cmd.ops k = none) ∧
    (h.swap k = none → ∀ i ∈ [Instr.swapLayerProgrammed k, .swapLayerTabled k, .swapLayerFlip k, .swapBarrierTimeout k,
      .swapBarrierRetry k, .swapDeadline k, .consistentSwapFlip k, .consistentSwapDeadline k], Becomes i s h) ∧
    ∀ w : Swap, h.swap k = some w →
      (∀ (m : Bytes) (l : Lot), w.manifest = some m → h.lot w.lot = some l → w.rolling = true →
        ((w.state ≠ .fetch ∨ ((l.layerShards w.layer).all fun x => shardDone w.shards x.1) = false) →
          Becomes (.swapLayerProgrammed k) s h) ∧
        (w.state = .fetch → ((l.layerShards w.layer).all fun x => shardDone w.shards x.1) = true →
          Gives (.swapLayerProgrammed k) s fun h' => (h'.swap k).map Swap.state = some SwapState.programmed ∨ h'.swap k = none) ∧
        ((w.state ≠ .programmed ∨ h.slotFree w l (manGen m) = false) → Becomes (.swapLayerTabled k) s h) ∧
        (w.state = .programmed → h.slotFree w l (manGen m) = true → Gives (.swapLayerTabled k) s fun h' =>
          (h'.swap k).map Swap.state = some SwapState.held) ∧
        (∀ y : Layer, l.layers[w.layer]? = some y →
          (w.state = .held → h.layerEmpty w.lot w.layer = true → h.withdrawsDone = true → Gives (.swapLayerFlip k) s fun h' =>
            ((h'.lot w.lot).bind fun z => (z.layers[w.layer]?).map Layer.gen) = some (manGen m)) ∧
          (w.state ≠ .held ∨ h.layerEmpty w.lot w.layer = false → Becomes (.swapLayerFlip k) s h))) ∧
      (w.rolling = true → w.state = .held → h.layerEmpty w.lot w.layer = false → Gives (.swapBarrierTimeout k) s fun h' =>
        h'.swap k = some { w with state := .tabled } ∧ Frame h h' [.weights] noReg) ∧
      (w.rolling = false ∨ w.state ≠ .held → Becomes (.swapBarrierTimeout k) s h) ∧
      (w.rolling = true → w.state = .tabled → Gives (.swapBarrierRetry k) s fun h' =>
        h'.swap k = some { w with state := .held } ∧ Frame h h' [.weights] noReg) ∧
      (w.rolling = false ∨ w.state ≠ .tabled → Becomes (.swapBarrierRetry k) s h) ∧
      (w.rolling = true → w.state ≠ .flipped → Gives (.swapDeadline k) s fun h' =>
        h'.swap k = none ∧ Tab.find h'.cmd.ops k = none) ∧
      (w.rolling = false → Becomes (.swapDeadline k) s h) ∧
      (w.rolling = false → h.heldDrained w = true →
        (Gives (.consistentSwapFlip k) s fun h' => h'.swap k = none ∧ Tab.find h'.cmd.ops k = none ∧
          ∀ e ∈ w.held, ∀ x, h'.launchEntry e = some x → x.intakeOn = true) ∧
        Becomes (.consistentSwapDeadline k) s h) ∧
      (w.rolling = false → h.heldDrained w = false →
        Becomes (.consistentSwapFlip k) s h ∧
        Gives (.consistentSwapDeadline k) s fun h' => h'.swap k = none ∧ Tab.find h'.cmd.ops k = none ∧ h'.mem.ram = h.mem.ram ∧
          ∀ e ∈ w.held, ∀ x, h'.launchEntry e = some x → x.intakeOn = true) ∧
      (w.rolling = true → Becomes (.consistentSwapFlip k) s h ∧ Becomes (.consistentSwapDeadline k) s h)

/-- The MEM commands: mappings, quotas, the pool's size and tile regions (R256, R259, R263, R264, R265, R273, R274, Table 10.1, Table 10.7). -/
def Obligations.MemoryCommands : Prop :=
  (∀ (s : State) (t : Fin 128),
    let h := s.hall
    let c := h.tillCmd t
    let b := h.tillPayload t
    let op := h.cmd.nextHandle
    let p0 := decide (c.pen = 0)
    let page := leAt b 0 8 / 65536
    let n := leAt b 8 4
    let a : MapArgs := { page := page, n := n, typ := leAt b 12 1, w := bit (leAt b 13 1) 0, promote := bit (leAt b 13 1) 1
                         half := bits (leAt b 13 1) 3 2, late := leAt b 14 2, lot := leAt b 16 4, lotOff := leAt b 20 8, host := leAt b 16 8 }
    (h.tillReady t 0x0401 p0 false = true → mapBad h c a = false →
      (a.typ = 1 → h.penUsed c.pen + n ≤ h.penQuota c.pen → n ≤ h.freeIn (h.mapHalf a) →
        (n ≤ 1024 → ∃ h', Answers (.memMap t) s t stOK [] h' ∧ h'.penUsed c.pen = h.penUsed c.pen + n ∧
          ∀ i, i < n → ∃ f, (h.lowPages (h.mapHalf a) n)[i]? = some f ∧
            h'.pte c.pen ((page + i) * 65536) = some (mkPte 1 a.w false (f * 65536) 0) ∧
            ∀ o, o < 65536 → Mem.read 0 h'.mem.ram (f * 65536 + o) = 0) ∧
        (1024 < n → ∃ h', Answers (.memMap t) s t stAccepted (leBytes 4 op) h' ∧ h'.tiers.pages = h.tiers.pages ∧
          (Tab.find h'.tiers.zeroing op).map (fun z => (z.pen, z.page, z.frames, z.write)) =
            some (c.pen, page, h.lowPages (h.mapHalf a) n, a.w))) ∧
      (a.typ = 1 → h.penQuota c.pen < h.penUsed c.pen + n → Answers (.memMap t) s t stNoResource [] h) ∧
      (a.typ = 3 → ∃ h', Answers (.memMap t) s t stOK [] h' ∧ h'.mem = h.mem ∧
        ∀ i, i < n → h'.pte c.pen ((page + i) * 65536) = some (mkPte 3 a.w false (a.host + i * 65536) 0))) ∧
    (h.tillReady t 0x0402 p0 false = true → c.length = 12 → leAt b 0 8 < 2 ^ 48 → leAt b 0 8 % 65536 = 0 → n ≠ 0 → page + n ≤ 2 ^ 32 →
      ((pageRange page (min (2 ^ 32) n)).any (h.pageHeld c.pen)) = false →
      (∀ q ∈ pageRange page n, h.pageNamed c.pen q = false) → h.tilesOf c.pen = [] →
      ∃ h', Answers (.memUnmap t) s t stOK [] h' ∧ ∀ q ∈ pageRange page n, h'.pte c.pen (q * 65536) = none) ∧
    (h.tillReady t 0x0403 p0 false = true → c.length = 8 → leAt b 0 8 < 2 ^ 48 →
      ∃ a, Answers (.memQuery t) s t stOK a h ∧ leAt a 0 8 = ((h.pte c.pen (leAt b 0 8)).getD 0) % 2 ^ 64) ∧
    (h.tillReady t 0x0404 p0 false = true → c.length = 13 → leAt b 0 8 < 2 ^ 48 → leAt b 0 8 % 65536 = 0 → n ≠ 0 → page + n ≤ 2 ^ 32 →
      leAt b 12 1 ≤ 2 → ∃ h', Answers (.memPromote t) s t stAccepted (leBytes 4 op) h' ∧ Tab.find h'.cmd.ops op = none ∧
        h'.tiers.pages = h.tiers.pages ∧ h'.mem.ram = h.mem.ram) ∧
    (h.tillReady t 0x0405 false false = true → c.length = 4 → leAt b 0 4 < 2 ^ 22 →
      (h.penUsed c.pen ≤ leAt b 0 4 → ∃ h', Answers (.memQuota t) s t stOK [] h' ∧ h'.penQuota c.pen = leAt b 0 4 ∧
        Frame h h' [] fun f _ => f = .mmuPenQuota) ∧
      (leAt b 0 4 < h.penUsed c.pen → Answers (.memQuota t) s t stBusy [] h)) ∧
    (h.tillReady t 0x0406 false false = true → c.length = 8 →
      (h.tiers.poolA.resize = none → leAt b 0 4 + (h.usedIn .a).length ≤ halfPages - reservePages →
        leAt b 4 4 + (h.usedIn .b).length ≤ halfPages - reservePages →
        ∃ h', Answers (.memPoolSet t) s t stAccepted (leBytes 4 op) h' ∧ h'.tiers.pages = h.tiers.pages ∧
          (h'.tiers.poolA.resize = some op ∨ (h'.tiers.poolA.resize = none ∧ Tab.find h'.cmd.ops op = none))) ∧
      (h.tiers.poolA.resize.isSome = true → Answers (.memPoolSet t) s t stBusy [] h)) ∧
    (h.tillReady t 0x0407 p0 false = true →
      let r : TileRegion := { base := leAt b 0 8, rows := leAt b 8 4, cols := leAt b 12 4, fmt := leAt b 16 1 }
      c.length = 17 → r.base + r.bytes < 2 ^ 48 → r.fmt ≠ 0 → r.fmt < 9 → fmtReserved r.fmt = false → 8 ≤ fmtBits r.fmt →
      fmtBits r.fmt % 8 = 0 → r.rows % 32 = 0 → 32 ≤ r.rows → r.rows ≤ 65536 → r.cols % 32 = 0 → 32 ≤ r.cols → r.cols ≤ 65536 →
      r.base % (1024 * r.elemBytes) = 0 → (∀ q ∈ r.pages, ∃ e, h.pte c.pen (q * 65536) = some e ∧ pteType e = 1 ∧ pteW e = true) →
      (∀ i, ((List.range 64).find? fun i => (Tab.find h.tiers.tiles (64 * c.pen + i)).isNone) = some i →
        ∃ h', Answers (.memTileMap t) s t stOK (leBytes 1 i) h' ∧ Tab.find h'.tiers.tiles (64 * c.pen + i) = some r ∧ h'.mem = h.mem) ∧
      (((List.range 64).find? fun i => (Tab.find h.tiers.tiles (64 * c.pen + i)).isNone) = none →
        Answers (.memTileMap t) s t stNoResource [] h)) ∧
    (∀ r : TileRegion, h.tillReady t 0x0408 p0 false = true → c.length = 1 → leAt b 0 1 < 64 →
      Tab.find h.tiers.tiles (64 * c.pen + leAt b 0 1) = some r → ∃ h', Answers (.memTileUnmap t) s t stOK [] h' ∧
        Tab.find h'.tiers.tiles (64 * c.pen + leAt b 0 1) = none ∧ h'.mem = h.mem)) ∧
  ∀ (s : State) (k : Nat),
    (Tab.find s.hall.tiers.zeroing k = none → Becomes (.memMapZeroed k) s s.hall) ∧
    ∀ z : ZeroMap, Tab.find s.hall.tiers.zeroing k = some z → Gives (.memMapZeroed k) s fun h' =>
      Tab.find h'.tiers.zeroing k = none ∧ Tab.find h'.cmd.ops k = none ∧
      ∀ i f, z.frames[i]? = some f → z.frames.length ≤ 2 ^ 32 → h'.pte z.pen ((z.page + i) * 65536) = some (mkPte 1 z.write false (f * 65536) 0)

/-- Tree ports: downstream frames, bursts, frame ends and sweep rounds, and the TREE commands (R349, R350, R353, R354, R357, R361, R364, R365, R366, R369, Table 14.8, Table 14.15). -/
def Obligations.TreePortsRun : Prop :=
  (∀ (s : State) (port : Fin 8),
    let h := s.hall
    let p := port.val
    let tf := (h.tport p).tf
    let on := if tf % 8 = 0 then h.flag .treeCfgEnable p else (h.tport p).cfg.enable
    Gives (.treeFrame port) s fun h' =>
      (h'.tport p).tf = (tf + 1) % 2 ^ 32 ∧
      (on = true → ∃ head frames, h'.outs.head? = some (.treeFrame p tf head frames) ∧ beAt head 0 4 = tf % 2 ^ 32) ∧
      (on = false → Tab.find (h'.tport p).up tf = some {})) ∧
  (∀ (s : State) (port : Fin 8) (b : Burst),
    let h := s.hall
    let p := port.val
    let t := h.tport p
    let c : Instr := .treeBurst port b
    let f := h.upFrame p
    let good := 8 ≤ b.content.length ∧ crc16 (b.content.take 6) = beAt b.content 6 2 ∧ b.lost = []
    let kind := beAt b.content 1 1
    let lid := beAt b.content 0 1
    (t.cfg.enable = false ∨ t.tf ≤ t.upTf → Becomes c s h) ∧
    (t.cfg.enable = true → t.upTf < t.tf →
      ((b.content.length < 8 ∨ crc16 (b.content.take 6) ≠ beAt b.content 6 2) → grantFor f b.grain = none → Gives c s fun h' =>
        (h.getF (.count .treeBursts) p < Ctr.treeBursts.top → h'.getF (.count .treeBursts) p = h.getF (.count .treeBursts) p + 1) ∧
        (h.getF (.count .treeCwUncorr) p + max 1 b.lost.length ≤ Ctr.treeCwUncorr.top →
          h'.getF (.count .treeCwUncorr) p = h.getF (.count .treeCwUncorr) p + max 1 b.lost.length)) ∧
      (∀ start slots spread j : Nat, good → kind = 1 → beAt b.content 4 2 = 5 → f.window = some (start, slots, spread, j) →
        start ≤ b.grain → b.grain < start + 16 * slots + spread → b.slot < slots →
        crc16 (slice b.content 8 32) = beAt b.content 40 2 → beAt b.content 8 1 = 1 → beAt b.content 9 3 = 0 →
        beAt b.content 32 8 = 0 → Gives c s fun h' =>
          (h'.upFrame p).bids.length = f.bids.length + 1 ∧
          (h.getF (.count .treeBids) p < Ctr.treeBids.top → h'.getF (.count .treeBids) p = h.getF (.count .treeBids) p + 1)) ∧
      ∀ g : UpGrant, good → grantFor f b.grain = some g → lid = g.lid → beAt b.content 2 2 = t.upTf % 2 ^ 16 →
        -80 ≤ pastGrain b g.start → pastGrain b g.start ≤ 80 →
        (g.kind = .range → g.got = false → h.lidState p lid = lidRanging → kind = 2 → Gives c s fun h' =>
          h'.lidState p lid = lidAuth ∧ h'.ssState p lid = ssChallenged) ∧
        (g.kind ≠ .range → g.got = false → kind = 0 → beAt b.content 4 2 = 0 → Gives c s fun h' =>
          (h'.lid (lidUnit p lid)).misses = 0 ∧
          (h'.upFrame p).grants = f.grants.map fun (x : UpGrant) => if x = g then { x with got := true } else x))) ∧
  (∀ (s : State) (port : Fin 8) (stray : List Nat),
    let h := s.hall
    let p := port.val
    let t := h.tport p
    let c : Instr := .upstreamFrameEnd port stray
    let f := h.upFrame p
    let bad := stray.filter fun g => decide (g < 2000) && !covered f g
    let hist := t.strayHist ++ [decide (bad ≠ [])]
    let now := ((hist.drop (hist.length - 64)).filter id).length
    (t.tf ≤ t.upTf → Becomes c s h) ∧
    (t.upTf < t.tf → Gives c s fun h' =>
      (h'.tport p).upTf = (t.upTf + 1) % 2 ^ 32 ∧
      (f.grants = [] → now < t.cfg.strayThresh → h'.getF .treeStatusStray p = 0 ∧
        (h.getF (.count .treeStrayGrains) p + bad.length ≤ Ctr.treeStrayGrains.top →
          h'.getF (.count .treeStrayGrains) p = h.getF (.count .treeStrayGrains) p + bad.length)) ∧
      (∀ first rest, f.grants = [] → bad = first :: rest → t.cfg.strayThresh ≤ now → (t.strayHist.filter id).length < t.cfg.strayThresh →
        t.cfg.autoSweep = false →
        h'.getF .treeStatusStray p = 1 ∧ h'.getF .treeStrayLastValid p = 1 ∧ h'.getF .treeStrayLastStart p = first))) ∧
  (∀ (s : State) (port : Fin 8) (stray : List Nat),
    let h := s.hall
    let p := port.val
    let c : Instr := .sweepRound port stray
    ((h.tport p).sweep = none → Becomes c s h) ∧
    ∀ w : Sweep, (h.tport p).sweep = some w → (h.tport (twinPort p)).sweepWait = none →
      let cand := if stray = [] then w.half else w.cand.filter fun l => !w.half.contains l
      (∀ l rest, w.confirm = true → w.half = l :: rest → Gives c s fun h' =>
        (h'.tport p).sweep = none ∧ h'.getF .treeStatusSweep p = 0 ∧ (stray = [] → h'.lidState p l = lidSilenced) ∧
        (stray ≠ [] → h'.lidState p l = h.lidState p l)) ∧
      (w.confirm = false → cand = [] → Gives c s fun h' => (h'.tport p).sweep = none ∧ h'.getF .treeStatusSweep p = 0) ∧
      (∀ l, w.confirm = false → cand = [l] → Gives c s fun h' =>
        (h'.tport p).sweep = some { w with cand := [l], half := [l], confirm := true }) ∧
      (w.confirm = false → 2 ≤ cand.length → Gives c s fun h' =>
        (h'.tport p).sweep = some { w with cand := cand, half := cand.take (cand.length / 2), confirm := false })) ∧
  ∀ (s : State) (t : Fin 128),
    let h := s.hall
    let c := h.tillCmd t
    let b := h.tillPayload t
    let p := leAt b 0 1
    let l := leAt b 1 1
    let u := lidUnit p l
    let op := h.cmd.nextHandle
    (h.tillReady t 0x0601 false false = true → c.length = 15 → p ≤ 7 → leAt b 3 4 ≤ 100000 →
      let cfg := leAt b 7 8
      bits cfg 5 2 = 0 → bits cfg 33 23 + 16 * clampNat 8 64 (bits cfg 22 16) + min 960 (bits cfg 15 6) ≤ 1968 →
      ((h.tport p).sweep.isSome = true → Answers (.treePortSet t) s t stBusy [] h) ∧
      ((h.tport p).sweep = none → ∃ h', Answers (.treePortSet t) s t stOK [] h' ∧
        (bits cfg 0 0 = 1 → (h'.tport p).treeId = leAt b 1 2 ∧ (h'.tport p).rttMin = leAt b 3 4 ∧
          h'.getF .treeCfgErrThresh p = bits cfg 63 48 ∧ h'.getF .treeCfgMissLimit p = bits cfg 47 40 ∧
          h'.getF .treeCfgStrayThresh p = bits cfg 39 34 ∧ h'.getF .treeCfgBidStart p = bits cfg 33 23 ∧
          h'.getF .treeCfgBidSlots p = bits cfg 22 16 ∧ h'.getF .treeCfgSpreadG p = bits cfg 15 6 ∧
          h'.getF .treeCfgAutoSweep p = bits cfg 1 1 ∧ h'.getF .treeCfgEnable p = 1 ∧
          Frame h h' [.ingress] (regsOf p [.treeCfgErrThresh, .treeCfgMissLimit, .treeCfgStrayThresh, .treeCfgBidStart,
            .treeCfgBidSlots, .treeCfgSpreadG, .treeCfgAutoSweep, .treeCfgEnable])) ∧
        (bits cfg 0 0 = 0 → h'.getF .treeCfgEnable p = 0 ∧ ∀ i, i < 128 → h'.lidState p i = lidFree))) ∧
    (h.tillReady t 0x0602 false false = true → c.length = 7 → p ≤ 7 →
      let z : Lease := { pen := c.pen, lFirst := l, lLast := leAt b 2 1, gFirst := leAt b 3 2, gLast := leAt b 5 2 }
      let others := (h.tport p).leases.filter fun (x : Lease) => x.pen ≠ c.pen
      let cfg := h.treeCfg p
      (h.leaseUsed p c.pen = true → Answers (.treeLease t) s t stBusy [] h) ∧
      (h.leaseUsed p c.pen = false →
        (z.lFirst = 0 → z.lLast = 0 → z.gFirst = 0 → z.gLast = 0 → ∃ h', Answers (.treeLease t) s t stOK [] h' ∧
          (h'.tport p).leases = others ∧ h'.mem = h.mem) ∧
        (0 < z.lLast + z.gLast → z.lLast ≤ 127 → z.lFirst ≤ z.lLast → z.gFirst ≤ z.gLast → z.gLast < 1968 →
          overlaps z.gFirst z.gLast cfg.bidStart (cfg.bidStart + 16 * cfg.bidSlots + cfg.spreadG - 1) = false →
          let clash := others.any fun (x : Lease) =>
            overlaps x.lFirst x.lLast z.lFirst z.lLast || overlaps x.gFirst x.gLast z.gFirst z.gLast
          (clash = true → Answers (.treeLease t) s t stLeaseOverlap [] h) ∧
          (clash = false → ∃ h', Answers (.treeLease t) s t stOK [] h' ∧ (h'.tport p).leases = others ++ [z] ∧ h'.mem = h.mem)))) ∧
    (h.tillReady t 0x0603 (treeForP0 c h) false = true → c.length = 19 → p ≤ 7 → l ≤ 127 → leAt b 2 1 ≤ 1 → h.lidPen p l = some c.pen →
      let ident := slice b 3 16
      let free := h.lidState p l = lidFree ∧ (∀ i, i < 128 → (h.lid (lidUnit p i)).ident ≠ some ident) ∧ h.boundLid p ident = none
      (free → ∃ h', Answers (.treeRegister t) s t stOK [] h' ∧ (h'.lid u).ident = some ident ∧ h'.getF .epStateReg u = 1 ∧
        h'.getF .epStateDual u = leAt b 2 1 ∧ Frame h h' [.ingress] (regsOf u [.epStateReg, .epStateDual])) ∧
      (¬ free → Answers (.treeRegister t) s t stBusy [] h)) ∧
    (h.tillReady t 0x0604 (treeForP0 c h) false = true → c.length = 2 → p ≤ 7 → l ≤ 127 → h.lidPen p l = some c.pen →
      ∃ h', Answers (.treeUnregister t) s t stOK [] h' ∧ (h'.lid u).ident = none ∧ h'.getF .epStateReg u = 0 ∧ h'.getF .epStateDual u = 0) ∧
    (h.tillReady t 0x0605 (treeForP0 c h) false = true → c.length = 2 → p ≤ 7 → l ≤ 127 → h.lidPen p l = some c.pen →
      let st := h.lidState p l
      (st = lidHeld ∨ st = lidQuarantine ∨ st = lidSilenced → ∃ h', Answers (.treeRelease t) s t stOK [] h' ∧ h'.lidState p l = lidFree) ∧
      (¬ (st = lidHeld ∨ st = lidQuarantine ∨ st = lidSilenced) → Answers (.treeRelease t) s t stBadArg [] h)) ∧
    (h.tillReady t 0x0606 (decide (c.pen = 0)) false = true → c.length = 1 → p ≤ 7 →
      ((h.tport p).leases.any fun (x : Lease) => x.pen = c.pen) = true →
      ((h.tport p).sweep.isSome = true ∨ (h.tport p).sweepWait.isSome = true → Answers (.treeSweep t) s t stSweepRunning [] h) ∧
      ((h.tport p).sweep = none → (h.tport p).sweepWait = none → ∃ h', Answers (.treeSweep t) s t stAccepted (leBytes 4 op) h' ∧
        ((h.tport (twinPort p)).sweep.isSome = true → (h'.tport p).sweepWait = some (some op)) ∧
        ((h.tport (twinPort p)).sweep = none → (∃ i, i < 128 ∧ h.lidState p i = lidActive) →
          (h'.tport p).sweep.map (fun w => w.op) = some (some op) ∧ h'.getF .treeStatusSweep p = 1))) ∧
    (h.tillReady t 0x0607 (decide (c.pen = 0)) false = true → c.length = 2 → p ≤ 7 → l ≤ 127 →
      let mine := lids.filter fun i => decide (l ≤ i) && decide (h.lidPen p i = some c.pen)
      ∃ a, Answers (.treeQuery t) s t stOK a h ∧ a.length = 21 * mine.length ∧
        ∀ i rest, mine = i :: rest → leAt a 0 1 = h.lidState p i % 256)

/-- Session frames, timers and SESS commands: what each does to the session's state (R374, R377, R378, R380, R381, R382, R383, R385, R386, R387, R389, R391). -/
def Obligations.SessionsRun : Prop :=
  (∀ (s : State) (port : Fin 8) (frame : Bytes),
    let h := s.hall
    let p := port.val
    let lid := beAt frame 0 1
    let typ := beAt frame 1 1
    let ep := beAt frame 2 1
    let flags := beAt frame 3 1
    let seq := beAt frame 4 4
    let len := beAt frame 8 2
    let u := lidUnit p lid
    let body := (frame.drop 12).take len
    let k := h.spaceKey p lid
    let cmds : List (Nat × Instr) := [(0x02, .cert port frame), (0x03, .response port frame), (0x06, .resume port frame),
      (0x10, .keyAck port frame), (0x12, .bindAck port frame), (0x20, .data port frame), (0x30, .leave port frame),
      (0x31, .leaveAck port frame)]
    let clear := frame.length = 14 + len ∧ beAt frame 10 2 = 0 ∧ ep = 0 ∧ seq = 0 ∧ crc16 (frame.take (12 + len)) = beAt frame (12 + len) 2
    let sealed_ := frame.length = 28 + len ∧ beAt frame 10 2 = 0 ∧ ep ≠ 0 ∧ flags = 0
    let opened := fun (key : Bytes) =>
      gcmOpen key (sessNonce 1 (if typ = 0x20 then 0 else 1) ep seq) (frame.take 12) ((frame.drop 12).take (len + 16))
    let live := h.getF .sessSStateKepoch u ≠ 0 ∧ h.ssState p lid ≠ ssIdle ∧ h.ssState p lid ≠ ssChallenged
    let fresh := ∀ c, (h.sess u).upCseq = some c → precedes c seq = true
    (∀ x ∈ cmds, (typ ≠ x.1 ∨ 127 < lid ∨ (h.tport p).cfg.enable = false → Becomes x.2 s h) ∧
      (typ = x.1 → lid ≤ 127 → (h.tport p).cfg.enable = true → frame.length ≠ 12 + len + (if ep = 0 then 2 else 16) →
        Gives x.2 s fun h' => h.getF (.count .sessMalformed) p < Ctr.sessMalformed.top →
          h'.getF (.count .sessMalformed) p = h.getF (.count .sessMalformed) p + 1)) ∧
    (lid ≤ 127 → (h.tport p).cfg.enable = true →
      (typ = 0x02 → clear → flags = 0 → 4 ≤ len → len ≤ 16384 → (h.sess u).fragLast = false →
        (h.ssState p lid = ssChallenged ∨ h.ssState p lid = ssRechallenge) → Gives (.cert port frame) s fun h' =>
          (beAt body 0 2, body.drop 4) ∈ (h'.sess u).frags ∧ (h'.sess u).fragTotal = beAt body 2 2 ∧
          h'.ssState p lid = h.ssState p lid) ∧
      (typ = 0x03 → clear → flags = 0 → len = 516 → h.ssState p lid = ssChallenged → (h.sess u).answered = false →
        beAt body 0 4 = (h.sess u).chalId → Gives (.response port frame) s fun h' =>
          let ok := ∃ leaf anchor, (h.sess u).chain.bind (h.chainCheck purposeEndpoint) = some (leaf, anchor) ∧
            (h.lid u).bound = some ((sha512 leaf).take 16) ∧
            Config.pssVerify leaf (h.proofString p lid) (slice body 4 512) = true
          (ok → (h.lid u).ident = (h.lid u).bound →
            h'.ssState p lid = ssKeying ∧ h'.lidState p lid = lidActive ∧ h'.getF .sessSStateKepoch u = 1) ∧
          (ok → (h.lid u).ident ≠ (h.lid u).bound → h'.ssState p lid = ssHeld ∧ h'.lidState p lid = lidHeld) ∧
          (¬ ok → h'.ssState p lid = ssQuarantined ∧ h'.lidState p lid = lidQuarantine)) ∧
      (typ = 0x06 → sealed_ → len = 52 → h.ssState p lid = ssChallenged → Gives (.resume port frame) s fun h' =>
        let got := match h.keyFor u ep with
          | some (.current, key) => opened key
          | _ => none
        (got = none → (h'.sess u).parked = false ∧ (h.getF (.count .sessResumeFail) p < Ctr.sessResumeFail.top →
          h'.getF (.count .sessResumeFail) p = h.getF (.count .sessResumeFail) p + 1)) ∧
        ∀ b, got = some b → beAt b 0 4 = (h.sess u).chalId → (h.sess u).parked = true → h.flag .sessSStateNoResume u = false →
          slice b 4 32 = (h.sess u).nonce → some (slice b 36 16) = (h.sess u).rtoken →
          (h'.sess u).parked = false ∧ h'.lidState p lid = lidActive) ∧
      (∀ x ∈ cmds, typ = x.1 → sealed_ → live → x.1 ≠ 0x02 → x.1 ≠ 0x03 → upTypeLen x.1 = some none ∨ upTypeLen x.1 = some (some len) →
        len ≤ 16384 →
        (h.keyFor u ep = none → Gives x.2 s fun h' => h.getF (.count .sessStale) p < Ctr.sessStale.top →
          h'.getF (.count .sessStale) p = h.getF (.count .sessStale) p + 1) ∧
        ∀ (use : KeyUse) (key : Bytes), h.keyFor u ep = some (use, key) → Gives x.2 s fun h' =>
          opened key = none → h.getF (.count .sessTagFail) p < Ctr.sessTagFail.top →
            h'.getF (.count .sessTagFail) p = h.getF (.count .sessTagFail) p + 1) ∧
      (∀ key, sealed_ → live → fresh →
        (typ = 0x10 → len = 4 → h.ssState p lid = ssKeying → h.keyFor u ep = some (.current, key) → Gives (.keyAck port frame) s fun h' =>
          ∀ b, opened key = some b → beAt b 1 3 = 0 → h'.ssState p lid = ssBinding) ∧
        (typ = 0x10 → len = 4 → h.ssState p lid = ssRekey → h.keyFor u ep = some (.pending, key) → Gives (.keyAck port frame) s fun h' =>
          ∀ b, opened key = some b → beAt b 1 3 = 0 → h'.ssState p lid = ssRun ∧ h'.getF .sessSStatePepoch u = 0 ∧
            h'.getF .sessSStateKepoch u = h.getF .sessSStatePepoch u % 256) ∧
        (typ = 0x12 → len = 4 → h.ssState p lid = ssBinding → h.keyFor u ep = some (.current, key) → (h.sess u).rekeyWaits = false →
          h.getF .sessSStatePepoch u = 0 → Gives (.bindAck port frame) s fun h' =>
          ∀ b, opened key = some b → beAt b 1 3 = 0 → beAt b 0 1 = (h.sess u).sentStreams →
            h'.ssState p lid = ssRun ∧ h'.getF .sessSStateBound u = beAt b 0 1) ∧
        (typ = 0x30 → len = 4 → h.ssState p lid = ssRun → h.keyFor u ep = some (.current, key) → Gives (.leave port frame) s fun h' =>
          ∀ b, opened key = some b → beAt b 1 3 = 0 → h'.ssState p lid = ssIdle ∧ h'.lidState p lid = lidFree)) ∧
      (∀ key, typ = 0x20 → sealed_ → live → h.ssState p lid = ssRun → len ≤ 16384 → h.keyFor u ep = some (.current, key) →
        Gives (.data port frame) s fun h' =>
          let d := (seq + 2 ^ 32 - (h.space k).next) % 2 ^ 32
          let win := if h.getF .sessSStateWin u = 0 then (h.sess u).sentWin else h.getF .sessSStateWin u
          ∀ b, opened key = some b → upBodyOk 0x20 b = true → (h.tport p).upTf + 4 ∈ (h'.sess u).ackDue ∧
            (d < win → win ≤ 2 ^ 31 → seq ∈ (h'.sess u).got)) ∧
      (∀ key, typ = 0x31 → sealed_ → len = 0 → h.ssState p lid = ssIdle → (h.sess u).closing = some (ep, key) →
        Gives (.leaveAck port frame) s fun h' => (opened key).isSome = true → (h'.sess u).closing = none))) ∧
  (∀ (s : State) (port : Fin 8) (lid : Fin 128),
    let h := s.hall
    let p := port.val
    let l := lid.val
    let u := lidUnit p l
    let x := h.sess u
    let st := h.ssState p l
    let k := h.spaceKey p l
    (x.guarded = none → Becomes (.sessRespTimeout port lid) s h) ∧
    (∀ f, x.guarded = some f →
      (x.resends < max 1 (h.tport p).sessRetries → Gives (.sessRespTimeout port lid) s fun h' =>
        (h'.sess u).resends = x.resends + 1 ∧ (h'.tport p).down = (h.tport p).down ++ [((h.tport p).tf, f)]) ∧
      (max 1 (h.tport p).sessRetries ≤ x.resends →
        (st = ssChallenged → Gives (.sessRespTimeout port lid) s fun h' => h'.ssState p l = ssQuarantined ∧ h'.lidState p l = lidQuarantine) ∧
        (st = ssKeying ∨ st = ssBinding ∨ st = ssRekey ∨ st = ssRechallenge → Gives (.sessRespTimeout port lid) s fun h' =>
          h'.ssState p l = ssIdle ∧ h'.lidState p l = lidFree))) ∧
    (x.parked = false → Becomes (.sessParkExpire port lid) s h) ∧
    (x.parked = true → Gives (.sessParkExpire port lid) s fun h' =>
      (h'.sess u).parked = false ∧ h'.ssState p l = (if st = ssParked then ssIdle else st) ∧
      (st = ssParked → h.lidState p l = lidLost → h'.lidState p l = lidFree)) ∧
    (st = ssRun → Gives (.sessRekeyTrigger port lid) s fun h' =>
      h'.ssState p l = ssRekey ∧ h'.getF .sessSStatePepoch u = nextEpoch (h.getF .sessSStateKepoch u) % 256) ∧
    (st = ssRechallenge ∨ (st ≠ ssRun ∧ x.parked = true) →
      Becomes (.sessRekeyTrigger port lid) s (h.updSess u fun y => { y with rekeyWaits := true })) ∧
    (st ≠ ssRun → st ≠ ssRechallenge → x.parked = false → Becomes (.sessRekeyTrigger port lid) s h) ∧
    ((h.space k).held = [] → Becomes (.sessHoleSkip port lid) s h) ∧
    ((h.space k).held ≠ [] → Gives (.sessHoleSkip port lid) s fun h' =>
      let next := ((h.space k).next + 1) % 2 ^ 32
      (Tab.find (h.space k).held next = none → (h'.space k).next = next ∧ h'.getF .sessSUseqBase u = next) ∧
      (h.getF (.count .sessSkipped) p < Ctr.sessSkipped.top → h'.getF (.count .sessSkipped) p = h.getF (.count .sessSkipped) p + 1)) ∧
    Becomes (.sessOldEpochExpire port lid) s (h.updSess u fun y => { y with prevKey := [], prevEpoch := 0 })) ∧
  ∀ (s : State) (t : Fin 128),
    let h := s.hall
    let c := h.tillCmd t
    let b := h.tillPayload t
    let p := leAt b 0 1
    let l := leAt b 1 1
    let k := h.spaceKey p l
    let stream := leAt b 2 1
    let op := h.cmd.nextHandle
    let ready := fun (code n : Nat) => h.tillReady t code (sessForP0 c h) false = true ∧ c.length = n ∧ p ≤ 7 ∧ l ≤ 127 ∧ h.lidPen p l = some c.pen
    (ready 0x0701 4 → stream ≤ 7 → leAt b 3 1 ≤ 15 →
      let e := leAt b 3 1
      let foreign := h.share e c.pen = 0 ∨ (h.lidShared p l = true ∧ (h.space k).bindings ≠ [] ∧ engineHub e ≠ h.deliveringHub p l)
      ((Tab.find (h.space k).bindings stream).isSome = true → Answers (.sessBind t) s t stStreamBound [] h) ∧
      (Tab.find (h.space k).bindings stream = none → foreign → Answers (.sessBind t) s t stNotPermitted [] h) ∧
      (Tab.find (h.space k).bindings stream = none → ¬ foreign → ∃ h', Answers (.sessBind t) s t stOK [] h' ∧
        Tab.find (h'.space k).bindings stream = some e)) ∧
    (ready 0x0702 3 →
      (Tab.find (h.space k).bindings stream = none → Answers (.sessUnbind t) s t stBadArg [] h) ∧
      ((Tab.find (h.space k).bindings stream).isSome = true → ∃ h', Answers (.sessUnbind t) s t stOK [] h' ∧
        Tab.find (h'.space k).bindings stream = none)) ∧
    (ready 0x0703 2 →
      ((∀ q ∈ h.sessPorts p l, h.ssState q l = ssIdle) → Answers (.sessClose t) s t stNoSession [] h) ∧
      ((∃ q ∈ h.sessPorts p l, h.ssState q l ≠ ssIdle) → ∃ h', Answers (.sessClose t) s t stOK [] h' ∧
        ∀ q ∈ h.sessPorts p l, h'.ssState q l = ssIdle)) ∧
    (ready 0x0704 2 →
      ((∃ q ∈ h.sessPorts p l, h.ssState q l ≠ ssRun) → Answers (.sessRekey t) s t stBusy [] h) ∧
      ((∀ q ∈ h.sessPorts p l, h.ssState q l = ssRun) → ∃ h', Answers (.sessRekey t) s t stAccepted (leBytes 4 op) h' ∧
        ∀ q ∈ h.sessPorts p l, h'.ssState q l = ssRekey ∧ op ∈ (h'.sess (lidUnit q l)).rekeyOps)) ∧
    (ready 0x0705 2 →
      ((∃ q ∈ h.sessPorts p l, h.ssState q l ≠ ssRun) → Answers (.sessChallenge t) s t stBusy [] h) ∧
      ((∀ q ∈ h.sessPorts p l, h.ssState q l = ssRun) → ∃ h', Answers (.sessChallenge t) s t stAccepted (leBytes 4 op) h' ∧
        ∀ q ∈ h.sessPorts p l, h'.ssState q l = ssRechallenge ∧ op ∈ (h'.sess (lidUnit q l)).chalOps)) ∧
    (ready 0x0706 2 → ∃ a, Answers (.sessQuery t) s t stOK a h ∧ a.length = 38 ∧ leAt a 0 1 = h.ssState p l % 256)

/-- Decode engines take access units in order, output or drop pictures, and serve the VDEC commands (R410, R411, R412, R413, R414, R416, R420). -/
def Obligations.DecodeEngines : Prop :=
  (∀ (s : State) (engine : Fin 16),
    let h := s.hall
    let e := engine.val
    let c : Instr := .vdecDecodeStart engine
    ((h.engine e).now.isSome = true ∨ (h.engine e).order = [] → Becomes c s h) ∧
    ∀ i n rest, (h.engine e).now = none → (h.engine e).order = (i, n) :: rest →
      (∀ (st : VStream) (u : AccessUnit), Tab.find (h.engine e).streams i = some st →
        (st.units.find? fun (u : AccessUnit) => u.num = n) = some u → Gives c s fun h' =>
          (h'.engine e).now = some (i, u) ∧ (h'.engine e).order = rest ∧ h'.getF .vdecStatusBusy e = 1 ∧
          Frame h h' [.ingress] (regsOf e [.vdecStatusBusy])) ∧
      (Tab.find (h.engine e).streams i = none → Gives c s fun h' =>
        (h'.engine e).now = none ∧ (h'.engine e).order = rest ∧ Frame h h' [.ingress] noReg)) ∧
  (∀ (s : State) (engine : Fin 16) (d : Decoded),
    let h := s.hall
    let e := engine.val
    let c : Instr := .vdecPictureDone engine d
    ((h.engine e).now = none → Becomes c s h) ∧
    ∀ (i : Nat) (u : AccessUnit), (h.engine e).now = some (i, u) →
      (Tab.find (h.engine e).streams i = none → Gives c s fun h' =>
        (h'.engine e).now = none ∧ h'.getF .vdecStatusBusy e = 0 ∧ Frame h h' [.ingress] (regsOf e [.vdecStatusBusy])) ∧
      ∀ st : VStream, Tab.find (h.engine e).streams i = some st →
        let dropped := fun (h' : Hall) => h.getF (.count .vdecDropped) e < Ctr.vdecDropped.top →
          h'.getF (.count .vdecDropped) e = h.getF (.count .vdecDropped) e + 1
        (d.refused.isSome = true → Gives c s fun h' => (h'.engine e).now = none ∧ dropped h' ∧
          (Tab.find (h'.engine e).streams i).map (fun z => (z.refused, z.started)) = some (true, false)) ∧
        (d.refused = none → st.started = false → d.irap = false → Gives c s fun h' => (h'.engine e).now = none ∧ dropped h' ∧
          (Tab.find (h'.engine e).streams i).map (fun z => (z.refused, z.started)) = some (false, false)) ∧
        (d.refused = none → (st.started = true ∨ d.irap = true) →
          (d.pictures = [] → Gives c s fun h' => (h'.engine e).now = none ∧
            (Tab.find (h'.engine e).streams i).map (fun z => (z.refused, z.started)) = some (false, true) ∧
            (h.getF (.count .vdecSamples) e + d.samples ≤ Ctr.vdecSamples.top →
              h'.getF (.count .vdecSamples) e = h.getF (.count .vdecSamples) e + d.samples)) ∧
          ∀ x : Picture, d.pictures = [x] →
            ((st.regions.any fun (r : OutRegion) => !r.inside x.width x.height) = true ∨ (∀ k, k < st.nbuf → k ∈ st.busy) →
              Gives c s fun h' => (h'.engine e).now = none ∧ dropped h' ∧ h'.mem = h.mem))) ∧
  ∀ (s : State) (t : Fin 128),
    let h := s.hall
    let c := h.tillCmd t
    let b := h.tillPayload t
    let e := leAt b 0 1
    let n := leAt b 38 1
    (h.tillReady t 0x0901 (decide (c.pen = 0)) false = true → c.length = 39 + 12 * n → 1 ≤ n → n ≤ 4 → e ≤ 15 → leAt b 1 1 ≤ 7 →
      leAt b 2 1 ≤ 127 → leAt b 3 1 ≤ 7 → leAt b 6 2 ≤ 16383 → 2 ≤ leAt b 36 1 → leAt b 36 1 ≤ 64 → leAt b 37 1 ≤ 1 →
      (∀ j, j < n → (regionAt c (39 + 12 * j)).valid = true) →
      let there := h.streamFor e (leAt b 1 1) (leAt b 2 1) (leAt b 3 1) false
      let room := h.declared e (some c.pen) + leAt b 8 4 ≤ h.share e c.pen * 77500000 ∧
        h.declared e none + leAt b 8 4 ≤ 1240000000 ∧ (h.engine e).streams.length < 64
      (there.isSome = true → Answers (.vdecStreamSet t) s t stBusy [] h) ∧
      (there = none → ¬ room → Answers (.vdecStreamSet t) s t stNoResource [] h) ∧
      (there = none → room → ∃ h', Answers (.vdecStreamSet t) s t stOK [] h' ∧
        (Tab.find (h'.engine e).streams (h.engine e).nextStream).map
          (fun z => (z.pen, z.port, z.lid, z.stream, z.queue, z.maxPps, z.nbuf)) =
          some (c.pen, leAt b 1 1, leAt b 2 1, leAt b 3 1, leAt b 6 2, leAt b 8 4, leAt b 36 1) ∧
        Frame h h' [.ingress] (regsOf e [.vdecStatusStreams]))) ∧
    (h.tillReady t 0x0902 (decide (c.pen = 0)) false = true → c.length = 4 → e ≤ 15 →
      let there := h.streamFor e (leAt b 1 1) (leAt b 2 1) (leAt b 3 1) false
      (there = none → Answers (.vdecStreamClear t) s t stBadArg [] h) ∧
      ∀ i st, there = some (i, st) → st.pen = c.pen →
        (st.busy ≠ [] → ∃ h', Answers (.vdecStreamClear t) s t stBusy [] h' ∧ Frame h h' [.ingress] noReg) ∧
        (st.busy = [] → ∃ h', Answers (.vdecStreamClear t) s t stOK [] h' ∧ Tab.find (h'.engine e).streams i = none ∧
          Frame h h' [.ingress] (regsOf e [.vdecStatusStreams]))) ∧
    (h.tillReady t 0x0903 (decide (c.pen = 0)) false = true → c.length = 1 → e ≤ 15 → ∃ a,
      Answers (.vdecQuery t) s t stOK a h ∧ leAt a 0 1 = h.share e c.pen % 256 ∧
      a.length = 1 + 5 * ((h.engine e).streams.filter fun z => z.2.pen = c.pen).length)

/-- Neighbour links: handshake and control frames, discarded frames, timers and the NBR commands (R395, R396, R397, R398, R399, R400, R404, R405, R407, R408). -/
def Obligations.NeighbourLinkRuns : Prop :=
  (∀ (s : State) (port : Fin 4) (line : LineCw) (frame : Bytes),
    let h := s.hall
    let p := port.val
    let st := h.nbrState p
    let epoch := h.getF .nbrStatusKepoch p
    let x := h.nbr p
    let cmds : List (Nat × Instr) := [(0x01, .hello port line frame), (0x02, .nbrCert port line frame), (0x03, .proof port line frame),
      (0x04, .keys port line frame), (0x05, .keysAck port line frame), (0x06, .refuse port line frame), (0x07, .ack port line frame),
      (0x08, .keepalive port line frame)]
    let up1 := fun (h' : Hall) (c : Ctr) => h.getF (.count c) p < c.top → h'.getF (.count c) p = h.getF (.count c) p + 1
    let calm := h.flag .nbrErrHit p = true ∨ h.getF .nbrErrCount p + 1 < max 1 (h.getF .nbrCfgErrThresh p)
    (∀ y ∈ cmds, Gives y.2 s fun h' =>
      (∀ b, h.linkCheck p line frame = .inl b → h' = h) ∧
      ∀ f : LinkFrame, h.linkCheck p line frame = .inr f → f.typ ≠ y.1 → h' = h) ∧
    (Gives (.nbrMalformedFrame port line frame) s fun h' => match h.linkCheck p line frame with
      | .inr _ => h' = h
      | .inl .fec => up1 h' .nbrFecUncorr
      | .inl .malformed => calm → up1 h' .nbrMalformed
      | .inl .stale => calm → up1 h' .nbrStale
      | .inl .tag => calm → up1 h' .nbrTagFail
      | .inl .replay => calm → up1 h' .nbrReplay
      | .inl .credit => calm → up1 h' .nbrCredit) ∧
    (¬ calm → h.nbrUp p = true → Gives (.nbrMalformedFrame port line frame) s fun h' =>
      ∀ b, h.linkCheck p line frame = .inl b → b ≠ .fec → h'.nbrState p = nbDown ∨ h'.nbrState p = nbHello) ∧
    (st = nbHello ∨ st = nbUp → Gives (.hello port line frame) s fun h' =>
      ∀ f : LinkFrame, h.linkCheck p line frame = .inr f → f.typ = 0x01 →
        h'.nbrState p = nbProve ∧ (h'.nbr p).peerModule = slice f.body 4 64 ∧ (h'.nbr p).peerNonce = slice f.body 68 32 ∧
        h'.getF .nbrStatusLead p = b2n (decide (beNat moduleId < beAt f.body 4 64))) ∧
    (st = nbProve → Gives (.nbrCert port line frame) s fun h' =>
      ∀ f : LinkFrame, h.linkCheck p line frame = .inr f → f.typ = 0x02 →
        (beAt f.body 0 2, f.body.drop 4) ∈ (h'.nbr p).frags ∧ h'.nbrState p = nbProve) ∧
    (st = nbProve → Gives (.proof port line frame) s fun h' =>
      ∀ f : LinkFrame, h.linkCheck p line frame = .inr f → f.typ = 0x03 →
        let chain := if x.fragLast then assemble x.frags x.fragTotal (x.frags.length + 1) 0 else none
        (chain = none → h'.nbrState p = nbProve) ∧
        ∀ ch, chain = some ch → h'.nbrState p = match h.peerCheck p ch f.body with
          | .inl _ => nbHoldoff
          | .inr _ => nbKeying) ∧
    (h.flag .nbrStatusLead p = false → Gives (.keys port line frame) s fun h' =>
      ∀ (f : LinkFrame) (plain : Bytes), h.linkCheck p line frame = .inr f → f.typ = 0x04 →
        Config.oaepUnwrap (ascii "IL8N" ++ beBytes 1 (beAt f.body 0 1)) (slice f.body 4 512) = some plain → plain.length = 128 →
        (st = nbKeying → beAt f.body 0 1 = 1 →
          h'.nbrState p = nbUp ∧ h'.getF .nbrStatusKepoch p = 1 ∧ (h'.nbr p).keys = splitKeys plain) ∧
        (st = nbUp → beAt f.body 0 1 = nextEpoch epoch →
          h'.nbrState p = nbUp ∧ h'.getF .nbrStatusKepoch p = nextEpoch epoch ∧ (h'.nbr p).keys = splitKeys plain ∧
          (h'.nbr p).prevKeys = x.keys)) ∧
    (h.flag .nbrStatusLead p = true → x.pendKeys ≠ [] → st = nbKeying ∨ st = nbUp → Gives (.keysAck port line frame) s fun h' =>
      ∀ f : LinkFrame, h.linkCheck p line frame = .inr f → f.typ = 0x05 → f.epoch = x.pendEpoch → beAt f.body 0 1 = x.pendEpoch →
        h'.nbrState p = nbUp ∧ h'.getF .nbrStatusKepoch p = x.pendEpoch ∧ (h'.nbr p).keys = x.pendKeys ∧ (h'.nbr p).pendKeys = []) ∧
    (1 ≤ st → st ≤ 3 → Gives (.refuse port line frame) s fun h' =>
      ∀ f : LinkFrame, h.linkCheck p line frame = .inr f → f.typ = 0x06 → h'.nbrState p = nbHoldoff ∧ (h'.nbr p).guarded = []) ∧
    (st = nbUp → x.pendKeys ≠ [] → Gives (.refuse port line frame) s fun h' =>
      ∀ f : LinkFrame, h.linkCheck p line frame = .inr f → f.typ = 0x06 → h'.nbrState p = nbUp ∧ (h'.nbr p).pendKeys = []) ∧
    (h.weights.lots = [] → Gives (.ack port line frame) s fun h' =>
      ∀ (f : LinkFrame) (base : Nat), h.linkCheck p line frame = .inr f → f.typ = 0x07 →
        let c := beAt f.body 0 1
        runningOf (x.conv c).base (beAt f.body 4 4) = some base → base ≤ (x.conv c).nextSeq → ((h'.nbr p).conv c).base = base) ∧
    (Gives (.keepalive port line frame) s fun h' =>
      ∀ f : LinkFrame, h.linkCheck p line frame = .inr f → f.typ = 0x08 →
        up1 h' .nbrFramesIn ∧ (h'.nbr p).ctlRecv = some f.at' ∧
        Frame h h' [.nbrs] (regsOf p [.count .nbrFramesIn, .sat .nbrFramesIn, .count .nbrFecCorr, .sat .nbrFecCorr]))) ∧
  (∀ (s : State) (port : Fin 4) (conv seq : Nat),
    let h := s.hall
    let p := port.val
    let st := h.nbrState p
    let x := h.nbr p
    let gone := fun (h' : Hall) => h'.nbrState p = nbDown ∨ h'.nbrState p = nbHello
    (Gives (.pcsAligned port) s fun h' => (h'.nbr p).aligned = true ∧
      h'.nbrState p = if st = nbDown ∧ h.flag .nbrCfgEnable p = true ∧ h.hubLost (hubOf (p / 2)) = false then nbHello else st) ∧
    (st ≠ nbUp → Becomes (.pcsAlignLost port) s (h.updNbr p fun y => { y with aligned := false })) ∧
    (st = nbUp → Gives (.pcsAlignLost port) s gone) ∧
    (x.guarded = [] → Becomes (.nbrRespTimeout port) s h) ∧
    (x.guarded ≠ [] →
      (x.resends < 3 → Gives (.nbrRespTimeout port) s fun h' =>
        (h'.nbr p).resends = x.resends + 1 ∧ h'.outs = (x.guarded.map fun f => Out.nbrFrame p f).reverse ++ h.outs ∧
        Frame h h' [.nbrs, .outs] (regsOf p [.count .nbrFramesOut, .sat .nbrFramesOut])) ∧
      (3 ≤ x.resends → st = nbUp → Gives (.nbrRespTimeout port) s gone) ∧
      (3 ≤ x.resends → 1 ≤ st → st ≤ 3 → Gives (.nbrRespTimeout port) s fun h' =>
        h'.nbrState p = nbHoldoff ∧ (h'.nbr p).guarded = [])) ∧
    (st = nbHoldoff → Gives (.nbrHoldoffExpire port) s fun h' => h'.nbrState p = nbHello) ∧
    (st ≠ nbHoldoff → Becomes (.nbrHoldoffExpire port) s h) ∧
    (st = nbUp → Gives (.nbrDead port) s gone) ∧
    (st ≠ nbUp → Becomes (.nbrDead port) s h ∧ Becomes (.nbrKeepaliveSend port) s h) ∧
    (st = nbUp → Gives (.nbrKeepaliveSend port) s fun h' => ∃ f, h'.outs = .nbrFrame p f :: h.outs ∧ beAt f 0 1 = 0 ∧ beAt f 1 1 = 0x08) ∧
    (∀ f : ConvFrame, Tab.find (x.conv conv).unacked seq = some f → st = nbUp → Gives (.nbrRto port conv seq) s fun h' =>
      h'.outs = .nbrFrame p f.bytes :: h.outs ∧ (h.getF (.count .nbrRetrans) p < Ctr.nbrRetrans.top →
        h'.getF (.count .nbrRetrans) p = h.getF (.count .nbrRetrans) p + 1)) ∧
    (Tab.find (x.conv conv).unacked seq = none ∨ st ≠ nbUp → Becomes (.nbrRto port conv seq) s h) ∧
    (let due := st = nbUp ∧ h.flag .nbrStatusLead p = true ∧ x.pendKeys = []
     (due → Gives (.nbrRekeyTrigger port) s fun h' =>
       (h'.nbr p).pendEpoch = nextEpoch (h.getF .nbrStatusKepoch p) ∧ (h'.nbr p).pendKeys ≠ [] ∧ (h'.nbr p).keys = x.keys) ∧
     (¬ due → Becomes (.nbrRekeyTrigger port) s h)) ∧
    Becomes (.nbrOldEpochExpire port) s (h.updNbr p fun y => { y with prevKeys := [] })) ∧
  ∀ (s : State) (t : Fin 128),
    let h := s.hall
    let c := h.tillCmd t
    let b := h.tillPayload t
    let p := leAt b 0 1
    let pen := leAt b 1 1
    let op := h.cmd.nextHandle
    (h.tillReady t 0x0801 false false = true → c.length = 75 → p ≤ 3 → leAt b 2 2 = 0 →
      (leAt b 1 1 = 1 → ∃ h', Answers (.nbrPortSet t) s t stOK [] h' ∧ (h'.nbr p).pin = slice b 4 64 ∧
        h'.getF .nbrCfgDeadUs p = leAt b 68 2 ∧ h'.getF .nbrCfgNoticeLimitUs p = leAt b 70 2 ∧ h'.getF .nbrCfgRtoUs p = leAt b 72 1 ∧
        h'.getF .nbrCfgErrThresh p = leAt b 73 2 ∧ h'.getF .nbrCfgEnable p = 1) ∧
      (leAt b 1 1 = 0 → ∃ h', Answers (.nbrPortSet t) s t stOK [] h' ∧ h'.nbrState p ≠ nbUp)) ∧
    (h.tillReady t 0x0802 false false = true → c.length = 2 → p ≤ 3 → pen = 255 ∨ (pen ≤ 31 ∧ h.penExists pen = true) →
      let held := (h.nbr p).items ≠ [] ∨ h.imageNamesPort p = true
      (held → Answers (.nbrAssign t) s t stBusy [] h) ∧
      (¬ held → ∃ h', Answers (.nbrAssign t) s t stOK [] h' ∧ h'.nbrPen p = (if pen = 255 then none else some pen) ∧
        Frame h h' [] (regsOf p [.nbrCfgPenValid, .nbrCfgPen]))) ∧
    (h.tillReady t 0x0803 false false = true → c.length = 1 → p ≤ 3 → ∃ h', Answers (.nbrRekey t) s t stAccepted (leBytes 4 op) h' ∧
      (h.nbrUp p = true → op ∈ (h'.nbr p).rekeyOps) ∧ (h.nbrUp p = false → Tab.find h'.cmd.ops op = none)) ∧
    (h.tillReady t 0x0804 (decide (c.pen = 0)) false = true → c.length = 1 → p ≤ 3 →
      let mine := tillSecure c.till = true ∨ h.nbrPen p = some c.pen
      (mine → ∃ a, Answers (.nbrQuery t) s t stOK a h ∧ a.length = 77 ∧ leAt a 0 1 = h.nbrState p % 256) ∧
      (¬ mine → Answers (.nbrQuery t) s t stNotPermitted [] h))

/-- What neighbours send over a link that is UP: lots and shards, page reads, withdrawals, items and notices (R219, R220, R221, R222, R399, R401, R402, R403, R405, Table 8.7, Table 16.4, Table 16.5). -/
def Obligations.NeighbourTraffic : Prop :=
  (∀ (s : State) (port : Fin 4) (line : LineCw) (frame : Bytes),
    let h := s.hall
    let p := port.val
    let x := h.nbr p
    let cmds : List (Nat × Nat × Instr) := [(0x20, 1, .lotReq port line frame), (0x21, 1, .lotOffer port line frame),
      (0x22, 1, .lotRefuse port line frame), (0x23, 1, .shardWant port line frame), (0x24, 1, .shardData port line frame),
      (0x25, 1, .shardAck port line frame), (0x26, 1, .lotDone port line frame), (0x28, 1, .pageRead port line frame),
      (0x29, 1, .pageData port line frame), (0x2A, 1, .pageFail port line frame), (0x2B, 1, .withdraw port line frame),
      (0x30, 2, .item port line frame), (0x40, 3, .notice port line frame)]
    let up1 := fun (h' : Hall) (c : Ctr) => h.getF (.count c) p < c.top → h'.getF (.count c) p = h.getF (.count c) p + 1
    (∀ y ∈ cmds, Gives y.2.2 s fun h' =>
      let k := x.conv y.2.1
      (∀ b, h.linkCheck p line frame = .inl b → h' = h) ∧
      ∀ f : LinkFrame, h.linkCheck p line frame = .inr f →
        (f.typ ≠ y.1 → h' = h) ∧
        (f.typ = y.1 → f.dup = true → up1 h' .nbrDup) ∧
        (f.typ = y.1 → f.dup = false → f.at' ≠ k.recvBase → Tab.find k.ahead k.recvBase = none →
          Tab.find ((h'.nbr p).conv y.2.1).ahead f.at' = some (f.typ, f.body) ∧ up1 h' .nbrFramesIn)) ∧
    (x.noticesIn = [] →
      let turn := fun (typ conv : Nat) (q : Bytes → Prop) => ∀ f : LinkFrame, h.linkCheck p line frame = .inr f → f.typ = typ →
        f.dup = false → f.at' = (x.conv conv).recvBase → (x.conv conv).ahead = [] → q f.body
      (Gives (.lotReq port line frame) s fun h' => turn 0x20 1 fun b =>
        let rid := beAt b 0 4
        let hit := h.weights.lots.find? fun e => e.2.lotId = beAt b 4 4 && e.2.gen = beAt b 8 4
        (hit = none → ∀ r, h'.rid p true r = h.rid p true r) ∧
        ∀ k l, hit = some (k, l) → l.state = .ready → l.serve = true → (x.rids.filter fun (e : Nat × Rid) => e.2.server).length < 4 →
          (h'.rid p true rid).map (fun r => (r.lot, r.nshard, r.mlen)) = some (k, l.partShards.sum, l.manifest.length)) ∧
      (Gives (.lotOffer port line frame) s fun h' => turn 0x21 1 fun b =>
        ∀ r, h.rid p false (beAt b 0 4) = some r → (∀ j, h.job r.job = some j → j.due = []) →
          (h'.rid p false (beAt b 0 4)).map (fun z => (z.job, z.nshard, z.mlen)) = some (r.job, beAt b 4 4, beAt b 8 4)) ∧
      (Gives (.lotRefuse port line frame) s fun h' => turn 0x22 1 fun b => h'.rid p false (beAt b 0 4) = none) ∧
      (Gives (.shardWant port line frame) s fun h' => turn 0x23 1 fun b =>
        let named := (List.range (beAt b 4 1)).map fun i => beAt b (8 + 4 * i) 4
        ∀ r l, h.rid p true (beAt b 0 4) = some r → h.lot r.lot = some l →
          let ok := (named.filter fun i => decide (i < r.nshard) || decide (i = manifestShard)).dedup
          (h'.rid p true (beAt b 0 4)).map (fun z => z.wanted) = some ((r.wanted ++ ok.filter fun i => !r.wanted.contains i).take 32)) ∧
      (Gives (.shardData port line frame) s fun h' => turn 0x24 1 fun b =>
        let i := beAt b 4 4
        (∀ r, h.rid p false (beAt b 0 4) = some r → i ∈ r.wanted →
          let have_ := if beAt b 8 4 = 0 then [] else Tab.get [] r.parts i
          have_.length = beAt b 8 4 →
            (h'.rid p false (beAt b 0 4)).map (fun z => Tab.find z.parts i) = some (some (have_ ++ b.drop 12))) ∧
        ((∀ r, h.rid p false (beAt b 0 4) = some r → i ∉ r.wanted) → up1 h' .nbrMalformed)) ∧
      (Gives (.shardAck port line frame) s fun h' => turn 0x25 1 fun b =>
        ∀ r, h.rid p true (beAt b 0 4) = some r →
          (h'.rid p true (beAt b 0 4)).map (fun z => z.wanted) = some (r.wanted.filter (· ≠ beAt b 4 4))) ∧
      (Gives (.lotDone port line frame) s fun h' => turn 0x26 1 fun b => h'.rid p true (beAt b 0 4) = none) ∧
      (Gives (.pageRead port line frame) s fun h' => turn 0x28 1 fun b =>
        (h.servedPage (beAt b 4 8) = true → up1 h' .nbrPageReads) ∧ (h.servedPage (beAt b 4 8) = false → up1 h' .nbrPageFail)) ∧
      (Gives (.pageData port line frame) s fun h' => turn 0x29 1 fun b =>
        ∀ r, Tab.find x.reads (beAt b 0 4) = some r → beAt b 4 4 = r.data.length →
          let data := r.data ++ markedData (beAt b 8 16) (b.drop 24)
          (r.n ≤ data.length → Tab.find (h'.nbr p).reads (beAt b 0 4) = none) ∧
          (data.length < r.n → (Tab.find (h'.nbr p).reads (beAt b 0 4)).map (fun z => z.data) = some data)) ∧
      (Gives (.pageFail port line frame) s fun h' => turn 0x2A 1 fun b => Tab.find (h'.nbr p).reads (beAt b 0 4) = none) ∧
      ((∀ hub, ∀ e ∈ (h.pool hub).frames, e.2.next = none) → Gives (.withdraw port line frame) s fun h' => turn 0x2B 1 fun b =>
        ∀ hub k z, Tab.find (h.pool hub).frames k = some z → z.state = .valid ∨ z.state = .draining →
          inT3 p (beAt b 0 8) (beAt b 8 8) z.home = true →
          (Tab.find (h'.pool hub).frames k).map (fun y => y.state) = some .invalid) ∧
      (Gives (.item port line frame) s fun h' => turn 0x30 2 fun b =>
        let full := beAt b 0 8
        let tag := tagBare full
        (full ≠ 0 → Tab.find x.tags tag = none → x.refills = [] → beAt b 12 4 = 0 →
          (∀ i ∈ x.items, ¬ (i.tag = tag ∧ i.item = beAt b 8 2)) →
          Tab.find (h'.nbr p).tags tag = some { state := .held, epoch := tagEpoch full } ∧
          (h'.nbr p).items = x.items ++ [{ tag := tag, item := beAt b 8 2, data := markedData (beAt b 16 16) (b.drop 32),
                                           complete := bit (beAt b 10 1) 0, order := x.nextOrder }]) ∧
        ∀ r, full ≠ 0 → Tab.find x.tags tag = some r → (r.state = .committed ∨ tagEpoch full < r.epoch) →
          up1 h' .nbrLateItems ∧ (h'.nbr p).items = x.items) ∧
      (Gives (.notice port line frame) s fun h' => turn 0x40 3 fun b =>
        let tag := tagBare (beAt b 4 8)
        let e := tagEpoch (beAt b 4 8)
        (h.afterDone p b = false → (h'.nbr p).noticesIn = [b] ∧ (h'.nbr p).tags = x.tags) ∧
        (h.afterDone p b = true → Tab.find x.tags tag = none → up1 h' .nbrLateItems ∧ (h'.nbr p).tags = x.tags) ∧
        ∀ r, h.afterDone p b = true → Tab.find x.tags tag = some r → r.state ≠ .committed →
          (beAt b 0 1 = 1 → r.state = .held → e = r.epoch →
            (∀ n, n < beAt b 2 2 → ∃ i ∈ x.items, i.tag = tag ∧ i.item = n ∧ i.complete = true) →
            (Tab.find (h'.nbr p).tags tag).map (fun z => (z.state, z.commitAt)) = some (.committed, none)) ∧
          (beAt b 0 1 = 2 → r.epoch ≤ e → x.items = [] → h.openRuns = [] → h.data.stalls = [] →
            (Tab.find (h'.nbr p).tags tag).map (fun z => (z.state, z.epoch)) = some (.wait, e + 1))))) ∧
  ∀ (s : State) (port : Fin 4) (tag : Nat),
    let h := s.hall
    let p := port.val
    let c : Instr := .noticeLimit port tag
    (Tab.find (h.nbr p).tags tag = none → Becomes c s h) ∧
    ∀ r, Tab.find (h.nbr p).tags tag = some r →
      (r.state = .committed → Becomes c s h) ∧
      (r.state ≠ .committed → Gives c s fun h' =>
        (Tab.find (h'.nbr p).tags tag).map (fun z => (z.state, z.commitAt)) = some (.committed, none))
end

