-- ==== Sys2Proof/Laws/Mem.lean ====
section
/-! SUPPORT. Byte memories and sparse tables: a read after a write, the canonical form, and that every memory operation
keeps it. -/

namespace Sys2Proof

namespace Tab

variable {α : Type}

theorem find_set_same (t : Tab α) (k : Nat) (v : α) : find (set t k v) k = some v := by
  induction t with
  | nil => simp [set, find]
  | cons e rest ih =>
    obtain ⟨j, w⟩ := e
    simp only [set]
    split
    · simp [find]
    · split
      · simp [find]
      · rename_i h1 h2
        simp [find, Ne.symm h2, ih]

theorem find_set_ne (t : Tab α) (k j : Nat) (v : α) (h : j ≠ k) : find (set t k v) j = find t j := by
  induction t with
  | nil => simp [set, find, Ne.symm h]
  | cons e rest ih =>
    obtain ⟨i, w⟩ := e
    simp only [set]
    split
    · simp [find, Ne.symm h]
    · split
      · rename_i h1 h2
        subst h2
        simp [find, Ne.symm h]
      · simp [find, ih]

theorem find_erase_same (t : Tab α) (k : Nat) : find (erase t k) k = none := by
  induction t with
  | nil => rfl
  | cons e rest ih =>
    obtain ⟨j, w⟩ := e
    simp only [erase]
    split
    · exact ih
    · rename_i h
      simp [find, h, ih]

theorem find_erase_ne (t : Tab α) (k j : Nat) (h : j ≠ k) : find (erase t k) j = find t j := by
  induction t with
  | nil => rfl
  | cons e rest ih =>
    obtain ⟨i, w⟩ := e
    simp only [erase]
    split
    · rename_i h1
      subst h1
      simp [find, Ne.symm h, ih]
    · simp [find, ih]

@[simp] theorem get_set_same (d : α) (t : Tab α) (k : Nat) (v : α) : get d (set t k v) k = v := by
  simp [get, find_set_same]

theorem get_set_ne (d : α) (t : Tab α) (k j : Nat) (v : α) (h : j ≠ k) : get d (set t k v) j = get d t j := by
  simp [get, find_set_ne _ _ _ _ h]

/-- Whatever a table lists after a write was listed before or is what was written. -/
theorem mem_set {t : Tab α} {k : Nat} {v : α} {e : Nat × α} (h : e ∈ set t k v) : e = (k, v) ∨ e ∈ t := by
  induction t with
  | nil => simp [set] at h; exact .inl h
  | cons x rest ih =>
    obtain ⟨j, w⟩ := x
    simp only [set] at h
    split at h
    · rcases List.mem_cons.1 h with h | h
      · exact .inl h
      · exact .inr h
    · split at h
      · rcases List.mem_cons.1 h with h | h
        · exact .inl h
        · exact .inr (List.mem_cons_of_mem _ h)
      · rcases List.mem_cons.1 h with h | h
        · exact .inr (h ▸ List.mem_cons_self ..)
        · rcases ih h with h | h
          · exact .inl h
          · exact .inr (List.mem_cons_of_mem _ h)

theorem mem_erase {t : Tab α} {k : Nat} {e : Nat × α} (h : e ∈ erase t k) : e ∈ t := by
  induction t with
  | nil => exact h
  | cons x rest ih =>
    obtain ⟨j, w⟩ := x
    simp only [erase] at h
    split at h
    · exact List.mem_cons_of_mem _ (ih h)
    · rcases List.mem_cons.1 h with h | h
      · exact h ▸ List.mem_cons_self ..
      · exact List.mem_cons_of_mem _ (ih h)

/-- What a table finds, it lists. -/
theorem mem_of_find {t : Tab α} {k : Nat} {v : α} (h : find t k = some v) : (k, v) ∈ t := by
  induction t with
  | nil => simp [find] at h
  | cons x rest ih =>
    obtain ⟨j, w⟩ := x
    simp only [find] at h
    split at h
    · rename_i hj
      subst hj
      cases h
      exact List.mem_cons_self ..
    · exact List.mem_cons_of_mem _ (ih h)

end Tab

namespace Mem

/-- A canonical memory above a bound reads as the default below it. -/
theorem read_below (d : Byte) (m : Mem) (lo a : Nat) (hw : wfAbove d lo m = true) (ha : a < lo) : read d m a = d := by
  cases m with
  | nil => rfl
  | cons c rest =>
    obtain ⟨j, b⟩ := c
    simp [wfAbove] at hw
    have h1 : ¬ j = a := by omega
    have h2 : a < j := by omega
    simp [read, h1, h2]

theorem wfAbove_mono (d : Byte) (m : Mem) (lo lo' : Nat) (hw : wfAbove d lo m = true) (hl : lo' ≤ lo) :
    wfAbove d lo' m = true := by
  cases m with
  | nil => rfl
  | cons c rest =>
    obtain ⟨j, b⟩ := c
    simp [wfAbove] at hw ⊢
    exact ⟨⟨by omega, hw.1.2⟩, hw.2⟩

/-- A write keeps the canonical form. -/
theorem wfAbove_write (d : Byte) (m : Mem) (lo a : Nat) (b : Byte) (hw : wfAbove d lo m = true) (ha : lo ≤ a) :
    wfAbove d lo (write d m a b) = true := by
  induction m generalizing lo with
  | nil =>
    simp only [write]
    split
    · rfl
    · rename_i hb
      simp [wfAbove, ha, hb]
  | cons c rest ih =>
    obtain ⟨j, x⟩ := c
    simp [wfAbove] at hw
    simp only [write]
    split
    · split
      · simp [wfAbove, hw]
      · rename_i h1 h2
        simp [wfAbove, ha, h2, hw.1.2, hw.2]
        omega
    · split
      · rename_i h1 h2
        subst h2
        split
        · exact wfAbove_mono d rest (a + 1) lo hw.2 (by omega)
        · rename_i hb
          simp [wfAbove, ha, hb, hw.2]
      · rename_i h1 h2
        simp [wfAbove, hw.1]
        exact ih (j + 1) hw.2 (by omega)

/-- A write keeps the canonical form. -/
theorem wf_write (d : Byte) (m : Mem) (a : Nat) (b : Byte) (hw : wf d m = true) : wf d (write d m a b) = true :=
  wfAbove_write d m 0 a b hw (Nat.zero_le a)

/-- Writing bytes keeps the canonical form. -/
theorem wf_writeN (d : Byte) (bs : Bytes) (m : Mem) (a : Nat) (hw : wf d m = true) : wf d (writeN d m a bs) = true := by
  induction bs generalizing m a with
  | nil => exact hw
  | cons b rest ih => exact ih _ _ (wf_write d m a b hw)

theorem wfAbove_filter (d : Byte) (p : Nat × Byte → Bool) (m : Mem) (lo : Nat) (hw : wfAbove d lo m = true) :
    wfAbove d lo (m.filter p) = true := by
  induction m generalizing lo with
  | nil => rfl
  | cons c rest ih =>
    obtain ⟨j, x⟩ := c
    simp [wfAbove] at hw
    simp only [List.filter_cons]
    split
    · simp [wfAbove, hw.1]
      exact ih (j + 1) hw.2
    · exact ih lo (wfAbove_mono d rest (j + 1) lo hw.2 (by omega))

/-- Clearing a range keeps the canonical form. -/
theorem wf_clear (d : Byte) (m : Mem) (a n : Nat) (hw : wf d m = true) : wf d (clear m a n) = true :=
  wfAbove_filter d _ m 0 hw

/-- A read after a write to the same place gives the value written, where the memory is canonical. -/
theorem read_write_same (d : Byte) (m : Mem) (lo a : Nat) (b : Byte) (hw : wfAbove d lo m = true) :
    read d (write d m a b) a = b := by
  induction m generalizing lo with
  | nil =>
    simp only [write]
    split
    · rename_i h; simp [read, h]
    · simp [read]
  | cons c rest ih =>
    obtain ⟨j, x⟩ := c
    simp [wfAbove] at hw
    simp only [write]
    split
    · rename_i h1
      split
      · rename_i h2
        have : ¬ j = a := by omega
        simp [read, this, h1, h2]
      · simp [read]
    · split
      · rename_i h1 h2
        subst h2
        split
        · rename_i hb
          rw [read_below d rest (a + 1) a hw.2 (by omega), hb]
        · simp [read]
      · rename_i h1 h2
        have : ¬ j = a := fun h => h2 h.symm
        simp [read, this, h1]
        exact ih (j + 1) hw.2

/-- A write leaves every other place alone, where the memory is canonical. -/
theorem read_write_ne (d : Byte) (m : Mem) (lo a a' : Nat) (b : Byte) (hw : wfAbove d lo m = true) (h : a' ≠ a) :
    read d (write d m a b) a' = read d m a' := by
  induction m generalizing lo with
  | nil =>
    simp only [write]
    split
    · rfl
    · simp [read, Ne.symm h]
  | cons c rest ih =>
    obtain ⟨j, x⟩ := c
    simp [wfAbove] at hw
    simp only [write]
    split
    · rename_i h1
      split
      · rfl
      · by_cases h3 : a' < a
        · have : ¬ j = a' := by omega
          have h5 : a' < j := by omega
          simp [read, Ne.symm h, h3, this, h5]
        · simp [read, Ne.symm h, h3]
    · split
      · rename_i h1 h2
        subst h2
        split
        · by_cases h3 : a' < a
          · simp [read, Ne.symm h, h3]
            exact read_below d rest (a + 1) a' hw.2 (by omega)
          · simp [read, Ne.symm h, h3]
        · simp [read, Ne.symm h]
      · by_cases h3 : j = a'
        · simp [read, h3]
        · by_cases h4 : a' < j
          · simp [read, h3, h4]
          · simp [read, h3, h4]
            exact ih (j + 1) hw.2

/-- Writing bytes leaves every place outside them alone. -/
theorem read_writeN_outside (d : Byte) (bs : Bytes) (m : Mem) (a a' : Nat) (hw : wf d m = true)
    (h : a' < a ∨ a + bs.length ≤ a') : read d (writeN d m a bs) a' = read d m a' := by
  induction bs generalizing m a with
  | nil => rfl
  | cons b rest ih =>
    simp only [List.length_cons] at h
    simp only [writeN]
    rw [ih _ (a + 1) (wf_write d m a b hw) (by omega)]
    exact read_write_ne d m 0 a a' b hw (by omega)

/-- Bytes written are read back. -/
theorem read_writeN_inside (d : Byte) (bs : Bytes) (m : Mem) (a i : Nat) (hw : wf d m = true) (h : i < bs.length) :
    read d (writeN d m a bs) (a + i) = bs.getD i 0 := by
  induction bs generalizing m a i with
  | nil => simp at h
  | cons b rest ih =>
    simp only [writeN]
    cases i with
    | zero =>
      have e := read_writeN_outside d rest _ (a + 1) a (wf_write d m a b hw) (by omega)
      simpa [e] using read_write_same d m 0 a b hw
    | succ i =>
      simp only [List.length_cons] at h
      have e : a + (i + 1) = (a + 1) + i := by omega
      rw [e, ih _ (a + 1) i (wf_write d m a b hw) (by omega)]
      simp

end Mem

end Sys2Proof
end

