-- ==== Sys2Proof/Laws/Regs.lean ====
section
/-! SUPPORT. Register fields: a read after a write, counters, and the operations built on them. -/

namespace Sys2Proof.Machine

theorem findReg_putReg_same (f : Fld) (u v : Nat) (l : List RegVal) : findReg f u (putReg f u v l) = some v := by
  induction l with
  | nil => simp [putReg, findReg]
  | cons r rest ih =>
    simp only [putReg]
    split
    · simp [findReg]
    · rename_i h
      simp [findReg, h, ih]

theorem findReg_putReg_ne (f g : Fld) (u w v : Nat) (l : List RegVal) (h : ¬ (g = f ∧ w = u)) :
    findReg g w (putReg f u v l) = findReg g w l := by
  induction l with
  | nil =>
    have : ¬ (f = g ∧ u = w) := fun e => h ⟨e.1.symm, e.2.symm⟩
    simp [putReg, findReg, this]
  | cons r rest ih =>
    have h' : ¬ (f = g ∧ u = w) := fun e => h ⟨e.1.symm, e.2.symm⟩
    simp only [putReg]
    split
    · rename_i hr
      have : ¬ (r.fld = g ∧ r.unit = w) := fun e => h ⟨e.1.symm.trans hr.1, e.2.symm.trans hr.2⟩
      simp [findReg, h', this]
    · simp only [findReg, ih]

/-- A field reads as written, cut to its width. -/
@[simp] theorem getF_setF_same (h : Hall) (f : Fld) (u v : Nat) : (h.setF f u v).getF f u = v % 2 ^ f.width := by
  simp [Hall.getF, Hall.setF, findReg_putReg_same]

/-- Every other field, and the same field of every other unit, reads as before. -/
theorem getF_setF_ne (h : Hall) (f g : Fld) (u w v : Nat) (hne : ¬ (g = f ∧ w = u)) : (h.setF f u v).getF g w = h.getF g w := by
  simp [Hall.getF, Hall.setF, findReg_putReg_ne _ _ _ _ _ _ hne]

/-- The same for a field of another name. -/
theorem getF_setF_fld (h : Hall) (f g : Fld) (u w v : Nat) (hne : g ≠ f) : (h.setF f u v).getF g w = h.getF g w :=
  getF_setF_ne h f g u w v fun e => hne e.1

/-- The same for another unit. -/
theorem getF_setF_unit (h : Hall) (f g : Fld) (u w v : Nat) (hne : w ≠ u) : (h.setF f u v).getF g w = h.getF g w :=
  getF_setF_ne h f g u w v fun e => hne e.2

/-- What clearing a list of fields leaves in a field. -/
theorem getF_clearFs (l : List Fld) (h : Hall) (u : Nat) (g : Fld) (w : Nat) :
    (h.clearFs u l).getF g w = if w = u ∧ g ∈ l then 0 else h.getF g w := by
  induction l generalizing h with
  | nil => simp [Hall.clearFs]
  | cons f rest ih =>
    have e : h.clearFs u (f :: rest) = (h.setF f u 0).clearFs u rest := rfl
    rw [e, ih]
    by_cases hu : w = u
    · subst hu
      by_cases hr : g ∈ rest
      · simp [hr]
      · by_cases hf : g = f
        · subst hf
          simp
        · simp [hr, hf, getF_setF_fld _ _ _ _ _ _ hf]
    · simp [hu, getF_setF_unit _ _ _ _ _ _ hu]

/-- What clearing a list of counters leaves in a field: COUNT and SAT of each are 0. -/
theorem getF_clearCtrs (l : List Ctr) (h : Hall) (u : Nat) (g : Fld) (w : Nat) :
    (h.clearCtrs u l).getF g w = if w = u ∧ ∃ c ∈ l, g = .count c ∨ g = .sat c then 0 else h.getF g w := by
  induction l generalizing h with
  | nil => simp [Hall.clearCtrs]
  | cons c rest ih =>
    have e : h.clearCtrs u (c :: rest) = (h.clearCtr u c).clearCtrs u rest := rfl
    rw [e, ih]
    by_cases hu : w = u
    · subst hu
      by_cases hr : ∃ c ∈ rest, g = .count c ∨ g = .sat c
      · simp [hr]
      · by_cases h1 : g = .sat c
        · subst h1
          simp [Hall.clearCtr]
        · by_cases h2 : g = .count c
          · subst h2
            simp [Hall.clearCtr, getF_setF_fld]
          · simp [hr, h1, h2, Hall.clearCtr, getF_setF_fld _ _ _ _ _ _ h1, getF_setF_fld _ _ _ _ _ _ h2]
    · simp [hu, Hall.clearCtr, getF_setF_unit _ _ _ _ _ _ hu]

/-- A one-bit field set from a Bool. -/
theorem flag_setB_same (h : Hall) (f : Fld) (u : Nat) (b : Bool) (hw : f.width = 1) : (h.setB f u b).flag f u = b := by
  cases b <;> simp [Hall.setB, Hall.flag, b2n, hw]

/-- A counter's growth touches its own two fields only. -/
theorem getF_bump_ne (h : Hall) (c : Ctr) (u k : Nat) (g : Fld) (w : Nat) (h1 : g ≠ .count c) (h2 : g ≠ .sat c) :
    (h.bump c u k).getF g w = h.getF g w := by
  unfold Hall.bump
  simp only
  split
  · rfl
  · split
    · rw [getF_setF_fld _ _ _ _ _ _ h2, getF_setF_fld _ _ _ _ _ _ h1]
    · rw [getF_setF_fld _ _ _ _ _ _ h1]

/-- A counter's growth touches one unit only. -/
theorem getF_bump_unit (h : Hall) (c : Ctr) (u k : Nat) (g : Fld) (w : Nat) (hne : w ≠ u) :
    (h.bump c u k).getF g w = h.getF g w := by
  unfold Hall.bump
  simp only
  split
  · rfl
  · split
    · rw [getF_setF_unit _ _ _ _ _ _ hne, getF_setF_unit _ _ _ _ _ _ hne]
    · rw [getF_setF_unit _ _ _ _ _ _ hne]

end Sys2Proof.Machine
end

