-- ==== Sys2Proof/Laws/State.lean ====
section
/-! SUPPORT. What each update of the module leaves alone, part by part: no later proof unfolds a record update. -/

namespace Sys2Proof.Machine

/-- What each step of a fold leaves alone, the fold leaves alone. -/
theorem foldl_same {α β γ : Type} (g : β → γ) (f : β → α → β) (hf : ∀ b a, g (f b a) = g b) (l : List α) (b : β) :
    g (l.foldl f b) = g b := by
  induction l generalizing b with
  | nil => rfl
  | cons x rest ih => exact (ih _).trans (hf b x)

@[simp] theorem setF_mem (h : Hall) (f : Fld) (u v : Nat) : (h.setF f u v).mem = h.mem := rfl
@[simp] theorem setF_outs (h : Hall) (f : Fld) (u v : Nat) : (h.setF f u v).outs = h.outs := rfl
@[simp] theorem setF_junctionA (h : Hall) (f : Fld) (u v : Nat) : (h.setF f u v).junctionA = h.junctionA := rfl
@[simp] theorem setF_junctionB (h : Hall) (f : Fld) (u v : Nat) : (h.setF f u v).junctionB = h.junctionB := rfl
@[simp] theorem setF_portA (h : Hall) (f : Fld) (u v : Nat) : (h.setF f u v).portA = h.portA := rfl
@[simp] theorem setF_portB (h : Hall) (f : Fld) (u v : Nat) : (h.setF f u v).portB = h.portB := rfl
@[simp] theorem setF_cmd (h : Hall) (f : Fld) (u v : Nat) : (h.setF f u v).cmd = h.cmd := rfl
@[simp] theorem setF_data (h : Hall) (f : Fld) (u v : Nat) : (h.setF f u v).data = h.data := rfl
@[simp] theorem setF_checks (h : Hall) (f : Fld) (u v : Nat) : (h.setF f u v).checks = h.checks := rfl
@[simp] theorem setF_tiers (h : Hall) (f : Fld) (u v : Nat) : (h.setF f u v).tiers = h.tiers := rfl
@[simp] theorem setF_weights (h : Hall) (f : Fld) (u v : Nat) : (h.setF f u v).weights = h.weights := rfl
@[simp] theorem setF_avail (h : Hall) (f : Fld) (u v : Nat) : (h.setF f u v).avail = h.avail := rfl
@[simp] theorem setF_ingress (h : Hall) (f : Fld) (u v : Nat) : (h.setF f u v).ingress = h.ingress := rfl
@[simp] theorem setF_nbrs (h : Hall) (f : Fld) (u v : Nat) : (h.setF f u v).nbrs = h.nbrs := rfl
@[simp] theorem setF_trust (h : Hall) (f : Fld) (u v : Nat) : (h.setF f u v).trust = h.trust := rfl
@[simp] theorem setF_power (h : Hall) (f : Fld) (u v : Nat) : (h.setF f u v).power = h.power := rfl
@[simp] theorem setF_mgmt (h : Hall) (f : Fld) (u v : Nat) : (h.setF f u v).mgmt = h.mgmt := rfl
@[simp] theorem setF_watPlain (h : Hall) (f : Fld) (u v : Nat) : (h.setF f u v).watPlain = h.watPlain := rfl
@[simp] theorem setF_freeCtr (h : Hall) (f : Fld) (u v : Nat) : (h.setF f u v).freeCtr = h.freeCtr := rfl

@[simp] theorem setB_mem (h : Hall) (f : Fld) (u : Nat) (b : Bool) : (h.setB f u b).mem = h.mem := rfl
@[simp] theorem setB_outs (h : Hall) (f : Fld) (u : Nat) (b : Bool) : (h.setB f u b).outs = h.outs := rfl
@[simp] theorem setB_junctionA (h : Hall) (f : Fld) (u : Nat) (b : Bool) : (h.setB f u b).junctionA = h.junctionA := rfl
@[simp] theorem setB_junctionB (h : Hall) (f : Fld) (u : Nat) (b : Bool) : (h.setB f u b).junctionB = h.junctionB := rfl
@[simp] theorem setB_portA (h : Hall) (f : Fld) (u : Nat) (b : Bool) : (h.setB f u b).portA = h.portA := rfl
@[simp] theorem setB_portB (h : Hall) (f : Fld) (u : Nat) (b : Bool) : (h.setB f u b).portB = h.portB := rfl
@[simp] theorem setB_cmd (h : Hall) (f : Fld) (u : Nat) (b : Bool) : (h.setB f u b).cmd = h.cmd := rfl
@[simp] theorem setB_data (h : Hall) (f : Fld) (u : Nat) (b : Bool) : (h.setB f u b).data = h.data := rfl
@[simp] theorem setB_checks (h : Hall) (f : Fld) (u : Nat) (b : Bool) : (h.setB f u b).checks = h.checks := rfl
@[simp] theorem setB_tiers (h : Hall) (f : Fld) (u : Nat) (b : Bool) : (h.setB f u b).tiers = h.tiers := rfl
@[simp] theorem setB_weights (h : Hall) (f : Fld) (u : Nat) (b : Bool) : (h.setB f u b).weights = h.weights := rfl
@[simp] theorem setB_avail (h : Hall) (f : Fld) (u : Nat) (b : Bool) : (h.setB f u b).avail = h.avail := rfl
@[simp] theorem setB_ingress (h : Hall) (f : Fld) (u : Nat) (b : Bool) : (h.setB f u b).ingress = h.ingress := rfl
@[simp] theorem setB_nbrs (h : Hall) (f : Fld) (u : Nat) (b : Bool) : (h.setB f u b).nbrs = h.nbrs := rfl
@[simp] theorem setB_trust (h : Hall) (f : Fld) (u : Nat) (b : Bool) : (h.setB f u b).trust = h.trust := rfl
@[simp] theorem setB_power (h : Hall) (f : Fld) (u : Nat) (b : Bool) : (h.setB f u b).power = h.power := rfl
@[simp] theorem setB_mgmt (h : Hall) (f : Fld) (u : Nat) (b : Bool) : (h.setB f u b).mgmt = h.mgmt := rfl
@[simp] theorem setB_watPlain (h : Hall) (f : Fld) (u : Nat) (b : Bool) : (h.setB f u b).watPlain = h.watPlain := rfl
@[simp] theorem setB_freeCtr (h : Hall) (f : Fld) (u : Nat) (b : Bool) : (h.setB f u b).freeCtr = h.freeCtr := rfl

@[simp] theorem clearCtr_mem (h : Hall) (u : Nat) (c : Ctr) : (h.clearCtr u c).mem = h.mem := rfl
@[simp] theorem clearCtr_outs (h : Hall) (u : Nat) (c : Ctr) : (h.clearCtr u c).outs = h.outs := rfl
@[simp] theorem clearCtr_junctionA (h : Hall) (u : Nat) (c : Ctr) : (h.clearCtr u c).junctionA = h.junctionA := rfl
@[simp] theorem clearCtr_junctionB (h : Hall) (u : Nat) (c : Ctr) : (h.clearCtr u c).junctionB = h.junctionB := rfl
@[simp] theorem clearCtr_portA (h : Hall) (u : Nat) (c : Ctr) : (h.clearCtr u c).portA = h.portA := rfl
@[simp] theorem clearCtr_portB (h : Hall) (u : Nat) (c : Ctr) : (h.clearCtr u c).portB = h.portB := rfl
@[simp] theorem clearCtr_cmd (h : Hall) (u : Nat) (c : Ctr) : (h.clearCtr u c).cmd = h.cmd := rfl
@[simp] theorem clearCtr_data (h : Hall) (u : Nat) (c : Ctr) : (h.clearCtr u c).data = h.data := rfl
@[simp] theorem clearCtr_checks (h : Hall) (u : Nat) (c : Ctr) : (h.clearCtr u c).checks = h.checks := rfl
@[simp] theorem clearCtr_tiers (h : Hall) (u : Nat) (c : Ctr) : (h.clearCtr u c).tiers = h.tiers := rfl
@[simp] theorem clearCtr_weights (h : Hall) (u : Nat) (c : Ctr) : (h.clearCtr u c).weights = h.weights := rfl
@[simp] theorem clearCtr_avail (h : Hall) (u : Nat) (c : Ctr) : (h.clearCtr u c).avail = h.avail := rfl
@[simp] theorem clearCtr_ingress (h : Hall) (u : Nat) (c : Ctr) : (h.clearCtr u c).ingress = h.ingress := rfl
@[simp] theorem clearCtr_nbrs (h : Hall) (u : Nat) (c : Ctr) : (h.clearCtr u c).nbrs = h.nbrs := rfl
@[simp] theorem clearCtr_trust (h : Hall) (u : Nat) (c : Ctr) : (h.clearCtr u c).trust = h.trust := rfl
@[simp] theorem clearCtr_power (h : Hall) (u : Nat) (c : Ctr) : (h.clearCtr u c).power = h.power := rfl
@[simp] theorem clearCtr_mgmt (h : Hall) (u : Nat) (c : Ctr) : (h.clearCtr u c).mgmt = h.mgmt := rfl
@[simp] theorem clearCtr_watPlain (h : Hall) (u : Nat) (c : Ctr) : (h.clearCtr u c).watPlain = h.watPlain := rfl
@[simp] theorem clearCtr_freeCtr (h : Hall) (u : Nat) (c : Ctr) : (h.clearCtr u c).freeCtr = h.freeCtr := rfl

@[simp] theorem emit_mem (h : Hall) (o : Out) : (h.emit o).mem = h.mem := rfl
@[simp] theorem emit_junctionA (h : Hall) (o : Out) : (h.emit o).junctionA = h.junctionA := rfl
@[simp] theorem emit_junctionB (h : Hall) (o : Out) : (h.emit o).junctionB = h.junctionB := rfl
@[simp] theorem emit_portA (h : Hall) (o : Out) : (h.emit o).portA = h.portA := rfl
@[simp] theorem emit_portB (h : Hall) (o : Out) : (h.emit o).portB = h.portB := rfl
@[simp] theorem emit_cmd (h : Hall) (o : Out) : (h.emit o).cmd = h.cmd := rfl
@[simp] theorem emit_data (h : Hall) (o : Out) : (h.emit o).data = h.data := rfl
@[simp] theorem emit_checks (h : Hall) (o : Out) : (h.emit o).checks = h.checks := rfl
@[simp] theorem emit_tiers (h : Hall) (o : Out) : (h.emit o).tiers = h.tiers := rfl
@[simp] theorem emit_weights (h : Hall) (o : Out) : (h.emit o).weights = h.weights := rfl
@[simp] theorem emit_avail (h : Hall) (o : Out) : (h.emit o).avail = h.avail := rfl
@[simp] theorem emit_ingress (h : Hall) (o : Out) : (h.emit o).ingress = h.ingress := rfl
@[simp] theorem emit_nbrs (h : Hall) (o : Out) : (h.emit o).nbrs = h.nbrs := rfl
@[simp] theorem emit_trust (h : Hall) (o : Out) : (h.emit o).trust = h.trust := rfl
@[simp] theorem emit_power (h : Hall) (o : Out) : (h.emit o).power = h.power := rfl
@[simp] theorem emit_mgmt (h : Hall) (o : Out) : (h.emit o).mgmt = h.mgmt := rfl
@[simp] theorem emit_watPlain (h : Hall) (o : Out) : (h.emit o).watPlain = h.watPlain := rfl
@[simp] theorem emit_freeCtr (h : Hall) (o : Out) : (h.emit o).freeCtr = h.freeCtr := rfl
@[simp] theorem emit_regs (h : Hall) (o : Out) : (h.emit o).regs = h.regs := rfl

@[simp] theorem deposit_mem (h : Hall) (r : FjRec) : (h.deposit r).mem = h.mem := rfl
@[simp] theorem deposit_outs (h : Hall) (r : FjRec) : (h.deposit r).outs = h.outs := rfl
@[simp] theorem deposit_portA (h : Hall) (r : FjRec) : (h.deposit r).portA = h.portA := rfl
@[simp] theorem deposit_portB (h : Hall) (r : FjRec) : (h.deposit r).portB = h.portB := rfl
@[simp] theorem deposit_cmd (h : Hall) (r : FjRec) : (h.deposit r).cmd = h.cmd := rfl
@[simp] theorem deposit_data (h : Hall) (r : FjRec) : (h.deposit r).data = h.data := rfl
@[simp] theorem deposit_checks (h : Hall) (r : FjRec) : (h.deposit r).checks = h.checks := rfl
@[simp] theorem deposit_tiers (h : Hall) (r : FjRec) : (h.deposit r).tiers = h.tiers := rfl
@[simp] theorem deposit_weights (h : Hall) (r : FjRec) : (h.deposit r).weights = h.weights := rfl
@[simp] theorem deposit_avail (h : Hall) (r : FjRec) : (h.deposit r).avail = h.avail := rfl
@[simp] theorem deposit_ingress (h : Hall) (r : FjRec) : (h.deposit r).ingress = h.ingress := rfl
@[simp] theorem deposit_nbrs (h : Hall) (r : FjRec) : (h.deposit r).nbrs = h.nbrs := rfl
@[simp] theorem deposit_trust (h : Hall) (r : FjRec) : (h.deposit r).trust = h.trust := rfl
@[simp] theorem deposit_power (h : Hall) (r : FjRec) : (h.deposit r).power = h.power := rfl
@[simp] theorem deposit_mgmt (h : Hall) (r : FjRec) : (h.deposit r).mgmt = h.mgmt := rfl
@[simp] theorem deposit_watPlain (h : Hall) (r : FjRec) : (h.deposit r).watPlain = h.watPlain := rfl
@[simp] theorem deposit_freeCtr (h : Hall) (r : FjRec) : (h.deposit r).freeCtr = h.freeCtr := rfl
@[simp] theorem deposit_regs (h : Hall) (r : FjRec) : (h.deposit r).regs = h.regs := rfl

@[simp] theorem urgent_mem (h : Hall) (k : RecKind) (u i : Nat) : (h.urgent k u i).mem = h.mem := rfl
@[simp] theorem urgent_outs (h : Hall) (k : RecKind) (u i : Nat) : (h.urgent k u i).outs = h.outs := rfl
@[simp] theorem urgent_portA (h : Hall) (k : RecKind) (u i : Nat) : (h.urgent k u i).portA = h.portA := rfl
@[simp] theorem urgent_portB (h : Hall) (k : RecKind) (u i : Nat) : (h.urgent k u i).portB = h.portB := rfl
@[simp] theorem urgent_cmd (h : Hall) (k : RecKind) (u i : Nat) : (h.urgent k u i).cmd = h.cmd := rfl
@[simp] theorem urgent_data (h : Hall) (k : RecKind) (u i : Nat) : (h.urgent k u i).data = h.data := rfl
@[simp] theorem urgent_checks (h : Hall) (k : RecKind) (u i : Nat) : (h.urgent k u i).checks = h.checks := rfl
@[simp] theorem urgent_tiers (h : Hall) (k : RecKind) (u i : Nat) : (h.urgent k u i).tiers = h.tiers := rfl
@[simp] theorem urgent_weights (h : Hall) (k : RecKind) (u i : Nat) : (h.urgent k u i).weights = h.weights := rfl
@[simp] theorem urgent_avail (h : Hall) (k : RecKind) (u i : Nat) : (h.urgent k u i).avail = h.avail := rfl
@[simp] theorem urgent_ingress (h : Hall) (k : RecKind) (u i : Nat) : (h.urgent k u i).ingress = h.ingress := rfl
@[simp] theorem urgent_nbrs (h : Hall) (k : RecKind) (u i : Nat) : (h.urgent k u i).nbrs = h.nbrs := rfl
@[simp] theorem urgent_trust (h : Hall) (k : RecKind) (u i : Nat) : (h.urgent k u i).trust = h.trust := rfl
@[simp] theorem urgent_power (h : Hall) (k : RecKind) (u i : Nat) : (h.urgent k u i).power = h.power := rfl
@[simp] theorem urgent_mgmt (h : Hall) (k : RecKind) (u i : Nat) : (h.urgent k u i).mgmt = h.mgmt := rfl
@[simp] theorem urgent_watPlain (h : Hall) (k : RecKind) (u i : Nat) : (h.urgent k u i).watPlain = h.watPlain := rfl
@[simp] theorem urgent_freeCtr (h : Hall) (k : RecKind) (u i : Nat) : (h.urgent k u i).freeCtr = h.freeCtr := rfl
@[simp] theorem urgent_regs (h : Hall) (k : RecKind) (u i : Nat) : (h.urgent k u i).regs = h.regs := rfl

@[simp] theorem ordinary_mem (h : Hall) (k : RecKind) (u i : Nat) : (h.ordinary k u i).mem = h.mem := rfl
@[simp] theorem ordinary_outs (h : Hall) (k : RecKind) (u i : Nat) : (h.ordinary k u i).outs = h.outs := rfl
@[simp] theorem ordinary_portA (h : Hall) (k : RecKind) (u i : Nat) : (h.ordinary k u i).portA = h.portA := rfl
@[simp] theorem ordinary_portB (h : Hall) (k : RecKind) (u i : Nat) : (h.ordinary k u i).portB = h.portB := rfl
@[simp] theorem ordinary_cmd (h : Hall) (k : RecKind) (u i : Nat) : (h.ordinary k u i).cmd = h.cmd := rfl
@[simp] theorem ordinary_data (h : Hall) (k : RecKind) (u i : Nat) : (h.ordinary k u i).data = h.data := rfl
@[simp] theorem ordinary_checks (h : Hall) (k : RecKind) (u i : Nat) : (h.ordinary k u i).checks = h.checks := rfl
@[simp] theorem ordinary_tiers (h : Hall) (k : RecKind) (u i : Nat) : (h.ordinary k u i).tiers = h.tiers := rfl
@[simp] theorem ordinary_weights (h : Hall) (k : RecKind) (u i : Nat) : (h.ordinary k u i).weights = h.weights := rfl
@[simp] theorem ordinary_avail (h : Hall) (k : RecKind) (u i : Nat) : (h.ordinary k u i).avail = h.avail := rfl
@[simp] theorem ordinary_ingress (h : Hall) (k : RecKind) (u i : Nat) : (h.ordinary k u i).ingress = h.ingress := rfl
@[simp] theorem ordinary_nbrs (h : Hall) (k : RecKind) (u i : Nat) : (h.ordinary k u i).nbrs = h.nbrs := rfl
@[simp] theorem ordinary_trust (h : Hall) (k : RecKind) (u i : Nat) : (h.ordinary k u i).trust = h.trust := rfl
@[simp] theorem ordinary_power (h : Hall) (k : RecKind) (u i : Nat) : (h.ordinary k u i).power = h.power := rfl
@[simp] theorem ordinary_mgmt (h : Hall) (k : RecKind) (u i : Nat) : (h.ordinary k u i).mgmt = h.mgmt := rfl
@[simp] theorem ordinary_watPlain (h : Hall) (k : RecKind) (u i : Nat) : (h.ordinary k u i).watPlain = h.watPlain := rfl
@[simp] theorem ordinary_freeCtr (h : Hall) (k : RecKind) (u i : Nat) : (h.ordinary k u i).freeCtr = h.freeCtr := rfl
@[simp] theorem ordinary_regs (h : Hall) (k : RecKind) (u i : Nat) : (h.ordinary k u i).regs = h.regs := rfl

@[simp] theorem updStall_mem (h : Hall) (i : Nat) (f : Stall → Stall) : (h.updStall i f).mem = h.mem := rfl
@[simp] theorem updStall_outs (h : Hall) (i : Nat) (f : Stall → Stall) : (h.updStall i f).outs = h.outs := rfl
@[simp] theorem updStall_junctionA (h : Hall) (i : Nat) (f : Stall → Stall) : (h.updStall i f).junctionA = h.junctionA := rfl
@[simp] theorem updStall_junctionB (h : Hall) (i : Nat) (f : Stall → Stall) : (h.updStall i f).junctionB = h.junctionB := rfl
@[simp] theorem updStall_portA (h : Hall) (i : Nat) (f : Stall → Stall) : (h.updStall i f).portA = h.portA := rfl
@[simp] theorem updStall_portB (h : Hall) (i : Nat) (f : Stall → Stall) : (h.updStall i f).portB = h.portB := rfl
@[simp] theorem updStall_cmd (h : Hall) (i : Nat) (f : Stall → Stall) : (h.updStall i f).cmd = h.cmd := rfl
@[simp] theorem updStall_checks (h : Hall) (i : Nat) (f : Stall → Stall) : (h.updStall i f).checks = h.checks := rfl
@[simp] theorem updStall_tiers (h : Hall) (i : Nat) (f : Stall → Stall) : (h.updStall i f).tiers = h.tiers := rfl
@[simp] theorem updStall_weights (h : Hall) (i : Nat) (f : Stall → Stall) : (h.updStall i f).weights = h.weights := rfl
@[simp] theorem updStall_avail (h : Hall) (i : Nat) (f : Stall → Stall) : (h.updStall i f).avail = h.avail := rfl
@[simp] theorem updStall_ingress (h : Hall) (i : Nat) (f : Stall → Stall) : (h.updStall i f).ingress = h.ingress := rfl
@[simp] theorem updStall_nbrs (h : Hall) (i : Nat) (f : Stall → Stall) : (h.updStall i f).nbrs = h.nbrs := rfl
@[simp] theorem updStall_trust (h : Hall) (i : Nat) (f : Stall → Stall) : (h.updStall i f).trust = h.trust := rfl
@[simp] theorem updStall_power (h : Hall) (i : Nat) (f : Stall → Stall) : (h.updStall i f).power = h.power := rfl
@[simp] theorem updStall_mgmt (h : Hall) (i : Nat) (f : Stall → Stall) : (h.updStall i f).mgmt = h.mgmt := rfl
@[simp] theorem updStall_watPlain (h : Hall) (i : Nat) (f : Stall → Stall) : (h.updStall i f).watPlain = h.watPlain := rfl
@[simp] theorem updStall_freeCtr (h : Hall) (i : Nat) (f : Stall → Stall) : (h.updStall i f).freeCtr = h.freeCtr := rfl
@[simp] theorem updStall_regs (h : Hall) (i : Nat) (f : Stall → Stall) : (h.updStall i f).regs = h.regs := rfl

@[simp] theorem updLedger_mem (h : Hall) (i : Nat) (f : Ledger → Ledger) : (h.updLedger i f).mem = h.mem := rfl
@[simp] theorem updLedger_outs (h : Hall) (i : Nat) (f : Ledger → Ledger) : (h.updLedger i f).outs = h.outs := rfl
@[simp] theorem updLedger_junctionA (h : Hall) (i : Nat) (f : Ledger → Ledger) : (h.updLedger i f).junctionA = h.junctionA := rfl
@[simp] theorem updLedger_junctionB (h : Hall) (i : Nat) (f : Ledger → Ledger) : (h.updLedger i f).junctionB = h.junctionB := rfl
@[simp] theorem updLedger_portA (h : Hall) (i : Nat) (f : Ledger → Ledger) : (h.updLedger i f).portA = h.portA := rfl
@[simp] theorem updLedger_portB (h : Hall) (i : Nat) (f : Ledger → Ledger) : (h.updLedger i f).portB = h.portB := rfl
@[simp] theorem updLedger_cmd (h : Hall) (i : Nat) (f : Ledger → Ledger) : (h.updLedger i f).cmd = h.cmd := rfl
@[simp] theorem updLedger_checks (h : Hall) (i : Nat) (f : Ledger → Ledger) : (h.updLedger i f).checks = h.checks := rfl
@[simp] theorem updLedger_tiers (h : Hall) (i : Nat) (f : Ledger → Ledger) : (h.updLedger i f).tiers = h.tiers := rfl
@[simp] theorem updLedger_weights (h : Hall) (i : Nat) (f : Ledger → Ledger) : (h.updLedger i f).weights = h.weights := rfl
@[simp] theorem updLedger_avail (h : Hall) (i : Nat) (f : Ledger → Ledger) : (h.updLedger i f).avail = h.avail := rfl
@[simp] theorem updLedger_ingress (h : Hall) (i : Nat) (f : Ledger → Ledger) : (h.updLedger i f).ingress = h.ingress := rfl
@[simp] theorem updLedger_nbrs (h : Hall) (i : Nat) (f : Ledger → Ledger) : (h.updLedger i f).nbrs = h.nbrs := rfl
@[simp] theorem updLedger_trust (h : Hall) (i : Nat) (f : Ledger → Ledger) : (h.updLedger i f).trust = h.trust := rfl
@[simp] theorem updLedger_power (h : Hall) (i : Nat) (f : Ledger → Ledger) : (h.updLedger i f).power = h.power := rfl
@[simp] theorem updLedger_mgmt (h : Hall) (i : Nat) (f : Ledger → Ledger) : (h.updLedger i f).mgmt = h.mgmt := rfl
@[simp] theorem updLedger_watPlain (h : Hall) (i : Nat) (f : Ledger → Ledger) : (h.updLedger i f).watPlain = h.watPlain := rfl
@[simp] theorem updLedger_freeCtr (h : Hall) (i : Nat) (f : Ledger → Ledger) : (h.updLedger i f).freeCtr = h.freeCtr := rfl
@[simp] theorem updLedger_regs (h : Hall) (i : Nat) (f : Ledger → Ledger) : (h.updLedger i f).regs = h.regs := rfl

@[simp] theorem updTally_mem (h : Hall) (i : Nat) (f : Tally → Tally) : (h.updTally i f).mem = h.mem := rfl
@[simp] theorem updTally_outs (h : Hall) (i : Nat) (f : Tally → Tally) : (h.updTally i f).outs = h.outs := rfl
@[simp] theorem updTally_junctionA (h : Hall) (i : Nat) (f : Tally → Tally) : (h.updTally i f).junctionA = h.junctionA := rfl
@[simp] theorem updTally_junctionB (h : Hall) (i : Nat) (f : Tally → Tally) : (h.updTally i f).junctionB = h.junctionB := rfl
@[simp] theorem updTally_portA (h : Hall) (i : Nat) (f : Tally → Tally) : (h.updTally i f).portA = h.portA := rfl
@[simp] theorem updTally_portB (h : Hall) (i : Nat) (f : Tally → Tally) : (h.updTally i f).portB = h.portB := rfl
@[simp] theorem updTally_cmd (h : Hall) (i : Nat) (f : Tally → Tally) : (h.updTally i f).cmd = h.cmd := rfl
@[simp] theorem updTally_checks (h : Hall) (i : Nat) (f : Tally → Tally) : (h.updTally i f).checks = h.checks := rfl
@[simp] theorem updTally_tiers (h : Hall) (i : Nat) (f : Tally → Tally) : (h.updTally i f).tiers = h.tiers := rfl
@[simp] theorem updTally_weights (h : Hall) (i : Nat) (f : Tally → Tally) : (h.updTally i f).weights = h.weights := rfl
@[simp] theorem updTally_avail (h : Hall) (i : Nat) (f : Tally → Tally) : (h.updTally i f).avail = h.avail := rfl
@[simp] theorem updTally_ingress (h : Hall) (i : Nat) (f : Tally → Tally) : (h.updTally i f).ingress = h.ingress := rfl
@[simp] theorem updTally_nbrs (h : Hall) (i : Nat) (f : Tally → Tally) : (h.updTally i f).nbrs = h.nbrs := rfl
@[simp] theorem updTally_trust (h : Hall) (i : Nat) (f : Tally → Tally) : (h.updTally i f).trust = h.trust := rfl
@[simp] theorem updTally_power (h : Hall) (i : Nat) (f : Tally → Tally) : (h.updTally i f).power = h.power := rfl
@[simp] theorem updTally_mgmt (h : Hall) (i : Nat) (f : Tally → Tally) : (h.updTally i f).mgmt = h.mgmt := rfl
@[simp] theorem updTally_watPlain (h : Hall) (i : Nat) (f : Tally → Tally) : (h.updTally i f).watPlain = h.watPlain := rfl
@[simp] theorem updTally_freeCtr (h : Hall) (i : Nat) (f : Tally → Tally) : (h.updTally i f).freeCtr = h.freeCtr := rfl
@[simp] theorem updTally_regs (h : Hall) (i : Nat) (f : Tally → Tally) : (h.updTally i f).regs = h.regs := rfl

@[simp] theorem updQue_mem (h : Hall) (i : Nat) (f : Que → Que) : (h.updQue i f).mem = h.mem := rfl
@[simp] theorem updQue_outs (h : Hall) (i : Nat) (f : Que → Que) : (h.updQue i f).outs = h.outs := rfl
@[simp] theorem updQue_junctionA (h : Hall) (i : Nat) (f : Que → Que) : (h.updQue i f).junctionA = h.junctionA := rfl
@[simp] theorem updQue_junctionB (h : Hall) (i : Nat) (f : Que → Que) : (h.updQue i f).junctionB = h.junctionB := rfl
@[simp] theorem updQue_portA (h : Hall) (i : Nat) (f : Que → Que) : (h.updQue i f).portA = h.portA := rfl
@[simp] theorem updQue_portB (h : Hall) (i : Nat) (f : Que → Que) : (h.updQue i f).portB = h.portB := rfl
@[simp] theorem updQue_data (h : Hall) (i : Nat) (f : Que → Que) : (h.updQue i f).data = h.data := rfl
@[simp] theorem updQue_checks (h : Hall) (i : Nat) (f : Que → Que) : (h.updQue i f).checks = h.checks := rfl
@[simp] theorem updQue_tiers (h : Hall) (i : Nat) (f : Que → Que) : (h.updQue i f).tiers = h.tiers := rfl
@[simp] theorem updQue_weights (h : Hall) (i : Nat) (f : Que → Que) : (h.updQue i f).weights = h.weights := rfl
@[simp] theorem updQue_avail (h : Hall) (i : Nat) (f : Que → Que) : (h.updQue i f).avail = h.avail := rfl
@[simp] theorem updQue_ingress (h : Hall) (i : Nat) (f : Que → Que) : (h.updQue i f).ingress = h.ingress := rfl
@[simp] theorem updQue_nbrs (h : Hall) (i : Nat) (f : Que → Que) : (h.updQue i f).nbrs = h.nbrs := rfl
@[simp] theorem updQue_trust (h : Hall) (i : Nat) (f : Que → Que) : (h.updQue i f).trust = h.trust := rfl
@[simp] theorem updQue_power (h : Hall) (i : Nat) (f : Que → Que) : (h.updQue i f).power = h.power := rfl
@[simp] theorem updQue_mgmt (h : Hall) (i : Nat) (f : Que → Que) : (h.updQue i f).mgmt = h.mgmt := rfl
@[simp] theorem updQue_watPlain (h : Hall) (i : Nat) (f : Que → Que) : (h.updQue i f).watPlain = h.watPlain := rfl
@[simp] theorem updQue_freeCtr (h : Hall) (i : Nat) (f : Que → Que) : (h.updQue i f).freeCtr = h.freeCtr := rfl
@[simp] theorem updQue_regs (h : Hall) (i : Nat) (f : Que → Que) : (h.updQue i f).regs = h.regs := rfl

@[simp] theorem updTill_mem (h : Hall) (i : Nat) (f : Till → Till) : (h.updTill i f).mem = h.mem := rfl
@[simp] theorem updTill_outs (h : Hall) (i : Nat) (f : Till → Till) : (h.updTill i f).outs = h.outs := rfl
@[simp] theorem updTill_junctionA (h : Hall) (i : Nat) (f : Till → Till) : (h.updTill i f).junctionA = h.junctionA := rfl
@[simp] theorem updTill_junctionB (h : Hall) (i : Nat) (f : Till → Till) : (h.updTill i f).junctionB = h.junctionB := rfl
@[simp] theorem updTill_portA (h : Hall) (i : Nat) (f : Till → Till) : (h.updTill i f).portA = h.portA := rfl
@[simp] theorem updTill_portB (h : Hall) (i : Nat) (f : Till → Till) : (h.updTill i f).portB = h.portB := rfl
@[simp] theorem updTill_data (h : Hall) (i : Nat) (f : Till → Till) : (h.updTill i f).data = h.data := rfl
@[simp] theorem updTill_checks (h : Hall) (i : Nat) (f : Till → Till) : (h.updTill i f).checks = h.checks := rfl
@[simp] theorem updTill_tiers (h : Hall) (i : Nat) (f : Till → Till) : (h.updTill i f).tiers = h.tiers := rfl
@[simp] theorem updTill_weights (h : Hall) (i : Nat) (f : Till → Till) : (h.updTill i f).weights = h.weights := rfl
@[simp] theorem updTill_avail (h : Hall) (i : Nat) (f : Till → Till) : (h.updTill i f).avail = h.avail := rfl
@[simp] theorem updTill_ingress (h : Hall) (i : Nat) (f : Till → Till) : (h.updTill i f).ingress = h.ingress := rfl
@[simp] theorem updTill_nbrs (h : Hall) (i : Nat) (f : Till → Till) : (h.updTill i f).nbrs = h.nbrs := rfl
@[simp] theorem updTill_trust (h : Hall) (i : Nat) (f : Till → Till) : (h.updTill i f).trust = h.trust := rfl
@[simp] theorem updTill_power (h : Hall) (i : Nat) (f : Till → Till) : (h.updTill i f).power = h.power := rfl
@[simp] theorem updTill_mgmt (h : Hall) (i : Nat) (f : Till → Till) : (h.updTill i f).mgmt = h.mgmt := rfl
@[simp] theorem updTill_watPlain (h : Hall) (i : Nat) (f : Till → Till) : (h.updTill i f).watPlain = h.watPlain := rfl
@[simp] theorem updTill_freeCtr (h : Hall) (i : Nat) (f : Till → Till) : (h.updTill i f).freeCtr = h.freeCtr := rfl
@[simp] theorem updTill_regs (h : Hall) (i : Nat) (f : Till → Till) : (h.updTill i f).regs = h.regs := rfl

@[simp] theorem updPen_mem (h : Hall) (i : Nat) (f : Pen → Pen) : (h.updPen i f).mem = h.mem := rfl
@[simp] theorem updPen_outs (h : Hall) (i : Nat) (f : Pen → Pen) : (h.updPen i f).outs = h.outs := rfl
@[simp] theorem updPen_junctionA (h : Hall) (i : Nat) (f : Pen → Pen) : (h.updPen i f).junctionA = h.junctionA := rfl
@[simp] theorem updPen_junctionB (h : Hall) (i : Nat) (f : Pen → Pen) : (h.updPen i f).junctionB = h.junctionB := rfl
@[simp] theorem updPen_portA (h : Hall) (i : Nat) (f : Pen → Pen) : (h.updPen i f).portA = h.portA := rfl
@[simp] theorem updPen_portB (h : Hall) (i : Nat) (f : Pen → Pen) : (h.updPen i f).portB = h.portB := rfl
@[simp] theorem updPen_cmd (h : Hall) (i : Nat) (f : Pen → Pen) : (h.updPen i f).cmd = h.cmd := rfl
@[simp] theorem updPen_data (h : Hall) (i : Nat) (f : Pen → Pen) : (h.updPen i f).data = h.data := rfl
@[simp] theorem updPen_checks (h : Hall) (i : Nat) (f : Pen → Pen) : (h.updPen i f).checks = h.checks := rfl
@[simp] theorem updPen_tiers (h : Hall) (i : Nat) (f : Pen → Pen) : (h.updPen i f).tiers = h.tiers := rfl
@[simp] theorem updPen_weights (h : Hall) (i : Nat) (f : Pen → Pen) : (h.updPen i f).weights = h.weights := rfl
@[simp] theorem updPen_ingress (h : Hall) (i : Nat) (f : Pen → Pen) : (h.updPen i f).ingress = h.ingress := rfl
@[simp] theorem updPen_nbrs (h : Hall) (i : Nat) (f : Pen → Pen) : (h.updPen i f).nbrs = h.nbrs := rfl
@[simp] theorem updPen_trust (h : Hall) (i : Nat) (f : Pen → Pen) : (h.updPen i f).trust = h.trust := rfl
@[simp] theorem updPen_power (h : Hall) (i : Nat) (f : Pen → Pen) : (h.updPen i f).power = h.power := rfl
@[simp] theorem updPen_mgmt (h : Hall) (i : Nat) (f : Pen → Pen) : (h.updPen i f).mgmt = h.mgmt := rfl
@[simp] theorem updPen_watPlain (h : Hall) (i : Nat) (f : Pen → Pen) : (h.updPen i f).watPlain = h.watPlain := rfl
@[simp] theorem updPen_freeCtr (h : Hall) (i : Nat) (f : Pen → Pen) : (h.updPen i f).freeCtr = h.freeCtr := rfl
@[simp] theorem updPen_regs (h : Hall) (i : Nat) (f : Pen → Pen) : (h.updPen i f).regs = h.regs := rfl

@[simp] theorem updArray_mem (h : Hall) (i : Nat) (f : NvArray → NvArray) : (h.updArray i f).mem = h.mem := rfl
@[simp] theorem updArray_outs (h : Hall) (i : Nat) (f : NvArray → NvArray) : (h.updArray i f).outs = h.outs := rfl
@[simp] theorem updArray_junctionA (h : Hall) (i : Nat) (f : NvArray → NvArray) : (h.updArray i f).junctionA = h.junctionA := rfl
@[simp] theorem updArray_junctionB (h : Hall) (i : Nat) (f : NvArray → NvArray) : (h.updArray i f).junctionB = h.junctionB := rfl
@[simp] theorem updArray_portA (h : Hall) (i : Nat) (f : NvArray → NvArray) : (h.updArray i f).portA = h.portA := rfl
@[simp] theorem updArray_portB (h : Hall) (i : Nat) (f : NvArray → NvArray) : (h.updArray i f).portB = h.portB := rfl
@[simp] theorem updArray_cmd (h : Hall) (i : Nat) (f : NvArray → NvArray) : (h.updArray i f).cmd = h.cmd := rfl
@[simp] theorem updArray_data (h : Hall) (i : Nat) (f : NvArray → NvArray) : (h.updArray i f).data = h.data := rfl
@[simp] theorem updArray_checks (h : Hall) (i : Nat) (f : NvArray → NvArray) : (h.updArray i f).checks = h.checks := rfl
@[simp] theorem updArray_tiers (h : Hall) (i : Nat) (f : NvArray → NvArray) : (h.updArray i f).tiers = h.tiers := rfl
@[simp] theorem updArray_avail (h : Hall) (i : Nat) (f : NvArray → NvArray) : (h.updArray i f).avail = h.avail := rfl
@[simp] theorem updArray_ingress (h : Hall) (i : Nat) (f : NvArray → NvArray) : (h.updArray i f).ingress = h.ingress := rfl
@[simp] theorem updArray_nbrs (h : Hall) (i : Nat) (f : NvArray → NvArray) : (h.updArray i f).nbrs = h.nbrs := rfl
@[simp] theorem updArray_trust (h : Hall) (i : Nat) (f : NvArray → NvArray) : (h.updArray i f).trust = h.trust := rfl
@[simp] theorem updArray_power (h : Hall) (i : Nat) (f : NvArray → NvArray) : (h.updArray i f).power = h.power := rfl
@[simp] theorem updArray_mgmt (h : Hall) (i : Nat) (f : NvArray → NvArray) : (h.updArray i f).mgmt = h.mgmt := rfl
@[simp] theorem updArray_watPlain (h : Hall) (i : Nat) (f : NvArray → NvArray) : (h.updArray i f).watPlain = h.watPlain := rfl
@[simp] theorem updArray_freeCtr (h : Hall) (i : Nat) (f : NvArray → NvArray) : (h.updArray i f).freeCtr = h.freeCtr := rfl
@[simp] theorem updArray_regs (h : Hall) (i : Nat) (f : NvArray → NvArray) : (h.updArray i f).regs = h.regs := rfl

@[simp] theorem updChan_mem (h : Hall) (i : Nat) (f : ChanSt → ChanSt) : (h.updChan i f).mem = h.mem := rfl
@[simp] theorem updChan_outs (h : Hall) (i : Nat) (f : ChanSt → ChanSt) : (h.updChan i f).outs = h.outs := rfl
@[simp] theorem updChan_junctionA (h : Hall) (i : Nat) (f : ChanSt → ChanSt) : (h.updChan i f).junctionA = h.junctionA := rfl
@[simp] theorem updChan_junctionB (h : Hall) (i : Nat) (f : ChanSt → ChanSt) : (h.updChan i f).junctionB = h.junctionB := rfl
@[simp] theorem updChan_portA (h : Hall) (i : Nat) (f : ChanSt → ChanSt) : (h.updChan i f).portA = h.portA := rfl
@[simp] theorem updChan_portB (h : Hall) (i : Nat) (f : ChanSt → ChanSt) : (h.updChan i f).portB = h.portB := rfl
@[simp] theorem updChan_cmd (h : Hall) (i : Nat) (f : ChanSt → ChanSt) : (h.updChan i f).cmd = h.cmd := rfl
@[simp] theorem updChan_data (h : Hall) (i : Nat) (f : ChanSt → ChanSt) : (h.updChan i f).data = h.data := rfl
@[simp] theorem updChan_checks (h : Hall) (i : Nat) (f : ChanSt → ChanSt) : (h.updChan i f).checks = h.checks := rfl
@[simp] theorem updChan_weights (h : Hall) (i : Nat) (f : ChanSt → ChanSt) : (h.updChan i f).weights = h.weights := rfl
@[simp] theorem updChan_avail (h : Hall) (i : Nat) (f : ChanSt → ChanSt) : (h.updChan i f).avail = h.avail := rfl
@[simp] theorem updChan_ingress (h : Hall) (i : Nat) (f : ChanSt → ChanSt) : (h.updChan i f).ingress = h.ingress := rfl
@[simp] theorem updChan_nbrs (h : Hall) (i : Nat) (f : ChanSt → ChanSt) : (h.updChan i f).nbrs = h.nbrs := rfl
@[simp] theorem updChan_trust (h : Hall) (i : Nat) (f : ChanSt → ChanSt) : (h.updChan i f).trust = h.trust := rfl
@[simp] theorem updChan_power (h : Hall) (i : Nat) (f : ChanSt → ChanSt) : (h.updChan i f).power = h.power := rfl
@[simp] theorem updChan_mgmt (h : Hall) (i : Nat) (f : ChanSt → ChanSt) : (h.updChan i f).mgmt = h.mgmt := rfl
@[simp] theorem updChan_watPlain (h : Hall) (i : Nat) (f : ChanSt → ChanSt) : (h.updChan i f).watPlain = h.watPlain := rfl
@[simp] theorem updChan_freeCtr (h : Hall) (i : Nat) (f : ChanSt → ChanSt) : (h.updChan i f).freeCtr = h.freeCtr := rfl
@[simp] theorem updChan_regs (h : Hall) (i : Nat) (f : ChanSt → ChanSt) : (h.updChan i f).regs = h.regs := rfl


@[simp] theorem writeLine_outs (h : Hall) (l o : Nat) (p : Payload) : (h.writeLine l o p).outs = h.outs := by
  unfold Hall.writeLine; split <;> rfl
@[simp] theorem writeLine_junctionA (h : Hall) (l o : Nat) (p : Payload) : (h.writeLine l o p).junctionA = h.junctionA := by
  unfold Hall.writeLine; split <;> rfl
@[simp] theorem writeLine_junctionB (h : Hall) (l o : Nat) (p : Payload) : (h.writeLine l o p).junctionB = h.junctionB := by
  unfold Hall.writeLine; split <;> rfl
@[simp] theorem writeLine_portA (h : Hall) (l o : Nat) (p : Payload) : (h.writeLine l o p).portA = h.portA := by
  unfold Hall.writeLine; split <;> rfl
@[simp] theorem writeLine_portB (h : Hall) (l o : Nat) (p : Payload) : (h.writeLine l o p).portB = h.portB := by
  unfold Hall.writeLine; split <;> rfl
@[simp] theorem writeLine_cmd (h : Hall) (l o : Nat) (p : Payload) : (h.writeLine l o p).cmd = h.cmd := by
  unfold Hall.writeLine; split <;> rfl
@[simp] theorem writeLine_data (h : Hall) (l o : Nat) (p : Payload) : (h.writeLine l o p).data = h.data := by
  unfold Hall.writeLine; split <;> rfl
@[simp] theorem writeLine_checks (h : Hall) (l o : Nat) (p : Payload) : (h.writeLine l o p).checks = h.checks := by
  unfold Hall.writeLine; split <;> rfl
@[simp] theorem writeLine_tiers (h : Hall) (l o : Nat) (p : Payload) : (h.writeLine l o p).tiers = h.tiers := by
  unfold Hall.writeLine; split <;> rfl
@[simp] theorem writeLine_weights (h : Hall) (l o : Nat) (p : Payload) : (h.writeLine l o p).weights = h.weights := by
  unfold Hall.writeLine; split <;> rfl
@[simp] theorem writeLine_avail (h : Hall) (l o : Nat) (p : Payload) : (h.writeLine l o p).avail = h.avail := by
  unfold Hall.writeLine; split <;> rfl
@[simp] theorem writeLine_ingress (h : Hall) (l o : Nat) (p : Payload) : (h.writeLine l o p).ingress = h.ingress := by
  unfold Hall.writeLine; split <;> rfl
@[simp] theorem writeLine_nbrs (h : Hall) (l o : Nat) (p : Payload) : (h.writeLine l o p).nbrs = h.nbrs := by
  unfold Hall.writeLine; split <;> rfl
@[simp] theorem writeLine_trust (h : Hall) (l o : Nat) (p : Payload) : (h.writeLine l o p).trust = h.trust := by
  unfold Hall.writeLine; split <;> rfl
@[simp] theorem writeLine_power (h : Hall) (l o : Nat) (p : Payload) : (h.writeLine l o p).power = h.power := by
  unfold Hall.writeLine; split <;> rfl
@[simp] theorem writeLine_mgmt (h : Hall) (l o : Nat) (p : Payload) : (h.writeLine l o p).mgmt = h.mgmt := by
  unfold Hall.writeLine; split <;> rfl
@[simp] theorem writeLine_watPlain (h : Hall) (l o : Nat) (p : Payload) : (h.writeLine l o p).watPlain = h.watPlain := by
  unfold Hall.writeLine; split <;> rfl
@[simp] theorem writeLine_freeCtr (h : Hall) (l o : Nat) (p : Payload) : (h.writeLine l o p).freeCtr = h.freeCtr := by
  unfold Hall.writeLine; split <;> rfl
@[simp] theorem writeLine_regs (h : Hall) (l o : Nat) (p : Payload) : (h.writeLine l o p).regs = h.regs := by
  unfold Hall.writeLine; split <;> rfl
@[simp] theorem writeRam_outs (h : Hall) (a : Nat) (p : Payload) : (h.writeRam a p).outs = h.outs := by
  unfold Hall.writeRam; exact foldl_same (fun x : Hall => x.outs) _ (fun _ _ => writeLine_outs _ _ _ _) _ h
@[simp] theorem writeRam_junctionA (h : Hall) (a : Nat) (p : Payload) : (h.writeRam a p).junctionA = h.junctionA := by
  unfold Hall.writeRam; exact foldl_same (fun x : Hall => x.junctionA) _ (fun _ _ => writeLine_junctionA _ _ _ _) _ h
@[simp] theorem writeRam_junctionB (h : Hall) (a : Nat) (p : Payload) : (h.writeRam a p).junctionB = h.junctionB := by
  unfold Hall.writeRam; exact foldl_same (fun x : Hall => x.junctionB) _ (fun _ _ => writeLine_junctionB _ _ _ _) _ h
@[simp] theorem writeRam_portA (h : Hall) (a : Nat) (p : Payload) : (h.writeRam a p).portA = h.portA := by
  unfold Hall.writeRam; exact foldl_same (fun x : Hall => x.portA) _ (fun _ _ => writeLine_portA _ _ _ _) _ h
@[simp] theorem writeRam_portB (h : Hall) (a : Nat) (p : Payload) : (h.writeRam a p).portB = h.portB := by
  unfold Hall.writeRam; exact foldl_same (fun x : Hall => x.portB) _ (fun _ _ => writeLine_portB _ _ _ _) _ h
@[simp] theorem writeRam_cmd (h : Hall) (a : Nat) (p : Payload) : (h.writeRam a p).cmd = h.cmd := by
  unfold Hall.writeRam; exact foldl_same (fun x : Hall => x.cmd) _ (fun _ _ => writeLine_cmd _ _ _ _) _ h
@[simp] theorem writeRam_data (h : Hall) (a : Nat) (p : Payload) : (h.writeRam a p).data = h.data := by
  unfold Hall.writeRam; exact foldl_same (fun x : Hall => x.data) _ (fun _ _ => writeLine_data _ _ _ _) _ h
@[simp] theorem writeRam_checks (h : Hall) (a : Nat) (p : Payload) : (h.writeRam a p).checks = h.checks := by
  unfold Hall.writeRam; exact foldl_same (fun x : Hall => x.checks) _ (fun _ _ => writeLine_checks _ _ _ _) _ h
@[simp] theorem writeRam_tiers (h : Hall) (a : Nat) (p : Payload) : (h.writeRam a p).tiers = h.tiers := by
  unfold Hall.writeRam; exact foldl_same (fun x : Hall => x.tiers) _ (fun _ _ => writeLine_tiers _ _ _ _) _ h
@[simp] theorem writeRam_weights (h : Hall) (a : Nat) (p : Payload) : (h.writeRam a p).weights = h.weights := by
  unfold Hall.writeRam; exact foldl_same (fun x : Hall => x.weights) _ (fun _ _ => writeLine_weights _ _ _ _) _ h
@[simp] theorem writeRam_avail (h : Hall) (a : Nat) (p : Payload) : (h.writeRam a p).avail = h.avail := by
  unfold Hall.writeRam; exact foldl_same (fun x : Hall => x.avail) _ (fun _ _ => writeLine_avail _ _ _ _) _ h
@[simp] theorem writeRam_ingress (h : Hall) (a : Nat) (p : Payload) : (h.writeRam a p).ingress = h.ingress := by
  unfold Hall.writeRam; exact foldl_same (fun x : Hall => x.ingress) _ (fun _ _ => writeLine_ingress _ _ _ _) _ h
@[simp] theorem writeRam_nbrs (h : Hall) (a : Nat) (p : Payload) : (h.writeRam a p).nbrs = h.nbrs := by
  unfold Hall.writeRam; exact foldl_same (fun x : Hall => x.nbrs) _ (fun _ _ => writeLine_nbrs _ _ _ _) _ h
@[simp] theorem writeRam_trust (h : Hall) (a : Nat) (p : Payload) : (h.writeRam a p).trust = h.trust := by
  unfold Hall.writeRam; exact foldl_same (fun x : Hall => x.trust) _ (fun _ _ => writeLine_trust _ _ _ _) _ h
@[simp] theorem writeRam_power (h : Hall) (a : Nat) (p : Payload) : (h.writeRam a p).power = h.power := by
  unfold Hall.writeRam; exact foldl_same (fun x : Hall => x.power) _ (fun _ _ => writeLine_power _ _ _ _) _ h
@[simp] theorem writeRam_mgmt (h : Hall) (a : Nat) (p : Payload) : (h.writeRam a p).mgmt = h.mgmt := by
  unfold Hall.writeRam; exact foldl_same (fun x : Hall => x.mgmt) _ (fun _ _ => writeLine_mgmt _ _ _ _) _ h
@[simp] theorem writeRam_watPlain (h : Hall) (a : Nat) (p : Payload) : (h.writeRam a p).watPlain = h.watPlain := by
  unfold Hall.writeRam; exact foldl_same (fun x : Hall => x.watPlain) _ (fun _ _ => writeLine_watPlain _ _ _ _) _ h
@[simp] theorem writeRam_freeCtr (h : Hall) (a : Nat) (p : Payload) : (h.writeRam a p).freeCtr = h.freeCtr := by
  unfold Hall.writeRam; exact foldl_same (fun x : Hall => x.freeCtr) _ (fun _ _ => writeLine_freeCtr _ _ _ _) _ h
@[simp] theorem writeRam_regs (h : Hall) (a : Nat) (p : Payload) : (h.writeRam a p).regs = h.regs := by
  unfold Hall.writeRam; exact foldl_same (fun x : Hall => x.regs) _ (fun _ _ => writeLine_regs _ _ _ _) _ h
@[simp] theorem writeBytes_outs (h : Hall) (a : Nat) (bs : Bytes) : (h.writeBytes a bs).outs = h.outs := writeRam_outs h a _
@[simp] theorem writeBytes_junctionA (h : Hall) (a : Nat) (bs : Bytes) : (h.writeBytes a bs).junctionA = h.junctionA := writeRam_junctionA h a _
@[simp] theorem writeBytes_junctionB (h : Hall) (a : Nat) (bs : Bytes) : (h.writeBytes a bs).junctionB = h.junctionB := writeRam_junctionB h a _
@[simp] theorem writeBytes_portA (h : Hall) (a : Nat) (bs : Bytes) : (h.writeBytes a bs).portA = h.portA := writeRam_portA h a _
@[simp] theorem writeBytes_portB (h : Hall) (a : Nat) (bs : Bytes) : (h.writeBytes a bs).portB = h.portB := writeRam_portB h a _
@[simp] theorem writeBytes_cmd (h : Hall) (a : Nat) (bs : Bytes) : (h.writeBytes a bs).cmd = h.cmd := writeRam_cmd h a _
@[simp] theorem writeBytes_data (h : Hall) (a : Nat) (bs : Bytes) : (h.writeBytes a bs).data = h.data := writeRam_data h a _
@[simp] theorem writeBytes_checks (h : Hall) (a : Nat) (bs : Bytes) : (h.writeBytes a bs).checks = h.checks := writeRam_checks h a _
@[simp] theorem writeBytes_tiers (h : Hall) (a : Nat) (bs : Bytes) : (h.writeBytes a bs).tiers = h.tiers := writeRam_tiers h a _
@[simp] theorem writeBytes_weights (h : Hall) (a : Nat) (bs : Bytes) : (h.writeBytes a bs).weights = h.weights := writeRam_weights h a _
@[simp] theorem writeBytes_avail (h : Hall) (a : Nat) (bs : Bytes) : (h.writeBytes a bs).avail = h.avail := writeRam_avail h a _
@[simp] theorem writeBytes_ingress (h : Hall) (a : Nat) (bs : Bytes) : (h.writeBytes a bs).ingress = h.ingress := writeRam_ingress h a _
@[simp] theorem writeBytes_nbrs (h : Hall) (a : Nat) (bs : Bytes) : (h.writeBytes a bs).nbrs = h.nbrs := writeRam_nbrs h a _
@[simp] theorem writeBytes_trust (h : Hall) (a : Nat) (bs : Bytes) : (h.writeBytes a bs).trust = h.trust := writeRam_trust h a _
@[simp] theorem writeBytes_power (h : Hall) (a : Nat) (bs : Bytes) : (h.writeBytes a bs).power = h.power := writeRam_power h a _
@[simp] theorem writeBytes_mgmt (h : Hall) (a : Nat) (bs : Bytes) : (h.writeBytes a bs).mgmt = h.mgmt := writeRam_mgmt h a _
@[simp] theorem writeBytes_watPlain (h : Hall) (a : Nat) (bs : Bytes) : (h.writeBytes a bs).watPlain = h.watPlain := writeRam_watPlain h a _
@[simp] theorem writeBytes_freeCtr (h : Hall) (a : Nat) (bs : Bytes) : (h.writeBytes a bs).freeCtr = h.freeCtr := writeRam_freeCtr h a _
@[simp] theorem writeBytes_regs (h : Hall) (a : Nat) (bs : Bytes) : (h.writeBytes a bs).regs = h.regs := writeRam_regs h a _
@[simp] theorem hostStores_outs (h : Hall) (l : List HostStore) : (h.hostStores l).outs = h.outs := by
  unfold Hall.hostStores; apply foldl_same (fun x : Hall => x.outs); intros; rfl
@[simp] theorem hostStores_junctionA (h : Hall) (l : List HostStore) : (h.hostStores l).junctionA = h.junctionA := by
  unfold Hall.hostStores; apply foldl_same (fun x : Hall => x.junctionA); intros; rfl
@[simp] theorem hostStores_junctionB (h : Hall) (l : List HostStore) : (h.hostStores l).junctionB = h.junctionB := by
  unfold Hall.hostStores; apply foldl_same (fun x : Hall => x.junctionB); intros; rfl
@[simp] theorem hostStores_portA (h : Hall) (l : List HostStore) : (h.hostStores l).portA = h.portA := by
  unfold Hall.hostStores; apply foldl_same (fun x : Hall => x.portA); intros; rfl
@[simp] theorem hostStores_portB (h : Hall) (l : List HostStore) : (h.hostStores l).portB = h.portB := by
  unfold Hall.hostStores; apply foldl_same (fun x : Hall => x.portB); intros; rfl
@[simp] theorem hostStores_cmd (h : Hall) (l : List HostStore) : (h.hostStores l).cmd = h.cmd := by
  unfold Hall.hostStores; apply foldl_same (fun x : Hall => x.cmd); intros; rfl
@[simp] theorem hostStores_data (h : Hall) (l : List HostStore) : (h.hostStores l).data = h.data := by
  unfold Hall.hostStores; apply foldl_same (fun x : Hall => x.data); intros; rfl
@[simp] theorem hostStores_checks (h : Hall) (l : List HostStore) : (h.hostStores l).checks = h.checks := by
  unfold Hall.hostStores; apply foldl_same (fun x : Hall => x.checks); intros; rfl
@[simp] theorem hostStores_tiers (h : Hall) (l : List HostStore) : (h.hostStores l).tiers = h.tiers := by
  unfold Hall.hostStores; apply foldl_same (fun x : Hall => x.tiers); intros; rfl
@[simp] theorem hostStores_weights (h : Hall) (l : List HostStore) : (h.hostStores l).weights = h.weights := by
  unfold Hall.hostStores; apply foldl_same (fun x : Hall => x.weights); intros; rfl
@[simp] theorem hostStores_avail (h : Hall) (l : List HostStore) : (h.hostStores l).avail = h.avail := by
  unfold Hall.hostStores; apply foldl_same (fun x : Hall => x.avail); intros; rfl
@[simp] theorem hostStores_ingress (h : Hall) (l : List HostStore) : (h.hostStores l).ingress = h.ingress := by
  unfold Hall.hostStores; apply foldl_same (fun x : Hall => x.ingress); intros; rfl
@[simp] theorem hostStores_nbrs (h : Hall) (l : List HostStore) : (h.hostStores l).nbrs = h.nbrs := by
  unfold Hall.hostStores; apply foldl_same (fun x : Hall => x.nbrs); intros; rfl
@[simp] theorem hostStores_trust (h : Hall) (l : List HostStore) : (h.hostStores l).trust = h.trust := by
  unfold Hall.hostStores; apply foldl_same (fun x : Hall => x.trust); intros; rfl
@[simp] theorem hostStores_power (h : Hall) (l : List HostStore) : (h.hostStores l).power = h.power := by
  unfold Hall.hostStores; apply foldl_same (fun x : Hall => x.power); intros; rfl
@[simp] theorem hostStores_mgmt (h : Hall) (l : List HostStore) : (h.hostStores l).mgmt = h.mgmt := by
  unfold Hall.hostStores; apply foldl_same (fun x : Hall => x.mgmt); intros; rfl
@[simp] theorem hostStores_watPlain (h : Hall) (l : List HostStore) : (h.hostStores l).watPlain = h.watPlain := by
  unfold Hall.hostStores; apply foldl_same (fun x : Hall => x.watPlain); intros; rfl
@[simp] theorem hostStores_freeCtr (h : Hall) (l : List HostStore) : (h.hostStores l).freeCtr = h.freeCtr := by
  unfold Hall.hostStores; apply foldl_same (fun x : Hall => x.freeCtr); intros; rfl
@[simp] theorem hostStores_regs (h : Hall) (l : List HostStore) : (h.hostStores l).regs = h.regs := by
  unfold Hall.hostStores; apply foldl_same (fun x : Hall => x.regs); intros; rfl

@[simp] theorem bump_mem (h : Hall) (c : Ctr) (u k : Nat) : (h.bump c u k).mem = h.mem := by
  unfold Hall.bump; simp only; split <;> [rfl; split <;> rfl]
@[simp] theorem bump_outs (h : Hall) (c : Ctr) (u k : Nat) : (h.bump c u k).outs = h.outs := by
  unfold Hall.bump; simp only; split <;> [rfl; split <;> rfl]
@[simp] theorem bump_junctionA (h : Hall) (c : Ctr) (u k : Nat) : (h.bump c u k).junctionA = h.junctionA := by
  unfold Hall.bump; simp only; split <;> [rfl; split <;> rfl]
@[simp] theorem bump_junctionB (h : Hall) (c : Ctr) (u k : Nat) : (h.bump c u k).junctionB = h.junctionB := by
  unfold Hall.bump; simp only; split <;> [rfl; split <;> rfl]
@[simp] theorem bump_portA (h : Hall) (c : Ctr) (u k : Nat) : (h.bump c u k).portA = h.portA := by
  unfold Hall.bump; simp only; split <;> [rfl; split <;> rfl]
@[simp] theorem bump_portB (h : Hall) (c : Ctr) (u k : Nat) : (h.bump c u k).portB = h.portB := by
  unfold Hall.bump; simp only; split <;> [rfl; split <;> rfl]
@[simp] theorem bump_cmd (h : Hall) (c : Ctr) (u k : Nat) : (h.bump c u k).cmd = h.cmd := by
  unfold Hall.bump; simp only; split <;> [rfl; split <;> rfl]
@[simp] theorem bump_data (h : Hall) (c : Ctr) (u k : Nat) : (h.bump c u k).data = h.data := by
  unfold Hall.bump; simp only; split <;> [rfl; split <;> rfl]
@[simp] theorem bump_checks (h : Hall) (c : Ctr) (u k : Nat) : (h.bump c u k).checks = h.checks := by
  unfold Hall.bump; simp only; split <;> [rfl; split <;> rfl]
@[simp] theorem bump_tiers (h : Hall) (c : Ctr) (u k : Nat) : (h.bump c u k).tiers = h.tiers := by
  unfold Hall.bump; simp only; split <;> [rfl; split <;> rfl]
@[simp] theorem bump_weights (h : Hall) (c : Ctr) (u k : Nat) : (h.bump c u k).weights = h.weights := by
  unfold Hall.bump; simp only; split <;> [rfl; split <;> rfl]
@[simp] theorem bump_avail (h : Hall) (c : Ctr) (u k : Nat) : (h.bump c u k).avail = h.avail := by
  unfold Hall.bump; simp only; split <;> [rfl; split <;> rfl]
@[simp] theorem bump_ingress (h : Hall) (c : Ctr) (u k : Nat) : (h.bump c u k).ingress = h.ingress := by
  unfold Hall.bump; simp only; split <;> [rfl; split <;> rfl]
@[simp] theorem bump_nbrs (h : Hall) (c : Ctr) (u k : Nat) : (h.bump c u k).nbrs = h.nbrs := by
  unfold Hall.bump; simp only; split <;> [rfl; split <;> rfl]
@[simp] theorem bump_trust (h : Hall) (c : Ctr) (u k : Nat) : (h.bump c u k).trust = h.trust := by
  unfold Hall.bump; simp only; split <;> [rfl; split <;> rfl]
@[simp] theorem bump_power (h : Hall) (c : Ctr) (u k : Nat) : (h.bump c u k).power = h.power := by
  unfold Hall.bump; simp only; split <;> [rfl; split <;> rfl]
@[simp] theorem bump_mgmt (h : Hall) (c : Ctr) (u k : Nat) : (h.bump c u k).mgmt = h.mgmt := by
  unfold Hall.bump; simp only; split <;> [rfl; split <;> rfl]
@[simp] theorem bump_watPlain (h : Hall) (c : Ctr) (u k : Nat) : (h.bump c u k).watPlain = h.watPlain := by
  unfold Hall.bump; simp only; split <;> [rfl; split <;> rfl]
@[simp] theorem bump_freeCtr (h : Hall) (c : Ctr) (u k : Nat) : (h.bump c u k).freeCtr = h.freeCtr := by
  unfold Hall.bump; simp only; split <;> [rfl; split <;> rfl]

@[simp] theorem setFs_mem (l : List (Fld × Nat)) (h : Hall) (u : Nat) : (h.setFs u l).mem = h.mem := by
  induction l generalizing h with
  | nil => rfl
  | cons x rest ih => exact ih _
@[simp] theorem setFs_outs (l : List (Fld × Nat)) (h : Hall) (u : Nat) : (h.setFs u l).outs = h.outs := by
  induction l generalizing h with
  | nil => rfl
  | cons x rest ih => exact ih _
@[simp] theorem setFs_junctionA (l : List (Fld × Nat)) (h : Hall) (u : Nat) : (h.setFs u l).junctionA = h.junctionA := by
  induction l generalizing h with
  | nil => rfl
  | cons x rest ih => exact ih _
@[simp] theorem setFs_junctionB (l : List (Fld × Nat)) (h : Hall) (u : Nat) : (h.setFs u l).junctionB = h.junctionB := by
  induction l generalizing h with
  | nil => rfl
  | cons x rest ih => exact ih _
@[simp] theorem setFs_portA (l : List (Fld × Nat)) (h : Hall) (u : Nat) : (h.setFs u l).portA = h.portA := by
  induction l generalizing h with
  | nil => rfl
  | cons x rest ih => exact ih _
@[simp] theorem setFs_portB (l : List (Fld × Nat)) (h : Hall) (u : Nat) : (h.setFs u l).portB = h.portB := by
  induction l generalizing h with
  | nil => rfl
  | cons x rest ih => exact ih _
@[simp] theorem setFs_cmd (l : List (Fld × Nat)) (h : Hall) (u : Nat) : (h.setFs u l).cmd = h.cmd := by
  induction l generalizing h with
  | nil => rfl
  | cons x rest ih => exact ih _
@[simp] theorem setFs_data (l : List (Fld × Nat)) (h : Hall) (u : Nat) : (h.setFs u l).data = h.data := by
  induction l generalizing h with
  | nil => rfl
  | cons x rest ih => exact ih _
@[simp] theorem setFs_checks (l : List (Fld × Nat)) (h : Hall) (u : Nat) : (h.setFs u l).checks = h.checks := by
  induction l generalizing h with
  | nil => rfl
  | cons x rest ih => exact ih _
@[simp] theorem setFs_tiers (l : List (Fld × Nat)) (h : Hall) (u : Nat) : (h.setFs u l).tiers = h.tiers := by
  induction l generalizing h with
  | nil => rfl
  | cons x rest ih => exact ih _
@[simp] theorem setFs_weights (l : List (Fld × Nat)) (h : Hall) (u : Nat) : (h.setFs u l).weights = h.weights := by
  induction l generalizing h with
  | nil => rfl
  | cons x rest ih => exact ih _
@[simp] theorem setFs_avail (l : List (Fld × Nat)) (h : Hall) (u : Nat) : (h.setFs u l).avail = h.avail := by
  induction l generalizing h with
  | nil => rfl
  | cons x rest ih => exact ih _
@[simp] theorem setFs_ingress (l : List (Fld × Nat)) (h : Hall) (u : Nat) : (h.setFs u l).ingress = h.ingress := by
  induction l generalizing h with
  | nil => rfl
  | cons x rest ih => exact ih _
@[simp] theorem setFs_nbrs (l : List (Fld × Nat)) (h : Hall) (u : Nat) : (h.setFs u l).nbrs = h.nbrs := by
  induction l generalizing h with
  | nil => rfl
  | cons x rest ih => exact ih _
@[simp] theorem setFs_trust (l : List (Fld × Nat)) (h : Hall) (u : Nat) : (h.setFs u l).trust = h.trust := by
  induction l generalizing h with
  | nil => rfl
  | cons x rest ih => exact ih _
@[simp] theorem setFs_power (l : List (Fld × Nat)) (h : Hall) (u : Nat) : (h.setFs u l).power = h.power := by
  induction l generalizing h with
  | nil => rfl
  | cons x rest ih => exact ih _
@[simp] theorem setFs_mgmt (l : List (Fld × Nat)) (h : Hall) (u : Nat) : (h.setFs u l).mgmt = h.mgmt := by
  induction l generalizing h with
  | nil => rfl
  | cons x rest ih => exact ih _
@[simp] theorem setFs_watPlain (l : List (Fld × Nat)) (h : Hall) (u : Nat) : (h.setFs u l).watPlain = h.watPlain := by
  induction l generalizing h with
  | nil => rfl
  | cons x rest ih => exact ih _
@[simp] theorem setFs_freeCtr (l : List (Fld × Nat)) (h : Hall) (u : Nat) : (h.setFs u l).freeCtr = h.freeCtr := by
  induction l generalizing h with
  | nil => rfl
  | cons x rest ih => exact ih _

@[simp] theorem clearFs_mem (l : List Fld) (h : Hall) (u : Nat) : (h.clearFs u l).mem = h.mem := by
  induction l generalizing h with
  | nil => rfl
  | cons x rest ih => exact ih _
@[simp] theorem clearFs_outs (l : List Fld) (h : Hall) (u : Nat) : (h.clearFs u l).outs = h.outs := by
  induction l generalizing h with
  | nil => rfl
  | cons x rest ih => exact ih _
@[simp] theorem clearFs_junctionA (l : List Fld) (h : Hall) (u : Nat) : (h.clearFs u l).junctionA = h.junctionA := by
  induction l generalizing h with
  | nil => rfl
  | cons x rest ih => exact ih _
@[simp] theorem clearFs_junctionB (l : List Fld) (h : Hall) (u : Nat) : (h.clearFs u l).junctionB = h.junctionB := by
  induction l generalizing h with
  | nil => rfl
  | cons x rest ih => exact ih _
@[simp] theorem clearFs_portA (l : List Fld) (h : Hall) (u : Nat) : (h.clearFs u l).portA = h.portA := by
  induction l generalizing h with
  | nil => rfl
  | cons x rest ih => exact ih _
@[simp] theorem clearFs_portB (l : List Fld) (h : Hall) (u : Nat) : (h.clearFs u l).portB = h.portB := by
  induction l generalizing h with
  | nil => rfl
  | cons x rest ih => exact ih _
@[simp] theorem clearFs_cmd (l : List Fld) (h : Hall) (u : Nat) : (h.clearFs u l).cmd = h.cmd := by
  induction l generalizing h with
  | nil => rfl
  | cons x rest ih => exact ih _
@[simp] theorem clearFs_data (l : List Fld) (h : Hall) (u : Nat) : (h.clearFs u l).data = h.data := by
  induction l generalizing h with
  | nil => rfl
  | cons x rest ih => exact ih _
@[simp] theorem clearFs_checks (l : List Fld) (h : Hall) (u : Nat) : (h.clearFs u l).checks = h.checks := by
  induction l generalizing h with
  | nil => rfl
  | cons x rest ih => exact ih _
@[simp] theorem clearFs_tiers (l : List Fld) (h : Hall) (u : Nat) : (h.clearFs u l).tiers = h.tiers := by
  induction l generalizing h with
  | nil => rfl
  | cons x rest ih => exact ih _
@[simp] theorem clearFs_weights (l : List Fld) (h : Hall) (u : Nat) : (h.clearFs u l).weights = h.weights := by
  induction l generalizing h with
  | nil => rfl
  | cons x rest ih => exact ih _
@[simp] theorem clearFs_avail (l : List Fld) (h : Hall) (u : Nat) : (h.clearFs u l).avail = h.avail := by
  induction l generalizing h with
  | nil => rfl
  | cons x rest ih => exact ih _
@[simp] theorem clearFs_ingress (l : List Fld) (h : Hall) (u : Nat) : (h.clearFs u l).ingress = h.ingress := by
  induction l generalizing h with
  | nil => rfl
  | cons x rest ih => exact ih _
@[simp] theorem clearFs_nbrs (l : List Fld) (h : Hall) (u : Nat) : (h.clearFs u l).nbrs = h.nbrs := by
  induction l generalizing h with
  | nil => rfl
  | cons x rest ih => exact ih _
@[simp] theorem clearFs_trust (l : List Fld) (h : Hall) (u : Nat) : (h.clearFs u l).trust = h.trust := by
  induction l generalizing h with
  | nil => rfl
  | cons x rest ih => exact ih _
@[simp] theorem clearFs_power (l : List Fld) (h : Hall) (u : Nat) : (h.clearFs u l).power = h.power := by
  induction l generalizing h with
  | nil => rfl
  | cons x rest ih => exact ih _
@[simp] theorem clearFs_mgmt (l : List Fld) (h : Hall) (u : Nat) : (h.clearFs u l).mgmt = h.mgmt := by
  induction l generalizing h with
  | nil => rfl
  | cons x rest ih => exact ih _
@[simp] theorem clearFs_watPlain (l : List Fld) (h : Hall) (u : Nat) : (h.clearFs u l).watPlain = h.watPlain := by
  induction l generalizing h with
  | nil => rfl
  | cons x rest ih => exact ih _
@[simp] theorem clearFs_freeCtr (l : List Fld) (h : Hall) (u : Nat) : (h.clearFs u l).freeCtr = h.freeCtr := by
  induction l generalizing h with
  | nil => rfl
  | cons x rest ih => exact ih _

@[simp] theorem clearCtrs_mem (l : List Ctr) (h : Hall) (u : Nat) : (h.clearCtrs u l).mem = h.mem := by
  induction l generalizing h with
  | nil => rfl
  | cons x rest ih => exact ih _
@[simp] theorem clearCtrs_outs (l : List Ctr) (h : Hall) (u : Nat) : (h.clearCtrs u l).outs = h.outs := by
  induction l generalizing h with
  | nil => rfl
  | cons x rest ih => exact ih _
@[simp] theorem clearCtrs_junctionA (l : List Ctr) (h : Hall) (u : Nat) : (h.clearCtrs u l).junctionA = h.junctionA := by
  induction l generalizing h with
  | nil => rfl
  | cons x rest ih => exact ih _
@[simp] theorem clearCtrs_junctionB (l : List Ctr) (h : Hall) (u : Nat) : (h.clearCtrs u l).junctionB = h.junctionB := by
  induction l generalizing h with
  | nil => rfl
  | cons x rest ih => exact ih _
@[simp] theorem clearCtrs_portA (l : List Ctr) (h : Hall) (u : Nat) : (h.clearCtrs u l).portA = h.portA := by
  induction l generalizing h with
  | nil => rfl
  | cons x rest ih => exact ih _
@[simp] theorem clearCtrs_portB (l : List Ctr) (h : Hall) (u : Nat) : (h.clearCtrs u l).portB = h.portB := by
  induction l generalizing h with
  | nil => rfl
  | cons x rest ih => exact ih _
@[simp] theorem clearCtrs_cmd (l : List Ctr) (h : Hall) (u : Nat) : (h.clearCtrs u l).cmd = h.cmd := by
  induction l generalizing h with
  | nil => rfl
  | cons x rest ih => exact ih _
@[simp] theorem clearCtrs_data (l : List Ctr) (h : Hall) (u : Nat) : (h.clearCtrs u l).data = h.data := by
  induction l generalizing h with
  | nil => rfl
  | cons x rest ih => exact ih _
@[simp] theorem clearCtrs_checks (l : List Ctr) (h : Hall) (u : Nat) : (h.clearCtrs u l).checks = h.checks := by
  induction l generalizing h with
  | nil => rfl
  | cons x rest ih => exact ih _
@[simp] theorem clearCtrs_tiers (l : List Ctr) (h : Hall) (u : Nat) : (h.clearCtrs u l).tiers = h.tiers := by
  induction l generalizing h with
  | nil => rfl
  | cons x rest ih => exact ih _
@[simp] theorem clearCtrs_weights (l : List Ctr) (h : Hall) (u : Nat) : (h.clearCtrs u l).weights = h.weights := by
  induction l generalizing h with
  | nil => rfl
  | cons x rest ih => exact ih _
@[simp] theorem clearCtrs_avail (l : List Ctr) (h : Hall) (u : Nat) : (h.clearCtrs u l).avail = h.avail := by
  induction l generalizing h with
  | nil => rfl
  | cons x rest ih => exact ih _
@[simp] theorem clearCtrs_ingress (l : List Ctr) (h : Hall) (u : Nat) : (h.clearCtrs u l).ingress = h.ingress := by
  induction l generalizing h with
  | nil => rfl
  | cons x rest ih => exact ih _
@[simp] theorem clearCtrs_nbrs (l : List Ctr) (h : Hall) (u : Nat) : (h.clearCtrs u l).nbrs = h.nbrs := by
  induction l generalizing h with
  | nil => rfl
  | cons x rest ih => exact ih _
@[simp] theorem clearCtrs_trust (l : List Ctr) (h : Hall) (u : Nat) : (h.clearCtrs u l).trust = h.trust := by
  induction l generalizing h with
  | nil => rfl
  | cons x rest ih => exact ih _
@[simp] theorem clearCtrs_power (l : List Ctr) (h : Hall) (u : Nat) : (h.clearCtrs u l).power = h.power := by
  induction l generalizing h with
  | nil => rfl
  | cons x rest ih => exact ih _
@[simp] theorem clearCtrs_mgmt (l : List Ctr) (h : Hall) (u : Nat) : (h.clearCtrs u l).mgmt = h.mgmt := by
  induction l generalizing h with
  | nil => rfl
  | cons x rest ih => exact ih _
@[simp] theorem clearCtrs_watPlain (l : List Ctr) (h : Hall) (u : Nat) : (h.clearCtrs u l).watPlain = h.watPlain := by
  induction l generalizing h with
  | nil => rfl
  | cons x rest ih => exact ih _
@[simp] theorem clearCtrs_freeCtr (l : List Ctr) (h : Hall) (u : Nat) : (h.clearCtrs u l).freeCtr = h.freeCtr := by
  induction l generalizing h with
  | nil => rfl
  | cons x rest ih => exact ih _

/-! Register fields read the same after an update that leaves the registers alone. -/

theorem getF_of_regs (h h' : Hall) (e : h'.regs = h.regs) (f : Fld) (u : Nat) : h'.getF f u = h.getF f u := by
  simp [Hall.getF, e]

@[simp] theorem emit_getF (h : Hall) (o : Out) (f : Fld) (u : Nat) : (h.emit o).getF f u = h.getF f u := rfl
@[simp] theorem deposit_getF (h : Hall) (r : FjRec) (f : Fld) (u : Nat) : (h.deposit r).getF f u = h.getF f u := rfl
@[simp] theorem urgent_getF (h : Hall) (k : RecKind) (x i : Nat) (f : Fld) (u : Nat) : (h.urgent k x i).getF f u = h.getF f u := rfl
@[simp] theorem ordinary_getF (h : Hall) (k : RecKind) (x i : Nat) (f : Fld) (u : Nat) : (h.ordinary k x i).getF f u = h.getF f u := rfl
@[simp] theorem updStall_getF (h : Hall) (i : Nat) (g : Stall → Stall) (f : Fld) (u : Nat) : (h.updStall i g).getF f u = h.getF f u := rfl
@[simp] theorem updLedger_getF (h : Hall) (i : Nat) (g : Ledger → Ledger) (f : Fld) (u : Nat) : (h.updLedger i g).getF f u = h.getF f u := rfl
@[simp] theorem updTally_getF (h : Hall) (i : Nat) (g : Tally → Tally) (f : Fld) (u : Nat) : (h.updTally i g).getF f u = h.getF f u := rfl
@[simp] theorem updQue_getF (h : Hall) (i : Nat) (g : Que → Que) (f : Fld) (u : Nat) : (h.updQue i g).getF f u = h.getF f u := rfl
@[simp] theorem updTill_getF (h : Hall) (i : Nat) (g : Till → Till) (f : Fld) (u : Nat) : (h.updTill i g).getF f u = h.getF f u := rfl
@[simp] theorem updPen_getF (h : Hall) (i : Nat) (g : Pen → Pen) (f : Fld) (u : Nat) : (h.updPen i g).getF f u = h.getF f u := rfl
@[simp] theorem updArray_getF (h : Hall) (i : Nat) (g : NvArray → NvArray) (f : Fld) (u : Nat) : (h.updArray i g).getF f u = h.getF f u := rfl
@[simp] theorem updChan_getF (h : Hall) (i : Nat) (g : ChanSt → ChanSt) (f : Fld) (u : Nat) : (h.updChan i g).getF f u = h.getF f u := rfl
@[simp] theorem writeBytes_getF (h : Hall) (a : Nat) (bs : Bytes) (f : Fld) (u : Nat) : (h.writeBytes a bs).getF f u = h.getF f u :=
  getF_of_regs h _ (writeBytes_regs h a bs) f u

@[simp] theorem writeRam_getF (h : Hall) (a : Nat) (p : Payload) (f : Fld) (u : Nat) : (h.writeRam a p).getF f u = h.getF f u :=
  getF_of_regs h _ (writeRam_regs h a p) f u
@[simp] theorem hostStores_getF (h : Hall) (l : List HostStore) (f : Fld) (u : Nat) : (h.hostStores l).getF f u = h.getF f u :=
  getF_of_regs h _ (hostStores_regs h l) f u

end Sys2Proof.Machine
end

