-- ==== Sys2Proof/Laws/Ops.lean ====
section
/-! SUPPORT. One lemma per shared operation that says what it can do: how a command answers, what a till command that is
ready does, what memory writes keep and leave alone, and the frames of queues, events and operations. -/

namespace Sys2Proof.Machine

/-! ### Commands -/

/-- A meaning built by `run` answers a next state with the queue as it was. -/
theorem run_next (s : State) (f : Hall → Hall) : s.run f = .next { hall := f s.hall, pending := s.pending } := rfl

/-- A switchboard write of the governing MP acts. -/
theorem board_accepts (s : State) (req : Requester) (f : Hall → Hall) (h : s.hall.accepts req = true) :
    s.board req f = .next { hall := f s.hall, pending := s.pending } := by
  simp [State.board, State.run, h]

/-- Any other one is discarded. -/
theorem board_refused (s : State) (req : Requester) (f : Hall → Hall) (h : s.hall.accepts req = false) :
    s.board req f = .next { hall := s.hall, pending := s.pending } := by
  simp [State.board, State.run, h]

/-- What `tillReady` says of a till's command. -/
theorem tillReady_iff (h : Hall) (t code : Nat) (sc wide : Bool) :
    h.tillReady t code sc wide = true ↔
      h.tillServed t = true ∧ (h.tillCmd t).opcode = code ∧ h.seqCheck (h.tillCmd t) = .fresh ∧
      h.tillChecks (h.tillCmd t) sc wide = none ∧ bit (h.tillCmd t).flags 1 = false := by
  simp [Hall.tillReady, and_assoc]

/-- A till command that is ready is run and answered. -/
theorem tillRun_ready (h : Hall) (t code : Nat) (sc wide : TillCmd → Hall → Bool) (body : TillCmd → Hall → Answer)
    (hr : h.tillReady t code (sc (h.tillCmd t) h) (wide (h.tillCmd t) h) = true) :
    h.tillRun t (fun o => decide (o = code)) sc wide body =
      (body (h.tillCmd t) h).hall.tillComplete (h.tillCmd t) (body (h.tillCmd t) h).status (body (h.tillCmd t) h).payload := by
  obtain ⟨h1, h2, h3, h4, h5⟩ := (tillReady_iff _ _ _ _ _).1 hr
  unfold Hall.tillRun
  simp only [h1, h2, h3, h4, h5, decide_true, Bool.not_true, Bool.or_self, Bool.false_eq_true, if_false]

/-- The same for the meaning of a till command. -/
theorem till_ready (s : State) (t code : Nat) (sc : TillCmd → Hall → Bool) (body : TillCmd → Hall → Answer)
    (hr : s.hall.tillReady t code (sc (s.hall.tillCmd t) s.hall) false = true) :
    s.till t code sc body = .next
      { hall := (body (s.hall.tillCmd t) s.hall).hall.tillComplete (s.hall.tillCmd t) (body (s.hall.tillCmd t) s.hall).status
          (body (s.hall.tillCmd t) s.hall).payload
        pending := s.pending } := by
  exact congrArg (fun g : Hall => (Host.Outcome.next ({ hall := g, pending := s.pending } : State) : Host.Outcome State Fault Refusal))
    (tillRun_ready s.hall t code sc (fun _ _ => false) body hr)

/-- The same for a command that may also be module-wide. -/
theorem tillWide_ready (s : State) (t code : Nat) (sc wide : TillCmd → Hall → Bool) (body : TillCmd → Hall → Answer)
    (hr : s.hall.tillReady t code (sc (s.hall.tillCmd t) s.hall) (wide (s.hall.tillCmd t) s.hall) = true) :
    s.tillWide t code sc wide body = .next
      { hall := (body (s.hall.tillCmd t) s.hall).hall.tillComplete (s.hall.tillCmd t) (body (s.hall.tillCmd t) s.hall).status
          (body (s.hall.tillCmd t) s.hall).payload
        pending := s.pending } := by
  exact congrArg (fun g : Hall => (Host.Outcome.next ({ hall := g, pending := s.pending } : State) : Host.Outcome State Fault Refusal)) (tillRun_ready s.hall t code sc wide body hr)

/-! ### Frames -/

theorem Frame.refl (h : Hall) (parts : List Part) (may : Fld → Nat → Prop) : Frame h h parts may :=
  ⟨fun p _ => by cases p <;> simp [Part.same], fun _ _ _ => rfl⟩

theorem Part.same_trans {h h' h'' : Hall} {p : Part} (a : p.same h h') (b : p.same h' h'') : p.same h h'' := by
  cases p <;> simp_all [Part.same]

theorem Frame.trans {h h' h'' : Hall} {parts : List Part} {may : Fld → Nat → Prop} (a : Frame h h' parts may)
    (b : Frame h' h'' parts may) : Frame h h'' parts may :=
  ⟨fun p hp => Part.same_trans (a.1 p hp) (b.1 p hp), fun f u hf => (b.2 f u hf).trans (a.2 f u hf)⟩

/-- A frame may be widened. -/
theorem Frame.mono {h h' : Hall} {parts parts' : List Part} {may may' : Fld → Nat → Prop} (a : Frame h h' parts may)
    (hp : ∀ p ∈ parts, p ∈ parts') (hm : ∀ f u, may f u → may' f u) : Frame h h' parts' may' :=
  ⟨fun p hn => a.1 p fun e => hn (hp p e), fun f u hn => a.2 f u fun e => hn (hm f u e)⟩

/-- What each step of a fold keeps within a frame, the fold keeps within it. -/
theorem Frame.foldl {α : Type} {parts : List Part} {may : Fld → Nat → Prop} (f : Hall → α → Hall)
    (hf : ∀ h a, Frame h (f h a) parts may) (l : List α) (h : Hall) : Frame h (l.foldl f h) parts may := by
  induction l generalizing h with
  | nil => exact Frame.refl _ _ _
  | cons x rest ih => exact (hf h x).trans (ih _)

/-- Writing a field changes that field of that unit. -/
theorem setF_frame (h : Hall) (f : Fld) (u v : Nat) (parts : List Part) (may : Fld → Nat → Prop) (hm : may f u) :
    Frame h (h.setF f u v) parts may :=
  ⟨fun p _ => by cases p <;> simp [Part.same], fun g w hn => getF_setF_ne h f g u w v fun e => hn (by rw [e.1, e.2]; exact hm)⟩

/-- Counting changes COUNT and SAT of that counter. -/
theorem bump_frame (h : Hall) (c : Ctr) (u k : Nat) (parts : List Part) (may : Fld → Nat → Prop) (h1 : may (.count c) u)
    (h2 : may (.sat c) u) : Frame h (h.bump c u k) parts may := by
  unfold Hall.bump
  dsimp only
  split
  · exact Frame.refl _ _ _
  split
  · exact (setF_frame _ _ _ _ _ _ h1).trans (setF_frame _ _ _ _ _ _ h2)
  · exact setF_frame _ _ _ _ _ _ h1

/-- An update that leaves the registers alone and changes parts of the list is within a frame. -/
theorem frame_of_parts {h h' : Hall} {parts : List Part} {may : Fld → Nat → Prop} (hp : ∀ p : Part, p ∉ parts → p.same h h')
    (hr : h'.regs = h.regs) : Frame h h' parts may :=
  ⟨hp, fun f u _ => getF_of_regs h h' hr f u⟩

/-! ### Memory -/

/-- Writing bytes into a line keeps T0, T1 and the tills in canonical form. -/
theorem writeLine_wf (h : Hall) (line o : Nat) (p : Payload) (hw : Mem.wf 0 h.mem.ram = true) :
    Mem.wf 0 (h.writeLine line o p).mem.ram = true := by
  unfold Hall.writeLine
  split
  · exact hw
  · exact Mem.wf_writeN 0 _ _ _ hw

/-- Writing a payload keeps the canonical form. -/
theorem writeRam_wf (h : Hall) (a : Nat) (p : Payload) (hw : Mem.wf 0 h.mem.ram = true) :
    Mem.wf 0 (h.writeRam a p).mem.ram = true := by
  unfold Hall.writeRam
  generalize List.range ((a % 64 + p.length + 63) / 64) = l
  induction l generalizing h with
  | nil => exact hw
  | cons x rest ih => exact ih _ (writeLine_wf h _ _ _ hw)

/-- A line write leaves host memory and the weight arrays alone. -/
theorem writeLine_host (h : Hall) (line o : Nat) (p : Payload) :
    (h.writeLine line o p).mem.host = h.mem.host ∧ (h.writeLine line o p).mem.nvm = h.mem.nvm := by
  unfold Hall.writeLine
  split <;> exact ⟨rfl, rfl⟩

theorem writeRam_host (h : Hall) (a : Nat) (p : Payload) :
    (h.writeRam a p).mem.host = h.mem.host ∧ (h.writeRam a p).mem.nvm = h.mem.nvm := by
  unfold Hall.writeRam
  generalize List.range ((a % 64 + p.length + 63) / 64) = l
  induction l generalizing h with
  | nil => exact ⟨rfl, rfl⟩
  | cons x rest ih =>
    exact ⟨(ih _).1.trans (writeLine_host h _ _ _).1, (ih _).2.trans (writeLine_host h _ _ _).2⟩

/-- Every memory stays in canonical form when a payload is written. -/
theorem writeRam_ok (h : Hall) (a : Nat) (p : Payload) (hw : h.mem.ok = true) : (h.writeRam a p).mem.ok = true := by
  simp only [MemSys.ok, Bool.and_eq_true] at hw ⊢
  obtain ⟨e1, e2⟩ := writeRam_host h a p
  exact ⟨⟨writeRam_wf h a p hw.1.1, by rw [e1]; exact hw.1.2⟩, by rw [e2]; exact hw.2⟩

theorem writeBytes_ok (h : Hall) (a : Nat) (bs : Bytes) (hw : h.mem.ok = true) : (h.writeBytes a bs).mem.ok = true :=
  writeRam_ok h a _ hw

/-- Writing host memory keeps every memory in canonical form. -/
theorem hostWrite_ok (h : Hall) (a : Nat) (bs : Bytes) (hw : h.mem.ok = true) : (h.hostWrite a bs).mem.ok = true := by
  simp only [MemSys.ok, Bool.and_eq_true, Hall.hostWrite] at hw ⊢
  exact ⟨⟨hw.1.1, Mem.wf_writeN 0 _ _ _ hw.1.2⟩, hw.2⟩

theorem hostStores_ok (h : Hall) (l : List HostStore) (hw : h.mem.ok = true) : (h.hostStores l).mem.ok = true := by
  unfold Hall.hostStores
  induction l generalizing h with
  | nil => exact hw
  | cons x rest ih => exact ih _ (hostWrite_ok h _ _ hw)

/-- Clearing a range keeps every memory in canonical form. -/
theorem zero_ok (h : Hall) (a n : Nat) (hw : h.mem.ok = true) : (h.zero a n).mem.ok = true := by
  simp only [MemSys.ok, Bool.and_eq_true, Hall.zero] at hw ⊢
  exact ⟨⟨Mem.wf_clear 0 _ _ _ hw.1.1, hw.1.2⟩, hw.2⟩

/-- A line write leaves every byte outside it as it was. -/
theorem writeLine_outside (h : Hall) (line o : Nat) (p : Payload) (b : Nat) (hw : Mem.wf 0 h.mem.ram = true)
    (hb : b < line * 64 + o ∨ line * 64 + o + p.length ≤ b) :
    Mem.read 0 (h.writeLine line o p).mem.ram b = Mem.read 0 h.mem.ram b := by
  unfold Hall.writeLine
  split
  · rfl
  · exact Mem.read_writeN_outside 0 _ _ _ _ hw (by simpa using hb)

/-- Writing a payload at an address leaves every byte outside it as it was. -/
theorem writeRam_outside (h : Hall) (a : Nat) (p : Payload) (hw : Mem.wf 0 h.mem.ram = true) :
    RamOutside h (h.writeRam a p) a p.length := by
  intro b hb
  unfold Hall.writeRam
  generalize List.range ((a % 64 + p.length + 63) / 64) = l
  induction l generalizing h with
  | nil => rfl
  | cons x rest ih =>
    refine (ih _ (writeLine_wf h _ _ _ hw)).trans (writeLine_outside h _ _ _ b hw ?_)
    simp only [List.length_take, List.length_drop]
    omega

/-! ### Queues, events and operations -/

/-- The management link takes an EVENT: only its queue and its drop counter may change. -/
theorem mgmtEventTo_frame (h : Hall) (hub : Hub) (e : Bytes) : Frame h (h.mgmtEventTo hub e) postParts postReg := by
  unfold Hall.mgmtEventTo
  dsimp only
  split
  · exact Frame.refl _ _ _
  split
  · exact bump_frame _ _ _ _ _ _ (by simp [postReg]) (by simp [postReg])
  · refine frame_of_parts (fun p hp => ?_) ?_
    · cases hub <;> cases p <;> simp_all [Part.same, postParts, Hall.updLink]
    · cases hub <;> rfl

theorem mgmtEvent_frame (h : Hall) (e : Bytes) : Frame h (h.mgmtEvent e) postParts postReg :=
  (mgmtEventTo_frame h .a _).trans (mgmtEventTo_frame _ .b _)

theorem updQue_frame (h : Hall) (q : Nat) (f : Que → Que) : Frame h (h.updQue q f) postParts postReg :=
  frame_of_parts (fun p hp => by cases p <;> simp_all [Part.same, postParts, Hall.updQue]) rfl

theorem emit_frame (h : Hall) (o : Out) : Frame h (h.emit o) postParts postReg :=
  frame_of_parts (fun p hp => by cases p <;> simp_all [Part.same, postParts, Hall.emit]) rfl

theorem hostWrite_frame (h : Hall) (a : Nat) (bs : Bytes) : Frame h (h.hostWrite a bs) postParts postReg :=
  frame_of_parts (fun p hp => by cases p <;> simp_all [Part.same, postParts, Hall.hostWrite]) rfl

theorem queFlags_frame (h : Hall) (q : Nat) : Frame h (h.queFlags q) postParts postReg := by
  unfold Hall.queFlags
  split
  · exact (setF_frame _ _ _ _ _ _ (by simp [postReg])).trans (setF_frame _ _ _ _ _ _ (by simp [postReg]))
  · exact Frame.refl _ _ _

theorem queRaise_frame (h : Hall) (q : Nat) (r : QueRec) : Frame h (h.queRaise q r) postParts postReg := by
  unfold Hall.queRaise
  extract_lets n due port fn g
  split
  · exact (updQue_frame _ _ _).trans (emit_frame _ _)
  · exact updQue_frame _ _ _

/-- An entry is written: only host memory, vectors, queues and the management links may change, and the queue's indices. -/
theorem quePut_frame (h : Hall) (q : Nat) (mk : Nat → Nat → Bytes) : Frame h (h.quePut q mk) postParts postReg := by
  unfold Hall.quePut
  split
  · exact Frame.refl _ _ _
  split
  · exact Frame.refl _ _ _
  · have base : ∀ (g : Hall) (a : Nat) (bs : Bytes) (f : Que → Que) (v : Nat) (r : QueRec),
        Frame g ((((g.hostWrite a bs).updQue q f).setF .queProd q v).queFlags q |>.queRaise q r) postParts postReg := fun g a bs f v r =>
      ((((hostWrite_frame g a bs).trans (updQue_frame _ q f)).trans (setF_frame _ _ _ _ _ _ (by simp [postReg]))).trans
        (queFlags_frame _ q)).trans (queRaise_frame _ q r)
    dsimp only
    split
    · exact (base _ _ _ _ _ _).trans (mgmtEvent_frame _ _)
    · exact base _ _ _ _ _ _

theorem evtPut_frame (h : Hall) (q : Nat) (e : Event) : Frame h (h.evtPut q e) postParts postReg := by
  unfold Hall.evtPut
  split
  · split
    · exact updQue_frame _ _ _
    · exact (updQue_frame _ _ _).trans (bump_frame _ _ _ _ _ _ (by simp [postReg]) (by simp [postReg]))
  · exact quePut_frame _ _ _

theorem setWorldEvents_frame (h : Hall) (secure : Bool) (w : WorldEvents) : Frame h (h.setWorldEvents secure w) postParts postReg := by
  cases secure <;> exact frame_of_parts (fun p hp => by cases p <;> simp_all [Part.same, postParts, Hall.setWorldEvents]) rfl

/-- Posting an event changes nothing beyond `postParts` and `postReg`. -/
theorem post_frame (h : Hall) (pen : Nat) (secure : Bool) (e : Event) : Frame h (h.post pen secure e) postParts postReg := by
  unfold Hall.post
  split
  · exact evtPut_frame _ _ _
  split
  · exact evtPut_frame _ _ _
  · exact setWorldEvents_frame _ _ _

theorem postMany_frame (h : Hall) (pens : List Nat) (typ : Nat) (detail : Bytes) :
    Frame h (h.postMany pens typ detail) postParts postReg := by
  unfold Hall.postMany
  dsimp only
  have f := Frame.foldl (fun h p => h.postPen p typ detail) (fun h p => post_frame h p (h.penSecure p) _) pens h
  split
  · exact f
  · exact f.trans (post_frame _ _ _ _)

theorem postBoth_frame (h : Hall) (pen typ : Nat) (detail : Bytes) : Frame h (h.postBoth pen typ detail) postParts postReg :=
  postMany_frame h [pen] typ detail

theorem openOp_frame (h : Hall) (till pen : Nat) (secure : Bool) : Frame h (h.openOp till pen secure).2 [.cmd] noReg :=
  frame_of_parts (fun p hp => by cases p <;> simp_all [Part.same, Hall.openOp]) rfl

/-- Ending an operation posts TILL_DONE and forgets the operation. -/
theorem closeOp_frame (h : Hall) (k status : Nat) (detail : Bytes) : Frame h (h.closeOp k status detail) postParts postReg := by
  unfold Hall.closeOp
  split
  · exact Frame.refl _ _ _
  · refine Frame.trans ?_ (post_frame _ _ _ _)
    exact frame_of_parts (fun p hp => by cases p <;> simp_all [Part.same, postParts]) rfl

/-! ### Host memory stays in canonical form while events are posted -/

theorem quePut_ok (h : Hall) (q : Nat) (mk : Nat → Nat → Bytes) (hw : h.mem.ok = true) : (h.quePut q mk).mem.ok = true := by
  have flags : ∀ g : Hall, (g.queFlags q).mem = g.mem := fun g => by unfold Hall.queFlags; split <;> rfl
  have raise : ∀ (g : Hall) (r : QueRec), (g.queRaise q r).mem = g.mem := fun g r => by
    unfold Hall.queRaise; extract_lets; split <;> rfl
  have ev : ∀ (g : Hall) (hub : Hub) (e : Bytes), (g.mgmtEventTo hub e).mem = g.mem := fun g hub e => by
    unfold Hall.mgmtEventTo; dsimp only
    split
    · rfl
    split
    · simp
    · cases hub <;> rfl
  unfold Hall.quePut
  split
  · exact hw
  split
  · exact hw
  · dsimp only
    split
    · rw [Hall.mgmtEvent, ev, ev, raise, flags]; exact hostWrite_ok h _ _ hw
    · rw [raise, flags]; exact hostWrite_ok h _ _ hw

theorem evtPut_ok (h : Hall) (q : Nat) (e : Event) (hw : h.mem.ok = true) : (h.evtPut q e).mem.ok = true := by
  unfold Hall.evtPut
  split
  · split
    · exact hw
    · simpa using hw
  · exact quePut_ok h _ _ hw

theorem post_ok (h : Hall) (pen : Nat) (secure : Bool) (e : Event) (hw : h.mem.ok = true) : (h.post pen secure e).mem.ok = true := by
  unfold Hall.post
  split
  · exact evtPut_ok h _ _ hw
  split
  · exact evtPut_ok h _ _ hw
  · cases secure <;> exact hw

theorem closeOp_ok (h : Hall) (k status : Nat) (detail : Bytes) (hw : h.mem.ok = true) : (h.closeOp k status detail).mem.ok = true := by
  unfold Hall.closeOp
  split
  · exact hw
  · exact post_ok _ _ _ _ hw

theorem setFs_ok (h : Hall) (u : Nat) (l : List (Fld × Nat)) (hw : h.mem.ok = true) : (h.setFs u l).mem.ok = true := by
  rw [setFs_mem]; exact hw

theorem emitIf_ok (h : Hall) (b : Bool) (o : Out) (hw : h.mem.ok = true) : (if b then h.emit o else h).mem.ok = true := by
  cases b <;> exact hw

/-- A till's answer keeps every memory in canonical form. -/
theorem tillDone_ok (h : Hall) (c : TillCmd) (status : Nat) (payload : Bytes) (hw : h.mem.ok = true) :
    (h.tillDone c status payload).mem.ok = true :=
  emitIf_ok _ _ _ (setFs_ok _ _ _ (writeBytes_ok _ _ _ hw))

theorem tillComplete_ok (h : Hall) (c : TillCmd) (status : Nat) (payload : Bytes) (hw : h.mem.ok = true) :
    (h.tillComplete c status payload).mem.ok = true :=
  tillDone_ok _ _ _ _ (setFs_ok h c.till [(.tillLastSeq, c.seq), (.tillCfgSeqValid, 1)] hw)

end Sys2Proof.Machine
end

