-- ==== Sys2Proof/Tests/Slice0.lean ====
section
/-! SUPPORT. Tests: the checks of WellFormed each refuse a term, commands give what the manual's own words say, and every
statement's hypotheses are met by a small state (`wit_…`, clause by clause, at the edge of each range). -/

namespace Sys2Proof.Tests

set_option Elab.async false

open Sys2Proof.Machine

/-! ### States to test on -/

/-- The module after reset with the MP of hub A governing, host port A up, P0 and the plain pen 1 UP, every domain ON. -/
def hall : Hall :=
  { ((State.reset.hall.setF .hubIdentGoverning 0 1).setF .pciLinkStatusUp 0 1) with
    avail.pens := [(0, { state := .up, secure := true }), (1, { state := .up })] }

/-- A domain in a state. -/
def dom (h : Hall) (d st : Nat) : Hall := h.setF .pwrDomState d st

def inState (h : Hall) : State := { hall := h, pending := [] }

/-- A command posted in a till. -/
def posted (h : Hall) (t code pen : Nat) (payload : Bytes) : Hall :=
  (h.writeBytes (tillBase t) (slice (leBytes 2 code ++ leBytes 2 0 ++ leBytes 4 0 ++ leBytes 1 pen ++ leBytes 1 (b2n (tillSecure t)) ++
    leBytes 2 payload.length) 0 64 ++ payload)).setF .tillState t 1

/-- It is ready, with the length of its payload and the bytes. -/
def ready (h : Hall) (t code pen : Nat) (payload : Bytes) (sc wide : Bool) : Bool :=
  let g := posted h t code pen payload
  g.tillReady t code sc wide && decide ((g.tillCmd t).length = payload.length) && decide (g.tillPayload t = payload) &&
    decide ((g.tillCmd t).pen = pen)

/-! ### Commands that are not well formed -/

theorem ill_fn : (Instr.pciFlr .a (.vf 32)).wellFormed = false := by decide
theorem ill_stores : (Instr.tillGo .a .pf0 0 [] [⟨2 ^ 64, [0]⟩]).wellFormed = false := by decide
theorem ill_content : (Instr.tillGo .a .pf0 0 (List.replicate 0xFC1 0) []).wellFormed = false := by decide +kernel
theorem ill_regSpace : (Instr.registerWrite (.mp .a) 0x00FF12000000 [0]).wellFormed = false := by decide
theorem ill_regEmpty : (Instr.registerWrite (.mp .a) 0x00FF00000000 []).wellFormed = false := by decide
theorem ill_access : (Instr.foreignSlotAccess .a .pf0 (.till 0) (.read 4097)).wellFormed = false := by decide
theorem ill_aperture : (Instr.apertureAccess .a (2 ^ 32) (.read 1)).wellFormed = false := by decide
theorem ill_victim : (Instr.hostReadFailed (.request (2 ^ 32))).wellFormed = false := by decide
theorem ill_doe : (Instr.getVersion .a []).wellFormed = false := by decide
theorem ill_index : (Instr.queCons .a .pf0 0 (2 ^ 16)).wellFormed = false := by decide
theorem ill_upset : (Instr.oxTileEnd 0 0 [⟨65, 0, 1⟩]).wellFormed = false := by decide
theorem ill_abort : (Instr.ledgerAbort 0 0 0 0 7).wellFormed = false := by decide
theorem ill_id : (Instr.shadowRunEnd 0 (2 ^ 32) 0).wellFormed = false := by decide
theorem ill_ticks : (Instr.tickTotalsAdd (2 ^ 64)).wellFormed = false := by decide
theorem ill_read : (Instr.lotReadReturn (2 ^ 32)).wellFormed = false := by decide
theorem ill_frame : (Instr.poolFillDone .a (2 ^ 29) false).wellFormed = false := by decide
theorem ill_line : (Instr.t1ScrubStep .a (0x001E00000000 / 64) 1).wellFormed = false := by decide
theorem ill_window : (Instr.nvmcWindowWrite (.mp .a) 0 0x007FFFFFFFFF [0, 0]).wellFormed = false := by decide
theorem ill_windowEmpty : (Instr.nvmcWindowWrite (.mp .a) 0 0 []).wellFormed = false := by decide
theorem ill_bmap : (Instr.nvmcBmapGo (.mp .a) 0 2048).wellFormed = false := by decide
theorem ill_lblock : (Instr.mirrorSettle 0 65536).wellFormed = false := by decide
theorem ill_job : (Instr.installDeadline (2 ^ 32)).wellFormed = false := by decide
theorem ill_grain : (Instr.treeBurst 0 ⟨2000, 0, 0, 0, 0, [], []⟩).wellFormed = false := by decide
theorem ill_stray : (Instr.sweepRound 0 [1999, 2000]).wellFormed = false := by decide
theorem ill_sessFrame : (Instr.data 0 (List.replicate 16413 0)).wellFormed = false := by decide +kernel
theorem ill_nbrFrame : (Instr.item 0 ⟨0, false⟩ (List.replicate 8253 0)).wellFormed = false := by decide +kernel
theorem ill_conv : (Instr.nbrRto 0 4 0).wellFormed = false := by decide
theorem ill_tag : (Instr.noticeLimit 0 (2 ^ 64)).wellFormed = false := by decide
theorem ill_picture : (Instr.vdecPictureDone 0 ⟨none, true, 1, 0, [⟨0, 2, 1, 8, true, [0], [], [], []⟩]⟩).wellFormed = false := by decide
theorem ill_port : (Instr.lossOfSignal 14).wellFormed = false := by decide
theorem ill_sample : (Instr.powerSample 0 0 0 65536).wellFormed = false := by decide
theorem ill_tj : (Instr.thermalLimit 0 256).wellFormed = false := by decide
theorem ill_mgmt : (Instr.resend .a (List.replicate 1519 0)).wellFormed = false := by decide +kernel
theorem ill_requester : (Instr.wakePulse (.host .a (.vf 0)) 0).wellFormed = false := by decide
theorem ill_handle : (Instr.memMapZeroed (2 ^ 32)).wellFormed = false := by decide
theorem ill_width : (Instr.hostLinkUp .a 5 3).wellFormed = false := by decide
theorem ill_rate : (Instr.hostLinkUp .a 6 8).wellFormed = false := by decide

/-! ### The hypotheses of the statements are met -/

/-- Reset with one command waiting. -/
theorem wit_InvariantKept : ∃ s s' : State, s.Inv ∧ step s = .next s' ∧ s.pending ≠ [] :=
  ⟨{ State.reset with pending := [.mpLost] }, _, ⟨by decide +kernel, by decide +kernel⟩, rfl, by decide⟩

theorem wit_CountersStick : hall.getF (.count .queDrop) 0 ≤ Ctr.queDrop.top ∧ 0 < 5 ∧
    Ctr.queDrop.top ≤ hall.getF (.count .queDrop) 0 + Ctr.queDrop.top ∧ hall.getF (.count .queDrop) 0 + 1 < Ctr.queDrop.top := by
  decide +kernel

theorem wit_JunctionClasses : (⟨true, .poison, 0, 0⟩ : FjRec).urgent = true ∧ (⟨false, .poison, 0, 0⟩ : FjRec).urgent = false := by
  decide

/-- Each clause: IDLE, POSTED and RUNNING tills of P0, and a function that owns none. -/
theorem wit_TillPosting : hall.mem.ok = true ∧ hall.tlpOk .a = true ∧ hall.hubLost (hubOf 127) = false ∧
    hall.ownsTill .pf0 31 = true ∧ hall.getF .tillState 31 ≠ 1 ∧ hall.getF .tillState 31 ≠ 2 ∧
    (hall.setF .tillState 31 1).getF .tillState 31 = 1 ∧ (hall.setF .tillState 31 2).getF .tillState 31 = 2 ∧
    (hall.setF .tillState 31 2).ownsTill .pf0 31 = true ∧ hall.ownsTill (.vf 31) 0 = false := by decide +kernel

theorem wit_ForeignSlots : hall.tlpOk .a = true ∧ slotOwned hall .a (.vf 1) (.till 127) = false ∧
    slotOwned hall .a .pf1 (.queue 16383) = false := by decide +kernel

/-- P0 owns a queue it has configured. -/
def withQue (typ log2 : Nat) (on : Bool) : Hall :=
  (hall.updQue 5 fun q => { q with qrec := some ⟨typ, true, 0, log2, 0, 0, 0, 0, 0⟩ }).setF .queStatusEnabled 5 (b2n on)

theorem wit_ReadClearCounters : hall.tlpOk .a = true ∧ (withQue 1 4 true).tlpOk .a = true ∧
    (withQue 1 4 true).hubLost (hubOf 5) = false ∧ (withQue 1 4 true).ownsQue .a .pf0 5 = true := by decide +kernel

/-- An HREQ queue of 16 entries takes 15 and not 16; a RES queue with 3 of 16 entries takes 3 and not 4; a queue that is
not enabled. -/
theorem wit_QueueIndices :
    (let h := withQue 0 4 true
     h.tlpOk .a = true ∧ h.hubLost (hubOf 5) = false ∧ h.ownsQue .a .pf0 5 = true ∧
     (h.que 5).qrec = some ⟨0, true, 0, 4, 0, 0, 0, 0, 0⟩ ∧ h.queResetting ⟨0, true, 0, 4, 0, 0, 0, 0, 0⟩ = false ∧
     h.flag .queStatusEnabled 5 = true ∧ 15 < queSize ⟨0, true, 0, 4, 0, 0, 0, 0, 0⟩ ∧
     h.queCount 5 ≤ (15 + queSize ⟨0, true, 0, 4, 0, 0, 0, 0, 0⟩ - h.getF .queCons 5) % queSize ⟨0, true, 0, 4, 0, 0, 0, 0, 0⟩ ∧
     queSize ⟨0, true, 0, 4, 0, 0, 0, 0, 0⟩ ≤ 16) ∧
    (let h := (withQue 1 4 true).setF .queProd 5 3
     (h.que 5).qrec = some ⟨1, true, 0, 4, 0, 0, 0, 0, 0⟩ ∧ h.queResetting ⟨1, true, 0, 4, 0, 0, 0, 0, 0⟩ = false ∧
     h.tlpOk .a = true ∧ h.ownsQue .a .pf0 5 = true ∧ h.flag .queStatusEnabled 5 = true ∧
     (3 + 16 - h.getF .queCons 5) % 16 ≤ h.queCount 5 ∧ ¬ (4 + 16 - h.getF .queCons 5) % 16 ≤ h.queCount 5) ∧
    (let h := withQue 1 4 false
     h.tlpOk .a = true ∧ h.ownsQue .a .pf0 5 = true ∧ (h.que 5).qrec = some ⟨1, true, 0, 4, 0, 0, 0, 0, 0⟩ ∧
     h.queResetting ⟨1, true, 0, 4, 0, 0, 0, 0, 0⟩ = false ∧ h.flag .queStatusEnabled 5 = false) := by decide +kernel


/-- A register of MGMT, by the MP of hub B, by PF1 and by PF0; and the byte of HB_S by the governing MP. -/
theorem wit_RegisterWriteAccess :
    let addr := 0x00FF00630013
    regBlockAt (hall.region addr) = some (.mgmt, 0, 0x13) ∧ hall.governing ≠ some .b ∧ Blk.mgmt ≠ .till ∧ Blk.mgmt ≠ .que ∧
    Blk.mgmt ≠ .pci ∧ hall.tlpOk .a = true ∧ hall.governing = some .a ∧ fieldsIn .mgmt 0x13 1 = [(.mgmtCfgHbS, 0)] ∧
    Fld.mgmtCfgHbS.info.acc = .rw := by decide +kernel

/-- T1 of hub A and T0 of row 0 (BASE 0x00F0) with their stall's domain ON, and addresses where no region lies. -/
theorem wit_ApertureAccesses :
    hall.tlpOk .a = true ∧ hall.mem.ok = true ∧ hall.region 0 = .t1 .a ∧ hall.region (2 ^ 32 - 1) = .t1 .a ∧
    (let h := dom (hall.setF .pciApertureBase 0 0x00F0) 0 2
     h.tlpOk .a = true ∧ h.getF .pciApertureBase 0 * 2 ^ 32 = 0x00F000000000 ∧
     h.region 0x00F000000000 = .t0 0 0 ∧ h.region (0x00F000000000 + 64 - 1) = .t0 0 63) ∧
    (hall.setF .pciApertureBase 0 0x001F).region 0x001F00000000 = .outside := by decide +kernel

/-- A responder in each of its places. -/
theorem wit_SpdmResponder :
    let at_ := fun x : Spdm => { hall with portA.spdm := x }
    (at_ {}).portUp .a = true ∧ leAt [0x12, 0x84] 1 1 = 0x84 ∧ (at_ { versioned := true }).portA.spdm.versioned = true ∧
    (at_ { capable := true }).portA.spdm.capable = true ∧ (at_ { negotiated := true }).portA.spdm.session = false ∧
    (at_ { exchanged := true }).portA.spdm.exchanged = true ∧ (at_ { session := true }).portA.spdm.session = true := by decide +kernel

theorem wit_IdeKeyManagement :
    let h := { hall with portA.spdm.session := true, portA.ide := { secure := true, keySets := [(1, [])], active := some 1 } }
    h.portUp .a = true ∧ (h.port .a).spdm.session = true ∧ (h.port .a).ide.secure = true ∧ leAt [0, 0] 1 1 = 0 ∧
    (let r := [0, 2, 0, 0, 0, 0, 1, 0] ++ List.replicate 40 0
     leAt r 1 1 = 2 ∧ r.length = 48 ∧ leAt r 7 1 = 0) ∧
    (let r : Bytes := [0, 4, 0, 0, 0, 0, 1, 0]
     leAt r 1 1 = 4 ∧ (Tab.find (h.port .a).ide.keySets (leAt r 6 1)).isSome = true) ∧
    (let r : Bytes := [0, 5, 0, 0, 0, 0, 1, 0]
     leAt r 1 1 = 5 ∧ (h.port .a).ide.active = some (ideSet r)) := by decide +kernel

theorem wit_HostLinks :
    let h := dom State.reset.hall (hubDomain .a 2) 2
    h.flag .pciLinkStatusUp (hubNum .a) = false ∧ h.hubLost .a = false ∧ h.domState (hubDomain .a 2) = 2 ∧
    hall.flag .pciLinkStatusUp (hubNum .a) = true := by decide +kernel

/-- An opcode of no family, a ready command, a request in flight, a repeated sequence number. -/
theorem wit_TillAnswering :
    hall.mem.ok = true ∧
    (let h := posted hall 1 0x0F01 0xFF []
     h.tillServed 1 = true ∧ opRow (h.tillCmd 1).opcode = none ∧ h.seqCheck (h.tillCmd 1) = .fresh ∧
     (h.tillCmd 1).reserved = false ∧ (h.tillCmd 1).length ≤ 3968 ∧ (h.tillCmd 1).pen = 255) ∧
    (let h := posted hall 1 0x0A05 0 []
     h.tillReady 1 (h.tillCmd 1).opcode false false = true) ∧
    (let h := (((posted hall 1 0x0A05 0 []).setF .tillCfgSeqValid 1 1).setF .tillLastSeq 1 0).updTill 1 fun t =>
       { t with stored := some ⟨0, [1, 2]⟩ }
     h.tillServed 1 = true ∧ (h.tillCmd 1).opcode = 0x0A05 ∧ h.flag .tillCfgSeqValid 1 = true ∧
     (h.tillCmd 1).seq = h.getF .tillLastSeq 1 ∧ (h.till 1).stored = some ⟨0, [1, 2]⟩) ∧
    (let r : Req := ⟨.a, 0, 0, 0, 0, 0, 0, 0, 0, 0, 0, 0, 0, false, false, [], 0, 0, false, false, true, 0⟩
     let h := { hall with data.requests := [(7, r)] }
     h.req 7 = some r ∧ r.status = 0) := by decide +kernel

theorem wit_ClearsThatWait :
    hall.accepts (.mp .a) = true ∧ hall.accepts (.mp .b) = false ∧ hall.accepts (.host .a .pf0) = false ∧
    ((hall.stall 127).ox.isNone && (hall.stall 127).vu.isNone && (hall.stall 127).hen.isNone) = true ∧
    (let h := hall.updStall 127 fun y => { y with ox := some { idx := 0, pass := 0, ctx := 0, key := ⟨7, 0, 0, 0⟩, epoch := 0, token := 0 } }
     h.accepts (.mp .a) = true ∧
     ((h.stall 127).ox.isNone && (h.stall 127).vu.isNone && (h.stall 127).hen.isNone) = false) := by decide +kernel

theorem wit_ClearsAtOnce : hall.accepts (.mp .a) = true ∧ hall.accepts (.host .b (.vf 31)) = false := by decide +kernel

/-- Hub A's MP runs; domain 5 (stall 5 of row 0) as given. -/
def power (st force : Nat) : Hall :=
  ((dom { hall with avail.mpA.state := .ready } 5 st).setF .pwrDomForce 5 force).setFs 5 [(.pwrDomRetTicks, 1), (.pwrDomOffTicks, 1)]

theorem wit_DomainStates :
    (let h := power 2 0
     h.domState 5 = 2 ∧ h.getF .pwrDomForce 5 = 0 ∧ h.getF .pwrDomRetTicks 5 ≠ 0 ∧ (domainOf 5).autoOk = true ∧ h.domIdle (domainOf 5) = true) ∧
    (let h := power 1 0
     h.domState 5 = 1 ∧ h.getF .pwrDomForce 5 = 0 ∧ h.getF .pwrDomOffTicks 5 ≠ 0 ∧ h.offAllowed (domainOf 5) = true) ∧
    (let h := power 1 1
     h.powered = true ∧ (domainOf 5).ofP0 = false ∧ h.getF .pwrDomForce 5 = 1 ∧ h.domState 5 = 1 ∧ h.accepts (.mp .a) = true) ∧
    (let h := power 2 3
     h.powered = true ∧ (domainOf 5).ofP0 = false ∧ h.getF .pwrDomForce 5 = 3 ∧ (domainOf 5).has 0 = true ∧ h.domState 5 = 2 ∧
     h.domIdle (domainOf 5) = true) ∧
    (let h := (power 0 0).setF .pwrDomWakeLvl 5 1
     h.powered = true ∧ h.domState 5 = 0 ∧ h.flag .pwrDomWakeLvl 5 = true) ∧
    (let h := { power 3 0 with power.fromOff := [5] }
     h.domState 5 = 3 ∧ ¬ (h.power.fromOff.contains 5 = true ∧ h.flag .pwrStatusBrownout 0 = true)) := by decide +kernel

theorem wit_RtcAlarms :
    let h := (power 1 0).setFs 15 [(.rtcAlarmArmed, 1), (.rtcAlarmDomain, 5), (.rtcAlarmTime, 0)]
    h.flag .rtcAlarmArmed 15 = true ∧ h.flag .rtcAlarmFired 15 = false ∧
    h.getF .rtcAlarmTime 15 ≤ h.getF .rtcCountTicks (hubNum .b) ∧ h.powered = true ∧ h.getF .rtcAlarmDomain 15 < 176 ∧
    h.domState (h.getF .rtcAlarmDomain 15) = 1 ∧ h.accepts (.mp .a) = true ∧
    (h.setF .rtcAlarmFired 15 1).flag .rtcAlarmFired 15 = true := by decide +kernel

theorem wit_RailsAndHeat :
    hall.getF .pwrRailActual 9 < 2 ^ 16 ∧ hall.railTarget 9 < 2 ^ 16 ∧ hall.getF .pwrCapWatts 0 = 0 ∧ hall.governing.isSome = true := by
  decide +kernel

/-- Each command at the edges of its ranges. -/
theorem wit_PowerTillCommands :
    (let b : Bytes := leBytes 1 5 ++ leBytes 1 1 ++ leBytes 4 (2 ^ 24 - 1) ++ leBytes 4 0
     let h := { hall with avail.pens := hall.avail.pens }
     ready h 1 0x0A01 0 b (!h.domOfPen 0 (domainOf 5) && decide (5 < 176)) false = true ∧ b.length = 10 ∧ leAt b 0 1 = 5 ∧ leAt b 1 1 = 1 ∧
     leAt b 2 4 < 2 ^ 24 ∧ (domainOf 5).has 1 = true ∧ h.domForeign 0 (domainOf 5) = false ∧ (domainOf 5).ofP0 = false) ∧
    ready hall 1 0x0A02 0xFF (leBytes 1 9 ++ leBytes 2 680) false false = true ∧
    ready hall 1 0x0A02 0xFF (leBytes 1 0 ++ leBytes 2 900) false false = true ∧
    ready hall 1 0x0A03 0xFF (leBytes 2 0) false false = true ∧ ready hall 1 0x0A03 0xFF (leBytes 2 100) false false = true ∧
    ready hall 1 0x0A03 0xFF (leBytes 2 600) false false = true ∧ ready hall 1 0x0A04 0xFF [1] false false = true ∧
    ready hall 1 0x0A05 0 [166, 10] false false = true := by decide +kernel

theorem wit_StartAndLossOfPower :
    (let h := State.reset.hall
     h.feed .a = false ∧ h.feed .b = false ∧ h.bootSlot = none) ∧
    (let h := State.reset.hall.setF (feedFld .a) 0 1
     h.feed .a = true ∧ h.feed (otherHub .a) = false ∧ h.power.shutdown = false ∧ h.brownout = false ∧ h.waitsStart = true ∧
     (h.setF .pwrStatusBrownout 0 1).brownout = true ∧ (h.setF .pwrStatusBrownout 0 1).waitsStart = true ∧
     ({ h with power.shutdown := true } : Hall).power.shutdown = true) ∧
    (let h := ({ hall with avail.mpA.state := .ready }.setF (feedFld .a) 0 1).setF (feedFld .b) 0 1
     h.feed .a = true ∧ h.feed (otherHub .a) = true ∧ h.powered = true ∧ h.waitsStart = false ∧
     (h.setF (feedFld .b) 0 0).feed .b = false ∧ (h.setF (feedFld .b) 0 0).feed (otherHub .b) = true) := by decide +kernel

theorem wit_FirmwareInstall :
    ready hall 1 0x0D01 0xFF (leBytes 12 0) false false = true ∧ (leBytes 12 0).length = 12 ∧ hall.avail.handover = none ∧
    hall.governing.isSome = true ∧ hall.trust.active = 0 := by decide +kernel

/-- Page 0 of P0 lies in T1, writable. -/
def mapped : Hall := { hall with tiers.pages := [(pageKey 0 0, mkPte 1 true false 0 0)] }

def slot : FwSlot := ⟨7, 1, []⟩

theorem wit_TrustStoreCommands :
    (let b : Bytes := leBytes 1 5 ++ leBytes 1 15 ++ leBytes 8 0 ++ leBytes 4 2
     ready mapped 1 0x0B05 0xFF b false false = true ∧ b.length = 14 ∧ Tab.find mapped.trust.keys (16 * 5 + 15) = none ∧
     ((posted mapped 1 0x0B05 0xFF b).stageCopy 0 0 2).1 = .inr [0, 0]) ∧
    (let h := { hall with trust.keys := [(16 * 1 + 15, [1])] }
     ready h 1 0x0B06 0xFF [1, 15] false false = true ∧ 1 ≠ purposeEndpoint ∧ 1 ≠ purposeNeighbour ∧
     (Tab.find h.trust.keys (16 * 1 + 15)).isSome = true) ∧
    ready hall 1 0x0B07 0 [5] false false = true ∧
    ready hall 1 0x0B03 0xFF (leBytes 12 0) false false = true ∧
    (let b : Bytes := leBytes 8 0 ++ leBytes 4 2
     ready mapped 1 0x0B03 0xFF b false false = true ∧ leAt b 8 4 ≠ 0 ∧ ((posted mapped 1 0x0B03 0xFF b).stageCopy 0 0 2).1 = .inr [0, 0]) ∧
    (let h := { hall with trust.slot0 := some slot }
     ready h 1 0x0B09 0xFF (leBytes 4 7) false false = true ∧ h.trust.rollback < 7 ∧ h.avail.handover = none ∧
     h.trust.slot1 = none ∧ 7 ≤ slot.svn ∧ h.flag .pwrStatusBrownout 0 = false) ∧
    ready hall 1 0x0B0A 0xFF [1, 1] false false = true ∧ ready hall 1 0x0D03 0xFF [] false false = true := by decide +kernel

theorem wit_ReportsAndCertificates :
    (let b : Bytes := leBytes 1 0 ++ leBytes 8 0 ++ leBytes 4 65536
     ready mapped 1 0x0B02 0 b false false = true ∧ b.length = 13 ∧ mapped.dstOk 0 0 65536 = true) ∧
    (let b : Bytes := leBytes 2 1 ++ [65] ++ leBytes 8 0 ++ leBytes 4 4096
     ready mapped 1 0x0B04 0xFF b false false = true ∧ b.length = 14 + leAt b 0 2) ∧
    (let b : Bytes := leBytes 2 0 ++ leBytes 8 0 ++ leBytes 4 4096
     ready mapped 1 0x0B04 0xFF b false false = true ∧ b.length = 14 + leAt b 0 2 ∧ mapped.dstOk 0 (leAt b 2 8) (leAt b 10 4) = true) ∧
    (let b : Bytes := leBytes 32 0 ++ leBytes 8 0 ++ leBytes 4 65536
     ready mapped 1 0x0B01 0 b false false = true ∧ b.length = 44) := by decide +kernel

/-- One granule, 1,024 granules, 1,025 granules of T1; other kinds; a change under way. -/
theorem wit_WorldTable :
    (let b : Bytes := [9, 0] ++ leBytes 4 reservePages ++ leBytes 4 1
     ready hall 1 0x0B08 0xFF b false false = true ∧ b.length = 10 ∧ hall.watAllowed 9 reservePages false = true ∧
     hall.watZeroes 9 reservePages 1 false ≤ 1024 ∧ hall.secureEntry 9 reservePages = true ∧ hall.mem.ok = true) ∧
    hall.watZeroes 9 reservePages 1024 false = 1024 ∧ ((List.range 1024).all fun i => hall.watAllowed 9 (reservePages + i) false) = true ∧
    1024 < hall.watZeroes 9 reservePages 1025 false ∧ ((List.range 1025).all fun i => hall.watAllowed 9 (reservePages + i) false) = true ∧
    ready hall 1 0x0B08 0xFF ([10, 1] ++ leBytes 4 4095 ++ leBytes 4 1) false false = true ∧ hall.watAllowed 10 4095 true = true ∧
    4095 + 1 ≤ watCount 10 ∧
    (let h := { hall with trust.zeroing := [(3, (9, false, (2097152 + halfPages - 1), 1))] }
     Tab.find h.trust.zeroing 3 = some (9, false, (2097152 + halfPages - 1), 1) ∧ h.watAllowed 9 (2097152 + halfPages - 1) false = true) := by decide +kernel

def online : Hall := ((hall.setF .mgmtStatusLink 0 1).setF .mgmtCfgEnable 0 1)

/-- A request frame to every station. -/
def request (typ : Nat) (content : Bytes) : Bytes :=
  beBytes 6 (2 ^ 48 - 1) ++ beBytes 6 5 ++ beBytes 2 0x88B5 ++ beBytes 1 1 ++ beBytes 1 typ ++ beBytes 2 content.length ++ beBytes 4 9 ++
    List.replicate 24 0 ++ content ++ List.replicate (14 - content.length) 0

theorem wit_ManagementPort :
    hall.flag .mgmtStatusLink (hubNum .a) = false ∧ hall.hubLost .a = false ∧ online.linkOn .a = true ∧
    (online.link .a).queue.length < 256 ∧
    (let h := { online with mgmt.a.queue := [⟨1, 0, none, []⟩] }
     (h.link .a).queue = [⟨1, 0, none, []⟩] ∧ h.flag .mgmtStatusLink (hubNum .a) = true ∧ h.hubLost .a = false) ∧
    online.flag .mgmtCfgReq (hubNum .a) = false ∧
    (online.mgmtRequest .a (request 0x10 (beBytes 4 0 ++ beBytes 2 64)) 0x10).isSome = true ∧
    (online.mgmtRequest .a (request 0x11 (beBytes 32 0)) 0x11).isSome = true ∧
    (let h := { online.setF .mgmtCfgReq 0 1 with mgmt.a.answered := 15 }
     h.flag .mgmtCfgReq (hubNum .a) = true ∧ (h.link .a).answered < 16 ∧
     (h.mgmtRequest .a (request 0x10 (beBytes 4 0 ++ beBytes 2 1)) 0x10).isSome = true ∧
     (h.mgmtRequest .a (request 0x11 (beBytes 32 0)) 0x11).isSome = true) ∧
    (online.mgmtTakes .a (request 0x12 [])).map MgmtIn.bad = some true ∧
    ready hall 1 0x0C02 0xFF ([1, 1, 1, 60] ++ beBytes 6 5) false false = true ∧
    ({ hall with junctionA.held := [⟨true, .poison, 0, 0⟩] } : Hall).junctionA.held = ⟨true, .poison, 0, 0⟩ :: [] := by decide +kernel

def withPen (p : Nat) (x : Pen) : Hall := { hall with avail.pens := Tab.set hall.avail.pens p x }

def noReq (pen : Nat) : Req := ⟨.a, pen, 0, 0, 0, 0, 0, 0, 0, 0, 0, 0, 0, false, false, [], 0, 0, false, false, true, 0⟩

theorem wit_PenLifeCycle :
    ready hall 1 0x0101 31 ([1, 254] ++ leBytes 2 10000) false false = true ∧ ready hall 1 0x0101 2 ([0, 1] ++ leBytes 2 1) false false = true ∧
    hall.penExists 31 = false ∧ hall.penExists 2 = false ∧
    ready hall 1 0x0102 1 [] false false = true ∧ hall.weights.lots = [] ∧ (hall.pen 1).state ≠ .resetting ∧
    ready hall 33 0x0107 1 [0, 1] false false = true ∧ ready hall 1 0x0107 0 [2, 0] true false = true ∧
    ready hall 1 0x0107 0 [1, 1] true false = true ∧ (hall.pen 0).state ≠ .resetting ∧
    ready hall 1 0x0108 1 [] false false = true ∧ (hall.pen 1).state = .up ∧
    ready (withPen 1 { state := .wedged }) 1 0x0108 1 [] false false = true ∧ ((withPen 1 { state := .wedged }).pen 1).state = .wedged ∧
    (let h := withPen 1 { state := .shed }
     ready h 1 0x0109 1 [] false false = true ∧ (h.pen 1).state = .shed ∧ h.decodeFits (1 :: h.livePens) = true ∧
     h.framesFit (1 :: h.livePens) = true) ∧
    ready hall 1 0x010B 0xFF [] false false = true ∧
    (let h := { hall with data.requests := [(1, noReq 1)] }
     (h.pen 1).state = .up ∧ ∃ e ∈ h.data.requests, e.2.pen = 1) ∧
    (let h := withPen 1 { state := .resetting, reset := some { toShed := true } }
     (h.pen 1).state = .resetting ∧ (h.pen 1).reset = some { toShed := true }) := by decide +kernel

theorem wit_PenMembership :
    ready hall 1 0x0103 1 [0, 2, 0, 0, 7, 15] false false = true ∧
    ((posted hall 1 0x0103 1 [0, 2, 0, 0, 7, 15]).tillCmd 1).stallList 2 2 = some [0, 127] ∧ [0, 127].Nodup ∧
    hall.stallFree 0 = true ∧ hall.stallFree 127 = true ∧ hall.weights.lots = [] ∧
    (let h := hall.setF .tallyStallPen 127 1
     ready h 1 0x0103 1 [1, 1, 7, 15] false false = true ∧ h.stallPen 127 = 1 ∧ h.stallLoose 127 = true) ∧
    ready hall 1 0x0104 1 ([1] ++ leBytes 2 32 ++ leBytes 2 96) false false = true ∧ hall.penSecure 1 = false ∧
    (∀ n, n < 96 → hall.getF .tillState (32 + n) ≠ 1 ∧ hall.getF .tillState (32 + n) ≠ 2) ∧
    ready hall 1 0x0104 1 ([2] ++ leBytes 2 16383 ++ leBytes 2 1) false false = true ∧ (hall.que 16383).qrec = none ∧
    ready hall 1 0x0104 1 [3, 15, 16] false false = true ∧
    ((List.range 32).map fun p => if p = 1 then 0 else hall.share 15 p).sum + 16 ≤ 16 ∧ hall.declared 15 (some 1) ≤ 16 * 77500000 ∧
    (let h := withPen 31 { state := .up }
     ready h 1 0x0106 1 ([31, 1] ++ leBytes 12 0) false false = true ∧ h.penExists 31 = true ∧ h.penSecure 31 = h.penSecure 1 ∧
     (h.pen 31).state ≠ .resetting ∧ (h.pen 31).partner = none ∧ (h.pen 1).partner = none ∧ (h.pen 1).state ≠ .resetting) ∧
    ready hall 1 0x010A 0xFF [1, 7, 15] false false = true ∧
    ((posted hall 1 0x010A 0xFF [1, 7, 15]).tillCmd 1).stallList 1 1 = some [127] ∧ hall.data.stalls = [] ∧
    ready hall 1 0x010C 0 [] true false = true ∧ ready hall 33 0x010C 1 [] false false = true ∧
    (let h := { hall with avail.pens := [(1, { state := .up, partner := some 2 }), (2, { primary := true, unsynced := true })] }
     (h.pen 1).partner = some 2 ∧ (h.pen 1).state = .up ∧ (h.pen 2).primary = true ∧ (h.pen 2).unsynced = true) := by decide +kernel

theorem wit_QueueEnabling :
    (let h := hall.updQue 16383 fun q => { q with grant := some 1 }
     let b : Bytes := leBytes 2 16383 ++ [0, 1, 16, 0] ++ leBytes 2 63 ++ leBytes 8 4096 ++ leBytes 8 0 ++ leBytes 2 16382 ++ leBytes 6 0 ++ [1]
     let g := posted h 1 0x0105 1 b
     ready h 1 0x0105 1 b false true = true ∧ b.length = 33 ∧ g.queRecOk (g.tillCmd 1) (decodeQueRec (g.tillCmd 1)) = true ∧
     (h.que 16383).grant = some 1 ∧ (h.que 16383).qrec = none ∧ h.flag .queStatusEnabled 16383 = false ∧
     (decodeQueRec (g.tillCmd 1)).typ ≠ 2 ∧ leAt b 32 1 = 1) ∧
    (let b : Bytes := leBytes 2 5 ++ [1, 1, 4, 0] ++ leBytes 2 0 ++ leBytes 8 0 ++ leBytes 8 0 ++ leBytes 2 0 ++ leBytes 6 0 ++ [0]
     let h := (hall.updQue 5 fun q => { q with grant := some 1, qrec := some ⟨1, false, 1, 4, 0, 0, 0, 0, 0⟩ }).setF .queStatusEnabled 5 1
     let g := posted h 1 0x0105 1 b
     ready h 1 0x0105 1 b false true = true ∧ g.queRecOk (g.tillCmd 1) (decodeQueRec (g.tillCmd 1)) = true ∧
     (h.que 5).qrec = some (decodeQueRec (g.tillCmd 1)) ∧ h.flag .queStatusEnabled 5 = true ∧ (h.que 5).inFlight = 0) := by decide +kernel

theorem wit_FunctionResets :
    let h := { hall with portB.vfs := [1, 31] }
    1 ∈ (h.port .b).vfs ∧ (h.pen 1).state = .up ∧ (h.till 127).vf = none := by decide +kernel

/-- Both MPs there, a handover in each of its phases. -/
def handing (st : MpState) (ph : Option HandoverPhase) : Hall :=
  { hall with avail.mpA.state := .ready, avail.mpB.state := st, avail.handover := ph.map fun p => ⟨1, false, p⟩, trust.slot0 := some slot }

theorem wit_ProcessorFailures :
    (let h := handing .ready none
     (h.mp .b).state = .ready ∧ h.hubLost .b = false ∧ h.governing = some .a ∧ (h.mp (otherHub .a)).state ≠ .romRecovery ∧
     ready h 1 0x0D02 0xFF [0] false false = true ∧ h.avail.handover = none ∧ (h.fwSlot h.trust.active).isSome = true) ∧
    (let h := handing .off none
     h.governing = some .a ∧ (h.mp (otherHub .a)).state ≠ .ready) ∧
    (let h := handing .starting (some .standbyRestarting)
     h.governing = some .a ∧ h.avail.handover = some ⟨1, false, .standbyRestarting⟩ ∧ (h.mp .a).state = .ready ∧
     (h.mp (otherHub .a)).state = .starting ∧ h.hubLost (otherHub .a) = false) ∧
    (handing .ready (some .standbyReady)).avail.handover = some ⟨1, false, .standbyReady⟩ ∧
    (let h := handing .starting (some .roleMoved)
     h.governing = some .a ∧ h.avail.handover = some ⟨1, false, .roleMoved⟩ ∧ (h.mp .a).state = .ready ∧
     (h.mp (otherHub .a)).state = .starting) := by decide +kernel

theorem wit_UnitsLost :
    (dom hall 127 2).domState 127 = 2 ∧ (dom hall 127 2).stallRetired 127 = false ∧ hall.avail.lostLinks.contains 15 = false ∧
    (hall.setF .tallyStallState 127 2).stallRetired 127 = true ∧ 127 ∉ hall.checks.retired ∧ hall.governing.isSome = true ∧
    7 ∉ hall.avail.lostRows ∧ hall.data.tallies = [] ∧ hall.hubLost .b = false := by decide +kernel

theorem wit_GooseOutputs :
    hall.hubLost .b = false ∧ hall.penExists 0 = true ∧ (hall.setF .gooseStatusStale 0 0).flag .gooseStatusStale 0 = false := by
  decide +kernel

/-! Images, stalls and steps: the pen 1 has image 1 (records of one row, one column, K 128, no operands unless said), bound
to stall 0. -/

/-- A step record. -/
def stepRec (eng direct afmt wfmt param opsN : Nat) (opndA : Nat := 0) : Nat :=
  leNat (leBytes 1 eng ++ leBytes 1 (2 ^ 4 * direct) ++ [0] ++ leBytes 1 (afmt + 16 * wfmt) ++ leBytes 10 0 ++ leBytes 3 127 ++ leBytes 3 0 ++
    leBytes 4 opndA ++ leBytes 12 0 ++ leBytes 4 param ++ leBytes 16 0 ++ leBytes 4 (opsN * 2 ^ 22))

def image (st : ImgState) : Image := { pen := 1, state := st, rows := [(0, 0)], limgs := [(0, 0)] }

def bound (x : Stall) : Hall :=
  dom { hall with data.images := [(1, image .active)], data.stalls := [(0, { x with image := some 1 })] } 0 2

def noStep : Running := { idx := 0, pass := 0, ctx := 0, key := ⟨0, 0, 0, 0⟩, epoch := 0, token := 0 }

def withImage (st : ImgState) : Hall := { hall with data.images := [(1, image st)] }

theorem wit_ScheduleCommands :
    ready hall 33 0x0201 1 (leBytes 13 0) false false = true ∧ ready hall 1 0x0201 0 (leBytes 13 0) true false = true ∧
    (withImage .loaded).image 1 = some (image .loaded) ∧ (image .loaded).pen = 1 ∧
    ready (withImage .loaded) 33 0x0202 1 (leBytes 4 1) false false = true ∧
    ready (withImage .active) 33 0x0203 1 (leBytes 4 1) false false = true ∧
    ready (withImage .paused) 33 0x0204 1 (leBytes 4 1) false false = true ∧
    ready (withImage .active) 33 0x0205 1 (leBytes 4 1) false false = true ∧ (withImage .active).inFlight 1 = 0 ∧
    ready (withImage .loading) 33 0x0206 1 (leBytes 4 1) false false = true ∧
    (withImage .loading).image 1 = some (image .loading) ∧ (image .loading).fault = 0 := by decide +kernel

/-- Request queue 5 with one entry of zeros, result queue 7; launch entry 0 of pen 1 open, closed, or absent. -/
def entry0 (b : Bool) : LaunchEntry :=
  { handle := 1, intake := 0, exit := 0, maxIn := 0, minOut := 0, inflight := 1, valid := true, hreq := true, intakeOn := b }

def asking (l : Tab LaunchEntry) : Hall :=
  let h := (({ hall with data.launch := l }.updQue 5 fun q => { q with qrec := some ⟨0, false, 1, 4, 0, 0, 0, 0, 7⟩ }).updQue 7 fun q =>
    { q with qrec := some ⟨1, false, 1, 4, 0, 0, 0, 0, 0⟩ })
  ((h.setF .queStatusEnabled 5 1).setF .queStatusEnabled 7 1).setF .queProd 5 1

theorem wit_RequestTaken :
    let r : QueRec := ⟨0, false, 1, 4, 0, 0, 0, 0, 7⟩
    let e := decodeReq (List.replicate 64 0)
    (∀ l ∈ [[], [(256, entry0 false)], [(256, entry0 true)]], ((asking l).que 5).qrec = some r ∧ (asking l).flag .queStatusEnabled 5 = true ∧
      (asking l).queCount 5 ≠ 0 ∧ (asking l).resReady r.resultQueue = true ∧ ((asking l).pen r.pen).state = .up ∧
      (asking l).hostRead (r.base + 64 * (asking l).getF .queCons 5) 64 = List.replicate 64 0) ∧
    (asking [(256, entry0 true)]).intakeRefusal r e = none ∧ (asking [(256, entry0 true)]).launchOpen 1 e.launch = true ∧
    (asking [(256, entry0 false)]).intakeRefusal r e = none ∧ (asking [(256, entry0 false)]).launchOpen 1 e.launch = false ∧
    ((asking []).intakeRefusal r e).isSome = true := by decide +kernel

/-- A record without operands is ready; one whose operand's trough is not there is not. -/
theorem wit_StallDispatches :
    (let h := bound { steps := [stepRec 1 0 0 0 0 0] }
     h.stallImage 0 = some (image .active) ∧ (image .active).state.runs = true ∧ h.stallRetired 0 = false ∧ (h.stall 0).stuck = false ∧
     h.domState 0 = 2 ∧ (h.stall 0).point = some (0, 0) ∧ (h.stall 0).clears = [] ∧
     (h.stepRef 0 (0, 0)).map (fun r => decide (r.st.alt = []) && (h.ready r).1) = some true) ∧
    (let h := bound { steps := [stepRec 1 0 0 0 0 0 (2 ^ 8)] }
     (h.stall 0).point = some (0, 0) ∧
     (h.stepRef 0 (0, 0)).map (fun r => decide (r.st.alt = []) && !(h.ready r).1) = some true) ∧
    (bound { steps := [], stuck := true }).stallImage 0 = some (image .active) ∧ (bound { steps := [] }).stallRetired 0 = false ∧
    (bound { steps := [] }).domState 0 = 2 ∧ hall.domState 0 ≠ 2 ∧ (hall.setF .tallyStallState 0 2).stallRetired 0 = true := by
  decide +kernel

/-- A running Ox step that waits for weights: its first block can be fetched; the block in a lane can be decoded; the tile waits. -/
def fetching (e : Expander) : Hall :=
  bound { steps := [stepRec 0 0 0 0 0 0], ox := some { noStep with inW := some ⟨0, [0], 1, false⟩ }, exp := e }

theorem wit_StepsOnOxAndVu_fetch :
    ((fetching {}).onEngine 0 0).any (fun z => !z.2.direct && decide (0 < stepBlocks z.2 * rowTiles z.2) && decide (0 % stepBlocks z.2 % 16 = 0) &&
      decide (z.1.inW = some ⟨0, [0], 1, false⟩) && decide (((fetching {}).blockAt 0 z.2 ⟨0, [0], 1, false⟩ 0).1 < 1) &&
      decide (z.1.tile < rowTiles z.2 * colTiles z.2 z.1.chk) && ((fetching {}).tileReady 0 z.1 z.2).isNone) = true ∧
    (((fetching { lanes := [(0, [⟨0, none, none⟩])] }).stall 0).exp.lane 0).find? (fun c => c.decoded.isNone) = some ⟨0, none, none⟩ := by
  decide +kernel

/-- A running Ox step in direct mode, before its tile and after it. -/
def direct (t : Nat) : Hall := bound { steps := [stepRec 0 1 0 0 0 0], ox := some { noStep with tile := t } }

theorem wit_StepsOnOxAndVu_tile :
    ((direct 0).onEngine 0 0).any (fun z => z.2.direct && decide (z.1.tile < rowTiles z.2 * colTiles z.2 z.1.chk) &&
      ((direct 0).tileReady 0 z.1 z.2).isSome) = true ∧
    ((direct 1).onEngine 0 0).any (fun z => decide (rowTiles z.2 * colTiles z.2 z.1.chk ≤ z.1.tile) && z.1.inU.isNone && z.1.out.isNone &&
      !z.1.mismatch) = true ∧ ((direct 1).stall 0).image.isSome = true := by decide +kernel

/-- A running VU step whose list ends in QTOKEN, and one without a list. -/
def perToken : Hall :=
  (bound { steps := [stepRec 1 0 0 0 64 1], troughs := [(1, { desc := ⟨0, 1, 1, 0, 0, 0, 0⟩ })], vu := some { noStep with out := some ⟨1, [0], 1, false⟩ } }).writeBytes
    (storeBase 0 + 64) [0x31]

theorem wit_StepsOnOxAndVu_vu :
    (perToken.onEngine 0 1).any (fun z => opsPerToken (perToken.opsOf 0 z.2) && decide (z.1.rowsDone < z.2.rows) && z.1.inA.isNone &&
      z.1.inU.isNone && z.1.out.any fun t => (perToken.openOut 0 1 (rowSlot z.2.ofmt z.2.rows t.n z.1.rowsDone).1).isSome) = true ∧
    (let h := bound { steps := [stepRec 1 0 0 0 0 0], vu := some noStep }
     (h.onEngine 0 1).any (fun z => !opsPerToken (h.opsOf 0 z.2) && z.1.inA.isNone && z.1.inU.isNone && z.1.out.isNone && !z.1.mismatch) = true ∧
     (h.stall 0).image.isSome = true) := by decide +kernel

/-- Each operation of the Hen named by the parameter block of a running step, and an idle Hen. -/
def henOn (op : Nat) : Hall :=
  (bound { steps := [stepRec 2 0 0 0 64 0], hen := some noStep }).writeBytes (storeBase 0 + 64) (leBytes 1 op)

theorem wit_HenOperations :
    (∀ op ∈ [0x01, 0x02, 0x03, 0x04, 0x05, 0x06, 0x08, 0x09, 0x0A, 0x0B, 0x0C, 0x0D, 0x0E, 0x10, 0x11],
      ((henOn op).onEngine 0 2).any (fun z => decide ((decodeHen ((henOn op).storeBytes 0 z.2.param 64)).op = op) && z.1.inA.isNone &&
        z.1.out.isNone && (henOn op).henOutFree 0 z.1 && !z.1.mismatch) = true) ∧
    ((henOn 1).stall 0).image.isSome = true ∧ (hall.onEngine 0 2).isNone = true := by decide +kernel

/-- Two ascending lists of two values. -/
theorem wit_SortedKeysAndSets :
    let h := (hall.writeBytes 0 (leBytes 16 2 ++ leBytes 4 1 ++ leBytes 4 5)).writeBytes 64 (leBytes 16 2 ++ leBytes 4 5 ++ leBytes 4 9)
    let m : HenMem := { hall := h, base := 0 }
    (m.list 0 (m.count 0 8).1).map Elem.raw = [1, 5] ∧ (m.list 64 (m.count 64 8).1).map Elem.raw = [5, 9] ∧
    ascending (m.list 0 (m.count 0 8).1) = true ∧ ascending (m.list 64 (m.count 64 8).1) = true ∧
    ((m.list 0 (m.count 0 8).1 ++ m.list 64 (m.count 64 8).1).any fun e => e.poison) = false := by decide +kernel

/-- A tile of one row, one column and K 2, INT8 by INT8 (pair 0), within the array. -/
def tile : TileIn :=
  { pair := 0, afmt := 1, wfmt := 1, ofmt := 8, checks := true, ftol := 0, epilogue := false, token := false, za := 0
    a := [[{ raw := 0x7F }, { raw := 0x80 }]], w := [[{ raw := 0x80 }, { raw := 0xFF }]] }

theorem wit_IntegerChecksExact :
    pairFloat tile.pair = false ∧ pairOk tile.pair tile.afmt tile.wfmt = true ∧ (∀ r ∈ tile.a, r.length = 2) ∧
    (∀ c ∈ tile.w, c.length = 2) ∧ tile.a.length ≤ pairRows tile.pair ∧ tile.w.length ≤ pairCols tile.pair true ∧
    (∀ u ∈ [(⟨0, 0, 1⟩ : Upset)], u.row < tile.a.length ∧ u.col < tile.w.length) ∧ rowPoison (tile.a.getD 0 []) = false ∧
    rowPoison (tile.w.getD 0 []) = false := by decide +kernel

theorem wit_IntegerUpsetLocated :
    tile.checks = true ∧ (∀ r ∈ tile.a, rowPoison r = false) ∧ (∀ c ∈ tile.w, rowPoison c = false) ∧ (2 ^ 39) % 2 ^ 40 ≠ 0 := by decide +kernel

theorem wit_Requantisation :
    tile.ofmt = 8 ∧ tile.outl = [] ∧ (((intTile tile []).out[0]?).bind fun l => l[0]?).map (fun e => e.poison) = some false ∧
    (-128 : Int) ≤ 127 ∧ (-2147483648 : Int) ≤ 2147483647 := by decide +kernel

/-! Runs and checks. -/

/-- A run of pen 1 in row 0 with its one step done. -/
def run1 : GroupRun := { key := ⟨0, 0, 0, 0⟩, handle := 1, pen := 1, nstep := 1, stepsDone := 1 }

def withRun (r : GroupRun) : Hall := { withImage .active with data.ledgers := [(0, { runs := [r] })] }

theorem wit_CommitAndAbort :
    (withRun run1).oldestRun 0 0 = some run1 ∧ (withRun run1).mayCommit run1 = true ∧ ((withRun run1).ledger 0).clearStats = false ∧
    ((withRun run1).pen 1).partner = none ∧ (withRun { run1 with nstep := 2 }).oldestRun 0 0 = some { run1 with nstep := 2 } ∧
    (withRun { run1 with nstep := 2 }).mayCommit { run1 with nstep := 2 } = false ∧ (hall.oldestRun 0 0).isNone = true ∧
    (withRun run1).findRun ⟨0, 0, 0, 0⟩ = some run1 ∧ ((withRun run1).pen 1).state ≠ .resetting ∧ run1.closing = false ∧
    ({ withRun run1 with avail.pens := [(1, { state := .resetting })] }.pen 1).state = .resetting ∧
    (hall.findRun ⟨7, 7, 0, 0⟩).isNone = true ∧
    (withRun { run1 with undo := [⟨0, [1], {}, none⟩] }).dependents [⟨0, 0, 0, 0⟩] = [] := by decide +kernel

def item0 : CheckItem :=
  { id := 3, key := ⟨0, 0, 0, 0⟩, epoch := 0, stall := 0, idx := 0, ctx := 0, token := 0, pen := 1, engine := 0, pair := 0, digest := 5, clean := 5, phase := .waitPlace }

/-- The item awaits settlement in row 0; stall 127 is a spare. -/
def checking (c : CheckItem) (more : List RepeatItem := []) : Hall :=
  { hall with data.tallies := [(0, { items := [c], repeats := more })] }.setF .tallyStallRole 127 3

theorem wit_VotesAndShadows :
    (let c := { item0 with phase := .shadowRun, shadow := some 16 }
     (checking c).item 0 3 = some c ∧ (checking c).selftest 0 = false ∧ c.clean ^^^ 0 = c.digest ∧ c.clean ^^^ 1 ≠ c.digest ∧
     (checking c).candidates c ≠ [] ∧ ∀ d ∈ ((checking c).tally 0).items, d.phase = .waitReferee → d.id = 3) ∧
    (let c := { item0 with phase := .waitReferee }
     ((checking c).candidates c).find? ((checking c).refereeFree c) = some 127 ∧
     (((checking c).setF .tallyStallRole 127 0).candidates c).find? (((checking c).setF .tallyStallRole 127 0).refereeFree c) = none) ∧
    (let c := { item0 with phase := .refereeRun, referee := some 127 }
     (checking c).item 0 3 = some c) ∧
    (let c := { item0 with phase := .repeating, verdict := some (2, 5, 0) }
     (checking c).item 0 3 = some c ∧ ((checking c).tally 0).repeats.find? (fun x => x.id = 3) = none) ∧
    (let x : RepeatItem := ⟨3, ⟨0, 0, 0, 0⟩, 0, 0, 5, 0, some (5, false), item0⟩
     ((checking { item0 with id := 4 } [x]).tally 0).repeats.find? (fun x => x.id = 3) = some x ∧
     ((checking { item0 with id := 4 } [x]).tally 0).stallDue = [] ∧ (checking { item0 with id := 4 } [x]).getF .tallyStallState 0 = 0) ∧
    ((checking item0).setF .tallyStatusSelftest 0 1).selftest 0 = true := by decide +kernel

/-- A pack of one test for the Ox. -/
def pack1 : Pack := ⟨1, 1, List.replicate 6 0 ++ [1, 0] ++ List.replicate 88 0⟩

theorem wit_SelfTestsAndPatternTests :
    hall.accepts (.mp .a) = true ∧ hall.accepts (.mp .b) = false ∧ hall.selftest 0 = false ∧
    ((hall.setF .tallyStatusSelftest 0 1).selftest 0 = true ∧ ((hall.setF .tallyStatusSelftest 0 1).tally 0).goDue = false ∧
      ((hall.setF .tallyStatusSelftest 0 1).tally 0).items = []) ∧
    hall.governing.isSome = true ∧ State.reset.hall.governing = none ∧
    (let h := { hall.setF .tallyStallState 0 1 with checks.totals := [(0, ⟨dayTicks, 0⟩)] }
     h.getF .tallyStallState 0 = 1 ∧ dayTicks ≤ (Tab.get ({} : StallTotals) h.checks.totals 0).observed ∧ (h.stall 0).lastPackPassed = true) ∧
    hall.getF .tallyStallState 0 ≠ 1 ∧
    (let h := { hall with data.tallies := [(0, { watch := true })], checks.watchTicks := [(0, dayTicks)] }
     (h.tally 0).watch = true ∧ dayTicks ≤ Tab.get 0 h.checks.watchTicks 0) ∧ (hall.tally 0).watch = false ∧
    (let h := { hall.setF .tallyStallRole 0 3 with checks.pack := some pack1, checks.totals := [(0, ⟨0, hourTicks⟩)] }
     h.getF .tallyStallState 0 ≠ 1 ∧ h.getF .tallyStallRole 0 = 3 ∧ hourTicks ≤ (Tab.get ({} : StallTotals) h.checks.totals 0).packAge ∧
     (h.stall 0).packRun = none ∧ h.stallRetired 0 = false) ∧
    (let h := { hall with checks.pack := some pack1, data.stalls := [(0, { packRun := some [0] })] }
     h.nextTest 0 = some 0 ∧ h.testMoment 0 = true) ∧
    (bound { steps := [], stuck := true }).testMoment 0 = false ∧ (hall.stall 0).test = none := by decide +kernel

theorem wit_SelfTestsAndPatternTests_end :
    (({ hall with data.stalls := [(0, { test := some ⟨0, true, 0, 0, 0, 0, 0, 1, 1, []⟩ })] } : Hall).stall 0).test =
      some ⟨0, true, 0, 0, 0, 0, 0, 1, 1, []⟩ := by decide +kernel

theorem wit_CheckCommands :
    ready hall 33 0x0501 1 [1, 0] false false = true ∧ ready hall 1 0x0501 0 [0, 7] true false = true ∧
    ((hall.setFs 1 [(.tallyPenchkChkOn, 1), (.tallyPenchkFCode, 0)]).designate 1).isSome = true ∧
    (let h := (bound { steps := [] }).setF .tallyStallPen 0 1
     ready h 33 0x0501 1 [1, 7] false false = true ∧ ((h.setFs 1 [(.tallyPenchkChkOn, 1), (.tallyPenchkFCode, 7)]).designate 1).isNone = true) ∧
    ready hall 33 0x0502 1 [] false false = true ∧
    (let h := { hall with checks.pack := some pack1 }
     ready h 1 0x0503 0 ([1, 7, 15] ++ leBytes 4 0 ++ leBytes 4 10000) true false = true ∧
     ((posted h 1 0x0503 0 ([1, 7, 15] ++ leBytes 4 0 ++ leBytes 4 10000)).tillCmd 1).stallList 1 1 = some [127] ∧ pack1.select 0 ≠ []) ∧
    ready hall 1 0x0504 0 (leBytes 12 0) false false = true ∧ ready hall 33 0x0C01 1 (leBytes 6 0) false false = true ∧
    Tab.find hall.checks.probes 2 = none ∧ (Tab.find ({ hall with checks.probes := [(2, ⟨0, [], 0, 0, none⟩)] } : Hall).checks.probes 2).isSome = true ∧
    Tab.find hall.checks.packInstalls 2 = none ∧
    Tab.find ({ hall with checks.packInstalls := [(2, (0, []))] } : Hall).checks.packInstalls 2 = some (0, []) := by decide +kernel

/-! Lot reads, the pool, channels, weight arrays. -/

def read1 (res : Option Payload) : LotRead := { hub := .a, chan := 0, pen := 1, page := 0, addr := 0x040000000000, n := 64, result := res }

def reading (res : Option Payload) : Hall := { hall with tiers.reads := [(4, read1 res)], avail.lostRows := [] }

def rowsOn (h : Hall) : Hall := (dom (dom h 128 2) 132 2)

def pooled (x : PoolFrame) : Hall := rowsOn { hall with tiers.poolA.frames := [(9, x)] }

theorem wit_LotReadsAndPool :
    Tab.find hall.tiers.reads 4 = none ∧ Tab.find (reading none).tiers.reads 4 = some (read1 none) ∧
    Tab.find (reading (some [{ b := 1 }])).tiers.reads 4 = some (read1 (some [{ b := 1 }])) ∧
    (let h := rowsOn (reading none)
     let x := read1 none
     x.addr < 0x080000000000 ∧ x.failed = [] ∧ h.rowGone x.pref = false ∧ h.rowGone ((x.pref + 4) % 8) = false ∧
     h.bankFree x.pref (nvBank x.prefBlk) = true ∧ h.bankSuspended x.pref (nvBank x.prefBlk) = false) ∧
    Tab.find (hall.pool .a).frames 9 = none ∧
    (∀ x ∈ [({ state := .filling, home := 0x04000000 } : PoolFrame), { state := .draining, next := some 0x04000001 }, { state := .invalid },
      { state := .valid }], Tab.find ((pooled x).pool .a).frames 9 = some x) ∧ 0x04000000 * 65536 < 0x080000000000 ∧
    hall.region (0x001E00000000 / 64 * 64) ≠ .t1 .a ∧ hall.region ((0x001E00000000 / 64 - 1) * 64) = .t1 .a := by decide +kernel

theorem wit_LotReadsAndPool_fill :
    ((pooled { state := .filling, home := 0x04000000 }).nvMirrorRead ((0x04000000 * 65536 - 0x040000000000) / 0x008000000000 % 4)
      (0x04000000 * 65536 % 0x008000000000) 65536).1.any (fun p => !p.any fun (y : PByte) => y.poison) = true := by decide +kernel

/-- A hub channel of image 1 with one descriptor, LAST, from T1 to T1. -/
def chan0 (st : Nat) (x : ChanSt) : Hall :=
  let im : Image := { image .active with sections := [⟨5, 255, 255, List.replicate 48 0 ++ [0x88] ++ List.replicate 3 0 ++ [1] ++ List.replicate 11 0⟩] }
  { hall with data.images := [(1, im)], tiers.chans := [(0, { x with handle := some 1 })] }.setF .brwChState 0 st

def dmaBurst (d : Dest) (p : Option Payload) : DmaBurst := { n := 4, dest := d, payload := p }

theorem wit_BarrowChannels :
    hall.accepts (.mp .a) = true ∧ hall.accepts (.mp .b) = false ∧ hall.getF .brwChState (chanNum (.row 7 63)) = 0 ∧
    (chan0 1 {}).getF .brwChState 0 ≠ 0 ∧ (chan0 1 {}).getF .brwChState 0 ≠ 3 ∧
    ((chan0 3 { restartDue := some 0 }).chan 0).restartDue = some 0 ∧ (chan0 3 {}).getF .brwChState 0 = 3 ∧
    ((chan0 3 {}).curDesc 0).isSome = true ∧ ((chan0 3 { failing := some (1, 2, 3, 4) }).chan 0).failing = some (1, 2, 3, 4) ∧
    (engineChans (engineNum (.hub .a))).filter (fun c => hall.getF .brwChState c = 1 && hall.flag .brwChCtrlEnable c) = [] ∧
    (let h := (chan0 1 {}).setF .brwChCtrlEnable 0 1
     let live := (engineChans (engineNum (.hub .a))).filter fun c => h.getF .brwChState c = 1 && h.flag .brwChCtrlEnable c
     live = [0] ∧ h.chooseChan 0 (live.filter h.burstReady) = some 0) ∧
    (hall.chan 0).outstanding = [] ∧
    (∀ b ∈ [dmaBurst .drop none, dmaBurst .drop (some [{ b := 1 }]), dmaBurst (.prov 0x00F000000000) (some [{ b := 1 }])],
      ((chan0 1 { outstanding := [b] }).chan 0).outstanding = b :: []) ∧
    ((chan0 2 {}).getF .brwChState 0 = 2 ∧ (chan0 2 {}).burstReady 0 = true) ∧ ¬ hall.getF .brwChState 0 = 2 ∧
    (let h := chan0 1 { issuedAll := true }
     (h.curDesc 0).any (fun d => d.last) = true ∧ (h.chan 0).issuedAll = true ∧ (h.chan 0).outstanding = [] ∧ h.getF .brwChState 0 = 1 ∧
     h.chanLaunch 0 true = false) := by decide +kernel

/-- The controller of row 7 in an unlock sequence. -/
def unlocking (st : Nat) (u : Unlock) : Hall := { hall with weights.arrays := [(7, { unlock := some u })] }.setF .nvmcStatusUnlock 7 st

def cycle (v : Nat) : Bytes := leBytes 4 v

theorem wit_ArrayCommands_sequence :
    hall.t2Bytes ≤ 0x007FFFFFFFFF ∧ 0xAAA8 < hall.t2Bytes ∧ hall.governing ≠ some .b ∧ hall.governing = some .a ∧
    (hall.array 7).unlock = none ∧ cmdCycle (cycle 0x5A5A) = some 0x5A5A ∧ cmdCycle (cycle 0x5A5B) ≠ some 0x5A5A ∧
    ((unlocking 1 { owner := .a }).array 7).unlock = some { owner := .a } ∧ (unlocking 1 { owner := .a }).getF .nvmcStatusUnlock 7 = 1 ∧
    cmdCycle (cycle 0xA5A5) = some 0xA5A5 ∧ 0x5550 < hall.t2Bytes ∧ (unlocking 2 { owner := .a }).getF .nvmcStatusUnlock 7 = 2 ∧
    cmdKnown 0x4020 = true ∧ cmdCycle (cycle 0x4020) = some 0x4020 ∧
    (unlocking 3 { owner := .a, word := 0x20 }).getF .nvmcStatusUnlock 7 = 3 ∧ cmdCode 0x20 ≠ 0x10 ∧ cycleFits 0x20 0 0x30 = true ∧
    cycleFits 0x20 0 0x31 = false := by decide +kernel

/-- A complete sequence of each command, run and refused. -/
theorem wit_ArrayCommands_run :
    (∀ e ∈ [(0x10, 0), (0x20, 0x30), (0x30, 0), (0x30, 1), (0x70, 0), (0x60, 1), (0x61, 1), (0x62, 1)],
      let u : Unlock := { owner := .a, word := e.1, value := e.2, complete := true }
      let h := (unlocking 0 u).setF .nvmcWp 56 0
      (h.array 7).unlock = some u ∧ cmdCode u.word = e.1 ∧ (h.unlockEnd 7).nvChecks 7 (h.nvTarget 7 u) = none) ∧
    (∀ e ∈ [0x4060, 0x4061, 0x40A0],
      let u : Unlock := { owner := .a, word := e, value := 0, complete := true }
      let h := (unlocking 0 u).setF .nvmcTargetValid 7 1
      cmdPhys u.word = true ∧ (h.unlockEnd 7).nvChecks 7 (h.nvTarget 7 u) = none ∧
      h.bankSuspended 7 (nvBank (h.nvTarget 7 u).pblock) = false) ∧
    (∀ e ∈ [(0xB0, 1), (0xD0, 2)],
      let u : Unlock := { owner := .a, word := e.1, value := 0, complete := true }
      let h := ((unlocking 0 u).setF .nvmcBankState (bankU 7 0) e.2).setF .nvmcBankOp (bankU 7 0) 2
      cmdCode u.word = e.1 ∧ (h.unlockEnd 7).nvChecks 7 (h.nvTarget 7 u) = none) ∧
    (∀ e ∈ [0xA0, 0x4010, 0x4020, 0x4030, 0x40B0, 0x40D0, 0x4070, 0x4060, 0x4061, 0x4062],
      let u : Unlock := { owner := .a, word := e, value := 0, complete := true }
      let h := unlocking 0 u
      (h.unlockEnd 7).nvChecks 7 (h.nvTarget 7 u) = some stBadArg) := by decide +kernel

/-- Bank 15 of row 7 in a state, with an operation. -/
def banked (st op : Nat) (x : BankOp) : Hall :=
  ({ hall with weights.arrays := [(7, { banks := [(15, x)] })] }.setF .nvmcBankState (bankU 7 15) st).setF .nvmcBankOp (bankU 7 15) op

theorem wit_ArrayOperationsEnd :
    (let h := banked 1 2 { heldSuspend := true }
     (h.bankOp 7 15).heldSuspend = true ∧ h.bankBusy 7 15 = true ∧ h.bankState 7 15 = 1 ∧ h.getF .nvmcBankOp (bankU 7 15) = 2) ∧
    (hall.bankOp 7 15).heldSuspend = false ∧ hall.bankBusy 7 15 = false ∧
    (let h := banked 1 1 { data := List.replicate nvPageBytes 0 }
     h.bankState 7 15 = 1 ∧ h.getF .nvmcBankOp (bankU 7 15) = 1 ∧ (h.bankOp 7 15).data.length = nvPageBytes) ∧
    (let h := banked 1 4 {}
     h.bankState 7 15 = 1 ∧ h.getF .nvmcBankOp (bankU 7 15) = 4 ∧ (h.bankOp 7 15).beside = none) ∧
    (let h := (banked 1 4 {}).setF .nvmcBankPblock (bankU 7 15) (hall.nvTotal - 1)
     h.nvBacks 7 (h.bankPblock 7 15) = none) ∧
    (let h := banked 1 2 { deferred := true }
     (h.bankOp 7 15).deferred = true ∧ h.nvOldReads 7 (h.bankPblock 7 15) = 0 ∧ h.weights.oldBlocks = []) ∧
    hall.accepts (.mp .a) = true ∧ hall.accepts (.mp .b) = false ∧
    (let h := hall.setF .nvmcBmapEntPblock (1024 * 7) (hall.nvTotal - 1)
     h.bmapStaged 7 1 = [(0, hall.nvTotal - 1)] ∧ h.bmapOk 7 (h.bmapStaged 7 1) = true) ∧
    hall.bmapOk 7 (hall.bmapStaged 7 1) = true ∧ hall.bmapOk 7 (hall.bmapStaged 7 2) = false ∧
    hall.flag .nvmcStatusJournal 7 = false ∧ (hall.setF .nvmcStatusJournal 7 1).flag .nvmcStatusJournal 7 = true ∧ hall.weights.swaps = [] ∧
    (let h := { hall with weights.arrays := [(7, { dueRelocation := [(5, false)] }), (3, { dueSettle := [5] })] }
     Tab.find (h.array 7).dueRelocation 5 = some false ∧ Tab.find (h.array 7).dueRelocation 6 = none ∧ h.nvPhys 7 5 = 5 ∧
     (h.nvSpare 7).any (fun p => decide (p ≠ 5)) = true ∧ h.flag .nvmcStatusBrownout 7 = false ∧ h.bankFree 7 (nvBank 5) = true ∧
     (h.bankOp 7 (nvBank 5)).deferred = false ∧ (h.array (7 % 4)).dueSettle.contains 5 = true ∧
     (h.array (7 % 4)).dueSettle.contains 6 = false ∧ h.weights.lots = []) := by decide +kernel

/-! Lots, jobs, mappings. -/

def lot1 (st : LotState) (grants : List Nat) : Lot :=
  { lotId := 7, gen := 1, serve := false, state := st, layout := [], parts := [(0, 0, 2)], layers := [⟨0, 1, 0, 1⟩], tensors := [], digests := [], grants := grants }

def withLot (st : LotState) (grants : List Nat) : Hall := { hall with weights.lots := [(1, lot1 st grants)] }

/-- Bytes of a command that names one source in host memory. -/
def source1 : Bytes := leBytes 8 0 ++ leBytes 8 4096

def sourceOf : Source := { nbr := false, port := 0, addr := 4096 }

/-- A header that announces two shards, generation 2. -/
def manifest2 : Bytes := leBytes 12 0 ++ leBytes 4 2 ++ leBytes 12 0 ++ leBytes 4 2

def installing : Hall :=
  { withLot .installing [] with weights.installs := [(5, { lot := 1, pair := none, serve := false, sources := [sourceOf], manifest := some manifest2 })] }

def swap1 (rolling : Bool) (st : SwapState) : Swap :=
  { rolling := rolling, pen := 1, lot := 1, state := st, manifest := some manifest2, shards := [(0, { done := true })] }

def swapping (w : Swap) (cross : List Crossing) : Hall :=
  { withLot .swapping [1] with weights.swaps := [(5, w)], weights.crossings := cross }

theorem wit_WeightsAndSwaps_commands :
    (let b : Bytes := [1, 255, 1, 0] ++ leBytes 2 1000 ++ leBytes 4 3600000 ++ source1
     ready hall 1 0x0301 0xFF b false false = true ∧ b.length = 10 + 16 * 1 ∧ leAt b 4 2 = 1000 ∧ leAt b 6 4 = 3600000 ∧
     ((posted hall 1 0x0301 0xFF b).tillCmd 1).sources 10 1 = some [sourceOf]) ∧
    (let h := withLot .ready []
     h.lot 1 = some (lot1 .ready []) ∧ ready h 1 0x0302 1 (leBytes 4 1) false false = true ∧ h.grantsFit [1] = true ∧
     h.lotBusy 1 = false ∧ ready h 1 0x0305 0xFF (leBytes 4 1) false false = true ∧ ready h 33 0x0306 1 (leBytes 6 1) false false = true) ∧
    (let h := withLot .ready [1]
     ready h 1 0x0303 1 (leBytes 4 1) false false = true ∧ (lot1 .ready [1]).grants.contains 1 = true ∧ h.lotBusy 1 = false ∧
     h.penMaps 1 (lot1 .ready [1]) = false ∧ h.loadedImages = []) ∧
    (let g := (List.range 16).map (· + 2)
     ready (withLot .ready g) 1 0x0302 1 (leBytes 4 1) false false = true ∧ g.contains 1 = false ∧ (withLot .ready g).grantsFit (g ++ [1]) = false) ∧
    (withLot .swapping [1]).lotBusy 1 = true ∧
    (let b : Bytes := [0, 0, 0, 0] ++ leBytes 4 1 ++ leBytes 8 0 ++ leBytes 2 10 ++ leBytes 2 1000 ++ leBytes 4 1 ++ [1] ++ source1
     let h := withLot .ready [1]
     ready h 33 0x0304 1 b false false = true ∧ b.length = 25 + 16 * 1 ∧ leAt b 16 2 = 10 ∧ leAt b 18 2 = 1000 ∧ leAt b 20 4 = 1 ∧
     leAt b 24 1 = 1 ∧ h.lot (leAt b 4 4) = some (lot1 .ready [1]) ∧ ((posted h 33 0x0304 1 b).tillCmd 33).sources 25 1 = some [sourceOf] ∧
     h.lotBusy 1 = false) ∧
    ready hall 33 0x0307 1 (leBytes 20 0) false false = true := by decide +kernel

theorem wit_WeightsAndSwaps_jobs :
    hall.job 5 = none ∧ hall.install 5 = none ∧ hall.swap 5 = none ∧
    (let h := (installing.setF .nvmcWp 0 0).setF .nvmcWp 32 0
     (h.install 5).any (fun x => decide (x.manifest = some manifest2) && decide (x.sources[(Tab.get ({} : ShardSt) x.shards 0).src]? = some sourceOf) &&
       decide (x.lot = 1)) = true ∧ (h.job 5).map Job.due = some [0, 1] ∧ h.sentWhole 5 0 = none ∧ h.lot 1 = some (lot1 .installing []) ∧
     shardPlace (lot1 .installing []).partShards 0 0 = some (0, 0) ∧ h.mayProgram ((lot1 .installing []).blockOf 0 0).1 ((lot1 .installing []).blockOf 0 0).2 = true) ∧
    (let w := swap1 true .fetch
     (swapping w []).swap 5 = some w ∧ w.rolling = true ∧ ((lot1 .swapping [1]).layerShards w.layer).all (fun x => shardDone w.shards x.1) = true ∧
     ((lot1 .swapping [1]).layerShards w.layer).all (fun x => shardDone [] x.1) = false) ∧
    (swapping (swap1 true .programmed) []).slotFree (swap1 true .programmed) (lot1 .swapping [1]) (manGen manifest2) = true ∧
    (let h := swapping (swap1 true .held) []
     h.swap 5 = some (swap1 true .held) ∧ (lot1 .swapping [1]).layers[0]? = some ⟨0, 1, 0, 1⟩ ∧ h.layerEmpty 1 0 = true ∧ h.withdrawsDone = true) ∧
    (swapping (swap1 true .held) [⟨1, 1, 0, 1, 0⟩]).layerEmpty 1 0 = false ∧
    (swapping (swap1 true .tabled) []).swap 5 = some (swap1 true .tabled) ∧
    (let w := { swap1 false .held with held := [256] }
     (swapping w []).swap 5 = some w ∧ (swapping w []).heldDrained w = true ∧
     ({ swapping w [] with data.requests := [(1, noReq 1)] } : Hall).heldDrained w = false) := by decide +kernel

def quota (q used : Nat) : Hall := hall.setFs 1 [(.mmuPenQuota, q), (.mmuPenUsed, used)]

/-- The arguments of MEM_MAP: T1 pages of one page, of 1,024 and of 1,025; host pages. -/
def mapArgs (typ n : Nat) (tail : Bytes) : Bytes := leBytes 8 0 ++ leBytes 4 n ++ leBytes 1 typ ++ leBytes 1 1 ++ leBytes 2 0 ++ tail

def argsOf (typ n : Nat) : MapArgs := { page := 0, n := n, typ := typ, w := true, promote := false, half := 0, late := 0, lot := 0, lotOff := 0, host := 0 }

theorem wit_MemoryCommands_map :
    (∀ n ∈ [1, 1024, 1025],
      let h := quota n 0
      let b := mapArgs 1 n []
      ready h 33 0x0401 1 b false false = true ∧ mapBad (posted h 33 0x0401 1 b) ((posted h 33 0x0401 1 b).tillCmd 33) (argsOf 1 n) = false ∧
      h.penUsed 1 + n ≤ h.penQuota 1 ∧ n ≤ h.freeIn (h.mapHalf (argsOf 1 n))) ∧
    (quota 0 0).penQuota 1 < (quota 0 0).penUsed 1 + 1 ∧
    (let b := mapArgs 3 1 (leBytes 8 65536)
     ready hall 33 0x0401 1 b false false = true ∧
     mapBad (posted hall 33 0x0401 1 b) ((posted hall 33 0x0401 1 b).tillCmd 33) { argsOf 3 1 with host := 65536, lot := 65536 } = false) := by
  decide +kernel

/-- Page 1 of pen 1 lies in T1. -/
def mapped1 : Hall := { quota 64 32 with tiers.pages := (List.range 32).map fun i => (pageKey 1 (65536 * i), mkPte 1 true false (65536 * i) 0) }

def region0 : TileRegion := { base := 0, rows := 32, cols := 32, fmt := 1 }

theorem wit_MemoryCommands :
    (let b := leBytes 8 65536 ++ leBytes 4 1
     ready mapped1 33 0x0402 1 b false false = true ∧ b.length = 12 ∧ (pageRange 1 (min (2 ^ 32) 1)).any (mapped1.pageHeld 1) = false ∧
     (∀ q ∈ pageRange 1 1, mapped1.pageNamed 1 q = false) ∧ mapped1.tilesOf 1 = []) ∧
    ready mapped1 33 0x0403 1 (leBytes 8 65536) false false = true ∧
    ready mapped1 33 0x0404 1 (leBytes 8 65536 ++ leBytes 4 1 ++ [2]) false false = true ∧
    ready mapped1 1 0x0405 1 (leBytes 4 32) false false = true ∧ mapped1.penUsed 1 ≤ 32 ∧ 31 < mapped1.penUsed 1 ∧
    ready mapped1 1 0x0405 1 (leBytes 4 31) false false = true ∧
    (let b := leBytes 4 (halfPages - reservePages) ++ leBytes 4 0
     ready hall 1 0x0406 0xFF b false false = true ∧ hall.tiers.poolA.resize = none ∧
     leAt b 0 4 + (hall.usedIn .a).length ≤ halfPages - reservePages ∧ leAt b 4 4 + (hall.usedIn .b).length ≤ halfPages - reservePages) ∧
    (let h := { hall with tiers.poolA.resize := some 3 }
     ready h 1 0x0406 0xFF (leBytes 8 0) false false = true ∧ h.tiers.poolA.resize.isSome = true) ∧
    (let b := leBytes 8 0 ++ leBytes 4 32 ++ leBytes 4 32 ++ [1]
     ready mapped1 33 0x0407 1 b false false = true ∧ b.length = 17 ∧ region0.base + region0.bytes < 2 ^ 48 ∧ fmtReserved 1 = false ∧
     8 ≤ fmtBits 1 ∧ fmtBits 1 % 8 = 0 ∧ region0.base % (1024 * region0.elemBytes) = 0 ∧
     (region0.pages.all fun q => (mapped1.pte 1 (q * 65536)).any fun e => decide (pteType e = 1) && pteW e) = true ∧
     ((List.range 64).find? fun i => (Tab.find mapped1.tiers.tiles (64 * 1 + i)).isNone) = some 0) ∧
    (((List.range 64).find? fun i => (Tab.find ((List.range 64).map fun j => (64 + j, region0)) (64 * 1 + i)).isNone) = none) ∧
    (let h := { hall with tiers.tiles := [(127, region0)] }
     ready h 33 0x0408 1 [63] false false = true ∧ Tab.find h.tiers.tiles (64 * 1 + 63) = some region0) ∧
    Tab.find hall.tiers.zeroing 3 = none ∧
    Tab.find ({ hall with tiers.zeroing := [(3, ⟨1, 0, [100], true⟩)] } : Hall).tiers.zeroing 3 = some ⟨1, 0, [100], true⟩ := by decide +kernel

/-! Tree ports, sessions, decode engines. -/

def withTree (p : TreePort) : Hall := { hall with ingress.ports := [(0, p)] }

/-- A port in the middle of its frame, its header sent, with one lease of pen 1 and one of P0. -/
def tree0 : TreePort :=
  { tf := 3, upTf := 2, cfg := { enable := true }, leases := [⟨1, 0, 9, 1000, 1099⟩, ⟨0, 10, 19, 1200, 1299⟩] }

def withUp (f : UpFrame) : Hall := withTree { tree0 with up := [(2, f)] }

/-- The bytes of a burst with a good header. -/
def burstBytes (lid kind tf len : Nat) (body : Bytes) : Bytes :=
  let hd := beBytes 1 lid ++ beBytes 1 kind ++ beBytes 2 tf ++ beBytes 2 len
  hd ++ beBytes 2 (crc16 hd) ++ body

def burst (grain slot : Nat) (content : Bytes) : Burst := ⟨grain, 0, slot, 1, 0, [], content⟩

def bidBytes : Bytes := let b := [1, 0, 0, 0] ++ List.replicate 28 0; b ++ beBytes 2 (crc16 b)

theorem wit_TreePortsRun_frames :
    (withTree {}).flag .treeCfgEnable 0 = false ∧ ((withTree {}).setF .treeCfgEnable 0 1).flag .treeCfgEnable 0 = true ∧
    (withTree tree0).tport 0 = tree0 ∧ tree0.tf % 8 ≠ 0 ∧ (withTree {}).tport 0 = {} ∧
    (let f : UpFrame := { window := some (200, 8, 480, 0) }
     let b := burstBytes 255 1 0 5 bidBytes
     let z := burst 807 7 b
     (withUp f).upFrame 0 = f ∧ 8 ≤ b.length ∧ crc16 (b.take 6) = beAt b 6 2 ∧ beAt b 1 1 = 1 ∧ beAt b 4 2 = 5 ∧
     z.grain < 200 + 16 * 8 + 480 ∧ z.slot < 8 ∧ crc16 (slice b 8 32) = beAt b 40 2 ∧ beAt b 8 1 = 1 ∧ beAt b 9 3 = 0 ∧ beAt b 32 8 = 0 ∧
     grantFor f 0 = none) ∧
    (let g : UpGrant := { kind := .range, lid := 5, start := 1000, len := 8 }
     let k : UpGrant := { kind := .map, lid := 5, start := 1000, len := 8 }
     let b := burstBytes 5 2 2 0 []
     let d := burstBytes 5 0 2 0 []
     g.got = false ∧ ((withUp { grants := [g] }).setF .epState (lidUnit 0 5) 1).lidState 0 5 = lidRanging ∧
     ((withUp { grants := [g] }).setF .epState (lidUnit 0 5) 1).upFrame 0 = { grants := [g] } ∧
     grantFor { grants := [g] } 1000 = some g ∧ grantFor { grants := [k] } 1000 = some k ∧ crc16 (b.take 6) = beAt b 6 2 ∧
     crc16 (d.take 6) = beAt d 6 2 ∧ beAt b 0 1 = 5 ∧ beAt d 0 1 = 5 ∧ beAt b 2 2 = 2 ∧ beAt d 2 2 = 2 ∧ beAt b 1 1 = 2 ∧ beAt d 1 1 = 0 ∧
     beAt d 4 2 = 0 ∧ pastGrain ⟨1000, -40, 0, 1, 0, [], b⟩ 1000 = -80 ∧ pastGrain ⟨1000, 40, 0, 1, 0, [], b⟩ 1000 = 80) := by decide +kernel

/-- A frame without grants: no stray grain, and the first that reaches the threshold; a sweep in each of its rounds. -/
theorem wit_TreePortsRun_sweep :
    ((withUp {}).upFrame 0).grants = [] ∧ tree0.upTf < tree0.tf ∧ tree0.strayHist = [] ∧ 0 < tree0.cfg.strayThresh ∧
    (let t := { tree0 with strayHist := [true, true, true] }
     ((t.strayHist ++ [true]).filter id).length = t.cfg.strayThresh ∧ (t.strayHist.filter id).length < t.cfg.strayThresh ∧
     t.cfg.autoSweep = false ∧ covered {} 1999 = false ∧ (withTree t).flag .treeStrayLastValid 0 = false) ∧
    (withTree tree0).tport 0 = tree0 ∧ tree0.sweep = none ∧ ((withTree tree0).tport (twinPort 0)).sweepWait = none ∧
    (let w : Sweep := { cand := [1, 2, 3], half := [1], op := some 1 }
     let k : Sweep := { cand := [1], half := [1], confirm := true }
     ((withTree { tree0 with sweep := some w }).tport 0).sweep = some w ∧ ((withTree { tree0 with sweep := some k }).tport 0).sweep = some k ∧
     k.half = [1] ∧ (w.cand.filter fun l => !w.half.contains l) = [2, 3] ∧ w.half = [1] ∧
     (([] : List Nat).filter fun l => !w.half.contains l) = []) := by decide +kernel

theorem wit_TreePortsRun_commands :
    (let cfg := (40 : Nat) * 2 ^ 24 + 64 * 2 ^ 16 + 1
     let b : Bytes := [7, 1, 0] ++ leBytes 4 100000 ++ leBytes 8 cfg
     ready hall 1 0x0601 0xFF b false false = true ∧ b.length = 15 ∧ bits (leAt b 7 8) 5 2 = 0 ∧ bits cfg 0 0 = 1 ∧ bits (cfg - 1) 0 0 = 0 ∧
     bits cfg 33 23 + 16 * clampNat 8 64 (bits cfg 22 16) + min 960 (bits cfg 15 6) ≤ 1968 ∧ (hall.tport 7).sweep = none ∧
     ((withTree { sweep := some { cand := [] } }).tport 0).sweep.isSome = true) ∧
    (let b : Bytes := [0, 20, 127] ++ leBytes 2 1400 ++ leBytes 2 1967
     let h := withTree tree0
     ready h 1 0x0602 1 b false false = true ∧ h.leaseUsed 0 1 = false ∧ leAt b 1 1 ≤ leAt b 2 1 ∧ leAt b 3 2 ≤ leAt b 5 2 ∧
     overlaps 1400 1967 (h.treeCfg 0).bidStart ((h.treeCfg 0).bidStart + 16 * (h.treeCfg 0).bidSlots + (h.treeCfg 0).spreadG - 1) = false ∧
     (tree0.leases.filter fun (x : Lease) => x.pen ≠ 1).any (fun x => overlaps x.lFirst x.lLast 20 127 || overlaps x.gFirst x.gLast 1400 1967) = false ∧
     (tree0.leases.filter fun (x : Lease) => x.pen ≠ 1).any (fun x => overlaps x.lFirst x.lLast 19 127 || overlaps x.gFirst x.gLast 1400 1967) = true ∧
     ready h 1 0x0602 1 (leBytes 7 0) false false = true) ∧
    (let r := { image .loaded with sections := [{ typ := secGrants, lrow := 0, lstall := 0, data := leBytes 4 1 ++ leBytes 12 0 }] }
     let h := { withTree tree0 with data.images := [(1, r)] }
     (List.range 8).any (fun p => h.leaseUsed p 1) = true) := by decide +kernel

theorem wit_TreePortsRun_lids :
    (let h := withTree tree0
     let b : Bytes := [0, 9, 1] ++ List.replicate 16 5
     ready h 33 0x0603 1 b false false = true ∧ b.length = 19 ∧ h.lidPen 0 9 = some 1 ∧ h.lidState 0 9 = lidFree ∧
     ready h 33 0x0604 1 [0, 9] false false = true ∧ ready h 33 0x0605 1 [0, 0] false false = true ∧
     ready h 33 0x0606 1 [0] false false = true ∧ ready h 33 0x0607 1 [7, 127] false false = true ∧
     tree0.leases.any (fun x => x.pen = 1) = true ∧
     ready h 1 0x0603 0 ([0, 19, 0] ++ List.replicate 16 5) true false = true ∧ h.lidPen 0 19 = some 0) ∧
    ((withTree tree0).setF .epState 9 lidActive).lidState 0 9 = lidActive ∧
    ((withTree tree0).setF .epState 0 lidSilenced).lidState 0 0 = lidSilenced ∧
    ready { hall with ingress.ports := [(0, tree0), (4, { sweep := some { cand := [] } })] } 33 0x0606 1 [0] false false = true := by decide +kernel

theorem wit_TreePortsRun_freeIdents : ∀ i, i < 128 → ((withTree tree0).lid (lidUnit 0 i)).ident ≠ some (List.replicate 16 5) := by decide +kernel

theorem wit_TreePortsRun_boundIdents : (withTree tree0).boundLid 0 (List.replicate 16 5) = none := by decide +kernel

/-! Sessions. -/

def sessBytes (lid typ ep flags seq len : Nat) : Bytes :=
  beBytes 1 lid ++ beBytes 1 typ ++ beBytes 1 ep ++ beBytes 1 flags ++ beBytes 4 seq ++ beBytes 2 len ++ [0, 0]

def clearBytes (lid typ flags : Nat) (body : Bytes) : Bytes :=
  let b := sessBytes lid typ 0 flags 0 body.length ++ body
  b ++ beBytes 2 (crc16 b)

def sealedBytes (lid typ ep seq len : Nat) : Bytes := sessBytes lid typ ep 0 seq len ++ List.replicate (len + 16) 0

/-- LID 9 of port 0, leased by pen 1, in a session state under epoch 1. -/
def withSess (st : Nat) (x : Sess) : Hall :=
  (({ withTree tree0 with ingress.sess := [(9, x)] }).setF .sessSState 9 st).setF .sessSStateKepoch 9 1

def isClear (f : Bytes) (typ len : Nat) : Bool :=
  decide (f.length = 14 + len) && decide (beAt f 1 1 = typ) && decide (beAt f 2 1 = 0) && decide (beAt f 4 4 = 0) && decide (beAt f 8 2 = len) &&
    decide (beAt f 10 2 = 0) && decide (crc16 (f.take (12 + len)) = beAt f (12 + len) 2) && decide (beAt f 0 1 = 9) && decide (beAt f 3 1 = 0)

def isSealed (f : Bytes) (typ ep len : Nat) : Bool :=
  decide (f.length = 28 + len) && decide (beAt f 1 1 = typ) && decide (beAt f 2 1 = ep) && decide (ep ≠ 0) && decide (beAt f 8 2 = len) &&
    decide (beAt f 10 2 = 0) && decide (beAt f 0 1 = 9) && decide (beAt f 3 1 = 0)

theorem wit_SessionsRun_frames :
    isClear (clearBytes 9 2 0 [0, 0, 0, 1]) 2 4 = true ∧ (withSess ssChallenged {}).ssState 0 9 = ssChallenged ∧
    (withSess ssRechallenge {}).ssState 0 9 = ssRechallenge ∧ ((withSess ssChallenged {}).tport 0).cfg.enable = true ∧
    (let x : Sess := { chalId := 0 }
     (withSess ssChallenged x).sess 9 = x ∧ x.answered = false ∧ beAt ((clearBytes 9 3 0 (List.replicate 516 0)).drop 12) 0 4 = x.chalId) ∧
    isSealed (sealedBytes 9 6 1 0 52) 6 1 52 = true ∧
    (clearBytes 9 2 0 [0, 0, 0, 1]).drop 1 ≠ [] ∧ ((clearBytes 9 2 0 [0, 0, 0, 1]) ++ [0]).length ≠ 12 + 4 + 2 ∧
    beAt (sealedBytes 200 0x20 1 0 0) 0 1 = 200 ∧ (hall.tport 0).cfg.enable = false := by decide +kernel

set_option maxRecDepth 100000 in
theorem wit_SessionsRun_response : isClear (clearBytes 9 3 0 (List.replicate 516 0)) 3 516 = true := by decide +kernel

theorem wit_SessionsRun_sealed :
    (let h := withSess ssRun { upCseq := some 6, key := [1] }
     h.getF .sessSStateKepoch 9 = 1 ∧ h.ssState 0 9 = ssRun ∧ h.keyFor 9 2 = none ∧ h.keyFor 9 1 = some (.current, [1]) ∧
     isSealed (sealedBytes 9 0x30 1 7 4) 0x30 1 4 = true ∧ isSealed (sealedBytes 9 0x30 2 7 4) 0x30 2 4 = true ∧ precedes 6 7 = true ∧
     isSealed (sealedBytes 9 0x20 1 7 100) 0x20 1 100 = true ∧ upTypeLen 0x20 = some none ∧ upTypeLen 0x30 = some (some 4) ∧
     (7 + 2 ^ 32 - (h.space (h.spaceKey 0 9)).next) % 2 ^ 32 = 7) ∧
    ((withSess ssKeying {}).ssState 0 9 = ssKeying ∧ (withSess ssKeying {}).keyFor 9 1 = some (.current, []) ∧
     isSealed (sealedBytes 9 0x10 1 7 4) 0x10 1 4 = true) ∧
    (let h := (withSess ssRekey {}).setF .sessSStatePepoch 9 2
     h.ssState 0 9 = ssRekey ∧ h.keyFor 9 2 = some (.pending, [])) ∧
    ((withSess ssBinding {}).ssState 0 9 = ssBinding ∧ ((withSess ssBinding {}).sess 9).rekeyWaits = false ∧
     (withSess ssBinding {}).getF .sessSStatePepoch 9 = 0 ∧ isSealed (sealedBytes 9 0x12 1 7 4) 0x12 1 4 = true) ∧
    (((withSess ssIdle { closing := some (1, [1]) }).sess 9).closing = some (1, [1]) ∧ isSealed (sealedBytes 9 0x31 1 7 0) 0x31 1 0 = true) := by
  decide +kernel

theorem wit_SessionsRun_timers :
    ((withSess ssChallenged { guarded := some [], resends := 2 }).sess 9).guarded = some [] ∧
    ((withTree tree0).tport 0).sessRetries = 3 ∧ ((withSess ssBinding { guarded := some [], resends := 3 }).sess 9).resends = 3 ∧
    ((withSess ssParked { parked := true }).sess 9).parked = true ∧ (withSess ssParked { parked := true }).ssState 0 9 = ssParked ∧
    ((withSess ssParked { parked := true }).setF .epState 9 lidLost).lidState 0 9 = lidLost ∧ (withSess ssRun {}).ssState 0 9 = ssRun ∧
    (let h := { withSess ssRun {} with ingress.units := [(1024 + 9, { held := [(5, [0])] })] }
     (h.space (h.spaceKey 0 9)).held ≠ [] ∧ Tab.find (h.space (h.spaceKey 0 9)).held (((h.space (h.spaceKey 0 9)).next + 1) % 2 ^ 32) = none) := by
  decide +kernel

def sessReady (h : Hall) (code : Nat) (b : Bytes) : Bool :=
  let g := posted h 33 code 1 b
  g.tillReady 33 code (sessForP0 (g.tillCmd 33) g) false && decide ((g.tillCmd 33).length = b.length) && decide (g.tillPayload 33 = b) &&
    decide (g.lidPen 0 9 = some 1)

theorem wit_SessionsRun_commands :
    (let h := { withSess ssRun {} with ingress.shares := [(32 * 15 + 1, 1)] }
     let k := { h with ingress.units := [(1024 + 9, { bindings := [(7, 15)] })] }
     sessReady h 0x0701 [0, 9, 7, 15] = true ∧ h.share 15 1 = 1 ∧ h.share 14 1 = 0 ∧ h.lidShared 0 9 = false ∧
     Tab.find (h.space (h.spaceKey 0 9)).bindings 7 = none ∧ sessReady h 0x0702 [0, 9, 7] = true ∧
     (Tab.find (k.space (k.spaceKey 0 9)).bindings 7).isSome = true ∧ sessReady k 0x0702 [0, 9, 7] = true ∧
     sessReady k 0x0701 [0, 9, 7, 15] = true) ∧
    (let h := withSess ssRun {}
     h.sessPorts 0 9 = [0] ∧ h.ssState 0 9 = ssRun ∧ sessReady h 0x0703 [0, 9] = true ∧ sessReady h 0x0704 [0, 9] = true ∧
     sessReady h 0x0705 [0, 9] = true ∧ sessReady h 0x0706 [0, 9] = true) ∧
    (let h := withSess ssIdle {}
     h.ssState 0 9 = ssIdle ∧ sessReady h 0x0703 [0, 9] = true ∧ sessReady h 0x0704 [0, 9] = true ∧ sessReady h 0x0705 [0, 9] = true) := by
  decide +kernel

/-! Decode engines. -/

def vstream (busy : List Nat) : VStream :=
  { pen := 1, port := 0, lid := 9, stream := 7, launch := 0, queue := 0, maxPps := 0, inMva := 0, inBuf := 0, outBase := 0, outStride := 0
    nbuf := 2, lumaOnly := false, regions := [⟨0, 0, 16, 16, 16, 16⟩], units := [{ num := 4, stamp := 0, ended := true }], busy := busy }

def withEngine (x : DecEngine) : Hall := { hall with ingress.engines := [(15, x)], ingress.shares := [(32 * 15 + 1, 1)] }

theorem wit_DecodeEngines :
    (let x : DecEngine := { streams := [(2, vstream [])], nextStream := 3, order := [(2, 4)] }
     (withEngine x).engine 15 = x ∧ x.now = none ∧ Tab.find x.streams 2 = some (vstream []) ∧
     ((vstream []).units.find? fun (u : AccessUnit) => u.num = 4) = some { num := 4, stamp := 0, ended := true } ∧
     Tab.find x.streams 3 = none ∧ (hall.engine 15).order = []) ∧
    (let x : DecEngine := { streams := [(2, vstream [0, 1])], nextStream := 3, now := some (2, { num := 4, stamp := 0, ended := true }) }
     ((withEngine x).engine 15).now.isSome = true ∧ (vstream []).started = false ∧
     (vstream []).regions.any (fun r => !r.inside 15 16) = true ∧ (vstream []).regions.any (fun r => !r.inside 16 16) = false ∧
     (∀ k, k < (vstream [0, 1]).nbuf → k ∈ (vstream [0, 1]).busy)) ∧
    (let b : Bytes := [15, 0, 9, 7, 0, 0] ++ leBytes 2 16383 ++ leBytes 4 77500000 ++ leBytes 24 0 ++ [2, 1, 1] ++
       leBytes 2 0 ++ leBytes 2 0 ++ leBytes 2 4096 ++ leBytes 2 2304 ++ leBytes 2 16 ++ leBytes 2 4096
     ready (withEngine {}) 33 0x0901 1 b false false = true ∧ b.length = 39 + 12 * 1 ∧ leAt b 38 1 = 1 ∧ leAt b 36 1 = 2 ∧ leAt b 37 1 = 1 ∧
     leAt b 8 4 = 77500000 ∧ leAt b 6 2 = 16383 ∧ (regionAt ((posted (withEngine {}) 33 0x0901 1 b).tillCmd 33) 39).valid = true ∧
     (withEngine {}).streamFor 15 0 9 7 false = none ∧ (withEngine {}).declared 15 (some 1) + 77500000 ≤ (withEngine {}).share 15 1 * 77500000 ∧
     ¬ ((withEngine {}).declared 15 (some 1) + 77500001 ≤ (withEngine {}).share 15 1 * 77500000)) ∧
    (let x : DecEngine := { streams := [(2, vstream [])], nextStream := 3 }
     (withEngine x).streamFor 15 0 9 7 false = some (2, vstream []) ∧ ready (withEngine x) 33 0x0902 1 [15, 0, 9, 7] false false = true ∧
     ready (withEngine x) 33 0x0903 1 [15] false false = true ∧ (vstream []).pen = 1) ∧
    ((withEngine { streams := [(2, vstream [1])] }).streamFor 15 0 9 7 false).map (fun z => z.2.busy) = some [1] ∧
    ready (withEngine {}) 33 0x0902 1 [15, 0, 9, 7] false false = true := by decide +kernel

/-! Neighbour links: frames are built with the model's own seal where the check is of a clear frame. -/

def withNbr (st : Nat) (x : NbrPort) : Hall := ({ hall with nbrs := [(3, x)] }).setF .nbrStatusState 3 st

/-- A clear link frame of the control conversation. -/
def linkClear (typ flags : Nat) (body : Bytes) : Bytes :=
  let b := linkHeader 0 typ 0 flags 0 body.length ++ body
  b ++ beBytes 2 (crc16 b)

/-- A clear frame passes the checks in the states its type belongs to, and a broken one does not. -/
def passes (h : Hall) (typ : Nat) (frame : Bytes) : Bool :=
  match h.linkCheck 3 ⟨0, false⟩ frame with
  | .inr f => decide (f.typ = typ)
  | .inl _ => false

def helloBytes : Bytes := linkClear 0x01 0 ([1, 0, 0, 0] ++ List.replicate 96 0)

set_option maxRecDepth 100000 in
theorem wit_NeighbourLinkRuns_clear :
    passes (withNbr nbHello {}) 0x01 helloBytes = true ∧ passes (withNbr nbUp {}) 0x01 helloBytes = true ∧
    passes (withNbr nbProve {}) 0x02 (linkClear 0x02 0 ([0, 0, 0, 4] ++ [9, 9, 9, 9])) = true ∧
    passes (withNbr nbProve {}) 0x06 (linkClear 0x06 0 [1, 0, 0, 0]) = true ∧ passes (withNbr nbHello {}) 0x01 (helloBytes ++ [0]) = false := by
  decide +kernel

theorem wit_NeighbourLinkRuns_states :
    (withNbr nbHello {}).nbrState 3 = nbHello ∧ (withNbr nbUp {}).nbrState 3 = nbUp ∧ (withNbr nbProve {}).nbrState 3 = nbProve ∧
    (withNbr nbKeying {}).nbrState 3 = nbKeying ∧ (withNbr nbKeying {}).flag .nbrStatusLead 3 = false ∧ nextEpoch 0xFF = 1 ∧
    (let h := (withNbr nbUp { pendKeys := [[1]], pendEpoch := 2 }).setF .nbrStatusLead 3 1
     h.flag .nbrStatusLead 3 = true ∧ (h.nbr 3).pendKeys ≠ [] ∧ h.nbrState 3 = nbUp) ∧
    (let h := (withNbr nbUp {}).setF .nbrCfgErrThresh 3 1
     h.flag .nbrErrHit 3 = false ∧ ¬ h.getF .nbrErrCount 3 + 1 < max 1 (h.getF .nbrCfgErrThresh 3) ∧ h.nbrUp 3 = true ∧
     (h.setF .nbrErrHit 3 1).flag .nbrErrHit 3 = true) ∧
    (withNbr nbUp {}).weights.lots = [] ∧ runningOf 0 5 = some 5 ∧ ((withNbr nbUp {}).nbr 3).guarded = [] ∧
    ((withNbr nbKeying { guarded := [[1]], resends := 2 }).nbr 3).resends = 2 ∧
    ((withNbr nbKeying { guarded := [[1]], resends := 3 }).nbr 3).guarded = [[1]] ∧
    Tab.find (({ convs := [(1, { unacked := [(0, ⟨0x20, [], 0, [7]⟩)] })] } : NbrPort).conv 1).unacked 0 = some ⟨0x20, [], 0, [7]⟩ ∧
    (((withNbr nbUp {}).setF .nbrStatusLead 3 1).nbr 3).pendKeys = [] ∧ ((withNbr nbDown {}).setF .nbrCfgEnable 3 1).nbrState 3 = nbDown ∧
    hall.hubLost (hubOf (3 / 2)) = false := by decide +kernel

theorem wit_NeighbourLinkRuns_commands :
    (let b := fun (on : Nat) => [3] ++ leBytes 1 on ++ [0, 0] ++ List.replicate 64 7 ++ leBytes 2 65535 ++ leBytes 2 1 ++ [255] ++ leBytes 2 1
     ready hall 1 0x0801 0xFF (b 1) false false = true ∧ ready hall 1 0x0801 0xFF (b 0) false false = true ∧ (b 1).length = 75 ∧
     leAt (b 1) 2 2 = 0) ∧
    ready hall 1 0x0802 1 [3, 255] false false = true ∧ ready hall 1 0x0802 1 [3, 1] false false = true ∧ hall.penExists 1 = true ∧
    (hall.nbr 3).items = [] ∧ hall.imageNamesPort 3 = false ∧
    ((withNbr nbUp { items := [{ tag := 1, item := 0 }] }).nbr 3).items ≠ [] ∧ ready hall 1 0x0803 0 [3] false false = true ∧
    (let h := (hall.setF .nbrCfgPenValid 3 1).setF .nbrCfgPen 3 1
     ready h 33 0x0804 1 [3] false false = true ∧ h.nbrPen 3 = some 1 ∧ tillSecure 33 = false) ∧
    ready hall 33 0x0804 1 [3] false false = true ∧ hall.nbrPen 3 = none := by decide +kernel

/-! What the turns of NeighbourTraffic rest on: payloads and port states clause by clause. -/

def servedLot : Lot := { lot1 .ready [] with serve := true, manifest := [1, 2, 3] }

def serving (rids : Tab Rid) : Hall := { withNbr nbUp { rids := rids } with weights.lots := [(1, servedLot)] }

theorem wit_NeighbourTraffic_lots :
    (let b := beBytes 4 5 ++ beBytes 4 7 ++ beBytes 4 1
     let h := serving []
     (h.weights.lots.find? fun e => e.2.lotId = beAt b 4 4 && e.2.gen = beAt b 8 4) = some (1, servedLot) ∧ servedLot.state = .ready ∧
     ((h.nbr 3).rids.filter fun (e : Nat × Rid) => e.2.server).length < 4 ∧ (h.nbr 3).noticesIn = [] ∧
     (h.weights.lots.find? fun e => e.2.lotId = 8 && e.2.gen = 1) = none ∧ ((h.nbr 3).conv 1).ahead = []) ∧
    (let h := serving [(ridKey true 5, { server := true, lot := 1, nshard := 2, mlen := 3, wanted := [1] })]
     (h.rid 3 true 5).map (fun r => (r.lot, r.wanted)) = some (1, [1]) ∧ h.lot 1 = some servedLot) ∧
    (let h := serving [(ridKey false 5, { server := false, job := 9, wanted := [1] })]
     (h.rid 3 false 5).map (fun r => (r.job, r.wanted)) = some (9, [1]) ∧ h.job 9 = none) ∧
    (serving []).servedPage 0 = true ∧ (serving []).servedPage (2 ^ 30) = false ∧ hall.servedPage 0 = false := by decide +kernel

theorem wit_NeighbourTraffic_pages :
    (let x : NbrPort := { reads := [(6, { addr := 0, n := 65536 }), (7, { addr := 0, n := 16 })] }
     Tab.find x.reads 6 = some { addr := 0, n := 65536 } ∧ (Tab.find x.reads 7).any (fun r => decide (r.n ≤ r.data.length + 16)) = true) ∧
    (let z : PoolFrame := { state := .valid, home := 0x080000000000 / 65536 + 0x040000000000 / 65536 * 3 }
     let h := { withNbr nbUp {} with tiers.poolA := { frames := [(0, z)] } }
     (∀ hub, ∀ e ∈ (h.pool hub).frames, e.2.next = none) ∧ Tab.find (h.pool .a).frames 0 = some z ∧ inT3 3 0 1 z.home = true ∧
     inT3 3 65536 1 z.home = false) := by
  refine ⟨by decide +kernel, fun hub => ?_, by decide +kernel, by decide +kernel, by decide +kernel⟩
  cases hub <;> decide +kernel

theorem wit_NeighbourTraffic_items :
    (let b := beBytes 8 (2 ^ 40 + 5) ++ beBytes 2 1 ++ [1, 0] ++ beBytes 4 0 ++ List.replicate 16 0 ++ List.replicate 16 7
     beAt b 0 8 ≠ 0 ∧ tagBare (beAt b 0 8) = 2 ^ 40 + 5 ∧ beAt b 12 4 = 0 ∧ beAt b 8 2 = 1 ∧ bit (beAt b 10 1) 0 = true ∧
     Tab.find ({} : NbrPort).tags (2 ^ 40 + 5) = none ∧ ({} : NbrPort).items = [] ∧ ({} : NbrPort).refills = []) ∧
    (let x : NbrPort := { tags := [(5, ⟨.committed, 0, none⟩)] }
     (Tab.find x.tags 5).any (fun r => decide (r.state = .committed)) = true) := by decide +kernel

/-- A commit notice of one item held whole, an abort notice, and one whose AFTER has not come. -/
theorem wit_NeighbourTraffic_notices :
    (let b := [1, 0] ++ beBytes 2 1 ++ beBytes 8 5 ++ beBytes 4 0xFFFFFFFF
     let x : NbrPort := { tags := [(5, ⟨.held, 0, none⟩)], items := [{ tag := 5, item := 0, complete := true }] }
     let h := withNbr nbUp x
     h.afterDone 3 b = true ∧ tagBare (beAt b 4 8) = 5 ∧ tagEpoch (beAt b 4 8) = 0 ∧ beAt b 0 1 = 1 ∧ beAt b 2 2 = 1 ∧
     Tab.find x.tags 5 = some ⟨.held, 0, none⟩ ∧ (∃ i ∈ x.items, i.tag = 5 ∧ i.item = 0 ∧ i.complete = true) ∧
     h.afterDone 3 ([1, 0] ++ beBytes 2 1 ++ beBytes 8 5 ++ beBytes 4 0) = false) ∧
    (let h := withNbr nbUp { tags := [(5, ⟨.held, 0, none⟩)] }
     h.openRuns = [] ∧ h.data.stalls = [] ∧ (h.nbr 3).items = [] ∧ Tab.find (h.nbr 3).tags 5 = some ⟨.held, 0, none⟩ ∧
     Tab.find (h.nbr 3).tags 6 = none) := by decide +kernel

/-! ### The manual's own figures: its worked examples and stated values, as it prints them -/

/-- R164: the check value of "123456789". -/
theorem test_crc_check : crc16 (ascii "123456789") = 0x29B1 := by decide +kernel

/-- The example under R90: 300.0, 464.0 and −500.0 as FP8-E4M3, −500.0 as FP8-E5M2. -/
theorem test_narrow_fp8 : (narrow fE4M3 0x43960000).1 = 0x79 ∧ (narrow fE4M3 0x43E80000).1 = 0x7E ∧ (narrow fE4M3 0xC3FA0000).1 = 0xFE ∧
    (narrow fE5M2 0xC3FA0000).1 = 0xE0 := by decide +kernel

/-- The example under R94: both accumulators of opposite sign round toward positive infinity. -/
theorem test_requant : requant 1004 (2 ^ 30) 33 (-128) 127 (-3) = 123 ∧ requant (-1004) (2 ^ 30) 33 (-128) 127 (-3) = -128 := by decide

/-- The example under R100: scale, reciprocal and zero point of a row from −1.5 to 6.0, and two of its elements. -/
theorem test_deriveScale : deriveScale (some (0xBFC00000, 0x40C00000)) 0 255 = (0x3CF0F0F1, 0x42080000, 51) ∧
    (quantise 0x40000000 0x42080000 51 0 255).q = 119 ∧ (quantise 0x40C00000 0x42080000 51 0 255).q = 255 := by decide +kernel

/-- The example under R104: a block whose largest magnitude is 3.0. -/
theorem test_bx8 : bx8OfF32 [(0x40400000, false), (0x3F333333, false)] = (128, [96, 22]) := by decide +kernel

/-- The example under R151: owners of objects 0 to 2 and prices after four rounds. -/
theorem test_auction :
    auctionPhases [[(0, 0x41100000), (1, 0x40C00000), (2, 0x40000000)], [(0, 0x41000000), (1, 0x40E00000), (2, 0x40400000)],
      [(0, 0x40A00000), (1, 0x40800000), (2, 0x40C00000)]] [(0x3F000000, 4)] true ⟨[none, none, none], [0, 0, 0], 0⟩ =
    ⟨[some 0, some 1, some 2], [0x40600000, 0x40400000, 0x3FC00000], 0⟩ := by decide +kernel

/-- Table 6.6 (R163): the code words of the example decode table, in table order. -/
theorem test_codeWords :
    ({ fmt := 6, nsym := 6, escLen := 5, tableId := 0, syms := [122, 123, 124, 125, 121, 126], lens := [2, 2, 2, 3, 4, 5] } : DecTable).words =
    [(2, 0, 0), (2, 1, 1), (2, 2, 2), (3, 6, 3), (4, 14, 4), (5, 30, 5), (5, 31, 32)] := by decide +kernel

/-- The example under R415: column 10 of a crop of 1,000 columns resized to 640, and the sample on a row of weight 0. -/
theorem test_resize : resizeAt 1000 640 10 = (15, 232, 16) ∧
    resizeSample (fun _ x => if x = 15 then 100 else 140) 1000 8 640 8 10 0 = 136 := by decide +kernel

/-- The example under R426: the world of the granule of 0x0021_4003_0000 lies in word 34,048 of WAT_T1. -/
theorem test_watWord : watWindow 0xC2800 = some (9, 34048) ∧ 0x002140030000 / 65536 = 64 * 34048 + 3 := by decide +kernel

/-- The example under R257: the L3 entry 0xC800_0592_3456_0200. -/
theorem test_pte : mkPte 2 false true 0x059234560000 0x0200 = 0xC800059234560200 := by decide +kernel

/-- The example under R222: the fields of the tag 0x4080_0000_0031_0112. -/
theorem test_tag : tagEpoch 0x4080000000310112 = 0 ∧ tagBare 0x4080000500310112 = 0x4080000000310112 := by decide +kernel

end Sys2Proof.Tests
end

section
/-! SUPPORT. Statistics counters (R13) and the CLEAR writes that act at once. -/

namespace Sys2Proof.Machine

/-! ### Counters -/

/-- Every SAT flag is one bit. -/
@[simp] theorem sat_width (c : Ctr) : (Fld.sat c).width = 1 := by
  change c.satInfo.hi + 1 - c.satInfo.lo = 1
  unfold Ctr.satInfo
  split <;> rfl

/-- A counter's largest value fits its COUNT field. -/
theorem Ctr.top_lt (c : Ctr) : c.top < 2 ^ (Fld.count c).width := Nat.sub_lt (Nat.two_pow_pos _) Nat.one_pos

/-- A counter that stays below its largest value: COUNT takes the sum. -/
theorem bump_of_lt_top (h : Hall) (c : Ctr) (u k : Nat) (hk : k ≠ 0) (hlt : h.getF (.count c) u + k < c.top) :
    h.bump c u k = h.setF (.count c) u (h.getF (.count c) u + k) := by
  simp [Hall.bump, hk, Nat.not_le.2 hlt]

/-- A counter that reaches its largest value: COUNT takes that value, and SAT is set. -/
theorem bump_of_top_le (h : Hall) (c : Ctr) (u k : Nat) (hk : k ≠ 0) (hle : c.top ≤ h.getF (.count c) u + k) :
    h.bump c u k = (h.setF (.count c) u c.top).setF (.sat c) u 1 := by
  simp [Hall.bump, hk, hle]

theorem bump_zero (h : Hall) (c : Ctr) (u : Nat) : h.bump c u 0 = h := by simp [Hall.bump]

/-- COUNT after counting: the sum, cut off at the counter's largest value. -/
theorem getF_count_bump (h : Hall) (c : Ctr) (u k : Nat) (hv : h.getF (.count c) u ≤ c.top) :
    (h.bump c u k).getF (.count c) u = min c.top (h.getF (.count c) u + k) := by
  rcases Nat.eq_zero_or_pos k with rfl | hk
  · rw [bump_zero, Nat.add_zero, Nat.min_eq_right hv]
  rcases Nat.lt_or_ge (h.getF (.count c) u + k) c.top with hlt | hle
  · rw [bump_of_lt_top h c u k hk.ne' hlt, getF_setF_same, Nat.mod_eq_of_lt (hlt.trans c.top_lt), Nat.min_eq_right hlt.le]
  · rw [bump_of_top_le h c u k hk.ne' hle, getF_setF_fld _ _ _ _ _ _ (by simp), getF_setF_same, Nat.mod_eq_of_lt c.top_lt,
      Nat.min_eq_left hle]

/-- SAT is set where the largest value is reached. -/
theorem getF_sat_bump_of_top_le (h : Hall) (c : Ctr) (u k : Nat) (hk : 0 < k) (hle : c.top ≤ h.getF (.count c) u + k) :
    (h.bump c u k).getF (.sat c) u = 1 := by
  simp [bump_of_top_le h c u k hk.ne' hle]

/-- SAT stays where the largest value is not reached. -/
theorem getF_sat_bump_of_lt_top (h : Hall) (c : Ctr) (u k : Nat) (hlt : h.getF (.count c) u + k < c.top) :
    (h.bump c u k).getF (.sat c) u = h.getF (.sat c) u := by
  rcases Nat.eq_zero_or_pos k with rfl | hk
  · rw [bump_zero]
  · rw [bump_of_lt_top h c u k hk.ne' hlt, getF_setF_fld _ _ _ _ _ _ (by simp)]

/-! ### Clearing -/

/-- The COUNT and SAT fields of some counters, in one unit. -/
def ctrRegs (u : Nat) (cs : List Ctr) (f : Fld) (v : Nat) : Prop := v = u ∧ ∃ c ∈ cs, f = .count c ∨ f = .sat c

/-- Clearing counters makes COUNT and SAT of each 0. -/
theorem clearCtrs_zero (h : Hall) (u : Nat) (cs : List Ctr) (c : Ctr) (hc : c ∈ cs) :
    (h.clearCtrs u cs).getF (.count c) u = 0 ∧ (h.clearCtrs u cs).getF (.sat c) u = 0 :=
  ⟨(getF_clearCtrs cs h u _ u).trans (if_pos ⟨rfl, c, hc, .inl rfl⟩),
    (getF_clearCtrs cs h u _ u).trans (if_pos ⟨rfl, c, hc, .inr rfl⟩)⟩

/-- Clearing counters changes their fields only. -/
theorem clearCtrs_frame (h : Hall) (u : Nat) (cs : List Ctr) : Frame h (h.clearCtrs u cs) [] (ctrRegs u cs) :=
  ⟨fun p _ => by cases p <;> simp [Part.same], fun f v hn => (getF_clearCtrs cs h u f v).trans (if_neg hn)⟩

/-- One counter cleared is a list of one cleared. -/
theorem clearCtr_eq_clearCtrs (h : Hall) (u : Nat) (c : Ctr) : h.clearCtr u c = h.clearCtrs u [c] := rfl

theorem clearCtr_zero (h : Hall) (u : Nat) (c : Ctr) :
    (h.clearCtr u c).getF (.count c) u = 0 ∧ (h.clearCtr u c).getF (.sat c) u = 0 :=
  clearCtrs_zero h u [c] c (List.mem_singleton_self c)

theorem clearCtr_frame (h : Hall) (u : Nat) (c : Ctr) : Frame h (h.clearCtr u c) [] (regsOf u [.count c, .sat c]) :=
  (clearCtrs_frame h u [c]).mono (fun _ hp => hp) fun f v ⟨hv, d, hd, hf⟩ => by
    rw [List.mem_singleton.1 hd] at hf
    exact ⟨hv, by simpa using hf⟩

/-- Clearing fields makes each 0. -/
theorem clearFs_zero (h : Hall) (u : Nat) (fs : List Fld) (f : Fld) (hf : f ∈ fs) : (h.clearFs u fs).getF f u = 0 :=
  (getF_clearFs fs h u f u).trans (if_pos ⟨rfl, hf⟩)

/-- Clearing fields changes them only. -/
theorem clearFs_frame (h : Hall) (u : Nat) (fs : List Fld) : Frame h (h.clearFs u fs) [] (regsOf u fs) :=
  ⟨fun p _ => by cases p <;> simp [Part.same], fun f v hn => (getF_clearFs fs h u f v).trans (if_neg hn)⟩

/-- One counter cleared in several units. -/
def Hall.clearCtrIn (h : Hall) (us : List Nat) (c : Ctr) : Hall := us.foldl (fun h u => h.clearCtr u c) h

/-- What clearing a counter in several units leaves in a field. -/
theorem getF_clearCtrIn (us : List Nat) (h : Hall) (c : Ctr) (g : Fld) (w : Nat) :
    (h.clearCtrIn us c).getF g w = if w ∈ us ∧ (g = .count c ∨ g = .sat c) then 0 else h.getF g w := by
  induction us generalizing h with
  | nil => simp [Hall.clearCtrIn]
  | cons u rest ih =>
    have e : h.clearCtrIn (u :: rest) c = (h.clearCtr u c).clearCtrIn rest c := rfl
    have one := getF_clearCtrs [c] h u g w
    rw [e, ih, clearCtr_eq_clearCtrs, one]
    by_cases hg : g = .count c ∨ g = .sat c <;> by_cases hr : w ∈ rest <;> simp [hg, hr]

/-- Clearing a counter in several units changes its fields of those units only. -/
theorem clearCtrIn_frame (h : Hall) (us : List Nat) (c : Ctr) :
    Frame h (h.clearCtrIn us c) [] fun f v => v ∈ us ∧ (f = .count c ∨ f = .sat c) :=
  ⟨(Frame.foldl (may := fun _ _ => True) _ (fun h u => (clearCtr_frame h u c).mono (fun _ hp => hp) fun _ _ _ => trivial) us h).1,
    fun f v hn => (getF_clearCtrIn us h c f v).trans (if_neg hn)⟩

/-- Settles O6: each clause is the rule of counting or of clearing that it states (R13, Table 0.7). -/
theorem countersStick : Obligations.CountersStick := by
  intro h c u k hv
  exact ⟨getF_count_bump h c u k hv, getF_sat_bump_of_top_le h c u k, getF_sat_bump_of_lt_top h c u k,
    bump_frame h c u k _ _ (by simp [regsOf]) (by simp [regsOf]), clearCtr_zero h u c, clearCtr_frame h u c⟩

/-! ### CLEAR writes that act at once -/

/-- A switchboard write by the governing MP becomes what it does. -/
theorem becomes_of_board {i : Instr} {s : State} {req : Requester} {f : Hall → Hall} (hi : exec i s = s.board req f)
    (ha : s.hall.accepts req = true) : Becomes i s (f s.hall) := hi.trans (board_accepts s req f ha)

/-- A switchboard write by anyone else changes nothing. -/
theorem becomes_of_board_refused {i : Instr} {s : State} {req : Requester} {f : Hall → Hall} (hi : exec i s = s.board req f)
    (ha : s.hall.accepts req = false) : Becomes i s s.hall := hi.trans (board_refused s req f ha)

/-- A CLEAR.STATS write zeroes the counters it clears and changes nothing else; a refused one changes nothing. -/
theorem clearStats_spec {i : Instr} {s : State} {req : Requester} {u : Nat} {cs : List Ctr}
    (hi : exec i s = s.board req fun h => h.clearCtrs u cs) :
    (s.hall.accepts req = true → Gives i s fun h' =>
      (∀ c ∈ cs, h'.getF (.count c) u = 0 ∧ h'.getF (.sat c) u = 0) ∧ Frame s.hall h' [] (ctrRegs u cs)) ∧
    (s.hall.accepts req = false → Becomes i s s.hall) :=
  ⟨fun ha => ⟨_, becomes_of_board hi ha, clearCtrs_zero s.hall u cs, clearCtrs_frame s.hall u cs⟩, becomes_of_board_refused hi⟩

/-- A CLEAR.LAST write zeroes the fields it clears and changes nothing else; a refused one changes nothing. -/
theorem clearLast_spec {i : Instr} {s : State} {req : Requester} {u : Nat} {fs : List Fld}
    (hi : exec i s = s.board req fun h => h.clearFs u fs) :
    (s.hall.accepts req = true → Gives i s fun h' => (∀ f ∈ fs, h'.getF f u = 0) ∧ Frame s.hall h' [] (regsOf u fs)) ∧
    (s.hall.accepts req = false → Becomes i s s.hall) :=
  ⟨fun ha => ⟨_, becomes_of_board hi ha, clearFs_zero s.hall u fs, clearFs_frame s.hall u fs⟩, becomes_of_board_refused hi⟩

/-- The counters that stand once in each Barrow engine; `brwChBytes` stands in each of its channels. -/
def brwEngineCtrs : List Ctr := [.brwBursts, .brwBusErrors, .brwSkips, .brwRestarts, .brwDrops]

/-- BRW_CLEAR.STATS on the module (R294): the engine's counters, then those of its channels. -/
def Hall.clearBrw (h : Hall) (e : Nat) : Hall := (h.clearCtrs e brwEngineCtrs).clearCtrIn (engineChans e) .brwChBytes

theorem exec_brwClearStats (req : Requester) (e : Engine) (s : State) :
    exec (.brwClearStats req e) s = s.board req fun h => h.clearBrw (engineNum e) := rfl

/-- The engine's counters read 0: the channels' counter is none of them. -/
theorem clearBrw_engine_zero (h : Hall) (e : Nat) (c : Ctr) (hc : c ∈ brwEngineCtrs) :
    (h.clearBrw e).getF (.count c) e = 0 ∧ (h.clearBrw e).getF (.sat c) e = 0 := by
  have hne : c ≠ .brwChBytes := by rintro rfl; exact absurd hc (by decide)
  have hz := clearCtrs_zero h e brwEngineCtrs c hc
  simpa [Hall.clearBrw, getF_clearCtrIn, hne] using hz

/-- The channels' counters read 0. -/
theorem clearBrw_chan_zero (h : Hall) (e c : Nat) (hc : c ∈ engineChans e) :
    (h.clearBrw e).getF (.count .brwChBytes) c = 0 ∧ (h.clearBrw e).getF (.sat .brwChBytes) c = 0 := by
  simp [Hall.clearBrw, getF_clearCtrIn, hc]

/-- Beyond these, BRW_CLEAR.STATS changes nothing. -/
theorem clearBrw_frame (h : Hall) (e : Nat) :
    Frame h (h.clearBrw e) [] fun f v => ctrRegs e brwEngineCtrs f v ∨
      (v ∈ engineChans e ∧ (f = .count .brwChBytes ∨ f = .sat .brwChBytes)) :=
  ((clearCtrs_frame h e brwEngineCtrs).mono (fun _ hp => hp) fun _ _ => .inl).trans
    ((clearCtrIn_frame _ (engineChans e) .brwChBytes).mono (fun _ hp => hp) fun _ _ => .inr)

/-- Settles O19: each command is a switchboard write that clears a list of counters or fields of one unit; BRW_CLEAR.STATS
clears the engine's counters and those of its channels. -/
theorem clearsAtOnce : Obligations.ClearsAtOnce := by
  intro s req
  refine ⟨fun r => ⟨clearStats_spec rfl, clearLast_spec rfl⟩, fun p => clearStats_spec rfl, fun e => clearStats_spec rfl,
    fun hub => ⟨clearStats_spec rfl, clearLast_spec rfl⟩, fun hub => clearStats_spec rfl, fun hub => clearStats_spec rfl,
    fun e => ⟨fun ha => ⟨_, becomes_of_board (exec_brwClearStats req e s) ha, ?_, ?_, ?_⟩,
      becomes_of_board_refused (exec_brwClearStats req e s)⟩⟩
  · exact clearBrw_engine_zero s.hall (engineNum e)
  · exact clearBrw_chan_zero s.hall (engineNum e)
  · exact clearBrw_frame s.hall (engineNum e)

end Sys2Proof.Machine
end

section
/-! SUPPORT. Register writes (R10, R12, R32, R53): who may write a field, what a field takes, and what a write to a block does. -/

namespace Sys2Proof.Machine

/-! ### Who may write -/

/-- No MP but the governing one may write a field. -/
theorem mayWrite_mp_refused (h : Hall) (hub : Hub) (f : Fld) (u : Nat) (ha : h.accepts (.mp hub) = false) :
    h.mayWrite (.mp hub) f u = false := by
  unfold Hall.mayWrite
  split
  case h_2 => rfl
  case h_4 => exact ha
  all_goals contradiction

/-- The governing MP may write every field but the aperture's base (Table 2.8). -/
theorem mayWrite_mp_accepted (h : Hall) (hub : Hub) (f : Fld) (u : Nat) (hf : f ≠ .pciApertureBase)
    (ha : h.accepts (.mp hub) = true) : h.mayWrite (.mp hub) f u = true := by
  unfold Hall.mayWrite
  split
  case h_2 => exact absurd rfl hf
  case h_4 => exact ha
  all_goals contradiction

/-- A host function may write fields of tills and of PCI_ only. -/
theorem mayWrite_host_refused (h : Hall) (p : Hub) (fn : Fn) (f : Fld) (u : Nat) (ht : f.info.blk ≠ .till)
    (hp : f.info.blk ≠ .pci) : h.mayWrite (.host p fn) f u = false := by
  unfold Hall.mayWrite
  split
  case h_1 => exact absurd rfl hp
  case h_3 => exact absurd rfl ht
  case h_4 => rfl
  contradiction

theorem accepts_mp_iff (h : Hall) (hub : Hub) : h.accepts (.mp hub) = true ↔ h.governing = some hub := by
  simp [Hall.accepts]

/-! ### What a field takes -/

/-- Fields whose writes wait for a moment of their own, take allowed values only, are commands of their own, or belong to
a host function. -/
def fldsApart : List Fld :=
  [.tallyStallState, .tallyStallRole, .tallyStallStrikes, .tallyStallFOvr, .mmuCfgCeThresh, .mmuCfgLateDefault,
   .ledgerCfgMaxReplay, .pwrCapWatts, .pwrDomForce, .pwrDomRetTicks, .pwrDomOffTicks, .pwrRailSet, .queProd, .queCons,
   .brwChCtrlEnable, .pciApertureBase, .tillCfgVector]

/-- A field that is not set apart holds for a write what it reads as. -/
theorem dueField_of_not_apart (h : Hall) (f : Fld) (u : Nat) (hf : f ∉ fldsApart) : h.dueField f u = h.getF f u := by
  unfold Hall.dueField
  split
  case h_8 => rfl
  all_goals exact absurd (by decide) hf

/-- A field that is not set apart takes every value. -/
theorem powerOk_of_not_apart (h : Hall) (f : Fld) (u v : Nat) (hf : f ∉ fldsApart) : h.powerOk f u v = true := by
  unfold Hall.powerOk
  extract_lets
  split
  case h_5 => rfl
  all_goals exact absurd (by decide) hf

/-- A field that is not set apart is set at once. -/
theorem writeField_of_not_apart (h : Hall) (f : Fld) (u v : Nat) (hf : f ∉ fldsApart) : h.writeField f u v = h.setF f u v := by
  unfold Hall.writeField
  extract_lets
  split
  case h_9 => exact if_pos (powerOk_of_not_apart h f u v hf)
  all_goals exact absurd (by decide) hf

/-- A field that is not set apart is written by REGISTER_WRITE. -/
theorem ownCommand_of_not_apart (f : Fld) (hf : f ∉ fldsApart) : ownCommand f = false := by
  unfold ownCommand
  split
  case h_4 => rfl
  all_goals exact absurd (by decide) hf

/-! ### One field of a write -/

/-- A field that the requester may not write stays. -/
theorem regField_refused (h : Hall) (req : Requester) (k o : Nat) (data : Bytes) (e : Fld × Nat)
    (hm : h.mayWrite req e.1 (e.1.unitIn k e.2) = false) : h.regField req k o data e = h := by
  simp [Hall.regField, hm]

/-- A read-write field takes the bits written and keeps the others. -/
theorem regField_accepted (h : Hall) (req : Requester) (k o : Nat) (data : Bytes) (f : Fld) (i : Nat) (hrw : f.info.acc = .rw)
    (hf : f ∉ fldsApart) (hm : h.mayWrite req f (f.unitIn k i) = true) :
    h.regField req k o data (f, i) = h.setF f (f.unitIn k i)
      (mergeField (h.getF f (f.unitIn k i)) f.info.hi f.info.lo (f.info.off + f.info.stride * i) o data) := by
  simp [Hall.regField, hrw, hm, ownCommand_of_not_apart f hf, dueField_of_not_apart h f _ hf, writeField_of_not_apart h f _ _ hf]

/-! ### A write to a block -/

/-- The fields found in a block are the block's. -/
theorem blk_of_mem_fieldsIn {blk : Blk} {o n : Nat} {e : Fld × Nat} (he : e ∈ fieldsIn blk o n) : e.1.info.blk = blk := by
  obtain ⟨f, hf, hi⟩ := List.mem_flatMap.1 he
  obtain ⟨i, -, rfl⟩ := List.mem_map.1 hi
  exact of_decide_eq_true (List.mem_filter.1 hf).2

/-- Outside the tills a write to a block goes to the fields there. -/
theorem blockWrite_fields (h : Hall) (req : Requester) (b : Blk × Nat × Nat) (data : Bytes) (ht : b.1 ≠ .till) :
    h.blockWrite req b data = (fieldsIn b.1 b.2.2 data.length).foldl (fun h e => h.regField req b.2.1 b.2.2 data e) h :=
  if_neg fun e => ht e.1

/-- A write to a block none of whose fields the requester may write changes nothing. -/
theorem blockWrite_refused (h : Hall) (req : Requester) (b : Blk × Nat × Nat) (data : Bytes) (ht : b.1 ≠ .till)
    (hm : ∀ f u, f.info.blk = b.1 → h.mayWrite req f u = false) : h.blockWrite req b data = h := by
  rw [blockWrite_fields h req b data ht]
  refine List.foldlRecOn (motive := (· = h)) _ _ rfl fun g hg e he => ?_
  rw [hg]
  exact regField_refused h req _ _ data e (hm _ _ (blk_of_mem_fieldsIn he))

/-! ### REGISTER_WRITE where a block lies -/

/-- An MP's write goes to the block. -/
theorem registerWrite_mp (s : State) (hub : Hub) (addr : Nat) (data : Bytes) (b : Blk × Nat × Nat)
    (hb : regBlockAt (s.hall.region addr) = some b) :
    Becomes (.registerWrite (.mp hub) addr data) s (s.hall.blockWrite (.mp hub) b data) := by
  change execRegisterWrite (.mp hub) addr data s = _
  simp [execRegisterWrite, run_next, hb]

/-- PF0's write goes to the block. -/
theorem registerWrite_pf0 (s : State) (p : Hub) (addr : Nat) (data : Bytes) (b : Blk × Nat × Nat)
    (hp : s.hall.tlpOk p = true) (hb : regBlockAt (s.hall.region addr) = some b) :
    Becomes (.registerWrite (.host p .pf0) addr data) s (s.hall.blockWrite (.host p .pf0) b data) := by
  change execRegisterWrite (.host p .pf0) addr data s = _
  simp [execRegisterWrite, run_next, hb, hp]

/-- Any other function reaches tills and queues only. -/
theorem registerWrite_fn (s : State) (p : Hub) (fn : Fn) (addr : Nat) (data : Bytes) (b : Blk × Nat × Nat)
    (hp : s.hall.tlpOk p = true) (hb : regBlockAt (s.hall.region addr) = some b) (hfn : fn ≠ .pf0) (ht : b.1 ≠ .till)
    (hq : b.1 ≠ .que) : Becomes (.registerWrite (.host p fn) addr data) s s.hall := by
  change execRegisterWrite (.host p fn) addr data s = _
  -- `simp` finds `ht` and `hq` itself where it takes the last arm of the match on the block.
  simp [execRegisterWrite, run_next, hb, hp, hfn]

/-- The governing MP's write of bytes in which one read-write field lies. -/
theorem registerWrite_field (s : State) (hub : Hub) (addr : Nat) (data : Bytes) (b : Blk × Nat × Nat) (f : Fld) (i : Nat)
    (hb : regBlockAt (s.hall.region addr) = some b) (ht : b.1 ≠ .till) (hg : s.hall.governing = some hub)
    (hone : fieldsIn b.1 b.2.2 data.length = [(f, i)]) (hrw : f.info.acc = .rw) (hf : f ∉ fldsApart) :
    Becomes (.registerWrite (.mp hub) addr data) s (s.hall.setF f (f.unitIn b.2.1 i)
      (mergeField (s.hall.getF f (f.unitIn b.2.1 i)) f.info.hi f.info.lo (f.info.off + f.info.stride * i) b.2.2 data)) := by
  have hm := mayWrite_mp_accepted s.hall hub f (f.unitIn b.2.1 i) (by rintro rfl; exact hf (by decide)) ((accepts_mp_iff _ _).2 hg)
  have hw := registerWrite_mp s hub addr data b hb
  rwa [blockWrite_fields _ _ _ _ ht, hone, List.foldl_cons, List.foldl_nil, regField_accepted _ _ _ _ _ _ _ hrw hf hm] at hw

/-- Settles O12: whom `mayWrite` refuses changes nothing, and the governing MP's write sets the one field that lies in the
bytes written. -/
theorem registerWriteAccess : Obligations.RegisterWriteAccess := by
  refine ⟨fun s hub addr data b hb hg ht => ?_, fun s p fn addr data b hp hb hfn ht hq => ?_,
    fun s p addr data b hp hb ht hpci => ?_, fun s hub addr data b f i hb ht hg hone hrw hf => ?_⟩
  · have ha : s.hall.accepts (.mp hub) = false := Bool.eq_false_iff.2 fun h => hg ((accepts_mp_iff _ _).1 h)
    have hw := registerWrite_mp s hub addr data b hb
    rwa [blockWrite_refused _ _ _ _ ht fun f u _ => mayWrite_mp_refused _ _ f u ha] at hw
  · exact registerWrite_fn s p fn addr data b hp hb hfn ht hq
  · have hw := registerWrite_pf0 s p addr data b hp hb
    rwa [blockWrite_refused _ _ _ _ ht fun f u hf => mayWrite_host_refused _ _ _ f u (hf ▸ ht) (hf ▸ hpci)] at hw
  · exact ⟨_, registerWrite_field s hub addr data b f i hb ht hg hone hrw hf, getF_setF_same _ _ _ _,
      setF_frame _ _ _ _ _ _ ⟨rfl, List.mem_singleton_self f⟩⟩

end Sys2Proof.Machine
end

section
/-! SUPPORT. What the functions of the model do to the memories' canonical form (R39, R40, log entries 3 to 5). Few write a
memory (`Hall.writeLine`, `zero`, `hostWrite`, `nvWrite`, `nvErase`, `restoreRun`, `moveStore`, `wipe`): each of these, and
each function that may call one, leaves a canonical memory canonical. Every other function leaves the memories as they are,
which is an equivalence and so a rewriting rule. One lemma per function, in the order of the definitions; a later lemma
goes through the lemmas of the functions it calls. -/

namespace Sys2Proof.Machine

/-- Every memory of the module is in canonical form. -/
def Hall.Canon (h : Hall) : Prop := h.mem.ok = true

@[simp] theorem mem_ok_iff (h : Hall) : h.mem.ok = true ↔ h.Canon := Iff.rfl

@[simp] theorem canon_mk (regs mem outs jA jB pA pB cmd data checks tiers weights avail ingress nbrs trust power mgmt wat free) :
    Hall.Canon ⟨regs, mem, outs, jA, jB, pA, pB, cmd, data, checks, tiers, weights, avail, ingress, nbrs, trust, power, mgmt, wat, free⟩ ↔
      mem.ok = true := Iff.rfl

@[simp] theorem canon_ite (c : Prop) [Decidable c] (a b : Hall) : (if c then a else b).Canon ↔ if c then a.Canon else b.Canon := by
  split <;> rfl

@[simp] theorem snd_ite {α : Type} (c : Prop) [Decidable c] (a b : α × Hall) :
    (if c then a else b).2 = if c then a.2 else b.2 := apply_ite ..

@[simp] theorem hall_ite (c : Prop) [Decidable c] (a b : Answer) : (if c then a else b).hall = if c then a.hall else b.hall := apply_ite ..

/-- The module of a pair, when the pair is known. -/
theorem canon_of_eq {α : Type} {p : α × Hall} {x : α} {g : Hall} (e : p = (x, g)) : g.Canon ↔ p.2.Canon := by rw [e]

theorem Hall.Canon.of_eq_snd {α : Type} {p : α × Hall} {x : α} {g : Hall} (hw : p.2.Canon) (e : p = (x, g)) : g.Canon :=
  (canon_of_eq e).2 hw

/-- A fold keeps the memories canonical where each of its steps does. -/
theorem foldl_canon {α : Type} (f : Hall → α → Hall) (hf : ∀ h a, h.Canon → (f h a).Canon) (l : List α) (h : Hall) (hw : h.Canon) :
    (l.foldl f h).Canon :=
  List.foldlRecOn (motive := Hall.Canon) l f hw fun h hh a _ => hf h a hh

/-- A fold whose steps write no memory writes none. -/
@[simp] theorem foldl_canon_iff {α : Type} (f : Hall → α → Hall) (hf : ∀ h a, (f h a).Canon ↔ h.Canon) (l : List α) (h : Hall) :
    (l.foldl f h).Canon ↔ h.Canon := by
  induction l generalizing h with
  | nil => exact Iff.rfl
  | cons x l ih => exact (ih _).trans (hf h x)

theorem foldl_snd_canon {α β : Type} (f : β × Hall → α → β × Hall) (hf : ∀ p a, p.2.Canon → (f p a).2.Canon) (l : List α)
    (p : β × Hall) (hw : p.2.Canon) : (l.foldl f p).2.Canon :=
  List.foldlRecOn (motive := fun p => p.2.Canon) l f hw fun h hh a _ => hf h a hh

@[simp] theorem foldl_snd_canon_iff {α β : Type} (f : β × Hall → α → β × Hall) (hf : ∀ p a, (f p a).2.Canon ↔ p.2.Canon) (l : List α)
    (p : β × Hall) : (l.foldl f p).2.Canon ↔ p.2.Canon := by
  induction l generalizing p with
  | nil => exact Iff.rfl
  | cons x l ih => exact (ih _).trans (hf p x)

theorem upTo_canon (n : Nat) (h : Hall) (f : Hall → Nat → Hall) (hf : ∀ h k, h.Canon → (f h k).Canon) (hw : h.Canon) :
    (upTo n h f).Canon := foldl_canon f hf _ h hw

@[simp] theorem upTo_canon_iff (n : Nat) (h : Hall) (f : Hall → Nat → Hall) (hf : ∀ h k, (f h k).Canon ↔ h.Canon) :
    (upTo n h f).Canon ↔ h.Canon := foldl_canon_iff f hf _ h

/-! ### Registers, counters and events -/

@[simp] theorem setF_canon (h : Hall) (f : Fld) (u v : Nat) : (h.setF f u v).Canon ↔ h.Canon := Iff.rfl
@[simp] theorem setB_canon (h : Hall) (f : Fld) (u : Nat) (b : Bool) : (h.setB f u b).Canon ↔ h.Canon := Iff.rfl
@[simp] theorem setFs_canon (h : Hall) (u : Nat) (l : List (Fld × Nat)) : (h.setFs u l).Canon ↔ h.Canon := by simp [Hall.setFs]
@[simp] theorem bump_canon (h : Hall) (c : Ctr) (u : Nat) (k : Nat) : (h.bump c u k).Canon ↔ h.Canon := by simp [Hall.bump]
@[simp] theorem clearCtr_canon (h : Hall) (u : Nat) (c : Ctr) : (h.clearCtr u c).Canon ↔ h.Canon := Iff.rfl
@[simp] theorem clearCtrs_canon (h : Hall) (u : Nat) (l : List Ctr) : (h.clearCtrs u l).Canon ↔ h.Canon := by
  simp [Hall.clearCtrs]

@[simp] theorem clearFs_canon (h : Hall) (u : Nat) (l : List Fld) : (h.clearFs u l).Canon ↔ h.Canon := by simp [Hall.clearFs]
@[simp] theorem deposit_canon (h : Hall) (r : FjRec) : (h.deposit r).Canon ↔ h.Canon := Iff.rfl
@[simp] theorem urgent_canon (h : Hall) (k : RecKind) (unit : Nat) (info : Nat) : (h.urgent k unit info).Canon ↔ h.Canon :=
  Iff.rfl

@[simp] theorem ordinary_canon (h : Hall) (k : RecKind) (unit : Nat) (info : Nat) : (h.ordinary k unit info).Canon ↔ h.Canon :=
  Iff.rfl

@[simp] theorem errorCount_canon (h : Hall) (count hit : Fld) (u k thresh : Nat) (rk : RecKind) :
    (h.errorCount count hit u k thresh rk).Canon ↔ h.Canon := by
  simp [Hall.errorCount]

@[simp] theorem emit_canon (h : Hall) (o : Out) : (h.emit o).Canon ↔ h.Canon := Iff.rfl
@[simp] theorem draw_canon (h : Hall) (n : Nat) : (h.draw n).2.Canon ↔ h.Canon := Iff.rfl
@[simp] theorem free_canon (h : Hall) : (h.free).2.Canon ↔ h.Canon := Iff.rfl

/-! ### The management lines -/

@[simp] theorem updLink_canon (h : Hall) (hub : Hub) (f : MgmtLink → MgmtLink) : (h.updLink hub f).Canon ↔ h.Canon := by
  unfold Hall.updLink
  split <;> simp

@[simp] theorem mgmtHold_canon (h : Hall) (hub : Hub) (fs : List MgmtFrame) : (h.mgmtHold hub fs).Canon ↔ h.Canon := by
  simp [Hall.mgmtHold]

@[simp] theorem mgmtEventTo_canon (h : Hall) (hub : Hub) (entry : Bytes) : (h.mgmtEventTo hub entry).Canon ↔ h.Canon := by
  simp [Hall.mgmtEventTo]

@[simp] theorem mgmtBeatTo_canon (h : Hall) (hub : Hub) (content : Bytes) : (h.mgmtBeatTo hub content).Canon ↔ h.Canon := by
  simp [Hall.mgmtBeatTo]

@[simp] theorem mgmtEvent_canon (h : Hall) (entry : Bytes) : (h.mgmtEvent entry).Canon ↔ h.Canon := by simp [Hall.mgmtEvent]
@[simp] theorem mgmtRecord_canon (h : Hall) (signed : Bytes) : (h.mgmtRecord signed).Canon ↔ h.Canon := by
  simp [Hall.mgmtRecord]

/-! ### Memory and address translation -/

@[simp] theorem updStall_canon (h : Hall) (i : Nat) (f : Stall → Stall) : (h.updStall i f).Canon ↔ h.Canon := Iff.rfl
@[simp] theorem updLedger_canon (h : Hall) (r : Nat) (f : Ledger → Ledger) : (h.updLedger r f).Canon ↔ h.Canon := Iff.rfl
@[simp] theorem updTally_canon (h : Hall) (r : Nat) (f : Tally → Tally) : (h.updTally r f).Canon ↔ h.Canon := Iff.rfl
@[simp] theorem updQue_canon (h : Hall) (q : Nat) (f : Que → Que) : (h.updQue q f).Canon ↔ h.Canon := Iff.rfl
@[simp] theorem updTill_canon (h : Hall) (t : Nat) (f : Till → Till) : (h.updTill t f).Canon ↔ h.Canon := Iff.rfl
@[simp] theorem updPen_canon (h : Hall) (p : Nat) (f : Pen → Pen) : (h.updPen p f).Canon ↔ h.Canon := Iff.rfl
@[simp] theorem updArray_canon (h : Hall) (r : Nat) (f : NvArray → NvArray) : (h.updArray r f).Canon ↔ h.Canon := Iff.rfl
@[simp] theorem updChan_canon (h : Hall) (c : Nat) (f : ChanSt → ChanSt) : (h.updChan c f).Canon ↔ h.Canon := Iff.rfl

@[simp] theorem updPort_canon (h : Hall) (p : Hub) (f : HostPort → HostPort) : (h.updPort p f).Canon ↔ h.Canon := by
  unfold Hall.updPort
  split <;> simp

@[simp] theorem updPool_canon (h : Hall) (p : Hub) (f : Pool → Pool) : (h.updPool p f).Canon ↔ h.Canon := by
  unfold Hall.updPool
  split <;> simp

@[simp] theorem updImage_canon (h : Hall) (i : Nat) (f : Image → Image) : (h.updImage i f).Canon ↔ h.Canon := by
  unfold Hall.updImage
  split <;> simp

@[simp] theorem updReq_canon (h : Hall) (t : Nat) (f : Req → Req) : (h.updReq t f).Canon ↔ h.Canon := by
  unfold Hall.updReq
  split <;> simp

@[simp] theorem updLot_canon (h : Hall) (i : Nat) (f : Lot → Lot) : (h.updLot i f).Canon ↔ h.Canon := by
  unfold Hall.updLot
  split <;> simp

@[simp] theorem updLaunch_canon (h : Hall) (k : Nat) (f : LaunchEntry → LaunchEntry) : (h.updLaunch k f).Canon ↔ h.Canon := by
  unfold Hall.updLaunch
  split <;> simp

@[simp] theorem setMark_canon (h : Hall) (line : Nat) (m : LineMark) : (h.setMark line m).Canon ↔ h.Canon := Iff.rfl

@[simp] theorem writeLine_canon (h : Hall) (line o : Nat) (p : Payload) (hw : h.Canon) : (h.writeLine line o p).Canon := by
  unfold Hall.writeLine
  split
  · exact hw
  · simp only [Hall.Canon, MemSys.ok, Bool.and_eq_true] at hw ⊢
    exact ⟨⟨Mem.wf_writeN 0 _ _ _ hw.1.1, hw.1.2⟩, hw.2⟩

@[simp] theorem writeRam_canon (h : Hall) (a : Nat) (p : Payload) (hw : h.Canon) : (h.writeRam a p).Canon := by
  simp +contextual [Hall.writeRam, foldl_canon, hw]

@[simp] theorem writeBytes_canon (h : Hall) (a : Nat) (bs : Bytes) (hw : h.Canon) : (h.writeBytes a bs).Canon := by
  simp [Hall.writeBytes, hw]

@[simp] theorem zero_canon (h : Hall) (a n : Nat) (hw : h.Canon) : (h.zero a n).Canon := zero_ok h a n hw
@[simp] theorem poisonRange_canon (h : Hall) (a n : Nat) (late : Bool) : (h.poisonRange a n late).Canon ↔ h.Canon := by
  simp [Hall.poisonRange]

@[simp] theorem hostWrite_canon (h : Hall) (a : Nat) (bs : Bytes) (hw : h.Canon) : (h.hostWrite a bs).Canon :=
  hostWrite_ok h a bs hw

@[simp] theorem hostStores_canon (h : Hall) (l : List HostStore) (hw : h.Canon) : (h.hostStores l).Canon := by
  simp +contextual [Hall.hostStores, foldl_canon, hw]

@[simp] theorem updRun_canon (h : Hall) (k : RunKey) (f : GroupRun → GroupRun) : (h.updRun k f).Canon ↔ h.Canon := Iff.rfl

@[simp] theorem provWrite_canon (h : Hall) (k : RunKey) (a : Nat) (p : Payload) (hw : h.Canon) : (h.provWrite k a p).Canon := by
  grind [Hall.provWrite, writeRam_canon, updRun_canon, foldl_canon, Hall.Canon]

@[simp] theorem setWorld_canon (h : Hall) (kind idx : Nat) (secure : Bool) : (h.setWorld kind idx secure).Canon ↔ h.Canon :=
  Iff.rfl

@[simp] theorem watDeny_canon (h : Hall) (kind idx source sourceId : Nat) (write : Bool) :
    (h.watDeny kind idx source sourceId write).Canon ↔ h.Canon := by
  simp [Hall.watDeny]

@[simp] theorem latchMmu_canon (h : Hall) (u cause pen page : Nat) : (h.latchMmu u cause pen page).Canon ↔ h.Canon := by
  simp [Hall.latchMmu]

@[simp] theorem mmuApply_canon (h : Hall) (u : Nat) : (h.mmuApply u).Canon ↔ h.Canon := by
  unfold Hall.mmuApply
  (repeat' split) <;> simp

@[simp] theorem mmuDue_canon (h : Hall) (u : Nat) (f : MmuDue → MmuDue) : (h.mmuDue u f).Canon ↔ h.Canon := Iff.rfl

@[simp] theorem translate_canon (h : Hall) (hub : Hub) (pen mva : Nat) (write hubChain : Bool) :
    (h.translate hub pen mva write hubChain).2.Canon ↔ h.Canon := by
  unfold Hall.translate
  dsimp only
  (repeat' split) <;> simp

@[simp] theorem setPte_canon (h : Hall) (pen mva : Nat) (e : Option Nat) : (h.setPte pen mva e).Canon ↔ h.Canon := Iff.rfl

@[simp] theorem queFlags_canon (h : Hall) (q : Nat) : (h.queFlags q).Canon ↔ h.Canon := by
  unfold Hall.queFlags
  split <;> simp

@[simp] theorem queRaise_canon (h : Hall) (q : Nat) (r : QueRec) : (h.queRaise q r).Canon ↔ h.Canon := by simp [Hall.queRaise]

@[simp] theorem quePut_canon (h : Hall) (q : Nat) (mk : Nat → Nat → Bytes) (hw : h.Canon) : (h.quePut q mk).Canon := by
  unfold Hall.quePut
  (repeat' split) <;> simp [hw]

@[simp] theorem evtPut_canon (h : Hall) (q : Nat) (e : Event) (hw : h.Canon) : (h.evtPut q e).Canon := by simp [Hall.evtPut, hw]

@[simp] theorem evtDrain_canon (h : Hall) (q : Nat) (fuel : Nat) (hw : h.Canon) : (h.evtDrain q fuel).Canon := by
  induction fuel generalizing h with
  | zero => exact hw
  | succ n ih =>
    rw [Hall.evtDrain]
    split
    · exact hw
    split
    · exact ih _ (by simp [hw])
    split
    · exact hw
    · simp [hw]

@[simp] theorem setWorldEvents_canon (h : Hall) (secure : Bool) (w : WorldEvents) : (h.setWorldEvents secure w).Canon ↔
    h.Canon := by
  simp [Hall.setWorldEvents]

@[simp] theorem post_canon (h : Hall) (pen : Nat) (secure : Bool) (e : Event) (hw : h.Canon) : (h.post pen secure e).Canon := by
  unfold Hall.post
  (repeat' split) <;> simp [hw]

@[simp] theorem postPen_canon (h : Hall) (pen : Nat) (typ : Nat) (detail : Bytes) (hw : h.Canon) :
    (h.postPen pen typ detail).Canon := by
  simp [Hall.postPen, hw]

@[simp] theorem postMany_canon (h : Hall) (pens : List Nat) (typ : Nat) (detail : Bytes) (hw : h.Canon) :
    (h.postMany pens typ detail).Canon := by
  have hf : (pens.foldl (fun h p => h.postPen p typ detail) h).Canon :=
    foldl_canon _ (fun g p hg => postPen_canon g p typ detail hg) pens h hw
  unfold Hall.postMany
  split
  · exact hf
  · exact post_canon _ _ _ _ hf

@[simp] theorem postBoth_canon (h : Hall) (pen : Nat) (typ : Nat) (detail : Bytes) (hw : h.Canon) :
    (h.postBoth pen typ detail).Canon := by
  simp [Hall.postBoth, hw]

@[simp] theorem drainWorld_canon (h : Hall) (q : Nat) (pen : Nat) (secure : Bool) (hw : h.Canon) :
    (h.drainWorld q pen secure).Canon := by
  simp [Hall.drainWorld, hw]

@[simp] theorem openOp_canon (h : Hall) (till pen : Nat) (secure : Bool) : (h.openOp till pen secure).2.Canon ↔ h.Canon :=
  Iff.rfl

@[simp] theorem closeOp_canon (h : Hall) (k status : Nat) (detail : Bytes) (hw : h.Canon) :
    (h.closeOp k status detail).Canon := by
  unfold Hall.closeOp
  split <;> simp [hw]

/-! ### Tills and queues -/

@[simp] theorem refuse_canon (h : Hall) (status : Nat) (hw : h.Canon) : (refuse h status).hall.Canon := by simp [refuse, hw]
@[simp] theorem refuse_hall (h : Hall) (st : Nat) : (refuse h st).hall = h := rfl
@[simp] theorem okWith_canon (h : Hall) (payload : Bytes) (hw : h.Canon) : (okWith h payload).hall.Canon := by simp [okWith, hw]
@[simp] theorem okWith_hall (h : Hall) (p : Bytes) : (okWith h p).hall = h := rfl

@[simp] theorem acceptOp_hall (h : Hall) (c : TillCmd) (f : Nat → Hall → Hall) (more : Bytes) :
   (acceptOp h c f more).hall = f (h.openOp c.till c.pen c.secure).1 (h.openOp c.till c.pen c.secure).2 := rfl

theorem acceptOp_canon (h : Hall) (c : TillCmd) (f : Nat → Hall → Hall) (more : Bytes) (hf : ∀ k g, g.Canon → (f k g).Canon)
    (hw : h.Canon) :
   (acceptOp h c f more).hall.Canon := hf _ _ hw

@[simp] theorem tillDone_canon (h : Hall) (c : TillCmd) (status : Nat) (payload : Bytes) (hw : h.Canon) :
    (h.tillDone c status payload).Canon := by
  simp [Hall.tillDone, hw]

@[simp] theorem tillComplete_canon (h : Hall) (c : TillCmd) (status : Nat) (payload : Bytes) (hw : h.Canon) :
    (h.tillComplete c status payload).Canon := by
  simp [Hall.tillComplete, hw]

@[simp] theorem tillIdle_canon (h : Hall) (t : Nat) : (h.tillIdle t).Canon ↔ h.Canon := Iff.rfl
@[simp] theorem tillReset_canon (h : Hall) (t : Nat) : (h.tillReset t).Canon ↔ h.Canon := Iff.rfl

/-! ### Signatures and keys -/

@[simp] theorem sign_canon (h : Hall) (m : Bytes) : (h.sign m).2.Canon ↔ h.Canon := Iff.rfl
@[simp] theorem wrap_canon (h : Hall) (spki label plain : Bytes) : (h.wrap spki label plain).2.Canon ↔ h.Canon := Iff.rfl

/-! ### Stores at module virtual addresses -/

@[simp] theorem mvaStore_canon (h : Hall) (hub : Hub) (who : Accessor) (pen mva : Nat) (p : Payload) (hubChain : Bool)
    (hw : h.Canon) : (h.mvaStore hub who pen mva p hubChain).2.Canon := by
  refine foldl_snd_canon _ (fun acc piece hacc => ?_) _ _ hw
  have ht := (translate_canon acc.2 hub pen piece.1 true hubChain).2 hacc
  split
  · exact hacc
  dsimp only
  split
  case h_1 he =>
    have hg := ht.of_eq_snd he
    split
    · exact (watDeny_canon ..).2 hg
    · exact writeRam_canon _ _ _ hg
  case h_2 he => exact hostWrite_canon _ _ _ (ht.of_eq_snd he)
  case h_3 he => exact ht.of_eq_snd he

/-! ### The decode engines -/

@[simp] theorem updEngine_canon (h : Hall) (e : Nat) (f : DecEngine → DecEngine) : (h.updEngine e f).Canon ↔ h.Canon := Iff.rfl
@[simp] theorem updStream_canon (h : Hall) (e i : Nat) (f : VStream → VStream) : (h.updStream e i f).Canon ↔ h.Canon := Iff.rfl

@[simp] theorem endUnit_canon (h : Hall) (e i : Nat) (s : VStream) : (h.endUnit e i s).Canon ↔ h.Canon := by
  unfold Hall.endUnit
  split <;> simp

@[simp] theorem vdecData_canon (h : Hall) (e port lid stream : Nat) (dual : Bool) (useq : Nat) (body : Bytes) :
    (h.vdecData e port lid stream dual useq body).Canon ↔ h.Canon := by
  unfold Hall.vdecData
  dsimp only
  (repeat' split) <;> simp

@[simp] theorem vdecGap_canon (h : Hall) (e port lid stream : Nat) (dual : Bool) : (h.vdecGap e port lid stream dual).Canon ↔
    h.Canon := by
  unfold Hall.vdecGap
  split <;> simp

@[simp] theorem vdecFlush_canon (h : Hall) (e port lid stream : Nat) (dual : Bool) :
    (h.vdecFlush e port lid stream dual).Canon ↔ h.Canon := by
  unfold Hall.vdecFlush
  split <;> simp

@[simp] theorem dreqPost_canon (h : Hall) (e q pen : Nat) (entry : Bytes) (hw : h.Canon) :
    (h.dreqPost e q pen entry).2.Canon := by
  grind [Hall.dreqPost, setF_canon, bump_canon, queFlags_canon, mvaStore_canon]

@[simp] theorem vdecOutput_canon (h : Hall) (e i : Nat) (p : Picture) (hw : h.Canon) : (h.vdecOutput e i p).Canon := by
  unfold Hall.vdecOutput
  split
  · exact hw
  split
  · simpa using hw
  split
  · simpa using hw
  dsimp only
  split
  case h_1 hg => simpa using (mvaStore_canon _ _ _ _ _ _ _ hw).of_eq_snd hg
  case h_2 g hg =>
    have hk := (mvaStore_canon _ _ _ _ _ _ _ hw).of_eq_snd hg
    split
    all_goals
      rename_i hf
      simpa using (dreqPost_canon _ _ _ _ _ (by simpa using hk)).of_eq_snd hf

@[simp] theorem reportUseq_canon (h : Hall) (s : VStream) (useq : Nat) : (h.reportUseq s useq).Canon ↔ h.Canon := by
  unfold Hall.reportUseq
  dsimp only
  split <;> simp

@[simp] theorem vdecClearOn_canon (h : Hall) (e pen : Nat) : (h.vdecClearOn e pen).Canon ↔ h.Canon := Iff.rfl
@[simp] theorem vdecClearPen_canon (h : Hall) (pen : Nat) : (h.vdecClearPen pen).Canon ↔ h.Canon := by simp [Hall.vdecClearPen]
@[simp] theorem vdecStreamSet_canon (c : TillCmd) (h : Hall) (hw : h.Canon) : (vdecStreamSet c h).hall.Canon := by
  simp [vdecStreamSet, hw]

@[simp] theorem vdecStreamClear_canon (c : TillCmd) (h : Hall) (hw : h.Canon) : (vdecStreamClear c h).hall.Canon := by
  unfold vdecStreamClear
  dsimp only
  (repeat' split) <;> simp [hw]

@[simp] theorem vdecQuery_canon (c : TillCmd) (h : Hall) (hw : h.Canon) : (vdecQuery c h).hall.Canon := by simp [vdecQuery, hw]

/-! ### Commands dropped -/

@[simp] theorem updPortT_canon (h : Hall) (p : Nat) (f : TreePort → TreePort) : (h.updPortT p f).Canon ↔ h.Canon := Iff.rfl
@[simp] theorem updLid_canon (h : Hall) (u : Nat) (f : Lid → Lid) : (h.updLid u f).Canon ↔ h.Canon := Iff.rfl
@[simp] theorem updSess_canon (h : Hall) (u : Nat) (f : Sess → Sess) : (h.updSess u f).Canon ↔ h.Canon := Iff.rfl
@[simp] theorem updSpace_canon (h : Hall) (k : Nat) (f : UnitSpace → UnitSpace) : (h.updSpace k f).Canon ↔ h.Canon := Iff.rfl

@[simp] theorem lidEvent_canon (h : Hall) (port lid typ : Nat) (more : Bytes) (hw : h.Canon) :
    (h.lidEvent port lid typ more).Canon := by
  unfold Hall.lidEvent
  split <;> simp [hw]

@[simp] theorem pushEntry_canon (h : Hall) (port notBefore word : Nat) : (h.pushEntry port notBefore word).Canon ↔ h.Canon :=
  Iff.rfl

@[simp] theorem sendEqd_canon (h : Hall) (port lid : Nat) : (h.sendEqd port lid).Canon ↔ h.Canon := Iff.rfl
@[simp] theorem sendRelease_canon (h : Hall) (port lid : Nat) : (h.sendRelease port lid).Canon ↔ h.Canon := Iff.rfl
@[simp] theorem sendUnsilence_canon (h : Hall) (port lid : Nat) : (h.sendUnsilence port lid).Canon ↔ h.Canon := Iff.rfl
@[simp] theorem sendSilence_canon (h : Hall) (port lid : Nat) (persist : Bool) (frames : Nat) :
    (h.sendSilence port lid persist frames).Canon ↔ h.Canon :=
  Iff.rfl

@[simp] theorem countActive_canon (h : Hall) (port : Nat) : (h.countActive port).Canon ↔ h.Canon := Iff.rfl
@[simp] theorem setLid_canon (h : Hall) (port lid st : Nat) : (h.setLid port lid st).Canon ↔ h.Canon := by simp [Hall.setLid]
@[simp] theorem freeLid_canon (h : Hall) (port lid : Nat) : (h.freeLid port lid).Canon ↔ h.Canon := Iff.rfl
@[simp] theorem epErr_canon (h : Hall) (port lid k : Nat) (hw : h.Canon) : (h.epErr port lid k).Canon := by
  simp [Hall.epErr, hw]

/-! ### The session ports -/

@[simp] theorem sendDown_canon (h : Hall) (port notBefore : Nat) (frame : Bytes) : (h.sendDown port notBefore frame).Canon ↔
    h.Canon :=
  Iff.rfl

@[simp] theorem setBlocks_canon (h : Hall) (u : Nat) : (h.setBlocks u).Canon ↔ h.Canon := Iff.rfl
@[simp] theorem sendSealed_canon (h : Hall) (port lid typ : Nat) (body : Bytes) : (h.sendSealed port lid typ body).2.Canon ↔
    h.Canon := by
  simp [Hall.sendSealed]

@[simp] theorem countSess_canon (h : Hall) (port : Nat) : (h.countSess port).Canon ↔ h.Canon := Iff.rfl
@[simp] theorem setSs_canon (h : Hall) (port lid st : Nat) : (h.setSs port lid st).Canon ↔ h.Canon := Iff.rfl

@[simp] theorem endSessOps_canon (h : Hall) (u rekeyStatus chalStatus : Nat) (hw : h.Canon) :
    (h.endSessOps u rekeyStatus chalStatus).Canon := by
  grind [Hall.endSessOps, closeOp_canon, updSess_canon, foldl_canon]

@[simp] theorem sessIdle_canon (h : Hall) (port lid : Nat) (hw : h.Canon) : (h.sessIdle port lid).Canon := by
  simp [Hall.sessIdle, hw]

@[simp] theorem sessClosed_canon (h : Hall) (port lid reason : Nat) (hw : h.Canon) : (h.sessClosed port lid reason).Canon := by
  simp [Hall.sessClosed, hw]

@[simp] theorem sendLeave_canon (h : Hall) (port lid reason : Nat) : (h.sendLeave port lid reason).Canon ↔ h.Canon := by
  simp [Hall.sendLeave]

@[simp] theorem sessEnd_canon (h : Hall) (port lid reason : Nat) (hw : h.Canon) : (h.sessEnd port lid reason).Canon := by
  simp [Hall.sessEnd, hw]

@[simp] theorem dropParked_canon (h : Hall) (port lid reason : Nat) (hw : h.Canon) : (h.dropParked port lid reason).Canon := by
  simp [Hall.dropParked, hw]

@[simp] theorem authFail_canon (h : Hall) (port lid reason : Nat) : (h.authFail port lid reason).Canon ↔ h.Canon := by
  simp [Hall.authFail]

@[simp] theorem challenge_canon (h : Hall) (port lid notBefore : Nat) : (h.challenge port lid notBefore).Canon ↔ h.Canon :=
  Iff.rfl

@[simp] theorem sessEnterAuth_canon (h : Hall) (port lid : Nat) : (h.sessEnterAuth port lid).Canon ↔ h.Canon := Iff.rfl
@[simp] theorem quarantine_canon (h : Hall) (port lid reason : Nat) (hw : h.Canon) : (h.quarantine port lid reason).Canon := by
  simp [Hall.quarantine, hw]

@[simp] theorem lidJoin_canon (h : Hall) (port lid : Nat) (hw : h.Canon) : (h.lidJoin port lid).Canon := by
  simp [Hall.lidJoin, hw]

@[simp] theorem sendKey_canon (h : Hall) (port lid epoch : Nat) : (h.sendKey port lid epoch).2.Canon ↔ h.Canon := Iff.rfl
@[simp] theorem startRekey_canon (h : Hall) (port lid : Nat) : (h.startRekey port lid).Canon ↔ h.Canon := Iff.rfl
@[simp] theorem toRun_canon (h : Hall) (port lid : Nat) : (h.toRun port lid).Canon ↔ h.Canon := by simp [Hall.toRun]
@[simp] theorem sendBind_canon (h : Hall) (port lid : Nat) (guard : Bool) : (h.sendBind port lid guard).Canon ↔ h.Canon := by
  simp [Hall.sendBind]

@[simp] theorem suspectSess_canon (h : Hall) (port lid why : Nat) (hw : h.Canon) : (h.suspectSess port lid why).Canon := by
  simp [Hall.suspectSess, hw]

@[simp] theorem sessErr_canon (h : Hall) (port lid : Nat) (hw : h.Canon) : (h.sessErr port lid).Canon := by
  simp [Hall.sessErr, hw]

@[simp] theorem sessLidLost_canon (h : Hall) (port lid : Nat) (hw : h.Canon) : (h.sessLidLost port lid).Canon := by
  simp [Hall.sessLidLost, hw]

@[simp] theorem passFrame_canon (h : Hall) (port lid useq : Nat) (body : Bytes) : (h.passFrame port lid useq body).Canon ↔
    h.Canon := by
  unfold Hall.passFrame
  (repeat' split) <;> simp

@[simp] theorem setBase_canon (h : Hall) (port lid : Nat) : (h.setBase port lid).Canon ↔ h.Canon := by simp [Hall.setBase]

@[simp] theorem passHeld_canon (h : Hall) (port lid : Nat) (fuel : Nat) : (h.passHeld port lid fuel).Canon ↔ h.Canon := by
  induction fuel generalizing h with
  | zero => rfl
  | succ n ih =>
    rw [Hall.passHeld]
    dsimp only
    split
    · rfl
    · exact (ih _).trans (by simp)

@[simp] theorem keepFrame_canon (h : Hall) (port lid useq : Nat) (body : Bytes) : (h.keepFrame port lid useq body).Canon ↔
    h.Canon := by
  simp [Hall.keepFrame]

@[simp] theorem takeData_canon (h : Hall) (port lid useq : Nat) (body : Bytes) (hw : h.Canon) :
    (h.takeData port lid useq body).Canon := by
  simp [Hall.takeData, hw]

@[simp] theorem sendAck_canon (h : Hall) (port lid : Nat) : (h.sendAck port lid).Canon ↔ h.Canon := by simp [Hall.sendAck]
@[simp] theorem sessMalformedFrame_canon (h : Hall) (port lid : Nat) (hw : h.Canon) : (h.sessMalformedFrame port lid).Canon :=
    by
  simp [Hall.sessMalformedFrame, hw]

@[simp] theorem sessCert_canon (h : Hall) (port lid : Nat) (flags : Nat) (body : Bytes) (hw : h.Canon) :
    (h.sessCert port lid flags body).Canon := by
  unfold Hall.sessCert
  dsimp only
  (repeat' split) <;> simp [hw]

@[simp] theorem sessResponse_canon (h : Hall) (port lid : Nat) (body : Bytes) (hw : h.Canon) :
    (h.sessResponse port lid body).Canon := by
  unfold Hall.sessResponse
  dsimp only
  (repeat' split) <;> simp +contextual [foldl_canon, hw]

@[simp] theorem keyProved_canon (h : Hall) (port lid : Nat) (use : KeyUse) (hw : h.Canon) :
    (h.keyProved port lid use).Canon := by
  simp +contextual [Hall.keyProved, foldl_canon, hw]

@[simp] theorem sessResumed_canon (h : Hall) (port lid : Nat) (hw : h.Canon) : (h.sessResumed port lid).Canon := by
  simp [Hall.sessResumed, hw]

@[simp] theorem resumeInvalid_canon (h : Hall) (port lid : Nat) (hw : h.Canon) : (h.resumeInvalid port lid).Canon := by
  simp [Hall.resumeInvalid, hw]

@[simp] theorem sessMessage_canon (h : Hall) (port lid typ : Nat) (body : Bytes) (hw : h.Canon) :
    (h.sessMessage port lid typ body).Canon := by
  simp [Hall.sessMessage, hw]

@[simp] theorem sessSealed_canon (h : Hall) (port lid : Nat) (frame : Bytes) (hw : h.Canon) :
    (h.sessSealed port lid frame).Canon := by
  unfold Hall.sessSealed
  dsimp only
  (repeat' split) <;> simp [hw]

@[simp] theorem sessFrame_canon (h : Hall) (port : Nat) (frame : Bytes) (hw : h.Canon) : (h.sessFrame port frame).Canon := by
  unfold Hall.sessFrame
  dsimp only
  (repeat' split) <;> simp [hw]

theorem sessChecked_canon (c : TillCmd) (h : Hall) (n : Nat) (f : Nat → Nat → Answer) (hf : ∀ p l, (f p l).hall.Canon)
    (hw : h.Canon) :
  (sessChecked c h n f).hall.Canon := by
  unfold sessChecked
  split
  · exact hw
  split
  · exact hw
  split
  · exact hw
  · exact hf _ _

@[simp] theorem rebind_canon (h : Hall) (p l : Nat) : (h.rebind p l).Canon ↔ h.Canon := by simp [Hall.rebind]

@[simp] theorem sessBind_canon (c : TillCmd) (h : Hall) (hw : h.Canon) : (sessBind c h).hall.Canon := by
  refine sessChecked_canon _ _ _ _ (fun p l => ?_) hw
  dsimp only
  split
  · exact hw
  split
  · exact hw
  split
  · exact hw
  · simpa using hw

@[simp] theorem sessUnbind_canon (c : TillCmd) (h : Hall) (hw : h.Canon) : (sessUnbind c h).hall.Canon := by
  refine sessChecked_canon _ _ _ _ (fun p l => ?_) hw
  dsimp only
  split <;> simpa using hw

@[simp] theorem sessClose_canon (c : TillCmd) (h : Hall) (hw : h.Canon) : (sessClose c h).hall.Canon := by
  refine sessChecked_canon _ _ _ _ (fun p l => ?_) hw
  dsimp only
  split
  · exact hw
  · exact foldl_canon _ (fun g q hg => sessEnd_canon g q l 1 hg) _ _ hw

theorem sessInRun_canon (c : TillCmd) (h : Hall) (f : Nat → Nat → Hall → Nat → Hall)
    (hf : ∀ p l g k, g.Canon → (f p l g k).Canon) (hw : h.Canon) : 
  (sessInRun c h f).hall.Canon := by
  refine sessChecked_canon c h 2 _ (fun p l => ?_) hw
  split
  · exact acceptOp_canon _ _ _ _ (fun k g hg => foldl_canon _ (fun g q hg => hf q l g _ hg) _ _ hg) hw
  · exact hw

@[simp] theorem sessRekey_canon (c : TillCmd) (h : Hall) (hw : h.Canon) : (sessRekey c h).hall.Canon :=
  sessInRun_canon _ _ _ (fun p l g k hg => by simpa using hg) hw

@[simp] theorem sessChallenge_canon (c : TillCmd) (h : Hall) (hw : h.Canon) : (sessChallenge c h).hall.Canon :=
  sessInRun_canon _ _ _ (fun p l g k hg => by simpa using suspectSess_canon g p l 3 hg) hw

@[simp] theorem sessQuery_canon (c : TillCmd) (h : Hall) (hw : h.Canon) : (sessQuery c h).hall.Canon :=
  sessChecked_canon _ _ _ _ (fun _ _ => hw) hw

@[simp] theorem sessUnbindOn_canon (h : Hall) (p pen : Nat) : (h.sessUnbindOn p pen).Canon ↔ h.Canon := by
  simp [Hall.sessUnbindOn]

@[simp] theorem sessUnbindPen_canon (h : Hall) (pen : Nat) : (h.sessUnbindPen pen).Canon ↔ h.Canon := by
  simp [Hall.sessUnbindPen]

@[simp] theorem sessRoleMoved_canon (h : Hall) : (h.sessRoleMoved).Canon ↔ h.Canon := by
  refine upTo_canon_iff _ _ _ fun g p => upTo_canon_iff _ _ _ fun g l => ?_
  split <;> simp

@[simp] theorem sessAnchorGone_canon (h : Hall) (slot : Nat) (hw : h.Canon) : (h.sessAnchorGone slot).Canon := by
  grind [Hall.sessAnchorGone, sessEnd_canon, upTo_canon]

/-! ### The tree ports -/

@[simp] theorem clearStrayLast_canon (h : Hall) (p : Nat) : (h.clearStrayLast p).Canon ↔ h.Canon := Iff.rfl
@[simp] theorem portSuperframe_canon (h : Hall) (p : Nat) : (h.portSuperframe p).Canon ↔ h.Canon := by
  simp [Hall.portSuperframe]

@[simp] theorem portRelease_canon (h : Hall) (p : Nat) (hw : h.Canon) : (h.portRelease p).Canon := by
  simp +contextual [Hall.portRelease, upTo_canon, hw]

@[simp] theorem portDisable_canon (h : Hall) (p : Nat) (hw : h.Canon) : (h.portDisable p).Canon := by
  unfold Hall.portDisable
  dsimp only
  (repeat' split) <;> simp [hw]

@[simp] theorem clone_canon (h : Hall) (port lid grain : Nat) (offset : Int) (hw : h.Canon) :
    (h.clone port lid grain offset).Canon := by
  simp [Hall.clone, hw]

@[simp] theorem bidResult_canon (h : Hall) (port : Nat) (b : BidRec) (lid outcome : Nat) :
    (h.bidResult port b lid outcome).Canon ↔ h.Canon :=
  Iff.rfl

@[simp] theorem answerJoin_canon (h : Hall) (port jeqd : Nat) (b : BidRec) (accepted : Nat) (hw : h.Canon) :
    (h.answerJoin port jeqd b accepted).2.Canon := by
  unfold Hall.answerJoin
  (repeat' split) <;> simp [hw]

@[simp] theorem answerRequest_canon (h : Hall) (port : Nat) (b : BidRec) : (h.answerRequest port b).Canon ↔ h.Canon := by
  simp [Hall.answerRequest]

@[simp] theorem answerBids_canon (h : Hall) (port : Nat) (hw : h.Canon) : (h.answerBids port).Canon := by
  refine foldl_canon _ (fun g f hg => ?_) _ _ hw
  split
  · split
    · refine foldl_snd_canon _ (fun acc b ha => ?_) _ _ (by simpa using hg)
      split
      · exact answerJoin_canon _ _ _ _ _ ha
      · simpa using ha
    · exact hg
  · exact hg

@[simp] theorem serviceGrants_canon (h : Hall) (port tf : Nat) : (h.serviceGrants port tf).2.Canon ↔ h.Canon := by
  unfold Hall.serviceGrants
  dsimp only
  (repeat' split) <;> simp

@[simp] theorem dueAcks_canon (h : Hall) (port : Nat) : (h.dueAcks port).Canon ↔ h.Canon := by simp [Hall.dueAcks]
@[simp] theorem updUp_canon (h : Hall) (p : Nat) (f : UpFrame → UpFrame) : (h.updUp p f).Canon ↔ h.Canon := Iff.rfl
@[simp] theorem noteOffset_canon (h : Hall) (port lid : Nat) (ns : Int) : (h.noteOffset port lid ns).Canon ↔ h.Canon := by
  simp [Hall.noteOffset]

@[simp] theorem rangeFailed_canon (h : Hall) (port lid : Nat) : (h.rangeFailed port lid).Canon ↔ h.Canon := by
  simp [Hall.rangeFailed]

@[simp] theorem takeBid_canon (h : Hall) (p : Nat) (b : Burst) (lid plen : Nat) : (h.takeBid p b lid plen).Canon ↔ h.Canon := by
  unfold Hall.takeBid
  dsimp only
  split <;> simp

@[simp] theorem silence_canon (h : Hall) (p : Nat) (l : List Nat) : (h.silence p l).Canon ↔ h.Canon := by simp [Hall.silence]

@[simp] theorem sweepDone_canon (h : Hall) (p lid outcome : Nat) (hw : h.Canon) : (h.sweepDone p lid outcome).Canon := by
  unfold Hall.sweepDone
  (repeat' split) <;> simp [hw]

@[simp] theorem sweepNext_canon (h : Hall) (p : Nat) (s : Sweep) (hw : h.Canon) : (h.sweepNext p s).Canon := by
  unfold Hall.sweepNext
  split <;> simp [hw]

@[simp] theorem sweepStart_canon (h : Hall) (p : Nat) (op : Option Nat) (hw : h.Canon) : (h.sweepStart p op).Canon := by
  simp [Hall.sweepStart, hw]

@[simp] theorem sweepWake_canon (h : Hall) (p : Nat) (hw : h.Canon) : (h.sweepWake p).Canon := by
  unfold Hall.sweepWake
  split <;> simp [hw]

@[simp] theorem sweepsRoleMoved_canon (h : Hall) (hw : h.Canon) : (h.sweepsRoleMoved).Canon := by
  grind [Hall.sweepsRoleMoved, sweepDone_canon, sweepWake_canon, upTo_canon]

@[simp] theorem missFrame_canon (h : Hall) (p lid : Nat) (hw : h.Canon) : (h.missFrame p lid).Canon := by
  simp [Hall.missFrame, hw]

@[simp] theorem treePortSet_canon (c : TillCmd) (h : Hall) (hw : h.Canon) : (treePortSet c h).hall.Canon := by
  simp [treePortSet, hw]

@[simp] theorem treeLease_canon (c : TillCmd) (h : Hall) (hw : h.Canon) : (treeLease c h).hall.Canon := by simp [treeLease, hw]
@[simp] theorem treeRegister_canon (c : TillCmd) (h : Hall) (hw : h.Canon) : (treeRegister c h).hall.Canon := by
  simp [treeRegister, hw]

theorem treeChecked_canon (c : TillCmd) (h : Hall) (f : Nat → Nat → Answer) (hf : ∀ p l, (f p l).hall.Canon) (hw : h.Canon) :
  (treeChecked c h f).hall.Canon := by
  unfold treeChecked
  split
  · exact hw
  split
  · exact hw
  · exact hf _ _

@[simp] theorem treeUnregister_canon (c : TillCmd) (h : Hall) (hw : h.Canon) : (treeUnregister c h).hall.Canon := by
  unfold treeUnregister
  split
  · exact hw
  · refine treeChecked_canon _ _ _ (fun p l => ?_) hw
    simp [hw]

@[simp] theorem treeRelease_canon (c : TillCmd) (h : Hall) (hw : h.Canon) : (treeRelease c h).hall.Canon := by
  unfold treeRelease
  split
  · exact hw
  · refine treeChecked_canon _ _ _ (fun p l => ?_) hw
    dsimp only
    split
    · simp [hw]
    · exact hw

@[simp] theorem treeSweep_canon (c : TillCmd) (h : Hall) (hw : h.Canon) : (treeSweep c h).hall.Canon := by simp [treeSweep, hw]
@[simp] theorem treeQuery_canon (c : TillCmd) (h : Hall) (hw : h.Canon) : (treeQuery c h).hall.Canon := by simp [treeQuery, hw]

/-! ### The weight arrays -/

/-- A weight array, listed or not, is in canonical form. -/
theorem nvm_wf (h : Hall) (r : Nat) (hw : h.Canon) : Mem.wf 0xFF (Tab.get [] h.mem.nvm r) = true := by
  simp only [Hall.Canon, MemSys.ok, Bool.and_eq_true, List.all_eq_true] at hw
  unfold Tab.get
  cases he : Tab.find h.mem.nvm r with
  | none => rfl
  | some m => exact hw.2 _ (Tab.mem_of_find he)

/-- A weight array replaced by one in canonical form. -/
theorem nvm_set_ok (h : Hall) (r : Nat) (m : Mem) (hw : h.Canon) (hm : Mem.wf 0xFF m = true) :
    MemSys.ok { h.mem with nvm := Tab.set h.mem.nvm r m } = true := by
  simp only [Hall.Canon, MemSys.ok, Bool.and_eq_true, List.all_eq_true] at hw ⊢
  exact ⟨hw.1, fun e he => by rcases Tab.mem_set he with rfl | he; exacts [hm, hw.2 e he]⟩

@[simp] theorem nvWrite_canon (h : Hall) (r p o : Nat) (bs : Bytes) (hw : h.Canon) : (h.nvWrite r p o bs).Canon :=
  nvm_set_ok h r _ hw (Mem.wf_writeN _ _ _ _ (nvm_wf h r hw))

@[simp] theorem nvErase_canon (h : Hall) (r p : Nat) (hw : h.Canon) : (h.nvErase r p).Canon :=
  nvm_set_ok h r _ hw (Mem.wf_clear _ _ _ _ (nvm_wf h r hw))

@[simp] theorem setBankOp_canon (h : Hall) (r b : Nat) (o : BankOp) : (h.setBankOp r b o).Canon ↔ h.Canon := Iff.rfl
@[simp] theorem setBankState_canon (h : Hall) (r b st : Nat) : (h.setBankState r b st).Canon ↔ h.Canon := Iff.rfl
@[simp] theorem bankStart_canon (h : Hall) (r p page op : Nat) (phys : Bool) (o : BankOp) :
    (h.bankStart r p page op phys o).Canon ↔ h.Canon :=
  Iff.rfl

@[simp] theorem bankEnd_canon (h : Hall) (r b status : Nat) : (h.bankEnd r b status).Canon ↔ h.Canon := Iff.rfl
@[simp] theorem lastCmd_canon (h : Hall) (r status cmd bank : Nat) : (h.lastCmd r status cmd bank).Canon ↔ h.Canon := Iff.rfl
@[simp] theorem nvSetPool_canon (h : Hall) (r p : Nat) (inside : Bool) : (h.nvSetPool r p inside).Canon ↔ h.Canon := by
  simp [Hall.nvSetPool]

@[simp] theorem nvRetire_canon (h : Hall) (r p : Nat) : (h.nvRetire r p).Canon ↔ h.Canon := by simp [Hall.nvRetire]
@[simp] theorem poisonedBytes_canon (h : Hall) (n : Nat) : (h.poisonedBytes n).2.Canon ↔ h.Canon := Iff.rfl
@[simp] theorem nvRaw_canon (h : Hall) (r p o n : Nat) : (h.nvRaw r p o n).2.Canon ↔ h.Canon := by simp [Hall.nvRaw]
@[simp] theorem nvDue_canon (h : Hall) (r l : Nat) (fromMirror : Bool) : (h.nvDue r l fromMirror).Canon ↔ h.Canon := Iff.rfl
@[simp] theorem nvInternalFail_canon (h : Hall) (r l : Nat) : (h.nvInternalFail r l).Canon ↔ h.Canon := by
  simp [Hall.nvInternalFail]

@[simp] theorem nvMirrorRead_canon (h : Hall) (pref o n : Nat) : (h.nvMirrorRead pref o n).2.Canon ↔ h.Canon := by
  grind [Hall.nvMirrorRead, bump_canon, nvRaw_canon]

@[simp] theorem unlockEnd_canon (h : Hall) (r : Nat) : (h.unlockEnd r).Canon ↔ h.Canon := Iff.rfl
@[simp] theorem unlockAbandon_canon (h : Hall) (r : Nat) : (h.unlockAbandon r).Canon ↔ h.Canon := by simp [Hall.unlockAbandon]
@[simp] theorem setUnlock_canon (h : Hall) (r st : Nat) (u : Unlock) : (h.setUnlock r st u).Canon ↔ h.Canon := Iff.rfl

@[simp] theorem windowWrite_canon (h : Hall) (hub : Hub) (r offset : Nat) (data : Bytes) :
    (h.windowWrite hub r offset data).Canon ↔ h.Canon := by
  unfold Hall.windowWrite
  (repeat' split) <;> simp

@[simp] theorem setWp_canon (h : Hall) (r n : Nat) (v : Bool) : (h.setWp r n v).Canon ↔ h.Canon := by simp [Hall.setWp]

@[simp] theorem nvCommand_canon (h : Hall) (r code : Nat) (f : Hall → NvCmd → Hall) (hf : ∀ h c, (f h c).Canon ↔ h.Canon) :
    (h.nvCommand r code f).Canon ↔ h.Canon := by
  unfold Hall.nvCommand
  split
  · split
    · dsimp only
      split <;> simp [hf]
    · rfl
  · rfl

@[simp] theorem cmdProgram_canon (h : Hall) (r : Nat) : (h.cmdProgram r).Canon ↔ h.Canon := by simp [Hall.cmdProgram]
@[simp] theorem cmdErase_canon (h : Hall) (r : Nat) : (h.cmdErase r).Canon ↔ h.Canon := by simp [Hall.cmdErase]
@[simp] theorem cmdBlank_canon (h : Hall) (r : Nat) : (h.cmdBlank r).Canon ↔ h.Canon := by simp [Hall.cmdBlank]
@[simp] theorem cmdSuspend_canon (h : Hall) (r : Nat) : (h.cmdSuspend r).Canon ↔ h.Canon := by simp [Hall.cmdSuspend]
@[simp] theorem cmdResume_canon (h : Hall) (r : Nat) : (h.cmdResume r).Canon ↔ h.Canon := by simp [Hall.cmdResume]
@[simp] theorem cmdReadStatus_canon (h : Hall) (r : Nat) : (h.cmdReadStatus r).Canon ↔ h.Canon := by simp [Hall.cmdReadStatus]
@[simp] theorem cmdWp_canon (h : Hall) (r code : Nat) (v : Bool) : (h.cmdWp r code v).Canon ↔ h.Canon := by simp [Hall.cmdWp]
@[simp] theorem cmdFreeze_canon (h : Hall) (r : Nat) : (h.cmdFreeze r).Canon ↔ h.Canon := by simp [Hall.cmdFreeze]
@[simp] theorem cmdReadPage_canon (h : Hall) (r : Nat) : (h.cmdReadPage r).Canon ↔ h.Canon := by simp [Hall.cmdReadPage]
@[simp] theorem nvRunComplete_canon (h : Hall) (r : Nat) : (h.nvRunComplete r).Canon ↔ h.Canon := by simp [Hall.nvRunComplete]
@[simp] theorem tearPage_canon (h : Hall) (r p page : Nat) (hw : h.Canon) : (h.tearPage r p page).Canon := by
  simp [Hall.tearPage, hw]

@[simp] theorem tearBlock_canon (h : Hall) (r p : Nat) (hw : h.Canon) : (h.tearBlock r p).Canon := by simp [Hall.tearBlock, hw]

@[simp] theorem nvVerifyFail_canon (h : Hall) (r p : Nat) : (h.nvVerifyFail r p).Canon ↔ h.Canon := by
  unfold Hall.nvVerifyFail
  dsimp only
  split <;> simp

@[simp] theorem nvProgramPage_canon (h : Hall) (r p page : Nat) (data : Bytes) (hw : h.Canon) :
    (h.nvProgramPage r p page data).Canon := by
  simp [Hall.nvProgramPage, hw]

@[simp] theorem nvEraseDone_canon (h : Hall) (r p : Nat) (hw : h.Canon) : (h.nvEraseDone r p).Canon := by
  simp [Hall.nvEraseDone, hw]

@[simp] theorem nvReturn_canon (h : Hall) (r p : Nat) : (h.nvReturn r p).Canon ↔ h.Canon := by simp [Hall.nvReturn]

@[simp] theorem toPageBuf_canon (h : Hall) (r p page : Nat) (internalFail : Bool) :
    (h.toPageBuf r p page internalFail).Canon ↔ h.Canon := by
  unfold Hall.toPageBuf
  dsimp only
  (repeat' split) <;> simp

@[simp] theorem bmapApply_canon (h : Hall) (r : Nat) (es : List (Nat × Nat)) : (h.bmapApply r es).Canon ↔ h.Canon := by
  simp [Hall.bmapApply]

@[simp] theorem interruptBank_canon (h : Hall) (r b : Nat) (hw : h.Canon) : (h.interruptBank r b).Canon := by
  simp [Hall.interruptBank, hw]

@[simp] theorem brownoutArrays_canon (h : Hall) (hw : h.Canon) : (h.brownoutArrays).Canon := by
  grind [Hall.brownoutArrays, setF_canon, interruptBank_canon, upTo_canon]

@[simp] theorem brownoutArraysClear_canon (h : Hall) : (h.brownoutArraysClear).Canon ↔ h.Canon := Iff.rfl
@[simp] theorem nvmRoleMoved_canon (h : Hall) : (h.nvmRoleMoved).Canon ↔ h.Canon := by simp [Hall.nvmRoleMoved]

@[simp] theorem scrubNext_canon (h : Hall) (r : Nat) (skip : Bool) : (h.scrubNext r skip).Canon ↔ h.Canon := by
  unfold Hall.scrubNext
  dsimp only
  (repeat' split) <;> simp

@[simp] theorem settleDue_canon (h : Hall) (r l : Nat) : (h.settleDue r l).Canon ↔ h.Canon := Iff.rfl

theorem nvRelocate_canon (h : Hall) (r l : Nat) (content : Bytes) (g : Hall) (he : h.nvRelocate r l content = some g)
    (hw : h.Canon) : g.Canon := by
  unfold Hall.nvRelocate at he
  dsimp only at he
  split at he
  · cases he
  split at he
  · cases he
  · rw [← Option.some.inj he]
    simpa using upTo_canon _ _ _ (fun g i hg => nvProgramPage_canon g _ _ _ _ hg) hw

/-! ### Neighbour lines -/

@[simp] theorem updNbr_canon (h : Hall) (p : Nat) (f : NbrPort → NbrPort) : (h.updNbr p f).Canon ↔ h.Canon := Iff.rfl
@[simp] theorem nbrOut_canon (h : Hall) (p : Nat) (frame : Bytes) : (h.nbrOut p frame).Canon ↔ h.Canon := by simp [Hall.nbrOut]
@[simp] theorem nbrClear_canon (h : Hall) (p typ flags : Nat) (body : Bytes) : (h.nbrClear p typ flags body).Canon ↔
    h.Canon := by
  simp [Hall.nbrClear]

@[simp] theorem nbrControlWith_canon (h : Hall) (p : Nat) (keys : List Bytes) (epoch typ : Nat) (body : Bytes) :
    (h.nbrControlWith p keys epoch typ body).Canon ↔ h.Canon := by
  simp [Hall.nbrControlWith]

@[simp] theorem nbrControl_canon (h : Hall) (p typ : Nat) (body : Bytes) : (h.nbrControl p typ body).Canon ↔ h.Canon := by
  simp [Hall.nbrControl]

@[simp] theorem updConv_canon (h : Hall) (p c : Nat) (f : Conv → Conv) : (h.updConv p c f).Canon ↔ h.Canon := Iff.rfl
@[simp] theorem convSend_canon (h : Hall) (p c : Nat) (f : ConvFrame) : (h.convSend p c f).Canon ↔ h.Canon := by
  simp [Hall.convSend]

@[simp] theorem convPump_canon (h : Hall) (p c : Nat) (fuel : Nat) : (h.convPump p c fuel).Canon ↔ h.Canon := by
  induction fuel generalizing h with
  | zero => rfl
  | succ n ih =>
    rw [Hall.convPump]
    split
    · rfl
    split
    · exact (ih _).trans (by simp)
    · rfl

@[simp] theorem nbrPost_canon (h : Hall) (p c typ : Nat) (body : Bytes) (units : Nat) : (h.nbrPost p c typ body units).Canon ↔
    h.Canon := by
  simp [Hall.nbrPost]

@[simp] theorem nbrAck_canon (h : Hall) (p c : Nat) : (h.nbrAck p c).Canon ↔ h.Canon := by simp [Hall.nbrAck]
@[simp] theorem creditPump_canon (h : Hall) (p : Nat) : (h.creditPump p).Canon ↔ h.Canon := by simp [Hall.creditPump]
@[simp] theorem noticePump_canon (h : Hall) (p : Nat) : (h.noticePump p).Canon ↔ h.Canon := by simp [Hall.noticePump]
@[simp] theorem postNotice_canon (h : Hall) (p kind cause items tag : Nat) : (h.postNotice p kind cause items tag).Canon ↔
    h.Canon := by
  simp [Hall.postNotice]

@[simp] theorem farPump_canon (h : Hall) (p : Nat) : (h.farPump p).Canon ↔ h.Canon := by simp [Hall.farPump]
@[simp] theorem farStart_canon (h : Hall) (addr n : Nat) (read : Nat) (fill : Option (Nat × Nat)) :
    (h.farStart addr n read fill).Canon ↔ h.Canon := by
  simp [Hall.farStart]

@[simp] theorem farDrop_canon (h : Hall) (read : Nat) : (h.farDrop read).Canon ↔ h.Canon := by simp [Hall.farDrop]

/-! ### Pools -/

@[simp] theorem updFrame_canon (h : Hall) (hub : Hub) (page : Nat) (f : PoolFrame → PoolFrame) :
    (h.updFrame hub page f).Canon ↔ h.Canon := by
  simp [Hall.updFrame]

@[simp] theorem startCopy_canon (h : Hall) (hub : Hub) (page home : Nat) : (h.startCopy hub page home).Canon ↔ h.Canon := by
  simp [Hall.startCopy]

@[simp] theorem poolFill_canon (h : Hall) (hub : Hub) (home : Nat) : (h.poolFill hub home).Canon ↔ h.Canon := by
  unfold Hall.poolFill
  dsimp only
  (repeat' split) <;> simp

@[simp] theorem stampFrame_canon (h : Hall) (hub : Hub) (page : Nat) : (h.stampFrame hub page).Canon ↔ h.Canon := by
  simp [Hall.stampFrame]

@[simp] theorem renewFrame_canon (h : Hall) (hub : Hub) (page : Nat) (x : PoolFrame) : (h.renewFrame hub page x).Canon ↔
    h.Canon := by
  unfold Hall.renewFrame
  dsimp only
  (repeat' split) <;> simp

@[simp] theorem poolLook_canon (h : Hall) (hub : Hub) (home : Nat) (promote : Bool) : (h.poolLook hub home promote).2.Canon ↔
    h.Canon := by
  unfold Hall.poolLook
  split <;> simp

@[simp] theorem poolSettle_canon (h : Hall) (hw : h.Canon) : (h.poolSettle).Canon := by
  unfold Hall.poolSettle
  split <;> simp [hw]

@[simp] theorem freeFrame_canon (h : Hall) (hub : Hub) (page : Nat) (hw : h.Canon) : (h.freeFrame hub page).Canon := by
  simp [Hall.freeFrame, hw]

@[simp] theorem poolInvalidateIn_canon (h : Hall) (hub : Hub) (bad : Nat → Bool) : (h.poolInvalidateIn hub bad).Canon ↔
    h.Canon := by
  refine foldl_canon_iff _ (fun g e => ?_) _ _
  split
  · dsimp only
    split <;> simp
  · rfl

@[simp] theorem poolInvalidate_canon (h : Hall) (bad : Nat → Bool) : (h.poolInvalidate bad).Canon ↔ h.Canon := by
  simp [Hall.poolInvalidate]

@[simp] theorem frameBurstDone_canon (h : Hall) (hub page : Nat) : (h.frameBurstDone hub page).Canon ↔ h.Canon := by
  simp [Hall.frameBurstDone]

@[simp] theorem lotReadStart_canon (h : Hall) (hub : Hub) (chan pen page addr n : Nat) (issuer : Option Nat) :
    (h.lotReadStart hub chan pen page addr n issuer).2.Canon ↔ h.Canon := by
  simp [Hall.lotReadStart]

@[simp] theorem lotDeliver_canon (h : Hall) (id : Nat) (x : LotRead) (p : Payload) : (h.lotDeliver id x p).Canon ↔ h.Canon :=
  Iff.rfl

/-! ### Pages and tiles -/

@[simp] theorem setUsed_canon (h : Hall) (p v : Nat) : (h.setUsed p v).Canon ↔ h.Canon := Iff.rfl
@[simp] theorem setQuota_canon (h : Hall) (p v : Nat) : (h.setQuota p v).Canon ↔ h.Canon := Iff.rfl
@[simp] theorem takeFrame_canon (h : Hall) (p page : Nat) (hw : h.Canon) : (h.takeFrame p page).Canon := by
  simp [Hall.takeFrame, hw]

@[simp] theorem dropFrame_canon (h : Hall) (p page : Nat) (hw : h.Canon) : (h.dropFrame p page).Canon := by
  simp [Hall.dropFrame, hw]

@[simp] theorem unmapPage_canon (h : Hall) (p page : Nat) (hw : h.Canon) : (h.unmapPage p page).Canon := by
  unfold Hall.unmapPage
  split <;> simp [hw]

@[simp] theorem promote_canon (h : Hall) (hub : Hub) (home : Nat) : (h.promote hub home).2.Canon ↔ h.Canon := by
  unfold Hall.promote
  split <;> simp

@[simp] theorem poolResize_canon (h : Hall) (hub : Hub) (n : Nat) : (h.poolResize hub n).Canon ↔ h.Canon := by
  unfold Hall.poolResize
  dsimp only
  split
  · simp
  · refine foldl_canon_iff _ (fun g e => ?_) _ _
    split
    · simp
    · simp
    · split <;> simp

@[simp] theorem setTile_canon (h : Hall) (p : Nat) (pages : List Nat) (on : Bool) : (h.setTile p pages on).Canon ↔ h.Canon := by
  refine foldl_canon_iff _ (fun g page => ?_) _ _
  split
  · split <;> simp
  · rfl

/-! ### Troughs -/

@[simp] theorem updTrough_canon (h : Hall) (i t : Nat) (f : Trough → Trough) : (h.updTrough i t f).Canon ↔ h.Canon := by
  unfold Hall.updTrough
  split <;> simp

@[simp] theorem addMove_canon (h : Hall) (key : Option RunKey) (m : SlotMove) : (h.addMove key m).Canon ↔ h.Canon := by
  unfold Hall.addMove
  split <;> simp

@[simp] theorem fillStart_canon (h : Hall) (i t s : Nat) (key : Option RunKey) (token : Nat) (tags : List Dep) :
    (h.fillStart i t s key token tags).Canon ↔ h.Canon := by
  unfold Hall.fillStart
  split <;> simp

@[simp] theorem fillEnd_canon (h : Hall) (i t s : Nat) (key : Option RunKey) (token : Nat) (tags : List Dep) (poison : Bool) :
    (h.fillEnd i t s key token tags poison).Canon ↔ h.Canon := by
  unfold Hall.fillEnd
  (repeat' split) <;> simp

@[simp] theorem drainStart_canon (h : Hall) (i t s : Nat) (key : Option RunKey) : (h.drainStart i t s key).Canon ↔ h.Canon := by
  unfold Hall.drainStart
  split <;> simp

@[simp] theorem drainEnd_canon (h : Hall) (i t s : Nat) (key : Option RunKey) (keep : Bool) :
    (h.drainEnd i t s key keep).Canon ↔ h.Canon := by
  unfold Hall.drainEnd
  (repeat' split) <;> simp

@[simp] theorem undoMove_canon (h : Hall) (k : RunKey) (m : SlotMove) : (h.undoMove k m).Canon ↔ h.Canon := by
  simp [Hall.undoMove]

/-! ### The ledger -/

@[simp] theorem ledgerApply_canon (h : Hall) (r : Nat) : (h.ledgerApply r).Canon ↔ h.Canon := by
  unfold Hall.ledgerApply
  dsimp only
  split <;> simp

@[simp] theorem recordStatus_canon (h : Hall) (k : RunKey) (token status : Nat) : (h.recordStatus k token status).Canon ↔
    h.Canon := by
  simp [Hall.recordStatus]

@[simp] theorem setStatus_canon (h : Hall) (token status : Nat) : (h.setStatus token status).Canon ↔ h.Canon := by
  simp [Hall.setStatus]

@[simp] theorem addDeps_canon (h : Hall) (k : RunKey) (new : List Dep) : (h.addDeps k new).Canon ↔ h.Canon := Iff.rfl
@[simp] theorem updCrossing_canon (h : Hall) (handle lot layer : Nat) (f : Crossing → Crossing) :
    (h.updCrossing handle lot layer f).Canon ↔ h.Canon := by
  simp [Hall.updCrossing]

@[simp] theorem releaseRun_canon (h : Hall) (k : RunKey) : (h.releaseRun k).Canon ↔ h.Canon := Iff.rfl
@[simp] theorem dropRun_canon (h : Hall) (k : RunKey) : (h.dropRun k).Canon ↔ h.Canon := Iff.rfl
@[simp] theorem runNotices_canon (h : Hall) (r : GroupRun) (kind cause : Nat) : (h.runNotices r kind cause).Canon ↔ h.Canon :=
    by
  simp [Hall.runNotices]

@[simp] theorem mirrorLine_canon (h : Hall) (p : Nat) (l : RedoLine) (hw : h.Canon) : (h.mirrorLine p l).Canon := by
  unfold Hall.mirrorLine
  split <;> simp [hw]

@[simp] theorem commitRun_canon (h : Hall) (r : GroupRun) (hw : h.Canon) : (h.commitRun r).Canon := by
  grind [Hall.commitRun, bump_canon, ordinary_canon, updLedger_canon, writeRam_canon, ledgerApply_canon, setStatus_canon,
      updCrossing_canon, releaseRun_canon, dropRun_canon, runNotices_canon, mirrorLine_canon, foldl_canon]

@[simp] theorem restartChans_canon (h : Hall) (k : RunKey) : (h.restartChans k).Canon ↔ h.Canon := by
  refine foldl_canon_iff _ (fun g e => ?_) _ _
  split
  · rfl
  · simp

@[simp] theorem dropChecks_canon (h : Hall) (k : RunKey) (vote : Bool) : (h.dropChecks k vote).Canon ↔ h.Canon := Iff.rfl

@[simp] theorem restoreRun_canon (h : Hall) (r : GroupRun) (cause : Nat) (hw : h.Canon) : (h.restoreRun r cause).Canon := by
  unfold Hall.restoreRun
  extract_lets k h1 h2 h3 d h4 h5 h6 h7 h8 h9 closing
  have e4 : h4.Canon := by simpa [h4, h3, h2, h1] using hw
  have e5 : h5.Canon := by
    refine foldl_canon _ (fun g u hg => ?_) _ _ e4
    simp only [Hall.Canon, MemSys.ok, Bool.and_eq_true] at hg ⊢
    exact ⟨⟨Mem.wf_writeN 0 _ _ _ hg.1.1, hg.1.2⟩, hg.2⟩
  have e6 : h6.Canon := foldl_canon _ (fun g m hg => (undoMove_canon g k m).2 hg) _ _ e5
  have e8 : h8.Canon := by simpa [h8, h7] using e6
  have e9 : h9.Canon := foldl_canon _ (fun g e hg => (updStall_canon ..).2 hg) _ _ e8
  simpa using e9

@[simp] theorem abortRun_canon (h : Hall) (k : RunKey) (cause : Nat) (hw : h.Canon) : (h.abortRun k cause).Canon := by
  grind [Hall.abortRun, restoreRun_canon, foldl_canon]

@[simp] theorem discardRun_canon (h : Hall) (k : RunKey) (cause : Nat) (hw : h.Canon) : (h.discardRun k cause).Canon := by
  grind [Hall.discardRun, releaseRun_canon, dropRun_canon, restoreRun_canon, foldl_canon]

@[simp] theorem openRun_canon (h : Hall) (k : RunKey) (handle pen nstep : Nat) : (h.openRun k handle pen nstep).Canon ↔
    h.Canon := by
  unfold Hall.openRun
  split <;> simp

@[simp] theorem enterToken_canon (h : Hall) (k : RunKey) (token : Nat) : (h.enterToken k token).Canon ↔ h.Canon := by
  unfold Hall.enterToken
  split <;> simp

/-! ### Channels -/

@[simp] theorem physWrite_canon (h : Hall) (a : Nat) (p : Payload) (hw : h.Canon) : (h.physWrite a p).Canon := by
  unfold Hall.physWrite
  (repeat' split) <;> simp [hw]

@[simp] theorem land_canon (h : Hall) (c : Nat) (b : DmaBurst) (p : Payload) (hw : h.Canon) : (h.land c b p).Canon := by
  unfold Hall.land
  (repeat' split) <;> simp [hw]

@[simp] theorem burstLeaves_canon (h : Hall) (b : DmaBurst) : (h.burstLeaves b).Canon ↔ h.Canon := by
  unfold Hall.burstLeaves
  split <;> simp

@[simp] theorem dropReads_canon (h : Hall) (c : Nat) : (h.dropReads c).Canon ↔ h.Canon := by
  refine foldl_canon_iff _ (fun g b => ?_) _ _
  split
  · simp
  · rfl

@[simp] theorem chanDrop_canon (h : Hall) (c : Nat) (hw : h.Canon) : (h.chanDrop c).Canon := by
  grind [Hall.chanDrop, setFs_canon, bump_canon, free_canon, updChan_canon, land_canon, burstLeaves_canon, dropReads_canon,
      foldl_canon]

@[simp] theorem chanRelease_canon (h : Hall) (c : Nat) (hw : h.Canon) : (h.chanRelease c).Canon := by
  simp [Hall.chanRelease, hw]

@[simp] theorem chanPenReset_canon (h : Hall) (c : Nat) : (h.chanPenReset c).Canon ↔ h.Canon := Iff.rfl

/-! ### Shadows -/

@[simp] theorem setShadows_canon (h : Hall) (p : Nat) (l : List Nat) : (h.setShadows p l).Canon ↔ h.Canon := by
  simp [Hall.setShadows]

theorem designate_canon (h : Hall) (p : Nat) (g : Hall) (he : h.designate p = some g) : g.Canon ↔ h.Canon := by
  obtain ⟨l, -, rfl⟩ := Option.map_eq_some_iff.1 he
  exact setShadows_canon ..

@[simp] theorem redesignate_canon (h : Hall) (p : Nat) : (h.redesignate p).Canon ↔ h.Canon := by
  unfold Hall.redesignate
  dsimp only
  split <;> simp

/-! ### Requests -/

@[simp] theorem bufWorld_canon (h : Hall) (r : Nat) (b : Nat × Nat) (hw : h.Canon) : (h.bufWorld r b).Canon := by
  simp +contextual [Hall.bufWorld, upTo_canon, hw]

@[simp] theorem imageFree_canon (h : Hall) (handle : Nat) (hw : h.Canon) : (h.imageFree handle).Canon := by
  grind [Hall.imageFree, setF_canon, updTally_canon, releaseRun_canon, chanRelease_canon, redesignate_canon, bufWorld_canon,
      foldl_canon, Hall.Canon]

@[simp] theorem imageSettle_canon (h : Hall) (handle : Nat) (hw : h.Canon) : (h.imageSettle handle).Canon := by
  unfold Hall.imageSettle
  (repeat' split) <;> simp [hw]

@[simp] theorem endRequest_canon (h : Hall) (token : Nat) (hw : h.Canon) : (h.endRequest token).Canon := by
  unfold Hall.endRequest
  dsimp only
  (repeat' split) <;> simp [hw]

@[simp] theorem dropRequest_canon (h : Hall) (token : Nat) : (h.dropRequest token).Canon ↔ h.Canon := by
  unfold Hall.dropRequest
  split <;> simp

@[simp] theorem mvaRead_canon (h : Hall) (hub : Hub) (pen mva n : Nat) : (h.mvaRead hub pen mva n).2.Canon ↔ h.Canon := by
  refine foldl_snd_canon_iff _ (fun acc piece => ?_) _ _
  split
  · rfl
  split
  case h_3 he =>
    have hg := (canon_of_eq he).trans (translate_canon ..)
    split
    all_goals
      rename_i hn
      exact (canon_of_eq hn).trans ((nvMirrorRead_canon ..).trans hg)
  all_goals
    rename_i he
    exact (canon_of_eq he).trans (translate_canon ..)

@[simp] theorem headEntry_canon (h : Hall) (q : Nat) (r : QueRec) : (h.headEntry q r).2.Canon ↔ h.Canon := by
  unfold Hall.headEntry
  dsimp only
  split
  · split <;> rename_i he <;> exact (canon_of_eq he).trans (mvaRead_canon ..)
  · rfl

@[simp] theorem queTake_canon (h : Hall) (q : Nat) (r : QueRec) (hw : h.Canon) : (h.queTake q r).Canon := by
  simp [Hall.queTake, hw]

/-! ### The barrow engines -/

theorem chanWorld_canon (h : Hall) (c a : Nat) (write : Bool) (g : Hall) (he : h.chanWorld c a write = some g) : g.Canon ↔
    h.Canon := by
  unfold Hall.chanWorld at he
  split at he
  · rw [← Option.some.inj he]
    exact watDeny_canon ..
  · cases he

@[simp] theorem srcMva_canon (h : Hall) (c mva n : Nat) : (h.srcMva c mva n).2.Canon ↔ h.Canon := by
  have ht := translate_canon h (h.carrier c) (h.chanPen c) mva false false
  unfold Hall.srcMva
  dsimp only
  split
  case h_1 he => exact (canon_of_eq he).trans ht
  case h_2 he =>
    have hg := (canon_of_eq he).trans ht
    split
    case h_1 hc => exact (chanWorld_canon _ _ _ _ _ hc).trans hg
    · exact hg
  case h_3 he => exact (canon_of_eq he).trans ht
  case h_4 he =>
    have hg := (canon_of_eq he).trans ht
    split
    case h_1 hc => exact (chanWorld_canon _ _ _ _ _ hc).trans hg
    split
    all_goals
      rename_i hl
      have hk := (canon_of_eq hl).trans ((poolLook_canon ..).trans hg)
      simpa using hk

@[simp] theorem srcRead_canon (h : Hall) (c : Nat) (d : Desc) (a : Int) (n : Nat) : (h.srcRead c d a n).2.Canon ↔ h.Canon := by
  unfold Hall.srcRead
  dsimp only
  split
  · rfl
  split
  · rfl
  split
  · split
    · rfl
    · exact srcMva_canon ..
  · split
    · split <;> rfl
    · rfl
  · split
    · split <;> rfl
    · rfl
  · split
    · rfl
    split
    case h_1 hc => exact chanWorld_canon _ _ _ _ _ hc
    · rfl
  · split
    · split
      · rfl
      split
      case h_1 he => exact (canon_of_eq he).trans (srcMva_canon ..)
      · exact srcMva_canon ..
    · rfl
  · split
    · rfl
    split
    · split <;> rfl
    · rfl
  · split
    · rfl
    split
    case h_5 =>
      split
      all_goals
        rename_i he
        exact (canon_of_eq he).trans (nvRaw_canon ..)
    all_goals rfl
  · rfl

@[simp] theorem dstWrite_canon (h : Hall) (c : Nat) (d : Desc) (a : Int) (n : Nat) (o : Origin) :
    (h.dstWrite c d a n o).2.Canon ↔ h.Canon := by
  have ht : ∀ w hc {x g}, h.translate (h.carrier c) (h.chanPen c) w true hc = (x, g) → (g.Canon ↔ h.Canon) := fun w hc x g he =>
    (canon_of_eq he).trans (translate_canon ..)
  unfold Hall.dstWrite
  dsimp only
  split
  · rfl
  split
  · rfl
  split
  · split
    · rfl
    split
    case h_2 he =>
      split
      case h_1 hc => exact (chanWorld_canon _ _ _ _ _ hc).trans (ht _ _ he)
      · exact ht _ _ he
    all_goals
      rename_i he
      exact ht _ _ he
  · split
    · split <;> rfl
    · rfl
  · split
    · split
      · split
        · rfl
        · split <;> rfl
      · rfl
    · rfl
  · split
    · rfl
    split
    case h_1 hc => exact chanWorld_canon _ _ _ _ _ hc
    · rfl
  · split
    · split
      · rfl
      split
      · rfl
      split
      case h_2 he =>
        split
        case h_1 hc => exact (chanWorld_canon _ _ _ _ _ hc).trans (ht _ _ he)
        · exact ht _ _ he
      all_goals
        rename_i he
        exact ht _ _ he
    · rfl
  · split
    · rfl
    split
    · simp
    split <;> rfl
  · split
    · rfl
    split <;> rfl
  · rfl

@[simp] theorem openSlots_canon (h : Hall) (c : Nat) (d : Desc) (o : Origin) : (h.openSlots c d o).Canon ↔ h.Canon := by
  unfold Hall.openSlots
  dsimp only
  (repeat' split) <;> simp

@[simp] theorem advance_canon (h : Hall) (c : Nat) (d : Desc) (n : Nat) : (h.advance c d n).Canon ↔ h.Canon := by
  unfold Hall.advance
  dsimp only
  (repeat' split) <;> simp

@[simp] theorem chanHalt_canon (h : Hall) (c : Nat) (write : Bool) (cause space : Nat) (a : Int) :
    (h.chanHalt c write cause space a).Canon ↔ h.Canon := by
  simp [Hall.chanHalt]

@[simp] theorem takeRequest_canon (h : Hall) (c : Nat) (d : Desc) : (h.takeRequest c d).Canon ↔ h.Canon := by
  unfold Hall.takeRequest
  (repeat' split) <;> simp

@[simp] theorem issueBurst_canon (h : Hall) (c : Nat) (skipRead : Bool) : (h.issueBurst c skipRead).Canon ↔ h.Canon := by
  unfold Hall.issueBurst
  split
  · rfl
  case h_2 d _ =>
  extract_lets h1 o h2
  have e2 : h2.Canon ↔ h.Canon := by simp [h2, h1]
  split
  · simp [e2]
  · simp [e2]
  case h_3 s0 w0 _ _ =>
  extract_lets n
  split
  case h_1 src h3 he =>
  have e3 : h3.Canon ↔ h.Canon := by
    split at he
    · have hp : (h2.poisonedBytes n).2 = h3 := congrArg Prod.snd he
      exact hp ▸ (poisonedBytes_canon h2 n).trans e2
    · exact (canon_of_eq he).trans ((srcRead_canon ..).trans e2)
  split
  · simp [e3]
  split
  all_goals
    rename_i hd
    have e4 := (canon_of_eq hd).trans ((dstWrite_canon ..).trans e3)
  · simp [e4]
  · split
    · simp [e4]
    · simp [e4]

@[simp] theorem sendItem_canon (h : Hall) (p tag item : Nat) (data : Payload) : (h.sendItem p tag item data).Canon ↔
    h.Canon := by
  simp [Hall.sendItem]

@[simp] theorem itemOut_canon (h : Hall) (c p : Nat) (o : Origin) : (h.itemOut c p o).Canon ↔ h.Canon := by
  unfold Hall.itemOut
  dsimp only
  (repeat' split) <;> simp

@[simp] theorem itemTaken_canon (h : Hall) (p : Nat) : (h.itemTaken p).Canon ↔ h.Canon := by
  unfold Hall.itemTaken
  split <;> simp

@[simp] theorem slotEnd_canon (h : Hall) (c : Nat) (d : Desc) (o : Origin) : (h.slotEnd c d o).Canon ↔ h.Canon := by
  unfold Hall.slotEnd
  dsimp only
  (repeat' split) <;> simp

@[simp] theorem chainDone_canon (h : Hall) (c token : Nat) (hw : h.Canon) : (h.chainDone c token).Canon := by
  simp [Hall.chainDone, hw]

@[simp] theorem chanEnable_canon (h : Hall) (c : Nat) : (h.chanEnable c).Canon ↔ h.Canon := by simp [Hall.chanEnable]

theorem restartDue_canon (h : Hall) (c : Nat) (g : Hall) (he : h.restartDue c = some g) : g.Canon ↔ h.Canon := by
  unfold Hall.restartDue at he
  split at he
  · cases he
  · rw [← Option.some.inj he]
    simp

@[simp] theorem skipStatus_canon (h : Hall) (c : Nat) (o : Origin) : (h.skipStatus c o).Canon ↔ h.Canon := by
  unfold Hall.skipStatus
  (repeat' split) <;> simp

/-! ### Signed messages -/

@[simp] theorem coseSign_canon (h : Hall) (payload : Bytes) : (h.coseSign payload).2.Canon ↔ h.Canon := Iff.rfl

/-! ### Goose mode -/

@[simp] theorem gooseSet_canon (h : Hall) (f : Fld) (b : Bool) : (h.gooseSet f b).Canon ↔ h.Canon := Iff.rfl
@[simp] theorem gooseBump_canon (h : Hall) (c : Ctr) : (h.gooseBump c).Canon ↔ h.Canon := by simp [Hall.gooseBump]

@[simp] theorem setGooseLive_canon (h : Hall) (half : Hub) (b : Bool) : (h.setGooseLive half b).Canon ↔ h.Canon := by
  unfold Hall.setGooseLive
  split <;> simp

@[simp] theorem showAlarm_canon (h : Hall) : (h.showAlarm).Canon ↔ h.Canon := Iff.rfl
@[simp] theorem gooseAge_canon (h : Hall) : (h.gooseAge).Canon ↔ h.Canon := by simp [Hall.gooseAge]
@[simp] theorem gooseToggle_canon (h : Hall) (eval : Nat) : (h.gooseToggle eval).Canon ↔ h.Canon := by simp [Hall.gooseToggle]
@[simp] theorem gooseCompare_canon (h : Hall) (half : Hub) : (h.gooseCompare half).Canon ↔ h.Canon := by
  simp [Hall.gooseCompare]

@[simp] theorem goosePut_canon (h : Hall) (half : Hub) (eval verdict : Nat) : (h.goosePut half eval verdict).Canon ↔
    h.Canon := by
  unfold Hall.goosePut
  split <;> simp

/-! ### Verdicts -/

@[simp] theorem updMp_canon (h : Hall) (hub : Hub) (f : Mp → Mp) : (h.updMp hub f).Canon ↔ h.Canon := by
  unfold Hall.updMp
  split <;> simp

@[simp] theorem addRecord_canon (h : Hall) (row stall : Nat) (r : SigRecord) (hw : h.Canon) :
    (h.addRecord row stall r).Canon := by
  simp [Hall.addRecord, hw]

@[simp] theorem latchVerdict_canon (h : Hall) (row kind stall : Nat) (shadow referee : Option Nat) (ctx idx group : Nat) :
    (h.latchVerdict row kind stall shadow referee ctx idx group).Canon ↔ h.Canon :=
  Iff.rfl

@[simp] theorem writeTallyStall_canon (h : Hall) (i v : Nat) : (h.writeTallyStall i v).Canon ↔ h.Canon := Iff.rfl
@[simp] theorem tallyApply_canon (h : Hall) (row : Nat) : (h.tallyApply row).Canon ↔ h.Canon := by simp [Hall.tallyApply]
@[simp] theorem updItem_canon (h : Hall) (row id : Nat) (f : CheckItem → CheckItem) : (h.updItem row id f).Canon ↔ h.Canon :=
  Iff.rfl

@[simp] theorem dropItem_canon (h : Hall) (row id : Nat) : (h.dropItem row id).Canon ↔ h.Canon := Iff.rfl
@[simp] theorem countCheck_canon (h : Hall) (c : CheckItem) : (h.countCheck c).Canon ↔ h.Canon := by simp [Hall.countCheck]
@[simp] theorem settlePassed_canon (h : Hall) (c : CheckItem) : (h.settlePassed c).Canon ↔ h.Canon := by
  simp [Hall.settlePassed]

@[simp] theorem updTotals_canon (h : Hall) (i : Nat) (f : StallTotals → StallTotals) : (h.updTotals i f).Canon ↔ h.Canon :=
  Iff.rfl

@[simp] theorem stallRedesignate_canon (h : Hall) (i : Nat) : (h.stallRedesignate i).Canon ↔ h.Canon := by
  simp [Hall.stallRedesignate]

@[simp] theorem strike_canon (h : Hall) (i : Nat) : (h.strike i).Canon ↔ h.Canon := by
  unfold Hall.strike
  split <;> simp

@[simp] theorem condemn_canon (h : Hall) (i : Nat) : (h.condemn i).Canon ↔ h.Canon := Iff.rfl

@[simp] theorem packDue_canon (h : Hall) (i : Nat) : (h.packDue i).Canon ↔ h.Canon := by
  unfold Hall.packDue
  split <;> simp

@[simp] theorem rowSuspect_canon (h : Hall) (row : Nat) : (h.rowSuspect row).Canon ↔ h.Canon := by simp [Hall.rowSuspect]

@[simp] theorem voteAbort_canon (h : Hall) (c : CheckItem) (hw : h.Canon) : (h.voteAbort c).Canon := by
  unfold Hall.voteAbort
  split <;> simp [hw]

@[simp] theorem poisonStep_canon (h : Hall) (c : CheckItem) : (h.poisonStep c).Canon ↔ h.Canon := Iff.rfl

@[simp] theorem verdict_canon (h : Hall) (c : CheckItem) (kind : Nat) (t : Option Nat) (hw : h.Canon) :
    (h.verdict c kind t).Canon := by
  unfold Hall.verdict
  (repeat' split) <;> simp [hw]

@[simp] theorem noReferee_canon (h : Hall) (row : Nat) (hw : h.Canon) : (h.noReferee row).Canon := by
  grind [Hall.noReferee, verdict_canon, foldl_canon]

@[simp] theorem disagree_canon (h : Hall) (row id : Nat) (hw : h.Canon) : (h.disagree row id).Canon := by
  simp [Hall.disagree, hw]

@[simp] theorem markShadowed_canon (h : Hall) (token : Nat) : (h.markShadowed token).Canon ↔ h.Canon := by
  simp [Hall.markShadowed]

@[simp] theorem submitCheck_canon (h : Hall) (c : CheckItem) (forced : Bool) (hw : h.Canon) :
    (h.submitCheck c forced).Canon := by
  unfold Hall.submitCheck
  dsimp only
  (repeat' split) <;> simp [hw]

@[simp] theorem repeatVerdict_canon (h : Hall) (c : CheckItem) (suspect prior digest : Nat) (correct : Bool) (hw : h.Canon) :
    (h.repeatVerdict c suspect prior digest correct).Canon := by
  simp [Hall.repeatVerdict, hw]

/-! ### The scheduler -/

@[simp] theorem stageCopy_canon (h : Hall) (pen mva n : Nat) : (h.stageCopy pen mva n).2.Canon ↔ h.Canon := by
  grind [Hall.stageCopy, mvaRead_canon]

@[simp] theorem bindChan_canon (h : Hall) (c handle pen head : Nat) (lrow : Option Nat) :
    (h.bindChan c handle pen head lrow).Canon ↔ h.Canon :=
  Iff.rfl

@[simp] theorem bindChans_canon (h : Hall) (free : List Nat) (handle pen : Nat) (heads : List Nat) (lrow : Option Nat) :
    (h.bindChans free handle pen heads lrow).Canon ↔ h.Canon := by
  simp [Hall.bindChans]

@[simp] theorem bindStall_canon (h : Hall) (i handle : Nat) (im : Image) (l s : Nat) : (h.bindStall i handle im l s).Canon ↔
    h.Canon :=
  Iff.rfl

@[simp] theorem bindRow_canon (h : Hall) (handle l r : Nat) (hw : h.Canon) : (h.bindRow handle l r).Canon := by
  unfold Hall.bindRow
  (repeat' split) <;> simp [hw]

@[simp] theorem bindImage_canon (h : Hall) (handle : Nat) (im : Image) (rows : Tab Nat) (hw : h.Canon) :
    (h.bindImage handle im rows).Canon := by
  simp +contextual [Hall.bindImage, foldl_canon, hw]

@[simp] theorem loadFailed_canon (h : Hall) (handle : Nat) (op : Option Nat) (status : Nat) (detail : Bytes) (hw : h.Canon) :
    (h.loadFailed handle op status detail).Canon := by
  unfold Hall.loadFailed
  split <;> simp [hw]

@[simp] theorem loadEnd_canon (h : Hall) (handle : Nat) (im0 : Image) (hw : h.Canon) : (h.loadEnd handle im0).Canon := by
  unfold Hall.loadEnd
  dsimp only
  (repeat' split) <;> simp [hw]

@[simp] theorem copyPair_canon (h : Hall) (im : Image) (lot l s tensor off : Nat) (hw : h.Canon) :
    (h.copyPair im lot l s tensor off).Canon := by
  grind [Hall.copyPair, writeRam_canon, nvMirrorRead_canon]

@[simp] theorem startStores_canon (h : Hall) (im : Image) (hw : h.Canon) : (h.startStores im).Canon := by
  grind [Hall.startStores, writeBytes_canon, copyPair_canon, foldl_canon]

@[simp] theorem resetTroughs_canon (h : Hall) (handle : Nat) : (h.resetTroughs handle).Canon ↔ h.Canon := Iff.rfl
@[simp] theorem updEntries_canon (h : Hall) (handle : Nat) (f : LaunchEntry → LaunchEntry) : (h.updEntries handle f).Canon ↔
    h.Canon :=
  Iff.rfl

@[simp] theorem imageStart_canon (h : Hall) (handle : Nat) (hw : h.Canon) : (h.imageStart handle).Canon := by
  unfold Hall.imageStart
  split <;> simp [hw]

theorem onImage_canon (c : TillCmd) (h : Hall) (takes : ImgState → Bool) (f : Nat → Image → Answer)
  (hf : ∀ k im, (f k im).hall.Canon) (hw : h.Canon) : (onImage c h takes f).hall.Canon := by
  unfold onImage
  split
  · exact hw
  split
  · exact hw
  split
  · exact hw
  split
  · exact hf _ _
  · exact hw

/-! ### Lots -/

@[simp] theorem protectParts_canon (h : Hall) (parts : List (Nat × Nat × Nat)) (on : Bool) : (h.protectParts parts on).Canon ↔
    h.Canon := by
  simp [Hall.protectParts]

/-! ### Weights -/

@[simp] theorem updInstall_canon (h : Hall) (k : Nat) (f : Install → Install) : (h.updInstall k f).Canon ↔ h.Canon := by
  unfold Hall.updInstall
  split <;> simp

@[simp] theorem updSwap_canon (h : Hall) (k : Nat) (f : Swap → Swap) : (h.updSwap k f).Canon ↔ h.Canon := by
  unfold Hall.updSwap
  split <;> simp

@[simp] theorem eraseLogical_canon (h : Hall) (r l : Nat) (hw : h.Canon) : (h.eraseLogical r l).Canon := by
  unfold Hall.eraseLogical
  dsimp only
  (repeat' split) <;> simp [hw]

@[simp] theorem fillBlock_canon (h : Hall) (r p : Nat) (data : Bytes) (hw : h.Canon) : (h.fillBlock r p data).Canon := by
  simp +contextual [Hall.fillBlock, upTo_canon, hw]

@[simp] theorem programShard_canon (h : Hall) (r l : Nat) (data : Bytes) (hw : h.Canon) : (h.programShard r l data).Canon := by
  unfold Hall.programShard
  split <;> simp [hw]

@[simp] theorem oldSettle_canon (h : Hall) (hw : h.Canon) : (h.oldSettle).Canon := by
  simp +contextual [Hall.oldSettle, foldl_canon, hw]

@[simp] theorem forgetBlocks_canon (h : Hall) (pair first n : Nat) : (h.forgetBlocks pair first n).Canon ↔ h.Canon := Iff.rfl

@[simp] theorem eraseParts_canon (h : Hall) (l : Lot) (there : Nat → Bool) (hw : h.Canon) : (h.eraseParts l there).Canon := by
  grind [Hall.eraseParts, eraseLogical_canon, foldl_canon]

@[simp] theorem lotWithdraw_canon (h : Hall) (k : Nat) (l : Lot) : (h.lotWithdraw k l).Canon ↔ h.Canon := by
  simp [Hall.lotWithdraw]

@[simp] theorem removeSettle_canon (h : Hall) (k : Nat) (hw : h.Canon) : (h.removeSettle k).Canon := by
  grind [Hall.removeSettle, closeOp_canon, protectParts_canon, forgetBlocks_canon, eraseParts_canon, foldl_canon, Hall.Canon]

@[simp] theorem updShard_canon (h : Hall) (k i : Nat) (f : ShardSt → ShardSt) : (h.updShard k i f).Canon ↔ h.Canon := by
  simp [Hall.updShard]

@[simp] theorem sendWant_canon (h : Hall) (p key : Nat) (l : List Nat) : (h.sendWant p key l).Canon ↔ h.Canon := by
  simp [Hall.sendWant]

@[simp] theorem askSource_canon (h : Hall) (k : Nat) (j : Job) (src : Nat) (s : Source) : (h.askSource k j src s).Canon ↔
    h.Canon := by
  unfold Hall.askSource
  split <;> simp

@[simp] theorem jobAsk_canon (h : Hall) (k : Nat) : (h.jobAsk k).Canon ↔ h.Canon := by
  unfold Hall.jobAsk
  split <;> simp

@[simp] theorem jobClose_canon (h : Hall) (k : Nat) : (h.jobClose k).Canon ↔ h.Canon := by simp [Hall.jobClose]

@[simp] theorem shardFail_canon (h : Hall) (k i : Nat) : (h.shardFail k i).Canon ↔ h.Canon := by
  unfold Hall.shardFail
  split <;> simp

@[simp] theorem installEnd_canon (h : Hall) (k lot status : Nat) (hw : h.Canon) : (h.installEnd k lot status).Canon := by
  simp [Hall.installEnd, hw]

@[simp] theorem installUndo_canon (h : Hall) (x : Install) (hw : h.Canon) : (h.installUndo x).Canon := by
  unfold Hall.installUndo
  split <;> simp [hw]

@[simp] theorem installFail_canon (h : Hall) (k status : Nat) (hw : h.Canon) : (h.installFail k status).Canon := by
  unfold Hall.installFail
  split <;> simp [hw]

@[simp] theorem installPlace_canon (h : Hall) (k : Nat) (x : Install) (m : Bytes) (hw : h.Canon) :
    (h.installPlace k x m).Canon := by
  unfold Hall.installPlace
  split <;> simp [hw]

@[simp] theorem installReady_canon (h : Hall) (k : Nat) (x : Install) (l : Lot) (hw : h.Canon) :
    (h.installReady k x l).Canon := by
  simp [Hall.installReady, hw]

@[simp] theorem installShard_canon (h : Hall) (k i : Nat) (data : Bytes) (hw : h.Canon) : (h.installShard k i data).Canon := by
  unfold Hall.installShard
  split
  · exact hw
  split
  · exact hw
  split
  · exact hw
  split
  split
  · exact hw
  extract_lets h1 h2
  have hp : h2.Canon := by simpa [h2] using programShard_canon _ _ _ data (programShard_canon h _ _ data hw)
  split
  · split
    · split
      · exact installReady_canon _ _ _ _ hp
      · exact hp
    · exact hp
  · exact hp

@[simp] theorem dropSpares_canon (h : Hall) (w : Swap) (hw : h.Canon) : (h.dropSpares w).Canon := by
  grind [Hall.dropSpares, nvEraseDone_canon, nvReturn_canon, foldl_canon]

@[simp] theorem swapEnd_canon (h : Hall) (k status : Nat) (hw : h.Canon) : (h.swapEnd k status).Canon := by
  unfold Hall.swapEnd
  split <;> simp [hw]

@[simp] theorem swapBegin_canon (h : Hall) (k : Nat) (w : Swap) (m : Bytes) (hw : h.Canon) : (h.swapBegin k w m).Canon := by
  unfold Hall.swapBegin
  split <;> simp [hw]

@[simp] theorem swapShard_canon (h : Hall) (k i : Nat) (data : Bytes) (hw : h.Canon) : (h.swapShard k i data).Canon := by
  unfold Hall.swapShard
  dsimp only
  (repeat' split) <;> simp [hw]

@[simp] theorem layerProgrammed_canon (h : Hall) (k : Nat) (hw : h.Canon) : (h.layerProgrammed k).Canon := by
  unfold Hall.layerProgrammed
  (repeat' split) <;> simp [hw]

@[simp] theorem layerTabled_canon (h : Hall) (k : Nat) (hw : h.Canon) : (h.layerTabled k).Canon := by
  unfold Hall.layerTabled
  split
  · exact hw
  split
  · split
    · exact hw
    · refine (updSwap_canon ..).2 (foldl_canon _ (fun g c hg => ?_) _ _ hw)
      split
      · split
        · exact writeBytes_canon _ _ _ hg
        · exact hg
      · exact hg
  · exact hw

@[simp] theorem swapSettle_canon (h : Hall) (k : Nat) (hw : h.Canon) : (h.swapSettle k).Canon := by
  unfold Hall.swapSettle
  (repeat' split) <;> simp [hw]

@[simp] theorem swapsSettle_canon (h : Hall) (hw : h.Canon) : (h.swapsSettle).Canon := by
  simp +contextual [Hall.swapsSettle, foldl_canon, hw]

@[simp] theorem flipLayer_canon (h : Hall) (k : Nat) (w : Swap) (m : Bytes) (l : Lot) (y : Layer) (hw : h.Canon) :
    (h.flipLayer k w m l y).Canon := by
  simp [Hall.flipLayer, hw]

@[simp] theorem layerFlip_canon (h : Hall) (k : Nat) (hw : h.Canon) : (h.layerFlip k).Canon := by
  unfold Hall.layerFlip
  (repeat' split) <;> simp [hw]

@[simp] theorem remapPages_canon (h : Hall) (pen : Nat) (old new : Lot) : (h.remapPages pen old new).Canon ↔ h.Canon := by
  refine foldl_canon_iff _ (fun g e => ?_) _ _
  split
  · simp
  · rfl

@[simp] theorem remapIds_canon (h : Hall) (pen old new : Nat) : (h.remapIds pen old new).Canon ↔ h.Canon := Iff.rfl
@[simp] theorem remapAdapters_canon (h : Hall) (pen ka kb : Nat) (a b : Adapter) : (h.remapAdapters pen ka kb a b).Canon ↔
    h.Canon := by
  simp [Hall.remapAdapters]

@[simp] theorem changeImage_canon (h : Hall) (old new : Nat) (hw : h.Canon) : (h.changeImage old new).Canon := by
  grind [Hall.changeImage, updImage_canon, imageFree_canon, imageStart_canon, foldl_canon, Hall.Canon]

@[simp] theorem consistentEnd_canon (h : Hall) (k status : Nat) (hw : h.Canon) : (h.consistentEnd k status).Canon := by
  unfold Hall.consistentEnd
  split <;> simp [hw]

@[simp] theorem consistentFlip_canon (h : Hall) (w : Swap) (hw : h.Canon) : (h.consistentFlip w).Canon := by
  grind [Hall.consistentFlip, copyPair_canon, remapPages_canon, remapIds_canon, remapAdapters_canon, changeImage_canon,
      foldl_canon]

@[simp] theorem swapStop_canon (h : Hall) (k status : Nat) (hw : h.Canon) : (h.swapStop k status).Canon := by
  unfold Hall.swapStop
  (repeat' split) <;> simp [hw]

@[simp] theorem swapsPenReset_canon (h : Hall) (pen : Nat) (hw : h.Canon) : (h.swapsPenReset pen).Canon := by
  simp +contextual [Hall.swapsPenReset, foldl_canon, hw]

@[simp] theorem swapsRoleMoved_canon (h : Hall) : (h.swapsRoleMoved).Canon ↔ h.Canon := Iff.rfl

@[simp] theorem lotsAtStart_canon (h : Hall) (hw : h.Canon) : (h.lotsAtStart).Canon := by
  grind [Hall.lotsAtStart, updArray_canon, updLot_canon, postMany_canon, installUndo_canon, dropSpares_canon, foldl_canon,
      Hall.Canon]

@[simp] theorem manifestBad_canon (h : Hall) (k status : Nat) (j : Job) (hw : h.Canon) : (h.manifestBad k status j).Canon := by
  simp [Hall.manifestBad, hw]

@[simp] theorem manifestArrives_canon (h : Hall) (k : Nat) (j : Job) (m : Bytes) (hw : h.Canon) :
    (h.manifestArrives k j m).Canon := by
  unfold Hall.manifestArrives
  (repeat' split) <;> simp [hw]

@[simp] theorem shardArrives_canon (h : Hall) (k i : Nat) (j : Job) (src : Option Nat) (data : Bytes) (hw : h.Canon) :
    (h.shardArrives k i j src data).Canon := by
  unfold Hall.shardArrives
  split <;> simp [hw]

@[simp] theorem shardEffect_canon (h : Hall) (k i : Nat) (j : Job) (src : Option Nat) (b : Bytes) (hw : h.Canon) :
    (h.shardEffect k i j src b).Canon := by
  simp [Hall.shardEffect, hw]

@[simp] theorem adapterInstall_canon (h : Hall) (pen mva : Nat) (b : Bytes) (k : Nat) (hw : h.Canon) :
    (h.adapterInstall pen mva b k).2.Canon := by
  grind [Hall.adapterInstall, writeBytes_canon, setPte_canon, takeFrame_canon, foldl_canon, Hall.Canon]

/-! ### Neighbour ports -/

@[simp] theorem nbrEvent_canon (h : Hall) (p typ : Nat) (more : Bytes) (hw : h.Canon) : (h.nbrEvent p typ more).Canon := by
  simp [Hall.nbrEvent, hw]

@[simp] theorem nbrGuard_canon (h : Hall) (p : Nat) (l : List (Nat × Nat × Bytes)) : (h.nbrGuard p l).Canon ↔ h.Canon := by
  simp [Hall.nbrGuard]

@[simp] theorem sendProof_canon (h : Hall) (p : Nat) (first : List (Nat × Nat × Bytes)) : (h.sendProof p first).Canon ↔
    h.Canon := by
  simp [Hall.sendProof]

@[simp] theorem setNbrState_canon (h : Hall) (p st : Nat) : (h.setNbrState p st).Canon ↔ h.Canon := Iff.rfl
@[simp] theorem nbrStart_canon (h : Hall) (p : Nat) : (h.nbrStart p).Canon ↔ h.Canon := by simp [Hall.nbrStart]
@[simp] theorem nbrTry_canon (h : Hall) (p : Nat) : (h.nbrTry p).Canon ↔ h.Canon := by simp [Hall.nbrTry]
@[simp] theorem nbrHoldoff_canon (h : Hall) (p reason received : Nat) (hw : h.Canon) :
    (h.nbrHoldoff p reason received).Canon := by
  simp [Hall.nbrHoldoff, hw]

@[simp] theorem nbrRefuse_canon (h : Hall) (p reason : Nat) (hw : h.Canon) : (h.nbrRefuse p reason).Canon := by
  simp [Hall.nbrRefuse, hw]

@[simp] theorem nbrEnd_canon (h : Hall) (p : Nat) (hw : h.Canon) : (h.nbrEnd p).Canon := by
  grind [Hall.nbrEnd, setFs_canon, closeOp_canon, updNbr_canon, poolInvalidate_canon, removeSettle_canon, shardFail_canon,
      foldl_canon]

@[simp] theorem nbrDown_canon (h : Hall) (p cause : Nat) (hw : h.Canon) : (h.nbrDown p cause).Canon := by
  simp [Hall.nbrDown, hw]

@[simp] theorem nbrErr_canon (h : Hall) (p : Nat) (hw : h.Canon) : (h.nbrErr p).Canon := by simp [Hall.nbrErr, hw]
@[simp] theorem nbrHubLost_canon (h : Hall) (hub : Hub) (hw : h.Canon) : (h.nbrHubLost hub).Canon := by
  simp [Hall.nbrHubLost, hw]

@[simp] theorem nbrRoleMoved_canon (h : Hall) : (h.nbrRoleMoved).Canon ↔ h.Canon := by simp [Hall.nbrRoleMoved]
@[simp] theorem nbrAnchorGone_canon (h : Hall) (slot : Nat) (hw : h.Canon) : (h.nbrAnchorGone slot).Canon := by
  simp +contextual [Hall.nbrAnchorGone, upTo_canon, hw]

@[simp] theorem nbrEnterUp_canon (h : Hall) (p : Nat) (keys : List Bytes) (epoch : Nat) (hw : h.Canon) :
    (h.nbrEnterUp p keys epoch).Canon := by
  simp [Hall.nbrEnterUp, hw]

@[simp] theorem sendKeys_canon (h : Hall) (p epoch : Nat) : (h.sendKeys p epoch).Canon ↔ h.Canon := by simp [Hall.sendKeys]
@[simp] theorem nbrRekey_canon (h : Hall) (p : Nat) : (h.nbrRekey p).Canon ↔ h.Canon := by simp [Hall.nbrRekey]
@[simp] theorem nbrNewEpoch_canon (h : Hall) (p : Nat) (keys : List Bytes) (epoch : Nat) (hw : h.Canon) :
    (h.nbrNewEpoch p keys epoch).Canon := by
  simp +contextual [Hall.nbrNewEpoch, foldl_canon, hw]

/-! ### Lots between modules -/

@[simp] theorem linkDiscard_canon (h : Hall) (p : Nat) (b : LinkBad) (hw : h.Canon) : (h.linkDiscard p b).Canon := by
  unfold Hall.linkDiscard
  split <;> simp [hw]

@[simp] theorem onHello_canon (h : Hall) (p : Nat) (b : Bytes) (hw : h.Canon) : (h.onHello p b).Canon := by
  simp [Hall.onHello, hw]

@[simp] theorem onCert_canon (h : Hall) (p flags : Nat) (b : Bytes) : (h.onCert p flags b).Canon ↔ h.Canon := by
  simp [Hall.onCert]

@[simp] theorem onProof_canon (h : Hall) (p : Nat) (b : Bytes) (hw : h.Canon) : (h.onProof p b).Canon := by
  unfold Hall.onProof
  dsimp only
  (repeat' split) <;> simp [hw]

@[simp] theorem onKeys_canon (h : Hall) (p : Nat) (b : Bytes) (hw : h.Canon) : (h.onKeys p b).Canon := by
  unfold Hall.onKeys
  dsimp only
  (repeat' split) <;> simp [hw]

@[simp] theorem onKeysAck_canon (h : Hall) (p : Nat) (f : LinkFrame) (hw : h.Canon) : (h.onKeysAck p f).Canon := by
  simp [Hall.onKeysAck, hw]

@[simp] theorem onRefuse_canon (h : Hall) (p : Nat) (b : Bytes) (hw : h.Canon) : (h.onRefuse p b).Canon := by
  simp +contextual [Hall.onRefuse, foldl_canon, hw]

@[simp] theorem onAck_canon (h : Hall) (p : Nat) (b : Bytes) (hw : h.Canon) : (h.onAck p b).Canon := by
  unfold Hall.onAck
  dsimp only
  split <;> simp +contextual [foldl_canon, hw]

@[simp] theorem onLotReq_canon (h : Hall) (p : Nat) (b : Bytes) : (h.onLotReq p b).Canon ↔ h.Canon := by
  unfold Hall.onLotReq
  split <;> simp

@[simp] theorem setRid_canon (h : Hall) (p : Nat) (server : Bool) (rid : Nat) (r : Rid) : (h.setRid p server rid r).Canon ↔
    h.Canon :=
  Iff.rfl

@[simp] theorem dropRid_canon (h : Hall) (p : Nat) (server : Bool) (rid : Nat) : (h.dropRid p server rid).Canon ↔ h.Canon :=
  Iff.rfl

@[simp] theorem onLotOffer_canon (h : Hall) (p : Nat) (b : Bytes) : (h.onLotOffer p b).Canon ↔ h.Canon := by
  unfold Hall.onLotOffer
  split <;> simp

@[simp] theorem nbrMirrorRead_canon (h : Hall) (pair o n : Nat) : (h.nbrMirrorRead pair o n).2.Canon ↔ h.Canon := by
  grind [Hall.nbrMirrorRead, nvMirrorRead_canon]

@[simp] theorem sendShard_canon (h : Hall) (p rid : Nat) (l : Lot) (i : Nat) : (h.sendShard p rid l i).Canon ↔ h.Canon := by
  unfold Hall.sendShard
  (repeat' split) <;> simp

@[simp] theorem onShardWant_canon (h : Hall) (p : Nat) (b : Bytes) : (h.onShardWant p b).Canon ↔ h.Canon := by
  unfold Hall.onShardWant
  dsimp only
  (repeat' split) <;> simp

@[simp] theorem onShardData_canon (h : Hall) (p : Nat) (b : Bytes) : (h.onShardData p b).Canon ↔ h.Canon := by
  unfold Hall.onShardData
  dsimp only
  split <;> simp

@[simp] theorem onShardAck_canon (h : Hall) (p : Nat) (b : Bytes) : (h.onShardAck p b).Canon ↔ h.Canon := by
  unfold Hall.onShardAck
  split <;> simp

@[simp] theorem onPageRead_canon (h : Hall) (p : Nat) (b : Bytes) : (h.onPageRead p b).Canon ↔ h.Canon := by
  simp [Hall.onPageRead]

@[simp] theorem farDone_canon (h : Hall) (p tag : Nat) (r : FarRead) (data : Payload) : (h.farDone p tag r data).Canon ↔
    h.Canon := by
  unfold Hall.farDone
  dsimp only
  (repeat' split) <;> simp

@[simp] theorem onPageData_canon (h : Hall) (p : Nat) (b : Bytes) : (h.onPageData p b).Canon ↔ h.Canon := by
  unfold Hall.onPageData
  dsimp only
  split <;> simp

@[simp] theorem onPageFail_canon (h : Hall) (p : Nat) (b : Bytes) : (h.onPageFail p b).Canon ↔ h.Canon := by
  unfold Hall.onPageFail
  split <;> simp

@[simp] theorem abortTag_canon (h : Hall) (p tag cause : Nat) (hw : h.Canon) : (h.abortTag p tag cause).Canon := by
  simp +contextual [Hall.abortTag, foldl_canon, hw]

@[simp] theorem restartTakers_canon (h : Hall) (p tag : Nat) : (h.restartTakers p tag).Canon ↔ h.Canon := by
  unfold Hall.restartTakers
  split
  · rfl
  split
  · rfl
  refine foldl_canon_iff _ (fun g e => ?_) _ _
  split
  · rfl
  · simp

@[simp] theorem slotsWait_canon (h : Hall) (p tag : Nat) : (h.slotsWait p tag).Canon ↔ h.Canon := by
  refine foldl_canon_iff _ (fun g e => foldl_canon_iff _ (fun g t => foldl_canon_iff _ (fun g s => ?_) _ _) _ _) _ _
  split
  · simp
  · rfl

@[simp] theorem discardTag_canon (h : Hall) (p tag : Nat) (hw : h.Canon) : (h.discardTag p tag).Canon := by
  simp [Hall.discardTag, hw]

@[simp] theorem setTag_canon (h : Hall) (p tag : Nat) (r : TagRec) : (h.setTag p tag r).Canon ↔ h.Canon := Iff.rfl

@[simp] theorem refillSlot_canon (h : Hall) (p tag i t s : Nat) (data : Payload) (hw : h.Canon) :
    (h.refillSlot p tag i t s data).Canon := by
  grind [Hall.refillSlot, writeRam_canon, updTrough_canon, foldl_canon]

@[simp] theorem refillTag_canon (h : Hall) (p tag : Nat) (fuel : Nat) (hw : h.Canon) : (h.refillTag p tag fuel).Canon := by
  induction fuel generalizing h with
  | zero => exact hw
  | succ n ih =>
    rw [Hall.refillTag]
    split
    · exact ih _ (by simpa using refillSlot_canon _ _ _ _ _ _ _ hw)
    · exact hw

@[simp] theorem commitTag_canon (h : Hall) (p tag : Nat) (r : TagRec) : (h.commitTag p tag r).Canon ↔ h.Canon := by
  simp [Hall.commitTag]

@[simp] theorem commitIfWhole_canon (h : Hall) (p tag : Nat) : (h.commitIfWhole p tag).Canon ↔ h.Canon := by
  unfold Hall.commitIfWhole
  (repeat' split) <;> simp

@[simp] theorem holdItem_canon (h : Hall) (p tag idx off : Nat) (data : Payload) (last : Bool) (hw : h.Canon) :
    (h.holdItem p tag idx off data last).Canon := by
  unfold Hall.holdItem
  dsimp only
  split <;> simp [hw]

@[simp] theorem onItem_canon (h : Hall) (p : Nat) (b : Bytes) (hw : h.Canon) : (h.onItem p b).Canon := by
  grind [Hall.onItem, bump_canon, creditPump_canon, discardTag_canon, setTag_canon, refillTag_canon, commitIfWhole_canon,
      holdItem_canon]

@[simp] theorem applyNotice_canon (h : Hall) (p : Nat) (b : Bytes) (hw : h.Canon) : (h.applyNotice p b).Canon := by
  unfold Hall.applyNotice
  dsimp only
  split <;> simp [hw]

@[simp] theorem noticesGo_canon (h : Hall) (p : Nat) (hw : h.Canon) : (h.noticesGo p).Canon := by
  simp +contextual [Hall.noticesGo, foldl_canon, hw]

@[simp] theorem onNotice_canon (h : Hall) (p : Nat) (b : Bytes) (hw : h.Canon) : (h.onNotice p b).Canon := by
  simp [Hall.onNotice, hw]

@[simp] theorem linkDeliver_canon (h : Hall) (p typ : Nat) (b : Bytes) (hw : h.Canon) : (h.linkDeliver p typ b).Canon := by
  unfold Hall.linkDeliver
  split <;> simp [hw]

@[simp] theorem linkControl_canon (h : Hall) (p : Nat) (f : LinkFrame) (hw : h.Canon) : (h.linkControl p f).Canon := by
  unfold Hall.linkControl
  split <;> simp [hw]

@[simp] theorem linkPump_canon (h : Hall) (p c : Nat) (fuel : Nat) (hw : h.Canon) : (h.linkPump p c fuel).Canon := by
  induction fuel generalizing h with
  | zero => exact hw
  | succ n ih =>
    unfold Hall.linkPump
    dsimp only
    split
    · exact hw
    · exact ih _ (noticesGo_canon _ _ (linkDeliver_canon _ _ _ _ (by simpa using hw)))

@[simp] theorem linkAccept_canon (h : Hall) (p : Nat) (line : LineCw) (f : LinkFrame) (hw : h.Canon) :
    (h.linkAccept p line f).Canon := by
  simp [Hall.linkAccept, hw]

@[simp] theorem nbrPenReset_canon (h : Hall) (pen : Nat) : (h.nbrPenReset pen).Canon ↔ h.Canon := by simp [Hall.nbrPenReset]

/-! ### Steps of a stall -/

@[simp] theorem stallClear_canon (h : Hall) (i : Nat) (c : StallClear) : (h.stallClear i c).Canon ↔ h.Canon := by
  unfold Hall.stallClear
  split <;> simp

@[simp] theorem stepBoundary_canon (h : Hall) (i : Nat) : (h.stepBoundary i).Canon ↔ h.Canon := by simp [Hall.stepBoundary]
@[simp] theorem ready_canon (h : Hall) (r : StepRef) : (h.ready r).2.Canon ↔ h.Canon := by simp [Hall.ready]
@[simp] theorem updRunning_canon (h : Hall) (i eng : Nat) (f : Running → Running) : (h.updRunning i eng f).Canon ↔ h.Canon :=
  Iff.rfl

theorem takeNext_canon (h : Hall) (i eng sel : Nat) (g : Hall) (he : h.takeNext i eng sel = some g) : g.Canon ↔ h.Canon := by
  unfold Hall.takeNext at he
  dsimp only at he
  split at he
  · cases he
  split at he
  · cases he
  split at he
  · cases he
  split at he
  · cases he
  split at he
  · cases he
  split at he
  · cases he
  split at he
  · rw [← Option.some.inj he]
    simp
  · cases he

theorem takeTo_canon (h : Hall) (i eng sel n : Nat) (fuel : Nat) (g : Hall) (he : h.takeTo i eng sel n fuel = some g) :
    g.Canon ↔ h.Canon := by
  induction fuel generalizing h with
  | zero => cases he; rfl
  | succ n ih =>
    unfold Hall.takeTo at he
    split at he
    · cases he; rfl
    split at he
    · cases he; rfl
    split at he
    case h_1 hn => exact (ih _ he).trans (takeNext_canon h i eng sel _ hn)
    · cases he

@[simp] theorem countStep_canon (h : Hall) (i : Nat) : (h.countStep i).Canon ↔ h.Canon := by simp [Hall.countStep]

@[simp] theorem engineStatus_canon (h : Hall) (r : StepRef) (chk : Bool) : (h.engineStatus r chk).Canon ↔ h.Canon := by
  unfold Hall.engineStatus
  split <;> simp

@[simp] theorem loadExpander_canon (h : Hall) (r : StepRef) : (h.loadExpander r).Canon ↔ h.Canon := by simp [Hall.loadExpander]

@[simp] theorem startStep_canon (h : Hall) (r : StepRef) (alt : Bool) : (h.startStep r alt).Canon ↔ h.Canon := by
  have htake : ∀ (g : Hall) (sel : Nat), ((g.takeTo r.i r.st.eng sel 1 1).getD g).Canon ↔ g.Canon := fun g sel => by
    cases he : g.takeTo r.i r.st.eng sel 1 1 with
    | none => rfl
    | some f => exact takeTo_canon _ _ _ _ _ _ _ he
  unfold Hall.startStep
  dsimp only
  simp only [loadExpander_canon, engineStatus_canon, countStep_canon, bump_canon, enterToken_canon, updRun_canon]
  split
  · simp [htake]
  split
  · simp [htake]
  · simp [htake]

@[simp] theorem tryStart_canon (h : Hall) (i : Nat) (p : Nat × Nat) (alt : Bool) : (h.tryStart i p alt).2.Canon ↔ h.Canon := by
  grind [Hall.tryStart, ready_canon, startStep_canon]

@[simp] theorem dispatch_canon (h : Hall) (i : Nat) : (h.dispatch i).Canon ↔ h.Canon := by
  unfold Hall.dispatch
  extract_lets x live
  split
  · rfl
  split
  · rfl
  case h_2 p _ =>
  extract_lets alts first rest
  have hr : rest.2.Canon ↔ h.Canon := by
    refine (foldl_snd_canon_iff _ (fun acc c => ?_) _ _).trans (tryStart_canon h i p false)
    split
    · rfl
    split
    · rfl
    · exact tryStart_canon ..
  split
  · exact hr
  · simp [hr]

theorem openOut_canon (h : Hall) (i eng pos : Nat) (g : Hall) (he : h.openOut i eng pos = some g) : g.Canon ↔ h.Canon := by
  unfold Hall.openOut at he
  split at he
  · cases he
  split at he
  · cases he
  split at he
  · rw [Option.some.inj he]
  split at he
  · rw [← Option.some.inj he]
    simp
  · cases he

@[simp] theorem writeSlot_canon (h : Hall) (i eng pos ofmt rows : Nat) (out : List (List Elem)) (recs : List ScaleRec)
    (hw : h.Canon) : (h.writeSlot i eng pos ofmt rows out recs).Canon := by
  unfold Hall.writeSlot
  (repeat' split) <;> simp [hw]

@[simp] theorem writeSlots_canon (h : Hall) (i eng ofmt rows done : Nat) (out : List (List Elem)) (recs : List ScaleRec)
    (fuel : Nat) (hw : h.Canon) : (h.writeSlots i eng ofmt rows done out recs fuel).2.Canon := by
  induction fuel generalizing h with
  | zero => exact hw
  | succ n ih =>
    unfold Hall.writeSlots
    split
    · split
      · exact hw
      dsimp only
      split
      · exact hw
      split
      case h_1 ho => exact ih _ (writeSlot_canon _ _ _ _ _ _ _ _ ((openOut_canon _ _ _ _ _ ho).2 hw))
      · exact hw
    · exact hw

@[simp] theorem fillRepeat_canon (h : Hall) (i idx : Nat) (k : RunKey) (digest : Nat) (bad : Bool) :
    (h.fillRepeat i idx k digest bad).Canon ↔ h.Canon :=
  Iff.rfl

@[simp] theorem endStep_canon (h : Hall) (i eng : Nat) (pair : Nat) (lines clean : Payload) (poisoned : Bool) (hw : h.Canon) :
    (h.endStep i eng pair lines clean poisoned).Canon := by
  grind [Hall.endStep, updStall_canon, updRun_canon, drainEnd_canon, recordStatus_canon, submitCheck_canon,
      stepBoundary_canon, fillRepeat_canon, foldl_canon]

/-! ### The tally -/

@[simp] theorem packStep_canon (h : Hall) (i t : Nat) (failed : Bool) : (h.packStep i t failed).Canon ↔ h.Canon := by
  unfold Hall.packStep
  (repeat' split) <;> simp

@[simp] theorem probeSettle_canon (h : Hall) (k : Nat) (hw : h.Canon) : (h.probeSettle k).Canon := by
  unfold Hall.probeSettle
  split <;> simp [hw]

@[simp] theorem probeStep_canon (h : Hall) (i t : Nat) (failed : Bool) (hw : h.Canon) : (h.probeStep i t failed).Canon := by
  simp +contextual [Hall.probeStep, foldl_canon, hw]

/-! ### Trust -/

@[simp] theorem watChange_canon (h : Hall) (kind i : Nat) (secure : Bool) (hw : h.Canon) :
    (h.watChange kind i secure).Canon := by
  unfold Hall.watChange
  (repeat' split) <;> simp [hw]

@[simp] theorem setZeroing_canon (h : Hall) : (h.setZeroing).Canon ↔ h.Canon := Iff.rfl
@[simp] theorem jenigStore_canon (h : Hall) (pen mva : Nat) (b : Bytes) (hw : h.Canon) : (h.jenigStore pen mva b).Canon := by
  simp [Hall.jenigStore, hw]

@[simp] theorem giveBytes_canon (h : Hall) (pen dst max : Nat) (b : Bytes) (hw : h.Canon) :
    (giveBytes h pen dst max b).hall.Canon := by
  simp [giveBytes, hw]

/-! ### Power domains -/

@[simp] theorem setDom_canon (h : Hall) (d st : Nat) : (h.setDom d st).Canon ↔ h.Canon := Iff.rfl
@[simp] theorem resetBlock_canon (h : Hall) (keep : Access → Bool) (blk : Blk) (k : Nat) : (h.resetBlock keep blk k).Canon ↔
    h.Canon :=
  Iff.rfl

@[simp] theorem domLose_canon (h : Hall) (fuel : Domain) (hw : h.Canon) : (h.domLose fuel).Canon := by
  unfold Hall.domLose
  split <;> simp [hw]

@[simp] theorem domOff_canon (h : Hall) (d : Nat) (hw : h.Canon) : (h.domOff d).Canon := by simp [Hall.domOff, hw]
@[simp] theorem wake_canon (h : Hall) (d : Nat) : (h.wake d).Canon ↔ h.Canon := by simp [Hall.wake]
@[simp] theorem setDrop_canon (h : Hall) (n v : Nat) : (h.setDrop n v).Canon ↔ h.Canon := Iff.rfl
@[simp] theorem showCapped_canon (h : Hall) : (h.showCapped).Canon ↔ h.Canon := Iff.rfl

@[simp] theorem capLower_canon (h : Hall) (average : Nat) (hw : h.Canon) : (h.capLower average).Canon := by
  unfold Hall.capLower
  dsimp only
  (repeat' split) <;> simp [hw]

@[simp] theorem capRaise_canon (h : Hall) : (h.capRaise).Canon ↔ h.Canon := by
  unfold Hall.capRaise
  dsimp only
  (repeat' split) <;> simp

/-! ### Pens -/

@[simp] theorem setPenState_canon (h : Hall) (p : Nat) (st : PenState) (hw : h.Canon) : (h.setPenState p st).Canon := by
  simp [Hall.setPenState, hw]

@[simp] theorem penIntake_canon (h : Hall) (p : Nat) (on : Bool) : (h.penIntake p on).Canon ↔ h.Canon := Iff.rfl

@[simp] theorem takeover_canon (h : Hall) (p : Nat) : (h.takeover p).Canon ↔ h.Canon := by
  unfold Hall.takeover
  dsimp only
  split <;> simp

@[simp] theorem mirrorCopy_canon (h : Hall) (src dst : Nat) (hw : h.Canon) : (h.mirrorCopy src dst).Canon := by
  grind [Hall.mirrorCopy, writeRam_canon, foldl_canon]

@[simp] theorem imageGone_canon (h : Hall) (k : Nat) (hw : h.Canon) : (h.imageGone k).Canon := by
  unfold Hall.imageGone
  dsimp only
  split <;> simp [hw]

@[simp] theorem queReset_canon (h : Hall) (q : Nat) (hw : h.Canon) : (h.queReset q).Canon := by simp [Hall.queReset, hw]
@[simp] theorem stallRegsReset_canon (h : Hall) (i : Nat) : (h.stallRegsReset i).Canon ↔ h.Canon := Iff.rfl

@[simp] theorem penClear_canon (h : Hall) (p half : Nat) (zero : Bool) (hw : h.Canon) : (h.penClear p half zero).2.Canon := by
  grind [Hall.penClear, zero_canon, tillReset_canon, vdecClearOn_canon, vdecClearPen_canon, sessUnbindOn_canon,
      sessUnbindPen_canon, discardRun_canon, chanPenReset_canon, dropRequest_canon, swapsPenReset_canon, nbrPenReset_canon,
      imageGone_canon, queReset_canon, stallRegsReset_canon, foldl_canon]

@[simp] theorem resetStart_canon (h : Hall) (p : Nat) (r : PenReset) (hw : h.Canon) : (h.resetStart p r).Canon := by
  simp [Hall.resetStart, hw]

@[simp] theorem giveStall_canon (h : Hall) (i : Nat) (p : Option Nat) (hw : h.Canon) : (h.giveStall i p).Canon := by
  simp +contextual [Hall.giveStall, upTo_canon, hw]

@[simp] theorem engineWorld_canon (h : Hall) (e : Nat) : (h.engineWorld e).Canon ↔ h.Canon := Iff.rfl
@[simp] theorem setShare_canon (h : Hall) (e p n : Nat) : (h.setShare e p n).Canon ↔ h.Canon := Iff.rfl
@[simp] theorem queFree_canon (h : Hall) (q : Nat) : (h.queFree q).Canon ↔ h.Canon := Iff.rfl

@[simp] theorem unpair_canon (h : Hall) (p : Nat) : (h.unpair p).Canon ↔ h.Canon := by
  unfold Hall.unpair
  split <;> simp

@[simp] theorem penRelease_canon (h : Hall) (p : Nat) (hw : h.Canon) : (h.penRelease p).Canon := by
  grind [Hall.penRelease, setF_canon, clearFs_canon, updTill_canon, setWorld_canon, closeOp_canon, tillReset_canon,
      updPortT_canon, setQuota_canon, dropFrame_canon, unmapPage_canon, giveStall_canon, setShare_canon, queFree_canon,
      unpair_canon, foldl_canon, upTo_canon, Hall.Canon]

@[simp] theorem penDestroy_canon (h : Hall) (p k : Nat) (hw : h.Canon) : (h.penDestroy p k).Canon := by
  unfold Hall.penDestroy
  extract_lets h1
  have e1 : h1.Canon := by
    unfold h1
    split
    · exact closeOp_canon _ _ _ _ hw
    · exact hw
  split
  case h_1 n h2 he =>
  have e2 : h2.Canon := (penClear_canon _ _ _ _ (by simpa using e1)).of_eq_snd he
  have e3 := closeOp_canon _ k stOK [] (setPenState_canon _ p .absent (penRelease_canon _ p e2))
  simpa using e3

@[simp] theorem flrPen_canon (h : Hall) (p : Nat) (hw : h.Canon) : (h.flrPen p).Canon := by
  unfold Hall.flrPen
  split <;> simp [hw]

@[simp] theorem queEnable_canon (h : Hall) (q : Nat) (r : QueRec) (hw : h.Canon) : (h.queEnable q r).Canon := by
  simp [Hall.queEnable, hw]

@[simp] theorem penQueue_canon (c : TillCmd) (h : Hall) (hw : h.Canon) : (penQueue c h).hall.Canon := by simp [penQueue, hw]

/-! ### Availability -/

@[simp] theorem sendAgain_canon (h : Hall) (i : Nat) (hw : h.Canon) : (h.sendAgain i).Canon := by
  simp +contextual [Hall.sendAgain, upTo_canon, hw]

@[simp] theorem moveStore_canon (h : Hall) (i j : Nat) (hw : h.Canon) : (h.moveStore i j).Canon := by
  have hz := zero_canon h (storeBase j) 0x400000 hw
  unfold Hall.moveStore
  refine zero_canon _ _ _ ?_
  simp only [Hall.Canon, MemSys.ok, Bool.and_eq_true] at hz ⊢
  refine ⟨⟨?_, hz.1.2⟩, hz.2⟩
  exact List.foldlRecOn (motive := fun m => Mem.wf 0 m = true) _ _ hz.1.1 fun m hm c _ => Mem.wf_write 0 m _ _ hm

@[simp] theorem rebindStall_canon (h : Hall) (i j k p row : Nat) (hw : h.Canon) : (h.rebindStall i j k p row).Canon := by
  grind [Hall.rebindStall, setF_canon, updStall_canon, updImage_canon, postBoth_canon, redesignate_canon, giveStall_canon,
      sendAgain_canon, moveStore_canon]

@[simp] theorem replaceStall_canon (h : Hall) (i : Nat) (hw : h.Canon) : (h.replaceStall i).Canon := by
  unfold Hall.replaceStall
  dsimp only
  (repeat' split) <;> simp [hw]

@[simp] theorem imageRestart_canon (h : Hall) (k l r : Nat) (hw : h.Canon) : (h.imageRestart k l r).Canon := by
  unfold Hall.imageRestart
  split
  · exact hw
  case h_2 im _ =>
  extract_lets h1 h2 chans on h3 d h4 others
  have e1 : h1.Canon := foldl_canon _ (fun g q hg => discardRun_canon g q _ hg) _ _ hw
  have e2 : h2.Canon := foldl_canon _ (fun g t hg => endRequest_canon _ _ ((setStatus_canon ..).2 hg)) _ _ e1
  split
  · exact e2
  case h_2 im' _ =>
  extract_lets h5 h6 k1 k2 d2 k3 h7
  have e3 : h3.Canon := foldl_canon _ (fun g c hg => chanDrop_canon g c hg) _ _ e2
  have e5 : h5.Canon := foldl_canon _ (fun g e hg => (updLedger_canon ..).2 hg) _ _ (by simpa [h4] using e3)
  have e6 : h6.Canon := (resetTroughs_canon ..).2 e5
  have f1 : k1.Canon := foldl_canon _ (fun g c hg => chanRelease_canon g c hg) _ _ e6
  have f2 : k2.Canon := (updLedger_canon ..).2 f1
  have f3 : k3.Canon := by simpa [k3] using f2
  have e7 : h7.Canon := by
    unfold h7
    split
    · exact e6
    extract_lets g1 g2 g3
    have q1 : g1.Canon := bindRow_canon _ _ _ _ f3
    have q2 : g2.Canon := by
      unfold g2
      split
      · exact bufWorld_canon _ _ _ q1
      · exact q1
    have q3 : g3.Canon := startStores_canon _ _ q2
    split
    · exact q3
    · exact foldl_canon _ (fun g c hg => (chanEnable_canon g c).2 hg) _ _ q3
  refine foldl_canon _ (fun g c hg => ?_) _ _ e7
  split
  · exact (chanEnable_canon ..).2 hg
  · exact hg

@[simp] theorem repair_canon (h : Hall) (hw : h.Canon) : (h.repair).Canon := by
  grind [Hall.repair, replaceStall_canon, imageRestart_canon, foldl_canon]

@[simp] theorem shedPen_canon (h : Hall) (p : Nat) (hw : h.Canon) : (h.shedPen p).Canon := by
  unfold Hall.shedPen
  split <;> simp [hw]

@[simp] theorem gooseOff_canon (h : Hall) (l : List Nat) (hw : h.Canon) : (h.gooseOff l).Canon := by
  simp +contextual [Hall.gooseOff, foldl_canon, hw]

@[simp] theorem setGooseMode_canon (h : Hall) (on : Bool) (hw : h.Canon) : (h.setGooseMode on).Canon := by
  simp [Hall.setGooseMode, hw]

@[simp] theorem enterGoose_canon (h : Hall) (hw : h.Canon) : (h.enterGoose).Canon := by
  grind [Hall.enterGoose, shedPen_canon, gooseOff_canon, setGooseMode_canon, foldl_canon]

@[simp] theorem leaveGoose_canon (h : Hall) (hw : h.Canon) : (h.leaveGoose).Canon := by simp [Hall.leaveGoose, hw]
@[simp] theorem gooseIfAlone_canon (h : Hall) (hw : h.Canon) : (h.gooseIfAlone).Canon := by simp [Hall.gooseIfAlone, hw]

@[simp] theorem shedUntil_canon (h : Hall) (fuel : Nat) (hw : h.Canon) : (h.shedUntil fuel).Canon := by
  induction h, fuel using Hall.shedUntil.induct with
  | case1 h => delta Hall.shedUntil; exact hw
  | case2 h n g hf =>
    have e : h.shedUntil (n + 1) = g := by delta Hall.shedUntil; exact if_pos hf
    rw [e]
    exact repair_canon h hw
  | case3 h n g hf p hp ih =>
    have e : h.shedUntil (n + 1) = (g.shedPen p).shedUntil n := by
      delta Hall.shedUntil
      refine (if_neg hf).trans ?_
      simp only [g] at hp
      rw [hp]
    rw [e]
    exact ih (shedPen_canon _ _ (repair_canon h hw))
  | case4 h n g hf hp =>
    have e : h.shedUntil (n + 1) = g := by
      delta Hall.shedUntil
      refine (if_neg hf).trans ?_
      simp only [g] at hp
      rw [hp]
    rw [e]
    exact repair_canon h hw

@[simp] theorem shedCapacity_canon (h : Hall) (hw : h.Canon) : (h.shedCapacity).Canon := by simp [Hall.shedCapacity, hw]

@[simp] theorem retireStall_canon (h : Hall) (i : Nat) (hw : h.Canon) : (h.retireStall i).Canon := by
  grind [Hall.retireStall, setF_canon, updStall_canon, updTally_canon, abortRun_canon, stallRedesignate_canon,
      sendAgain_canon, foldl_canon, upTo_canon, Hall.Canon]

@[simp] theorem framesAgain_canon (h : Hall) (p : Nat) (hw : h.Canon) : (h.framesAgain p).Canon := by
  grind [Hall.framesAgain, setPte_canon, takeFrame_canon, dropFrame_canon, foldl_canon]

@[simp] theorem showFw_canon (h : Hall) : (h.showFw).Canon ↔ h.Canon := Iff.rfl
@[simp] theorem govern_canon (h : Hall) (hub : Hub) (hw : h.Canon) : (h.govern hub).Canon := by simp [Hall.govern, hw]

@[simp] theorem handoverEnd_canon (h : Hall) (status : Nat) (hw : h.Canon) : (h.handoverEnd status).Canon := by
  unfold Hall.handoverEnd
  split <;> simp [hw]

@[simp] theorem govLost_canon (h : Hall) (g : Hub) (hw : h.Canon) : (h.govLost g).Canon := by simp [Hall.govLost, hw]

@[simp] theorem standbyLost_canon (h : Hall) (hw : h.Canon) : (h.standbyLost).Canon := by
  unfold Hall.standbyLost
  split <;> simp [hw]

@[simp] theorem streamsAgain_canon (h : Hall) (hub : Hub) : (h.streamsAgain hub).Canon ↔ h.Canon := by
  refine foldl_canon_iff _ (fun g n => foldl_canon_iff _ (fun g s => ?_) _ _) _ _
  dsimp only
  split
  · rfl
  split <;> simp

@[simp] theorem hubChansLost_canon (h : Hall) (hub : Hub) (hw : h.Canon) : (h.hubChansLost hub).Canon := by
  grind [Hall.hubChansLost, undoMove_canon, abortRun_canon, chanRelease_canon, foldl_canon, Hall.Canon]

/-! ### The ox -/

@[simp] theorem handBlocks_canon (h : Hall) (i : Nat) : (h.handBlocks i).Canon ↔ h.Canon := by
  unfold Hall.handBlocks
  split <;> simp

@[simp] theorem deliverBlock_canon (h : Hall) (i : Nat) (r : Running) (st : Step) (w : Take) (b : Nat) :
    (h.deliverBlock i r st w b).2.Canon ↔ h.Canon := by
  simp [Hall.deliverBlock]

theorem tileReady_canon (h : Hall) (i : Nat) (r : Running) (st : Step) (g : Hall) (he : h.tileReady i r st = some g) :
    g.Canon ↔ h.Canon := by
  have hmore : ∀ {o : Option Hall} {sel n : Nat}, (∀ f, o = some f → (f.Canon ↔ h.Canon)) →
      ∀ f, (o.bind fun h => h.takeTo i 0 sel n (n + 1)) = some f → (f.Canon ↔ h.Canon) := fun ho f hf => by
    obtain ⟨g1, h1, h2⟩ := Option.bind_eq_some_iff.1 hf
    exact (takeTo_canon _ _ _ _ _ _ _ h2).trans (ho _ h1)
  unfold Hall.tileReady at he
  extract_lets more at he
  split at he
  extract_lets an un h1 at he
  split at he
  extract_lets wn h2 h3 at he
  have e1 : ∀ f, h1 = some f → (f.Canon ↔ h.Canon) := hmore fun f hf => by rw [Option.some.inj hf]
  have e2 : ∀ f, h2 = some f → (f.Canon ↔ h.Canon) := by
    unfold h2
    split
    · exact hmore e1
    · exact e1
  have e3 : ∀ f, h3 = some f → (f.Canon ↔ h.Canon) := by
    unfold h3
    split
    · exact e2
    · exact hmore e2
  obtain ⟨f, hf, hg⟩ := Option.bind_eq_some_iff.1 he
  split at hg
  · exact Option.some.inj hg ▸ e3 f hf
  · cases hg

@[simp] theorem tileChecks_canon (h : Hall) (i : Nat) (r : Running) (st : Step) (c : ChkOut) : (h.tileChecks i r st c).Canon ↔
    h.Canon := by
  simp [Hall.tileChecks]

@[simp] theorem tileEnd_canon (h : Hall) (i : Nat) (r : Running) (st : Step) (us : List Upset) : (h.tileEnd i r st us).Canon ↔
    h.Canon := by
  simp [Hall.tileEnd]

@[simp] theorem vuCount_canon (h : Hall) (i : Nat) (c : VuCnt) : (h.vuCount i c).Canon ↔ h.Canon := by simp [Hall.vuCount]
@[simp] theorem oxEnd_canon (h : Hall) (i : Nat) (r : Running) (st : Step) (hw : h.Canon) : (h.oxEnd i r st).Canon := by
  simp [Hall.oxEnd, hw]

/-! ### The vector unit at work -/

theorem vuTake_canon (h : Hall) (i : Nat) (r : Running) (st : Step) (n : Nat) (g : Hall) (he : h.vuTake i r st n = some g) :
    g.Canon ↔ h.Canon := by
  obtain ⟨g1, h1, h2⟩ := Option.bind_eq_some_iff.1 he
  exact (takeTo_canon _ _ _ _ _ _ _ h2).trans (takeTo_canon _ _ _ _ _ _ _ h1)

@[simp] theorem vuRowEnd_canon (h : Hall) (i : Nat) (st : Step) (ops : List VuOp) (hw : h.Canon) :
    (h.vuRowEnd i st ops).Canon := by
  grind [Hall.vuRowEnd, bump_canon, writeBytes_canon, updRunning_canon, openOut_canon, writeSlots_canon, vuCount_canon]

@[simp] theorem vuEnd_canon (h : Hall) (i : Nat) (st : Step) (ops : List VuOp) (hw : h.Canon) : (h.vuEnd i st ops).Canon := by
  unfold Hall.vuEnd
  split <;> simp [hw]

/-! ### The hen at work -/

@[simp] theorem henEnd_canon (h : Hall) (i : Nat) (r : Running) (st : Step) (hw : h.Canon) : (h.henEnd i r st).Canon := by
  unfold Hall.henEnd
  extract_lets p ph
  split
  case h_1 free h1 he =>
  have e1 : h1.Canon := (free_canon h).2 hw |>.of_eq_snd he
  extract_lets out0 out ws stray h2 h3 h4 h5 lines data bad ended
  have e2 : h2.Canon := foldl_canon _ (fun g w hg => provWrite_canon g _ _ _ hg) _ _ e1
  have e5 : h5.Canon := by simpa [h5, h4, h3] using e2
  refine endStep_canon _ _ _ _ _ _ _ (foldl_snd_canon _ (fun acc pos ha => ?_) _ _ e5)
  split
  · exact ha
  case h_2 ho =>
  have hk := (openOut_canon _ _ _ _ _ ho).2 ha
  split
  · split
    · simpa using hk
    · exact hk
  · exact hk

@[simp] theorem henStep_canon (h : Hall) (i op : Nat) (hw : h.Canon) : (h.henStep i op).Canon := by
  unfold Hall.henStep
  split
  · exact hw
  split
  · exact hw
  dsimp only
  split
  · exact hw
  case _ g hg =>
  have hk : g.Canon := (takeTo_canon _ _ _ _ _ _ _ hg).2 hw
  split
  · exact henEnd_canon _ _ _ _ hk
  · exact hk

@[simp] theorem queueClear_canon (h : Hall) (i : Nat) (c : StallClear) : (h.queueClear i c).Canon ↔ h.Canon := by
  simp [Hall.queueClear]

/-! ### Power and start-up -/

@[simp] theorem setStage_canon (h : Hall) (n : Nat) : (h.setStage n).Canon ↔ h.Canon := Iff.rfl
@[simp] theorem setPwr_canon (h : Hall) (f : Fld) (v : Nat) : (h.setPwr f v).Canon ↔ h.Canon := Iff.rfl

@[simp] theorem wipe_canon (h : Hall) (hw : h.Canon) : (h.wipe).Canon := by
  have hb := brownoutArrays_canon h hw
  generalize hg : h.brownoutArrays = g at hb
  rw [Hall.wipe, hg]
  simp only [Hall.Canon, MemSys.ok, Bool.and_eq_true] at hb ⊢
  exact ⟨⟨rfl, hb.1.2⟩, hb.2⟩

@[simp] theorem powerUp_canon (h : Hall) (l : List Nat) : (h.powerUp l).Canon ↔ h.Canon := by simp [Hall.powerUp]

@[simp] theorem readRecords_canon (h : Hall) : (h.readRecords).Canon ↔ h.Canon := by
  unfold Hall.readRecords
  dsimp only
  split <;> simp

@[simp] theorem createP0_canon (h : Hall) (hw : h.Canon) : (h.createP0).Canon := by simp [Hall.createP0, hw]

@[simp] theorem startServices_canon (h : Hall) (gov : Hub) (tests : StartTests) (hw : h.Canon) :
    (h.startServices gov tests).Canon := by
  grind [Hall.startServices, post_canon, lotsAtStart_canon, gooseOff_canon, setGooseMode_canon, setStage_canon, powerUp_canon,
      readRecords_canon, createP0_canon]

@[simp] theorem startMps_canon (h : Hall) (tests : StartTests) (installed : Option (Hub × Nat)) (hw : h.Canon) :
    (h.startMps tests installed).Canon := by
  simp [Hall.startMps, hw]

@[simp] theorem startUp_canon (h : Hall) (tests : StartTests) (hw : h.Canon) : (h.startUp tests).Canon := by
  simp [Hall.startUp, hw]

@[simp] theorem feedEvent_canon (h : Hall) (feed : Hub) (lost : Bool) (hw : h.Canon) : (h.feedEvent feed lost).Canon := by
  simp [Hall.feedEvent, hw]

@[simp] theorem fwSource_canon (h : Hall) (src n : Nat) : (h.fwSource src n).2.Canon ↔ h.Canon := by simp [Hall.fwSource]
@[simp] theorem fwWrite_canon (h : Hall) (b : Bytes) (f : Config.Firmware) : (h.fwWrite b f).Canon ↔ h.Canon := by
  simp [Hall.fwWrite]

/-! ### The management port -/

theorem mgmtAnswer_canon  (h : Hall) (hub : Hub) (f : Hall → Hall) (hf : ∀ g, g.Canon → (f g).Canon) (hw : h.Canon) :
    (h.mgmtAnswer hub f).Canon := by
  unfold Hall.mgmtAnswer
  extract_lets u h1 now used
  have e1 : h1.Canon := by simpa [h1] using hw
  split
  · exact hf _ (by simpa using e1)
  · simpa using e1

/-! ### The host link -/

@[simp] theorem denied_canon (h : Hall) (p : Hub) : (h.denied p).Canon ↔ h.Canon := by simp [Hall.denied]
@[simp] theorem slotDenied_canon (h : Hall) (p : Hub) (fn : Fn) (kind idx : Nat) (write : Bool) :
    (h.slotDenied p fn kind idx write).Canon ↔ h.Canon := by
  simp [Hall.slotDenied]

@[simp] theorem dbReject_canon (h : Hall) (q : Nat) : (h.dbReject q).Canon ↔ h.Canon := Iff.rfl

@[simp] theorem writeField_canon (h : Hall) (f : Fld) (u v : Nat) : (h.writeField f u v).Canon ↔ h.Canon := by
  unfold Hall.writeField
  split <;> simp

@[simp] theorem regField_canon (h : Hall) (req : Requester) (k o : Nat) (data : Bytes) (e : Fld × Nat) :
    (h.regField req k o data e).Canon ↔ h.Canon := by
  simp [Hall.regField]

@[simp] theorem blockWrite_canon (h : Hall) (req : Requester) (b : Blk × Nat × Nat) (data : Bytes) (hw : h.Canon) :
    (h.blockWrite req b data).Canon := by
  simp [Hall.blockWrite, hw]

@[simp] theorem readClears_canon (h : Hall) (b : Blk × Nat × Nat) (n : Nat) : (h.readClears b n).Canon ↔ h.Canon := by
  simp [Hall.readClears]

@[simp] theorem apertureRead_canon (h : Hall) (p : Hub) (a n : Nat) : (h.apertureRead p a n).Canon ↔ h.Canon := by
  grind [Hall.apertureRead, ordinary_canon, emit_canon, draw_canon, nvRaw_canon, readClears_canon]

@[simp] theorem apertureWrite_canon (h : Hall) (p : Hub) (a : Nat) (data : Bytes) (hw : h.Canon) :
    (h.apertureWrite p a data).Canon := by
  unfold Hall.apertureWrite
  (repeat' split) <;> simp [hw]

@[simp] theorem spdm_canon (h : Hall) (p : Hub) (code : Nat) (request : Bytes) (inOrder : Spdm → Bool) (step : Spdm → Spdm) :
    (h.spdm p code request inOrder step).Canon ↔ h.Canon := by
  simp [Hall.spdm]

@[simp] theorem ideKm_canon (h : Hall) (p : Hub) (kind : Nat) (request : Bytes) (f : Hall → Hall) (hf : (f h).Canon ↔ h.Canon) :
   (h.ideKm p kind request f).Canon ↔ h.Canon := by
  unfold Hall.ideKm
  split
  · rfl
  · exact hf

end Sys2Proof.Machine
end

section
/-! SUPPORT. Every command keeps the memories in canonical form, and the queue (sil00_scope.md). -/

namespace Sys2Proof.Machine

/-- A command always answers a next state, whose queue is as it was and whose memories are canonical if they were. -/
def KeepsCanon (m : State → Host.Outcome State Fault Refusal) : Prop :=
  ∀ s : State, s.hall.Canon → ∃ h' : Hall, m s = .next { hall := h', pending := s.pending } ∧ h'.Canon

theorem keeps_run {f : Hall → Hall} (hf : ∀ h, h.Canon → (f h).Canon) : KeepsCanon fun s => s.run f := fun _ hw => ⟨_, rfl, hf _ hw⟩

theorem keeps_board {req : Requester} {f : Hall → Hall} (hf : ∀ h, h.Canon → (f h).Canon) : KeepsCanon fun s => s.board req f :=
  keeps_run fun h hw => by split; exacts [hf h hw, hw]

theorem tillRun_canon (h : Hall) (t : Nat) (known : Nat → Bool) (sc wide : TillCmd → Hall → Bool) (body : TillCmd → Hall → Answer)
    (hb : ∀ c h, h.Canon → (body c h).hall.Canon) (hw : h.Canon) : (h.tillRun t known sc wide body).Canon := by
  unfold Hall.tillRun
  extract_lets c
  split
  · exact hw
  split
  · exact tillDone_ok _ _ _ _ hw
  · split
    · exact tillDone_ok _ _ _ _ hw
    · exact tillDone_ok _ _ _ _ hw
  · split
    · exact tillComplete_ok _ _ _ _ hw
    split
    · exact tillComplete_ok _ _ _ _ hw
    · exact tillComplete_ok _ _ _ _ (hb _ _ hw)

theorem keeps_till {t code : Nat} {sc : TillCmd → Hall → Bool} {body : TillCmd → Hall → Answer}
    (hb : ∀ c h, h.Canon → (body c h).hall.Canon) : KeepsCanon fun s => s.till t code sc body :=
  keeps_run fun h hw => tillRun_canon h _ _ _ _ _ hb hw

theorem keeps_tillWide {t code : Nat} {sc wide : TillCmd → Hall → Bool} {body : TillCmd → Hall → Answer}
    (hb : ∀ c h, h.Canon → (body c h).hall.Canon) : KeepsCanon fun s => s.tillWide t code sc wide body :=
  keeps_run fun h hw => tillRun_canon h _ _ _ _ _ hb hw

theorem keeps_sessCommand (port typ : Nat) (frame : Bytes) : KeepsCanon fun s => s.sessCommand port typ frame :=
  keeps_run fun h hw => by split; exacts [sessFrame_canon _ _ _ hw, hw]

theorem keeps_link (p : Nat) (line : LineCw) (frame : Bytes) (typ : Nat) : KeepsCanon fun s => s.link p line frame typ :=
  keeps_run fun h hw => by
    split
    · split
      · exact linkAccept_canon _ _ _ _ hw
      · exact hw
    · exact hw

/-! ### The decode engines -/

theorem execVdecDecodeStart_keeps (engine : Fin 16) : KeepsCanon (execVdecDecodeStart engine) := keeps_run fun h hw => by
  dsimp only
  (repeat' split) <;> simp +contextual [*]

theorem execVdecPictureDone_keeps (engine : Fin 16) (decoded : Decoded) : KeepsCanon (execVdecPictureDone engine decoded) :=
  keeps_run fun h hw => by
  dsimp only
  (repeat' split) <;> simp +contextual [*, foldl_canon]

theorem execVdecStreamSet_keeps (till : Fin 128) : KeepsCanon (execVdecStreamSet till) := keeps_till fun c h hw => by simp [hw]
theorem execVdecStreamClear_keeps (till : Fin 128) : KeepsCanon (execVdecStreamClear till) := keeps_till fun c h hw => by simp [hw]
theorem execVdecQuery_keeps (till : Fin 128) : KeepsCanon (execVdecQuery till) := keeps_till fun c h hw => by simp [hw]

theorem execVdecClearStats_keeps (req : Requester) (engine : Fin 16) : KeepsCanon (execVdecClearStats req engine) :=
  keeps_board fun _ hw => (clearCtrs_canon ..).2 hw

/-! ### The session ports -/

theorem execCert_keeps (port : Fin 8) (frame : Bytes) : KeepsCanon (execCert port frame) := keeps_sessCommand _ _ _
theorem execResponse_keeps (port : Fin 8) (frame : Bytes) : KeepsCanon (execResponse port frame) := keeps_sessCommand _ _ _
theorem execResume_keeps (port : Fin 8) (frame : Bytes) : KeepsCanon (execResume port frame) := keeps_sessCommand _ _ _
theorem execKeyAck_keeps (port : Fin 8) (frame : Bytes) : KeepsCanon (execKeyAck port frame) := keeps_sessCommand _ _ _
theorem execBindAck_keeps (port : Fin 8) (frame : Bytes) : KeepsCanon (execBindAck port frame) := keeps_sessCommand _ _ _
theorem execData_keeps (port : Fin 8) (frame : Bytes) : KeepsCanon (execData port frame) := keeps_sessCommand _ _ _
theorem execLeave_keeps (port : Fin 8) (frame : Bytes) : KeepsCanon (execLeave port frame) := keeps_sessCommand _ _ _
theorem execLeaveAck_keeps (port : Fin 8) (frame : Bytes) : KeepsCanon (execLeaveAck port frame) := keeps_sessCommand _ _ _

theorem execSessRespTimeout_keeps (port : Fin 8) (lid : Fin 128) : KeepsCanon (execSessRespTimeout port lid) :=
  keeps_run fun h hw => by
  dsimp only
  split <;> simp [hw]

theorem execSessParkExpire_keeps (port : Fin 8) (lid : Fin 128) : KeepsCanon (execSessParkExpire port lid) :=
  keeps_run fun h hw => by simp [hw]

theorem execSessRekeyTrigger_keeps (port : Fin 8) (lid : Fin 128) : KeepsCanon (execSessRekeyTrigger port lid) :=
  keeps_run fun h hw => by simp [hw]

theorem execSessHoleSkip_keeps (port : Fin 8) (lid : Fin 128) : KeepsCanon (execSessHoleSkip port lid) :=
  keeps_run fun h hw => by simp [hw]

theorem execSessOldEpochExpire_keeps (port : Fin 8) (lid : Fin 128) : KeepsCanon (execSessOldEpochExpire port lid) :=
  keeps_run fun _ hw => hw

theorem execSessBind_keeps (till : Fin 128) : KeepsCanon (execSessBind till) := keeps_till fun c h hw => by simp [hw]
theorem execSessUnbind_keeps (till : Fin 128) : KeepsCanon (execSessUnbind till) := keeps_till fun c h hw => by simp [hw]
theorem execSessClose_keeps (till : Fin 128) : KeepsCanon (execSessClose till) := keeps_till fun c h hw => by simp [hw]
theorem execSessRekey_keeps (till : Fin 128) : KeepsCanon (execSessRekey till) := keeps_till fun c h hw => by simp [hw]
theorem execSessChallenge_keeps (till : Fin 128) : KeepsCanon (execSessChallenge till) := keeps_till fun c h hw => by simp [hw]
theorem execSessQuery_keeps (till : Fin 128) : KeepsCanon (execSessQuery till) := keeps_till fun c h hw => by simp [hw]

theorem execSessClearStats_keeps (req : Requester) (port : Fin 8) : KeepsCanon (execSessClearStats req port) :=
  keeps_board fun _ hw => hw

/-! ### The tree ports -/

theorem execTreeFrame_keeps (port : Fin 8) : KeepsCanon (execTreeFrame port) := keeps_run fun h hw => by simp [hw]

theorem execTreeBurst_keeps (port : Fin 8) (burst : Burst) : KeepsCanon (execTreeBurst port burst) := keeps_run fun h hw => by
  extract_lets +onlyGivenNames p t
  split
  · exact hw
  extract_lets +onlyGivenNames f g uncorr h1 headOk h2 h3 h4 lid kind plen tfOk
  have e1 : h1.Canon := by simp [h1, hw]
  have e2 : h2.Canon := by
    unfold h2
    cases g <;> simp [e1]
  have e3 : h3.Canon := by simp [h3, e2]
  have e4 : h4.Canon := by simp [h4, e2]
  split
  · cases g with
    | some g => simp [e3]
    | none =>
      dsimp only
      split
      · split <;> simp [e3]
      · exact e3
  split
  · exact (takeBid_canon ..).2 e4
  cases g with
  | none => dsimp only; split <;> simp [e4]
  | some g =>
  dsimp only
  split
  · split
    · split <;> simp [e4]
    · split <;> simp [e4]
  split
  · split <;> simp [e4]
  split
  · simp [e4]
  refine foldl_canon _ (fun k x hk => ?_) _ _ ?_
  · split
    · split
      · exact hk
      · split <;> simp [hk]
    · split <;> simp [hk]
  · split <;> simp [e4]

theorem execSweepRound_keeps (port : Fin 8) (stray : List Nat) : KeepsCanon (execSweepRound port stray) := keeps_run fun h hw => by
  grind [lidEvent_canon, sendSilence_canon, setLid_canon, sweepDone_canon, sweepNext_canon, sweepWake_canon]

theorem execUpstreamFrameEnd_keeps (port : Fin 8) (stray : List Nat) : KeepsCanon (execUpstreamFrameEnd port stray) :=
  keeps_run fun h hw => by
  grind [setB_canon, setFs_canon, bump_canon, ordinary_canon, updPortT_canon, rangeFailed_canon, sweepStart_canon,
      missFrame_canon, foldl_canon]

theorem execTreeClearLast_keeps (req : Requester) (port : Fin 8) : KeepsCanon (execTreeClearLast req port) :=
  keeps_board fun _ hw => hw

theorem execTreeClearStats_keeps (req : Requester) (port : Fin 8) : KeepsCanon (execTreeClearStats req port) :=
  keeps_board fun _ hw => hw

theorem execTreePortSet_keeps (till : Fin 128) : KeepsCanon (execTreePortSet till) := keeps_till fun c h hw => by simp [hw]
theorem execTreeLease_keeps (till : Fin 128) : KeepsCanon (execTreeLease till) := keeps_till fun c h hw => by simp [hw]
theorem execTreeRegister_keeps (till : Fin 128) : KeepsCanon (execTreeRegister till) := keeps_till fun c h hw => by simp [hw]
theorem execTreeUnregister_keeps (till : Fin 128) : KeepsCanon (execTreeUnregister till) := keeps_till fun c h hw => by simp [hw]
theorem execTreeRelease_keeps (till : Fin 128) : KeepsCanon (execTreeRelease till) := keeps_till fun c h hw => by simp [hw]
theorem execTreeSweep_keeps (till : Fin 128) : KeepsCanon (execTreeSweep till) := keeps_till fun c h hw => by simp [hw]
theorem execTreeQuery_keeps (till : Fin 128) : KeepsCanon (execTreeQuery till) := keeps_till fun c h hw => by simp [hw]

/-! ### The weight arrays -/

theorem execArrayPageRead_keeps (id : Nat) (row : Fin 8) (internalFail : Bool) : KeepsCanon
    (execArrayPageRead id row internalFail) :=
  keeps_run fun h hw => by
  split
  · exact hw
  case h_2 x _ =>
  extract_lets +onlyGivenNames r other o l pf ofr bad turn blk
  split
  · exact hw
  extract_lets +onlyGivenNames put
  split
  · exact hw
  all_goals
    rename_i hn
    have hg := (canon_of_eq hn).trans (nvRaw_canon ..)
  · simpa [put, hw] using hg
  · split
    · dsimp only
      split <;> simp [put, hg, hw]
    · simp only [put]
      split <;> simp [hg, hw]

theorem execNvmcWindowWrite_keeps (req : Requester) (row : Fin 8) (offset : Nat) (data : Bytes) : KeepsCanon
    (execNvmcWindowWrite req row offset data) :=
  keeps_run fun h hw => by
  split <;> simp [hw]

theorem execNvmcUnlockLapse_keeps (row : Fin 8) : KeepsCanon (execNvmcUnlockLapse row) := keeps_run fun h hw => by
  split <;> simp [hw]

theorem execProgramPage_keeps (row : Fin 8) : KeepsCanon (execProgramPage row) := keeps_run fun h hw => by simp [hw]
theorem execEraseBlock_keeps (row : Fin 8) : KeepsCanon (execEraseBlock row) := keeps_run fun h hw => by simp [hw]
theorem execBlankCheck_keeps (row : Fin 8) : KeepsCanon (execBlankCheck row) := keeps_run fun h hw => by simp [hw]
theorem execSuspend_keeps (row : Fin 8) : KeepsCanon (execSuspend row) := keeps_run fun h hw => by simp [hw]
theorem execNvmResume_keeps (row : Fin 8) : KeepsCanon (execNvmResume row) := keeps_run fun h hw => by simp [hw]
theorem execReadStatus_keeps (row : Fin 8) : KeepsCanon (execReadStatus row) := keeps_run fun h hw => by simp [hw]
theorem execWpSet_keeps (row : Fin 8) : KeepsCanon (execWpSet row) := keeps_run fun h hw => by simp [hw]
theorem execWpClear_keeps (row : Fin 8) : KeepsCanon (execWpClear row) := keeps_run fun h hw => by simp [hw]
theorem execWpFreeze_keeps (row : Fin 8) : KeepsCanon (execWpFreeze row) := keeps_run fun h hw => by simp [hw]
theorem execReadPagePhys_keeps (row : Fin 8) : KeepsCanon (execReadPagePhys row) := keeps_run fun h hw => by simp [hw]

theorem execSuspendEffect_keeps (row : Fin 8) (bank : Fin 16) : KeepsCanon (execSuspendEffect row bank) :=
  keeps_run fun h hw => by simp [hw]

theorem execProgramEnd_keeps (row : Fin 8) (bank : Fin 16) (verified : Bool) : KeepsCanon (execProgramEnd row bank verified) :=
  keeps_run fun h hw => by simp [hw]

theorem execEraseEnd_keeps (row : Fin 8) (bank : Fin 16) (verified : Bool) : KeepsCanon (execEraseEnd row bank verified) :=
  keeps_run fun h hw => by simp [hw]

theorem execReadPagePhysEnd_keeps (row : Fin 8) (bank : Fin 16) (internalFail : Bool) : KeepsCanon
    (execReadPagePhysEnd row bank internalFail) :=
  keeps_run fun h hw => by
  dsimp only
  split <;> simp [hw]

theorem execNvmcBmapGo_keeps (req : Requester) (row : Fin 8) (count : Nat) : KeepsCanon (execNvmcBmapGo req row count) :=
  keeps_board fun h hw => by simp [hw]

theorem execNvmScrubPage_keeps (row : Fin 8) (weak uncorrectable : Bool) : KeepsCanon (execNvmScrubPage row weak uncorrectable) :=
  keeps_run fun h hw => by simp [hw]

theorem execRelocation_keeps (row : Fin 8) (lblock : Nat) : KeepsCanon (execRelocation row lblock) := keeps_run fun h hw => by
  grind [updArray_canon, nvRelocate_canon]

/-! ### Pools -/

theorem execPoolFillDone_keeps (hub : Hub) (frame : Nat) (failed : Bool) : KeepsCanon (execPoolFillDone hub frame failed) :=
  keeps_run fun h hw => by
  dsimp only
  (repeat' split) <;> simp +contextual [*]

theorem execPoolDrainDone_keeps (hub : Hub) (frame : Nat) : KeepsCanon (execPoolDrainDone hub frame) := keeps_run fun h hw => by
  (repeat' split) <;> simp +contextual [*]

theorem execPoolInvalidDrained_keeps (hub : Hub) (frame : Nat) : KeepsCanon (execPoolInvalidDrained hub frame) :=
  keeps_run fun h hw => by
  split <;> simp [hw]

theorem execLotReadReturn_keeps (id : Nat) : KeepsCanon (execLotReadReturn id) := keeps_run fun h hw => by
  dsimp only
  (repeat' split) <;> simp +contextual [*]

theorem execLotReadLate_keeps (id : Nat) : KeepsCanon (execLotReadLate id) := keeps_run fun h hw => by
  dsimp only
  split <;> simp [hw]

theorem execT1ScrubStep_keeps (hub : Hub) (line : Nat) (errors : Nat) : KeepsCanon (execT1ScrubStep hub line errors) :=
  keeps_run fun h hw => by simp [hw]

theorem execMmuClearCe_keeps (req : Requester) (hub : Hub) : KeepsCanon (execMmuClearCe req hub) := keeps_board fun _ hw => hw
theorem execMmuClearLast_keeps (req : Requester) (hub : Hub) : KeepsCanon (execMmuClearLast req hub) := keeps_board fun _ hw => hw
theorem execMmuClearStats_keeps (req : Requester) (hub : Hub) : KeepsCanon (execMmuClearStats req hub) := keeps_board fun _ hw => hw

/-! ### Pages and tiles -/

theorem execMemMap_keeps (till : Fin 128) : KeepsCanon (execMemMap till) := keeps_till fun c h hw => by
  grind [setPte_canon, refuse_canon, okWith_canon, takeFrame_canon, foldl_canon, acceptOp_canon, Hall.Canon]

theorem execMemMapZeroed_keeps (handle : Nat) : KeepsCanon (execMemMapZeroed handle) := keeps_run fun h hw => by
  dsimp only
  split <;> simp [hw]

theorem execMemUnmap_keeps (till : Fin 128) : KeepsCanon (execMemUnmap till) := fun s hw => by
  unfold execMemUnmap
  split
  · exact ⟨_, rfl, hw⟩
  · refine keeps_till (fun c h hw => ?_) s hw
    dsimp only
    split
    · exact hw
    split
    · exact hw
    · exact foldl_canon _ (fun g p hg => unmapPage_canon _ _ _ hg) _ _ hw

theorem execMemQuery_keeps (till : Fin 128) : KeepsCanon (execMemQuery till) := keeps_till fun c h hw => by simp [hw]

theorem execMemPromote_keeps (till : Fin 128) : KeepsCanon (execMemPromote till) := keeps_till fun c h hw => by
  dsimp only
  split
  · exact hw
  · refine acceptOp_canon _ _ _ _ (fun k g hg => ?_) hw
    refine closeOp_canon _ _ _ _ (foldl_snd_canon _ (fun acc p ha => ?_) _ _ hg)
    split
    · split
      · exact (promote_canon ..).2 ha
      · exact ha
    · exact ha

theorem execMemQuota_keeps (till : Fin 128) : KeepsCanon (execMemQuota till) := keeps_till fun c h hw => by simp [hw]
theorem execMemPoolSet_keeps (till : Fin 128) : KeepsCanon (execMemPoolSet till) := keeps_till fun c h hw => by simp [hw]

theorem execMemTileMap_keeps (till : Fin 128) : KeepsCanon (execMemTileMap till) := keeps_till fun c h hw => by
  split <;> simp [hw]

theorem execMemTileUnmap_keeps (till : Fin 128) : KeepsCanon (execMemTileUnmap till) := keeps_till fun c h hw => by
  dsimp only
  split <;> simp [hw]

/-! ### The ledger -/

theorem execLedgerCommit_keeps (row : Fin 8) (limg : Fin 8) : KeepsCanon (execLedgerCommit row limg) := keeps_run fun h hw => by
  split <;> simp [hw]

theorem execLedgerAbort_keeps (row : Fin 8) (limg : Fin 8) (pass group cause : Nat) : KeepsCanon
    (execLedgerAbort row limg pass group cause) :=
  keeps_run fun h hw => by
  dsimp only
  split <;> simp [hw]

/-! ### Requests -/

theorem execRequestIntake_keeps (queue : Fin 16384) : KeepsCanon (execRequestIntake queue) := keeps_run fun h hw => by
  grind [bump_canon, updQue_canon, updLaunch_canon, endRequest_canon, headEntry_canon, queTake_canon, Hall.Canon]

/-! ### The barrow engines -/

theorem execBrwBurstIssue_keeps (engine : Engine) : KeepsCanon (execBrwBurstIssue engine) := keeps_run fun h hw => by
  dsimp only
  split <;> simp [hw]

theorem execBrwBurstComplete_keeps (chan : Chan) : KeepsCanon (execBrwBurstComplete chan) := keeps_run fun h hw => by
  dsimp only
  (repeat' split) <;> simp +contextual [*]

theorem execBrwSlotReady_keeps (chan : Chan) : KeepsCanon (execBrwSlotReady chan) := keeps_run fun h hw => by simp [hw]

theorem execBrwDescriptorEnd_keeps (chan : Chan) : KeepsCanon (execBrwDescriptorEnd chan) := keeps_run fun h hw => by
  dsimp only
  split <;> simp [hw]

theorem execBrwChEnable_keeps (req : Requester) (chan : Chan) : KeepsCanon (execBrwChEnable req chan) :=
  keeps_board fun h hw => by simp [hw]

theorem execBrwChDisable_keeps (req : Requester) (chan : Chan) : KeepsCanon (execBrwChDisable req chan) :=
  keeps_board fun h hw => by simp [hw]

theorem execRecoverResume_keeps (req : Requester) (chan : Chan) : KeepsCanon (execRecoverResume req chan) :=
  keeps_board fun h hw => by
  grind [setF_canon, updChan_canon, issueBurst_canon, restartDue_canon]

theorem execRecoverSkip_keeps (req : Requester) (chan : Chan) : KeepsCanon (execRecoverSkip req chan) := keeps_board fun h hw => by
  grind [setF_canon, bump_canon, updChan_canon, openSlots_canon, advance_canon, issueBurst_canon, restartDue_canon,
      skipStatus_canon]

theorem execBrwErrClear_keeps (req : Requester) (chan : Chan) : KeepsCanon (execBrwErrClear req chan) := keeps_board fun _ hw => hw

theorem execBrwClearStats_keeps (req : Requester) (engine : Engine) : KeepsCanon (execBrwClearStats req engine) :=
  keeps_board fun h hw => by simp [hw]

/-! ### Goose mode -/

theorem execGooseCommit_keeps (half : Hub) (eval verdict : BitVec 32) : KeepsCanon (execGooseCommit half eval verdict) :=
  keeps_run fun h hw => by simp [hw]

theorem execGooseStaleTimeout_keeps  : KeepsCanon (execGooseStaleTimeout) := keeps_run fun h hw => by simp [hw]

theorem execGooseClearStats_keeps (req : Requester) (hub : Hub) : KeepsCanon (execGooseClearStats req hub) :=
  keeps_board fun _ hw => hw

/-! ### Verdicts -/

theorem execShadowRunEnd_keeps (row : Fin 8) (id : Nat) (fault : BitVec 64) : KeepsCanon (execShadowRunEnd row id fault) :=
  keeps_run fun h hw => by
  dsimp only
  (repeat' split) <;> simp +contextual [*]

theorem execVoteStart_keeps (row : Fin 8) (id : Nat) : KeepsCanon (execVoteStart row id) := keeps_run fun h hw => by
  (repeat' split) <;> simp +contextual [*]

theorem execVoteCopyDone_keeps (row : Fin 8) (id : Nat) : KeepsCanon (execVoteCopyDone row id) := keeps_run fun _ hw => hw

theorem execRefereeEnd_keeps (row : Fin 8) (id : Nat) (fault : BitVec 64) (checkFailed : Bool) : KeepsCanon
    (execRefereeEnd row id fault checkFailed) :=
  keeps_run fun h hw => by
  dsimp only
  (repeat' split) <;> simp +contextual [*]

theorem execRepeatEnd_keeps (row : Fin 8) (id : Nat) (fault : BitVec 64) : KeepsCanon (execRepeatEnd row id fault) :=
  keeps_run fun h hw => by
  dsimp only
  (repeat' split) <;> simp +contextual [*]

theorem execSelftestEnd_keeps (row : Fin 8) (failed : Bool) : KeepsCanon (execSelftestEnd row failed) :=
  keeps_run fun h hw => by simp [hw]

theorem execTallySelftestGo_keeps (req : Requester) (row : Fin 8) : KeepsCanon (execTallySelftestGo req row) :=
  keeps_board fun _ hw => hw

theorem execTallyClearLast_keeps (req : Requester) (row : Fin 8) : KeepsCanon (execTallyClearLast req row) :=
  keeps_board fun _ hw => hw

theorem execTallyClearStats_keeps (req : Requester) (row : Fin 8) : KeepsCanon (execTallyClearStats req row) :=
  keeps_board fun _ hw => hw

theorem execLedgerClearLast_keeps (req : Requester) (row : Fin 8) : KeepsCanon (execLedgerClearLast req row) :=
  keeps_board fun _ hw => hw

theorem execLedgerClearStats_keeps (req : Requester) (row : Fin 8) : KeepsCanon (execLedgerClearStats req row) :=
  keeps_board fun _ hw => hw

theorem execTickTotalsAdd_keeps (ticks : Nat) : KeepsCanon (execTickTotalsAdd ticks) := keeps_run fun h hw => by simp [hw]
theorem execTickTotalsSave_keeps  : KeepsCanon (execTickTotalsSave) := keeps_run fun h hw => by simp [hw]

theorem execObservationClear_keeps (row : Fin 8) (stall : Fin 16) : KeepsCanon (execObservationClear row stall) :=
  keeps_run fun h hw => by simp [hw]

theorem execRowWatchExpire_keeps (row : Fin 8) : KeepsCanon (execRowWatchExpire row) := keeps_run fun h hw => by simp [hw]

/-! ### The scheduler -/

theorem execSchedLoad_keeps (till : Fin 128) : KeepsCanon (execSchedLoad till) := keeps_till fun c h hw => by simp [hw]

theorem execSchedLoadDone_keeps (handle : Nat) : KeepsCanon (execSchedLoadDone handle) := keeps_run fun h hw => by
  split <;> simp [hw]

theorem execSchedStart_keeps (till : Fin 128) : KeepsCanon (execSchedStart till) :=
  keeps_till fun c h hw => onImage_canon _ _ _ _ (fun k _ => by simp [hw]) hw

theorem execSchedPause_keeps (till : Fin 128) : KeepsCanon (execSchedPause till) :=
  keeps_till fun c h hw => onImage_canon _ _ _ _ (fun k _ => by simp [hw]) hw

theorem execSchedResume_keeps (till : Fin 128) : KeepsCanon (execSchedResume till) :=
  keeps_till fun c h hw => onImage_canon _ _ _ _ (fun k _ => by simp [hw]) hw

theorem execSchedRetire_keeps (till : Fin 128) : KeepsCanon (execSchedRetire till) :=
  keeps_till fun c h hw => onImage_canon _ _ _ _ (fun k _ => by simp [hw]) hw

theorem execSchedQuery_keeps (till : Fin 128) : KeepsCanon (execSchedQuery till) :=
  keeps_till fun _ _ hw => onImage_canon _ _ _ _ (fun _ _ => hw) hw

/-! ### Weights -/

theorem execShardVerify_keeps (job shard : Nat) (data : Bytes) : KeepsCanon (execShardVerify job shard data) :=
  keeps_run fun h hw => by
  dsimp only
  (repeat' split) <;> simp +contextual [*]

theorem execShardTimeout_keeps (job shard : Nat) : KeepsCanon (execShardTimeout job shard) := keeps_run fun h hw => by
  dsimp only
  (repeat' split) <;> simp +contextual [*]

theorem execInstallDeadline_keeps (job : Nat) : KeepsCanon (execInstallDeadline job) := keeps_run fun h hw => by simp [hw]
theorem execSwapLayerProgrammed_keeps (job : Nat) : KeepsCanon (execSwapLayerProgrammed job) := keeps_run fun h hw => by simp [hw]
theorem execSwapLayerTabled_keeps (job : Nat) : KeepsCanon (execSwapLayerTabled job) := keeps_run fun h hw => by simp [hw]
theorem execSwapLayerFlip_keeps (job : Nat) : KeepsCanon (execSwapLayerFlip job) := keeps_run fun h hw => by simp [hw]

theorem execSwapBarrierTimeout_keeps (job : Nat) : KeepsCanon (execSwapBarrierTimeout job) := keeps_run fun h hw => by
  split <;> simp [hw]

theorem execSwapBarrierRetry_keeps (job : Nat) : KeepsCanon (execSwapBarrierRetry job) := keeps_run fun h hw => by
  split <;> simp [hw]

theorem execSwapDeadline_keeps (job : Nat) : KeepsCanon (execSwapDeadline job) := keeps_run fun h hw => by
  split <;> simp [hw]

theorem execConsistentSwapFlip_keeps (job : Nat) : KeepsCanon (execConsistentSwapFlip job) := keeps_run fun h hw => by
  split <;> simp [hw]

theorem execConsistentSwapDeadline_keeps (job : Nat) : KeepsCanon (execConsistentSwapDeadline job) := keeps_run fun h hw => by
  split <;> simp [hw]

theorem execEraseDeferredStart_keeps (row : Fin 8) (bank : Fin 16) : KeepsCanon (execEraseDeferredStart row bank) :=
  keeps_run fun h hw => by simp [hw]

theorem execNvmcJournalWrite_keeps (row : Fin 8) : KeepsCanon (execNvmcJournalWrite row) := keeps_run fun h hw => by simp [hw]

theorem execWeightInstall_keeps (till : Fin 128) : KeepsCanon (execWeightInstall till) := keeps_till fun c h hw => by
  dsimp only
  split <;> simp [hw]

theorem execWeightGrant_keeps (till : Fin 128) : KeepsCanon (execWeightGrant till) := keeps_till fun c h hw => by
  split <;> simp [hw]

theorem execWeightRevoke_keeps (till : Fin 128) : KeepsCanon (execWeightRevoke till) := keeps_till fun c h hw => by
  dsimp only
  split <;> simp [hw]

theorem execWeightSwap_keeps (till : Fin 128) : KeepsCanon (execWeightSwap till) := keeps_till fun c h hw => by
  grind [updLaunch_canon, closeOp_canon, refuse_canon, jobAsk_canon, foldl_canon, acceptOp_canon, Hall.Canon]

theorem execWeightRemove_keeps (till : Fin 128) : KeepsCanon (execWeightRemove till) := keeps_till fun c h hw => by
  dsimp only
  split <;> simp [hw]

theorem execWeightQuery_keeps (till : Fin 128) : KeepsCanon (execWeightQuery till) := keeps_till fun c h hw => by
  split <;> simp [hw]

theorem execWeightAdapter_keeps (till : Fin 128) : KeepsCanon (execWeightAdapter till) := keeps_till fun c h hw => by
  split
  · exact hw
  refine acceptOp_canon _ _ _ _ (fun op g hg => ?_) hw
  split
  all_goals
    rename_i he
    have hk := (canon_of_eq he).trans (stageCopy_canon ..) |>.2 hg
  · exact closeOp_canon _ _ _ _ hk
  · exact closeOp_canon _ _ _ _ (adapterInstall_canon _ _ _ _ _ hk)

/-! ### Settlement -/

theorem execMirrorSettle_keeps (row : Fin 8) (lblock : Nat) : KeepsCanon (execMirrorSettle row lblock) := keeps_run fun h hw => by
  -- What the copies hold does not matter; and the kernel is not to compute it.
  generalize Hall.copyRead = copy
  revert copy
  refine id fun copy => ?_
  extract_lets +onlyGivenNames r clear
  have hclear : ∀ g, (clear g).Canon ↔ g.Canon := fun g => updArray_canon ..
  split
  · exact hw
  extract_lets +onlyGivenNames place
  split
  · exact (hclear h).2 hw
  extract_lets +onlyGivenNames ra rb lo a b digest digA digB units ended a1 b1 others rest fa fb lines first here one two
  clear_value fa fb a b
  have e1 : ∀ g, one = some g → g.Canon := fun g he => by
    unfold one at he
    split at he
    · exact Option.some.inj he ▸ hw
    · exact nvRelocate_canon _ _ _ _ _ he hw
  have e2 : ∀ g, two = some g → g.Canon := fun g he => by
    unfold two at he
    clear_value one
    cases one with
    | none => cases he
    | some f =>
      dsimp only at he
      split at he
      · exact Option.some.inj he ▸ e1 f rfl
      · exact nvRelocate_canon _ _ _ _ _ he (e1 f rfl)
  clear_value two ended here
  cases two with
  | none => exact hw
  | some g => simp [hclear, e2 g rfl]

/-! ### Neighbour ports -/

theorem execPcsAligned_keeps (port : Fin 4) : KeepsCanon (execPcsAligned port) := keeps_run fun h hw => by simp [hw]
theorem execPcsAlignLost_keeps (port : Fin 4) : KeepsCanon (execPcsAlignLost port) := keeps_run fun h hw => by simp [hw]
theorem execNbrRespTimeout_keeps (port : Fin 4) : KeepsCanon (execNbrRespTimeout port) := keeps_run fun h hw => by simp [hw]
theorem execNbrHoldoffExpire_keeps (port : Fin 4) : KeepsCanon (execNbrHoldoffExpire port) := keeps_run fun h hw => by simp [hw]
theorem execNbrDead_keeps (port : Fin 4) : KeepsCanon (execNbrDead port) := keeps_run fun h hw => by simp [hw]
theorem execNbrKeepaliveSend_keeps (port : Fin 4) : KeepsCanon (execNbrKeepaliveSend port) := keeps_run fun h hw => by simp [hw]

theorem execNbrRto_keeps (port : Fin 4) (conv : Nat) (seq : Nat) : KeepsCanon (execNbrRto port conv seq) := keeps_run fun h hw => by
  split <;> simp [hw]

theorem execNbrRekeyTrigger_keeps (port : Fin 4) : KeepsCanon (execNbrRekeyTrigger port) := keeps_run fun h hw => by simp [hw]
theorem execNbrOldEpochExpire_keeps (port : Fin 4) : KeepsCanon (execNbrOldEpochExpire port) := keeps_run fun _ hw => hw

theorem execNbrClearStats_keeps (req : Requester) (port : Fin 4) : KeepsCanon (execNbrClearStats req port) :=
  keeps_board fun h hw => by simp [hw]

theorem execNbrPortSet_keeps (till : Fin 128) : KeepsCanon (execNbrPortSet till) := keeps_till fun c h hw => by simp [hw]
theorem execNbrAssign_keeps (till : Fin 128) : KeepsCanon (execNbrAssign till) := keeps_till fun c h hw => by simp [hw]
theorem execNbrRekey_keeps (till : Fin 128) : KeepsCanon (execNbrRekey till) := keeps_till fun c h hw => by simp [hw]
theorem execNbrQuery_keeps (till : Fin 128) : KeepsCanon (execNbrQuery till) := keeps_till fun c h hw => by simp [hw]

/-! ### Lots between modules -/

theorem execHello_keeps (port : Fin 4) (line : LineCw) (frame : Bytes) : KeepsCanon (execHello port line frame) := keeps_link _ _ _ _

theorem execNbrCert_keeps (port : Fin 4) (line : LineCw) (frame : Bytes) : KeepsCanon (execNbrCert port line frame) :=
  keeps_link _ _ _ _

theorem execProof_keeps (port : Fin 4) (line : LineCw) (frame : Bytes) : KeepsCanon (execProof port line frame) := keeps_link _ _ _ _
theorem execKeys_keeps (port : Fin 4) (line : LineCw) (frame : Bytes) : KeepsCanon (execKeys port line frame) := keeps_link _ _ _ _

theorem execKeysAck_keeps (port : Fin 4) (line : LineCw) (frame : Bytes) : KeepsCanon (execKeysAck port line frame) :=
  keeps_link _ _ _ _

theorem execRefuse_keeps (port : Fin 4) (line : LineCw) (frame : Bytes) : KeepsCanon (execRefuse port line frame) :=
  keeps_link _ _ _ _

theorem execAck_keeps (port : Fin 4) (line : LineCw) (frame : Bytes) : KeepsCanon (execAck port line frame) := keeps_link _ _ _ _

theorem execKeepalive_keeps (port : Fin 4) (line : LineCw) (frame : Bytes) : KeepsCanon (execKeepalive port line frame) :=
  keeps_link _ _ _ _

theorem execLotReq_keeps (port : Fin 4) (line : LineCw) (frame : Bytes) : KeepsCanon (execLotReq port line frame) :=
  keeps_link _ _ _ _

theorem execLotOffer_keeps (port : Fin 4) (line : LineCw) (frame : Bytes) : KeepsCanon (execLotOffer port line frame) :=
  keeps_link _ _ _ _

theorem execLotRefuse_keeps (port : Fin 4) (line : LineCw) (frame : Bytes) : KeepsCanon (execLotRefuse port line frame) :=
  keeps_link _ _ _ _

theorem execShardWant_keeps (port : Fin 4) (line : LineCw) (frame : Bytes) : KeepsCanon (execShardWant port line frame) :=
  keeps_link _ _ _ _

theorem execShardData_keeps (port : Fin 4) (line : LineCw) (frame : Bytes) : KeepsCanon (execShardData port line frame) :=
  keeps_link _ _ _ _

theorem execShardAck_keeps (port : Fin 4) (line : LineCw) (frame : Bytes) : KeepsCanon (execShardAck port line frame) :=
  keeps_link _ _ _ _

theorem execLotDone_keeps (port : Fin 4) (line : LineCw) (frame : Bytes) : KeepsCanon (execLotDone port line frame) :=
  keeps_link _ _ _ _

theorem execPageRead_keeps (port : Fin 4) (line : LineCw) (frame : Bytes) : KeepsCanon (execPageRead port line frame) :=
  keeps_link _ _ _ _

theorem execPageData_keeps (port : Fin 4) (line : LineCw) (frame : Bytes) : KeepsCanon (execPageData port line frame) :=
  keeps_link _ _ _ _

theorem execPageFail_keeps (port : Fin 4) (line : LineCw) (frame : Bytes) : KeepsCanon (execPageFail port line frame) :=
  keeps_link _ _ _ _

theorem execWithdraw_keeps (port : Fin 4) (line : LineCw) (frame : Bytes) : KeepsCanon (execWithdraw port line frame) :=
  keeps_link _ _ _ _

theorem execItem_keeps (port : Fin 4) (line : LineCw) (frame : Bytes) : KeepsCanon (execItem port line frame) := keeps_link _ _ _ _

theorem execNotice_keeps (port : Fin 4) (line : LineCw) (frame : Bytes) : KeepsCanon (execNotice port line frame) :=
  keeps_link _ _ _ _

theorem execNbrMalformedFrame_keeps (port : Fin 4) (line : LineCw) (frame : Bytes) : KeepsCanon
    (execNbrMalformedFrame port line frame) :=
  keeps_run fun h hw => by
  split <;> simp [hw]

theorem execNoticeLimit_keeps (port : Fin 4) (tag : Nat) : KeepsCanon (execNoticeLimit port tag) := keeps_run fun h hw => by
  grind [poisonRange_canon, updNbr_canon, updTrough_canon, abortTag_canon, commitTag_canon, foldl_canon]

/-! ### Steps of a stall -/

theorem execStallDispatch_keeps (row : Fin 8) (stall : Fin 16) : KeepsCanon (execStallDispatch row stall) :=
  keeps_run fun h hw => by simp [hw]

/-! ### The tally -/

theorem execCheckPackInstall_keeps (till : Fin 128) : KeepsCanon (execCheckPackInstall till) := keeps_till fun c h hw => by simp [hw]

theorem execPackInstallDone_keeps (handle : Nat) : KeepsCanon (execPackInstallDone handle) := keeps_run fun h hw => by
  dsimp only
  split <;> simp [hw]

theorem execPackRunDue_keeps (row : Fin 8) (stall : Fin 16) : KeepsCanon (execPackRunDue row stall) :=
  keeps_run fun h hw => by simp [hw]

theorem execPatternTestStart_keeps (row : Fin 8) (stall : Fin 16) : KeepsCanon (execPatternTestStart row stall) :=
  keeps_run fun h hw => by
  dsimp only
  split <;> simp [hw]

theorem execPatternTestEnd_keeps (row : Fin 8) (stall : Fin 16) (fault : BitVec 64) : KeepsCanon
    (execPatternTestEnd row stall fault) :=
  keeps_run fun h hw => by
  dsimp only
  split <;> simp [hw]

theorem execCheckSet_keeps (till : Fin 128) : KeepsCanon (execCheckSet till) := keeps_till fun c h hw => by
  grind [setFs_canon, refuse_canon, okWith_canon, designate_canon]

theorem execCheckGet_keeps (till : Fin 128) : KeepsCanon (execCheckGet till) := keeps_till fun c h hw => by simp [hw]

theorem execCheckProbe_keeps (till : Fin 128) : KeepsCanon (execCheckProbe till) := keeps_till fun c h hw => by
  dsimp only
  split
  · exact hw
  split
  · exact hw
  split
  · exact hw
  refine acceptOp_canon _ _ _ _ (fun k g hg => ?_) hw
  split
  · exact closeOp_canon _ _ _ _ hg
  · exact probeSettle_canon _ _ (by simpa using hg)

theorem execCheckProbeDeadline_keeps (handle : Nat) : KeepsCanon (execCheckProbeDeadline handle) := keeps_run fun h hw => by
  dsimp only
  split <;> simp [hw]

theorem execLogExport_keeps (till : Fin 128) : KeepsCanon (execLogExport till) := keeps_till fun c h hw => by simp [hw]

/-! ### Trust -/

theorem execTrustWatSet_keeps (till : Fin 128) : KeepsCanon (execTrustWatSet till) := keeps_till fun c h hw => by
  dsimp only
  (repeat' split) <;> simp +contextual [*, upTo_canon]

theorem execTrustWatZeroed_keeps (handle : Nat) : KeepsCanon (execTrustWatZeroed handle) := keeps_run fun h hw => by
  grind [closeOp_canon, watChange_canon, setZeroing_canon, upTo_canon, Hall.Canon]

theorem execWatClearLast_keeps (req : Requester) (hub : Hub) : KeepsCanon (execWatClearLast req hub) := keeps_board fun _ hw => hw
theorem execWatClearStats_keeps (req : Requester) (hub : Hub) : KeepsCanon (execWatClearStats req hub) := keeps_board fun _ hw => hw
theorem execTrustAttest_keeps (till : Fin 128) : KeepsCanon (execTrustAttest till) := keeps_till fun c h hw => by simp [hw]

theorem execTrustCertGet_keeps (till : Fin 128) : KeepsCanon (execTrustCertGet till) := keeps_till fun c h hw => by
  split
  · exact hw
  split
  · exact giveBytes_canon _ _ _ _ _ hw
  · exact giveBytes_canon _ _ _ _ _ hw
  · exact hw

theorem execTrustCertSet_keeps (till : Fin 128) : KeepsCanon (execTrustCertSet till) := keeps_till fun c h hw => by
  split
  · exact hw
  split
  · simpa using hw
  split
  all_goals
    rename_i he
    have hk := (canon_of_eq he).trans (stageCopy_canon ..) |>.2 hw
  · exact hk
  split
  · exact hk
  split
  · exact hk
  split
  · exact hk
  split
  · exact hk
  · simpa using hk

theorem execTrustCsr_keeps (till : Fin 128) : KeepsCanon (execTrustCsr till) := keeps_till fun c h hw => by simp [hw]

theorem execTrustKeyAdd_keeps (till : Fin 128) : KeepsCanon (execTrustKeyAdd till) := keeps_till fun c h hw => by
  extract_lets purpose k
  split
  · exact hw
  split
  · exact hw
  split
  all_goals
    rename_i he
    have hk := (canon_of_eq he).trans (stageCopy_canon ..) |>.2 hw
  · exact hk
  · split
    · simpa using hk
    · exact hk

theorem execTrustKeyRemove_keeps (till : Fin 128) : KeepsCanon (execTrustKeyRemove till) := keeps_till fun c h hw => by simp [hw]
theorem execTrustKeyList_keeps (till : Fin 128) : KeepsCanon (execTrustKeyList till) := keeps_till fun c h hw => by simp [hw]
theorem execTrustRollbackSet_keeps (till : Fin 128) : KeepsCanon (execTrustRollbackSet till) := keeps_till fun c h hw => by simp [hw]
theorem execTrustIdePolicy_keeps (till : Fin 128) : KeepsCanon (execTrustIdePolicy till) := keeps_till fun c h hw => by simp [hw]
theorem execFwQuery_keeps (till : Fin 128) : KeepsCanon (execFwQuery till) := keeps_till fun c h hw => by simp [hw]

/-! ### Power domains -/

theorem execDomainEnterRet_keeps (domain : Fin 176) : KeepsCanon (execDomainEnterRet domain) := keeps_run fun h hw => by simp [hw]
theorem execDomainEnterOff_keeps (domain : Fin 176) : KeepsCanon (execDomainEnterOff domain) := keeps_run fun h hw => by simp [hw]

theorem execDomainForceApply_keeps (domain : Fin 176) : KeepsCanon (execDomainForceApply domain) := keeps_run fun h hw => by
  dsimp only
  (repeat' split) <;> simp +contextual [*]

theorem execDomainWake_keeps (domain : Fin 176) : KeepsCanon (execDomainWake domain) := keeps_run fun h hw => by simp [hw]
theorem execDomainWakeDone_keeps (domain : Fin 176) : KeepsCanon (execDomainWakeDone domain) := keeps_run fun h hw => by simp [hw]

theorem execWakePulse_keeps (req : Requester) (domain : Fin 176) : KeepsCanon (execWakePulse req domain) :=
  keeps_board fun h hw => by simp [hw]

theorem execRtcAlarmFire_keeps (hub : Hub) (alarm : Fin 8) : KeepsCanon (execRtcAlarmFire hub alarm) :=
  keeps_run fun h hw => by simp [hw]

theorem execRtcAlarmClear_keeps (req : Requester) (hub : Hub) (alarm : Fin 8) : KeepsCanon (execRtcAlarmClear req hub alarm) :=
  keeps_board fun h hw => by simp [hw]

theorem execRailSlewStep_keeps (rail : Fin 10) : KeepsCanon (execRailSlewStep rail) := keeps_run fun _ hw => hw
theorem execPowerSample_keeps (va wa vb wb : Nat) : KeepsCanon (execPowerSample va wa vb wb) := keeps_run fun h hw => by simp [hw]

theorem execThermalLimit_keeps (rail : Fin 10) (tj : Nat) : KeepsCanon (execThermalLimit rail tj) :=
  keeps_run fun h hw => by simp [hw]

theorem execThermalRecover_keeps (rail : Fin 10) (tj : Nat) : KeepsCanon (execThermalRecover rail tj) :=
  keeps_run fun h hw => by simp [hw]

theorem execPwrDomainSet_keeps (till : Fin 128) : KeepsCanon (execPwrDomainSet till) := keeps_till fun c h hw => by simp [hw]
theorem execPwrRailSet_keeps (till : Fin 128) : KeepsCanon (execPwrRailSet till) := keeps_till fun c h hw => by simp [hw]
theorem execPwrCapSet_keeps (till : Fin 128) : KeepsCanon (execPwrCapSet till) := keeps_till fun c h hw => by simp [hw]
theorem execPwrStartSet_keeps (till : Fin 128) : KeepsCanon (execPwrStartSet till) := keeps_till fun c h hw => by simp [hw]
theorem execPwrQuery_keeps (till : Fin 128) : KeepsCanon (execPwrQuery till) := keeps_till fun c h hw => by simp [hw]

/-! ### Pens -/

theorem execPenWedgeDetect_keeps (pen : Fin 32) : KeepsCanon (execPenWedgeDetect pen) := keeps_run fun h hw => by simp [hw]

theorem execPairSync_keeps (pen : Fin 32) : KeepsCanon (execPairSync pen) := keeps_run fun h hw => by
  dsimp only
  split <;> simp [hw]

theorem execPenResetDone_keeps (pen : Fin 32) : KeepsCanon (execPenResetDone pen) := keeps_run fun h hw => by
  grind [updPen_canon, closeOp_canon, setPenState_canon, penClear_canon]

theorem execPciFlr_keeps (port : Hub) (fn : Fn) : KeepsCanon (execPciFlr port fn) := keeps_run fun h hw => by
  dsimp only
  (repeat' split) <;> simp +contextual [*, foldl_canon]

theorem execVfEnableSet_keeps (port : Hub) : KeepsCanon (execVfEnableSet port) := keeps_run fun h hw => by simp [hw]

theorem execVfEnableClear_keeps (port : Hub) : KeepsCanon (execVfEnableClear port) := keeps_run fun h hw => by
  dsimp only
  simp +contextual [hw, foldl_canon]

theorem execPenCreate_keeps (till : Fin 128) : KeepsCanon (execPenCreate till) := keeps_till fun c h hw => by simp [hw]
theorem execPenDestroy_keeps (till : Fin 128) : KeepsCanon (execPenDestroy till) := keeps_till fun c h hw => by simp [hw]

theorem execPenStalls_keeps (till : Fin 128) : KeepsCanon (execPenStalls till) := keeps_till fun c h hw => by
  have hgive : ∀ (l : List Nat) p, (l.foldl (fun h i => h.giveStall i p) h).Canon :=
    fun l p => foldl_canon _ (fun g i hg => giveStall_canon g i p hg) l h hw
  extract_lets n
  split
  · exact hw
  · (repeat' split) <;> simp [hgive, hw]

theorem execPenGrant_keeps (till : Fin 128) : KeepsCanon (execPenGrant till) := keeps_till fun c h hw => by
  dsimp only
  split <;> simp [hw]

theorem execPenQueue_keeps (till : Fin 128) : KeepsCanon (execPenQueue till) := keeps_tillWide fun c h hw => by simp [hw]
theorem execPenPair_keeps (till : Fin 128) : KeepsCanon (execPenPair till) := keeps_till fun c h hw => by simp [hw]
theorem execPenReset_keeps (till : Fin 128) : KeepsCanon (execPenReset till) := keeps_till fun c h hw => by simp [hw]
theorem execPenQuery_keeps (till : Fin 128) : KeepsCanon (execPenQuery till) := keeps_till fun c h hw => by simp [hw]

/-! ### Availability -/

theorem execStallRetire_keeps (row : Fin 8) (stall : Fin 16) : KeepsCanon (execStallRetire row stall) := keeps_run fun h hw => by
  grind [replaceStall_canon, shedCapacity_canon, retireStall_canon]

theorem execUnitStuck_keeps (row : Fin 8) (stall : Fin 16) : KeepsCanon (execUnitStuck row stall) :=
  keeps_run fun h hw => by simp [hw]

theorem execPenShed_keeps (till : Fin 128) : KeepsCanon (execPenShed till) := keeps_till fun c h hw => by simp [hw]

theorem execPenRestore_keeps (till : Fin 128) : KeepsCanon (execPenRestore till) := keeps_till fun c h hw => by
  grind [refuse_canon, okWith_canon, setPenState_canon, leaveGoose_canon, framesAgain_canon]

theorem execPenSpares_keeps (till : Fin 128) : KeepsCanon (execPenSpares till) := keeps_till fun c h hw => by
  dsimp only
  split
  · exact hw
  split
  · exact hw
  split
  · exact hw
  · simp only [okWith_hall, setF_canon, updStall_canon, foldl_canon_iff, implies_true]
    exact foldl_canon _ (fun g i hg => by simpa using sendAgain_canon g i hg) _ _ hw

theorem execPenGoose_keeps (till : Fin 128) : KeepsCanon (execPenGoose till) := keeps_till fun c h hw => by simp [hw]
theorem execMpHeartbeat_keeps (hub : Hub) : KeepsCanon (execMpHeartbeat hub) := keeps_run fun h hw => by simp [hw]

theorem execMpLost_keeps  : KeepsCanon (execMpLost) := keeps_run fun h hw => by
  split <;> simp [hw]

theorem execStandbyMpLost_keeps  : KeepsCanon (execStandbyMpLost) := keeps_run fun h hw => by
  dsimp only
  split <;> simp [hw]

theorem execHandoverStandbyReady_keeps  : KeepsCanon (execHandoverStandbyReady) := keeps_run fun h hw => by
  dsimp only
  split <;> simp [hw]

theorem execHandoverStandbyFailed_keeps  : KeepsCanon (execHandoverStandbyFailed) := keeps_run fun h hw => by
  split
  · exact handoverEnd_canon _ _ (by simp [hw])
  · exact hw

theorem execHandoverRoleMove_keeps  : KeepsCanon (execHandoverRoleMove) := keeps_run fun h hw => by
  dsimp only
  split <;> simp [hw]

theorem execHandoverFormerReady_keeps  : KeepsCanon (execHandoverFormerReady) := keeps_run fun h hw => by
  grind [post_canon, updMp_canon, showFw_canon, govern_canon, handoverEnd_canon]

theorem execFwHandover_keeps (till : Fin 128) : KeepsCanon (execFwHandover till) := keeps_till fun c h hw => by simp [hw]
theorem execRowLinkLost_keeps (row : Fin 8) (hub : Hub) : KeepsCanon (execRowLinkLost row hub) := keeps_run fun h hw => by simp [hw]
theorem execLossOfSignal_keeps (port : Nat) : KeepsCanon (execLossOfSignal port) := keeps_run fun h hw => by simp [hw]

theorem execRowLost_keeps (row : Fin 8) : KeepsCanon (execRowLost row) := keeps_run fun h hw => by
  grind [setF_canon, urgent_canon, updStall_canon, updTally_canon, redesignate_canon, sendAgain_canon, shedCapacity_canon,
      foldl_canon, Hall.Canon]

theorem execHubLost_keeps (hub : Hub) : KeepsCanon (execHubLost hub) := keeps_run fun h hw => by
  split
  · exact hw
  extract_lets was u av h1 h2 h3 lostQ held h4 h5 h6 h7 h8 h9 h10 hit h11 h12 h13
  have e2 : h2.Canon := by simp [h2, h1, hw]
  have e3 : h3.Canon := by
    unfold h3
    split
    · exact govLost_canon _ _ e2
    split
    · exact standbyLost_canon _ e2
    · exact e2
  have e4 : h4.Canon := by simp [h4, e3]
  have e5 : h5.Canon := foldl_canon _ (fun g e hg => post_canon g _ _ _ hg) _ _ e4
  have e7 : h7.Canon := foldl_canon _ (fun g p hg => by (repeat' split) <;> simp [hg]) _ _ (by simp [h6, e5])
  have e8 : h8.Canon := foldl_canon _ (fun g n hg => (updPortT_canon ..).2 (portDisable_canon _ _ hg)) _ _ e7
  have e10 : h10.Canon := hubChansLost_canon _ _ (nbrHubLost_canon _ _ e8)
  have e11 : h11.Canon := by simp [h11, e10]
  have e13 : h13.Canon := shedCapacity_canon _ (zero_canon _ _ _ (by simp [e11]))
  exact (streamsAgain_canon ..).2 (foldl_canon _ (fun g p hg => framesAgain_canon g p hg) _ _ e13)

/-! ### The ox -/

theorem execExpBlockFetch_keeps (row : Fin 8) (stall : Fin 16) (lane : Fin 16) : KeepsCanon (execExpBlockFetch row stall lane) :=
  keeps_run fun h hw => by
  grind [updStall_canon, takeTo_canon]

theorem execExpBlockDecoded_keeps (row : Fin 8) (stall : Fin 16) (lane : Fin 16) : KeepsCanon (execExpBlockDecoded row stall lane) :=
  keeps_run fun h hw => by
  dsimp only
  (repeat' split) <;> simp +contextual [*]

theorem execOxTileEnd_keeps (row : Fin 8) (stall : Fin 16) (upsets : List Upset) : KeepsCanon (execOxTileEnd row stall upsets) :=
  keeps_run fun h hw => by
  grind [tileReady_canon, tileEnd_canon]

theorem execOxStepEnd_keeps (row : Fin 8) (stall : Fin 16) : KeepsCanon (execOxStepEnd row stall) := keeps_run fun h hw => by
  dsimp only
  split
  · exact hw
  split
  · exact hw
  split
  · exact hw
  case h_2 he =>
  have hk := (takeTo_canon _ _ _ _ _ _ _ he).2 hw
  split
  · exact oxEnd_canon _ _ _ _ hk
  · exact hk

/-! ### The vector unit at work -/

theorem execVuRowEnd_keeps (row : Fin 8) (stall : Fin 16) : KeepsCanon (execVuRowEnd row stall) := keeps_run fun h hw => by
  grind [vuTake_canon, vuRowEnd_canon]

theorem execVuStepEnd_keeps (row : Fin 8) (stall : Fin 16) : KeepsCanon (execVuStepEnd row stall) := keeps_run fun h hw => by
  grind [vuTake_canon, vuEnd_canon]

/-! ### The hen at work -/

theorem execGather_keeps (row : Fin 8) (stall : Fin 16) : KeepsCanon (execGather row stall) := keeps_run fun h hw => by simp [hw]

theorem execScatterAdd_keeps (row : Fin 8) (stall : Fin 16) : KeepsCanon (execScatterAdd row stall) :=
  keeps_run fun h hw => by simp [hw]

theorem execSegSum_keeps (row : Fin 8) (stall : Fin 16) : KeepsCanon (execSegSum row stall) := keeps_run fun h hw => by simp [hw]
theorem execSegMax_keeps (row : Fin 8) (stall : Fin 16) : KeepsCanon (execSegMax row stall) := keeps_run fun h hw => by simp [hw]
theorem execSegMin_keeps (row : Fin 8) (stall : Fin 16) : KeepsCanon (execSegMin row stall) := keeps_run fun h hw => by simp [hw]

theorem execSegArgmax_keeps (row : Fin 8) (stall : Fin 16) : KeepsCanon (execSegArgmax row stall) :=
  keeps_run fun h hw => by simp [hw]

theorem execSort_keeps (row : Fin 8) (stall : Fin 16) : KeepsCanon (execSort row stall) := keeps_run fun h hw => by simp [hw]

theorem execIntersect_keeps (row : Fin 8) (stall : Fin 16) : KeepsCanon (execIntersect row stall) :=
  keeps_run fun h hw => by simp [hw]

theorem execUnion_keeps (row : Fin 8) (stall : Fin 16) : KeepsCanon (execUnion row stall) := keeps_run fun h hw => by simp [hw]
theorem execDiff_keeps (row : Fin 8) (stall : Fin 16) : KeepsCanon (execDiff row stall) := keeps_run fun h hw => by simp [hw]
theorem execTopk_keeps (row : Fin 8) (stall : Fin 16) : KeepsCanon (execTopk row stall) := keeps_run fun h hw => by simp [hw]

theorem execHashInsert_keeps (row : Fin 8) (stall : Fin 16) : KeepsCanon (execHashInsert row stall) :=
  keeps_run fun h hw => by simp [hw]

theorem execHashProbe_keeps (row : Fin 8) (stall : Fin 16) : KeepsCanon (execHashProbe row stall) :=
  keeps_run fun h hw => by simp [hw]

theorem execMsg_keeps (row : Fin 8) (stall : Fin 16) : KeepsCanon (execMsg row stall) := keeps_run fun h hw => by simp [hw]
theorem execAssign_keeps (row : Fin 8) (stall : Fin 16) : KeepsCanon (execAssign row stall) := keeps_run fun h hw => by simp [hw]

theorem execOxClearLast_keeps (req : Requester) (row : Fin 8) (stall : Fin 16) : KeepsCanon (execOxClearLast req row stall) :=
  keeps_board fun h hw => by simp [hw]

theorem execOxClearStats_keeps (req : Requester) (row : Fin 8) (stall : Fin 16) : KeepsCanon (execOxClearStats req row stall) :=
  keeps_board fun h hw => by simp [hw]

theorem execVuClearStats_keeps (req : Requester) (row : Fin 8) (stall : Fin 16) : KeepsCanon (execVuClearStats req row stall) :=
  keeps_board fun h hw => by simp [hw]

theorem execHenClearStats_keeps (req : Requester) (row : Fin 8) (stall : Fin 16) : KeepsCanon (execHenClearStats req row stall) :=
  keeps_board fun h hw => by simp [hw]

theorem execExpClearLast_keeps (req : Requester) (row : Fin 8) (stall : Fin 16) : KeepsCanon (execExpClearLast req row stall) :=
  keeps_board fun h hw => by simp [hw]

theorem execExpClearStats_keeps (req : Requester) (row : Fin 8) (stall : Fin 16) : KeepsCanon (execExpClearStats req row stall) :=
  keeps_board fun h hw => by simp [hw]

theorem execStallClearStats_keeps (req : Requester) (row : Fin 8) (stall : Fin 16) : KeepsCanon
    (execStallClearStats req row stall) :=
  keeps_board fun h hw => by simp [hw]

/-! ### Power and start-up -/

theorem execPowerApplied_keeps (feed : Hub) : KeepsCanon (execPowerApplied feed) := keeps_run fun h hw => by simp [hw]
theorem execModuleReset_keeps (tests : StartTests) : KeepsCanon (execModuleReset tests) := keeps_run fun h hw => by simp [hw]
theorem execFeedLost_keeps (feed : Hub) : KeepsCanon (execFeedLost feed) := keeps_run fun h hw => by simp [hw]
theorem execFeedRestored_keeps (feed : Hub) : KeepsCanon (execFeedRestored feed) := keeps_run fun h hw => by simp [hw]
theorem execBrownoutAssert_keeps  : KeepsCanon (execBrownoutAssert) := keeps_run fun h hw => by simp [hw]
theorem execBrownoutClear_keeps (tests : StartTests) : KeepsCanon (execBrownoutClear tests) := keeps_run fun h hw => by simp [hw]

theorem execThermalShutdown_keeps (rail : Fin 10) (tj : Nat) : KeepsCanon (execThermalShutdown rail tj) :=
  keeps_run fun h hw => by simp [hw]

theorem execThermalRestart_keeps (tests : StartTests) : KeepsCanon (execThermalRestart tests) := keeps_run fun h hw => by simp [hw]

theorem execFwInstall_keeps (till : Fin 128) (tests : StartTests) : KeepsCanon (execFwInstall till tests) :=
  keeps_till fun c h hw => by
  grind [closeOp_canon, refuse_canon, wipe_canon, powerUp_canon, startMps_canon, fwSource_canon, fwWrite_canon, acceptOp_canon]

/-! ### The management port -/

theorem execMgmtHeartbeat_keeps (hub : Hub) : KeepsCanon (execMgmtHeartbeat hub) := keeps_run fun h hw => by simp [hw]

theorem execMgmtFrameSent_keeps (hub : Hub) : KeepsCanon (execMgmtFrameSent hub) := keeps_run fun h hw => by
  dsimp only
  split <;> simp [hw]

theorem execMgmtLinkUp_keeps (hub : Hub) : KeepsCanon (execMgmtLinkUp hub) := keeps_run fun h hw => by simp [hw]
theorem execMgmtLinkDown_keeps (hub : Hub) : KeepsCanon (execMgmtLinkDown hub) := keeps_run fun h hw => by simp [hw]

theorem execResend_keeps (hub : Hub) (frame : Bytes) : KeepsCanon (execResend hub frame) := keeps_run fun h hw => by
  split
  · exact hw
  · exact mgmtAnswer_canon _ _ _ (fun g hg => foldl_canon _ (fun g r hg => (mgmtHold_canon ..).2 hg) _ _ hg) hw

theorem execAttest_keeps (hub : Hub) (frame : Bytes) : KeepsCanon (execAttest hub frame) := keeps_run fun h hw => by
  split
  · exact hw
  · exact mgmtAnswer_canon _ _ _ (fun g hg => by simp [hg]) hw

theorem execMgmtMalformedRequest_keeps (hub : Hub) (frame : Bytes) : KeepsCanon (execMgmtMalformedRequest hub frame) :=
  keeps_run fun h hw => by
  split <;> simp [hw]

theorem execLogMgmtSet_keeps (till : Fin 128) : KeepsCanon (execLogMgmtSet till) := keeps_till fun c h hw => by simp [hw]

theorem execMgmtClearStats_keeps (req : Requester) (hub : Hub) : KeepsCanon (execMgmtClearStats req hub) :=
  keeps_board fun _ hw => hw

theorem execFjHeldRelease_keeps (hub : Hub) : KeepsCanon (execFjHeldRelease hub) := keeps_run fun h hw => by
  cases hub <;> exact hw

/-! ### The host link -/

theorem execTillGo_keeps (port : Hub) (fn : Fn) (till : Fin 128) (content : Bytes) (stores : List HostStore) : KeepsCanon
    (execTillGo port fn till content stores) :=
  keeps_run fun h hw => by simp [hw]

theorem execTillOverrunClear_keeps (port : Hub) (fn : Fn) (till : Fin 128) : KeepsCanon (execTillOverrunClear port fn till) :=
  keeps_run fun h hw => by simp [hw]

theorem execTillBadOpcode_keeps (till : Fin 128) : KeepsCanon (execTillBadOpcode till) :=
  keeps_run fun _ hw => tillRun_canon _ _ _ _ _ _ (fun _ _ hg => hg) hw

theorem execForeignSlotAccess_keeps (port : Hub) (fn : Fn) (slot : SlotRef) (op : AccessOp) : KeepsCanon
    (execForeignSlotAccess port fn slot op) :=
  keeps_run fun h hw => by
  (repeat' split) <;> simp +contextual [*]

theorem execPciDeniedCountRead_keeps (port : Hub) : KeepsCanon (execPciDeniedCountRead port) := keeps_run fun h hw => by simp [hw]

theorem execQueDropRead_keeps (port : Hub) (fn : Fn) (queue : Fin 16384) : KeepsCanon (execQueDropRead port fn queue) :=
  keeps_run fun h hw => by simp [hw]

theorem execQueProd_keeps (port : Hub) (fn : Fn) (queue : Fin 16384) (value : Nat) (stores : List HostStore) : KeepsCanon
    (execQueProd port fn queue value stores) :=
  keeps_run fun h hw => by
  dsimp only
  (repeat' split) <;> simp +contextual [*]

theorem execQueCons_keeps (port : Hub) (fn : Fn) (queue : Fin 16384) (value : Nat) : KeepsCanon (execQueCons port fn queue value) :=
  keeps_run fun h hw => by
  dsimp only
  split
  · exact hw
  split
  · exact (slotDenied_canon ..).2 hw
  split
  · exact (dbReject_canon ..).2 hw
  · (repeat' split) <;> simp [hw]

theorem execDbRejectClear_keeps (port : Hub) (fn : Fn) (queue : Fin 16384) : KeepsCanon (execDbRejectClear port fn queue) :=
  keeps_run fun h hw => by simp [hw]

theorem execRegisterWrite_keeps (req : Requester) (addr : Nat) (data : Bytes) : KeepsCanon (execRegisterWrite req addr data) :=
  keeps_run fun h hw => by
  (repeat' split) <;> simp +contextual [*]

theorem execApertureAccess_keeps (port : Hub) (offset : Nat) (op : AccessOp) : KeepsCanon (execApertureAccess port offset op) :=
  keeps_run fun h hw => by
  dsimp only
  (repeat' split) <;> simp +contextual [*]

theorem execHostLinkUp_keeps (port : Hub) (rate width : Nat) : KeepsCanon (execHostLinkUp port rate width) :=
  keeps_run fun h hw => by simp [hw]

theorem execHostLinkDown_keeps (port : Hub) : KeepsCanon (execHostLinkDown port) := keeps_run fun h hw => by simp [hw]

theorem execHostReadFailed_keeps (victim : HostReadVictim) : KeepsCanon (execHostReadFailed victim) := keeps_run fun h hw => by
  split
  · split
    · exact (setStatus_canon ..).2 hw
    · exact hw
  · exact tillRun_canon _ _ _ _ _ _ (fun _ _ hg => hg) hw

theorem execIdeCheckFail_keeps (port : Hub) : KeepsCanon (execIdeCheckFail port) := keeps_run fun h hw => by simp [hw]

theorem execGetVersion_keeps (port : Hub) (request : Bytes) : KeepsCanon (execGetVersion port request) :=
  keeps_run fun h hw => by simp [hw]

theorem execGetCapabilities_keeps (port : Hub) (request : Bytes) : KeepsCanon (execGetCapabilities port request) :=
  keeps_run fun h hw => by simp [hw]

theorem execNegotiateAlgorithms_keeps (port : Hub) (request : Bytes) : KeepsCanon (execNegotiateAlgorithms port request) :=
  keeps_run fun h hw => by simp [hw]

theorem execGetDigests_keeps (port : Hub) (request : Bytes) : KeepsCanon (execGetDigests port request) :=
  keeps_run fun h hw => by simp [hw]

theorem execGetCertificate_keeps (port : Hub) (request : Bytes) : KeepsCanon (execGetCertificate port request) :=
  keeps_run fun h hw => by simp [hw]

theorem execChallengeSpdm_keeps (port : Hub) (request : Bytes) : KeepsCanon (execChallengeSpdm port request) :=
  keeps_run fun h hw => by simp [hw]

theorem execKeyExchange_keeps (port : Hub) (request : Bytes) : KeepsCanon (execKeyExchange port request) :=
  keeps_run fun h hw => by simp [hw]

theorem execFinish_keeps (port : Hub) (request : Bytes) : KeepsCanon (execFinish port request) := keeps_run fun h hw => by simp [hw]

theorem execKeyUpdate_keeps (port : Hub) (request : Bytes) : KeepsCanon (execKeyUpdate port request) :=
  keeps_run fun h hw => by simp [hw]

theorem execEndSession_keeps (port : Hub) (request : Bytes) : KeepsCanon (execEndSession port request) :=
  keeps_run fun h hw => by simp [hw]

theorem execIdeKmQuery_keeps (port : Hub) (request : Bytes) : KeepsCanon (execIdeKmQuery port request) :=
  keeps_run fun h hw => by simp [hw]

theorem execKeyProg_keeps (port : Hub) (request : Bytes) : KeepsCanon (execKeyProg port request) :=
  keeps_run fun h hw => by simp [hw]

theorem execKSetGo_keeps (port : Hub) (request : Bytes) : KeepsCanon (execKSetGo port request) := keeps_run fun h hw => by simp [hw]

theorem execKSetStop_keeps (port : Hub) (request : Bytes) : KeepsCanon (execKSetStop port request) :=
  keeps_run fun h hw => by simp [hw]

theorem execNvmcClearLast_keeps (req : Requester) (row : Fin 8) : KeepsCanon (execNvmcClearLast req row) :=
  keeps_board fun _ hw => hw

theorem execNvmcClearStats_keeps (req : Requester) (row : Fin 8) : KeepsCanon (execNvmcClearStats req row) :=
  keeps_board fun h hw => by simp [hw]

/-! ### The dispatch -/

/-- Every command keeps the memories in canonical form, and the queue: one arm per command, as the dispatch has them. -/
theorem exec_keeps : ∀ i : Instr, KeepsCanon (exec i)
  | .tillGo port fn till content stores => execTillGo_keeps port fn till content stores
  | .tillOverrunClear port fn till => execTillOverrunClear_keeps port fn till
  | .registerWrite req addr data => execRegisterWrite_keeps req addr data
  | .foreignSlotAccess port fn slot op => execForeignSlotAccess_keeps port fn slot op
  | .pciDeniedCountRead port => execPciDeniedCountRead_keeps port
  | .apertureAccess port offset op => execApertureAccess_keeps port offset op
  | .pciFlr port fn => execPciFlr_keeps port fn
  | .vfEnableClear port => execVfEnableClear_keeps port
  | .hostReadFailed victim => execHostReadFailed_keeps victim
  | .ideCheckFail port => execIdeCheckFail_keeps port
  | .getVersion port request => execGetVersion_keeps port request
  | .getCapabilities port request => execGetCapabilities_keeps port request
  | .negotiateAlgorithms port request => execNegotiateAlgorithms_keeps port request
  | .getDigests port request => execGetDigests_keeps port request
  | .getCertificate port request => execGetCertificate_keeps port request
  | .challengeSpdm port request => execChallengeSpdm_keeps port request
  | .keyExchange port request => execKeyExchange_keeps port request
  | .finish port request => execFinish_keeps port request
  | .keyUpdate port request => execKeyUpdate_keeps port request
  | .endSession port request => execEndSession_keeps port request
  | .ideKmQuery port request => execIdeKmQuery_keeps port request
  | .keyProg port request => execKeyProg_keeps port request
  | .kSetGo port request => execKSetGo_keeps port request
  | .kSetStop port request => execKSetStop_keeps port request
  | .queProd port fn queue value stores => execQueProd_keeps port fn queue value stores
  | .queCons port fn queue value => execQueCons_keeps port fn queue value
  | .dbRejectClear port fn queue => execDbRejectClear_keeps port fn queue
  | .queDropRead port fn queue => execQueDropRead_keeps port fn queue
  | .requestIntake queue => execRequestIntake_keeps queue
  | .stallDispatch row stall => execStallDispatch_keeps row stall
  | .expBlockFetch row stall lane => execExpBlockFetch_keeps row stall lane
  | .expBlockDecoded row stall lane => execExpBlockDecoded_keeps row stall lane
  | .oxTileEnd row stall upsets => execOxTileEnd_keeps row stall upsets
  | .oxStepEnd row stall => execOxStepEnd_keeps row stall
  | .vuRowEnd row stall => execVuRowEnd_keeps row stall
  | .vuStepEnd row stall => execVuStepEnd_keeps row stall
  | .gather row stall => execGather_keeps row stall
  | .scatterAdd row stall => execScatterAdd_keeps row stall
  | .segSum row stall => execSegSum_keeps row stall
  | .segMax row stall => execSegMax_keeps row stall
  | .segMin row stall => execSegMin_keeps row stall
  | .segArgmax row stall => execSegArgmax_keeps row stall
  | .sort row stall => execSort_keeps row stall
  | .intersect row stall => execIntersect_keeps row stall
  | .union row stall => execUnion_keeps row stall
  | .diff row stall => execDiff_keeps row stall
  | .topk row stall => execTopk_keeps row stall
  | .hashInsert row stall => execHashInsert_keeps row stall
  | .hashProbe row stall => execHashProbe_keeps row stall
  | .msg row stall => execMsg_keeps row stall
  | .assign row stall => execAssign_keeps row stall
  | .ledgerCommit row limg => execLedgerCommit_keeps row limg
  | .ledgerAbort row limg pass group cause => execLedgerAbort_keeps row limg pass group cause
  | .fjHeldRelease hub => execFjHeldRelease_keeps hub
  | .shadowRunEnd row id fault => execShadowRunEnd_keeps row id fault
  | .voteStart row id => execVoteStart_keeps row id
  | .voteCopyDone row id => execVoteCopyDone_keeps row id
  | .refereeEnd row id fault checkFailed => execRefereeEnd_keeps row id fault checkFailed
  | .repeatEnd row id fault => execRepeatEnd_keeps row id fault
  | .stallRetire row stall => execStallRetire_keeps row stall
  | .observationClear row stall => execObservationClear_keeps row stall
  | .rowWatchExpire row => execRowWatchExpire_keeps row
  | .tickTotalsAdd ticks => execTickTotalsAdd_keeps ticks
  | .tickTotalsSave => execTickTotalsSave_keeps
  | .tallySelftestGo req row => execTallySelftestGo_keeps req row
  | .selftestEnd row failed => execSelftestEnd_keeps row failed
  | .packRunDue row stall => execPackRunDue_keeps row stall
  | .patternTestStart row stall => execPatternTestStart_keeps row stall
  | .patternTestEnd row stall fault => execPatternTestEnd_keeps row stall fault
  | .lotReadReturn id => execLotReadReturn_keeps id
  | .lotReadLate id => execLotReadLate_keeps id
  | .arrayPageRead id row internalFail => execArrayPageRead_keeps id row internalFail
  | .poolFillDone hub frame failed => execPoolFillDone_keeps hub frame failed
  | .poolDrainDone hub frame => execPoolDrainDone_keeps hub frame
  | .poolInvalidDrained hub frame => execPoolInvalidDrained_keeps hub frame
  | .t1ScrubStep hub line errors => execT1ScrubStep_keeps hub line errors
  | .brwChEnable req chan => execBrwChEnable_keeps req chan
  | .brwChDisable req chan => execBrwChDisable_keeps req chan
  | .brwBurstIssue engine => execBrwBurstIssue_keeps engine
  | .brwBurstComplete chan => execBrwBurstComplete_keeps chan
  | .brwSlotReady chan => execBrwSlotReady_keeps chan
  | .brwDescriptorEnd chan => execBrwDescriptorEnd_keeps chan
  | .recoverResume req chan => execRecoverResume_keeps req chan
  | .recoverSkip req chan => execRecoverSkip_keeps req chan
  | .brwErrClear req chan => execBrwErrClear_keeps req chan
  | .nvmcWindowWrite req row offset data => execNvmcWindowWrite_keeps req row offset data
  | .nvmcUnlockLapse row => execNvmcUnlockLapse_keeps row
  | .programPage row => execProgramPage_keeps row
  | .eraseBlock row => execEraseBlock_keeps row
  | .blankCheck row => execBlankCheck_keeps row
  | .suspend row => execSuspend_keeps row
  | .nvmResume row => execNvmResume_keeps row
  | .readStatus row => execReadStatus_keeps row
  | .wpSet row => execWpSet_keeps row
  | .wpClear row => execWpClear_keeps row
  | .wpFreeze row => execWpFreeze_keeps row
  | .readPagePhys row => execReadPagePhys_keeps row
  | .eraseDeferredStart row bank => execEraseDeferredStart_keeps row bank
  | .suspendEffect row bank => execSuspendEffect_keeps row bank
  | .programEnd row bank verified => execProgramEnd_keeps row bank verified
  | .eraseEnd row bank verified => execEraseEnd_keeps row bank verified
  | .readPagePhysEnd row bank internalFail => execReadPagePhysEnd_keeps row bank internalFail
  | .nvmcBmapGo req row count => execNvmcBmapGo_keeps req row count
  | .nvmcJournalWrite row => execNvmcJournalWrite_keeps row
  | .nvmScrubPage row weak uncorrectable => execNvmScrubPage_keeps row weak uncorrectable
  | .mirrorSettle row lblock => execMirrorSettle_keeps row lblock
  | .relocation row lblock => execRelocation_keeps row lblock
  | .brownoutAssert => execBrownoutAssert_keeps
  | .brownoutClear tests => execBrownoutClear_keeps tests
  | .shardVerify job shard data => execShardVerify_keeps job shard data
  | .shardTimeout job shard => execShardTimeout_keeps job shard
  | .installDeadline job => execInstallDeadline_keeps job
  | .swapLayerProgrammed job => execSwapLayerProgrammed_keeps job
  | .swapLayerTabled job => execSwapLayerTabled_keeps job
  | .swapLayerFlip job => execSwapLayerFlip_keeps job
  | .swapBarrierTimeout job => execSwapBarrierTimeout_keeps job
  | .swapBarrierRetry job => execSwapBarrierRetry_keeps job
  | .swapDeadline job => execSwapDeadline_keeps job
  | .consistentSwapFlip job => execConsistentSwapFlip_keeps job
  | .consistentSwapDeadline job => execConsistentSwapDeadline_keeps job
  | .treeFrame port => execTreeFrame_keeps port
  | .treeBurst port burst => execTreeBurst_keeps port burst
  | .upstreamFrameEnd port stray => execUpstreamFrameEnd_keeps port stray
  | .sweepRound port stray => execSweepRound_keeps port stray
  | .cert port frame => execCert_keeps port frame
  | .response port frame => execResponse_keeps port frame
  | .resume port frame => execResume_keeps port frame
  | .keyAck port frame => execKeyAck_keeps port frame
  | .bindAck port frame => execBindAck_keeps port frame
  | .data port frame => execData_keeps port frame
  | .leave port frame => execLeave_keeps port frame
  | .leaveAck port frame => execLeaveAck_keeps port frame
  | .sessRespTimeout port lid => execSessRespTimeout_keeps port lid
  | .sessParkExpire port lid => execSessParkExpire_keeps port lid
  | .sessRekeyTrigger port lid => execSessRekeyTrigger_keeps port lid
  | .sessHoleSkip port lid => execSessHoleSkip_keeps port lid
  | .sessOldEpochExpire port lid => execSessOldEpochExpire_keeps port lid
  | .pcsAligned port => execPcsAligned_keeps port
  | .pcsAlignLost port => execPcsAlignLost_keeps port
  | .hello port line frame => execHello_keeps port line frame
  | .nbrCert port line frame => execNbrCert_keeps port line frame
  | .proof port line frame => execProof_keeps port line frame
  | .keys port line frame => execKeys_keeps port line frame
  | .keysAck port line frame => execKeysAck_keeps port line frame
  | .refuse port line frame => execRefuse_keeps port line frame
  | .ack port line frame => execAck_keeps port line frame
  | .keepalive port line frame => execKeepalive_keeps port line frame
  | .lotReq port line frame => execLotReq_keeps port line frame
  | .lotOffer port line frame => execLotOffer_keeps port line frame
  | .lotRefuse port line frame => execLotRefuse_keeps port line frame
  | .shardWant port line frame => execShardWant_keeps port line frame
  | .shardData port line frame => execShardData_keeps port line frame
  | .shardAck port line frame => execShardAck_keeps port line frame
  | .lotDone port line frame => execLotDone_keeps port line frame
  | .pageRead port line frame => execPageRead_keeps port line frame
  | .pageData port line frame => execPageData_keeps port line frame
  | .pageFail port line frame => execPageFail_keeps port line frame
  | .withdraw port line frame => execWithdraw_keeps port line frame
  | .item port line frame => execItem_keeps port line frame
  | .notice port line frame => execNotice_keeps port line frame
  | .nbrRespTimeout port => execNbrRespTimeout_keeps port
  | .nbrHoldoffExpire port => execNbrHoldoffExpire_keeps port
  | .nbrDead port => execNbrDead_keeps port
  | .nbrKeepaliveSend port => execNbrKeepaliveSend_keeps port
  | .nbrRto port conv seq => execNbrRto_keeps port conv seq
  | .nbrRekeyTrigger port => execNbrRekeyTrigger_keeps port
  | .nbrOldEpochExpire port => execNbrOldEpochExpire_keeps port
  | .noticeLimit port tag => execNoticeLimit_keeps port tag
  | .vdecDecodeStart engine => execVdecDecodeStart_keeps engine
  | .vdecPictureDone engine decoded => execVdecPictureDone_keeps engine decoded
  | .gooseCommit half eval verdict => execGooseCommit_keeps half eval verdict
  | .gooseStaleTimeout => execGooseStaleTimeout_keeps
  | .penWedgeDetect pen => execPenWedgeDetect_keeps pen
  | .penResetDone pen => execPenResetDone_keeps pen
  | .pairSync pen => execPairSync_keeps pen
  | .unitStuck row stall => execUnitStuck_keeps row stall
  | .mpHeartbeat hub => execMpHeartbeat_keeps hub
  | .hubLost hub => execHubLost_keeps hub
  | .mpLost => execMpLost_keeps
  | .rowLost row => execRowLost_keeps row
  | .rowLinkLost row hub => execRowLinkLost_keeps row hub
  | .lossOfSignal port => execLossOfSignal_keeps port
  | .handoverStandbyReady => execHandoverStandbyReady_keeps
  | .handoverRoleMove => execHandoverRoleMove_keeps
  | .handoverFormerReady => execHandoverFormerReady_keeps
  | .powerApplied feed => execPowerApplied_keeps feed
  | .moduleReset tests => execModuleReset_keeps tests
  | .feedLost feed => execFeedLost_keeps feed
  | .feedRestored feed => execFeedRestored_keeps feed
  | .powerSample va wa vb wb => execPowerSample_keeps va wa vb wb
  | .railSlewStep rail => execRailSlewStep_keeps rail
  | .thermalLimit rail tj => execThermalLimit_keeps rail tj
  | .thermalRecover rail tj => execThermalRecover_keeps rail tj
  | .thermalShutdown rail tj => execThermalShutdown_keeps rail tj
  | .thermalRestart tests => execThermalRestart_keeps tests
  | .domainEnterRet domain => execDomainEnterRet_keeps domain
  | .domainEnterOff domain => execDomainEnterOff_keeps domain
  | .domainForceApply domain => execDomainForceApply_keeps domain
  | .domainWake domain => execDomainWake_keeps domain
  | .domainWakeDone domain => execDomainWakeDone_keeps domain
  | .wakePulse req domain => execWakePulse_keeps req domain
  | .rtcAlarmFire hub alarm => execRtcAlarmFire_keeps hub alarm
  | .rtcAlarmClear req hub alarm => execRtcAlarmClear_keeps req hub alarm
  | .mgmtHeartbeat hub => execMgmtHeartbeat_keeps hub
  | .resend hub frame => execResend_keeps hub frame
  | .attest hub frame => execAttest_keeps hub frame
  | .mgmtLinkUp hub => execMgmtLinkUp_keeps hub
  | .mgmtLinkDown hub => execMgmtLinkDown_keeps hub
  | .oxClearLast req row stall => execOxClearLast_keeps req row stall
  | .oxClearStats req row stall => execOxClearStats_keeps req row stall
  | .vuClearStats req row stall => execVuClearStats_keeps req row stall
  | .henClearStats req row stall => execHenClearStats_keeps req row stall
  | .expClearLast req row stall => execExpClearLast_keeps req row stall
  | .expClearStats req row stall => execExpClearStats_keeps req row stall
  | .stallClearStats req row stall => execStallClearStats_keeps req row stall
  | .ledgerClearLast req row => execLedgerClearLast_keeps req row
  | .ledgerClearStats req row => execLedgerClearStats_keeps req row
  | .tallyClearLast req row => execTallyClearLast_keeps req row
  | .tallyClearStats req row => execTallyClearStats_keeps req row
  | .mmuClearCe req hub => execMmuClearCe_keeps req hub
  | .mmuClearLast req hub => execMmuClearLast_keeps req hub
  | .mmuClearStats req hub => execMmuClearStats_keeps req hub
  | .brwClearStats req engine => execBrwClearStats_keeps req engine
  | .nvmcClearLast req row => execNvmcClearLast_keeps req row
  | .nvmcClearStats req row => execNvmcClearStats_keeps req row
  | .treeClearLast req port => execTreeClearLast_keeps req port
  | .treeClearStats req port => execTreeClearStats_keeps req port
  | .sessClearStats req port => execSessClearStats_keeps req port
  | .nbrClearStats req port => execNbrClearStats_keeps req port
  | .vdecClearStats req engine => execVdecClearStats_keeps req engine
  | .watClearLast req hub => execWatClearLast_keeps req hub
  | .watClearStats req hub => execWatClearStats_keeps req hub
  | .gooseClearStats req hub => execGooseClearStats_keeps req hub
  | .mgmtClearStats req hub => execMgmtClearStats_keeps req hub
  | .penCreate till => execPenCreate_keeps till
  | .penDestroy till => execPenDestroy_keeps till
  | .penStalls till => execPenStalls_keeps till
  | .penGrant till => execPenGrant_keeps till
  | .penQueue till => execPenQueue_keeps till
  | .penPair till => execPenPair_keeps till
  | .penReset till => execPenReset_keeps till
  | .penShed till => execPenShed_keeps till
  | .penRestore till => execPenRestore_keeps till
  | .penSpares till => execPenSpares_keeps till
  | .penGoose till => execPenGoose_keeps till
  | .penQuery till => execPenQuery_keeps till
  | .schedLoad till => execSchedLoad_keeps till
  | .schedLoadDone handle => execSchedLoadDone_keeps handle
  | .schedStart till => execSchedStart_keeps till
  | .schedPause till => execSchedPause_keeps till
  | .schedResume till => execSchedResume_keeps till
  | .schedRetire till => execSchedRetire_keeps till
  | .schedQuery till => execSchedQuery_keeps till
  | .weightInstall till => execWeightInstall_keeps till
  | .weightGrant till => execWeightGrant_keeps till
  | .weightRevoke till => execWeightRevoke_keeps till
  | .weightSwap till => execWeightSwap_keeps till
  | .weightRemove till => execWeightRemove_keeps till
  | .weightQuery till => execWeightQuery_keeps till
  | .weightAdapter till => execWeightAdapter_keeps till
  | .memMap till => execMemMap_keeps till
  | .memMapZeroed handle => execMemMapZeroed_keeps handle
  | .memUnmap till => execMemUnmap_keeps till
  | .memQuery till => execMemQuery_keeps till
  | .memPromote till => execMemPromote_keeps till
  | .memQuota till => execMemQuota_keeps till
  | .memPoolSet till => execMemPoolSet_keeps till
  | .memTileMap till => execMemTileMap_keeps till
  | .memTileUnmap till => execMemTileUnmap_keeps till
  | .checkSet till => execCheckSet_keeps till
  | .checkGet till => execCheckGet_keeps till
  | .checkProbe till => execCheckProbe_keeps till
  | .checkProbeDeadline handle => execCheckProbeDeadline_keeps handle
  | .checkPackInstall till => execCheckPackInstall_keeps till
  | .logExport till => execLogExport_keeps till
  | .logMgmtSet till => execLogMgmtSet_keeps till
  | .treePortSet till => execTreePortSet_keeps till
  | .treeLease till => execTreeLease_keeps till
  | .treeRegister till => execTreeRegister_keeps till
  | .treeUnregister till => execTreeUnregister_keeps till
  | .treeRelease till => execTreeRelease_keeps till
  | .treeSweep till => execTreeSweep_keeps till
  | .treeQuery till => execTreeQuery_keeps till
  | .sessBind till => execSessBind_keeps till
  | .sessUnbind till => execSessUnbind_keeps till
  | .sessClose till => execSessClose_keeps till
  | .sessRekey till => execSessRekey_keeps till
  | .sessChallenge till => execSessChallenge_keeps till
  | .sessQuery till => execSessQuery_keeps till
  | .nbrPortSet till => execNbrPortSet_keeps till
  | .nbrAssign till => execNbrAssign_keeps till
  | .nbrRekey till => execNbrRekey_keeps till
  | .nbrQuery till => execNbrQuery_keeps till
  | .vdecStreamSet till => execVdecStreamSet_keeps till
  | .vdecStreamClear till => execVdecStreamClear_keeps till
  | .vdecQuery till => execVdecQuery_keeps till
  | .pwrDomainSet till => execPwrDomainSet_keeps till
  | .pwrRailSet till => execPwrRailSet_keeps till
  | .pwrCapSet till => execPwrCapSet_keeps till
  | .pwrStartSet till => execPwrStartSet_keeps till
  | .pwrQuery till => execPwrQuery_keeps till
  | .trustAttest till => execTrustAttest_keeps till
  | .trustCertGet till => execTrustCertGet_keeps till
  | .trustCertSet till => execTrustCertSet_keeps till
  | .trustCsr till => execTrustCsr_keeps till
  | .trustKeyAdd till => execTrustKeyAdd_keeps till
  | .trustKeyRemove till => execTrustKeyRemove_keeps till
  | .trustKeyList till => execTrustKeyList_keeps till
  | .trustWatSet till => execTrustWatSet_keeps till
  | .trustWatZeroed handle => execTrustWatZeroed_keeps handle
  | .trustRollbackSet till => execTrustRollbackSet_keeps till
  | .trustIdePolicy till => execTrustIdePolicy_keeps till
  | .fwInstall till tests => execFwInstall_keeps till tests
  | .fwHandover till => execFwHandover_keeps till
  | .fwQuery till => execFwQuery_keeps till
  | .hostLinkUp port rate width => execHostLinkUp_keeps port rate width
  | .hostLinkDown port => execHostLinkDown_keeps port
  | .vfEnableSet port => execVfEnableSet_keeps port
  | .tillBadOpcode till => execTillBadOpcode_keeps till
  | .handoverStandbyFailed => execHandoverStandbyFailed_keeps
  | .standbyMpLost => execStandbyMpLost_keeps
  | .packInstallDone handle => execPackInstallDone_keeps handle
  | .mgmtFrameSent hub => execMgmtFrameSent_keeps hub
  | .mgmtMalformedRequest hub frame => execMgmtMalformedRequest_keeps hub frame
  | .nbrMalformedFrame port line frame => execNbrMalformedFrame_keeps port line frame

end Sys2Proof.Machine
end

section
/-! PROOFS. Settles O4 and O5: the invariant holds at reset and every step keeps it. -/

open Sys2Proof Sys2Proof.Machine

/-- Settles O4: nothing is listed in any memory at reset, and no command waits. -/
theorem invariantAtReset : Obligations.InvariantAtReset := ⟨rfl, by simp [State.reset]⟩

/-- Settles O5: a step with nothing to run changes nothing, and a command keeps the memories canonical (`exec_keeps`) and the
rest of the queue. -/
theorem invariantKept : Obligations.InvariantKept := by
  rintro ⟨h, pending⟩ s' ⟨hmem, hwf⟩ hs
  cases pending with
  | nil =>
    cases hs
    exact ⟨hmem, hwf⟩
  | cons c rest =>
    obtain ⟨h', hn, hc⟩ := exec_keeps c ⟨h, rest⟩ hmem
    cases hn.symm.trans hs
    exact ⟨hc, fun i hi => hwf i (List.mem_cons_of_mem _ hi)⟩

end

section
/-! PROOFS. Settles O7: the fault junctions (R29, R30). -/

namespace Sys2Proof.Machine

/-- An urgent record stands last among the urgent records and those held behind them. -/
theorem Junction.deposit_urgent (j : Junction) (r : FjRec) (hr : r.urgent = true) :
    (j.deposit r).urgent ++ (j.deposit r).held = j.urgent ++ j.held ++ [r] ∧
      (j.deposit r).ordinary = j.ordinary ∧ (j.deposit r).dropped = j.dropped ∧
      (j.deposit r).heldCount = if j.urgent.length < 256 ∧ j.held = [] then j.heldCount else j.heldCount + 1 := by
  by_cases hfree : j.urgent.length < 256 ∧ j.held = []
  · simp [Junction.deposit, hr, hfree]
  · simp [Junction.deposit, hr, hfree]

/-- An ordinary record is taken while its class is not full, and dropped and counted otherwise. -/
theorem Junction.deposit_ordinary (j : Junction) (r : FjRec) (hr : r.urgent = false) :
    ((j.deposit r).ordinary = if j.ordinary.length < 4096 then j.ordinary ++ [r] else j.ordinary) ∧
      ((j.deposit r).dropped = if j.ordinary.length < 4096 then j.dropped else j.dropped + 1) ∧
      (j.deposit r).urgent = j.urgent ∧ (j.deposit r).held = j.held ∧ (j.deposit r).heldCount = j.heldCount := by
  by_cases hroom : j.ordinary.length < 4096
  · simp [Junction.deposit, hr, hroom]
  · simp [Junction.deposit, hr, hroom]

/-- A record goes to both junctions and nowhere else. -/
theorem deposit_frame (h : Hall) (r : FjRec) : Frame h (h.deposit r) [.junctions] noReg :=
  frame_of_parts (fun p hp => by cases p <;> simp_all [Part.same]) rfl

/-- Settles O7. -/
theorem junctionClasses : Obligations.JunctionClasses :=
  ⟨Junction.deposit_urgent, Junction.deposit_ordinary, fun h r => ⟨rfl, rfl, deposit_frame h r⟩⟩

end Sys2Proof.Machine
end

section
/-! PROOFS. Settles O13: the secure aperture (R39, R54). -/

namespace Sys2Proof.Machine

/-! ### Bytes written into T0, T1 and the tills -/

/-- A line write puts each byte of the payload in its place. -/
theorem writeLine_inside (h : Hall) (line o : Nat) (p : Payload) (i : Nat) (hw : Mem.wf 0 h.mem.ram = true) (hi : i < p.length) :
    Mem.read 0 (h.writeLine line o p).mem.ram (line * 64 + o + i) = (p.map PByte.b).getD i 0 := by
  have hp : p ≠ [] := List.ne_nil_of_length_pos (Nat.zero_lt_of_lt hi)
  simp only [Hall.writeLine, hp, if_false]
  exact Mem.read_writeN_inside 0 _ _ _ _ hw (by simpa using hi)

/-- What writing a payload does to one line of it (`Hall.writeRam`). -/
def Hall.writeRamLine (a : Nat) (p : Payload) (h : Hall) (i : Nat) : Hall :=
  let line := a / 64 + i
  let start := max a (line * 64)
  let stop := min (a + p.length) (line * 64 + 64)
  h.writeLine line (start - line * 64) ((p.drop (start - a)).take (stop - start))

theorem writeRam_eq_foldl (h : Hall) (a : Nat) (p : Payload) :
    h.writeRam a p = (List.range ((a % 64 + p.length + 63) / 64)).foldl (Hall.writeRamLine a p) h := rfl

/-- The line in which a byte lies takes that byte. -/
theorem writeRamLine_inside (h : Hall) (a : Nat) (p : Payload) (x i : Nat) (hw : Mem.wf 0 h.mem.ram = true) (hi : i < p.length)
    (hx : (a + i) / 64 = a / 64 + x) :
    Mem.read 0 (h.writeRamLine a p x).mem.ram (a + i) = (p.map PByte.b).getD i 0 := by
  unfold Hall.writeRamLine
  extract_lets line start stop
  have hlo : start ≤ a + i := by omega
  have hat : line * 64 + (start - line * 64) + (a + i - start) = a + i := by omega
  have hlen : a + i - start < ((p.drop (start - a)).take (stop - start)).length := by
    simp only [List.length_take, List.length_drop]
    omega
  have hr := writeLine_inside h line (start - line * 64) _ _ hw hlen
  rw [hat] at hr
  rw [hr]
  have hoff : start - a + (a + i - start) = i := by omega
  simp only [List.length_take, List.length_drop] at hlen
  simp [List.getD_eq_getElem?_getD, hoff, (by omega : a + i - start < stop - start)]

/-- Any other line leaves that byte as it was. -/
theorem writeRamLine_outside (h : Hall) (a : Nat) (p : Payload) (x i : Nat) (hw : Mem.wf 0 h.mem.ram = true)
    (hx : (a + i) / 64 ≠ a / 64 + x) : Mem.read 0 (h.writeRamLine a p x).mem.ram (a + i) = Mem.read 0 h.mem.ram (a + i) := by
  refine writeLine_outside _ _ _ _ _ hw ?_
  simp only [List.length_take, List.length_drop]
  omega

/-- A byte stands in its place once its line has been written. -/
theorem writeRamLines_inside (h : Hall) (a : Nat) (p : Payload) (i : Nat) (hw : Mem.wf 0 h.mem.ram = true) (hi : i < p.length)
    (l : List Nat) (hl : (a + i) / 64 - a / 64 ∈ l) :
    Mem.read 0 (l.foldl (Hall.writeRamLine a p) h).mem.ram (a + i) = (p.map PByte.b).getD i 0 := by
  induction l using List.reverseRecOn with
  | nil => simp at hl
  | append_singleton l x ih =>
    rw [List.foldl_append, List.foldl_cons, List.foldl_nil]
    have hwf := List.foldlRecOn (motive := fun g : Hall => Mem.wf 0 g.mem.ram = true) l (Hall.writeRamLine a p) hw
      fun g hg k _ => writeLine_wf g _ _ _ hg
    by_cases hx : (a + i) / 64 = a / 64 + x
    · exact writeRamLine_inside _ a p x i hwf hi hx
    · rw [writeRamLine_outside _ a p x i hwf hx]
      rw [List.mem_append, List.mem_singleton] at hl
      exact ih (hl.resolve_right (by omega))

/-- Writing a payload puts each byte of it in its place. -/
theorem writeRam_inside (h : Hall) (a : Nat) (p : Payload) (i : Nat) (hw : Mem.wf 0 h.mem.ram = true) (hi : i < p.length) :
    Mem.read 0 (h.writeRam a p).mem.ram (a + i) = (p.map PByte.b).getD i 0 := by
  rw [writeRam_eq_foldl]
  exact writeRamLines_inside h a p i hw hi _ (List.mem_range.2 (by omega))

theorem writeBytes_inside (h : Hall) (a : Nat) (bs : Bytes) (i : Nat) (hw : Mem.wf 0 h.mem.ram = true) (hi : i < bs.length) :
    Mem.read 0 (h.writeBytes a bs).mem.ram (a + i) = bs.getD i 0 := by
  have hr := writeRam_inside h a (cleanBytes bs) i hw (by simpa [cleanBytes] using hi)
  simpa [Hall.writeBytes, cleanBytes, Function.comp_def] using hr

theorem writeBytes_outside (h : Hall) (a : Nat) (bs : Bytes) (hw : Mem.wf 0 h.mem.ram = true) :
    RamOutside h (h.writeBytes a bs) a bs.length := by
  simpa [Hall.writeBytes, cleanBytes] using writeRam_outside h a (cleanBytes bs) hw

/-- Writing bytes changes T0, T1 or the tills and their marks. -/
theorem writeBytes_frame (h : Hall) (a : Nat) (bs : Bytes) : Frame h (h.writeBytes a bs) [.ram, .marks] noReg := by
  obtain ⟨hhost, hnvm⟩ := writeRam_host h a (cleanBytes bs)
  exact frame_of_parts (fun p hp => by cases p <;> simp_all [Part.same, Hall.writeBytes]) (writeBytes_regs h a bs)

/-! ### Accesses through the aperture -/

/-- A bus error of a read: Completer Abort and an ordinary record. -/
def Hall.readBusError (h : Hall) (p : Hub) (a : Nat) : Hall := (h.ordinary .busError a).emit (.completion p .completerAbort)

/-- A bus error of a write: discarded, with an ordinary record. -/
def Hall.writeBusError (h : Hall) (p : Hub) (a : Nat) : Hall := (h.ordinary .busError a).emit (.completion p .discarded)

/-- A read of a port that takes TLPs reads at BASE × 2^32 plus the offset. -/
theorem apertureAccess_read (s : State) (p : Hub) (o n : Nat) (hp : s.hall.tlpOk p = true) (ho : o < 2 ^ 32) :
    Becomes (.apertureAccess p o (.read n)) s
      (s.hall.apertureRead p (s.hall.getF .pciApertureBase (hubNum p) * 2 ^ 32 + o) n) := by
  simp only [Hall.tlpOk, Bool.and_eq_true, Bool.not_eq_true'] at hp
  change execApertureAccess p o (.read n) s = _
  simp [execApertureAccess, run_next, hp, show o % 4294967296 = o from Nat.mod_eq_of_lt ho]

/-- A write likewise. -/
theorem apertureAccess_write (s : State) (p : Hub) (o : Nat) (data : Bytes) (hp : s.hall.tlpOk p = true) (ho : o < 2 ^ 32) :
    Becomes (.apertureAccess p o (.write data)) s
      (s.hall.apertureWrite p (s.hall.getF .pciApertureBase (hubNum p) * 2 ^ 32 + o) data) := by
  simp only [Hall.tlpOk, Bool.and_eq_true, Bool.not_eq_true'] at hp
  change execApertureAccess p o (.write data) s = _
  simp [execApertureAccess, run_next, hp, show o % 4294967296 = o from Nat.mod_eq_of_lt ho]

/-- A read that lies in T0 or T1 completes with the bytes there. -/
theorem apertureRead_ram (h : Hall) (p : Hub) (a n : Nat) (ha : (∃ hub, h.region a = .t1 hub) ∨ ∃ r x, h.region a = .t0 r x)
    (hl : h.region (a + n - 1) ≠ .outside) : h.apertureRead p a n = h.emit (.completion p (.data (h.readBytes a n))) := by
  rcases ha with ⟨hub, ha⟩ | ⟨r, x, ha⟩ <;> simp [Hall.apertureRead, hl, ha]

/-- A write that lies in T0 or T1 lands there. -/
theorem apertureWrite_ram (h : Hall) (p : Hub) (a : Nat) (data : Bytes)
    (ha : (∃ hub, h.region a = .t1 hub) ∨ ∃ r x, h.region a = .t0 r x) (hl : h.region (a + data.length - 1) ≠ .outside) :
    h.apertureWrite p a data = h.writeBytes a data := by
  rcases ha with ⟨hub, ha⟩ | ⟨r, x, ha⟩ <;> simp [Hall.apertureWrite, hl, ha]

/-- A read where no region begins is a bus error, however long it is. -/
theorem apertureRead_outside (h : Hall) (p : Hub) (a n : Nat) (ha : h.region a = .outside) :
    h.apertureRead p a n = h.readBusError p a := by
  by_cases hl : h.region (a + n - 1) = .outside <;> simp [Hall.apertureRead, Hall.readBusError, hl, ha]

theorem apertureWrite_outside (h : Hall) (p : Hub) (a : Nat) (data : Bytes) (ha : h.region a = .outside) :
    h.apertureWrite p a data = h.writeBusError p a := by
  by_cases hl : h.region (a + data.length - 1) = .outside <;> simp [Hall.apertureWrite, Hall.writeBusError, hl, ha]

theorem readBusError_frame (h : Hall) (p : Hub) (a : Nat) : Frame h (h.readBusError p a) [.outs, .junctions] noReg :=
  frame_of_parts (fun q hq => by cases q <;> simp_all [Part.same, Hall.readBusError]) rfl

theorem writeBusError_frame (h : Hall) (p : Hub) (a : Nat) : Frame h (h.writeBusError p a) [.outs, .junctions] noReg :=
  frame_of_parts (fun q hq => by cases q <;> simp_all [Part.same, Hall.writeBusError]) rfl

/-- A completion changes nothing but the module's outputs. -/
theorem emit_outs_frame (h : Hall) (o : Out) : Frame h (h.emit o) [.outs] noReg :=
  frame_of_parts (fun q hq => by cases q <;> simp_all [Part.same]) rfl

/-- Settles O13. -/
theorem apertureAccesses : Obligations.ApertureAccesses := by
  intro s p o hp ho
  refine ⟨fun n ha hl => ?_, fun data hmem ha hl => ?_, fun op ha => ?_⟩
  · have hb := apertureAccess_read s p o n hp ho
    rw [apertureRead_ram _ _ _ _ ha hl] at hb
    exact ⟨_, hb, rfl, emit_outs_frame _ _⟩
  · have hb := apertureAccess_write s p o data hp ho
    rw [apertureWrite_ram _ _ _ _ ha hl] at hb
    have hw : Mem.wf 0 s.hall.mem.ram = true := by
      simp only [MemSys.ok, Bool.and_eq_true] at hmem
      exact hmem.1.1
    exact ⟨_, hb, fun i hi => writeBytes_inside _ _ _ i hw hi, writeBytes_outside _ _ _ hw, writeBytes_frame _ _ _⟩
  · cases op with
    | read n =>
      have hb := apertureAccess_read s p o n hp ho
      rw [apertureRead_outside _ _ _ _ ha] at hb
      exact ⟨_, hb, rfl, rfl, readBusError_frame _ _ _⟩
    | write data =>
      have hb := apertureAccess_write s p o data hp ho
      rw [apertureWrite_outside _ _ _ _ ha] at hb
      exact ⟨_, hb, rfl, rfl, writeBusError_frame _ _ _⟩

end Sys2Proof.Machine
end

section
/-! PROOFS. Settles O18: CLEAR writes that wait for their block's moment (R32, R132, R154, R179, R203, R223, R253, R275, R371,
R393). -/

namespace Sys2Proof.Machine

/-! ### A stall's blocks -/

/-- No step runs on a stall. -/
def Stall.idle (x : Stall) : Bool := x.ox.isNone && x.vu.isNone && x.hen.isNone

@[simp] theorem updStall_stall_same (h : Hall) (i : Nat) (f : Stall → Stall) : (h.updStall i f).stall i = f (h.stall i) :=
  Tab.get_set_same _ _ _ _

/-- While a step runs, a clear waits behind those that wait already. -/
theorem queueClear_busy (h : Hall) (i : Nat) (c : StallClear) (hb : (h.stall i).idle = false) :
    h.queueClear i c = h.updStall i fun y => { y with clears := y.clears ++ [c] } := by
  unfold Hall.queueClear
  simp only [updStall_stall_same]
  exact if_neg (Bool.eq_false_iff.1 hb)

/-- With no step running, every clear that waits takes effect, this one last. -/
theorem queueClear_idle (h : Hall) (i : Nat) (c : StallClear) (hb : (h.stall i).idle = true) :
    h.queueClear i c = (h.updStall i fun y => { y with clears := y.clears ++ [c] }).stepBoundary i := by
  unfold Hall.queueClear
  simp only [updStall_stall_same]
  exact if_pos hb

/-- What the clear that waits last zeroes is 0 after a step boundary. -/
theorem stepBoundary_zero (h : Hall) (i : Nat) (l : List StallClear) (c : StallClear) (f : Fld) (hl : (h.stall i).clears = l ++ [c])
    (hz : ∀ g : Hall, (g.stallClear i c).getF f i = 0) : (h.stepBoundary i).getF f i = 0 := by
  rw [Hall.stepBoundary, updStall_getF, hl, List.foldl_append]
  exact hz _

/-- The three cases of a CLEAR write to a stall's block. -/
theorem stallClear_spec {i : Instr} {s : State} {req : Requester} {u : Nat} {c : StallClear} {fs : List Fld}
    (hi : exec i s = s.board req fun h => h.queueClear u c) (hz : ∀ g : Hall, ∀ f ∈ fs, (g.stallClear u c).getF f u = 0) :
    (s.hall.accepts req = false → Becomes i s s.hall) ∧
      (s.hall.accepts req = true → (s.hall.stall u).idle = false →
        Becomes i s (s.hall.updStall u fun y => { y with clears := y.clears ++ [c] })) ∧
      (s.hall.accepts req = true → (s.hall.stall u).idle = true → Gives i s fun h' => ∀ f ∈ fs, h'.getF f u = 0) := by
  refine ⟨becomes_of_board_refused hi, fun ha hb => ?_, fun ha hb => ⟨_, becomes_of_board hi ha, fun f hf => ?_⟩⟩
  · have hs := becomes_of_board hi ha
    rwa [queueClear_busy _ _ _ hb] at hs
  · rw [queueClear_idle _ _ _ hb]
    exact stepBoundary_zero _ u _ c f (by rw [updStall_stall_same]) fun g => hz g f hf

/-- COUNT and SAT of counters that a clear zeroes. -/
theorem clearCtrs_zero_of_mem (g : Hall) (u : Nat) (cs : List Ctr) (f : Fld) (hf : ∃ c ∈ cs, f = .count c ∨ f = .sat c) :
    (g.clearCtrs u cs).getF f u = 0 := (getF_clearCtrs cs g u f u).trans (if_pos ⟨rfl, hf⟩)

/-- COUNT and SAT of one counter and COUNT of another are fields of the counters cleared. -/
theorem statFields_mem {cs : List Ctr} {a b : Ctr} {f : Fld} (hf : f ∈ [.count a, .sat a, .count b]) (ha : a ∈ cs) (hb : b ∈ cs) :
    ∃ c ∈ cs, f = .count c ∨ f = .sat c := by
  simp only [List.mem_cons, List.not_mem_nil, or_false] at hf
  rcases hf with rfl | rfl | rfl
  · exact ⟨a, ha, .inl rfl⟩
  · exact ⟨a, ha, .inr rfl⟩
  · exact ⟨b, hb, .inl rfl⟩

/-! ### Other blocks -/

/-- An MMU's pending clears change the tiers only. -/
theorem mmuDue_frame (h : Hall) (u : Nat) (f : MmuDue → MmuDue) : Frame h (h.mmuDue u f) [.tiers] noReg :=
  frame_of_parts (fun p hp => by cases p <;> simp_all [Part.same, Hall.mmuDue]) rfl

theorem mmuDue_get (h : Hall) (u : Nat) (f : MmuDue → MmuDue) :
    (Tab.get {} (h.mmuDue u f).tiers.mmuDue u : MmuDue) = f (Tab.get {} h.tiers.mmuDue u) := Tab.get_set_same _ _ _ _

/-- Settles O18. -/
theorem clearsThatWait : Obligations.ClearsThatWait := by
  refine ⟨fun s req r x => ?_, fun s req => ⟨fun ha => ?_, fun ha => ?_⟩⟩
  · intro u clears e he
    simp only [clears, List.mem_cons, List.not_mem_nil, or_false] at he
    rcases he with rfl | rfl | rfl | rfl | rfl | rfl | rfl
    · exact stallClear_spec rfl fun g f hf => clearFs_zero g _ oxLastFields f (List.mem_singleton.1 hf ▸ by decide)
    · exact stallClear_spec rfl fun g f hf => clearCtrs_zero_of_mem g _ oxCounters f (statFields_mem hf (by decide) (by decide))
    · exact stallClear_spec rfl fun g f hf => clearCtrs_zero_of_mem g _ vuCounters f (statFields_mem hf (by decide) (by decide))
    · exact stallClear_spec rfl fun g f hf => clearCtrs_zero_of_mem g _ henCounters f (statFields_mem hf (by decide) (by decide))
    · exact stallClear_spec rfl fun g f hf => clearFs_zero g _ expLastFields f (List.mem_singleton.1 hf ▸ by decide)
    · exact stallClear_spec rfl fun g f hf => clearCtrs_zero_of_mem g _ expCounters f (statFields_mem hf (by decide) (by decide))
    · exact stallClear_spec rfl fun g f hf => clearCtrs_zero_of_mem g _ stallCounters f (statFields_mem hf (by decide) (by decide))
  · have act {i : Instr} (f : Hall → Hall) (hi : exec i s = s.board req f) : Becomes i s (f s.hall) := becomes_of_board hi ha
    exact ⟨fun r => act (Hall.updLedger · r _) rfl, fun r => act (Hall.updLedger · r _) rfl,
      fun r => act (Hall.updTally · r _) rfl, fun r => act (Hall.updTally · r _) rfl,
      fun hub => ⟨_, act (Hall.mmuDue · (hubNum hub) _) rfl, congrArg MmuDue.ce (mmuDue_get ..), mmuDue_frame ..⟩,
      fun hub => ⟨_, act (Hall.mmuDue · (hubNum hub) _) rfl, congrArg MmuDue.last (mmuDue_get ..), mmuDue_frame ..⟩,
      fun hub => ⟨_, act (Hall.mmuDue · (hubNum hub) _) rfl, congrArg MmuDue.stats (mmuDue_get ..), mmuDue_frame ..⟩,
      fun p => act (Hall.updPortT · p _) rfl, fun p => act (Hall.updPortT · p _) rfl, fun p => act (Hall.updPortT · p _) rfl⟩
  · have refused {i : Instr} (f : Hall → Hall) (hi : exec i s = s.board req f) : Becomes i s s.hall := becomes_of_board_refused hi ha
    refine ⟨fun r => ?_, fun hub => ?_, fun p => ?_⟩
    · exact ⟨refused (Hall.updLedger · r _) rfl, refused (Hall.updLedger · r _) rfl, refused (Hall.updTally · r _) rfl,
        refused (Hall.updTally · r _) rfl⟩
    · exact ⟨refused (Hall.mmuDue · (hubNum hub) _) rfl, refused (Hall.mmuDue · (hubNum hub) _) rfl,
        refused (Hall.mmuDue · (hubNum hub) _) rfl⟩
    · exact ⟨refused (Hall.updPortT · p _) rfl, refused (Hall.updPortT · p _) rfl, refused (Hall.updPortT · p _) rfl⟩

end Sys2Proof.Machine
end

section
/-! PROOFS. Settles O35: stuck units, lost links, signals, rows and hubs (R23, R79, R237, R451, R452). -/

namespace Sys2Proof.Machine

/-! ### Frames -/

theorem urgent_frame (h : Hall) (k : RecKind) (u i : Nat) (parts : List Part) (may : Fld → Nat → Prop) (hp : Part.junctions ∈ parts) :
    Frame h (h.urgent k u i) parts may :=
  frame_of_parts (fun p hn => by cases p <;> simp_all [Part.same]) rfl

theorem updStall_frame (h : Hall) (i : Nat) (f : Stall → Stall) (parts : List Part) (may : Fld → Nat → Prop) (hp : Part.data ∈ parts) :
    Frame h (h.updStall i f) parts may :=
  frame_of_parts (fun p hn => by cases p <;> simp_all [Part.same]) rfl

/-- The parts of the module other than `avail` may not change where only `avail` is replaced. -/
theorem avail_frame (h : Hall) (a : Avail) (parts : List Part) (may : Fld → Nat → Prop) (hp : Part.avail ∈ parts) :
    Frame h { h with avail := a } parts may :=
  frame_of_parts (fun p hn => by cases p <;> simp_all [Part.same]) rfl

/-- A frame without memory parts keeps memory. -/
theorem Frame.mem_eq {h h' : Hall} {parts : List Part} {may : Fld → Nat → Prop} (f : Frame h h' parts may)
    (hp : ∀ p ∈ [Part.ram, .marks, .nvm, .host], p ∉ parts) : h'.mem = h.mem := by
  have hram : h'.mem.ram = h.mem.ram := f.1 .ram (hp _ (by simp))
  have hmarks : h'.mem.marks = h.mem.marks := f.1 .marks (hp _ (by simp))
  have hnvm : h'.mem.nvm = h.mem.nvm := f.1 .nvm (hp _ (by simp))
  have hhost : h'.mem.host = h.mem.host := f.1 .host (hp _ (by simp))
  cases hm : h'.mem
  cases hm' : h.mem
  simp_all

/-- The role of any stall in the Tally. -/
def roleReg (f : Fld) (_ : Nat) : Prop := f = .tallyStallRole

/-- Shadow stalls are designated in their roles only. -/
theorem setShadows_frame (h : Hall) (p : Nat) (l : List Nat) : Frame h (h.setShadows p l) [] roleReg := by
  refine Frame.trans (Frame.foldl _ (fun g i => ?_) _ h) (Frame.foldl _ (fun g i => setF_frame _ _ _ _ _ _ rfl) l _)
  split
  · exact Frame.refl _ _ _
  · exact setF_frame _ _ _ _ _ _ rfl

theorem redesignate_frame (h : Hall) (p : Nat) : Frame h (h.redesignate p) [] roleReg := by
  unfold Hall.redesignate
  dsimp only
  split
  · exact setShadows_frame _ _ _
  · exact Frame.refl _ _ _

theorem stallRedesignate_frame (h : Hall) (i : Nat) : Frame h (h.stallRedesignate i) [] roleReg := by
  unfold Hall.stallRedesignate
  split
  · exact redesignate_frame _ _
  · exact Frame.refl _ _ _

/-! ### Retirement of a stall -/

/-- A frame without `data` keeps a stall. -/
theorem Frame.stall_eq {h h' : Hall} {parts : List Part} {may : Fld → Nat → Prop} (f : Frame h h' parts may) (hp : Part.data ∉ parts)
    (i : Nat) : h'.stall i = h.stall i := by
  have hd : h'.data = h.data := f.1 .data hp
  rw [Hall.stall, Hall.stall, hd]

/-- A retired stall holds no reservation and no test. -/
theorem retireStall_stall (h : Hall) (i : Nat) :
    ((h.retireStall i).stall i).spare = false ∧ ((h.retireStall i).stall i).test = none := by
  unfold Hall.retireStall
  extract_lets c h1 ks h2 h3 h4 h5
  have h4s : (h4.stall i).spare = false ∧ (h4.stall i).test = none := by simp [h4]
  clear_value h4
  have h5s : h5.stall i = h4.stall i := by
    unfold h5
    split
    · rfl
    · rfl
  rwa [(stallRedesignate_frame h5 i).stall_eq (by simp), h5s]

/-! ### Loss of a row -/

/-- No check awaits settlement. -/
def Hall.NoVotes (h : Hall) : Prop := ∀ n, (h.tally n).items = []

theorem noReferee_of_noVotes (h : Hall) (row : Nat) (hn : h.NoVotes) : h.noReferee row = h := by
  simp [Hall.noReferee, hn row]

/-- Any update of a Tally that leaves no item there leaves no votes. -/
theorem Hall.NoVotes.updTally {h : Hall} (hn : h.NoVotes) (r : Nat) (f : Tally → Tally) (hf : (f (h.tally r)).items = []) :
    (h.updTally r f).NoVotes := fun n => by
  by_cases he : n = r
  · subst he
    simpa [Hall.tally, Hall.updTally] using hf
  · simpa [Hall.tally, Hall.updTally, Tab.get_set_ne _ _ _ _ _ he] using hn n

theorem Hall.NoVotes.of_tallies {g h : Hall} (hn : h.NoVotes) (e : g.data.tallies = h.data.tallies) : g.NoVotes := fun n => by
  rw [Hall.tally, e]
  exact hn n

theorem updTally_frame (h : Hall) (r : Nat) (f : Tally → Tally) : Frame h (h.updTally r f) [.data] noReg :=
  frame_of_parts (fun p hp => by cases p <;> simp_all [Part.same]) rfl

/-- With no votes there is no work to send elsewhere. -/
theorem sendAgain_of_noVotes (h : Hall) (i : Nat) (hn : h.NoVotes) : (h.sendAgain i).NoVotes ∧ Frame h (h.sendAgain i) [.data] noReg := by
  refine List.foldlRecOn (motive := fun g : Hall => g.NoVotes ∧ Frame h g [.data] noReg) _ _ ⟨hn, Frame.refl _ _ _⟩ fun g hg row _ => ?_
  obtain ⟨hg, hf⟩ := hg
  have hu := hg.updTally row
  dsimp only
  rw [noReferee_of_noVotes _ _ (hu _ (by simp [hg row]))]
  exact ⟨hu _ (by simp [hg row]), hf.trans (updTally_frame _ _ _)⟩

/-- The loss of a row retires one of its stalls, unless that stall is retired already. -/
def Hall.rowStallLost (h : Hall) (i : Nat) : Hall :=
  if h.checks.retired.contains i then h
  else
    let h := (h.setF .tallyStallState i 2).sendAgain i
    let h := { h with checks := { h.checks with retired := i :: h.checks.retired } }
    let h := h.updStall i fun x => { x with spare := false, test := none }
    if (h.stall i).image.isNone then h.setF .tallyStallRole i 0 else h

/-- What the loss of a row makes of the module before capacity is brought into line. -/
def Hall.rowLost (h : Hall) (r : Nat) : Hall :=
  let h := { h with avail := { h.avail with lostRows := r :: h.avail.lostRows } }.urgent .rowFault r
  let h := (List.range 16).foldl (fun h s => h.rowStallLost (16 * r + s)) h
  let h := h.updTally r fun t => { t with items := [], repeats := [] }
  (((List.range 16).map fun s => h.stallPen (16 * r + s)).dedup.filter (· < 32)).foldl (fun h p => h.redesignate p) h

/-- One stall of a lost row: what it keeps, and what it makes of the stall. -/
theorem rowStallLost_spec (h : Hall) (i : Nat) (hn : h.NoVotes) :
    (h.rowStallLost i).NoVotes ∧ Frame h (h.rowStallLost i) [.data, .checks] (orReg roleReg fun f u => f = .tallyStallState ∧ u = i) ∧
      (∀ u, u ∈ (h.rowStallLost i).checks.retired ↔ u = i ∨ u ∈ h.checks.retired) ∧
      (h.rowStallLost i).getF .tallyStallState i = if i ∈ h.checks.retired then h.getF .tallyStallState i else 2 := by
  by_cases hi : i ∈ h.checks.retired
  · have he : h.rowStallLost i = h := by simp [Hall.rowStallLost, hi]
    rw [he, if_pos hi]
    exact ⟨hn, Frame.refl _ _ _, fun u => ⟨.inr, fun hu => hu.elim (fun e => e ▸ hi) id⟩, rfl⟩
  · obtain ⟨hv, hf⟩ := sendAgain_of_noVotes (h.setF .tallyStallState i 2) i hn
    have hd : Frame h ((h.setF .tallyStallState i 2).sendAgain i) [.data] fun f u => f = .tallyStallState ∧ u = i :=
      (setF_frame _ _ _ _ _ _ ⟨rfl, rfl⟩).trans (hf.mono (fun _ => id) fun _ _ => False.elim)
    have hc : ((h.setF .tallyStallState i 2).sendAgain i).checks = h.checks := hd.1 .checks (by simp)
    have hst : ((h.setF .tallyStallState i 2).sendAgain i).getF .tallyStallState i = 2 := by
      rw [hf.2 _ _ id, getF_setF_same]
      decide
    unfold Hall.rowStallLost
    rw [if_neg (by simpa using hi), if_neg hi]
    generalize (h.setF .tallyStallState i 2).sendAgain i = g at hv hd hc hst
    extract_lets g0 c g1 g2
    have hlast : Frame g2 (if (g2.stall i).image.isNone then g2.setF .tallyStallRole i 0 else g2) [] roleReg := by
      split
      · exact setF_frame _ _ _ _ _ _ rfl
      · exact Frame.refl _ _ _
    generalize (if (g2.stall i).image.isNone then g2.setF .tallyStallRole i 0 else g2) = g3 at hlast
    have hdata : g3.data = g2.data := hlast.1 .data (by simp)
    have hchecks : g3.checks = { g.checks with retired := i :: h.checks.retired } := (hlast.1 .checks (by simp)).trans (by rw [← hc]; rfl)
    refine ⟨hv.of_tallies (by rw [hdata]; rfl), ?_, fun u => by rw [hchecks]; exact List.mem_cons, ?_⟩
    · have h12 : Frame g g2 [.data, .checks] noReg := frame_of_parts (fun p hp => by cases p <;> simp_all [Part.same, g2, g1, g0]) rfl
      refine ((hd.mono (by simp) fun _ _ => .inr).trans (h12.mono (fun _ => id) fun _ _ => False.elim)).trans ?_
      exact hlast.mono (by simp) fun _ _ => .inl
    · exact (hlast.2 _ _ (by simp [roleReg])).trans hst

/-- Stalls of a lost row, one after the other. -/
theorem rowStallsLost_spec (l : List Nat) (h : Hall) (hn : h.NoVotes) :
    (l.foldl Hall.rowStallLost h).NoVotes ∧
      Frame h (l.foldl Hall.rowStallLost h) [.data, .checks] (orReg roleReg fun f _ => f = .tallyStallState) ∧
      (∀ u, u ∈ (l.foldl Hall.rowStallLost h).checks.retired ↔ u ∈ l ∨ u ∈ h.checks.retired) ∧
      (∀ u ∈ h.checks.retired, (l.foldl Hall.rowStallLost h).getF .tallyStallState u = h.getF .tallyStallState u) ∧
      ∀ u ∈ l, u ∉ h.checks.retired → (l.foldl Hall.rowStallLost h).getF .tallyStallState u = 2 := by
  induction l generalizing h with
  | nil => exact ⟨hn, Frame.refl _ _ _, by simp, fun _ _ => rfl, by simp⟩
  | cons i l ih =>
    obtain ⟨hn1, hf1, hr1, hs1⟩ := rowStallLost_spec h i hn
    obtain ⟨hn', hf', hr', hkeep, hset⟩ := ih _ hn1
    have hother : ∀ u, u ≠ i → (h.rowStallLost i).getF .tallyStallState u = h.getF .tallyStallState u := fun u hu =>
      hf1.2 _ _ (by simp [orReg, roleReg, hu])
    refine ⟨hn', (hf1.mono (fun _ => id) ?_).trans hf', fun u => ?_, fun u hu => ?_, fun u hu hno => ?_⟩
    · rintro f u (hf | ⟨hf, -⟩)
      · exact .inl hf
      · exact .inr hf
    · rw [List.foldl_cons, hr', hr1, List.mem_cons]
      tauto
    · rw [List.foldl_cons, hkeep u ((hr1 u).2 (.inr hu))]
      by_cases he : u = i
      · rw [he, hs1, if_pos (he ▸ hu)]
      · exact hother u he
    · rw [List.foldl_cons]
      by_cases he : u = i
      · rw [hkeep u ((hr1 u).2 (.inl he)), he, hs1, if_neg (he ▸ hno)]
      · exact hset u ((List.mem_cons.1 hu).resolve_left he) fun hm => ((hr1 u).1 hm).elim he hno

/-- What the loss of a row with no votes makes of the module before capacity is brought into line. -/
theorem rowLost_spec (h : Hall) (r : Nat) (hn : h.NoVotes) :
    r ∈ (h.rowLost r).avail.lostRows ∧ (∀ x < 16, 16 * r + x ∈ (h.rowLost r).checks.retired) ∧
      (∀ x < 16, 16 * r + x ∉ h.checks.retired → (h.rowLost r).getF .tallyStallState (16 * r + x) = 2) ∧
      (h.rowLost r).mem = h.mem := by
  unfold Hall.rowLost
  extract_lets av g1 g2 g3
  have h2 : g2 = ((List.range 16).map fun s => 16 * r + s).foldl Hall.rowStallLost g1 := List.foldl_map.symm
  obtain ⟨-, hf, hret, -, hset⟩ := rowStallsLost_spec ((List.range 16).map fun s => 16 * r + s) g1 (hn.of_tallies rfl)
  rw [← h2] at hf hret hset
  have hrest : Frame g2 ((((List.range 16).map fun s => g3.stallPen (16 * r + s)).dedup.filter (· < 32)).foldl
      (fun h p => h.redesignate p) g3) [.data] roleReg :=
    ((updTally_frame _ _ _).mono (fun _ => id) fun _ _ => False.elim).trans
      (Frame.foldl _ (fun g p => (redesignate_frame g p).mono (by simp) fun _ _ => id) _ _)
  generalize (((List.range 16).map fun s => g3.stallPen (16 * r + s)).dedup.filter (· < 32)).foldl (fun h p => h.redesignate p) g3 = g4
    at hrest
  have hmem (x : Nat) (hx : x < 16) : 16 * r + x ∈ (List.range 16).map fun s => 16 * r + s :=
    List.mem_map.2 ⟨x, List.mem_range.2 hx, rfl⟩
  have havail : g4.avail = g1.avail := (hrest.1 .avail (by simp)).trans (hf.1 .avail (by simp))
  have hchecks : g4.checks = g2.checks := hrest.1 .checks (by simp)
  refine ⟨?_, fun x hx => ?_, fun x hx hno => ?_, ?_⟩
  · rw [havail]
    exact List.mem_cons_self
  · rw [hchecks, hret]
    exact .inl (hmem x hx)
  · rw [hrest.2 _ _ (by simp [roleReg])]
    exact hset _ (hmem x hx) hno
  · exact (hrest.mem_eq (by simp)).trans (hf.mem_eq (by simp))

theorem rowLost_becomes (s : State) (r : Fin 8) (hr : r.val ∉ s.hall.avail.lostRows) :
    Becomes (.rowLost r) s (s.hall.rowLost r).shedCapacity := by
  have hb : Becomes (.rowLost r) s (if s.hall.avail.lostRows.contains r.val then s.hall else (s.hall.rowLost r).shedCapacity) := rfl
  rwa [if_neg (by simpa using hr)] at hb

/-! ### Stuck units, links, signals and hubs -/

theorem unitStuck_becomes (s : State) (r : Fin 8) (x : Fin 16) (hd : s.hall.domState (16 * r.val + x.val) = 2)
    (hr : s.hall.stallRetired (16 * r.val + x.val) = false) :
    Becomes (.unitStuck r x) s (((s.hall.updStall (16 * r.val + x.val) fun y => { y with stuck := true }).setF .tallyStallState
      (16 * r.val + x.val) 2).urgent .unitStuck (16 * r.val + x.val)) := by
  change execUnitStuck r x s = _
  simp [execUnitStuck, run_next, hd, hr]

theorem rowLinkLost_becomes (s : State) (r : Fin 8) (hub : Hub)
    (hl : s.hall.avail.lostLinks.contains (2 * r.val + hubNum hub) = false) :
    Becomes (.rowLinkLost r hub) s (Hall.urgent { s.hall with avail := { s.hall.avail with
      lostLinks := (2 * r.val + hubNum hub) :: s.hall.avail.lostLinks } } .linkLoss (2 * r.val + hubNum hub)) := by
  change execRowLinkLost r hub s = _
  simp only [execRowLinkLost, run_next, hl]
  rfl

/-- A port whose signal is lost is noted, with an urgent record. -/
def Hall.signalLost (h : Hall) (p : Nat) : Hall :=
  Hall.urgent { h with avail := { h.avail with
    lostPorts := if h.avail.lostPorts.contains p then h.avail.lostPorts else p :: h.avail.lostPorts } } .lossOfSignal p

theorem lossOfSignal_becomes (s : State) (p : Nat) (hp : p ≤ 13) :
    Becomes (.lossOfSignal p) s (if p < 8 then (s.hall.signalLost p).setF .treeStatusLock p 0 else s.hall.signalLost p) := by
  change execLossOfSignal p s = _
  simp only [execLossOfSignal, run_next, Nat.not_lt.2 hp, if_false]
  rfl

theorem signalLost_noted (h : Hall) (p : Nat) : (h.signalLost p).avail.lostPorts.contains p = true := by
  change (if h.avail.lostPorts.contains p then h.avail.lostPorts else p :: h.avail.lostPorts).contains p = true
  split
  · assumption
  · simp

theorem signalLost_frame (h : Hall) (p : Nat) (may : Fld → Nat → Prop) : Frame h (h.signalLost p) [.avail, .junctions] may :=
  (avail_frame _ _ _ _ (by simp)).trans (urgent_frame _ _ _ _ _ _ (by simp))

theorem stallRetire_becomes (s : State) (r : Fin 8) (x : Fin 16) (hr : s.hall.stallRetired (16 * r.val + x.val) = true)
    (hno : 16 * r.val + x.val ∉ s.hall.checks.retired) (hg : s.hall.governing.isSome = true) :
    Becomes (.stallRetire r x) s
      ((s.hall.retireStall (16 * r.val + x.val)).replaceStall (16 * r.val + x.val)).shedCapacity := by
  change execStallRetire r x s = _
  simp [execStallRetire, run_next, hr, hno, hg]

/-- Bytes of a range that is zeroed are listed no longer. -/
theorem zero_unlisted (h : Hall) (a n b : Nat) (ha : a ≤ b) (hb : b < a + n) : ∀ e ∈ (h.zero a n).mem.ram, e.1 ≠ b := by
  intro e he
  simp only [Hall.zero, Mem.clear, List.mem_filter, Bool.or_eq_true, decide_eq_true_eq] at he
  omega

theorem updPool_pool (h : Hall) (hub : Hub) (f : Pool → Pool) : (h.updPool hub f).pool hub = f (h.pool hub) := by
  cases hub <;> rfl

/-- A hub is lost: what leads up to its half of T1 and its pool being given up, then that, then the rest. -/
theorem hubLost_becomes (s : State) (hub : Hub) (hl : s.hall.hubLost hub = false) :
    ∃ g : Hall, Becomes (.hubLost hub) s
      (((((g.updPool hub fun _ => {}).zero (hubNum hub * 0x002000000000) 0x001E00000000).shedCapacity.livePens.foldl
        (fun h p => h.framesAgain p) ((g.updPool hub fun _ => {}).zero (hubNum hub * 0x002000000000) 0x001E00000000).shedCapacity)).streamsAgain
          hub) := by
  have hb : Becomes (.hubLost hub) s (if s.hall.hubLost hub then s.hall else _) := rfl
  rw [if_neg (by simp [hl])] at hb
  exact ⟨_, hb⟩

/-- Settles O35. -/
theorem unitsLost : Obligations.UnitsLost := by
  refine ⟨fun s r x hd hr => ?_, fun s r hub hl => ?_, fun s p hp => ?_, fun s r x hr hno hg => ?_, fun s r hr hn => ?_, fun s hub hl => ?_⟩
  · refine ⟨_, unitStuck_becomes s r x hd hr, ?_, ?_, rfl, rfl, ?_⟩
    · have hrest (h : Hall) (i : Nat) : Frame h ((h.setF .tallyStallState i 2).urgent .unitStuck i) [.junctions] fun _ _ => True :=
        (setF_frame _ _ _ _ _ _ trivial).trans (urgent_frame _ _ _ _ _ _ (by simp))
      rw [(hrest _ _).stall_eq (by simp), updStall_stall_same]
    · rw [urgent_getF, getF_setF_same]
      decide
    · exact ((updStall_frame _ _ _ _ _ (by simp)).trans (setF_frame _ _ _ _ _ _ ⟨rfl, by simp⟩)).trans (urgent_frame _ _ _ _ _ _ (by simp))
  · exact ⟨_, rowLinkLost_becomes s r hub hl, rfl, rfl, (avail_frame _ _ _ _ (by simp)).trans (urgent_frame _ _ _ _ _ _ (by simp))⟩
  · refine ⟨_, lossOfSignal_becomes s p hp, ?_⟩
    by_cases h8 : p < 8
    · rw [if_pos h8]
      exact ⟨signalLost_noted _ _, fun _ => by simp, rfl, (signalLost_frame _ _ _).trans (setF_frame _ _ _ _ _ _ ⟨h8, rfl, rfl⟩)⟩
    · rw [if_neg h8]
      exact ⟨signalLost_noted _ _, fun h => absurd h h8, rfl, signalLost_frame _ _ _⟩
  · exact ⟨_, stallRetire_becomes s r x hr hno hg, retireStall_stall _ _⟩
  · exact ⟨_, rowLost_becomes s r hr, rowLost_spec _ _ hn⟩
  · obtain ⟨g, hb⟩ := hubLost_becomes s hub hl
    refine ⟨_, hb, updPool_pool _ _ _, fun a ha hb => zero_unlisted _ _ _ _ ha hb⟩

end Sys2Proof.Machine
end

section
/-! PROOFS. Settles O34: heartbeats, lost processors and the live handover (R32, R33, R451, R452, R464, R465, Table 19.5). -/

namespace Sys2Proof.Machine

/-! ### What the pieces keep -/

@[simp] theorem otherHub_ne (g : Hub) : otherHub g ≠ g := by cases g <;> decide

@[simp] theorem mp_updMp_same (h : Hall) (x : Hub) (f : Mp → Mp) : (h.updMp x f).mp x = f (h.mp x) := by
  cases x <;> rfl

theorem mp_updMp_ne (h : Hall) (x y : Hub) (f : Mp → Mp) (hne : y ≠ x) : (h.updMp x f).mp y = h.mp y := by
  match x, y with
  | .a, .b => rfl
  | .b, .a => rfl
  | .a, .a => exact absurd rfl hne
  | .b, .b => exact absurd rfl hne

@[simp] theorem updMp_trust (h : Hall) (x : Hub) (f : Mp → Mp) : (h.updMp x f).trust = h.trust := by
  cases x <;> rfl

theorem updMp_frame (h : Hall) (x : Hub) (f : Mp → Mp) (parts : List Part) (may : Fld → Nat → Prop) (hp : Part.avail ∈ parts) :
    Frame h (h.updMp x f) parts may := by
  cases x <;> exact frame_of_parts (fun p hn => by cases p <;> simp_all [Part.same, Hall.updMp]) rfl

theorem ordinary_frame (h : Hall) (k : RecKind) (u i : Nat) (parts : List Part) (may : Fld → Nat → Prop) (hp : Part.junctions ∈ parts) :
    Frame h (h.ordinary k u i) parts may :=
  frame_of_parts (fun p hn => by cases p <;> simp_all [Part.same]) rfl

/-- A frame that leaves GOVERNING alone keeps the governing hub. -/
theorem Frame.governing_eq {h h' : Hall} {parts : List Part} {may : Fld → Nat → Prop} (f : Frame h h' parts may)
    (hm : ∀ u, ¬ may .hubIdentGoverning u) : h'.governing = h.governing := by
  have h0 := f.2 _ _ (hm 0)
  have h1 := f.2 _ _ (hm 1)
  unfold Hall.governing Hall.flag
  rw [h0, h1]

/-- A frame without `avail` keeps the MPs. -/
theorem Frame.mp_eq {h h' : Hall} {parts : List Part} {may : Fld → Nat → Prop} (f : Frame h h' parts may) (hp : Part.avail ∉ parts)
    (x : Hub) : h'.mp x = h.mp x := by
  have ha : h'.avail = h.avail := f.1 .avail hp
  cases x <;> simp only [Hall.mp, ha]

/-- FW_BUILD of either hub. -/
def fwBuildReg (f : Fld) (u : Nat) : Prop := f = .hubIdentFwBuild ∧ u < 2

theorem showFw_frame (h : Hall) : Frame h h.showFw [] fwBuildReg :=
  (setF_frame _ _ _ _ _ _ ⟨rfl, by decide⟩).trans (setF_frame _ _ _ _ _ _ ⟨rfl, by decide⟩)

/-- The end of a handover: no handover is in force, the MPs are as they were, and otherwise an event is posted. -/
theorem handoverEnd_spec (h : Hall) (status : Nat) :
    (h.handoverEnd status).avail = { h.avail with handover := none } ∧
      Frame h (h.handoverEnd status) (.avail :: postParts) postReg := by
  unfold Hall.handoverEnd
  split
  case h_1 o ho =>
    have hc := closeOp_frame { h with avail := { h.avail with handover := none } } o.op status []
    exact ⟨hc.1 .avail (by simp [postParts]), (avail_frame _ _ _ _ (by simp)).trans (hc.mono (by simp +contextual) fun _ _ => id)⟩
  case h_2 hn =>
    have ha : h.avail = { h.avail with handover := none } := by
      generalize h.avail = a at hn
      cases a
      simp_all
    exact ⟨ha, Frame.refl _ _ _⟩

theorem mp_of_avail {h h' : Hall} {o : Option Handover} (ha : h'.avail = { h.avail with handover := o }) (x : Hub) : h'.mp x = h.mp x := by
  cases x <;> simp only [Hall.mp, ha]

theorem postReg_governing (u : Nat) : ¬ postReg .hubIdentGoverning u := by simp [postReg]

/-- The standby is gone: what comes of a handover touches no MP. -/
theorem standbyLost_spec (h : Hall) : (∀ x, h.standbyLost.mp x = h.mp x) ∧ Frame h h.standbyLost (.avail :: postParts) postReg := by
  have hend (st : Nat) := handoverEnd_spec h st
  unfold Hall.standbyLost
  split
  · exact ⟨mp_of_avail (hend _).1, (hend _).2⟩
  · exact ⟨mp_of_avail (hend _).1, (hend _).2⟩
  · exact ⟨fun _ => rfl, Frame.refl _ _ _⟩

/-- The governing MP is gone and the other is not ready: none governs, and the MPs are as they were. -/
theorem govLost_alone (h : Hall) (g : Hub) (ho : (h.mp (otherHub g)).state ≠ .ready) :
    (h.govLost g).governing = none ∧ ∀ x, (h.govLost g).mp x = h.mp x := by
  unfold Hall.govLost
  extract_lets c h1 h2 h3 x
  have h2mp : ∀ y, h2.mp y = h.mp y := fun y => by
    unfold h2
    split
    · cases y <;> rfl
    · exact (mp_of_avail (handoverEnd_spec h1 _).1 y).trans (by cases y <;> rfl)
  have h3mp : ∀ y, h3.mp y = h.mp y := fun y => by
    refine Eq.trans ?_ (h2mp y)
    cases y <;> rfl
  rw [if_neg fun hr => ho (by rw [← h3mp]; exact hr.1)]
  exact ⟨by simp [h3, Hall.governing, Hall.flag, getF_setF_unit], h3mp⟩

/-- The MP that restarts is the one that is starting on a live hub. -/
theorem find_starting (h : Hall) (g : Hub) (hg : (h.mp g).state = .ready) (ho : (h.mp (otherHub g)).state = .starting)
    (hl : h.hubLost (otherHub g) = false) :
    ([Hub.a, Hub.b].find? fun x => decide ((h.mp x).state = .starting) && !h.hubLost x) = some (otherHub g) := by
  cases g <;> simp_all [otherHub]

/-! ### The commands -/

/-- One more heartbeat of a hub's MP. -/
def beatOf (b : Nat × Nat) : Hub → Nat × Nat
  | .a => (b.1 + 1, b.2)
  | .b => (b.1, b.2 + 1)

theorem mpHeartbeat_becomes (s : State) (x : Hub) (hr : (s.hall.mp x).state = .ready) (hl : s.hall.hubLost x = false) :
    Becomes (.mpHeartbeat x) s { s.hall with avail := { s.hall.avail with beats := beatOf s.hall.avail.beats x } } := by
  change execMpHeartbeat x s = _
  cases x <;> simp [execMpHeartbeat, run_next, hr, hl, beatOf]

/-- The MP of a hub has failed: ROM recovery, and a record. -/
def Hall.mpFailed (h : Hall) (x : Hub) : Hall := (h.updMp x fun m => { m with state := .romRecovery }).ordinary .mpLost (hubNum x)

theorem mpFailed_frame (h : Hall) (x : Hub) : Frame h (h.mpFailed x) [.avail, .junctions] noReg :=
  (updMp_frame _ _ _ _ _ (by simp)).trans (ordinary_frame _ _ _ _ _ _ (by simp))

theorem mpFailed_state (h : Hall) (x : Hub) : ((h.mpFailed x).mp x).state = .romRecovery := by
  cases x <;> rfl

theorem mpFailed_other (h : Hall) (x y : Hub) (hne : y ≠ x) : (h.mpFailed x).mp y = h.mp y :=
  (by cases y <;> rfl : (h.mpFailed x).mp y = (h.updMp x fun m => { m with state := .romRecovery }).mp y).trans (mp_updMp_ne h x y _ hne)

theorem mpLost_becomes (s : State) (g : Hub) (hg : s.hall.governing = some g) : Becomes .mpLost s ((s.hall.mpFailed g).govLost g) := by
  change execMpLost s = _
  simp only [execMpLost, run_next, hg]
  rfl

theorem standbyMpLost_becomes (s : State) (g : Hub) (hg : s.hall.governing = some g) (hl : s.hall.hubLost (otherHub g) = false)
    (hr : (s.hall.mp (otherHub g)).state ≠ .romRecovery) : Becomes .standbyMpLost s (s.hall.mpFailed (otherHub g)).standbyLost := by
  change execStandbyMpLost s = _
  simp only [execStandbyMpLost, run_next, hg, hl, hr]
  rfl

/-- A restarting MP is ready and its firmware shown. -/
def Hall.mpReady (h : Hall) (x : Hub) : Hall := (h.updMp x fun m => { m with state := .ready }).showFw

theorem mpReady_eq (h : Hall) (x : Hub) : (h.updMp x fun m => { m with state := .ready }).showFw = h.mpReady x := rfl

theorem mpReady_handover (h : Hall) (x : Hub) : (h.mpReady x).avail.handover = h.avail.handover := by
  cases x <;> rfl

theorem mpReady_frame (h : Hall) (x : Hub) : Frame h (h.mpReady x) [.avail] fwBuildReg :=
  (updMp_frame _ _ _ _ _ (by simp)).trans ((showFw_frame _).mono (by simp) fun _ _ => id)

theorem mpReady_state (h : Hall) (x : Hub) : ((h.mpReady x).mp x).state = .ready := by
  rw [Hall.mpReady, (showFw_frame _).mp_eq (by simp), mp_updMp_same]

theorem fwBuildReg_governing (u : Nat) : ¬ fwBuildReg .hubIdentGoverning u := by simp [fwBuildReg]

theorem standbyReady_becomes (s : State) (g : Hub) (o : Handover) (hgov : s.hall.governing = some g)
    (ho : s.hall.avail.handover = some o) (hp : o.phase = .standbyRestarting) (hg : (s.hall.mp g).state = .ready)
    (hs : (s.hall.mp (otherHub g)).state = .starting) (hl : s.hall.hubLost (otherHub g) = false) :
    Becomes .handoverStandbyReady s { s.hall.mpReady (otherHub g) with
      avail := { (s.hall.mpReady (otherHub g)).avail with handover := some { o with phase := .standbyReady } } } := by
  have hgv : (s.hall.mpReady (otherHub g)).governing = some g := (mpReady_frame _ _).governing_eq fwBuildReg_governing |>.trans hgov
  change execHandoverStandbyReady s = _
  simp [execHandoverStandbyReady, run_next, find_starting _ _ hg hs hl, Hall.handoverPhase, ho, hp, mpReady_eq, hgv, mpReady_handover]

theorem standbyFailed_becomes (s : State) (g : Hub) (o : Handover) (hgov : s.hall.governing = some g)
    (ho : s.hall.avail.handover = some o) (hp : o.phase = .standbyRestarting) :
    Becomes .handoverStandbyFailed s
      ((s.hall.updMp (otherHub g) fun _ => { state := .ready, slot := s.hall.trust.active }).showFw.handoverEnd stHandoverFailed) := by
  change execHandoverStandbyFailed s = _
  simp [execHandoverStandbyFailed, run_next, hgov, Hall.handoverPhase, ho, hp]

/-- What the former governing MP's hub becomes as the role moves: restarting from the slot that is then active. -/
def Hall.roleLeaves (h : Hall) (g : Hub) (o : Handover) : Hall :=
  let h := if o.update then { h with trust := { h.trust with active := (h.mp (otherHub g)).slot } } else h
  h.updMp g fun _ => { state := .starting, slot := h.trust.active }

theorem roleMove_becomes (s : State) (g : Hub) (o : Handover) (hgov : s.hall.governing = some g)
    (ho : s.hall.avail.handover = some o) (hp : o.phase = .standbyReady) :
    Becomes .handoverRoleMove s { (s.hall.roleLeaves g o).govern (otherHub g) with
      avail := { ((s.hall.roleLeaves g o).govern (otherHub g)).avail with handover := some { o with phase := .roleMoved } } } := by
  change execHandoverRoleMove s = _
  unfold execHandoverRoleMove
  rw [run_next]
  simp only [hgov, ho]
  rw [if_neg (by simp [hp])]
  unfold Hall.roleLeaves
  dsimp only

/-- A command that ends by noting a handover phase over what stands. -/
theorem gives_handover {e : Instr} {s : State} {k : Hall} {o : Option Handover}
    (hb : Becomes e s { k with avail := { k.avail with handover := o } }) :
    Gives e s fun h' => h'.avail.handover = o ∧ h'.data = k.data := ⟨_, hb, rfl, rfl⟩

theorem roleLeaves_spec (h : Hall) (g : Hub) (o : Handover) :
    ((h.roleLeaves g o).mp g).state = .starting ∧
      (h.roleLeaves g o).trust.active = (if o.update then (h.mp (otherHub g)).slot else h.trust.active) ∧
      Frame h (h.roleLeaves g o) [.avail, .trust] noReg := by
  unfold Hall.roleLeaves
  extract_lets t h1
  have h1f : Frame h h1 [.avail, .trust] noReg := by
    unfold h1
    split
    · exact frame_of_parts (fun p hp => by cases p <;> simp_all [Part.same]) rfl
    · exact Frame.refl _ _ _
  have h1a : h1.trust.active = if o.update then (h.mp (otherHub g)).slot else h.trust.active := by
    unfold h1
    split <;> rfl
  refine ⟨by rw [mp_updMp_same], ?_, h1f.trans (updMp_frame _ _ _ _ _ (by simp))⟩
  rw [updMp_trust, h1a]

/-- The former governing MP is standby: the handover ends, and an event tells. -/
def Hall.formerReady (h : Hall) (x : Hub) : Hall :=
  let h := h.mpReady x
  (h.handoverEnd stOK).post 255 true { typ := 0x0D01, detail := leBytes 1 (hubNum h.govHub) ++ leBytes 2 (h.fwBuildOf h.govHub) }

theorem formerReady_becomes (s : State) (g : Hub) (o : Handover) (hgov : s.hall.governing = some g)
    (ho : s.hall.avail.handover = some o) (hp : o.phase = .roleMoved) (hg : (s.hall.mp g).state = .ready)
    (hs : (s.hall.mp (otherHub g)).state = .starting) (hl : s.hall.hubLost (otherHub g) = false) :
    Becomes .handoverFormerReady s (s.hall.formerReady (otherHub g)) := by
  have hgv : (s.hall.mpReady (otherHub g)).governing = some g := (mpReady_frame _ _).governing_eq fwBuildReg_governing |>.trans hgov
  change execHandoverFormerReady s = _
  simp [execHandoverFormerReady, run_next, find_starting _ _ hg hs hl, Hall.handoverPhase, ho, hp, mpReady_eq, hgv, Hall.formerReady]

theorem formerReady_spec (h : Hall) (x : Hub) :
    ((h.formerReady x).mp x).state = .ready ∧ (h.formerReady x).avail.handover = none ∧ (h.formerReady x).governing = h.governing := by
  obtain ⟨ha, hf⟩ := handoverEnd_spec (h.mpReady x) stOK
  have hpost := post_frame ((h.mpReady x).handoverEnd stOK) 255 true
    { typ := 0x0D01, detail := leBytes 1 (hubNum (h.mpReady x).govHub) ++ leBytes 2 ((h.mpReady x).fwBuildOf (h.mpReady x).govHub) }
  have havail : (h.formerReady x).avail = { (h.mpReady x).avail with handover := none } :=
    (hpost.1 .avail (by simp [postParts])).trans ha
  refine ⟨?_, by rw [havail], ?_⟩
  · rw [mp_of_avail havail, mpReady_state]
  · exact (hpost.governing_eq postReg_governing).trans ((hf.governing_eq postReg_governing).trans
      ((mpReady_frame _ _).governing_eq fwBuildReg_governing))

/-- FW_HANDOVER has been accepted: an operation is open, and the standby restarts from a slot. -/
def Hall.handoverBegun (h : Hall) (c : TillCmd) (x : Hub) (slot : Nat) (update : Bool) : Hall :=
  let k := (h.openOp c.till c.pen c.secure).1
  let h := (h.openOp c.till c.pen c.secure).2.updMp x fun _ => { state := .starting, slot := slot }
  { h with avail := { h.avail with handover := some { op := k, update := update, phase := .standbyRestarting } } }

theorem handoverBegun_frame (h : Hall) (c : TillCmd) (x : Hub) (slot : Nat) (update : Bool) :
    Frame h (h.handoverBegun c x slot update) [.avail, .cmd] noReg :=
  (((openOp_frame h c.till c.pen c.secure).mono (by simp) fun _ _ => id).trans (updMp_frame _ _ _ _ _ (by simp))).trans
    (avail_frame _ _ _ _ (by simp))

theorem handoverBegun_mp (h : Hall) (c : TillCmd) (x : Hub) (slot : Nat) (update : Bool) :
    (h.handoverBegun c x slot update).mp x = { state := .starting, slot := slot } ∧
      ∀ y, y ≠ x → (h.handoverBegun c x slot update).mp y = h.mp y := by
  have hm : ∀ y, (h.handoverBegun c x slot update).mp y =
      ((h.openOp c.till c.pen c.secure).2.updMp x fun _ => { state := .starting, slot := slot }).mp y := mp_of_avail rfl
  refine ⟨by rw [hm, mp_updMp_same], fun y hy => ?_⟩
  rw [hm, mp_updMp_ne _ _ _ _ hy, (openOp_frame _ _ _ _).mp_eq (by simp)]

theorem fwHandover_answers (s : State) (t : Fin 128) (g : Hub) (hgov : s.hall.governing = some g)
    (hr : s.hall.tillReady t 0x0D02 false false = true) (hlen : (s.hall.tillCmd t).length = 1)
    (harg : leAt (s.hall.tillPayload t) 0 1 = 0) (hno : s.hall.avail.handover = none) (hl : s.hall.hubLost (otherHub g) = false)
    (hfw : (s.hall.fwSlot s.hall.trust.active).isSome = true) :
    Answers (.fwHandover t) s t stAccepted (leBytes 4 s.hall.cmd.nextHandle)
      (s.hall.handoverBegun (s.hall.tillCmd t) (otherHub g) s.hall.trust.active false) := by
  have hgh : s.hall.govHub = g := by rw [Hall.govHub, hgov]; rfl
  have hop := openOp_frame s.hall (s.hall.tillCmd t).till (s.hall.tillCmd t).pen (s.hall.tillCmd t).secure
  have hl' : (s.hall.openOp (s.hall.tillCmd t).till (s.hall.tillCmd t).pen (s.hall.tillCmd t).secure).2.hubLost (otherHub g) = false := hl
  have hfw' : (s.hall.openOp (s.hall.tillCmd t).till (s.hall.tillCmd t).pen (s.hall.tillCmd t).secure).2.fwSlot
      s.hall.trust.active ≠ none := Option.isSome_iff_ne_none.1 hfw
  have harg' : (s.hall.tillCmd t).arg 0 1 = 0 := harg
  refine (till_ready s t 0x0D02 never _ hr).trans ?_
  simp [hgh, harg', hlen, hno, acceptOp, hl', hfw', Hall.handoverBegun]
  rfl

/-- Settles O34. -/
theorem processorFailures : Obligations.ProcessorFailures := by
  refine ⟨fun s x hr hl => ⟨_, mpHeartbeat_becomes s x hr hl, ?_, avail_frame _ _ _ _ (by simp)⟩, fun s g hg =>
    ⟨⟨_, mpLost_becomes s g hg, mpFailed_state _ _, mpFailed_other _ _ _ (otherHub_ne g), mpFailed_frame _ _⟩, fun ho => ?_,
      fun hl hr => ?_, fun o ho hp hgr hs hl => ⟨?_, ?_⟩, fun o ho hp => ?_, fun o ho hp hgr hs hl => ?_,
      fun t hr hlen harg hno hl hfw => ?_⟩⟩
  · cases x <;> rfl
  · have ho' : ((s.hall.mpFailed g).mp (otherHub g)).state ≠ .ready := by rwa [mpFailed_other _ _ _ (otherHub_ne g)]
    obtain ⟨hgov, hmp⟩ := govLost_alone _ g ho'
    exact ⟨_, mpLost_becomes s g hg, by rw [hmp, mpFailed_state], hgov⟩
  · obtain ⟨hmp, hf⟩ := standbyLost_spec (s.hall.mpFailed (otherHub g))
    have hfail := mpFailed_frame s.hall (otherHub g)
    refine ⟨_, standbyMpLost_becomes s g hg hl hr, by rw [hmp, mpFailed_state], ?_, ?_, ?_⟩
    · rw [hmp, mpFailed_other _ _ _ (otherHub_ne g).symm]
    · exact (hf.governing_eq postReg_governing).trans ((hfail.governing_eq fun _ => id).trans hg)
    · exact (hfail.mono (by simp) fun _ _ => False.elim).trans (hf.mono (by simp +contextual) fun _ _ => id)
  · have hf := (mpReady_frame s.hall (otherHub g)).trans (avail_frame _ { (s.hall.mpReady (otherHub g)).avail with
      handover := some { o with phase := .standbyReady } } [.avail] fwBuildReg (by simp))
    refine ⟨_, standbyReady_becomes s g o hg ho hp hgr hs hl, ?_, (hf.governing_eq fwBuildReg_governing).trans hg, rfl, hf⟩
    exact (congrArg Mp.state (mp_of_avail (h := s.hall.mpReady (otherHub g)) rfl _)).trans (mpReady_state _ _)
  · obtain ⟨ha, hf⟩ := handoverEnd_spec (s.hall.updMp (otherHub g) fun _ => { state := .ready, slot := s.hall.trust.active }).showFw
      stHandoverFailed
    have hu := updMp_frame s.hall (otherHub g) (fun _ => { state := .ready, slot := s.hall.trust.active }) [.avail] fwBuildReg (by simp)
    have hshow := hu.trans ((showFw_frame _).mono (by simp) fun _ _ => id)
    refine ⟨_, standbyFailed_becomes s g o hg ho hp, ?_, by rw [ha], ?_, ?_⟩
    · rw [mp_of_avail ha, (showFw_frame _).mp_eq (by simp), mp_updMp_same]
    · exact (hf.governing_eq postReg_governing).trans ((hshow.governing_eq fwBuildReg_governing).trans hg)
    · exact (hf.1 .trust (by simp [postParts])).trans (hshow.1 .trust (by simp))
  · exact ⟨_, gives_handover (roleMove_becomes s g o hg ho hp), roleLeaves_spec _ _ _⟩
  · obtain ⟨hst, hno, hgov⟩ := formerReady_spec s.hall (otherHub g)
    exact ⟨_, formerReady_becomes s g o hg ho hp hgr hs hl, hst, hno, hgov.trans hg⟩
  · obtain ⟨hx, hother⟩ := handoverBegun_mp s.hall (s.hall.tillCmd t) (otherHub g) s.hall.trust.active false
    exact ⟨_, fwHandover_answers s t g hg hr hlen harg hno hl hfw, hx, hother g (otherHub_ne g).symm, rfl, handoverBegun_frame _ _ _ _ _⟩

end Sys2Proof.Machine
end

section
/-! PROOFS. Refutes O24: start-up without firmware that runs leaves GOVERNING as it stands (R431, R491, Table 20.6). -/

namespace Sys2Proof.Machine

/-! ### Start-up with no firmware that runs -/

theorem powerUp_trust (l : List Nat) (h : Hall) : (h.powerUp l).trust = h.trust := by
  induction l generalizing h with
  | nil => rfl
  | cons d l ih => exact ih (h.setDom d 2)

theorem getF_powerUp (l : List Nat) (h : Hall) {g : Fld} (hg : g ≠ .pwrDomState) (w : Nat) :
    (h.powerUp l).getF g w = h.getF g w := by
  induction l generalizing h with
  | nil => rfl
  | cons d l ih => exact (ih (h.setDom d 2)).trans (getF_setF_fld _ _ _ _ _ _ hg)

theorem getF_setStage (h : Hall) (n : Nat) {g : Fld} (hg : g ≠ .pwrStatusStage) (w : Nat) :
    (h.setStage n).getF g w = h.getF g w :=
  (getF_setF_fld _ _ _ _ _ _ hg).trans (getF_setF_fld _ _ _ _ _ _ hg)

theorem getF_showFw (h : Hall) {g : Fld} (hg : g ≠ .hubIdentFwBuild) (w : Nat) : h.showFw.getF g w = h.getF g w :=
  (getF_setF_fld _ _ _ _ _ _ hg).trans (getF_setF_fld _ _ _ _ _ _ hg)

theorem showFw_setStage_mp (h : Hall) (n : Nat) (x : Hub) : (h.setStage n).showFw.mp x = h.mp x := by cases x <;> rfl

theorem bootSlot_of_trust {h h' : Hall} (ht : h'.trust = h.trust) : h'.bootSlot = h.bootSlot := by
  have hs : h'.slotRuns = h.slotRuns := by
    funext n
    simp only [Hall.slotRuns, Hall.fwSlot, ht]
  rw [Hall.bootSlot, Hall.bootSlot, ht, hs]

theorem bootSlot_of_no_firmware (h : Hall) (h0 : h.trust.slot0 = none) (h1 : h.trust.slot1 = none) : h.bootSlot = none := by
  simp [Hall.bootSlot, Hall.slotRuns, Hall.fwSlot, h0, h1]

theorem bootMp_none_state (fails : Bool) : (bootMp none fails).state = .romRecovery := by cases fails <;> rfl

/-- The MPs of a module that finds no firmware. -/
def Hall.recoveryMps (h : Hall) (tests : StartTests) : Hall :=
  (h.updMp .a fun _ => bootMp none tests.failA).updMp .b fun _ => bootMp none tests.failB

theorem recoveryMps_state (h : Hall) (tests : StartTests) (x : Hub) : ((h.recoveryMps tests).mp x).state = .romRecovery := by
  cases x
  · exact bootMp_none_state tests.failA
  · exact bootMp_none_state tests.failB

/-- With no slot that runs, both MPs wait in ROM recovery and no role moves. -/
theorem startMps_of_bootSlot_none (h : Hall) (tests : StartTests) (hb : h.bootSlot = none) :
    h.startMps tests none = ((h.recoveryMps tests).setStage 6).showFw := by
  have hwait : ∀ x, (((h.recoveryMps tests).setStage 6).showFw.mp x).state ≠ .ready := fun x => by
    rw [showFw_setStage_mp, recoveryMps_state]
    decide
  unfold Hall.startMps
  simp only [hb]
  exact (if_neg (hwait .a)).trans (if_neg (hwait .b))

theorem governing_startUp_of_bootSlot_none (h : Hall) (tests : StartTests) (hb : h.bootSlot = none) :
    (h.startUp tests).governing = h.governing := by
  have hf : ∀ w, (h.startUp tests).getF .hubIdentGoverning w = h.getF .hubIdentGoverning w := fun w => by
    have hb' : ((h.powerUp earlyDomains).setStage 3).bootSlot = none := (bootSlot_of_trust (powerUp_trust earlyDomains h)).trans hb
    rw [Hall.startUp, startMps_of_bootSlot_none _ _ hb', getF_showFw _ (by decide), getF_setStage _ _ (by decide)]
    exact (getF_setStage _ _ (by decide) _).trans (getF_powerUp _ _ (by decide) _)
  have hflag : ∀ w, (h.startUp tests).flag .hubIdentGoverning w = h.flag .hubIdentGoverning w := fun w => by
    rw [Hall.flag, Hall.flag, hf w]
  simp only [Hall.governing, hflag]

theorem becomes_unique {i : Instr} {s : State} {h h' : Hall} (hb : Becomes i s h) (hb' : Becomes i s h') : h = h' := by
  injection hb.symm.trans hb' with hstate
  exact congrArg State.hall hstate

theorem thermalRestart_becomes (s : State) (tests : StartTests) (hs : s.hall.power.shutdown = true) (hb : s.hall.brownout = false) :
    Becomes (.thermalRestart tests) s
      ({ s.hall with power := { s.hall.power with shutdown := false } }.startUp tests) := by
  have hb' : { s.hall with power := { s.hall.power with shutdown := false } }.brownout = false := hb
  change execThermalRestart tests s = _
  unfold execThermalRestart
  rw [run_next]
  simp only [hs, hb', Bool.not_true, Bool.false_eq_true, if_false]

theorem governing_restart (h : Hall) (tests : StartTests) (hb : h.bootSlot = none) :
    ({ h with power := { h.power with shutdown := false } }.startUp tests).governing = h.governing :=
  governing_startUp_of_bootSlot_none _ tests ((bootSlot_of_trust (h := h) rfl).trans hb)

/-! ### The counterexample -/

/-- A thermal shutdown holds with hub A shown as governing and no firmware in either slot. No run reaches it (the shutdown clears
GOVERNING with the domains), but the statement speaks of every state. -/
def governsInShutdown : State :=
  { hall := { State.reset.hall.setF .hubIdentGoverning 0 1 with power := { shutdown := true } }, pending := [] }

theorem governsInShutdown_governing : governsInShutdown.hall.governing = some .a := by decide

theorem governsInShutdown_brownout : governsInShutdown.hall.brownout = false := by decide

/-- Refutes O24 in its last clause: a thermal restart that finds no firmware leaves GOVERNING as it stands, so a state in which it
shows hub A keeps showing it while both MPs wait in ROM recovery. -/
theorem not_startAndLossOfPower : ¬ Obligations.StartAndLossOfPower := by
  intro h
  obtain ⟨-, -, -, -, -, -, -, -, hrestart⟩ := h
  have hboot : governsInShutdown.hall.bootSlot = none := bootSlot_of_no_firmware _ rfl rfl
  let tests : StartTests := { failA := false, failB := false }
  obtain ⟨h', hb, hwaits, -⟩ := hrestart governsInShutdown tests rfl governsInShutdown_brownout
  obtain ⟨⟨-, hnone, -⟩, -⟩ := hwaits hboot
  have hhall := becomes_unique hb (thermalRestart_becomes governsInShutdown tests rfl governsInShutdown_brownout)
  rw [hhall, governing_restart _ tests hboot, governsInShutdown_governing] at hnone
  cases hnone

end Sys2Proof.Machine
end

section
/-! PROOFS. Settles O8, O9, O10, O11 and O16: what the host's accesses do to tills, queues and their counters (R53, R58, R72–R75),
and the host links (R46, R77). -/

namespace Sys2Proof.Machine

/-! ### The host's own stores -/

/-- The host's stores replace host memory and nothing else. -/
theorem hostStores_eq (h : Hall) (l : List HostStore) :
    h.hostStores l = { h with mem := { h.mem with host := (h.hostStores l).mem.host } } := by
  induction l generalizing h with
  | nil => rfl
  | cons x l ih => exact ih (h.hostWrite x.addr x.data)

theorem hostStores_frame (h : Hall) (l : List HostStore) : Frame h (h.hostStores l) [.host] noReg := by
  rw [hostStores_eq]
  exact frame_of_parts (fun p hp => by cases p <;> simp_all [Part.same]) rfl

@[simp] theorem hostStores_ram (h : Hall) (l : List HostStore) : (h.hostStores l).mem.ram = h.mem.ram := by rw [hostStores_eq]
@[simp] theorem hostStores_tlpOk (h : Hall) (l : List HostStore) (p : Hub) : (h.hostStores l).tlpOk p = h.tlpOk p := by
  rw [hostStores_eq]; cases p <;> rfl
@[simp] theorem hostStores_hubLost (h : Hall) (l : List HostStore) (x : Hub) : (h.hostStores l).hubLost x = h.hubLost x := by
  rw [hostStores_eq]; rfl
@[simp] theorem hostStores_ownsTill (h : Hall) (l : List HostStore) (fn : Fn) (t : Nat) :
    (h.hostStores l).ownsTill fn t = h.ownsTill fn t := by
  rw [hostStores_eq]; rfl
@[simp] theorem hostStores_ownsQue (h : Hall) (l : List HostStore) (p : Hub) (fn : Fn) (q : Nat) :
    (h.hostStores l).ownsQue p fn q = h.ownsQue p fn q := by
  rw [hostStores_eq]; cases p <;> rfl
@[simp] theorem hostStores_que (h : Hall) (l : List HostStore) (q : Nat) : (h.hostStores l).que q = h.que q := by
  rw [hostStores_eq]; rfl
@[simp] theorem hostStores_queResetting (h : Hall) (l : List HostStore) (r : QueRec) :
    (h.hostStores l).queResetting r = h.queResetting r := by
  rw [hostStores_eq]; rfl
@[simp] theorem hostStores_flag (h : Hall) (l : List HostStore) (f : Fld) (u : Nat) : (h.hostStores l).flag f u = h.flag f u := by
  rw [hostStores_eq]; rfl
@[simp] theorem hostStores_prodOk (h : Hall) (l : List HostStore) (q : Nat) (r : QueRec) (v : Nat) :
    (h.hostStores l).prodOk q r v = h.prodOk q r v := by
  rw [hostStores_eq]; rfl

/-! ### Refused accesses of tills and queues -/

/-- The register fields in which a refused access of a slot is counted and latched. -/
def deniedReg (f : Fld) (_ : Nat) : Prop :=
  f ∈ [Fld.count .pciDeniedCount, .sat .pciDeniedCount, .count .watDenials, .sat .watDenials, .watDenyLastValid, .watDenyLastKind,
    .watDenyLastSource, .watDenyLastDir, .watDenyLastSourceId, .watDenyLastIndex]

theorem regsOf_mono {u : Nat} {l l' : List Fld} (hl : l ⊆ l') {f : Fld} {v : Nat} (hf : regsOf u l f v) : regsOf u l' f v :=
  ⟨hf.1, hl hf.2⟩

/-- Setting fields of a unit changes those fields of that unit. -/
theorem setFs_frame (l : List (Fld × Nat)) (h : Hall) (u : Nat) (parts : List Part) (may : Fld → Nat → Prop)
    (hm : ∀ e ∈ l, may e.1 u) : Frame h (h.setFs u l) parts may := by
  induction l generalizing h with
  | nil => exact Frame.refl _ _ _
  | cons e l ih =>
    exact (setF_frame h e.1 u e.2 parts may (hm e List.mem_cons_self)).trans (ih _ fun d hd => hm d (List.mem_cons_of_mem e hd))

/-- The world table counts, latches and records a refused access, and does no more. -/
theorem watDeny_frame (h : Hall) (kind idx source id : Nat) (write : Bool) :
    Frame h (h.watDeny kind idx source id write) [.junctions] deniedReg := by
  have one (g : Hall) (u : Nat) (l : List (Fld × Nat)) (hl : ∀ e ∈ l, deniedReg e.1 u) :
      Frame g ((g.bump .watDenials u).setFs u l) [.junctions] deniedReg :=
    (bump_frame _ _ _ _ _ _ (by simp [deniedReg]) (by simp [deniedReg])).trans (setFs_frame l _ u _ _ hl)
  exact ((one h 0 _ (by simp [deniedReg])).trans (one _ 1 _ (by simp [deniedReg]))).trans (ordinary_frame _ _ _ _ _ _ (by simp))

/-- The world table's part in a refused access of a slot. -/
def Hall.slotWatDenied (h : Hall) (fn : Fn) (kind idx : Nat) (write : Bool) : Hall :=
  if h.secureEntry kind idx then h.watDeny kind idx 2 (fnNum fn) write else h

theorem slotDenied_eq (h : Hall) (p : Hub) (fn : Fn) (kind idx : Nat) (write : Bool) :
    h.slotDenied p fn kind idx write = (h.slotWatDenied fn kind idx write).denied p := rfl

theorem slotWatDenied_frame (h : Hall) (fn : Fn) (kind idx : Nat) (write : Bool) :
    Frame h (h.slotWatDenied fn kind idx write) [.junctions] deniedReg := by
  unfold Hall.slotWatDenied
  split
  · exact watDeny_frame _ _ _ _ _ _
  · exact Frame.refl _ _ _

theorem slotWatDenied_count (h : Hall) (fn : Fn) (kind idx : Nat) (write : Bool) (u : Nat) :
    (h.slotWatDenied fn kind idx write).getF (.count .pciDeniedCount) u = h.getF (.count .pciDeniedCount) u := by
  unfold Hall.slotWatDenied
  split
  · simp [Hall.watDeny, Hall.setFs, getF_setF_fld, getF_bump_ne]
  · rfl

/-- COUNT after counting rests on COUNT before alone. -/
theorem getF_count_bump_congr {h h' : Hall} {c : Ctr} {u : Nat} (e : h'.getF (.count c) u = h.getF (.count c) u) (k : Nat) :
    (h'.bump c u k).getF (.count c) u = (h.bump c u k).getF (.count c) u := by
  rcases Nat.eq_zero_or_pos k with rfl | hk
  · rwa [bump_zero, bump_zero]
  rcases Nat.lt_or_ge (h.getF (.count c) u + k) c.top with hlt | hle
  · rw [bump_of_lt_top h c u k hk.ne' hlt, bump_of_lt_top h' c u k hk.ne' (e ▸ hlt), getF_setF_same, getF_setF_same, e]
  · have atTop (g : Hall) : ((g.setF (.count c) u c.top).setF (.sat c) u 1).getF (.count c) u = c.top % 2 ^ (Fld.count c).width :=
      (getF_setF_fld _ _ _ _ _ _ (by simp)).trans (getF_setF_same _ _ _ _)
    rw [bump_of_top_le h c u k hk.ne' hle, bump_of_top_le h' c u k hk.ne' (e ▸ hle), atTop, atTop]

/-- A refused access of a slot: AER is told, PCI_DENIED_COUNT counts it, and beyond that only the world table's registers and
the junctions change. -/
theorem slotDenied_spec (h : Hall) (p : Hub) (fn : Fn) (kind idx : Nat) (write : Bool) :
    (h.slotDenied p fn kind idx write).outs = .aerAdvisory p :: h.outs ∧
      (h.slotDenied p fn kind idx write).getF (.count .pciDeniedCount) (hubNum p) =
        (h.bump .pciDeniedCount (hubNum p)).getF (.count .pciDeniedCount) (hubNum p) ∧
      Frame h (h.slotDenied p fn kind idx write) [.outs, .junctions] deniedReg := by
  have hw := slotWatDenied_frame h fn kind idx write
  have houts : (h.slotWatDenied fn kind idx write).outs = h.outs := hw.1 .outs (by simp)
  rw [slotDenied_eq]
  refine ⟨?_, getF_count_bump_congr (slotWatDenied_count ..) 1, ?_⟩
  · rw [Hall.denied, Hall.emit, bump_outs, houts]
  · exact ((hw.mono (by simp) fun _ _ => id).trans (bump_frame _ _ _ _ _ _ (by simp [deniedReg]) (by simp [deniedReg]))).trans
      ((emit_outs_frame _ _).mono (by simp) fun _ _ => False.elim)

/-! ### Posting a command (R58) -/

/-- What the owner's TILL_GO does to a till that holds no command. -/
def Hall.tillPosted (h : Hall) (t : Nat) (content : Bytes) : Hall :=
  (h.writeBytes (tillBase t) (content.take 0xFC0)).setF .tillState t 1

section
variable (s : State) (p : Hub) (fn : Fn) (t : Fin 128) (content : Bytes) (stores : List HostStore)
  (hp : s.hall.tlpOk p = true) (hl : s.hall.hubLost (hubOf t) = false)
include hp hl

theorem tillGo_posts (ho : s.hall.ownsTill fn t = true) (h1 : s.hall.getF .tillState t ≠ 1) (h2 : s.hall.getF .tillState t ≠ 2) :
    Becomes (.tillGo p fn t content stores) s ((s.hall.hostStores stores).tillPosted t content) := by
  change execTillGo p fn t content stores s = _
  simp [execTillGo, run_next, hp, hl, ho, h1, h2, Hall.tillPosted]

theorem tillGo_overruns (ho : s.hall.ownsTill fn t = true) (h1 : s.hall.getF .tillState t = 1 ∨ s.hall.getF .tillState t = 2) :
    Becomes (.tillGo p fn t content stores) s ((s.hall.hostStores stores).setF .tillStateOverrun t 1) := by
  change execTillGo p fn t content stores s = _
  simp [execTillGo, run_next, hp, hl, ho, h1]

theorem tillGo_refused (ho : s.hall.ownsTill fn t = false) :
    Becomes (.tillGo p fn t content stores) s ((s.hall.hostStores stores).slotDenied p fn 1 t true) := by
  change execTillGo p fn t content stores s = _
  simp [execTillGo, run_next, hp, hl, ho]

theorem tillOverrunClear_clears (ho : s.hall.ownsTill fn t = true) :
    Becomes (.tillOverrunClear p fn t) s (s.hall.setF .tillStateOverrun t 0) := by
  change execTillOverrunClear p fn t s = _
  simp [execTillOverrunClear, run_next, hp, hl, ho]

end

/-- A posted till holds the content from its base on, and is POSTED. -/
theorem tillPosted_spec (h : Hall) (t : Nat) (content : Bytes) (hw : Mem.wf 0 h.mem.ram = true) :
    (h.tillPosted t content).getF .tillState t = 1 ∧ (h.tillPosted t content).mem.host = h.mem.host ∧
      (∀ i, i < min content.length 0xFC0 → Mem.read 0 (h.tillPosted t content).mem.ram (tillBase t + i) = content.getD i 0) ∧
      RamOutside h (h.tillPosted t content) (tillBase t) (min content.length 0xFC0) ∧
      Frame h (h.tillPosted t content) [.ram, .marks] (regsOf t [.tillState]) := by
  have hlen : (content.take 0xFC0).length = min content.length 0xFC0 := by rw [List.length_take, Nat.min_comm]
  have hmem : (h.tillPosted t content).mem = (h.writeBytes (tillBase t) (content.take 0xFC0)).mem := setF_mem _ _ _ _
  refine ⟨getF_setF_same _ _ _ _, ?_, fun i hi => ?_, fun b hb => ?_, ?_⟩
  · rw [hmem]
    exact (writeRam_host _ _ _).1
  · rw [hmem, writeBytes_inside h _ _ i hw (hlen ▸ hi), List.getD_eq_getElem?_getD, List.getD_eq_getElem?_getD,
      List.getElem?_take_of_lt (hi.trans_le (Nat.min_le_right _ _))]
  · rw [hmem]
    exact writeBytes_outside h _ _ hw b (hlen ▸ hb)
  · exact ((writeBytes_frame h _ _).mono (fun _ => id) fun _ _ => False.elim).trans (setF_frame _ _ _ _ _ _ ⟨rfl, by simp⟩)

/-- T0, T1 and the tills of canonical memories are in canonical form. -/
theorem ram_wf_of_ok {m : MemSys} (hm : m.ok = true) : Mem.wf 0 m.ram = true := by
  simp only [MemSys.ok, Bool.and_eq_true] at hm
  exact hm.1.1

/-- The host's stores come before what a doorbell does. -/
theorem Frame.after_stores {h h' : Hall} {l : List HostStore} {parts : List Part} {may : Fld → Nat → Prop}
    (f : Frame (h.hostStores l) h' parts may) : Frame h h' (.host :: parts) may :=
  ((hostStores_frame h l).mono (by simp) fun _ _ => False.elim).trans (f.mono (fun _ => List.mem_cons_of_mem _) fun _ _ => id)

/-- Settles O8. -/
theorem tillPosting : Obligations.TillPosting := by
  refine ⟨fun s p fn t content stores hm hp hl ho h1 h2 => ?_, fun s p fn t content stores hp hl ho h1 => ?_,
    fun s p fn t hp hl ho => ?_, fun s p fn t content stores hp hl ho => ?_⟩
  · obtain ⟨hst, hhost, hin, hout, hf⟩ := tillPosted_spec (s.hall.hostStores stores) t content (by simpa using ram_wf_of_ok hm)
    refine ⟨_, tillGo_posts s p fn t content stores hp hl ho h1 h2, hst, hhost, hin, fun b hb => ?_, ?_⟩
    · simpa using hout b hb
    · exact hf.after_stores.mono (by simp) fun _ _ => id
  · exact ⟨_, tillGo_overruns s p fn t content stores hp hl ho h1, getF_setF_same _ _ _ _, rfl,
      (setF_frame _ _ _ _ [] _ ⟨rfl, by simp⟩).after_stores⟩
  · exact ⟨_, tillOverrunClear_clears s p fn t hp hl ho, getF_setF_same _ _ _ _, setF_frame _ _ _ _ _ _ ⟨rfl, by simp⟩⟩
  · obtain ⟨houts, hcount, hf⟩ := slotDenied_spec (s.hall.hostStores stores) p fn 1 t true
    refine ⟨_, tillGo_refused s p fn t content stores hp hl ho, by simpa using houts, ?_, fun u => ?_, ?_, ?_⟩
    · exact hcount.trans (getF_count_bump_congr (hostStores_getF ..) 1)
    · exact ⟨(hf.2 _ _ (by simp [deniedReg])).trans (hostStores_getF ..), (hf.2 _ _ (by simp [deniedReg])).trans (hostStores_getF ..)⟩
    · exact (hf.1 .ram (by simp)).trans (hostStores_ram ..)
    · exact (hf.1 .cmd (by simp)).trans (hostStores_cmd ..)

/-! ### Slots of other functions (R53) -/

theorem tlpOk_iff (h : Hall) (p : Hub) : h.tlpOk p = true ↔ h.portUp p = true ∧ h.ideRefuses p = false := by
  simp [Hall.tlpOk]

/-- How an access that is refused completes. -/
def refusedCompletion : AccessOp → Completion
  | .read _ => .unsupportedRequest
  | .write _ => .discarded

theorem foreignSlotAccess_refused (s : State) (p : Hub) (fn : Fn) (slot : SlotRef) (op : AccessOp) (hp : s.hall.tlpOk p = true)
    (ho : slotOwned s.hall p fn slot = false) : ∃ write, Becomes (.foreignSlotAccess p fn slot op) s
      ((s.hall.slotDenied p fn (slotKind slot).1 (slotKind slot).2 write).emit (.completion p (refusedCompletion op))) := by
  obtain ⟨hup, hide⟩ := (tlpOk_iff _ _).1 hp
  cases op with
  | read n =>
    refine ⟨false, ?_⟩
    change execForeignSlotAccess p fn slot (.read n) s = _
    simp [execForeignSlotAccess, run_next, hup, hide, ho, refusedCompletion]
  | write data =>
    refine ⟨true, ?_⟩
    change execForeignSlotAccess p fn slot (.write data) s = _
    simp [execForeignSlotAccess, run_next, hup, hide, ho, refusedCompletion]

/-- Settles O9. -/
theorem foreignSlots : Obligations.ForeignSlots := by
  intro s p fn slot op hp ho
  obtain ⟨write, hb⟩ := foreignSlotAccess_refused s p fn slot op hp ho
  obtain ⟨houts, hcount, hf⟩ := slotDenied_spec s.hall p fn (slotKind slot).1 (slotKind slot).2 write
  refine ⟨_, hb, ?_, hcount, hf.mem_eq (by simp), hf.1 .cmd (by simp), hf.1 .data (by simp), hf.1 .avail (by simp), fun u => ?_⟩
  · rw [Hall.emit, houts]
    cases op <;> rfl
  · exact ⟨hf.2 _ _ (by simp [deniedReg]), hf.2 _ _ (by simp [deniedReg]), hf.2 _ _ (by simp [deniedReg]), hf.2 _ _ (by simp [deniedReg])⟩

/-! ### Counters that a read clears (R75, Table 0.6) -/

theorem pciDeniedCountRead_becomes (s : State) (p : Hub) (hp : s.hall.tlpOk p = true) :
    Becomes (.pciDeniedCountRead p) s
      ((s.hall.emit (.completion p (.data (s.hall.rcWord .pciDeniedCount (hubNum p))))).clearCtr (hubNum p) .pciDeniedCount) := by
  obtain ⟨hup, hide⟩ := (tlpOk_iff _ _).1 hp
  change execPciDeniedCountRead p s = _
  simp [execPciDeniedCountRead, run_next, hup, hide]

theorem queDropRead_becomes (s : State) (p : Hub) (fn : Fn) (q : Fin 16384) (hp : s.hall.tlpOk p = true)
    (hl : s.hall.hubLost (hubOf q) = false) (ho : s.hall.ownsQue p fn q = true) :
    Becomes (.queDropRead p fn q) s ((s.hall.emit (.completion p (.data (s.hall.rcWord .queDrop q)))).clearCtr q .queDrop) := by
  obtain ⟨hup, hide⟩ := (tlpOk_iff _ _).1 hp
  change execQueDropRead p fn q s = _
  simp [execQueDropRead, run_next, hup, hide, hl, ho]

/-- A counter is read and cleared: only it and the outputs change. -/
theorem readClear_frame (h : Hall) (o : Out) (u : Nat) (c : Ctr) :
    Frame h ((h.emit o).clearCtr u c) [.outs] (regsOf u [.count c, .sat c]) :=
  ((emit_outs_frame h o).mono (fun _ => id) fun _ _ => False.elim).trans ((clearCtr_frame _ u c).mono (by simp) fun _ _ => id)

/-- Settles O10. -/
theorem readClearCounters : Obligations.ReadClearCounters := by
  refine ⟨fun s p hp => ?_, fun s p fn q hp hl ho => ?_⟩
  · obtain ⟨hcount, hsat⟩ := clearCtr_zero (s.hall.emit (.completion p (.data (s.hall.rcWord .pciDeniedCount (hubNum p))))) (hubNum p) .pciDeniedCount
    exact ⟨_, pciDeniedCountRead_becomes s p hp, rfl, hcount, hsat, readClear_frame _ _ _ _⟩
  · obtain ⟨hcount, hsat⟩ := clearCtr_zero (s.hall.emit (.completion p (.data (s.hall.rcWord .queDrop q)))) q .queDrop
    exact ⟨_, queDropRead_becomes s p fn q hp hl ho, rfl, hcount, hsat, readClear_frame _ _ _ _⟩

/-! ### Producer and consumer indices (R72, R73, R74) -/

/-- A queue's flags follow its indices, and nothing else changes. -/
theorem queFlags_flags_frame (h : Hall) (q : Nat) : Frame h (h.queFlags q) [] (regsOf q [.queStatusEmpty, .queStatusFull]) := by
  unfold Hall.queFlags
  split
  · exact (setF_frame _ _ _ _ _ _ ⟨rfl, by simp⟩).trans (setF_frame _ _ _ _ _ _ ⟨rfl, by simp⟩)
  · exact Frame.refl _ _ _

/-- An index of a queue is set, and its flags follow. -/
def Hall.setIndex (h : Hall) (f : Fld) (q v : Nat) : Hall := (h.setF f q v).queFlags q

theorem setIndex_spec (h : Hall) {f : Fld} (hf : f ∈ [Fld.queProd, .queCons]) (q v : Nat) (hv : v < 65536) :
    (h.setIndex f q v).getF f q = v ∧ Frame h (h.setIndex f q v) [] (regsOf q [f, .queStatusEmpty, .queStatusFull]) := by
  have hflags := queFlags_flags_frame (h.setF f q v) q
  have hw : f.width = 16 ∧ f ≠ .queStatusEmpty ∧ f ≠ .queStatusFull := by
    rcases List.mem_pair.1 hf with rfl | rfl <;> decide
  obtain ⟨hw, he, hfu⟩ := hw
  refine ⟨?_, (setF_frame _ _ _ _ _ _ ⟨rfl, by simp⟩).trans (hflags.mono (by simp) fun _ _ => regsOf_mono (List.subset_cons_self _ _))⟩
  rw [Hall.setIndex, hflags.2 _ _ (by simp [regsOf, he, hfu]), getF_setF_same, hw]
  exact Nat.mod_eq_of_lt hv

theorem dbReject_spec (h : Hall) (q : Nat) :
    (h.dbReject q).getF .queStatusDbReject q = 1 ∧ Frame h (h.dbReject q) [] (regsOf q [.queStatusDbReject]) :=
  ⟨getF_setF_same _ _ _ _, setF_frame _ _ _ _ _ _ ⟨rfl, by simp⟩⟩

section
variable (s : State) (p : Hub) (fn : Fn) (q : Fin 16384) (v : Nat)
  (hp : s.hall.tlpOk p = true) (hl : s.hall.hubLost (hubOf q) = false) (ho : s.hall.ownsQue p fn q = true)
include hp hl ho

/-- A producer index that the owner writes to an enabled request queue is taken or rejected. -/
theorem queProd_enabled (stores : List HostStore) (r : QueRec) (hr : (s.hall.que q).qrec = some r) (hs : s.hall.queResetting r = false)
    (he : s.hall.flag .queStatusEnabled q = true) (ht : r.typ = 0) (hv : v < 65536) :
    Becomes (.queProd p fn q v stores) s (if s.hall.prodOk q r v then (s.hall.hostStores stores).setIndex .queProd q v
      else (s.hall.hostStores stores).dbReject q) := by
  change execQueProd p fn q v stores s = _
  simp [execQueProd, run_next, hp, hl, ho, hr, hs, he, ht, Nat.mod_eq_of_lt hv, Hall.setIndex]

/-- A consumer index that the owner writes to an enabled result queue is taken or rejected. -/
theorem queCons_enabled (r : QueRec) (hr : (s.hall.que q).qrec = some r) (hs : s.hall.queResetting r = false)
    (he : s.hall.flag .queStatusEnabled q = true) (ht : r.typ = 1) (hv : v < 65536) :
    Becomes (.queCons p fn q v) s (if s.hall.consOk q r v then s.hall.setIndex .queCons q v else s.hall.dbReject q) := by
  change execQueCons p fn q v s = _
  simp [execQueCons, run_next, hp, hl, ho, hr, hs, he, ht, Nat.mod_eq_of_lt hv, Hall.setIndex]

/-- On a queue that is not enabled either index is rejected. -/
theorem index_disabled (hs : ∀ r, (s.hall.que q).qrec = some r → s.hall.queResetting r = false)
    (he : s.hall.flag .queStatusEnabled q = false) :
    Becomes (.queProd p fn q v []) s (s.hall.dbReject q) ∧ Becomes (.queCons p fn q v) s (s.hall.dbReject q) := by
  constructor
  · change execQueProd p fn q v [] s = _
    cases hr : (s.hall.que q).qrec with
    | none => simp [execQueProd, run_next, hp, hl, ho, hr, Hall.hostStores]
    | some r => simp [execQueProd, run_next, hp, hl, ho, hr, hs r hr, he, Hall.hostStores]
  · change execQueCons p fn q v s = _
    cases hr : (s.hall.que q).qrec with
    | none => simp [execQueCons, run_next, hp, hl, ho, hr]
    | some r => simp [execQueCons, run_next, hp, hl, ho, hr, hs r hr, he]

theorem dbRejectClear_becomes : Becomes (.dbRejectClear p fn q) s (s.hall.setF .queStatusDbReject q 0) := by
  change execDbRejectClear p fn q s = _
  simp [execDbRejectClear, run_next, hp, hl, ho]

end

theorem queSize_le (r : QueRec) (hr : r.log2 ≤ 16) : queSize r ≤ 65536 := Nat.pow_le_pow_right (by decide) hr

theorem prodOk_iff (h : Hall) (q : Nat) (r : QueRec) (v : Nat) :
    h.prodOk q r v = true ↔ v < queSize r ∧ h.queCount q ≤ (v + queSize r - h.getF .queCons q) % queSize r := by
  simp [Hall.prodOk]

theorem consOk_iff (h : Hall) (q : Nat) (r : QueRec) (v : Nat) :
    h.consOk q r v = true ↔ v < queSize r ∧ (v + queSize r - h.getF .queCons q) % queSize r ≤ h.queCount q := by
  simp [Hall.consOk]

/-- Settles O11. -/
theorem queueIndices : Obligations.QueueIndices := by
  refine ⟨fun s p fn q v stores r hp hl ho hr hs he ht hv hlog hn => ?_, fun s p fn q v stores r hp hl ho hr hs he ht hv hn => ?_,
    fun s p fn q v r hp hl ho hr hs he ht hv => ⟨fun hn => ?_, fun hn => ?_⟩, fun s p fn q v hp hl ho hs he => ?_,
    fun s p fn q hp hl ho => ?_⟩
  · have hv' : v < 65536 := hv.trans_le (queSize_le r hlog)
    have hb := queProd_enabled s p fn q v hp hl ho stores r hr hs he ht hv'
    rw [if_pos ((prodOk_iff ..).2 ⟨hv, hn⟩)] at hb
    obtain ⟨hset, hf⟩ := setIndex_spec (s.hall.hostStores stores) (f := .queProd) (by simp) q v hv'
    have hhost : ((s.hall.hostStores stores).setIndex .queProd q v).mem.host = (s.hall.hostStores stores).mem.host := hf.1 .host (by simp)
    exact ⟨_, hb, hset, hhost, hf.after_stores⟩
  · have hb := queProd_enabled s p fn q v hp hl ho stores r hr hs he ht hv
    rw [if_neg fun h => ?_] at hb
    · exact ⟨_, hb, (dbReject_spec _ _).1, (dbReject_spec _ _).2.after_stores⟩
    · obtain ⟨hlt, hle⟩ := (prodOk_iff ..).1 h
      omega
  · have hb := queCons_enabled s p fn q v hp hl ho r hr hs he ht hv
    rw [if_pos ((consOk_iff ..).2 hn)] at hb
    exact ⟨_, hb, setIndex_spec _ (by simp) q v hv⟩
  · have hb := queCons_enabled s p fn q v hp hl ho r hr hs he ht hv
    rw [if_neg fun h => hn ((consOk_iff ..).1 h)] at hb
    exact ⟨_, hb, dbReject_spec _ _⟩
  · obtain ⟨hprod, hcons⟩ := index_disabled s p fn q v hp hl ho hs he
    exact ⟨⟨_, hprod, dbReject_spec _ _⟩, _, hcons, dbReject_spec _ _⟩
  · exact ⟨_, dbRejectClear_becomes s p fn q hp hl ho, getF_setF_same _ _ _ _, setF_frame _ _ _ _ _ _ ⟨rfl, by simp⟩⟩

/-! ### Links (R46, R77) -/

/-- Fields set together, each once: each reads as set, cut to its width. -/
theorem getF_setFs (l : List (Fld × Nat)) (h : Hall) (u : Nat) {f : Fld} {v : Nat} (hf : (f, v) ∈ l) (hd : (l.map Prod.fst).Nodup) :
    (h.setFs u l).getF f u = v % 2 ^ f.width := by
  induction l generalizing h with
  | nil => simp at hf
  | cons e l ih =>
    obtain ⟨hn, hd⟩ := List.nodup_cons.1 hd
    rcases List.mem_cons.1 hf with rfl | hf
    · have hrest := setFs_frame l (h.setF f u v) u [] (fun g _ => g ∈ l.map Prod.fst) fun e he => List.mem_map_of_mem he
      exact (hrest.2 f u hn).trans (getF_setF_same _ _ _ _)
    · exact ih _ hf hd

/-- The fields of PCI_LINK_STATUS that a link that comes up sets. -/
def linkUpFields (rate width : Nat) : List (Fld × Nat) :=
  [(.pciLinkStatusUp, 1), (.pciLinkStatusRate, rate), (.pciLinkStatusWidth, width),
   (.pciLinkStatusDegraded, b2n (decide (rate < 3) || decide (width < 8)))]

theorem hostLinkUp_becomes (s : State) (p : Hub) (rate width : Nat) (hu : s.hall.flag .pciLinkStatusUp (hubNum p) = false)
    (hl : s.hall.hubLost p = false) (hd : s.hall.domState (hubDomain p 2) = 2) (h1 : 1 ≤ rate) (h5 : rate ≤ 5)
    (hw : width ∈ [1, 2, 4, 8]) :
    Becomes (.hostLinkUp p rate width) s (s.hall.setFs (hubNum p) (linkUpFields rate width)) := by
  change execHostLinkUp p rate width s = _
  have hc : ¬ (s.hall.flag .pciLinkStatusUp (hubNum p) = true ∨ s.hall.hubLost p = true ∨ s.hall.domState (hubDomain p 2) ≠ 2 ∨
      rate = 0 ∨ 5 < rate ∨ ¬ width ∈ [1, 2, 4, 8]) := by
    rw [hu, hl]
    simp only [Bool.false_eq_true, false_or, hd, ne_eq, not_true, hw, or_false]
    omega
  rw [execHostLinkUp, run_next, if_neg hc]
  rfl

/-- The fields of PCI_LINK_STATUS that a link that goes down sets, for the `n + 1`st time. -/
def linkDownFields (n : Nat) : List (Fld × Nat) :=
  [(.pciLinkStatusUp, 0), (.pciLinkStatusRate, 0), (.pciLinkStatusWidth, 0), (.pciLinkStatusDegraded, 0),
   (.pciLinkStatusDownCount, min 0xFFFF (n + 1))]

/-- The registers of a link that goes down. -/
def Hall.linkDown (h : Hall) (u n : Nat) : Hall :=
  let h := h.setFs u (linkDownFields n)
  if 0xFFFF ≤ n + 1 then h.setF .pciLinkStatusDownSat u 1 else h

/-- An IDE stream that is secure no longer. -/
def HostPort.ideEnded (x : HostPort) : HostPort := { x with ide := { x.ide with secure := false, active := none } }

theorem hostLinkDown_becomes (s : State) (p : Hub) (hu : s.hall.flag .pciLinkStatusUp (hubNum p) = true) :
    Becomes (.hostLinkDown p) s
      ((s.hall.linkDown (hubNum p) (s.hall.getF .pciLinkStatusDownCount (hubNum p))).updPort p HostPort.ideEnded) := by
  change execHostLinkDown p s = _
  have hc : ¬ s.hall.flag .pciLinkStatusUp (hubNum p) = false := by simp [hu]
  rw [execHostLinkDown, run_next]
  dsimp only
  rw [if_neg hc]
  rfl

theorem updPort_frame (h : Hall) (p : Hub) (f : HostPort → HostPort) (may : Fld → Nat → Prop) : Frame h (h.updPort p f) [.ports] may := by
  cases p <;> exact frame_of_parts (fun q hq => by cases q <;> simp_all [Part.same, Hall.updPort]) rfl

@[simp] theorem port_updPort_same (h : Hall) (p : Hub) (f : HostPort → HostPort) : (h.updPort p f).port p = f (h.port p) := by
  cases p <;> rfl

theorem linkDown_spec (h : Hall) (u n : Nat) :
    (∀ f ∈ [Fld.pciLinkStatusUp, .pciLinkStatusRate, .pciLinkStatusWidth, .pciLinkStatusDegraded], (h.linkDown u n).getF f u = 0) ∧
      (h.linkDown u n).getF .pciLinkStatusDownCount u = min 0xFFFF (n + 1) ∧
      (0xFFFF ≤ n + 1 → (h.linkDown u n).getF .pciLinkStatusDownSat u = 1) ∧
      Frame h (h.linkDown u n) [] (regsOf u [.pciLinkStatusUp, .pciLinkStatusRate, .pciLinkStatusWidth, .pciLinkStatusDegraded,
        .pciLinkStatusDownCount, .pciLinkStatusDownSat]) := by
  unfold Hall.linkDown
  extract_lets g
  have hg {f : Fld} {v : Nat} (hf : (f, v) ∈ linkDownFields n) : g.getF f u = v % 2 ^ f.width :=
    getF_setFs _ h u hf (by simp [linkDownFields])
  have hgf : Frame h g [] (regsOf u [.pciLinkStatusUp, .pciLinkStatusRate, .pciLinkStatusWidth, .pciLinkStatusDegraded,
      .pciLinkStatusDownCount, .pciLinkStatusDownSat]) := setFs_frame _ _ _ _ _ (by simp [linkDownFields, regsOf])
  have hsat : Frame g (if 0xFFFF ≤ n + 1 then g.setF .pciLinkStatusDownSat u 1 else g) [] (regsOf u [.pciLinkStatusDownSat]) := by
    split
    · exact setF_frame _ _ _ _ _ _ ⟨rfl, by simp⟩
    · exact Frame.refl _ _ _
  refine ⟨fun f hf => ?_, ?_, fun hn => ?_, hgf.trans (hsat.mono (by simp) fun _ _ => regsOf_mono (by simp))⟩
  · have hne : f ≠ .pciLinkStatusDownSat := by rintro rfl; exact absurd hf (by decide)
    rw [hsat.2 _ _ (by simp [regsOf, hne])]
    refine (hg (v := 0) ?_).trans (Nat.zero_mod _)
    simp only [List.mem_cons, List.not_mem_nil, or_false] at hf
    rcases hf with rfl | rfl | rfl | rfl <;> simp [linkDownFields]
  · rw [hsat.2 _ _ (by simp [regsOf])]
    exact (hg (f := .pciLinkStatusDownCount) (List.mem_of_getElem? (i := 4) rfl)).trans
      (Nat.mod_eq_of_lt (Nat.lt_of_le_of_lt (Nat.min_le_left _ _) (by decide)))
  · rw [if_pos hn]
    exact getF_setF_same _ _ _ _

/-- Settles O16. -/
theorem hostLinks : Obligations.HostLinks := by
  refine ⟨fun s p rate width hu hl hd h1 h5 hw => ?_, fun s p hu => ?_⟩
  · have hg {f : Fld} {v : Nat} (hf : (f, v) ∈ linkUpFields rate width) :=
      getF_setFs _ s.hall (hubNum p) hf (by simp [linkUpFields])
    have hw8 : width ≤ 8 := by
      simp only [List.mem_cons, List.not_mem_nil, or_false] at hw
      omega
    refine ⟨_, hostLinkUp_becomes s p rate width hu hl hd h1 h5 hw, hg (v := 1) (by simp [linkUpFields]), ?_, ?_, ?_,
      setFs_frame _ _ _ _ _ (by simp [linkUpFields, regsOf])⟩
    · exact (hg (v := rate) (by simp [linkUpFields])).trans (Nat.mod_eq_of_lt (h5.trans_lt (by decide)))
    · exact (hg (v := width) (by simp [linkUpFields])).trans (Nat.mod_eq_of_lt (hw8.trans_lt (by decide)))
    · rw [hg (f := .pciLinkStatusDegraded) (v := b2n (decide (rate < 3) || decide (width < 8))) (by simp [linkUpFields])]
      rw [← Bool.decide_or]
      by_cases hdeg : rate < 3 ∨ width < 8
      · simpa [hdeg, b2n] using (by decide : 1 % 2 ^ Fld.pciLinkStatusDegraded.width = 1)
      · simp [hdeg, b2n]
  · obtain ⟨hzero, hcount, hsat, hf⟩ := linkDown_spec s.hall (hubNum p) (s.hall.getF .pciLinkStatusDownCount (hubNum p))
    have hport := updPort_frame (s.hall.linkDown (hubNum p) (s.hall.getF .pciLinkStatusDownCount (hubNum p))) p HostPort.ideEnded noReg
    have hkeep (f : Fld) := hport.2 f (hubNum p) id
    refine ⟨_, hostLinkDown_becomes s p hu, ?_, ?_, ?_, ?_, (hkeep _).trans hcount, fun hn => (hkeep _).trans (hsat hn), ?_, ?_⟩
    · exact (hkeep _).trans (hzero _ (by simp))
    · exact (hkeep _).trans (hzero _ (by simp))
    · exact (hkeep _).trans (hzero _ (by simp))
    · exact (hkeep _).trans (hzero _ (by simp))
    · rw [port_updPort_same]
      rfl
    · exact (hf.mono (by simp) fun _ _ => id).trans (hport.mono (fun _ => id) fun _ _ => False.elim)

end Sys2Proof.Machine
end

section
/-! PROOFS. Settles O17: how a till's command is answered (R48, R58–R61, Tables 2.13 and 2.14). -/

namespace Sys2Proof.Machine

/-! ### Presenting an answer (Table 2.13) -/

/-- The fields of TILL_STATE and TILL_RESP that an answer sets. -/
def answerFields (c : TillCmd) (status : Nat) (payload : Bytes) : List (Fld × Nat) :=
  [(.tillRespSeq, c.seq), (.tillRespStatus, status), (.tillRespLength, payload.length), (.tillState, 3)]

theorem answerFields_nodup (c : TillCmd) (status : Nat) (payload : Bytes) :
    ((answerFields c status payload).map Prod.fst).Nodup := by
  simp [answerFields]

/-- An answer's payload and registers, before its vector is raised. -/
def Hall.answerShown (h : Hall) (c : TillCmd) (status : Nat) (payload : Bytes) : Hall :=
  (h.writeBytes (tillBase c.till + 0x40) payload).setFs c.till (answerFields c status payload)

/-- A till's vector is raised where the command asks for it: that is an output and no more. -/
theorem tillDone_frame_shown (h : Hall) (c : TillCmd) (status : Nat) (payload : Bytes) :
    Frame (h.answerShown c status payload) (h.tillDone c status payload) [.outs] noReg := by
  unfold Hall.tillDone
  dsimp only
  split
  · exact emit_outs_frame _ _
  · exact Frame.refl _ _ _

/-- Presenting an answer sets its fields, puts its payload behind the till's header and touches nothing else. -/
theorem tillDone_spec (h : Hall) (c : TillCmd) (status : Nat) (payload : Bytes) (hw : Mem.wf 0 h.mem.ram = true) :
    (∀ e ∈ answerFields c status payload, (h.tillDone c status payload).getF e.1 c.till = e.2 % 2 ^ e.1.width) ∧
      (∀ i, i < payload.length → Mem.read 0 (h.tillDone c status payload).mem.ram (tillBase c.till + 0x40 + i) = payload.getD i 0) ∧
      RamOutside h (h.tillDone c status payload) (tillBase c.till + 0x40) payload.length ∧
      Frame h (h.tillDone c status payload) [.ram, .marks, .outs]
        (regsOf c.till [.tillState, .tillRespStatus, .tillRespLength, .tillRespSeq]) := by
  have hvec := tillDone_frame_shown h c status payload
  have hshown : Frame h (h.answerShown c status payload) [.ram, .marks]
      (regsOf c.till [.tillState, .tillRespStatus, .tillRespLength, .tillRespSeq]) :=
    ((writeBytes_frame h _ _).mono (fun _ => id) fun _ _ => False.elim).trans
      (setFs_frame _ _ _ _ _ (by simp [answerFields, regsOf]))
  have hram : (h.tillDone c status payload).mem.ram = (h.writeBytes (tillBase c.till + 0x40) payload).mem.ram :=
    (hvec.1 .ram (by simp)).trans (congrArg MemSys.ram (setFs_mem _ _ _))
  refine ⟨fun e he => ?_, fun i hi => ?_, fun b hb => ?_, ?_⟩
  · rw [hvec.2 _ _ id]
    exact getF_setFs _ _ _ he (answerFields_nodup c status payload)
  · rw [hram]
    exact writeBytes_inside h _ _ i hw hi
  · rw [hram]
    exact writeBytes_outside h _ _ hw b hb
  · exact (hshown.mono (by simp) fun _ _ => id).trans (hvec.mono (by simp) fun _ _ => False.elim)

/-- The sequence number and the answer that a till keeps for the retry rule (R59). -/
def Hall.answerKept (h : Hall) (c : TillCmd) (status : Nat) (payload : Bytes) : Hall :=
  (h.setFs c.till [(.tillLastSeq, c.seq), (.tillCfgSeqValid, 1)]).updTill c.till fun x => { x with stored := some ⟨status, payload⟩ }

theorem tillComplete_eq (h : Hall) (c : TillCmd) (status : Nat) (payload : Bytes) :
    h.tillComplete c status payload = (h.answerKept c status payload).tillDone c status payload := rfl

@[simp] theorem till_updTill_same (h : Hall) (t : Nat) (f : Till → Till) : (h.updTill t f).till t = f (h.till t) :=
  Tab.get_set_same _ _ _ _

theorem till_updTill_ne (h : Hall) (t u : Nat) (f : Till → Till) (hu : u ≠ t) : (h.updTill t f).till u = h.till u :=
  Tab.get_set_ne _ _ _ _ _ hu

theorem updTill_frame (h : Hall) (t : Nat) (f : Till → Till) (may : Fld → Nat → Prop) : Frame h (h.updTill t f) [.cmd] may :=
  frame_of_parts (fun p hp => by cases p <;> simp_all [Part.same]) rfl

theorem till_of_cmd {h h' : Hall} (e : h'.cmd = h.cmd) (t : Nat) : h'.till t = h.till t := by
  rw [Hall.till, Hall.till, e]

/-- What is kept for the retry rule: the till's answer, LAST_SEQ and SEQ_VALID. -/
theorem answerKept_spec (h : Hall) (c : TillCmd) (status : Nat) (payload : Bytes) :
    (∀ e ∈ [(Fld.tillLastSeq, c.seq), (.tillCfgSeqValid, 1)],
      (h.answerKept c status payload).getF e.1 c.till = e.2 % 2 ^ e.1.width) ∧
      ((h.answerKept c status payload).till c.till).stored = some ⟨status, payload⟩ ∧
      (∀ t, t ≠ c.till → (h.answerKept c status payload).till t = h.till t) ∧
      (h.answerKept c status payload).cmd.ques = h.cmd.ques ∧ (h.answerKept c status payload).cmd.ops = h.cmd.ops ∧
      (h.answerKept c status payload).mem = h.mem ∧
      Frame h (h.answerKept c status payload) [.cmd] (regsOf c.till [.tillLastSeq, .tillCfgSeqValid]) := by
  have hset := setFs_frame [(.tillLastSeq, c.seq), (.tillCfgSeqValid, 1)] h c.till [] (regsOf c.till [.tillLastSeq, .tillCfgSeqValid])
    (by simp [regsOf])
  have hcmd : (h.setFs c.till [(.tillLastSeq, c.seq), (.tillCfgSeqValid, 1)]).cmd = h.cmd := hset.1 .cmd (by simp)
  have hques := congrArg CmdSys.ques hcmd
  have hops := congrArg CmdSys.ops hcmd
  refine ⟨fun e he => ?_, ?_, fun t ht => ?_, hques, hops, setFs_mem _ _ _, ?_⟩
  · exact getF_setFs _ h c.till he (by simp)
  · rw [Hall.answerKept, till_updTill_same]
  · exact (till_updTill_ne _ _ _ _ ht).trans (till_of_cmd hcmd t)
  · exact (hset.mono (by simp) fun _ _ => id).trans (updTill_frame _ _ _ _)

/-! ### Commands that are refused or repeated -/

/-- A command in sequence that fails a check of Table 2.14 is answered with that check's status. -/
theorem tillRun_refused (h : Hall) (t status : Nat) (known : Nat → Bool) (sc wide : TillCmd → Hall → Bool)
    (body : TillCmd → Hall → Answer) (hserved : h.tillServed t = true) (hk : known (h.tillCmd t).opcode = true)
    (hseq : h.seqCheck (h.tillCmd t) = .fresh)
    (hcheck : h.tillChecks (h.tillCmd t) (sc (h.tillCmd t) h) (wide (h.tillCmd t) h) = some status) :
    h.tillRun t known sc wide body = h.tillComplete (h.tillCmd t) status [] := by
  simp [Hall.tillRun, hserved, hk, hseq, hcheck]

/-- A command that repeats the last sequence number is answered with the stored response (R59). -/
theorem tillRun_retry (h : Hall) (t : Nat) (known : Nat → Bool) (sc wide : TillCmd → Hall → Bool) (body : TillCmd → Hall → Answer)
    (r : TillResp) (hserved : h.tillServed t = true) (hk : known (h.tillCmd t).opcode = true)
    (hseq : h.seqCheck (h.tillCmd t) = .retry) (hr : (h.till t).stored = some r) :
    h.tillRun t known sc wide body = h.tillDone (h.tillCmd t) r.status r.payload := by
  simp [Hall.tillRun, hserved, hk, hseq, hr]

/-- The same for the meaning of a till command. -/
theorem till_retry (s : State) (t code : Nat) (sc : TillCmd → Hall → Bool) (body : TillCmd → Hall → Answer) (r : TillResp)
    (hserved : s.hall.tillServed t = true) (hop : (s.hall.tillCmd t).opcode = code)
    (hseq : s.hall.seqCheck (s.hall.tillCmd t) = .retry) (hr : (s.hall.till t).stored = some r) :
    s.till t code sc body = .next { hall := s.hall.tillDone (s.hall.tillCmd t) r.status r.payload, pending := s.pending } := by
  rw [State.till, run_next, tillRun_retry s.hall t _ sc _ body r hserved (by simp [hop]) hseq hr]

/-- A number is never its own successor in 32 bits. -/
theorem seqCheck_retry (h : Hall) (c : TillCmd) (hv : h.flag .tillCfgSeqValid c.till = true)
    (he : c.seq = h.getF .tillLastSeq c.till) : h.seqCheck c = .retry := by
  have hne : c.seq ≠ (h.getF .tillLastSeq c.till + 1) % 2 ^ 32 := by omega
  simp only [Hall.seqCheck, hv, Bool.not_true, Bool.false_eq_true, if_false, if_neg hne, if_pos he]

/-- An opcode without a row fails check 3, where the header's form is good. -/
theorem tillChecks_no_row (h : Hall) (c : TillCmd) (sc wide : Bool) (hrow : opRow c.opcode = none) (hres : c.reserved = false)
    (hlen : c.length ≤ 3968) (hpen : c.pen ≤ 31 ∨ c.pen = 255) : h.tillChecks c sc wide = some stBadOpcode := by
  have hform : (c.reserved || decide (3968 < c.length) || !(decide (c.pen ≤ 31) || decide (c.pen = 255))) = false := by
    rcases hpen with hpen | hpen <;> simp [hres, hlen, hpen]
  simp only [Hall.tillChecks, hform, hrow, Bool.false_eq_true, if_false]

/-- Only an opcode with a row passes the checks. -/
theorem opRow_of_tillChecks {h : Hall} {c : TillCmd} {sc wide : Bool} (hc : h.tillChecks c sc wide = none) :
    (opRow c.opcode).isSome = true := by
  cases hrow : opRow c.opcode with
  | some row => rfl
  | none => exact absurd hc (by unfold Hall.tillChecks; rw [hrow]; split <;> simp)

/-- A command that is ready runs under any table of opcodes that knows it. -/
theorem tillRun_known (h : Hall) (t code : Nat) (known : Nat → Bool) (sc wide : TillCmd → Hall → Bool)
    (body : TillCmd → Hall → Answer) (hk : known (h.tillCmd t).opcode = true)
    (hr : h.tillReady t code (sc (h.tillCmd t) h) (wide (h.tillCmd t) h) = true) :
    h.tillRun t known sc wide body =
      (body (h.tillCmd t) h).hall.tillComplete (h.tillCmd t) (body (h.tillCmd t) h).status (body (h.tillCmd t) h).payload := by
  obtain ⟨hserved, -, hseq, hcheck, hvalidate⟩ := (tillReady_iff _ _ _ _ _).1 hr
  simp [Hall.tillRun, hserved, hk, hseq, hcheck, hvalidate]

theorem tillBadOpcode_becomes (s : State) (t : Fin 128) : Becomes (.tillBadOpcode t) s
    (s.hall.tillRun t (fun o => (opRow o).isNone) never never fun _ h => refuse h stBadOpcode) := rfl

theorem hostReadFailed_till_becomes (s : State) (t : Fin 128) : Becomes (.hostReadFailed (.till t)) s
    (s.hall.tillRun t (fun o => (opRow o).isSome) never never fun _ h => refuse h stNoResource) := rfl

/-- A request that is in flight takes a status where it has none (R217). -/
theorem hostReadFailed_request (s : State) (token : Nat) (r : Req) (hr : s.hall.req token = some r) (hs : r.status = 0) :
    Gives (.hostReadFailed (.request token)) s fun h' =>
      h'.req token = some { r with status := stPoisoned } ∧ Frame s.hall h' [.data] noReg := by
  have hb : Becomes (.hostReadFailed (.request token)) s
      { s.hall with data.requests := Tab.set s.hall.data.requests token { r with status := stPoisoned } } := by
    change execHostReadFailed (.request token) s = _
    simp [execHostReadFailed, run_next, hr, Hall.setStatus, Hall.updReq, hs]
  exact ⟨_, hb, Tab.find_set_same _ _ _, frame_of_parts (fun p hp => by cases p <;> simp_all [Part.same]) rfl⟩

/-- Settles O17. -/
theorem tillAnswering : Obligations.TillAnswering := by
  refine ⟨fun h c status payload hm hlen => ?_, fun s t hserved hrow hseq hres hlen hpen => ?_, fun s t hr => ?_,
    fun s token r hr hs => ?_, fun s t r hserved hop hv hseq hr hlen => ?_⟩
  · obtain ⟨hseq, hstored, htills, hques, hops, hmem, hkept⟩ := answerKept_spec h c status payload
    obtain ⟨hset, hin, hout, hdone⟩ := tillDone_spec (h.answerKept c status payload) c status payload
      (hmem ▸ ram_wf_of_ok hm)
    have hcmd : (h.tillComplete c status payload).cmd = (h.answerKept c status payload).cmd := hdone.1 .cmd (by simp)
    have hlater (f : Fld) (v : Nat) (hf : (f, v) ∈ [(Fld.tillLastSeq, c.seq), (.tillCfgSeqValid, 1)])
        (hn : f ∉ [Fld.tillState, .tillRespStatus, .tillRespLength, .tillRespSeq]) :
        (h.tillComplete c status payload).getF f c.till = v % 2 ^ f.width :=
      (hdone.2 _ _ (by simp_all [regsOf])).trans (hseq _ hf)
    refine ⟨hset (.tillState, 3) (by simp [answerFields]), hset (.tillRespStatus, status) (by simp [answerFields]), ?_,
      hset (.tillRespSeq, c.seq) (by simp [answerFields]), hlater _ _ (by simp) (by simp), hlater _ 1 (by simp) (by simp), ?_,
      fun t ht => (till_of_cmd hcmd t).trans (htills t ht), (congrArg CmdSys.ques hcmd).trans hques,
      (congrArg CmdSys.ops hcmd).trans hops, hin, fun b hb => ?_, ?_⟩
    · exact (hset (.tillRespLength, payload.length) (by simp [answerFields])).trans
        (Nat.mod_eq_of_lt (hlen.trans_lt (by decide : 3968 < 2 ^ Fld.tillRespLength.width)))
    · rw [till_of_cmd hcmd, hstored]
    · exact (hout b hb).trans (by rw [hmem])
    · exact (hkept.mono (by simp) fun _ _ => regsOf_mono (by simp)).trans (hdone.mono (by simp) fun _ _ => regsOf_mono (by simp))
  · exact (tillBadOpcode_becomes s t).trans (by
      rw [tillRun_refused _ _ stBadOpcode _ _ _ _ hserved (by simp [hrow]) hseq (tillChecks_no_row _ _ _ _ hrow hres hlen hpen)])
  · obtain ⟨-, -, -, hcheck, -⟩ := (tillReady_iff _ _ _ _ _).1 hr
    exact (hostReadFailed_till_becomes s t).trans (by rw [tillRun_known _ _ _ _ never never _ (opRow_of_tillChecks hcheck) hr]; rfl)
  · obtain ⟨h', hb, hreq, hf⟩ := hostReadFailed_request s token r hr hs
    exact ⟨h', hb, by rw [hreq]; rfl, hf⟩
  · exact till_retry s t 0x0A05 never _ r hserved hop (seqCheck_retry s.hall (s.hall.tillCmd t) hv hseq) hr

end Sys2Proof.Machine
end

section
/-! PROOFS. Settles O32: PEN_QUEUE configures, enables and disables a queue (R67, R74, R75, Table 2.17). -/

namespace Sys2Proof.Machine

/-! ### A queue's record and state -/

@[simp] theorem que_updQue_same (h : Hall) (q : Nat) (f : Que → Que) : (h.updQue q f).que q = f (h.que q) :=
  Tab.get_set_same _ _ _ _

theorem que_updQue_ne (h : Hall) (q j : Nat) (f : Que → Que) (hj : j ≠ q) : (h.updQue q f).que j = h.que j :=
  Tab.get_set_ne _ _ _ _ _ hj

theorem que_of_cmd {h h' : Hall} (e : h'.cmd = h.cmd) (q : Nat) : h'.que q = h.que q := by
  rw [Hall.que, Hall.que, e]

theorem updQue_cmd_frame (h : Hall) (q : Nat) (f : Que → Que) (may : Fld → Nat → Prop) : Frame h (h.updQue q f) [.cmd] may :=
  frame_of_parts (fun p hp => by cases p <;> simp_all [Part.same]) rfl

/-- A queue is changed, fields of it are set, each once, and its flags follow. -/
def Hall.queSet (h : Hall) (q : Nat) (f : Que → Que) (l : List (Fld × Nat)) : Hall := ((h.updQue q f).setFs q l).queFlags q

/-- The queue is as changed, the fields are as set, and nothing else changes but the flags. -/
theorem queSet_spec (h : Hall) (q : Nat) (f : Que → Que) (l : List (Fld × Nat)) (hd : (l.map Prod.fst).Nodup)
    (hflag : ∀ g ∈ [Fld.queStatusEmpty, .queStatusFull], g ∉ l.map Prod.fst) :
    (h.queSet q f l).que q = f (h.que q) ∧ (∀ j, j ≠ q → (h.queSet q f l).que j = h.que j) ∧
      (∀ e ∈ l, (h.queSet q f l).getF e.1 q = e.2 % 2 ^ e.1.width) ∧
      Frame h (h.queSet q f l) [.cmd] (regsOf q (l.map Prod.fst ++ [.queStatusEmpty, .queStatusFull])) := by
  have hset : Frame (h.updQue q f) ((h.updQue q f).setFs q l) [] (regsOf q (l.map Prod.fst)) :=
    setFs_frame _ _ _ _ _ fun e he => ⟨rfl, List.mem_map_of_mem he⟩
  have hflags := queFlags_flags_frame ((h.updQue q f).setFs q l) q
  have hcmd : (h.queSet q f l).cmd = (h.updQue q f).cmd := (hflags.1 .cmd (by simp)).trans (hset.1 .cmd (by simp))
  refine ⟨(que_of_cmd hcmd q).trans (que_updQue_same ..), fun j hj => (que_of_cmd hcmd j).trans (que_updQue_ne _ _ _ _ hj),
    fun e he => ?_, ?_⟩
  · have hne : e.1 ∉ [Fld.queStatusEmpty, .queStatusFull] := fun hm => hflag e.1 hm (List.mem_map_of_mem he)
    exact (hflags.2 _ _ fun hm => hne hm.2).trans (getF_setFs l _ q he hd)
  · exact (updQue_cmd_frame h q f _).trans ((hset.mono (by simp) fun _ _ => regsOf_mono (List.subset_append_left _ _)).trans
      (hflags.mono (by simp) fun _ _ => regsOf_mono (List.subset_append_right _ _)))

/-! ### PEN_QUEUE -/

/-- A queue that has just taken its record. -/
def Que.configured (r : QueRec) (x : Que) : Que := { x with qrec := some r, seq := 0, phase := true, sinceRaise := 0 }

/-- A queue that has just been enabled. -/
def Que.enabled (x : Que) : Que := { x with phase := true, sinceRaise := 0 }

/-- What PEN_QUEUE makes of a queue that it gives a record and enables (R67, R74). -/
def Hall.queOpened (h : Hall) (q : Nat) (r : QueRec) : Hall :=
  (h.queSet q (Que.configured r) [(.queProd, 0), (.queCons, 0)]).queSet q Que.enabled
    [(.queProd, 0), (.queCons, 0), (.queStatusDbReject, 0), (.queStatusEnabled, 1)]

theorem queEnable_of_not_evt (h : Hall) (q : Nat) (r : QueRec) (ht : r.typ ≠ 2) :
    h.queEnable q r = h.queSet q Que.enabled [(.queProd, 0), (.queCons, 0), (.queStatusDbReject, 0), (.queStatusEnabled, 1)] :=
  if_neg ht

/-- A new record with ENABLE opens the queue. -/
theorem penQueue_opens (c : TillCmd) (h : Hall) (hlen : c.length = 33) (hok : h.queRecOk c (decodeQueRec c) = true) (hp : c.pen ≠ 255)
    (hg : (h.que (c.arg 0 2)).grant = some c.pen) (hnone : (h.que (c.arg 0 2)).qrec = none)
    (hoff : h.flag .queStatusEnabled (c.arg 0 2) = false) (ht : (decodeQueRec c).typ ≠ 2) (hen : c.arg 32 1 = 1) :
    penQueue c h = okWith (h.queOpened (c.arg 0 2) (decodeQueRec c)) := by
  have hcount : h.queCount (c.arg 0 2) = 0 := by simp [Hall.queCount, hnone]
  have hevt : h.secondEvt (c.arg 0 2) (decodeQueRec c) = false := by simp [Hall.secondEvt, ht]
  simp [penQueue, hlen, hok, hp, hg, hnone, hoff, hen, hcount, hevt, queEnable_of_not_evt _ _ _ ht]
  rfl

/-- The record in force without ENABLE disables a queue that no request in flight names. -/
theorem penQueue_closes (c : TillCmd) (h : Hall) (hlen : c.length = 33) (hok : h.queRecOk c (decodeQueRec c) = true) (hp : c.pen ≠ 255)
    (hg : (h.que (c.arg 0 2)).grant = some c.pen) (hrec : (h.que (c.arg 0 2)).qrec = some (decodeQueRec c))
    (hon : h.flag .queStatusEnabled (c.arg 0 2) = true) (hfl : (h.que (c.arg 0 2)).inFlight = 0) (hen : c.arg 32 1 = 0) :
    penQueue c h = okWith (h.setF .queStatusEnabled (c.arg 0 2) 0) := by
  simp [penQueue, hlen, hok, hp, hg, hrec, hon, hen, hfl]

/-- A queue that is opened is ENABLED with its record, both indices 0 and DB_REJECT clear, and no other queue changes. -/
theorem queOpened_spec (h : Hall) (q : Nat) (r : QueRec) :
    (h.queOpened q r).que q = Que.enabled (Que.configured r (h.que q)) ∧ (∀ j, j ≠ q → (h.queOpened q r).que j = h.que j) ∧
      (∀ e ∈ [(Fld.queProd, 0), (.queCons, 0), (.queStatusDbReject, 0), (.queStatusEnabled, 1)],
        (h.queOpened q r).getF e.1 q = e.2 % 2 ^ e.1.width) ∧
      Frame h (h.queOpened q r) [.cmd]
        (regsOf q [.queProd, .queCons, .queStatusDbReject, .queStatusEnabled, .queStatusFull, .queStatusEmpty]) := by
  obtain ⟨hque, hother, -, hf⟩ := queSet_spec h q (Que.configured r) [(.queProd, 0), (.queCons, 0)] (by simp) (by simp)
  obtain ⟨hque', hother', hset', hf'⟩ := queSet_spec (h.queSet q (Que.configured r) [(.queProd, 0), (.queCons, 0)]) q Que.enabled
    [(.queProd, 0), (.queCons, 0), (.queStatusDbReject, 0), (.queStatusEnabled, 1)] (by simp) (by simp)
  exact ⟨hque'.trans (congrArg _ hque), fun j hj => (hother' j hj).trans (hother j hj), hset',
    (hf.mono (by simp) fun _ _ => regsOf_mono (by simp)).trans (hf'.mono (by simp) fun _ _ => regsOf_mono (by simp))⟩

/-- A till command that is ready is answered by what its body gives. -/
theorem answers_of_tillWide {i : Instr} {s : State} {t code status : Nat} {sc wide : TillCmd → Hall → Bool}
    {body : TillCmd → Hall → Answer} {payload : Bytes} {h' : Hall} (hi : exec i s = s.tillWide t code sc wide body)
    (hr : s.hall.tillReady t code (sc (s.hall.tillCmd t) s.hall) (wide (s.hall.tillCmd t) s.hall) = true)
    (ha : body (s.hall.tillCmd t) s.hall = ⟨status, payload, h'⟩) : Answers i s t status payload h' := by
  have hb := hi.trans (tillWide_ready s t code sc wide body hr)
  rwa [ha] at hb

/-- Settles O32. -/
theorem queueEnabling : Obligations.QueueEnabling := by
  intro s t b c q r hr hlen hok hp hg
  refine ⟨fun hnone hoff ht hen => ?_, fun hrec hon hfl hen => ?_⟩
  · obtain ⟨hque, hother, hset, hf⟩ := queOpened_spec s.hall q r
    refine ⟨_, answers_of_tillWide rfl hr (penQueue_opens c s.hall hlen hok hp hg hnone hoff ht hen), ?_, hset (.queStatusEnabled, 1) (by simp),
      hset (.queProd, 0) (by simp), hset (.queCons, 0) (by simp), hset (.queStatusDbReject, 0) (by simp), ?_, ?_, hother, hf⟩
    · exact congrArg Que.qrec hque
    · exact congrArg Que.seq hque
    · exact congrArg Que.phase hque
  · exact answers_of_tillWide rfl hr (penQueue_closes c s.hall hlen hok hp hg hrec hon hfl hen)

end Sys2Proof.Machine
end

section
/-! PROOFS. Settles O33: virtual functions and function level resets (R50, R51). -/

namespace Sys2Proof.Machine

/-! ### Pens -/

@[simp] theorem pen_updPen_same (h : Hall) (p : Nat) (f : Pen → Pen) : (h.updPen p f).pen p = f (h.pen p) :=
  Tab.get_set_same _ _ _ _

theorem pen_updPen_ne (h : Hall) (p q : Nat) (f : Pen → Pen) (hq : q ≠ p) : (h.updPen p f).pen q = h.pen q :=
  Tab.get_set_ne _ _ _ _ _ hq

theorem pen_of_avail {h h' : Hall} (e : h'.avail = h.avail) (p : Nat) : h'.pen p = h.pen p := by
  rw [Hall.pen, Hall.pen, e]

theorem updPen_frame (h : Hall) (p : Nat) (f : Pen → Pen) (may : Fld → Nat → Prop) : Frame h (h.updPen p f) [.avail] may :=
  frame_of_parts (fun q hq => by cases q <;> simp_all [Part.same]) rfl

theorem penIntake_frame (h : Hall) (p : Nat) (on : Bool) (may : Fld → Nat → Prop) : Frame h (h.penIntake p on) [.data] may :=
  frame_of_parts (fun q hq => by cases q <;> simp_all [Part.same, Hall.penIntake]) rfl

@[simp] theorem penIntake_pen (h : Hall) (p : Nat) (on : Bool) (q : Nat) : (h.penIntake p on).pen q = h.pen q := rfl

/-- The parts that a pen's reset begins to change. -/
def resetParts : List Part := .avail :: .data :: postParts

/-- A pen that changes state posts PEN_STATE: its own record changes, and what an event changes. -/
theorem setPenState_frame (h : Hall) (p : Nat) (st : PenState) : Frame h (h.setPenState p st) (.avail :: postParts) postReg := by
  unfold Hall.setPenState
  split
  · exact Frame.refl _ _ _
  · exact ((updPen_frame _ _ _ _).mono (by simp) fun _ _ => id).trans
      ((postBoth_frame _ _ _ _).mono (fun _ => List.mem_cons_of_mem _) fun _ _ => id)

theorem setPenState_state (h : Hall) (p : Nat) (st : PenState) : ((h.setPenState p st).pen p).state = st := by
  unfold Hall.setPenState
  split
  · assumption
  · rw [pen_of_avail ((postBoth_frame _ _ _ _).1 .avail (by simp [postParts])), pen_updPen_same]

theorem setPenState_pen_ne (h : Hall) (p q : Nat) (st : PenState) (hq : q ≠ p) : (h.setPenState p st).pen q = h.pen q := by
  unfold Hall.setPenState
  split
  · rfl
  · rw [pen_of_avail ((postBoth_frame _ _ _ _).1 .avail (by simp [postParts])), pen_updPen_ne _ _ _ _ hq]

/-- A change of a pen that is no change of its state. -/
theorem updPen_state (h : Hall) (p q : Nat) (f : Pen → Pen) (hf : ∀ x, (f x).state = x.state) :
    ((h.updPen p f).pen q).state = (h.pen q).state := by
  by_cases hq : q = p
  · rw [hq, pen_updPen_same, hf]
  · rw [pen_updPen_ne _ _ _ _ hq]

theorem takeover_state (h : Hall) (p q : Nat) : ((h.takeover p).pen q).state = (h.pen q).state := by
  unfold Hall.takeover
  dsimp only
  split
  · rfl
  split
  · rw [penIntake_pen, penIntake_pen, updPen_state, updPen_state] <;> exact fun _ => rfl
  · rfl

theorem takeover_frame (h : Hall) (p : Nat) (may : Fld → Nat → Prop) : Frame h (h.takeover p) [.avail, .data] may := by
  unfold Hall.takeover
  dsimp only
  split
  · exact Frame.refl _ _ _
  split
  · exact (((updPen_frame _ _ _ _).trans (updPen_frame _ _ _ _)).mono (by simp) fun _ _ => id).trans
      (((penIntake_frame _ _ _ _).trans (penIntake_frame _ _ _ _)).mono (by simp) fun _ _ => id)
  · exact Frame.refl _ _ _

/-! ### The reset of a whole pen begins (Table 19.2, order 1) -/

/-- Order 1 of the reset of a whole pen that no command asked for. -/
theorem resetStart_eq (h : Hall) (p : Nat) : h.resetStart p {} =
    (((h.penIntake p false).updPen p fun x => { x with reset := some { toShed := decide ((h.pen p).state = .shed) } }).setPenState p
      .resetting).takeover p := rfl

theorem resetStart_frame (h : Hall) (p : Nat) : Frame h (h.resetStart p {}) resetParts postReg := by
  rw [resetStart_eq]
  refine Frame.trans ?_ ((takeover_frame _ _ _).mono (by simp [resetParts]) fun _ _ => id)
  refine Frame.trans ?_ ((setPenState_frame _ _ _).mono (by simp +contextual [resetParts]) fun _ _ => id)
  exact ((penIntake_frame _ _ _ _).mono (by simp [resetParts]) fun _ _ => id).trans
    ((updPen_frame _ _ _ _).mono (by simp [resetParts]) fun _ _ => id)

theorem resetStart_state (h : Hall) (p : Nat) : ((h.resetStart p {}).pen p).state = .resetting := by
  rw [resetStart_eq, takeover_state, setPenState_state]

theorem resetStart_state_ne (h : Hall) (p q : Nat) (hq : q ≠ p) : ((h.resetStart p {}).pen q).state = (h.pen q).state := by
  rw [resetStart_eq, takeover_state, setPenState_pen_ne _ _ _ _ hq]
  exact updPen_state _ _ _ _ fun _ => rfl

/-! ### A function level reset of a pen (R51) -/

/-- A function level reset begins the reset of the pen, or leaves everything as it is. -/
theorem flrPen_cases (h : Hall) (p : Nat) :
    h.flrPen p = h.resetStart p {} ∨ h.flrPen p = h ∧ (h.pen p).state ≠ .up := by
  unfold Hall.flrPen
  cases hst : (h.pen p).state <;> simp

theorem flrPen_frame (h : Hall) (p : Nat) : Frame h (h.flrPen p) resetParts postReg := by
  rcases flrPen_cases h p with e | ⟨e, -⟩ <;> rw [e]
  · exact resetStart_frame _ _
  · exact Frame.refl _ _ _

theorem flrPen_up (h : Hall) (p : Nat) (hu : (h.pen p).state = .up) : ((h.flrPen p).pen p).state = .resetting := by
  rcases flrPen_cases h p with e | ⟨-, hn⟩
  · rw [e, resetStart_state]
  · exact absurd hu hn

theorem flrPen_resetting (h : Hall) (p q : Nat) (hr : (h.pen q).state = .resetting) : ((h.flrPen p).pen q).state = .resetting := by
  rcases flrPen_cases h p with e | ⟨e, -⟩ <;> rw [e]
  · by_cases hq : q = p
    · rw [hq, resetStart_state]
    · rw [resetStart_state_ne _ _ _ hq, hr]
  · exact hr

theorem flrPen_state_ne (h : Hall) (p q : Nat) (hq : q ≠ p) : ((h.flrPen p).pen q).state = (h.pen q).state := by
  rcases flrPen_cases h p with e | ⟨e, -⟩ <;> rw [e]
  exact resetStart_state_ne _ _ _ hq

/-- The pens of several functions, one after the other. -/
def Hall.flrPens (h : Hall) (l : List Nat) : Hall := l.foldl (fun h k => h.flrPen k) h

theorem flrPens_frame (h : Hall) (l : List Nat) : Frame h (h.flrPens l) resetParts postReg :=
  Frame.foldl (fun h k => h.flrPen k) flrPen_frame l h

/-- Each of these pens that is UP comes to be RESETTING. -/
theorem flrPens_up (l : List Nat) (h : Hall) (k : Nat) (hk : k ∈ l) (hu : (h.pen k).state = .up) :
    ((h.flrPens l).pen k).state = .resetting := by
  induction l generalizing h with
  | nil => simp at hk
  | cons x l ih =>
    by_cases hx : k = x
    · subst hx
      exact List.foldlRecOn (motive := fun g : Hall => (g.pen k).state = .resetting) l _ (flrPen_up h k hu)
        fun g hg j _ => flrPen_resetting g j k hg
    · exact ih _ ((List.mem_cons.1 hk).resolve_left hx) ((flrPen_state_ne h x k hx).trans hu)

/-! ### Tills stay granted while events are posted -/

@[simp] theorem mgmtEventTo_cmd (h : Hall) (hub : Hub) (e : Bytes) : (h.mgmtEventTo hub e).cmd = h.cmd := by
  unfold Hall.mgmtEventTo
  dsimp only
  split
  · rfl
  split
  · exact bump_cmd _ _ _ _
  · cases hub <;> rfl

@[simp] theorem queRaise_tills (h : Hall) (q : Nat) (r : QueRec) : (h.queRaise q r).cmd.tills = h.cmd.tills := by
  unfold Hall.queRaise
  extract_lets
  split <;> rfl

@[simp] theorem quePut_tills (h : Hall) (q : Nat) (mk : Nat → Nat → Bytes) : (h.quePut q mk).cmd.tills = h.cmd.tills := by
  have hflags (g : Hall) : (g.queFlags q).cmd = g.cmd := (queFlags_flags_frame g q).1 .cmd (by simp)
  unfold Hall.quePut
  split
  · rfl
  split
  · rfl
  dsimp only
  split
  · rw [Hall.mgmtEvent, mgmtEventTo_cmd, mgmtEventTo_cmd, queRaise_tills, hflags]
    rfl
  · rw [queRaise_tills, hflags]
    rfl

@[simp] theorem evtPut_tills (h : Hall) (q : Nat) (e : Event) : (h.evtPut q e).cmd.tills = h.cmd.tills := by
  unfold Hall.evtPut
  split
  · split
    · rfl
    · rw [bump_cmd]
      rfl
  · exact quePut_tills _ _ _

@[simp] theorem post_tills (h : Hall) (pen : Nat) (secure : Bool) (e : Event) : (h.post pen secure e).cmd.tills = h.cmd.tills := by
  unfold Hall.post
  split
  · exact evtPut_tills _ _ _
  split
  · exact evtPut_tills _ _ _
  · cases secure <;> rfl

@[simp] theorem postBoth_tills (h : Hall) (pen typ : Nat) (detail : Bytes) : (h.postBoth pen typ detail).cmd.tills = h.cmd.tills := by
  unfold Hall.postBoth Hall.postMany
  dsimp only
  split
  · exact post_tills _ _ _ _
  · exact (post_tills _ _ _ _).trans (post_tills _ _ _ _)

@[simp] theorem setPenState_tills (h : Hall) (p : Nat) (st : PenState) : (h.setPenState p st).cmd.tills = h.cmd.tills := by
  unfold Hall.setPenState
  split
  · rfl
  · exact postBoth_tills _ _ _ _

@[simp] theorem flrPen_tills (h : Hall) (p : Nat) : (h.flrPen p).cmd.tills = h.cmd.tills := by
  rcases flrPen_cases h p with e | ⟨e, -⟩ <;> rw [e]
  have htake (g : Hall) : (g.takeover p).cmd = g.cmd := (takeover_frame g p noReg).1 .cmd (by simp)
  rw [resetStart_eq, htake, setPenState_tills]
  rfl

theorem flrPens_tills (h : Hall) (l : List Nat) : (h.flrPens l).cmd.tills = h.cmd.tills :=
  foldl_same (fun g : Hall => g.cmd.tills) _ flrPen_tills l h

/-! ### A function level reset of PF1 (R51) -/

/-- A till is IDLE with no sequence number. -/
def Hall.TillBlank (h : Hall) (t : Nat) : Prop := h.getF .tillState t = 0 ∧ h.getF .tillCfgSeqValid t = 0

theorem tillReset_blank (h : Hall) (t : Nat) : (h.tillReset t).TillBlank t := by
  constructor <;> simp [Hall.tillReset, Hall.tillIdle, getF_clearFs, Hall.setFs, getF_setF_fld]

theorem tillReset_getF_unit (h : Hall) (t : Nat) (f : Fld) (u : Nat) (hu : u ≠ t) : (h.tillReset t).getF f u = h.getF f u := by
  simp [Hall.tillReset, Hall.tillIdle, getF_clearFs, Hall.setFs, getF_setF_unit, hu]

theorem tillReset_vf (h : Hall) (t u : Nat) : ((h.tillReset t).till u).vf = (h.till u).vf := by
  have hc : (h.tillReset t).till u = (h.tillIdle t).till u := till_of_cmd (clearFs_cmd _ _ _) u
  have hs : (h.setFs t [(.tillState, 0), (.tillCfgSeqValid, 0)]).till u = h.till u := till_of_cmd (setFs_cmd _ _ _) u
  rw [hc, Hall.tillIdle]
  by_cases hu : u = t
  · subst hu
    rw [till_updTill_same, hs]
  · rw [till_updTill_ne _ _ _ _ hu, hs]

/-- A till without a virtual function returns to its reset state. -/
def Hall.tillFlr (h : Hall) (t : Nat) : Hall := if (h.till t).vf.isNone then h.tillReset t else h

theorem tillFlr_vf (h : Hall) (t u : Nat) : ((h.tillFlr t).till u).vf = (h.till u).vf := by
  unfold Hall.tillFlr
  split
  · exact tillReset_vf _ _ _
  · rfl

theorem tillFlr_blank (h : Hall) (t u : Nat) (hb : h.TillBlank u) : (h.tillFlr t).TillBlank u := by
  unfold Hall.tillFlr
  split
  · by_cases hu : u = t
    · exact hu ▸ tillReset_blank h u
    · exact ⟨(tillReset_getF_unit h t _ u hu).trans hb.1, (tillReset_getF_unit h t _ u hu).trans hb.2⟩
  · exact hb

/-- Of several tills, each without a virtual function comes to be blank. -/
theorem tillFlrs_blank (l : List Nat) (h : Hall) (t : Nat) (ht : t ∈ l) (hv : (h.till t).vf = none) :
    (l.foldl Hall.tillFlr h).TillBlank t := by
  induction l generalizing h with
  | nil => simp at ht
  | cons x l ih =>
    by_cases hx : t = x
    · subst hx
      have hreset : h.tillFlr t = h.tillReset t := if_pos (by simp [hv])
      exact List.foldlRecOn (motive := fun g : Hall => g.TillBlank t) l _ (hreset ▸ tillReset_blank h t)
        fun g hg j _ => tillFlr_blank g j t hg
    · exact ih _ ((List.mem_cons.1 ht).resolve_left hx) ((tillFlr_vf h x t).trans hv)

/-- A queue returns to its state at reset but stays granted, in its world. -/
def Hall.queFlr (h : Hall) (q : Nat) : Hall :=
  ((h.queFree q).updQue q fun x => { x with grant := (h.que q).grant }).setWorld 2 q (h.secureEntry 2 q)

/-- The register fields that a queue which is freed resets. -/
def freeFlds : List Fld :=
  [.queProd, .queCons, .queStatusDbReject, .queStatusEnabled, .queStatusFull, .queStatusEmpty, .count .queDrop, .sat .queDrop]

def freeReg (f : Fld) (_ : Nat) : Prop := f ∈ freeFlds

theorem freeReg_of_regsOf {l : List Fld} (hl : l ⊆ freeFlds) {u : Nat} (f : Fld) (v : Nat) (hf : regsOf u l f v) : freeReg f v :=
  hl hf.2

theorem setWorld_frame (h : Hall) (kind idx : Nat) (secure : Bool) (may : Fld → Nat → Prop) :
    Frame h (h.setWorld kind idx secure) [.wat] may :=
  frame_of_parts (fun p hp => by cases p <;> simp_all [Part.same, Hall.setWorld]) rfl

theorem queFree_frame (h : Hall) (q : Nat) : Frame h (h.queFree q) [.cmd, .wat] freeReg := by
  have hc := (clearFs_frame h q [.queProd, .queCons, .queStatusDbReject, .queStatusEnabled, .queStatusFull]).mono
    (parts' := [.cmd, .wat]) (by simp) (freeReg_of_regsOf (by simp [freeFlds]))
  have he := hc.trans (setF_frame _ .queStatusEmpty q 1 _ _ (by simp [freeReg, freeFlds]))
  have hd := he.trans ((clearCtr_frame _ q .queDrop).mono (by simp) (freeReg_of_regsOf (by simp [freeFlds])))
  refine hd.trans (Frame.trans ?_ ((setWorld_frame _ _ _ _ _).mono (by simp) fun _ _ => id))
  exact frame_of_parts (fun p hp => by cases p <;> simp_all [Part.same]) rfl

theorem queFlr_frame (h : Hall) (q : Nat) : Frame h (h.queFlr q) [.cmd, .wat] freeReg :=
  ((queFree_frame h q).trans ((updQue_cmd_frame _ _ _ _).mono (by simp) fun _ _ => id)).trans
    ((setWorld_frame _ _ _ _ _).mono (by simp) fun _ _ => id)

/-- The tills that a reset of PF1 returns, after the pens of its virtual functions. -/
def Hall.pf1Tills (h : Hall) (vfs : List Nat) : Hall := (List.range 96).foldl (fun h n => h.tillFlr (32 + n)) (h.flrPens vfs)

theorem pf1Tills_blank (h : Hall) (vfs : List Nat) (t : Nat) (h32 : 32 ≤ t) (h128 : t < 128) (hv : (h.till t).vf = none) :
    (h.pf1Tills vfs).TillBlank t := by
  have ht : t ∈ (List.range 96).map (32 + ·) := List.mem_map.2 ⟨t - 32, List.mem_range.2 (by omega), by omega⟩
  have hb := tillFlrs_blank _ (h.flrPens vfs) t ht (by rwa [Hall.till, flrPens_tills])
  rwa [List.foldl_map] at hb

/-- Last, a reset of PF1 frees the queues that are its own. -/
theorem pciFlr_pf1_becomes (s : State) (p : Hub) :
    ∃ mine : List Nat, Becomes (.pciFlr p .pf1) s (mine.foldl Hall.queFlr (s.hall.pf1Tills (s.hall.port p).vfs)) := ⟨_, rfl⟩

/-- Settles O33. -/
theorem functionResets : Obligations.FunctionResets := by
  refine ⟨fun s p => ⟨_, rfl, ?_, fun k => ?_, ?_, updPort_frame _ _ _ _⟩, fun s p => ?_, fun s p k hk hu => ?_, fun s p => ?_, fun s p => rfl⟩
  · rw [port_updPort_same]
  · rw [port_updPort_same]
    have hk : (∃ a < 31, a + 1 = k) ↔ 1 ≤ k ∧ k ≤ 31 :=
      ⟨fun ⟨a, ha, he⟩ => by omega, fun ⟨h1, h31⟩ => ⟨k - 1, by omega, by omega⟩⟩
    simp [hk, and_assoc]
  · cases p <;> rfl
  · let g := s.hall.updPort p fun x => { x with vfEnable := false, vfs := [] }
    have hpens : ∀ k, g.pen k = s.hall.pen k := fun k => by cases p <;> rfl
    have hf := flrPens_frame g (s.hall.port p).vfs
    have hport : (g.flrPens (s.hall.port p).vfs).port p = g.port p := by
      obtain ⟨ha, hb⟩ := hf.1 .ports (by simp [resetParts, postParts])
      cases p
      · exact ha
      · exact hb
    refine ⟨_, rfl, ?_, ?_, fun k hk hu => flrPens_up _ g k hk ((congrArg Pen.state (hpens k)).trans hu), ?_⟩
    · exact (congrArg HostPort.vfEnable hport).trans (congrArg HostPort.vfEnable (port_updPort_same _ _ _))
    · exact (congrArg HostPort.vfs hport).trans (congrArg HostPort.vfs (port_updPort_same _ _ _))
    · exact ((updPort_frame _ _ _ _).mono (by simp) fun _ _ => id).trans (hf.mono (fun _ => List.mem_cons_of_mem _) fun _ _ => id)
  · have hb : Becomes (.pciFlr p (.vf k)) s (if (s.hall.port p).vfs.contains k then s.hall.flrPen k else s.hall) := rfl
    rw [if_pos (by simpa using hk)] at hb
    exact ⟨_, hb, flrPen_up _ _ hu, flrPen_frame _ _⟩
  · obtain ⟨mine, hb⟩ := pciFlr_pf1_becomes s p
    refine ⟨_, hb, fun n h32 h128 hv => ?_⟩
    obtain ⟨hst, hseq⟩ := pf1Tills_blank s.hall (s.hall.port p).vfs n h32 h128 hv
    have hques := Frame.foldl Hall.queFlr queFlr_frame mine (s.hall.pf1Tills (s.hall.port p).vfs)
    exact ⟨(hques.2 _ _ (by simp [freeReg, freeFlds])).trans hst, (hques.2 _ _ (by simp [freeReg, freeFlds])).trans hseq⟩

end Sys2Proof.Machine
end

section
/-! PROOFS. Settles O31: stalls, tills, queues, decode shares, pairs and spares of pens (R63, R67, R411, R447, R449, R453, R466). -/

namespace Sys2Proof.Machine

/-- A till command that is ready is answered by what its body gives. -/
theorem answers_of_till {i : Instr} {s : State} {t code status : Nat} {sc : TillCmd → Hall → Bool} {body : TillCmd → Hall → Answer}
    {payload : Bytes} {h' : Hall} (hi : exec i s = s.till t code sc body)
    (hr : s.hall.tillReady t code (sc (s.hall.tillCmd t) s.hall) false = true)
    (ha : body (s.hall.tillCmd t) s.hall = ⟨status, payload, h'⟩) : Answers i s t status payload h' := by
  have hb := hi.trans (till_ready s t code sc body hr)
  rwa [ha] at hb

/-- A fold whose step gives its own place a property and leaves every other place alone does so for all its places. -/
theorem foldl_reaches {α : Type} {look : Hall → Nat → α} {f : Hall → Nat → Hall} {P : α → Prop} (hs : ∀ h i, P (look (f h i) i))
    (ho : ∀ h i j, j ≠ i → look (f h i) j = look h j) (l : List Nat) (h : Hall) :
    (∀ i ∈ l, P (look (l.foldl f h) i)) ∧ ∀ j, j ∉ l → look (l.foldl f h) j = look h j := by
  induction l generalizing h with
  | nil => simp
  | cons x l ih =>
    obtain ⟨hin, hout⟩ := ih (f h x)
    refine ⟨fun i hi => ?_, fun j hj => ?_⟩
    · by_cases hl : i ∈ l
      · exact hin i hl
      · obtain rfl := (List.mem_cons.1 hi).resolve_right hl
        rw [List.foldl_cons, hout i hl]
        exact hs h i
    · rw [List.mem_cons, not_or] at hj
      exact (hout j hj.2).trans (ho h x j hj.1)

/-! ### Stalls of a pen (R422, R426) -/

theorem zero_frame (h : Hall) (a n : Nat) (may : Fld → Nat → Prop) : Frame h (h.zero a n) [.ram, .marks] may :=
  frame_of_parts (fun p hp => by cases p <;> simp_all [Part.same, Hall.zero]) rfl

/-- The world of a stall's store or of a T0 granule changes that entry and clears memory. -/
theorem watChange_frame (h : Hall) (kind i : Nat) (secure : Bool) (hk : kind = 0 ∨ kind = 8) :
    Frame h (h.watChange kind i secure) [.ram, .marks, .wat] noReg := by
  have hset (g : Hall) := (setWorld_frame g kind i secure noReg).mono (parts' := [.ram, .marks, .wat]) (by simp) fun _ _ => id
  have hzero (g : Hall) (a n : Nat) := (zero_frame g a n noReg).mono (parts' := [.ram, .marks, .wat]) (by simp) fun _ _ => id
  unfold Hall.watChange
  split
  · exact Frame.refl _ _ _
  rcases hk with rfl | rfl
  · exact (hzero h (storeBase i) 0x400000).trans (hset _)
  · change Frame h ((if secure = true then h else h.zero _ _).setWorld 8 i secure) _ _
    split
    · exact hset h
    · exact (hzero h _ _).trans (hset _)

/-- A stall that is given away takes its pen and no role; beyond that, only worlds and the memory they clear change. -/
theorem giveStall_frame (h : Hall) (i : Nat) (p : Option Nat) :
    Frame (h.setFs i [(.tallyStallPen, p.getD 255), (.tallyStallRole, 0)]) (h.giveStall i p) [.ram, .marks, .wat] noReg :=
  (watChange_frame _ _ _ _ (.inl rfl)).trans (Frame.foldl _ (fun _ _ => watChange_frame _ _ _ _ (.inr rfl)) _ _)

theorem giveStall_stallPen_same (h : Hall) (i : Nat) (p : Option Nat) (hp : p.getD 255 < 256) :
    (h.giveStall i p).stallPen i = p.getD 255 := by
  rw [Hall.stallPen, (giveStall_frame h i p).2 _ _ id, getF_setFs _ _ _ (v := p.getD 255) (by simp) (by simp)]
  exact Nat.mod_eq_of_lt hp

theorem giveStall_stallPen_ne (h : Hall) (i j : Nat) (p : Option Nat) (hj : j ≠ i) : (h.giveStall i p).stallPen j = h.stallPen j := by
  rw [Hall.stallPen, (giveStall_frame h i p).2 _ _ id]
  exact (setFs_frame _ h i [] (fun _ v => v = i) (by simp)).2 _ _ hj

/-- The stalls given away are their new pen's, also once shadows are designated anew; no other stall changes its pen. -/
theorem giveStalls_stallPen (h : Hall) (l : List Nat) (p : Option Nat) (pen : Nat) (hp : p.getD 255 < 256) :
    (∀ i ∈ l, ((l.foldl (fun h i => h.giveStall i p) h).redesignate pen).stallPen i = p.getD 255) ∧
      ∀ i, i ∉ l → ((l.foldl (fun h i => h.giveStall i p) h).redesignate pen).stallPen i = h.stallPen i := by
  obtain ⟨hin, hout⟩ := foldl_reaches (look := Hall.stallPen) (f := fun h i => h.giveStall i p) (P := fun v => v = p.getD 255)
    (fun h i => giveStall_stallPen_same h i p hp) (fun h i j => giveStall_stallPen_ne h i j p) l h
  have hkeep (i : Nat) : ((l.foldl (fun h i => h.giveStall i p) h).redesignate pen).stallPen i =
      (l.foldl (fun h i => h.giveStall i p) h).stallPen i := (redesignate_frame _ _).2 _ _ (by simp [roleReg])
  exact ⟨fun i hi => (hkeep i).trans (hin i hi), fun i hi => (hkeep i).trans (hout i hi)⟩

/-- The pen that a command names is a byte of its header. -/
theorem tillCmd_pen_lt (h : Hall) (t : Nat) : (h.tillCmd t).pen < 256 := by
  change leAt (h.readBytes (tillBase t) 64) 8 1 < 256
  simp only [leAt, slice]
  generalize hb : (List.take 1 (List.drop 8 (h.readBytes (tillBase t) 64))) = b
  have : b.length ≤ 1 := by rw [← hb]; exact List.length_take_le _ _
  match b with
  | [] => simp [leNat]
  | [x] => simpa [leNat] using x.isLt

section
variable {s : State} {t : Fin 128} {l : List Nat} (hr : s.hall.tillReady t 0x0103 false false = true)
  (hl : (s.hall.tillCmd t).stallList 2 ((s.hall.tillCmd t).arg 1 1) = some l)
  (hlen : (s.hall.tillCmd t).length = 2 + 2 * (s.hall.tillCmd t).arg 1 1) (hnd : l.Nodup)
include hr hl hlen hnd

/-- PEN_STALLS KIND 0 gives free stalls to a pen to which no lot is granted. -/
theorem penStalls_gives (hk : (s.hall.tillCmd t).arg 0 1 = 0) (hfree : ∀ i ∈ l, s.hall.stallFree i = true)
    (hg : ∀ e ∈ s.hall.weights.lots, (s.hall.tillCmd t).pen ∉ e.2.grants) :
    Answers (.penStalls t) s t stOK []
      ((l.foldl (fun h i => h.giveStall i (some (s.hall.tillCmd t).pen)) s.hall).redesignate (s.hall.tillCmd t).pen) := by
  refine answers_of_till rfl hr ?_
  have hgrant (h' : Hall) :
      (s.hall.weights.lots.any fun e => e.2.grants.contains (s.hall.tillCmd t).pen && !h'.grantsFit e.2.grants) = false := by
    simpa using fun a b hm hc => absurd hc (hg _ hm)
  dsimp only
  rw [hl]
  simp only [hgrant]
  simp [hlen, hk, hnd.dedup, List.all_eq_true.2 hfree, okWith]

/-- PEN_STALLS KIND 1 takes loose stalls from a pen other than P0. -/
theorem penStalls_takes (hk : (s.hall.tillCmd t).arg 0 1 = 1) (hp : (s.hall.tillCmd t).pen ≠ 0)
    (hloose : ∀ i ∈ l, s.hall.stallPen i = (s.hall.tillCmd t).pen ∧ s.hall.stallLoose i = true) :
    Answers (.penStalls t) s t stOK []
      ((l.foldl (fun h i => h.giveStall i none) s.hall).redesignate (s.hall.tillCmd t).pen) := by
  refine answers_of_till rfl hr ?_
  have hpen : (l.all fun i => decide (s.hall.stallPen i = (s.hall.tillCmd t).pen)) = true :=
    List.all_eq_true.2 fun i hi => decide_eq_true (hloose i hi).1
  simp [hl, hlen, hk, hnd.dedup, hpen, List.all_eq_true.2 fun i hi => (hloose i hi).2, hp, okWith]

end

/-! ### Tills, queues and decode shares -/

/-- What a grant does to one till. -/
def Hall.grantTill (h : Hall) (p t : Nat) : Hall :=
  if (h.till t).vf = some p then h else ((h.tillIdle t).updTill t fun x => { x with vf := some p }).setWorld 1 t false

@[simp] theorem setWorld_till (h : Hall) (kind idx : Nat) (secure : Bool) (t : Nat) : (h.setWorld kind idx secure).till t = h.till t := rfl
@[simp] theorem setWorld_que (h : Hall) (kind idx : Nat) (secure : Bool) (q : Nat) : (h.setWorld kind idx secure).que q = h.que q := rfl

theorem tillIdle_till_ne (h : Hall) (t u : Nat) (hu : u ≠ t) : (h.tillIdle t).till u = h.till u :=
  (till_updTill_ne _ _ _ _ hu).trans (till_of_cmd (setFs_cmd _ _ _) u)

theorem grantTill_same (h : Hall) (p t : Nat) : ((h.grantTill p t).till t).vf = some p := by
  unfold Hall.grantTill
  split
  · assumption
  · simp

theorem grantTill_ne (h : Hall) (p t u : Nat) (hu : u ≠ t) : (h.grantTill p t).till u = h.till u := by
  unfold Hall.grantTill
  split
  · rfl
  · rw [setWorld_till, till_updTill_ne _ _ _ _ hu, tillIdle_till_ne _ _ _ hu]

/-- What a grant does to one queue. -/
def Hall.grantQue (h : Hall) (p q : Nat) : Hall :=
  if (h.que q).grant = some p then h
  else ((h.queFree q).updQue q fun x => { x with grant := some p }).setWorld 2 q (h.penSecure p)

theorem grantQue_same (h : Hall) (p q : Nat) : ((h.grantQue p q).que q).grant = some p := by
  unfold Hall.grantQue
  split
  · assumption
  · simp

theorem queFree_que_ne (h : Hall) (q j : Nat) (hj : j ≠ q) : (h.queFree q).que j = h.que j := by
  rw [Hall.queFree, setWorld_que]
  change Tab.get {} (Tab.erase (Hall.cmd _).ques q) j = Tab.get {} h.cmd.ques j
  rw [Tab.get, Tab.find_erase_ne _ _ _ hj, clearCtr_cmd, setF_cmd, clearFs_cmd]
  rfl

theorem grantQue_ne (h : Hall) (p q j : Nat) (hj : j ≠ q) : (h.grantQue p q).que j = h.que j := by
  unfold Hall.grantQue
  split
  · rfl
  · rw [setWorld_que, que_updQue_ne _ _ _ _ hj, queFree_que_ne _ _ _ hj]

theorem share_setShare (h : Hall) (e p n : Nat) : (h.setShare e p n).share e p = n := by
  change Tab.get 0 (if n = 0 then Tab.erase h.ingress.shares (32 * e + p) else Tab.set h.ingress.shares (32 * e + p) n) (32 * e + p) = n
  split
  · rename_i hn
    rw [hn, Tab.get, Tab.find_erase_same]
    rfl
  · exact Tab.get_set_same _ _ _ _

/-- The places that a grant names. -/
def grantPlaces (first n : Nat) : List Nat := (List.range n).map (first + ·)

theorem mem_grantPlaces (first n u : Nat) : u ∈ grantPlaces first n ↔ first ≤ u ∧ u < first + n := by
  simp only [grantPlaces, List.mem_map, List.mem_range]
  exact ⟨fun ⟨a, ha, he⟩ => by omega, fun hu => ⟨u - first, by omega, by omega⟩⟩

section
variable {s : State} {t : Fin 128} (hr : s.hall.tillReady t 0x0104 false false = true)
include hr

/-- PEN_GRANT KIND 1 grants tills of the host that hold no command. -/
theorem penGrant_tills (hk : (s.hall.tillCmd t).arg 0 1 = 1) (hlen : (s.hall.tillCmd t).length = 5)
    (h32 : 32 ≤ (s.hall.tillCmd t).arg 1 2) (h128 : (s.hall.tillCmd t).arg 1 2 + (s.hall.tillCmd t).arg 3 2 ≤ 128)
    (hsec : s.hall.penSecure (s.hall.tillCmd t).pen = false)
    (hidle : ∀ n, n < (s.hall.tillCmd t).arg 3 2 → s.hall.getF .tillState ((s.hall.tillCmd t).arg 1 2 + n) ≠ 1 ∧
      s.hall.getF .tillState ((s.hall.tillCmd t).arg 1 2 + n) ≠ 2) :
    Answers (.penGrant t) s t stOK [] ((grantPlaces ((s.hall.tillCmd t).arg 1 2) ((s.hall.tillCmd t).arg 3 2)).foldl
      (fun h u => h.grantTill (s.hall.tillCmd t).pen u) s.hall) := by
  refine answers_of_till rfl hr ?_
  have hbusy : ((grantPlaces ((s.hall.tillCmd t).arg 1 2) ((s.hall.tillCmd t).arg 3 2)).any fun u =>
      decide (s.hall.getF .tillState u = 1) || decide (s.hall.getF .tillState u = 2)) = false := by
    simpa [grantPlaces] using hidle
  rw [grantPlaces] at hbusy ⊢
  simp [hk, hlen, h32.not_gt, h128.not_gt, hsec, hbusy, okWith]
  rfl

/-- PEN_GRANT KIND 2 grants queues that have no record. -/
theorem penGrant_ques (hk : (s.hall.tillCmd t).arg 0 1 = 2) (hlen : (s.hall.tillCmd t).length = 5)
    (hle : (s.hall.tillCmd t).arg 1 2 + (s.hall.tillCmd t).arg 3 2 ≤ 16384)
    (hnone : ∀ n, n < (s.hall.tillCmd t).arg 3 2 → (s.hall.que ((s.hall.tillCmd t).arg 1 2 + n)).qrec = none) :
    Answers (.penGrant t) s t stOK [] ((grantPlaces ((s.hall.tillCmd t).arg 1 2) ((s.hall.tillCmd t).arg 3 2)).foldl
      (fun h q => h.grantQue (s.hall.tillCmd t).pen q) s.hall) := by
  refine answers_of_till rfl hr ?_
  simp [hk, hlen, hle.not_gt, okWith, grantPlaces]
  rw [if_neg (by rintro ⟨n, hn, hb⟩; simp [hnone n hn] at hb)]
  rfl

/-- PEN_GRANT KIND 3 sets a share that fits and that carries what the pen has declared. -/
theorem penGrant_share (hk : (s.hall.tillCmd t).arg 0 1 = 3) (hlen : (s.hall.tillCmd t).length = 3)
    (he : (s.hall.tillCmd t).arg 1 1 ≤ 15) (hp : (s.hall.tillCmd t).pen ≠ 0)
    (hfit : ((List.range 32).map fun p => if p = (s.hall.tillCmd t).pen then 0 else s.hall.share ((s.hall.tillCmd t).arg 1 1) p).sum +
      (s.hall.tillCmd t).arg 2 1 ≤ 16)
    (hdecl : s.hall.declared ((s.hall.tillCmd t).arg 1 1) (some (s.hall.tillCmd t).pen) ≤ (s.hall.tillCmd t).arg 2 1 * 77500000) :
    Answers (.penGrant t) s t stOK []
      (s.hall.setShare ((s.hall.tillCmd t).arg 1 1) (s.hall.tillCmd t).pen ((s.hall.tillCmd t).arg 2 1)) := by
  refine answers_of_till rfl hr ?_
  have h0 : ¬ ((s.hall.tillCmd t).length ≠ 3 ∨ 15 < (s.hall.tillCmd t).arg 1 1) := by omega
  simp only [hk, if_neg h0, hp, false_and, if_false, okWith]
  rw [if_neg (by omega)]

end

/-! ### Pairs (R447, R449) -/

/-- A pen in the first kind of pair, with its partner. -/
def Pen.joined (partner : Nat) (x : Pen) : Pen :=
  { x with partner := some partner, mode := 1, primary := false, unsynced := false, mirrorMva := 0, mirrorPages := 0 }

/-- PEN_PAIR MODE 1 joins two pens of one world that are in no pair. -/
theorem penPair_joins {s : State} {t : Fin 128} (hr : s.hall.tillReady t 0x0106 false false = true)
    (hlen : (s.hall.tillCmd t).length = 14) (h31 : (s.hall.tillCmd t).arg 0 1 ≤ 31)
    (hne : (s.hall.tillCmd t).arg 0 1 ≠ (s.hall.tillCmd t).pen) (hq : (s.hall.tillCmd t).arg 0 1 ≠ 0)
    (hp : (s.hall.tillCmd t).pen ≠ 0) (hm : (s.hall.tillCmd t).arg 1 1 = 1)
    (hex : s.hall.penExists ((s.hall.tillCmd t).arg 0 1) = true)
    (hsec : s.hall.penSecure ((s.hall.tillCmd t).arg 0 1) = s.hall.penSecure (s.hall.tillCmd t).pen)
    (hrp : (s.hall.pen (s.hall.tillCmd t).pen).state ≠ .resetting)
    (hrq : (s.hall.pen ((s.hall.tillCmd t).arg 0 1)).state ≠ .resetting)
    (hnp : (s.hall.pen (s.hall.tillCmd t).pen).partner = none) (hnq : (s.hall.pen ((s.hall.tillCmd t).arg 0 1)).partner = none) :
    Answers (.penPair t) s t stOK [] ((s.hall.updPen (s.hall.tillCmd t).pen (Pen.joined ((s.hall.tillCmd t).arg 0 1))).updPen
      ((s.hall.tillCmd t).arg 0 1) (Pen.joined (s.hall.tillCmd t).pen)) := by
  refine answers_of_till rfl hr ?_
  have halone : s.hall.unpair (s.hall.tillCmd t).pen = s.hall := by simp [Hall.unpair, hnp]
  simp [hlen, h31.not_gt, hne, hq, hp, hm, hex, hsec, hrp, hrq, hnp, hnq, halone, okWith]
  rfl

/-! ### Spares (R453) -/

/-- A stall is reserved as a spare. -/
def Hall.makeSpare (h : Hall) (i : Nat) : Hall := (h.updStall i fun x => { x with spare := true }).setF .tallyStallRole i 3

theorem makeSpare_spare_same (h : Hall) (i : Nat) : ((h.makeSpare i).stall i).spare = true :=
  congrArg Stall.spare (updStall_stall_same h i fun x => { x with spare := true })

theorem makeSpare_stall_ne (h : Hall) (i j : Nat) (hj : j ≠ i) : (h.makeSpare i).stall j = h.stall j :=
  Tab.get_set_ne _ _ _ _ _ hj

theorem makeSpare_role_same (h : Hall) (i : Nat) : (h.makeSpare i).getF .tallyStallRole i = 3 := getF_setF_same _ _ _ _

theorem makeSpare_role_ne (h : Hall) (i j : Nat) (hj : j ≠ i) : (h.makeSpare i).getF .tallyStallRole j = h.getF .tallyStallRole j :=
  getF_setF_unit _ _ _ _ _ _ hj

theorem makeSpares_frame (l : List Nat) (h : Hall) :
    Frame h (l.foldl Hall.makeSpare h) [.data] fun f u => f = .tallyStallRole ∧ u ∈ l := by
  induction l generalizing h with
  | nil => exact Frame.refl _ _ _
  | cons i l ih =>
    exact ((updStall_frame h i _ _ _ (by simp)).trans (setF_frame _ _ _ _ _ _ ⟨rfl, List.mem_cons_self⟩)).trans
      ((ih _).mono (by simp) fun _ _ ⟨hf, hu⟩ => ⟨hf, List.mem_cons_of_mem _ hu⟩)

/-- PEN_SPARES reserves free stalls where there is no spare yet. -/
theorem penSpares_reserves {s : State} {t : Fin 128} {l : List Nat} (hr : s.hall.tillReady t 0x010A false false = true)
    (hl : (s.hall.tillCmd t).stallList 1 ((s.hall.tillCmd t).arg 0 1) = some l)
    (hlen : (s.hall.tillCmd t).length = 1 + 2 * (s.hall.tillCmd t).arg 0 1) (h16 : (s.hall.tillCmd t).arg 0 1 ≤ 16) (hnd : l.Nodup)
    (hfree : ∀ i ∈ l, s.hall.stallFree i = true) (hnone : ∀ i, (s.hall.stall i).spare = false) :
    Answers (.penSpares t) s t stOK [] (l.foldl Hall.makeSpare s.hall) := by
  refine answers_of_till rfl hr ?_
  simp [hl, hlen, h16.not_gt, hnd.dedup, hnone, okWith]
  rw [if_neg (by rintro ⟨i, hi, hn⟩; exact absurd (hfree i hi) (by simp [hn]))]
  rfl

/-! ### PEN_QUERY and PAIR_SYNC -/

/-- What PEN_QUERY answers of a pen. -/
def Hall.penReport (h : Hall) (p : Nat) : Bytes :=
  leBytes 1 (h.pen p).state.code ++ leBytes 1 (h.pen p).priority ++ leBytes 1 (b2n (h.penSecure p)) ++
    leBytes 1 ((h.pen p).partner.getD 255) ++ leBytes 1 (h.pen p).mode ++ leBytes 1 (h.stallsOf p).length ++
    (h.stallsOf p).flatMap fun i => leBytes 1 (i / 16) ++ leBytes 1 (i % 16)

theorem penQuery_reports {s : State} {t : Fin 128}
    (hr : s.hall.tillReady t 0x010C (decide ((s.hall.tillCmd t).pen = 0)) false = true) (hlen : (s.hall.tillCmd t).length = 0) :
    Answers (.penQuery t) s t stOK (s.hall.penReport (s.hall.tillCmd t).pen) s.hall := by
  refine answers_of_till rfl hr ?_
  simp [hlen, okWith, Hall.penReport]

/-- The state, the world and the number of stalls stand at bytes 0, 2 and 5 of the report. -/
theorem penReport_fields (h : Hall) (p : Nat) :
    leAt (h.penReport p) 0 1 = (h.pen p).state.code ∧ leAt (h.penReport p) 2 1 = b2n (h.penSecure p) ∧
      leAt (h.penReport p) 5 1 = (h.stallsOf p).length % 256 := by
  have hcode : (h.pen p).state.code < 256 := by cases (h.pen p).state <;> decide
  have hsec : b2n (h.penSecure p) < 256 := by cases h.penSecure p <;> decide
  simp [Hall.penReport, leAt, slice, leBytes, leNat, Nat.mod_eq_of_lt hcode, Nat.mod_eq_of_lt hsec]

theorem writeRam_frame (h : Hall) (a : Nat) (p : Payload) : Frame h (h.writeRam a p) [.ram, .marks] noReg := by
  obtain ⟨hhost, hnvm⟩ := writeRam_host h a p
  exact frame_of_parts (fun p hp => by cases p <;> simp_all [Part.same]) (writeRam_regs _ _ _)

theorem mirrorCopy_frame (h : Hall) (src dst : Nat) : Frame h (h.mirrorCopy src dst) [.ram, .marks] noReg := by
  refine Frame.foldl _ (fun g e => ?_) _ h
  split
  · split
    · exact writeRam_frame _ _ _
    · exact Frame.refl _ _ _
  · exact Frame.refl _ _ _

/-- A former primary that is UP again is brought level with the new one. -/
theorem pairSync_becomes (s : State) (p : Fin 32) (q : Nat) (hq : (s.hall.pen p).partner = some q) (hu : (s.hall.pen p).state = .up)
    (hprim : (s.hall.pen q).primary = true) (huns : (s.hall.pen q).unsynced = true) :
    Becomes (.pairSync p) s
      (((s.hall.mirrorCopy q p).updPen q fun x => { x with unsynced := false }).postBoth p 0x0104 (leBytes 1 q)) := by
  change execPairSync p s = _
  simp [execPairSync, run_next, hq, hu, hprim, huns]

/-- Settles O31. -/
theorem penMembership : Obligations.PenMembership := by
  refine ⟨fun s t => ⟨fun hr l hl hlen hnd => ⟨fun hk hfree hg => ?_, fun hk hp hloose => ?_⟩, fun hr => ⟨?_, ?_, ?_⟩,
    fun hr hlen h31 hne hq hp hm hex hsec hrp hrq hnp hnq => ?_, fun hr l hl hlen h16 hnd hfree hnone => ?_, fun hr hlen => ?_⟩,
    fun s p q hq hu hprim huns => ?_⟩
  · exact ⟨_, penStalls_gives hr hl hlen hnd hk hfree hg, giveStalls_stallPen _ _ (some _) _ (tillCmd_pen_lt _ _)⟩
  · exact ⟨_, penStalls_takes hr hl hlen hnd hk hp hloose, giveStalls_stallPen _ _ none _ (by decide)⟩
  · intro hk hlen h32 h128 hsec hidle
    have hg := mem_grantPlaces ((s.hall.tillCmd t).arg 1 2) ((s.hall.tillCmd t).arg 3 2)
    obtain ⟨hin, hout⟩ := foldl_reaches (look := Hall.till) (P := fun x => x.vf = some (s.hall.tillCmd t).pen)
      (fun h u => grantTill_same h _ u) (fun h u v => grantTill_ne h _ u v) (grantPlaces _ _) s.hall
    exact ⟨_, penGrant_tills hr hk hlen h32 h128 hsec hidle, fun n hn => hin _ ((hg _).2 ⟨Nat.le_add_right _ _, Nat.add_lt_add_left hn _⟩),
      fun u hu => hout u (mt (hg u).1 hu)⟩
  · intro hk hlen hle hnone
    obtain ⟨hin, -⟩ := foldl_reaches (look := Hall.que) (P := fun x => x.grant = some (s.hall.tillCmd t).pen)
      (fun h q => grantQue_same h _ q) (fun h q j => grantQue_ne h _ q j) (grantPlaces _ _) s.hall
    exact ⟨_, penGrant_ques hr hk hlen hle hnone, fun n hn =>
      hin _ ((mem_grantPlaces _ _ _).2 ⟨Nat.le_add_right _ _, Nat.add_lt_add_left hn _⟩)⟩
  · intro hk hlen he hp hfit hdecl
    exact ⟨_, penGrant_share hr hk hlen he hp hfit hdecl, share_setShare _ _ _ _⟩
  · have hpq : (s.hall.tillCmd t).pen ≠ (s.hall.tillCmd t).arg 0 1 := Ne.symm hne
    refine ⟨_, penPair_joins hr hlen h31 hne hq hp hm hex hsec hrp hrq hnp hnq, ?_, ?_, ?_, ?_,
      (updPen_frame _ _ _ _).trans (updPen_frame _ _ _ _)⟩
    · rw [pen_updPen_ne _ _ _ _ hpq, pen_updPen_same]
      rfl
    · exact congrArg Pen.partner (pen_updPen_same _ _ _)
    · rw [pen_updPen_ne _ _ _ _ hpq, pen_updPen_same]
      rfl
    · exact congrArg Pen.mode (pen_updPen_same _ _ _)
  · obtain ⟨hin, hout⟩ := foldl_reaches (look := Hall.stall) (P := fun x => x.spare = true) makeSpare_spare_same
      makeSpare_stall_ne l s.hall
    obtain ⟨hrole, -⟩ := foldl_reaches (look := fun h i => h.getF .tallyStallRole i) (P := fun v => v = 3) makeSpare_role_same
      makeSpare_role_ne l s.hall
    refine ⟨_, penSpares_reserves hr hl hlen h16 hnd hfree hnone, fun i => ⟨fun hs => ?_, hin i⟩, hrole, makeSpares_frame l _⟩
    by_contra hi
    rw [hout i hi, hnone] at hs
    exact absurd hs (by decide)
  · exact ⟨_, penQuery_reports hr hlen, penReport_fields _ _⟩
  · have hcopy := mirrorCopy_frame s.hall q p
    have hpost := postBoth_frame ((s.hall.mirrorCopy q p).updPen q fun x => { x with unsynced := false }) p 0x0104 (leBytes 1 q)
    have hpen := pen_of_avail (hpost.1 .avail (by simp [postParts])) q
    rw [pen_updPen_same, pen_of_avail (hcopy.1 .avail (by simp))] at hpen
    refine ⟨_, pairSync_becomes s p q hq hu hprim huns, ?_, ?_, ?_⟩
    · exact congrArg Pen.unsynced hpen
    · exact (congrArg Pen.primary hpen).trans hprim
    · exact ((hcopy.mono (by simp) fun _ _ => False.elim).trans ((updPen_frame _ _ _ _).mono (by simp) fun _ _ => id)).trans
        (hpost.mono (by simp +contextual) fun _ _ => id)

end Sys2Proof.Machine
end

section
/-! PROOFS. What the end of a request leaves alone: no token comes into use and no queue's consumer index moves (R69, Table 7.14). -/

namespace Sys2Proof.Machine

/-! ### A token that is free, and a queue's consumer index -/

/-- In registers and requests given, token `t` is free and the consumer index of queue `q` is `c`. -/
def pastHeadIn (t q c : Nat) (regs : List RegVal) (requests : Tab Req) : Prop :=
  Tab.find requests t = none ∧ (findReg .queCons q regs).getD (Fld.queCons.resetAt q) = c

/-- Token `t` is free and the consumer index of queue `q` is `c`. -/
def Hall.PastHead (t q c : Nat) (h : Hall) : Prop := pastHeadIn t q c h.regs h.data.requests

section
variable {t q c : Nat}

theorem pastHead_iff (h : Hall) : h.PastHead t q c ↔ h.req t = none ∧ h.getF .queCons q = c := Iff.rfl

@[simp] theorem pastHeadIn_regs_requests (h : Hall) : pastHeadIn t q c h.regs h.data.requests ↔ h.PastHead t q c := Iff.rfl

@[simp] theorem pastHead_mk (regs mem outs jA jB pA pB cmd data checks tiers weights avail ingress nbrs trust power mgmt wat free) :
    Hall.PastHead t q c ⟨regs, mem, outs, jA, jB, pA, pB, cmd, data, checks, tiers, weights, avail, ingress, nbrs, trust, power, mgmt, wat,
      free⟩ ↔ pastHeadIn t q c regs data.requests := Iff.rfl

@[simp] theorem pastHead_ite (p : Prop) [Decidable p] (a b : Hall) :
    (if p then a else b).PastHead t q c ↔ if p then a.PastHead t q c else b.PastHead t q c := by
  split <;> rfl

/-- What changes no request and no consumer index. -/
theorem pastHead_congr {h h' : Hall} (hd : h'.data.requests = h.data.requests) (hr : h'.getF .queCons q = h.getF .queCons q) :
    h'.PastHead t q c ↔ h.PastHead t q c := by
  rw [pastHead_iff, pastHead_iff, Hall.req, Hall.req, hd, hr]

/-- The same for what keeps within a frame. -/
theorem Frame.pastHead {h h' : Hall} {parts : List Part} {may : Fld → Nat → Prop} (f : Frame h h' parts may) (hd : .data ∉ parts)
    (hq : ¬ may .queCons q) : h'.PastHead t q c ↔ h.PastHead t q c :=
  pastHead_congr (congrArg Data.requests (f.1 .data hd)) (f.2 _ _ hq)

/-- A fold keeps what each of its steps keeps. -/
@[simp] theorem foldl_pastHead {α : Type} (f : Hall → α → Hall) (hf : ∀ h a, (f h a).PastHead t q c ↔ h.PastHead t q c) (l : List α)
    (h : Hall) : (l.foldl f h).PastHead t q c ↔ h.PastHead t q c := by
  induction l generalizing h with
  | nil => exact Iff.rfl
  | cons x l ih => exact (ih _).trans (hf h x)

@[simp] theorem upTo_pastHead (n : Nat) (h : Hall) (f : Hall → Nat → Hall) (hf : ∀ h k, (f h k).PastHead t q c ↔ h.PastHead t q c) :
    (upTo n h f).PastHead t q c ↔ h.PastHead t q c := foldl_pastHead f hf _ h

/-! ### Registers, records and memory -/

@[simp] theorem setF_pastHead (h : Hall) (f : Fld) (u v : Nat) (hf : f ≠ .queCons) :
    (h.setF f u v).PastHead t q c ↔ h.PastHead t q c := pastHead_congr rfl (getF_setF_fld _ _ _ _ _ _ hf.symm)

@[simp] theorem setFs_pastHead (h : Hall) (u : Nat) (l : List (Fld × Nat)) (hl : ∀ e ∈ l, e.1 ≠ .queCons) :
    (h.setFs u l).PastHead t q c ↔ h.PastHead t q c :=
  (setFs_frame l h u [] (fun f _ => f ≠ .queCons) hl).pastHead (by simp) (by simp)

@[simp] theorem clearFs_pastHead (h : Hall) (u : Nat) (l : List Fld) (hl : .queCons ∉ l) :
    (h.clearFs u l).PastHead t q c ↔ h.PastHead t q c := (clearFs_frame h u l).pastHead (by simp) fun ⟨_, hm⟩ => hl hm

@[simp] theorem bump_pastHead (h : Hall) (x : Ctr) (u k : Nat) : (h.bump x u k).PastHead t q c ↔ h.PastHead t q c :=
  pastHead_congr (congrArg Data.requests (bump_data ..)) (getF_bump_ne _ _ _ _ _ _ (by simp) (by simp))

@[simp] theorem emit_pastHead (h : Hall) (o : Out) : (h.emit o).PastHead t q c ↔ h.PastHead t q c := Iff.rfl
@[simp] theorem free_pastHead (h : Hall) : h.free.2.PastHead t q c ↔ h.PastHead t q c := Iff.rfl
@[simp] theorem updStall_pastHead (h : Hall) (i : Nat) (f : Stall → Stall) : (h.updStall i f).PastHead t q c ↔ h.PastHead t q c := Iff.rfl
@[simp] theorem updTally_pastHead (h : Hall) (r : Nat) (f : Tally → Tally) : (h.updTally r f).PastHead t q c ↔ h.PastHead t q c := Iff.rfl
@[simp] theorem updQue_pastHead (h : Hall) (j : Nat) (f : Que → Que) : (h.updQue j f).PastHead t q c ↔ h.PastHead t q c := Iff.rfl
@[simp] theorem updArray_pastHead (h : Hall) (r : Nat) (f : NvArray → NvArray) : (h.updArray r f).PastHead t q c ↔ h.PastHead t q c := Iff.rfl
@[simp] theorem updChan_pastHead (h : Hall) (i : Nat) (f : ChanSt → ChanSt) : (h.updChan i f).PastHead t q c ↔ h.PastHead t q c := Iff.rfl
@[simp] theorem updRun_pastHead (h : Hall) (k : RunKey) (f : GroupRun → GroupRun) : (h.updRun k f).PastHead t q c ↔ h.PastHead t q c := Iff.rfl
@[simp] theorem updNbr_pastHead (h : Hall) (p : Nat) (f : NbrPort → NbrPort) : (h.updNbr p f).PastHead t q c ↔ h.PastHead t q c := Iff.rfl
@[simp] theorem setWorld_pastHead (h : Hall) (kind idx : Nat) (secure : Bool) : (h.setWorld kind idx secure).PastHead t q c ↔ h.PastHead t q c := Iff.rfl
@[simp] theorem zero_pastHead (h : Hall) (a n : Nat) : (h.zero a n).PastHead t q c ↔ h.PastHead t q c := Iff.rfl
@[simp] theorem hostWrite_pastHead (h : Hall) (a : Nat) (bs : Bytes) : (h.hostWrite a bs).PastHead t q c ↔ h.PastHead t q c := Iff.rfl

@[simp] theorem updPool_pastHead (h : Hall) (hub : Hub) (f : Pool → Pool) : (h.updPool hub f).PastHead t q c ↔ h.PastHead t q c := by
  cases hub <;> rfl

@[simp] theorem updImage_pastHead (h : Hall) (i : Nat) (f : Image → Image) : (h.updImage i f).PastHead t q c ↔ h.PastHead t q c := by
  unfold Hall.updImage
  split <;> rfl

@[simp] theorem updLaunch_pastHead (h : Hall) (k : Nat) (f : LaunchEntry → LaunchEntry) :
    (h.updLaunch k f).PastHead t q c ↔ h.PastHead t q c := by
  unfold Hall.updLaunch
  split <;> rfl

/-- A request that is changed has a token in use, before and after. -/
@[simp] theorem updReq_pastHead (h : Hall) (i : Nat) (f : Req → Req) : (h.updReq i f).PastHead t q c ↔ h.PastHead t q c := by
  unfold Hall.updReq
  split
  · rename_i r hr
    rw [pastHead_iff, pastHead_iff]
    refine and_congr_left' ?_
    by_cases ht : t = i
    · subst ht
      simp [Hall.req, Tab.find_set_same, show Tab.find h.data.requests t = some r from hr]
    · simp [Hall.req, Tab.find_set_ne _ _ _ _ ht]
  · rfl

@[simp] theorem writeRam_pastHead (h : Hall) (a : Nat) (p : Payload) : (h.writeRam a p).PastHead t q c ↔ h.PastHead t q c :=
  (writeRam_frame h a p).pastHead (by simp) id

@[simp] theorem provWrite_pastHead (h : Hall) (k : RunKey) (a : Nat) (p : Payload) :
    (h.provWrite k a p).PastHead t q c ↔ h.PastHead t q c := by
  unfold Hall.provWrite
  dsimp only
  rw [writeRam_pastHead, foldl_pastHead]
  intro g line
  split
  · split <;> simp
  · simp

@[simp] theorem quePut_pastHead (h : Hall) (j : Nat) (mk : Nat → Nat → Bytes) : (h.quePut j mk).PastHead t q c ↔ h.PastHead t q c :=
  (quePut_frame h j mk).pastHead (by simp [postParts]) (by simp [postReg])

@[simp] theorem closeOp_pastHead (h : Hall) (k status : Nat) (detail : Bytes) :
    (h.closeOp k status detail).PastHead t q c ↔ h.PastHead t q c :=
  (closeOp_frame h k status detail).pastHead (by simp [postParts]) (by simp [postReg])

@[simp] theorem redesignate_pastHead (h : Hall) (p : Nat) : (h.redesignate p).PastHead t q c ↔ h.PastHead t q c :=
  (redesignate_frame h p).pastHead (by simp) (by simp [roleReg])

/-! ### Commands of the weight arrays that a burst's write completes (R305, R306) -/

@[simp] theorem setBankOp_pastHead (h : Hall) (r b : Nat) (o : BankOp) : (h.setBankOp r b o).PastHead t q c ↔ h.PastHead t q c := Iff.rfl

@[simp] theorem setBankState_pastHead (h : Hall) (r b st : Nat) : (h.setBankState r b st).PastHead t q c ↔ h.PastHead t q c := by
  simp [Hall.setBankState]

@[simp] theorem bankStart_pastHead (h : Hall) (r p page op : Nat) (phys : Bool) (o : BankOp) :
    (h.bankStart r p page op phys o).PastHead t q c ↔ h.PastHead t q c := by
  simp [Hall.bankStart]

@[simp] theorem bankEnd_pastHead (h : Hall) (r b status : Nat) : (h.bankEnd r b status).PastHead t q c ↔ h.PastHead t q c := by
  simp [Hall.bankEnd]

@[simp] theorem lastCmd_pastHead (h : Hall) (r status cmd bank : Nat) : (h.lastCmd r status cmd bank).PastHead t q c ↔ h.PastHead t q c := by
  simp [Hall.lastCmd]

@[simp] theorem unlockEnd_pastHead (h : Hall) (r : Nat) : (h.unlockEnd r).PastHead t q c ↔ h.PastHead t q c := by
  simp [Hall.unlockEnd]

@[simp] theorem unlockAbandon_pastHead (h : Hall) (r : Nat) : (h.unlockAbandon r).PastHead t q c ↔ h.PastHead t q c := by
  simp [Hall.unlockAbandon]

@[simp] theorem setUnlock_pastHead (h : Hall) (r st : Nat) (u : Unlock) : (h.setUnlock r st u).PastHead t q c ↔ h.PastHead t q c := by
  simp [Hall.setUnlock]

@[simp] theorem windowWrite_pastHead (h : Hall) (hub : Hub) (r offset : Nat) (data : Bytes) :
    (h.windowWrite hub r offset data).PastHead t q c ↔ h.PastHead t q c := by
  unfold Hall.windowWrite
  (repeat' split) <;> simp

/-- A command that runs or is refused keeps what its own action keeps. -/
@[simp] theorem nvCommand_pastHead (h : Hall) (r code : Nat) (f : Hall → NvCmd → Hall)
    (hf : ∀ h x, (f h x).PastHead t q c ↔ h.PastHead t q c) : (h.nvCommand r code f).PastHead t q c ↔ h.PastHead t q c := by
  unfold Hall.nvCommand
  split
  · split
    · dsimp only
      split <;> simp [hf]
    · rfl
  · rfl

@[simp] theorem nvRunComplete_pastHead (h : Hall) (r : Nat) : (h.nvRunComplete r).PastHead t q c ↔ h.PastHead t q c := by
  simp [Hall.nvRunComplete, Hall.cmdProgram, Hall.cmdErase, Hall.cmdBlank, Hall.cmdSuspend, Hall.cmdResume, Hall.cmdReadStatus,
    Hall.cmdWp, Hall.cmdFreeze, Hall.cmdReadPage, Hall.setWp, Hall.setB]

/-! ### Reads of T3 that end (R402) -/

@[simp] theorem convSend_pastHead (h : Hall) (p k : Nat) (f : ConvFrame) : (h.convSend p k f).PastHead t q c ↔ h.PastHead t q c := by
  simp [Hall.convSend, Hall.nbrOut]

@[simp] theorem convPump_pastHead (h : Hall) (p k : Nat) (fuel : Nat) : (h.convPump p k fuel).PastHead t q c ↔ h.PastHead t q c := by
  induction fuel generalizing h with
  | zero => rfl
  | succ n ih =>
    rw [Hall.convPump]
    split
    · rfl
    split
    · exact (ih _).trans (by simp [Hall.updConv])
    · rfl

@[simp] theorem nbrPost_pastHead (h : Hall) (p k typ : Nat) (body : Bytes) (units : Nat) :
    (h.nbrPost p k typ body units).PastHead t q c ↔ h.PastHead t q c := by
  simp [Hall.nbrPost, Hall.updConv]

@[simp] theorem farDrop_pastHead (h : Hall) (read : Nat) : (h.farDrop read).PastHead t q c ↔ h.PastHead t q c := by
  simp [Hall.farDrop, Hall.farPump]

/-! ### Channels taken from an image (R291) -/

@[simp] theorem physWrite_pastHead (h : Hall) (a : Nat) (p : Payload) : (h.physWrite a p).PastHead t q c ↔ h.PastHead t q c := by
  unfold Hall.physWrite
  (repeat' split) <;> simp

@[simp] theorem land_pastHead (h : Hall) (i : Nat) (b : DmaBurst) (p : Payload) : (h.land i b p).PastHead t q c ↔ h.PastHead t q c := by
  unfold Hall.land
  (repeat' split) <;> simp

@[simp] theorem burstLeaves_pastHead (h : Hall) (b : DmaBurst) : (h.burstLeaves b).PastHead t q c ↔ h.PastHead t q c := by
  unfold Hall.burstLeaves
  split <;> simp [Hall.frameBurstDone, Hall.updFrame]

@[simp] theorem dropReads_pastHead (h : Hall) (i : Nat) : (h.dropReads i).PastHead t q c ↔ h.PastHead t q c := by
  refine foldl_pastHead _ (fun g b => ?_) _ _
  split <;> simp

@[simp] theorem chanDrop_pastHead (h : Hall) (i : Nat) : (h.chanDrop i).PastHead t q c ↔ h.PastHead t q c := by
  unfold Hall.chanDrop
  split
  · rfl
  · dsimp only
    rw [bump_pastHead, updChan_pastHead, setFs_pastHead _ _ _ (by simp), free_pastHead, free_pastHead, free_pastHead, free_pastHead,
      foldl_pastHead, dropReads_pastHead]
    intro g b
    split
    · split <;> simp
    · simp

@[simp] theorem chanRelease_pastHead (h : Hall) (i : Nat) : (h.chanRelease i).PastHead t q c ↔ h.PastHead t q c := by
  simp [Hall.chanRelease]

/-! ### Images released and requests ended -/

@[simp] theorem releaseRun_pastHead (h : Hall) (k : RunKey) : (h.releaseRun k).PastHead t q c ↔ h.PastHead t q c := Iff.rfl

@[simp] theorem bufWorld_pastHead (h : Hall) (r : Nat) (b : Nat × Nat) : (h.bufWorld r b).PastHead t q c ↔ h.PastHead t q c := by
  simp [Hall.bufWorld]

@[simp] theorem imageFree_pastHead (h : Hall) (handle : Nat) : (h.imageFree handle).PastHead t q c ↔ h.PastHead t q c := by
  unfold Hall.imageFree
  dsimp only
  split <;> simp

@[simp] theorem imageSettle_pastHead (h : Hall) (handle : Nat) : (h.imageSettle handle).PastHead t q c ↔ h.PastHead t q c := by
  unfold Hall.imageSettle
  (repeat' split) <;> simp

end

end Sys2Proof.Machine
end

section
/-! PROOFS. Settles O38: the entry at the head of a request queue (R68, R193, R197, R260, Table 2.18). -/

namespace Sys2Proof.Machine

/-! ### An entry is taken -/

/-- The request that intake makes of an entry, with its status. -/
def Hall.entryReq (h : Hall) (q : Nat) (r : QueRec) (e : ReqEntry) (status : Nat) : Req :=
  { hub := if h.hubLost (hubOf q) then otherHub (hubOf q) else hubOf q, pen := r.pen, queue := q, resultQueue := r.resultQueue
    launch := e.launch, handle := (h.launchImage r.pen e.launch).getD 0, tag := e.tag
    inMva := e.inMva, inBytes := e.inBytes, outMva := e.outMva, outBytes := e.outBytes, stamp := e.stamp
    status := status, order := h.data.taken
    chkOn := h.flag .tallyPenchkChkOn r.pen, fCode := h.getF .tallyPenchkFCode r.pen }

/-- A request enters the table under a token. -/
def Hall.enterReq (h : Hall) (token : Nat) (x : Req) : Hall :=
  { h with data.requests := Tab.set h.data.requests token x, data.lastToken := token, data.taken := h.data.taken + 1 }

/-- One more request of a launch entry is in flight, where the entry exists. -/
def Hall.launchUsed (h : Hall) (pen launch : Nat) : Hall :=
  if launch ≤ 255 then h.updLaunch (256 * pen + launch) fun l => { l with used := l.used + 1 } else h

/-- The head entry of queue `q` becomes request `x`, in flight. -/
def Hall.entryTaken (h : Hall) (q : Nat) (r : QueRec) (x : Req) : Hall :=
  (((h.queTake q r).updQue r.resultQueue fun y => { y with inFlight := y.inFlight + 1 }).enterReq h.newToken x).launchUsed r.pen x.launch

/-- Translations that an entry's two windows take. -/
def ReqEntry.translations (e : ReqEntry) : Nat := (mvaPieces e.inMva e.inBytes).length + (mvaPieces e.outMva e.outBytes).length

/-- The entry at the head of a queue in host memory. -/
def Hall.headReq (h : Hall) (q : Nat) (r : QueRec) : ReqEntry := decodeReq (h.hostRead (r.base + 64 * h.getF .queCons q) 64)

section
variable {s : State} {q : Fin 16384} {r : QueRec} (hr : (s.hall.que q).qrec = some r) (ht : r.typ = 0)
  (hon : s.hall.flag .queStatusEnabled q = true) (hn : s.hall.queCount q ≠ 0) (hres : s.hall.resReady r.resultQueue = true)
  (hup : (s.hall.pen r.pen).state = .up)
include hr ht hon hn hres hup

/-- An entry that intake does not refuse waits while its launch entry takes no requests. -/
theorem requestIntake_waits (hi : s.hall.intakeRefusal r (s.hall.headReq q r) = none)
    (hl : s.hall.launchOpen r.pen (s.hall.headReq q r).launch = false) : Becomes (.requestIntake q) s s.hall := by
  change execRequestIntake q s = _
  rw [Hall.headReq] at hi hl
  simp [execRequestIntake, run_next, hr, ht, hon, hn, hres, hup, Hall.headEntry, hi, hl]

/-- An entry that intake does not refuse is taken once its launch entry takes requests. -/
theorem requestIntake_takes (hi : s.hall.intakeRefusal r (s.hall.headReq q r) = none)
    (hl : s.hall.launchOpen r.pen (s.hall.headReq q r).launch = true) :
    Becomes (.requestIntake q) s ((s.hall.entryTaken q r (s.hall.entryReq q r (s.hall.headReq q r) 0)).bump .mmuTranslations
      (hubNum (s.hall.entryReq q r (s.hall.headReq q r) 0).hub) (s.hall.headReq q r).translations) := by
  change execRequestIntake q s = _
  rw [Hall.headReq] at hi hl
  simp [execRequestIntake, run_next, hr, ht, hon, hn, hres, hup, Hall.headEntry, hi, hl]
  rfl

/-- An entry that intake refuses is taken and ended at once. -/
theorem requestIntake_refuses {status : Nat} (hi : s.hall.intakeRefusal r (s.hall.headReq q r) = some status) :
    Becomes (.requestIntake q) s
      ((s.hall.entryTaken q r (s.hall.entryReq q r (s.hall.headReq q r) status)).endRequest s.hall.newToken) := by
  change execRequestIntake q s = _
  rw [Hall.headReq] at hi
  simp [execRequestIntake, run_next, hr, ht, hon, hn, hres, hup, Hall.headEntry, hi]
  rfl

end

/-- The registers that a queue's head moves. -/
def headReg (q : Nat) : Fld → Nat → Prop := regsOf q [.queCons, .queStatusEmpty, .queStatusFull]

theorem hostWrite_host_frame (h : Hall) (a : Nat) (bs : Bytes) (may : Fld → Nat → Prop) : Frame h (h.hostWrite a bs) [.host] may :=
  frame_of_parts (fun p hp => by cases p <;> simp_all [Part.same, Hall.hostWrite]) rfl

/-- The consumer index moves on by one, and nothing else changes but the queue's flags and what is written back (R72). -/
theorem queTake_spec (h : Hall) (q : Nat) (r : QueRec) (hlog : r.log2 ≤ 16) :
    (h.queTake q r).getF .queCons q = (h.getF .queCons q + 1) % queSize r ∧ Frame h (h.queTake q r) [.host] (headReg q) := by
  have hlt : (h.getF .queCons q + 1) % queSize r < 65536 :=
    (Nat.mod_lt _ (Nat.two_pow_pos _)).trans_le (queSize_le r hlog)
  obtain ⟨hset, hf⟩ := setIndex_spec h (f := .queCons) (by simp) q _ hlt
  have hback : Frame (h.setIndex .queCons q ((h.getF .queCons q + 1) % queSize r)) (h.queTake q r) [.host] noReg := by
    unfold Hall.queTake
    dsimp only
    split
    · exact hostWrite_host_frame _ _ _ _
    · exact Frame.refl _ _ _
  exact ⟨(hback.2 _ _ id).trans hset, (hf.mono (by simp) fun _ _ => id).trans (hback.mono (fun _ => id) fun _ _ => False.elim)⟩

theorem launchUsed_frame (h : Hall) (pen launch : Nat) (may : Fld → Nat → Prop) : Frame h (h.launchUsed pen launch) [.data] may := by
  unfold Hall.launchUsed Hall.updLaunch
  split
  · split
    · exact frame_of_parts (fun p hp => by cases p <;> simp_all [Part.same]) rfl
    · exact Frame.refl _ _ _
  · exact Frame.refl _ _ _

theorem launchUsed_requests (h : Hall) (pen launch : Nat) :
    (h.launchUsed pen launch).data.requests = h.data.requests ∧ (h.launchUsed pen launch).data.lastToken = h.data.lastToken ∧
      (h.launchUsed pen launch).data.taken = h.data.taken := by
  unfold Hall.launchUsed Hall.updLaunch
  split
  · split <;> exact ⟨rfl, rfl, rfl⟩
  · exact ⟨rfl, rfl, rfl⟩

/-- A taken entry is a request under the next free token, and the consumer index moves on. -/
theorem entryTaken_spec (h : Hall) (q : Nat) (r : QueRec) (x : Req) (hlog : r.log2 ≤ 16) :
    (h.entryTaken q r x).req h.newToken = some x ∧ (h.entryTaken q r x).data.lastToken = h.newToken ∧
      (h.entryTaken q r x).data.taken = h.data.taken + 1 ∧
      (h.entryTaken q r x).getF .queCons q = (h.getF .queCons q + 1) % queSize r ∧
      Frame h (h.entryTaken q r x) [.host, .cmd, .data] (headReg q) := by
  obtain ⟨hcons, hf⟩ := queTake_spec h q r hlog
  let g := (h.queTake q r).updQue r.resultQueue fun y => { y with inFlight := y.inFlight + 1 }
  have henter : Frame g (g.enterReq h.newToken x) [.data] noReg :=
    frame_of_parts (fun p hp => by cases p <;> simp_all [Part.same, Hall.enterReq]) rfl
  have hused := launchUsed_frame (g.enterReq h.newToken x) r.pen x.launch noReg
  have htail : Frame (h.queTake q r) (h.entryTaken q r x) [.cmd, .data] noReg :=
    ((updQue_cmd_frame _ _ _ _).mono (by simp) fun _ _ => id).trans ((henter.trans hused).mono (by simp) fun _ _ => id)
  obtain ⟨hreq, hlast, htaken⟩ := launchUsed_requests (g.enterReq h.newToken x) r.pen x.launch
  have hdata : (h.queTake q r).data = h.data := hf.1 .data (by simp)
  refine ⟨?_, hlast, ?_, (htail.2 _ _ id).trans hcons,
    (hf.mono (by simp) fun _ _ => id).trans (htail.mono (by simp) fun _ _ => False.elim)⟩
  · exact (congrArg (Tab.find · h.newToken) hreq).trans (Tab.find_set_same _ _ _)
  · exact htaken.trans (congrArg (fun d : Data => d.taken + 1) hdata)

/-- A request that ends leaves its token free, and every queue's consumer index where it is. -/
theorem endRequest_pastHead (h : Hall) (token q : Nat) : (h.endRequest token).PastHead token q (h.getF .queCons q) := by
  unfold Hall.endRequest
  split
  · rename_i hnone
    exact (pastHead_iff _).2 ⟨hnone, rfl⟩
  · have herased : Hall.PastHead token q (h.getF .queCons q) { h with data.requests := Tab.erase h.data.requests token } :=
      (pastHead_iff _).2 ⟨Tab.find_erase_same _ _, rfl⟩
    dsimp only
    split <;> simpa using herased

/-- Settles O38. -/
theorem requestTaken : Obligations.RequestTaken := by
  intro s q r hr ht hlog hon hn hres hup e
  refine ⟨fun hi hl => ?_, fun hi hl => requestIntake_waits hr ht hon hn hres hup hi hl, fun hi _ => ?_⟩
  · have hb := requestIntake_takes hr ht hon hn hres hup hi hl
    obtain ⟨hreq, hlast, htaken, hcons, hf⟩ := entryTaken_spec s.hall q r (s.hall.entryReq q r (s.hall.headReq q r) 0) hlog
    refine ⟨_, hb, ?_, ?_, ?_, ?_, ?_⟩
    · rw [Hall.req, bump_data]
      exact congrArg (Option.map _) hreq
    · exact (getF_bump_ne _ _ _ _ _ _ (by simp) (by simp)).trans hcons
    · rw [bump_data, hlast]
    · rw [bump_data, htaken]
    · exact (hf.mono (fun _ => id) fun _ _ => .inl).trans (bump_frame _ _ _ _ _ _ (by simp) (by simp))
  · obtain ⟨status, hstatus⟩ := Option.isSome_iff_exists.1 hi
    obtain ⟨-, -, -, hcons, -⟩ := entryTaken_spec s.hall q r (s.hall.entryReq q r e status) hlog
    obtain ⟨hfree, hindex⟩ := (pastHead_iff _).1
      (endRequest_pastHead (s.hall.entryTaken q r (s.hall.entryReq q r e status)) s.hall.newToken q)
    exact ⟨_, requestIntake_refuses hr ht hon hn hres hup hstatus, hfree, hindex.trans hcons⟩

end Sys2Proof.Machine
end

section
/-! SUPPORT. Integer tiles of the Ox (R91, R94, R107, R114–R116): accumulators in two's complement, dot products as sums over k,
and the entries of the accumulator grid. -/

namespace Sys2Proof

/-! ### Two's complement -/

/-- Reading `w` bits as a signed value keeps them. -/
theorem toSigned_emod (w v : Nat) (hw : w ≠ 0) : toSigned w v % (2 ^ w : Nat) = (v % 2 ^ w : Nat) := by
  have hlt : ((v % 2 ^ w : Nat) : Int) < (2 ^ w : Nat) := Int.ofNat_lt.2 (Nat.mod_lt _ (Nat.two_pow_pos w))
  rw [toSigned, if_neg hw]
  split
  · exact Int.emod_eq_of_lt (Int.natCast_nonneg _) hlt
  · rw [Int.sub_emod_right]
    exact Int.emod_eq_of_lt (Int.natCast_nonneg _) hlt

/-- A signed value of `w + 1` bits lies within their range. -/
theorem toSigned_bounds (w v : Nat) : -(2 ^ w : Nat) ≤ toSigned (w + 1) v ∧ toSigned (w + 1) v < (2 ^ w : Nat) := by
  have hpow : (2 ^ (w + 1) : Nat) = 2 * 2 ^ w := by rw [Nat.pow_succ, Nat.mul_comm]
  have hlt := Nat.mod_lt v (Nat.two_pow_pos (w + 1))
  rw [toSigned, if_neg (Nat.succ_ne_zero w), Nat.add_sub_cancel, hpow]
  rw [hpow] at hlt
  generalize (2 ^ w : Nat) = p at *
  split <;> omega

theorem abs_toSigned_le (w v : Nat) : |toSigned (w + 1) v| ≤ (2 ^ w : Nat) := by
  obtain ⟨hlo, hhi⟩ := toSigned_bounds w v
  exact abs_le.2 ⟨hlo, hhi.le⟩

/-- A value within the range of `w + 1` bits is read back as it was written. -/
theorem toSigned_ofSigned (w : Nat) (v : Int) (hlo : -(2 ^ w : Nat) ≤ v) (hhi : v < (2 ^ w : Nat)) :
    toSigned (w + 1) (ofSigned (w + 1) v) = v := by
  have hpos : ((2 ^ (w + 1) : Nat) : Int) ≠ 0 := Int.natCast_ne_zero.2 (Nat.two_pow_pos _).ne'
  have hbits : ((ofSigned (w + 1) v % 2 ^ (w + 1) : Nat) : Int) = v % (2 ^ (w + 1) : Nat) := by
    rw [Int.natCast_emod, ofSigned, Int.toNat_of_nonneg (Int.emod_nonneg v hpos), Int.emod_emod_of_dvd v dvd_rfl]
  have hdvd := Int.ModEq.dvd (hbits.symm.trans (toSigned_emod (w + 1) (ofSigned (w + 1) v) (Nat.succ_ne_zero w)).symm)
  obtain ⟨hlo', hhi'⟩ := toSigned_bounds w (ofSigned (w + 1) v)
  refine sub_eq_zero.1 (Int.eq_zero_of_abs_lt_dvd hdvd (abs_lt.2 ?_))
  rw [Nat.pow_succ]
  omega

end Sys2Proof

namespace Sys2Proof.Machine

/-- A change of some of its 40 bits changes an accumulator. -/
theorem flipInt_ne (v : Int) (m : Nat) (hm : m % 2 ^ 40 ≠ 0) : flipInt v m ≠ v := by
  intro heq
  have hbits : ofSigned 40 v < 2 ^ 40 := by unfold ofSigned; omega
  have hsame : (ofSigned 40 v ^^^ m % 2 ^ 40) = ofSigned 40 v := by
    have hread := toSigned_emod 40 (ofSigned 40 v ^^^ m % 2 ^ 40) (by decide)
    rw [Nat.mod_eq_of_lt (Nat.xor_lt_two_pow hbits (Nat.mod_lt _ (by decide)))] at hread
    change flipInt v m % _ = _ at hread
    rw [heq] at hread
    exact (congrArg Int.toNat hread).symm
  exact hm (Nat.xor_right_inj.1 (hsame.trans (Nat.xor_zero _).symm))

/-- An accumulator that no upset met holds its value, within the range of R91. -/
theorem flipInt_zero {v : Int} (h : |v| < 2 ^ 39) : flipInt v 0 = v := by
  obtain ⟨hlo, hhi⟩ := abs_lt.1 h
  rw [flipInt, Nat.zero_mod, Nat.xor_zero]
  exact toSigned_ofSigned 39 v (le_of_lt hlo) hhi

/-- A check accumulator that no upset met holds its value, within the range of R116. -/
theorem flipChk_zero {v : Int} (h : |v| < 2 ^ 47) : flipChk v 0 = v := by
  obtain ⟨hlo, hhi⟩ := abs_lt.1 h
  rw [flipChk, Nat.zero_mod, Nat.xor_zero]
  exact toSigned_ofSigned 47 v (le_of_lt hlo) hhi

@[simp] theorem upsetAt_nil (r c : Nat) : upsetAt [] r c = 0 := rfl

theorem upsetAt_singleton (u : Upset) (r c : Nat) : upsetAt [u] r c = if u.row = r ∧ u.col = c then u.flip else 0 := by
  simp [upsetAt]

/-! ### Lists as sums -/

theorem sum_map_range (n : Nat) (f : Nat → Int) : ((List.range n).map f).sum = ∑ i ∈ Finset.range n, f i := rfl

theorem map_zipIdx_eq {α β : Type} (l : List α) (d : α) (f : α × Nat → β) :
    l.zipIdx.map f = (List.range l.length).map fun i => f (l.getD i d, i) := by
  refine List.ext_getElem (by simp) fun i h1 h2 => ?_
  simp only [List.length_map, List.length_zipIdx] at h1
  simp [h1]

theorem map_eq_range {α β : Type} (l : List α) (d : α) (f : α → β) :
    l.map f = (List.range l.length).map fun i => f (l.getD i d) := by
  refine List.ext_getElem (by simp) fun i h1 h2 => ?_
  simp only [List.length_map] at h1
  simp [h1]

/-- The dot product of two lists, as the Ox accumulates it. -/
def dot (p q : List Int) : Int := (List.zipWith (· * ·) p q).sum

theorem dot_comm (p q : List Int) : dot p q = dot q p := by
  rw [dot, dot, List.zipWith_comm_of_comm Int.mul_comm]

theorem dot_eq_sum (p q : List Int) : dot p q = ∑ k ∈ Finset.range q.length, p.getD k 0 * q.getD k 0 := by
  induction q generalizing p with
  | nil => simp [dot]
  | cons y q ih =>
    rw [List.length_cons, Finset.sum_range_succ']
    cases p with
    | nil => simp [dot]
    | cons x p => simpa [dot, add_comm] using ih p

/-- A dot product with a weighted sum of columns is the weighted sum of the dot products (R115). -/
theorem dot_sum_columns (p : List Int) (n len : Nat) (f : Nat → Int) (q : Nat → List Int) (hq : ∀ c < n, (q c).length = len) :
    dot p ((List.range len).map fun k => ∑ c ∈ Finset.range n, f c * (q c).getD k 0) = ∑ c ∈ Finset.range n, f c * dot p (q c) := by
  have hcol : ∀ c ∈ Finset.range n, f c * dot p (q c) = ∑ k ∈ Finset.range len, p.getD k 0 * (f c * (q c).getD k 0) := fun c hc => by
    rw [dot_eq_sum, hq c (Finset.mem_range.1 hc), Finset.mul_sum]
    exact Finset.sum_congr rfl fun k _ => Int.mul_left_comm ..
  rw [Finset.sum_congr rfl hcol, Finset.sum_comm, dot_eq_sum, List.length_map, List.length_range]
  refine Finset.sum_congr rfl fun k hk => ?_
  simp [← Finset.mul_sum, Finset.mem_range.1 hk]

/-! ### The accumulators of a tile -/

/-- The values of activation row `r`, and of weight column `c` (R91). -/
def TileIn.row (x : TileIn) (r : Nat) : List Int := (x.a.getD r []).map fun e => intOfRaw x.afmt e.raw
def TileIn.col (x : TileIn) (c : Nat) : List Int := (x.w.getD c []).map fun e => intOfRaw x.wfmt e.raw

/-- The exact dot product of row `r` and column `c`, and the accumulator that holds it under the upsets `us` (R91). -/
def TileIn.exact (x : TileIn) (r c : Nat) : Int := dot (x.row r) (x.col c)
def TileIn.acc (x : TileIn) (us : List Upset) (r c : Nat) : Int := flipInt (x.exact r c) (upsetAt us r c)

/-- The grid of the accumulators, row by row. -/
def TileIn.accGrid (x : TileIn) (us : List Upset) : List (List Int) :=
  (List.range x.a.length).map fun r => (List.range x.w.length).map (x.acc us r)

theorem getD_map_intOfRaw (f : Nat) (l : List (List Elem)) (i : Nat) :
    (l.map fun (r : List Elem) => r.map fun (e : Elem) => intOfRaw f e.raw).getD i [] = (l.getD i []).map fun e => intOfRaw f e.raw := by
  simp only [List.getD_eq_getElem?_getD, List.getElem?_map]
  cases l[i]? <;> rfl

theorem rows_getD (x : TileIn) (r : Nat) :
    (x.a.map fun r => r.map fun (e : Elem) => intOfRaw x.afmt e.raw).getD r [] = x.row r := getD_map_intOfRaw ..

theorem cols_getD (x : TileIn) (c : Nat) :
    (x.w.map fun c => c.map fun (e : Elem) => intOfRaw x.wfmt e.raw).getD c [] = x.col c := getD_map_intOfRaw ..

/-- The accumulators as `intTile` computes them. -/
theorem accGrid_eq (x : TileIn) (us : List Upset) :
    ((x.a.map fun r => r.map fun (e : Elem) => intOfRaw x.afmt e.raw).zipIdx.map fun r =>
      (x.w.map fun c => c.map fun (e : Elem) => intOfRaw x.wfmt e.raw).zipIdx.map fun c =>
        flipInt ((List.zipWith (· * ·) r.1 c.1).sum : Int) (upsetAt us r.2 c.2)) = x.accGrid us := by
  rw [map_zipIdx_eq _ [], List.length_map]
  refine List.map_congr_left fun r _ => ?_
  rw [map_zipIdx_eq _ [], List.length_map]
  refine List.map_congr_left fun c _ => ?_
  simp only [rows_getD, cols_getD]
  rfl

theorem accGrid_getD (x : TileIn) (us : List Upset) {r : Nat} (hr : r < x.a.length) :
    (x.accGrid us).getD r [] = (List.range x.w.length).map (x.acc us r) := by
  simp [TileIn.accGrid, hr]

theorem weighted_accRow_sum (x : TileIn) (us : List Upset) (r : Nat) :
    (((List.range x.w.length).map (x.acc us r)).zipIdx.map fun e => ((e.2 : Int) + 1) * e.1).sum =
      ∑ c ∈ Finset.range x.w.length, ((c : Int) + 1) * x.acc us r c := by
  rw [map_zipIdx_eq _ 0, List.length_map, List.length_range, sum_map_range]
  exact Finset.sum_congr rfl fun c hc => by simp [Finset.mem_range.1 hc]

theorem accGrid_column_sum (x : TileIn) (us : List Upset) {c : Nat} (hc : c < x.w.length) :
    ((x.accGrid us).map fun r => r.getD c 0).sum = ∑ r ∈ Finset.range x.a.length, x.acc us r c := by
  rw [TileIn.accGrid, List.map_map, sum_map_range]
  exact Finset.sum_congr rfl fun r _ => by simp [hc]

theorem intTile_chk (x : TileIn) (us : List Upset) (hc : x.checks = true) : (intTile x us).chk = intChecks x us (x.accGrid us) := by
  rw [← accGrid_eq]
  simp only [intTile, hc, if_true]

/-! ### The checks of a tile -/

/-- The rows and columns of a tile have one length. -/
structure TileIn.Square (x : TileIn) (kLen : Nat) : Prop where
  row : ∀ r ∈ x.a, r.length = kLen
  col : ∀ c ∈ x.w, c.length = kLen

/-- A check of row `r`, plain or weighted, differs from the accumulators (R115, R116). -/
def TileIn.RowFails (x : TileIn) (us : List Upset) (r : Nat) : Prop :=
  flipChk (∑ c ∈ Finset.range x.w.length, x.exact r c) (upsetAt us r (pairCols x.pair true)) ≠
      ∑ c ∈ Finset.range x.w.length, x.acc us r c ∨
    (pairRows x.pair = 64 ∧
      flipChk (∑ c ∈ Finset.range x.w.length, ((c : Int) + 1) * x.exact r c) (upsetAt us r (pairCols x.pair true + 1)) ≠
        ∑ c ∈ Finset.range x.w.length, ((c : Int) + 1) * x.acc us r c)

/-- The check of column `c` differs from the accumulators. -/
def TileIn.ColFails (x : TileIn) (us : List Upset) (c : Nat) : Prop :=
  flipChk (∑ r ∈ Finset.range x.a.length, x.exact r c) (upsetAt us (pairRows x.pair) c) ≠ ∑ r ∈ Finset.range x.a.length, x.acc us r c

theorem TileIn.Square.row_length {x : TileIn} {kLen : Nat} (h : x.Square kLen) {r : Nat} (hr : r < x.a.length) :
    (x.row r).length = kLen := by
  simpa [TileIn.row, hr] using h.row _ (List.getElem_mem hr)

theorem TileIn.Square.col_length {x : TileIn} {kLen : Nat} (h : x.Square kLen) {c : Nat} (hc : c < x.w.length) :
    (x.col c).length = kLen := by
  simpa [TileIn.col, hc] using h.col _ (List.getElem_mem hc)

/-- The weighted sum of the columns at `k`, as the checks form it. -/
theorem weightSum_eq (x : TileIn) (f : Nat → Int) (k : Nat) :
    ((x.w.map fun c => c.map fun (e : Elem) => intOfRaw x.wfmt e.raw).zipIdx.map fun c => f c.2 * c.1.getD k 0).sum =
      ∑ c ∈ Finset.range x.w.length, f c * (x.col c).getD k 0 := by
  rw [map_zipIdx_eq _ [], List.length_map, sum_map_range]
  simp only [cols_getD]

/-- The sum of the activation rows at `k`, as the checks form it. -/
theorem activationSum_eq (x : TileIn) (k : Nat) :
    ((x.a.map fun r => r.map fun (e : Elem) => intOfRaw x.afmt e.raw).map fun r => r.getD k 0).sum =
      ∑ r ∈ Finset.range x.a.length, 1 * (x.row r).getD k 0 := by
  rw [map_eq_range _ [], List.length_map, sum_map_range]
  simp only [rows_getD, one_mul]

/-- A check accumulator of row `r` before an upset: the weighted sum of the row's dot products. -/
theorem rowCheck_eq {x : TileIn} {kLen : Nat} (h : x.Square kLen) (f : Nat → Int) (r : Nat) :
    (List.zipWith (· * ·) (x.row r) ((List.range kLen).map fun k =>
      ((x.w.map fun c => c.map fun (e : Elem) => intOfRaw x.wfmt e.raw).zipIdx.map fun c => f c.2 * c.1.getD k 0).sum)).sum =
      ∑ c ∈ Finset.range x.w.length, f c * x.exact r c := by
  simp only [weightSum_eq x f]
  exact dot_sum_columns _ _ _ _ _ fun c hc => h.col_length hc

/-- The check accumulator of column `c` before an upset: the sum of the column's dot products. -/
theorem colCheck_eq {x : TileIn} {kLen : Nat} (h : x.Square kLen) (c : Nat) :
    (List.zipWith (· * ·) ((List.range kLen).map fun k =>
      ((x.a.map fun r => r.map fun (e : Elem) => intOfRaw x.afmt e.raw).map fun r => r.getD k 0).sum) (x.col c)).sum =
      ∑ r ∈ Finset.range x.a.length, x.exact r c := by
  simp only [activationSum_eq]
  refine (dot_comm _ _).trans ((dot_sum_columns _ _ _ _ _ fun r hr => h.row_length hr).trans ?_)
  simp only [one_mul, TileIn.exact, dot_comm (x.col c)]

theorem mem_intChecks_rows {x : TileIn} {kLen : Nat} (h : x.Square kLen) (us : List Upset) (r : Nat) :
    r ∈ (intChecks x us (x.accGrid us)).rows ↔ r < x.a.length ∧ rowPoison (x.a.getD r []) = false ∧ x.RowFails us r := by
  by_cases hr : r < x.a.length
  · have hlen : (x.row 0).length = kLen := h.row_length (Nat.zero_lt_of_lt hr)
    have hone := rowCheck_eq h (fun _ => 1) r
    simp only [one_mul] at hone
    simp only [intChecks, List.mem_filter, List.mem_range, hr, rows_getD, accGrid_getD x us hr, hlen, one_mul, hone,
      rowCheck_eq h (fun c => (c : Int) + 1) r, weighted_accRow_sum, sum_map_range]
    simp [TileIn.RowFails, hr, and_comm]
  · simp [intChecks, hr]

theorem mem_intChecks_cols {x : TileIn} {kLen : Nat} (h : x.Square kLen) (us : List Upset) (c : Nat) :
    c ∈ (intChecks x us (x.accGrid us)).cols ↔ c < x.w.length ∧ rowPoison (x.w.getD c []) = false ∧ x.ColFails us c := by
  by_cases hc : c < x.w.length
  · have hcheck : (List.zipWith (· * ·) ((List.range (x.row 0).length).map fun k =>
        ((x.a.map fun r => r.map fun (e : Elem) => intOfRaw x.afmt e.raw).map fun r => r.getD k 0).sum) (x.col c)).sum =
        ∑ r ∈ Finset.range x.a.length, x.exact r c := by
      rcases x.a.eq_nil_or_concat with ha | ⟨_, _, ha⟩
      · simp [ha, TileIn.row]
      · rw [h.row_length (by simp [ha]), colCheck_eq h c]
    simp only [intChecks, List.mem_filter, List.mem_range, hc, rows_getD, cols_getD, hcheck, accGrid_column_sum x us hc]
    simp [TileIn.ColFails, hc, and_comm]
  · simp [intChecks, hc]

/-- No row or column is named twice. -/
theorem intChecks_nodup (x : TileIn) (us : List Upset) (acc : List (List Int)) :
    (intChecks x us acc).rows.Nodup ∧ (intChecks x us acc).cols.Nodup :=
  ⟨(List.nodup_range.filter _).filter _, (List.nodup_range.filter _).filter _⟩

/-! ### Bounds -/

/-- The pair codes of integer operands, and the formats they take (Table 4.1). -/
theorem pairOk_integer {p a w : Nat} (hi : pairFloat p = false) (hp : pairOk p a w = true) : p < 4 ∧ a ≤ 2 ∧ w ≤ 1 := by
  simp only [pairFloat, Bool.and_eq_false_iff, decide_eq_false_iff_not] at hi
  unfold pairOk at hp
  split at hp <;> simp at hp hi <;> omega

theorem intOfRaw_weight {f : Nat} (hf : f ≤ 1) (v : Nat) : |intOfRaw f v| ≤ 128 := by
  interval_cases f
  · exact (abs_toSigned_le 3 v).trans (by decide)
  · exact abs_toSigned_le 7 v

theorem intOfRaw_activation {f : Nat} (hf : f ≤ 2) (v : Nat) : |intOfRaw f v| ≤ 255 := by
  rcases Nat.le_or_eq_of_le_succ hf with hsigned | rfl
  · exact (intOfRaw_weight hsigned v).trans (by decide)
  · rw [intOfRaw, abs_of_nonneg (Int.natCast_nonneg _)]
    omega

theorem abs_getD_le {l : List Int} {b : Int} (hb : 0 ≤ b) (hl : ∀ v ∈ l, |v| ≤ b) (k : Nat) : |l.getD k 0| ≤ b := by
  rw [List.getD_eq_getElem?_getD]
  cases hk : l[k]? with
  | none => exact hb
  | some v => exact hl v (List.mem_of_getElem? hk)

theorem abs_sum_range_le {n : Nat} {b : Int} {f : Nat → Int} (hf : ∀ i < n, |f i| ≤ b) : |∑ i ∈ Finset.range n, f i| ≤ n * b := by
  calc |∑ i ∈ Finset.range n, f i| ≤ ∑ i ∈ Finset.range n, |f i| := Finset.abs_sum_le_sum_abs _ _
    _ ≤ (Finset.range n).card • b := Finset.sum_le_card_nsmul _ _ _ fun i hi => hf i (Finset.mem_range.1 hi)
    _ = n * b := by rw [Finset.card_range, nsmul_eq_mul]

/-- A tile with integer operands of formats its pair code takes, within the array's size and the reduction limit. -/
structure TileIn.Within (x : TileIn) (kLen : Nat) : Prop extends x.Square kLen where
  integer : pairFloat x.pair = false
  formats : pairOk x.pair x.afmt x.wfmt = true
  limit : kLen ≤ 1048576
  rows : x.a.length ≤ pairRows x.pair
  cols : x.w.length ≤ pairCols x.pair true

section
variable {x : TileIn} {kLen : Nat} (h : x.Within kLen)
include h

/-- The array of an integer pair code: 64 rows, and 62 data columns beside the two of the checks (Table 4.1). -/
theorem TileIn.Within.array : pairRows x.pair = 64 ∧ pairCols x.pair true = 62 := by
  obtain ⟨hp, -⟩ := pairOk_integer h.integer h.formats
  have hrows : pairRows x.pair = 64 := if_neg (by omega)
  simp [pairCols, hrows]

theorem TileIn.Within.sizes : x.a.length ≤ 64 ∧ x.w.length ≤ 62 := by
  obtain ⟨hrows, hcols⟩ := h.array
  exact ⟨hrows ▸ h.rows, hcols ▸ h.cols⟩

theorem TileIn.Within.abs_row_le (r k : Nat) : |(x.row r).getD k 0| ≤ 255 := by
  obtain ⟨-, ha, -⟩ := pairOk_integer h.integer h.formats
  refine abs_getD_le (by decide) (fun v hv => ?_) k
  obtain ⟨e, -, rfl⟩ := List.mem_map.1 hv
  exact intOfRaw_activation ha e.raw

theorem TileIn.Within.abs_col_le (c k : Nat) : |(x.col c).getD k 0| ≤ 128 := by
  obtain ⟨-, -, hw⟩ := pairOk_integer h.integer h.formats
  refine abs_getD_le (by decide) (fun v hv => ?_) k
  obtain ⟨e, -, rfl⟩ := List.mem_map.1 hv
  exact intOfRaw_weight hw e.raw

/-- Every dot product of a tile is at most 255 · 128 · 2^20 in magnitude. -/
theorem TileIn.Within.abs_exact_le (r : Nat) {c : Nat} (hc : c < x.w.length) : |x.exact r c| ≤ 34225520640 := by
  have hsum : |x.exact r c| ≤ (kLen : Int) * 32640 := by
    rw [TileIn.exact, dot_eq_sum, h.col_length hc]
    refine abs_sum_range_le fun k _ => ?_
    rw [abs_mul]
    exact mul_le_mul (h.abs_row_le r k) (h.abs_col_le c k) (abs_nonneg _) (by decide)
  have := h.limit
  omega

/-- An accumulator that no upset met holds the exact dot product (R91). -/
theorem TileIn.Within.acc_eq {us : List Upset} {r c : Nat} (hc : c < x.w.length) (hu : upsetAt us r c = 0) :
    x.acc us r c = x.exact r c := by
  rw [TileIn.acc, hu]
  exact flipInt_zero ((h.abs_exact_le r hc).trans_lt (by decide))

/-- A check accumulator of a row that no upset met holds the exact sum, with factors of at most 62 (R115, R116). -/
theorem TileIn.Within.rowCheck_exact (r : Nat) {f : Nat → Int} (hf : ∀ c < x.w.length, |f c| ≤ 62) :
    flipChk (∑ c ∈ Finset.range x.w.length, f c * x.exact r c) 0 = ∑ c ∈ Finset.range x.w.length, f c * x.exact r c := by
  have hsum := abs_sum_range_le (n := x.w.length) (b := 62 * 34225520640) (f := fun c => f c * x.exact r c) fun c hc => by
    rw [abs_mul]
    exact mul_le_mul (hf c hc) (h.abs_exact_le r hc) (abs_nonneg _) (by decide)
  have := h.sizes.2
  exact flipChk_zero (by omega)

/-- The check accumulator of a column that no upset met holds the exact sum. -/
theorem TileIn.Within.colCheck_exact {c : Nat} (hc : c < x.w.length) :
    flipChk (∑ r ∈ Finset.range x.a.length, x.exact r c) 0 = ∑ r ∈ Finset.range x.a.length, x.exact r c := by
  have hsum := abs_sum_range_le (n := x.a.length) (f := fun r => x.exact r c) fun r _ => h.abs_exact_le r hc
  have := h.sizes.1
  exact flipChk_zero (by omega)

end

end Sys2Proof.Machine
end
section
/-! PROOFS. Settles O44: integer checks raise no false alarm and locate a single change of an accumulator (R114–R116, R119). -/

namespace Sys2Proof.Machine

/-- Sums that differ in one place alone are different. -/
theorem sum_ne_of_ne_at {n i : Nat} {f g : Nat → Int} (hi : i < n) (hne : f i ≠ g i) (heq : ∀ j < n, j ≠ i → f j = g j) :
    ∑ j ∈ Finset.range n, f j ≠ ∑ j ∈ Finset.range n, g j := by
  have hrest : ∑ j ∈ (Finset.range n).erase i, f j = ∑ j ∈ (Finset.range n).erase i, g j :=
    Finset.sum_congr rfl fun j hj => heq j (Finset.mem_range.1 (Finset.mem_of_mem_erase hj)) (Finset.ne_of_mem_erase hj)
  rw [← Finset.sum_erase_add _ f (Finset.mem_range.2 hi), ← Finset.sum_erase_add _ g (Finset.mem_range.2 hi), hrest]
  exact fun h => hne (add_left_cancel h)

/-- A list without repeats whose one member is known. -/
theorem eq_singleton_of_nodup {l : List Nat} (hl : l.Nodup) {i : Nat} (h : ∀ j, j ∈ l ↔ j = i) : l = [i] :=
  List.perm_singleton.1 ((List.perm_ext_iff_of_nodup hl (List.nodup_singleton i)).2 (by simpa using h))

section
variable {x : TileIn} {kLen : Nat} (h : x.Within kLen)
include h

/-- The checks of a row whose accumulators hold their dot products agree. -/
theorem TileIn.Within.not_rowFails {us : List Upset} {r : Nat} (hchk : ∀ c, 62 ≤ c → upsetAt us r c = 0)
    (hacc : ∀ c < x.w.length, x.acc us r c = x.exact r c) : ¬ x.RowFails us r := by
  have hsum : ∀ f : Nat → Int, ∑ c ∈ Finset.range x.w.length, f c * x.acc us r c = ∑ c ∈ Finset.range x.w.length, f c * x.exact r c :=
    fun f => Finset.sum_congr rfl fun c hc => by rw [hacc c (Finset.mem_range.1 hc)]
  have hplain := h.rowCheck_exact r (f := fun _ => 1) fun c _ => by simp
  have hweighted := h.rowCheck_exact r (f := fun c => (c : Int) + 1) fun c hc => by
    have := h.sizes.2
    rw [abs_le]
    omega
  have hone := hsum fun _ => 1
  simp only [one_mul] at hplain hone
  simp [TileIn.RowFails, h.array.2, hchk, hplain, hweighted, hone, hsum]

/-- The checks of a row fail where one of its accumulators was changed. -/
theorem TileIn.Within.rowFails {us : List Upset} {r c : Nat} (hchk : ∀ c, 62 ≤ c → upsetAt us r c = 0) (hc : c < x.w.length)
    (hne : x.acc us r c ≠ x.exact r c) (hacc : ∀ d < x.w.length, d ≠ c → x.acc us r d = x.exact r d) : x.RowFails us r := by
  have hplain := h.rowCheck_exact r (f := fun _ => 1) fun c _ => by simp
  simp only [one_mul] at hplain
  left
  rw [h.array.2, hchk 62 (le_refl _), hplain]
  exact sum_ne_of_ne_at hc hne.symm fun d hd hdc => (hacc d hd hdc).symm

/-- The check of a column whose accumulators hold their dot products agrees. -/
theorem TileIn.Within.not_colFails {us : List Upset} {c : Nat} (hc : c < x.w.length) (hchk : upsetAt us 64 c = 0)
    (hacc : ∀ r < x.a.length, x.acc us r c = x.exact r c) : ¬ x.ColFails us c := by
  rw [TileIn.ColFails, h.array.1, hchk, h.colCheck_exact hc, not_not]
  exact Finset.sum_congr rfl fun r hr => (hacc r (Finset.mem_range.1 hr)).symm

/-- The check of a column fails where one of its accumulators was changed. -/
theorem TileIn.Within.colFails {us : List Upset} {r c : Nat} (hc : c < x.w.length) (hchk : upsetAt us 64 c = 0) (hr : r < x.a.length)
    (hne : x.acc us r c ≠ x.exact r c) (hacc : ∀ q < x.a.length, q ≠ r → x.acc us q c = x.exact q c) : x.ColFails us c := by
  rw [TileIn.ColFails, h.array.1, hchk, h.colCheck_exact hc]
  exact sum_ne_of_ne_at hr hne.symm fun q hq hqr => (hacc q hq hqr).symm

/-- Without an upset no row and no column fails. -/
theorem TileIn.Within.no_false_alarm : (intChecks x [] (x.accGrid [])).failed = false := by
  have hrows : (intChecks x [] (x.accGrid [])).rows = [] := List.eq_nil_iff_forall_not_mem.2 fun r hr => by
    obtain ⟨-, -, hfails⟩ := (mem_intChecks_rows h.toSquare [] r).1 hr
    exact h.not_rowFails (fun _ _ => rfl) (fun c hc => h.acc_eq hc rfl) hfails
  have hcols : (intChecks x [] (x.accGrid [])).cols = [] := List.eq_nil_iff_forall_not_mem.2 fun c hc => by
    obtain ⟨hc, -, hfails⟩ := (mem_intChecks_cols h.toSquare [] c).1 hc
    exact h.not_colFails hc rfl (fun r _ => h.acc_eq hc rfl) hfails
  simp [ChkOut.failed, hrows, hcols]

variable {u : Upset} (hbits : u.flip % 2 ^ 40 ≠ 0)
include hbits

/-- One upset changes the accumulator it meets and no other. -/
theorem TileIn.Within.acc_singleton (r : Nat) {c : Nat} (hc : c < x.w.length) :
    x.acc [u] r c ≠ x.exact r c ↔ r = u.row ∧ c = u.col := by
  by_cases hat : u.row = r ∧ u.col = c
  · obtain ⟨rfl, rfl⟩ := hat
    have hflip : upsetAt [u] u.row u.col = u.flip := by simp [upsetAt_singleton]
    simpa [TileIn.acc, hflip] using flipInt_ne _ _ hbits
  · have hnone : upsetAt [u] r c = 0 := (upsetAt_singleton u r c).trans (if_neg hat)
    simpa [h.acc_eq hc hnone, eq_comm] using hat

theorem TileIn.Within.rowFails_singleton (hcol : u.col < x.w.length) (r : Nat) : x.RowFails [u] r ↔ r = u.row := by
  have hchk : ∀ c, 62 ≤ c → upsetAt [u] r c = 0 := fun c hc => by
    have := h.sizes.2
    exact (upsetAt_singleton u r c).trans (if_neg (by omega))
  have hacc := fun {c} => h.acc_singleton hbits r (c := c)
  constructor
  · exact fun hfails => by_contra fun hne =>
      h.not_rowFails hchk (fun c hc => not_not.1 fun hd => hne ((hacc hc).1 hd).1) hfails
  · rintro rfl
    exact h.rowFails hchk hcol ((hacc hcol).2 ⟨rfl, rfl⟩) fun d hd hdc => not_not.1 fun hne => hdc ((hacc hd).1 hne).2

theorem TileIn.Within.colFails_singleton (hrow : u.row < x.a.length) {c : Nat} (hc : c < x.w.length) : x.ColFails [u] c ↔ c = u.col := by
  have hchk : upsetAt [u] 64 c = 0 := by
    have := h.sizes.1
    exact (upsetAt_singleton u 64 c).trans (if_neg (by omega))
  have hacc := fun r => h.acc_singleton hbits r hc
  constructor
  · exact fun hfails => by_contra fun hne =>
      h.not_colFails hc hchk (fun r _ => not_not.1 fun hd => hne ((hacc r).1 hd).2) hfails
  · rintro rfl
    exact h.colFails hc hchk hrow ((hacc _).2 ⟨rfl, rfl⟩) fun q _ hqr => not_not.1 fun hne => hqr ((hacc q).1 hne).1

/-- One upset fails the checks of its row and of its column alone, where those hold no poison (R119). -/
theorem TileIn.Within.located (hrow : u.row < x.a.length) (hcol : u.col < x.w.length)
    (hpr : rowPoison (x.a.getD u.row []) = false) (hpc : rowPoison (x.w.getD u.col []) = false) :
    (intChecks x [u] (x.accGrid [u])).rows = [u.row] ∧ (intChecks x [u] (x.accGrid [u])).cols = [u.col] := by
  obtain ⟨hrows, hcols⟩ := intChecks_nodup x [u] (x.accGrid [u])
  refine ⟨eq_singleton_of_nodup hrows fun r => ?_, eq_singleton_of_nodup hcols fun c => ?_⟩
  · rw [mem_intChecks_rows h.toSquare, h.rowFails_singleton hbits hcol]
    exact ⟨fun hr => hr.2.2, by rintro rfl; exact ⟨hrow, hpr, rfl⟩⟩
  · rw [mem_intChecks_cols h.toSquare]
    constructor
    · rintro ⟨hc, -, hfails⟩
      exact (h.colFails_singleton hbits hrow hc).1 hfails
    · rintro rfl
      exact ⟨hcol, hpc, (h.colFails_singleton hbits hrow hcol).2 rfl⟩

end

/-- Settles O44: without an upset every accumulator holds its dot product, and one upset changes one sum of its row and one of its
column. -/
theorem integerUpsetLocated : Obligations.IntegerUpsetLocated := by
  intro x kLen hi hf hchecks hk har haw hr hc hpr hpc
  have h : x.Within kLen := { row := har, col := haw, integer := hi, formats := hf, limit := hk, rows := hr, cols := hc }
  have hrun : ∀ us, (runTile x us).chk = intChecks x us (x.accGrid us) := fun us => by
    rw [runTile, if_neg (by simp [hi]), intTile_chk x us hchecks]
  refine ⟨hrun [] ▸ h.no_false_alarm, fun u hrow hcol hbits => ?_⟩
  have hclean : ∀ {l : List (List Elem)} {i}, i < l.length → (∀ e ∈ l, rowPoison e = false) → rowPoison (l.getD i []) = false :=
    fun hi hl => by simpa [hi] using hl _ (List.getElem_mem hi)
  obtain ⟨hrows, hcols⟩ := h.located hbits hrow hcol (hclean hrow hpr) (hclean hcol hpc)
  rw [hrun]
  simp [ChkOut.failed, ChkOut.loc, hrows, hcols]

end Sys2Proof.Machine
end

section
/-! PROOFS. Settles O45: integer requantisation and INT32 output (R91, R94, R95, Table 3.9). -/

namespace Sys2Proof

theorem clampInt_eq_max_min {lo hi : Int} (h : lo ≤ hi) (v : Int) : clampInt lo hi v = max lo (min hi v) := by
  unfold clampInt
  split
  · omega
  · split <;> omega

end Sys2Proof

namespace Sys2Proof.Machine

/-- The rounding of R94: adding half and shifting right is the quotient rounded half up. -/
theorem shift_round (n : Int) (sh : Nat) :
    (n + if sh = 0 then 0 else 2 ^ (sh - 1)) / 2 ^ sh = ⌊(n : ℚ) / 2 ^ sh + (if sh = 0 then 0 else 1 / 2)⌋ := by
  have hcast : ((n + if sh = 0 then 0 else 2 ^ (sh - 1) : Int) : ℚ) / ((2 ^ sh : Nat) : ℚ) =
      (n : ℚ) / 2 ^ sh + (if sh = 0 then 0 else 1 / 2) := by
    cases sh with
    | zero => simp
    | succ k =>
      simp only [Nat.succ_ne_zero, if_false, Nat.add_sub_cancel]
      push_cast
      field_simp
      ring
  rw [← hcast, Rat.floor_intCast_div_natCast]
  norm_cast

theorem requant_eq {qmin qmax : Int} (hq : qmin ≤ qmax) (acc M : Int) (sh : Nat) (z : Int) :
    requant acc M sh qmin qmax z =
      max (qmin - z) (min (qmax - z) ⌊(acc * M : ℚ) / 2 ^ sh + (if sh = 0 then 0 else 1 / 2)⌋) + z := by
  have hround := shift_round (acc * M) sh
  push_cast at hround
  rw [← hround]
  exact congrArg (· + z) (clampInt_eq_max_min (by omega) _)

/-- With a multiplier of 0 nothing but the half is rounded, and it rounds down. -/
theorem floor_half (sh : Nat) : ⌊(0 : ℚ) / 2 ^ sh + (if sh = 0 then 0 else 1 / 2)⌋ = 0 := by
  rw [Int.floor_eq_zero_iff]
  split <;> norm_num

/-- The product of two INT32 values and the half of a shift to 63 stay far within 66 bits. -/
theorem requant_fits {acc M : Int} (hacc : |acc| ≤ 2 ^ 31) (hM : |M| ≤ 2 ^ 31) {sh : Nat} (hs : sh ≤ 63) :
    |acc * M + (if sh = 0 then 0 else 2 ^ (sh - 1))| < 2 ^ 65 := by
  have hprod : |acc * M| ≤ 2 ^ 31 * 2 ^ 31 := by
    rw [abs_mul]
    exact mul_le_mul hacc hM (abs_nonneg _) (by decide)
  have hhalf : |(if sh = 0 then 0 else 2 ^ (sh - 1) : Int)| ≤ 2 ^ 62 := by
    split
    · decide
    · rw [abs_of_nonneg (by positivity)]
      exact pow_le_pow_right₀ (by decide) (by omega)
  calc _ ≤ _ := abs_add_le _ _
    _ ≤ 2 ^ 31 * 2 ^ 31 + 2 ^ 62 := add_le_add hprod hhalf
    _ < 2 ^ 65 := by decide

/-- The zero point of the activations of row `r` (Table 3.9). -/
def TileIn.rowZero (x : TileIn) (r : Nat) : Int := if x.token then (x.scale.getD r (ScaleRec.ofBytes [], false)).1.z else x.za

/-- The accumulator of an element with its zero points corrected, before its saturation (Table 3.9). -/
def TileIn.corrected (x : TileIn) (us : List Upset) (r c : Nat) : Int :=
  let n := x.ent.getD c (decodeReqEnt [] false)
  x.acc us r c + n.c0 + x.rowZero r * n.c1 - n.zw * (x.row r).sum

/-- An element of row `r` and column `c` is poisoned: by an operand, by its requantisation entry or by its scale record. -/
def TileIn.poisons (x : TileIn) (r c : Nat) : Bool :=
  let n := x.ent.getD c (decodeReqEnt [] false)
  let s := x.scale.getD r (ScaleRec.ofBytes [], false)
  rowPoison (x.a.getD r []) || rowPoison (x.w.getD c []) || n.poison || (x.token && (s.1.poisonAll || s.2)) || (n.token && !x.token)

/-- Without an outlier sum, INT32 output writes the saturated accumulator into an element that is not poisoned (R91, R94). -/
theorem intTile_int32 {x : TileIn} (us : List Upset) (hfmt : x.ofmt = 8) (hout : x.outl = []) {r c : Nat} (hr : r < x.a.length)
    (hc : c < x.w.length) :
    ((intTile x us).out[r]?).bind (fun l => l[c]?) =
      some (if x.poisons r c then { raw := 0, poison := true } else { raw := rawOfInt 8 (satI32 (x.corrected us r c)) }) := by
  have hacc : ((x.accGrid us).getD r []).getD c 0 = x.acc us r c := by rw [accGrid_getD x us hr]; simp [hc]
  simp only [intTile, accGrid_eq, rows_getD]
  simp only [List.getElem?_map, List.getElem?_range, hr, hc, Option.map_some, Option.bind_some, hout, hfmt, intOutput, hacc,
    List.getElem?_nil, Option.map_none, decide_true, Bool.or_true, if_true]
  rfl

/-- An element of the output lies in a row and a column of the tile. -/
theorem intTile_out_bounds {x : TileIn} {us : List Upset} {r c : Nat} {e : Elem}
    (h : ((intTile x us).out[r]?).bind (fun l => l[c]?) = some e) : r < x.a.length ∧ c < x.w.length := by
  obtain ⟨l, hl, hel⟩ := Option.bind_eq_some_iff.1 h
  have hrow := (List.getElem?_eq_some_iff.1 hl).1
  have hlen : l.length = x.w.length := by
    simp only [intTile, List.map_map] at hl
    obtain ⟨q, -, rfl⟩ := List.mem_map.1 (List.mem_of_getElem? hl)
    simp
  exact ⟨by simpa [intTile] using hrow, hlen ▸ (List.getElem?_eq_some_iff.1 hel).1⟩

/-- Settles O45: the shift rounds half up, the bounds follow from the clamp, and INT32 output skips the requantisation. -/
theorem requantisation : Obligations.Requantisation := by
  refine ⟨fun acc M sh qmin qmax z => ?_, fun acc M sh qmin qmax z hlo hhi => ?_, fun acc M sh ha₁ ha₂ hM₁ hM₂ hs => ?_,
    fun x us r c e hfmt hout hget hclean => ?_⟩
  · exact (le_or_gt qmin qmax).imp (requant_eq · acc M sh z) id
  · have hq : qmin ≤ qmax := hlo.trans hhi
    have hzero : requant acc 0 sh qmin qmax z = z := by
      rw [requant_eq hq, Int.cast_zero, mul_zero, floor_half]
      omega
    rw [requant_eq hq]
    exact ⟨by omega, by omega, hzero⟩
  · obtain ⟨hlo, hhi⟩ := abs_lt.1 (requant_fits (abs_le.2 ⟨ha₁, by omega⟩) (abs_le.2 ⟨hM₁, by omega⟩) hs)
    exact ⟨hlo.le, hhi⟩
  · obtain ⟨hr, hc⟩ := intTile_out_bounds hget
    rw [intTile_int32 us hfmt hout hr hc] at hget
    cases hget
    split at hclean
    · cases hclean
    · rename_i hgood
      rw [if_neg hgood]
      rfl

end Sys2Proof.Machine
end

section
/-! PROOFS. Settles O42: the order of SORT and TOPK, and the set operations (R88, R143–R145). -/

namespace Sys2Proof.Machine

/-! ### The order of SORT and TOPK -/

/-- The value by which a key is ordered, the lesser first. -/
def sortRank (fmt : Nat) (descend : Bool) (x : Elem × Nat) : Int := if descend then -henKey fmt x.1.raw else henKey fmt x.1.raw

/-- `x` stands before `y`: by rank, and by index where the ranks are equal. -/
def SortsBefore (fmt : Nat) (descend : Bool) (x y : Elem × Nat) : Prop :=
  sortRank fmt descend x < sortRank fmt descend y ∨ (sortRank fmt descend x = sortRank fmt descend y ∧ x.2 < y.2)

/-- Inserts by rank, behind every entry of the same rank. -/
def insertRanked (fmt : Nat) (descend : Bool) (x : Elem × Nat) (l : List (Elem × Nat)) : List (Elem × Nat) :=
  insertKey (fun x y => decide (sortRank fmt descend x < sortRank fmt descend y)) x l

theorem sortsBefore_iff (fmt : Nat) (descend : Bool) (x y : Elem × Nat) :
    SortsBefore fmt descend x y ↔
      (if descend then henKey fmt y.1.raw < henKey fmt x.1.raw else henKey fmt x.1.raw < henKey fmt y.1.raw) ∨
        (henKey fmt x.1.raw = henKey fmt y.1.raw ∧ x.2 < y.2) := by
  cases descend <;> simp [SortsBefore, sortRank]

@[simp] theorem sortKeys_nil (fmt : Nat) (descend : Bool) : sortKeys fmt descend [] = [] := rfl

/-- The last key is inserted, under its index, into the order of those before it. -/
theorem sortKeys_concat (fmt : Nat) (descend : Bool) (ks : List Elem) (e : Elem) :
    sortKeys fmt descend (ks ++ [e]) = insertRanked fmt descend (e, ks.length) (sortKeys fmt descend ks) := by
  simp only [sortKeys, List.zipIdx_append, List.foldl_append, Nat.zero_add, List.zipIdx_singleton, List.foldl_cons, List.foldl_nil]
  cases descend <;> simp [insertRanked, sortRank]

theorem insertKey_perm (before : Elem × Nat → Elem × Nat → Bool) (x : Elem × Nat) (l : List (Elem × Nat)) :
    (insertKey before x l).Perm (x :: l) := by
  induction l with
  | nil => exact .refl _
  | cons y l ih =>
    rw [insertKey]
    split
    · exact .refl _
    · exact (ih.cons y).trans (.swap x y l)

/-- An entry with an index above all others is inserted at its place. -/
theorem insertRanked_pairwise {fmt : Nat} {descend : Bool} {x : Elem × Nat} {l : List (Elem × Nat)}
    (hl : l.Pairwise (SortsBefore fmt descend)) (hx : ∀ y ∈ l, y.2 < x.2) :
    (insertRanked fmt descend x l).Pairwise (SortsBefore fmt descend) := by
  induction l with
  | nil => exact List.pairwise_singleton _ _
  | cons y l ih =>
    obtain ⟨hy, hrest⟩ := List.pairwise_cons.1 hl
    rw [insertRanked, insertKey]
    split
    case isTrue hlt =>
      have hxy := of_decide_eq_true hlt
      refine List.pairwise_cons.2 ⟨fun z hz => .inl ?_, hl⟩
      rcases List.mem_cons.1 hz with rfl | hz
      · exact hxy
      · exact (hy z hz).elim hxy.trans fun heq => heq.1 ▸ hxy
    case isFalse hge =>
      have hyx : SortsBefore fmt descend y x :=
        (not_lt.1 fun hlt => hge (decide_eq_true hlt)).lt_or_eq.imp id fun heq => ⟨heq, hx y List.mem_cons_self⟩
      refine List.pairwise_cons.2 ⟨fun z hz => ?_, ih hrest fun z hz => hx z (List.mem_cons_of_mem _ hz)⟩
      rcases List.mem_cons.1 ((insertKey_perm _ x l).mem_iff.1 hz) with rfl | hz
      · exact hyx
      · exact hy z hz

theorem sortKeys_perm (fmt : Nat) (descend : Bool) (ks : List Elem) : (sortKeys fmt descend ks).Perm ks.zipIdx := by
  induction ks using List.reverseRecOn with
  | nil => exact .refl _
  | append_singleton ks e ih =>
    rw [sortKeys_concat, List.zipIdx_append]
    refine (insertKey_perm _ _ _).trans ((ih.cons _).trans ?_)
    simpa using (List.perm_append_singleton (e, ks.length) ks.zipIdx).symm

theorem sortKeys_pairwise (fmt : Nat) (descend : Bool) (ks : List Elem) :
    (sortKeys fmt descend ks).Pairwise (SortsBefore fmt descend) := by
  induction ks using List.reverseRecOn with
  | nil => exact .nil
  | append_singleton ks e ih =>
    rw [sortKeys_concat]
    refine insertRanked_pairwise ih fun y hy => ?_
    simpa using List.snd_lt_of_mem_zipIdx ((sortKeys_perm fmt descend ks).mem_iff.1 hy)

/-! ### Ascending lists -/

/-- A list in ascending order has ascending values, each once. -/
theorem ascending_iff (ks : List Elem) : ascending ks = true ↔ (ks.map i32).Pairwise (· < ·) := by
  rw [← List.isChain_iff_pairwise]
  induction ks with
  | nil => simp [ascending]
  | cons x ks ih =>
    cases ks with
    | nil => simp [ascending]
    | cons y ks =>
      simp only [List.map_cons, List.isChain_cons_cons] at ih ⊢
      rw [← ih]
      simp [ascending]

theorem mem_mergeVals {n : Nat} {xs ys : List Int} (hn : xs.length + ys.length ≤ n) (v : Int) :
    v ∈ mergeVals n xs ys ↔ v ∈ xs ∨ v ∈ ys := by
  fun_induction mergeVals n xs ys with
  | case1 xs ys =>
    obtain ⟨hx, hy⟩ := Nat.add_eq_zero_iff.1 (Nat.le_zero.1 hn)
    simp [List.length_eq_zero_iff.1 hx, List.length_eq_zero_iff.1 hy]
  | case2 => simp
  | case3 => simp
  | case4 n x xs y ys _ ih =>
    rw [List.mem_cons, ih (by simp at hn ⊢; omega), List.mem_cons (l := xs), or_assoc]
  | case5 n x xs y ys _ _ ih =>
    rw [List.mem_cons, ih (by simp at hn ⊢; omega), List.mem_cons (l := ys), or_left_comm]
  | case6 n x xs y ys hxy hyx ih =>
    obtain rfl : x = y := le_antisymm (not_lt.1 hyx) (not_lt.1 hxy)
    rw [List.mem_cons, ih (by simp at hn ⊢; omega), List.mem_cons, List.mem_cons, or_or_distrib_left]

theorem mergeVals_pairwise {n : Nat} {xs ys : List Int} (hn : xs.length + ys.length ≤ n) (hx : xs.Pairwise (· < ·))
    (hy : ys.Pairwise (· < ·)) : (mergeVals n xs ys).Pairwise (· < ·) := by
  fun_induction mergeVals n xs ys with
  | case1 => exact .nil
  | case2 => exact hy
  | case3 => exact hx
  | case4 n x xs y ys hxy ih =>
    have hlen : xs.length + (y :: ys).length ≤ n := by simp at hn ⊢; omega
    obtain ⟨hxs, hx⟩ := List.pairwise_cons.1 hx
    refine List.pairwise_cons.2 ⟨fun v hv => ?_, ih hlen hx hy⟩
    rcases (mem_mergeVals hlen v).1 hv with hv | hv
    · exact hxs v hv
    · exact List.rel_of_pairwise_cons (hy.cons_cons_of_trans hxy) hv
  | case5 n x xs y ys _ hyx ih =>
    have hlen : (x :: xs).length + ys.length ≤ n := by simp at hn ⊢; omega
    obtain ⟨hys, hy⟩ := List.pairwise_cons.1 hy
    refine List.pairwise_cons.2 ⟨fun v hv => ?_, ih hlen hx hy⟩
    rcases (mem_mergeVals hlen v).1 hv with hv | hv
    · exact List.rel_of_pairwise_cons (hx.cons_cons_of_trans hyx) hv
    · exact hys v hv
  | case6 n x xs y ys hxy hyx ih =>
    have hlen : xs.length + ys.length ≤ n := by simp at hn ⊢; omega
    obtain ⟨hxs, hx⟩ := List.pairwise_cons.1 hx
    obtain ⟨hys, hy⟩ := List.pairwise_cons.1 hy
    refine List.pairwise_cons.2 ⟨fun v hv => ?_, ih hlen hx hy⟩
    exact ((mem_mergeVals hlen v).1 hv).elim (hxs v) fun hv => (not_lt.1 hyx).trans_lt (hys v hv)

/-! ### Sets -/

/-- The values of a set operation: 9 intersection, 10 union, any other difference. -/
def setVals (op : Nat) (xv yv : List Int) : List Int :=
  match op with
  | 9 => xv.filter fun v => yv.contains v
  | 10 => mergeVals (xv.length + yv.length) xv yv
  | _ => xv.filter fun v => !yv.contains v

theorem mem_setVals (op : Nat) (xv yv : List Int) (v : Int) :
    v ∈ setVals op xv yv ↔ if op = 9 then v ∈ xv ∧ v ∈ yv else if op = 10 then v ∈ xv ∨ v ∈ yv else v ∈ xv ∧ v ∉ yv := by
  unfold setVals
  split
  · simp
  · simp [mem_mergeVals le_rfl]
  · rename_i h9 h10
    simp [if_neg h9, if_neg h10]

theorem setVals_pairwise (op : Nat) {xv yv : List Int} (hx : xv.Pairwise (· < ·)) (hy : yv.Pairwise (· < ·)) :
    (setVals op xv yv).Pairwise (· < ·) := by
  unfold setVals
  split
  · exact hx.filter _
  · exact mergeVals_pairwise le_rfl hx hy
  · exact hx.filter _

/-- The words of a result stand before the padding. -/
theorem padTo_take_raw (n : Nat) (res : List Int) :
    ((padTo n zeroWord (res.map fun v => ({ raw := ofSigned 32 v } : Elem))).take res.length).map Elem.raw = res.map (ofSigned 32) := by
  simp [padTo, Function.comp_def]

/-- Of clean ascending lists a set operation writes its values and their number, and no mark (R144). -/
theorem henSet_clean {p : HenParam} {m : HenMem} (free : Nat) {xs ys : List Elem} (hxs : m.list p.aOff (m.count p.aOff p.na).1 = xs)
    (hys : m.list p.bOff (m.count p.bOff p.nb).1 = ys) (hx : ascending xs = true) (hy : ascending ys = true)
    (hclean : ((xs ++ ys).any fun e => e.poison) = false) :
    (henSet p m free).lists =
      [{ off := p.outOff, count := (setVals p.op (xs.map i32) (ys.map i32)).length
         words := padTo (if p.op = 10 then p.na + p.nb else p.na) zeroWord
           ((setVals p.op (xs.map i32) (ys.map i32)).map fun v => { raw := ofSigned 32 v }) }] := by
  simp only [henSet, hxs, hys, hx, hy, hclean]
  rfl

/-- Settles O42: by induction on the keys in their order of arrival, and by the recursion of the merge. -/
theorem sortedKeysAndSets : Obligations.SortedKeysAndSets := by
  constructor
  · exact fun fmt descend ks => ⟨sortKeys_perm fmt descend ks,
      (sortKeys_pairwise fmt descend ks).imp fun {x y} => (sortsBefore_iff fmt descend x y).1⟩
  · intro p m free xs ys hx hy hclean
    refine ⟨setVals p.op (xs.map i32) (ys.map i32), _, henSet_clean free rfl rfl hx hy hclean, rfl, rfl, ?_,
      setVals_pairwise p.op ((ascending_iff xs).1 hx) ((ascending_iff ys).1 hy), mem_setVals p.op (xs.map i32) (ys.map i32)⟩
    exact padTo_take_raw ..

end Sys2Proof.Machine
end

section
/-! PROOFS. Settles O43: integer checks compare exact sums (R91, R115, R116). -/

namespace Sys2Proof.Machine

/-- The values at position `k` of activation row `r` and of weight column `c`. -/
def TileIn.actAt (x : TileIn) (r k : Nat) : Int := intOfRaw x.afmt ((x.a.getD r []).getD k { raw := 0 }).raw
def TileIn.weightAt (x : TileIn) (k c : Nat) : Int := intOfRaw x.wfmt ((x.w.getD c []).getD k { raw := 0 }).raw

theorem getD_intOfRaw {l : List Elem} {k : Nat} (hk : k < l.length) (f : Nat) :
    (l.map fun (e : Elem) => intOfRaw f e.raw).getD k 0 = intOfRaw f (l.getD k { raw := 0 }).raw := by
  simp [List.getD_eq_getElem?_getD, List.getElem?_eq_getElem hk]

/-- Upsets of other places leave a place alone. -/
theorem upsetAt_eq_zero {us : List Upset} {r c : Nat} (h : ∀ u ∈ us, ¬(u.row = r ∧ u.col = c)) : upsetAt us r c = 0 := by
  induction us with
  | nil => rfl
  | cons u us ih =>
    have hu : ¬(u.row = r ∧ u.col = c) := h u List.mem_cons_self
    simpa [upsetAt, if_neg hu] using ih fun v hv => h v (List.mem_cons_of_mem u hv)

/-- The checks of a tile read its operands and their formats alone: no zero point, entry, outlier or output format. -/
theorem intTile_chk_congr {x y : TileIn} (us : List Upset) (hp : y.pair = x.pair) (hfa : y.afmt = x.afmt) (hfw : y.wfmt = x.wfmt)
    (ha : y.a = x.a) (hw : y.w = x.w) : (intTile { y with checks := true } us).chk = (intTile { x with checks := true } us).chk := by
  simp only [intTile, intChecks, hp, hfa, hfw, ha, hw]

/-- Products with weighted sums, summed over k, are the weighted sum of the dot products. -/
theorem sum_mul_weighted (n len : Nat) (f p : Nat → Int) (q : Nat → Nat → Int) :
    ∑ k ∈ Finset.range len, p k * ∑ c ∈ Finset.range n, f c * q k c =
      ∑ c ∈ Finset.range n, f c * ∑ k ∈ Finset.range len, p k * q k c := by
  simp only [Finset.mul_sum]
  rw [Finset.sum_comm]
  exact Finset.sum_congr rfl fun c _ => Finset.sum_congr rfl fun k _ => Int.mul_left_comm ..

section
variable {x : TileIn} {kLen : Nat}

theorem TileIn.Square.exact_eq (h : x.Square kLen) {r c : Nat} (hr : r < x.a.length) (hc : c < x.w.length) :
    x.exact r c = ∑ k ∈ Finset.range kLen, x.actAt r k * x.weightAt k c := by
  rw [TileIn.exact, dot_eq_sum, h.col_length hc]
  refine Finset.sum_congr rfl fun k hk => ?_
  have hlen : k < (x.row r).length ∧ k < (x.col c).length := by
    rw [h.row_length hr, h.col_length hc]
    exact ⟨Finset.mem_range.1 hk, Finset.mem_range.1 hk⟩
  simp only [TileIn.row, TileIn.col, List.length_map] at hlen ⊢
  rw [getD_intOfRaw hlen.1, getD_intOfRaw hlen.2]
  rfl

variable (h : x.Within kLen) {us : List Upset} (hu : ∀ u ∈ us, u.row < x.a.length ∧ u.col < x.w.length)
include h

/-- A check accumulator of a row holds the sum of products of its check operands, with factors of at most 62 (R115). -/
theorem TileIn.Within.rowCheck_operands {r : Nat} (hr : r < x.a.length) {f : Nat → Int} (hf : ∀ c < x.w.length, |f c| ≤ 62) :
    flipChk (∑ c ∈ Finset.range x.w.length, f c * x.exact r c) 0 =
      ∑ k ∈ Finset.range kLen, x.actAt r k * ∑ c ∈ Finset.range x.w.length, f c * x.weightAt k c := by
  rw [h.rowCheck_exact r hf, sum_mul_weighted]
  exact Finset.sum_congr rfl fun c hc => by rw [h.toSquare.exact_eq hr (Finset.mem_range.1 hc)]

/-- The check accumulator of a column holds the sum of products of the check row with the column. -/
theorem TileIn.Within.colCheck_operands {c : Nat} (hc : c < x.w.length) :
    flipChk (∑ r ∈ Finset.range x.a.length, x.exact r c) 0 =
      ∑ k ∈ Finset.range kLen, (∑ r ∈ Finset.range x.a.length, x.actAt r k) * x.weightAt k c := by
  rw [h.colCheck_exact hc]
  simp only [Finset.sum_mul]
  rw [Finset.sum_comm]
  exact Finset.sum_congr rfl fun r hr => h.toSquare.exact_eq (Finset.mem_range.1 hr) hc

include hu

/-- Upsets of data accumulators meet no check accumulator. -/
theorem TileIn.Within.upsetAt_check : (∀ r c, 62 ≤ c → upsetAt us r c = 0) ∧ ∀ c, upsetAt us 64 c = 0 := by
  obtain ⟨hrows, hcols⟩ := h.sizes
  constructor
  · exact fun r c hc => upsetAt_eq_zero fun u hmem hat => by have := (hu u hmem).2; omega
  · exact fun c => upsetAt_eq_zero fun u hmem hat => by have := (hu u hmem).1; omega

theorem TileIn.Within.rowFails_iff {r : Nat} (hr : r < x.a.length) : x.RowFails us r ↔
    (∑ k ∈ Finset.range kLen, x.actAt r k * ∑ c ∈ Finset.range x.w.length, x.weightAt k c) ≠
        ∑ c ∈ Finset.range x.w.length, x.acc us r c ∨
      (pairRows x.pair = 64 ∧
        (∑ k ∈ Finset.range kLen, x.actAt r k * ∑ c ∈ Finset.range x.w.length, ((c : Int) + 1) * x.weightAt k c) ≠
          ∑ c ∈ Finset.range x.w.length, ((c : Int) + 1) * x.acc us r c) := by
  have hclean := (h.upsetAt_check hu).1 r
  have hplain := h.rowCheck_operands hr (f := fun _ => 1) fun c _ => by simp
  have hweighted := h.rowCheck_operands hr (f := fun c => (c : Int) + 1) fun c hc => by
    have := h.sizes.2
    rw [abs_le]
    omega
  simp only [one_mul] at hplain
  rw [TileIn.RowFails, h.array.2, hclean 62 le_rfl, hclean (62 + 1) (by decide), hplain, hweighted]

theorem TileIn.Within.colFails_iff {c : Nat} (hc : c < x.w.length) : x.ColFails us c ↔
    (∑ k ∈ Finset.range kLen, (∑ r ∈ Finset.range x.a.length, x.actAt r k) * x.weightAt k c) ≠
      ∑ r ∈ Finset.range x.a.length, x.acc us r c := by
  rw [TileIn.ColFails, h.array.1, (h.upsetAt_check hu).2 c, h.colCheck_operands hc]

end

/-- Settles O43: no check sum of a tile leaves 48 bits, so each check compares the exact sums. -/
theorem integerChecksExact : Obligations.IntegerChecksExact := by
  intro x us kLen hi hf hk har haw hr hc hu a w sum acc t
  let z : TileIn := { x with checks := true }
  have h : z.Within kLen := { row := har, col := haw, integer := hi, formats := hf, limit := hk, rows := hr, cols := hc }
  have hchk : t.chk = intChecks z us (z.accGrid us) := intTile_chk z us rfl
  have hacc : ∀ {r c}, r < x.a.length → c < x.w.length → z.acc us r c = acc r c := fun hr hc =>
    congrArg (flipInt · _) (h.toSquare.exact_eq hr hc)
  refine ⟨fun r hr hp => ?_, fun c hc hp => ?_, fun y hp hfa hfw ha hw => intTile_chk_congr us hp hfa hfw ha hw⟩
  · have hrow : ∀ f : Nat → Int, ∑ c ∈ Finset.range x.w.length, f c * z.acc us r c = ∑ c ∈ Finset.range x.w.length, f c * acc r c :=
      fun f => Finset.sum_congr rfl fun c hc => by rw [hacc hr (Finset.mem_range.1 hc)]
    have hplain := hrow fun _ => 1
    have hweighted := hrow fun c => (c : Int) + 1
    simp only [one_mul] at hplain
    rw [hchk, mem_intChecks_rows h.toSquare, h.rowFails_iff hu hr]
    simp only [show z.w = x.w from rfl, hplain, hweighted]
    exact ⟨fun hfails => hfails.2.2, fun hfails => ⟨hr, hp, hfails⟩⟩
  · have hcol : ∑ r ∈ Finset.range x.a.length, z.acc us r c = ∑ r ∈ Finset.range x.a.length, acc r c :=
      Finset.sum_congr rfl fun r hr => hacc (Finset.mem_range.1 hr) hc
    rw [hchk, mem_intChecks_cols h.toSquare, h.colFails_iff hu hc]
    simp only [show z.a = x.a from rfl, hcol]
    exact ⟨fun hfails => hfails.2.2, fun hfails => ⟨hc, hp, hfails⟩⟩

end Sys2Proof.Machine
end

section
/-! SUPPORT. What slots, counters and checks leave of the work of a stall: the steps its engines run and the steps done of open runs
(R191–R194, R205, R225). -/

namespace Sys2Proof.Machine

/-! ### The work of a stall -/

/-- A running step but for the slots it has taken, opened and filled. -/
def Running.core (r : Running) : Running := { r with inA := none, inW := none, inU := none, out := none, filled := 0 }

/-- A stall but for its troughs, the slots of its running steps and the CLEAR writes that wait. -/
def Stall.core (x : Stall) : Stall :=
  { x with troughs := [], clears := [], ox := x.ox.map Running.core, vu := x.vu.map Running.core, hen := x.hen.map Running.core }

/-- Steps done of an open run. -/
def Hall.runSteps (h : Hall) (k : RunKey) : Option Nat := (h.findRun k).map GroupRun.stepsDone

/-- The work of stall `i` and of the open runs is in `h'` as it was in `h`, and the stall's troughs are there as before. -/
structure SameWork (i : Nat) (h h' : Hall) : Prop where
  stall : (h'.stall i).core = (h.stall i).core
  runs : ∀ k, h'.runSteps k = h.runSteps k
  troughs : ∀ t, (h'.trough i t).isSome = (h.trough i t).isSome

/-- What of a running step its core holds. -/
theorem core_eq {r r' : Running} (h : r'.core = r.core) :
    r'.idx = r.idx ∧ r'.key = r.key ∧ r'.tile = r.tile ∧ r'.rowsDone = r.rowsDone ∧ r'.mismatch = r.mismatch := by
  simp_all [Running.core]

theorem running_core (x : Stall) (eng : Nat) : x.core.running eng = (x.running eng).map Running.core := by
  unfold Stall.running
  split <;> rfl

theorem onEngine_eq_some {h : Hall} {i eng : Nat} {r : Running} {st : Step} :
    h.onEngine i eng = some (r, st) ↔ (h.stall i).running eng = some r ∧ (h.stall i).step r.idx = some st := by
  unfold Hall.onEngine
  cases (h.stall i).running eng with
  | none => simp
  | some q =>
    simp only [Option.map_eq_some_iff, Option.some.injEq, Prod.mk.injEq]
    constructor
    · rintro ⟨st, hs, rfl, rfl⟩
      exact ⟨rfl, hs⟩
    · rintro ⟨rfl, hs⟩
      exact ⟨st, hs, rfl, rfl⟩

section
variable {i : Nat} {h h' h'' : Hall}

theorem SameWork.refl (i : Nat) (h : Hall) : SameWork i h h := ⟨rfl, fun _ => rfl, fun _ => rfl⟩

theorem SameWork.trans (a : SameWork i h h') (b : SameWork i h' h'') : SameWork i h h'' :=
  ⟨b.stall.trans a.stall, fun k => (b.runs k).trans (a.runs k), fun t => (b.troughs t).trans (a.troughs t)⟩

theorem SameWork.foldl {α : Type} (f : Hall → α → Hall) (hf : ∀ g a, SameWork i g (f g a)) (l : List α) (h : Hall) :
    SameWork i h (l.foldl f h) := by
  induction l generalizing h with
  | nil => exact .refl i h
  | cons a l ih => exact (hf h a).trans (ih _)

/-- What changes neither stalls nor Ledgers. -/
theorem SameWork.of_tables (hs : h'.data.stalls = h.data.stalls) (hl : h'.data.ledgers = h.data.ledgers) : SameWork i h h' := by
  constructor <;> simp [Hall.trough, Hall.runSteps, Hall.findRun, Hall.ledger, Hall.stall, hs, hl]

theorem SameWork.of_data (hd : h'.data = h.data) : SameWork i h h' := .of_tables (congrArg _ hd) (congrArg _ hd)

theorem SameWork.running (w : SameWork i h h') {eng : Nat} {r : Running} (hr : (h.stall i).running eng = some r) :
    ∃ r', (h'.stall i).running eng = some r' ∧ r'.core = r.core := by
  have hcore := congrArg (Stall.running · eng) w.stall
  simpa [running_core, hr] using hcore

theorem SameWork.onEngine (w : SameWork i h h') {eng : Nat} {r : Running} {st : Step} (ho : h.onEngine i eng = some (r, st)) :
    ∃ r', h'.onEngine i eng = some (r', st) ∧ r'.core = r.core := by
  obtain ⟨hr, hs⟩ := onEngine_eq_some.1 ho
  obtain ⟨r', hr', hcore⟩ := w.running hr
  obtain ⟨hidx, -⟩ := core_eq hcore
  have hsteps : (h'.stall i).steps = (h.stall i).steps := show (h'.stall i).core.steps = (h.stall i).core.steps by rw [w.stall]
  exact ⟨r', onEngine_eq_some.2 ⟨hr', by rw [hidx, Stall.step, hsteps]; exact hs⟩, hcore⟩

end

/-! ### Updates of a stall and of a run -/

theorem findRun_updRun (h : Hall) (k k' : RunKey) (f : GroupRun → GroupRun) (hk : ∀ r, (f r).key = r.key) :
    (h.updRun k f).findRun k' = (h.findRun k').map fun r => if k' = k then f r else r := by
  by_cases hrow : k'.row = k.row
  · have hkey : ∀ r : GroupRun, (if r.key = k then f r else r).key = r.key := fun r => by split <;> simp [hk]
    have hled : (h.updRun k f).ledger k'.row = { h.ledger k'.row with
        runs := (h.ledger k'.row).runs.map fun r => if r.key = k then f r else r } := by
      rw [hrow]
      exact Tab.get_set_same _ _ _ _
    rw [Hall.findRun, hled, List.find?_map]
    have hpred : (fun r => decide (GroupRun.key r = k')) ∘ (fun r : GroupRun => if r.key = k then f r else r) =
        fun r => decide (r.key = k') :=
      funext fun r => by simp only [Function.comp, hkey]
    rw [hpred]
    refine Option.map_congr fun r hr => ?_
    have hkey' : r.key = k' := by simpa using List.find?_some hr
    rw [hkey']
  · have hled : (h.updRun k f).ledger k'.row = h.ledger k'.row := Tab.get_set_ne _ _ _ _ _ hrow
    have hne : k' ≠ k := fun e => hrow (congrArg RunKey.row e)
    simp [Hall.findRun, hled, hne]

theorem updRun_stall (h : Hall) (k : RunKey) (f : GroupRun → GroupRun) (i : Nat) : (h.updRun k f).stall i = h.stall i := rfl

theorem updRun_sameWork (i : Nat) (h : Hall) (k : RunKey) (f : GroupRun → GroupRun) (hk : ∀ r, (f r).key = r.key)
    (hd : ∀ r, (f r).stepsDone = r.stepsDone) : SameWork i h (h.updRun k f) where
  stall := rfl
  runs k' := by
    rw [Hall.runSteps, findRun_updRun h k k' f hk, Option.map_map]
    exact Option.map_congr fun r _ => by dsimp only [Function.comp]; split <;> simp [hd]
  troughs _ := rfl

theorem updStall_sameWork (h : Hall) (i : Nat) (f : Stall → Stall) (hf : (f (h.stall i)).core = (h.stall i).core)
    (ht : ∀ t, (Tab.find (f (h.stall i)).troughs t).isSome = (h.trough i t).isSome) : SameWork i h (h.updStall i f) where
  stall := by rw [updStall_stall_same, hf]
  runs _ := rfl
  troughs t := by rw [Hall.trough, updStall_stall_same, ht]

theorem updTrough_sameWork (h : Hall) (i t : Nat) (f : Trough → Trough) : SameWork i h (h.updTrough i t f) := by
  unfold Hall.updTrough
  split
  · next x hx =>
    refine updStall_sameWork h i _ rfl fun u => ?_
    by_cases hu : u = t
    · rw [hu, Tab.find_set_same, hx]; rfl
    · rw [Tab.find_set_ne _ _ _ _ hu]; rfl
  · exact .refl i h

theorem setRunning_running (x : Stall) (eng : Nat) (o : Option Running) : (x.setRunning eng o).running eng = o := by
  unfold Stall.setRunning Stall.running
  split <;> simp

theorem updRunning_stall (h : Hall) (i eng : Nat) (f : Running → Running) :
    (h.updRunning i eng f).stall i = (h.stall i).setRunning eng (((h.stall i).running eng).map f) := updStall_stall_same ..

theorem updRunning_running (h : Hall) (i eng : Nat) (f : Running → Running) :
    ((h.updRunning i eng f).stall i).running eng = ((h.stall i).running eng).map f := by
  rw [updRunning_stall, setRunning_running]

theorem setRunning_steps (x : Stall) (eng : Nat) (o : Option Running) : (x.setRunning eng o).steps = x.steps := by
  unfold Stall.setRunning
  split <;> rfl

theorem setRunning_troughs (x : Stall) (eng : Nat) (o : Option Running) : (x.setRunning eng o).troughs = x.troughs := by
  unfold Stall.setRunning
  split <;> rfl

theorem updRunning_sameWork (h : Hall) (i eng : Nat) (f : Running → Running) (hf : ∀ r, (f r).core = r.core) :
    SameWork i h (h.updRunning i eng f) := by
  have hmap : ∀ o : Option Running, (o.map f).map Running.core = o.map Running.core := fun o => by cases o <;> simp [hf]
  refine updStall_sameWork h i _ ?_ fun t => by rw [setRunning_troughs]; rfl
  unfold Stall.setRunning Stall.running
  split <;> simp [Stall.core, hmap]

/-! ### Slots -/

theorem addMove_sameWork (i : Nat) (h : Hall) (key : Option RunKey) (m : SlotMove) : SameWork i h (h.addMove key m) := by
  unfold Hall.addMove
  split
  · exact updRun_sameWork i _ _ _ (fun _ => rfl) fun _ => rfl
  · exact .refl i h

theorem fillStart_sameWork (h : Hall) (i t s : Nat) (key : Option RunKey) (token : Nat) (tags : List Dep) :
    SameWork i h (h.fillStart i t s key token tags) := by
  unfold Hall.fillStart
  split
  · exact .refl i h
  · exact (updTrough_sameWork ..).trans (addMove_sameWork ..)

theorem fillEnd_sameWork (h : Hall) (i t s : Nat) (key : Option RunKey) (token : Nat) (tags : List Dep) (poison : Bool) :
    SameWork i h (h.fillEnd i t s key token tags poison) := by
  unfold Hall.fillEnd
  split
  · exact .refl i h
  · split
    · exact (updTrough_sameWork ..).trans (updRun_sameWork i _ _ _ (fun _ => rfl) fun _ => rfl)
    · exact updTrough_sameWork ..

theorem drainStart_sameWork (h : Hall) (i t s : Nat) (key : Option RunKey) : SameWork i h (h.drainStart i t s key) := by
  unfold Hall.drainStart
  split
  · exact .refl i h
  · exact (updTrough_sameWork ..).trans (addMove_sameWork ..)

theorem drainEnd_sameWork (h : Hall) (i t s : Nat) (key : Option RunKey) (keep : Bool) : SameWork i h (h.drainEnd i t s key keep) := by
  have hmoves : ∀ g k (f : List SlotMove → List SlotMove), SameWork i g (g.updRun k fun r => { r with moves := f r.moves }) :=
    fun g k f => updRun_sameWork i g k _ (fun _ => rfl) fun _ => rfl
  unfold Hall.drainEnd
  split
  · exact .refl i h
  · split
    · split
      · exact (updTrough_sameWork ..).trans (hmoves _ _ fun l => l.filter _)
      · exact updTrough_sameWork ..
    · have hpoison : ∀ b : Bool, SameWork i h (if b then h.bump .stallPoisonSlots i else h) := fun b => .of_data (by split <;> simp)
      dsimp only
      split
      · exact ((hpoison _).trans (updTrough_sameWork ..)).trans (hmoves _ _ fun l => l.map _)
      · exact (hpoison _).trans (updTrough_sameWork ..)

theorem setTake_core (r : Running) (sel : Nat) (t : Option Take) : (r.setTake sel t).core = r.core := by
  unfold Running.setTake
  split <;> rfl

theorem addDeps_sameWork (i : Nat) (h : Hall) (k : RunKey) (new : List Dep) : SameWork i h (h.addDeps k new) :=
  updRun_sameWork i h k _ (fun _ => rfl) fun _ => rfl

/-- What taking a slot does: its tags go to the run, the slot drains, and the operand lists it (R191, R211). -/
theorem takeNext_eq_some {h g : Hall} {i eng sel : Nat} (hg : h.takeNext i eng sel = some g) :
    ∃ k tags t s v, g = ((h.addDeps k tags).drainStart i t s (some k)).updRunning i eng fun r => r.setTake sel v := by
  unfold Hall.takeNext at hg
  split at hg
  · contradiction
  split at hg
  · contradiction
  split at hg
  · contradiction
  split at hg
  · contradiction
  dsimp only at hg
  split at hg
  · contradiction
  split at hg
  · contradiction
  split at hg
  · exact ⟨_, _, _, _, _, (Option.some.inj hg).symm⟩
  · contradiction

theorem updRun_frame (h : Hall) (k : RunKey) (f : GroupRun → GroupRun) : Frame h (h.updRun k f) [.data] noReg :=
  frame_of_parts (fun p hp => by cases p <;> simp_all [Part.same, Hall.updRun]) rfl

theorem updTrough_frame (h : Hall) (i t : Nat) (f : Trough → Trough) : Frame h (h.updTrough i t f) [.data] noReg := by
  unfold Hall.updTrough
  split
  · exact updStall_frame _ _ _ _ _ (by simp)
  · exact .refl ..

theorem drainStart_frame (h : Hall) (i t s : Nat) (key : Option RunKey) : Frame h (h.drainStart i t s key) [.data] noReg := by
  unfold Hall.drainStart Hall.addMove
  split
  · exact .refl ..
  · split
    · exact (updTrough_frame ..).trans (updRun_frame ..)
    · exact updTrough_frame ..

/-- Slots are taken: the work is as it was, and nothing outside stalls and Ledgers has changed. -/
structure SlotsTaken (i : Nat) (h g : Hall) : Prop where
  work : SameWork i h g
  frame : Frame h g [.data] noReg

theorem SlotsTaken.refl (i : Nat) (h : Hall) : SlotsTaken i h h := ⟨.refl i h, .refl ..⟩

theorem SlotsTaken.trans {i : Nat} {h g g' : Hall} (a : SlotsTaken i h g) (b : SlotsTaken i g g') : SlotsTaken i h g' :=
  ⟨a.work.trans b.work, a.frame.trans b.frame⟩

theorem takeNext_slotsTaken {h g : Hall} {i eng sel : Nat} (hg : h.takeNext i eng sel = some g) : SlotsTaken i h g := by
  obtain ⟨k, tags, t, s, v, rfl⟩ := takeNext_eq_some hg
  constructor
  · exact ((addDeps_sameWork ..).trans (drainStart_sameWork ..)).trans (updRunning_sameWork _ _ _ _ fun r => setTake_core r sel v)
  · exact ((updRun_frame ..).trans (drainStart_frame ..)).trans (updStall_frame _ _ _ _ _ (by simp))

theorem takeTo_slotsTaken {h g : Hall} {i eng sel n fuel : Nat} (hg : h.takeTo i eng sel n fuel = some g) : SlotsTaken i h g := by
  induction fuel generalizing h with
  | zero => exact Option.some.inj hg ▸ .refl i h
  | succ fuel ih =>
    unfold Hall.takeTo at hg
    split at hg
    · exact Option.some.inj hg ▸ .refl i h
    · split at hg
      · exact Option.some.inj hg ▸ .refl i h
      · split at hg
        · next h' hnext => exact (takeNext_slotsTaken hnext).trans (ih hg)
        · contradiction

theorem openOut_sameWork {h g : Hall} {i eng pos : Nat} (hg : h.openOut i eng pos = some g) : SameWork i h g := by
  unfold Hall.openOut at hg
  split at hg
  · contradiction
  · split at hg
    · contradiction
    · split at hg
      · exact Option.some.inj hg ▸ .refl i h
      · split at hg
        · exact Option.some.inj hg ▸ (fillStart_sameWork ..).trans (updRunning_sameWork _ _ _ _ fun _ => rfl)
        · contradiction

theorem writeSlot_sameWork (h : Hall) (i eng pos ofmt rows : Nat) (out : List (List Elem)) (recs : List ScaleRec) :
    SameWork i h (h.writeSlot i eng pos ofmt rows out recs) := by
  unfold Hall.writeSlot
  split
  · exact .refl i h
  · split
    · exact .refl i h
    · split
      · exact ((SameWork.of_data (by simp)).trans (fillEnd_sameWork ..)).trans (updRunning_sameWork _ _ _ _ fun _ => rfl)
      · exact .refl i h

theorem writeSlots_sameWork (h : Hall) (i eng ofmt rows done : Nat) (out : List (List Elem)) (recs : List ScaleRec) (fuel : Nat) :
    SameWork i h (h.writeSlots i eng ofmt rows done out recs fuel).2 := by
  induction fuel generalizing h with
  | zero => exact .refl i h
  | succ fuel ih =>
    unfold Hall.writeSlots
    split
    · split
      · exact .refl i h
      · dsimp only
        split
        · exact .refl i h
        · split
          · next g hg => exact ((openOut_sameWork hg).trans (writeSlot_sameWork ..)).trans (ih _)
          · exact .refl i h
    · exact .refl i h

/-! ### Slots that are there already -/

theorem takeTo_taken {h : Hall} {i eng : Nat} {r : Running} (hr : (h.stall i).running eng = some r) {sel n : Nat} (fuel : Nat)
    (ht : ∀ t, r.take sel = some t → n ≤ t.slots.length ∨ t.n ≤ t.slots.length) : h.takeTo i eng sel n (fuel + 1) = some h := by
  unfold Hall.takeTo
  rw [hr, Option.bind_some]
  split
  · rfl
  · next t htake => exact if_pos (ht t htake)

theorem openOut_open {h : Hall} {i eng pos : Nat} {r : Running} (hr : (h.stall i).running eng = some r) {t : Take}
    (ht : r.out = some t) (hpos : pos < t.slots.length) : h.openOut i eng pos = some h := by
  simp only [Hall.openOut, hr, ht, if_pos hpos]

theorem updTrough_running (h : Hall) (i t eng : Nat) (f : Trough → Trough) :
    ((h.updTrough i t f).stall i).running eng = (h.stall i).running eng := by
  unfold Hall.updTrough
  split
  · rw [updStall_stall_same]; rfl
  · rfl

theorem fillEnd_running (h : Hall) (i t s eng : Nat) (key : Option RunKey) (token : Nat) (tags : List Dep) (poison : Bool) :
    ((h.fillEnd i t s key token tags poison).stall i).running eng = (h.stall i).running eng := by
  unfold Hall.fillEnd
  split
  · rfl
  · split <;> exact updTrough_running ..

/-- A slot that was opened is written and counted as filled. -/
theorem writeSlot_running {h : Hall} {i eng pos : Nat} {r : Running} (hr : (h.stall i).running eng = some r) {t : Take}
    (ht : r.out = some t) (hx : (h.trough i t.trough).isSome = true) (hpos : pos < t.slots.length) (ofmt rows : Nat)
    (out : List (List Elem)) (recs : List ScaleRec) :
    ((h.writeSlot i eng pos ofmt rows out recs).stall i).running eng = some { r with filled := pos + 1 } := by
  obtain ⟨x, hx⟩ := Option.isSome_iff_exists.1 hx
  have hstall : ∀ a b p q, ((h.writeRam a p).writeRam b q).stall i = h.stall i := fun a b p q => by simp [Hall.stall]
  simp only [Hall.writeSlot, hr, ht, hx, List.getElem?_eq_getElem hpos]
  rw [updRunning_running, fillEnd_running, hstall, hr, ← ht]
  rfl

/-- The output slots of a running step are open. -/
def Hall.outOpen (h : Hall) (i : Nat) (r : Running) : Prop :=
  ∀ t, r.out = some t → t.n ≤ t.slots.length ∧ (h.trough i t.trough).isSome = true

/-- An output whose rows are all computed and whose slots are open is written. -/
theorem writeSlots_done {h : Hall} {i eng : Nat} {r : Running} (hr : (h.stall i).running eng = some r) (ho : h.outOpen i r)
    (ofmt rows : Nat) (out : List (List Elem)) (recs : List ScaleRec) {fuel : Nat}
    (hf : (r.out.map fun t => t.n).getD 0 - r.filled < fuel) : (h.writeSlots i eng ofmt rows rows out recs fuel).1 = true := by
  induction fuel generalizing h r with
  | zero => exact absurd hf (Nat.not_lt_zero _)
  | succ fuel ih =>
    unfold Hall.writeSlots
    rw [hr, Option.map_some]
    cases ht : r.out with
    | none => rfl
    | some t =>
      obtain ⟨hslots, hx⟩ := ho t ht
      dsimp only
      split
      · rfl
      · next hleft =>
        have hpos : r.filled < t.slots.length := by omega
        have hrows : ¬ rows < (slotRows ofmt rows t.n r.filled).1 + (slotRows ofmt rows t.n r.filled).2 := by
          simp only [slotRows]
          omega
        rw [if_neg hrows, openOut_open hr ht hpos]
        refine ih (writeSlot_running hr ht hx hpos ofmt rows out recs) (fun u hu => ?_) ?_
        · rw [(writeSlot_sameWork ..).troughs]
          exact ho u hu
        · simp only [ht, Option.map_some, Option.getD_some] at hf ⊢
          omega

/-! ### Checks and the end of a step -/

theorem stallClear_data (h : Hall) (i : Nat) (c : StallClear) : (h.stallClear i c).data = h.data := by
  cases c <;> simp [Hall.stallClear]

theorem stepBoundary_sameWork (h : Hall) (i : Nat) : SameWork i h (h.stepBoundary i) := by
  have hclears : SameWork i h ((h.stall i).clears.foldl (fun g c => g.stallClear i c) h) :=
    .foldl _ (fun g c => .of_data (stallClear_data g i c)) _ h
  exact hclears.trans (updStall_sameWork _ i _ rfl fun _ => rfl)

theorem recordStatus_sameWork (i : Nat) (h : Hall) (k : RunKey) (token status : Nat) : SameWork i h (h.recordStatus k token status) := by
  unfold Hall.recordStatus
  split <;> exact updRun_sameWork i _ _ _ (fun _ => rfl) fun _ => rfl

theorem updTally_sameWork (i : Nat) (h : Hall) (row : Nat) (f : Tally → Tally) : SameWork i h (h.updTally row f) := .of_tables rfl rfl

theorem updReq_sameWork (i : Nat) (h : Hall) (token : Nat) (f : Req → Req) : SameWork i h (h.updReq token f) := by
  unfold Hall.updReq
  split
  · exact .of_tables rfl rfl
  · exact .refl i h

theorem tallyApply_sameWork (i : Nat) (h : Hall) (row : Nat) : SameWork i h (h.tallyApply row) := by
  have hdue : ∀ g : Hall, ((h.tally row).stallDue.foldl (fun g e => g.writeTallyStall e.1 e.2) g).data = g.data :=
    foldl_same Hall.data _ (fun g (e : Nat × Nat) => setFs_data _ g e.1) _
  unfold Hall.tallyApply
  refine .trans (.of_data ?_) (updTally_sameWork ..)
  rw [hdue]
  split_ifs <;> simp

/-- A check without a mismatch goes to the Tally; what a mismatch starts is said elsewhere. -/
theorem submitCheck_sameWork (i : Nat) (h : Hall) (c : CheckItem) (forced : Bool) (hm : c.mismatch = false) :
    SameWork i h (h.submitCheck c forced) := by
  have hbump : ∀ (g : Hall) x, SameWork i g (g.bump x c.key.row) := fun g x => .of_data (bump_data ..)
  have hunshadowed : ∀ (g : Hall) f, SameWork i g (if !c.oxChecked then g else if g.selftest c.key.row then g.updTally c.key.row f
      else (g.tallyApply c.key.row).bump .tallyChecks c.key.row) := fun g f => by
    split_ifs
    · exact .refl i g
    · exact updTally_sameWork ..
    · exact (tallyApply_sameWork ..).trans (hbump ..)
  unfold Hall.submitCheck
  simp only [hm, Bool.false_eq_true, if_false]
  split
  · exact hunshadowed h _
  · split
    · exact (updReq_sameWork ..).trans (updTally_sameWork ..)
    · split
      · exact updTally_sameWork ..
      · exact (hbump h _).trans (hunshadowed _ _)

/-- A step of run `k` has ended on an engine of stall `i`: the engine is idle, with the Ox the expander too, and the run has one step
more done. -/
structure StepEnded (i eng : Nat) (k : RunKey) (h h' : Hall) : Prop where
  idle : (h'.stall i).running eng = none
  expander : eng = 0 → (h'.stall i).exp = {}
  runs : h'.runSteps k = (h.runSteps k).map (· + 1)

theorem StepEnded.before {i eng : Nat} {k : RunKey} {h g h' : Hall} (w : SameWork i h g) (e : StepEnded i eng k g h') :
    StepEnded i eng k h h' := ⟨e.idle, e.expander, by rw [e.runs, w.runs]⟩

theorem StepEnded.after {i eng : Nat} {k : RunKey} {h g h' : Hall} (e : StepEnded i eng k h g) (w : SameWork i g h') :
    StepEnded i eng k h h' where
  idle := by
    have hcore := congrArg (Stall.running · eng) w.stall
    simpa [running_core, e.idle] using hcore
  expander he := (show (h'.stall i).core.exp = (g.stall i).core.exp by rw [w.stall]).trans (e.expander he)
  runs := (w.runs k).trans e.runs

/-- The stall without the step on an engine. -/
def Stall.released (x : Stall) (eng : Nat) : Stall := { x.setRunning eng none with exp := if eng = 0 then {} else x.exp }

theorem released_running (x : Stall) (eng : Nat) : (x.released eng).running eng = none := by
  have hexp : (x.released eng).running eng = (x.setRunning eng none).running eng := by
    unfold Stall.running
    split <;> rfl
  rw [hexp, setRunning_running]

/-- The engine gives its step up, and the step's run counts it. -/
theorem released_stepEnded (h : Hall) (i eng : Nat) (k : RunKey) :
    StepEnded i eng k h ((h.updStall i fun x => x.released eng).updRun k fun y => { y with stepsDone := y.stepsDone + 1 }) where
  idle := by rw [updRun_stall, updStall_stall_same, released_running]
  expander he := by
    rw [updRun_stall, updStall_stall_same]
    exact if_pos he
  runs := by
    rw [Hall.runSteps, findRun_updRun _ k k (fun y => { y with stepsDone := y.stepsDone + 1 }) fun _ => rfl]
    simp [Hall.runSteps, Hall.findRun, Hall.ledger, Hall.updStall, Function.comp_def]

/-- A step without a mismatch ends (R225). -/
theorem endStep_stepEnded {h : Hall} {i eng : Nat} {r : Running} {st : Step} (ho : h.onEngine i eng = some (r, st))
    (him : (h.stall i).image.isSome = true) (hm : r.mismatch = false) (pair : Nat) (lines clean : Payload) (poisoned : Bool) :
    StepEnded i eng r.key h (h.endStep i eng pair lines clean poisoned) := by
  obtain ⟨hr, hs⟩ := onEngine_eq_some.1 ho
  obtain ⟨handle, him⟩ := Option.isSome_iff_exists.1 him
  have hstatus : ∀ (g : Hall) (b : Bool) token status, SameWork i g (if b then g.recordStatus r.key token status else g) :=
    fun g b token status => by
      split
      · exact recordStatus_sameWork ..
      · exact .refl i g
  unfold Hall.endStep
  simp (zeta := false) only [hr, him, hs]
  extract_lets k pen late gLate gPoisoned closing gStatus gDrained gIdle gCounted digest repeated gRepeated gChecked
  have hbefore : SameWork i h gDrained := (((hstatus h ..).trans (hstatus ..)).trans (hstatus ..)).trans
    (.foldl _ (fun _ _ => .foldl _ (fun _ _ => drainEnd_sameWork ..) _ _) _ _)
  have hended : StepEnded i eng k gDrained gCounted := released_stepEnded gDrained i eng k
  have hrepeat : SameWork i gCounted gRepeated := by
    dsimp only [gRepeated]
    split
    · exact updTally_sameWork ..
    · exact .refl i _
  have hcheck : SameWork i gRepeated gChecked := by
    dsimp only [gChecked]
    split
    · exact .refl i _
    · exact submitCheck_sameWork i _ _ _ (by simp [hm])
  exact (hended.before hbefore).after ((hrepeat.trans hcheck).trans (stepBoundary_sameWork ..))

end Sys2Proof.Machine
end

section
/-! PROOFS. Settles O40: blocks, tiles, rows and ends of steps on the Ox and the vector unit (R107, R110, R119, R123, R126, R172, R173,
R176). -/

namespace Sys2Proof.Machine

/-! ### The expander -/

theorem lane_setLane (e : Expander) (l : Nat) {bs : List LaneBlock} (hbs : bs ≠ []) : (e.setLane l bs).lane l = bs := by
  simp [Expander.lane, Expander.setLane, hbs]

/-- The next block of the stream is fetched into a lane. -/
def Expander.fetched (e : Expander) (lane : Nat) (names : Option Bool) : Expander :=
  { e.setLane lane (e.lane lane ++ [{ index := e.nextFetch, names := names }]) with nextFetch := e.nextFetch + 1 }

section
variable {s : State} {row : Fin 8} {x : Fin 16} {i : Nat} (hi : 16 * row.val + x.val = i) {r : Running} {st : Step}
include hi

theorem expBlockFetch_fetches (ho : s.hall.onEngine i 0 = some (r, st)) {lane : Fin 16} {w : Take} (hd : st.direct = false)
    (hleft : (s.hall.stall i).exp.nextFetch < stepBlocks st * rowTiles st)
    (hlane : (s.hall.stall i).exp.nextFetch % stepBlocks st % 16 = lane.val) (hroom : ((s.hall.stall i).exp.lane lane.val).length < 3)
    (hw : r.inW = some w) (hslot : (s.hall.blockAt i st w ((s.hall.stall i).exp.nextFetch % stepBlocks st)).1 < w.slots.length) :
    ∃ names, Becomes (.expBlockFetch row x lane) s
      (s.hall.updStall i fun y => { y with exp := y.exp.fetched lane.val names }) := by
  obtain ⟨hr, -⟩ := onEngine_eq_some.1 ho
  have htake : s.hall.takeTo i 0 1 ((s.hall.blockAt i st w ((s.hall.stall i).exp.nextFetch % stepBlocks st)).1 + 1) (w.n + 1) =
      some s.hall := takeTo_taken hr w.n fun t ht => by
    obtain rfl := Option.some.inj (hw.symm.trans ht)
    exact .inl hslot
  apply Exists.intro
  change execExpBlockFetch row x lane s = _
  simp only [execExpBlockFetch, run_next, hi, ho, hd, hw, htake, hlane, Nat.not_le.2 hleft, Nat.not_le.2 hroom]
  simp only [ne_eq, not_true_eq_false, decide_false, Bool.or_self, Bool.false_eq_true, if_false]
  rfl

theorem expBlockFetch_waits (ho : s.hall.onEngine i 0 = some (r, st)) {lane : Fin 16}
    (hno : st.direct = true ∨ (s.hall.stall i).exp.nextFetch % stepBlocks st % 16 ≠ lane.val ∨
      3 ≤ ((s.hall.stall i).exp.lane lane.val).length) : Becomes (.expBlockFetch row x lane) s s.hall := by
  change execExpBlockFetch row x lane s = _
  simp only [execExpBlockFetch, run_next, hi, ho]
  rw [if_pos (by rcases hno with h | h | h <;> simp [h])]

theorem expBlockDecoded_delivers (ho : s.hall.onEngine i 0 = some (r, st)) {lane : Fin 16} {b : LaneBlock} {w : Take}
    (hb : ((s.hall.stall i).exp.lane lane.val).find? (fun c => c.decoded.isNone) = some b) (hw : r.inW = some w) :
    ∃ lanes, Becomes (.expBlockDecoded row x lane) s
      (((s.hall.deliverBlock i r st w (b.index % stepBlocks st)).2.updStall i fun y =>
        { y with exp := y.exp.setLane lane.val lanes }).handBlocks i) := by
  apply Exists.intro
  change execExpBlockDecoded row x lane s = _
  simp only [execExpBlockDecoded, run_next, hi, ho, hb, hw]
  rfl

end

theorem Frame.onEngine_eq {h h' : Hall} {parts : List Part} {may : Fld → Nat → Prop} (f : Frame h h' parts may) (hp : Part.data ∉ parts)
    (i eng : Nat) : h'.onEngine i eng = h.onEngine i eng := by
  rw [Hall.onEngine, Hall.onEngine, f.stall_eq hp]

/-- Changes of the expander alone leave the step that runs. -/
theorem onEngine_updStall_exp (h : Hall) (i eng : Nat) (f : Stall → Expander) :
    (h.updStall i fun y => { y with exp := f y }).onEngine i eng = h.onEngine i eng := by
  unfold Hall.onEngine Stall.running
  rw [updStall_stall_same]
  rfl

theorem handBlocks_onEngine (h : Hall) (i eng : Nat) : (h.handBlocks i).onEngine i eng = h.onEngine i eng := by
  unfold Hall.handBlocks
  split
  · rfl
  · split
    · rfl
    · exact onEngine_updStall_exp ..

theorem handBlocks_frame (h : Hall) (i : Nat) (parts : List Part) (may : Fld → Nat → Prop) (hp : Part.data ∈ parts) :
    Frame h (h.handBlocks i) parts may := by
  unfold Hall.handBlocks
  split
  · exact .refl ..
  · split
    · exact .refl ..
    · exact updStall_frame _ _ _ _ _ hp

/-- The registers that decoding a block changes, but for the count of blocks. -/
def decodeReg (f : Fld) (_ : Nat) : Prop := f ≠ .count .expBlocks

/-- Decoding a block counts it in EXP_BLOCKS; beside it, only registers of the expander and the fault junctions change. -/
theorem deliverBlock_frame (h : Hall) (i : Nat) (r : Running) (st : Step) (w : Take) (b : Nat) :
    Frame (h.bump .expBlocks i) (h.deliverBlock i r st w b).2 [.junctions] decodeReg := by
  have hcount : ∀ (g : Hall) (c : Ctr) k, c ≠ .expBlocks → Frame g (g.bump c i k) [.junctions] decodeReg := fun g c k hc =>
    bump_frame _ _ _ _ _ _ (by simpa [decodeReg] using hc) (by simp [decodeReg])
  unfold Hall.deliverBlock
  extract_lets e p a bytes out gCount gPoison gCause gLast slotB table
  have hcause : Frame gPoison gCause [.junctions] decodeReg := by
    dsimp only [gCause]
    split_ifs
    · exact hcount _ _ _ (by decide)
    · exact .refl ..
    · exact hcount _ _ _ (by decide)
  have hlast : Frame gCause gLast [.junctions] decodeReg := by
    dsimp only [gLast]
    split
    · exact .refl ..
    · exact setFs_frame _ _ _ _ _ (by simp [decodeReg])
  have hescapes : Frame (h.bump .expBlocks i) gCount [.junctions] decodeReg := hcount _ _ _ (by decide)
  split
  · exact hescapes.trans (hcount _ _ _ (by decide))
  · exact (((hescapes.trans (hcount _ _ _ (by decide))).trans hcause).trans hlast).trans (ordinary_frame _ _ _ _ _ _ (by simp))

/-- A block that a lane has finished is counted, and the running step goes on. -/
theorem blockDecoded_spec (h : Hall) (i : Nat) (r : Running) (st : Step) (w : Take) (b : Nat) (f : Stall → Expander) :
    let g := ((h.deliverBlock i r st w b).2.updStall i fun y => { y with exp := f y }).handBlocks i
    Frame (h.bump .expBlocks i) g [.data, .junctions] decodeReg ∧ g.onEngine i 0 = h.onEngine i 0 := by
  have hdeliver := deliverBlock_frame h i r st w b
  constructor
  · exact ((hdeliver.mono (by simp) fun _ _ => id).trans (updStall_frame _ _ _ _ _ (by simp))).trans (handBlocks_frame _ _ _ _ (by simp))
  · rw [handBlocks_onEngine, onEngine_updStall_exp, hdeliver.onEngine_eq (by simp), Hall.onEngine, Hall.onEngine, Hall.stall, bump_data]
    rfl

/-! ### Tiles -/

/-- A tile that is ready has its slots. -/
theorem tileReady_slotsTaken {h g : Hall} {i : Nat} {r : Running} {st : Step} (hg : h.tileReady i r st = some g) : SlotsTaken i h g := by
  have hmore : ∀ {o : Option Hall} {sel n : Nat} {g' : Hall}, (∀ f ∈ o, SlotsTaken i h f) →
      g' ∈ (o.bind fun f => f.takeTo i 0 sel n (n + 1)) → SlotsTaken i h g' := fun ho hg' => by
    obtain ⟨f, hf, hto⟩ := Option.bind_eq_some_iff.1 hg'
    exact (ho f hf).trans (takeTo_slotsTaken hto)
  unfold Hall.tileReady at hg
  split at hg
  split at hg
  extract_lets an wn un more h1 h2 h3 at hg
  have ha : ∀ f ∈ h1, SlotsTaken i h f := fun f => hmore fun f hf => Option.some.inj hf ▸ .refl i h
  have hw : ∀ f ∈ h2, SlotsTaken i h f := fun f hf => by
    dsimp only [h2] at hf
    split at hf
    · exact hmore ha hf
    · exact ha f hf
  have hu : ∀ f ∈ h3, SlotsTaken i h f := fun f hf => by
    dsimp only [h3] at hf
    split at hf
    · exact hw f hf
    · exact hmore hw hf
  obtain ⟨f, hf, hlast⟩ := Option.bind_eq_some_iff.1 hg
  split at hlast
  · exact Option.some.inj hlast ▸ hu f hf
  · contradiction

/-- Any register field. -/
def anyReg (_ : Fld) (_ : Nat) : Prop := True

theorem tileChecks_frame (h : Hall) (i : Nat) (r : Running) (st : Step) (c : ChkOut) (parts : List Part) :
    Frame h (h.tileChecks i r st c) parts anyReg := by
  have hbump : ∀ (g : Hall) (x : Ctr) k, Frame g (g.bump x i k) parts anyReg := fun g x k => bump_frame _ _ _ _ _ _ trivial trivial
  unfold Hall.tileChecks
  extract_lets gCount gFail
  have hcount : Frame h gCount parts anyReg := (hbump ..).trans (hbump ..)
  split_ifs
  · exact .refl ..
  · exact hcount
  · exact hcount.trans (hbump ..)
  · exact (hcount.trans (hbump ..)).trans (setFs_frame _ _ _ _ _ fun _ _ => trivial)

theorem setRunning_step (y : Stall) (eng n : Nat) (o : Option Running) : (y.setRunning eng o).step n = y.step n := by
  simp only [Stall.step, setRunning_steps]

theorem onEngine_updRunning (h : Hall) (i eng : Nat) (f : Running → Running) (hf : ∀ r, (f r).idx = r.idx) :
    (h.updRunning i eng f).onEngine i eng = (h.onEngine i eng).map fun z => (f z.1, z.2) := by
  unfold Hall.onEngine
  simp only [updRunning_stall, setRunning_running, setRunning_step]
  cases (h.stall i).running eng with
  | none => rfl
  | some r => simp [hf, Function.comp_def]

/-- A tile ends: the step goes on with the next, and only registers, stalls and the model's own counter have changed. -/
theorem tileEnd_spec (h : Hall) (i : Nat) (r : Running) (st : Step) (us : List Upset) :
    ((h.tileEnd i r st us).onEngine i 0).map (fun z => z.1.tile) = (h.onEngine i 0).map (fun z => z.1.tile + 1) ∧
      Frame h (h.tileEnd i r st us) [.data, .draws] anyReg := by
  have hbump : ∀ (g : Hall) (x : Ctr) k, Frame g (g.bump x i k) [.draws] anyReg := fun g x k => bump_frame _ _ _ _ _ _ trivial trivial
  generalize hg : h.tileEnd i r st us = g
  unfold Hall.tileEnd at hg
  extract_lets x count out clean newRow bad at hg
  split at hg
  split at hg
  extract_lets gFree gChecks gSat gPoison gBeats gLines gTile gRow at hg
  subst hg
  have hfree : Frame h gFree [.draws] anyReg := frame_of_parts (fun p hp => by cases p <;> simp_all [Part.same, gFree]) rfl
  have hsat : Frame gChecks gSat [.draws] anyReg := by
    dsimp only [gSat]
    split
    · exact .refl ..
    · exact setF_frame _ _ _ _ _ _ trivial
  have hlines : Frame gBeats gLines [.draws] anyReg := by
    dsimp only [gLines]
    split
    · exact hbump ..
    · exact .refl ..
  have hcounts : Frame h gLines [.draws] anyReg :=
    ((((hfree.trans ((tileChecks_frame ..).trans (hbump ..))).trans hsat).trans (hbump ..)).trans (hbump ..)).trans hlines
  have htile : (gTile.onEngine i 0).map (fun z => z.1.tile) = (h.onEngine i 0).map fun z => z.1.tile + 1 := by
    refine (congrArg (Option.map _) (onEngine_updRunning gLines i 0 _ ?_)).trans ?_
    · exact fun _ => rfl
    rw [hcounts.onEngine_eq (by simp), Option.map_map]
    rfl
  have hrow : (gRow.onEngine i 0).map (fun z => z.1.tile) = (gTile.onEngine i 0).map (fun z => z.1.tile) ∧
      Frame gTile gRow [.data, .draws] anyReg := by
    dsimp only [gRow]
    split
    · exact ⟨by rw [onEngine_updStall_exp], updStall_frame _ _ _ _ _ (by simp)⟩
    · exact ⟨rfl, .refl ..⟩
  refine ⟨by rw [handBlocks_onEngine, hrow.1, htile], ?_⟩
  exact (((hcounts.mono (by simp) fun _ _ => id).trans (updStall_frame _ _ _ _ _ (by simp))).trans hrow.2).trans
    (handBlocks_frame _ _ _ _ (by simp))

/-! ### Ends of steps -/

/-- The slots of an operand have been taken. -/
def allTaken (o : Option Take) : Prop := ∀ t, o = some t → t.n ≤ t.slots.length

/-- A step whose work has been left as it was until its end. -/
theorem SameWork.endStep {h g : Hall} {i eng : Nat} {r : Running} {st : Step} (w : SameWork i h g)
    (ho : h.onEngine i eng = some (r, st)) (him : (h.stall i).image.isSome = true) (hm : r.mismatch = false) (pair : Nat)
    (lines clean : Payload) (poisoned : Bool) : StepEnded i eng r.key h (g.endStep i eng pair lines clean poisoned) := by
  obtain ⟨r', ho', hcore⟩ := w.onEngine ho
  obtain ⟨-, hkey, -, -, hmis⟩ := core_eq hcore
  have himage : (g.stall i).image = (h.stall i).image := show (g.stall i).core.image = (h.stall i).core.image by rw [w.stall]
  exact (hkey ▸ endStep_stepEnded ho' (himage ▸ him) (hmis.trans hm) ..).before w

theorem oxEnd_stepEnded {h : Hall} {i : Nat} {r : Running} {st : Step} (ho : h.onEngine i 0 = some (r, st))
    (him : (h.stall i).image.isSome = true) (hopen : h.outOpen i r) (hm : r.mismatch = false) :
    StepEnded i 0 r.key h (h.oxEnd i r st) := by
  obtain ⟨hr, -⟩ := onEngine_eq_some.1 ho
  unfold Hall.oxEnd
  extract_lets out clean slots desc lines
  have hdone := writeSlots_done hr hopen st.ofmt st.rows out.1 out.2.1 (fuel := slots + 1) (by omega)
  simp only [hdone, Bool.not_true, Bool.false_eq_true, if_false]
  refine SameWork.endStep ((writeSlots_sameWork h i 0 st.ofmt st.rows st.rows out.1 out.2.1 (slots + 1)).trans (.of_data ?_)) ho him hm ..
  split <;> simp [Hall.vuCount]

theorem vuEnd_stepEnded {h : Hall} {i : Nat} {r : Running} {st : Step} (ho : h.onEngine i 1 = some (r, st))
    (him : (h.stall i).image.isSome = true) (hopen : h.outOpen i r) (hm : r.mismatch = false) (ops : List VuOp) :
    StepEnded i 1 r.key h (h.vuEnd i st ops) := by
  obtain ⟨hr, -⟩ := onEngine_eq_some.1 ho
  have hvu : (h.stall i).vu = some r := hr
  unfold Hall.vuEnd
  simp (zeta := false) only [hvu]
  extract_lets slots desc tok rows out recs gCounted lines
  have hdone := writeSlots_done hr hopen st.ofmt st.rows out recs (fuel := slots + 1) (by omega)
  simp only [hdone, Bool.not_true, Bool.false_eq_true, if_false]
  refine SameWork.endStep ((writeSlots_sameWork h i 1 st.ofmt st.rows st.rows out recs (slots + 1)).trans (.of_data ?_)) ho him hm ..
  dsimp only [gCounted]
  split <;> simp [Hall.vuCount]

theorem SameWork.rowsDone {h g : Hall} {i eng : Nat} {r : Running} {st : Step} (w : SameWork i h g)
    (ho : h.onEngine i eng = some (r, st)) : (g.onEngine i eng).map (fun z => z.1.rowsDone) = some r.rowsDone := by
  obtain ⟨r', ho', hcore⟩ := w.onEngine ho
  obtain ⟨-, -, -, hrows, -⟩ := core_eq hcore
  rw [ho', ← hrows]
  rfl

/-- A row of a per-token step whose output slot is open is counted done (R126). -/
theorem vuRowEnd_rowsDone {h g : Hall} {i : Nat} {r : Running} {st : Step} (ho : h.onEngine i 1 = some (r, st)) {t : Take}
    (ht : r.out = some t) (hg : h.openOut i 1 (rowSlot st.ofmt st.rows t.n r.rowsDone).1 = some g) (ops : List VuOp) :
    ((h.vuRowEnd i st ops).onEngine i 1).map (fun z => z.1.rowsDone) = some (r.rowsDone + 1) := by
  obtain ⟨hr, -⟩ := onEngine_eq_some.1 ho
  have hvu : (h.stall i).vu = some r := hr
  obtain ⟨r1, ho1, -⟩ := (openOut_sameWork hg).onEngine ho
  unfold Hall.vuRowEnd
  simp (zeta := false) only [hvu]
  extract_lets j pos
  have hpos : h.openOut i 1 pos.1 = some g := by simpa only [pos, ht] using hg
  simp (zeta := false) only [hpos]
  extract_lets x recBytes a gRow gDone
  have hcounted : SameWork i g (gRow.bump .vuBeats i (rowBeats ops st.k)) := .of_data (by simp [gRow, Hall.vuCount])
  obtain ⟨r2, ho2, -⟩ := hcounted.onEngine ho1
  obtain ⟨r3, ho3, hrows⟩ : ∃ r3, gDone.onEngine i 1 = some (r3, st) ∧ r3.rowsDone = r.rowsDone + 1 := by
    refine ⟨_, (onEngine_updRunning _ i 1 _ ?_).trans (congrArg (Option.map _) ho2), ?_⟩
    · exact fun _ => rfl
    · rfl
  have hvu3 : (gDone.stall i).vu = some r3 := (onEngine_eq_some.1 ho3).1
  simp only [hvu3]
  rw [← hrows]
  exact (writeSlots_sameWork ..).rowsDone ho3

/-! ### The commands -/

section
variable {s : State} {row : Fin 8} {x : Fin 16} {i : Nat} (hi : 16 * row.val + x.val = i) {r : Running} {st : Step}
include hi

theorem oxTileEnd_ends (ho : s.hall.onEngine i 0 = some (r, st)) (hleft : r.tile < rowTiles st * colTiles st r.chk) {g : Hall}
    (hg : s.hall.tileReady i r st = some g) {r' : Running} (ho' : g.onEngine i 0 = some (r', st)) (us : List Upset) :
    Becomes (.oxTileEnd row x us) s (g.tileEnd i r' st us) := by
  change execOxTileEnd row x us s = _
  simp only [execOxTileEnd, run_next, hi, ho, if_neg (Nat.not_le.2 hleft), hg, ho']

theorem oxTileEnd_waits (ho : s.hall.onEngine i 0 = some (r, st)) (hg : s.hall.tileReady i r st = none) (us : List Upset) :
    Becomes (.oxTileEnd row x us) s s.hall := by
  change execOxTileEnd row x us s = _
  simp only [execOxTileEnd, run_next, hi, ho, hg, ite_self]

theorem oxStepEnd_waits (ho : s.hall.onEngine i 0 = some (r, st)) (hleft : r.tile < rowTiles st * colTiles st r.chk) :
    Becomes (.oxStepEnd row x) s s.hall := by
  change execOxStepEnd row x s = _
  simp only [execOxStepEnd, run_next, hi, ho, if_pos hleft]

theorem oxStepEnd_ends (ho : s.hall.onEngine i 0 = some (r, st)) (hdone : rowTiles st * colTiles st r.chk ≤ r.tile)
    (hu : allTaken r.inU) : Becomes (.oxStepEnd row x) s (s.hall.oxEnd i r st) := by
  have htake : ∀ n, s.hall.takeTo i 0 2 n (n + 1) = some s.hall := fun n =>
    takeTo_taken (onEngine_eq_some.1 ho).1 n fun t ht => .inr (hu t ht)
  change execOxStepEnd row x s = _
  simp only [execOxStepEnd, run_next, hi, ho, if_neg (Nat.not_lt.2 hdone), htake]

omit hi in
theorem vuTake_taken {h : Hall} (ho : h.onEngine i 1 = some (r, st)) (ha : allTaken r.inA) (hu : allTaken r.inU) (n : Nat) :
    h.vuTake i r st n = some h := by
  have htake : ∀ sel n, sel = 0 ∨ sel = 2 → h.takeTo i 1 sel n (n + 1) = some h := fun sel n hsel =>
    takeTo_taken (onEngine_eq_some.1 ho).1 n fun t ht => .inr (by
      rcases hsel with rfl | rfl
      · exact ha t ht
      · exact hu t ht)
  simp [Hall.vuTake, htake]

theorem vuRowEnd_ends (ho : s.hall.onEngine i 1 = some (r, st)) (htok : opsPerToken (s.hall.opsOf i st) = true)
    (hleft : r.rowsDone < st.rows) (ha : allTaken r.inA) (hu : allTaken r.inU) :
    Becomes (.vuRowEnd row x) s (s.hall.vuRowEnd i st (s.hall.opsOf i st)) := by
  change execVuRowEnd row x s = _
  simp [execVuRowEnd, run_next, hi, ho, htok, hleft, vuTake_taken ho ha hu]

theorem vuRowEnd_waits (ho : s.hall.onEngine i 1 = some (r, st)) (htok : opsPerToken (s.hall.opsOf i st) = false) :
    Becomes (.vuRowEnd row x) s s.hall := by
  change execVuRowEnd row x s = _
  simp [execVuRowEnd, run_next, hi, ho, htok]

theorem vuStepEnd_ends (ho : s.hall.onEngine i 1 = some (r, st)) (hdone : opsPerToken (s.hall.opsOf i st) = true → st.rows ≤ r.rowsDone)
    (ha : allTaken r.inA) (hu : allTaken r.inU) : Becomes (.vuStepEnd row x) s (s.hall.vuEnd i st (s.hall.opsOf i st)) := by
  change execVuStepEnd row x s = _
  simp only [execVuStepEnd, run_next, hi, ho]
  rw [if_neg (by simpa using hdone)]
  simp only [vuTake_taken ho ha hu]

end

theorem allTaken_of_all {o : Option Take} (h : (o.all fun t => decide (t.n ≤ t.slots.length)) = true) : allTaken o := fun t ht => by
  simpa [ht] using h

theorem outOpen_of_all {h : Hall} {i : Nat} {r : Running}
    (ho : (r.out.all fun t => decide (t.n ≤ t.slots.length) && (h.trough i t.trough).isSome) = true) : h.outOpen i r := fun t ht => by
  simpa [ht] using ho

/-- Settles O40: slots, counters and checks leave the work of a stall as it was, so each command changes it as its own update does. -/
theorem stepsOnOxAndVu : Obligations.StepsOnOxAndVu := by
  intro s row x i h e outReady taken
  refine ⟨fun r st ho => ⟨?_, ?_, ?_, ?_, ?_, ?_⟩, fun r st ho => ⟨?_, ?_, ?_⟩⟩
  -- The Ox and its expander: a block is fetched or waits, a lane decodes, a tile ends or waits, the step waits or ends.
  · intro lane w hd hleft hlane hroom hw hslot
    obtain ⟨names, hb⟩ := expBlockFetch_fetches rfl ho hd hleft hlane hroom hw hslot
    refine ⟨_, hb, ?_, ⟨{ index := e.nextFetch, names := names }, ?_, rfl, rfl⟩, updStall_frame _ _ _ _ _ (by simp)⟩
    · rw [updStall_stall_same]
      rfl
    · rw [updStall_stall_same]
      exact lane_setLane e lane.val (by simp)
  · intro lane hno
    exact expBlockFetch_waits rfl ho hno
  · intro lane b w hb hw
    obtain ⟨lanes, hbecomes⟩ := expBlockDecoded_delivers rfl ho hb hw
    obtain ⟨hframe, hengine⟩ := blockDecoded_spec h i r st w (b.index % stepBlocks st) fun y => y.exp.setLane lane.val lanes
    refine ⟨_, hbecomes, fun hroom => ?_, (hframe.mem_eq (by simp)).trans (bump_mem ..), by rw [hengine, ho]; rfl⟩
    rw [hframe.2 _ _ (by simp [decodeReg]), getF_count_bump _ _ _ _ hroom.le]
    exact min_eq_right hroom
  · intro hleft us
    constructor
    · intro hready
      obtain ⟨g, hg⟩ := Option.isSome_iff_exists.1 hready
      have htaken := tileReady_slotsTaken hg
      obtain ⟨r', ho', hcore⟩ := htaken.work.onEngine ho
      obtain ⟨-, -, htile, -⟩ := core_eq hcore
      obtain ⟨hnext, hframe⟩ := tileEnd_spec g i r' st us
      have hall : Frame h (g.tileEnd i r' st us) [.data, .draws] anyReg := (htaken.frame.mono (by simp) fun _ _ => False.elim).trans hframe
      refine ⟨_, oxTileEnd_ends rfl ho hleft hg ho' us, ?_, hall.mem_eq (by simp), hall.1 .outs (by simp), hall.1 .cmd (by simp)⟩
      rw [hnext, ho', ← htile]
      rfl
    · exact fun hwait => oxTileEnd_waits rfl ho hwait us
  · exact fun hleft => oxStepEnd_waits rfl ho hleft
  · intro hdone him hu hout hm
    obtain ⟨hidle, hexp, hruns⟩ := oxEnd_stepEnded ho him (outOpen_of_all hout) hm
    refine ⟨_, oxStepEnd_ends rfl ho hdone (allTaken_of_all hu), hidle, hexp rfl, ?_⟩
    simpa [Hall.runSteps, Function.comp_def] using hruns
  -- The vector unit: a row is done, a step without rows to quantise has none, the step ends.
  · intro htok hleft ha hu hout
    obtain ⟨t, ht, hopen⟩ := (Option.any_eq_true ..).1 hout
    obtain ⟨g, hg⟩ := Option.isSome_iff_exists.1 hopen
    exact ⟨_, vuRowEnd_ends rfl ho htok hleft (allTaken_of_all ha) (allTaken_of_all hu), vuRowEnd_rowsDone ho ht hg _⟩
  · exact fun htok => vuRowEnd_waits rfl ho htok
  · intro hdone him ha hu hout hm
    obtain ⟨hidle, -, hruns⟩ := vuEnd_stepEnded ho him (outOpen_of_all hout) hm (s.hall.opsOf i st)
    refine ⟨_, vuStepEnd_ends rfl ho hdone (allTaken_of_all ha) (allTaken_of_all hu), hidle, ?_⟩
    simpa [Hall.runSteps, Function.comp_def] using hruns

end Sys2Proof.Machine
end

section
/-! SUPPORT. What leaves images, launch entries and requests as they are: staged copies, stores that a start fills, and channels, stalls and
buffers bound to an image (R181–R183, R201, R254, R276). -/

namespace Sys2Proof.Machine

/-! ### Reads through a pen's pages and of the weight arrays -/

@[simp] theorem latchMmu_data (h : Hall) (u cause pen page : Nat) : (h.latchMmu u cause pen page).data = h.data := by
  unfold Hall.latchMmu
  split <;> simp

@[simp] theorem mmuApply_data (h : Hall) (u : Nat) : (h.mmuApply u).data = h.data := by
  unfold Hall.mmuApply
  split
  · rfl
  · dsimp only
    split <;> split_ifs <;> simp

/-- A translation counts, latches and fills a cache. -/
@[simp] theorem translate_data (h : Hall) (hub : Hub) (pen mva : Nat) (write hubChain : Bool) :
    (h.translate hub pen mva write hubChain).2.data = h.data := by
  have hcount : ∀ b : Bool, (if b then (h.mmuApply (hubNum hub)).bump .mmuTranslations (hubNum hub)
      else ((h.mmuApply (hubNum hub)).bump .mmuTranslations (hubNum hub)).bump .mmuWalks (hubNum hub)).data = h.data := fun b => by
    split <;> simp
  unfold Hall.translate
  dsimp only
  split
  · simp [hcount]
  · split
    · cases hub <;> dsimp only <;> split_ifs <;> simp
    · cases hub <;> dsimp only <;> split_ifs <;> simp

@[simp] theorem nvRaw_data (h : Hall) (r p o n : Nat) : (h.nvRaw r p o n).2.data = h.data := by
  unfold Hall.nvRaw
  dsimp only
  split
  · rfl
  · split
    · simp [Hall.poisonedBytes, Hall.draw]
    · simp

@[simp] theorem nvMirrorRead_data (h : Hall) (pref o n : Nat) : (h.nvMirrorRead pref o n).2.data = h.data := by
  grind [Hall.nvMirrorRead, bump_data, nvRaw_data]

@[simp] theorem mvaRead_data (h : Hall) (hub : Hub) (pen mva n : Nat) : (h.mvaRead hub pen mva n).2.data = h.data := by
  refine foldl_same (fun acc : Option Payload × Hall => acc.2.data) _ (fun acc piece => ?_) (mvaPieces mva n) (some [], h)
  grind [translate_data, nvMirrorRead_data]

/-- Staged bytes are copied by reads alone. -/
@[simp] theorem stageCopy_data (h : Hall) (pen mva n : Nat) : (h.stageCopy pen mva n).2.data = h.data := by
  have hread := mvaRead_data h h.govHub pen mva n
  rw [Hall.stageCopy]
  generalize h.mvaRead h.govHub pen mva n = read at hread ⊢
  obtain ⟨_ | p, g⟩ := read
  · exact hread
  · dsimp only
    split <;> exact hread

/-! ### Stores and channels of a start -/

@[simp] theorem copyPair_data (h : Hall) (im : Image) (lot l s tensor off : Nat) : (h.copyPair im lot l s tensor off).data = h.data := by
  grind [Hall.copyPair, writeRam_data, nvMirrorRead_data]

/-- A stall's store takes the bytes that an image gives it at its start. -/
def Hall.initStore (h : Hall) (im : Image) (ls : Nat × Nat) : Hall :=
  match im.pstall ls.1 ls.2 with
  | some i => h.writeBytes (storeBase i) (im.init ls.1 ls.2)
  | none => h

theorem initStore_data (h : Hall) (im : Image) (ls : Nat × Nat) : (h.initStore im ls).data = h.data := by
  unfold Hall.initStore
  split
  · rw [writeBytes_data]
  · rfl

@[simp] theorem startStores_data (h : Hall) (im : Image) : (h.startStores im).data = h.data := by
  have hinit := foldl_same Hall.data _ (fun g ls => initStore_data g im ls) im.lstalls h
  refine (foldl_same Hall.data _ (fun g x => ?_) im.tableRefs (im.lstalls.foldl (fun g ls => g.initStore im ls) h)).trans hinit
  rw [copyPair_data]

@[simp] theorem chanEnable_data (h : Hall) (c : Nat) : (h.chanEnable c).data = h.data := by
  unfold Hall.chanEnable
  dsimp only
  split <;> simp

/-! ### Binding -/

/-- A buffer that changes its world is zeroed and its granules are listed anew. -/
theorem bufWorld_frame (h : Hall) (r : Nat) (b : Nat × Nat) : Frame h (h.bufWorld r b) [.ram, .marks, .wat] noReg := by
  refine Frame.foldl _ (fun g n => ?_) _ h
  dsimp only
  split
  · exact .refl ..
  · split
    · exact (setWorld_frame ..).mono (by simp) fun _ _ => id
    · exact ((zero_frame ..).mono (by simp) fun _ _ => id).trans ((setWorld_frame ..).mono (by simp) fun _ _ => id)

@[simp] theorem bufWorld_data (h : Hall) (r : Nat) (b : Nat × Nat) : (h.bufWorld r b).data = h.data :=
  (bufWorld_frame h r b).1 .data (by simp)

theorem bufWorlds_data (l : List (Nat × Nat × Nat)) (h : Hall) : (l.foldl (fun g b => g.bufWorld b.1 b.2) h).data = h.data :=
  (Frame.foldl _ (fun g (b : Nat × Nat × Nat) => bufWorld_frame g b.1 b.2) l h).1 .data (by simp)

@[simp] theorem bindChans_data (h : Hall) (free : List Nat) (handle pen : Nat) (heads : List Nat) (lrow : Option Nat) :
    (h.bindChans free handle pen heads lrow).data = h.data := by
  refine foldl_same Hall.data _ (fun g e => ?_) _ _
  exact setFs_data _ g e.2

@[simp] theorem redesignate_data (h : Hall) (p : Nat) : (h.redesignate p).data = h.data := (redesignate_frame h p).1 .data (by simp)

@[simp] theorem closeOp_data (h : Hall) (k status : Nat) (detail : Bytes) : (h.closeOp k status detail).data = h.data :=
  (closeOp_frame h k status detail).1 .data (by simp [postParts])

/-! ### Images and launch entries -/

theorem image_of_images {h h' : Hall} (e : h'.data.images = h.data.images) (k : Nat) : h'.image k = h.image k := by
  rw [Hall.image, Hall.image, e]

theorem image_of_data {h h' : Hall} (e : h'.data = h.data) (k : Nat) : h'.image k = h.image k := image_of_images (congrArg _ e) k

@[simp] theorem image_updImage_same (h : Hall) (k : Nat) (f : Image → Image) : (h.updImage k f).image k = (h.image k).map f := by
  unfold Hall.updImage
  split
  · next im him => exact (Tab.find_set_same ..).trans (by rw [him]; rfl)
  · next hnone => rw [hnone]; rfl

theorem updImage_frame (h : Hall) (k : Nat) (f : Image → Image) : Frame h (h.updImage k f) [.data] noReg := by
  unfold Hall.updImage
  split
  · exact frame_of_parts (fun p hp => by cases p <;> simp_all [Part.same]) rfl
  · exact .refl ..

@[simp] theorem updImage_launch (h : Hall) (k : Nat) (f : Image → Image) : (h.updImage k f).data.launch = h.data.launch := by
  unfold Hall.updImage
  split <;> rfl

@[simp] theorem updImage_requests (h : Hall) (k : Nat) (f : Image → Image) : (h.updImage k f).data.requests = h.data.requests := by
  unfold Hall.updImage
  split <;> rfl

@[simp] theorem image_updEntries (h : Hall) (k j : Nat) (f : LaunchEntry → LaunchEntry) : (h.updEntries k f).image j = h.image j := rfl

theorem updEntries_frame (h : Hall) (k : Nat) (f : LaunchEntry → LaunchEntry) : Frame h (h.updEntries k f) [.data] noReg :=
  frame_of_parts (fun p hp => by cases p <;> simp_all [Part.same, Hall.updEntries]) rfl

/-- Every launch entry of an image is changed. -/
theorem updEntries_entry {h : Hall} {k : Nat} {f : LaunchEntry → LaunchEntry} {P : LaunchEntry → Prop}
    (hP : ∀ e, P (f e)) : ∀ e ∈ (h.updEntries k f).data.launch, e.2.handle = k → P e.2 := by
  intro e he hk
  obtain ⟨e', -, rfl⟩ := List.mem_map.1 he
  by_cases hk' : e'.2.handle = k
  · rw [if_pos hk']
    exact hP _
  · rw [if_neg hk'] at hk
    exact absurd hk hk'

theorem find_map_snd {α β : Type} (t : Tab α) (g : α → β) (k : Nat) :
    Tab.find (t.map fun e => (e.1, g e.2)) k = (Tab.find t k).map g := by
  induction t with
  | nil => rfl
  | cons e rest ih =>
    simp only [List.map_cons, Tab.find]
    split
    · rfl
    · exact ih

/-- A change of launch entries that keeps their images keeps what is in flight. -/
theorem inFlight_updEntries (h : Hall) (k j : Nat) {f : LaunchEntry → LaunchEntry} (hf : ∀ e, (f e).handle = e.handle) :
    (h.updEntries k f).inFlight j = h.inFlight j := by
  have hentry : ∀ n, ((h.updEntries k f).launchEntry n).map LaunchEntry.handle = (h.launchEntry n).map LaunchEntry.handle := fun n => by
    have hmap : (h.updEntries k f).data.launch = h.data.launch.map fun e => (e.1, if e.2.handle = k then f e.2 else e.2) :=
      List.map_congr_left fun e _ => by split <;> rfl
    rw [Hall.launchEntry, hmap, find_map_snd h.data.launch (fun e => if e.handle = k then f e else e), Option.map_map]
    exact Option.map_congr fun e _ => by dsimp only [Function.comp]; split <;> simp [hf]
  simp only [Hall.inFlight, Hall.launchImage, hentry]
  rfl

theorem inFlight_of_tables {h h' : Hall} (hl : h'.data.launch = h.data.launch) (hr : h'.data.requests = h.data.requests) (k : Nat) :
    h'.inFlight k = h.inFlight k := by
  simp only [Hall.inFlight, Hall.launchImage, Hall.launchEntry, hl, hr]
  rfl

end Sys2Proof.Machine
end

section
/-! PROOFS. Settles O37: images are loaded, started, paused, resumed, retired and queried (R199–R202, Tables 7.13 and 7.14). -/

namespace Sys2Proof.Machine

/-! ### Till commands on an image -/

/-- A command that takes the state of its pen's image runs. -/
theorem onImage_takes {c : TillCmd} {h : Hall} {takes : ImgState → Bool} {f : Nat → Image → Answer} {im : Image} (hlen : c.length = 4)
    (him : h.image (c.arg 0 4) = some im) (hpen : im.pen = c.pen) (ht : takes im.state = true) :
    onImage c h takes f = f (c.arg 0 4) im := by
  simp [onImage, hlen, him, hpen, ht]

/-- A command answered ACCEPTED opens an operation, and what it starts runs under the operation's handle. -/
theorem acceptOp_eq (h : Hall) (c : TillCmd) (f : Nat → Hall → Hall) (more : Bytes) :
    acceptOp h c f more = ⟨stAccepted, leBytes 4 h.cmd.nextHandle ++ more, f h.cmd.nextHandle (h.openOp c.till c.pen c.secure).2⟩ := rfl

/-! ### SCHED_LOAD and its end -/

/-- An image enters the table as LOADING. -/
def Hall.loading (h : Hall) (c : TillCmd) (op : Nat) : Hall :=
  let r := h.stageCopy c.pen (c.arg 0 8) (c.arg 8 4)
  let raw := match r.1 with
    | .inr b => b
    | .inl _ => []
  let fault := match r.1 with
    | .inr _ => 0
    | .inl f => f
  let im : Image := { pen := c.pen, imageId := leAt raw 8 4, raw := raw, fault := fault, firstLaunch := c.arg 12 1, op := some op }
  { r.2 with data.images := Tab.set r.2.data.images h.data.nextImage im, data.nextImage := h.data.nextImage + 1 }

theorem schedLoad_answers {s : State} {t : Fin 128} (hr : s.hall.tillReady t 0x0201 (decide ((s.hall.tillCmd t).pen = 0)) false = true)
    (hlen : (s.hall.tillCmd t).length = 13) :
    Answers (.schedLoad t) s t stAccepted (leBytes 4 s.hall.cmd.nextHandle ++ leBytes 4 s.hall.data.nextImage)
      ((s.hall.openOp (s.hall.tillCmd t).till (s.hall.tillCmd t).pen (s.hall.tillCmd t).secure).2.loading (s.hall.tillCmd t)
        s.hall.cmd.nextHandle) :=
  answers_of_till (sc := forP0) rfl hr (by rw [if_neg (not_not.2 hlen)]; rfl)

theorem image_loading (h : Hall) (c : TillCmd) (op : Nat) :
    ((h.loading c op).image h.data.nextImage).map (fun im => (im.pen, im.state, im.firstLaunch, im.op)) =
      some (c.pen, ImgState.loading, c.arg 12 1, some op) := by
  rw [Hall.loading, Hall.image, Tab.find_set_same]
  rfl

theorem image_loadFailed (h : Hall) (k : Nat) (op : Option Nat) (status : Nat) (detail : Bytes) :
    (h.loadFailed k op status detail).image k = none := by
  unfold Hall.loadFailed
  dsimp only
  split
  · exact (image_of_data (closeOp_data ..) k).trans (Tab.find_erase_same ..)
  · exact Tab.find_erase_same ..

/-- An image whose row is bound stays in the table. -/
theorem image_bindRow_isSome {h : Hall} {k : Nat} (l r : Nat) (him : (h.image k).isSome = true) :
    ((h.bindRow k l r).image k).isSome = true := by
  unfold Hall.bindRow
  split
  · exact him
  · next im _ =>
    extract_lets limg pairs gLedger gStalls gChans gImage
    have hstalls : gStalls.data.images = h.data.images := by
      refine (foldl_same (fun g : Hall => g.data.images) _ (fun g e => ?_) pairs gLedger).trans ?_ <;> rfl
    have hchans : gChans.image k = h.image k := image_of_images ((congrArg Data.images (bindChans_data ..)).trans hstalls) k
    have himage : (gImage.image k).isSome = true := by rw [image_updImage_same, Option.isSome_map, hchans, him]
    split
    · rwa [image_of_data (bufWorld_data ..)]
    · exact himage

theorem image_bindImage_isSome (h : Hall) (k : Nat) (im : Image) (rows : Tab Nat) : ((h.bindImage k im rows).image k).isSome = true := by
  have hrows : ∀ (l : Tab Nat) (g : Hall), (g.image k).isSome = true →
      ((l.foldl (fun g e => g.bindRow k e.1 e.2) g).image k).isSome = true := fun l => by
    induction l with
    | nil => exact fun _ => id
    | cons e l ih => exact fun g hg => ih _ (image_bindRow_isSome e.1 e.2 hg)
  unfold Hall.bindImage
  extract_lets _ gTable gRows heads gHubs launch
  have hhubs : gHubs.data = gRows.data := by
    refine foldl_same Hall.data _ (fun g hub => ?_) _ _
    split
    · rfl
    · exact bindChans_data ..
  change (gHubs.image k).isSome = true
  rw [image_of_data hhubs]
  exact hrows rows gTable (by rw [Hall.image, Tab.find_set_same]; rfl)

/-- An image as the end of its load finds it. -/
def Image.parsed (im : Image) : Image := { parseImage im.pen im.raw with firstLaunch := im.firstLaunch, op := im.op }

section
variable {h : Hall} {k : Nat} {im : Image} (hf : im.fault = 0)
include hf

theorem loadEnd_refused {r : Refuse} (hr : imageRefuse h im.pen im.raw = some r) :
    h.loadEnd k im = h.loadFailed k im.op r.status r.bytes := by
  simp [Hall.loadEnd, hf, hr]

theorem loadEnd_unplaced (hr : imageRefuse h im.pen im.raw = none) (hp : h.placeRows im.parsed = none) :
    h.loadEnd k im = h.loadFailed k im.op stNoResource [] := by
  rw [Image.parsed] at hp
  simp [Hall.loadEnd, hf, hr, hp]

/-- An image that passes, is placed and finds room is LOADED, and its operation is over. -/
theorem loadEnd_loaded (hr : imageRefuse h im.pen im.raw = none) {rows : Tab Nat} (hp : h.placeRows im.parsed = some rows)
    (hroom : h.roomFor im.parsed rows = true) (hshadow : im.parsed.shadowSteps = false) :
    ((h.loadEnd k im).image k).map (fun x => (x.state, x.op)) = some (ImgState.loaded, none) := by
  obtain ⟨x, hx⟩ := Option.isSome_iff_exists.1 (image_bindImage_isSome h k im.parsed rows)
  have hbound : (((h.bindImage k im.parsed rows).updImage k fun im => { im with state := .loaded, op := none }).redesignate
      im.parsed.pen).image k = some { x with state := .loaded, op := none } := by
    rw [image_of_data (redesignate_data ..), image_updImage_same, hx, Option.map_some]
  rw [Image.parsed] at hp hroom hshadow hbound
  simp only [Hall.loadEnd, hf, hr, hp, hroom, hshadow, ne_eq, not_true_eq_false, Bool.not_true, Bool.false_and,
    Bool.false_eq_true, if_false]
  split
  · rw [image_of_data (closeOp_data ..), hbound]
    rfl
  · rw [hbound]
    rfl

end

theorem schedLoadDone_becomes {s : State} {k : Nat} {im : Image} (him : s.hall.image k = some im) (hs : im.state = .loading) :
    Becomes (.schedLoadDone k) s (s.hall.loadEnd k im) := by
  change execSchedLoadDone k s = _
  simp [execSchedLoadDone, run_next, him, hs]

/-! ### SCHED_START and SCHED_RESUME -/

/-- A started image is ACTIVE, and its launch entries are VALID. -/
theorem imageStart_spec {h : Hall} {k : Nat} {im : Image} (him : h.image k = some im) :
    ((h.imageStart k).image k).map Image.state = some .active ∧
      ∀ e ∈ (h.imageStart k).data.launch, e.2.handle = k → e.2.valid = true := by
  unfold Hall.imageStart
  simp (zeta := false) only [him]
  extract_lets gStores gChans
  have hstores := congrArg Data.images (startStores_data h im)
  have hchans : gChans.data = gStores.data := foldl_same Hall.data _ chanEnable_data _ gStores
  have himage : gChans.image k = some im := (image_of_images ((congrArg Data.images hchans).trans hstores) k).trans him
  constructor
  · rw [image_updImage_same, image_updEntries, himage]
    rfl
  · rw [updImage_launch]
    exact updEntries_entry (P := fun e => e.valid = true) fun _ => rfl

/-- The image becomes ACTIVE again, and its launch entries take requests but for the standby of a warm pair. -/
def Hall.imageResume (h : Hall) (k : Nat) (im : Image) : Hall :=
  (h.updEntries k fun e => { e with intakeOn := !h.isStandby im.pen }).updImage k fun im => { im with state := .active }

theorem imageResume_spec {h : Hall} {k : Nat} {im : Image} (him : h.image k = some im) :
    ((h.imageResume k im).image k).map Image.state = some .active ∧
      (∀ e ∈ (h.imageResume k im).data.launch, e.2.handle = k → e.2.intakeOn = !h.isStandby im.pen) ∧
      Frame h (h.imageResume k im) [.data] noReg := by
  refine ⟨?_, ?_, (updEntries_frame ..).trans (updImage_frame ..)⟩
  · rw [Hall.imageResume, image_updImage_same, image_updEntries, him]
    rfl
  · rw [Hall.imageResume, updImage_launch]
    exact updEntries_entry (P := fun e => e.intakeOn = !h.isStandby im.pen) fun _ => rfl

/-! ### SCHED_PAUSE and SCHED_RETIRE -/

/-- An image takes no further requests, and waits in a state of Table 7.14 for those in flight. -/
def Hall.holdImage (h : Hall) (k : Nat) (x : ImgState) (op : Nat) : Hall :=
  (h.updEntries k fun e => { e with intakeOn := false }).updImage k fun im => { im with state := x, op := some op }

theorem holdImage_spec {h : Hall} {k : Nat} {im : Image} (him : h.image k = some im) (x : ImgState) (op : Nat) :
    (h.holdImage k x op).image k = some { im with state := x, op := some op } ∧ (h.holdImage k x op).inFlight k = h.inFlight k ∧
      (∀ e ∈ (h.holdImage k x op).data.launch, e.2.handle = k → e.2.intakeOn = false) ∧
      Frame h (h.holdImage k x op) [.data] noReg := by
  refine ⟨?_, ?_, ?_, (updEntries_frame ..).trans (updImage_frame ..)⟩
  · rw [Hall.holdImage, image_updImage_same, image_updEntries, him]
    rfl
  · rw [Hall.holdImage, inFlight_of_tables (updImage_launch ..) (updImage_requests ..), inFlight_updEntries]
    exact fun _ => rfl
  · rw [Hall.holdImage, updImage_launch]
    exact updEntries_entry (P := fun e => e.intakeOn = false) fun _ => rfl

theorem imageSettle_waits {h : Hall} {k : Nat} (hn : h.inFlight k ≠ 0) : h.imageSettle k = h := by
  unfold Hall.imageSettle
  split
  · rfl
  · rw [if_pos hn]

section
variable {h : Hall} {k op : Nat} {im : Image} (him : h.image k = some im) (hop : im.op = some op) (hn : h.inFlight k = 0)
include him hop hn

theorem imageSettle_pausing (hs : im.state = .pausing) :
    h.imageSettle k = (h.updImage k fun im => { im with state := .paused, op := none }).closeOp op stOK := by
  simp [Hall.imageSettle, him, hop, hn, hs]

theorem imageSettle_retiring (hs : im.state = .retiring) : h.imageSettle k = (h.imageFree k).closeOp op stOK := by
  simp [Hall.imageSettle, him, hop, hn, hs]

end

theorem imageFree_image (h : Hall) (k : Nat) : (h.imageFree k).image k = none := by
  unfold Hall.imageFree
  extract_lets pen bufs gChans gone gRuns gRoles _ _ gFreed gBufs
  clear_value pen bufs gRoles
  have hbufs : gBufs.data = gFreed.data := bufWorlds_data bufs gFreed
  have hnone : gFreed.image k = none := Tab.find_erase_same gRoles.data.images k
  cases pen with
  | some p => rw [image_of_data (redesignate_data ..), image_of_data hbufs, hnone]
  | none => rw [image_of_data hbufs, hnone]

/-- A paused image is PAUSED at once where nothing is in flight, and its memory is as it was. -/
theorem imagePause_spec {h : Hall} {k : Nat} {im : Image} (him : h.image k = some im) (op : Nat) :
    (((h.holdImage k .pausing op).imageSettle k).image k).map Image.state = some (if h.inFlight k = 0 then .paused else .pausing) ∧
      (∀ e ∈ ((h.holdImage k .pausing op).imageSettle k).data.launch, e.2.handle = k → e.2.intakeOn = false) ∧
      ((h.holdImage k .pausing op).imageSettle k).mem.ram = h.mem.ram := by
  obtain ⟨himage, hflight, hentries, hframe⟩ := holdImage_spec him .pausing op
  have hram : (h.holdImage k .pausing op).mem.ram = h.mem.ram := hframe.1 .ram (by simp)
  by_cases hn : h.inFlight k = 0
  · rw [imageSettle_pausing himage rfl (hflight.trans hn) rfl, if_pos hn]
    refine ⟨?_, ?_, ?_⟩
    · rw [image_of_data (closeOp_data ..), image_updImage_same, himage]
      rfl
    · rwa [closeOp_data, updImage_launch]
    · exact ((closeOp_frame ..).1 .ram (by simp [postParts])).trans (((updImage_frame ..).1 .ram (by simp)).trans hram)
  · rw [imageSettle_waits (by rwa [hflight]), if_neg hn]
    exact ⟨by rw [himage]; rfl, hentries, hram⟩

/-- A retired image is gone at once where nothing is in flight, and RETIRING otherwise. -/
theorem imageRetire_spec {h : Hall} {k : Nat} {im : Image} (him : h.image k = some im) (op : Nat) :
    (h.inFlight k = 0 → ((h.holdImage k .retiring op).imageSettle k).image k = none) ∧
      (h.inFlight k ≠ 0 → (((h.holdImage k .retiring op).imageSettle k).image k).map Image.state = some .retiring) := by
  obtain ⟨himage, hflight, -, -⟩ := holdImage_spec him .retiring op
  constructor
  · intro hn
    rw [imageSettle_retiring himage rfl (hflight.trans hn) rfl, image_of_data (closeOp_data ..)]
    exact imageFree_image ..
  · intro hn
    rw [imageSettle_waits (by rwa [hflight]), himage]
    rfl

/-! ### SCHED_QUERY -/

/-- The state and the IMAGE_ID stand at bytes 0 and 4 of the report (Table 7.13). -/
theorem imageReport_fields (h : Hall) (k : Nat) (im : Image) :
    leAt (h.imageReport k im) 0 1 = im.state.code ∧ leAt (h.imageReport k im) 4 4 = im.imageId % 2 ^ 32 := by
  have hcode : im.state.code < 256 := by cases im.state <;> decide
  constructor
  · simp [Hall.imageReport, leAt, slice, leBytes, leNat, Nat.mod_eq_of_lt hcode]
  · simp [Hall.imageReport, leAt, slice, leBytes, leNat]
    omega

/-! ### The obligation -/

section
variable {i : Instr} {s : State} {t code : Nat} {takes : ImgState → Bool} {im : Image}
  (hr : s.hall.tillReady t code (decide ((s.hall.tillCmd t).pen = 0)) false = true) (hlen : (s.hall.tillCmd t).length = 4)
  (him : s.hall.image (leAt (s.hall.tillPayload t) 0 4) = some im) (hpen : im.pen = (s.hall.tillCmd t).pen) (ht : takes im.state = true)
include hr hlen him hpen ht

/-- A command that starts an operation on its pen's image is answered ACCEPTED with the operation's handle. -/
theorem answers_of_operation {start : Nat → Nat → Hall → Hall}
    (hi : exec i s = s.till t code forP0 fun c h => onImage c h takes fun k _ => acceptOp h c (start k)) :
    Answers i s t stAccepted (leBytes 4 s.hall.cmd.nextHandle) (start (leAt (s.hall.tillPayload t) 0 4) s.hall.cmd.nextHandle
      (s.hall.openOp (s.hall.tillCmd t).till (s.hall.tillCmd t).pen (s.hall.tillCmd t).secure).2) :=
  answers_of_till hi hr ((onImage_takes hlen him hpen ht).trans (by rw [acceptOp_eq, List.append_nil]; rfl))

/-- A command that acts on its pen's image at once is answered OK. -/
theorem answers_of_onImage {body : Hall → Nat → Image → Answer} {payload : Bytes} {h' : Hall}
    (hi : exec i s = s.till t code forP0 fun c h => onImage c h takes (body h))
    (hb : body s.hall (leAt (s.hall.tillPayload t) 0 4) im = okWith h' payload) : Answers i s t stOK payload h' :=
  answers_of_till hi hr ((onImage_takes hlen him hpen ht).trans hb)

end

/-- Settles O37: each command finds the state that it takes and moves the image on; requests in flight hold a pause and a retirement
open. -/
theorem scheduleCommands : Obligations.ScheduleCommands := by
  refine ⟨fun s t => ?_, fun s k im him hs hf => ⟨_, schedLoadDone_becomes him hs, fun r hr => ?_, fun hr =>
    ⟨fun rows hp hroom hshadow => ?_, fun hp => ?_⟩⟩⟩
  · intro b c op p0
    refine ⟨fun hr hlen => ⟨_, schedLoad_answers hr hlen, image_loading .., rfl⟩, fun hlen im him hpen =>
      ⟨fun hr hs => ?_, fun hr hs => ?_, fun hr hs => ?_, fun hr hs => ?_, fun hr => ?_⟩⟩
    -- Start, pause, resume, retire, query.
    · obtain ⟨hactive, hvalid⟩ := imageStart_spec him
      exact ⟨_, answers_of_onImage hr hlen him hpen (by simp [hs]) rfl rfl, hactive, hvalid⟩
    · exact ⟨_, answers_of_operation (start := fun k op h => (h.holdImage k .pausing op).imageSettle k) hr hlen him hpen
          (by simp [hs]) rfl, imagePause_spec (h := (s.hall.openOp c.till c.pen c.secure).2) him op⟩
    · exact ⟨_, answers_of_onImage hr hlen him hpen (by simp [hs]) rfl rfl, imageResume_spec him⟩
    · exact ⟨_, answers_of_operation (start := fun k op h => (h.holdImage k .retiring op).imageSettle k) hr hlen him hpen
          (by simpa [or_assoc] using hs) rfl, imageRetire_spec (h := (s.hall.openOp c.till c.pen c.secure).2) him op⟩
    · obtain ⟨hstate, hid⟩ := imageReport_fields s.hall (leAt b 0 4) im
      exact ⟨_, answers_of_onImage hr hlen him hpen rfl rfl rfl, hstate, hid⟩
  -- The end of a load.
  · rw [loadEnd_refused hf hr]
    exact image_loadFailed ..
  · exact loadEnd_loaded hf hr hp hroom hshadow
  · rw [loadEnd_unplaced hf hr hp]
    exact image_loadFailed ..

end Sys2Proof.Machine
end

section
/-! PROOFS. Settles O39: a stall's dispatch starts the ready record at its dispatch point or counts a miss (R187–R189, R203, R205). -/

namespace Sys2Proof.Machine

/-! ### What leaves a start as it was -/

/-- The steps of an open run that have started. -/
def Hall.runStarts (h : Hall) (k : RunKey) : Option (List (Nat × Nat)) := (h.findRun k).map GroupRun.startedSteps

/-- The step on an engine of stall `i` (but for its slots), the steps started of every open run, and STALL_STEPS of the stall are in `h'`
as they were in `h`. -/
structure SameStarts (i eng : Nat) (h h' : Hall) : Prop where
  running : ((h'.stall i).running eng).map Running.core = ((h.stall i).running eng).map Running.core
  runs : ∀ k, h'.runStarts k = h.runStarts k
  steps : h'.getF (.count .stallSteps) i = h.getF (.count .stallSteps) i

section
variable {i eng : Nat} {h h' h'' : Hall}

theorem SameStarts.refl (i eng : Nat) (h : Hall) : SameStarts i eng h h := ⟨rfl, fun _ => rfl, rfl⟩

theorem SameStarts.trans (a : SameStarts i eng h h') (b : SameStarts i eng h' h'') : SameStarts i eng h h'' :=
  ⟨b.running.trans a.running, fun k => (b.runs k).trans (a.runs k), b.steps.trans a.steps⟩

theorem SameStarts.foldl {α : Type} (f : Hall → α → Hall) (hf : ∀ g a, SameStarts i eng g (f g a)) (l : List α) (h : Hall) :
    SameStarts i eng h (l.foldl f h) := by
  induction l generalizing h with
  | nil => exact .refl i eng h
  | cons a l ih => exact (hf h a).trans (ih _)

/-- What changes neither stalls nor Ledgers nor STALL_STEPS. -/
theorem SameStarts.of_tables (hs : h'.data.stalls = h.data.stalls) (hl : h'.data.ledgers = h.data.ledgers)
    (hc : h'.getF (.count .stallSteps) i = h.getF (.count .stallSteps) i) : SameStarts i eng h h' := by
  constructor <;> simp [Hall.runStarts, Hall.findRun, Hall.ledger, Hall.stall, hs, hl, hc]

/-- What writes registers other than STALL_STEPS. -/
theorem SameStarts.of_frame {parts : List Part} (f : Frame h h' parts fun g _ => g ≠ .count .stallSteps) (hp : .data ∉ parts) :
    SameStarts i eng h h' :=
  have hd : h'.data = h.data := f.1 .data hp
  .of_tables (congrArg _ hd) (congrArg _ hd) (f.2 _ _ (by simp))

theorem setFs_sameStarts (h : Hall) (u : Nat) (l : List (Fld × Nat)) (hl : ∀ e ∈ l, e.1 ≠ .count .stallSteps) :
    SameStarts i eng h (h.setFs u l) := .of_frame (setFs_frame l h u [] _ hl) (by simp)

theorem setF_sameStarts (h : Hall) (f : Fld) (u v : Nat) (hf : f ≠ .count .stallSteps) : SameStarts i eng h (h.setF f u v) :=
  .of_frame (setF_frame h f u v [] _ hf) (by simp)

theorem bump_sameStarts (h : Hall) (c : Ctr) (u n : Nat) (hc : c ≠ .stallSteps) : SameStarts i eng h (h.bump c u n) :=
  .of_frame (bump_frame h c u n [] _ (by simpa using hc) (by simp)) (by simp)

theorem updRun_sameStarts (h : Hall) (k : RunKey) (f : GroupRun → GroupRun) (hk : ∀ r, (f r).key = r.key)
    (hs : ∀ r, (f r).startedSteps = r.startedSteps) : SameStarts i eng h (h.updRun k f) where
  running := rfl
  runs k' := by
    rw [Hall.runStarts, findRun_updRun h k k' f hk, Option.map_map]
    exact Option.map_congr fun r _ => by dsimp only [Function.comp]; split <;> simp [hs]
  steps := rfl

theorem updStall_sameStarts (h : Hall) (f : Stall → Stall)
    (hf : ((f (h.stall i)).running eng).map Running.core = ((h.stall i).running eng).map Running.core) :
    SameStarts i eng h (h.updStall i f) := ⟨by rw [updStall_stall_same, hf], fun _ => rfl, rfl⟩

theorem updTrough_sameStarts (h : Hall) (t : Nat) (f : Trough → Trough) : SameStarts i eng h (h.updTrough i t f) := by
  unfold Hall.updTrough
  split
  · exact updStall_sameStarts h _ rfl
  · exact .refl i eng h

theorem updRunning_sameStarts (h : Hall) (f : Running → Running) (hf : ∀ r, (f r).core = r.core) :
    SameStarts i eng h (h.updRunning i eng f) :=
  updStall_sameStarts h _ (by rw [setRunning_running, Option.map_map, show Running.core ∘ f = Running.core from funext hf])

/-! ### Slots and tokens -/

theorem addDeps_sameStarts (h : Hall) (k : RunKey) (new : List Dep) : SameStarts i eng h (h.addDeps k new) :=
  updRun_sameStarts h k _ (fun _ => rfl) fun _ => rfl

theorem addMove_sameStarts (h : Hall) (key : Option RunKey) (m : SlotMove) : SameStarts i eng h (h.addMove key m) := by
  unfold Hall.addMove
  split
  · exact updRun_sameStarts _ _ _ (fun _ => rfl) fun _ => rfl
  · exact .refl i eng h

theorem fillStart_sameStarts (h : Hall) (t s : Nat) (key : Option RunKey) (token : Nat) (tags : List Dep) :
    SameStarts i eng h (h.fillStart i t s key token tags) := by
  unfold Hall.fillStart
  split
  · exact .refl i eng h
  · exact (updTrough_sameStarts ..).trans (addMove_sameStarts ..)

theorem drainStart_sameStarts (h : Hall) (t s : Nat) (key : Option RunKey) : SameStarts i eng h (h.drainStart i t s key) := by
  unfold Hall.drainStart
  split
  · exact .refl i eng h
  · exact (updTrough_sameStarts ..).trans (addMove_sameStarts ..)

theorem takeNext_sameStarts {sel : Nat} (hg : h.takeNext i eng sel = some h') : SameStarts i eng h h' := by
  obtain ⟨k, tags, t, s, v, rfl⟩ := takeNext_eq_some hg
  exact ((addDeps_sameStarts ..).trans (drainStart_sameStarts ..)).trans (updRunning_sameStarts _ _ fun r => setTake_core r sel v)

theorem takeTo_sameStarts {sel n fuel : Nat} (hg : h.takeTo i eng sel n fuel = some h') : SameStarts i eng h h' := by
  induction fuel generalizing h with
  | zero => exact Option.some.inj hg ▸ .refl i eng h
  | succ fuel ih =>
    unfold Hall.takeTo at hg
    split at hg
    · exact Option.some.inj hg ▸ .refl i eng h
    · split at hg
      · exact Option.some.inj hg ▸ .refl i eng h
      · split at hg
        · next g hnext => exact (takeNext_sameStarts hnext).trans (ih hg)
        · contradiction

theorem takeTo_getD_sameStarts (h : Hall) (sel n fuel : Nat) : SameStarts i eng h ((h.takeTo i eng sel n fuel).getD h) := by
  cases hg : h.takeTo i eng sel n fuel with
  | none => exact .refl i eng h
  | some g => exact takeTo_sameStarts hg

theorem updReq_sameStarts (h : Hall) (token : Nat) (f : Req → Req) : SameStarts i eng h (h.updReq token f) := by
  unfold Hall.updReq
  split
  · exact .of_tables rfl rfl rfl
  · exact .refl i eng h

theorem updCrossing_sameStarts (h : Hall) (handle lot layer : Nat) (f : Crossing → Crossing) :
    SameStarts i eng h (h.updCrossing handle lot layer f) := by
  unfold Hall.updCrossing
  dsimp only
  split <;> exact .of_tables rfl rfl rfl

theorem enterToken_sameStarts (h : Hall) (k : RunKey) (token : Nat) : SameStarts i eng h (h.enterToken k token) := by
  have hlist : ∀ f : GroupRun → List Nat, SameStarts i eng h (h.updRun k fun r => { r with tokens := f r }) := fun f =>
    updRun_sameStarts h k _ (fun _ => rfl) fun _ => rfl
  unfold Hall.enterToken
  split
  · exact .refl i eng h
  · split
    · exact .refl i eng h
    · dsimp only
      split
      · exact hlist _
      · exact (hlist _).trans (.foldl _ (fun _ _ => (updReq_sameStarts ..).trans (updCrossing_sameStarts ..)) _ _)

/-! ### What a start publishes -/

theorem countStep_sameStarts (h : Hall) : SameStarts i eng h (h.countStep i) := by
  unfold Hall.countStep
  extract_lets n gSince gPack
  have hsince : SameStarts i eng h gSince := by
    dsimp only [gSince]
    split
    · exact setF_sameStarts _ _ _ _ (by simp)
    · exact (setF_sameStarts _ _ _ _ (by simp)).trans (setF_sameStarts _ _ _ _ (by simp))
  split
  · exact hsince
  · have hpack : SameStarts i eng h gPack := hsince.trans (updStall_sameStarts _ _ rfl)
    split
    · exact hpack.trans (bump_sameStarts _ _ _ _ (by simp))
    · exact hpack

theorem engineStatus_sameStarts (h : Hall) (r : StepRef) (chk : Bool) : SameStarts i eng h (h.engineStatus r chk) := by
  unfold Hall.engineStatus
  dsimp only
  split
  · split
    · exact (setFs_sameStarts _ _ _ (by simp)).trans (setFs_sameStarts _ _ _ (by simp))
    · exact setFs_sameStarts _ _ _ (by simp)
  · exact setFs_sameStarts _ _ _ (by simp)
  · exact setFs_sameStarts _ _ _ (by simp)

theorem loadExpander_sameStarts (h : Hall) (r : StepRef) : SameStarts r.i eng h (h.loadExpander r) := by
  have hload : ∀ e : Expander, SameStarts r.i eng h (h.updStall r.i fun x => { x with exp := e }) := fun e => updStall_sameStarts h _ rfl
  unfold Hall.loadExpander
  split
  · exact .refl _ eng h
  · dsimp only
    split
    · exact ((hload _).trans (setFs_sameStarts _ _ _ (by simp))).trans (setFs_sameStarts _ _ _ (by simp))
    · exact (hload _).trans (setFs_sameStarts _ _ _ (by simp))

end

/-! ### The start of a step -/

theorem runStarts_of_ledgers {h h' : Hall} (hl : h'.data.ledgers = h.data.ledgers) (k : RunKey) : h'.runStarts k = h.runStarts k := by
  simp only [Hall.runStarts, Hall.findRun, Hall.ledger, hl]

theorem stepBoundary_ledgers (h : Hall) (i : Nat) : (h.stepBoundary i).data.ledgers = h.data.ledgers := by
  have hclears := congrArg Data.ledgers (foldl_same Hall.data _ (fun g c => stallClear_data g i c) (h.stall i).clears h)
  exact hclears

theorem stepBoundary_of_no_clears {h : Hall} {i : Nat} (hc : (h.stall i).clears = []) :
    h.stepBoundary i = h.updStall i fun x => { x with clears := [] } := by
  rw [Hall.stepBoundary, hc, List.foldl_nil]

/-- A run is open once a step of it starts, with the steps that had started before. -/
theorem openRun_runStarts (h : Hall) (k : RunKey) (handle pen nstep : Nat) :
    (h.openRun k handle pen nstep).runStarts k = some ((h.runStarts k).getD []) := by
  unfold Hall.openRun
  split
  · next r hr =>
    have hstarts : h.runStarts k = some ((h.runStarts k).getD []) := by simp [Hall.runStarts, hr]
    rw [← hstarts]
    split
    · split <;> exact runStarts_of_ledgers (by rw [bump_data]) k
    · rfl
  · next hnone =>
    let new : GroupRun := { key := k, handle := handle, pen := pen, nstep := nstep }
    have hled : (h.updLedger k.row fun l => { l with runs := l.runs ++ [new] }).ledger k.row =
        { h.ledger k.row with runs := (h.ledger k.row).runs ++ [new] } := Tab.get_set_same ..
    have hnone' : (h.ledger k.row).runs.find? (fun r => decide (r.key = k)) = none := hnone
    simp [Hall.runStarts, Hall.findRun, hled, List.find?_append, hnone', new]

theorem openRun_stallSteps (h : Hall) (k : RunKey) (handle pen nstep i : Nat) :
    (h.openRun k handle pen nstep).getF (.count .stallSteps) i = h.getF (.count .stallSteps) i := by
  unfold Hall.openRun
  split
  · split
    · split <;> exact getF_bump_ne _ _ _ _ _ _ (by simp) (by simp)
    · rfl
  · rfl

/-- A step that starts is in the list of its run. -/
theorem updRun_starts (h : Hall) (k : RunKey) (e : Nat × Nat) :
    (h.updRun k fun y => { y with startedSteps := y.startedSteps ++ [e] }).runStarts k = (h.runStarts k).map (· ++ [e]) := by
  rw [Hall.runStarts, findRun_updRun h k k (fun y => { y with startedSteps := y.startedSteps ++ [e] }) fun _ => rfl,
    Option.map_map, Hall.runStarts, Option.map_map]
  exact Option.map_congr fun r _ => by simp

/-- What an engine runs and how far it is: record and pass, context, run, tiles and rows done. -/
def Running.progress (z : Running) : Nat × Nat × Nat × RunKey × Nat × Nat := (z.idx, z.pass, z.ctx, z.key, z.tile, z.rowsDone)

theorem SameStarts.progress {i eng : Nat} {h h' : Hall} (a : SameStarts i eng h h') :
    ((h'.stall i).running eng).map Running.progress = ((h.stall i).running eng).map Running.progress := by
  have hcore := congrArg (Option.map Running.progress) a.running
  rwa [Option.map_map, Option.map_map, show Running.progress ∘ Running.core = Running.progress from rfl] at hcore

/-- What the start of a step changes (R189, R205): the engine runs it from its first tile and row, its run lists it, and STALL_STEPS counts
it unless a clear waits. -/
structure StepStarted (r : StepRef) (h h' : Hall) : Prop where
  running : ((h'.stall r.i).running r.st.eng).map Running.progress = some (r.idx, r.pass, r.st.ctx, r.key, 0, 0)
  runs : h'.runStarts r.key = some ((h.runStarts r.key).getD [] ++ [(r.i, r.idx)])
  steps : (h.stall r.i).clears = [] → h.getF (.count .stallSteps) r.i < Ctr.stallSteps.top →
    h'.getF (.count .stallSteps) r.i = h.getF (.count .stallSteps) r.i + 1

theorem startStep_stepStarted (h : Hall) (r : StepRef) (alt : Bool) : StepStarted r h (h.startStep r alt) := by
  unfold Hall.startStep
  extract_lets st gBoundary deps gOpen run token forced unchecked chk
  split
  next n gFree hfree =>
  extract_lets sampled x gBegun gTaken gFilled gListed gCounted
  -- The run opens, and the engine has the step.
  have hdeps : SameStarts r.i st.eng (gBoundary.openRun r.key r.handle r.im.pen (r.im.nstep st.group)) gFree := by
    rw [show gFree = gOpen.free.2 by rw [hfree]]
    exact (addDeps_sameStarts ..).trans (.of_tables rfl rfl rfl)
  have hopen : gBegun.runStarts r.key = some ((h.runStarts r.key).getD []) := by
    rw [show gBegun.runStarts r.key = gFree.runStarts r.key from rfl, hdeps.runs, openRun_runStarts,
      runStarts_of_ledgers (stepBoundary_ledgers h r.i)]
  have hrunning : (gBegun.stall r.i).running st.eng = some x := by
    dsimp only [gBegun]
    rw [updStall_stall_same]
    split <;> exact setRunning_running ..
  have hsteps : (h.stall r.i).clears = [] → gBegun.getF (.count .stallSteps) r.i = h.getF (.count .stallSteps) r.i := fun hc => by
    rw [updStall_getF, hdeps.steps, openRun_stallSteps, show gBoundary = _ from stepBoundary_of_no_clears hc, updStall_getF]
  -- It takes its first slots and opens its first output slot.
  have hslots : SameStarts r.i st.eng gBegun gFilled := by
    refine (SameStarts.foldl _ (fun g sel => takeTo_getD_sameStarts g sel 1 1) [0, 1, 2] gBegun).trans (h' := gTaken) ?_
    dsimp only [gFilled]
    split
    · exact .refl ..
    · split
      · exact (fillStart_sameStarts ..).trans (updRunning_sameStarts _ _ fun _ => rfl)
      · exact .refl ..
  -- The run lists it, the counters count it, and the registers show it.
  let gStarted := gFilled.updRun r.key fun y => { y with startedSteps := y.startedSteps ++ [(r.i, r.idx)] }
  have hlisted : SameStarts r.i st.eng gStarted gListed := enterToken_sameStarts ..
  have hshown : SameStarts r.i st.eng (gListed.bump .stallSteps r.i) (((gCounted.countStep r.i).engineStatus r chk).loadExpander r) :=
    (((bump_sameStarts _ _ _ _ (by simp)).trans (countStep_sameStarts _)).trans (engineStatus_sameStarts ..)).trans
      (loadExpander_sameStarts ..)
  refine ⟨?_, ?_, fun hc hroom => ?_⟩
  · have hcounted : (gListed.bump .stallSteps r.i).stall r.i = gListed.stall r.i := by simp only [Hall.stall, bump_data]
    rw [hshown.progress, hcounted, hlisted.progress, updRun_stall, hslots.progress, hrunning]
    rfl
  · rw [hshown.runs, runStarts_of_ledgers (congrArg Data.ledgers (bump_data ..)), hlisted.runs, updRun_starts, hslots.runs, hopen]
    rfl
  · have hbefore : gListed.getF (.count .stallSteps) r.i = h.getF (.count .stallSteps) r.i :=
      hlisted.steps.trans (hslots.steps.trans (hsteps hc))
    rw [hshown.steps, getF_count_bump _ _ _ _ (hbefore ▸ hroom.le), hbefore]
    exact min_eq_right hroom

/-! ### The dispatch -/

/-- The record of a stall at a pass and index. -/
theorem stepRef_eq_some {h : Hall} {i : Nat} {p : Nat × Nat} {r : StepRef} (hr : h.stepRef i p = some r) :
    r.i = i ∧ r.idx = p.2 ∧ r.pass = p.1 ∧ (h.stall i).step p.2 = some r.st := by
  unfold Hall.stepRef at hr
  dsimp only at hr
  split at hr
  · contradiction
  split at hr
  · next hst =>
    split at hr
    · obtain rfl := Option.some.inj hr
      exact ⟨rfl, rfl, rfl, hst⟩
    · contradiction
  · contradiction

/-- Whether a record is ready changes nothing but the window's counter, and not that where it is. -/
theorem ready_hall (h : Hall) (r : StepRef) :
    ((h.ready r).1 = true → (h.ready r).2 = h) ∧
      ((h.ready r).2 = h ∨ (h.ready r).2 = h.bump .ledgerWindowWaits r.key.row) := by
  unfold Hall.ready
  dsimp only
  cases (h.findRun r.key).isNone && !h.inWindow r.key <;> simp

/-- A stall that runs its image dispatches the record at its dispatch point, where the record names no other contexts. -/
theorem dispatch_of_point {h : Hall} {i : Nat} {im : Image} {p : Nat × Nat} {r : StepRef} (him : h.stallImage i = some im)
    (hruns : im.state.runs = true) (hretired : h.stallRetired i = false) (hstuck : (h.stall i).stuck = false) (hdom : h.domState i = 2)
    (hp : (h.stall i).point = some p) (hr : h.stepRef i p = some r) (halt : r.st.alt = []) :
    h.dispatch i = if (h.ready r).1 then (h.ready r).2.startStep r false else (h.ready r).2.bump .stallDispatchMiss i := by
  obtain ⟨-, -, -, hst⟩ := stepRef_eq_some hr
  simp only [Hall.dispatch, him, hruns, hretired, hstuck, hdom, hp, hst, halt, Hall.tryStart, hr, List.foldl_nil]
  rcases h.ready r with ⟨_ | _, g⟩ <;> simp

/-- A stall that may not dispatch stays as it is. -/
theorem dispatch_idle {h : Hall} {i : Nat} (hidle : h.stallRetired i = true ∨ (h.stall i).stuck = true ∨ h.domState i ≠ 2 ∨
    (h.stall i).point = none ∨ h.stallImage i = none) : h.dispatch i = h := by
  unfold Hall.dispatch
  dsimp only
  rcases hidle with hretired | hstuck | hdom | hpoint | hnone
  · simp [hretired]
  · simp [hstuck]
  · simp [hdom]
  · simp [hpoint]
  · simp [hnone]

theorem stallDispatch_becomes (s : State) (row : Fin 8) (x : Fin 16) :
    Becomes (.stallDispatch row x) s (s.hall.dispatch (16 * row.val + x.val)) := rfl

/-- The registers of a dispatch that starts nothing: the stall's misses and the window's refusals. -/
def missReg (i : Nat) : Fld → Nat → Prop :=
  orReg (regsOf i [.count .stallDispatchMiss, .sat .stallDispatchMiss]) fun f _ =>
    f ∈ [Fld.count .ledgerWindowWaits, .sat .ledgerWindowWaits]

/-- A record that is not ready is a miss. -/
theorem dispatchMiss_spec {h : Hall} {r : StepRef} (i : Nat) :
    (h.getF (.count .stallDispatchMiss) i < Ctr.stallDispatchMiss.top →
      ((h.ready r).2.bump .stallDispatchMiss i).getF (.count .stallDispatchMiss) i = h.getF (.count .stallDispatchMiss) i + 1) ∧
      Frame h ((h.ready r).2.bump .stallDispatchMiss i) [] (missReg i) := by
  have hready : Frame h (h.ready r).2 [] fun f _ => f ∈ [Fld.count .ledgerWindowWaits, .sat .ledgerWindowWaits] := by
    rcases (ready_hall h r).2 with he | he
    · rw [he]
      exact .refl ..
    · rw [he]
      exact bump_frame _ _ _ _ _ _ (by simp) (by simp)
  have hcount : (h.ready r).2.getF (.count .stallDispatchMiss) i = h.getF (.count .stallDispatchMiss) i := hready.2 _ _ (by simp)
  constructor
  · intro hroom
    rw [getF_count_bump _ _ _ _ (hcount ▸ hroom.le), hcount]
    exact min_eq_right hroom
  · exact (hready.mono (fun _ => id) fun _ _ => .inr).trans
      (bump_frame _ _ _ _ _ _ (.inl (by simp [regsOf])) (.inl (by simp [regsOf])))

/-- Settles O39: a ready record starts (`startStep_stepStarted`), one that is not is a miss, and a stall that may not dispatch stays as it
is. -/
theorem stallDispatches : Obligations.StallDispatches := by
  intro s row x i y
  refine ⟨fun im p r him hruns hretired hstuck hdom hp hr halt => ?_, fun hidle => ?_⟩
  · have hdispatch := dispatch_of_point him hruns hretired hstuck hdom hp hr halt
    obtain ⟨hi, hidx, hpass, -⟩ := stepRef_eq_some hr
    constructor
    · intro hready
      rw [hready, if_pos rfl, (ready_hall s.hall r).1 hready] at hdispatch
      obtain ⟨hrunning, hstarts, hsteps⟩ := startStep_stepStarted s.hall r false
      rw [hi, hidx, hpass] at hrunning
      rw [hi, hidx] at hstarts
      rw [hi] at hsteps
      exact ⟨_, (stallDispatch_becomes s row x).trans (by rw [hdispatch]), hrunning, hstarts, hsteps⟩
    · intro hready
      rw [hready, if_neg (by simp)] at hdispatch
      exact ⟨_, (stallDispatch_becomes s row x).trans (by rw [hdispatch]), dispatchMiss_spec i⟩
  · exact (stallDispatch_becomes s row x).trans (by rw [dispatch_idle hidle])

end Sys2Proof.Machine
end

section
/-! PROOFS. Settles O60: what frames of a neighbour do once a link is UP (R219–R222, R399, R401–R405, Tables 8.7, 16.4 and 16.5). -/

namespace Sys2Proof.Machine

/-! ### What moving the line leaves as it was -/

/-- What a port holds for its neighbour: the port but for its conversations, its credit and what it counts and remembers of frames
sent. -/
def NbrPort.cargo (x : NbrPort) : NbrPort :=
  { x with convs := [], granted := 0, recvUnits := 0, sentUnits := 0, ctlSend := 0, blocks := 0, withdraws := [], sentItems := [] }

/-- The counters of frames taken and sent, and of the page reads that serve a neighbour. -/
def lineReg (f : Fld) (_ : Nat) : Prop :=
  f ∈ [Fld.count .nbrFecCorr, .sat .nbrFecCorr, .count .nbrFramesIn, .sat .nbrFramesIn, .count .nbrFramesOut, .sat .nbrFramesOut,
    .count .nvmcPageReads, .sat .nvmcPageReads, .count .nvmcMirrorReads, .sat .nvmcMirrorReads,
    .count .nvmcSuspendedReads, .sat .nvmcSuspendedReads]

/-- Between `h` and `h'` port `p` has moved frames at most: it holds for its neighbour what it held, and the rest of the module is as
it was but for what was sent, what was drawn and the counters of `lineReg`. -/
structure SameCargo (p : Nat) (h h' : Hall) : Prop where
  cargo : (h'.nbr p).cargo = (h.nbr p).cargo
  frame : Frame h h' [.nbrs, .outs, .draws] lineReg

section
variable {p : Nat} {h h' h'' : Hall}

theorem SameCargo.refl (p : Nat) (h : Hall) : SameCargo p h h := ⟨rfl, .refl _ _ _⟩

theorem SameCargo.trans (a : SameCargo p h h') (b : SameCargo p h' h'') : SameCargo p h h'' :=
  ⟨b.cargo.trans a.cargo, a.frame.trans b.frame⟩

theorem SameCargo.foldl {α : Type} (f : Hall → α → Hall) (hf : ∀ g a, SameCargo p g (f g a)) (l : List α) (h : Hall) :
    SameCargo p h (l.foldl f h) := by
  induction l generalizing h with
  | nil => exact .refl p h
  | cons a l ih => exact (hf h a).trans (ih _)

theorem SameCargo.of_frame (f : Frame h h' [.outs, .draws] lineReg) : SameCargo p h h' :=
  have hn : h'.nbrs = h.nbrs := f.1 .nbrs (by simp)
  ⟨by rw [Hall.nbr, Hall.nbr, hn], f.mono (by simp) fun _ _ => id⟩

/-- What of a port its cargo holds. -/
theorem SameCargo.field {α : Type} (a : SameCargo p h h') (proj : NbrPort → α) (hp : ∀ x, proj x.cargo = proj x) :
    proj (h'.nbr p) = proj (h.nbr p) := by rw [← hp, a.cargo, hp]

theorem SameCargo.rids (a : SameCargo p h h') : (h'.nbr p).rids = (h.nbr p).rids := a.field NbrPort.rids fun _ => rfl
theorem SameCargo.reads (a : SameCargo p h h') : (h'.nbr p).reads = (h.nbr p).reads := a.field NbrPort.reads fun _ => rfl
theorem SameCargo.tags (a : SameCargo p h h') : (h'.nbr p).tags = (h.nbr p).tags := a.field NbrPort.tags fun _ => rfl
theorem SameCargo.items (a : SameCargo p h h') : (h'.nbr p).items = (h.nbr p).items := a.field NbrPort.items fun _ => rfl
theorem SameCargo.refills (a : SameCargo p h h') : (h'.nbr p).refills = (h.nbr p).refills := a.field NbrPort.refills fun _ => rfl
theorem SameCargo.nextOrder (a : SameCargo p h h') : (h'.nbr p).nextOrder = (h.nbr p).nextOrder := a.field NbrPort.nextOrder fun _ => rfl
theorem SameCargo.noticesIn (a : SameCargo p h h') : (h'.nbr p).noticesIn = (h.nbr p).noticesIn := a.field NbrPort.noticesIn fun _ => rfl
theorem SameCargo.weights (a : SameCargo p h h') : h'.weights = h.weights := a.frame.1 .weights (by simp)
theorem SameCargo.tiers (a : SameCargo p h h') : h'.tiers = h.tiers := a.frame.1 .tiers (by simp)
theorem SameCargo.data (a : SameCargo p h h') : h'.data = h.data := a.frame.1 .data (by simp)

theorem SameCargo.rid (a : SameCargo p h h') (server : Bool) (r : Nat) : h'.rid p server r = h.rid p server r :=
  congrArg (Tab.find · _) a.rids

theorem SameCargo.pool (a : SameCargo p h h') (hub : Hub) : h'.pool hub = h.pool hub := by
  cases hub <;> simp [Hall.pool, a.tiers]

/-- A counter that moving the line does not count, counted once along the way. -/
theorem SameCargo.bump_counted {g g' : Hall} {c : Ctr} (a : SameCargo p h g) (b : SameCargo p (g.bump c p) g')
    (hc : ¬ lineReg (.count c) p) (hroom : h.getF (.count c) p < c.top) :
    g'.getF (.count c) p = h.getF (.count c) p + 1 := by
  have hg : g.getF (.count c) p = h.getF (.count c) p := a.frame.2 _ _ hc
  rw [b.frame.2 _ _ hc, getF_count_bump _ _ _ _ (hg ▸ hroom.le), hg]
  exact min_eq_right hroom

end

/-! ### Ports after an update, and what moves the line -/

@[simp] theorem nbr_updNbr_same (h : Hall) (p : Nat) (f : NbrPort → NbrPort) : (h.updNbr p f).nbr p = f (h.nbr p) :=
  Tab.get_set_same _ _ _ _

theorem updNbr_frame (h : Hall) (p : Nat) (f : NbrPort → NbrPort) (may : Fld → Nat → Prop) : Frame h (h.updNbr p f) [.nbrs] may :=
  frame_of_parts (fun q hq => by cases q <;> simp_all [Part.same, Hall.updNbr]) rfl

theorem updNbr_sameCargo {p : Nat} {h : Hall} {f : NbrPort → NbrPort} (hf : (f (h.nbr p)).cargo = (h.nbr p).cargo) :
    SameCargo p h (h.updNbr p f) := ⟨by rw [nbr_updNbr_same, hf], (updNbr_frame h p f _).mono (by simp) fun _ _ => id⟩

theorem updConv_sameCargo (h : Hall) (p c : Nat) (f : Conv → Conv) : SameCargo p h (h.updConv p c f) := updNbr_sameCargo rfl

theorem bump_sameCargo {p : Nat} (h : Hall) {c : Ctr} (u k : Nat) (hc : lineReg (.count c) u) (hs : lineReg (.sat c) u) :
    SameCargo p h (h.bump c u k) := .of_frame (bump_frame h c u k _ _ hc hs)

@[simp] theorem nbr_bump (h : Hall) (c : Ctr) (u k p : Nat) : (h.bump c u k).nbr p = h.nbr p := by simp [Hall.nbr]

/-- Sending bytes counts a frame. -/
theorem nbrOut_frame (h : Hall) (p : Nat) (frame : Bytes) :
    Frame h (h.nbrOut p frame) [.outs] (regsOf p [.count .nbrFramesOut, .sat .nbrFramesOut]) :=
  (frame_of_parts (fun q hq => by cases q <;> simp_all [Part.same]) rfl : Frame h (h.emit _) _ _).trans
    (bump_frame _ _ _ _ _ _ (by simp [regsOf]) (by simp [regsOf]))

theorem lineReg_of_framesOut {p : Nat} (f : Fld) (u : Nat) (hf : regsOf p [.count .nbrFramesOut, .sat .nbrFramesOut] f u) :
    lineReg f u := by
  obtain ⟨-, hmem⟩ := hf
  simp only [List.mem_cons, List.not_mem_nil, or_false] at hmem
  rcases hmem with rfl | rfl <;> simp [lineReg]

theorem nbrOut_sameCargo (h : Hall) (p : Nat) (frame : Bytes) : SameCargo p h (h.nbrOut p frame) :=
  .of_frame ((nbrOut_frame h p frame).mono (by simp) lineReg_of_framesOut)

@[simp] theorem nbr_nbrOut (h : Hall) (p : Nat) (frame : Bytes) (q : Nat) : (h.nbrOut p frame).nbr q = h.nbr q := by
  simp [Hall.nbrOut, Hall.nbr]

/-- A control frame advances its own SEQ only. -/
theorem nbrControl_spec (h : Hall) (p typ : Nat) (body : Bytes) :
    Frame h (h.nbrControl p typ body) [.nbrs, .outs] (regsOf p [.count .nbrFramesOut, .sat .nbrFramesOut]) ∧
      ((h.nbrControl p typ body).nbr p).cargo = (h.nbr p).cargo ∧ ((h.nbrControl p typ body).nbr p).convs = (h.nbr p).convs := by
  refine ⟨?_, ?_, ?_⟩
  · exact ((updNbr_frame h p _ _).mono (by simp) fun _ _ => id).trans ((nbrOut_frame _ p _).mono (by simp) fun _ _ => id)
  · simp [Hall.nbrControl, Hall.nbrControlWith, NbrPort.cargo]
  · simp [Hall.nbrControl, Hall.nbrControlWith]

/-- An ACK grants credit and is sent; conversations and what the port holds stay. -/
theorem nbrAck_spec (h : Hall) (p c : Nat) :
    Frame h (h.nbrAck p c) [.nbrs, .outs] (regsOf p [.count .nbrFramesOut, .sat .nbrFramesOut]) ∧
      ((h.nbrAck p c).nbr p).cargo = (h.nbr p).cargo ∧ ((h.nbrAck p c).nbr p).convs = (h.nbr p).convs := by
  unfold Hall.nbrAck
  split
  · exact ⟨.refl _ _ _, rfl, rfl⟩
  · dsimp only
    split
    · obtain ⟨hframe, hcargo, hconvs⟩ := nbrControl_spec (h.updNbr p fun x => { x with granted := max x.granted x.grantNow }) p 0x07 _
      exact ⟨((updNbr_frame h p _ _).mono (by simp) fun _ _ => id).trans hframe, hcargo.trans (by simp [NbrPort.cargo]),
        hconvs.trans (by simp)⟩
    · exact nbrControl_spec h p 0x07 _

theorem nbrAck_sameCargo (h : Hall) (p c : Nat) : SameCargo p h (h.nbrAck p c) :=
  have ⟨hframe, hcargo, _⟩ := nbrAck_spec h p c
  ⟨hcargo, hframe.mono (by simp) lineReg_of_framesOut⟩

theorem creditPump_sameCargo (h : Hall) (p : Nat) : SameCargo p h (h.creditPump p) := by
  unfold Hall.creditPump
  split
  · exact nbrAck_sameCargo h p 2
  · exact .refl p h

theorem convSend_sameCargo (h : Hall) (p c : Nat) (f : ConvFrame) : SameCargo p h (h.convSend p c f) := by
  unfold Hall.convSend
  dsimp only
  split
  · refine ((updNbr_sameCargo ?_).trans (nbrOut_sameCargo _ p _)).trans (updNbr_sameCargo ?_) <;> rfl
  split
  · refine ((updNbr_sameCargo ?_).trans (nbrOut_sameCargo _ p _)).trans (updNbr_sameCargo ?_) <;> rfl
  · refine (updNbr_sameCargo ?_).trans (nbrOut_sameCargo _ p _)
    rfl

theorem convPump_sameCargo (h : Hall) (p c fuel : Nat) : SameCargo p h (h.convPump p c fuel) := by
  induction fuel generalizing h with
  | zero => exact .refl p h
  | succ n ih =>
    rw [Hall.convPump]
    split
    · exact .refl p h
    split
    · exact ((updConv_sameCargo h p c _).trans (convSend_sameCargo _ p c _)).trans (ih _)
    · exact .refl p h

theorem nbrPost_sameCargo (h : Hall) (p c typ : Nat) (body : Bytes) (units : Nat) : SameCargo p h (h.nbrPost p c typ body units) := by
  unfold Hall.nbrPost
  split
  · exact (updConv_sameCargo h p c _).trans (convPump_sameCargo _ p c _)
  · exact .refl p h

/-! ### Reads of the weight arrays for a neighbour -/

theorem draw_sameCargo (h : Hall) (p n : Nat) : SameCargo p h (h.draw n).2 :=
  .of_frame (frame_of_parts (fun q hq => by cases q <;> simp_all [Part.same, Hall.draw]) rfl)

theorem poisonedBytes_sameCargo (h : Hall) (p n : Nat) : SameCargo p h (h.poisonedBytes n).2 := draw_sameCargo h p n

theorem nvRaw_sameCargo (h : Hall) (p r blk o n : Nat) : SameCargo p h (h.nvRaw r blk o n).2 := by
  have hread : SameCargo p h (h.bump .nvmcPageReads r (nvPages o n)) := bump_sameCargo h r _ (by simp [lineReg]) (by simp [lineReg])
  unfold Hall.nvRaw
  dsimp only
  split
  · exact .refl p h
  split
  · exact (hread.trans (poisonedBytes_sameCargo _ p n)).trans (bump_sameCargo _ r 1 (by simp [lineReg]) (by simp [lineReg]))
  · exact hread

theorem nvMirrorRead_sameCargo (h : Hall) (p pref o n : Nat) : SameCargo p h (h.nvMirrorRead pref o n).2 := by
  have hserve (g : Hall) (r blk : Nat) : SameCargo p g
      (match g.nvRaw r blk o n with
        | (.data x, k) => ((some x, k) : Option Payload × Hall)
        | (.poisoned x _, k) => (some x, k)
        | (.wait, k) => (none, k)).2 := by
    have hraw := nvRaw_sameCargo g p r blk o n
    generalize g.nvRaw r blk o n = copy at hraw ⊢
    obtain ⟨_ | _ | _, k⟩ := copy <;> exact hraw
  have hmirror : SameCargo p h (h.bump .nvmcMirrorReads pref) := bump_sameCargo h pref 1 (by simp [lineReg]) (by simp [lineReg])
  unfold Hall.nvMirrorRead
  dsimp only
  split
  · split
    · exact .refl p h
    · exact hmirror.trans (hserve _ _ _)
  split
  · exact hserve _ _ _
  split
  · exact hmirror.trans (hserve _ _ _)
  · exact hserve _ _ _

theorem nbrMirrorRead_sameCargo (h : Hall) (p pair o n : Nat) : SameCargo p h (h.nbrMirrorRead pair o n).2 := by
  have hread := nvMirrorRead_sameCargo h p pair o n
  unfold Hall.nbrMirrorRead
  split <;> rename_i heq <;> rw [heq] at hread <;> exact hread

theorem sendShard_sameCargo (h : Hall) (p rid : Nat) (l : Lot) (i : Nat) : SameCargo p h (h.sendShard p rid l i) := by
  refine .foldl _ (fun g j => ?_) _ h
  dsimp only
  split
  · exact nbrPost_sameCargo ..
  split
  · exact (nbrMirrorRead_sameCargo ..).trans (nbrPost_sameCargo ..)
  · exact nbrPost_sameCargo ..

/-! ### Frames that pass the checks -/

/-- A frame that passes the checks belongs to the conversation of its type. -/
theorem linkCheck_conv {h : Hall} {p : Nat} {line : LineCw} {frame : Bytes} {f : LinkFrame} (hf : h.linkCheck p line frame = .inr f) :
    linkConv f.typ = some f.conv := by
  have hctl : ∀ t, linkClear t = true → linkConv t = some 0 := fun t ht => by
    simp only [linkClear, List.contains_eq_mem, decide_eq_true_eq, List.mem_cons, List.not_mem_nil, or_false] at ht
    rcases ht with rfl | rfl | rfl | rfl | rfl <;> rfl
  unfold Hall.linkCheck at hf
  by_cases hclear : linkClear (beAt frame 1 1) = true
  · simp only [hclear, if_true] at hf
    (repeat' split at hf) <;> cases hf
    exact hctl _ hclear
  · simp only [hclear, if_false, Bool.false_eq_true] at hf
    split at hf
    · cases hf
    split at hf
    · cases hf
    next hform =>
    simp only [Bool.or_eq_true, decide_eq_true_eq, not_or, not_not] at hform
    obtain ⟨⟨⟨⟨⟨⟨-, hconv⟩, -⟩, -⟩, -⟩, -⟩, -⟩ := hform
    (repeat' split at hf) <;> cases hf <;> exact hconv

/-- The module once a frame of conversations 1 to 3 is counted and its credit noted. -/
def Hall.linkCount (h : Hall) (p : Nat) (line : LineCw) (f : LinkFrame) : Hall :=
  let h := (h.bump .nbrFecCorr p line.corrected).bump .nbrFramesIn p
  if f.conv = 2 then h.updNbr p fun x => { x with recvUnits := x.recvUnits + ceilDiv (f.body.length - 32) 4096 } else h

/-- The module once such a frame is listed with those ahead, before any is delivered. -/
def Hall.linkStore (h : Hall) (p : Nat) (line : LineCw) (f : LinkFrame) : Hall :=
  (h.linkCount p line f).updConv p f.conv fun k => { k with ahead := Tab.set k.ahead f.at' (f.typ, f.body) }

theorem linkAccept_stores {f : LinkFrame} (h : Hall) (p : Nat) (line : LineCw) (hdup : f.dup = false) (hc : f.conv ≠ 0) :
    h.linkAccept p line f = ((h.linkStore p line f).linkPump p f.conv
      (((h.linkStore p line f).nbr p).conv f.conv).ahead.length).nbrAck p f.conv := by
  simp [Hall.linkAccept, Hall.linkStore, Hall.linkCount, hdup, hc]

theorem linkCount_sameCargo (h : Hall) (p : Nat) (line : LineCw) (f : LinkFrame) : SameCargo p h (h.linkCount p line f) := by
  have hcount : SameCargo p h ((h.bump .nbrFecCorr p line.corrected).bump .nbrFramesIn p) :=
    (bump_sameCargo h p _ (by simp [lineReg]) (by simp [lineReg])).trans (bump_sameCargo _ p 1 (by simp [lineReg]) (by simp [lineReg]))
  unfold Hall.linkCount
  dsimp only
  split
  · exact hcount.trans (updNbr_sameCargo rfl)
  · exact hcount

theorem linkCount_convs (h : Hall) (p : Nat) (line : LineCw) (f : LinkFrame) : ((h.linkCount p line f).nbr p).convs = (h.nbr p).convs := by
  unfold Hall.linkCount
  dsimp only
  split <;> simp

theorem linkStore_sameCargo (h : Hall) (p : Nat) (line : LineCw) (f : LinkFrame) : SameCargo p h (h.linkStore p line f) :=
  (linkCount_sameCargo h p line f).trans (updConv_sameCargo ..)

theorem conv_of_convs {x y : NbrPort} (e : x.convs = y.convs) (c : Nat) : x.conv c = y.conv c := by rw [NbrPort.conv, e, NbrPort.conv]

theorem conv_updConv_same (h : Hall) (p c : Nat) (f : Conv → Conv) : ((h.updConv p c f).nbr p).conv c = f ((h.nbr p).conv c) := by
  rw [Hall.updConv, nbr_updNbr_same]
  exact Tab.get_set_same ..

theorem conv_updConv_ne (h : Hall) (p c : Nat) (f : Conv → Conv) {j : Nat} (hj : j ≠ c) :
    ((h.updConv p c f).nbr p).conv j = (h.nbr p).conv j := by
  rw [Hall.updConv, nbr_updNbr_same]
  exact Tab.get_set_ne _ _ _ _ _ hj

/-- Storing a frame lists it with those ahead of its conversation. -/
theorem linkStore_conv (h : Hall) (p : Nat) (line : LineCw) (f : LinkFrame) :
    ((h.linkStore p line f).nbr p).conv f.conv =
      { (h.nbr p).conv f.conv with ahead := Tab.set ((h.nbr p).conv f.conv).ahead f.at' (f.typ, f.body) } := by
  rw [Hall.linkStore, conv_updConv_same, conv_of_convs (linkCount_convs h p line f)]

theorem linkStore_conv_ne (h : Hall) (p : Nat) (line : LineCw) (f : LinkFrame) {j : Nat} (hj : j ≠ f.conv) :
    ((h.linkStore p line f).nbr p).conv j = (h.nbr p).conv j := by
  rw [Hall.linkStore, conv_updConv_ne _ _ _ _ hj, conv_of_convs (linkCount_convs h p line f)]

theorem linkStore_framesIn (h : Hall) (p : Nat) (line : LineCw) (f : LinkFrame)
    (hroom : h.getF (.count .nbrFramesIn) p < Ctr.nbrFramesIn.top) :
    (h.linkStore p line f).getF (.count .nbrFramesIn) p = h.getF (.count .nbrFramesIn) p + 1 := by
  have hcount : ((h.bump .nbrFecCorr p line.corrected).bump .nbrFramesIn p).getF (.count .nbrFramesIn) p =
      h.getF (.count .nbrFramesIn) p + 1 := by
    rw [getF_count_bump_congr (getF_bump_ne _ _ _ _ _ _ (by simp) (by simp)), getF_count_bump _ _ _ _ hroom.le]
    exact min_eq_right hroom
  unfold Hall.linkStore Hall.linkCount
  dsimp only
  split <;> exact hcount

/-- A frame received before is counted. -/
theorem linkAccept_dup {f : LinkFrame} {h : Hall} {p : Nat} (line : LineCw) (hdup : f.dup = true)
    (hroom : h.getF (.count .nbrDup) p < Ctr.nbrDup.top) :
    (h.linkAccept p line f).getF (.count .nbrDup) p = h.getF (.count .nbrDup) p + 1 := by
  have hacc : h.linkAccept p line f = ((h.bump .nbrFecCorr p line.corrected).bump .nbrDup p).nbrAck p f.conv := by
    simp [Hall.linkAccept, hdup]
  rw [hacc]
  exact (bump_sameCargo h p line.corrected (by simp [lineReg]) (by simp [lineReg])).bump_counted (nbrAck_sameCargo _ p f.conv)
    (by simp [lineReg]) hroom

/-- A frame ahead of its turn, where the one whose turn it is has not come: it is held and counted, and nothing is delivered. -/
theorem linkAccept_ahead {f : LinkFrame} {h : Hall} {p : Nat} (line : LineCw) (hdup : f.dup = false) (hc : f.conv ≠ 0)
    (hat : f.at' ≠ ((h.nbr p).conv f.conv).recvBase)
    (hgap : Tab.find ((h.nbr p).conv f.conv).ahead ((h.nbr p).conv f.conv).recvBase = none) :
    Tab.find (((h.linkAccept p line f).nbr p).conv f.conv).ahead f.at' = some (f.typ, f.body) ∧
      (h.getF (.count .nbrFramesIn) p < Ctr.nbrFramesIn.top →
        (h.linkAccept p line f).getF (.count .nbrFramesIn) p = h.getF (.count .nbrFramesIn) p + 1) := by
  have hconv := linkStore_conv h p line f
  have hidle (n : Nat) : (h.linkStore p line f).linkPump p f.conv n = h.linkStore p line f := by
    cases n with
    | zero => rfl
    | succ n =>
      rw [Hall.linkPump]
      simp only [hconv, Tab.find_set_ne _ _ _ _ hat.symm, hgap]
  obtain ⟨hframe, -, hconvs⟩ := nbrAck_spec (h.linkStore p line f) p f.conv
  rw [linkAccept_stores h p line hdup hc, hidle]
  constructor
  · rw [NbrPort.conv, hconvs]
    exact (congrArg (fun k => Tab.find k.ahead f.at') hconv).trans (Tab.find_set_same _ _ _)
  · intro hroom
    rw [hframe.2 _ _ (by simp [regsOf]), linkStore_framesIn h p line f hroom]

/-! ### Delivery in turn -/

/-- A frame's payload is delivered once the port has moved on, and after it the notices that waited. -/
def Delivers (p typ : Nat) (b : Bytes) (h h' : Hall) : Prop :=
  ∃ g, SameCargo p h g ∧ (linkConv typ ≠ some 2 → ∀ n, g.afterDone p n = h.afterDone p n) ∧
    SameCargo p ((g.linkDeliver p typ b).noticesGo p) h'

theorem linkAccept_delivers {f : LinkFrame} {h : Hall} {p : Nat} (line : LineCw) (hconv : linkConv f.typ = some f.conv)
    (hdup : f.dup = false) (hc : f.conv ≠ 0) (hat : f.at' = ((h.nbr p).conv f.conv).recvBase)
    (hahead : ((h.nbr p).conv f.conv).ahead = []) :
    Delivers p f.typ f.body h (h.linkAccept p line f) := by
  have hstored := linkStore_conv h p line f
  rw [hahead, hat] at hstored
  refine ⟨(h.linkStore p line f).updConv p f.conv fun k => { k with recvBase := k.recvBase + 1, ahead := Tab.erase k.ahead k.recvBase },
    (linkStore_sameCargo h p line f).trans (updConv_sameCargo ..), fun h2 n => ?_, ?_⟩
  · have hother : 2 ≠ f.conv := fun e => h2 (e ▸ hconv)
    simp only [Hall.afterDone]
    rw [conv_updConv_ne _ _ _ _ hother, linkStore_conv_ne _ _ _ _ hother]
  · rw [linkAccept_stores h p line hdup hc]
    refine .trans ?_ (nbrAck_sameCargo ..)
    simp only [hstored, Tab.set, List.length_singleton, Hall.linkPump, Tab.find, if_pos]
    exact .refl ..

theorem noticesGo_of_quiet {h : Hall} {p : Nat} (hn : (h.nbr p).noticesIn = []) : h.noticesGo p = h := by
  simp [Hall.noticesGo, hn]

/-- Where no notice waits, a delivery that does `x` but for moving the line ends in `x` but for moving the line. -/
theorem SameCargo.delivered {p : Nat} {x d h' : Hall} (hx : SameCargo p x d) (hend : SameCargo p (d.noticesGo p) h')
    (hn : (x.nbr p).noticesIn = []) : SameCargo p x h' := by
  rw [noticesGo_of_quiet (hx.noticesIn.trans hn)] at hend
  exact hx.trans hend

/-! ### Lots (R401) -/

theorem rid_setRid_same (h : Hall) (p : Nat) (server : Bool) (k : Nat) (r : Rid) : (h.setRid p server k r).rid p server k = some r := by
  rw [Hall.rid, Hall.setRid, nbr_updNbr_same]
  exact Tab.find_set_same ..

theorem rid_dropRid_same (h : Hall) (p : Nat) (server : Bool) (k : Nat) : (h.dropRid p server k).rid p server k = none := by
  rw [Hall.rid, Hall.dropRid, nbr_updNbr_same]
  exact Tab.find_erase_same ..

@[simp] theorem setRid_noticesIn (h : Hall) (p : Nat) (server : Bool) (k : Nat) (r : Rid) :
    ((h.setRid p server k r).nbr p).noticesIn = (h.nbr p).noticesIn := by simp [Hall.setRid]

@[simp] theorem dropRid_noticesIn (h : Hall) (p : Nat) (server : Bool) (k : Nat) :
    ((h.dropRid p server k).nbr p).noticesIn = (h.nbr p).noticesIn := by simp [Hall.dropRid]

section
variable {p : Nat} {b : Bytes} {h h' : Hall}

/-- A delivery that sets a transfer, and moves the line at most beside it, leaves that transfer. -/
theorem rid_of_delivers {typ k : Nat} {server : Bool} {r : Rid} (hd : Delivers p typ b h h') (hn : (h.nbr p).noticesIn = [])
    (hset : ∀ g, SameCargo p h g → SameCargo p (g.setRid p server k r) (g.linkDeliver p typ b)) : h'.rid p server k = some r := by
  obtain ⟨g, hg, -, hend⟩ := hd
  have hlast := (hset g hg).delivered hend (by rw [setRid_noticesIn, hg.noticesIn, hn])
  rw [hlast.rid, rid_setRid_same]

/-- A delivery that drops a transfer leaves none under its number. -/
theorem no_rid_of_delivers {typ k : Nat} {server : Bool} (hd : Delivers p typ b h h') (hn : (h.nbr p).noticesIn = [])
    (hdrop : ∀ g : Hall, g.linkDeliver p typ b = g.dropRid p server k) : h'.rid p server k = none := by
  obtain ⟨g, hg, -, hend⟩ := hd
  rw [hdrop] at hend
  have hlast := (SameCargo.refl p _).delivered hend (by rw [dropRid_noticesIn, hg.noticesIn, hn])
  rw [hlast.rid, rid_dropRid_same]

/-- A delivery that moves the line at most, and then counts once. -/
theorem counted_of_delivers {typ : Nat} {c : Ctr} (hd : Delivers p typ b h h') (hn : (h.nbr p).noticesIn = []) (hc : ¬ lineReg (.count c) p)
    (hcount : ∀ g, SameCargo p h g → ∃ g₁, SameCargo p g g₁ ∧ SameCargo p (g₁.bump c p) (g.linkDeliver p typ b))
    (hroom : h.getF (.count c) p < c.top) : h'.getF (.count c) p = h.getF (.count c) p + 1 := by
  obtain ⟨g, hg, -, hend⟩ := hd
  obtain ⟨g₁, hg₁, hbump⟩ := hcount g hg
  exact (hg.trans hg₁).bump_counted (hbump.delivered hend (by rw [nbr_bump, hg₁.noticesIn, hg.noticesIn, hn])) hc hroom

/-- LOT_REQ of a lot that is not there: no transfer is opened. -/
theorem lotReq_refused (hd : Delivers p 0x20 b h h') (hn : (h.nbr p).noticesIn = [])
    (hhit : (h.weights.lots.find? fun e => e.2.lotId = beAt b 4 4 && e.2.gen = beAt b 8 4) = none) (r : Nat) :
    h'.rid p true r = h.rid p true r := by
  obtain ⟨g, hg, -, hend⟩ := hd
  have hrefuse : SameCargo p g (g.linkDeliver p 0x20 b) := by
    change SameCargo p g (g.onLotReq p b)
    simp only [Hall.onLotReq, hg.weights, hhit]
    exact nbrPost_sameCargo ..
  exact (hg.trans (hrefuse.delivered hend (by rw [hg.noticesIn, hn]))).rid true r

/-- LOT_REQ of a served lot that is READY, with a transfer free: it is opened. -/
theorem lotReq_opens (hd : Delivers p 0x20 b h h') (hn : (h.nbr p).noticesIn = []) {k : Nat} {l : Lot}
    (hhit : (h.weights.lots.find? fun e => e.2.lotId = beAt b 4 4 && e.2.gen = beAt b 8 4) = some (k, l)) (hready : l.state = .ready)
    (hserve : l.serve = true) (hfree : ((h.nbr p).rids.filter fun (e : Nat × Rid) => e.2.server).length < 4) :
    h'.rid p true (beAt b 0 4) = some { server := true, lot := k, nshard := l.partShards.sum, mlen := l.manifest.length } :=
  rid_of_delivers hd hn fun g hg => by
    change SameCargo p _ (g.onLotReq p b)
    simp only [Hall.onLotReq, hg.weights, hhit, hready, hserve, hg.rids, Nat.not_le.2 hfree]
    exact nbrPost_sameCargo ..

/-- A job with nothing due asks for nothing. -/
theorem jobAsk_idle {k : Nat} (hidle : ∀ j, h.job k = some j → j.due = []) : h.jobAsk k = h := by
  unfold Hall.jobAsk
  split
  · next j hj =>
    have hsource (i : Nat) (s : Source) : h.askSource k j i s = h := by simp [Hall.askSource, hidle j hj]
    induction j.sources.zipIdx with
    | nil => rfl
    | cons e l ih => rw [List.foldl_cons, hsource, ih]
  · rfl

theorem lotOffer_taken (hd : Delivers p 0x21 b h h') (hn : (h.nbr p).noticesIn = []) {r : Rid} (hr : h.rid p false (beAt b 0 4) = some r)
    (hidle : ∀ j, h.job r.job = some j → j.due = []) :
    h'.rid p false (beAt b 0 4) = some { r with nshard := beAt b 4 4, mlen := beAt b 8 4 } :=
  rid_of_delivers hd hn fun g hg => by
    have hjob : (g.setRid p false (beAt b 0 4) { r with nshard := beAt b 4 4, mlen := beAt b 8 4 }).job r.job = h.job r.job := by
      simp only [Hall.job, Hall.install, Hall.swap, Hall.lot, Hall.setRid, Hall.updNbr, hg.weights]
    change SameCargo p _ (g.onLotOffer p b)
    simp only [Hall.onLotOffer, hg.rid, hr]
    rw [jobAsk_idle (hjob ▸ hidle)]
    exact .refl ..

theorem shardWant_noted (hd : Delivers p 0x23 b h h') (hn : (h.nbr p).noticesIn = []) {r : Rid} {l : Lot}
    (hr : h.rid p true (beAt b 0 4) = some r) (hl : h.lot r.lot = some l) {ok : List Nat}
    (hok : ok = (((List.range (beAt b 4 1)).map fun i => beAt b (8 + 4 * i) 4).filter fun i =>
      decide (i < r.nshard) || decide (i = manifestShard)).dedup) :
    h'.rid p true (beAt b 0 4) = some { r with wanted := (r.wanted ++ ok.filter fun i => !r.wanted.contains i).take 32 } :=
  rid_of_delivers hd hn fun g hg => by
    have hlot : g.lot r.lot = some l := by rw [Hall.lot, hg.weights]; exact hl
    change SameCargo p _ (g.onShardWant p b)
    simp only [Hall.onShardWant, hg.rid, hr, hlot, ← hok]
    exact .foldl _ (fun g i => sendShard_sameCargo ..) _ _

/-- SHARD_DATA of a wanted shard that continues it. -/
theorem shardData_collected (hd : Delivers p 0x24 b h h') (hn : (h.nbr p).noticesIn = []) {r : Rid}
    (hr : h.rid p false (beAt b 0 4) = some r)
    (hwant : beAt b 4 4 ∈ r.wanted) {have_ : Bytes} (hhave : have_ = if beAt b 8 4 = 0 then [] else Tab.get [] r.parts (beAt b 4 4))
    (hlen : have_.length = beAt b 8 4) :
    h'.rid p false (beAt b 0 4) = some { r with parts := Tab.set r.parts (beAt b 4 4) (have_ ++ b.drop 12) } :=
  rid_of_delivers hd hn fun g hg => by
    change SameCargo p _ (g.onShardData p b)
    simp only [Hall.onShardData, hg.rid, hr, List.contains_iff_mem.2 hwant, ← hhave, hlen, if_pos]
    exact .refl ..

/-- SHARD_DATA that no transfer wants. -/
theorem shardData_unwanted (hd : Delivers p 0x24 b h h') (hn : (h.nbr p).noticesIn = [])
    (hnone : ∀ r, h.rid p false (beAt b 0 4) = some r → beAt b 4 4 ∉ r.wanted)
    (hroom : h.getF (.count .nbrMalformed) p < Ctr.nbrMalformed.top) :
    h'.getF (.count .nbrMalformed) p = h.getF (.count .nbrMalformed) p + 1 :=
  counted_of_delivers hd hn (by simp [lineReg]) (fun g hg => ⟨g, .refl p g, by
    have hcount : g.onShardData p b = g.bump .nbrMalformed p := by
      unfold Hall.onShardData
      dsimp only
      split
      · next r hr =>
        have hnot := hnone r (by rw [← hr, hg.rid])
        simp [hnot]
      · rfl
    change SameCargo p _ (g.onShardData p b)
    rw [hcount]
    exact .refl ..⟩) hroom

theorem shardAck_noted (hd : Delivers p 0x25 b h h') (hn : (h.nbr p).noticesIn = []) {r : Rid} (hr : h.rid p true (beAt b 0 4) = some r) :
    h'.rid p true (beAt b 0 4) = some { r with wanted := r.wanted.filter (· ≠ beAt b 4 4) } :=
  rid_of_delivers hd hn fun g hg => by
    change SameCargo p _ (g.onShardAck p b)
    simp only [Hall.onShardAck, hg.rid, hr]
    exact .refl ..

end

/-! ### Page reads (R402) -/

/-- A PAGE_READ moves the line and counts: as served, or as failed. -/
theorem onPageRead_counts (g : Hall) (p : Nat) (b : Bytes) :
    ∃ g₁, SameCargo p g g₁ ∧ g.onPageRead p b = g₁.bump (if g.servedPage (beAt b 4 8) then .nbrPageReads else .nbrPageFail) p := by
  unfold Hall.onPageRead
  dsimp only
  split
  · exact ⟨_, (nbrMirrorRead_sameCargo ..).trans (.foldl _ (fun _ _ => nbrPost_sameCargo ..) _ _), rfl⟩
  · exact ⟨_, nbrPost_sameCargo .., rfl⟩

theorem pageRead_counted {p : Nat} {b : Bytes} {h h' : Hall} (hd : Delivers p 0x28 b h h') (hn : (h.nbr p).noticesIn = []) {c : Ctr}
    (hc : c = if h.servedPage (beAt b 4 8) then .nbrPageReads else .nbrPageFail) (hroom : h.getF (.count c) p < c.top) :
    h'.getF (.count c) p = h.getF (.count c) p + 1 := by
  refine counted_of_delivers hd hn (by rw [hc]; split <;> simp [lineReg]) (fun g hg => ?_) hroom
  obtain ⟨g₁, hg₁, he⟩ := onPageRead_counts g p b
  have hserved : g.servedPage (beAt b 4 8) = h.servedPage (beAt b 4 8) := by rw [Hall.servedPage, hg.weights, Hall.servedPage]
  change ∃ g₁, SameCargo p g g₁ ∧ SameCargo p _ (g.onPageRead p b)
  rw [he, hserved, ← hc]
  exact ⟨g₁, hg₁, .refl ..⟩

/-- No notice waits on the port, and it has no read open under the tag. -/
def ReadClosed (p tag : Nat) (h : Hall) : Prop := (h.nbr p).noticesIn = [] ∧ Tab.find (h.nbr p).reads tag = none

section
variable {p tag : Nat} {b : Bytes} {h h' : Hall}

theorem ReadClosed.of_sameCargo (hc : ReadClosed p tag h) (a : SameCargo p h h') : ReadClosed p tag h' := by
  rw [ReadClosed, a.noticesIn, a.reads]
  exact hc

/-- A read that `find` does not find is listed nowhere. -/
theorem ne_of_find_none {α : Type} {t : Tab α} {k : Nat} (hk : Tab.find t k = none) : ∀ e ∈ t, e.1 ≠ k := by
  induction t with
  | nil => simp
  | cons x rest ih =>
    obtain ⟨j, v⟩ := x
    simp only [Tab.find] at hk
    split at hk
    · cases hk
    · next hj =>
      intro e he
      rcases List.mem_cons.1 he with rfl | he
      · exact hj
      · exact ih hk e he

/-- Sending the reads that wait opens none. -/
theorem ReadClosed.farPump (hc : ReadClosed p tag h) : ReadClosed p tag (h.farPump p) := by
  have hkeys := ne_of_find_none hc.2
  unfold Hall.farPump
  generalize (h.nbr p).reads = l at hkeys
  induction l generalizing h with
  | nil => exact hc
  | cons e l ih =>
    rw [List.foldl_cons]
    refine ih ?_ fun x hx => hkeys x (List.mem_cons_of_mem _ hx)
    have he : tag ≠ e.1 := (hkeys e (List.mem_cons_self ..)).symm
    dsimp only
    split
    · exact hc
    · refine .of_sameCargo ?_ (nbrPost_sameCargo ..)
      rw [ReadClosed, nbr_updNbr_same]
      exact ⟨hc.1, (Tab.find_set_ne _ _ _ _ he).trans hc.2⟩

@[simp] theorem updPool_nbrs (h : Hall) (hub : Hub) (f : Pool → Pool) : (h.updPool hub f).nbrs = h.nbrs := by cases hub <;> rfl

/-- The end of a read closes it. -/
theorem farDone_closes (hn : (h.nbr p).noticesIn = []) (r : FarRead) (data : Payload) : ReadClosed p tag (h.farDone p tag r data) := by
  have herased : ReadClosed p tag (h.updNbr p fun x => { x with reads := Tab.erase x.reads tag }) := by
    rw [ReadClosed, nbr_updNbr_same]
    exact ⟨hn, Tab.find_erase_same ..⟩
  have hnbrs {g : Hall} (e : g.nbrs = (h.updNbr p fun x => { x with reads := Tab.erase x.reads tag }).nbrs) : ReadClosed p tag g := by
    rw [ReadClosed, Hall.nbr, e]
    exact herased
  unfold Hall.farDone
  dsimp only
  refine ReadClosed.farPump ?_
  split
  · exact hnbrs (updPool_nbrs ..)
  · split <;> exact hnbrs rfl

/-- A delivery that closes a read leaves it closed. -/
theorem closed_of_delivers {typ : Nat} (hd : Delivers p typ b h h')
    (hclose : ∀ g, SameCargo p h g → ReadClosed p tag (g.linkDeliver p typ b)) :
    Tab.find (h'.nbr p).reads tag = none := by
  obtain ⟨g, hg, -, hend⟩ := hd
  have hclosed := hclose g hg
  rw [noticesGo_of_quiet hclosed.1] at hend
  exact (hclosed.of_sameCargo hend).2

/-- PAGE_DATA that ends the read it names. -/
theorem pageData_ends (hd : Delivers p 0x29 b h h') (hn : (h.nbr p).noticesIn = []) {r : FarRead}
    (hr : Tab.find (h.nbr p).reads (beAt b 0 4) = some r) (hat : beAt b 4 4 = r.data.length)
    (hend : r.n ≤ (r.data ++ markedData (beAt b 8 16) (b.drop 24)).length) : Tab.find (h'.nbr p).reads (beAt b 0 4) = none :=
  closed_of_delivers hd fun g hg => by
    change ReadClosed p (beAt b 0 4) (g.onPageData p b)
    simp only [Hall.onPageData, hg.reads, hr, hat, ne_eq, not_true_eq_false, if_false, hend, if_true]
    exact farDone_closes (hg.noticesIn.trans hn) r _

/-- PAGE_DATA that the read it names goes on from. -/
theorem pageData_adds (hd : Delivers p 0x29 b h h') (hn : (h.nbr p).noticesIn = []) {r : FarRead}
    (hr : Tab.find (h.nbr p).reads (beAt b 0 4) = some r) (hat : beAt b 4 4 = r.data.length)
    (hmore : (r.data ++ markedData (beAt b 8 16) (b.drop 24)).length < r.n) :
    Tab.find (h'.nbr p).reads (beAt b 0 4) = some { r with data := r.data ++ markedData (beAt b 8 16) (b.drop 24) } := by
  obtain ⟨g, hg, -, hend⟩ := hd
  have hset : g.linkDeliver p 0x29 b = g.updNbr p fun x =>
      { x with reads := Tab.set x.reads (beAt b 0 4) { r with data := r.data ++ markedData (beAt b 8 16) (b.drop 24) } } := by
    change g.onPageData p b = _
    simp only [Hall.onPageData, hg.reads, hr, hat, ne_eq, not_true_eq_false, if_false, Nat.not_le.2 hmore]
  rw [hset] at hend
  rw [((SameCargo.refl p _).delivered hend (by rw [nbr_updNbr_same]; exact hg.noticesIn.trans hn)).reads, nbr_updNbr_same]
  exact Tab.find_set_same ..

theorem pageFail_ends (hd : Delivers p 0x2A b h h') (hn : (h.nbr p).noticesIn = []) : Tab.find (h'.nbr p).reads (beAt b 0 4) = none :=
  closed_of_delivers hd fun g hg => by
    have hquiet : (g.nbr p).noticesIn = [] := hg.noticesIn.trans hn
    change ReadClosed p (beAt b 0 4) (g.onPageFail p b)
    unfold Hall.onPageFail
    split
    · next r hr => exact farDone_closes ((poisonedBytes_sameCargo g p r.n).noticesIn.trans hquiet) r _
    · next hnone => exact ⟨hquiet, hnone⟩

end

/-! ### Withdrawals (R265, R402) -/

/-- A frame of the pool that is invalidated. -/
def PoolFrame.invalidated (x : PoolFrame) : PoolFrame := { x with state := .invalid, next := none }

/-- Invalidates the pool frames listed. -/
def Hall.invalidate (h : Hall) (hub : Hub) (l : List Nat) : Hall := l.foldl (fun h k => h.updFrame hub k PoolFrame.invalidated) h

/-- The frames of a sub-pool that an invalidation takes. -/
def Pool.hit (q : Pool) (bad : Nat → Bool) : List Nat :=
  (q.frames.filter fun e => (decide (e.2.state = .valid) || decide (e.2.state = .draining)) && bad e.2.home).map Prod.fst

@[simp] theorem updFrame_nbrs (h : Hall) (hub : Hub) (k : Nat) (f : PoolFrame → PoolFrame) : (h.updFrame hub k f).nbrs = h.nbrs :=
  updPool_nbrs ..

theorem updFrame_pool_ne (h : Hall) {hub other : Hub} (k : Nat) (f : PoolFrame → PoolFrame) (hne : other ≠ hub) :
    (h.updFrame hub k f).pool other = h.pool other :=
  match hub, other, hne with
  | .a, .b, _ => rfl
  | .b, .a, _ => rfl

theorem updFrame_find (h : Hall) (hub : Hub) (k : Nat) (f : PoolFrame → PoolFrame) (j : Nat) :
    Tab.find ((h.updFrame hub k f).pool hub).frames j =
      if j = k then (Tab.find (h.pool hub).frames j).map f else Tab.find (h.pool hub).frames j := by
  rw [Hall.updFrame, updPool_pool]
  split
  · next x hx =>
    split
    · next e => rw [e, Tab.find_set_same, hx, Option.map_some]
    · next e => exact Tab.find_set_ne _ _ _ _ e
  · next hx =>
    split
    · next e => rw [e, hx, Option.map_none]
    · rfl

theorem invalidate_nbrs (h : Hall) (hub : Hub) (l : List Nat) : (h.invalidate hub l).nbrs = h.nbrs :=
  foldl_same Hall.nbrs _ (fun g k => updFrame_nbrs g hub k _) l h

theorem invalidate_pool_ne (h : Hall) {hub other : Hub} (l : List Nat) (hne : other ≠ hub) :
    (h.invalidate hub l).pool other = h.pool other :=
  foldl_same (fun g : Hall => g.pool other) _ (fun g k => updFrame_pool_ne g k _ hne) l h

theorem invalidate_find (h : Hall) (hub : Hub) (l : List Nat) (j : Nat) :
    Tab.find ((h.invalidate hub l).pool hub).frames j =
      if j ∈ l then (Tab.find (h.pool hub).frames j).map PoolFrame.invalidated else Tab.find (h.pool hub).frames j := by
  induction l generalizing h with
  | nil => simp [Hall.invalidate]
  | cons k l ih =>
    rw [Hall.invalidate, List.foldl_cons, ← Hall.invalidate, ih, updFrame_find]
    have htwice : PoolFrame.invalidated ∘ PoolFrame.invalidated = PoolFrame.invalidated := rfl
    by_cases hk : j = k
    · simp [hk, htwice]
    · simp [hk]

/-- Where no fill waits for a frame, an invalidation only invalidates. -/
theorem poolInvalidateIn_eq {h : Hall} {hub : Hub} (bad : Nat → Bool) (hnext : ∀ e ∈ (h.pool hub).frames, e.2.next = none) :
    h.poolInvalidateIn hub bad = h.invalidate hub ((h.pool hub).hit bad) := by
  rw [Hall.poolInvalidateIn, Pool.hit]
  generalize (h.pool hub).frames = l at hnext
  induction l generalizing h with
  | nil => rfl
  | cons e l ih =>
    have hrest := fun x hx => hnext x (List.mem_cons_of_mem _ hx)
    rw [List.foldl_cons, List.filter_cons]
    split
    · next hhit =>
      rw [List.map_cons, Hall.invalidate, List.foldl_cons, ← Hall.invalidate, ← ih hrest]
      simp only [hnext e (List.mem_cons_self ..)]
      rfl
    · exact ih hrest

theorem poolInvalidate_eq {h : Hall} (bad : Nat → Bool) (hnext : ∀ hub, ∀ e ∈ (h.pool hub).frames, e.2.next = none) :
    h.poolInvalidate bad = (h.invalidate .a ((h.pool .a).hit bad)).invalidate .b ((h.pool .b).hit bad) := by
  have hb : (h.invalidate .a ((h.pool .a).hit bad)).pool .b = h.pool .b := invalidate_pool_ne _ _ (by simp)
  rw [Hall.poolInvalidate, poolInvalidateIn_eq bad (hnext .a), poolInvalidateIn_eq bad (by rw [hb]; exact hnext .b), hb]

/-- Every frame found that an invalidation takes is INVALID after it. -/
theorem poolInvalidate_invalid {h : Hall} {bad : Nat → Bool}
    (hnext : ∀ hub, ∀ e ∈ (h.pool hub).frames, e.2.next = none) {hub : Hub} {k : Nat}
    {z : PoolFrame} (hz : Tab.find (h.pool hub).frames k = some z) (hstate : z.state = .valid ∨ z.state = .draining)
    (hbad : bad z.home = true) : Tab.find ((h.poolInvalidate bad).pool hub).frames k = some z.invalidated := by
  have hhit : k ∈ (h.pool hub).hit bad := List.mem_map.2 ⟨(k, z), List.mem_filter.2 ⟨Tab.mem_of_find hz, by simpa [hbad] using hstate⟩, rfl⟩
  rw [poolInvalidate_eq bad hnext]
  cases hub with
  | a => rw [invalidate_pool_ne _ _ (by simp), invalidate_find, if_pos hhit, hz, Option.map_some]
  | b => rw [invalidate_find, if_pos hhit, invalidate_pool_ne _ _ (by simp), hz, Option.map_some]

theorem withdraw_invalidates {p : Nat} {b : Bytes} {h h' : Hall} (hd : Delivers p 0x2B b h h') (hn : (h.nbr p).noticesIn = [])
    (hnext : ∀ hub, ∀ e ∈ (h.pool hub).frames, e.2.next = none) {hub : Hub} {k : Nat} {z : PoolFrame}
    (hz : Tab.find (h.pool hub).frames k = some z) (hstate : z.state = .valid ∨ z.state = .draining)
    (hin : inT3 p (beAt b 0 8) (beAt b 8 8) z.home = true) : Tab.find (h'.pool hub).frames k = some z.invalidated := by
  obtain ⟨g, hg, -, hend⟩ := hd
  have hnext' : ∀ hub, ∀ e ∈ (g.pool hub).frames, e.2.next = none := fun hub => hg.pool hub ▸ hnext hub
  change SameCargo p ((g.poolInvalidate fun page => inT3 p (beAt b 0 8) (beAt b 8 8) page).noticesGo p) h' at hend
  have hnbrs : (g.poolInvalidate fun page => inT3 p (beAt b 0 8) (beAt b 8 8) page).nbrs = g.nbrs := by
    rw [poolInvalidate_eq _ hnext', invalidate_nbrs, invalidate_nbrs]
  have hlast := (SameCargo.refl p _).delivered hend (by rw [Hall.nbr, hnbrs]; exact hg.noticesIn.trans hn)
  rw [hlast.pool]
  exact poolInvalidate_invalid hnext' (hg.pool hub ▸ hz) hstate hin

/-! ### Items and notices (R219–R222, Table 8.7) -/

theorem find_setTag_same (h : Hall) (p tag : Nat) (r : TagRec) : Tab.find ((h.setTag p tag r).nbr p).tags tag = some r := by
  rw [Hall.setTag, nbr_updNbr_same]
  exact Tab.find_set_same ..

@[simp] theorem setTag_noticesIn (h : Hall) (p tag : Nat) (r : TagRec) : ((h.setTag p tag r).nbr p).noticesIn = (h.nbr p).noticesIn := by
  simp [Hall.setTag]

@[simp] theorem setTag_items (h : Hall) (p tag : Nat) (r : TagRec) : ((h.setTag p tag r).nbr p).items = (h.nbr p).items := by
  simp [Hall.setTag]

@[simp] theorem setTag_refills (h : Hall) (p tag : Nat) (r : TagRec) : ((h.setTag p tag r).nbr p).refills = (h.nbr p).refills := by
  simp [Hall.setTag]

/-- Commitment records it and leaves the waiting notices. -/
theorem commitTag_spec (h : Hall) (p tag : Nat) (r : TagRec) :
    Tab.find ((h.commitTag p tag r).nbr p).tags tag = some { r with state := .committed, commitAt := none } ∧
      ((h.commitTag p tag r).nbr p).noticesIn = (h.nbr p).noticesIn := by
  have hcredit := creditPump_sameCargo ((h.setTag p tag { r with state := .committed, commitAt := none }).updNbr p fun x =>
    { x with items := x.items.filter fun (i : HeldItem) => !(decide (i.tag = tag) && i.taken) }) p
  rw [Hall.commitTag, hcredit.tags, hcredit.noticesIn, nbr_updNbr_same]
  exact ⟨find_setTag_same .., setTag_noticesIn ..⟩

/-- Without items, runs and stalls nothing is discarded with a tag. -/
theorem discardTag_sameCargo {h : Hall} {p : Nat} (tag : Nat) (hitems : (h.nbr p).items = []) (hruns : h.openRuns = [])
    (hstalls : h.data.stalls = []) : SameCargo p h (h.discardTag p tag) := by
  have htakers : h.restartTakers p tag = h := by simp [Hall.restartTakers, Hall.heldNext, hitems]
  have hruns' (f : NbrPort → NbrPort) : (h.updNbr p f).abortTag p tag 4 = h.updNbr p f := by
    have hr : (h.updNbr p f).openRuns = [] := hruns
    simp [Hall.abortTag, hr]
  have hslots (f : NbrPort → NbrPort) : (h.updNbr p f).slotsWait p tag = h.updNbr p f := by
    have hs : (h.updNbr p f).data.stalls = [] := hstalls
    simp [Hall.slotsWait, hs]
  rw [Hall.discardTag, htakers, hruns', hslots]
  exact (updNbr_sameCargo (by simp [NbrPort.cargo, hitems])).trans (creditPump_sameCargo ..)

/-- The item that an ITEM frame begins, as it stands in the hold area. -/
def itemOf (b : Bytes) (order : Nat) : HeldItem :=
  { tag := tagBare (beAt b 0 8), item := beAt b 8 2, data := markedData (beAt b 16 16) (b.drop 32), complete := bit (beAt b 10 1) 0
    order := order }

/-- Puts the item that an ITEM frame begins at the end of the hold area. -/
def Hall.appendItem (h : Hall) (p : Nat) (b : Bytes) : Hall :=
  h.updNbr p fun x => { x with items := x.items ++ [itemOf b x.nextOrder], nextOrder := x.nextOrder + 1 }

theorem holdItem_first {h : Hall} {p : Nat} {b : Bytes}
    (hnew : ∀ i ∈ (h.nbr p).items, ¬ (i.tag = tagBare (beAt b 0 8) ∧ i.item = beAt b 8 2)) :
    h.holdItem p (tagBare (beAt b 0 8)) (beAt b 8 2) 0 (markedData (beAt b 16 16) (b.drop 32)) (bit (beAt b 10 1) 0) =
      h.appendItem p b := by
  have hnone : ((h.nbr p).items.find? fun (i : HeldItem) => i.tag = tagBare (beAt b 0 8) && i.item = beAt b 8 2 &&
      (decide (tagBare (beAt b 0 8) ≠ 0) || !i.complete)) = none := by
    rw [List.find?_eq_none]
    intro i hi hmine
    simp only [Bool.and_eq_true, decide_eq_true_eq] at hmine
    exact hnew i hi hmine.1
  simp only [Hall.holdItem, hnone, ne_eq, not_true_eq_false, if_false]
  rfl

/-- A tag without a commit notice is not committed by its items. -/
theorem commitIfWhole_unset {h : Hall} {p tag : Nat} {r : TagRec} (hr : Tab.find (h.nbr p).tags tag = some r) (hn : r.commitAt = none) :
    h.commitIfWhole p tag = h := by simp only [Hall.commitIfWhole, hr, hn]

/-- A tag whose commit notice waits for items that are all held whole is committed. -/
theorem commitIfWhole_whole {h : Hall} {p tag : Nat} {r : TagRec} {n : Nat} (hr : Tab.find (h.nbr p).tags tag = some r)
    (hn : r.commitAt = some n) (hwhole : ∀ k, k < n → ∃ i ∈ (h.nbr p).items, i.tag = tag ∧ i.item = k ∧ i.complete = true) :
    h.commitIfWhole p tag = h.commitTag p tag r := by
  have hall : ((List.range n).all fun k => (h.nbr p).items.any fun (x : HeldItem) => x.tag = tag && x.item = k && x.complete) = true := by
    simp only [List.all_eq_true, List.mem_range, List.any_eq_true, Bool.and_eq_true, decide_eq_true_eq]
    intro k hk
    obtain ⟨i, hi, htag, hitem, hcomplete⟩ := hwhole k hk
    exact ⟨i, hi, ⟨htag, hitem⟩, hcomplete⟩
  simp only [Hall.commitIfWhole, hr, hn, hall, if_true]

/-- The first frame of an item under a new tag, where no slot waits: the tag is held, and the item is the last of the hold area. -/
theorem onItem_first {h : Hall} {p : Nat} {b : Bytes} (hfull : beAt b 0 8 ≠ 0)
    (htag : Tab.find (h.nbr p).tags (tagBare (beAt b 0 8)) = none) (hrefills : (h.nbr p).refills = []) (hoff : beAt b 12 4 = 0)
    (hnew : ∀ i ∈ (h.nbr p).items, ¬ (i.tag = tagBare (beAt b 0 8) ∧ i.item = beAt b 8 2)) :
    h.onItem p b = (h.setTag p (tagBare (beAt b 0 8)) { state := .held, epoch := tagEpoch (beAt b 0 8) }).appendItem p b := by
  have happend (k : Hall) : ((k.appendItem p b).nbr p).refills = (k.nbr p).refills ∧ ((k.appendItem p b).nbr p).tags = (k.nbr p).tags := by
    simp [Hall.appendItem]
  simp only [Hall.onItem, if_neg hfull, htag, hoff]
  rw [holdItem_first (by rw [setTag_items]; exact hnew), (happend _).1, setTag_refills, hrefills]
  exact commitIfWhole_unset ((congrArg (Tab.find · _) (happend _).2).trans (find_setTag_same ..)) rfl

/-- An ITEM of a tag that is committed, or of an epoch before its tag's. -/
theorem onItem_late {h : Hall} {p : Nat} {b : Bytes} {r : TagRec} (hfull : beAt b 0 8 ≠ 0)
    (htag : Tab.find (h.nbr p).tags (tagBare (beAt b 0 8)) = some r) (hlate : r.state = .committed ∨ tagEpoch (beAt b 0 8) < r.epoch) :
    h.onItem p b = (h.bump .nbrLateItems p).creditPump p := by
  simp only [Hall.onItem, if_neg hfull, htag, if_pos hlate]

section
variable {p : Nat} {b : Bytes} {h h' : Hall}

theorem item_held (hd : Delivers p 0x30 b h h') (hn : (h.nbr p).noticesIn = []) (hfull : beAt b 0 8 ≠ 0)
    (htag : Tab.find (h.nbr p).tags (tagBare (beAt b 0 8)) = none) (hrefills : (h.nbr p).refills = []) (hoff : beAt b 12 4 = 0)
    (hnew : ∀ i ∈ (h.nbr p).items, ¬ (i.tag = tagBare (beAt b 0 8) ∧ i.item = beAt b 8 2)) :
    Tab.find (h'.nbr p).tags (tagBare (beAt b 0 8)) = some { state := .held, epoch := tagEpoch (beAt b 0 8) } ∧
      (h'.nbr p).items = (h.nbr p).items ++ [itemOf b (h.nbr p).nextOrder] := by
  obtain ⟨g, hg, -, hend⟩ := hd
  change SameCargo p ((g.onItem p b).noticesGo p) h' at hend
  rw [onItem_first hfull (by rw [hg.tags, htag]) (by rw [hg.refills, hrefills]) hoff (by rw [hg.items]; exact hnew)] at hend
  have hlast := (SameCargo.refl p _).delivered hend (by
    rw [Hall.appendItem, nbr_updNbr_same]
    exact (setTag_noticesIn ..).trans (hg.noticesIn.trans hn))
  rw [hlast.tags, hlast.items, Hall.appendItem, nbr_updNbr_same]
  refine ⟨find_setTag_same .., ?_⟩
  simp [Hall.setTag, hg.items, hg.nextOrder]

theorem item_late (hd : Delivers p 0x30 b h h') (hn : (h.nbr p).noticesIn = []) {r : TagRec} (hfull : beAt b 0 8 ≠ 0)
    (htag : Tab.find (h.nbr p).tags (tagBare (beAt b 0 8)) = some r) (hlate : r.state = .committed ∨ tagEpoch (beAt b 0 8) < r.epoch) :
    (h.getF (.count .nbrLateItems) p < Ctr.nbrLateItems.top → h'.getF (.count .nbrLateItems) p = h.getF (.count .nbrLateItems) p + 1) ∧
      (h'.nbr p).items = (h.nbr p).items := by
  obtain ⟨g, hg, -, hend⟩ := hd
  change SameCargo p ((g.onItem p b).noticesGo p) h' at hend
  rw [onItem_late hfull (by rw [hg.tags, htag]) hlate] at hend
  have hlast := (creditPump_sameCargo (g.bump .nbrLateItems p) p).delivered hend (by rw [nbr_bump, hg.noticesIn, hn])
  exact ⟨hg.bump_counted hlast (by simp [lineReg]), by rw [hlast.items, nbr_bump, hg.items]⟩

/-! ### Notices (R221, R403) -/

/-- A notice whose AFTER has been delivered is applied at once. -/
theorem Delivers.applies (hd : Delivers p 0x40 b h h') (hafter : h.afterDone p b = true) :
    ∃ g, SameCargo p h g ∧ SameCargo p ((g.applyNotice p b).noticesGo p) h' := by
  obtain ⟨g, hg, hsame, hend⟩ := hd
  change SameCargo p ((g.onNotice p b).noticesGo p) h' at hend
  rw [Hall.onNotice, if_pos ((hsame (by decide) b).trans hafter)] at hend
  exact ⟨g, hg, hend⟩

/-- A notice whose AFTER has not come waits. -/
theorem notice_waits (hd : Delivers p 0x40 b h h') (hn : (h.nbr p).noticesIn = []) (hafter : h.afterDone p b = false) :
    (h'.nbr p).noticesIn = [b] ∧ (h'.nbr p).tags = (h.nbr p).tags := by
  obtain ⟨g, hg, hsame, hend⟩ := hd
  have hg' : g.afterDone p b = false := (hsame (by decide) b).trans hafter
  have hwaits : ((g.updNbr p fun x => { x with noticesIn := x.noticesIn ++ [b] }).noticesGo p) =
      g.updNbr p fun x => { x with noticesIn := x.noticesIn ++ [b] } := by
    have hstill : (g.updNbr p fun x => { x with noticesIn := x.noticesIn ++ [b] }).afterDone p b = false := by
      rw [Hall.afterDone, nbr_updNbr_same]
      exact hg'
    simp [Hall.noticesGo, hg.noticesIn, hn, hstill]
  change SameCargo p ((g.onNotice p b).noticesGo p) h' at hend
  rw [Hall.onNotice, if_neg (by simp [hg']), hwaits] at hend
  rw [hend.noticesIn, hend.tags, nbr_updNbr_same]
  exact ⟨by simp [hg.noticesIn, hn], hg.tags⟩

/-- A notice of a tag that is not there. -/
theorem notice_unknown (hd : Delivers p 0x40 b h h') (hn : (h.nbr p).noticesIn = []) (hafter : h.afterDone p b = true)
    (htag : Tab.find (h.nbr p).tags (tagBare (beAt b 4 8)) = none) :
    (h.getF (.count .nbrLateItems) p < Ctr.nbrLateItems.top → h'.getF (.count .nbrLateItems) p = h.getF (.count .nbrLateItems) p + 1) ∧
      (h'.nbr p).tags = (h.nbr p).tags := by
  obtain ⟨g, hg, hend⟩ := hd.applies hafter
  have hcount : g.applyNotice p b = g.bump .nbrLateItems p := by simp only [Hall.applyNotice, hg.tags, htag]
  rw [hcount] at hend
  have hlast := (SameCargo.refl p _).delivered hend (by rw [nbr_bump, hg.noticesIn, hn])
  exact ⟨hg.bump_counted hlast (by simp [lineReg]), by rw [hlast.tags, nbr_bump, hg.tags]⟩

/-- A commit notice of a held tag all of whose items are held whole commits it. -/
theorem notice_commits (hd : Delivers p 0x40 b h h') (hn : (h.nbr p).noticesIn = []) (hafter : h.afterDone p b = true) {r : TagRec}
    (htag : Tab.find (h.nbr p).tags (tagBare (beAt b 4 8)) = some r) (hkind : beAt b 0 1 = 1) (hheld : r.state = .held)
    (hepoch : tagEpoch (beAt b 4 8) = r.epoch)
    (hwhole : ∀ n, n < beAt b 2 2 → ∃ i ∈ (h.nbr p).items, i.tag = tagBare (beAt b 4 8) ∧ i.item = n ∧ i.complete = true) :
    (Tab.find (h'.nbr p).tags (tagBare (beAt b 4 8))).map (fun z => (z.state, z.commitAt)) = some (.committed, none) := by
  obtain ⟨g, hg, hend⟩ := hd.applies hafter
  have hcommit : ∃ r', g.applyNotice p b = (g.setTag p (tagBare (beAt b 4 8)) r').commitTag p (tagBare (beAt b 4 8)) r' := by
    refine ⟨{ state := .held, epoch := r.epoch, commitAt := some (beAt b 2 2) }, ?_⟩
    simp only [Hall.applyNotice, hg.tags, htag, hheld, hepoch, hkind, lt_irrefl, and_false, if_false, decide_true, if_true, reduceCtorEq]
    refine commitIfWhole_whole (find_setTag_same ..) rfl ?_
    rw [setTag_items, hg.items]
    exact hwhole
  obtain ⟨r', hr'⟩ := hcommit
  obtain ⟨hcommitted, hnotices⟩ := commitTag_spec (g.setTag p (tagBare (beAt b 4 8)) r') p (tagBare (beAt b 4 8)) r'
  rw [hr'] at hend
  have hlast := (SameCargo.refl p _).delivered hend (by rw [hnotices, setTag_noticesIn, hg.noticesIn, hn])
  rw [hlast.tags, hcommitted, Option.map_some]

/-- An abort notice of a tag that holds nothing makes it wait for the next epoch. -/
theorem notice_aborts (hd : Delivers p 0x40 b h h') (hn : (h.nbr p).noticesIn = []) (hafter : h.afterDone p b = true) {r : TagRec}
    (htag : Tab.find (h.nbr p).tags (tagBare (beAt b 4 8)) = some r) (hopen : r.state ≠ .committed) (hkind : beAt b 0 1 = 2)
    (hepoch : r.epoch ≤ tagEpoch (beAt b 4 8)) (hitems : (h.nbr p).items = []) (hruns : h.openRuns = []) (hstalls : h.data.stalls = []) :
    Tab.find (h'.nbr p).tags (tagBare (beAt b 4 8)) = some { state := .wait, epoch := tagEpoch (beAt b 4 8) + 1 } := by
  obtain ⟨g, hg, hend⟩ := hd.applies hafter
  have habort : g.applyNotice p b =
      (g.discardTag p (tagBare (beAt b 4 8))).setTag p (tagBare (beAt b 4 8)) { state := .wait, epoch := tagEpoch (beAt b 4 8) + 1 } := by
    simp only [Hall.applyNotice, hg.tags, htag, hopen, hkind, Nat.not_lt.2 hepoch, if_false, OfNat.ofNat_ne_one, decide_false,
      Bool.false_eq_true]
  have hdiscard := discardTag_sameCargo (h := g) (tagBare (beAt b 4 8)) (hg.items.trans hitems)
    (by rw [← hruns]; simp only [Hall.openRuns, Hall.ledger, hg.data]) (by rw [hg.data, hstalls])
  rw [habort] at hend
  have hlast := (SameCargo.refl p _).delivered hend (by rw [setTag_noticesIn, hdiscard.noticesIn, hg.noticesIn, hn])
  rw [hlast.tags, find_setTag_same]

end

/-- NOTICE_LIMIT commits a tag that is not committed, and does nothing else. -/
theorem noticeLimit_commits {s : State} {port : Fin 4} {tag : Nat} {r : TagRec} (hr : Tab.find (s.hall.nbr port.val).tags tag = some r)
    (hopen : r.state ≠ .committed) : ∃ g : Hall, Becomes (.noticeLimit port tag) s (g.commitTag port.val tag r) := by
  have hrun : ∃ g : Hall, execNoticeLimit port tag s = .next { hall := g.commitTag port.val tag r, pending := s.pending } := by
    simp only [execNoticeLimit, run_next, hr, if_neg hopen]
    exact ⟨_, rfl⟩
  exact hrun

theorem noticeLimit_idle {s : State} {port : Fin 4} {tag : Nat}
    (hidle : ∀ r, Tab.find (s.hall.nbr port.val).tags tag = some r → r.state = .committed) : Becomes (.noticeLimit port tag) s s.hall := by
  change execNoticeLimit port tag s = _
  rw [execNoticeLimit, run_next]
  dsimp only
  split
  · rfl
  · next r hr => rw [if_pos (hidle r hr)]

/-! ### The commands -/

/-- The commands of frames of conversations 1 to 3, with type and conversation (Table 16.4). -/
def linkCommands (port : Fin 4) (line : LineCw) (frame : Bytes) : List (Nat × Nat × Instr) :=
  [(0x20, 1, .lotReq port line frame), (0x21, 1, .lotOffer port line frame), (0x22, 1, .lotRefuse port line frame),
    (0x23, 1, .shardWant port line frame), (0x24, 1, .shardData port line frame), (0x25, 1, .shardAck port line frame),
    (0x26, 1, .lotDone port line frame), (0x28, 1, .pageRead port line frame), (0x29, 1, .pageData port line frame),
    (0x2A, 1, .pageFail port line frame), (0x2B, 1, .withdraw port line frame), (0x30, 2, .item port line frame),
    (0x40, 3, .notice port line frame)]

theorem linkCommands_spec (port : Fin 4) (line : LineCw) (frame : Bytes) :
    ∀ y ∈ linkCommands port line frame, (∀ s, exec y.2.2 s = s.link port.val line frame y.1) ∧ linkConv y.1 = some y.2.1 ∧ y.2.1 ≠ 0 := by
  simp only [linkCommands, List.forall_mem_cons]
  refine ⟨?_, ?_, ?_, ?_, ?_, ?_, ?_, ?_, ?_, ?_, ?_, ?_, ?_, by simp⟩ <;> exact ⟨fun _ => rfl, rfl, by decide⟩

/-- The module after the command of one type of frame. -/
def Hall.linked (h : Hall) (p : Nat) (line : LineCw) (frame : Bytes) (typ : Nat) : Hall :=
  match h.linkCheck p line frame with
  | .inr f => if f.typ = typ then h.linkAccept p line f else h
  | .inl _ => h

theorem link_eq (s : State) (p : Nat) (line : LineCw) (frame : Bytes) (typ : Nat) :
    s.link p line frame typ = .next { hall := s.hall.linked p line frame typ, pending := s.pending } := rfl

theorem linked_of_check {h : Hall} {p : Nat} {line : LineCw} {frame : Bytes} {f : LinkFrame}
    (hf : h.linkCheck p line frame = .inr f) (typ : Nat) :
    h.linked p line frame typ = if f.typ = typ then h.linkAccept p line f else h := by rw [Hall.linked, hf]

/-- What holds of the payload of a frame that passes the checks, is of the type, and comes in its turn with none held behind it. -/
def InTurn (h : Hall) (p : Nat) (line : LineCw) (frame : Bytes) (typ c : Nat) (q : Bytes → Prop) : Prop :=
  ∀ f : LinkFrame, h.linkCheck p line frame = .inr f → f.typ = typ → f.dup = false → f.at' = ((h.nbr p).conv c).recvBase →
    ((h.nbr p).conv c).ahead = [] → q f.body

/-- A frame of the command's type, in its turn and with none held behind it, is delivered. -/
theorem gives_of_delivers {i : Instr} {s : State} {p : Nat} {line : LineCw} {frame : Bytes} {typ c : Nat} {Q : Hall → Bytes → Prop}
    (hi : exec i s = s.link p line frame typ) (hconv : linkConv typ = some c) (hc : c ≠ 0)
    (hq : ∀ b h', Delivers p typ b s.hall h' → Q h' b) :
    Gives i s fun h' => InTurn s.hall p line frame typ c (Q h') := by
  refine ⟨_, hi.trans (link_eq ..), ?_⟩
  rintro f hf rfl hdup hat hahead
  have hown := linkCheck_conv hf
  obtain rfl : f.conv = c := Option.some.inj (hown.symm.trans hconv)
  rw [linked_of_check hf, if_pos rfl]
  exact hq _ _ (linkAccept_delivers line hown hdup hc hat hahead)

/-- What a command of a frame does with a frame that it does not deliver. -/
theorem gives_undelivered {i : Instr} {s : State} {p : Nat} {line : LineCw} {frame : Bytes} {typ c : Nat}
    (hi : exec i s = s.link p line frame typ) (hconv : linkConv typ = some c) (hc : c ≠ 0) :
    Gives i s fun h' => (∀ b, s.hall.linkCheck p line frame = .inl b → h' = s.hall) ∧
      ∀ f : LinkFrame, s.hall.linkCheck p line frame = .inr f → (f.typ ≠ typ → h' = s.hall) ∧
        (f.typ = typ → f.dup = true → s.hall.getF (.count .nbrDup) p < Ctr.nbrDup.top →
          h'.getF (.count .nbrDup) p = s.hall.getF (.count .nbrDup) p + 1) ∧
        (f.typ = typ → f.dup = false → f.at' ≠ ((s.hall.nbr p).conv c).recvBase →
          Tab.find ((s.hall.nbr p).conv c).ahead ((s.hall.nbr p).conv c).recvBase = none →
          Tab.find ((h'.nbr p).conv c).ahead f.at' = some (f.typ, f.body) ∧
            (s.hall.getF (.count .nbrFramesIn) p < Ctr.nbrFramesIn.top →
              h'.getF (.count .nbrFramesIn) p = s.hall.getF (.count .nbrFramesIn) p + 1)) := by
  refine ⟨_, hi.trans (link_eq ..), fun b hb => by rw [Hall.linked, hb], fun f hf => ⟨fun hne => ?_, ?_, ?_⟩⟩
  · rw [linked_of_check hf, if_neg hne]
  · rintro rfl hdup hroom
    rw [linked_of_check hf, if_pos rfl]
    exact linkAccept_dup line hdup hroom
  · rintro rfl hdup hat hgap
    obtain rfl : f.conv = c := Option.some.inj ((linkCheck_conv hf).symm.trans hconv)
    rw [linked_of_check hf, if_pos rfl]
    exact linkAccept_ahead line hdup hc hat hgap

/-- Settles O60: a frame is stored and, in its turn, delivered (`gives_of_delivers`); what moves the line leaves what the delivery did
(`SameCargo`). -/
theorem neighbourTraffic : Obligations.NeighbourTraffic := by
  constructor
  · intro s port line frame h p x cmds up1
    constructor
    · intro y hy
      obtain ⟨hi, hconv, hc⟩ := linkCommands_spec port line frame y hy
      exact gives_undelivered (hi s) hconv hc
    intro hn turn
    have hturn : turn = InTurn s.hall port.val line frame := rfl
    clear_value turn
    subst hturn
    refine ⟨?_, ?_, ?_, ?_, ?_, ?_, ?_, ?_, ?_, ?_, fun hnext => ?_, ?_, ?_⟩
    · refine gives_of_delivers rfl rfl (by decide) fun b h' hd => ⟨fun hhit r => lotReq_refused hd hn hhit r, ?_⟩
      exact fun k l hhit hready hserve hfree => congrArg (Option.map _) (lotReq_opens hd hn hhit hready hserve hfree)
    · exact gives_of_delivers rfl rfl (by decide) fun b h' hd r hr hidle => congrArg (Option.map _) (lotOffer_taken hd hn hr hidle)
    · exact gives_of_delivers rfl rfl (by decide) fun b h' hd => no_rid_of_delivers hd hn fun _ => rfl
    · exact gives_of_delivers rfl rfl (by decide) fun b h' hd r l hr hl => congrArg (Option.map _) (shardWant_noted hd hn hr hl rfl)
    · refine gives_of_delivers rfl rfl (by decide) fun b h' hd => ⟨fun r hr hwant hlen => ?_, shardData_unwanted hd hn⟩
      exact (congrArg (Option.map _) (shardData_collected hd hn hr hwant rfl hlen)).trans (congrArg some (Tab.find_set_same ..))
    · exact gives_of_delivers rfl rfl (by decide) fun b h' hd r hr => congrArg (Option.map _) (shardAck_noted hd hn hr)
    · exact gives_of_delivers rfl rfl (by decide) fun b h' hd => no_rid_of_delivers hd hn fun _ => rfl
    · exact gives_of_delivers rfl rfl (by decide) fun b h' hd =>
        ⟨fun hserved => pageRead_counted hd hn (if_pos hserved).symm,
          fun hserved => pageRead_counted hd hn (if_neg (ne_true_of_eq_false hserved)).symm⟩
    · exact gives_of_delivers rfl rfl (by decide) fun b h' hd r hr hat =>
        ⟨pageData_ends hd hn hr hat, fun hmore => congrArg (Option.map _) (pageData_adds hd hn hr hat hmore)⟩
    · exact gives_of_delivers rfl rfl (by decide) fun b h' hd => pageFail_ends hd hn
    · exact gives_of_delivers rfl rfl (by decide) fun b h' hd hub k z hz hstate hin =>
        congrArg (Option.map _) (withdraw_invalidates hd hn hnext hz hstate hin)
    · exact gives_of_delivers rfl rfl (by decide) fun b h' hd => ⟨item_held hd hn, fun r => item_late hd hn⟩
    · refine gives_of_delivers rfl rfl (by decide) fun b h' hd =>
        ⟨notice_waits hd hn, notice_unknown hd hn, fun r hafter htag hopen => ⟨notice_commits hd hn hafter htag, ?_⟩⟩
      exact fun hkind hepoch hitems hruns hstalls =>
        congrArg (Option.map _) (notice_aborts hd hn hafter htag hopen hkind hepoch hitems hruns hstalls)
  · refine fun s port tag => ⟨fun hnone => ?_, fun r hr => ⟨fun hcommitted => ?_, fun hopen => ?_⟩⟩
    · exact noticeLimit_idle fun r hr => by cases hnone.symm.trans hr
    · exact noticeLimit_idle fun r' hr' => by rwa [← Option.some.inj (hr.symm.trans hr')]
    · obtain ⟨g, hg⟩ := noticeLimit_commits hr hopen
      exact ⟨_, hg, congrArg (Option.map _) (commitTag_spec ..).1⟩

end Sys2Proof.Machine
end

section
/-! SUPPORT. Operations, signature records, switchboard writes that wait and aborts: what each leaves of the Tallies (R61, R213, R214, R248,
R249, R253). -/

namespace Sys2Proof.Machine

/-! ### Operations stay open while events are posted -/

@[simp] theorem queRaise_ops (h : Hall) (q : Nat) (r : QueRec) : (h.queRaise q r).cmd.ops = h.cmd.ops := by
  unfold Hall.queRaise
  extract_lets
  split <;> rfl

@[simp] theorem quePut_ops (h : Hall) (q : Nat) (mk : Nat → Nat → Bytes) : (h.quePut q mk).cmd.ops = h.cmd.ops := by
  have hflags (g : Hall) : (g.queFlags q).cmd = g.cmd := (queFlags_flags_frame g q).1 .cmd (by simp)
  unfold Hall.quePut
  split
  · rfl
  split
  · rfl
  dsimp only
  split
  · rw [Hall.mgmtEvent, mgmtEventTo_cmd, mgmtEventTo_cmd, queRaise_ops, hflags]
    rfl
  · rw [queRaise_ops, hflags]
    rfl

@[simp] theorem evtPut_ops (h : Hall) (q : Nat) (e : Event) : (h.evtPut q e).cmd.ops = h.cmd.ops := by
  unfold Hall.evtPut
  split
  · split
    · rfl
    · rw [bump_cmd]
      rfl
  · exact quePut_ops _ _ _

@[simp] theorem post_ops (h : Hall) (pen : Nat) (secure : Bool) (e : Event) : (h.post pen secure e).cmd.ops = h.cmd.ops := by
  unfold Hall.post
  split
  · exact evtPut_ops _ _ _
  split
  · exact evtPut_ops _ _ _
  · cases secure <;> rfl

/-- An operation that has ended is open no more. -/
theorem closeOp_closes (h : Hall) (k status : Nat) (detail : Bytes) : Tab.find (h.closeOp k status detail).cmd.ops k = none := by
  unfold Hall.closeOp
  split
  · assumption
  · rw [post_ops]
    exact Tab.find_erase_same _ _

@[simp] theorem closeOp_checks (h : Hall) (k status : Nat) (detail : Bytes) : (h.closeOp k status detail).checks = h.checks :=
  (closeOp_frame h k status detail).1 .checks (by simp [postParts])

/-! ### A Tally after an update -/

@[simp] theorem tally_updTally_same (h : Hall) (r : Nat) (f : Tally → Tally) : (h.updTally r f).tally r = f (h.tally r) :=
  Tab.get_set_same _ _ _ _

theorem tally_updTally_ne (h : Hall) (r n : Nat) (f : Tally → Tally) (hn : n ≠ r) : (h.updTally r f).tally n = h.tally n :=
  Tab.get_set_ne _ _ _ _ _ hn

/-- What an update leaves of its Tally it leaves of every Tally. -/
theorem tally_updTally_field {α : Type} (field : Tally → α) (h : Hall) (r n : Nat) (f : Tally → Tally)
    (hf : ∀ t, field (f t) = field t) : field ((h.updTally r f).tally n) = field (h.tally n) := by
  by_cases hn : n = r
  · subst hn
    rw [tally_updTally_same, hf]
  · rw [tally_updTally_ne _ _ _ _ hn]

theorem tally_of_data {h h' : Hall} (e : h'.data = h.data) (r : Nat) : h'.tally r = h.tally r := by rw [Hall.tally, Hall.tally, e]

theorem Frame.tally_eq {h h' : Hall} {parts : List Part} {may : Fld → Nat → Prop} (f : Frame h h' parts may) (hp : Part.data ∉ parts)
    (r : Nat) : h'.tally r = h.tally r := tally_of_data (f.1 .data hp) r

/-! ### Signature records (R248, R249) -/

theorem mgmtHold_frame (h : Hall) (hub : Hub) (fs : List MgmtFrame) (may : Fld → Nat → Prop) : Frame h (h.mgmtHold hub fs) [.mgmt] may := by
  unfold Hall.mgmtHold
  split
  · exact frame_of_parts (fun p hp => by cases hub <;> cases p <;> simp_all [Part.same, Hall.updLink]) (by cases hub <;> rfl)
  · exact .refl ..

theorem mgmtRecord_frame (h : Hall) (signed : Bytes) (may : Fld → Nat → Prop) : Frame h (h.mgmtRecord signed) [.mgmt] may :=
  (mgmtHold_frame h .a _ may).trans (mgmtHold_frame _ .b _ may)

/-- The parts that a record may change: the records themselves, the draw of its signature, the junctions and what its event changes. -/
def recordParts : List Part := .checks :: .draws :: .junctions :: postParts

/-- A record is drawn, kept, deposited, sent to the management links and reported to its pen. -/
theorem addRecord_frame (h : Hall) (row stall : Nat) (r : SigRecord) : Frame h (h.addRecord row stall r) recordParts postReg := by
  unfold Hall.addRecord
  extract_lets hub seq r₁
  have hsign : Frame h (h.coseSign r₁.cbor).2 recordParts postReg :=
    frame_of_parts (fun p hp => by cases p <;> simp_all [Part.same, Hall.coseSign, Hall.sign, recordParts]) rfl
  generalize h.coseSign r₁.cbor = s at hsign
  obtain ⟨signed, g⟩ := s
  dsimp only
  have hkept (c : Checks) : Frame g { g with checks := c } recordParts postReg :=
    frame_of_parts (fun p hp => by cases p <;> simp_all [Part.same, recordParts]) rfl
  have hsent (k : Hall) (kind : Nat) : Frame k ((k.urgent .tallyVerdict row kind).mgmtRecord signed) recordParts postReg :=
    (urgent_frame _ _ _ _ _ _ (by simp [recordParts])).trans ((mgmtRecord_frame ..).mono (by simp [recordParts, postParts]) fun _ _ => id)
  split
  · exact (hsign.trans (hkept _)).trans (hsent _ _)
  · exact ((hsign.trans (hkept _)).trans (hsent _ _)).trans ((post_frame ..).mono (fun p hp => by simp [recordParts, hp]) fun _ _ => id)

/-- A record takes the next SEQ. -/
theorem addRecord_nextSeq (h : Hall) (row stall : Nat) (r : SigRecord) :
    (h.addRecord row stall r).checks.nextSeq = (h.checks.nextSeq + 1) % 2 ^ 32 := by
  have hsent (k : Hall) (signed : Bytes) (kind : Nat) : ((k.urgent .tallyVerdict row kind).mgmtRecord signed).checks = k.checks :=
    ((mgmtRecord_frame _ signed noReg).1 .checks (by simp)).trans (urgent_checks ..)
  unfold Hall.addRecord
  extract_lets hub seq r₁
  generalize h.coseSign r₁.cbor = s
  obtain ⟨signed, g⟩ := s
  dsimp only
  split
  · rw [hsent]
  · have hpost (k : Hall) (p typ : Nat) (d : Bytes) : (k.postPen p typ d).checks = k.checks :=
      (post_frame k p (k.penSecure p) _).1 .checks (by simp [postParts])
    rw [hpost, hsent]

@[simp] theorem addRecord_data (h : Hall) (row stall : Nat) (r : SigRecord) : (h.addRecord row stall r).data = h.data :=
  (addRecord_frame h row stall r).1 .data (by simp [recordParts, postParts])

/-- TALLY_LAST_VERDICT takes the verdict. -/
theorem latchVerdict_frame (h : Hall) (row kind stall : Nat) (shadow referee : Option Nat) (ctx idx group : Nat) :
    Frame h (h.latchVerdict row kind stall shadow referee ctx idx group) [] (regsOf row tallyLastFields) :=
  setFs_frame _ _ _ _ _ (by simp [regsOf, tallyLastFields])

theorem latchVerdict_spec (h : Hall) (row kind stall : Nat) (shadow referee : Option Nat) (ctx idx group : Nat) (hk : kind < 16) :
    (h.latchVerdict row kind stall shadow referee ctx idx group).getF .tallyLastVerdictKind row = kind ∧
      (h.latchVerdict row kind stall shadow referee ctx idx group).getF .tallyLastVerdictStall row = stall % 16 := by
  refine ⟨(getF_setFs (v := kind) _ h row (by simp) (by simp)).trans (Nat.mod_eq_of_lt hk), ?_⟩
  exact (getF_setFs (v := stall % 16) _ h row (by simp) (by simp)).trans (Nat.mod_mod _ 16)

@[simp] theorem latchVerdict_data (h : Hall) (row kind stall : Nat) (shadow referee : Option Nat) (ctx idx group : Nat) :
    (h.latchVerdict row kind stall shadow referee ctx idx group).data = h.data := setFs_data _ _ _

@[simp] theorem latchVerdict_checks (h : Hall) (row kind stall : Nat) (shadow referee : Option Nat) (ctx idx group : Nat) :
    (h.latchVerdict row kind stall shadow referee ctx idx group).checks = h.checks := setFs_checks _ _ _

/-! ### Writes that wait for the next settlement (R253) -/

/-- The register fields that the waiting writes of a Tally change. -/
def waitingReg (t : Tally) (row : Nat) (f : Fld) (u : Nat) : Prop :=
  regsOf row tallyLastFields f u ∨ ctrRegs row tallyCounters f u ∨ (t.goDue = true ∧ f = .tallyStatusSelftest ∧ u = row) ∨
    (t.stallDue ≠ [] ∧ f ∈ [Fld.tallyStallState, .tallyStallRole, .tallyStallStrikes, .tallyStallFOvr])

/-- A Tally without waiting writes. -/
def Tally.applied (t : Tally) : Tally := { t with clearLast := false, clearStats := false, goDue := false, stallDue := [] }

theorem writeTallyStalls_frame (l : Tab Nat) (h : Hall) (parts : List Part) (may : Fld → Nat → Prop)
    (hm : ∀ f ∈ [Fld.tallyStallState, .tallyStallRole, .tallyStallStrikes, .tallyStallFOvr], ∀ i, may f i) :
    Frame h (l.foldl (fun h e => h.writeTallyStall e.1 e.2) h) parts may := by
  refine Frame.foldl _ (fun g e => setFs_frame _ g e.1 parts may fun x hx => hm x.1 ?_ e.1) l h
  simp only [List.mem_cons, List.not_mem_nil, or_false] at hx
  rcases hx with rfl | rfl | rfl | rfl <;> simp

theorem tallyApply_spec (h : Hall) (row : Nat) :
    Frame h (h.tallyApply row) [.data] (waitingReg (h.tally row) row) ∧
      (h.tallyApply row).data = (h.updTally row Tally.applied).data := by
  unfold Hall.tallyApply
  extract_lets t h₁ h₂ h₃ h₄
  have hlast : Frame h h₁ [] (waitingReg t row) := by
    unfold h₁
    split
    · exact (clearFs_frame ..).mono (by simp) fun f u hf => .inl hf
    · exact .refl ..
  clear_value h₁
  have hstats : Frame h h₂ [] (waitingReg t row) := by
    unfold h₂
    split
    · exact hlast.trans ((clearCtrs_frame ..).mono (by simp) fun f u hf => .inr (.inl hf))
    · exact hlast
  clear_value h₂
  have hgo : Frame h h₃ [] (waitingReg t row) := by
    unfold h₃
    split
    · next hdue => exact hstats.trans (setF_frame _ _ _ _ _ _ (.inr (.inr (.inl ⟨hdue, rfl, rfl⟩))))
    · exact hstats
  clear_value h₃
  have hstall : Frame h h₄ [] (waitingReg t row) := by
    by_cases hnone : t.stallDue = []
    · unfold h₄
      rw [hnone]
      exact hgo
    · exact hgo.trans (writeTallyStalls_frame _ _ _ _ fun f hf i => .inr (.inr (.inr ⟨hnone, hf⟩)))
  clear_value h₄
  have hdata : h₄.data = h.data := hstall.1 .data (by simp)
  refine ⟨(hstall.mono (by simp) fun _ _ => id).trans ((updTally_frame ..).mono (by simp) fun _ _ => False.elim), ?_⟩
  exact congrArg₂ (fun (d : Data) (y : Tally) => { d with tallies := Tab.set d.tallies row y.applied }) hdata (tally_of_data hdata row)

theorem tallyApply_tally_same (h : Hall) (row : Nat) : (h.tallyApply row).tally row = (h.tally row).applied :=
  (tally_of_data (tallyApply_spec h row).2 row).trans (tally_updTally_same ..)

theorem tallyApply_tally_ne (h : Hall) (row r : Nat) (hr : r ≠ row) : (h.tallyApply row).tally r = h.tally r :=
  (tally_of_data (tallyApply_spec h row).2 r).trans (tally_updTally_ne _ _ _ _ hr)

/-- Waiting writes leave the steps and repeats that await settlement as they are. -/
theorem tallyApply_field {α : Type} (field : Tally → α) (hf : ∀ t, field t.applied = field t) (h : Hall) (row r : Nat) :
    field ((h.tallyApply row).tally r) = field (h.tally r) :=
  (congrArg field (tally_of_data (tallyApply_spec h row).2 r)).trans (tally_updTally_field field h row r _ hf)

theorem countCheck_frame (h : Hall) (c : CheckItem) :
    Frame h (h.countCheck c) [] (regsOf c.key.row [.count .tallyChecks, .sat .tallyChecks]) := by
  unfold Hall.countCheck
  split
  · exact bump_frame _ _ _ _ _ _ (by simp [regsOf]) (by simp [regsOf])
  · exact .refl ..

end Sys2Proof.Machine
end

section
/-! SUPPORT. What aborts, notices and counters leave of the Tallies: their registers, the records and the GO writes that wait (R213, R214,
R219, R241). -/

namespace Sys2Proof.Machine

/-! ### Aborts (R213, R214, R219) -/

/-- The registers of the Tallies, the records and the GO writes that wait are in `h'` as they were in `h`. -/
structure TallyKept (h h' : Hall) : Prop where
  regs : ∀ f u, f.info.blk = .tally → h'.getF f u = h.getF f u
  checks : h'.checks = h.checks
  goDue : ∀ r, (h'.tally r).goDue = (h.tally r).goDue

section
variable {h h' h'' : Hall}

theorem TallyKept.refl (h : Hall) : TallyKept h h := ⟨fun _ _ _ => rfl, rfl, fun _ => rfl⟩

theorem TallyKept.trans (a : TallyKept h h') (b : TallyKept h' h'') : TallyKept h h'' :=
  ⟨fun f u hf => (b.regs f u hf).trans (a.regs f u hf), b.checks.trans a.checks, fun r => (b.goDue r).trans (a.goDue r)⟩

theorem TallyKept.foldl {α : Type} (f : Hall → α → Hall) (hf : ∀ g a, TallyKept g (f g a)) (l : List α) (h : Hall) :
    TallyKept h (l.foldl f h) := by
  induction l generalizing h with
  | nil => exact .refl h
  | cons a l ih => exact (hf h a).trans (ih _)

theorem TallyKept.of_frame {parts : List Part} {may : Fld → Nat → Prop} (f : Frame h h' parts may) (hd : .data ∉ parts)
    (hc : .checks ∉ parts) (hm : ∀ g u, may g u → g.info.blk ≠ .tally) : TallyKept h h' :=
  ⟨fun g u hg => f.2 g u fun hn => hm g u hn hg, f.1 .checks hc, fun r => congrArg Tally.goDue (f.tally_eq hd r)⟩

/-- What changes neither registers nor Tallies nor records. -/
theorem TallyKept.of_tables (hr : h'.regs = h.regs) (hc : h'.checks = h.checks) (ht : h'.data.tallies = h.data.tallies) :
    TallyKept h h' := ⟨fun f u _ => getF_of_regs h h' hr f u, hc, fun r => by rw [Hall.tally, Hall.tally, ht]⟩

end

theorem bump_tallyKept (h : Hall) (c : Ctr) (u k : Nat) (hc : (Fld.count c).info.blk ≠ .tally) (hs : (Fld.sat c).info.blk ≠ .tally) :
    TallyKept h (h.bump c u k) :=
  .of_frame (bump_frame h c u k [] (fun g _ => g.info.blk ≠ .tally) hc hs) (by simp) (by simp) fun _ _ => id

theorem setFs_tallyKept (h : Hall) (u : Nat) (l : List (Fld × Nat)) (hl : ∀ e ∈ l, e.1.info.blk ≠ .tally) :
    TallyKept h (h.setFs u l) :=
  .of_frame (setFs_frame l h u [] (fun g _ => g.info.blk ≠ .tally) hl) (by simp) (by simp) fun _ _ => id

theorem updTally_tallyKept (h : Hall) (r : Nat) (f : Tally → Tally) (hf : ∀ t, (f t).goDue = t.goDue) : TallyKept h (h.updTally r f) :=
  ⟨fun _ _ _ => rfl, rfl, fun n => tally_updTally_field Tally.goDue h r n f hf⟩

theorem updNbr_tallyKept (h : Hall) (p : Nat) (f : NbrPort → NbrPort) : TallyKept h (h.updNbr p f) := .of_tables rfl rfl rfl

theorem updChan_tallyKept (h : Hall) (c : Nat) (f : ChanSt → ChanSt) : TallyKept h (h.updChan c f) := .of_tables rfl rfl rfl

theorem updStall_tallyKept (h : Hall) (i : Nat) (f : Stall → Stall) : TallyKept h (h.updStall i f) := .of_tables rfl rfl rfl

theorem updRun_tallyKept (h : Hall) (k : RunKey) (f : GroupRun → GroupRun) : TallyKept h (h.updRun k f) := .of_tables rfl rfl rfl

theorem updTrough_tallyKept (h : Hall) (i t : Nat) (f : Trough → Trough) : TallyKept h (h.updTrough i t f) := by
  unfold Hall.updTrough
  split
  · exact updStall_tallyKept ..
  · exact .refl h

theorem undoMove_tallyKept (h : Hall) (k : RunKey) (m : SlotMove) : TallyKept h (h.undoMove k m) := updTrough_tallyKept ..

/-- A frame that goes out on a port is counted there. -/
theorem nbrPost_tallyKept (h : Hall) (p c typ : Nat) (body : Bytes) (units : Nat) : TallyKept h (h.nbrPost p c typ body units) :=
  .of_frame (nbrPost_sameCargo h p c typ body units).frame (by simp) (by simp) fun f u hf => by
    simp only [lineReg, List.mem_cons, List.not_mem_nil, or_false] at hf
    rcases hf with rfl | rfl | rfl | rfl | rfl | rfl | rfl | rfl | rfl | rfl | rfl | rfl <;> decide

theorem noticePump_tallyKept (h : Hall) (p : Nat) : TallyKept h (h.noticePump p) := by
  refine .foldl _ (fun g n => ?_) _ h
  split
  · exact .refl g
  · exact (updNbr_tallyKept ..).trans (nbrPost_tallyKept ..)

theorem postNotice_tallyKept (h : Hall) (p kind cause items tag : Nat) : TallyKept h (h.postNotice p kind cause items tag) := by
  unfold Hall.postNotice
  split
  · exact (updNbr_tallyKept ..).trans (noticePump_tallyKept ..)
  · exact .refl h

theorem runNotices_tallyKept (h : Hall) (r : GroupRun) (kind cause : Nat) : TallyKept h (h.runNotices r kind cause) := by
  refine .foldl _ (fun g e => ?_) _ h
  exact postNotice_tallyKept ..

theorem restartChans_tallyKept (h : Hall) (k : RunKey) : TallyKept h (h.restartChans k) := by
  refine .foldl _ (fun g e => ?_) _ h
  split
  · exact .refl g
  dsimp only
  split
  · exact updChan_tallyKept ..
  split
  · exact .refl g
  · refine ((updChan_tallyKept ..).trans (setFs_tallyKept _ _ _ fun x hx => ?_)).trans
      (bump_tallyKept _ .brwRestarts _ _ (by decide) (by decide))
    simp only [List.mem_cons, List.not_mem_nil, or_false] at hx
    rcases hx with rfl | rfl | rfl | rfl | rfl <;> exact fun hblk => nomatch hblk

theorem ledgerLastFields_blk : ∀ f ∈ ledgerLastFields, f.info.blk ≠ .tally := by decide

theorem ledgerCounters_blk : ∀ c ∈ ledgerCounters, (Fld.count c).info.blk ≠ .tally ∧ (Fld.sat c).info.blk ≠ .tally := by decide

theorem ledgerApply_tallyKept (h : Hall) (r : Nat) : TallyKept h (h.ledgerApply r) := by
  unfold Hall.ledgerApply
  extract_lets l h₁ h₂ h₃
  have hlast : TallyKept h h₁ := by
    unfold h₁
    split
    · refine .of_frame (clearFs_frame ..) (by simp) (by simp) fun f u hf => ?_
      exact ledgerLastFields_blk f hf.2
    · exact .refl h
  clear_value h₁
  have hstats : TallyKept h h₂ := by
    unfold h₂
    split
    · refine hlast.trans (.of_frame (clearCtrs_frame ..) (by simp) (by simp) fun f u hf => ?_)
      obtain ⟨-, c, hc, hf⟩ := hf
      obtain ⟨hcount, hsat⟩ := ledgerCounters_blk c hc
      rcases hf with rfl | rfl
      · exact hcount
      · exact hsat
    · exact hlast
  clear_value h₂
  have hcfg : TallyKept h h₃ := by
    unfold h₃
    split
    · exact hstats.trans (setFs_tallyKept h₂ r [(.ledgerCfgMaxReplay, _)] (by simp [Fld.info]))
    · exact hstats
  exact hcfg.trans (.of_tables rfl rfl rfl)

/-- A run that goes back to its beginning leaves the Tallies' registers and the records alone. -/
theorem restoreRun_tallyKept (h : Hall) (r : GroupRun) (cause : Nat) : TallyKept h (h.restoreRun r cause) := by
  unfold Hall.restoreRun
  extract_lets k h₁ h₂ h₃ d h₄ h₅ h₆ h₇ h₈ h₉ closing
  have e₁ : TallyKept h h₁ := (bump_tallyKept _ _ _ _ (by decide) (by decide)).trans (bump_tallyKept _ _ _ _ (by decide) (by decide))
  have e₂ : TallyKept h₁ h₂ := setFs_tallyKept _ _ _ fun x hx => by
    simp only [List.mem_cons, List.not_mem_nil, or_false] at hx
    rcases hx with rfl | rfl | rfl | rfl | rfl | rfl <;> exact fun hblk => nomatch hblk
  have e₃ : TallyKept h₂ h₃ := by
    unfold h₃
    split
    · exact .refl _
    · exact .of_tables rfl rfl rfl
  have e₄ : TallyKept h₃ h₄ := .of_tables rfl rfl rfl
  have e₅ : TallyKept h₄ h₅ := by
    refine .foldl _ (fun g u => ?_) _ h₄
    exact .of_tables rfl rfl rfl
  have e₆ : TallyKept h₅ h₆ := .foldl _ (fun g m => undoMove_tallyKept g k m) _ h₅
  have e₇ : TallyKept h₆ h₇ := (restartChans_tallyKept h₆ k).trans (runNotices_tallyKept ..)
  have e₈ : TallyKept h₇ h₈ := updTally_tallyKept _ _ _ fun _ => rfl
  have e₉ : TallyKept h₈ h₉ := by
    refine .foldl _ (fun g e => ?_) _ h₈
    exact updStall_tallyKept ..
  exact (((((((((e₁.trans e₂).trans e₃).trans e₄).trans e₅).trans e₆).trans e₇).trans e₈).trans e₉).trans
    (updRun_tallyKept ..)).trans (ledgerApply_tallyKept ..)

theorem abortRun_tallyKept (h : Hall) (k : RunKey) (cause : Nat) : TallyKept h (h.abortRun k cause) := by
  unfold Hall.abortRun
  split
  · exact .refl h
  split
  · exact .refl h
  · refine .foldl _ (fun g j => ?_) _ h
    split
    · exact restoreRun_tallyKept ..
    · exact .refl g

theorem voteAbort_tallyKept (h : Hall) (c : CheckItem) : TallyKept h (h.voteAbort c) := by
  unfold Hall.voteAbort
  split
  · exact .refl h
  split
  · exact abortRun_tallyKept ..
  · exact .refl h

theorem poisonStep_tallyKept (h : Hall) (c : CheckItem) : TallyKept h (h.poisonStep c) := updRun_tallyKept ..

theorem dropItem_tallyKept (h : Hall) (row id : Nat) : TallyKept h (h.dropItem row id) := updTally_tallyKept _ _ _ fun _ => rfl

theorem updItem_tallyKept (h : Hall) (row id : Nat) (f : CheckItem → CheckItem) : TallyKept h (h.updItem row id f) :=
  updTally_tallyKept _ _ _ fun _ => rfl

end Sys2Proof.Machine
end

section
/-! PROOFS. Settles O47: shadow runs, votes and repeats (R228, R231–R233, R236, R238, Tables 9.3, 9.4 and 9.6). -/

namespace Sys2Proof.Machine

/-! ### Steps that await settlement -/

theorem item_eq_some {h : Hall} {row id : Nat} {c : CheckItem} (hc : h.item row id = some c) :
    c ∈ (h.tally row).items ∧ c.id = id := by
  unfold Hall.item at hc
  exact ⟨List.mem_of_find?_eq_some hc, by simpa using List.find?_some hc⟩

theorem item_dropItem_same (h : Hall) (row id : Nat) : (h.dropItem row id).item row id = none := by
  rw [Hall.item, Hall.dropItem, tally_updTally_same, List.find?_eq_none]
  intro c hc
  simpa using (List.mem_filter.1 hc).2

/-- The step with the ID is changed. -/
theorem item_updItem_same (h : Hall) (row id : Nat) (f : CheckItem → CheckItem) (hf : ∀ c, c.id = id → (f c).id = id) :
    (h.updItem row id f).item row id = (h.item row id).map f := by
  unfold Hall.item Hall.updItem
  rw [tally_updTally_same]
  generalize (h.tally row).items = l
  dsimp only
  induction l with
  | nil => rfl
  | cons c l ih =>
    by_cases hc : c.id = id
    · simp [hc, hf c hc]
    · simp only [List.map_cons, if_neg hc, List.find?_cons_of_neg (p := fun c => decide (c.id = id)) (a := c) (by simpa using hc)]
      exact ih

theorem item_updItem_of {h : Hall} {row id : Nat} {c : CheckItem} (hc : h.item row id = some c) (f : CheckItem → CheckItem)
    (hf : ∀ c, c.id = id → (f c).id = id) : (h.updItem row id f).item row id = some (f c) := by
  rw [item_updItem_same _ _ _ _ hf, hc, Option.map_some]

theorem item_of_tally {h h' : Hall} (row id : Nat) (e : (h'.tally row).items = (h.tally row).items) : h'.item row id = h.item row id := by
  rw [Hall.item, Hall.item, e]

theorem updItem_frame (h : Hall) (row id : Nat) (f : CheckItem → CheckItem) : Frame h (h.updItem row id f) [.data] noReg :=
  updTally_frame ..

theorem markShadowed_frame (h : Hall) (token : Nat) : Frame h (h.markShadowed token) [.data] noReg := by
  unfold Hall.markShadowed Hall.updReq
  split
  · exact frame_of_parts (fun p hp => by cases p <;> simp_all [Part.same]) rfl
  · exact .refl ..

theorem markShadowed_tally (h : Hall) (token row : Nat) : (h.markShadowed token).tally row = h.tally row := by
  unfold Hall.markShadowed Hall.updReq
  split <;> rfl

/-- The candidates of a step depend on the roles, states and pens of the stalls alone. -/
theorem candidates_congr {h h' : Hall} {c c' : CheckItem}
    (hr : ∀ f ∈ [Fld.tallyStallRole, .tallyStallState, .tallyStallPen], ∀ u, h'.getF f u = h.getF f u)
    (hk : c'.key = c.key) (hs : c'.stall = c.stall) (hsh : c'.shadow = c.shadow) (hp : c'.pen = c.pen) :
    h'.candidates c' = h.candidates c := by
  simp only [List.mem_cons, List.not_mem_nil, or_false, forall_eq_or_imp, forall_eq] at hr
  obtain ⟨hrole, hstate, hpen⟩ := hr
  unfold Hall.candidates Hall.refereeRows Hall.shadowsOf Hall.stallsOf Hall.stallPen Hall.stallRetired
  rw [hk, hs, hsh, hp]
  simp only [hrole, hstate, hpen]

/-- Where every step that waits for a referee has a candidate, none ends without one. -/
theorem noReferee_of_candidates {h : Hall} {row : Nat}
    (hc : ∀ c ∈ (h.tally row).items, c.phase = .waitReferee → h.candidates c ≠ []) : h.noReferee row = h := by
  refine List.foldl_fixed' (fun id => ?_) _
  split
  · next c hitem =>
    refine if_neg fun hcond => ?_
    simp only [Bool.and_eq_true, decide_eq_true_eq, List.isEmpty_iff] at hcond
    exact hc c (item_eq_some hitem).1 hcond.1.1 hcond.2
  · rfl

/-! ### Shadow runs (R228, R230) -/

/-- The end of a shadow run is noted on its step. -/
def CheckItem.ran (c : CheckItem) (shadow digest : Nat) : CheckItem := { c with shadow := some shadow, shadowDigest := some digest }

def Hall.shadowRan (h : Hall) (row : Nat) (c : CheckItem) : Hall :=
  ((h.markShadowed c.token).bump .tallyShadowed row).updItem row c.id fun _ => c

theorem shadowRunEnd_becomes {s : State} {row : Fin 8} {id sh : Nat} {c : CheckItem} (hc : s.hall.item row id = some c)
    (hself : s.hall.selftest row = false) (hp : c.phase = .shadowRun) (hsh : c.shadow = some sh) (fault : BitVec 64) :
    Becomes (.shadowRunEnd row id fault) s
      (if c.clean ^^^ fault.toNat = c.digest ∧ c.mismatch = false then
        (s.hall.shadowRan row (c.ran sh (c.clean ^^^ fault.toNat))).settlePassed (c.ran sh (c.clean ^^^ fault.toNat))
      else (s.hall.shadowRan row (c.ran sh (c.clean ^^^ fault.toNat))).disagree row id) := by
  obtain rfl := (item_eq_some hc).2
  change execShadowRunEnd row c.id fault s = _
  simp [execShadowRunEnd, run_next, hc, hself, hp, hsh, Hall.shadowRan, CheckItem.ran]

theorem shadowRan_frame (h : Hall) (row : Nat) (c : CheckItem) :
    Frame h (h.shadowRan row c) [.data] (regsOf row [.count .tallyShadowed, .sat .tallyShadowed]) :=
  (((markShadowed_frame h c.token).mono (fun _ => id) fun _ _ => False.elim).trans
    (bump_frame _ _ _ _ _ _ (by simp [regsOf]) (by simp [regsOf]))).trans
    ((updItem_frame ..).mono (fun _ => id) fun _ _ => False.elim)

theorem shadowRan_items (h : Hall) (row : Nat) (c : CheckItem) :
    ((h.shadowRan row c).tally row).items = (h.tally row).items.map fun d => if d.id = c.id then c else d := by
  have hbump : ((h.markShadowed c.token).bump .tallyShadowed row).tally row = h.tally row :=
    (tally_of_data (bump_data ..) row).trans (markShadowed_tally ..)
  rw [Hall.shadowRan, Hall.updItem, tally_updTally_same, hbump]

/-- A step that passed is settled, and memory and commands stay. -/
theorem settlePassed_spec (h : Hall) (c : CheckItem) {row : Nat} (hrow : c.key.row = row) :
    (h.settlePassed c).item row c.id = none ∧ (h.settlePassed c).mem = h.mem ∧ (h.settlePassed c).cmd = h.cmd := by
  have hf : Frame h (h.settlePassed c) [.data] anyReg :=
    (((tallyApply_spec h c.key.row).1.mono (fun _ => id) fun _ _ _ => trivial).trans
      ((countCheck_frame _ c).mono (by simp) fun _ _ _ => trivial)).trans ((updTally_frame ..).mono (fun _ => id) fun _ _ _ => trivial)
  subst hrow
  exact ⟨item_dropItem_same .., hf.mem_eq (by simp), hf.1 .cmd (by simp)⟩

/-- A disagreement waits for its referee where its step has a candidate and is the only one that waits. -/
theorem disagree_waits {h : Hall} {row id : Nat} (hcand : ∀ d ∈ (h.tally row).items, d.id = id → h.candidates d ≠ [])
    (honly : ∀ d ∈ (h.tally row).items, d.phase = .waitReferee → d.id = id) :
    h.disagree row id = (h.bump .tallyMismatch row).updItem row id fun c => { c with phase := .waitReferee } := by
  refine noReferee_of_candidates fun c hc hp => ?_
  rw [Hall.updItem, tally_updTally_same, tally_of_data (bump_data ..)] at hc
  obtain ⟨d, hd, rfl⟩ := List.mem_map.1 hc
  have hid : d.id = id := by
    by_contra hne
    rw [if_neg hne] at hp
    exact hne (honly d hd hp)
  have hsame : ((h.bump .tallyMismatch row).updItem row id fun c => { c with phase := .waitReferee }).candidates
      { d with phase := .waitReferee } = h.candidates d :=
    candidates_congr (fun f hf u => by
      simp only [List.mem_cons, List.not_mem_nil, or_false] at hf
      rcases hf with rfl | rfl | rfl <;> exact getF_bump_ne _ _ _ _ _ _ (by decide) (by decide)) rfl rfl rfl rfl
  rw [if_pos hid]
  exact fun hnil => hcand d hd hid (hsame.symm.trans hnil)

/-! ### Votes (R231, Table 9.4) -/

theorem voteStart_takes {s : State} {row : Fin 8} {id i : Nat} {c : CheckItem} (hc : s.hall.item row id = some c)
    (hself : s.hall.selftest row = false) (hp : c.phase = .waitReferee)
    (hi : (s.hall.candidates c).find? (s.hall.refereeFree c) = some i) :
    Becomes (.voteStart row id) s (s.hall.updItem row id fun c => { c with phase := .copying, referee := some i }) := by
  change execVoteStart row id s = _
  simp only [execVoteStart, run_next, hc, hself, hp, hi]
  rfl

theorem voteStart_waits {s : State} {row : Fin 8} {id : Nat} {c : CheckItem} (hc : s.hall.item row id = some c)
    (hnone : (s.hall.candidates c).find? (s.hall.refereeFree c) = none) : Becomes (.voteStart row id) s s.hall := by
  change execVoteStart row id s = _
  simp [execVoteStart, run_next, hc, hnone]

theorem voteCopyDone_becomes (s : State) (row : Fin 8) (id : Nat) :
    Becomes (.voteCopyDone row id) s
      (s.hall.updItem row id fun c => if c.phase = .copying then { c with phase := .refereeRun } else c) := rfl

/-- The referee of a vote has run, and a spare's store is cleared (R231). -/
def Hall.refereeRan (h : Hall) (row i : Nat) : Hall :=
  if (h.bump .tallyVotesRun row).getF .tallyStallRole i = 3 then (h.bump .tallyVotesRun row).zero (storeBase i) 0x400000
  else h.bump .tallyVotesRun row

theorem refereeRan_checks (h : Hall) (row i : Nat) : (h.refereeRan row i).checks = h.checks := by
  unfold Hall.refereeRan
  split
  · exact ((zero_frame _ _ _ noReg).1 .checks (by simp)).trans (bump_checks ..)
  · exact bump_checks ..

theorem refereeEnd_becomes {s : State} {row : Fin 8} {id i : Nat} {c : CheckItem} (hc : s.hall.item row id = some c)
    (hself : s.hall.selftest row = false) (hp : c.phase = .refereeRun) (hi : c.referee = some i) (fault : BitVec 64) (bad : Bool) :
    Becomes (.refereeEnd row id fault bad) s
      ((s.hall.refereeRan row i).verdict c (voteKind c (c.clean ^^^ fault.toNat) (decide (c.engine = 0) && (bad || c.cleanMismatch)))
        (some (c.clean ^^^ fault.toNat))) := by
  change execRefereeEnd row id fault bad s = _
  simp only [execRefereeEnd, run_next, hc, hself, hp, hi]
  rfl

theorem voteKind_lt (c : CheckItem) (t : Nat) (bad : Bool) : voteKind c t bad < 16 := by
  unfold voteKind
  split <;> split_ifs <;> decide

/-! ### What a verdict shows (R232, R234) -/

/-- KIND and stall of TALLY_LAST_VERDICT, and the SEQ of the next record. -/
def Hall.verdictShown (h : Hall) (row : Nat) : Nat × Nat × Nat :=
  (h.getF .tallyLastVerdictKind row, h.getF .tallyLastVerdictStall row, h.checks.nextSeq)

theorem Frame.verdictShown_eq {h h' : Hall} {parts : List Part} {may : Fld → Nat → Prop} (f : Frame h h' parts may) {row : Nat}
    (hk : ¬ may .tallyLastVerdictKind row) (hs : ¬ may .tallyLastVerdictStall row) (hc : h'.checks.nextSeq = h.checks.nextSeq) :
    h'.verdictShown row = h.verdictShown row := by
  rw [Hall.verdictShown, Hall.verdictShown, f.2 _ _ hk, f.2 _ _ hs, hc]

theorem TallyKept.verdictShown_eq {h h' : Hall} (a : TallyKept h h') (row : Nat) : h'.verdictShown row = h.verdictShown row := by
  rw [Hall.verdictShown, Hall.verdictShown, a.regs _ _ rfl, a.regs _ _ rfl, a.checks]

/-- A record leaves the verdict shown as it is and takes a SEQ. -/
theorem addRecord_shown (h : Hall) (row stall : Nat) (r : SigRecord) (n : Nat) :
    (h.addRecord row stall r).verdictShown n =
      (h.getF .tallyLastVerdictKind n, h.getF .tallyLastVerdictStall n, (h.checks.nextSeq + 1) % 2 ^ 32) := by
  have hf := (addRecord_frame h row stall r).2
  rw [Hall.verdictShown, hf _ _ (by simp [postReg]), hf _ _ (by simp [postReg]), addRecord_nextSeq]

theorem updTotals_frame (h : Hall) (i : Nat) (f : StallTotals → StallTotals) (may : Fld → Nat → Prop) :
    Frame h (h.updTotals i f) [.checks] may :=
  frame_of_parts (fun p hp => by cases p <;> simp_all [Part.same, Hall.updTotals]) rfl

/-- A pack run that falls due is shown on its stall. -/
theorem packDue_frame (h : Hall) (i : Nat) : Frame h (h.packDue i) [.data, .checks] (regsOf i [.tallyStallTestDue]) := by
  unfold Hall.packDue
  split
  · exact .refl ..
  split
  · exact .refl ..
  · exact ((updStall_frame _ _ _ _ _ (by simp)).trans (setF_frame _ _ _ _ _ _ (by simp [regsOf]))).trans
      ((updTotals_frame ..).mono (by simp) fun _ _ => id)

theorem packDue_nextSeq (h : Hall) (i : Nat) : (h.packDue i).checks.nextSeq = h.checks.nextSeq := by
  unfold Hall.packDue
  split
  · rfl
  split <;> rfl

/-- A stall of a suspect row (R240): its override is forced, and a pack run falls due. -/
def Hall.suspectStall (h : Hall) (i : Nat) : Hall :=
  if h.stallRetired i then h else ((h.setF .tallyStallFOvr i 7).packDue i).stallRedesignate i

theorem suspectStall_shown (h : Hall) (i n : Nat) : (h.suspectStall i).verdictShown n = h.verdictShown n := by
  unfold Hall.suspectStall
  split
  · rfl
  have hforced : (h.setF .tallyStallFOvr i 7).verdictShown n = h.verdictShown n :=
    (setF_frame h .tallyStallFOvr i 7 [] (regsOf i [.tallyStallFOvr]) (by simp [regsOf])).verdictShown_eq (by simp [regsOf])
      (by simp [regsOf]) rfl
  have hdue (g : Hall) : (g.packDue i).verdictShown n = g.verdictShown n :=
    (packDue_frame g i).verdictShown_eq (by simp [regsOf]) (by simp [regsOf]) (packDue_nextSeq g i)
  have hrole (g : Hall) : (g.stallRedesignate i).verdictShown n = g.verdictShown n :=
    (stallRedesignate_frame g i).verdictShown_eq (by simp [roleReg]) (by simp [roleReg])
      (congrArg Checks.nextSeq ((stallRedesignate_frame g i).1 .checks (by simp)))
  rw [hrole, hdue, hforced]

/-- A suspect row changes the overrides, pack runs and roles of its stalls, no verdict. -/
theorem rowSuspect_shown (h : Hall) (row n : Nat) : (h.rowSuspect row).verdictShown n = h.verdictShown n := by
  unfold Hall.rowSuspect
  extract_lets g₁ g₂
  have hstalls : (fun g : Hall => g.verdictShown n) g₁ = h.verdictShown n :=
    foldl_same (fun g : Hall => g.verdictShown n) _ (fun g s => suspectStall_shown g (16 * row + s) n) _ h
  clear_value g₁
  exact hstalls

/-- A vote's end, before its kind's own effects: the writes that wait apply, the verdict is shown and its record made. -/
def Hall.verdictLogged (h : Hall) (c : CheckItem) (kind : Nat) (t : Option Nat) : Hall :=
  let h := ((h.tallyApply c.key.row).countCheck c).latchVerdict c.key.row kind c.stall c.shadow c.referee c.ctx c.idx c.key.group
  let digests := [(1, c.digest)] ++ (c.shadowDigest.map fun d => (2, d)).toList ++ (t.map fun d => (3, d)).toList
  h.addRecord c.key.row c.stall (h.withState (if kind = 2 then c.shadow.getD c.stall else c.stall)
    { h.itemRecord c kind with computing := some c.stall, shadow := c.shadow, referee := c.referee, digests := digests
                               oxLoc := if c.mismatch then c.loc else none })

theorem verdictLogged_shown (h : Hall) (c : CheckItem) (kind : Nat) (t : Option Nat) (hk : kind < 16) :
    (h.verdictLogged c kind t).verdictShown c.key.row = (kind, c.stall % 16, (h.checks.nextSeq + 1) % 2 ^ 32) := by
  have happlied : ((h.tallyApply c.key.row).countCheck c).checks = h.checks :=
    ((countCheck_frame _ c).1 .checks (by simp)).trans ((tallyApply_spec h c.key.row).1.1 .checks (by simp))
  obtain ⟨hkind, hstall⟩ := latchVerdict_spec ((h.tallyApply c.key.row).countCheck c) c.key.row kind c.stall c.shadow c.referee c.ctx
    c.idx c.key.group hk
  unfold Hall.verdictLogged
  dsimp only
  rw [addRecord_shown, hkind, hstall, latchVerdict_checks, happlied]

/-- A row whose self-test is asked for shows the verdict it showed. -/
theorem selftest_shown (h : Hall) (row v : Nat) : (h.setF .tallyStatusSelftest row v).verdictShown row = h.verdictShown row :=
  (setF_frame h .tallyStatusSelftest row v [] (regsOf row [.tallyStatusSelftest]) (by simp [regsOf])).verdictShown_eq (by simp [regsOf])
    (by simp [regsOf]) rfl

/-- A repeat that is queued and an abort leave the verdict shown as it is. -/
theorem repeatQueued_shown (h : Hall) (c : CheckItem) (f : Tally → Tally) (hf : ∀ t, (f t).goDue = t.goDue) :
    (((h.updTally c.key.row f).dropItem c.key.row c.id).voteAbort c).verdictShown c.key.row = h.verdictShown c.key.row :=
  (((updTally_tallyKept h _ f hf).trans (dropItem_tallyKept ..)).trans (voteAbort_tallyKept ..)).verdictShown_eq _

theorem poisoned_shown (h : Hall) (c : CheckItem) :
    (((h.dropItem c.key.row c.id).poisonStep c).voteAbort c).verdictShown c.key.row = h.verdictShown c.key.row :=
  (((dropItem_tallyKept ..).trans (poisonStep_tallyKept ..)).trans (voteAbort_tallyKept ..)).verdictShown_eq _

/-- A vote's end shows its kind and the computing stall, and makes one record. -/
theorem verdict_shown (h : Hall) (c : CheckItem) (kind : Nat) (t : Option Nat) (hk : kind < 16) :
    (h.verdict c kind t).verdictShown c.key.row = (kind, c.stall % 16, (h.checks.nextSeq + 1) % 2 ^ 32) := by
  rw [← verdictLogged_shown h c kind t hk]
  unfold Hall.verdict
  extract_lets row seq g₁ digests suspect record g₂ repeatOf
  have hlogged : g₂ = h.verdictLogged c kind t := rfl
  clear_value g₂
  subst hlogged
  split
  · exact repeatQueued_shown _ c _ fun _ => rfl
  · exact repeatQueued_shown _ c _ fun _ => rfl
  · exact (selftest_shown ..).trans ((rowSuspect_shown ..).trans (poisoned_shown _ c))
  · refine (poisoned_shown _ c).trans ?_
    exact (bump_frame _ .tallyNoReferee c.key.row 1 []
      (regsOf c.key.row [.count .tallyNoReferee, .sat .tallyNoReferee]) (by simp [regsOf]) (by simp [regsOf])).verdictShown_eq
      (by simp [regsOf]) (by simp [regsOf]) (by rw [bump_checks])
  · exact (selftest_shown ..).trans ((updItem_tallyKept ..).verdictShown_eq _)

end Sys2Proof.Machine
end

section
/-! PROOFS. Settles O47, continued: repeats (R236, R238, Table 9.6) and the statement. -/

namespace Sys2Proof.Machine

/-! ### Check state of a stall (Table 9.6) -/

/-- The register fields that a strike changes. -/
def strikeReg (i : Nat) (f : Fld) (u : Nat) : Prop := regsOf i [.tallyStallState, .tallyStallStrikes, .tallyStallFOvr] f u ∨ roleReg f u

theorem strike_frame (h : Hall) (i : Nat) : Frame h (h.strike i) [.checks] (strikeReg i) := by
  unfold Hall.strike
  split
  · have hset (l : List (Fld × Nat)) (hl : ∀ e ∈ l, strikeReg i e.1 i) : Frame h (h.setFs i l) [.checks] (strikeReg i) :=
      setFs_frame _ _ _ _ _ hl
    exact ((hset _ (by simp [strikeReg, regsOf])).trans (updTotals_frame ..)).trans
      ((stallRedesignate_frame ..).mono (by simp) fun _ _ => .inr)
  · exact setFs_frame _ _ _ _ _ (by simp [strikeReg, regsOf])
  · exact .refl ..

/-- The first strike of a healthy stall. -/
def Hall.firstStrike (h : Hall) (i : Nat) : Hall :=
  (h.setFs i [(.tallyStallState, 1), (.tallyStallStrikes, 1), (.tallyStallFOvr, 7)]).updTotals i fun x => { x with observed := 0 }

theorem strike_of_healthy {h : Hall} {i : Nat} (h0 : h.getF .tallyStallState i = 0) :
    h.strike i = (h.firstStrike i).stallRedesignate i := by
  simp only [Hall.strike, h0, Hall.firstStrike]

theorem strike_nextSeq (h : Hall) (i : Nat) : (h.strike i).checks.nextSeq = h.checks.nextSeq := by
  by_cases h0 : h.getF .tallyStallState i = 0
  · rw [strike_of_healthy h0, (stallRedesignate_frame ..).1 .checks (by simp), Hall.firstStrike, Hall.updTotals, setFs_checks]
  · unfold Hall.strike
    split
    · contradiction
    · rw [setFs_checks]
    · rfl

/-- A healthy stall that is struck is under observation, and its checks are forced. -/
theorem strike_healthy {h : Hall} {i : Nat} (h0 : h.getF .tallyStallState i = 0) :
    (h.strike i).getF .tallyStallState i = 1 ∧ (h.strike i).getF .tallyStallFOvr i = 7 := by
  rw [strike_of_healthy h0, (stallRedesignate_frame ..).2 _ _ (by simp [roleReg]), (stallRedesignate_frame ..).2 _ _ (by simp [roleReg])]
  exact ⟨getF_setFs (v := 1) _ h i (by simp) (by simp), getF_setFs (v := 7) _ h i (by simp) (by simp)⟩

/-- What a verdict does with its suspect. -/
def Hall.judge (h : Hall) (i : Nat) (right : Bool) : Hall := if right then h.strike i else h.condemn i

theorem judge_frame (h : Hall) (i : Nat) (right : Bool) : Frame h (h.judge i right) [.checks] (strikeReg i) := by
  cases right
  · exact setF_frame _ _ _ _ _ _ (by simp [strikeReg, regsOf])
  · exact strike_frame ..

theorem judge_nextSeq (h : Hall) (i : Nat) (right : Bool) : (h.judge i right).checks.nextSeq = h.checks.nextSeq := by
  cases right
  · rfl
  · exact strike_nextSeq ..

theorem judge_wrong (h : Hall) (i : Nat) : (h.judge i false).getF .tallyStallState i = 2 := getF_setF_same ..

/-! ### Repeats (R236) -/

section
variable (h : Hall) (c : CheckItem) (suspect prior digest : Nat) (right : Bool)

/-- The outcome of a repeat before its record: the writes that wait apply, the verdict is shown, and its suspect is judged. -/
def Hall.repeatJudged : Hall :=
  ((h.tallyApply c.key.row).latchVerdict c.key.row (if right then 7 else 8) c.stall c.shadow c.referee c.ctx c.idx c.key.group).judge
    suspect right

theorem repeatVerdict_eq : ∃ r, h.repeatVerdict c suspect prior digest right =
    (h.repeatJudged c suspect right).addRecord c.key.row suspect r := ⟨_, rfl⟩

theorem repeatJudged_kind : (h.repeatJudged c suspect right).getF .tallyLastVerdictKind c.key.row = if right then 7 else 8 := by
  refine ((judge_frame ..).2 _ _ (by simp [strikeReg, regsOf, roleReg])).trans ?_
  exact (latchVerdict_spec _ _ _ _ _ _ _ _ _ (by cases right <;> decide)).1

theorem repeatJudged_nextSeq : (h.repeatJudged c suspect right).checks.nextSeq = h.checks.nextSeq := by
  rw [Hall.repeatJudged, judge_nextSeq, latchVerdict_checks, (tallyApply_spec h c.key.row).1.1 .checks (by simp)]

theorem repeatJudged_data : (h.repeatJudged c suspect right).data = (h.tallyApply c.key.row).data :=
  ((judge_frame ..).1 .data (by simp)).trans (latchVerdict_data ..)

/-- The outcome of a repeat is shown, and one record is made. -/
theorem repeatVerdict_shown : (h.repeatVerdict c suspect prior digest right).getF .tallyLastVerdictKind c.key.row = (if right then 7 else 8) ∧
    (h.repeatVerdict c suspect prior digest right).checks.nextSeq = (h.checks.nextSeq + 1) % 2 ^ 32 := by
  obtain ⟨r, hr⟩ := repeatVerdict_eq h c suspect prior digest right
  rw [hr, (addRecord_frame ..).2 _ _ (by simp [postReg]), addRecord_nextSeq]
  exact ⟨repeatJudged_kind .., congrArg (fun n => (n + 1) % 2 ^ 32) (repeatJudged_nextSeq ..)⟩

/-- A suspect whose answer was wrong again is retired. -/
theorem repeatVerdict_wrong : (h.repeatVerdict c suspect prior digest false).getF .tallyStallState suspect = 2 := by
  obtain ⟨r, hr⟩ := repeatVerdict_eq h c suspect prior digest false
  rw [hr, (addRecord_frame ..).2 _ _ (by simp [postReg])]
  exact judge_wrong ..

/-- A healthy suspect whose answer was right is under observation. -/
theorem repeatVerdict_right (hd : (h.tally c.key.row).stallDue = []) (h0 : h.getF .tallyStallState suspect = 0) :
    (h.repeatVerdict c suspect prior digest true).getF .tallyStallState suspect = 1 ∧
      (h.repeatVerdict c suspect prior digest true).getF .tallyStallFOvr suspect = 7 := by
  obtain ⟨r, hr⟩ := repeatVerdict_eq h c suspect prior digest true
  rw [hr, (addRecord_frame ..).2 _ _ (by simp [postReg]), (addRecord_frame ..).2 _ _ (by simp [postReg])]
  refine strike_healthy ?_
  rw [(latchVerdict_frame ..).2 _ _ (by simp [regsOf, tallyLastFields]), (tallyApply_spec h c.key.row).1.2 _ _ ?_]
  · exact h0
  · simp [waitingReg, regsOf, ctrRegs, tallyLastFields, hd]

/-- A repeat's outcome leaves the steps and repeats that await settlement as they are. -/
theorem repeatVerdict_tally {α : Type} (field : Tally → α) (hf : ∀ t, field t.applied = field t) (row : Nat) :
    field ((h.repeatVerdict c suspect prior digest right).tally row) = field (h.tally row) := by
  obtain ⟨r, hr⟩ := repeatVerdict_eq h c suspect prior digest right
  rw [hr, tally_of_data (addRecord_data ..), tally_of_data (repeatJudged_data ..)]
  exact tallyApply_field field hf ..

end

/-- The repeat of a step that awaits settlement ends. -/
theorem repeatEnd_item {s : State} {row : Fin 8} {id kind answer prior : Nat} {c : CheckItem} (hc : s.hall.item row id = some c)
    (hself : s.hall.selftest row = false) (hp : c.phase = .repeating) (hv : c.verdict = some (kind, answer, prior))
    (hn : ((s.hall.tally row).repeats.find? fun x => x.id = id) = none) (fault : BitVec 64) :
    Becomes (.repeatEnd row id fault) s ((s.hall.dropItem row id).repeatVerdict c (if kind = 2 then c.shadow.getD c.stall else c.stall)
      prior (c.clean ^^^ fault.toNat) (decide (c.clean ^^^ fault.toNat = answer) && !(c.oxChecked && c.cleanMismatch))) := by
  change execRepeatEnd row id fault s = _
  simp only [execRepeatEnd, run_next, hself, hn, hc, hp, hv]
  rfl

/-- A repeat taken from the Tally. -/
def Hall.dropRepeat (h : Hall) (row id : Nat) : Hall :=
  h.updTally row fun t => { t with repeats := t.repeats.filter fun (x : RepeatItem) => decide (x.id ≠ id) }

/-- The repeat that a replay ran ends. -/
theorem repeatEnd_repeat {s : State} {row : Fin 8} {id d : Nat} {bad : Bool} {x : RepeatItem}
    (hx : ((s.hall.tally row).repeats.find? fun x => x.id = id) = some x) (hg : x.got = some (d, bad))
    (hself : s.hall.selftest row = false) (fault : BitVec 64) :
    Becomes (.repeatEnd row id fault) s
      ((s.hall.dropRepeat row id).repeatVerdict x.item x.stall x.prior d (decide (d = x.answer) && !bad)) := by
  change execRepeatEnd row id fault s = _
  simp only [execRepeatEnd, run_next, hself, hx, hg]
  rfl

/-! ### While the self-test runs -/

/-- Shadow runs, votes and repeats wait for the end of the self-test (R241, Table 9.5). -/
theorem selftest_waits {s : State} {row : Fin 8} (hself : s.hall.selftest row = true) (id : Nat) (fault : BitVec 64) (bad : Bool) :
    Becomes (.repeatEnd row id fault) s s.hall ∧ Becomes (.voteStart row id) s s.hall ∧
      Becomes (.refereeEnd row id fault bad) s s.hall ∧ Becomes (.shadowRunEnd row id fault) s s.hall := by
  refine ⟨?_, ?_, ?_, ?_⟩
  · change execRepeatEnd row id fault s = _
    simp [execRepeatEnd, run_next, hself]
  · change execVoteStart row id s = _
    simp only [execVoteStart, run_next, hself]
    split <;> simp
  · change execRefereeEnd row id fault bad s = _
    simp only [execRefereeEnd, run_next, hself]
    split
    · rfl
    · split <;> simp
  · change execShadowRunEnd row id fault s = _
    simp only [execShadowRunEnd, run_next, hself]
    split
    · rfl
    · split <;> simp

/-! ### The statement, clause by clause -/

section
variable {s : State} {row : Fin 8} {id : Nat} {c : CheckItem}

/-- A shadow run that agrees settles its step. -/
theorem shadowRunEnd_settles (hc : s.hall.item row id = some c) (hrow : c.key.row = row) (hself : s.hall.selftest row = false)
    {sh : Nat} {fault : BitVec 64} (hp : c.phase = .shadowRun) (hsh : c.shadow = some sh) (heq : c.clean ^^^ fault.toNat = c.digest)
    (hm : c.mismatch = false) :
    Gives (.shadowRunEnd row id fault) s fun h' => h'.item row id = none ∧ h'.mem = s.hall.mem ∧ h'.cmd = s.hall.cmd := by
  have hend := shadowRunEnd_becomes hc hself hp hsh fault
  rw [if_pos ⟨heq, hm⟩] at hend
  obtain rfl := (item_eq_some hc).2
  have hran := shadowRan_frame s.hall row (c.ran sh (c.clean ^^^ fault.toNat))
  obtain ⟨hitem, hmem, hcmd⟩ := settlePassed_spec (s.hall.shadowRan row (c.ran sh (c.clean ^^^ fault.toNat)))
    (c.ran sh (c.clean ^^^ fault.toNat)) hrow
  exact ⟨_, hend, hitem, hmem.trans (hran.mem_eq (by simp)), hcmd.trans (hran.1 .cmd (by simp))⟩

/-- A step whose shadow run is noted is the only one of its ID, with the candidates it had. -/
theorem shadowRan_item (h : Hall) {r : Nat} (hc : h.item r c.id = some c) (sh d : Nat) :
    (h.shadowRan r (c.ran sh d)).item r c.id = some (c.ran sh d) := by
  have hbump : ((h.markShadowed c.token).bump .tallyShadowed r).item r c.id = h.item r c.id :=
    item_of_tally _ _ (congrArg Tally.items ((tally_of_data (bump_data ..) r).trans (markShadowed_tally ..)))
  exact item_updItem_of (hbump.trans hc) _ fun _ _ => rfl

theorem shadowRan_candidates (h : Hall) (r : Nat) {sh : Nat} (hsh : c.shadow = some sh) (d : Nat) :
    (h.shadowRan r (c.ran sh d)).candidates (c.ran sh d) = h.candidates c := by
  refine candidates_congr (fun f hf u => (shadowRan_frame ..).2 _ _ ?_) rfl rfl hsh.symm rfl
  simp only [List.mem_cons, List.not_mem_nil, or_false] at hf
  rcases hf with rfl | rfl | rfl <;> simp [regsOf]

/-- A shadow run that disagrees leaves its step waiting for a referee, and the mismatch is counted. -/
theorem shadowRunEnd_disagrees (hc : s.hall.item row id = some c) (hself : s.hall.selftest row = false) {sh : Nat} {fault : BitVec 64}
    (hp : c.phase = .shadowRun) (hsh : c.shadow = some sh) (hne : c.clean ^^^ fault.toNat ≠ c.digest) (hcand : s.hall.candidates c ≠ [])
    (honly : ∀ d ∈ (s.hall.tally row).items, d.phase = .waitReferee → d.id = id) :
    Gives (.shadowRunEnd row id fault) s fun h' =>
      (h'.item row id).map (fun d => (d.phase, d.shadowDigest)) = some (CheckPhase.waitReferee, some (c.clean ^^^ fault.toNat)) ∧
      (s.hall.getF (.count .tallyMismatch) row < Ctr.tallyMismatch.top →
        h'.getF (.count .tallyMismatch) row = s.hall.getF (.count .tallyMismatch) row + 1) := by
  have hend := shadowRunEnd_becomes hc hself hp hsh fault
  rw [if_neg fun h => hne h.1] at hend
  obtain rfl := (item_eq_some hc).2
  have hitem := shadowRan_item s.hall hc sh (c.clean ^^^ fault.toNat)
  have hran := shadowRan_frame s.hall row (c.ran sh (c.clean ^^^ fault.toNat))
  have hitems := shadowRan_items s.hall row (c.ran sh (c.clean ^^^ fault.toNat))
  have hcand' := (shadowRan_candidates s.hall row hsh (c.clean ^^^ fault.toNat)).symm ▸ hcand
  rw [disagree_waits (fun d hd hid => ?_) fun d hd hw => ?_] at hend
  · refine ⟨_, hend, ?_, fun htop => ?_⟩
    · have hbump := (item_of_tally row c.id (congrArg Tally.items (tally_of_data (bump_data _ .tallyMismatch row 1) row))).trans hitem
      exact congrArg (Option.map _) (item_updItem_of hbump _ fun _ hd => by exact hd)
    · have hcount := hran.2 (.count .tallyMismatch) row (by simp [regsOf])
      rw [(updItem_frame ..).2 _ _ not_false, getF_count_bump _ _ _ _ (hcount ▸ htop.le), hcount]
      omega
  · rw [hitems] at hd
    obtain ⟨e, -, rfl⟩ := List.mem_map.1 hd
    split
    · exact hcand'
    · next hne => exact absurd (by rwa [if_neg hne] at hid) hne
  · rw [hitems] at hd
    obtain ⟨e, he, rfl⟩ := List.mem_map.1 hd
    split
    · rfl
    · next hid =>
      rw [if_neg hid] at hw
      exact honly e he hw

/-- The referee's end shows the kind of Table 9.3 with the computing stall, and makes one record. -/
theorem refereeEnd_shown (hc : s.hall.item row id = some c) (hrow : c.key.row = row) (hself : s.hall.selftest row = false) {i : Nat}
    (hp : c.phase = .refereeRun) (hi : c.referee = some i) (fault : BitVec 64) (bad : Bool) :
    Gives (.refereeEnd row id fault bad) s fun h' =>
      h'.getF .tallyLastVerdictKind row =
        voteKind c (c.clean ^^^ fault.toNat) (decide (c.engine = 0) && (bad || c.cleanMismatch)) ∧
      h'.getF .tallyLastVerdictStall row = c.stall % 16 ∧ h'.checks.nextSeq = (s.hall.checks.nextSeq + 1) % 2 ^ 32 := by
  have hshown := verdict_shown (s.hall.refereeRan row i) c _ (some (c.clean ^^^ fault.toNat))
    (voteKind_lt c (c.clean ^^^ fault.toNat) (decide (c.engine = 0) && (bad || c.cleanMismatch)))
  rw [refereeRan_checks, hrow, Hall.verdictShown, Prod.mk.injEq, Prod.mk.injEq] at hshown
  exact ⟨_, refereeEnd_becomes hc hself hp hi fault bad, hshown⟩

/-- A repeat's end shows its outcome in the row of its step. -/
theorem repeatEnd_shown (hc : s.hall.item row id = some c) (hrow : c.key.row = row) (hself : s.hall.selftest row = false)
    {kind answer prior : Nat} (hp : c.phase = .repeating) (hv : c.verdict = some (kind, answer, prior))
    (hn : ((s.hall.tally row).repeats.find? fun x => x.id = id) = none) (fault : BitVec 64) :
    Gives (.repeatEnd row id fault) s fun h' =>
      h'.getF .tallyLastVerdictKind row =
        (if decide (c.clean ^^^ fault.toNat = answer) && !(c.oxChecked && c.cleanMismatch) then 7 else 8) ∧
      ((decide (c.clean ^^^ fault.toNat = answer) && !(c.oxChecked && c.cleanMismatch)) = false →
        h'.getF .tallyStallState (if kind = 2 then c.shadow.getD c.stall else c.stall) = 2) ∧
      h'.item row id = none ∧ h'.checks.nextSeq = (s.hall.checks.nextSeq + 1) % 2 ^ 32 := by
  refine ⟨_, repeatEnd_item hc hself hp hv hn fault, ?_⟩
  generalize (decide (c.clean ^^^ fault.toNat = answer) && !(c.oxChecked && c.cleanMismatch)) = right
  obtain ⟨hkind, hseq⟩ := repeatVerdict_shown (s.hall.dropItem row id) c (if kind = 2 then c.shadow.getD c.stall else c.stall) prior
    (c.clean ^^^ fault.toNat) right
  rw [hrow] at hkind
  refine ⟨hkind, fun hwrong => ?_, ?_, hseq⟩
  · subst hwrong
    exact repeatVerdict_wrong ..
  · exact (item_of_tally _ _ (repeatVerdict_tally _ _ _ _ _ _ Tally.items (fun _ => rfl) row)).trans (item_dropItem_same ..)

/-- The end of a repeat that a replay ran shows its outcome and judges its suspect. -/
theorem repeatEnd_judges {x : RepeatItem} {d : Nat} {bad : Bool} (hx : ((s.hall.tally row).repeats.find? fun x => x.id = id) = some x)
    (hg : x.got = some (d, bad)) (hrow : x.item.key.row = row) (hself : s.hall.selftest row = false) (fault : BitVec 64) :
    Gives (.repeatEnd row id fault) s fun h' =>
      h'.getF .tallyLastVerdictKind row = (if d = x.answer ∧ bad = false then 7 else 8) ∧
      (¬ (d = x.answer ∧ bad = false) → h'.getF .tallyStallState x.stall = 2) ∧
      (d = x.answer → bad = false → (s.hall.tally row).stallDue = [] → s.hall.getF .tallyStallState x.stall = 0 →
        h'.getF .tallyStallState x.stall = 1 ∧ h'.getF .tallyStallFOvr x.stall = 7) ∧
      ∀ y ∈ (h'.tally row).repeats, y.id ≠ id := by
  have hend := repeatEnd_repeat hx hg hself fault
  have hright : (decide (d = x.answer) && !bad) = decide (d = x.answer ∧ bad = false) := by cases bad <;> simp
  have hdrop : (s.hall.dropRepeat row id).tally row = _ := tally_updTally_same ..
  rw [hright] at hend
  refine ⟨_, hend, ?_, fun hwrong => ?_, fun ha hb hdue h0 => ?_, fun y hy => ?_⟩
  · have hkind := (repeatVerdict_shown (s.hall.dropRepeat row id) x.item x.stall x.prior d (decide (d = x.answer ∧ bad = false))).1
    rw [hrow] at hkind
    simpa using hkind
  · rw [decide_eq_false hwrong]
    exact repeatVerdict_wrong ..
  · rw [decide_eq_true ⟨ha, hb⟩]
    refine repeatVerdict_right _ _ _ _ _ ?_ h0
    rw [hrow, hdrop]
    exact hdue
  · rw [repeatVerdict_tally _ _ _ _ _ _ Tally.repeats fun _ => rfl, hdrop] at hy
    simpa using (List.mem_filter.1 hy).2

end

/-- Settles O47: each clause is the rule of its command, and what a vote's end shows is said once, of its verdict. -/
theorem votesAndShadows : Obligations.VotesAndShadows := by
  unfold Obligations.VotesAndShadows
  intro s row id
  refine ⟨fun c hc hrow hid hself => ⟨fun sh fault hp hsh => ⟨shadowRunEnd_settles hc hrow hself hp hsh,
      shadowRunEnd_disagrees hc hself hp hsh⟩, fun hp => ⟨fun i hi => ?_, voteStart_waits hc⟩, fun hp => ?_,
      fun i fault bad hp hi => refereeEnd_shown hc hrow hself hp hi fault bad,
      fun kind answer prior fault hp hv hn => repeatEnd_shown hc hrow hself hp hv hn fault⟩,
    fun x d bad fault hx hg hrow hself => repeatEnd_judges hx hg hrow hself fault, fun hself fault b => selftest_waits hself id fault b⟩
  · exact ⟨_, voteStart_takes hc hself hp hi, congrArg (Option.map _) (item_updItem_of hc _ fun _ hd => by exact hd), updItem_frame ..⟩
  · refine ⟨_, voteCopyDone_becomes s row id, (congrArg (Option.map _) (item_updItem_of hc _ fun d hd => ?_)).trans ?_, updItem_frame ..⟩
    · split <;> exact hd
    · simp [hp]

end Sys2Proof.Machine
end

section
/-! PROOFS. Settles O48: self-tests, elapsed times, watches and pattern tests (R239–R241, R244, R245, R253, Tables 9.6 and 9.8). -/

namespace Sys2Proof.Machine

/-! ### The end of a self-test (R241) -/

/-- The self-test of a row has ended with its outcome, and no further one waits. -/
def Hall.SelftestOver (h : Hall) (row outcome : Nat) : Prop :=
  h.getF .tallyStatusSelftest row = 0 ∧ h.getF .tallyStatusFailed row = outcome ∧ (h.tally row).goDue = false

section
variable {h h' : Hall} {row v : Nat}

theorem Hall.SelftestOver.of_kept (o : h.SelftestOver row v) (k : TallyKept h h') : h'.SelftestOver row v := by
  obtain ⟨hself, hfailed, hgo⟩ := o
  exact ⟨(k.regs _ _ rfl).trans hself, (k.regs _ _ rfl).trans hfailed, (k.goDue row).trans hgo⟩

theorem Hall.SelftestOver.of_frame (o : h.SelftestOver row v) {parts : List Part} {may : Fld → Nat → Prop} (f : Frame h h' parts may)
    (hs : ¬ may .tallyStatusSelftest row) (hf : ¬ may .tallyStatusFailed row) (hg : (h'.tally row).goDue = (h.tally row).goDue) :
    h'.SelftestOver row v := by
  obtain ⟨hself, hfailed, hgo⟩ := o
  exact ⟨(f.2 _ _ hs).trans hself, (f.2 _ _ hf).trans hfailed, hg.trans hgo⟩

theorem Hall.SelftestOver.tallyApply (o : h.SelftestOver row v) (r : Nat) : (h.tallyApply r).SelftestOver row v := by
  have hgo : (h.tally row).goDue = false := o.2.2
  refine o.of_frame (tallyApply_spec h r).1 ?_ (by simp [waitingReg, regsOf, ctrRegs, tallyLastFields]) ?_
  · rintro (⟨-, hf⟩ | ⟨-, c, -, hf⟩ | ⟨hdue, -, rfl⟩ | ⟨-, hf⟩)
    · simp [tallyLastFields] at hf
    · simp at hf
    · simp [hgo] at hdue
    · simp at hf
  · by_cases hr : row = r
    · subst hr
      rw [tallyApply_tally_same, hgo]
      rfl
    · rw [tallyApply_tally_ne _ _ _ hr]

theorem Hall.SelftestOver.countCheck (o : h.SelftestOver row v) (c : CheckItem) : (h.countCheck c).SelftestOver row v :=
  o.of_frame (countCheck_frame h c) (by simp [regsOf]) (by simp [regsOf])
    (congrArg Tally.goDue ((countCheck_frame h c).tally_eq (by simp) row))

theorem Hall.SelftestOver.latchVerdict (o : h.SelftestOver row v) (r kind stall : Nat) (shadow referee : Option Nat) (ctx idx group : Nat) :
    (h.latchVerdict r kind stall shadow referee ctx idx group).SelftestOver row v :=
  o.of_frame (latchVerdict_frame ..) (by simp [regsOf, tallyLastFields]) (by simp [regsOf, tallyLastFields])
    (congrArg Tally.goDue (tally_of_data (latchVerdict_data ..) row))

theorem Hall.SelftestOver.addRecord (o : h.SelftestOver row v) (r stall : Nat) (x : SigRecord) :
    (h.addRecord r stall x).SelftestOver row v :=
  o.of_frame (addRecord_frame ..) (by simp [postReg]) (by simp [postReg]) (congrArg Tally.goDue (tally_of_data (addRecord_data ..) row))

theorem Hall.SelftestOver.settlePassed (o : h.SelftestOver row v) (c : CheckItem) : (h.settlePassed c).SelftestOver row v :=
  ((o.tallyApply c.key.row).countCheck c).of_kept (dropItem_tallyKept ..)

/-- A vote that ends without a referee. -/
theorem verdict_noReferee_eq (h : Hall) (c : CheckItem) : h.verdict c 6 none =
    ((((h.verdictLogged c 6 none).bump .tallyNoReferee c.key.row).dropItem c.key.row c.id).poisonStep c).voteAbort c := rfl

theorem Hall.SelftestOver.verdict_noReferee (o : h.SelftestOver row v) (c : CheckItem) : (h.verdict c 6 none).SelftestOver row v := by
  have hlogged : (h.verdictLogged c 6 none).SelftestOver row v :=
    (((o.tallyApply c.key.row).countCheck c).latchVerdict ..).addRecord ..
  have hcounted : ((h.verdictLogged c 6 none).bump .tallyNoReferee c.key.row).SelftestOver row v :=
    hlogged.of_frame (bump_frame _ _ _ _ [] (regsOf c.key.row [.count .tallyNoReferee, .sat .tallyNoReferee]) (by simp [regsOf])
      (by simp [regsOf])) (by simp [regsOf]) (by simp [regsOf]) (congrArg Tally.goDue (tally_of_data (bump_data ..) row))
  rw [verdict_noReferee_eq]
  exact hcounted.of_kept (((dropItem_tallyKept ..).trans (poisonStep_tallyKept ..)).trans (voteAbort_tallyKept ..))

theorem Hall.SelftestOver.noReferee (o : h.SelftestOver row v) (r : Nat) : (h.noReferee r).SelftestOver row v := by
  refine List.foldlRecOn (motive := fun g : Hall => g.SelftestOver row v) _ _ o fun g hg id _ => ?_
  split
  · split
    · exact hg.verdict_noReferee _
    · exact hg
  · exact hg

end

/-- The outcome of a self-test is shown, and a failure recorded, before what waited goes on. -/
def Hall.selftestShown (h : Hall) (row : Nat) (failed : Bool) : Hall :=
  let h := (h.setF .tallyStatusSelftest row 0).setB .tallyStatusFailed row failed
  if failed then
    ((h.latchVerdict row 11 0 none none 0 0 0).addRecord row (16 * row) { seq := 0, hub := .a, ticks := 0, kind := 11, pen := 255 }).updTally
      row fun t => { t with rowFault := true }
  else h

/-- The steps that waited for the end of the self-test settle. -/
def Hall.settleWaiting (h : Hall) (row : Nat) : Hall :=
  ((h.tally row).items.filter fun (c : CheckItem) => c.phase = .settling).foldl (fun h c => h.settlePassed c) h

theorem selftestEnd_becomes {s : State} {row : Fin 8} (hself : s.hall.selftest row = true) (failed : Bool) :
    Becomes (.selftestEnd row failed) s (((s.hall.selftestShown row failed).settleWaiting row).noReferee row) := by
  change execSelftestEnd row failed s = _
  simp only [execSelftestEnd, run_next, hself]
  rfl

theorem selftestShown_over (h : Hall) (row : Nat) (failed : Bool) (hgo : (h.tally row).goDue = false) :
    (h.selftestShown row failed).SelftestOver row (b2n failed) := by
  have hset : ((h.setF .tallyStatusSelftest row 0).setB .tallyStatusFailed row failed).SelftestOver row (b2n failed) := by
    refine ⟨?_, ?_, hgo⟩
    · rw [Hall.setB, getF_setF_fld _ _ _ _ _ _ (by decide), getF_setF_same]
      rfl
    · rw [Hall.setB, getF_setF_same]
      cases failed <;> rfl
  unfold Hall.selftestShown
  dsimp only
  split
  · exact ((hset.latchVerdict ..).addRecord ..).of_kept (updTally_tallyKept _ _ _ fun _ => rfl)
  · exact hset

/-- A failed self-test is KIND 11, and the steps that wait are those that waited. -/
theorem selftestShown_failed (h : Hall) (row : Nat) :
    (h.selftestShown row true).getF .tallyLastVerdictKind row = 11 ∧ ((h.selftestShown row true).tally row).items = (h.tally row).items := by
  unfold Hall.selftestShown
  rw [if_pos rfl, updTally_getF, (addRecord_frame ..).2 _ _ (by simp [postReg]), tally_updTally_same, tally_of_data (addRecord_data ..),
    tally_of_data (latchVerdict_data ..)]
  exact ⟨(latchVerdict_spec _ _ _ _ _ _ _ _ _ (by decide)).1, rfl⟩

theorem settleWaiting_over {h : Hall} {row v : Nat} (o : h.SelftestOver row v) (r : Nat) : (h.settleWaiting r).SelftestOver row v :=
  List.foldlRecOn (motive := fun g : Hall => g.SelftestOver row v) _ _ o fun _ hg c _ => hg.settlePassed c

/-- Where no step waits, the end of a self-test lets none go on. -/
theorem settleWaiting_of_nil {h : Hall} {row : Nat} (hn : (h.tally row).items = []) : h.settleWaiting row = h := by
  rw [Hall.settleWaiting, hn]
  rfl

theorem noReferee_of_nil {h : Hall} {row : Nat} (hn : (h.tally row).items = []) : h.noReferee row = h :=
  noReferee_of_candidates fun c hc => by simp [hn] at hc

/-! ### Elapsed ticks (R239) -/

/-- A fold whose step maps what it sees of its own place, and leaves every other place alone, maps what is seen of each of its places. -/
theorem foldl_each {α : Type} {look : Hall → Nat → α} {f : Hall → Nat → Hall} {g : α → α} (hs : ∀ h i, look (f h i) i = g (look h i))
    (ho : ∀ h i j, j ≠ i → look (f h i) j = look h j) (l : List Nat) (hl : l.Nodup) (h : Hall) {i : Nat} (hi : i ∈ l) :
    look (l.foldl f h) i = g (look h i) := by
  induction l generalizing h with
  | nil => contradiction
  | cons x l ih =>
    obtain ⟨hx, hl⟩ := List.nodup_cons.1 hl
    have hout := fun h => (foldl_reaches (P := fun _ => True) (fun _ _ => trivial) ho l h).2 i
    rcases List.mem_cons.1 hi with rfl | hi
    · exact (hout _ hx).trans (hs h i)
    · exact (ih hl _ hi).trans (congrArg g (ho _ _ _ fun e => hx (e ▸ hi)))

theorem gooseSet_frame (h : Hall) (f : Fld) (b : Bool) (hf : f.info.blk = .goose) :
    Frame h (h.gooseSet f b) [] fun g _ => g.info.blk = .goose :=
  (setF_frame _ _ _ _ _ _ hf).trans (setF_frame _ _ _ _ _ _ hf)

/-- The output stages age in their own registers. -/
theorem gooseAge_frame (h : Hall) : Frame h h.gooseAge [] fun g _ => g.info.blk = .goose := by
  have hlive (g : Hall) (half : Hub) : Frame g (g.setGooseLive half false) [] fun g _ => g.info.blk = .goose := by
    cases half <;> exact gooseSet_frame _ _ _ (by decide)
  have hone (g : Hall) (half : Hub) :
      Frame g (if g.gooseLive half && !g.gooseFresh half then g.setGooseLive half false else g) [] fun g _ => g.info.blk = .goose := by
    split
    · exact hlive ..
    · exact .refl ..
  exact ((hone h .a).trans (hone _ .b)).trans (gooseSet_frame _ _ _ (by decide))

/-- The counts of both hubs go on, and the output stages age. -/
def Hall.rtcPassed (h : Hall) (ticks : Nat) : Hall :=
  ([0, 1].foldl (fun h u => h.setF .rtcCountTicks u (h.getF .rtcCountTicks u + ticks)) h).gooseAge

theorem rtcPassed_frame (h : Hall) (ticks : Nat) :
    Frame h (h.rtcPassed ticks) [] fun f _ => f = .rtcCountTicks ∨ f.info.blk = .goose :=
  (Frame.foldl _ (fun g u => setF_frame _ _ _ _ _ _ (.inl rfl)) [0, 1] h).trans ((gooseAge_frame _).mono (by simp) fun _ _ => .inr)

theorem rtcPassed_ticks (h : Hall) (ticks : Nat) {u : Nat} (hu : u = 0 ∨ u = 1) :
    (h.rtcPassed ticks).getF .rtcCountTicks u = (h.getF .rtcCountTicks u + ticks) % 2 ^ Fld.rtcCountTicks.width := by
  refine ((gooseAge_frame _).2 _ _ (show Fld.rtcCountTicks.info.blk ≠ .goose by decide)).trans
    (foldl_each (look := fun h u => h.getF .rtcCountTicks u) (g := fun n => (n + ticks) % 2 ^ Fld.rtcCountTicks.width) (fun h i => ?_) (fun h i j hj => ?_) [0, 1] (by simp) h (by simpa using hu))
  · exact getF_setF_same ..
  · exact getF_setF_unit _ _ _ _ _ _ hj

/-- The running totals of a stall take the ticks that passed. -/
def Hall.stallAged (ticks : Nat) (h : Hall) (i : Nat) : Hall :=
  if h.stallRetired i then h
  else
    h.updTotals i fun x =>
      { observed := x.observed + (if h.getF .tallyStallState i = 1 then ticks else 0), packAge := x.packAge + ticks }

/-- Age of a stall's last full pack run, and whether the stall is retired. -/
def Hall.packAgeOf (h : Hall) (i : Nat) : Nat × Bool := ((Tab.get ({} : StallTotals) h.checks.totals i).packAge, h.stallRetired i)

theorem stallAged_packAge_same (ticks : Nat) (h : Hall) (i : Nat) :
    (h.stallAged ticks i).packAgeOf i = ((h.packAgeOf i).1 + (if (h.packAgeOf i).2 then 0 else ticks), (h.packAgeOf i).2) := by
  unfold Hall.stallAged
  split
  · next hr => rw [show (h.packAgeOf i).2 = true from hr]; exact Prod.ext rfl hr
  · next hr =>
    have hret : (h.packAgeOf i).2 = false := by simpa [Hall.packAgeOf] using hr
    rw [hret]
    exact Prod.ext (congrArg StallTotals.packAge (Tab.get_set_same _ _ _ _)) hret

theorem stallAged_packAge_ne (ticks : Nat) (h : Hall) (i j : Nat) (hj : j ≠ i) : (h.stallAged ticks i).packAgeOf j = h.packAgeOf j := by
  unfold Hall.stallAged
  split
  · rfl
  · exact Prod.ext (congrArg StallTotals.packAge (Tab.get_set_ne _ _ _ _ _ hj)) rfl

theorem stallAged_frame (ticks : Nat) (h : Hall) (i : Nat) : Frame h (h.stallAged ticks i) [.checks] noReg := by
  unfold Hall.stallAged
  split
  · exact .refl ..
  · exact updTotals_frame ..

/-- The watch of a row takes the ticks that passed. -/
def Hall.watchAged (ticks : Nat) (h : Hall) (r : Nat) : Hall :=
  let n := if (h.tally r).watch then Tab.get 0 h.checks.watchTicks r + ticks else Tab.get 0 h.checks.watchTicks r
  { h with checks.watchTicks := if n = 0 then Tab.erase h.checks.watchTicks r else Tab.set h.checks.watchTicks r n }

/-- The standby MP takes a copy of the totals. -/
def Hall.totalsCopied (h : Hall) : Hall :=
  if (h.mp (otherHub h.govHub)).state = .ready then { h with checks.standbyTotals := h.checks.totals } else h

theorem checks_frame (h : Hall) (c : Checks) : Frame h { h with checks := c } [.checks] noReg :=
  frame_of_parts (fun p hp => by cases p <;> simp_all [Part.same]) rfl

theorem totalsCopied_spec (h : Hall) : Frame h h.totalsCopied [.checks] noReg ∧ h.totalsCopied.checks.totals = h.checks.totals := by
  unfold Hall.totalsCopied
  split
  · exact ⟨checks_frame _ _, rfl⟩
  · exact ⟨.refl .., rfl⟩

/-- The totals of every stall and watch take the ticks that passed. -/
def Hall.totalsAged (h : Hall) (ticks : Nat) : Hall :=
  ((List.range 8).foldl (Hall.watchAged ticks) ((List.range 128).foldl (Hall.stallAged ticks) h)).totalsCopied

theorem totalsAged_frame (h : Hall) (ticks : Nat) : Frame h (h.totalsAged ticks) [.checks] noReg :=
  ((Frame.foldl _ (stallAged_frame ticks) _ h).trans (Frame.foldl _ (fun _ _ => checks_frame _ _) _ _)).trans (totalsCopied_spec _).1

theorem totalsAged_packAge (h : Hall) (ticks : Nat) {i : Nat} (hi : i < 128) :
    (Tab.get ({} : StallTotals) (h.totalsAged ticks).checks.totals i).packAge =
      (Tab.get ({} : StallTotals) h.checks.totals i).packAge + (if h.stallRetired i then 0 else ticks) := by
  have hwatch (g : Hall) : ((List.range 8).foldl (Hall.watchAged ticks) g).checks.totals = g.checks.totals :=
    foldl_same (fun g : Hall => g.checks.totals) (Hall.watchAged ticks) (fun _ _ => rfl) _ g
  have hage := foldl_each (look := Hall.packAgeOf) (g := fun p => (p.1 + (if p.2 then 0 else ticks), p.2)) (stallAged_packAge_same ticks)
    (stallAged_packAge_ne ticks) (List.range 128) List.nodup_range h (List.mem_range.2 hi)
  unfold Hall.totalsAged
  generalize (List.range 128).foldl (Hall.stallAged ticks) h = aged at hage
  rw [(totalsCopied_spec _).2, hwatch]
  exact congrArg Prod.fst hage

theorem tickTotalsAdd_becomes (s : State) (ticks : Nat) : Becomes (.tickTotalsAdd ticks) s
    (if (s.hall.rtcPassed ticks).governing.isNone then s.hall.rtcPassed ticks else (s.hall.rtcPassed ticks).totalsAged ticks) := by
  change execTickTotalsAdd ticks s = _
  unfold execTickTotalsAdd
  rw [run_next]
  refine congrArg (fun g => (.next ⟨g, s.pending⟩ : Host.Outcome State Fault Refusal)) ?_
  extract_lets g g₁ g₂ checks
  have hg : g = s.hall.rtcPassed ticks := rfl
  have hg₁ : g₁ = (List.range 128).foldl (Hall.stallAged ticks) g := rfl
  have hg₂ : g₂ = (List.range 8).foldl (Hall.watchAged ticks) g₁ := rfl
  have hcopied : (if (g₂.mp (otherHub g₂.govHub)).state = .ready then { g₂ with checks.standbyTotals := g₂.checks.totals } else g₂) =
      g.totalsAged ticks := by
    rw [Hall.totalsAged, ← hg₁, ← hg₂]
    rfl
  rw [← hg]
  exact if_congr Iff.rfl rfl hcopied

end Sys2Proof.Machine
end

section
/-! PROOFS. Settles O48, continued: observation, watches, pack runs and pattern tests (R240, R244, R245, Tables 9.6 and 9.8). -/

namespace Sys2Proof.Machine

/-! ### Observation and watches (R240, Table 9.6) -/

/-- A stall whose observation ends is healthy, with the override of its row's watch. -/
def Hall.observed (h : Hall) (row i : Nat) : Hall :=
  h.setFs i [(.tallyStallState, 0), (.tallyStallStrikes, 0), (.tallyStallFOvr, if (h.tally row).watch then 7 else 0)]

theorem observed_fields (h : Hall) (row i : Nat) : (h.observed row i).getF .tallyStallState i = 0 ∧
    (h.observed row i).getF .tallyStallStrikes i = 0 ∧
    (h.observed row i).getF .tallyStallFOvr i = if (h.tally row).watch then 7 else 0 := by
  refine ⟨getF_setFs (v := 0) _ h i (by simp) (by simp), getF_setFs (v := 0) _ h i (by simp) (by simp), ?_⟩
  refine (getF_setFs (v := if (h.tally row).watch then 7 else 0) _ h i (by simp) (by simp)).trans ?_
  split <;> rfl

/-- The end of an observation is latched and recorded. -/
def Hall.observationLogged (h : Hall) (row i : Nat) : Hall :=
  let h := ((h.observed row i).latchVerdict row 10 i none none 0 0 0).stallRedesignate i
  h.addRecord row i (h.withState i { seq := 0, hub := .a, ticks := 0, kind := 10, pen := 255, computing := some i })

theorem observationLogged_frame (h : Hall) (row i : Nat) :
    Frame ((h.observed row i).latchVerdict row 10 i none none 0 0 0) (h.observationLogged row i) recordParts (orReg roleReg postReg) := by
  unfold Hall.observationLogged
  dsimp only
  exact ((stallRedesignate_frame ..).mono (by simp) fun _ _ => .inl).trans ((addRecord_frame ..).mono (fun _ => id) fun _ _ => .inr)

/-- What the record of an observation's end leaves of the stall's check state. -/
theorem observationLogged_getF (h : Hall) (row i : Nat) {f : Fld} (hf : f ∈ [Fld.tallyStallState, .tallyStallStrikes, .tallyStallFOvr]) :
    (h.observationLogged row i).getF f i = (h.observed row i).getF f i := by
  simp only [List.mem_cons, List.not_mem_nil, or_false] at hf
  refine ((observationLogged_frame h row i).2 _ _ ?_).trans ((latchVerdict_frame ..).2 _ _ ?_)
  · rcases hf with rfl | rfl | rfl <;> simp [orReg, roleReg, postReg]
  · rcases hf with rfl | rfl | rfl <;> simp [regsOf, tallyLastFields]

theorem observationLogged_kind (h : Hall) (row i : Nat) : (h.observationLogged row i).getF .tallyLastVerdictKind row = 10 :=
  ((observationLogged_frame h row i).2 _ _ (by simp [orReg, roleReg, postReg])).trans (latchVerdict_spec _ _ _ _ _ _ _ _ _ (by decide)).1

/-- A stall that is not under observation loses its override when the row's watch ends. -/
def Hall.unwatched (h : Hall) (i : Nat) : Hall :=
  if h.getF .tallyStallState i = 0 then (h.setF .tallyStallFOvr i 0).stallRedesignate i else h

/-- State and override of a stall. -/
def Hall.overrideOf (h : Hall) (i : Nat) : Nat × Nat := (h.getF .tallyStallState i, h.getF .tallyStallFOvr i)

theorem stallRedesignate_overrideOf (h : Hall) (i j : Nat) : (h.stallRedesignate i).overrideOf j = h.overrideOf j :=
  Prod.ext ((stallRedesignate_frame h i).2 _ _ (by simp [roleReg])) ((stallRedesignate_frame h i).2 _ _ (by simp [roleReg]))

theorem unwatched_overrideOf_same (h : Hall) (i : Nat) :
    (h.unwatched i).overrideOf i = ((h.overrideOf i).1, if (h.overrideOf i).1 = 0 then 0 else (h.overrideOf i).2) := by
  unfold Hall.unwatched
  split
  · next h0 =>
    have hzero : (h.overrideOf i).1 = 0 := h0
    rw [stallRedesignate_overrideOf, if_pos hzero]
    exact Prod.ext (getF_setF_fld _ _ _ _ _ _ (by decide)) (getF_setF_same ..)
  · next h0 =>
    have hzero : (h.overrideOf i).1 ≠ 0 := h0
    rw [if_neg hzero]

theorem unwatched_overrideOf_ne (h : Hall) (i j : Nat) (hj : j ≠ i) : (h.unwatched i).overrideOf j = h.overrideOf j := by
  unfold Hall.unwatched
  split
  · rw [stallRedesignate_overrideOf]
    exact Prod.ext (getF_setF_unit _ _ _ _ _ _ hj) (getF_setF_unit _ _ _ _ _ _ hj)
  · rfl

theorem unwatched_data (h : Hall) (i : Nat) : (h.unwatched i).data = h.data := by
  unfold Hall.unwatched
  split
  · exact (stallRedesignate_frame _ i).1 .data (by simp)
  · rfl

/-- The watch of a row ends. -/
def Hall.watchEnded (h : Hall) (row : Nat) : Hall :=
  ((List.range 16).map (16 * row + ·)).foldl Hall.unwatched (h.updTally row fun t => { t with watch := false })

theorem watchEnded_spec (h : Hall) (row : Nat) (x : Fin 16) :
    ((h.watchEnded row).tally row).watch = false ∧ (h.watchEnded row).getF .tallyStallFOvr (16 * row + x.val) =
      if h.getF .tallyStallState (16 * row + x.val) = 0 then 0 else h.getF .tallyStallFOvr (16 * row + x.val) := by
  constructor
  · have hdata := foldl_same (fun g : Hall => g.data) Hall.unwatched unwatched_data ((List.range 16).map (16 * row + ·))
      (h.updTally row fun t => { t with watch := false })
    rw [Hall.watchEnded, tally_of_data hdata, tally_updTally_same]
  · have hstalls := foldl_each (look := Hall.overrideOf) (g := fun p => (p.1, if p.1 = 0 then 0 else p.2)) unwatched_overrideOf_same
      unwatched_overrideOf_ne ((List.range 16).map (16 * row + ·)) (List.nodup_range.map fun a b e => Nat.add_left_cancel e)
      (h.updTally row fun t => { t with watch := false }) (List.mem_map.2 ⟨x.val, List.mem_range.2 x.isLt, rfl⟩)
    unfold Hall.watchEnded
    generalize ((List.range 16).map (16 * row + ·)).foldl Hall.unwatched _ = ended at hstalls
    exact congrArg Prod.snd hstalls

theorem rowWatchExpire_becomes {s : State} {row : Fin 8} (hw : (s.hall.tally row).watch = true)
    (hd : dayTicks ≤ Tab.get 0 s.hall.checks.watchTicks row) : Becomes (.rowWatchExpire row) s (s.hall.watchEnded row) := by
  change execRowWatchExpire row s = _
  rw [execRowWatchExpire, run_next, if_pos ⟨hw, hd⟩, Hall.watchEnded, List.foldl_map]
  rfl

/-! ### Pack runs and pattern tests (R244, R245, Table 9.8) -/

theorem setF_stall (h : Hall) (f : Fld) (u v i : Nat) : (h.setF f u v).stall i = h.stall i := rfl

theorem updTotals_stall (h : Hall) (i j : Nat) (f : StallTotals → StallTotals) : (h.updTotals i f).stall j = h.stall j := rfl

/-- A pack run that falls due where none goes on. -/
theorem packDue_of_idle {h : Hall} {i : Nat} {p : Pack} (hp : h.checks.pack = some p) (hn : (h.stall i).packRun = none)
    (hr : h.stallRetired i = false) : h.packDue i =
      (((h.updStall i fun x => { x with packRun := some (List.range p.ntest), packStart := 0, packFailed := false }).setF
        .tallyStallTestDue i 1).updTotals i fun x => { x with packAge := 0 }) := by
  simp [Hall.packDue, hp, hn, hr]

theorem packDue_runs {h : Hall} {i : Nat} {p : Pack} (hp : h.checks.pack = some p) (hn : (h.stall i).packRun = none)
    (hr : h.stallRetired i = false) : ((h.packDue i).stall i).packRun = some (List.range p.ntest) ∧
      (h.packDue i).getF .tallyStallTestDue i = 1 ∧ (h.packDue i).mem = h.mem := by
  refine ⟨?_, ?_, (packDue_frame h i).mem_eq (by simp)⟩
  · rw [packDue_of_idle hp hn hr]
    rw [updTotals_stall, setF_stall, updStall_stall_same]
  · rw [packDue_of_idle hp hn hr]
    exact getF_setF_same _ .tallyStallTestDue i 1

/-- The registers that the end of a pattern test may change, but for the verdict shown and the counts. -/
def testReg (i : Nat) (f : Fld) (u : Nat) : Prop :=
  strikeReg i f u ∨ postReg f u ∨ regsOf i [.tallyStallTestDue, .tallyStallSinceTest, .tallyStallSat] f u

theorem packStep_frame (h : Hall) (i t : Nat) (failed : Bool) :
    Frame h (h.packStep i t failed) [.data] (regsOf i [.tallyStallTestDue, .tallyStallSinceTest, .tallyStallSat]) := by
  have hset (g : Hall) (f : Fld) (v : Nat) (hf : f ∈ [Fld.tallyStallTestDue, .tallyStallSinceTest, .tallyStallSat]) :
      Frame g (g.setF f i v) [.data] (regsOf i [.tallyStallTestDue, .tallyStallSinceTest, .tallyStallSat]) :=
    setF_frame _ _ _ _ _ _ ⟨rfl, hf⟩
  unfold Hall.packStep
  split
  · exact .refl ..
  dsimp only
  split
  · have hdue (f : Stall → Stall) := (updStall_frame h i f [.data] (regsOf i [.tallyStallTestDue, .tallyStallSinceTest, .tallyStallSat])
      (by simp)).trans (hset _ .tallyStallTestDue 0 (by simp))
    split
    · exact hdue _
    · exact ((hdue _).trans (hset _ _ _ (by simp))).trans (hset _ _ _ (by simp))
  · exact updStall_frame _ _ _ _ _ (by simp)

/-- A pack run that goes on or ends leaves the test of its stall as it is. -/
theorem packStep_test (h : Hall) (i t : Nat) (failed : Bool) : ((h.packStep i t failed).stall i).test = (h.stall i).test := by
  unfold Hall.packStep
  split
  · rfl
  dsimp only
  split
  · split
    · rw [setF_stall, updStall_stall_same]
    · rw [setF_stall, setF_stall, setF_stall, updStall_stall_same]
  · rw [updStall_stall_same]

theorem probeSettle_frame (h : Hall) (k : Nat) : Frame h (h.probeSettle k) (.checks :: postParts) postReg := by
  unfold Hall.probeSettle
  split
  · exact .refl ..
  split
  · exact .refl ..
  · exact ((checks_frame _ _).mono (by simp) fun _ _ => False.elim).trans ((closeOp_frame ..).mono 
      (fun _ => List.mem_cons_of_mem _) fun _ _ => id)

theorem probeStep_frame (h : Hall) (i t : Nat) (failed : Bool) : Frame h (h.probeStep i t failed) (.checks :: postParts) postReg :=
  ((checks_frame _ _).mono (by simp) fun _ _ => False.elim).trans (Frame.foldl _ (fun g (e : Nat × Probe) => probeSettle_frame g e.1) _ _)

/-- A test of a stall is over, for its pack run and for the probes that named it. -/
def Hall.testOver (h : Hall) (i t : Nat) (failed : Bool) : Hall := (h.packStep i t failed).probeStep i t failed

theorem testOver_frame (h : Hall) (i t : Nat) (failed : Bool) : Frame h (h.testOver i t failed) (.data :: recordParts) (testReg i) :=
  ((packStep_frame ..).mono (by simp) fun _ _ hf => .inr (.inr hf)).trans
    ((probeStep_frame ..).mono (by simp [recordParts, postParts]) fun _ _ hf => .inr (.inl hf))

theorem testOver_test (h : Hall) (i t : Nat) (failed : Bool) : ((h.testOver i t failed).stall i).test = (h.stall i).test :=
  (congrArg Stall.test ((probeStep_frame ..).stall_eq (by simp [postParts]) i)).trans (packStep_test ..)

/-- The count of a row's tests, once one has ended. -/
def Hall.testCounted (h : Hall) (row : Nat) (failed : Bool) : Hall := (h.bump .tallyTestsRun row).bump .tallyTestsFailed row (b2n failed)

theorem testCounted_count {h : Hall} {row : Nat} (hlt : h.getF (.count .tallyTestsRun) row < Ctr.tallyTestsRun.top) (failed : Bool) :
    (h.testCounted row failed).getF (.count .tallyTestsRun) row = h.getF (.count .tallyTestsRun) row + 1 := by
  rw [Hall.testCounted, getF_bump_ne _ _ _ _ _ _ (by decide) (by decide), getF_count_bump _ _ _ _ hlt.le]
  omega

/-- The test that a stall holds is replaced. -/
def Hall.setTest (h : Hall) (i : Nat) (t : Option PackTest) : Hall := h.updStall i fun x => { x with test := t }

theorem setTest_test (h : Hall) (i : Nat) (t : Option PackTest) : ((h.setTest i t).stall i).test = t :=
  congrArg Stall.test (updStall_stall_same ..)

/-- What follows a latched verdict leaves the verdict and the count of tests. -/
theorem testLatched {h h' : Hall} {row kind i : Nat} (hk : kind < 16)
    (f : Frame (h.latchVerdict row kind i none none 0 0 0) h' (.data :: recordParts) (testReg i)) :
    h'.getF .tallyLastVerdictKind row = kind ∧ h'.getF (.count .tallyTestsRun) row = h.getF (.count .tallyTestsRun) row :=
  ⟨(f.2 _ _ (by simp [testReg, strikeReg, regsOf, roleReg, postReg])).trans (latchVerdict_spec _ _ _ _ _ _ _ _ _ hk).1,
    (f.2 _ _ (by simp [testReg, strikeReg, regsOf, roleReg, postReg])).trans
      ((latchVerdict_frame ..).2 _ _ (by simp [regsOf, tallyLastFields]))⟩

theorem addRecord_stall (h : Hall) (row i : Nat) (r : SigRecord) (j : Nat) : (h.addRecord row i r).stall j = h.stall j :=
  (addRecord_frame ..).stall_eq (by simp [recordParts, postParts]) j

theorem addRecord_testFrame (h : Hall) (row i : Nat) (r : SigRecord) : Frame h (h.addRecord row i r) (.data :: recordParts) (testReg i) :=
  (addRecord_frame ..).mono (fun _ => List.mem_cons_of_mem _) fun _ _ hp => .inr (.inl hp)

/-- A stall is judged by a test, and the verdict's record is made. -/
def Hall.testRecorded (h : Hall) (row i : Nat) (t : PackTest) (failed : Bool) (digests : List (Nat × Nat)) : Hall :=
  let h := h.judge i (!failed)
  h.addRecord row i (h.withState i (testRecord t (if failed then 8 else 7) i digests))

section
variable {s : State} {row : Fin 8} {x : Fin 16} {t : PackTest} {fault : BitVec 64} {failed : Bool}

/-- The second run of a test judges its stall (R245). -/
theorem patternTestEnd_judges (ht : (s.hall.stall (16 * row.val + x.val)).test = some t) (ha : t.again = true)
    (hf : decide (Config.testDigest t.body % 2 ^ 64 ^^^ fault.toNat ≠ t.expect) = failed) :
    Becomes (.patternTestEnd row x fault) s
      (((((s.hall.testCounted row failed).setTest (16 * row.val + x.val) none).latchVerdict row (if failed then 8 else 7)
        (16 * row.val + x.val) none none 0 0 0).testRecorded row (16 * row.val + x.val) t failed
          [(4, Config.testDigest t.body % 2 ^ 64 ^^^ fault.toNat), (5, t.expect)]).testOver (16 * row.val + x.val) t.idx true) := by
  change execPatternTestEnd row x fault s = _
  cases failed <;> simp only [execPatternTestEnd, run_next, ht, ha, hf, Hall.judge, Hall.testOver, Hall.testRecorded, Hall.setTest,
    Hall.testCounted, Bool.not_true, Bool.not_false, ↓reduceIte, Bool.false_eq_true]

/-- The first run of a test that fails is KIND 9, and the test runs again. -/
theorem patternTestEnd_again (ht : (s.hall.stall (16 * row.val + x.val)).test = some t) (ha : t.again = false)
    (hf : decide (Config.testDigest t.body % 2 ^ 64 ^^^ fault.toNat ≠ t.expect) = true) :
    Becomes (.patternTestEnd row x fault) s
      ((((s.hall.testCounted row true).setTest (16 * row.val + x.val) (some { t with again := true })).latchVerdict row 9
        (16 * row.val + x.val) none none 0 0 0).addRecord row (16 * row.val + x.val)
          (((s.hall.testCounted row true).setTest (16 * row.val + x.val) (some { t with again := true })).withState (16 * row.val + x.val)
            (testRecord t 9 (16 * row.val + x.val) [(1, Config.testDigest t.body % 2 ^ 64 ^^^ fault.toNat), (5, t.expect)]))) := by
  change execPatternTestEnd row x fault s = _
  simp only [execPatternTestEnd, run_next, ht, ha, hf, Hall.setTest, Hall.testCounted, ↓reduceIte, Bool.false_eq_true]

/-- A test that passes at once is over. -/
theorem patternTestEnd_passes (ht : (s.hall.stall (16 * row.val + x.val)).test = some t) (ha : t.again = false)
    (hf : decide (Config.testDigest t.body % 2 ^ 64 ^^^ fault.toNat ≠ t.expect) = false) :
    Becomes (.patternTestEnd row x fault) s
      (((s.hall.testCounted row false).setTest (16 * row.val + x.val) none).testOver (16 * row.val + x.val) t.idx false) := by
  change execPatternTestEnd row x fault s = _
  simp only [execPatternTestEnd, run_next, ht, ha, hf, Hall.testOver, Hall.setTest, Hall.testCounted, ↓reduceIte, Bool.false_eq_true]

/-- What the end of a test leaves behind: the test over or to run again, one more count, and the verdict shown of a test that fails first
and of a second run. -/
def Hall.TestEnded (h h' : Hall) (row i : Nat) (t : PackTest) (failed : Bool) : Prop :=
  (h'.stall i).test = (if failed = true ∧ t.again = false then some { t with again := true } else none) ∧
    (h.getF (.count .tallyTestsRun) row < Ctr.tallyTestsRun.top →
      h'.getF (.count .tallyTestsRun) row = h.getF (.count .tallyTestsRun) row + 1) ∧
    (failed = true ∨ t.again = true → h'.getF .tallyLastVerdictKind row = if t.again then (if failed then 8 else 7) else 9)

end

section
variable (h : Hall) (row i : Nat) (t : PackTest)

theorem testJudged_ended (ha : t.again = true) (failed : Bool) (digests : List (Nat × Nat)) (u : Nat) :
    h.TestEnded (((((h.testCounted row failed).setTest i none).latchVerdict row (if failed then 8 else 7) i none none 0 0 0).testRecorded
      row i t failed digests).testOver i u true) row i t failed := by
  have hframe (g : Hall) : Frame g ((g.testRecorded row i t failed digests).testOver i u true) (.data :: recordParts) (testReg i) :=
    (((judge_frame ..).mono (by simp [recordParts]) fun _ _ => .inl).trans (addRecord_testFrame ..)).trans (testOver_frame ..)
  obtain ⟨hkind, hcount⟩ := testLatched (h := (h.testCounted row failed).setTest i none) (kind := if failed then 8 else 7)
    (by split <;> decide) (hframe _)
  refine ⟨?_, fun hlt => hcount.trans (testCounted_count hlt failed), fun _ => hkind.trans (if_pos ha).symm⟩
  rw [testOver_test, Hall.testRecorded, addRecord_stall, (judge_frame ..).stall_eq (by simp), (latchVerdict_frame ..).stall_eq (by simp),
    setTest_test, if_neg (by simp [ha])]

theorem testFailed_ended (ha : t.again = false) (r : SigRecord) :
    h.TestEnded ((((h.testCounted row true).setTest i (some { t with again := true })).latchVerdict row 9 i none none 0 0 0).addRecord
      row i r) row i t true := by
  obtain ⟨hkind, hcount⟩ := testLatched (h := (h.testCounted row true).setTest i (some { t with again := true })) (row := row) (kind := 9)
    (by decide) (addRecord_testFrame _ row i r)
  refine ⟨?_, fun hlt => hcount.trans (testCounted_count hlt true), fun _ => hkind.trans (if_neg (by simp [ha])).symm⟩
  rw [addRecord_stall, (latchVerdict_frame ..).stall_eq (by simp), setTest_test, if_pos ⟨rfl, ha⟩]

theorem testPassed_ended (ha : t.again = false) (u : Nat) :
    h.TestEnded (((h.testCounted row false).setTest i none).testOver i u false) row i t false := by
  have hcount := (testOver_frame ((h.testCounted row false).setTest i none) i u false).2 (.count .tallyTestsRun) row
    (by simp [testReg, strikeReg, regsOf, roleReg, postReg])
  refine ⟨?_, fun hlt => hcount.trans (testCounted_count hlt false), by simp [ha]⟩
  rw [testOver_test, setTest_test, if_neg (by simp)]

end

/-- The end of a test is counted; the test is over, or runs again if it failed for the first time. -/
theorem patternTestEnd_ended {s : State} {row : Fin 8} {x : Fin 16} {t : PackTest} {fault : BitVec 64}
    (ht : (s.hall.stall (16 * row.val + x.val)).test = some t) : Gives (.patternTestEnd row x fault) s fun h' =>
      s.hall.TestEnded h' row (16 * row.val + x.val) t (decide (Config.testDigest t.body % 2 ^ 64 ^^^ fault.toNat ≠ t.expect)) := by
  cases ha : t.again with
  | true => exact ⟨_, patternTestEnd_judges ht ha rfl, testJudged_ended _ _ _ _ ha _ _ _⟩
  | false =>
    cases hf : decide (Config.testDigest t.body % 2 ^ 64 ^^^ fault.toNat ≠ t.expect) with
    | true => exact ⟨_, patternTestEnd_again ht ha hf, testFailed_ended _ _ _ _ ha _⟩
    | false => exact ⟨_, patternTestEnd_passes ht ha hf, testPassed_ended _ _ _ _ ha _⟩

/-! ### The statement, clause by clause -/

section
variable {s : State} {row : Fin 8} {x : Fin 16}

theorem tallySelftestGo_eq (s : State) (req : Requester) (row : Fin 8) :
    exec (.tallySelftestGo req row) s = s.board req fun h => h.updTally row fun t => { t with goDue := true } := rfl

/-- The end of a self-test clears SELFTEST and shows its outcome, a failure as KIND 11 where no step waits. -/
theorem selftestEnd_shown (failed : Bool) (hself : s.hall.selftest row = true) (hgo : (s.hall.tally row).goDue = false) :
    Gives (.selftestEnd row failed) s fun h' =>
      h'.getF .tallyStatusSelftest row = 0 ∧ h'.getF .tallyStatusFailed row = b2n failed ∧
      (failed = true → (s.hall.tally row).items = [] → h'.getF .tallyLastVerdictKind row = 11) := by
  obtain ⟨hover, hfailed, -⟩ := (settleWaiting_over (selftestShown_over s.hall row failed hgo) row).noReferee row
  refine ⟨_, selftestEnd_becomes hself failed, hover, hfailed, fun hf hnil => ?_⟩
  subst hf
  obtain ⟨hkind, hitems⟩ := selftestShown_failed s.hall row
  rw [settleWaiting_of_nil (hitems.trans hnil), noReferee_of_nil (hitems.trans hnil)]
  exact hkind

/-- Ticks that pass are added to the counts, and to the ages where an MP governs. -/
theorem tickTotalsAdd_adds (s : State) (ticks : Nat) : Gives (.tickTotalsAdd ticks) s fun h' =>
    (∀ u, u = 0 ∨ u = 1 → h'.getF .rtcCountTicks u = (s.hall.getF .rtcCountTicks u + ticks) % 2 ^ Fld.rtcCountTicks.width) ∧
    (s.hall.governing.isSome = true → ∀ i, i < 128 →
      (Tab.get ({} : StallTotals) h'.checks.totals i).packAge = (Tab.get ({} : StallTotals) s.hall.checks.totals i).packAge +
        (if s.hall.stallRetired i then 0 else ticks)) ∧
    h'.data = s.hall.data ∧ h'.mem = s.hall.mem := by
  have hpassed := rtcPassed_frame s.hall ticks
  have hgov : (s.hall.rtcPassed ticks).governing = s.hall.governing := hpassed.governing_eq fun _ => by decide
  have hadd := tickTotalsAdd_becomes s ticks
  rw [hgov] at hadd
  by_cases hnone : s.hall.governing.isNone = true
  · rw [if_pos hnone] at hadd
    refine ⟨_, hadd, fun u hu => rtcPassed_ticks s.hall ticks hu, fun hsome => ?_, hpassed.1 .data (by simp), hpassed.mem_eq (by simp)⟩
    simp [Option.isNone_iff_eq_none.1 hnone] at hsome
  · rw [if_neg hnone] at hadd
    have haged := totalsAged_frame (s.hall.rtcPassed ticks) ticks
    have hstate : ¬ (Fld.tallyStallState = .rtcCountTicks ∨ Fld.tallyStallState.info.blk = .goose) := by decide
    have hret (i : Nat) : (s.hall.rtcPassed ticks).stallRetired i = s.hall.stallRetired i := by
      rw [Hall.stallRetired, Hall.stallRetired, hpassed.2 _ _ hstate]
    refine ⟨_, hadd, fun u hu => (haged.2 _ _ not_false).trans (rtcPassed_ticks s.hall ticks hu), fun _ i hi => ?_,
      (haged.1 .data (by simp)).trans (hpassed.1 .data (by simp)), (haged.mem_eq (by simp)).trans (hpassed.mem_eq (by simp))⟩
    rw [totalsAged_packAge _ _ hi, hret, hpassed.1 .checks (by simp)]

/-- The totals are saved where an MP governs. -/
theorem tickTotalsSave_saves (s : State) :
    (s.hall.governing = none → Becomes .tickTotalsSave s s.hall) ∧
    (s.hall.governing.isSome = true → Gives .tickTotalsSave s fun h' =>
      h'.checks.savedTotals = s.hall.checks.totals ∧ Frame s.hall h' [.checks] noReg) := by
  have hsave : Becomes .tickTotalsSave s
      (if s.hall.governing.isNone then s.hall else { s.hall with checks.savedTotals := s.hall.checks.totals }) := rfl
  refine ⟨fun hnone => ?_, fun hsome => ?_⟩
  · rwa [if_pos (by simp [hnone])] at hsave
  · rw [if_neg (by simpa [Option.isNone_iff_eq_none, Option.isSome_iff_ne_none] using hsome)] at hsave
    exact ⟨_, hsave, rfl, checks_frame _ _⟩

/-- A stall is well again after 24 hours of observation with its last pack run passed. -/
def Hall.stallWell (h : Hall) (i : Nat) : Prop :=
  h.getF .tallyStallState i = 1 ∧ dayTicks ≤ (Tab.get ({} : StallTotals) h.checks.totals i).observed ∧ (h.stall i).lastPackPassed = true

theorem observationClear_clears (hw : s.hall.stallWell (16 * row.val + x.val)) : Gives (.observationClear row x) s fun h' =>
    h'.getF .tallyStallState (16 * row.val + x.val) = 0 ∧ h'.getF .tallyStallStrikes (16 * row.val + x.val) = 0 ∧
    h'.getF .tallyLastVerdictKind row = 10 ∧
    h'.getF .tallyStallFOvr (16 * row.val + x.val) = if (s.hall.tally row).watch then 7 else 0 := by
  obtain ⟨hstate, hstrikes, hfovr⟩ := observed_fields s.hall row (16 * row.val + x.val)
  refine ⟨s.hall.observationLogged row (16 * row.val + x.val), ?_, ?_, ?_, observationLogged_kind .., ?_⟩
  · change execObservationClear row x s = _
    exact congrArg (fun g => (.next ⟨g, s.pending⟩ : Host.Outcome State Fault Refusal)) (if_pos hw)
  · rw [observationLogged_getF _ _ _ (by simp), hstate]
  · rw [observationLogged_getF _ _ _ (by simp), hstrikes]
  · rw [observationLogged_getF _ _ _ (by simp), hfovr]

theorem observationClear_waits (hw : ¬ s.hall.stallWell (16 * row.val + x.val)) : Becomes (.observationClear row x) s s.hall := by
  change execObservationClear row x s = _
  exact congrArg (fun g => (.next ⟨g, s.pending⟩ : Host.Outcome State Fault Refusal)) (if_neg hw)

theorem rowWatchExpire_waits (hw : (s.hall.tally row).watch = false) : Becomes (.rowWatchExpire row) s s.hall := by
  change execRowWatchExpire row s = _
  simp [execRowWatchExpire, run_next, hw]

/-- A full pack run falls due by the stall's state, role and age (Table 9.8). -/
def Hall.packRunDue (h : Hall) (i : Nat) : Prop :=
  if h.getF .tallyStallState i = 1 then 10000 ≤ h.getF .tallyStallSinceTest i
  else if h.getF .tallyStallRole i = 3 then hourTicks ≤ (Tab.get ({} : StallTotals) h.checks.totals i).packAge
  else (h.getF .tallyStallRole i = 1 ∨ h.getF .tallyStallRole i = 2) ∧
    dayTicks ≤ (Tab.get ({} : StallTotals) h.checks.totals i).packAge

theorem packRunDue_becomes (s : State) (row : Fin 8) (x : Fin 16) :
    (s.hall.packRunDue (16 * row.val + x.val) → Becomes (.packRunDue row x) s (s.hall.packDue (16 * row.val + x.val))) ∧
      (¬ s.hall.packRunDue (16 * row.val + x.val) → Becomes (.packRunDue row x) s s.hall) := by
  have hrun : ∃ due : Bool, (due = true ↔ s.hall.packRunDue (16 * row.val + x.val)) ∧
      Becomes (.packRunDue row x) s (if due then s.hall.packDue (16 * row.val + x.val) else s.hall) := by
    refine ⟨_, ?_, rfl⟩
    unfold Hall.packRunDue
    split_ifs <;> simp [*]
  obtain ⟨due, hdue, hrun⟩ := hrun
  refine ⟨fun h => ?_, fun h => ?_⟩
  · rwa [if_pos (hdue.2 h)] at hrun
  · rwa [if_neg (mt hdue.1 h)] at hrun

/-- A test of a pack, as it starts. -/
def Pack.startTest (p : Pack) (t : Nat) : PackTest :=
  let e := packEntry p.raw t
  { idx := t, again := false, eng := e.eng, pair := e.pair, beats := e.beats, sig := e.sig, expect := e.expect, packId := p.packId,
    version := p.version, body := slice p.raw e.off e.len }

theorem patternTestStart_starts {p : Pack} {t : Nat} (hp : s.hall.checks.pack = some p)
    (ht : s.hall.nextTest (16 * row.val + x.val) = some t) (hm : s.hall.testMoment (16 * row.val + x.val) = true) :
    Gives (.patternTestStart row x) s fun h' =>
      (h'.stall (16 * row.val + x.val)).test.map (fun y => (y.idx, y.again, y.expect)) = some (t, false, (packEntry p.raw t).expect) ∧
      Frame s.hall h' [.data] noReg := by
  have hstart : Becomes (.patternTestStart row x) s (s.hall.setTest (16 * row.val + x.val) (some (p.startTest t))) := by
    change execPatternTestStart row x s = _
    simp only [execPatternTestStart, run_next, hp, ht, hm]
    rfl
  exact ⟨_, hstart, congrArg (Option.map _) (setTest_test ..), updStall_frame _ _ _ _ _ (by simp)⟩

theorem patternTestStart_waits (hw : s.hall.testMoment (16 * row.val + x.val) = false ∨ s.hall.checks.pack = none) :
    Becomes (.patternTestStart row x) s s.hall := by
  change execPatternTestStart row x s = _
  simp only [execPatternTestStart, run_next]
  split
  · next hp _ =>
    rw [or_iff_left (by simp [hp])] at hw
    simp [hw]
  · rfl

theorem patternTestEnd_none (hn : (s.hall.stall (16 * row.val + x.val)).test = none) (fault : BitVec 64) :
    Becomes (.patternTestEnd row x fault) s s.hall := by
  change execPatternTestEnd row x fault s = _
  simp [execPatternTestEnd, run_next, hn]

end

/-- Settles O48: each clause is the rule of its command. -/
theorem selfTestsAndPatternTests : Obligations.SelfTestsAndPatternTests := by
  unfold Obligations.SelfTestsAndPatternTests
  refine ⟨fun s req row => ⟨becomes_of_board (tallySelftestGo_eq s req row), becomes_of_board_refused (tallySelftestGo_eq s req row)⟩,
    fun s row failed => ⟨fun hself => ?_, selftestEnd_shown failed⟩, tickTotalsAdd_adds, tickTotalsSave_saves, fun s row x => ?_⟩
  · change execSelftestEnd row failed s = _
    simp [execSelftestEnd, run_next, hself]
  · refine ⟨observationClear_clears, observationClear_waits, fun hw hd => ⟨_, rowWatchExpire_becomes hw hd, watchEnded_spec s.hall row x⟩,
      rowWatchExpire_waits, fun hdue p hp hn hr => ⟨_, (packRunDue_becomes s row x).1 hdue, packDue_runs hp hn hr⟩,
      (packRunDue_becomes s row x).2, fun p t hp ht hm => patternTestStart_starts hp ht hm, patternTestStart_waits, patternTestEnd_none,
      fun t fault ht => patternTestEnd_ended ht⟩

end Sys2Proof.Machine
end

section
/-! PROOFS. Settles O49: the CHECK commands and LOG_EXPORT (R224, R227, R242, R243, R246, R251, Table 9.11). -/

namespace Sys2Proof.Machine

/-! ### Staged copies leave packs, probes and records alone -/

@[simp] theorem latchMmu_checks (h : Hall) (u cause pen page : Nat) : (h.latchMmu u cause pen page).checks = h.checks := by
  unfold Hall.latchMmu
  split
  · rfl
  · exact setFs_checks ..

@[simp] theorem mmuApply_checks (h : Hall) (u : Nat) : (h.mmuApply u).checks = h.checks := by
  unfold Hall.mmuApply
  split
  · rfl
  · dsimp only
    split <;> split_ifs <;> simp

/-- A translation that a hub keeps is kept in its cache. -/
theorem cacheFill_checks (h : Hall) (hub : Hub) (cached : Bool) (k : Nat) : (if cached then h else
    match hub with
    | .a => { h with tiers.cacheA := k :: h.tiers.cacheA }
    | .b => { h with tiers.cacheB := k :: h.tiers.cacheB }).checks = h.checks := by
  cases cached <;> cases hub <;> rfl

/-- A translation is counted, and where it walks the tables its result is cached. -/
@[simp] theorem translate_checks (h : Hall) (hub : Hub) (pen mva : Nat) (write hubChain : Bool) :
    (h.translate hub pen mva write hubChain).2.checks = h.checks := by
  have hcounted (b : Bool) : (if b then (h.mmuApply (hubNum hub)).bump .mmuTranslations (hubNum hub)
      else ((h.mmuApply (hubNum hub)).bump .mmuTranslations (hubNum hub)).bump .mmuWalks (hubNum hub)).checks = h.checks := by
    cases b <;> simp
  unfold Hall.translate
  extract_lets u k cached g₁ g₂
  have hg₂ : g₂.checks = h.checks := hcounted cached
  clear_value g₂
  split
  · simp [hg₂]
  · split
    · rw [ordinary_checks, latchMmu_checks]
      exact (cacheFill_checks g₂ hub cached k).trans hg₂
    · exact (cacheFill_checks g₂ hub cached k).trans hg₂

@[simp] theorem nvMirrorRead_checks (h : Hall) (pref o n : Nat) : (h.nvMirrorRead pref o n).2.checks = h.checks :=
  (nvMirrorRead_sameCargo h 0 pref o n).frame.1 .checks (by simp)

@[simp] theorem mvaRead_checks (h : Hall) (hub : Hub) (pen mva n : Nat) : (h.mvaRead hub pen mva n).2.checks = h.checks := by
  refine foldl_same (fun acc : Option Payload × Hall => acc.2.checks) _ (fun acc piece => ?_) (mvaPieces mva n) (some [], h)
  grind [translate_checks, nvMirrorRead_checks]

@[simp] theorem stageCopy_checks (h : Hall) (pen mva n : Nat) : (h.stageCopy pen mva n).2.checks = h.checks := by
  have hread := mvaRead_checks h h.govHub pen mva n
  rw [Hall.stageCopy]
  generalize h.mvaRead h.govHub pen mva n = read at hread ⊢
  obtain ⟨_ | p, g⟩ := read
  · exact hread
  · dsimp only
    split <;> exact hread

/-! ### CHECK_SET and CHECK_GET (R224, R227) -/

/-- The shadow stalls of a pen are designated in the roles of stalls only. -/
theorem designate_frame {h h' : Hall} {p : Nat} (hd : h.designate p = some h') : Frame h h' [] roleReg := by
  obtain ⟨l, -, rfl⟩ := Option.map_eq_some_iff.1 hd
  exact setShadows_frame ..

section
variable {s : State} {t : Fin 128}

/-- The settings of a pen that a CHECK_SET asks for. -/
def Hall.checkSetting (h : Hall) (t : Nat) : Hall :=
  h.setFs (h.tillCmd t).pen [(.tallyPenchkChkOn, leAt (h.tillPayload t) 0 1), (.tallyPenchkFCode, leAt (h.tillPayload t) 1 1)]

theorem checkSet_answers (hr : s.hall.tillReady t 0x0501 (decide ((s.hall.tillCmd t).pen = 0)) false = true)
    (hlen : (s.hall.tillCmd t).length = 2) (hon : leAt (s.hall.tillPayload t) 0 1 ≤ 1) (hcode : leAt (s.hall.tillPayload t) 1 1 ≤ 7) :
    (∀ h', (s.hall.checkSetting t).designate (s.hall.tillCmd t).pen = some h' → Answers (.checkSet t) s t stOK [] h') ∧
      ((s.hall.checkSetting t).designate (s.hall.tillCmd t).pen = none → Answers (.checkSet t) s t stNoResource [] s.hall) := by
  have hgood : ¬ ((s.hall.tillCmd t).length ≠ 2 ∨ 1 < (s.hall.tillCmd t).arg 0 1 ∨ 7 < (s.hall.tillCmd t).arg 1 1) := by
    rw [not_or, not_or]
    exact ⟨not_not.2 hlen, hon.not_gt, hcode.not_gt⟩
  refine ⟨fun h' hd => answers_of_till rfl hr ?_, fun hd => answers_of_till rfl hr ?_⟩
  · refine (if_neg hgood).trans ?_
    change (match (s.hall.checkSetting t).designate (s.hall.tillCmd t).pen with
      | some h => okWith h
      | none => refuse s.hall stNoResource) = _
    rw [hd]
    rfl
  · refine (if_neg hgood).trans ?_
    change (match (s.hall.checkSetting t).designate (s.hall.tillCmd t).pen with
      | some h => okWith h
      | none => refuse s.hall stNoResource) = _
    rw [hd]
    rfl

/-- A pen's settings, once its shadow stalls are designated. -/
theorem checkSetting_fields {h h' : Hall} {t : Nat} (hd : (h.checkSetting t).designate (h.tillCmd t).pen = some h')
    (hon : leAt (h.tillPayload t) 0 1 ≤ 1) (hcode : leAt (h.tillPayload t) 1 1 ≤ 7) :
    h'.getF .tallyPenchkChkOn (h.tillCmd t).pen = leAt (h.tillPayload t) 0 1 ∧
      h'.getF .tallyPenchkFCode (h.tillCmd t).pen = leAt (h.tillPayload t) 1 1 ∧
      Frame h h' [] fun f u => (u = (h.tillCmd t).pen ∧ f ∈ [Fld.tallyPenchkChkOn, .tallyPenchkFCode]) ∨ f = .tallyStallRole := by
  have hroles := designate_frame hd
  refine ⟨?_, ?_, (setFs_frame _ h _ _ _ (by simp)).trans (hroles.mono (by simp) fun _ _ => .inr)⟩
  · refine (hroles.2 _ _ (by simp [roleReg])).trans ((getF_setFs (v := leAt (h.tillPayload t) 0 1) _ h _ (by simp) (by simp)).trans ?_)
    exact Nat.mod_eq_of_lt (Nat.lt_succ_of_le hon)
  · refine (hroles.2 _ _ (by simp [roleReg])).trans ((getF_setFs (v := leAt (h.tillPayload t) 1 1) _ h _ (by simp) (by simp)).trans ?_)
    exact Nat.mod_eq_of_lt (Nat.lt_succ_of_le hcode)

/-- What CHECK_GET answers. -/
def Hall.checkReport (h : Hall) (p : Nat) : Bytes :=
  let place := fun (i : Nat) => leBytes 1 (i / 16) ++ leBytes 1 (i % 16)
  leBytes 1 (h.getF .tallyPenchkChkOn p) ++ leBytes 1 (h.getF .tallyPenchkFCode p) ++ leBytes 1 (h.shadowsOf p).length ++
    (h.shadowsOf p).flatMap place ++ leBytes 1 (h.stallsOf p).length ++ (h.stallsOf p).flatMap fun i =>
      place i ++ leBytes 1 (h.getF .tallyStallState i) ++ leBytes 1 (h.getF .tallyStallStrikes i) ++ leBytes 1 (h.getF .tallyStallFOvr i)

theorem checkGet_reports (hr : s.hall.tillReady t 0x0502 false false = true) (hlen : (s.hall.tillCmd t).length = 0) :
    Answers (.checkGet t) s t stOK (s.hall.checkReport (s.hall.tillCmd t).pen) s.hall := by
  refine answers_of_till rfl hr ?_
  simp [hlen, okWith, Hall.checkReport]

theorem checkReport_fields (h : Hall) (p : Nat) : leAt (h.checkReport p) 0 1 = h.getF .tallyPenchkChkOn p % 256 ∧
    leAt (h.checkReport p) 1 1 = h.getF .tallyPenchkFCode p % 256 ∧ leAt (h.checkReport p) 2 1 = (h.shadowsOf p).length % 256 := by
  simp [Hall.checkReport, leAt, slice, leBytes, leNat]

/-! ### CHECK_PROBE (R246) -/

/-- The tests that a probe of stalls has to run. -/
def Pack.probeOf (p : Pack) (sig : Nat) (l : List Nat) : Probe :=
  { sigId := sig, todo := l.dedup.flatMap fun i => (p.select sig).map fun t => (i, t) }

theorem probeOf_todo_ne_nil {p : Pack} {sig : Nat} {l : List Nat} (hl : l ≠ []) (hs : p.select sig ≠ []) : (p.probeOf sig l).todo ≠ [] := by
  obtain ⟨i, hi⟩ := List.exists_mem_of_ne_nil l hl
  obtain ⟨u, hu⟩ := List.exists_mem_of_ne_nil _ hs
  exact List.ne_nil_of_mem (List.mem_flatMap.2 ⟨i, List.mem_dedup.2 hi, List.mem_map.2 ⟨u, hu, rfl⟩⟩)

/-- As many stalls are read as are named. -/
theorem stallList_length {c : TillCmd} {o n : Nat} {l : List Nat} (hl : c.stallList o n = some l) : l.length = n := by
  unfold TillCmd.stallList at hl
  dsimp only at hl
  split at hl
  · cases hl
    simp
  · contradiction

/-- A probe whose tests have yet to run goes on. -/
theorem probeSettle_of_todo {h : Hall} {k : Nat} {x : Probe} (hx : Tab.find h.checks.probes k = some x) (ht : x.todo ≠ []) :
    h.probeSettle k = h := by
  simp [Hall.probeSettle, hx, ht]

/-- A probe that starts with its operation. -/
def Hall.probeOpened (h : Hall) (c : TillCmd) (x : Probe) : Hall :=
  { (h.openOp c.till c.pen c.secure).2 with checks.probes := Tab.set h.checks.probes h.cmd.nextHandle x }

/-- A probe by a secure till of stalls that exist starts as an operation. -/
theorem checkProbe_starts {c : TillCmd} (hc : s.hall.tillCmd t = c) (hr : s.hall.tillReady t 0x0503 (decide (c.pen = 0)) false = true)
    (hsec : c.secure = true) (hlen : c.length = 9 + 2 * c.arg 0 1) (h1 : 1 ≤ c.arg 0 1) (h64 : c.arg 0 1 ≤ 64)
    (hms : 1 ≤ c.arg (5 + 2 * c.arg 0 1) 4) (hms' : c.arg (5 + 2 * c.arg 0 1) 4 ≤ 10000) {l : List Nat} {p : Pack}
    (hl : c.stallList 1 (c.arg 0 1) = some l) (hp : s.hall.checks.pack = some p) (hs : p.select (c.arg (1 + 2 * c.arg 0 1) 4) ≠ []) :
    Answers (.checkProbe t) s t stAccepted (leBytes 4 s.hall.cmd.nextHandle)
      (s.hall.probeOpened c (p.probeOf (c.arg (1 + 2 * c.arg 0 1) 4) l)) := by
  have hgood : ¬ (c.length ≠ 9 + 2 * c.arg 0 1 ∨ c.arg 0 1 = 0 ∨ 64 < c.arg 0 1 ∨ c.arg (5 + 2 * c.arg 0 1) 4 = 0 ∨
      10000 < c.arg (5 + 2 * c.arg 0 1) 4) := by omega
  have hne : l ≠ [] := List.ne_nil_of_length_pos (by rw [stallList_length hl]; exact h1)
  have hgoes : (s.hall.probeOpened c (p.probeOf (c.arg (1 + 2 * c.arg 0 1) 4) l)).probeSettle s.hall.cmd.nextHandle =
      s.hall.probeOpened c (p.probeOf (c.arg (1 + 2 * c.arg 0 1) 4) l) :=
    probeSettle_of_todo (Tab.find_set_same ..) (probeOf_todo_ne_nil hne hs)
  subst hc
  refine answers_of_till rfl hr ((if_neg hgood).trans ?_)
  rw [hl]
  refine (if_neg (by simp [hsec])).trans ((acceptOp_eq ..).trans ?_)
  have hpack : (s.hall.openOp (s.hall.tillCmd t).till (s.hall.tillCmd t).pen (s.hall.tillCmd t).secure).2.checks.pack = some p := hp
  rw [hpack]
  exact congrArg (Answer.mk stAccepted (leBytes 4 s.hall.cmd.nextHandle)) hgoes

/-- The probe starts with no test run. -/
theorem probeOpened_spec (h : Hall) (c : TillCmd) (p : Pack) (sig : Nat) (l : List Nat) :
    (Tab.find (h.probeOpened c (p.probeOf sig l)).checks.probes h.cmd.nextHandle).map (fun x => (x.sigId, x.run, x.failed, x.first)) =
      some (sig, 0, 0, none) ∧ (h.probeOpened c (p.probeOf sig l)).data = h.data := by
  have hfind : Tab.find (h.probeOpened c (p.probeOf sig l)).checks.probes h.cmd.nextHandle = some (p.probeOf sig l) :=
    Tab.find_set_same ..
  rw [hfind]
  exact ⟨rfl, rfl⟩

/-! ### CHECK_PACK_INSTALL (R242, R243) -/

/-- A pack that is copied, with the operation of its install. -/
def Hall.packStaged (h : Hall) (c : TillCmd) : Hall :=
  let r := (h.openOp c.till c.pen c.secure).2.stageCopy c.pen (c.arg 0 8) (c.arg 8 4)
  let x : Nat × Bytes := match r.1 with
    | .inr b => (0, b)
    | .inl f => (f, [])
  { r.2 with checks.packInstalls := Tab.set r.2.checks.packInstalls h.cmd.nextHandle x }

theorem checkPackInstall_starts (hr : s.hall.tillReady t 0x0504 false false = true) (hlen : (s.hall.tillCmd t).length = 12) :
    Answers (.checkPackInstall t) s t stAccepted (leBytes 4 s.hall.cmd.nextHandle) (s.hall.packStaged (s.hall.tillCmd t)) :=
  answers_of_till rfl hr ((if_neg (not_not.2 hlen)).trans (acceptOp_eq ..))

theorem packStaged_spec (h : Hall) (c : TillCmd) : (Tab.find (h.packStaged c).checks.packInstalls h.cmd.nextHandle).isSome = true ∧
    (h.packStaged c).checks.pack = h.checks.pack := by
  have hcopied := congrArg Checks.pack (stageCopy_checks (h.openOp c.till c.pen c.secure).2 c.pen (c.arg 0 8) (c.arg 8 4))
  exact ⟨Option.isSome_iff_exists.2 ⟨_, Tab.find_set_same _ _ _⟩, hcopied⟩

/-! ### LOG_EXPORT (R251) -/

/-- Entries that fit take no more bytes than there are. -/
theorem fitEntries_length (l : List SigRecord) (n : Nat) :
    ((fitEntries l n).flatMap fun r => leBytes 2 r.signed.length ++ r.signed).length ≤ n := by
  induction l generalizing n with
  | nil => simp [fitEntries]
  | cons r l ih =>
    unfold fitEntries
    split
    · have hrest := ih (n - r.signed.length - 2)
      have hhead : (leBytes 2 r.signed.length).length = 2 := rfl
      rw [List.flatMap_cons, List.length_append, List.length_append, hhead]
      omega
    · simp

/-- What LOG_EXPORT answers with the entries that fit. -/
def logReport (next gap : Nat) (out : List SigRecord) : Bytes :=
  leBytes 4 next ++ leBytes 2 out.length ++ leBytes 1 gap ++ leBytes 1 0 ++ out.flatMap fun r => leBytes 2 r.signed.length ++ r.signed

theorem logReport_length (next gap : Nat) (out : List SigRecord) :
    (logReport next gap out).length = 8 + (out.flatMap fun r => leBytes 2 r.signed.length ++ r.signed).length := by
  rw [logReport, List.length_append]
  rfl

theorem logExport_answers (hr : s.hall.tillReady t 0x0C01 false false = true) (hlen : (s.hall.tillCmd t).length = 6) :
    ∃ next gap mine, Answers (.logExport t) s t stOK (logReport next gap (fitEntries mine (3968 - 8))) s.hall :=
  ⟨_, _, _, answers_of_till rfl hr (if_neg (not_not.2 hlen))⟩

end

/-! ### The end of a probe and of an install -/

theorem checkProbeDeadline_ends {s : State} {k : Nat} (hp : (Tab.find s.hall.checks.probes k).isSome = true) :
    Gives (.checkProbeDeadline k) s fun h' =>
      Tab.find h'.checks.probes k = none ∧ Tab.find h'.cmd.ops k = none ∧ h'.data = s.hall.data := by
  obtain ⟨x, hx⟩ := Option.isSome_iff_exists.1 hp
  have hend : Becomes (.checkProbeDeadline k) s
      ({ s.hall with checks.probes := Tab.erase s.hall.checks.probes k }.closeOp k stDeadline x.detail) := by
    change execCheckProbeDeadline k s = _
    simp only [execCheckProbeDeadline, run_next, hx]
  refine ⟨_, hend, ?_, closeOp_closes .., closeOp_data ..⟩
  rw [closeOp_checks]
  exact Tab.find_erase_same ..

/-- What an install leaves before its operation is closed. -/
def Hall.packInstalled (h : Hall) (k fault : Nat) (raw : Bytes) : Hall :=
  let h' := { h with checks.packInstalls := Tab.erase h.checks.packInstalls k }
  if h.packStatus fault raw = stOK then
    let p : Pack := { packId := leAt raw 8 4, version := leAt raw 12 4, raw := raw }
    { h' with
      checks.pack := some p
      data.stalls := h'.data.stalls.map fun e => (e.1, { e.2 with packRun := e.2.packRun.map fun _ => List.range p.ntest })
      checks.probes := h'.checks.probes.map fun e =>
        (e.1, { e.2 with todo := (e.2.todo.map Prod.fst).dedup.flatMap fun i => (p.select e.2.sigId).map fun t => (i, t) }) }
  else h'

theorem packInstallDone_becomes {s : State} {k fault : Nat} {raw : Bytes} (hx : Tab.find s.hall.checks.packInstalls k = some (fault, raw)) :
    Becomes (.packInstallDone k) s ((s.hall.packInstalled k fault raw).closeOp k (s.hall.packStatus fault raw)) := by
  change execPackInstallDone k s = _
  simp only [execPackInstallDone, run_next, hx]
  rfl

theorem packInstalled_spec (h : Hall) (k fault : Nat) (raw : Bytes) :
    Tab.find (h.packInstalled k fault raw).checks.packInstalls k = none ∧
    (h.packStatus fault raw = stOK → (h.packInstalled k fault raw).checks.pack =
      some { packId := leAt raw 8 4, version := leAt raw 12 4, raw := raw }) ∧
    (h.packStatus fault raw ≠ stOK → (h.packInstalled k fault raw).checks.pack = h.checks.pack ∧
      (h.packInstalled k fault raw).data = h.data) := by
  unfold Hall.packInstalled
  dsimp only
  split
  · next hok => exact ⟨Tab.find_erase_same .., fun _ => rfl, fun hne => absurd hok hne⟩
  · next hne => exact ⟨Tab.find_erase_same .., fun hok => absurd hok hne, fun _ => ⟨rfl, rfl⟩⟩

/-- Settles O49: each clause is the rule of its command. -/
theorem checkCommands : Obligations.CheckCommands := by
  unfold Obligations.CheckCommands
  refine ⟨fun s t => ⟨fun hr hlen hon hcode => ?_, fun hr hlen => ⟨_, checkGet_reports hr hlen, checkReport_fields ..⟩,
    fun hr hsec hlen h1 h64 hms hms' l p hl hp hs => ?_,
    fun hr hlen => ⟨_, checkPackInstall_starts hr hlen, packStaged_spec ..⟩, fun hr hlen => ?_⟩,
    fun s k => ⟨fun hn => ?_, checkProbeDeadline_ends, fun hn => ?_, fun fault raw hx => ?_⟩⟩
  · obtain ⟨hok, hnone⟩ := checkSet_answers hr hlen hon hcode
    refine ⟨fun hsome => ?_, hnone⟩
    obtain ⟨h', hd⟩ := Option.isSome_iff_exists.1 hsome
    exact ⟨h', hok h' hd, checkSetting_fields hd hon hcode⟩
  · have hstart := checkProbe_starts rfl hr hsec hlen h1 h64 hms hms' hl hp hs
    exact ⟨_, hstart, probeOpened_spec ..⟩
  · obtain ⟨next, gap, mine, ha⟩ := logExport_answers hr hlen
    refine ⟨_, ha, ?_⟩
    have hfit := fitEntries_length mine (3968 - 8)
    rw [logReport_length]
    omega
  · change execCheckProbeDeadline k s = _
    simp only [execCheckProbeDeadline, run_next, hn]
  · change execPackInstallDone k s = _
    simp only [execPackInstallDone, run_next, hn]
  · obtain ⟨hgone, hok, hbad⟩ := packInstalled_spec s.hall k fault raw
    refine ⟨_, packInstallDone_becomes hx, ?_, closeOp_closes .., fun h => ?_, fun h => ?_⟩
    · rw [closeOp_checks, hgone]
    · rw [closeOp_checks, hok h]
    · rw [closeOp_checks, closeOp_data]
      exact hbad h

end Sys2Proof.Machine
end

section
/-! PROOFS. Refutes O55: MMU_PEN_n.USED has 22 bits, and the clause of MEM_MAP sums it without a bound (R263, Table 10.15). -/

namespace Sys2Proof.Machine

/-! ### USED of a pen after a command -/

/-- Answering a till command leaves every pen's USED as it was. -/
theorem penUsed_tillComplete (h : Hall) (c : TillCmd) (status p : Nat) (payload : Bytes) :
    (h.tillComplete c status payload).penUsed p = h.penUsed p := by
  obtain ⟨-, -, -, -, -, -, hkept⟩ := answerKept_spec h c status payload
  have hshown := setFs_frame (answerFields c status payload) ((h.answerKept c status payload).writeBytes (tillBase c.till + 0x40) payload)
    c.till [] (fun f _ => f ≠ .mmuPenUsed) (by simp [answerFields])
  calc (h.tillComplete c status payload).penUsed p
      = ((h.answerKept c status payload).answerShown c status payload).penUsed p := (tillDone_frame_shown _ c status payload).2 _ _ id
    _ = (h.answerKept c status payload).penUsed p := (hshown.2 _ _ (not_not.2 rfl)).trans (writeBytes_getF ..)
    _ = h.penUsed p := hkept.2 _ _ (by simp [regsOf])

/-- A pen's USED in the state that a command answers. -/
def usedAfter (o : Host.Outcome State Fault Refusal) (p : Nat) : Option Nat :=
  match o with
  | .next s => some (s.hall.penUsed p)
  | _ => none

/-- The answer to a till command shows the USED that the command left. -/
theorem Answers.usedAfter_eq {i : Instr} {s : State} {t status : Nat} {payload : Bytes} {h' : Hall}
    (ha : Answers i s t status payload h') (p : Nat) : usedAfter (exec i s) p = some (h'.penUsed p) := by
  rw [show exec i s = _ from ha]
  exact congrArg some (penUsed_tillComplete ..)

/-! ### What the statement says of MEM_MAP -/

/-- What MEM_MAP's payload asks for (Table 10.7). -/
def TillCmd.mapArgs (c : TillCmd) : MapArgs :=
  { page := c.arg 0 8 / 65536, n := c.arg 8 4, typ := c.arg 12 1, w := bit (c.arg 13 1) 0, promote := bit (c.arg 13 1) 1
    half := bits (c.arg 13 1) 3 2, late := c.arg 14 2, lot := c.arg 16 4, lotOff := c.arg 20 8, host := c.arg 16 8 }

theorem mapArgs_n (h : Hall) (t : Nat) : (h.tillCmd t).mapArgs.n = leAt (h.tillPayload t) 8 4 := by
  simp only [TillCmd.mapArgs, TillCmd.arg, Hall.tillPayload]

/-- A MEM_MAP of up to 1,024 T1 pages whose arguments pass the checks, within quota and room (Table 10.7). -/
def Hall.MapFits (h : Hall) (c : TillCmd) : Prop :=
  mapBad h c c.mapArgs = false ∧ c.mapArgs.typ = 1 ∧ h.penUsed c.pen + c.mapArgs.n ≤ h.penQuota c.pen ∧
    c.mapArgs.n ≤ h.freeIn (h.mapHalf c.mapArgs) ∧ c.mapArgs.n ≤ 1024

/-- The statement has USED grow by the number of pages, however large the sum. -/
theorem usedAfter_memMap_of_memoryCommands (h : Obligations.MemoryCommands) {s : State} {t : Fin 128}
    (hr : s.hall.tillReady t 0x0401 (decide ((s.hall.tillCmd t).pen = 0)) false = true) (hfits : s.hall.MapFits (s.hall.tillCmd t)) :
    usedAfter (exec (.memMap t) s) (s.hall.tillCmd t).pen =
      some (s.hall.penUsed (s.hall.tillCmd t).pen + (s.hall.tillCmd t).mapArgs.n) := by
  obtain ⟨hgood, htyp, hquota, hroom, hsmall⟩ := hfits
  rw [mapArgs_n] at hquota hroom hsmall ⊢
  obtain ⟨hcommands, -⟩ := h
  obtain ⟨hmap, -⟩ := hcommands s t
  obtain ⟨hframes, -⟩ := hmap hr hgood
  obtain ⟨hmaps, -⟩ := hframes htyp hquota hroom
  obtain ⟨h', hanswers, hused, -⟩ := hmaps hsmall
  rw [hanswers.usedAfter_eq, hused]

/-! ### The counterexample -/

/-- Pen 1 has as many frames as USED can count, its QUOTA is one more, and till 33 holds its MEM_MAP of one writable T1 page. No run
reaches it (a write cuts QUOTA to its 22 bits), but the statement speaks of every state. -/
def usedAtTop : State :=
  let reset := State.reset.hall
  let header := [(0x00, 0x01), (0x01, 0x04), (0x08, 1), (0x0A, 16)]
  let payload := [(0x48, 1), (0x4C, 1), (0x4D, 1)]
  { hall := { reset with
      regs := [⟨.hubIdentGoverning, 0, 1⟩, ⟨.tillState, 33, 1⟩, ⟨.mmuPenUsed, 1, 2 ^ 22 - 1⟩, ⟨.mmuPenQuota, 1, 2 ^ 22⟩]
      avail.pens := [(1, { state := .up })]
      mem.ram := (header ++ payload).map fun e => (tillBase 33 + e.1, e.2) }
    pending := [] }

/-- The command in till 33. -/
def mapOnePage : TillCmd := usedAtTop.hall.tillCmd 33

theorem mapOnePage_ready : usedAtTop.hall.tillReady 33 0x0401 (decide (mapOnePage.pen = 0)) false = true := by decide +kernel

theorem mapOnePage_fits : usedAtTop.hall.MapFits mapOnePage := by
  unfold Hall.MapFits
  decide +kernel

theorem mapOnePage_sum : mapOnePage.pen = 1 ∧ usedAtTop.hall.penUsed mapOnePage.pen + mapOnePage.mapArgs.n = 2 ^ 22 := by decide +kernel

/-- The page is mapped, and USED wraps to 0. -/
theorem mapOnePage_wraps : usedAfter (exec (.memMap 33) usedAtTop) 1 = some 0 := by decide +kernel

/-- Refutes O55 in MEM_MAP's clause for T1 pages: no premise holds QUOTA to its 22 bits, so under a QUOTA of 2 ^ 22 the last
page wraps USED to 0, where the clause has 2 ^ 22. -/
theorem not_memoryCommands : ¬ Obligations.MemoryCommands := by
  intro h
  obtain ⟨hpen, hsum⟩ := mapOnePage_sum
  have hclaimed : usedAfter (exec (.memMap 33) usedAtTop) mapOnePage.pen =
      some (usedAtTop.hall.penUsed mapOnePage.pen + mapOnePage.mapArgs.n) :=
    usedAfter_memMap_of_memoryCommands h mapOnePage_ready mapOnePage_fits
  rw [hsum, hpen, mapOnePage_wraps] at hclaimed
  cases hclaimed

end Sys2Proof.Machine
end

section
/-! PROOFS. Settles O52: unlock sequences and the ten commands of a weight array (R303, R305–R312, Tables 12.3 to 12.5). -/

namespace Sys2Proof.Machine

/-! ### A row's array and its registers -/

@[simp] theorem setF_array (h : Hall) (f : Fld) (u v r : Nat) : (h.setF f u v).array r = h.array r := rfl
@[simp] theorem setFs_array (h : Hall) (u : Nat) (l : List (Fld × Nat)) (r : Nat) : (h.setFs u l).array r = h.array r := by
  simp [Hall.array]
@[simp] theorem bump_array (h : Hall) (c : Ctr) (u k r : Nat) : (h.bump c u k).array r = h.array r := by simp [Hall.array]
@[simp] theorem updArray_array_same (h : Hall) (r : Nat) (f : NvArray → NvArray) : (h.updArray r f).array r = f (h.array r) :=
  Tab.get_set_same ..

theorem updArray_frame (h : Hall) (r : Nat) (f : NvArray → NvArray) (may : Fld → Nat → Prop) : Frame h (h.updArray r f) [.weights] may :=
  frame_of_parts (fun p hp => by cases p <;> simp_all [Part.same]) rfl

/-- A counter has grown by one, where it had room. -/
def CountsOne (c : Ctr) (u : Nat) (h h' : Hall) : Prop :=
  h.getF (.count c) u < c.top → h'.getF (.count c) u = h.getF (.count c) u + 1

/-- Counting adds one to what the counter was before. -/
theorem bump_countsOne {h g : Hall} {c : Ctr} {u : Nat} (e : g.getF (.count c) u = h.getF (.count c) u) :
    CountsOne c u h (g.bump c u) := fun hroom => by
  rw [getF_count_bump_congr e, getF_count_bump _ _ _ _ hroom.le, Nat.min_eq_right hroom]

theorem CountsOne.of_getF_eq {c : Ctr} {u : Nat} {h g h' : Hall} (hc : CountsOne c u h g)
    (e : h'.getF (.count c) u = g.getF (.count c) u) : CountsOne c u h h' := fun hroom => e.trans (hc hroom)

/-! ### Unlock sequences (R305, R306) -/

/-- A sequence ends: the array keeps all but the sequence. -/
@[simp] theorem unlockEnd_array (h : Hall) (r : Nat) : (h.unlockEnd r).array r = { h.array r with unlock := none } := by
  simp [Hall.unlockEnd]

@[simp] theorem unlockEnd_mem (h : Hall) (r : Nat) : (h.unlockEnd r).mem = h.mem := rfl

theorem unlockEnd_status (h : Hall) (r : Nat) : (h.unlockEnd r).getF .nvmcStatusUnlock r = 0 := getF_setF_same ..

theorem unlockEnd_frame (h : Hall) (r : Nat) : Frame h (h.unlockEnd r) [.weights] (regsOf r [.nvmcStatusUnlock]) :=
  (updArray_frame ..).trans (setF_frame _ _ _ _ _ _ ⟨rfl, by simp⟩)

/-- An abandoned sequence is over, and counted. -/
theorem unlockAbandon_spec (h : Hall) (r : Nat) :
    ((h.unlockAbandon r).array r).unlock = none ∧ CountsOne .nvmcUnlockErr r h (h.unlockAbandon r) ∧
      (h.unlockAbandon r).getF .nvmcStatusUnlock r = 0 ∧ (h.unlockAbandon r).mem = h.mem := by
  refine ⟨by simp [Hall.unlockAbandon], bump_countsOne ?_, ?_, by simp [Hall.unlockAbandon]⟩
  · exact (unlockEnd_frame h r).2 _ _ (by simp [regsOf])
  · exact (getF_bump_ne _ _ _ _ _ _ (by simp) (by simp)).trans (unlockEnd_status h r)

/-- A sequence goes on: NVMC_STATUS.UNLOCK shows its place, and the row holds it. -/
theorem setUnlock_spec (h : Hall) (r st : Nat) (u : Unlock) (hst : st < 4) :
    (h.setUnlock r st u).getF .nvmcStatusUnlock r = st ∧ ((h.setUnlock r st u).array r).unlock = some u ∧
      (h.setUnlock r st u).mem = h.mem :=
  ⟨(getF_setF_same ..).trans (Nat.mod_eq_of_lt hst), by simp [Hall.setUnlock], rfl⟩

/-! ### The cycles of Table 12.3 -/

section Cycles
variable {h : Hall} {hub : Hub} {r offset : Nat} {data : Bytes} {u : Unlock}

theorem windowWrite_locked (hn : (h.array r).unlock = none) : h.windowWrite hub r offset data =
    if cmdCycle data = some 0x5A5A ∧ offset = 0xAAA8 then h.setUnlock r 1 { owner := hub } else h.bump .nvmcUnlockErr r := by
  simp [Hall.windowWrite, hn]

theorem windowWrite_second (hu : (h.array r).unlock = some u) (ho : u.owner = hub) (hst : h.getF .nvmcStatusUnlock r = 1) :
    h.windowWrite hub r offset data =
      if cmdCycle data = some 0xA5A5 ∧ offset = 0x5550 then h.setUnlock r 2 u else h.unlockAbandon r := by
  simp [Hall.windowWrite, hu, ho, hst]

theorem windowWrite_word {w : Nat} (hu : (h.array r).unlock = some u) (ho : u.owner = hub) (hst : h.getF .nvmcStatusUnlock r = 2)
    (hw : cmdCycle data = some w) : h.windowWrite hub r offset data =
      if offset = 0xAAA8 ∧ cmdKnown w = true then h.setUnlock r 3 { u with word := w } else h.unlockAbandon r := by
  simp [Hall.windowWrite, hu, ho, hst, hw]

theorem windowWrite_value {v : Nat} (hu : (h.array r).unlock = some u) (ho : u.owner = hub) (hst : h.getF .nvmcStatusUnlock r = 3)
    (hcode : cmdCode u.word ≠ 0x0010) (hv : cmdCycle data = some v) : h.windowWrite hub r offset data =
      if cycleFits u.word offset v then h.setUnlock r 0 { u with first := offset, value := v, complete := true }
      else h.unlockAbandon r := by
  simp [Hall.windowWrite, hu, ho, hst, hcode, hv]

end Cycles

/-! ### A complete sequence runs its command (R306, R308) -/

/-- The row holds no complete sequence of a command's code. -/
def Hall.CommandIdle (h : Hall) (r code : Nat) : Prop :=
  ∀ u : Unlock, (h.array r).unlock = some u → u.complete = false ∨ cmdCode u.word ≠ code

/-- The row holds a complete sequence, of command `c`. -/
def Hall.CommandHeld (h : Hall) (r : Nat) (c : NvCmd) : Prop :=
  ∃ u : Unlock, (h.array r).unlock = some u ∧ u.complete = true ∧ h.nvTarget r u = c

/-- The sequence of a row ends, and NVMC_LAST_CMD latches its command with a result. -/
def Hall.commandLatched (h : Hall) (r : Nat) (c : NvCmd) (status : Nat) : Hall :=
  (h.unlockEnd r).lastCmd r status c.word (nvBank c.pblock)

theorem nvCommand_idle {h : Hall} {r code : Nat} (f : Hall → NvCmd → Hall) (hi : h.CommandIdle r code) : h.nvCommand r code f = h := by
  unfold Hall.nvCommand
  split
  next u hu =>
    rcases hi u hu with hc | hc <;> simp [hc]
  next => rfl

theorem nvCommand_refused {h : Hall} {r code st : Nat} {c : NvCmd} (f : Hall → NvCmd → Hall) (hc : h.CommandHeld r c)
    (hcode : cmdCode c.word = code) (hst : (h.unlockEnd r).nvChecks r c = some st) :
    h.nvCommand r code f = ((h.unlockEnd r).bump .nvmcRefused r).lastCmd r st c.word (nvBank c.pblock) := by
  obtain ⟨u, hu, hdone, rfl⟩ := hc
  have hword : cmdCode u.word = code := hcode
  simp [Hall.nvCommand, hu, hdone, hword, hst]

theorem nvCommand_passes {h : Hall} {r code : Nat} {c : NvCmd} (f : Hall → NvCmd → Hall) (hc : h.CommandHeld r c)
    (hcode : cmdCode c.word = code) (hpass : (h.unlockEnd r).nvChecks r c = none) :
    h.nvCommand r code f = f (h.commandLatched r c stOK) c := by
  obtain ⟨u, hu, hdone, rfl⟩ := hc
  have hword : cmdCode u.word = code := hcode
  simp [Hall.nvCommand, Hall.commandLatched, hu, hdone, hword, hpass]

/-- With no complete sequence held, nothing is left to run before a window write. -/
theorem nvRunComplete_idle {h : Hall} {r : Nat} (hi : ∀ code, h.CommandIdle r code) : h.nvRunComplete r = h := by
  simp [Hall.nvRunComplete, Hall.cmdProgram, Hall.cmdErase, Hall.cmdBlank, Hall.cmdSuspend, Hall.cmdResume, Hall.cmdReadStatus,
    Hall.cmdWp, Hall.cmdFreeze, Hall.cmdReadPage, nvCommand_idle _ (hi _)]

/-! ### NVMC_LAST_CMD -/

/-- Blank or not rests on the cells and on the pages that a pulse left torn. -/
theorem nvBlank_congr {h h' : Hall} {r : Nat} (hm : h'.mem = h.mem) (ht : (h'.array r).torn = (h.array r).torn) (p o n : Nat) :
    h'.nvBlank r p o n = h.nvBlank r p o n := by
  simp only [Hall.nvBlank, Hall.nvRead, hm, ht]

/-- The fields of NVMC_LAST_CMD (Table 12.13). -/
def lastCmdFlds : List Fld := [.nvmcLastCmdValid, .nvmcLastCmdResult, .nvmcLastCmd, .nvmcLastCmdBank]

@[simp] theorem lastCmd_array (h : Hall) (r st cmd bank x : Nat) : (h.lastCmd r st cmd bank).array x = h.array x := setFs_array ..
@[simp] theorem lastCmd_mem (h : Hall) (r st cmd bank : Nat) : (h.lastCmd r st cmd bank).mem = h.mem := setFs_mem ..

theorem lastCmd_frame (h : Hall) (r st cmd bank : Nat) (parts : List Part) (may : Fld → Nat → Prop) (hm : ∀ f ∈ lastCmdFlds, may f r) :
    Frame h (h.lastCmd r st cmd bank) parts may :=
  setFs_frame _ _ _ _ _ (by simpa [lastCmdFlds] using hm)

theorem lastCmd_shown (h : Hall) (r st cmd bank : Nat) :
    (h.lastCmd r st cmd bank).getF .nvmcLastCmdValid r = 1 ∧ (h.lastCmd r st cmd bank).getF .nvmcLastCmdResult r = st % 65536 :=
  ⟨getF_setFs (v := 1) _ h r (by simp) (by simp), getF_setFs (v := st) _ h r (by simp) (by simp)⟩

@[simp] theorem unlockEnd_bankState (h : Hall) (r b : Nat) : (h.unlockEnd r).bankState r b = h.bankState r b :=
  (unlockEnd_frame h r).2 _ _ (by simp [regsOf])

@[simp] theorem unlockEnd_bankSuspended (h : Hall) (r b : Nat) : (h.unlockEnd r).bankSuspended r b = h.bankSuspended r b := by
  simp [Hall.bankSuspended]

section Latched
variable (h : Hall) (r : Nat) (c : NvCmd) (status : Nat)

@[simp] theorem commandLatched_array : (h.commandLatched r c status).array r = { h.array r with unlock := none } := by
  simp [Hall.commandLatched]

@[simp] theorem commandLatched_mem : (h.commandLatched r c status).mem = h.mem := by simp [Hall.commandLatched]

theorem commandLatched_frame :
    Frame h (h.commandLatched r c status) [.weights] (regsOf r (.nvmcStatusUnlock :: lastCmdFlds)) :=
  ((unlockEnd_frame h r).mono (fun _ hp => hp) fun _ _ => regsOf_mono (by simp)).trans
    (lastCmd_frame _ _ _ _ _ _ _ fun _ hf => ⟨rfl, List.mem_cons_of_mem _ hf⟩)

@[simp] theorem commandLatched_nvBlank (p o n : Nat) : (h.commandLatched r c status).nvBlank r p o n = h.nvBlank r p o n :=
  nvBlank_congr (by simp) (by simp) p o n

@[simp] theorem commandLatched_bankOp (b : Nat) : (h.commandLatched r c status).bankOp r b = h.bankOp r b := by simp [Hall.bankOp]

@[simp] theorem commandLatched_bankState (b : Nat) : (h.commandLatched r c status).bankState r b = h.bankState r b :=
  (commandLatched_frame h r c status).2 _ _ (by simp [regsOf, lastCmdFlds])

@[simp] theorem commandLatched_bankSuspended (b : Nat) : (h.commandLatched r c status).bankSuspended r b = h.bankSuspended r b := by
  simp [Hall.bankSuspended]

end Latched

/-! ### Banks (Table 12.9) -/

@[simp] theorem setBankState_mem (h : Hall) (r b st : Nat) : (h.setBankState r b st).mem = h.mem := rfl
@[simp] theorem setBankState_array (h : Hall) (r b st x : Nat) : (h.setBankState r b st).array x = h.array x := rfl

@[simp] theorem bankState_setBankState (h : Hall) (r b st : Nat) : (h.setBankState r b st).bankState r b = st % 4 :=
  (getF_setF_fld _ _ _ _ _ _ (by simp)).trans (getF_setF_same ..)

/-- Beside a bank's state, the BUSY_BANKS bits alone change with it. -/
theorem getF_setBankState (h : Hall) (r b st : Nat) {f : Fld} (u : Nat) (hs : f ≠ .nvmcBankState) (hb : f ≠ .nvmcStatusBusyBanks) :
    (h.setBankState r b st).getF f u = h.getF f u :=
  (getF_setF_fld _ _ _ _ _ _ hb).trans (getF_setF_fld _ _ _ _ _ _ hs)

@[simp] theorem setBankOp_mem (h : Hall) (r b : Nat) (o : BankOp) : (h.setBankOp r b o).mem = h.mem := rfl
@[simp] theorem setBankOp_getF (h : Hall) (r b : Nat) (o : BankOp) (f : Fld) (u : Nat) : (h.setBankOp r b o).getF f u = h.getF f u := rfl
@[simp] theorem setBankOp_array (h : Hall) (r b : Nat) (o : BankOp) :
    (h.setBankOp r b o).array r = { h.array r with banks := Tab.set (h.array r).banks b o } := updArray_array_same ..
@[simp] theorem bankOp_setBankOp (h : Hall) (r b : Nat) (o : BankOp) : (h.setBankOp r b o).bankOp r b = o := by
  simp [Hall.bankOp]

@[simp] theorem setBankState_bankOp (h : Hall) (r b st x : Nat) : (h.setBankState r b st).bankOp r x = h.bankOp r x := rfl
@[simp] theorem setBankOp_bankState (h : Hall) (r b x : Nat) (o : BankOp) : (h.setBankOp r b o).bankState r x = h.bankState r x := rfl
@[simp] theorem setBankOp_bankSuspended (h : Hall) (r b x : Nat) (o : BankOp) :
    (h.setBankOp r b o).bankSuspended r x = h.bankSuspended r x := rfl

/-- The fields of NVMC_BANK that the start of an operation sets. -/
def startFields (p page op : Nat) (phys : Bool) : List (Fld × Nat) :=
  [(.nvmcBankOp, op), (.nvmcBankPhys, b2n phys), (.nvmcBankBo, 0), (.nvmcBankResult, 0), (.nvmcBankPblock, p), (.nvmcBankPage, page),
   (.nvmcBankSusp, 0)]

section Start
variable (h : Hall) (r p page op : Nat) (phys : Bool) (o : BankOp)

theorem bankStart_eq : h.bankStart r p page op phys o =
    (((h.setFs (bankU r (nvBank p)) (startFields p page op phys)).setBankOp r (nvBank p) o).setBankState r (nvBank p) 1) := rfl

@[simp] theorem bankStart_mem : (h.bankStart r p page op phys o).mem = h.mem := by simp [bankStart_eq]

@[simp] theorem bankStart_nvBlank (x a n : Nat) : (h.bankStart r p page op phys o).nvBlank r x a n = h.nvBlank r x a n :=
  nvBlank_congr (by simp) (by simp [bankStart_eq]) x a n

/-- An operation has started on a block: its bank is BUSY with it, and the memories are as before. -/
def Started (h h' : Hall) (r p op : Nat) : Prop :=
  h'.bankState r (nvBank p) = 1 ∧ h'.getF .nvmcBankOp (bankU r (nvBank p)) = op ∧
    h'.bankPblock r (nvBank p) = p % 2 ^ Fld.nvmcBankPblock.width ∧ h'.mem = h.mem

theorem bankStart_started (hop : op < 16) {g : Hall} (hm : g.mem = h.mem) : Started h (g.bankStart r p page op phys o) r p op := by
  have shown {f : Fld} {v : Nat} (hf : (f, v) ∈ startFields p page op phys) (hs : f ≠ .nvmcBankState) (hb : f ≠ .nvmcStatusBusyBanks) :
      (g.bankStart r p page op phys o).getF f (bankU r (nvBank p)) = v % 2 ^ f.width := by
    rw [bankStart_eq, getF_setBankState _ _ _ _ _ hs hb, setBankOp_getF]
    exact getF_setFs _ _ _ hf (by simp [startFields])
  refine ⟨bankState_setBankState .., (shown (v := op) (by simp [startFields]) (by simp) (by simp)).trans (Nat.mod_eq_of_lt hop),
    shown (v := p) (by simp [startFields]) (by simp) (by simp), (bankStart_mem ..).trans hm⟩

@[simp] theorem bankStart_bankOp : (h.bankStart r p page op phys o).bankOp r (nvBank p) = o := by
  simp [bankStart_eq, Hall.bankOp]

end Start

@[simp] theorem bankEnd_mem (h : Hall) (r b status : Nat) : (h.bankEnd r b status).mem = h.mem := rfl

@[simp] theorem bankState_bankEnd (h : Hall) (r b status : Nat) : (h.bankEnd r b status).bankState r b = 3 := bankState_setBankState ..

/-- A bank that is DONE shows the result. -/
theorem bankResult_bankEnd (h : Hall) (r b status : Nat) :
    (h.bankEnd r b status).getF .nvmcBankResult (bankU r b) = status % 65536 := by
  rw [Hall.bankEnd, getF_setBankState _ _ _ _ _ (by simp) (by simp), setBankOp_getF]
  exact getF_setF_same ..

/-! ### Protect bits (R311) -/

/-- A sector's bit reads as set. -/
theorem wpSector_setWp (h : Hall) (r n : Nat) (v : Bool) : (h.setWp r n v).wpSector r n = v := by
  unfold Hall.setWp
  dsimp only
  split
  next hv => exact hv
  next hv =>
    have hwidth : Fld.nvmcWp.width = 64 := rfl
    have hbit : n % 64 < 64 := Nat.mod_lt _ (by decide)
    have hflip := Bool.eq_not_of_ne hv
    rw [Hall.wpSector, getF_setF_same, hwidth, bit, Nat.testBit_mod_two_pow, Nat.testBit_xor, Nat.testBit_two_pow_self]
    simpa [hbit, bit] using hflip

@[simp] theorem setWp_mem (h : Hall) (r n : Nat) (v : Bool) : (h.setWp r n v).mem = h.mem := by
  unfold Hall.setWp
  dsimp only
  split <;> rfl

/-! ### Check 5 of Table 12.5 on RESUME (R312) -/

/-- A command that no check refuses is one that its bank allows. -/
theorem bankAllows_of_nvChecks {h : Hall} {r : Nat} {c : NvCmd} (hc : h.nvChecks r c = none) : h.bankAllows r c = none := by
  cases hb : h.bankAllows r c with
  | none => rfl
  | some st =>
    simp only [Hall.nvChecks, hb] at hc
    split_ifs at hc

/-- RESUME passes on a suspended bank, and on a BUSY one whose SUSPEND is held. -/
theorem bankState_of_bankAllows_resume {h : Hall} {r : Nat} {c : NvCmd} (hcode : cmdCode c.word = 0x00D0) (ha : h.bankAllows r c = none)
    (hs : h.bankSuspended r (nvBank c.pblock) = false) : h.bankState r (nvBank c.pblock) = 1 := by
  have hne : h.bankState r (nvBank c.pblock) ≠ 2 := by simpa [Hall.bankSuspended] using hs
  by_contra hb
  simp [Hall.bankAllows, hcode, hne, hb] at ha

/-! ### Window writes -/

section Window
variable {s : State} {hub : Hub} {row : Fin 8} {offset : Nat} {data : Bytes}

theorem windowWrite_outside (ho : s.hall.t2Bytes ≤ offset) : Becomes (.nvmcWindowWrite (.mp hub) row offset data) s s.hall := by
  change execNvmcWindowWrite (.mp hub) row offset data s = _
  simp [execNvmcWindowWrite, run_next, ho]

theorem windowWrite_governing (ho : offset < s.hall.t2Bytes) (hg : s.hall.governing = some hub)
    (hi : ∀ code, s.hall.CommandIdle row code) :
    Becomes (.nvmcWindowWrite (.mp hub) row offset data) s (s.hall.windowWrite hub row offset data) := by
  change execNvmcWindowWrite (.mp hub) row offset data s = _
  simp [execNvmcWindowWrite, run_next, ho, hg, nvRunComplete_idle hi]

theorem windowWrite_standby (ho : offset < s.hall.t2Bytes) (hg : s.hall.governing ≠ some hub) :
    Becomes (.nvmcWindowWrite (.mp hub) row offset data) s (s.hall.bump .nvmcUnlockErr row) := by
  change execNvmcWindowWrite (.mp hub) row offset data s = _
  simp [execNvmcWindowWrite, run_next, ho, hg]

theorem windowWrite_pf0 (p : Hub) (ho : offset < s.hall.t2Bytes) :
    Becomes (.nvmcWindowWrite (.host p .pf0) row offset data) s (s.hall.bump .nvmcUnlockErr row) := by
  change execNvmcWindowWrite (.host p .pf0) row offset data s = _
  simp [execNvmcWindowWrite, run_next, ho]

end Window

/-- A write that only counts. -/
theorem unlockErr_spec (h : Hall) (r : Nat) : CountsOne .nvmcUnlockErr r h (h.bump .nvmcUnlockErr r) ∧
    Frame h (h.bump .nvmcUnlockErr r) [] (regsOf r [.count .nvmcUnlockErr, .sat .nvmcUnlockErr]) :=
  ⟨bump_countsOne rfl, bump_frame _ _ _ _ _ _ ⟨rfl, by simp⟩ ⟨rfl, by simp⟩⟩

theorem commandIdle_of_locked {h : Hall} {r : Nat} (hn : (h.array r).unlock = none) (code : Nat) : h.CommandIdle r code :=
  fun u hu => by simp [hn] at hu

theorem commandIdle_of_incomplete {h : Hall} {r : Nat} {u : Unlock} (hu : (h.array r).unlock = some u) (hc : u.complete = false)
    (code : Nat) : h.CommandIdle r code := fun v hv => by
  rw [hu, Option.some.injEq] at hv
  exact .inl (hv ▸ hc)

section FirstCycle
variable {s : State} {hub : Hub} {row : Fin 8} {offset : Nat} {data : Bytes} (ho : offset < s.hall.t2Bytes)
  (hg : s.hall.governing = some hub) (hn : (s.hall.array row).unlock = none)
include ho hg hn

/-- The first cycle opens a sequence. -/
theorem firstCycle_opens (hd : cmdCycle data = some 0x5A5A) (ha : offset = 0xAAA8) :
    Gives (.nvmcWindowWrite (.mp hub) row offset data) s fun h' =>
      h'.getF .nvmcStatusUnlock row = 1 ∧ (h'.array row).unlock = some { owner := hub } ∧ h'.mem = s.hall.mem := by
  have hb := windowWrite_governing (data := data) ho hg (commandIdle_of_locked hn)
  rw [windowWrite_locked hn, if_pos ⟨hd, ha⟩] at hb
  exact ⟨_, hb, setUnlock_spec _ _ _ _ (by decide)⟩

/-- Any other write to a locked row leaves it locked, and counts. -/
theorem firstCycle_counts (hd : cmdCycle data ≠ some 0x5A5A ∨ offset ≠ 0xAAA8) :
    Gives (.nvmcWindowWrite (.mp hub) row offset data) s fun h' =>
      ((h'.array row).unlock = none ∧ CountsOne .nvmcUnlockErr row s.hall h') ∧ h'.mem = s.hall.mem := by
  have hb := windowWrite_governing (data := data) ho hg (commandIdle_of_locked hn)
  rw [windowWrite_locked hn, if_neg (not_and_or.2 hd)] at hb
  exact ⟨_, hb, ⟨by rwa [bump_array], bump_countsOne rfl⟩, bump_mem ..⟩

end FirstCycle

section LaterCycles
variable {s : State} {hub : Hub} {row : Fin 8} {offset : Nat} {data : Bytes} {u : Unlock} (hu : (s.hall.array row).unlock = some u)
  (hc : u.complete = false) (hown : u.owner = hub) (ho : offset < s.hall.t2Bytes) (hg : s.hall.governing = some hub)
include hu hc hown ho hg

/-- The second cycle takes the sequence on. -/
theorem secondCycle_goesOn (hst : s.hall.getF .nvmcStatusUnlock row = 1) (hd : cmdCycle data = some 0xA5A5) (ha : offset = 0x5550) :
    Gives (.nvmcWindowWrite (.mp hub) row offset data) s fun h' =>
      h'.getF .nvmcStatusUnlock row = 2 ∧ (h'.array row).unlock = some u := by
  have hb := windowWrite_governing (data := data) ho hg (commandIdle_of_incomplete hu hc)
  rw [windowWrite_second hu hown hst, if_pos ⟨hd, ha⟩] at hb
  obtain ⟨hplace, hheld, -⟩ := setUnlock_spec s.hall row 2 u (by decide)
  exact ⟨_, hb, hplace, hheld⟩

/-- Any other write in its place ends the sequence, and counts. -/
theorem secondCycle_ends (hst : s.hall.getF .nvmcStatusUnlock row = 1) (hd : cmdCycle data ≠ some 0xA5A5 ∨ offset ≠ 0x5550) :
    Gives (.nvmcWindowWrite (.mp hub) row offset data) s fun h' =>
      ((h'.array row).unlock = none ∧ CountsOne .nvmcUnlockErr row s.hall h') ∧ h'.getF .nvmcStatusUnlock row = 0 := by
  have hb := windowWrite_governing (data := data) ho hg (commandIdle_of_incomplete hu hc)
  rw [windowWrite_second hu hown hst, if_neg (not_and_or.2 hd)] at hb
  obtain ⟨hnone, hcount, hplace, -⟩ := unlockAbandon_spec s.hall row
  exact ⟨_, hb, ⟨hnone, hcount⟩, hplace⟩

/-- The third cycle gives the command word. -/
theorem thirdCycle_goesOn {w : Nat} (hst : s.hall.getF .nvmcStatusUnlock row = 2) (hw : cmdCycle data = some w) (ha : offset = 0xAAA8)
    (hk : cmdKnown w = true) : Gives (.nvmcWindowWrite (.mp hub) row offset data) s fun h' =>
      h'.getF .nvmcStatusUnlock row = 3 ∧ (h'.array row).unlock = some { u with word := w } := by
  have hb := windowWrite_governing (data := data) ho hg (commandIdle_of_incomplete hu hc)
  rw [windowWrite_word hu hown hst hw, if_pos ⟨ha, hk⟩] at hb
  obtain ⟨hplace, hheld, -⟩ := setUnlock_spec s.hall row 3 { u with word := w } (by decide)
  exact ⟨_, hb, hplace, hheld⟩

/-- The single cycle of a command that carries no page, with a value that fits, completes it. -/
theorem lastCycle_completes {v : Nat} (hst : s.hall.getF .nvmcStatusUnlock row = 3) (hcode : cmdCode u.word ≠ 0x0010)
    (hv : cmdCycle data = some v) (hf : cycleFits u.word offset v = true) :
    Gives (.nvmcWindowWrite (.mp hub) row offset data) s fun h' =>
      (h'.array row).unlock = some { u with first := offset, value := v, complete := true } ∧ h'.getF .nvmcStatusUnlock row = 0 := by
  have hb := windowWrite_governing (data := data) ho hg (commandIdle_of_incomplete hu hc)
  rw [windowWrite_value hu hown hst hcode hv, if_pos hf] at hb
  obtain ⟨hplace, hheld, -⟩ :=
    setUnlock_spec s.hall row 0 { u with first := offset, value := v, complete := true } (by decide)
  exact ⟨_, hb, hheld, hplace⟩

/-- With any other value it ends the sequence, and counts. -/
theorem lastCycle_ends {v : Nat} (hst : s.hall.getF .nvmcStatusUnlock row = 3) (hcode : cmdCode u.word ≠ 0x0010)
    (hv : cmdCycle data = some v) (hf : cycleFits u.word offset v = false) :
    Gives (.nvmcWindowWrite (.mp hub) row offset data) s fun h' =>
      ((h'.array row).unlock = none ∧ CountsOne .nvmcUnlockErr row s.hall h') ∧ h'.getF .nvmcStatusUnlock row = 0 := by
  have hb := windowWrite_governing (data := data) ho hg (commandIdle_of_incomplete hu hc)
  rw [windowWrite_value hu hown hst hcode hv, if_neg (by simp [hf])] at hb
  obtain ⟨hnone, hcount, hplace, -⟩ := unlockAbandon_spec s.hall row
  exact ⟨_, hb, ⟨hnone, hcount⟩, hplace⟩

end LaterCycles

/-! ### A sequence lapses -/

theorem unlockLapse_idle {s : State} {row : Fin 8}
    (hi : (s.hall.array row).unlock = none ∨ ((s.hall.array row).unlock.any fun u => u.complete) = true) :
    Becomes (.nvmcUnlockLapse row) s s.hall := by
  change execNvmcUnlockLapse row s = _
  rw [execNvmcUnlockLapse, run_next]
  cases hu : (s.hall.array row).unlock with
  | none => rfl
  | some u =>
    have hc : u.complete = true := by simpa [hu] using hi
    simp [hc]

theorem unlockLapse_ends {s : State} {row : Fin 8} {u : Unlock} (hu : (s.hall.array row).unlock = some u) (hc : u.complete = false) :
    Becomes (.nvmcUnlockLapse row) s (s.hall.unlockAbandon row) := by
  change execNvmcUnlockLapse row s = _
  simp [execNvmcUnlockLapse, run_next, hu, hc]

/-! ### The ten commands (Table 12.4) -/

/-- The commands with their codes. -/
def arrayCmds (row : Fin 8) : List (Instr × Nat) :=
  [(.programPage row, 0x0010), (.eraseBlock row, 0x0020), (.blankCheck row, 0x0030), (.suspend row, 0x00B0), (.nvmResume row, 0x00D0),
   (.readStatus row, 0x0070), (.wpSet row, 0x0060), (.wpClear row, 0x0061), (.wpFreeze row, 0x0062), (.readPagePhys row, 0x00A0)]

/-- Each runs the complete sequence of its own code, with an action of its own. -/
theorem arrayCmds_exec (row : Fin 8) :
    ∀ e ∈ arrayCmds row, ∃ f, ∀ s : State, exec e.1 s = s.run fun h => h.nvCommand row e.2 f := by
  simp only [arrayCmds, List.forall_mem_cons, List.not_mem_nil, false_implies, implies_true, and_true]
  exact ⟨⟨_, fun _ => rfl⟩, ⟨_, fun _ => rfl⟩, ⟨_, fun _ => rfl⟩, ⟨_, fun _ => rfl⟩, ⟨_, fun _ => rfl⟩, ⟨_, fun _ => rfl⟩,
    ⟨_, fun _ => rfl⟩, ⟨_, fun _ => rfl⟩, ⟨_, fun _ => rfl⟩, ⟨_, fun _ => rfl⟩⟩

section Commands
variable {s : State} {row : Fin 8} {i : Instr} {code : Nat} {f : Hall → NvCmd → Hall}
  (hexec : exec i s = s.run fun h => h.nvCommand row code f)
include hexec

theorem command_idle (hi : s.hall.CommandIdle row code) : Becomes i s s.hall := by
  rw [Becomes, hexec, run_next, nvCommand_idle f hi]

theorem command_passes {c : NvCmd} (hc : s.hall.CommandHeld row c) (hcode : cmdCode c.word = code)
    (hpass : (s.hall.unlockEnd row).nvChecks row c = none) : Becomes i s (f (s.hall.commandLatched row c stOK) c) := by
  rw [Becomes, hexec, run_next, nvCommand_passes f hc hcode hpass]

/-- A refused command: its sequence ends, its status is latched, it is counted, and nothing else changes. -/
theorem command_refused {c : NvCmd} {st : Nat} (hc : s.hall.CommandHeld row c) (hcode : cmdCode c.word = code)
    (hst : (s.hall.unlockEnd row).nvChecks row c = some st) :
    Gives i s fun h' => (h'.array row).unlock = none ∧ h'.getF .nvmcLastCmdValid row = 1 ∧
      h'.getF .nvmcLastCmdResult row = st % 65536 ∧ h'.mem = s.hall.mem ∧ CountsOne .nvmcRefused row s.hall h' ∧
      Frame s.hall h' [.weights] (regsOf row [.nvmcStatusUnlock, .count .nvmcRefused, .sat .nvmcRefused, .nvmcLastCmdValid,
        .nvmcLastCmdResult, .nvmcLastCmd, .nvmcLastCmdBank]) := by
  have hb : Becomes i s (((s.hall.unlockEnd row).bump .nvmcRefused row).lastCmd row st c.word (nvBank c.pblock)) := by
    rw [Becomes, hexec, run_next, nvCommand_refused f hc hcode hst]
  have hended := unlockEnd_frame s.hall row
  have hcounted : CountsOne .nvmcRefused row s.hall ((s.hall.unlockEnd row).bump .nvmcRefused row) :=
    bump_countsOne (hended.2 _ _ (by simp [regsOf]))
  obtain ⟨hvalid, hresult⟩ := lastCmd_shown ((s.hall.unlockEnd row).bump .nvmcRefused row) row st c.word (nvBank c.pblock)
  refine ⟨_, hb, by simp, hvalid, hresult, by simp, hcounted.of_getF_eq ?_, ?_⟩
  · exact (lastCmd_frame _ _ _ _ _ [] (regsOf row lastCmdFlds) fun _ hf => ⟨rfl, hf⟩).2 _ _ (by simp [regsOf, lastCmdFlds])
  · exact ((hended.mono (fun _ hp => hp) fun _ _ => regsOf_mono (by simp)).trans
      (bump_frame _ _ _ _ _ _ ⟨rfl, by simp⟩ ⟨rfl, by simp⟩)).trans
        (lastCmd_frame _ _ _ _ _ _ _ fun g hg => ⟨rfl, by simp_all [lastCmdFlds]⟩)

end Commands

/-- WP_SET and WP_CLEAR are one command, with the value of the bit. -/
theorem exec_wp (s : State) (row : Fin 8) (v : Bool) : exec (if v then .wpSet row else .wpClear row) s = s.run fun h =>
    h.nvCommand row (if v then 0x0060 else 0x0061) fun h c =>
      if cmdPhys c.word then h.setB .nvmcWpSysWp row v else h.setWp row (c.offset / 2 ^ 30) v := by
  cases v <;> rfl

/-- The two results of BLANK_CHECK fit the field that shows them. -/
theorem blankResult_mod (b : Bool) : (if b then stOK else stNotErased) % 65536 = if b then stOK else stNotErased := by
  cases b <;> rfl

section Accepted
variable {s : State} {row : Fin 8} {c : NvCmd} (hc : s.hall.CommandHeld row c) (hpass : (s.hall.unlockEnd row).nvChecks row c = none)
include hc hpass

/-- PROGRAM_PAGE starts on a blank page and fails on any other. -/
theorem programPage_passes (hcode : cmdCode c.word = 0x0010) : Gives (.programPage row) s fun h' =>
    if s.hall.nvBlank row c.pblock (c.page * nvPageBytes) nvPageBytes then
      Started s.hall h' row c.pblock 1 ∧ (h'.bankOp row (nvBank c.pblock)).data = c.data
    else h'.bankState row (nvBank c.pblock) = 3 ∧ h'.getF .nvmcBankResult (bankU row (nvBank c.pblock)) = stNotErased ∧
      h'.mem = s.hall.mem := by
  refine ⟨_, command_passes rfl hc hcode hpass, ?_⟩
  cases hblank : s.hall.nvBlank row c.pblock (c.page * nvPageBytes) nvPageBytes with
  | true =>
    simp only [bankStart_nvBlank, commandLatched_nvBlank, hblank, if_true]
    exact ⟨bankStart_started _ _ _ _ _ _ _ (by decide) (by simp), by simp⟩
  | false =>
    simp only [bankStart_nvBlank, commandLatched_nvBlank, hblank, Bool.false_eq_true, if_false]
    exact ⟨bankState_bankEnd .., bankResult_bankEnd .., by simp⟩

theorem eraseBlock_passes (hcode : cmdCode c.word = 0x0020) :
    Gives (.eraseBlock row) s fun h' => Started s.hall h' row c.pblock 2 :=
  ⟨_, command_passes rfl hc hcode hpass, bankStart_started _ _ _ _ _ _ _ (by decide) (by simp)⟩

/-- BLANK_CHECK of a page or of a whole block, in a bank that is not suspended, answers at once. -/
theorem blankCheck_passes (hcode : cmdCode c.word = 0x0030) (hs : s.hall.bankSuspended row (nvBank c.pblock) = false) :
    Gives (.blankCheck row) s fun h' =>
      h'.bankState row (nvBank c.pblock) = 3 ∧ h'.mem = s.hall.mem ∧
      h'.getF .nvmcBankResult (bankU row (nvBank c.pblock)) =
        (if (if c.value = 0 then s.hall.nvBlank row c.pblock (c.page * nvPageBytes) nvPageBytes
          else s.hall.nvBlank row c.pblock 0 nvBlockBytes) then stOK else stNotErased) := by
  refine ⟨_, command_passes rfl hc hcode hpass, ?_⟩
  simp only [commandLatched_nvBlank, commandLatched_bankSuspended, hs, Bool.false_eq_true, if_false]
  exact ⟨bankState_bankEnd .., by simp, (bankResult_bankEnd ..).trans (blankResult_mod _)⟩

theorem suspend_passes (hcode : cmdCode c.word = 0x00B0) : Gives (.suspend row) s fun h' =>
    (h'.bankOp row (nvBank c.pblock)).heldSuspend = true ∧ h'.mem = s.hall.mem :=
  ⟨_, command_passes rfl hc hcode hpass, by simp, by simp⟩

/-- RESUME drops a held SUSPEND and takes a suspended bank on. -/
theorem nvmResume_passes (hcode : cmdCode c.word = 0x00D0) : Gives (.nvmResume row) s fun h' =>
    (h'.bankOp row (nvBank c.pblock)).heldSuspend = false ∧ h'.bankState row (nvBank c.pblock) = 1 := by
  have hallowed : s.hall.bankSuspended row (nvBank c.pblock) = false → s.hall.bankState row (nvBank c.pblock) = 1 := by
    simpa using bankState_of_bankAllows_resume hcode (bankAllows_of_nvChecks hpass)
  refine ⟨_, command_passes rfl hc hcode hpass, ?_⟩
  simp only [commandLatched_bankOp, setBankOp_bankSuspended, commandLatched_bankSuspended]
  split
  next hs => exact ⟨by simp, bankState_setBankState ..⟩
  next hs => exact ⟨by simp, by simpa using hallowed (by simpa using hs)⟩

theorem readStatus_passes (hcode : cmdCode c.word = 0x0070) : Gives (.readStatus row) s fun h' =>
    h'.getF .nvmcLastCmdResult row = stOK ∧ Frame s.hall h' [.weights] (regsOf row (.nvmcStatusUnlock :: lastCmdFlds)) :=
  ⟨_, command_passes rfl hc hcode hpass, (lastCmd_shown ..).2, commandLatched_frame ..⟩

theorem wpFreeze_passes (hcode : cmdCode c.word = 0x0062) : Gives (.wpFreeze row) s fun h' =>
    h'.getF .nvmcStatusFrozen row = 1 ∧ h'.mem = s.hall.mem :=
  ⟨_, command_passes rfl hc hcode hpass, getF_setF_same .., by simp⟩

theorem wp_passes (v : Bool) (hcode : cmdCode c.word = if v then 0x0060 else 0x0061) :
    Gives (if v then .wpSet row else .wpClear row) s fun h' =>
      (cmdPhys c.word = true → h'.flag .nvmcWpSysWp row = v) ∧
      (cmdPhys c.word = false → h'.wpSector row (c.offset / 2 ^ 30) = v) ∧ h'.mem = s.hall.mem := by
  refine ⟨_, command_passes (exec_wp s row v) hc hcode hpass, ?_⟩
  cases hphys : cmdPhys c.word
  · exact ⟨by simp, fun _ => wpSector_setWp .., by simp⟩
  · exact ⟨fun _ => flag_setB_same _ _ _ _ rfl, by simp, by simp⟩

theorem readPagePhys_passes (hcode : cmdCode c.word = 0x00A0) (hs : s.hall.bankSuspended row (nvBank c.pblock) = false) :
    Gives (.readPagePhys row) s fun h' => Started s.hall h' row c.pblock 4 := by
  refine ⟨_, command_passes rfl hc hcode hpass, ?_⟩
  dsimp only
  rw [if_neg (by simp [hs])]
  exact bankStart_started _ _ _ _ _ _ _ (by decide) (by simp)

end Accepted

/-! ### The statement -/

/-- Settles O52: a window write is the cycle that its place in the sequence asks for, or it counts; each command is the one
complete sequence of its code, run by its own action or refused by the checks of Table 12.5. -/
theorem arrayCommands : Obligations.ArrayCommands := by
  refine ⟨fun s hub row offset data => ?_, fun s row => ?_, fun s row => ⟨fun e he => ?_, fun u hu hdone hpass => ?_⟩⟩
  · refine ⟨windowWrite_outside, fun ho hg => ⟨_, windowWrite_standby ho hg, unlockErr_spec ..⟩,
      fun ho hg hn => ⟨firstCycle_opens ho hg hn, firstCycle_counts ho hg hn⟩,
      fun p ho => ⟨_, windowWrite_pf0 p ho, unlockErr_spec ..⟩, fun u hu hc hown ho hg => ?_⟩
    exact ⟨secondCycle_goesOn hu hc hown ho hg, secondCycle_ends hu hc hown ho hg, fun w => thirdCycle_goesOn hu hc hown ho hg,
      fun v hst hcode hv => ⟨lastCycle_completes hu hc hown ho hg hst hcode hv, lastCycle_ends hu hc hown ho hg hst hcode hv⟩⟩
  · refine ⟨unlockLapse_idle, fun u hu hc => ?_⟩
    obtain ⟨hnone, -, hplace, hmem⟩ := unlockAbandon_spec s.hall row
    exact ⟨_, unlockLapse_ends hu hc, hnone, hplace, hmem⟩
  · obtain ⟨f, hexec⟩ := arrayCmds_exec row e he
    exact ⟨fun u hu hidle => command_idle (hexec s) fun v hv => by rwa [← Option.some.inj (hu.symm.trans hv)],
      fun hn => command_idle (hexec s) (commandIdle_of_locked hn _),
      fun u st hu hdone hcode hst => command_refused (hexec s) ⟨u, hu, hdone, rfl⟩ hcode hst⟩
  · have hc : s.hall.CommandHeld row (s.hall.nvTarget row u) := ⟨u, hu, hdone, rfl⟩
    refine ⟨programPage_passes hc hpass, eraseBlock_passes hc hpass, blankCheck_passes hc hpass, suspend_passes hc hpass,
      nvmResume_passes hc hpass, readStatus_passes hc hpass, fun v hcode => ?_, wpFreeze_passes hc hpass, readPagePhys_passes hc hpass⟩
    obtain ⟨h', hb, hsys, hsector, hmem⟩ := wp_passes hc hpass v hcode
    exact ⟨h', hb, hsys, fun hphys _ => hsector hphys, hmem⟩

end Sys2Proof.Machine
end

section
/-! SUPPORT. What leaves lots, installations and swaps as they are: the weight arrays, their commands and their blocks, the pool, channels
and images, and copies of staged bytes (R264, R298, R305, R324, R336, R338). -/

namespace Sys2Proof.Machine

/-! ### Lots, installations and swaps -/

/-- The lots, the installations and the swaps. -/
def Weights.jobs (w : Weights) : Tab Lot × Tab Install × Tab Swap := (w.lots, w.installs, w.swaps)

section
variable {h h' : Hall}

theorem lot_of_jobs (e : h'.weights.jobs = h.weights.jobs) (k : Nat) : h'.lot k = h.lot k :=
  congrArg (fun j : Tab Lot × Tab Install × Tab Swap => Tab.find j.1 k) e

theorem install_of_jobs (e : h'.weights.jobs = h.weights.jobs) (k : Nat) : h'.install k = h.install k :=
  congrArg (fun j : Tab Lot × Tab Install × Tab Swap => Tab.find j.2.1 k) e

theorem swap_of_jobs (e : h'.weights.jobs = h.weights.jobs) (k : Nat) : h'.swap k = h.swap k :=
  congrArg (fun j : Tab Lot × Tab Install × Tab Swap => Tab.find j.2.2 k) e

end

@[simp] theorem jobs_ite (p : Prop) [Decidable p] (a b : Hall) :
    (if p then a else b).weights.jobs = if p then a.weights.jobs else b.weights.jobs := apply_ite (fun h : Hall => h.weights.jobs) p a b

/-- A fold keeps what each of its steps keeps. -/
@[simp] theorem foldl_jobs {α : Type} (f : Hall → α → Hall) (hf : ∀ h a, (f h a).weights.jobs = h.weights.jobs) (l : List α) (h : Hall) :
    (l.foldl f h).weights.jobs = h.weights.jobs := foldl_same (fun h : Hall => h.weights.jobs) f hf l h

@[simp] theorem upTo_jobs (n : Nat) (h : Hall) (f : Hall → Nat → Hall) (hf : ∀ h k, (f h k).weights.jobs = h.weights.jobs) :
    (upTo n h f).weights.jobs = h.weights.jobs := foldl_jobs f hf _ h

/-! ### Blocks of the arrays (R298, R299, R310, R324) -/

@[simp] theorem updArray_jobs (h : Hall) (r : Nat) (f : NvArray → NvArray) : (h.updArray r f).weights.jobs = h.weights.jobs := rfl
@[simp] theorem nvErase_weights (h : Hall) (r p : Nat) : (h.nvErase r p).weights = h.weights := rfl
@[simp] theorem nvWrite_weights (h : Hall) (r p o : Nat) (bs : Bytes) : (h.nvWrite r p o bs).weights = h.weights := rfl

@[simp] theorem nvSetPool_jobs (h : Hall) (r p : Nat) (inside : Bool) : (h.nvSetPool r p inside).weights.jobs = h.weights.jobs := by
  simp [Hall.nvSetPool]

@[simp] theorem nvRetire_jobs (h : Hall) (r p : Nat) : (h.nvRetire r p).weights.jobs = h.weights.jobs := by simp [Hall.nvRetire]
@[simp] theorem nvReturn_jobs (h : Hall) (r p : Nat) : (h.nvReturn r p).weights.jobs = h.weights.jobs := by simp [Hall.nvReturn]
@[simp] theorem nvEraseDone_jobs (h : Hall) (r p : Nat) : (h.nvEraseDone r p).weights.jobs = h.weights.jobs := by simp [Hall.nvEraseDone]

@[simp] theorem nvProgramPage_jobs (h : Hall) (r p page : Nat) (data : Bytes) :
    (h.nvProgramPage r p page data).weights.jobs = h.weights.jobs := by simp [Hall.nvProgramPage]

@[simp] theorem bmapApply_jobs (h : Hall) (r : Nat) (es : List (Nat × Nat)) : (h.bmapApply r es).weights.jobs = h.weights.jobs := by
  simp [Hall.bmapApply]

@[simp] theorem setWp_jobs (h : Hall) (r n : Nat) (v : Bool) : (h.setWp r n v).weights.jobs = h.weights.jobs := by simp [Hall.setWp]

@[simp] theorem fillBlock_jobs (h : Hall) (r p : Nat) (data : Bytes) : (h.fillBlock r p data).weights.jobs = h.weights.jobs := by
  simp [Hall.fillBlock]

@[simp] theorem programShard_jobs (h : Hall) (r l : Nat) (data : Bytes) : (h.programShard r l data).weights.jobs = h.weights.jobs := by
  unfold Hall.programShard
  dsimp only
  (repeat' split) <;> simp

@[simp] theorem forgetBlocks_jobs (h : Hall) (pair first n : Nat) : (h.forgetBlocks pair first n).weights.jobs = h.weights.jobs := by
  simp [Hall.forgetBlocks]

@[simp] theorem oldSettle_jobs (h : Hall) : h.oldSettle.weights.jobs = h.weights.jobs := by
  unfold Hall.oldSettle
  dsimp only
  rw [foldl_jobs _ fun g b => by simp]
  rfl

@[simp] theorem dropSpares_jobs (h : Hall) (w : Swap) : (h.dropSpares w).weights.jobs = h.weights.jobs := by
  unfold Hall.dropSpares
  split
  · rfl
  · dsimp only
    rw [foldl_jobs _ fun g e => by simp, foldl_jobs _ fun g e => by simp]

/-! ### Neighbours, events and operations -/

@[simp] theorem updNbr_weights (h : Hall) (p : Nat) (f : NbrPort → NbrPort) : (h.updNbr p f).weights = h.weights := rfl

@[simp] theorem nbrPost_weights (h : Hall) (p c typ : Nat) (body : Bytes) (units : Nat) :
    (h.nbrPost p c typ body units).weights = h.weights := (nbrPost_sameCargo ..).weights

@[simp] theorem postMany_weights (h : Hall) (pens : List Nat) (typ : Nat) (detail : Bytes) :
    (h.postMany pens typ detail).weights = h.weights := (postMany_frame h pens typ detail).1 .weights (by simp [postParts])

@[simp] theorem closeOp_weights (h : Hall) (k status : Nat) (detail : Bytes) : (h.closeOp k status detail).weights = h.weights :=
  (closeOp_frame h k status detail).1 .weights (by simp [postParts])

@[simp] theorem farPump_jobs (h : Hall) (p : Nat) : (h.farPump p).weights.jobs = h.weights.jobs := by simp [Hall.farPump]
@[simp] theorem farDrop_jobs (h : Hall) (read : Nat) : (h.farDrop read).weights.jobs = h.weights.jobs := by simp [Hall.farDrop]

@[simp] theorem farStart_jobs (h : Hall) (addr n read : Nat) (fill : Option (Nat × Nat)) :
    (h.farStart addr n read fill).weights.jobs = h.weights.jobs := by simp [Hall.farStart]

/-! ### The pool (R265, R266) -/

@[simp] theorem updFrame_jobs (h : Hall) (hub : Hub) (page : Nat) (f : PoolFrame → PoolFrame) :
    (h.updFrame hub page f).weights.jobs = h.weights.jobs := by cases hub <;> rfl

@[simp] theorem poolFill_jobs (h : Hall) (hub : Hub) (home : Nat) : (h.poolFill hub home).weights.jobs = h.weights.jobs := by
  unfold Hall.poolFill
  dsimp only
  (repeat' split) <;> simp [Hall.startCopy]

@[simp] theorem poolInvalidateIn_jobs (h : Hall) (hub : Hub) (bad : Nat → Bool) :
    (h.poolInvalidateIn hub bad).weights.jobs = h.weights.jobs := by
  refine foldl_jobs _ (fun g e => ?_) _ h
  dsimp only
  (repeat' split) <;> simp

@[simp] theorem poolInvalidate_jobs (h : Hall) (bad : Nat → Bool) : (h.poolInvalidate bad).weights.jobs = h.weights.jobs := by
  simp [Hall.poolInvalidate]

/-! ### Commands of the weight arrays that a burst's write completes (R305, R306) -/

@[simp] theorem setBankOp_jobs (h : Hall) (r b : Nat) (o : BankOp) : (h.setBankOp r b o).weights.jobs = h.weights.jobs := rfl
@[simp] theorem setBankState_weights (h : Hall) (r b st : Nat) : (h.setBankState r b st).weights = h.weights := rfl

@[simp] theorem bankStart_jobs (h : Hall) (r p page op : Nat) (phys : Bool) (o : BankOp) :
    (h.bankStart r p page op phys o).weights.jobs = h.weights.jobs := by simp [Hall.bankStart]

@[simp] theorem bankEnd_jobs (h : Hall) (r b status : Nat) : (h.bankEnd r b status).weights.jobs = h.weights.jobs := rfl
@[simp] theorem lastCmd_weights (h : Hall) (r st cmd bank : Nat) : (h.lastCmd r st cmd bank).weights = h.weights := setFs_weights ..
@[simp] theorem unlockEnd_jobs (h : Hall) (r : Nat) : (h.unlockEnd r).weights.jobs = h.weights.jobs := rfl
@[simp] theorem setUnlock_jobs (h : Hall) (r st : Nat) (u : Unlock) : (h.setUnlock r st u).weights.jobs = h.weights.jobs := rfl

@[simp] theorem unlockAbandon_jobs (h : Hall) (r : Nat) : (h.unlockAbandon r).weights.jobs = h.weights.jobs := by
  simp [Hall.unlockAbandon]

@[simp] theorem windowWrite_jobs (h : Hall) (hub : Hub) (r offset : Nat) (data : Bytes) :
    (h.windowWrite hub r offset data).weights.jobs = h.weights.jobs := by
  unfold Hall.windowWrite
  (repeat' split) <;> simp

/-- A command that runs or is refused keeps what its own action keeps. -/
@[simp] theorem nvCommand_jobs (h : Hall) (r code : Nat) (f : Hall → NvCmd → Hall)
    (hf : ∀ h c, (f h c).weights.jobs = h.weights.jobs) : (h.nvCommand r code f).weights.jobs = h.weights.jobs := by
  unfold Hall.nvCommand
  split
  · split
    · dsimp only
      split <;> simp [hf]
    · rfl
  · rfl

@[simp] theorem cmdFreeze_jobs (h : Hall) (r : Nat) : (h.cmdFreeze r).weights.jobs = h.weights.jobs :=
  nvCommand_jobs h r _ _ fun _ _ => rfl

@[simp] theorem cmdSuspend_jobs (h : Hall) (r : Nat) : (h.cmdSuspend r).weights.jobs = h.weights.jobs :=
  nvCommand_jobs h r _ _ fun _ _ => rfl

@[simp] theorem cmdResume_jobs (h : Hall) (r : Nat) : (h.cmdResume r).weights.jobs = h.weights.jobs :=
  nvCommand_jobs h r _ _ fun _ _ => by
    dsimp only
    split <;> rfl

@[simp] theorem nvRunComplete_jobs (h : Hall) (r : Nat) : (h.nvRunComplete r).weights.jobs = h.weights.jobs := by
  simp [Hall.nvRunComplete, Hall.cmdProgram, Hall.cmdErase, Hall.cmdBlank, Hall.cmdReadStatus, Hall.cmdWp, Hall.cmdReadPage]

/-! ### Channels and images released (R201, R291) -/

@[simp] theorem provWrite_jobs (h : Hall) (k : RunKey) (a : Nat) (p : Payload) : (h.provWrite k a p).weights.jobs = h.weights.jobs := by
  unfold Hall.provWrite
  dsimp only
  rw [writeRam_weights, foldl_jobs]
  intro g line
  split
  · split <;> rfl
  · rfl

@[simp] theorem physWrite_jobs (h : Hall) (a : Nat) (p : Payload) : (h.physWrite a p).weights.jobs = h.weights.jobs := by
  unfold Hall.physWrite
  (repeat' split) <;> simp

@[simp] theorem updReq_weights (h : Hall) (t : Nat) (f : Req → Req) : (h.updReq t f).weights = h.weights := by
  unfold Hall.updReq
  split <;> rfl

@[simp] theorem hostWrite_weights (h : Hall) (a : Nat) (bs : Bytes) : (h.hostWrite a bs).weights = h.weights := rfl

@[simp] theorem land_jobs (h : Hall) (c : Nat) (b : DmaBurst) (p : Payload) : (h.land c b p).weights.jobs = h.weights.jobs := by
  unfold Hall.land
  (repeat' split) <;> simp [Hall.updRun]

@[simp] theorem burstLeaves_jobs (h : Hall) (b : DmaBurst) : (h.burstLeaves b).weights.jobs = h.weights.jobs := by
  unfold Hall.burstLeaves
  split <;> simp [Hall.frameBurstDone]

@[simp] theorem dropReads_jobs (h : Hall) (c : Nat) : (h.dropReads c).weights.jobs = h.weights.jobs := by
  refine foldl_jobs _ (fun g b => ?_) _ h
  split <;> simp

@[simp] theorem free_weights (h : Hall) : h.free.2.weights = h.weights := rfl

@[simp] theorem chanDrop_jobs (h : Hall) (c : Nat) : (h.chanDrop c).weights.jobs = h.weights.jobs := by
  unfold Hall.chanDrop
  split
  · rfl
  · dsimp only
    rw [bump_weights, updChan_weights, setFs_weights, free_weights, free_weights, free_weights, free_weights, foldl_jobs, dropReads_jobs]
    intro g b
    split
    · split <;> simp
    · simp

@[simp] theorem setWorld_weights (h : Hall) (kind idx : Nat) (secure : Bool) : (h.setWorld kind idx secure).weights = h.weights := rfl

@[simp] theorem chanRelease_jobs (h : Hall) (c : Nat) : (h.chanRelease c).weights.jobs = h.weights.jobs := by
  simp [Hall.chanRelease]

@[simp] theorem bufWorld_weights (h : Hall) (r : Nat) (b : Nat × Nat) : (h.bufWorld r b).weights = h.weights :=
  (bufWorld_frame h r b).1 .weights (by simp)

@[simp] theorem redesignate_weights (h : Hall) (p : Nat) : (h.redesignate p).weights = h.weights :=
  (redesignate_frame h p).1 .weights (by simp)

/-- Letting go of an image drops its layer counters alone. -/
theorem jobs_crossings (w : Weights) (l : List Crossing) : Weights.jobs { w with crossings := l } = w.jobs := rfl

@[simp] theorem imageFree_jobs (h : Hall) (handle : Nat) : (h.imageFree handle).weights.jobs = h.weights.jobs := by
  have hgone (l : List RunKey) (f : RunKey → Tally → Tally) (g : Hall) :
      (l.foldl (fun g k => (g.releaseRun k).updTally k.row (f k)) g).weights.jobs = g.weights.jobs :=
    foldl_jobs (fun g k => (g.releaseRun k).updTally k.row (f k)) (fun _ _ => rfl) l g
  unfold Hall.imageFree
  dsimp only
  split <;> simp [jobs_crossings, hgone]

/-! ### Images started, and pages mapped anew (R202, R338) -/

@[simp] theorem nvMirrorRead_weights (h : Hall) (pref o n : Nat) : (h.nvMirrorRead pref o n).2.weights = h.weights :=
  (nvMirrorRead_sameCargo h 0 pref o n).weights

@[simp] theorem copyPair_weights (h : Hall) (im : Image) (lot l s tensor off : Nat) :
    (h.copyPair im lot l s tensor off).weights = h.weights := by
  grind [Hall.copyPair, writeRam_weights, nvMirrorRead_weights]

@[simp] theorem initStore_weights (h : Hall) (im : Image) (ls : Nat × Nat) : (h.initStore im ls).weights = h.weights := by
  unfold Hall.initStore
  split
  · exact writeBytes_weights ..
  · rfl

@[simp] theorem startStores_weights (h : Hall) (im : Image) : (h.startStores im).weights = h.weights :=
  (foldl_same Hall.weights _ (fun g _ => copyPair_weights g im ..) im.tableRefs (im.lstalls.foldl (fun g ls => g.initStore im ls) h)).trans
    (foldl_same Hall.weights _ (fun g ls => initStore_weights g im ls) im.lstalls h)

@[simp] theorem resetTroughs_weights (h : Hall) (handle : Nat) : (h.resetTroughs handle).weights = h.weights := rfl
@[simp] theorem updEntries_weights (h : Hall) (handle : Nat) (f : LaunchEntry → LaunchEntry) :
    (h.updEntries handle f).weights = h.weights := rfl

@[simp] theorem updImage_weights (h : Hall) (k : Nat) (f : Image → Image) : (h.updImage k f).weights = h.weights :=
  (updImage_frame h k f).1 .weights (by simp)

@[simp] theorem chanEnable_weights (h : Hall) (c : Nat) : (h.chanEnable c).weights = h.weights := by
  unfold Hall.chanEnable
  dsimp only
  split <;> simp

@[simp] theorem imageStart_jobs (h : Hall) (handle : Nat) : (h.imageStart handle).weights.jobs = h.weights.jobs := by
  unfold Hall.imageStart
  split <;> simp

@[simp] theorem changeImage_jobs (h : Hall) (old new : Nat) : (h.changeImage old new).weights.jobs = h.weights.jobs := by
  unfold Hall.changeImage
  split <;> simp

@[simp] theorem setPte_weights (h : Hall) (pen mva : Nat) (e : Option Nat) : (h.setPte pen mva e).weights = h.weights := rfl

@[simp] theorem remapPages_jobs (h : Hall) (pen : Nat) (old new : Lot) : (h.remapPages pen old new).weights.jobs = h.weights.jobs := by
  refine foldl_jobs _ (fun g e => ?_) _ h
  split <;> simp

@[simp] theorem remapIds_jobs (h : Hall) (pen old new : Nat) : (h.remapIds pen old new).weights.jobs = h.weights.jobs := rfl

theorem jobs_adapters (w : Weights) (t : Tab Adapter) : Weights.jobs { w with adapters := t } = w.jobs := rfl

@[simp] theorem remapAdapters_jobs (h : Hall) (pen ka kb : Nat) (a b : Adapter) :
    (h.remapAdapters pen ka kb a b).weights.jobs = h.weights.jobs := by
  unfold Hall.remapAdapters
  dsimp only
  rw [jobs_adapters, foldl_jobs]
  exact fun _ _ => rfl

/-- The flip of a consistent swap ends no job and starts none. -/
@[simp] theorem consistentFlip_jobs (h : Hall) (w : Swap) : (h.consistentFlip w).weights.jobs = h.weights.jobs := by
  unfold Hall.consistentFlip
  dsimp only
  rw [foldl_jobs]
  · (repeat' split) <;> simp
  · intro g e
    split
    · exact congrArg Weights.jobs (foldl_same Hall.weights _ (fun g t => copyPair_weights ..) _ _)
    · rfl

/-! ### Copies of staged bytes (R255) -/

@[simp] theorem latchMmu_weights (h : Hall) (u cause pen page : Nat) : (h.latchMmu u cause pen page).weights = h.weights := by
  unfold Hall.latchMmu
  split <;> simp

@[simp] theorem mmuApply_weights (h : Hall) (u : Nat) : (h.mmuApply u).weights = h.weights := by
  unfold Hall.mmuApply
  split
  · rfl
  · dsimp only
    split <;> split_ifs <;> simp

@[simp] theorem translate_weights (h : Hall) (hub : Hub) (pen mva : Nat) (write hubChain : Bool) :
    (h.translate hub pen mva write hubChain).2.weights = h.weights := by
  have hcount (b : Bool) : (if b then (h.mmuApply (hubNum hub)).bump .mmuTranslations (hubNum hub)
      else ((h.mmuApply (hubNum hub)).bump .mmuTranslations (hubNum hub)).bump .mmuWalks (hubNum hub)).weights = h.weights := by
    cases b <;> simp
  unfold Hall.translate
  dsimp only
  split
  · simp [hcount]
  · split
    · cases hub <;> dsimp only <;> split_ifs <;> simp
    · cases hub <;> dsimp only <;> split_ifs <;> simp

@[simp] theorem mvaRead_weights (h : Hall) (hub : Hub) (pen mva n : Nat) : (h.mvaRead hub pen mva n).2.weights = h.weights := by
  refine foldl_same (fun acc : Option Payload × Hall => acc.2.weights) _ (fun acc piece => ?_) (mvaPieces mva n) (some [], h)
  grind [translate_weights, nvMirrorRead_weights]

@[simp] theorem stageCopy_weights (h : Hall) (pen mva n : Nat) : (h.stageCopy pen mva n).2.weights = h.weights := by
  have hread := mvaRead_weights h h.govHub pen mva n
  rw [Hall.stageCopy]
  generalize h.mvaRead h.govHub pen mva n = read at hread ⊢
  obtain ⟨_ | p, g⟩ := read
  · exact hread
  · dsimp only
    split <;> exact hread

end Sys2Proof.Machine
end

section
/-! SUPPORT. Jobs in progress: updates of lots, installations and swaps, what a job asks of its sources, and how it ends (R326–R328, R335,
R336, R338, R401). -/

namespace Sys2Proof.Machine

/-! ### Updates of one lot, installation or swap -/

@[simp] theorem lot_updLot_same (h : Hall) (k : Nat) (f : Lot → Lot) : (h.updLot k f).lot k = (h.lot k).map f := by
  unfold Hall.updLot
  split
  · next l hl => exact (Tab.find_set_same ..).trans (by rw [hl]; rfl)
  · next hl => rw [hl]; rfl

theorem lot_updLot_ne (h : Hall) (k j : Nat) (f : Lot → Lot) (hj : j ≠ k) : (h.updLot k f).lot j = h.lot j := by
  unfold Hall.updLot
  split
  · exact Tab.find_set_ne _ _ _ _ hj
  · rfl

/-- What an update leaves of its lot it leaves of every lot. -/
theorem lot_updLot_field {α : Type} (field : Lot → α) (h : Hall) (k j : Nat) (f : Lot → Lot) (hf : ∀ l, field (f l) = field l) :
    ((h.updLot k f).lot j).map field = (h.lot j).map field := by
  by_cases hj : j = k
  · subst hj
    rw [lot_updLot_same, Option.map_map]
    exact Option.map_congr fun l _ => hf l
  · rw [lot_updLot_ne _ _ _ _ hj]

@[simp] theorem install_updInstall_same (h : Hall) (k : Nat) (f : Install → Install) :
    (h.updInstall k f).install k = (h.install k).map f := by
  unfold Hall.updInstall
  split
  · next x hx => exact (Tab.find_set_same ..).trans (by rw [hx]; rfl)
  · next hx => rw [hx]; rfl

@[simp] theorem swap_updSwap_same (h : Hall) (k : Nat) (f : Swap → Swap) : (h.updSwap k f).swap k = (h.swap k).map f := by
  unfold Hall.updSwap
  split
  · next w hw => exact (Tab.find_set_same ..).trans (by rw [hw]; rfl)
  · next hw => rw [hw]; rfl

@[simp] theorem lot_updSwap (h : Hall) (k j : Nat) (f : Swap → Swap) : (h.updSwap k f).lot j = h.lot j := by
  unfold Hall.updSwap
  split <;> rfl

@[simp] theorem install_updSwap (h : Hall) (k j : Nat) (f : Swap → Swap) : (h.updSwap k f).install j = h.install j := by
  unfold Hall.updSwap
  split <;> rfl

theorem updLot_frame (h : Hall) (k : Nat) (f : Lot → Lot) : Frame h (h.updLot k f) [.weights] noReg := by
  unfold Hall.updLot
  split
  · exact frame_of_parts (fun p hp => by cases p <;> simp_all [Part.same]) rfl
  · exact .refl ..

theorem updInstall_frame (h : Hall) (k : Nat) (f : Install → Install) : Frame h (h.updInstall k f) [.weights] noReg := by
  unfold Hall.updInstall
  split
  · exact frame_of_parts (fun p hp => by cases p <;> simp_all [Part.same]) rfl
  · exact .refl ..

theorem updSwap_frame (h : Hall) (k : Nat) (f : Swap → Swap) : Frame h (h.updSwap k f) [.weights] noReg := by
  unfold Hall.updSwap
  split
  · exact frame_of_parts (fun p hp => by cases p <;> simp_all [Part.same]) rfl
  · exact .refl ..

/-! ### What a job asks of its sources (R326, R401) -/

/-- Between `h` and `h'` only the neighbours' transfers and lines have moved. -/
def LineMoves (h h' : Hall) : Prop := Frame h h' [.nbrs, .outs, .draws] lineReg

section
variable {h h' h'' : Hall}

theorem LineMoves.refl (h : Hall) : LineMoves h h := Frame.refl ..
theorem LineMoves.trans (a : LineMoves h h') (b : LineMoves h' h'') : LineMoves h h'' := Frame.trans a b

theorem LineMoves.foldl {α : Type} (f : Hall → α → Hall) (hf : ∀ g a, LineMoves g (f g a)) (l : List α) (h : Hall) :
    LineMoves h (l.foldl f h) := Frame.foldl f hf l h

theorem LineMoves.weights (a : LineMoves h h') : h'.weights = h.weights := a.1 .weights (by simp)
theorem LineMoves.mem (a : LineMoves h h') : h'.mem = h.mem := a.mem_eq (by simp)

end

theorem updNbr_lineMoves (h : Hall) (p : Nat) (f : NbrPort → NbrPort) : LineMoves h (h.updNbr p f) :=
  (updNbr_frame h p f _).mono (by simp) fun _ _ => id

theorem nbrPost_lineMoves (h : Hall) (p c typ : Nat) (body : Bytes) (units : Nat) : LineMoves h (h.nbrPost p c typ body units) :=
  (nbrPost_sameCargo h p c typ body units).frame

theorem sendWant_lineMoves (h : Hall) (p key : Nat) (l : List Nat) : LineMoves h (h.sendWant p key l) := nbrPost_lineMoves ..

theorem askSource_lineMoves (h : Hall) (k : Nat) (j : Job) (src : Nat) (s : Source) : LineMoves h (h.askSource k j src s) := by
  unfold Hall.askSource
  dsimp only
  split
  · exact .refl h
  split
  · exact (updNbr_lineMoves ..).trans (nbrPost_lineMoves ..)
  · split
    · exact .refl h
    · exact (updNbr_lineMoves ..).trans (sendWant_lineMoves ..)

theorem jobAsk_lineMoves (h : Hall) (k : Nat) : LineMoves h (h.jobAsk k) := by
  unfold Hall.jobAsk
  split
  · exact .foldl _ (fun g (e : Source × Nat) => askSource_lineMoves g k _ e.2 e.1) _ h
  · exact .refl h

theorem jobClose_lineMoves (h : Hall) (k : Nat) : LineMoves h (h.jobClose k) :=
  .foldl _ (fun g p => .foldl _ (fun g _ => (updNbr_lineMoves g p _).trans (nbrPost_lineMoves ..)) _ g) _ h

theorem lotWithdraw_lineMoves (h : Hall) (k : Nat) (l : Lot) : LineMoves h (h.lotWithdraw k l) := by
  refine .foldl _ (fun g p => ?_) _ h
  have hrefuse := (updNbr_lineMoves g p fun x =>
    { x with rids := x.rids.filter fun (e : Nat × Rid) => !(e.2.server && decide (e.2.lot = k)) }).trans
    (.foldl (fun h e => h.nbrPost p 1 0x22 (beBytes 4 (e.1 / 2) ++ [2, 0, 0, 0])) (fun g e => nbrPost_lineMoves ..)
      ((g.nbr p).rids.filter fun (e : Nat × Rid) => e.2.server && e.2.lot = k) _)
  dsimp only
  split
  · exact hrefuse.trans (.foldl _ (fun g x => nbrPost_lineMoves ..) _ _)
  · exact hrefuse

@[simp] theorem jobAsk_weights (h : Hall) (k : Nat) : (h.jobAsk k).weights = h.weights := (jobAsk_lineMoves h k).weights
@[simp] theorem jobAsk_mem (h : Hall) (k : Nat) : (h.jobAsk k).mem = h.mem := (jobAsk_lineMoves h k).mem
@[simp] theorem jobClose_weights (h : Hall) (k : Nat) : (h.jobClose k).weights = h.weights := (jobClose_lineMoves h k).weights
@[simp] theorem lotWithdraw_weights (h : Hall) (k : Nat) (l : Lot) : (h.lotWithdraw k l).weights = h.weights :=
  (lotWithdraw_lineMoves h k l).weights

/-! ### Progress of a shard (R327) -/

/-- An installation as a fetch of shards. -/
def Install.job (x : Install) : Job :=
  { sources := x.sources, manifest := x.manifest, shards := x.shards
    due := match x.manifest with
      | none => [manifestShard]
      | some m => (List.range (manShards m)).filter fun i => !shardDone x.shards i }

theorem job_of_install {h : Hall} {k : Nat} {x : Install} (hx : h.install k = some x) : h.job k = some x.job := by
  simp only [Hall.job, hx]
  rfl

/-- An installation with the progress of one shard changed. -/
def Install.withShard (x : Install) (i : Nat) (f : ShardSt → ShardSt) : Install :=
  { x with shards := Tab.set x.shards i (f (Tab.get {} x.shards i)) }

theorem install_updShard {h : Hall} {k : Nat} {x : Install} (hx : h.install k = some x) (i : Nat) (f : ShardSt → ShardSt) :
    (h.updShard k i f).install k = some (x.withShard i f) := by
  rw [Hall.updShard, install_updSwap, install_updInstall_same, hx]
  rfl

theorem updShard_mem (h : Hall) (k i : Nat) (f : ShardSt → ShardSt) : (h.updShard k i f).mem = h.mem :=
  ((updInstall_frame ..).trans (updSwap_frame ..)).mem_eq (by simp)

/-- The progress of a shard after a failure, with `n` sources. -/
def ShardSt.afterFail (n : Nat) (s : ShardSt) : ShardSt :=
  if s.fails + 1 < 4 then { s with fails := s.fails + 1 }
  else { s with fails := 0, src := if s.src + 1 < n then s.src + 1 else 0 }

theorem shardFail_eq {h : Hall} {k : Nat} {j : Job} (hj : h.job k = some j) (i : Nat) :
    h.shardFail k i = (h.updShard k i (ShardSt.afterFail j.sources.length)).jobAsk k := by
  simp only [Hall.shardFail, hj]
  rfl

/-- A failure is counted against the source asked; nothing is written. -/
theorem shardFail_spec {h : Hall} {k : Nat} {x : Install} (hx : h.install k = some x) (i : Nat) :
    (((h.shardFail k i).install k).map fun y => Tab.get ({} : ShardSt) y.shards i) =
      some ((Tab.get {} x.shards i).afterFail x.sources.length) ∧ (h.shardFail k i).mem = h.mem := by
  rw [shardFail_eq (job_of_install hx), jobAsk_mem, updShard_mem, install_of_jobs (congrArg Weights.jobs (jobAsk_weights ..)),
    install_updShard hx]
  exact ⟨congrArg some (Tab.get_set_same ..), rfl⟩

theorem shardDone_withShard (x : Install) (i : Nat) (f : ShardSt → ShardSt) (n : Nat) :
    shardDone (x.withShard i f).shards n = if n = i then (f (Tab.get {} x.shards i)).done else shardDone x.shards n := by
  unfold shardDone Install.withShard
  split
  · next e => rw [e, Tab.get_set_same]
  · next e => rw [Tab.get_set_ne _ _ _ _ _ e]

/-- Once another shard is held, those still due are due. -/
theorem mem_due_withShard {x : Install} {m : Bytes} (hm : x.manifest = some m) {i n : Nat} {f : ShardSt → ShardSt} (hn : n ≠ i) :
    n ∈ (x.withShard i f).job.due ↔ n ∈ x.job.due := by
  have hm' : (x.withShard i f).manifest = some m := hm
  simp only [Install.job, hm, hm', List.mem_filter, shardDone_withShard, if_neg hn]

theorem mem_due_iff {x : Install} {m : Bytes} (hm : x.manifest = some m) {i : Nat} :
    i ∈ x.job.due ↔ i < manShards m ∧ shardDone x.shards i = false := by simp [Install.job, hm]

/-! ### Jobs that end (R328, R339) -/

/-- The end of an installation leaves neither it nor its operation, and every lot as it was. -/
theorem installEnd_spec (h : Hall) (k lot status : Nat) : (h.installEnd k lot status).install k = none ∧
    (∀ i, (h.installEnd k lot status).lot i = h.lot i) ∧ Tab.find (h.installEnd k lot status).cmd.ops k = none := by
  simp only [Hall.installEnd]
  refine ⟨?_, fun i => ?_, closeOp_closes ..⟩
  · rw [Hall.install, closeOp_weights]
    exact Tab.find_erase_same ..
  · rw [Hall.lot, closeOp_weights]
    exact lot_of_jobs (congrArg Weights.jobs (jobClose_weights h k)) i

theorem installUndo_lot (h : Hall) (x : Install) : (h.installUndo x).lot x.lot = none := by
  unfold Hall.installUndo
  split
  · exact Tab.find_erase_same ..
  · assumption

/-- An installation that fails is over, with its lot and its operation. -/
theorem installFail_spec {h : Hall} {k : Nat} {x : Install} (hx : h.install k = some x) (status : Nat) :
    (h.installFail k status).install k = none ∧ (h.installFail k status).lot x.lot = none ∧
      Tab.find (h.installFail k status).cmd.ops k = none := by
  obtain ⟨hgone, hlots, hop⟩ := installEnd_spec (h.installUndo x) k x.lot status
  have hend : h.installFail k status = (h.installUndo x).installEnd k x.lot status := by rw [Hall.installFail, hx]
  rw [hend, hlots]
  exact ⟨hgone, installUndo_lot h x, hop⟩

/-- A rolling swap that ends is over, with its operation. -/
theorem swapEnd_spec {h : Hall} {k : Nat} {w : Swap} (hw : h.swap k = some w) (status : Nat) :
    (h.swapEnd k status).swap k = none ∧ Tab.find (h.swapEnd k status).cmd.ops k = none := by
  simp only [Hall.swapEnd, hw]
  refine ⟨?_, closeOp_closes ..⟩
  rw [Hall.swap, closeOp_weights]
  exact Tab.find_erase_same ..

end Sys2Proof.Machine
end

section
/-! PROOFS. Settles O54: the WEIGHT commands (R326, R330, R331, R335, R342, Table 13.8). -/

namespace Sys2Proof.Machine

/-! ### Numbers in a response -/

theorem length_leBytes (n v : Nat) : (leBytes n v).length = n := by
  induction n generalizing v with
  | zero => rfl
  | succ n ih => rw [leBytes, List.length_cons, ih]

theorem leNat_leBytes (n v : Nat) : leNat (leBytes n v) = v % 256 ^ n := by
  induction n generalizing v with
  | zero => simp [leBytes, leNat, Nat.mod_one]
  | succ n ih =>
    have hbyte : 2 ^ 8 = 256 := rfl
    rw [leBytes, leNat, ih, BitVec.toNat_ofNat, hbyte, Nat.pow_succ', Nat.mod_mul]

/-- A number within a response reads as written, cut to its bytes. -/
theorem leAt_append (p q : Bytes) (n v : Nat) {o : Nat} (ho : p.length = o) : leAt (p ++ leBytes n v ++ q) o n = v % 256 ^ n := by
  have hmid : ((p ++ leBytes n v ++ q).drop o).take n = leBytes n v := by
    rw [← ho, List.append_assoc, List.drop_left, List.take_left' (length_leBytes n v)]
  simp only [leAt, slice, hmid, length_leBytes, Nat.sub_self, List.replicate_zero, List.append_nil, leNat_leBytes]

section
variable {s : State} {t : Fin 128} {c : TillCmd} (hc : s.hall.tillCmd t = c)
include hc

/-! ### WEIGHT_INSTALL (R322–R326) -/

/-- An installation enters the list under the command's operation, before it asks its sources. -/
def Hall.installOpened (h : Hall) (c : TillCmd) (src : List Source) : Hall :=
  let g := (h.openOp c.till c.pen c.secure).2
  let x : Install :=
    { lot := g.weights.nextLot, pair := if c.arg 1 1 = 255 then none else some (c.arg 1 1), serve := decide (c.arg 2 1 = 1), sources := src }
  { g with weights.installs := Tab.set g.weights.installs h.cmd.nextHandle x, weights.nextLot := g.weights.nextLot + 1 }

theorem weightInstall_answers (hr : s.hall.tillReady t 0x0301 false false = true) {src : List Source}
    (hsrc : c.sources 10 (c.arg 0 1) = some src) (hn : 1 ≤ c.arg 0 1 ∧ c.arg 0 1 ≤ 4) (hlen : c.length = 10 + 16 * c.arg 0 1)
    (hpair : c.arg 1 1 ≤ 3 ∨ c.arg 1 1 = 255) (hserve : c.arg 2 1 ≤ 1) (hres : c.arg 3 1 = 0) (hms : 1 ≤ c.arg 4 2 ∧ c.arg 4 2 ≤ 1000)
    (hdue : 1 ≤ c.arg 6 4 ∧ c.arg 6 4 ≤ 3600000) :
    Answers (.weightInstall t) s t stAccepted (leBytes 4 s.hall.cmd.nextHandle)
      ((s.hall.installOpened c src).jobAsk s.hall.cmd.nextHandle) := by
  subst hc
  refine answers_of_till rfl hr ?_
  dsimp only
  rw [hsrc]
  have hok : ¬ 3 < (s.hall.tillCmd t).arg 1 1 ∨ (s.hall.tillCmd t).arg 1 1 = 255 := hpair.imp_left not_lt.2
  refine (if_neg (by simpa [hn, hlen, hserve, hres, hms, hdue, imp_iff_not_or] using hok)).trans ((acceptOp_eq ..).trans ?_)
  rw [List.append_nil]
  rfl

omit hc in
theorem installOpened_spec (h : Hall) (c : TillCmd) (src : List Source) (op : Nat) (hop : h.cmd.nextHandle = op) :
    (((h.installOpened c src).jobAsk op).install op).map (fun x => (x.lot, x.serve, x.sources, x.manifest, x.shards)) =
      some (h.weights.nextLot, decide (c.arg 2 1 = 1), src, none, []) ∧ ((h.installOpened c src).jobAsk op).mem = h.mem := by
  subst hop
  rw [install_of_jobs (congrArg Weights.jobs (jobAsk_weights ..)), jobAsk_mem]
  have hfind : (h.installOpened c src).install h.cmd.nextHandle = some _ := Tab.find_set_same ..
  rw [hfind]
  exact ⟨rfl, rfl⟩

/-! ### WEIGHT_GRANT and WEIGHT_REVOKE (R330) -/

section
variable {l : Lot} (hl : s.hall.lot (c.arg 0 4) = some l) (hlen : c.length = 4)
include hl hlen

/-- A grant reaches the check of R330. -/
theorem weightGrant_answers (hr : s.hall.tillReady t 0x0302 false false = true) (hi : l.state ≠ .installing) (hrem : l.state ≠ .removing)
    (hnew : l.grants.contains c.pen = false) :
    (s.hall.grantsFit (l.grants ++ [c.pen]) = true → Answers (.weightGrant t) s t stOK []
      (s.hall.updLot (c.arg 0 4) fun l => { l with grants := l.grants ++ [c.pen] })) ∧
    (s.hall.grantsFit (l.grants ++ [c.pen]) = false → Answers (.weightGrant t) s t stNotPermitted [] s.hall) := by
  subst hc
  refine ⟨fun hfit => answers_of_till rfl hr ?_, fun hfit => answers_of_till rfl hr ?_⟩
  · simp only [hl, hlen, hi, hrem, hnew, hfit]
    rfl
  · simp only [hl, hlen, hi, hrem, hnew, hfit]
    rfl

theorem weightRevoke_answers (hr : s.hall.tillReady t 0x0303 false false = true) (hhas : l.grants.contains c.pen = true) :
    (s.hall.lotBusy (c.arg 0 4) = false → s.hall.penMaps c.pen l = false → s.hall.loadedImages = [] →
      Answers (.weightRevoke t) s t stOK [] (s.hall.updLot (c.arg 0 4) fun l => { l with grants := l.grants.filter (· ≠ c.pen) })) ∧
    (s.hall.lotBusy (c.arg 0 4) = true → Answers (.weightRevoke t) s t stBusy [] s.hall) := by
  subst hc
  refine ⟨fun hfree hmaps himages => answers_of_till rfl hr ?_, fun hbusy => answers_of_till rfl hr ?_⟩
  · simp only [hl, hlen, hhas, hfree, hmaps, himages]
    rfl
  · simp only [hl, hlen, hhas, hbusy]
    rfl

/-! ### WEIGHT_REMOVE -/

theorem weightRemove_answers (hr : s.hall.tillReady t 0x0305 false false = true) (hg : l.grants = [])
    (hfree : s.hall.lotBusy (c.arg 0 4) = false) (hi : l.state ≠ .installing) :
    Answers (.weightRemove t) s t stAccepted (leBytes 4 s.hall.cmd.nextHandle)
      (((((s.hall.openOp c.till c.pen c.secure).2.lotWithdraw (c.arg 0 4) l).updLot (c.arg 0 4) fun l =>
        { l with state := .removing, op := some s.hall.cmd.nextHandle })).removeSettle (c.arg 0 4)) := by
  subst hc
  refine answers_of_till rfl hr ?_
  dsimp only
  simp [hl, hlen, hg, hfree, hi, acceptOp_eq]

end

omit hc in
/-- A lot in REMOVING stays there, or is gone. -/
theorem removeSettle_lot (h : Hall) (k : Nat) : (h.removeSettle k).lot k = none ∨ h.removeSettle k = h := by
  unfold Hall.removeSettle
  split
  · exact .inr rfl
  split
  · exact .inr rfl
  · refine .inl ?_
    dsimp only
    split
    · rw [Hall.lot, closeOp_weights]
      exact Tab.find_erase_same ..
    · exact Tab.find_erase_same ..

omit hc in
theorem removing_spec {h : Hall} {k : Nat} {l : Lot} (hl : h.lot k = some l) (op : Nat) :
    ((h.updLot k fun l => { l with state := .removing, op := some op }).removeSettle k).lot k = none ∨
    ((((h.updLot k fun l => { l with state := .removing, op := some op }).removeSettle k).lot k).map fun y => (y.state, y.op)) =
      some (LotState.removing, some op) := by
  refine (removeSettle_lot _ k).imp id fun he => ?_
  rw [he, lot_updLot_same, hl]
  rfl

/-! ### WEIGHT_QUERY -/

omit hc in
/-- What WEIGHT_QUERY answers. -/
def Lot.report (l : Lot) (first : Nat) : Bytes :=
  leBytes 1 (Config.lotState l.state.rank) ++ leBytes 4 l.lotId ++ leBytes 4 l.gen ++ leBytes 2 l.layers.length ++
    ((List.range 8).map fun i => BitVec.ofNat 8 (((l.parts[i]?).map Prod.fst).getD 255)) ++
    (((l.layers.drop first).take 960).flatMap fun y => leBytes 4 y.gen)

theorem weightQuery_answers (hr : s.hall.tillReady t 0x0306 (decide (c.pen = 0)) false = true) {l : Lot}
    (hl : s.hall.lot (c.arg 0 4) = some l) (hlen : c.length = 6) :
    Answers (.weightQuery t) s t stOK (l.report (c.arg 4 2)) s.hall := by
  subst hc
  refine answers_of_till (sc := forP0) rfl hr ?_
  rw [hl]
  exact if_neg (not_not.2 hlen)

omit hc in
theorem report_fields (l : Lot) (first : Nat) : leAt (l.report first) 1 4 = l.lotId % 2 ^ 32 ∧
    leAt (l.report first) 5 4 = l.gen % 2 ^ 32 ∧ leAt (l.report first) 9 2 = l.layers.length % 2 ^ 16 := by
  have hid := leAt_append (leBytes 1 (Config.lotState l.state.rank))
    (leBytes 4 l.gen ++ leBytes 2 l.layers.length ++ ((List.range 8).map fun i => BitVec.ofNat 8 (((l.parts[i]?).map Prod.fst).getD 255)) ++
      (((l.layers.drop first).take 960).flatMap fun y => leBytes 4 y.gen)) 4 l.lotId (o := 1) rfl
  have hgen := leAt_append (leBytes 1 (Config.lotState l.state.rank) ++ leBytes 4 l.lotId)
    (leBytes 2 l.layers.length ++ ((List.range 8).map fun i => BitVec.ofNat 8 (((l.parts[i]?).map Prod.fst).getD 255)) ++
      (((l.layers.drop first).take 960).flatMap fun y => leBytes 4 y.gen)) 4 l.gen (o := 5) rfl
  have hlayers := leAt_append (leBytes 1 (Config.lotState l.state.rank) ++ leBytes 4 l.lotId ++ leBytes 4 l.gen)
    (((List.range 8).map fun i => BitVec.ofNat 8 (((l.parts[i]?).map Prod.fst).getD 255)) ++
      (((l.layers.drop first).take 960).flatMap fun y => leBytes 4 y.gen)) 2 l.layers.length (o := 9) rfl
  simp only [← List.append_assoc] at hid hgen hlayers
  exact ⟨hid, hgen, hlayers⟩

/-! ### WEIGHT_SWAP, rolling (R335) -/

/-- A rolling swap enters the list under the command's operation, before it asks its sources. -/
def Hall.rollingOpened (h : Hall) (c : TillCmd) (src : List Source) : Hall :=
  let g := (h.openOp c.till c.pen c.secure).2
  { g with weights.swaps := Tab.set g.weights.swaps h.cmd.nextHandle { rolling := true, pen := c.pen, lot := c.arg 4 4, sources := src } }

theorem rollingSwap_answers {l : Lot} (hl : s.hall.lot (c.arg 4 4) = some l) {src : List Source}
    (hr : s.hall.tillReady t 0x0304 (decide (c.pen = 0) || decide (1 < l.grants.length)) false = true) (hmode : c.arg 0 1 = 0)
    (hres : c.arg 1 3 = 0) (hsrc : c.sources 25 (c.arg 24 1) = some src) (hn : 1 ≤ c.arg 24 1 ∧ c.arg 24 1 ≤ 4)
    (hlen : c.length = 25 + 16 * c.arg 24 1) (hnew : c.arg 8 4 = 0) (himage : c.arg 12 4 = 0)
    (hbar : 10 ≤ c.arg 16 2 ∧ c.arg 16 2 ≤ 10000) (hms : 1 ≤ c.arg 18 2 ∧ c.arg 18 2 ≤ 1000)
    (hdue : 1 ≤ c.arg 20 4 ∧ c.arg 20 4 ≤ 3600000) (hfree : s.hall.lotBusy (c.arg 4 4) = false)
    (hst : l.state = .ready ∨ l.state = .mixed) (hgrant : l.grants.contains c.pen = true) :
    Answers (.weightSwap t) s t stAccepted (leBytes 4 s.hall.cmd.nextHandle)
      ((s.hall.rollingOpened c src).jobAsk s.hall.cmd.nextHandle) := by
  subst hc
  refine answers_of_till (sc := fun c h => decide (c.pen = 0) || match h.lot (c.arg 4 4) with
      | some l => decide (1 < l.grants.length)
      | none => false) rfl (by simpa only [hl] using hr) ?_
  have hfree' : (s.hall.openOp (s.hall.tillCmd t).till (s.hall.tillCmd t).pen (s.hall.tillCmd t).secure).2.lotBusy
    ((s.hall.tillCmd t).arg 4 4) = false := hfree
  have hl' : (s.hall.openOp (s.hall.tillCmd t).till (s.hall.tillCmd t).pen (s.hall.tillCmd t).secure).2.lot
    ((s.hall.tillCmd t).arg 4 4) = some l := hl
  dsimp only
  simp only [hmode, decide_true, if_true, hsrc]
  refine (if_neg (by simp [hn, hlen, hres, hnew, himage, hbar, hms, hdue])).trans ((acceptOp_eq ..).trans ?_)
  simp only [hfree', hl', List.append_nil, Bool.false_eq_true, if_false]
  rw [if_neg (by rcases hst with hst | hst <;> simp [hst, List.contains_iff_mem.1 hgrant])]
  rfl

omit hc in
theorem rollingOpened_spec (h : Hall) (c : TillCmd) (src : List Source) (op : Nat) (hop : h.cmd.nextHandle = op) :
    (((h.rollingOpened c src).jobAsk op).swap op).map (fun w => (w.rolling, w.pen, w.lot, w.state, w.manifest, w.sources)) =
      some (true, c.pen, c.arg 4 4, SwapState.fetch, none, src) ∧ ((h.rollingOpened c src).jobAsk op).mem = h.mem := by
  subst hop
  rw [swap_of_jobs (congrArg Weights.jobs (jobAsk_weights ..)), jobAsk_mem]
  have hfind : (h.rollingOpened c src).swap h.cmd.nextHandle = some _ := Tab.find_set_same ..
  rw [hfind]
  exact ⟨rfl, rfl⟩

/-! ### WEIGHT_ADAPTER (R331) -/

omit hc in
/-- A manifest that does not verify has a status of its own. -/
theorem manifestFault_ne_ok {h : Hall} {m : Bytes} {kind st : Nat} (hf : h.manifestFault m kind = some st) : st ≠ stOK := by
  unfold Hall.manifestFault at hf
  split_ifs at hf <;> cases hf <;> decide

omit hc in
/-- An adapter that passes every check is listed, and any other changes nothing. -/
theorem adapterInstall_spec (h : Hall) (pen mva : Nat) (b : Bytes) (k : Nat) :
    ((h.adapterInstall pen mva b k).1 ≠ stOK ∧ (h.adapterInstall pen mva b k).2 = h) ∨
    ((h.adapterInstall pen mva b k).1 = stOK ∧
      (Tab.find (h.adapterInstall pen mva b k).2.weights.adapters k).map (fun y => (y.pen, y.mva, y.lotId)) =
        some (pen, mva, manLotId (b.take (manLen b)))) := by
  unfold Hall.adapterInstall
  extract_lets m n pages half
  split
  · next st hf => exact .inl ⟨manifestFault_ne_ok hf, rfl⟩
  split
  · exact .inl ⟨(by decide : stBadArg ≠ stOK), rfl⟩
  split
  · exact .inl ⟨(by decide : stVerifyFailed ≠ stOK), rfl⟩
  split
  · exact .inl ⟨(by decide : stNotPermitted ≠ stOK), rfl⟩
  split
  · exact .inl ⟨(by decide : stBadArg ≠ stOK), rfl⟩
  split
  · exact .inl ⟨(by decide : stNoResource ≠ stOK), rfl⟩
  · exact .inr ⟨rfl, congrArg (Option.map _) (Tab.find_set_same ..)⟩

/-- What WEIGHT_ADAPTER leaves, once its bytes are copied. -/
def Hall.adapterPlaced (h : Hall) (c : TillCmd) : Hall :=
  let r := (h.openOp c.till c.pen c.secure).2.stageCopy c.pen (c.arg 8 8) (c.arg 16 4)
  match r.1 with
  | .inl st => r.2.closeOp h.cmd.nextHandle st
  | .inr b =>
    let a := r.2.adapterInstall c.pen (c.arg 0 8) b r.2.weights.nextLot
    a.2.closeOp h.cmd.nextHandle a.1 (if a.1 = stOK then leBytes 4 r.2.weights.nextLot else [])

theorem weightAdapter_answers (hr : s.hall.tillReady t 0x0307 (decide (c.pen = 0)) false = true) (hlen : c.length = 20) :
    Answers (.weightAdapter t) s t stAccepted (leBytes 4 s.hall.cmd.nextHandle) (s.hall.adapterPlaced c) := by
  subst hc
  refine answers_of_till (sc := forP0) rfl hr ((if_neg (not_not.2 hlen)).trans ((acceptOp_eq ..).trans ?_))
  rw [List.append_nil]
  refine congrArg (Answer.mk stAccepted (leBytes 4 s.hall.cmd.nextHandle)) ?_
  unfold Hall.adapterPlaced
  generalize Hall.stageCopy _ _ _ _ = r
  obtain ⟨_ | b, g⟩ := r <;> rfl

end

/-- The command's operation is over; an adapter is listed exactly where its bytes are copied and pass every check. -/
theorem adapterPlaced_spec (h : Hall) (c : TillCmd) {r : Sum Nat Bytes × Hall}
    (hr : (h.openOp c.till c.pen c.secure).2.stageCopy c.pen (c.arg 8 8) (c.arg 16 4) = r) :
    Tab.find (h.adapterPlaced c).cmd.ops h.cmd.nextHandle = none ∧
    (∀ st, r.1 = .inl st → (h.adapterPlaced c).weights.adapters = h.weights.adapters) ∧
    ∀ raw, r.1 = .inr raw →
      if (r.2.adapterInstall c.pen (c.arg 0 8) raw h.weights.nextLot).1 = stOK then
        (Tab.find (h.adapterPlaced c).weights.adapters h.weights.nextLot).map (fun y => (y.pen, y.mva, y.lotId)) =
          some (c.pen, c.arg 0 8, manLotId (raw.take (manLen raw)))
      else (h.adapterPlaced c).weights.adapters = h.weights.adapters := by
  have hw : r.2.weights = h.weights := by rw [← hr, stageCopy_weights]; rfl
  unfold Hall.adapterPlaced
  rw [hr]
  obtain ⟨st | b, g⟩ := r <;> dsimp only at hw ⊢
  · refine ⟨closeOp_closes .., fun _ _ => ?_, fun _ he => nomatch he⟩
    rw [closeOp_weights, hw]
  · refine ⟨closeOp_closes .., fun _ he => (nomatch he), fun raw he => ?_⟩
    cases he
    rw [closeOp_weights, hw]
    obtain ⟨hne, hsame⟩ | ⟨hok, hfound⟩ := adapterInstall_spec g c.pen (c.arg 0 8) b h.weights.nextLot
    · rw [if_neg hne, hsame, hw]
    · rw [if_pos hok]
      exact hfound

end Sys2Proof.Machine
end

section
/-! PROOFS. Settles O54, continued: what moves a job on, and the statement (R327, R328, R335–R338, Tables 13.4 and 13.6). -/

namespace Sys2Proof.Machine

/-! ### Shards that arrive or are late (R327) -/

section
variable {s : State} {k i : Nat}

theorem shard_idle (hj : s.hall.job k = none) (d : Bytes) :
    Becomes (.shardVerify k i d) s s.hall ∧ Becomes (.shardTimeout k i) s s.hall := by
  change execShardVerify k i d s = _ ∧ execShardTimeout k i s = _
  simp only [execShardVerify, execShardTimeout, run_next, hj, and_self]

theorem shardTimeout_idle {j : Job} (hj : s.hall.job k = some j) (hi : j.due.contains i = false) :
    Becomes (.shardTimeout k i) s s.hall := by
  change execShardTimeout k i s = _
  simp only [execShardTimeout, run_next, hj, hi, Bool.not_false, if_true]

/-- A shard that is late counts as a failure of its source, which may be asked again. -/
theorem shardTimeout_fails {j : Job} (hj : s.hall.job k = some j) (hi : j.due.contains i = true) :
    Gives (.shardTimeout k i) s (LineMoves (s.hall.shardFail k i)) := by
  refine ⟨_, by change execShardTimeout k i s = _; rw [execShardTimeout, run_next], ?_⟩
  simp only [hj, hi, Bool.not_true, Bool.false_eq_true, if_false]
  split
  · split
    · split
      · exact (updNbr_lineMoves ..).trans (sendWant_lineMoves ..)
      · exact .refl _
    · exact .refl _
  · exact .refl _

variable {x : Install} {m : Bytes} {src : Source} {l : Lot}

/-- A shard in host memory that is due, and is not the manifest, is judged by its bytes. -/
theorem shardVerify_judges (hx : s.hall.install k = some x) (hm : x.manifest = some m) (hsent : s.hall.sentWhole k i = none)
    (hsrc : x.sources[(Tab.get ({} : ShardSt) x.shards i).src]? = some src) (hhost : src.nbr = false) (hdue : i ∈ x.job.due)
    (hi : i ≠ manifestShard) :
    Becomes (.shardVerify k i []) s
      (if (s.hall.hostShard src.addr i m.length).length = shardBytes ∧
          Config.sha512 (s.hall.hostShard src.addr i m.length) = manDigest m i then
        s.hall.installShard k i (s.hall.hostShard src.addr i m.length)
      else s.hall.shardFail k i) := by
  obtain ⟨-, hnot⟩ := (mem_due_iff hm).1 hdue
  have hj := job_of_install hx
  have hsrc' : x.job.sources[(Tab.get ({} : ShardSt) x.job.shards i).src]? = some src := hsrc
  have hm' : x.job.manifest = some m := hm
  have hnot' : shardDone x.job.shards i = false := hnot
  change execShardVerify k i [] s = _
  simp only [execShardVerify, run_next, hj, hsent, hsrc', hhost, hm', hdue, Hall.shardEffect, Hall.shardArrives, hi, hnot', hx,
    List.contains_iff_mem.2, Bool.not_true, Bool.or_self, Bool.false_eq_true, if_false, if_true, Option.map_some, Option.getD_some,
    Option.isSome_some]

/-- A shard that verifies is programmed and done, while others are due. -/
theorem installShard_done {h : Hall} (hx : h.install k = some x) (hm : x.manifest = some m) (hl : h.lot x.lot = some l) {p n : Nat}
    (hplace : shardPlace l.partShards 0 i = some (p, n)) (hprog : h.mayProgram (l.blockOf p n).1 (l.blockOf p n).2 = true)
    (hother : ∃ n ∈ x.job.due, n ≠ i) (data : Bytes) :
    ((h.installShard k i data).install k).map (fun y => shardDone y.shards i) = some true := by
  obtain ⟨o, ho, hne⟩ := hother
  let g := ((h.programShard (l.blockOf p n).1 (l.blockOf p n).2 data).programShard ((l.blockOf p n).1 + 4) (l.blockOf p n).2 data)
  have hg : g.install k = some x := (install_of_jobs (by simp [g]) k).trans hx
  have hheld : ((g.updShard k i fun s => { s with done := true }).jobAsk k).install k =
      some (x.withShard i fun s => { s with done := true }) :=
    (install_of_jobs (congrArg Weights.jobs (jobAsk_weights ..)) k).trans (install_updShard hg ..)
  have hdue : (x.withShard i fun s => { s with done := true }).job.due ≠ [] := List.ne_nil_of_mem ((mem_due_withShard hm hne).2 ho)
  have hshard : h.installShard k i data = (g.updShard k i fun s => { s with done := true }).jobAsk k := by
    simp only [Hall.installShard, hx, hl, hplace, hprog, Bool.not_true, Bool.false_eq_true, if_false]
    rw [job_of_install hheld]
    exact if_neg hdue
  rw [hshard, hheld, Option.map_some, shardDone_withShard, if_pos rfl]

end

/-! ### Layers of a rolling swap (R336, Table 13.4) -/

section
variable {s : State} {h : Hall} {k : Nat} {w : Swap} {m : Bytes} {l : Lot}

theorem layerProgrammed_idle (hw : h.swap k = some w) (hm : w.manifest = some m) (hl : h.lot w.lot = some l)
    (hi : w.state ≠ .fetch ∨ ((l.layerShards w.layer).all fun x => shardDone w.shards x.1) = false) : h.layerProgrammed k = h := by
  simp only [Hall.layerProgrammed, hw, hm, hl]
  exact if_pos (hi.imp_right .inr)

/-- A layer whose shards are all held is PROGRAMMED, or what they hold ends the swap. -/
theorem layerProgrammed_spec (hw : h.swap k = some w) (hm : w.manifest = some m) (hl : h.lot w.lot = some l) (hr : w.rolling = true)
    (hst : w.state = .fetch) (hall : ((l.layerShards w.layer).all fun x => shardDone w.shards x.1) = true) :
    ((h.layerProgrammed k).swap k).map Swap.state = some SwapState.programmed ∨ (h.layerProgrammed k).swap k = none := by
  simp only [Hall.layerProgrammed, hw, hm, hl]
  rw [if_neg (by simp [hst, hr, hall])]
  generalize (l.layerTensors w.layer).all _ = ok
  cases ok with
  | true =>
    left
    rw [if_pos rfl, swap_of_jobs (congrArg Weights.jobs (jobAsk_weights ..)), swap_updSwap_same, hw]
    rfl
  | false => exact .inr (swapEnd_spec hw _).1

theorem layerTabled_idle (hw : h.swap k = some w) (hm : w.manifest = some m) (hl : h.lot w.lot = some l)
    (hi : w.state ≠ .programmed ∨ h.slotFree w l (manGen m) = false) : h.layerTabled k = h := by
  simp only [Hall.layerTabled, hw, hm, hl]
  exact if_pos hi

/-- A layer whose slot is free is tabled, and its barrier is raised. -/
theorem layerTabled_spec (hw : h.swap k = some w) (hm : w.manifest = some m) (hl : h.lot w.lot = some l) (hst : w.state = .programmed)
    (hfree : h.slotFree w l (manGen m) = true) : ((h.layerTabled k).swap k).map Swap.state = some SwapState.held := by
  simp only [Hall.layerTabled, hw, hm, hl]
  rw [if_neg (by simp [hst, hfree]), swap_updSwap_same, swap_of_jobs, hw]
  · rfl
  · refine foldl_jobs _ (fun g c => ?_) _ h
    split
    · split
      · exact congrArg Weights.jobs (writeBytes_weights ..)
      · rfl
    · rfl

/-! ### The flip of a layer (R337) -/

theorem swapEnd_layers (h : Hall) (k status i : Nat) : ((h.swapEnd k status).lot i).map Lot.layers = (h.lot i).map Lot.layers := by
  cases hw : h.swap k with
  | none => simp only [Hall.swapEnd, hw]
  | some w =>
    have hclosed := lot_of_jobs ((congrArg Weights.jobs (jobClose_weights ..)).trans (dropSpares_jobs h w)) (h' := (h.dropSpares w).jobClose k)
    simp only [Hall.swapEnd, hw]
    generalize (h.dropSpares w).jobClose k = g at hclosed ⊢
    rw [Hall.lot, closeOp_weights, ← hclosed i]
    cases w.begun with
    | true =>
      refine lot_updLot_field Lot.layers g w.lot i _ fun l => ?_
      split
      · split <;> rfl
      · rfl
    | false => rfl

/-- A swap that goes on to its next layer, or ends, leaves every lot's layers. -/
theorem swapSettle_layers (h : Hall) (k i : Nat) : ((h.swapSettle k).lot i).map Lot.layers = (h.lot i).map Lot.layers := by
  unfold Hall.swapSettle
  split
  · rfl
  split
  · dsimp only
    split
    · rfl
    split
    · rw [lot_of_jobs (congrArg Weights.jobs (jobAsk_weights ..)), lot_updSwap]
    · exact swapEnd_layers ..
  · rfl

theorem swapsSettle_layers (h : Hall) (i : Nat) : (h.swapsSettle.lot i).map Lot.layers = (h.lot i).map Lot.layers :=
  (foldl_same (fun g : Hall => (g.lot i).map Lot.layers) (fun g (e : Nat × Swap) => g.swapSettle e.1)
    (fun g e => swapSettle_layers g e.1 i) h.weights.swaps h.oldSettle).trans
    (congrArg _ (lot_of_jobs (oldSettle_jobs h) i))

/-- The layers of a lot, one of them in a new generation. -/
def Lot.layersFlipped (l : Lot) (i gen : Nat) : List Layer :=
  l.layers.zipIdx.map fun e => if e.2 = i then { e.1 with gen := gen } else e.1

theorem layersFlipped_gen {l : Lot} {i : Nat} {y : Layer} (hy : l.layers[i]? = some y) (gen : Nat) :
    ((l.layersFlipped i gen)[i]?).map Layer.gen = some gen := by
  simp [Lot.layersFlipped, hy]

theorem flipLayer_layers (hl : h.lot w.lot = some l) (y : Layer) :
    ((h.flipLayer k w m l y).lot w.lot).map Lot.layers = some (l.layersFlipped w.layer (manGen m)) := by
  simp only [Hall.flipLayer]
  rw [swapsSettle_layers]
  rw [Hall.lot, postMany_weights]
  change ((Hall.lot (Hall.updSwap _ _ _) _).map _ = _)
  rw [lot_updSwap, lot_updLot_same, lot_of_jobs (h := h) (by simp), hl]
  rfl

theorem layerFlip_flips (hw : h.swap k = some w) (hm : w.manifest = some m) (hl : h.lot w.lot = some l) {y : Layer}
    (hy : l.layers[w.layer]? = some y) (hst : w.state = .held) (hempty : h.layerEmpty w.lot w.layer = true)
    (hdone : h.withdrawsDone = true) :
    (((h.layerFlip k).lot w.lot).bind fun z => (z.layers[w.layer]?).map Layer.gen) = some (manGen m) := by
  have hflip : h.layerFlip k = h.flipLayer k w m l y := by
    simp only [Hall.layerFlip, hw, hm, hl, hy]
    exact if_pos ⟨hst, hempty, hdone⟩
  obtain ⟨z, hz, hlayers⟩ := Option.map_eq_some_iff.1 (flipLayer_layers (k := k) (m := m) hl y)
  rw [hflip, hz, Option.bind_some, hlayers, layersFlipped_gen hy]

theorem layerFlip_idle (hw : h.swap k = some w) (hm : w.manifest = some m) (hl : h.lot w.lot = some l)
    (hi : w.state ≠ .held ∨ h.layerEmpty w.lot w.layer = false) : h.layerFlip k = h := by
  simp only [Hall.layerFlip, hw, hm, hl]
  split
  · refine if_neg fun ⟨hst, hempty, _⟩ => ?_
    rcases hi with hi | hi
    · exact hi hst
    · simp [hi] at hempty
  · rfl

/-! ### Barriers and deadlines (R328, Table 13.4) -/

/-- A barrier that is not lowered in time is TABLED again. -/
theorem barrierTimeout_becomes (hw : s.hall.swap k = some w) :
    (w.rolling = true → w.state = .held → s.hall.layerEmpty w.lot w.layer = false →
      Becomes (.swapBarrierTimeout k) s (s.hall.updSwap k fun w => { w with state := .tabled })) ∧
    (w.rolling = false ∨ w.state ≠ .held → Becomes (.swapBarrierTimeout k) s s.hall) := by
  change (_ → _ → _ → execSwapBarrierTimeout k s = _) ∧ (_ → execSwapBarrierTimeout k s = _)
  simp only [execSwapBarrierTimeout, run_next, hw]
  refine ⟨fun hr hst hempty => by simp [hr, hst, hempty], fun hi => ?_⟩
  rcases hi with hi | hi <;> simp [hi]

theorem barrierRetry_becomes (hw : s.hall.swap k = some w) :
    (w.rolling = true → w.state = .tabled → Becomes (.swapBarrierRetry k) s (s.hall.updSwap k fun w => { w with state := .held })) ∧
    (w.rolling = false ∨ w.state ≠ .tabled → Becomes (.swapBarrierRetry k) s s.hall) := by
  change (_ → _ → execSwapBarrierRetry k s = _) ∧ (_ → execSwapBarrierRetry k s = _)
  simp only [execSwapBarrierRetry, run_next, hw]
  refine ⟨fun hr hst => by simp [hr, hst], fun hi => ?_⟩
  rcases hi with hi | hi <;> simp [hi]

theorem updSwap_spec (hw : h.swap k = some w) (f : Swap → Swap) :
    (h.updSwap k f).swap k = some (f w) ∧ Frame h (h.updSwap k f) [.weights] noReg :=
  ⟨by rw [swap_updSwap_same, hw]; rfl, updSwap_frame ..⟩

/-- A rolling swap that is not flipped for good ends at its deadline. -/
theorem swapStop_rolling (hw : h.swap k = some w) (hr : w.rolling = true) (hst : w.state ≠ .flipped) (status : Nat) :
    h.swapStop k status = h.swapEnd k status := by
  simp only [Hall.swapStop, hw, hr, Bool.not_true, Bool.false_eq_true, if_false]
  split
  · exact if_neg fun he => hst he.1
  · rfl

theorem swapDeadline_becomes (hw : s.hall.swap k = some w) :
    (w.rolling = true → w.state ≠ .flipped → Becomes (.swapDeadline k) s (s.hall.swapEnd k stDeadline)) ∧
    (w.rolling = false → Becomes (.swapDeadline k) s s.hall) := by
  change (_ → _ → execSwapDeadline k s = _) ∧ (_ → execSwapDeadline k s = _)
  simp only [execSwapDeadline, run_next, hw]
  exact ⟨fun hr hst => by rw [if_pos hr, swapStop_rolling hw hr hst], fun hr => by rw [if_neg (by simp [hr])]⟩

/-! ### Consistent swaps (R338, Table 13.6) -/

/-- Launch entries take requests again. -/
def Hall.intakeSet (h : Hall) (l : List Nat) : Hall := l.foldl (fun h e => h.updLaunch e fun x => { x with intakeOn := true }) h

theorem launchEntry_updLaunch (h : Hall) (k e : Nat) (f : LaunchEntry → LaunchEntry) :
    (h.updLaunch k f).launchEntry e = if e = k then (h.launchEntry e).map f else h.launchEntry e := by
  unfold Hall.updLaunch
  split
  · next x hx =>
    split
    · next he => rw [he, hx]; exact Tab.find_set_same ..
    · next he => exact Tab.find_set_ne _ _ _ _ he
  · next hx =>
    split
    · next he => rw [he, hx]; rfl
    · rfl

/-- Each of them does, where it is there. -/
theorem intakeSet_on (h : Hall) (l : List Nat) : ∀ e ∈ l, ∀ x, (h.intakeSet l).launchEntry e = some x → x.intakeOn = true := by
  refine (foldl_reaches (look := Hall.launchEntry) (P := fun o => ∀ x, o = some x → x.intakeOn = true) (fun g i x hx => ?_)
    (fun g i j hj => ?_) l h).1
  · rw [launchEntry_updLaunch, if_pos rfl] at hx
    obtain ⟨y, -, rfl⟩ := Option.map_eq_some_iff.1 hx
    rfl
  · rw [launchEntry_updLaunch, if_neg hj]

theorem updLaunch_mem (h : Hall) (k : Nat) (f : LaunchEntry → LaunchEntry) : (h.updLaunch k f).mem = h.mem := by
  unfold Hall.updLaunch
  split <;> rfl

theorem intakeSet_mem (h : Hall) (l : List Nat) : (h.intakeSet l).mem = h.mem := foldl_same Hall.mem _ (fun g e => updLaunch_mem g e _) l h

/-- A consistent swap that ends is over with its operation, and its entries take requests. -/
theorem consistentEnd_spec (hw : h.swap k = some w) (status : Nat) :
    (h.consistentEnd k status).swap k = none ∧ Tab.find (h.consistentEnd k status).cmd.ops k = none ∧
      (h.consistentEnd k status).mem.ram = h.mem.ram ∧
      ∀ e ∈ w.held, ∀ x, (h.consistentEnd k status).launchEntry e = some x → x.intakeOn = true := by
  have hend : h.consistentEnd k status =
      ({ h.intakeSet w.held with weights.swaps := Tab.erase (h.intakeSet w.held).weights.swaps k } : Hall).closeOp k status := by
    rw [Hall.consistentEnd, hw]
    rfl
  rw [hend]
  refine ⟨?_, closeOp_closes .., ?_, fun e he x hx => ?_⟩
  · rw [Hall.swap, closeOp_weights]
    exact Tab.find_erase_same ..
  · exact ((closeOp_frame ..).1 .ram (by simp [postParts])).trans (congrArg MemSys.ram (intakeSet_mem h w.held))
  · rw [Hall.launchEntry, closeOp_data] at hx
    exact intakeSet_on h w.held e he x hx

theorem consistentSwap_becomes (hw : s.hall.swap k = some w) :
    (w.rolling = false → s.hall.heldDrained w = true →
      Becomes (.consistentSwapFlip k) s ((s.hall.consistentFlip w).consistentEnd k stOK) ∧ Becomes (.consistentSwapDeadline k) s s.hall) ∧
    (w.rolling = false → s.hall.heldDrained w = false →
      Becomes (.consistentSwapFlip k) s s.hall ∧ Becomes (.consistentSwapDeadline k) s (s.hall.consistentEnd k stDeadline)) ∧
    (w.rolling = true → Becomes (.consistentSwapFlip k) s s.hall ∧ Becomes (.consistentSwapDeadline k) s s.hall) := by
  change (_ → _ → execConsistentSwapFlip k s = _ ∧ execConsistentSwapDeadline k s = _) ∧
    (_ → _ → execConsistentSwapFlip k s = _ ∧ execConsistentSwapDeadline k s = _) ∧
    (_ → execConsistentSwapFlip k s = _ ∧ execConsistentSwapDeadline k s = _)
  simp only [execConsistentSwapFlip, execConsistentSwapDeadline, run_next, hw]
  exact ⟨fun hr hd => by simp [hr, hd], fun hr hd => by simp [hr, hd], fun hr => by simp [hr]⟩

end

/-! ### The statement -/

section
variable {s : State} {k : Nat}

theorem swapLayerProgrammed_becomes : Becomes (.swapLayerProgrammed k) s (s.hall.layerProgrammed k) := rfl
theorem swapLayerTabled_becomes : Becomes (.swapLayerTabled k) s (s.hall.layerTabled k) := rfl
theorem swapLayerFlip_becomes : Becomes (.swapLayerFlip k) s (s.hall.layerFlip k) := rfl
theorem installDeadline_becomes : Becomes (.installDeadline k) s (s.hall.installFail k stDeadline) := rfl

/-- Nothing moves a swap on that is not there. -/
theorem swap_idle (hw : s.hall.swap k = none) : ∀ i ∈ [Instr.swapLayerProgrammed k, .swapLayerTabled k, .swapLayerFlip k,
    .swapBarrierTimeout k, .swapBarrierRetry k, .swapDeadline k, .consistentSwapFlip k, .consistentSwapDeadline k],
    Becomes i s s.hall := by
  have hprogrammed : s.hall.layerProgrammed k = s.hall := by simp only [Hall.layerProgrammed, hw]
  have htabled : s.hall.layerTabled k = s.hall := by simp only [Hall.layerTabled, hw]
  have hflip : s.hall.layerFlip k = s.hall := by simp only [Hall.layerFlip, hw]
  have htimeout : execSwapBarrierTimeout k s = .next s := by simp only [execSwapBarrierTimeout, run_next, hw]
  have hretry : execSwapBarrierRetry k s = .next s := by simp only [execSwapBarrierRetry, run_next, hw]
  have hdeadline : execSwapDeadline k s = .next s := by simp only [execSwapDeadline, run_next, hw]
  have hcflip : execConsistentSwapFlip k s = .next s := by simp only [execConsistentSwapFlip, run_next, hw]
  have hcdeadline : execConsistentSwapDeadline k s = .next s := by simp only [execConsistentSwapDeadline, run_next, hw]
  simp only [List.forall_mem_cons, List.not_mem_nil, false_implies, implies_true, and_true]
  exact ⟨hprogrammed ▸ swapLayerProgrammed_becomes, htabled ▸ swapLayerTabled_becomes, hflip ▸ swapLayerFlip_becomes,
    htimeout, hretry, hdeadline, hcflip, hcdeadline⟩

end

/-- Settles O54: each command by what its body answers, each event by what it makes of its job. -/
theorem weightsAndSwaps : Obligations.WeightsAndSwaps := by
  unfold Obligations.WeightsAndSwaps
  refine ⟨fun s t => ?_, fun s k => ?_⟩
  · intro h c b op k
    refine ⟨?install, ?lots, ?swap, ?adapter⟩
    case install =>
      intro src hr hsrc hn hn' hlen hpair hserve hres hms hms' hdue hdue'
      obtain ⟨hfields, hmem⟩ := installOpened_spec h c src op rfl
      exact ⟨_, weightInstall_answers rfl hr hsrc ⟨hn, hn'⟩ hlen hpair hserve hres ⟨hms, hms'⟩ ⟨hdue, hdue'⟩, hmem, hfields⟩
    case lots =>
      intro l hl
      have hgrants (f : Lot → Lot) : ((h.updLot k f).lot k).map Lot.grants = some (f l).grants := by rw [lot_updLot_same, hl]; rfl
      refine ⟨fun hr hlen hi hrem hnew => ?_, fun hr hlen hhas => ?_, fun hr hlen hg hfree hi => ?_, fun hr hlen => ?_⟩
      · obtain ⟨hfits, hfull⟩ := weightGrant_answers rfl hl hlen hr hi hrem hnew
        exact ⟨fun hf => ⟨_, hfits hf, hgrants _, updLot_frame ..⟩, hfull⟩
      · obtain ⟨hgone, hbusy⟩ := weightRevoke_answers rfl hl hlen hr hhas
        exact ⟨fun hf hm hi => ⟨_, hgone hf hm hi, hgrants _, updLot_frame ..⟩, hbusy⟩
      · have hl' : ((h.openOp c.till c.pen c.secure).2.lotWithdraw k l).lot k = some l :=
          (lot_of_jobs (congrArg Weights.jobs (lotWithdraw_weights ..)) k).trans hl
        exact ⟨_, weightRemove_answers rfl hl hlen hr hg hfree hi, removing_spec hl' op⟩
      · exact ⟨_, weightQuery_answers rfl hr hl hlen, report_fields ..⟩
    case swap =>
      intro l src hl hmode hres hr hsrc hn hn' hlen hnew himage hbar hbar' hms hms' hdue hdue' hfree hst hgrant
      obtain ⟨hfields, hmem⟩ := rollingOpened_spec h c src op rfl
      exact ⟨_, rollingSwap_answers rfl hl hr hmode hres hsrc ⟨hn, hn'⟩ hlen hnew himage ⟨hbar, hbar'⟩ ⟨hms, hms'⟩ ⟨hdue, hdue'⟩
        hfree hst hgrant, hmem, hfields⟩
    case adapter =>
      intro hr hlen h0 r
      obtain ⟨hop, hfault, hplaced⟩ := adapterPlaced_spec h c (r := r) rfl
      refine ⟨_, weightAdapter_answers rfl hr hlen, hop, ?_⟩
      split
      · next st hst => exact hfault st hst
      · next raw hraw => exact hplaced raw hraw
  · intro h
    refine ⟨fun hj i d => shard_idle hj d, fun x j i hx hj => ?shard, fun hx => ?noInstall, fun x hx => ?install, swap_idle,
      fun w hw => ?swap⟩
    case shard =>
      obtain rfl : x.job = j := Option.some.inj ((job_of_install hx).symm.trans hj)
      intro st failed
      have hfail : ((h.shardFail k i).install k).map (fun y => Tab.get ({} : ShardSt) y.shards i) = some failed ∧
          (h.shardFail k i).mem = h.mem := shardFail_spec hx i
      refine ⟨shardTimeout_idle hj, fun hi => ?_, fun m src l hm hsent hsrc hhost hdue hi hl => ?_⟩
      · obtain ⟨h', hb, hmoves⟩ := shardTimeout_fails hj hi
        refine ⟨h', hb, ?_⟩
        dsimp only
        rwa [install_of_jobs (congrArg Weights.jobs hmoves.weights), hmoves.mem]
      · refine ⟨_, shardVerify_judges hx hm hsent hsrc hhost hdue hi, fun hbad => ?_, fun hlen hdig hother p n hplace hprog => ?_⟩
        · rw [if_neg hbad]
          exact hfail
        · rw [if_pos ⟨hlen, hdig⟩]
          exact installShard_done hx hm hl hplace hprog hother _
    case noInstall =>
      have hsame : h.installFail k stDeadline = h := by simp only [Hall.installFail, hx]
      exact hsame ▸ installDeadline_becomes
    case install => exact ⟨_, installDeadline_becomes, installFail_spec hx _⟩
    case swap =>
      obtain ⟨htimeout, hlowered⟩ := barrierTimeout_becomes hw
      obtain ⟨hretry, hraised⟩ := barrierRetry_becomes hw
      obtain ⟨hdeadline, hundue⟩ := swapDeadline_becomes hw
      obtain ⟨hdrained, hheld, hrolling⟩ := consistentSwap_becomes hw
      refine ⟨fun m l hm hl hr => ⟨fun hi => ?_, fun hst hall => ?_, fun hi => ?_, fun hst hfree => ?_, fun y hy => ⟨?_, fun hi => ?_⟩⟩,
        fun hr hst he => ⟨_, htimeout hr hst he, updSwap_spec hw _⟩, hlowered, fun hr hst => ⟨_, hretry hr hst, updSwap_spec hw _⟩, hraised,
        fun hr hst => ⟨_, hdeadline hr hst, swapEnd_spec hw _⟩, hundue, fun hr hd => ?_, fun hr hd => ?_, hrolling⟩
      · exact layerProgrammed_idle hw hm hl hi ▸ swapLayerProgrammed_becomes
      · exact ⟨_, swapLayerProgrammed_becomes, layerProgrammed_spec hw hm hl hr hst hall⟩
      · exact layerTabled_idle hw hm hl hi ▸ swapLayerTabled_becomes
      · exact ⟨_, swapLayerTabled_becomes, layerTabled_spec hw hm hl hst hfree⟩
      · exact fun hst he hdone => ⟨_, swapLayerFlip_becomes, layerFlip_flips hw hm hl hy hst he hdone⟩
      · exact layerFlip_idle hw hm hl hi ▸ swapLayerFlip_becomes
      · obtain ⟨hflip, hnone⟩ := hdrained hr hd
        have hw' : (h.consistentFlip w).swap k = some w := (swap_of_jobs (consistentFlip_jobs h w) k).trans hw
        obtain ⟨hgone, hop, -, hon⟩ := consistentEnd_spec hw' stOK
        exact ⟨⟨_, hflip, hgone, hop, hon⟩, hnone⟩
      · obtain ⟨hnone, hend⟩ := hheld hr hd
        exact ⟨hnone, _, hend, consistentEnd_spec hw _⟩

end Sys2Proof.Machine
end
